-- ==== Sys2Proof/Word.lean ====
section
/-!
DEFINITION. The word types of the T9: a byte, a 64-bit word, a 32-bit lane element, a 128-byte line's length.
-/
namespace Sys2Proof

/-- A byte of memory. -/
abbrev Byte := BitVec 8

/-- A 64-bit register or address (R183). -/
abbrev Word := BitVec 64

/-- One lane's element of a lane register (R183). -/
abbrev Elem := BitVec 32

end Sys2Proof
end

