-- ==== Sys2Proof/Config.lean ====
section
/-!
DEFINITION. What the spec fixes per chip (fuses) and what it leaves free: constants without a body, so that nothing can be
proved of their values (log 11, log 12).
-/
namespace Sys2Proof.Config

/-- The 256-bit root that each chip holds in fuses (R341). -/
opaque root : BitVec 256

/-- The 64-bit device serial held in fuses (R341). -/
opaque serial : Word

/-- The SM3 digest of the Krovan debug key that is fused (R361). -/
opaque debugKeyDigest : BitVec 256

/-- The Krovan debug key, the coordinates x and y of a point (R361). -/
opaque debugKey : Nat × Nat

/-- The digest of the device's fuse configuration, measurement block 3 (R349). -/
opaque fuseDigest : BitVec 256

/-- K1 ‖ K2 ‖ MAC that `derive` loads from its 256-bit digest (R343, which does not say how; log 30). -/
opaque slotKeys (digest : BitVec 256) : BitVec 384

/-- The measurement of an enclave to which nothing has been added (R346 does not give it; log 30). -/
opaque measureStart : BitVec 256

/-- The PMP entries and `kdom` that Mladotte gives a hart for an enclave that its core has not run before (R336 step 5, which does not say; log 31): EID,
hart, entry. -/
opaque entryPmpcfg (eid hart i : Nat) : BitVec 8
opaque entryPmpaddr (eid hart i : Nat) : Word
opaque entryKdom (eid hart : Nat) : BitVec 36

/-- The `n`-th free value of the run, for a value that the spec leaves open (log 12). -/
opaque freeValue (n : Nat) : Word

/-- The random number of an SM2 signature over a digest (R349, R358). -/
opaque sm2Nonce (digest : BitVec 256) : BitVec 256

/-- The correctly rounded sine and cosine of FP32, BF16 and FP16 inputs whose reduction the model's interval arithmetic does not
settle (log 19): format, function, bits, rounding mode. -/
opaque trigResult (fmt fn : Nat) (bits : BitVec 64) (rm : Nat) : BitVec 64

/-- The address of the runtime's binding stub for a function, which a Parbel entry names first (R369, R385). -/
opaque bindingStub (fn : Nat) : Word

/-- PROC of an island: a figure of the chip's silicon (R413). -/
opaque islandProc (i : Nat) : BitVec 8

end Sys2Proof.Config
end

