-- ==== Sys2Proof/Machine/Bits.lean ====
section
/-!
DEFINITION. Bit-field, sign-extension and byte-order helpers (R7, R10).
-/
namespace Sys2Proof.Machine

/-- Bits [lo + n - 1 : lo] of a word, as a number. -/
def fld (w : Word) (lo n : Nat) : Nat := w.toNat / 2 ^ lo % 2 ^ n

/-- One bit of a word. -/
def bitOf (w : Word) (i : Nat) : Bool := w.getLsbD i

/-- The word with bits [lo + n - 1 : lo] replaced by `v`. -/
def setFld (w : Word) (lo n v : Nat) : Word :=
  BitVec.ofNat 64 (w.toNat - fld w lo n * 2 ^ lo + v % 2 ^ n * 2 ^ lo)

/-- A number as a word. -/
def word (n : Nat) : Word := BitVec.ofNat 64 n

/-- A Bool as 0 or 1. -/
def b2n (b : Bool) : Nat := if b then 1 else 0

/-- A Bool as a word. -/
def b2w (b : Bool) : Word := if b then 1 else 0

/-- Sext (R10): the low n bits sign-extended to 64. -/
def sext (v : Word) (n : Nat) : Word :=
  let x := v.toNat % 2 ^ n
  if x < 2 ^ (n - 1) then word x else word (2 ^ 64 + x - 2 ^ n)

/-- Sext of a 32-bit element. -/
def sext32 (v : BitVec 32) : Word := v.signExtend 64

/-- Little-endian bytes as a number (R7). -/
def leToNat (bs : List Byte) : Nat := bs.foldr (fun b n => b.toNat + 256 * n) 0

/-- The n bytes of a number, lowest first (R7). -/
def natToLe : Nat → Nat → List Byte
  | 0, _ => []
  | n + 1, w => BitVec.ofNat 8 w :: natToLe n (w / 256)

/-- Little-endian bytes as a word. -/
def leWord (bs : List Byte) : Word := word (leToNat bs)

/-- Big-endian bytes as a number (hash and cipher inputs). -/
def beToNat (bs : List Byte) : Nat := bs.foldl (fun n b => n * 256 + b.toNat) 0

/-- The n bytes of a number, highest first. -/
def natToBe (n w : Nat) : List Byte := (natToLe n w).reverse

/-- The `i`-th element of a list, or a default. -/
def nth {α : Type} (d : α) (l : List α) (i : Nat) : α := (l[i]?).getD d

/-- The list with its `i`-th element changed. -/
def modNth {α : Type} (l : List α) (i : Nat) (f : α → α) : List α := l.modify i f

/-- The numbers below n for which p holds, as a bit mask. -/
def maskOf (n : Nat) (p : Nat → Bool) : Nat := (List.range n).foldl (fun m i => if p i then m + 2 ^ i else m) 0

/-- The least i below n with p i. -/
def firstBelow (n : Nat) (p : Nat → Bool) : Option Nat := (List.range n).find? p

/-- The first of start + 1, start + 2, ... modulo n with p (the searches of R169, R278, R326). -/
def searchUp (n start : Nat) (p : Nat → Bool) : Option Nat :=
  ((List.range n).map fun i => (start + 1 + i) % n).find? p

/-- ⌈a ÷ b⌉. -/
def ceilDiv (a b : Nat) : Nat := (a + b - 1) / b

/-- `a` rounded up to a multiple of `b`. -/
def roundUp (a b : Nat) : Nat := ceilDiv a b * b

/-- The number of set bits among the low n. -/
def popcount (n : Nat) (p : Nat → Bool) : Nat := ((List.range n).filter p).length

end Sys2Proof.Machine
end

