-- ==== Sys2Proof/Machine/Fp.lean ====
section
/-!
DEFINITION. Floating point, from the formats of R138 to R142 and the rounding, flags and counters of R148 to R151: values are
exact (sign, integer, power of two), rounded once.
-/
namespace Sys2Proof.Machine

/-- What a format has of special values: infinities and NaNs (0), the NaN of E4M3 only (1), neither (2) (R139, R140). -/
structure Fmt where
  e : Nat
  m : Nat
  bias : Nat
  spec : Nat
  deriving DecidableEq, Repr

def fp64 : Fmt := { e := 11, m := 52, bias := 1023, spec := 0 }
def fp32 : Fmt := { e := 8, m := 23, bias := 127, spec := 0 }
def fp16 : Fmt := { e := 5, m := 10, bias := 15, spec := 0 }
def bf16 : Fmt := { e := 8, m := 7, bias := 127, spec := 0 }
def e5m2 : Fmt := { e := 5, m := 2, bias := 15, spec := 0 }
def e4m3 : Fmt := { e := 4, m := 3, bias := 7, spec := 1 }
def e3m2 : Fmt := { e := 3, m := 2, bias := 3, spec := 2 }
def e2m3 : Fmt := { e := 2, m := 3, bias := 1, spec := 2 }
def e2m1 : Fmt := { e := 2, m := 1, bias := 1, spec := 2 }

/-- The bits of an element. -/
def Fmt.width (f : Fmt) : Nat := f.e + f.m + 1

/-- emax of R139. -/
def Fmt.emax (f : Fmt) : Int :=
  if f.spec = 0 then (f.bias : Int) else if f.spec = 1 then 8 else (2 ^ f.e - 1 : Int) - f.bias

/-- The exponent of the least subnormal: 1 - b - m. -/
def Fmt.qmin (f : Fmt) : Int := 1 - (f.bias : Int) - f.m

/-- The bits of the largest finite magnitude. -/
def Fmt.maxMag (f : Fmt) : Nat :=
  if f.spec = 0 then 2 ^ (f.e + f.m) - 2 ^ f.m - 1 else if f.spec = 1 then 2 ^ (f.e + f.m) - 2 else 2 ^ (f.e + f.m) - 1

/-- The bits of +infinity. -/
def Fmt.infMag (f : Fmt) : Nat := 2 ^ (f.e + f.m) - 2 ^ f.m

/-- The canonical NaN (R141). -/
def Fmt.nan (f : Fmt) : Nat := if f.spec = 1 then 0x7F else f.infMag + 2 ^ (f.m - 1)

/-- A sign in front of a magnitude. -/
def Fmt.signed (f : Fmt) (s : Bool) (mag : Nat) : Nat := (if s then 2 ^ (f.e + f.m) else 0) + mag

/-- An element's value: a NaN (signalling or not), an infinity, or (-1)^s × m × 2^e. -/
inductive FVal where
  | nan (sig : Bool)
  | inf (s : Bool)
  | num (s : Bool) (m : Nat) (e : Int)
  deriving DecidableEq, Repr

/-- The value of an encoding (R140). -/
def Fmt.decode (f : Fmt) (bits : Nat) : FVal :=
  let s := decide (bits / 2 ^ (f.e + f.m) % 2 = 1)
  let x := bits / 2 ^ f.m % 2 ^ f.e
  let m := bits % 2 ^ f.m
  if f.spec = 0 ∧ x = 2 ^ f.e - 1 then (if m = 0 then .inf s else .nan (m < 2 ^ (f.m - 1)))
  else if f.spec = 1 ∧ x = 15 ∧ m = 7 then .nan false
  else if x = 0 then .num s m f.qmin
  else .num s (m + 2 ^ f.m) ((x : Int) - f.bias - f.m)

/-- A result: the bits, the flags NV DZ OF UF NX (R149), the counters 0 to 3 that it adds to, as bits (R156). -/
structure FRes where
  bits : Nat := 0
  flags : Nat := 0
  cnt : Nat := 0
  deriving DecidableEq, Repr

def nvF : Nat := 16
def dzF : Nat := 8
def ofF : Nat := 4
def ufF : Nat := 2
def nxF : Nat := 1

/-- Round m × 2^e (a little more when `sticky`) to a multiple of 2^q under a mode; whether it was inexact. -/
def roundAt (rm : Nat) (s : Bool) (m : Nat) (e q : Int) (sticky : Bool) : Nat × Bool :=
  if q ≤ e then (m * 2 ^ (e - q).toNat, sticky)
  else
    let k := (q - e).toNat
    let n := m / 2 ^ k
    let r := m % 2 ^ k
    let half := 2 ^ (k - 1)
    let inexact := r != 0 || sticky
    let up := match rm with
      | 0 => decide (r > half) || (r == half && (sticky || n % 2 == 1))
      | 1 => false
      | 2 => s && inexact
      | 3 => !s && inexact
      | _ => decide (r ≥ half)
    (if up then n + 1 else n, inexact)

/-- The number of bits of a number. -/
def bitLen (n : Nat) : Nat := if n = 0 then 0 else Nat.log2 n + 1

/-- Whether a mode takes a finite overflow to infinity. -/
def toInf (rm : Nat) (s : Bool) : Bool := rm == 0 || rm == 4 || (rm == 2 && s) || (rm == 3 && !s)

/-- RoundF (R10, R149, R151): round an exact nonzero or zero value to a format. `sat` is md 110 for a format with infinities,
`nonsat` the md-110 row of E4M3. A result is tiny when its magnitude after rounding, subnormals kept, lies below the smallest
normal (R151). -/
def roundF (f : Fmt) (rm : Nat) (sat nonsat : Bool) (s : Bool) (m : Nat) (e : Int) (sticky : Bool := false) : FRes :=
  if m = 0 ∧ !sticky then { bits := f.signed s 0 }
  else
    let lead : Int := e + bitLen m - 1
    let q := max (lead - f.m) f.qmin
    let (r, inexact) := roundAt rm s m e q sticky
    let (r, q) := if r / 2 ^ (f.m + 1) = 0 then (r, q) else (r / 2, q + 1)
    let x : Int := if r / 2 ^ f.m = 0 then 0 else q - f.qmin + 1
    let mag := if x = 0 then r else r % 2 ^ f.m + x.toNat * 2 ^ f.m
    if mag > f.maxMag then
      if f.spec = 0 ∧ !sat ∧ toInf rm s then { bits := f.signed s f.infMag, flags := ofF + nxF, cnt := 2 }
      else if f.spec = 1 ∧ nonsat then { bits := f.nan, flags := ofF + nxF, cnt := 1 }
      else { bits := f.signed s f.maxMag, flags := ofF + nxF, cnt := 8 }
    else if r = 0 then { bits := f.signed s 0, flags := ufF + nxF, cnt := 4 }
    else { bits := f.signed s mag, flags := (if inexact then nxF else 0) + (if inexact && x == 0 then ufF else 0) }

/-- The canonical NaN from NaN inputs: NV for a signalling one. -/
def nanOf (f : Fmt) (sig : Bool) : FRes := { bits := f.nan, flags := if sig then nvF else 0 }

/-- An invalid operation on inputs that are no NaN. -/
def invalidOp (f : Fmt) : FRes := { bits := f.nan, flags := nvF, cnt := 1 }

def FVal.isNan (v : FVal) : Bool :=
  match v with
  | .nan _ => true
  | _ => false

def FVal.isSig (v : FVal) : Bool :=
  match v with
  | .nan s => s
  | _ => false

def FVal.neg (v : FVal) : FVal :=
  match v with
  | .nan s => .nan s
  | .inf s => .inf (!s)
  | .num s m e => .num (!s) m e

def FVal.isZero (v : FVal) : Bool :=
  match v with
  | .num _ 0 _ => true
  | _ => false

def FVal.isInf (v : FVal) : Bool :=
  match v with
  | .inf _ => true
  | _ => false

/-- (-1)^s × m as an integer. -/
def sgn (s : Bool) (m : Nat) : Int := if s then -(m : Int) else m

/-- The sum of two values, not NaN, rounded once; an exact zero is +0, or -0 under RDN, unless both addends share a sign. -/
def addV (f : Fmt) (rm : Nat) (sat : Bool) (x y : FVal) : FRes :=
  match x, y with
  | .inf s, .inf t => if s = t then { bits := f.signed s f.infMag } else invalidOp f
  | .inf s, _ => { bits := f.signed s f.infMag }
  | _, .inf s => { bits := f.signed s f.infMag }
  | .num s m e, .num t n g =>
    let q := min e g
    let v := sgn s (m * 2 ^ (e - q).toNat) + sgn t (n * 2 ^ (g - q).toNat)
    if v = 0 then { bits := f.signed (if s = t then s else rm == 2) 0 }
    else roundF f rm sat false (decide (v < 0)) v.natAbs q
  | _, _ => nanOf f false

/-- The exact product of two values; none for an infinity times zero. -/
def mulExact (x y : FVal) : Option FVal :=
  match x, y with
  | .num s m e, .num t n g => some (.num (s != t) (m * n) (e + g))
  | .inf s, .num t m _ => if m = 0 then none else some (.inf (s != t))
  | .num s m _, .inf t => if m = 0 then none else some (.inf (s != t))
  | .inf s, .inf t => some (.inf (s != t))
  | .nan s, _ => some (.nan s)
  | _, .nan s => some (.nan s)

/-- a + b. -/
def fAdd (f : Fmt) (rm : Nat) (sat : Bool) (a b : Nat) : FRes :=
  let x := f.decode a
  let y := f.decode b
  if x.isNan || y.isNan then nanOf f (x.isSig || y.isSig) else addV f rm sat x y

/-- a - b. -/
def fSub (f : Fmt) (rm : Nat) (sat : Bool) (a b : Nat) : FRes :=
  let x := f.decode a
  let y := f.decode b
  if x.isNan || y.isNan then nanOf f (x.isSig || y.isSig) else addV f rm sat x y.neg

/-- a × b. -/
def fMul (f : Fmt) (rm : Nat) (sat : Bool) (a b : Nat) : FRes :=
  let x := f.decode a
  let y := f.decode b
  if x.isNan || y.isNan then nanOf f (x.isSig || y.isSig)
  else match mulExact x y with
    | none => invalidOp f
    | some (.num s m e) => roundF f rm sat false s m e
    | some (.inf s) => { bits := f.signed s f.infMag }
    | some (.nan _) => nanOf f false

/-- ±(a × b) ± c, rounded once; infinity times zero is invalid beside a quiet NaN too (log 21). -/
def fMa (f : Fmt) (rm : Nat) (sat negP negC : Bool) (a b c : Nat) : FRes :=
  let x := if negP then (f.decode a).neg else f.decode a
  let y := f.decode b
  let z := if negC then (f.decode c).neg else f.decode c
  let bad := (x.isInf && y.isZero) || (x.isZero && y.isInf)
  if x.isNan || y.isNan || z.isNan then nanOf f (x.isSig || y.isSig || z.isSig || bad)
  else match mulExact x y with
    | none => invalidOp f
    | some p => addV f rm sat p z

/-- num ÷ den × 2^e for naturals, rounded once. -/
def ratio (f : Fmt) (rm : Nat) (sat s : Bool) (num den : Nat) (e : Int) : FRes :=
  let k := (bitLen den - bitLen num) + 66
  let n := num * 2 ^ k
  roundF f rm sat false s (n / den) (e - k) (n % den != 0)

/-- a ÷ b. -/
def fDiv (f : Fmt) (rm : Nat) (sat : Bool) (a b : Nat) : FRes :=
  match f.decode a, f.decode b with
  | .nan s, .nan t => nanOf f (s || t)
  | .nan s, _ => nanOf f s
  | _, .nan s => nanOf f s
  | .inf _, .inf _ => invalidOp f
  | .inf s, .num t _ _ => { bits := f.signed (s != t) f.infMag }
  | .num s _ _, .inf t => { bits := f.signed (s != t) 0 }
  | .num s m e, .num t n g =>
    if n = 0 then (if m = 0 then invalidOp f else { bits := f.signed (s != t) f.infMag, flags := dzF })
    else if m = 0 then { bits := f.signed (s != t) 0 }
    else ratio f rm sat (s != t) m n (e - g)

/-- ⌊√n⌋, from bit `k - 1` downward. -/
def isqrtFrom (n : Nat) : Nat → Nat → Nat
  | 0, r => r
  | k + 1, r => isqrtFrom n k (if (r + 2 ^ k) * (r + 2 ^ k) ≤ n then r + 2 ^ k else r)

/-- ⌊√n⌋. -/
def isqrt (n : Nat) : Nat := isqrtFrom n (bitLen n / 2 + 1) 0

/-- √a. -/
def fSqrt (f : Fmt) (rm : Nat) (a : Nat) : FRes :=
  match f.decode a with
  | .nan s => nanOf f s
  | .inf s => if s then invalidOp f else { bits := f.infMag }
  | .num s m e =>
    if m = 0 then { bits := f.signed s 0 }
    else if s then invalidOp f
    else
      let (m, e) := if e % 2 = 0 then (m, e) else (2 * m, e - 1)
      let n := m * 2 ^ 140
      let r := isqrt n
      roundF f rm false false false r (e / 2 - 70) (r * r != n)

/-- 1 ÷ a (R221). -/
def fRcp (f : Fmt) (rm : Nat) (sat : Bool) (a : Nat) : FRes :=
  match f.decode a with
  | .nan s => nanOf f s
  | .inf s => { bits := f.signed s 0 }
  | .num s m e => if m = 0 then { bits := f.signed s f.infMag, flags := dzF } else ratio f rm sat s 1 m (-e)

/-- 1 ÷ √a (R221). -/
def fRsq (f : Fmt) (rm : Nat) (a : Nat) : FRes :=
  match f.decode a with
  | .nan s => nanOf f s
  | .inf s => if s then invalidOp f else { bits := 0 }
  | .num s m e =>
    if m = 0 then { bits := f.signed s f.infMag, flags := dzF }
    else if s then invalidOp f
    else
      let (m, e) := if e % 2 = 0 then (m, e) else (2 * m, e - 1)
      let k := bitLen m + 70
      let r := isqrt (2 ^ (2 * k) / m)
      roundF f rm false false false r (-(e / 2) - k) (r * r * m != 2 ^ (2 * k))

/-- a < b for two values that are no NaN. -/
def FVal.lt (x y : FVal) : Bool :=
  match x, y with
  | .inf s, .inf t => s && !t
  | .inf s, .num _ _ _ => s
  | .num _ _ _, .inf t => !t
  | .num s m e, .num t n g =>
    let q := min e g
    decide (sgn s (m * 2 ^ (e - q).toNat) < sgn t (n * 2 ^ (g - q).toNat))
  | _, _ => false

/-- The sign of a value. -/
def FVal.sign (x : FVal) : Bool :=
  match x with
  | .inf s => s
  | .num s _ _ => s
  | .nan _ => false

/-- `lfmin` and `lfmax` (R222). -/
def fMinMax (f : Fmt) (big : Bool) (a b : Nat) : FRes :=
  let x := f.decode a
  let y := f.decode b
  let fl := if x.isSig || y.isSig then nvF else 0
  if x.isNan && y.isNan then { bits := f.nan, flags := fl }
  else if x.isNan then { bits := b, flags := fl }
  else if y.isNan then { bits := a, flags := fl }
  else
    let less := x.lt y || (!y.lt x && x.sign && !y.sign)
    { bits := if less == big then b else a }

/-- The comparisons of `lfcmp` (R224): 0 eq, 1 lt, 2 le, 3 un. Gives the outcome and the flags. -/
def fCmp (f : Fmt) (rel a b : Nat) : Bool × Nat :=
  let x := f.decode a
  let y := f.decode b
  if x.isNan || y.isNan then (rel == 3, if x.isSig || y.isSig || rel == 1 || rel == 2 then nvF else 0)
  else (if rel = 0 then !x.lt y && !y.lt x else if rel = 1 then x.lt y else if rel = 2 then !y.lt x else false, 0)

/-- The RISC-V class mask (R222). -/
def fClass (f : Fmt) (a : Nat) : Nat :=
  match f.decode a with
  | .nan sig => if sig then 2 ^ 8 else 2 ^ 9
  | .inf s => if s then 1 else 2 ^ 7
  | .num s m _ =>
    if m = 0 then (if s then 2 ^ 3 else 2 ^ 4)
    else if m < 2 ^ f.m then (if s then 2 ^ 2 else 2 ^ 5)
    else (if s then 2 else 2 ^ 6)

/-- `lfround` (R222): an integral value in the format; NX only where `nx`. R222 gives it flags only; that a value rounded to zero here
adds nothing to counter 2 is the model's choice (log 73). -/
def fRound (f : Fmt) (rm : Nat) (nx : Bool) (a : Nat) : FRes :=
  match f.decode a with
  | .nan s => nanOf f s
  | .inf _ => { bits := a }
  | .num s m e =>
    if m = 0 ∨ e ≥ 0 then { bits := a }
    else
      let (r, inexact) := roundAt rm s m e 0 false
      { bits := (roundF f rm false false s r 0).bits, flags := if nx && inexact then nxF else 0 }

/-! ### Conversions (R151, R223) -/

/-- To an integer of w bits: clamped with NV, NX when inexact in range. -/
def toInt (w : Nat) (sg : Bool) (rm : Nat) (v : FVal) : FRes :=
  let hi : Int := if sg then 2 ^ (w - 1) - 1 else 2 ^ w - 1
  let lo : Int := if sg then -(2 ^ (w - 1)) else 0
  let bits (i : Int) : Nat := (i % (2 ^ w : Int)).toNat
  match v with
  | .nan _ => { bits := bits hi, flags := nvF }
  | .inf s => { bits := bits (if s then lo else hi), flags := nvF, cnt := 8 }
  | .num s m e =>
    let (r, inexact) := roundAt rm s m e 0 false
    let i := sgn s r
    if i < lo then { bits := bits lo, flags := nvF, cnt := 8 }
    else if i > hi then { bits := bits hi, flags := nvF, cnt := 8 }
    else { bits := bits i, flags := if inexact then nxF else 0 }

/-- To a floating-point format. `md6` is md 110. -/
def toFloat (f : Fmt) (rm : Nat) (md6 : Bool) (v : FVal) : FRes :=
  match v with
  | .nan sig => if f.spec = 2 then { bits := 0, flags := nvF } else nanOf f sig
  | .inf s =>
    if f.spec = 0 then (if md6 then { bits := f.signed s f.maxMag, flags := ofF + nxF, cnt := 8 } else { bits := f.signed s f.infMag })
    else if f.spec = 1 ∧ md6 then { bits := f.nan, flags := ofF + nxF, cnt := 1 }
    else { bits := f.signed s f.maxMag, flags := ofF + nxF, cnt := 8 }
  | .num s m e => roundF f rm (md6 && f.spec != 1) (md6 && f.spec == 1) s m e

/-- An integer as a value. -/
def ofInt (i : Int) : FVal := .num (decide (i < 0)) i.natAbs 0

/-! ### The functions of R221, by fixed-point intervals (log 19) -/

/-- ⌊π × 2^640⌋. -/
def piFix : Nat := 0x3243f6a8885a308d313198a2e03707344a4093822299f31d0082efa98ec4e6c89452821e638d01377be5466cf34e90c6cc0ac29b7c97c50dd3f84d5b5b54709179216d5d98979fb1bd1310ba698dfb5ac

/-- ⌊ln 2 × 2^320⌋. -/
def ln2Fix : Nat := 0xb17217f7d1cf79abc9e3b39803f2f6af40f343267298b62d8a0d175b8baafa2be7b876206debac98

/-- The fraction bits of the intervals. -/
def fixBits : Nat := 320

/-- Σ x^k ÷ k! from the k-th term on, in fixed point. -/
def expSum (x : Nat) : Nat → Nat → Nat → Nat
  | 0, _, _ => 0
  | n + 1, k, t => t + expSum x n (k + 1) (t * x / 2 ^ fixBits / (k + 1))

/-- e^x for 0 ≤ x < 1. -/
def expFix (x : Nat) : Nat := expSum x 90 0 (2 ^ fixBits)

/-- The alternating series of sine (k odd) and cosine (k even): t - t x² ÷ ((k + 1)(k + 2)) + ... -/
def trigSum (x2 : Nat) : Nat → Nat → Int → Int
  | 0, _, _ => 0
  | n + 1, k, t => t - trigSum x2 n (k + 2) (t * x2 / 2 ^ fixBits / ((k + 1) * (k + 2)))

/-- sin x and cos x for 0 ≤ x < 2. -/
def sinFix (x : Nat) : Int := trigSum (x * x / 2 ^ fixBits) 60 1 x
def cosFix (x : Nat) : Int := trigSum (x * x / 2 ^ fixBits) 60 0 (2 ^ fixBits)

/-- The fraction bits of log2 y for y in [1, 2), by squaring. -/
def log2Bits (n : Nat) : Nat → Nat → Nat
  | y, acc => match n with
    | 0 => acc
    | n + 1 =>
      let z := y * y / 2 ^ fixBits
      if z ≥ 2 ^ (fixBits + 1) then log2Bits n (z / 2) (2 * acc + 1) else log2Bits n z (2 * acc)

/-- Round an interval of positive numbers lo to hi, times 2^e: the result where both ends agree, and otherwise the fallback. -/
def roundIv (f : Fmt) (rm : Nat) (sat s : Bool) (lo hi : Nat) (e : Int) (other : Nat) : FRes :=
  let a := roundF f rm sat false s lo e true
  let b := roundF f rm sat false s hi e true
  if a = b then a else { bits := other % 2 ^ f.width, flags := nxF }

/-- 2^a (R221). -/
def fEx2 (f : Fmt) (rm : Nat) (sat : Bool) (a : Nat) : FRes :=
  match f.decode a with
  | .nan s => nanOf f s
  | .inf s => { bits := if s then 0 else f.infMag }
  | .num s m e =>
    let mag : Int := e + bitLen m
    if m = 0 then roundF f rm sat false false 1 0
    else if mag > 12 then (if s then roundF f rm sat false false 1 (-5000) true else roundF f rm sat false false 1 5000)
    else if mag < -40 then
      (if s then roundF f rm sat false false (2 ^ 64 - 1) (-64) true else roundF f rm sat false false (2 ^ 64) (-64) true)
    else if 0 ≤ e then roundF f rm sat false false 1 (sgn s (m * 2 ^ e.toNat))
    else
      let v := sgn s (m * 2 ^ (fixBits - (-e).toNat))
      let n := v / (2 ^ fixBits : Int)
      let fr := (v % (2 ^ fixBits : Int)).toNat
      if fr = 0 then roundF f rm sat false false 1 n
      else
        let y := expFix (fr * ln2Fix / 2 ^ fixBits)
        roundIv f rm sat false (y - 1024) (y + 1024) (n - fixBits) (Config.trigResult f.m 0 (BitVec.ofNat 64 a) rm).toNat

/-- log2 a (R221). -/
def fLg2 (f : Fmt) (rm : Nat) (a : Nat) : FRes :=
  match f.decode a with
  | .nan s => nanOf f s
  | .inf s => if s then invalidOp f else { bits := f.infMag }
  | .num s m e =>
    if m = 0 then { bits := f.signed true f.infMag, flags := dzF }
    else if s then invalidOp f
    else
      let k := bitLen m - 1
      let n : Int := e + k
      if m = 2 ^ k then (if n = 0 then { bits := 0 } else roundF f rm false false (decide (n < 0)) n.natAbs 0)
      else
        let fr := log2Bits 160 (m * 2 ^ (fixBits - k)) 0
        let v := n * (2 ^ 160 : Int) + fr
        let w := v.natAbs
        roundIv f rm false (decide (v < 0)) (w - 4096) (w + 4096) (-160) (Config.trigResult f.m 1 (BitVec.ofNat 64 a) rm).toNat

/-- sin a (`cos` false) and cos a (`cos` true), a in radians (R221). -/
def fTrig (f : Fmt) (rm : Nat) (cos : Bool) (a : Nat) : FRes :=
  match f.decode a with
  | .nan s => nanOf f s
  | .inf _ => invalidOp f
  | .num s m e =>
    if m = 0 then (if cos then roundF f rm false false false 1 0 else { bits := f.signed s 0 })
    else if e + bitLen m < -60 then
      (if cos then roundF f rm false false false (2 ^ 130 - 1) (-130) true
       else roundF f rm false false s (m * 2 ^ 130 - 1) (e - 130) true)
    else
      let x : Nat := if 0 ≤ e then m * 2 ^ (e.toNat + 640) else m * 2 ^ (640 - (-e).toNat)
      let half := piFix / 2
      let q := x / half
      let r := (x % half) / 2 ^ (640 - fixBits)
      let quad := (q + (if cos then 1 else 0)) % 4
      let v := if quad % 2 = 0 then sinFix r else cosFix r
      let neg := (decide (quad ≥ 2)) != (s && !cos)
      let w := v.natAbs
      let other := (Config.trigResult f.m (if cos then 3 else 2) (BitVec.ofNat 64 a) rm).toNat
      let err : Nat := 2 ^ 12
      if v < err then { bits := other % 2 ^ f.width, flags := nxF }
      else roundIv f rm false neg (w - err) (w + err) (-(fixBits : Int)) other

end Sys2Proof.Machine
end

