-- ==== Sys2Proof/Machine/Map.lean ====
section
/-!
DEFINITION. Sparse maps as plain data: lists of (key, value) pairs, keys rising, no entry equal to the default that an
unlisted key reads as. Memory (Host.Cell pairs) is one of them.
-/
namespace Sys2Proof.Machine

/-- A sparse map from Nat. What an unlisted key reads as is named at each use. -/
abbrev SMap (α : Type) := List (Nat × α)

namespace SMap

/-- The value at key `i`; `d` where the map lists none. -/
def get {α : Type} (d : α) : SMap α → Nat → α
  | [], _ => d
  | (k, v) :: m, i => if i = k then v else get d m i

/-- The map without key `i`. -/
def erase {α : Type} : SMap α → Nat → SMap α
  | [], _ => []
  | (k, v) :: m, i => if i = k then erase m i else (k, v) :: erase m i

/-- The map with the pair (i, v) put before the first larger key. -/
def insert {α : Type} : SMap α → Nat → α → SMap α
  | [], i, v => [(i, v)]
  | (k, w) :: m, i, v => if i < k then (i, v) :: (k, w) :: m else (k, w) :: insert m i v

/-- The map with `v` at key `i`; writing the default `d` removes the entry. -/
def set {α : Type} [DecidableEq α] (d : α) (m : SMap α) (i : Nat) (v : α) : SMap α :=
  if v = d then erase m i else insert (erase m i) i v

/-- Every key above `i`, every value other than the default. -/
def wfAbove {α : Type} [DecidableEq α] (d : α) : Nat → SMap α → Bool
  | _, [] => true
  | i, (k, v) :: m => decide (i < k) && decide (v ≠ d) && wfAbove d k m

/-- The canonical form: keys strictly rising, no value equal to the default. -/
def wf {α : Type} [DecidableEq α] (d : α) : SMap α → Bool
  | [] => true
  | (k, v) :: m => decide (v ≠ d) && wfAbove d k m

end SMap

end Sys2Proof.Machine
end

