-- ==== Sys2Proof/Syntax.lean ====
section
/-!
DEFINITION. The instructions and events of the T9: one constructor for every row of spec/opcode_table.json, those with
operands first, each part in the table's order. Rows 0 to 151 are the L64 forms (R185), each carrying the operand fields of the format; rows 152
to 201 the S32 forms (R189 to R193); rows 202 to 208 standard instructions; the rest are register writes (the CSR
instruction that makes them), scalar accesses (the RISC-V access that makes them) and events of the device's units
and of its environment, which take what the environment supplies from the state's event arguments (EvArg).
-/
namespace Sys2Proof

/-- The operand fields of an L64 instruction (R185). The group, the opcode and the length field follow from the constructor. -/
structure L64 where
  imm15 : BitVec 15 := 0
  ib : BitVec 1 := 0
  md : BitVec 3 := 0
  ty : BitVec 3 := 0
  pn : BitVec 1 := 0
  pm : BitVec 3 := 0
  c : BitVec 5 := 0
  b : BitVec 5 := 0
  a : BitVec 5 := 0
  d : BitVec 5 := 0
  deriving DecidableEq, Repr

/-- The three Zicsr operations. -/
inductive CsrKind where
  | rw | rs | rc
  deriving DecidableEq, Repr

/-- A CSR instruction without its CSR number: operation, immediate form, source field (register or 5-bit immediate), destination. -/
structure CsrOp where
  kind : CsrKind
  imm : Bool
  src : BitVec 5
  rd : BitVec 5
  deriving DecidableEq, Repr

/-- A register write that has no row of its own (REGISTER_WRITE): a CSR instruction, or a host write to the MMIO range (R402). -/
inductive RegWrite where
  | csr (num : BitVec 12) (o : CsrOp)
  | mmio (pa : Nat) (v : BitVec 64)
  deriving DecidableEq, Repr

/-- The scalar loads: RV64I, and the F and D loads (R177). -/
inductive LoadKind where
  | lb | lh | lw | ld | lbu | lhu | lwu | flw | fld
  deriving DecidableEq, Repr

/-- A scalar load's operands. -/
structure LoadOp where
  kind : LoadKind
  rd : BitVec 5
  rs1 : BitVec 5
  imm : BitVec 12
  deriving DecidableEq, Repr

/-- The scalar stores. -/
inductive StoreKind where
  | sb | sh | sw | sd | fsw | fsd
  deriving DecidableEq, Repr

/-- A scalar store's operands. -/
structure StoreOp where
  kind : StoreKind
  rs2 : BitVec 5
  rs1 : BitVec 5
  imm : BitVec 12
  deriving DecidableEq, Repr

/-- The A extension's operations. -/
inductive AmoKind where
  | lr | sc | swap | add | xor | and | or | min | max | minu | maxu
  deriving DecidableEq, Repr

/-- An A-extension instruction: operation, doubleword form, aq, rl, registers. -/
structure AmoOp where
  kind : AmoKind
  dbl : Bool
  aq : Bool
  rl : Bool
  rs2 : BitVec 5
  rs1 : BitVec 5
  rd : BitVec 5
  deriving DecidableEq, Repr

/-- Where an uncorrectable error strikes, with the granularities of R69. -/
inductive ErrPlace where
  | line (pa : Nat)
  | scratch (cls word : Nat)
  | poolSlot (cluster unit : Nat)
  | acc (core i : Nat)
  | slot (core i : Nat)
  | queueEntry (core ch idx : Nat)
  | l1Copy (core fn vline : Nat)
  | scalarCopy (core fn vline : Nat)
  | clusterCopy (cluster fn vline : Nat)
  | l2Copy (pa : Nat)
  deriving DecidableEq, Repr

/-- What the environment, or the choice of a unit, supplies to an event (log 1): up to two unit numbers, a word, bytes, a list of
numbers, a digest, a place. The event's meaning says which it reads. -/
structure EvArg where
  a : Nat := 0
  b : Nat := 0
  w : Word := 0
  bytes : List Byte := []
  nums : List Nat := []
  digest : BitVec 256 := 0
  place : ErrPlace := .line 0
  deriving DecidableEq, Repr

/-- The instructions and events of spec/opcode_table.json. -/
inductive Instr where
  /-- R215: Lane integer add modulo 2^W in each active lane. -/
  | ladd (f : L64)
  /-- R215: Lane integer subtract modulo 2^W in each active lane. -/
  | lsub (f : L64)
  /-- R215: Lane signed saturating add. -/
  | ladds (f : L64)
  /-- R215: Lane signed saturating subtract. -/
  | lsubs (f : L64)
  /-- R215: Lane multiply modulo 2^W, or signed saturating with .sat. -/
  | lmul (f : L64)
  /-- R215: Lane high half of the signed product. -/
  | lmulh (f : L64)
  /-- R215: Lane high half of the unsigned product. -/
  | lmulhu (f : L64)
  /-- R215: Lane multiply-add a*b+c, wrapping or saturating. -/
  | lmadd (f : L64)
  /-- R216: Lane signed division that never traps. -/
  | ldiv (f : L64)
  /-- R216: Lane unsigned division that never traps. -/
  | ldivu (f : L64)
  /-- R216: Lane signed remainder that never traps. -/
  | lrem (f : L64)
  /-- R216: Lane unsigned remainder that never traps. -/
  | lremu (f : L64)
  /-- R215: Lane bitwise and. -/
  | land (f : L64)
  /-- R215: Lane bitwise or. -/
  | lor (f : L64)
  /-- R215: Lane bitwise xor. -/
  | lxor (f : L64)
  /-- R215: Lane a and not b. -/
  | landn (f : L64)
  /-- R215: Lane logical shift left, or saturating with .sat. -/
  | lsll (f : L64)
  /-- R215: Lane logical shift right. -/
  | lsrl (f : L64)
  /-- R215: Lane arithmetic shift right. -/
  | lsra (f : L64)
  /-- R215: Lane signed minimum. -/
  | lmin (f : L64)
  /-- R215: Lane signed maximum. -/
  | lmax (f : L64)
  /-- R215: Lane unsigned minimum. -/
  | lminu (f : L64)
  /-- R215: Lane unsigned maximum. -/
  | lmaxu (f : L64)
  /-- R215: Lane absolute value, wrapping or saturating. -/
  | labs (f : L64)
  /-- R215: Lane count of leading zeros. -/
  | lclz (f : L64)
  /-- R215: Lane population count. -/
  | lcpop (f : L64)
  /-- R215: Lane bit reversal. -/
  | lbrev (f : L64)
  /-- R217: Lane bit-field extract, zero- or sign-extended. -/
  | lbfx (f : L64)
  /-- R217: Lane bit-field insert into c. -/
  | lbfi (f : L64)
  /-- R215: Lane select of a or b by a mask register bit. -/
  | lsel (f : L64)
  /-- R215: Lane register move. -/
  | lmov (f : L64)
  /-- R215: Lane load of a sign-extended immediate. -/
  | lli (f : L64)
  /-- R215: Broadcast an x register into every active lane. -/
  | lbcast (f : L64)
  /-- R218: Move one lane's element into an x register. -/
  | lext (f : L64)
  /-- R215: Write each active lane's number. -/
  | lidx (f : L64)
  /-- R220: Lane floating-point add, rounded once. -/
  | lfadd (f : L64)
  /-- R220: Lane floating-point subtract. -/
  | lfsub (f : L64)
  /-- R220: Lane floating-point multiply. -/
  | lfmul (f : L64)
  /-- R220: Lane fused multiply-add a*b+c. -/
  | lffma (f : L64)
  /-- R220: Lane fused multiply-subtract a*b-c. -/
  | lffms (f : L64)
  /-- R220: Lane fused negated multiply-add -(a*b)+c. -/
  | lfnma (f : L64)
  /-- R222: Lane floating-point minimum with NaN rules. -/
  | lfmin (f : L64)
  /-- R222: Lane floating-point maximum with NaN rules. -/
  | lfmax (f : L64)
  /-- R220: Lane floating-point divide. -/
  | lfdiv (f : L64)
  /-- R220: Lane floating-point square root. -/
  | lfsqrt (f : L64)
  /-- R221: Lane correctly rounded reciprocal. -/
  | lfrcp (f : L64)
  /-- R221: Lane correctly rounded reciprocal square root. -/
  | lfrsq (f : L64)
  /-- R221: Lane correctly rounded 2^a. -/
  | lfex2 (f : L64)
  /-- R221: Lane correctly rounded log2 a. -/
  | lflg2 (f : L64)
  /-- R221: Lane correctly rounded sine. -/
  | lfsin (f : L64)
  /-- R221: Lane correctly rounded cosine. -/
  | lfcos (f : L64)
  /-- R222: Lane clear of the sign bit. -/
  | lfabs (f : L64)
  /-- R222: Lane inversion of the sign bit. -/
  | lfneg (f : L64)
  /-- R222: Lane sign injection from b. -/
  | lfsgnj (f : L64)
  /-- R223: Lane conversion between the types named by ty and c. -/
  | lfcvt (f : L64)
  /-- R222: Lane RISC-V class mask of a. -/
  | lfclass (f : L64)
  /-- R222: Lane rounding to an integral value in its own format. -/
  | lfround (f : L64)
  /-- R232: Lane load of a sign-extended byte. -/
  | lldB (f : L64)
  /-- R232: Lane load of a zero-extended byte. -/
  | lldBu (f : L64)
  /-- R232: Lane load of a sign-extended halfword. -/
  | lldH (f : L64)
  /-- R232: Lane load of a zero-extended halfword. -/
  | lldHu (f : L64)
  /-- R233: Lane load of a word, all or nothing across active lanes. -/
  | lldW (f : L64)
  /-- R232: Lane load of a doubleword into a register pair. -/
  | lldD (f : L64)
  /-- R232: Lane load of 16 bytes into a register quadruple. -/
  | lldQ (f : L64)
  /-- R235: Lane store of a byte. -/
  | lstB (f : L64)
  /-- R235: Lane store of a halfword. -/
  | lstH (f : L64)
  /-- R235: Lane store of a word; highest lane wins on overlap. -/
  | lstW (f : L64)
  /-- R235: Lane store of a doubleword. -/
  | lstD (f : L64)
  /-- R235: Lane store of 16 bytes. -/
  | lstQ (f : L64)
  /-- R237: Lane prefetch of each active lane's line, never faulting. -/
  | lprf (f : L64)
  /-- R238: Zero fill of the line containing each active lane's address. -/
  | lzero (f : L64)
  /-- R236: Lane atomic add on words. -/
  | lamoAddW (f : L64)
  /-- R236: Lane atomic add on doublewords. -/
  | lamoAddD (f : L64)
  /-- R236: Lane atomic and on words. -/
  | lamoAndW (f : L64)
  /-- R236: Lane atomic and on doublewords. -/
  | lamoAndD (f : L64)
  /-- R236: Lane atomic or on words. -/
  | lamoOrW (f : L64)
  /-- R236: Lane atomic or on doublewords. -/
  | lamoOrD (f : L64)
  /-- R236: Lane atomic xor on words. -/
  | lamoXorW (f : L64)
  /-- R236: Lane atomic xor on doublewords. -/
  | lamoXorD (f : L64)
  /-- R236: Lane atomic signed minimum on words. -/
  | lamoMinW (f : L64)
  /-- R236: Lane atomic signed minimum on doublewords. -/
  | lamoMinD (f : L64)
  /-- R236: Lane atomic signed maximum on words. -/
  | lamoMaxW (f : L64)
  /-- R236: Lane atomic signed maximum on doublewords. -/
  | lamoMaxD (f : L64)
  /-- R236: Lane atomic unsigned minimum on words. -/
  | lamoMinuW (f : L64)
  /-- R236: Lane atomic unsigned minimum on doublewords. -/
  | lamoMinuD (f : L64)
  /-- R236: Lane atomic unsigned maximum on words. -/
  | lamoMaxuW (f : L64)
  /-- R236: Lane atomic unsigned maximum on doublewords. -/
  | lamoMaxuD (f : L64)
  /-- R236: Lane atomic swap on words. -/
  | lamoSwapW (f : L64)
  /-- R236: Lane atomic swap on doublewords. -/
  | lamoSwapD (f : L64)
  /-- R236: Lane compare-and-swap on words. -/
  | lcasW (f : L64)
  /-- R236: Lane compare-and-swap on doublewords. -/
  | lcasD (f : L64)
  /-- R236: Lane atomic FP32 add rounded RNE. -/
  | lfamoAddS (f : L64)
  /-- R236: Lane atomic FP32 minimum. -/
  | lfamoMinS (f : L64)
  /-- R236: Lane atomic FP32 maximum. -/
  | lfamoMaxS (f : L64)
  /-- R224: Lane integer compare equal into a mask. -/
  | lcmpEq (f : L64)
  /-- R224: Lane integer compare not equal into a mask. -/
  | lcmpNe (f : L64)
  /-- R224: Lane signed compare less than into a mask. -/
  | lcmpLt (f : L64)
  /-- R224: Lane signed compare greater or equal into a mask. -/
  | lcmpGe (f : L64)
  /-- R224: Lane unsigned compare less than into a mask. -/
  | lcmpLtu (f : L64)
  /-- R224: Lane unsigned compare greater or equal into a mask. -/
  | lcmpGeu (f : L64)
  /-- R224: Lane FP compare equal into a mask. -/
  | lfcmpEq (f : L64)
  /-- R224: Lane FP compare less than into a mask. -/
  | lfcmpLt (f : L64)
  /-- R224: Lane FP compare less or equal into a mask. -/
  | lfcmpLe (f : L64)
  /-- R224: Lane FP unordered compare into a mask. -/
  | lfcmpUn (f : L64)
  /-- R228: Lane shuffle by source index. -/
  | lshflIdx (f : L64)
  /-- R228: Lane shuffle from l-b. -/
  | lshflUp (f : L64)
  /-- R228: Lane shuffle from l+b. -/
  | lshflDn (f : L64)
  /-- R228: Lane shuffle from l xor b. -/
  | lshflXor (f : L64)
  /-- R229: Reduce active lanes by add into an x register. -/
  | lredAdd (f : L64)
  /-- R229: Reduce active lanes by signed minimum. -/
  | lredMin (f : L64)
  /-- R229: Reduce active lanes by signed maximum. -/
  | lredMax (f : L64)
  /-- R229: Reduce active lanes by and. -/
  | lredAnd (f : L64)
  /-- R229: Reduce active lanes by or. -/
  | lredOr (f : L64)
  /-- R229: Reduce active lanes by xor. -/
  | lredXor (f : L64)
  /-- R154: Reduce active lanes by FP add in a balanced tree. -/
  | lredFadd (f : L64)
  /-- R154: Reduce active lanes by exact FP minimum. -/
  | lredFmin (f : L64)
  /-- R154: Reduce active lanes by exact FP maximum. -/
  | lredFmax (f : L64)
  /-- R230: Inclusive integer prefix sum over active lanes. -/
  | lscanAdd (f : L64)
  /-- R154: Inclusive FP prefix sum in ascending lane order. -/
  | lscanFadd (f : L64)
  /-- R231: Compaction offsets a plus rank of each active lane. -/
  | lcomp (f : L64)
  /-- R245: Allocate a pool tile with partition and count from the immediate, blocking if not granted. -/
  | tallocImm (f : L64)
  /-- R245: Allocate a pool tile with partition and count from x[a], blocking if not granted. -/
  | tallocReg (f : L64)
  /-- R245: Non-blocking allocation from the immediate, writing the null handle if not granted. -/
  | tallocNbImm (f : L64)
  /-- R245: Non-blocking allocation from x[a], writing the null handle if not granted. -/
  | tallocNbReg (f : L64)
  /-- R246: Write a header into an OPEN pool tile with computed CRC. -/
  | thdr (f : L64)
  /-- R246: Write a header to memory as a tile write. -/
  | thdrM (f : L64)
  /-- R247: Write lane data into the payload of an OPEN pool tile. -/
  | tst (f : L64)
  /-- R248: Check the header and seal an OPEN pool tile with count n as a release. -/
  | tseal (f : L64)
  /-- R249: Owner frees a pool tile after open reservations end. -/
  | tdrop (f : L64)
  /-- R252: Consuming load of a pool tile into an operand slot. -/
  | tld (f : L64)
  /-- R252: Load a sealed memory tile into an operand slot. -/
  | tldM (f : L64)
  /-- R252: Non-consuming load of a sealed pool tile into a slot. -/
  | tpeek (f : L64)
  /-- R249: One consuming read of a pool tile without data. -/
  | tskip (f : L64)
  /-- R100: Transfer ownership of a pool tile to another launch. -/
  | tgive (f : L64)
  /-- R250: Report a pool tile's state and counts without changing it. -/
  | tcnt (f : L64)
  /-- R251: Return a header word, slot info or the tile fault report for a handle. -/
  | tinfo (f : L64)
  /-- R251: Return a header word of a slot or accumulator. -/
  | tinfoT (f : L64)
  /-- R255: Read raw bytes of a sealed pool tile into lanes, optionally consuming. -/
  | tldl (f : L64)
  /-- R256: Check operands and submit a matrix multiply-accumulate into an accumulator. -/
  | tmma (f : L64)
  /-- R260: Clear an accumulator to a fresh FP32 or INT32 header and zeros. -/
  | tzero (f : L64)
  /-- R260: Zero-fill memory as a tile write. -/
  | tzeroM (f : L64)
  /-- R261: Consuming load of a pool tile into an accumulator. -/
  | taccLd (f : L64)
  /-- R261: Load a sealed memory tile into an accumulator. -/
  | taccLdM (f : L64)
  /-- R263: Convert and store an accumulator into an OPEN pool tile. -/
  | taccSt (f : L64)
  /-- R263: Convert and store an accumulator to memory as a sealed tile. -/
  | taccStM (f : L64)
  /-- R263: Convert and store an operand slot into an OPEN pool tile. -/
  | tcvt (f : L64)
  /-- R263: Convert and store an operand slot to memory. -/
  | tcvtM (f : L64)
  /-- R262: Read accumulator elements into lanes. -/
  | taccLrd (f : L64)
  /-- R262: Write lanes into accumulator elements. -/
  | taccLwr (f : L64)
  /-- R268: Return the fence map without action. -/
  | tquizNone (f : L64)
  /-- R268: Run a pop quiz on a group and return the fence map. -/
  | tquizRun (f : L64)
  /-- R268: Clear a sub-array fence, re-run the quiz and return the fence map. -/
  | tquizClear (f : L64)
  /-- R225: Mask and. -/
  | mand (d a b : BitVec 5)
  /-- R225: Mask or. -/
  | mor (d a b : BitVec 5)
  /-- R225: Mask xor. -/
  | mxor (d a b : BitVec 5)
  /-- R225: Mask and-not. -/
  | mandn (d a b : BitVec 5)
  /-- R225: Mask complement. -/
  | mnot (d a : BitVec 5)
  /-- R225: Mask move. -/
  | mmov (d a : BitVec 5)
  /-- R225: Set a mask from x[a][31:0]. -/
  | mset (d a : BitVec 5)
  /-- R225: Copy a mask to an x register. -/
  | mget (d a : BitVec 5)
  /-- R225: Count the ones of a mask. -/
  | mcnt (d a : BitVec 5)
  /-- R225: Index of the lowest set bit of a mask. -/
  | mffs (d a : BitVec 5)
  /-- R226: Push m0 on the mask stack and narrow m0 by m[a]. -/
  | mpush (a : BitVec 5)
  /-- R227: Branch when a mask is zero. -/
  | mbz (k : BitVec 3) (off : BitVec 12)
  /-- R227: Branch when a mask is nonzero. -/
  | mbnz (k : BitVec 3) (off : BitVec 12)
  /-- R306: Read a blackboard register of the class. -/
  | bbrd (d a : BitVec 5)
  /-- R165: Write a blackboard register, trapping for a non-owner. -/
  | bbwr (d a : BitVec 5)
  /-- R166: Stall until an inbox register is present, copy it and clear its presence bit. -/
  | imv (d a : BitVec 5)
  /-- R167: Write a value to an inbox register of another hart. -/
  | iwr (d a b : BitVec 5)
  /-- R198: Wait until every named completion flag counter is zero. -/
  | waitf (mask : BitVec 12)
  /-- R301: Configure a named barrier's rectangle, count and stage mode. -/
  | barCfg (id : BitVec 7) (a : BitVec 5)
  /-- R302: Make an arrival at a barrier phase. -/
  | barArr (id : BitVec 7)
  /-- R302: Wait for the pending arrival's phase to be released. -/
  | barWait (id : BitVec 7)
  /-- R302: Arrive unless pending, then wait for release. -/
  | barSync (id : BitVec 7)
  /-- R304: Announce bytes for the next phase of a stage barrier. -/
  | barTx (id : BitVec 7) (a : BitVec 5)
  /-- R302: Wait for release for at most x[a] clocks. -/
  | barTest (d : BitVec 5) (id : BitVec 7) (a : BitVec 5)
  /-- R121: Fence of a scope over a set of access sets. -/
  | kfence (sets : BitVec 4) (scope : BitVec 3)
  /-- R307: Arrive at a barrier and have counters summed into a roll-call record. -/
  | rollc (id : BitVec 7) (a : BitVec 5)
  /-- R310: Save the hart's lane context, optionally withdrawing parked copies. -/
  | kctxSv (a : BitVec 5)
  /-- R311: Restore a lane context and re-enter withdrawn requests. -/
  | kctxLd (a : BitVec 5)
  /-- R272: Send one message from x registers into the send buffer. -/
  | msend (a : BitVec 5)
  /-- R273: Send one message per lane set in m0. -/
  | msendL (a b : BitVec 5)
  /-- R282: Append a value to a hardware queue, stalling while full. -/
  | qpush (a b : BitVec 5)
  /-- R282: Remove the oldest value of a hardware queue, stalling while empty. -/
  | qpop (d a : BitVec 5)
  /-- R283: Arm a hall-pass instance over a ring of cores. -/
  | hpassArm (d a : BitVec 5)
  /-- R283: Send a white token of balance 0 from the initiator. -/
  | hpassStart (d a : BitVec 5)
  /-- R283: Return the hall-pass instance status. -/
  | hpassStatus (d a : BitVec 5)
  /-- R283: Stall until the instance has terminated. -/
  | hpassWait (d a : BitVec 5)
  /-- R283: Disarm the instance and drop a travelling token. -/
  | hpassDisarm (d a : BitVec 5)
  /-- R300: Submit a split-phase remote read answered by a message. -/
  | cprd (a : BitVec 5)
  /-- R287: Submit a copy request, stalling while the FIFO is full. -/
  | cpq (a : BitVec 5)
  /-- R287: Submit a copy request or report no room at once. -/
  | cpqNb (d a : BitVec 5)
  /-- R297: Arm a watermark channel with BASE and LEN. -/
  | cpwm (d a b : BitVec 5)
  /-- R297: Close a watermark channel to idle. -/
  | cpcls (d : BitVec 5)
  /-- R308: Read a launch record and submit it to the timetable unit. -/
  | launch (d a : BitVec 5)
  /-- R193: Clause header that waits on flags and opens a clause counting on flags A and B. -/
  | clause (flagB flagA : BitVec 4) (wait : BitVec 12) (len : BitVec 5)
  /-- R36: Order page-table stores and invalidate the core's PLB entries. -/
  | sfenceVma (a b : BitVec 5)
  /-- R121: Standard fence acting as a scope-5 kfence on the scalar set. -/
  | fence (fm pred succ : BitVec 4) (a d : BitVec 5)
  /-- R19: Set the function's root table and clear walker caches. -/
  | krootWrite (o : CsrOp)
  /-- R21: Set the hart's active domain set for following accesses. -/
  | kdomWrite (o : CsrOp)
  /-- R37: Start a function-wide translation invalidation. -/
  | ktinvGo (o : CsrOp)
  /-- R73: Start a slab mode switch. -/
  | kslabGo (o : CsrOp)
  /-- R74: Cancel a slab switch in close or drain. -/
  | kslabAbort (o : CsrOp)
  /-- R93: Write a partition entry, taking effect whole or refused. -/
  | kpartWrite (o : CsrOp)
  /-- R93: Write an owner entry, taking effect whole or refused. -/
  | kpownWrite (o : CsrOp)
  /-- R103: Report and clear the lowest pending starved partition. -/
  | kpoolevRead (o : CsrOp)
  /-- R134: Start a bias flip of a page from the device. -/
  | kbiasGo (o : CsrOp)
  /-- R150: Clear STICKY flag bits of the cluster. -/
  | kflagclrWrite (o : CsrOp)
  /-- R168: Set a channel's handler controls and reset its EPRIO. -/
  | khctlWrite (o : CsrOp)
  /-- R276: Assign or return a channel's hardware queue entries. -/
  | kchqDepthWrite (o : CsrOp)
  /-- R279: Clear a channel's spill error and resume refills and arrivals. -/
  | kchqErrClear (o : CsrOp)
  /-- R277: Place a channel's spill ring and reset head and tail. -/
  | kchringWrite (o : CsrOp)
  /-- R281: Set up a hardware queue or be ignored whole. -/
  | kqctlWrite (o : CsrOp)
  /-- R318: Request a halt of a sibling hart. -/
  | ksibctlHalt (o : CsrOp)
  /-- R318: Let a halted sibling hart run. -/
  | ksibctlResume (o : CsrOp)
  /-- R317: Write a selected item of a halted sibling. -/
  | ksibdataWrite (o : CsrOp)
  /-- R322: End this hart's part of a pre-emption save. -/
  | kpreDone (o : CsrOp)
  /-- R321: Save the class state to the class save area. -/
  | kcsaveSave (o : CsrOp)
  /-- R321: Restore the class state from the class save area. -/
  | kcsaveRestore (o : CsrOp)
  /-- R324: Extend a launch queue's ring as a release. -/
  | ktqctlTailWrite (o : CsrOp)
  /-- R324: Clear a queue's ring error so the entry is read again. -/
  | ktqctlRerrClear (o : CsrOp)
  /-- R329: Kill a launch of the function. -/
  | ktkillGo (o : CsrOp)
  /-- R335: Start a flush of the core's private caches. -/
  | kflushGo (o : CsrOp)
  /-- R345: Erase a key slot after write-back of its lines. -/
  | kkctlErase (o : CsrOp)
  /-- R343: Load a key slot with derived keys. -/
  | kkctlDerive (o : CsrOp)
  /-- R344: Unwrap a weight blob into a key slot. -/
  | kkctlUnwrap (o : CsrOp)
  /-- R343: Change the function and EID of a loaded slot. -/
  | kkctlRebind (o : CsrOp)
  /-- R343: Report whether a slot is loaded and its owner. -/
  | kkctlQuery (o : CsrOp)
  /-- R350: Change a guarded region's control, recorded and subject to LOCK. -/
  | khmctlWrite (o : CsrOp)
  /-- R350: Change a guarded region's domains, recorded and subject to LOCK. -/
  | khmdomWrite (o : CsrOp)
  /-- R350: Change a bucket's rate or depth, recorded and subject to LOCK. -/
  | khmrateWrite (o : CsrOp)
  /-- R332: A PMP write is mirrored to the cluster gate before completing. -/
  | pmpWrite (num : BitVec 12) (o : CsrOp)
  /-- R8: Write to a register with no behaviour of its own. -/
  | registerWrite (w : RegWrite)
  /-- R70: A hart's scalar load, checked by the PLB and watermark, served by the scalar cache and trapping on poison. -/
  | scalarLoad (o : LoadOp)
  /-- R57: A hart's scalar store, which sets D, invalidates the core's L1 copy and may be held by a watermark. -/
  | scalarStore (o : StoreOp)
  /-- R123: A scalar AMO, LR or SC at scope 5, indivisible against every agent and an acquire or release by its aq and rl bits. -/
  | scalarAtomic (o : AmoOp)
  /-- R226: Turn m0 to the enclosing lanes not in the region. -/
  | minv
  /-- R226: Pop the mask stack into m0. -/
  | mpop
  /-- R170: End a firing or retire a class hart. -/
  | hdone
  /-- R309: Complete and let the slot switch harts. -/
  | kyield
  /-- R309: Wait for the hart's operations and clear its lane-side state. -/
  | kscrub
  /-- R170: Load the firing's next reserved message. -/
  | mnext
  /-- R59: Order stores before fetches and invalidate the core's instruction cache. -/
  | fenceI
  /-- R163: Hint that lets the slot switch in the following clock. -/
  | pause
  /-- R179: Wait for an interrupt, trapping under TW. -/
  | wfi
  /-- R197: Return from S mode, reloading the live clause state from kclst. -/
  | sret
  /-- R197: Return from M mode, reloading the live clause state from kclst. -/
  | mret
  /-- R313: Take a synchronous trap or interrupt, moving clause state to kclst. -/
  | trapEntry
  /-- R179: A U-mode wfi completes as a no-op after 65,536 clocks. -/
  | wfiTimeout
  /-- R163: The slot switches after its hart has issued in 256 consecutive clocks. -/
  | slotSwitchLimit
  /-- R29: A walker takes the oldest queued request and walks the three-level table. -/
  | pageWalk
  /-- R40: The fault buffer moves its oldest entry into i0-i3 once their presence bits are clear. -/
  | faultBufferDelivery
  /-- R49: A held report is posted when a fault-buffer entry frees. -/
  | heldReportPost
  /-- R44: A retry reply on channel 63 replays the parked access. -/
  | faultReplyRetry
  /-- R44: A fatal reply on channel 63 ends the parked access with cause 24. -/
  | faultReplyFatal
  /-- R44: A notice on channel 63 enters the die's fault buffer or is discarded. -/
  | notice
  /-- R38: A ktinv invalidation finishes and GO clears. -/
  | invalidationComplete
  /-- R338: A line enters the cluster through the gate and is unsealed. -/
  | lineFill
  /-- R68: A corrected memory error is fixed and counted. -/
  | correctedError
  /-- R69: An uncorrectable error makes data poison at its granularity. -/
  | uncorrectableError
  /-- R74: A closing slab has drained and clearing begins. -/
  | slabDrainComplete
  /-- R74: A slab finishes clearing and enters its new mode. -/
  | slabClearComplete
  /-- R135: The losing side has drained, the bias changes and held accesses proceed. -/
  | biasFlipComplete
  /-- R335: A kflush finishes writing back and invalidating the core's caches. -/
  | flushComplete
  /-- R95: A blocked allocation is granted a slot that has become FREE. -/
  | tallocGrant
  /-- R253: A tile reservation commits once the matrix unit accepts the tile. -/
  | tileReservationCommit
  /-- R253: A tile reservation is released with no change when the unit refuses the tile. -/
  | tileReservationRelease
  /-- R103: After LIMIT clocks, every waiting hart of a starved partition takes cause 31. -/
  | starvationDetectorFire
  /-- R259: An accepted tmma finishes computing its accumulator. -/
  | tmmaComplete
  /-- R266: After every 4,096th tmma, a group's sub-arrays are tested against a fixed pattern. -/
  | popQuiz
  /-- R278: A message reaches its channel and goes to the hardware part, the ring, or is held. -/
  | messageArrival
  /-- R278: The ring's head entry moves to the hardware tail, at most one per 4 clocks per core. -/
  | channelRefill
  /-- R278: A message held at its source is offered to its channel again. -/
  | heldMessageReoffer
  /-- R170: The pigeonhole starts a firing of the selected runnable channel on a free hart. -/
  | firingStart
  /-- R171: After 4,096 passes without a firing a channel's EPRIO rises by one. -/
  | eprioAging
  /-- R167: A held inbox write enters its register in the clock after imv clears the bit. -/
  | iwrHeldWriteEntry
  /-- R292: The copy engine takes the next accepted request from the FIFO. -/
  | copyRequestStart
  /-- R292: A new-tile copy is granted its slot in PART. -/
  | copyTileAllocation
  /-- R51: The engine performs one piece of a copy of kind copy. -/
  | copyPieceCopy
  /-- R290: The engine performs one piece of a pattern fill. -/
  | copyPieceFill
  /-- R290: The engine performs one piece of a zero fill. -/
  | copyPieceZero
  /-- R290: The engine gathers elements from a list of addresses. -/
  | copyPieceGather
  /-- R290: The engine issues reduce contributions towards destination elements. -/
  | copyPieceReduce
  /-- R296: A reduce contribution reaches a fabric switch and combines, takes an entry or passes. -/
  | reduceContributionArrival
  /-- R131: A combining entry is forwarded 512 clocks after its first contribution. -/
  | combiningEntryTimeout
  /-- R300: The engine reads the block of a cprd and sends its completion message. -/
  | cprdPerform
  /-- R294: A copy ends with a status and signals its completion target. -/
  | copyCompletion
  /-- R303: A core's arrivals for a phase sweep towards the corner core. -/
  | barrierSweep
  /-- R303: The corner's release travels back and each core releases its waiters. -/
  | barrierRelease
  /-- R304: Bytes delivered by a copy are counted towards a stage barrier's phase. -/
  | stageBarrierDelivery
  /-- R302: A bar.test wait expires and writes 1. -/
  | barTestTimeout
  /-- R283: The last ring acknowledgement returns and the arm completes. -/
  | hpassArmAck
  /-- R285: A token reaches a ring core, waits for idleness, adds the count and moves on. -/
  | hpassTokenHop
  /-- R326: The timetable unit selects the oldest launch of the chosen queue and checks it. -/
  | launchSelection
  /-- R327: The binder places the next cohort of an active launch and makes its harts ready. -/
  | cohortBinding
  /-- R320: The timetable unit sets REQ on every class hart of a cohort. -/
  | preemptionRequest
  /-- R328: A launch whose last cohort ended is reclaimed, cleared and recorded. -/
  | launchCompletion
  /-- R337: Mladotte call creating an enclave. -/
  | mladotteCreate
  /-- R346: Mladotte call measuring and locking a page of an enclave. -/
  | mladotteAddPage
  /-- R348: Mladotte call making run-time code executable and extending the measurement. -/
  | mladotteExtend
  /-- R337: Mladotte call finalizing an enclave's measurement. -/
  | mladotteFinalize
  /-- R336: Mladotte call switching a core to an enclave. -/
  | mladotteEnter
  /-- R337: Mladotte call returning the core to EID 0. -/
  | mladotteExit
  /-- R337: Mladotte call destroying an enclave and erasing its keys. -/
  | mladotteDestroy
  /-- R337: Mladotte call unwrapping a weight blob into a key slot. -/
  | mladotteUnwrap
  /-- R349: Mladotte call returning a signed measurement report over a nonce. -/
  | mladotteReport
  /-- R349: An SPDM request over DOE is answered with signed measurements. -/
  | spdmRequest
  /-- R353: An outgoing transaction passes and debits its buckets or stalls. -/
  | egressTransaction
  /-- R353: At each microsecond boundary every bucket gains RATE up to DEPTH. -/
  | bucketRefill
  /-- R358: After every 1,024th record the writer appends a signed head. -/
  | signedHead
  /-- R362: A function-level reset halts, discards, clears and revokes a function. -/
  | functionLevelReset
  /-- R349: A function's TDISP interface leaves RUN, stopping launches and resetting it. -/
  | tdispLeaveRun
  /-- R410: Reset release starts stage 0 of start-up. -/
  | coldReset
  /-- R410: Stage 0 conditions hold and S0 is set. -/
  | stage0Complete
  /-- R410: Firmware verified, HBM trained, dies up and epoch fuse blown; S1 set. -/
  | stage1Complete
  /-- R410: Mladotte loaded and PMP locked; S2 set. -/
  | stage2Complete
  /-- R412: At each 1 ms boundary the governor applies thermal, power and cap requests. -/
  | operatingPointUpdate
  /-- R412: A droop detector halves the island clock and counts the event. -/
  | droopDetectorFire
  /-- R412: The droop stretch ends after 64 island clocks. -/
  | droopStretchEnd
  /-- R414: A sensor at 115 C cuts the core rails and holds the device. -/
  | thermalTrip
  /-- R406: A Noham link trains with the switch and the pod number is assigned. -/
  | linkTraining
  /-- R407: A failed link's in-flight requests are replayed on the recomputed plane. -/
  | linkFailure
  /-- R408: A peer access arrives and is accepted or refused by the export bitmap. -/
  | peerAccessArrival
  /-- R133: A host CXL.mem read served by bias. -/
  | hostCxlMemRead
  /-- R133: A host CXL.mem write served by bias. -/
  | hostCxlMemWrite
  /-- R409: A port takes a transmit descriptor and sends its frame. -/
  | ethTransmit
  /-- R409: An arriving frame is written to the next receive descriptor. -/
  | ethReceive
  /-- R134: Start a bias flip of a page from the host's function block. -/
  | biasGo
  /-- R360: Advance the book's acknowledged count, freeing room for appends. -/
  | bookackWrite
  /-- R360: Request the append of a signed head. -/
  | booksignRequest
  /-- R361: Draw a fresh clean-slate nonce. -/
  | slatenonceRead
  /-- R361: Submit a clean-slate token for verification, wipe and mode entry. -/
  | slatetokenSubmit
  /-- R413: Set the host's operating-point cap of an island. -/
  | islstCapWrite
  /-- R409: A TAIL write rings an Ethernet ring's doorbell. -/
  | ethTailDoorbell
  /-- R178: The supervisor timer interrupt becomes pending when time reaches stimecmp under Sstc. -/
  | supervisorTimerInterrupt
  /-- R349: A function's TDISP interface enters RUN, after which it accepts launches and host memory traffic. -/
  | tdispEnterRun
  /-- R133: The host snoops a host-window line that the device holds over CXL.cache, recalling or invalidating the device's copy. -/
  | hostCxlCacheSnoop
  deriving DecidableEq, Repr

end Sys2Proof
end

