-- ==== Sys2Proof/Machine/State.lean ====
section
/-!
DEFINITION. The state of the T9, as plain data: every register, table, queue and memory that spec/ gives the device,
each with its reset value as the field's default. INVENTORY.md lists them with the rule that names each. Units are
numbered as R4 numbers them: hart = core × 16 + number, core = die × 64 + row × 8 + column, cluster = R4's cluster id.
-/
namespace Sys2Proof.Machine

/-- The privilege modes (R177). -/
inductive Priv where
  | u | s | m
  deriving DecidableEq, Repr

/-- A message on its way or in a queue (R271): the delivered header, the payload words, and what travels with it:
the sender's function, launch, mhartid and taint (R351), whether a hall-pass instance counted it (R284), and of a copy's message the scope
of the release that it carries, 0 for none (R125, R128). -/
structure Message where
  hdr : Word := 0
  words : List Word := []
  fn : Nat := 0
  launch : Nat := 0
  sender : Nat := 0
  taint : BitVec 16 := 0
  counted : Bool := false
  edge : Option Nat := none
  deriving DecidableEq, Repr

/-- An entry of a core's send buffer (R168, R272): the message, the clause flag that its instruction counts on (R194), and the number of
that instruction's first entry. -/
structure SendEntry where
  id : Nat := 0
  first : Nat := 0
  msg : Message := {}
  flag : Option Nat := none
  deriving DecidableEq, Repr

/-- Where a message that a channel holds off waits (R278): an entry of a core's send buffer, or a copy FIFO slot. -/
inductive MsgRef where
  | send (core id : Nat)
  | copy (core slot : Nat)
  deriving DecidableEq, Repr

/-- A fault report or a notice, as the four words that arrive in i0 to i3 (R41); a notice carries its sender's taint. `who` says what of its core a report comes
from (R49): a hart by its number, the slot i of the copy FIFO as 16 + i, the roll call's engine as 256. -/
structure Report where
  w0 : Word := 0
  w1 : Word := 0
  w2 : Word := 0
  w3 : Word := 0
  taint : BitVec 16 := 0
  who : Nat := 0
  deriving DecidableEq, Repr

/-- Why a hart is not ready (R162). A stalled hart executes its instruction again at its next turn; a hart blocked on a
fault reply (R40), in `talloc` (R95) or on a tile reservation (R253) waits for the event that ends the wait. -/
inductive Wait where
  | ready
  | stall
  | fault (id lane : Nat) (va : Word)
  | talloc (cluster part since : Nat)
  | reserve (cluster unit gen : Nat)
  | iwr (hart reg : Nat)
  | qpop (core q : Nat)
  | bar (id : Nat)
  | barTest (id since d limit : Nat)
  | wfi (since : Nat)
  | arming (inst d : Nat)
  deriving DecidableEq, Repr

/-- A handler firing (R170): its channel, its launch, the messages it has taken, its reserved sends not yet used, the EID of its core at the
start (R336). -/
structure Firing where
  ch : Nat := 0
  launch : Nat := 0
  taken : List Message := []
  sendLeft : Nat := 0
  taint : BitVec 16 := 0
  eid : Nat := 0
  deriving DecidableEq, Repr

/-- What a hart is bound to: nothing, a class (its key in `State.classes`), or a firing. -/
inductive Binding where
  | none
  | cls (key : Nat)
  | firing (f : Firing)
  deriving DecidableEq, Repr

/-- The standard CSRs of a hart (R177, R178), with the read-only fields left out. `mip` holds the bits that are not computed. -/
structure Csrs where
  mstatus : Word := 0x2000
  mtvec : Word := 0
  medeleg : Word := 0
  mideleg : Word := 0
  mie : Word := 0
  mip : Word := 0
  mcounteren : Word := 0
  mcountinhibit : Word := 0
  mscratch : Word := 0
  mepc : Word := 0
  mcause : Word := 0
  mtval : Word := 0
  menvcfg : Word := 0
  mseccfg : Word := 0
  pmpcfg : SMap (BitVec 8) := []
  pmpaddr : SMap Word := []
  stvec : Word := 0
  scounteren : Word := 0
  senvcfg : Word := 0
  sscratch : Word := 0
  sepc : Word := 0
  scause : Word := 0
  stval : Word := 0
  stimecmp : Word := 0
  satpMode : BitVec 4 := 0
  mcycle : Word := 0
  minstret : Word := 0
  deriving DecidableEq, Repr

/-- The custom CSRs of a hart (R204 and the chapters it names). -/
structure Kcsrs where
  kclst : BitVec 13 := 0
  kdom : BitVec 36 := 0
  kflane : BitVec 16 := 0
  kxtab : Word := 0
  kpsel : BitVec 11 := 0
  khsel : BitVec 6 := 0
  kqsel : BitVec 5 := 0
  kcpst : Word := 0
  kwmsel : BitVec 4 := 0
  ksibsel : BitVec 27 := 0
  kpreReq : Bool := false
  kpreRes : Bool := false
  kpreDone : Bool := false
  kpreTok : BitVec 48 := 0
  kcsave : Word := 0
  kcsarea : Word := 0
  ktqsel : BitVec 6 := 0
  kksel : BitVec 10 := 0
  kkctl : Word := 0
  kkdat : Word := 0
  khmsel : BitVec 12 := 0
  kwid : Word := 0
  kwidw : Word := 0
  kclass : Word := 0
  kwlim : Word := 0
  kargs : Word := 0
  kmhdr : Word := 0
  deriving DecidableEq, Repr

/-- The live clause state of a hart (R197): instructions not yet issued, flag A, flag B. -/
structure Clause where
  rem : Nat := 0
  fa : BitVec 4 := 0
  fb : BitVec 4 := 0
  deriving DecidableEq, Repr

/-- A write of an inbox register that its target holds (R167): the writing hart, the register, the value, the writer's taint. -/
structure HeldIwr where
  writer : Nat := 0
  reg : Nat := 0
  val : Word := 0
  taint : BitVec 16 := 0
  deriving DecidableEq, Repr

/-- Where an inbox register's value came from (R125, R351): the hart that wrote it, where one did, and its taint. -/
structure InFrom where
  writer : Option Nat := none
  notice : Bool := false
  taint : BitVec 16 := 0
  deriving DecidableEq, Repr

/-- A fault of a copy that its issuer has yet to meet at a wait (R46, R340): the target it waits on (a flag 0 to 11, or 16 + a
barrier id), the failing address, whether it was a seal integrity failure. -/
structure CopyFault where
  target : Nat := 0
  va : Word := 0
  isSealed : Bool := false
  deriving DecidableEq, Repr

/-- One hart (R162, R183). `live` says that it runs (a hart bound to nothing does not issue); `mtaint` is what its context in M mode has gathered
beside the regions enabled now (R351); `ibits` and `ilen` are the
instruction the hart last fetched and its length in bytes (the model's own, log 13). -/
structure Hart where
  live : Bool := false
  halted : Bool := false
  haltReq : Bool := false
  retired : Bool := false
  priv : Priv := .m
  pc : Word := 0
  x : SMap Word := []
  f : SMap Word := []
  frm : BitVec 3 := 0
  fflags : BitVec 5 := 0
  v : SMap Elem := []
  m : SMap (BitVec 32) := []
  kms : SMap (BitVec 32) := []
  kmsd : Nat := 0
  inbox : SMap Word := []
  present : BitVec 8 := 0
  inFrom : SMap InFrom := []
  held : List HeldIwr := []
  cf : SMap Nat := []
  faults : List CopyFault := []
  clause : Clause := {}
  csr : Csrs := {}
  k : Kcsrs := {}
  resv : Option Nat := none
  wait : Wait := .ready
  bind : Binding := .none
  fn : Nat := 0
  taint : BitVec 16 := 0
  mtaint : BitVec 16 := 0
  tfr : Word := 0
  ibits : Word := 0
  ilen : Nat := 4
  deriving DecidableEq, Repr

/-- A page's attributes as a PLB holds them (R22), and the physical base that a TLB entry adds; a PLB uses of it only whether the page is HBM, of the
host, of a peer or MMIO (R26, R354). `way` numbers the copy TLB's ways within their set (R33). -/
structure PageEntry where
  vpn : Nat := 0
  huge : Bool := false
  rd : Bool := false
  wr : Bool := false
  x : Bool := false
  meas : Bool := false
  dirty : Bool := false
  cm : Nat := 0
  key : Nat := 0
  dom : Nat := 0
  eid : Nat := 0
  fn : Nat := 0
  pa : Nat := 0
  pinned : Bool := false
  used : Bool := false
  prot : Nat := 0
  way : Nat := 0
  deriving DecidableEq, Repr

/-- A non-leaf entry that a walker keeps (R34): it leads to the table of level `lvl` (2 or 3) at `table`, for the addresses of a function
whose index bits above that level are `tag`. -/
structure WalkEntry where
  fn : Nat := 0
  lvl : Nat := 2
  tag : Nat := 0
  table : Nat := 0
  deriving DecidableEq, Repr

/-- A line of a core's L1 or instruction cache (R52): the virtual line number, the function, the physical line, the key id of its page, the
bytes, poison. -/
structure CLine where
  vline : Nat := 0
  fn : Nat := 0
  pl : Nat := 0
  key : Nat := 0
  bytes : List Byte := []
  psn : Bool := false
  deriving DecidableEq, Repr

/-- The tile that an operand slot holds (R104): the header and the bytes after it, as loaded; an EX8 tile's are its decoded
E4M3 elements packed row by row, then its UE8M4 scales per 32 as halfwords (R254, R321). -/
structure TileVal where
  loaded : Bool := false
  hdr : BitVec 128 := 0
  bytes : SMap Byte := []
  deriving DecidableEq, Repr

/-- An accumulator tile (R104): the header, and element (i, j) at key 128 i + j. -/
structure AccVal where
  hdr : BitVec 128
  elems : SMap Word := []
  deriving DecidableEq, Repr

/-- A `tmma` that the matrix unit has accepted (R259): its accumulator, its A and B slots by code, its operands as the unit took
them. -/
structure MatOp where
  acc : Nat := 0
  a : Nat := 0
  b : Nat := 4
  z : Bool := false
  ta : TileVal := {}
  tb : TileVal := {}
  deriving DecidableEq, Repr

/-- A message in the hardware part of a channel queue: reserved by firing hart `resv - 1` when nonzero (R170); its 4-byte words that are poison (R69). -/
structure QMsg where
  msg : Message := {}
  resv : Nat := 0
  psn : List Nat := []
  deriving DecidableEq, Repr

/-- A channel of a core's pigeonhole: the handler entry (R168, with what the binder recorded for its launch), aging (R171),
the queue, its entries by the queue-mode slab that they lie in, and the spill ring (R276 to R279, R74). -/
structure Channel where
  pc : Word := 0
  en : Bool := false
  prio : Nat := 0
  k : Nat := 0
  conc : Nat := 0
  maxp : Nat := 0
  pinen : Bool := false
  pin : Nat := 0
  eprio : Nat := 0
  launch : Nat := 0
  kdom : BitVec 36 := 0
  kxtab : Word := 0
  passes : Nat := 0
  depth : Nat := 0
  byBinder : Bool := false
  hw : List QMsg := []
  lsize : Nat := 0
  base : Word := 0
  rcnt : Nat := 0
  head : Nat := 0
  tail : Nat := 0
  drop : Nat := 0
  err : Bool := false
  held : List MsgRef := []
  ringMeta : List Message := []
  ents : SMap Nat := []
  deriving DecidableEq, Repr

/-- A value in a hardware queue, with the hart that pushed it and its taint (R281, R125, R351); its 4-byte words that are poison (R69). -/
structure QVal where
  val : Word := 0
  writer : Nat := 0
  taint : BitVec 16 := 0
  psn : List Nat := []
  deriving DecidableEq, Repr

/-- A hardware queue of a core (R281, R282), its entries by slab. -/
structure HwQueue where
  en : Bool := false
  launch : Nat := 0
  units : Nat := 0
  vals : List QVal := []
  waiters : List Nat := []
  ents : SMap Nat := []
  deriving DecidableEq, Repr

/-- A watermark channel (R79): state 0 idle, 1 armed, 2 complete, 3 error; `total` sums the lengths of the copies to it,
`era` numbers its armings. -/
structure WmChan where
  base : Nat := 0
  len : Nat := 0
  wm : Nat := 0
  st : Nat := 0
  total : Nat := 0
  era : Nat := 0
  deriving DecidableEq, Repr

/-- Where a copy request stands (R292): `waitTile` is at work and waits for a read of its source tile (R253); `resume` has what it was parked on and waits for one of the
four places at work. -/
inductive CopySt where
  | queued | working | waitTile | parkFault | parkAlloc | parkWm | resume | ended | offering
  deriving DecidableEq, Repr

/-- A request of a core's copy FIFO (R287): its order of acceptance, the request words, what was captured (the hart with its binding
while `own`, privilege, domain set, launch, class, taint, pc, flags that it counts on), the progress and the outcome; `again`
marks one that `kctx.ld` has entered again (R311), `tileDone` one whose new tile is sealed, `wide` a `cprd` whose source
lies in a window (R128). -/
structure CopyReq where
  seq : Nat := 0
  cprd : Bool := false
  w0 : Word := 0
  w1 : Word := 0
  w2 : Word := 0
  w3 : Word := 0
  hart : Nat := 0
  own : Bool := true
  priv : Priv := .u
  bare : Bool := false
  kdom : BitVec 36 := 0
  launch : Nat := 0
  fn : Nat := 0
  cls : Nat := 0
  taint : BitVec 16 := 0
  pc : Word := 0
  eid : Nat := 0
  flags : List Nat := []
  st : CopySt := .queued
  off : Nat := 0
  tlen : Nat := 0
  res : Bool := false
  code : Nat := 0
  detail : Nat := 0
  isSealed : Bool := false
  handle : Word := 0
  faultId : Nat := 0
  faultVa : Word := 0
  wmEra : Nat := 0
  undelivered : Nat := 0
  data : List Byte := []
  counted : Bool := false
  again : Bool := false
  tileDone : Bool := false
  wide : Bool := false
  deriving DecidableEq, Repr

/-- A roll call of the corner core (R307): the hart and its record's address, what the write is checked with, the fault report that
it waits on. -/
structure RollCall where
  hart : Nat := 0
  va : Word := 0
  priv : Priv := .u
  bare : Bool := false
  kdom : BitVec 36 := 0
  fn : Nat := 0
  eid : Nat := 0
  taint : BitVec 16 := 0
  pc : Word := 0
  fault : Option Nat := none
  deriving DecidableEq, Repr

/-- A named barrier of a core (R301 to R304, R307): the configuration, the number of the current phase, arrivals of the
current and the next phase, per hart the phase of a pending arrival plus 1, the sweep of the current phase and the counters it
sums, the samples and the first roll call of the two phases, the bytes announced per phase and those delivered, the widest scope that
copies give to the release of the two phases (R127, R128). -/
structure Barrier where
  cfg : Option (BitVec 18) := none
  phase : Nat := 0
  arr0 : Nat := 0
  arr1 : Nat := 0
  pend : SMap Nat := []
  broken : Bool := false
  swept : Bool := false
  sum : List Nat := []
  sample0 : List Nat := []
  sample1 : List Nat := []
  roll0 : Option RollCall := none
  roll1 : Option RollCall := none
  ann : SMap Nat := []
  delivered : Nat := 0
  edge0 : Nat := 0
  edge1 : Nat := 0
  deriving DecidableEq, Repr

/-- A slot's schedule (R163): the number 0 to 3 of its current hart, the clocks it has issued in a row, whether `pause` or `kyield` has
asked for a switch. -/
structure SlotSched where
  cur : Nat := 0
  run : Nat := 0
  yield : Bool := false
  deriving DecidableEq, Repr

/-- The header of an unused accumulator (R104): MARK 0x5A, VER 1, EFMT 0x02, 128 × 128, its CRC under R87. -/
def unusedAccHdr : BitVec 128 := 0x6bc10000000000000007f07f0000215a

/-- What Mladotte keeps of an enclave that a core does not run (R336): its bound harts as the switch found them in M mode, the PMP entries and `kdom` of each hart of
the core, the operand slots and accumulators, the blackboards of its classes. -/
structure Parked where
  harts : List (Nat × Hart) := []
  prots : List (Nat × SMap (BitVec 8) × SMap Word × BitVec 36) := []
  ops : SMap TileVal := []
  accs : SMap AccVal := []
  bbs : SMap (SMap Word) := []
  deriving DecidableEq, Repr

/-- One core: among its fields the enclaves resident on it (R333), and what is parked of each EID that it does not run. -/
structure Core where
  kev : SMap Nat := []
  kscrpass : Nat := 0
  slots : SMap SlotSched := []
  plb : List PageEntry := []
  l1 : List CLine := []
  icache : List CLine := []
  ops : SMap TileVal := []
  accs : SMap AccVal := []
  mx : List MatOp := []
  mxCount : Nat := 0
  mxGroup : Nat := 0
  fence : BitVec 64 := 0
  fid : BitVec 16 := 0
  heldReports : List Report := []
  chans : SMap Channel := []
  lastPrio : SMap Nat := []
  lastRefill : Nat := 63
  refillAt : Nat := 0
  sends : List SendEntry := []
  sendSeq : Nat := 0
  queues : SMap HwQueue := []
  fifo : SMap (Option CopyReq) := []
  fifoSeq : Nat := 0
  wm : SMap WmChan := []
  bars : SMap Barrier := []
  hpCount : SMap (BitVec 48) := []
  hpBlack : SMap Bool := []
  kencl : BitVec 16 := 0
  kflush : Bool := false
  resident : List Nat := []
  parked : SMap Parked := []
  deriving DecidableEq, Repr

/-- The states of a pool slot (R96). -/
inductive TileSt where
  | free | opened | sealed | poisoned
  deriving DecidableEq, Repr

/-- A pool slot, named by its first unit (R89, R91, R96, R97): its bytes, and one written bit per 128-byte line. -/
structure PoolSlot where
  st : TileSt := .free
  gen : Nat := 0xFFFF
  owner : Nat := 0
  n : Nat := 0
  c : Nat := 0
  res : Nat := 0
  bytes : SMap Byte := []
  written : SMap Bool := []
  taint : BitVec 16 := 0
  deriving DecidableEq, Repr

/-- An owner entry of a partition (R92); INUSE is counted from the slots. -/
structure Owner where
  v : Bool := false
  max : Nat := 0
  min : Nat := 0
  launch : Nat := 0
  deriving DecidableEq, Repr

/-- Who waits for an allocation (R95): a hart, or a copy request. -/
inductive Waiter where
  | hart (h : Nat)
  | copy (core slot : Nat)
  deriving DecidableEq, Repr

/-- A pool partition (R92, R93, R95, R103). -/
structure Partition where
  en : Bool := false
  err : Bool := false
  cls : Nat := 0
  count : Nat := 0
  base : Nat := 0
  fn : Nat := 0
  eid : Nat := 0
  owners : SMap Owner := []
  waiters : List Waiter := []
  lastRead : Nat := 0
  deriving DecidableEq, Repr

/-- The metadata of a 128-byte line (R65): poison, zero, integrity tag. -/
structure LineMeta where
  psn : Bool := false
  zero : Bool := false
  tag : BitVec 56 := 0
  deriving DecidableEq, Repr

/-- The MESI states (R56, R62). -/
inductive Mesi where
  | i | s | e | m
  deriving DecidableEq, Repr

/-- A line of a cluster's cache, in the way of slab `way` or in zero tag `way` (R52, R56, R66): the name it was filled under, the physical line, the
key id, the EID (R334), its MESI state and dirty bit, the state of the copy in each scalar cache of the cluster (an absent copy is `i`; the states other
than `i` are the presence vector), whether it was entered as least recently used (R53), poison there and in each scalar copy (R69), the union of the
taints of its writers (R352), the hart and the privilege of the access that last filled or wrote it (R332). Its bytes are those of the one memory (log 3), except where the line is a peer window's: then `keep` holds them. In another
dirty line `keep` and `kept` are what the level below holds. -/
structure KLine where
  vline : Nat := 0
  fn : Nat := 0
  pl : Nat := 0
  key : Nat := 0
  eid : Nat := 0
  way : Nat := 0
  zero : Bool := false
  mesi : Mesi := .s
  dirty : Bool := false
  scal : SMap Mesi := []
  spsn : SMap Bool := []
  lru : Bool := false
  psn : Bool := false
  taint : BitVec 16 := 0
  hart : Nat := 0
  priv : Priv := .m
  keep : List Byte := []
  kept : LineMeta := {}
  deriving DecidableEq, Repr

/-- The clusters that share a line (R62): up to four ids, or one bit per die. -/
inductive Sharers where
  | ids (l : List Nat)
  | dies (v : BitVec 8)
  deriving DecidableEq, Repr

/-- A line of an L2 slice, in a data way or a zero tag, with its directory entry (R52, R62, R66): the MESI state, the virtual line and the function under which
the first cluster filled it, the sharers, poison of its own copy (R69). Its bytes are those of the one memory (log 3). -/
structure L2Line where
  pl : Nat := 0
  zero : Bool := false
  dirty : Bool := false
  mesi : Mesi := .i
  vline : Nat := 0
  fn : Nat := 0
  sharers : Sharers := .ids []
  taint : BitVec 16 := 0
  psn : Bool := false
  deriving DecidableEq, Repr

/-- One cluster; `cache` holds the lines of its cache and its zero tags by set, VA[17:7] (R52). `slabPhase` is 0 with no switch in progress, 1 while slab `swSlab` drains, 2 while it clears for mode `swNew` (R74). `recalled` names
the slabs that a function-level reset sends back to cache mode, which another function still fills (R72; log 32). -/
structure Cluster where
  modes : SMap Nat := []
  slabGo : Bool := false
  slabStatus : Nat := 0
  slabNew : Nat := 0
  slabNum : Nat := 0
  slabPhase : Nat := 0
  swNew : Nat := 0
  recalled : List Nat := []
  swSlab : Nat := 0
  kpoolto : BitVec 32 := 0x01000000
  parts : SMap Partition := []
  slots : SMap PoolSlot := []
  sticky : BitVec 5 := 0
  tlbLane : List PageEntry := []
  tlbMat : List PageEntry := []
  tlbCopy : List PageEntry := []
  tlbIns : List PageEntry := []
  cache : SMap (List KLine) := []
  deriving DecidableEq, Repr

/-- What a copy has put into a contribution: the copy's core and place in its FIFO's order, the offset of the piece, the destination's virtual
line and its function tag in the core's L1. -/
structure ContribSrc where
  core : Nat := 0
  seq : Nat := 0
  off : Nat := 0
  vline : Nat := 0
  tag : Nat := 0
  deriving DecidableEq, Repr

/-- A reduce contribution to one destination line (R131, R296): physical addresses and values of elements, the operation, the function, the
count expected, whether a copy in it releases, taint, and what it has been combined from. -/
structure Contrib where
  line : Nat := 0
  key : Nat := 0
  rop : Nat := 0
  size : Nat := 0
  els : List (Nat × Word) := []
  fn : Nat := 0
  eid : Nat := 0
  expected : Nat := 0
  release : Bool := false
  taint : BitVec 16 := 0
  parts : List ContribSrc := []
  deriving DecidableEq, Repr

/-- An entry of a die's combining table (R296): what has been combined in it, and the clock of its first contribution. -/
structure CombEntry where
  sum : Contrib := {}
  since : Nat := 0
  deriving DecidableEq, Repr

/-- One die: the fault buffer and the core, by its number in the die, whose held report was last posted (R40, R49), the pool event set (R103: keys cluster × 64 + partition), the combining
table and the contributions on their way to it (R296), the lines of its 16 L2 slices by line number (R62). -/
structure Die where
  buf : List Report := []
  lastHeld : Nat := 63
  poolEv : SMap Bool := []
  comb : List CombEntry := []
  transit : List Contrib := []
  l2 : SMap (Option L2Line) := []
  deriving DecidableEq, Repr

/-- The TDISP states of a function (R349). -/
inductive Tdisp where
  | unlocked | locked | run | error
  deriving DecidableEq, Repr

/-- An Ethernet ring (R409), with what was captured from the context whose store wrote TAIL. -/
structure EthRing where
  base : Word := 0
  en : Bool := false
  rx : Bool := false
  size : Nat := 0
  tail : Nat := 0
  head : Nat := 0
  priv : Priv := .u
  bare : Bool := false
  kdom : BitVec 36 := 0
  taint : BitVec 16 := 0
  deriving DecidableEq, Repr

/-- One host function's registers (R19, R37, R134, R329, R349, R409); `ktinvRun`, `kbiasRun` and `killing` are what the invalidation, the flip
and the kill in progress act on, whatever is written to the registers meanwhile; `kbiasWait` is the order of the GO writes that wait (R134), 8192 for
one of the host. -/
structure Func where
  kroot : Word := 0
  ktinv : Word := 0
  ktinvGo : Bool := false
  ktinvRun : Word := 0
  kbias : Word := 0
  kbiasGo : Bool := false
  kbiasRun : Word := 0
  kbiasWait : List Nat := []
  ktkill : Word := 0
  ktkillGo : Bool := false
  killing : Nat := 0
  tdisp : Tdisp := .unlocked
  rings : SMap EthRing := []
  deriving DecidableEq, Repr

/-- A launch queue (R324); `subs` holds the ids of launches submitted by `launch`, each with the TAIL it stands behind. -/
structure LaunchQ where
  en : Bool := false
  prio : Nat := 0
  lsize : Nat := 0
  rerr : Bool := false
  cerr : Bool := false
  head : Nat := 0
  tail : Nat := 0
  base : Word := 0
  fn : Nat := 0
  subs : List (Nat × Nat) := []
  deriving DecidableEq, Repr

/-- A launch the timetable unit knows (R324 to R329): its record, KCB, handler table and staging list as read, the queue it was
taken from, priority and place in the order of selection, the next cohort to bind, how many have ended, the code of a kill; the
domain set and EX8 tables of its harts; the cores that its PLACE = 0 handler entries name (R369). -/
structure Launch where
  id : Nat := 0
  fn : Nat := 0
  words : List Word := []
  kcb : List Byte := []
  htab : List Word := []
  stage : List Word := []
  queue : Option Nat := none
  prio : Nat := 0
  selected : Bool := false
  order : Nat := 0
  next : Nat := 0
  ended : Nat := 0
  killed : Option Nat := none
  kdom : BitVec 36 := 0
  kxtab : Word := 0
  hcores : List Nat := []
  deriving DecidableEq, Repr

/-- A bound class (R160): placement, blackboard and owner map, scratch grant with its bytes and poison, barrier and matrix
grants, taint; of a pre-emption which harts have written DONE and which was last, whether the class resumes one, and the released arrivals
that a save found still pending, as pairs of barrier and hart-in-class (R323; log 24). -/
structure ClassRec where
  live : Bool := false
  core : Nat := 0
  launch : Nat := 0
  fn : Nat := 0
  cohort : Nat := 0
  cidx : Nat := 0
  e1 : Nat := 1
  harts : List Nat := []
  bb : SMap Word := []
  bbown : Word := 0
  scrUnits : List Nat := []
  scrSize : Nat := 0
  scr : SMap Byte := []
  scrPsn : SMap Bool := []
  nbar : Nat := 0
  acc : Option Nat := none
  eid : Nat := 0
  taint : BitVec 16 := 0
  done : BitVec 16 := 0
  last : Nat := 0
  resumed : Bool := false
  restored : Bool := false
  arrived : List (Nat × Nat) := []
  deriving DecidableEq, Repr

/-- A cohort that pre-emption has saved (R322): the classes that had not ended; at key 16 × class + hart-in-class the TOKEN and
whether the hart has retired, per class the hart-in-class that wrote DONE last, the taint, and the released arrivals. -/
structure SavedCohort where
  launch : Nat := 0
  cohort : Nat := 0
  classes : List Nat := []
  tokens : SMap (BitVec 48) := []
  retired : SMap Bool := []
  last : SMap Nat := []
  taints : SMap (BitVec 16) := []
  arrived : SMap (List (Nat × Nat)) := []
  deriving DecidableEq, Repr

/-- A hall-pass instance (R283, R285): state 0 disarmed, 1 armed, 2 running, 3 terminated; `acked` counts the ring cores
that have acknowledged an arm in progress, `tok` is the token's ring position. -/
structure HallPass where
  st : Nat := 0
  arming : Bool := false
  acked : Nat := 0
  first : Nat := 0
  last : Nat := 0
  init : Nat := 0
  owner : Nat := 0
  notified : Nat := 0
  rounds : Nat := 0
  balance : BitVec 48 := 0
  tok : Nat := 0
  tokBlack : Bool := false
  tokBal : BitVec 48 := 0
  deriving DecidableEq, Repr

/-- A key-store slot (R342). -/
structure KeySlot where
  loaded : Bool := false
  k1 : BitVec 128 := 0
  k2 : BitVec 128 := 0
  mac : BitVec 128 := 0
  fn : Nat := 0
  eid : Nat := 0
  deriving DecidableEq, Repr

/-- An enclave as Mladotte keeps it (R337, R346): its slot among those of its function (R349), its pages as pairs of virtual page number and
frame. -/
structure Enclave where
  alive : Bool := false
  slot : Nat := 0
  fn : Nat := 0
  meas : BitVec 256 := 0
  final : Bool := false
  pages : List (Nat × Nat) := []
  deriving DecidableEq, Repr

/-- A token bucket of the hall monitor (R353). -/
structure Bucket where
  rate : Nat := 0
  depth : Nat := 0
  credit : Nat := 0
  stall : Bool := false
  deriving DecidableEq, Repr

/-- A guarded region (R350); the bucket of class c and I/O die d stands at key 2 c + d. -/
structure Region where
  en : Bool := false
  conf : Bool := false
  lock : Bool := false
  fn : Nat := 0
  doms : BitVec 256 := 0
  buckets : SMap Bucket := []
  deriving DecidableEq, Repr

/-- A transaction at an I/O die's egress (R352, R353). -/
structure Egress where
  die : Nat := 0
  cls : Nat := 0
  mask : BitVec 16 := 0
  pa : Nat := 0
  bytes : List Byte := []
  deriving DecidableEq, Repr

/-- One V/F island (R411 to R413): its temperature, operating point and cap, what the thermal and power sources request, its droop count,
whether its clock is stretched, the clock at which the stretch ends, and by how much its clock has fallen behind the reference clock, in 42nds of a
reference clock. -/
structure Island where
  temp : Nat := 0
  point : Nat := 0
  cap : Nat := 0
  thermal : Nat := 0
  power : Nat := 0
  droop : Nat := 0
  stretch : Bool := false
  till : Nat := 0
  lost : Nat := 0
  deriving DecidableEq, Repr

/-- An append that waits while the book is full (R360): word 2 of the record, the arguments, the function whose reset it completes. -/
structure BookReq where
  hd : Word := 0
  args : List Word := []
  reset : Option Nat := none
  deriving DecidableEq, Repr

/-- A record of the book: its words, and the key slot 1 that it lies sealed under in HBM (R356). -/
structure BookRec where
  words : List Word := []
  key : KeySlot := {}
  deriving DecidableEq, Repr

/-- The attendance book and its writer (R356 to R360): the records, the last 2^20 of them; the registers; the hash of the last
record; the signatures made; a signature record due after a record, or asked for; the appends that wait. -/
structure Book where
  recs : List BookRec := []
  next : Nat := 0
  ack : Nat := 0
  idx : Nat := 0
  last : BitVec 256 := 0
  signs : Nat := 0
  due : Bool := false
  signReq : Bool := false
  pend : List BookReq := []
  deriving DecidableEq, Repr

/-- The management block and the device-wide registers (R347, R361, R403, R406 to R413); the digests of the stage-1 firmware and of
Mladotte and Mladotte's region, as start-up found them (R332, R410); the microsecond and millisecond boundaries served. -/
structure Mgmt where
  fail : BitVec 8 := 0
  s0 : Bool := false
  s1 : Bool := false
  s2 : Bool := false
  podValid : Bool := false
  pod : BitVec 8 := 0
  nohexp : Word := 0
  pwrlim : Nat := 2400
  pwrnow : Nat := 0
  islands : SMap Island := []
  hbm : SMap Nat := []
  links : SMap Bool := []
  peers : List Nat := []
  nonce : Option Word := none
  token : SMap Word := []
  mode : Nat := 0
  railsCut : Bool := false
  kmfmap : Word := 0
  epoch : Nat := 0
  fw : BitVec 256 := 0
  mlad : BitVec 256 := 0
  mlBase : Nat := 0
  mlSize : Nat := 0
  usDone : Nat := 0
  msDone : Nat := 0
  deriving DecidableEq, Repr

/-- What leaves the device by a port (R352, R405, R409, R349): the port class (0 host, 1 Noham, 2 Ethernet, 3 management) and I/O
die, the address or ring, the bytes. The model's own record of it (log 16). -/
structure Sent where
  cls : Nat := 0
  die : Nat := 0
  pa : Nat := 0
  bytes : List Byte := []
  deriving DecidableEq, Repr

/-- What the next step does (log 1): a hart issues, an event of the table happens, clocks pass. -/
inductive Turn where
  | hart (h : Nat)
  | event (i : Instr) (a : EvArg)
  | wait (clocks : Nat)
  deriving DecidableEq, Repr

/-- The whole device. `walkers` holds the non-leaf entries of walker n of die d at key 8 d + n (R34). `cur` is the hart whose instruction executes, `ev` the arguments of the event that happens, `clock` counts main clocks since reset, `agenda` holds the
turns to come, `withdrawn` keeps the progress of the requests that `kctx.sv` has withdrawn (R310; log 75), `choices` answers the choices of order that the spec leaves undefined, `freeCtr` numbers the free values drawn. -/
structure State where
  cur : Nat := 0
  ev : EvArg := {}
  clock : Nat := 0
  agenda : List Turn := []
  choices : List Nat := []
  freeCtr : Nat := 0
  harts : SMap Hart := []
  cores : SMap Core := []
  clusters : SMap Cluster := []
  dies : SMap Die := []
  walkers : SMap (List WalkEntry) := []
  funcs : SMap Func := []
  mem : List Host.Cell := []
  lines : SMap LineMeta := []
  devBias : SMap Nat := []
  classes : SMap ClassRec := []
  classSeq : Nat := 1
  launches : List Launch := []
  launchSeq : Nat := 1
  queues : SMap LaunchQ := []
  lastQ : SMap Nat := []
  orderSeq : Nat := 0
  saved : List SavedCohort := []
  withdrawn : List CopyReq := []
  hall : SMap HallPass := []
  keys : SMap KeySlot := []
  enclaves : SMap Enclave := []
  regions : SMap Region := []
  egress : List Egress := []
  sent : List Sent := []
  book : Book := {}
  mgmt : Mgmt := {}
  deriving DecidableEq, Repr

/-- The machine right after reset: every field at the default above, hart 0 of core 0 and the eight fault service harts
running in M mode at pc 0, every other hart bound to nothing (log 5). -/
def State.reset : State :=
  { harts := [0, 15, 1039, 2063, 3087, 4111, 5135, 6159, 7183].map fun h => (h, { live := true }) }

/-- The reasons for which a step stops with a fault. -/
inductive Fault where
  /-- Step raises it while the core rails are cut or start-up has failed and the agenda holds no cold reset: the device stays
  in that state until a cold reset (R410, R414). Safe: nothing happens there until the reset. -/
  | heldUntilColdReset
  deriving DecidableEq, Repr

/-- The reasons for which a step refuses. -/
inductive Refusal where
  /-- An arm of exec whose instruction has no meaning yet. Safe: the run stops. -/
  | notModelled (mnemonic : String)
  /-- Step raises it in the scan and memory-test modes of clean slate, whose behaviour the spec does not give (R361). Safe: the
  run stops. -/
  | slateMode
  deriving DecidableEq, Repr

end Sys2Proof.Machine
end

