-- ==== Sys2Proof/Machine/Ops.lean ====
section
/-!
DEFINITION. The named operations over the state: units and registers, taking an exception and returning from one, the end of
an instruction, interrupts, counters, free values and choices.
-/
namespace Sys2Proof.Machine

/-! ### Units (R4) -/

def coreOf (h : Nat) : Nat := h / 16
def hartNo (h : Nat) : Nat := h % 16
def dieOfCore (c : Nat) : Nat := c / 64
def rowOf (c : Nat) : Nat := c / 8 % 8
def colOf (c : Nat) : Nat := c % 8

/-- The cluster id: die ‖ row[2:1] ‖ col[2:1] (R4). -/
def clusterOf (c : Nat) : Nat := dieOfCore c * 16 + rowOf c / 2 * 4 + colOf c / 2

/-- The fault service hart of a die: hart 15 of the core at row 0, column 0 (R3). -/
def serviceHart (die : Nat) : Nat := die * 1024 + 15

def isService (h : Nat) : Bool := h % 1024 == 15

/-- The cores of a cluster. -/
def clusterCores (k : Nat) : List Nat :=
  let c := k / 16 * 64 + k % 16 / 4 * 16 + k % 4 * 2
  [c, c + 1, c + 8, c + 9]

namespace Core

def chan (x : Core) (i : Nat) : Channel := x.chans.get {} i
def modChan (x : Core) (i : Nat) (f : Channel → Channel) : Core := { x with chans := x.chans.set {} i (f (x.chan i)) }
def q (x : Core) (i : Nat) : HwQueue := x.queues.get {} i
def modQ (x : Core) (i : Nat) (f : HwQueue → HwQueue) : Core := { x with queues := x.queues.set {} i (f (x.q i)) }
def wmc (x : Core) (i : Nat) : WmChan := x.wm.get {} i
def modWm (x : Core) (i : Nat) (f : WmChan → WmChan) : Core := { x with wm := x.wm.set {} i (f (x.wmc i)) }
def bar (x : Core) (i : Nat) : Barrier := x.bars.get {} i
def modBar (x : Core) (i : Nat) (f : Barrier → Barrier) : Core := { x with bars := x.bars.set {} i (f (x.bar i)) }
def req (x : Core) (i : Nat) : Option CopyReq := x.fifo.get none i
def setReq (x : Core) (i : Nat) (r : Option CopyReq) : Core := { x with fifo := x.fifo.set none i r }
def op (x : Core) (i : Nat) : TileVal := x.ops.get {} i
def setOp (x : Core) (i : Nat) (t : TileVal) : Core := { x with ops := x.ops.set {} i t }

/-- Accumulator i; one not yet written holds the unused header and zeros (R104). -/
def acc (x : Core) (i : Nat) : AccVal := x.accs.get { hdr := unusedAccHdr } i
def setAcc (x : Core) (i : Nat) (t : AccVal) : Core := { x with accs := x.accs.set { hdr := unusedAccHdr } i t }
def slotOf (x : Core) (i : Nat) : SlotSched := x.slots.get {} i
def modSlotSched (x : Core) (i : Nat) (f : SlotSched → SlotSched) : Core := { x with slots := x.slots.set {} i (f (x.slotOf i)) }

end Core

namespace Cluster

def part (x : Cluster) (i : Nat) : Partition := x.parts.get {} i
def modPart (x : Cluster) (i : Nat) (f : Partition → Partition) : Cluster := { x with parts := x.parts.set {} i (f (x.part i)) }
def slot (x : Cluster) (i : Nat) : PoolSlot := x.slots.get {} i
def modSlot (x : Cluster) (i : Nat) (f : PoolSlot → PoolSlot) : Cluster := { x with slots := x.slots.set {} i (f (x.slot i)) }

end Cluster

namespace State

def hart (s : State) (h : Nat) : Hart := s.harts.get {} h
def setHart (s : State) (h : Nat) (x : Hart) : State := { s with harts := s.harts.set {} h x }
def modHart (s : State) (h : Nat) (f : Hart → Hart) : State := s.setHart h (f (s.hart h))
def core (s : State) (c : Nat) : Core := s.cores.get {} c
def setCore (s : State) (c : Nat) (x : Core) : State := { s with cores := s.cores.set {} c x }
def modCore (s : State) (c : Nat) (f : Core → Core) : State := s.setCore c (f (s.core c))
def cluster (s : State) (k : Nat) : Cluster := s.clusters.get {} k
def modCluster (s : State) (k : Nat) (f : Cluster → Cluster) : State :=
  { s with clusters := s.clusters.set {} k (f (s.cluster k)) }
def die (s : State) (d : Nat) : Die := s.dies.get {} d
def modDie (s : State) (d : Nat) (f : Die → Die) : State := { s with dies := s.dies.set {} d (f (s.die d)) }
def func (s : State) (n : Nat) : Func := s.funcs.get {} n
def modFunc (s : State) (n : Nat) (f : Func → Func) : State := { s with funcs := s.funcs.set {} n (f (s.func n)) }
def cls (s : State) (k : Nat) : ClassRec := s.classes.get {} k
def modCls (s : State) (k : Nat) (f : ClassRec → ClassRec) : State := { s with classes := s.classes.set {} k (f (s.cls k)) }
def key (s : State) (k : Nat) : KeySlot := s.keys.get {} k
def region (s : State) (g : Nat) : Region := s.regions.get {} g
def queue (s : State) (q : Nat) : LaunchQ := s.queues.get {} q
def modQueue (s : State) (q : Nat) (f : LaunchQ → LaunchQ) : State := { s with queues := s.queues.set {} q (f (s.queue q)) }
def hp (s : State) (i : Nat) : HallPass := s.hall.get {} i
def modHp (s : State) (i : Nat) (f : HallPass → HallPass) : State := { s with hall := s.hall.set {} i (f (s.hp i)) }
def island (s : State) (i : Nat) : Island := s.mgmt.islands.get {} i

/-- The current hart. -/
def me (s : State) : Hart := s.hart s.cur
def modMe (s : State) (f : Hart → Hart) : State := s.modHart s.cur f
def myCore (s : State) : Core := s.core (coreOf s.cur)
def modMyCore (s : State) (f : Core → Core) : State := s.modCore (coreOf s.cur) f
def myCluster (s : State) : Nat := clusterOf (coreOf s.cur)

/-- `time`: 100 MHz beside a 2.1 GHz main clock (R178; log 2). -/
def time (s : State) : Nat := s.clock / 21

/-- The clocks of the island of a core (R412): whole ones. -/
def islandClock (s : State) (c : Nat) : Nat := s.clock - ((s.island (clusterOf c)).lost + 41) / 42

/-- The live launch with this id. -/
def launch? (s : State) (id : Nat) : Option Launch := s.launches.find? fun l => l.id == id

def modLaunch (s : State) (id : Nat) (f : Launch → Launch) : State :=
  { s with launches := s.launches.map fun l => if l.id == id then f l else l }

/-- The function that a launch belongs to. -/
def launchFn (s : State) (id : Nat) : Nat := ((s.launch? id).map (·.fn)).getD 0

end State

/-! ### Registers (R183) -/

namespace Hart

/-- x[i]; x0 reads 0. -/
def getX (h : Hart) (i : Nat) : Word := if i = 0 then 0 else h.x.get 0 i

/-- Write x[i]; a write to x0 is discarded. -/
def setX (h : Hart) (i : Nat) (v : Word) : Hart := if i = 0 then h else { h with x := h.x.set 0 i v }

def getF (h : Hart) (i : Nat) : Word := h.f.get 0 i
def setF (h : Hart) (i : Nat) (v : Word) : Hart := { h with f := h.f.set 0 i v }

/-- Lane l of v[n]. -/
def getV (h : Hart) (n l : Nat) : Elem := h.v.get 0 (32 * n + l)
def setV (h : Hart) (n l : Nat) (v : Elem) : Hart := { h with v := h.v.set 0 (32 * n + l) v }

def getM (h : Hart) (i : Nat) : BitVec 32 := h.m.get 0 i
def setM (h : Hart) (i : Nat) (v : BitVec 32) : Hart := { h with m := h.m.set 0 i v }

/-- The counter of completion flag cf k (R195). -/
def getCf (h : Hart) (k : Nat) : Nat := h.cf.get 0 k
def addCf (h : Hart) (k : Nat) : Hart := { h with cf := h.cf.set 0 k (h.getCf k + 1) }
def subCf (h : Hart) (k : Nat) : Hart := { h with cf := h.cf.set 0 k (h.getCf k - 1) }

/-- mstatus.XS, bits [16:15] (R180). -/
def setXs (h : Hart) (xs : Nat) : Hart := { h with csr := { h.csr with mstatus := setFld h.csr.mstatus 15 2 xs } }

/-- mstatus.FS, bits [14:13]. -/
def fs (h : Hart) : Nat := fld h.csr.mstatus 13 2
def setFs (h : Hart) (v : Nat) : Hart := { h with csr := { h.csr with mstatus := setFld h.csr.mstatus 13 2 v } }

/-- The hart's clause is not live (R197). -/
def noClause (h : Hart) : Hart := { h with clause := {} }

end Hart

/-! ### Instructions that may end early -/

/-- A meaning in steps: it goes on with a result and a state, or ends the instruction with the state that it leaves (a trap
taken, a stall). -/
abbrev Exec (α : Type) := StateT State (Except State) α

/-- The next state of a meaning. -/
def finish (m : Exec Unit) (s : State) : Host.Outcome State Fault Refusal :=
  match m s with
  | .ok (_, t) => .next t
  | .error t => .next t

/-- End the instruction with this state. -/
def stop {α : Type} (s : State) : Exec α := fun _ => .error s

/-! ### Taking an exception and returning from one (R313) -/

def Priv.code (p : Priv) : Nat :=
  match p with
  | .u => 0
  | .s => 1
  | .m => 3

def Priv.ofCode (n : Nat) : Priv := if n = 0 then .u else if n = 1 then .s else .m

/-- The trap vector: BASE, and with MODE 1 an interrupt of cause c at BASE + 4c (R178). -/
def vecTarget (tvec : Word) (intr : Bool) (cause : Nat) : Word :=
  let base := tvec &&& ~~~(3 : Word)
  if intr && fld tvec 0 2 == 1 then base + word (4 * cause) else base

/-- `kclst` of the live clause (R197). -/
def clauseWord (c : Clause) : BitVec 13 := c.fb ++ c.fa ++ BitVec.ofNat 5 c.rem

/-- The live clause of a `kclst` value (R197). -/
def clauseOf (k : BitVec 13) : Clause :=
  if k.toNat % 32 = 0 then {} else
  { rem := k.toNat % 32, fa := k.extractLsb' 5 4, fb := k.extractLsb' 9 4 }

/-- `kclst` takes a value; a value that differs is a write of lane state, which XS shows (R180; log 74). -/
def Hart.putKclst (h : Hart) (k : BitVec 13) : Hart :=
  let y := { h with k := { h.k with kclst := k } }
  if k = h.k.kclst then y else y.setXs 3

/-- xcause: the interrupt bit and the code. -/
def causeWord (intr : Bool) (cause : Nat) : Word := (if intr then (0x8000000000000000 : Word) else 0) + word cause

/-- Whether a trap from mode `p` goes to S mode: delegated, and not from M (R178; cause 51 has no delegation bit). -/
def delegated (c : Csrs) (p : Priv) (intr : Bool) (cause : Nat) : Bool :=
  p != .m && bitOf (if intr then c.mideleg else c.medeleg) cause

/-- Trap entry of a hart (R313): xepc, xcause, xtval and xstatus are written, the mode and the vector taken, the live clause
moves to `kclst` (R197); lanes, masks, inbox and everything else stay. -/
def Hart.enter (h : Hart) (intr : Bool) (cause : Nat) (tval : Word) : Hart :=
  let h := { h.putKclst (clauseWord h.clause) with clause := {}, wait := .ready }
  let ms := h.csr.mstatus
  if delegated h.csr h.priv intr cause then
    let ms := setFld (setFld (setFld ms 5 1 (fld ms 1 1)) 1 1 0) 8 1 h.priv.code
    { h with priv := .s, pc := vecTarget h.csr.stvec intr cause
             csr := { h.csr with mstatus := ms, sepc := h.pc, scause := causeWord intr cause, stval := tval } }
  else
    let ms := setFld (setFld (setFld ms 7 1 (fld ms 3 1)) 3 1 0) 11 2 h.priv.code
    { h with priv := .m, pc := vecTarget h.csr.mtvec intr cause
             csr := { h.csr with mstatus := ms, mepc := h.pc, mcause := causeWord intr cause, mtval := tval } }

/-- Take a trap on hart `h`. -/
def takeTrap (s : State) (h : Nat) (intr : Bool) (cause : Nat) (tval : Word) : State :=
  s.modHart h fun x => x.enter intr cause tval

/-- `Trap(c, tval)` (R10) on the current hart: the instruction ends here. -/
def trap {α : Type} (cause : Nat) (tval : Word) : Exec α := fun s => .error (takeTrap s s.cur false cause tval)

/-- An illegal-instruction trap: cause 2 with the instruction's bits (R179). -/
def illegal {α : Type} : Exec α := fun s => .error (takeTrap s s.cur false 2 s.me.ibits)

/-- One more retired instruction (R178: `instret` counts unless `mcountinhibit`[2]). -/
def Hart.counted (h : Hart) : Hart :=
  { h with csr := { h.csr with minstret := if bitOf h.csr.mcountinhibit 2 then h.csr.minstret else h.csr.minstret + 1 } }

/-- A hart whose mode becomes p: out of M mode the taint of its M-mode context ends (R351). -/
def Hart.toMode (h : Hart) (p : Priv) : Hart := { h with priv := p, mtaint := if p = .m then h.mtaint else 0 }

/-- `mret` on a hart: the mode from MPP, MIE from MPIE, the live clause from `kclst` (R197, R313). -/
def Hart.mret (h : Hart) : Hart :=
  let h := { h.putKclst 0 with clause := clauseOf h.k.kclst }
  let ms := h.csr.mstatus
  let p := Priv.ofCode (fld ms 11 2)
  let ms' := setFld (setFld (setFld ms 3 1 (fld ms 7 1)) 7 1 1) 11 2 0
  let ms' := if p = .m then ms' else setFld ms' 17 1 0
  { h.toMode p with pc := h.csr.mepc, csr := { h.csr with mstatus := ms' } }

/-- `sret` on a hart: the mode from SPP, SIE from SPIE, the live clause from `kclst`. -/
def Hart.sret (h : Hart) : Hart :=
  let h := { h.putKclst 0 with clause := clauseOf h.k.kclst }
  let ms := h.csr.mstatus
  let p : Priv := if fld ms 8 1 = 1 then .s else .u
  let ms' := setFld (setFld (setFld (setFld ms 1 1 (fld ms 5 1)) 5 1 1) 8 1 0) 17 1 0
  { h.toMode p with pc := h.csr.sepc, csr := { h.csr with mstatus := ms' } }

/-! ### The end of an instruction -/

/-- The clause after one of its instructions has issued (R197). -/
def Clause.next (c : Clause) : Clause := if c.rem ≤ 1 then {} else { c with rem := c.rem - 1 }

/-- The hart after an instruction that completes: past it, out of its wait, one clause instruction fewer, one more retired. -/
def Hart.done (h : Hart) : Hart :=
  { h.counted with pc := h.pc + word h.ilen, wait := .ready, clause := h.clause.next }

/-- The current hart's instruction completes. -/
def retire (s : State) : State := s.modMe Hart.done

/-- A completed instruction that only changes its hart. -/
def doneWith (f : Hart → Hart) (s : State) : Host.Outcome State Fault Refusal := .next (retire (s.modMe f))

/-- The current hart's instruction cannot go on: the hart keeps its pc and executes the instruction again at its next turn
(R162). -/
def stallWith {α : Type} (w : Wait) : Exec α := fun s => .error (s.modMe fun h => { h with wait := w })

/-- A change of the current hart, inside a meaning. -/
def onMe (f : Hart → Hart) : Exec Unit := modify fun s => s.modMe f

/-- A change of the state, inside a meaning. -/
def upd (f : State → State) : Exec Unit := modify f

/-- The current hart's instruction completes, inside a meaning. -/
def retireX : Exec Unit := modify retire

/-- Read the current hart. -/
def meX : Exec Hart := fun s => .ok (s.me, s)

/-- Read something of the state. -/
def rd {α : Type} (f : State → α) : Exec α := fun s => .ok (f s, s)

/-- Go on only where the condition holds; otherwise end the instruction illegally. -/
def need (b : Bool) : Exec Unit := if b then pure () else illegal

/-- Go on only where the condition holds; otherwise take a trap. -/
def orTrap (b : Bool) (cause : Nat) (tval : Word) : Exec Unit := if b then pure () else trap cause tval

/-- The lane state of the hart is dirty (R180). -/
def Hart.dirtyXs (h : Hart) : Hart := h.setXs 3

/-! ### Functions, launches, contexts -/

/-- The launch that a hart acts for: its class's, or its firing's; 0 for none. -/
def launchOf (s : State) (h : Nat) : Nat :=
  match (s.hart h).bind with
  | .none => 0
  | .cls k => (s.cls k).launch
  | .firing f => f.launch

/-- The key of a hart's class; 0 for none. -/
def classOf (s : State) (h : Nat) : Nat :=
  match (s.hart h).bind with
  | .cls k => k
  | _ => 0

def isFiring (s : State) (h : Nat) : Bool :=
  match (s.hart h).bind with
  | .firing _ => true
  | _ => false

/-- The active domains of a `kdom` image (R20), S mode adding domain 255. -/
def domActive (kdom : BitVec 36) (p : Priv) (dom : Nat) : Bool :=
  (p == .s && dom == 255) ||
  ((List.range 4).any fun i => kdom.getLsbD (32 + i) && (kdom.extractLsb' (8 * i) 8).toNat == dom && (dom != 255))

/-- The guarded regions of a function whose domains meet a `kdom` image's set (R351); M mode takes every enabled region. -/
def regionMask (s : State) (fn : Nat) (kdom : BitVec 36) (p : Priv) : BitVec 16 :=
  BitVec.ofNat 16 (maskOf 16 fun g =>
    let r := s.region g
    r.en && (p == .m || (r.fn == fn && (List.range 256).any fun d => r.doms.getLsbD d && domActive kdom p d)))

/-- The taint T of a hart's context (R351); a hart in M mode is a context of its own. -/
def taintOf (s : State) (h : Nat) : BitVec 16 :=
  let x := s.hart h
  if x.priv = .m then x.mtaint ||| regionMask s x.fn x.k.kdom .m
  else match x.bind with
    | .none => x.taint
    | .cls k => (s.cls k).taint
    | .firing f => f.taint

/-- The class, the firing or the hart itself gains taint. -/
def bindTaint (s : State) (h : Nat) (t : BitVec 16) : State :=
  match (s.hart h).bind with
  | .none => s.modHart h fun x => { x with taint := x.taint ||| t }
  | .cls k => s.modCls k fun c => { c with taint := c.taint ||| t }
  | .firing f => s.modHart h fun x => { x with bind := .firing { f with taint := f.taint ||| t } }

/-- The context of a hart gains taint. -/
def addTaint (s : State) (h : Nat) (t : BitVec 16) : State :=
  if (s.hart h).priv = .m then s.modHart h fun x => { x with mtaint := x.mtaint ||| t } else bindTaint s h t

/-- The harts in M mode keep the taint of the regions enabled now: T never shrinks (R351). -/
def keepTaint (s : State) : State :=
  let m := regionMask s 0 0 .m
  { s with harts := s.harts.map fun (h, x) => (h, if x.live && x.priv == .m then { x with mtaint := x.mtaint ||| m } else x) }

/-! ### Interrupts (R315) -/

/-- Some core of the die holds a report, or some channel of the die has ERR = 1 (R49, R279). -/
def backlog (s : State) (die : Nat) : Bool :=
  s.cores.any fun (c, x) => dieOfCore c == die && (!x.heldReports.isEmpty || x.chans.any fun (_, ch) => ch.err)

/-- The supervisor timer (Sstc): with STCE set, STIP is `time` ≥ `stimecmp`. -/
def timerPending (s : State) (h : Nat) : Bool :=
  let c := (s.hart h).csr
  bitOf c.menvcfg 63 && decide (c.stimecmp.toNat ≤ s.time)

/-- `mip` as it reads: the stored bits, with STIP under Sstc and the computed bits 16 to 18 (R315). -/
def mipOf (s : State) (h : Nat) : Word :=
  let x := s.hart h
  let m := if bitOf x.csr.menvcfg 63 then setFld x.csr.mip 5 1 (b2n (timerPending s h)) else x.csr.mip
  let m := setFld m 16 1 (b2n ((x.k.kpreReq || x.k.kpreRes) && !isFiring s h))
  let m := setFld m 17 1 (b2n (isService h && !(s.die (h / 1024)).poolEv.isEmpty))
  setFld m 18 1 (b2n (isService h && backlog s (h / 1024)))

/-- The order in which interrupts are taken, highest first (R315). -/
def intrOrder : List Nat := [11, 3, 7, 9, 1, 5, 18, 16, 17, 21, 19, 20]

/-- The interrupt that a hart takes now: pending, enabled in `mie`, and enabled for the mode it goes to; those for M mode first. -/
def intrNow (s : State) (h : Nat) : Option Nat :=
  let x := s.hart h
  let p := mipOf s h &&& x.csr.mie
  let toM := x.priv != .m || bitOf x.csr.mstatus 3
  let toS := x.priv == .u || (x.priv == .s && bitOf x.csr.mstatus 1)
  match intrOrder.find? fun c => bitOf p c && !bitOf x.csr.mideleg c && toM with
  | some c => some c
  | none => intrOrder.find? fun c => bitOf p c && bitOf x.csr.mideleg c && toS

/-- Make a latched local interrupt pending on a hart (R315). -/
def raiseIntr (s : State) (h c : Nat) : State :=
  s.modHart h fun x => { x with csr := { x.csr with mip := setFld x.csr.mip c 1 1 } }

/-! ### Event counters (R156) -/

/-- Add to event counter k of a core, saturating at 2^48 - 1. -/
def bump (s : State) (c k n : Nat) : State :=
  s.modCore c fun x => { x with kev := x.kev.set 0 k (min (x.kev.get 0 k + n) (2 ^ 48 - 1)) }

/-! ### Free values and choices (log 12) -/

/-- The next choice of order: the head of the stream, 0 when it is empty. -/
def choose (s : State) : Nat × State :=
  match s.choices with
  | [] => (0, s)
  | n :: r => (n, { s with choices := r })

/-! ### Waits that are left (R47, R95, R167, R282) -/

/-- The part of a wait that lies outside the hart is withdrawn: a place in a partition's order, a held inbox write, a waiting
pop, a reservation. -/
def withdraw (s : State) (h : Nat) : State :=
  match (s.hart h).wait with
  | .talloc k p _ => s.modCluster k fun c => c.modPart p fun q => { q with waiters := q.waiters.filter (· != .hart h) }
  | .iwr t r => s.modHart t fun x => { x with held := x.held.filter fun w => !(w.writer == h && w.reg == r) }
  | .qpop c q => s.modCore c fun x => x.modQ q fun y => { y with waiters := y.waiters.filter (· != h) }
  | .reserve k u g => s.modCluster k fun c => c.modSlot u fun t => if t.gen = g then { t with res := t.res - 1 } else t
  | _ => s

/-- A wait ends abandoned, with nothing written (R47). -/
def abandon (s : State) (h : Nat) : State := (withdraw s h).modHart h fun x => { x with wait := .ready }

/-- What a hart leaves to take an interrupt: a wait is abandoned, but one in `wfi` ends, so that the pc saved is the one after it (R179). -/
def leaveWait (s : State) (h : Nat) : State :=
  match (s.hart h).wait with
  | .wfi _ => s.modHart h Hart.done
  | _ => abandon s h

end Sys2Proof.Machine
end

