-- ==== Sys2Proof/WellFormed.lean ====
section
/-!
DEFINITION. When the operand fields of an instruction are legal: the decode checks of R188, R184, R189 and R244 and of each
form's own page. They depend on no register (R174). The mode check of `tquiz` and the checks of R270 are made at issue.
-/
namespace Sys2Proof

namespace L64

/-- pm = 0 with pn = 1 is illegal (R188). -/
def predOk (f : L64) : Bool := f.pm != 0 || f.pn == 0

/-- A form without per-lane effect takes no predicate (R203). -/
def noPred (f : L64) : Bool := f.pm == 0 && f.pn == 0

/-- The number of a register group of `n` registers is a multiple of `n` (R184). -/
def aligned (r : BitVec 5) (n : Nat) : Bool := r.toNat % n == 0

/-- A lane register of type .w or .d (R184). -/
def regT (ty : BitVec 3) (r : BitVec 5) : Bool := ty != 1 || aligned r 2

/-- Operand b is a register of the type, or an immediate with the b field 0 (R187). -/
def immB (f : L64) : Bool := if f.ib == 1 then f.b == 0 else f.imm15 == 0 && regT f.ty f.b

/-- No immediate. -/
def noImm (f : L64) : Bool := f.ib == 0 && f.imm15 == 0

/-- Types .w and .d; md 000, and 110 where the op lists it (R186, R215). -/
def intShape (f : L64) (sat : Bool) : Bool :=
  f.predOk && decide (f.ty.toNat ≤ 1) && (f.md == 0 || (sat && f.md == 6)) && regT f.ty f.d

/-- Two sources (R215). -/
def intTwo (f : L64) (sat : Bool) : Bool := f.intShape sat && regT f.ty f.a && f.immB && f.c == 0

/-- Two sources and c (R215). -/
def intThree (f : L64) (sat : Bool) : Bool := f.intShape sat && regT f.ty f.a && f.immB && regT f.ty f.c

/-- One source (R199). -/
def intOne (f : L64) (sat : Bool) : Bool := f.intShape sat && regT f.ty f.a && f.b == 0 && f.noImm && f.c == 0

/-- A group-001 form of n sources: types, no immediate, md up to `mdMax` (R219). -/
def fpShape (f : L64) (mdMax : Nat) : Bool :=
  f.predOk && decide (f.ty.toNat ≤ 3) && decide (f.md.toNat ≤ mdMax) && f.noImm && regT f.ty f.d && regT f.ty f.a

def fpOne (f : L64) (mdMax : Nat) : Bool := f.fpShape mdMax && f.b == 0 && f.c == 0
def fpTwo (f : L64) (mdMax : Nat) : Bool := f.fpShape mdMax && regT f.ty f.b && f.c == 0
def fpThree (f : L64) (mdMax : Nat) : Bool := f.fpShape mdMax && regT f.ty f.b && regT f.ty f.c

/-- The function forms take no .d (R221). -/
def fpFun (f : L64) (mdMax : Nat) : Bool := f.fpOne mdMax && f.ty != 1

/-- Elements of a conversion type in one register, or in one pair for .d (R223). -/
def cvtCount (code : Nat) : Nat := if code = 2 ∨ code = 3 then 2 else if code = 6 ∨ code = 7 then 4 else 1

/-- Registers that one such unit takes (R223). -/
def cvtWidth (code : Nat) : Nat := if code = 1 then 2 else 1

/-- The number of elements a conversion makes in a lane (R223). -/
def cvtN (src dst : Nat) : Nat := max (cvtCount src) (cvtCount dst)

/-- Registers of an operand group of a conversion (R223). -/
def cvtSpan (src dst code : Nat) : Nat := cvtN src dst / cvtCount code * cvtWidth code

/-- `lfcvt` (R200, R223). -/
def cvtOk (f : L64) : Bool :=
  let src := f.c.toNat % 8
  let dst := f.ty.toNat
  let isInt := fun c : Nat => c == 4 || c == 5
  f.predOk && f.noImm && f.b == 0 && decide (f.c.toNat < 8) && src != dst && !(isInt src && isInt dst) &&
    f.md != 7 && !(f.md == 6 && isInt dst) && aligned f.a (cvtSpan src dst src) && aligned f.d (cvtSpan src dst dst)

/-- Memory addressing: the b field is 0 with ib = 1 (R187). -/
def memB (f : L64) : Bool := f.ib == 0 || f.b == 0

/-- A load of n registers (R201, R232, R234). -/
def loadOk (f : L64) (n : Nat) : Bool :=
  f.predOk && f.memB && f.c == 0 && aligned f.d n && decide (f.ty.toNat ≤ 4) && (f.md == 0 || f.md == 1 || f.md == 2 || f.md == 4)

/-- A store of n registers. -/
def storeOk (f : L64) (n : Nat) : Bool :=
  f.predOk && f.memB && f.d == 0 && aligned f.c n && decide (f.ty.toNat ≤ 4) && (f.md == 0 || f.md == 1 || f.md == 2 || f.md == 4)

/-- `lprf` and `lzero` (R201, R237, R238). -/
def lineOk (f : L64) (mdMax : Nat) : Bool :=
  f.predOk && f.memB && f.d == 0 && f.c == 0 && decide (f.ty.toNat ≤ 4) && decide (f.md.toNat ≤ mdMax)

/-- An atomic of n registers: scope 1 to 5, global or scratch (R186, R232). -/
def atomicOk (f : L64) (n : Nat) : Bool :=
  f.predOk && f.memB && aligned f.d n && aligned f.c n && decide (1 ≤ f.ty.toNat) && decide (f.ty.toNat ≤ 5) &&
    (f.md == 0 || f.md == 4)

/-- An integer compare or shuffle: .w or .d, md 000 (R202). -/
def crossOk (f : L64) : Bool := f.predOk && decide (f.ty.toNat ≤ 1) && f.md == 0 && regT f.ty f.a && f.c == 0

def lcmpOk (f : L64) : Bool := f.crossOk && f.immB && decide (f.d.toNat < 8)
def lfcmpOk (f : L64) : Bool := f.crossOk && f.noImm && regT f.ty f.b && decide (f.d.toNat < 8)

/-- `lshfl`: under .d the b field is a single register (R228). -/
def lshflOk (f : L64) : Bool :=
  f.crossOk && regT f.ty f.d && (if f.ib == 1 then f.b == 0 else f.imm15 == 0)

/-- A reduction into an x register, md up to `mdMax` (R202, R229). -/
def lredOk (f : L64) (mdMax : Nat) : Bool :=
  f.predOk && decide (f.ty.toNat ≤ 1) && decide (f.md.toNat ≤ mdMax) && regT f.ty f.a && f.c == 0 && f.b == 0 && f.noImm

def lscanOk (f : L64) (mdMax : Nat) : Bool := f.lredOk mdMax && regT f.ty f.d

/-- A tile form without per-lane effect, with no immediate (R244). -/
def tileShape (f : L64) (ty : Nat) : Bool := f.noPred && f.md == 0 && f.ty.toNat == ty && f.noImm

/-- A per-lane tile form whose lane data are 1, 2 or 4 registers by ty (R244). -/
def laneTile (f : L64) (r : BitVec 5) : Bool :=
  f.predOk && f.md == 0 && decide (f.ty.toNat ≤ 2) && aligned r (2 ^ f.ty.toNat) && f.memB

/-- An operand slot code, an accumulator code (R183). -/
def isSlot (r : BitVec 5) : Bool := decide (r.toNat < 8)
def isAcc (r : BitVec 5) : Bool := decide (8 ≤ r.toNat) && decide (r.toNat < 16)

/-- `tacc.lrd` and `tacc.lwr`: 32- or 64-bit elements in lane register group r (R244). -/
def taccLane (f : L64) (r : BitVec 5) : Bool :=
  f.predOk && f.md == 0 && decide (f.ty.toNat ≤ 1) && f.ib == 0 && decide (f.imm15.toNat ≤ 1) && regT f.ty r

/-- `tquiz` (R244): nothing but d and imm15; the sub-array field is 0 unless bit 3 is set. -/
def quizOk (f : L64) : Bool :=
  f.noPred && f.md == 0 && f.ty == 0 && f.ib == 0 && f.a == 0 && f.b == 0 && f.c == 0 &&
    decide (f.imm15.toNat < 256) && (f.imm15.getLsbD 3 || decide (f.imm15.toNat < 16))

end L64

/-- A register field that names a mask register (R183). -/
def maskOk (r : BitVec 5) : Bool := decide (r.toNat < 8)

/-- A register field that names the first of four consecutive x registers (R192). -/
def quadX (r : BitVec 5) : Bool := decide (r.toNat ≤ 28)

/-- The decode checks of every instruction; an event has no encoding and nothing to check. -/
def Instr.wf (i : Instr) : Bool :=
  match i with
  | .ladd f | .lsub f | .ladds f | .lsubs f | .lmulh f | .lmulhu f | .ldiv f | .ldivu f | .lrem f | .lremu f
  | .land f | .lor f | .lxor f | .landn f | .lsrl f | .lsra f | .lmin f | .lmax f | .lminu f | .lmaxu f => f.intTwo false
  | .lmul f | .lsll f | .lbfx f => f.intTwo true
  | .lmadd f => f.intThree true
  | .lbfi f => f.intThree false
  | .labs f => f.intOne true
  | .lclz f | .lcpop f | .lbrev f | .lmov f => f.intOne false
  | .lsel f => f.intShape false && L64.regT f.ty f.a && f.immB && maskOk f.c
  | .lli f => f.intShape false && f.a == 0 && f.b == 0 && f.c == 0 && f.ib == 1
  | .lbcast f => f.intShape false && f.b == 0 && f.c == 0 && f.noImm
  | .lext f => f.predOk && decide (f.ty.toNat ≤ 1) && f.md == 0 && L64.regT f.ty f.a && f.b == 0 && f.c == 0 &&
      f.ib == 1 && decide (f.imm15.toNat < 32)
  | .lidx f => f.predOk && f.ty == 0 && f.md == 0 && f.a == 0 && f.b == 0 && f.c == 0 && f.noImm
  | .lfadd f | .lfsub f | .lfmul f | .lfdiv f => f.fpTwo 6
  | .lffma f | .lffms f | .lfnma f => f.fpThree 6
  | .lfsqrt f => f.fpOne 5
  | .lfrcp f | .lfex2 f => f.fpFun 6
  | .lfrsq f | .lflg2 f | .lfsin f | .lfcos f => f.fpFun 5
  | .lfmin f | .lfmax f | .lfsgnj f => f.fpTwo 0
  | .lfabs f | .lfneg f | .lfclass f => f.fpOne 0
  | .lfround f => f.fpOne 6
  | .lfcvt f => f.cvtOk
  | .lldB f | .lldBu f | .lldH f | .lldHu f | .lldW f => f.loadOk 1
  | .lldD f => f.loadOk 2
  | .lldQ f => f.loadOk 4
  | .lstB f | .lstH f | .lstW f => f.storeOk 1
  | .lstD f => f.storeOk 2
  | .lstQ f => f.storeOk 4
  | .lprf f => f.lineOk 2
  | .lzero f => f.lineOk 0
  | .lamoAddW f | .lamoAndW f | .lamoOrW f | .lamoXorW f | .lamoMinW f | .lamoMaxW f | .lamoMinuW f | .lamoMaxuW f
  | .lamoSwapW f | .lcasW f | .lfamoAddS f | .lfamoMinS f | .lfamoMaxS f => f.atomicOk 1
  | .lamoAddD f | .lamoAndD f | .lamoOrD f | .lamoXorD f | .lamoMinD f | .lamoMaxD f | .lamoMinuD f | .lamoMaxuD f
  | .lamoSwapD f | .lcasD f => f.atomicOk 2
  | .lcmpEq f | .lcmpNe f | .lcmpLt f | .lcmpGe f | .lcmpLtu f | .lcmpGeu f => f.lcmpOk
  | .lfcmpEq f | .lfcmpLt f | .lfcmpLe f | .lfcmpUn f => f.lfcmpOk
  | .lshflIdx f | .lshflUp f | .lshflDn f | .lshflXor f => f.lshflOk
  | .lredAdd f | .lredMin f | .lredMax f | .lredAnd f | .lredOr f | .lredXor f | .lredFmin f | .lredFmax f => f.lredOk 0
  | .lredFadd f => f.lredOk 5
  | .lscanAdd f => f.lscanOk 0
  | .lscanFadd f => f.lscanOk 5
  | .lcomp f => f.lscanOk 0 && f.ty == 0
  | .tallocImm f | .tallocNbImm f => f.noPred && f.md == 0 && f.ty == 0 && f.ib == 1 && f.a == 0 && f.b == 0 && f.c == 0 &&
      !f.imm15.getLsbD 14
  | .tallocReg f | .tallocNbReg f => f.tileShape 0 && f.b == 0 && f.c == 0
  | .thdr f => f.tileShape 0 && f.d == 0
  | .thdrM f => f.tileShape 1 && f.d == 0
  | .tst f => f.laneTile f.c && f.d == 0
  | .tseal f => f.noPred && f.md == 0 && f.noImm && (f.ty == 2 || f.ty == 4) && f.d == 0 && f.b == 0 && f.c == 0
  | .tdrop f | .tskip f => f.tileShape 0 && f.d == 0 && f.b == 0 && f.c == 0
  | .tgive f => f.tileShape 0 && f.d == 0 && f.c == 0
  | .tld f | .tpeek f => f.tileShape 0 && L64.isSlot f.d && f.b == 0 && f.c == 0
  | .tldM f => f.tileShape 1 && L64.isSlot f.d && f.b == 0 && f.c == 0
  | .tcnt f => f.tileShape 0 && f.b == 0 && f.c == 0
  | .tinfo f => f.noPred && f.md == 0 && f.ty == 0 && f.ib == 0 && f.b == 0 && f.c == 0 && decide (f.imm15.toNat < 4) &&
      (f.imm15 != 3 || f.a == 0)
  | .tinfoT f => f.noPred && f.md == 0 && f.ty == 1 && f.ib == 0 && f.b == 0 && f.c == 0 && decide (f.imm15.toNat < 3) &&
      decide (f.a.toNat < 16)
  | .tldl f => f.laneTile f.d && f.c == 0 && !f.imm15.getLsbD 13
  | .tmma f => f.noPred && f.md == 0 && f.ty == 0 && f.ib == 0 && decide (f.imm15.toNat ≤ 1) && L64.isAcc f.d &&
      decide (f.a.toNat < 4) && decide (4 ≤ f.b.toNat) && decide (f.b.toNat < 8) && f.c == 0
  | .tzero f => f.noPred && f.md == 0 && f.ty == 0 && f.ib == 0 && L64.isAcc f.d && f.a == 0 && f.b == 0 && f.c == 0
  | .tzeroM f => f.tileShape 1 && f.d == 0 && f.c == 0
  | .taccLd f => f.tileShape 0 && L64.isAcc f.d && f.b == 0 && f.c == 0
  | .taccLdM f => f.tileShape 1 && L64.isAcc f.d && f.b == 0 && f.c == 0
  | .taccSt f => f.tileShape 0 && L64.isAcc f.d
  | .taccStM f => f.tileShape 1 && L64.isAcc f.d
  | .tcvt f => f.tileShape 0 && L64.isSlot f.d
  | .tcvtM f => f.tileShape 1 && L64.isSlot f.d
  | .taccLrd f => f.taccLane f.d && L64.isAcc f.a && f.c == 0
  | .taccLwr f => f.taccLane f.c && L64.isAcc f.d && f.a == 0
  | .tquizNone f => f.quizOk && !f.imm15.getLsbD 3 && !f.imm15.getLsbD 2
  | .tquizRun f => f.quizOk && !f.imm15.getLsbD 3 && f.imm15.getLsbD 2
  | .tquizClear f => f.quizOk && f.imm15.getLsbD 3
  | .mand d a b | .mor d a b | .mxor d a b | .mandn d a b => maskOk d && maskOk a && maskOk b
  | .mnot d a | .mmov d a => maskOk d && maskOk a
  | .mset d _ => maskOk d
  | .mget _ a | .mcnt _ a | .mffs _ a => maskOk a
  | .mpush a => maskOk a
  | .bbrd _ a => decide (a.toNat < 16)
  | .bbwr d _ => decide (d.toNat < 16)
  | .imv _ a => decide (a.toNat < 8)
  | .iwr d _ _ => decide (d.toNat < 8)
  | .kfence _ scope => decide (scope.toNat ≤ 5)
  | .msendL _ b => L64.aligned b 2
  | .cprd a | .cpq a | .cpqNb _ a => quadX a
  | .cpwm d _ _ | .cpcls d => decide (d.toNat < 16)
  | .clause _ _ _ len => decide (len.toNat < 16)
  | .scalarAtomic o => o.kind != .lr || o.rs2 == 0
  | _ => true

end Sys2Proof
end

