-- ==== Sys2Proof/Machine/Operands.lean ====
section
/-!
DEFINITION. Operands of the lane instructions: the effective mask, elements and element pairs, operand b and the immediate,
addresses (R10, R184, R187, R212), and the writing of results to active lanes (R174).
-/
namespace Sys2Proof.Machine

/-- EffMask() (R10). -/
def effMask (h : Hart) (f : L64) : BitVec 32 :=
  if f.pm = 0 then h.getM 0
  else if f.pn = 0 then h.getM 0 &&& h.getM f.pm.toNat
  else h.getM 0 &&& ~~~ h.getM f.pm.toNat

/-- The lanes set in a mask, ascending. -/
def lanesIn (m : BitVec 32) : List Nat := (List.range 32).filter fun l => m.getLsbD l

/-- The active lanes of an instruction (R10). -/
def activeLanes (h : Hart) (f : L64) : List Nat := lanesIn (effMask h f)

/-- The element width W that ty names for the integer groups (R215). -/
def widthOf (f : L64) : Nat := if f.ty = 0 then 32 else 64

/-- The W-bit element of lane l in v[n], or in the pair v[n], v[n + 1] (R184). -/
def Hart.elem (h : Hart) (w n l : Nat) : Nat :=
  if w = 32 then (h.getV n l).toNat else (h.getV n l).toNat + (h.getV (n + 1) l).toNat * 2 ^ 32

/-- Write the W-bit element of lane l. -/
def Hart.setElem (h : Hart) (w n l v : Nat) : Hart :=
  if w = 32 then h.setV n l (BitVec.ofNat 32 v)
  else (h.setV n l (BitVec.ofNat 32 v)).setV (n + 1) l (BitVec.ofNat 32 (v / 2 ^ 32))

/-- Write an element in each listed lane, the lane state dirty (R180). -/
def Hart.setLanes (h : Hart) (w d : Nat) (ls : List Nat) (r : Nat → Nat) : Hart :=
  (ls.foldl (fun x l => x.setElem w d l (r l)) h).dirtyXs

/-- Write bits of a mask register in the listed lanes, the others kept (R212, R224). -/
def Hart.setMaskLanes (h : Hart) (d : Nat) (ls : List Nat) (r : Nat → Bool) : Hart :=
  (h.setM d (BitVec.ofNat 32 (maskOf 32 fun l => if ls.contains l then r l else (h.getM d).getLsbD l))).dirtyXs

/-- A W-bit number read as signed. -/
def toS (w v : Nat) : Int := if v < 2 ^ (w - 1) then (v : Int) else (v : Int) - 2 ^ w

/-- An integer modulo 2^W. -/
def ofS (w : Nat) (v : Int) : Nat := (v % (2 ^ w : Int)).toNat

/-- Sat (R215): clamp to the signed range, as bits. -/
def satS (w : Nat) (v : Int) : Nat :=
  ofS w (if v < -(2 ^ (w - 1) : Int) then -(2 ^ (w - 1) : Int) else if v > 2 ^ (w - 1) - 1 then 2 ^ (w - 1) - 1 else v)

/-- Sext(imm15, 15) modulo 2^W (R187). -/
def immW (f : L64) (w : Nat) : Nat := ofS w f.imm15.toInt

/-- Operand b in lane l: the immediate or the element (R187). -/
def operandB (h : Hart) (f : L64) (w l : Nat) : Nat := if f.ib = 1 then immW f w else h.elem w f.b.toNat l

/-- The index of a lane address: the lane number or the sign-extended element of v[b] (R187). -/
def laneIndex (h : Hart) (f : L64) (l : Nat) : Word := if f.ib = 1 then word l else sext32 (h.getV f.b.toNat l)

/-- The address of lane l of a load, store, `lprf` or `lzero` (R187). -/
def laneAddr (h : Hart) (f : L64) (l : Nat) : Word :=
  h.getX f.a.toNat + laneIndex h f l * word (2 ^ f.ty.toNat) + f.imm15.signExtend 64

/-- The address of lane l of an atomic of a size (R187). -/
def atomicAddr (h : Hart) (f : L64) (size l : Nat) : Word :=
  h.getX f.a.toNat + laneIndex h f l * word size + (f.imm15.extractLsb' 0 13).signExtend 64

/-- The order of a lane atomic: acquire (bit 13), release (bit 14) (R187). -/
def orderAcq (f : L64) : Bool := f.imm15.getLsbD 13
def orderRel (f : L64) : Bool := f.imm15.getLsbD 14

/-- The rounding mode that md names, or `frm` for 000 and 110 (R148); none where `frm` is invalid. -/
def roundMode (h : Hart) (md : BitVec 3) : Option Nat :=
  if md = 0 ∨ md = 6 then (if h.frm.toNat ≤ 4 then some h.frm.toNat else none) else some (md.toNat - 1)

/-- A lane instruction of the integer or cross-lane kind: with no active lane it completes and writes nothing (R211, step 3);
otherwise the hart changes as given. -/
def laneOp (f : L64) (eff : Hart → List Nat → Hart) (s : State) : Host.Outcome State Fault Refusal :=
  doneWith (fun h => if effMask h f = 0 then h else eff h (activeLanes h f)) s

end Sys2Proof.Machine
end

