-- ==== Sys2Proof/Machine/Flags.lean ====
section
/-!
DEFINITION. Flag computations: SetFlags (R10, R149) with the cluster's STICKY (R150), the FS field (R211), the event counters
0 to 3 (R156), and the frame of a lane floating-point form.
-/
namespace Sys2Proof.Machine

/-- SetFlags on a hart (R10), its FS dirty. -/
def Hart.orFlags (h : Hart) (fl : Nat) : Hart := { h with fflags := h.fflags ||| BitVec.ofNat 5 fl }

/-- Flags set in a hart of core `c` reach STICKY of its cluster (R150). -/
def State.stick (s : State) (c : Nat) (fl : BitVec 5) : State :=
  s.modCluster (clusterOf c) fun k => { k with sticky := k.sticky ||| fl }

/-- SetFlags on the current hart, and STICKY of its cluster (R150). -/
def setFlags (s : State) (fl : Nat) : State := (s.modMe fun h => h.orFlags fl).stick (coreOf s.cur) (BitVec.ofNat 5 fl)

/-- A hart's flags replaced by a write; those that it newly sets reach STICKY (R150). -/
def setFflags (s : State) (h : Nat) (fl : BitVec 5) : State :=
  (s.modHart h fun x => { x with fflags := fl }).stick (coreOf h) (fl &&& ~~~(s.hart h).fflags)

/-- Add at most 1 to each of counters 0 to 3 of the current core (R156). -/
def bumpFp (s : State) (cnt : Nat) : State :=
  (List.range 4).foldl (fun s k => if cnt / 2 ^ k % 2 = 1 then bump s (coreOf s.cur) k 1 else s) s

/-- The current hart's instruction is illegal (R179). -/
def illegalNow (s : State) : Host.Outcome State Fault Refusal := .next (takeTrap s s.cur false 2 s.me.ibits)

/-- What a floating-point lane form does to its hart: the hart after, the flags, the counters. -/
structure FpEff where
  hart : Hart
  flags : Nat := 0
  cnt : Nat := 0

/-- A lane floating-point form (R211): FS and `frm` first, then the mask, then the effect. -/
def fpOp (f : L64) (rounds : Bool) (eff : Hart → List Nat → Nat → FpEff) (s : State) : Host.Outcome State Fault Refusal :=
  if s.me.fs = 0 then illegalNow s
  else match (if rounds then roundMode s.me f.md else some 0) with
    | none => illegalNow s
    | some rm =>
      let t := s.modMe fun h => h.setFs 3
      if effMask t.me f = 0 then .next (retire t)
      else
        let r := eff t.me (activeLanes t.me f) rm
        .next (retire (setFlags (bumpFp (t.setHart t.cur r.hart) r.cnt) r.flags))

/-- The element format and the elements per lane that ty names in group 001 (R186). -/
def fmtOf (ty : BitVec 3) : Fmt :=
  if ty = 0 then fp32 else if ty = 1 then fp64 else if ty = 2 then fp16 else bf16

/-- One lane's result: an operation on each element of the lane (R184, R219). -/
def laneFp (ty : BitVec 3) (op : Fmt → Nat → Nat → Nat → FRes) (a b c : Nat) : FRes :=
  let f := fmtOf ty
  if ty = 0 ∨ ty = 1 then op f a b c
  else
    let r0 := op f (a % 2 ^ 16) (b % 2 ^ 16) (c % 2 ^ 16)
    let r1 := op f (a / 2 ^ 16) (b / 2 ^ 16) (c / 2 ^ 16)
    { bits := r0.bits + r1.bits * 2 ^ 16, flags := r0.flags ||| r1.flags, cnt := r0.cnt ||| r1.cnt }

/-- The union of the flags, and of the counters, of results. -/
def allFlags (rs : List FRes) : Nat := rs.foldl (fun n r => n ||| r.flags) 0
def allCnt (rs : List FRes) : Nat := rs.foldl (fun n r => n ||| r.cnt) 0

/-- The union of two results' flags and counters, with the bits of the second. -/
def FRes.after (x y : FRes) : FRes := { y with flags := x.flags ||| y.flags, cnt := x.cnt ||| y.cnt }

/-- A form of group 001 whose lanes are computed apart (R219). -/
def fpMap (f : L64) (rounds : Bool) (op : Nat → Fmt → Nat → Nat → Nat → FRes) (s : State) : Host.Outcome State Fault Refusal :=
  fpOp f rounds (fun h ls rm =>
    let w := if f.ty = 1 then 64 else 32
    let r := fun l => laneFp f.ty (op rm) (h.elem w f.a.toNat l) (h.elem w f.b.toNat l) (h.elem w f.c.toNat l)
    let rs := ls.map r
    { hart := h.setLanes w f.d.toNat ls fun l => (r l).bits, flags := allFlags rs, cnt := allCnt rs }) s

end Sys2Proof.Machine
end

