-- ==== Sys2Proof/Syntax/Base.lean ====
section
/-!
DEFINITION. The rest of the scalar base that R177 names and spec/opcode_table.json does not list: RV64I's jumps, branches and
arithmetic, M, Zba, Zbb, Zicond, the F and D arithmetic, `ecall` and `ebreak`. Taken from the RISC-V manual R177 names (log 9).
-/
namespace Sys2Proof

/-- Conditional branches. -/
inductive BrKind where
  | eq | ne | lt | ge | ltu | geu
  deriving DecidableEq, Repr

/-- Two-operand integer operations of RV64I, M, Zba, Zbb and Zicond; a name ending in w works on words. -/
inductive AluKind where
  | add | sub | sll | slt | sltu | xor | srl | sra | or | and
  | addw | subw | sllw | srlw | sraw
  | mul | mulh | mulhsu | mulhu | div | divu | rem | remu | mulw | divw | divuw | remw | remuw
  | adduw | sh1add | sh2add | sh3add | sh1adduw | sh2adduw | sh3adduw | slluw
  | andn | orn | xnor | max | maxu | min | minu | rol | ror | rolw | rorw
  | czeroEqz | czeroNez
  deriving DecidableEq, Repr

/-- One-operand integer operations of Zbb. -/
inductive UnKind where
  | clz | ctz | cpop | clzw | ctzw | cpopw | sextb | sexth | zexth | orcb | rev8
  deriving DecidableEq, Repr

/-- Fused floating-point operations. -/
inductive FmaKind where
  | madd | msub | nmsub | nmadd
  deriving DecidableEq, Repr

/-- Other floating-point operations on f registers that give an f register. -/
inductive FpKind where
  | add | sub | mul | div | sqrt | sgnj | sgnjn | sgnjx | min | max | cvtSD | cvtDS
  deriving DecidableEq, Repr

/-- Floating-point operations from or to x registers; the integer kinds of a conversion are w, wu, l, lu. -/
inductive FpxKind where
  | le | lt | eq | mvX | cls | mvF
  | toW | toWu | toL | toLu | ofW | ofWu | ofL | ofLu
  deriving DecidableEq, Repr

/-- A base instruction. `dbl` selects the D form, `rm` is the rounding field. -/
inductive BaseInstr where
  | lui (rd : BitVec 5) (imm : BitVec 20)
  | auipc (rd : BitVec 5) (imm : BitVec 20)
  | jal (rd : BitVec 5) (off : BitVec 20)
  | jalr (rd rs1 : BitVec 5) (imm : BitVec 12)
  | branch (k : BrKind) (rs1 rs2 : BitVec 5) (off : BitVec 12)
  | op (k : AluKind) (rd rs1 rs2 : BitVec 5)
  | opImm (k : AluKind) (rd rs1 : BitVec 5) (imm : BitVec 12)
  | un (k : UnKind) (rd rs1 : BitVec 5)
  | fma (k : FmaKind) (dbl : Bool) (rm : BitVec 3) (rd rs1 rs2 rs3 : BitVec 5)
  | fp (k : FpKind) (dbl : Bool) (rm : BitVec 3) (rd rs1 rs2 : BitVec 5)
  | fpx (k : FpxKind) (dbl : Bool) (rm : BitVec 3) (rd rs1 rs2 : BitVec 5)
  | ecall
  | ebreak
  deriving DecidableEq, Repr

end Sys2Proof
end

