-- ==== Sys2Proof/Machine/Base.lean ====
section
/-!
DEFINITION. The rest of the scalar base (R177), from the RISC-V manual that R177 names (log 9): integer arithmetic, jumps and
branches, F and D arithmetic, `ecall` and `ebreak`; the instructions that a clause must not contain (R196).
-/
namespace Sys2Proof.Machine

/-- The hart is inside a clause (R197). -/
def Hart.inClause (h : Hart) : Bool := h.clause.rem != 0

/-- The instructions of R196 are illegal inside a clause. -/
def outsideClause (k : State → Host.Outcome State Fault Refusal) (s : State) : Host.Outcome State Fault Refusal :=
  if s.me.inClause then illegalNow s else k s

/-- A signed word. -/
def sInt (w : Word) : Int := w.toInt

/-- A result of 32 bits, sign-extended. -/
def w32 (n : Int) : Word := sext (BitVec.ofInt 64 n) 32

/-- The low 32 bits, unsigned and signed. -/
def lo32 (w : Word) : Nat := w.toNat % 2 ^ 32
def slo32 (w : Word) : Int := (w.extractLsb' 0 32).toInt

/-- Signed division of RISC-V: towards zero, -1 for a zero divisor. -/
def divS (a b : Int) : Int := if b = 0 then -1 else Int.tdiv a b

/-- Signed remainder of RISC-V: the dividend for a zero divisor. -/
def remS (a b : Int) : Int := if b = 0 then a else Int.tmod a b

def divU (w : Nat) (a b : Nat) : Nat := if b = 0 then 2 ^ w - 1 else a / b
def remU (a b : Nat) : Nat := if b = 0 then a else a % b

/-- Two-operand integer operations. -/
def alu (k : AluKind) (a b : Word) : Word :=
  let sh := fld b 0 6
  let shw := fld b 0 5
  match k with
  | .add => a + b
  | .sub => a - b
  | .sll => a <<< sh
  | .slt => b2w (a.slt b)
  | .sltu => b2w (a.ult b)
  | .xor => a ^^^ b
  | .srl => a >>> sh
  | .sra => a.sshiftRight sh
  | .or => a ||| b
  | .and => a &&& b
  | .addw => w32 (lo32 a + lo32 b)
  | .subw => w32 ((lo32 a : Int) - lo32 b)
  | .sllw => w32 ((lo32 a * 2 ^ shw : Nat))
  | .srlw => w32 ((lo32 a / 2 ^ shw : Nat))
  | .sraw => w32 (slo32 a / 2 ^ shw)
  | .mul => a * b
  | .mulh => BitVec.ofInt 64 (sInt a * sInt b / 2 ^ 64)
  | .mulhsu => BitVec.ofInt 64 (sInt a * b.toNat / 2 ^ 64)
  | .mulhu => word (a.toNat * b.toNat / 2 ^ 64)
  | .div => BitVec.ofInt 64 (divS (sInt a) (sInt b))
  | .divu => word (divU 64 a.toNat b.toNat)
  | .rem => BitVec.ofInt 64 (remS (sInt a) (sInt b))
  | .remu => word (remU a.toNat b.toNat)
  | .mulw => w32 ((lo32 a * lo32 b : Nat))
  | .divw => w32 (divS (slo32 a) (slo32 b))
  | .divuw => w32 ((divU 32 (lo32 a) (lo32 b) : Nat))
  | .remw => w32 (remS (slo32 a) (slo32 b))
  | .remuw => w32 ((remU (lo32 a) (lo32 b) : Nat))
  | .adduw => b + word (lo32 a)
  | .sh1add => b + a <<< 1
  | .sh2add => b + a <<< 2
  | .sh3add => b + a <<< 3
  | .sh1adduw => b + word (lo32 a) <<< 1
  | .sh2adduw => b + word (lo32 a) <<< 2
  | .sh3adduw => b + word (lo32 a) <<< 3
  | .slluw => word (lo32 a) <<< sh
  | .andn => a &&& ~~~b
  | .orn => a ||| ~~~b
  | .xnor => ~~~(a ^^^ b)
  | .max => if a.slt b then b else a
  | .maxu => if a.ult b then b else a
  | .min => if a.slt b then a else b
  | .minu => if a.ult b then a else b
  | .rol => a.rotateLeft sh
  | .ror => a.rotateRight sh
  | .rolw => sext32 ((a.extractLsb' 0 32).rotateLeft shw)
  | .rorw => sext32 ((a.extractLsb' 0 32).rotateRight shw)
  | .czeroEqz => if b = 0 then 0 else a
  | .czeroNez => if b = 0 then a else 0

/-- The number of zeros below the first set bit of the low w bits. -/
def ctzOf (w n : Nat) : Nat := (firstBelow w fun i => n / 2 ^ i % 2 == 1).getD w

/-- One-operand integer operations. -/
def unary (k : UnKind) (a : Word) : Word :=
  match k with
  | .clz => word (64 - bitLen a.toNat)
  | .ctz => word (ctzOf 64 a.toNat)
  | .cpop => word (popcount 64 fun i => bitOf a i)
  | .clzw => word (32 - bitLen (lo32 a))
  | .ctzw => word (ctzOf 32 (lo32 a))
  | .cpopw => word (popcount 32 fun i => bitOf a i)
  | .sextb => sext a 8
  | .sexth => sext a 16
  | .zexth => word (a.toNat % 2 ^ 16)
  | .orcb => leWord ((natToLe 8 a.toNat).map fun b => if b = 0 then 0 else 0xFF)
  | .rev8 => leWord (natToLe 8 a.toNat).reverse

/-- The outcome of a branch's comparison. -/
def branchTaken (k : BrKind) (a b : Word) : Bool :=
  match k with
  | .eq => a == b
  | .ne => a != b
  | .lt => a.slt b
  | .ge => !a.slt b
  | .ltu => a.ult b
  | .geu => !a.ult b

/-- An instruction that completes and goes on at `target`. -/
def Hart.jump (h : Hart) (target : Word) : Hart := { h.done with pc := target }

/-- The offset of a branch or jump: its bits above an implied zero. -/
def offWord {n : Nat} (off : BitVec n) : Word := (off ++ (0 : BitVec 1)).signExtend 64

/-! ### F and D -/

/-- A float operand: FP64, or an FP32 that is NaN-boxed, the canonical NaN where it is not. -/
def Hart.fval (h : Hart) (dbl : Bool) (i : Nat) : Nat :=
  let w := h.getF i
  if dbl then w.toNat else if w.toNat / 2 ^ 32 = 2 ^ 32 - 1 then w.toNat % 2 ^ 32 else fp32.nan

/-- Write a float result, FP32 NaN-boxed, FS dirty. -/
def Hart.setFval (h : Hart) (dbl : Bool) (i bits : Nat) : Hart :=
  (h.setF i (if dbl then word bits else word (bits + (2 ^ 32 - 1) * 2 ^ 32))).setFs 3

/-- The rounding mode of an `rm` field; none where it, or `frm` under 111, is invalid. -/
def rmField (h : Hart) (rm : BitVec 3) : Option Nat :=
  let r := if rm = 7 then h.frm.toNat else rm.toNat
  if r ≤ 4 then some r else none

def fpFmt (dbl : Bool) : Fmt := if dbl then fp64 else fp32

/-- The operations that give a float. `rm` is the rounding field for those that do not round. -/
def fpArith (k : FpKind) (dbl : Bool) (rm : Nat) (h : Hart) (a b : Nat) : FRes :=
  let f := fpFmt dbl
  let x := h.fval dbl a
  let y := h.fval dbl b
  let top := 2 ^ (f.width - 1)
  match k with
  | .add => fAdd f rm false x y
  | .sub => fSub f rm false x y
  | .mul => fMul f rm false x y
  | .div => fDiv f rm false x y
  | .sqrt => fSqrt f rm x
  | .sgnj => { bits := x % top + y / top * top }
  | .sgnjn => { bits := x % top + (1 - y / top) * top }
  | .sgnjx => { bits := x % top + (x / top + y / top) % 2 * top }
  | .min => fMinMax f false x y
  | .max => fMinMax f true x y
  | .cvtSD => toFloat fp32 rm false (fp64.decode (h.fval true a))
  | .cvtDS => toFloat fp64 rm false (fp32.decode (h.fval false a))

/-- Whether an operation reads its rounding field. -/
def fpRounds (k : FpKind) : Bool :=
  match k with
  | .sgnj | .sgnjn | .sgnjx | .min | .max => false
  | _ => true

/-- The operations that give an x register. -/
def fpToX (k : FpxKind) (dbl : Bool) (rm : Nat) (h : Hart) (a b : Nat) : Option FRes :=
  let f := fpFmt dbl
  let x := h.fval dbl a
  let y := h.fval dbl b
  let cmp := fun rel => some { bits := b2n (fCmp f rel x y).1, flags := (fCmp f rel x y).2 }
  let s32 := fun r : FRes => some { r with bits := (sext (word r.bits) 32).toNat }
  match k with
  | .le => cmp 2
  | .lt => cmp 1
  | .eq => cmp 0
  | .mvX => some { bits := (if dbl then h.getF a else sext (h.getF a) 32).toNat }
  | .cls => some { bits := fClass f x }
  | .toW => s32 (toInt 32 true rm (f.decode x))
  | .toWu => s32 (toInt 32 false rm (f.decode x))
  | .toL => some (toInt 64 true rm (f.decode x))
  | .toLu => some (toInt 64 false rm (f.decode x))
  | _ => none

/-- The operations that take an x register and give a float. -/
def xToFp (k : FpxKind) (dbl : Bool) (rm : Nat) (v : Word) : FRes :=
  let f := fpFmt dbl
  match k with
  | .mvF => { bits := if dbl then v.toNat else lo32 v }
  | .ofW => toFloat f rm false (ofInt (slo32 v))
  | .ofWu => toFloat f rm false (ofInt (lo32 v))
  | .ofL => toFloat f rm false (ofInt (sInt v))
  | .ofLu => toFloat f rm false (ofInt v.toNat)
  | _ => {}

def fpxRounds (k : FpxKind) : Bool :=
  match k with
  | .toW | .toWu | .toL | .toLu | .ofW | .ofWu | .ofL | .ofLu => true
  | _ => false

/-- A scalar floating-point instruction: FS and the rounding mode first, then the effect with its flags. -/
def fpScalar (rounds : Bool) (rm : BitVec 3) (eff : Hart → Nat → Hart × Nat) (s : State) : Host.Outcome State Fault Refusal :=
  if s.me.fs = 0 then illegalNow s
  else match (if rounds then rmField s.me rm else some 0) with
    | none => illegalNow s
    | some r =>
      let (h, fl) := eff s.me r
      .next (retire (setFlags (s.setHart s.cur (h.setFs 3)) fl))

/-- A base instruction on the current hart. -/
def execBase (i : BaseInstr) (s : State) : Host.Outcome State Fault Refusal :=
  let h := s.me
  match i with
  | .lui rd imm => doneWith (fun h => h.setX rd.toNat ((imm ++ (0 : BitVec 12)).signExtend 64)) s
  | .auipc rd imm => doneWith (fun h => h.setX rd.toNat (h.pc + (imm ++ (0 : BitVec 12)).signExtend 64)) s
  | .jal rd off => outsideClause (fun s => .next (s.modMe fun h => (h.setX rd.toNat (h.pc + word h.ilen)).jump (h.pc + offWord off))) s
  | .jalr rd rs1 imm => outsideClause (fun s => .next (s.modMe fun h =>
      (h.setX rd.toNat (h.pc + word h.ilen)).jump ((h.getX rs1.toNat + imm.signExtend 64) &&& ~~~1))) s
  | .branch k a b off => outsideClause (fun s => .next (s.modMe fun h =>
      if branchTaken k (h.getX a.toNat) (h.getX b.toNat) then h.jump (h.pc + offWord off) else h.done)) s
  | .op k rd a b => doneWith (fun h => h.setX rd.toNat (alu k (h.getX a.toNat) (h.getX b.toNat))) s
  | .opImm k rd a imm => doneWith (fun h => h.setX rd.toNat (alu k (h.getX a.toNat) (imm.signExtend 64))) s
  | .un k rd a => doneWith (fun h => h.setX rd.toNat (unary k (h.getX a.toNat))) s
  | .fma k dbl rm rd a b c => fpScalar true rm (fun h r =>
      let n := k == .nmsub || k == .nmadd
      let m := k == .msub || k == .nmadd
      let x := fMa (fpFmt dbl) r false n m (h.fval dbl a.toNat) (h.fval dbl b.toNat) (h.fval dbl c.toNat)
      (h.setFval dbl rd.toNat x.bits, x.flags)) s
  | .fp k dbl rm rd a b => fpScalar (fpRounds k) rm (fun h r =>
      let x := fpArith k dbl r h a.toNat b.toNat
      (h.setFval (if k == .cvtSD then false else if k == .cvtDS then true else dbl) rd.toNat x.bits, x.flags)) s
  | .fpx k dbl rm rd a b => fpScalar (fpxRounds k) rm (fun h r =>
      match fpToX k dbl r h a.toNat b.toNat with
      | some x => (h.setX rd.toNat (word x.bits), x.flags)
      | none => let x := xToFp k dbl r (h.getX a.toNat); (h.setFval dbl rd.toNat x.bits, x.flags)) s
  | .ecall => outsideClause (fun s => .next (takeTrap s s.cur false (8 + h.priv.code) 0)) s
  | .ebreak => outsideClause (fun s => .next (takeTrap s s.cur false 3 h.pc)) s

end Sys2Proof.Machine
end

