-- ==== Sys2Proof/Machine/Crypto.lean ====
section
/-!
DEFINITION. The ciphers and hashes that spec/12 names: SM3, HMAC-SM3, SM4 in XTS mode on 128-byte lines (R338, R339), the key
derivation (R341), SM2 signatures and decryption (R344, R349, R358, R361). SM3, SM4 and SM2 are those of GB/T 32905, 32907 and 32918 (log 11).
-/
namespace Sys2Proof.Machine

/-- The S-box of SM4. -/
def sm4Sbox : List Nat :=
  [0xd6, 0x90, 0xe9, 0xfe, 0xcc, 0xe1, 0x3d, 0xb7, 0x16, 0xb6, 0x14, 0xc2, 0x28, 0xfb, 0x2c, 0x05] ++
  [0x2b, 0x67, 0x9a, 0x76, 0x2a, 0xbe, 0x04, 0xc3, 0xaa, 0x44, 0x13, 0x26, 0x49, 0x86, 0x06, 0x99] ++
  [0x9c, 0x42, 0x50, 0xf4, 0x91, 0xef, 0x98, 0x7a, 0x33, 0x54, 0x0b, 0x43, 0xed, 0xcf, 0xac, 0x62] ++
  [0xe4, 0xb3, 0x1c, 0xa9, 0xc9, 0x08, 0xe8, 0x95, 0x80, 0xdf, 0x94, 0xfa, 0x75, 0x8f, 0x3f, 0xa6] ++
  [0x47, 0x07, 0xa7, 0xfc, 0xf3, 0x73, 0x17, 0xba, 0x83, 0x59, 0x3c, 0x19, 0xe6, 0x85, 0x4f, 0xa8] ++
  [0x68, 0x6b, 0x81, 0xb2, 0x71, 0x64, 0xda, 0x8b, 0xf8, 0xeb, 0x0f, 0x4b, 0x70, 0x56, 0x9d, 0x35] ++
  [0x1e, 0x24, 0x0e, 0x5e, 0x63, 0x58, 0xd1, 0xa2, 0x25, 0x22, 0x7c, 0x3b, 0x01, 0x21, 0x78, 0x87] ++
  [0xd4, 0x00, 0x46, 0x57, 0x9f, 0xd3, 0x27, 0x52, 0x4c, 0x36, 0x02, 0xe7, 0xa0, 0xc4, 0xc8, 0x9e] ++
  [0xea, 0xbf, 0x8a, 0xd2, 0x40, 0xc7, 0x38, 0xb5, 0xa3, 0xf7, 0xf2, 0xce, 0xf9, 0x61, 0x15, 0xa1] ++
  [0xe0, 0xae, 0x5d, 0xa4, 0x9b, 0x34, 0x1a, 0x55, 0xad, 0x93, 0x32, 0x30, 0xf5, 0x8c, 0xb1, 0xe3] ++
  [0x1d, 0xf6, 0xe2, 0x2e, 0x82, 0x66, 0xca, 0x60, 0xc0, 0x29, 0x23, 0xab, 0x0d, 0x53, 0x4e, 0x6f] ++
  [0xd5, 0xdb, 0x37, 0x45, 0xde, 0xfd, 0x8e, 0x2f, 0x03, 0xff, 0x6a, 0x72, 0x6d, 0x6c, 0x5b, 0x51] ++
  [0x8d, 0x1b, 0xaf, 0x92, 0xbb, 0xdd, 0xbc, 0x7f, 0x11, 0xd9, 0x5c, 0x41, 0x1f, 0x10, 0x5a, 0xd8] ++
  [0x0a, 0xc1, 0x31, 0x88, 0xa5, 0xcd, 0x7b, 0xbd, 0x2d, 0x74, 0xd0, 0x12, 0xb8, 0xe5, 0xb4, 0xb0] ++
  [0x89, 0x69, 0x97, 0x4a, 0x0c, 0x96, 0x77, 0x7e, 0x65, 0xb9, 0xf1, 0x09, 0xc5, 0x6e, 0xc6, 0x84] ++
  [0x18, 0xf0, 0x7d, 0xec, 0x3a, 0xdc, 0x4d, 0x20, 0x79, 0xee, 0x5f, 0x3e, 0xd7, 0xcb, 0x39, 0x48]

def rotl32 (x : BitVec 32) (n : Nat) : BitVec 32 := x.rotateLeft (n % 32)

/-- SM4's byte substitution on a word. -/
def sm4Tau (x : BitVec 32) : BitVec 32 :=
  let n := x.toNat
  let g := fun i : Nat => nth 0 sm4Sbox (n / 2 ^ (8 * i) % 256) * 2 ^ (8 * i)
  BitVec.ofNat 32 (g 0 + g 1 + g 2 + g 3)

def sm4L (b : BitVec 32) : BitVec 32 := b ^^^ rotl32 b 2 ^^^ rotl32 b 10 ^^^ rotl32 b 18 ^^^ rotl32 b 24

def sm4L' (b : BitVec 32) : BitVec 32 := b ^^^ rotl32 b 13 ^^^ rotl32 b 23

/-- Constant key word i of SM4: bytes (4i + j) × 7 modulo 256. -/
def sm4Ck (i : Nat) : BitVec 32 :=
  BitVec.ofNat 32 ((List.range 4).foldl (fun a j => a * 256 + (4 * i + j) * 7 % 256) 0)

/-- The four words of a 128-bit block, highest first. -/
def words4 (x : BitVec 128) : BitVec 32 × BitVec 32 × BitVec 32 × BitVec 32 :=
  (x.extractLsb' 96 32, x.extractLsb' 64 32, x.extractLsb' 32 32, x.extractLsb' 0 32)

/-- The 32 round keys of SM4. -/
def sm4Keys (key : BitVec 128) : List (BitVec 32) :=
  let (a, b, c, d) := words4 key
  let init := (a ^^^ 0xA3B1BAC6, b ^^^ 0x56AA3350, c ^^^ 0x677D9197, d ^^^ 0xB27022DC)
  let step := fun (st : (BitVec 32 × BitVec 32 × BitVec 32 × BitVec 32) × List (BitVec 32)) (i : Nat) =>
    let ((a, b, c, d), ks) := st
    let k := a ^^^ sm4L' (sm4Tau (b ^^^ c ^^^ d ^^^ sm4Ck i))
    ((b, c, d, k), k :: ks)
  ((List.range 32).foldl step (init, [])).2.reverse

/-- One SM4 block under round keys in the order given. -/
def sm4Block (ks : List (BitVec 32)) (x : BitVec 128) : BitVec 128 :=
  let step := fun (st : BitVec 32 × BitVec 32 × BitVec 32 × BitVec 32) (k : BitVec 32) =>
    let (a, b, c, d) := st
    (b, c, d, a ^^^ sm4L (sm4Tau (b ^^^ c ^^^ d ^^^ k)))
  let (a, b, c, d) := ks.foldl step (words4 x)
  d ++ c ++ b ++ a

def sm4Enc (key x : BitVec 128) : BitVec 128 := sm4Block (sm4Keys key) x
def sm4Dec (key x : BitVec 128) : BitVec 128 := sm4Block (sm4Keys key).reverse x

/-- A 16-byte block as the 128-bit number whose highest byte is the first. -/
def blockOf (bs : List Byte) : BitVec 128 := BitVec.ofNat 128 (beToNat (bs.take 16))

/-- Multiply a tweak, taken as a little-endian integer, by α (IEEE 1619). -/
def xtsAlpha (t : Nat) : Nat := (t * 2 % 2 ^ 128) ^^^ (if t / 2 ^ 127 = 1 then 0x87 else 0)

/-- The tweaks of a line's 8 blocks, as little-endian integers (R338): SM4 under K2 of PA[51:7]. -/
def xtsTweaks (k2 : BitVec 128) (line : Nat) : List Nat :=
  let t0 := leToNat (natToBe 16 (sm4Enc k2 (blockOf (natToLe 16 line))).toNat)
  (List.range 8).foldl (fun ts _ => match ts with
    | t :: r => xtsAlpha t :: t :: r
    | [] => [t0]) [] |>.reverse

/-- One block of a line under its tweak; `f` is the cipher's direction. -/
def xtsBlock (f : BitVec 128 → BitVec 128) (t : Nat) (bs : List Byte) : List Byte :=
  let tw := blockOf (natToLe 16 t)
  natToBe 16 (f (blockOf bs ^^^ tw) ^^^ tw).toNat

/-- The blocks of a line, each with its tweak. -/
def xtsLine (f : BitVec 128 → BitVec 128) (ts : List Nat) (bs : List Byte) : List Byte :=
  match ts with
  | [] => []
  | t :: r => xtsBlock f t bs ++ xtsLine f r (bs.drop 16)

/-- Seal and unseal a 128-byte line (R338). -/
def sealLine (k1 k2 : BitVec 128) (line : Nat) (bs : List Byte) : List Byte :=
  let ks := sm4Keys k1
  xtsLine (sm4Block ks) (xtsTweaks k2 line) bs

def unsealLine (k1 k2 : BitVec 128) (line : Nat) (bs : List Byte) : List Byte :=
  let ks := (sm4Keys k1).reverse
  xtsLine (sm4Block ks) (xtsTweaks k2 line) bs

/-- SM3's padding: a one bit, zeros, the length in bits as 8 bytes. -/
def sm3Pad (bs : List Byte) : List Byte :=
  let n := bs.length
  bs ++ [0x80] ++ List.replicate ((119 - n % 64) % 64) 0 ++ natToBe 8 (8 * n)

/-- The 68 expanded words of a 64-byte block, last first. -/
def sm3Expand (ws : List (BitVec 32)) : Nat → List (BitVec 32)
  | 0 => ws.reverse
  | n + 1 =>
    let w := sm3Expand ws n
    let g := fun i : Nat => nth 0 w (i - 1)
    let x := g 16 ^^^ g 9 ^^^ rotl32 (g 3) 15
    (x ^^^ rotl32 x 15 ^^^ rotl32 x 23 ^^^ rotl32 (g 13) 7 ^^^ g 6) :: w

/-- One SM3 round on the eight words. -/
def sm3Round (st : List (BitVec 32)) (j : Nat) (w w' : BitVec 32) : List (BitVec 32) :=
  match st with
  | [a, b, c, d, e, f, g, h] =>
    let t : BitVec 32 := if j < 16 then 0x79CC4519 else 0x7A879D8A
    let ss1 := rotl32 (rotl32 a 12 + e + rotl32 t j) 7
    let ss2 := ss1 ^^^ rotl32 a 12
    let ff := if j < 16 then a ^^^ b ^^^ c else (a &&& b) ||| (a &&& c) ||| (b &&& c)
    let gg := if j < 16 then e ^^^ f ^^^ g else (e &&& f) ||| (~~~e &&& g)
    let tt1 := ff + d + ss2 + w'
    let tt2 := gg + h + ss1 + w
    [tt1, a, rotl32 b 9, c, tt2 ^^^ rotl32 tt2 9 ^^^ rotl32 tt2 17, e, rotl32 f 19, g]
  | _ => st

/-- SM3's compression of one block. -/
def sm3Block (v : List (BitVec 32)) (bs : List Byte) : List (BitVec 32) :=
  let ws := (List.range 16).map fun i => BitVec.ofNat 32 (beToNat ((bs.drop (4 * i)).take 4))
  let w := (sm3Expand ws 52).reverse
  let r := (List.range 64).foldl (fun st j => sm3Round st j (nth 0 w j) (nth 0 w j ^^^ nth 0 w (j + 4))) v
  (v.zip r).map fun (a, b) => a ^^^ b

/-- The blocks of a padded message; the number of blocks is the fuel. -/
def sm3Blocks : Nat → List (BitVec 32) → List Byte → List (BitVec 32)
  | 0, v, _ => v
  | n + 1, v, bs => sm3Blocks n (sm3Block v bs) (bs.drop 64)

/-- SM3. -/
def sm3 (bs : List Byte) : BitVec 256 :=
  let p := sm3Pad bs
  let v := sm3Blocks (p.length / 64)
    [0x7380166F, 0x4914B2B9, 0x172442D7, 0xDA8A0600, 0xA96F30BC, 0x163138AA, 0xE38DEE4D, 0xB0FB0E4E] p
  BitVec.ofNat 256 (v.foldl (fun a w => a * 2 ^ 32 + w.toNat) 0)

/-- The 32 bytes of a digest. -/
def digestBytes (d : BitVec 256) : List Byte := natToBe 32 d.toNat

/-- HMAC-SM3 under a 128-bit key. -/
def hmacSm3 (key : BitVec 128) (bs : List Byte) : BitVec 256 :=
  let k := natToBe 16 key.toNat ++ List.replicate 48 0
  let x := fun c : Byte => k.map (· ^^^ c)
  sm3 (x 0x5C ++ digestBytes (sm3 (x 0x36 ++ bs)))

/-- The integrity tag of a sealed line: bits [255:200] over PA[51:7] and the ciphertext (R339). -/
def lineTag (mac : BitVec 128) (line : Nat) (cipher : List Byte) : BitVec 56 :=
  (hmacSm3 mac (natToLe 8 line ++ cipher)).extractLsb' 200 56

/-- The ASCII bytes of a label. -/
def asciiBytes (s : String) : List Byte := s.toList.map fun c => BitVec.ofNat 8 c.toNat

/-- Derive(label, ctx) = SM3(root ‖ label ‖ ctx) (R341). -/
def derive (label : String) (ctx : List Byte) : BitVec 256 := sm3 (digestBytes Config.root ++ asciiBytes label ++ ctx)

/-! ### SM2 (GB/T 32918, log 11) -/

/-- The SM2 curve y² = x³ + ax + b modulo p, the order n of its base point. -/
def sm2P : Nat := 0xFFFFFFFEFFFFFFFFFFFFFFFFFFFFFFFFFFFFFFFF00000000FFFFFFFFFFFFFFFF
def sm2A : Nat := sm2P - 3
def sm2B : Nat := 0x28E9FA9E9D9F5E344D5A9E4BCF6509A7F39789F515AB8F92DDBCBD414D940E93
def sm2N : Nat := 0xFFFFFFFEFFFFFFFFFFFFFFFFFFFFFFFF7203DF6B21C6052B53BBF40939D54123

/-- A point of the curve; none is the point at infinity. -/
abbrev Sm2Point := Option (Nat × Nat)

def sm2G : Sm2Point :=
  some (0x32C4AE2C1F1981195F9904466A39C9948FE30BBFF2660BE1715A4589334C74C7, 0xBC3736A2F4F6779C59BDCEE36B692153D0A9877CC62A474002DF32E52139F0A0)

/-- b to the power e, e below 2^256, modulo m. -/
def powMod (b e m : Nat) : Nat := (List.range 256).foldr (fun i a => let a := a * a % m; if e.testBit i then a * b % m else a) (1 % m)

/-- The sum of two points. -/
def sm2Add : Sm2Point → Sm2Point → Sm2Point
  | none, q => q
  | p, none => p
  | some (x1, y1), some (x2, y2) =>
    if x1 = x2 ∧ (y1 + y2) % sm2P = 0 then none
    else
      let (u, v) := if x1 = x2 then (3 * x1 * x1 + sm2A, 2 * y1) else (y2 + sm2P - y1, x2 + sm2P - x1)
      let k := u % sm2P * powMod (v % sm2P) (sm2P - 2) sm2P % sm2P
      let x := (k * k + 2 * sm2P - x1 - x2) % sm2P
      some (x, (k * (x1 + sm2P - x) + sm2P - y1) % sm2P)

/-- k times a point, k below 2^256. -/
def sm2Mul (k : Nat) (q : Sm2Point) : Sm2Point :=
  (List.range 256).foldr (fun i a => let a := sm2Add a a; if k.testBit i then sm2Add a q else a) none

/-- A private key of R341, by its label. -/
def sm2Private (label : String) : Nat := (derive label (natToLe 8 Config.serial.toNat)).toNat % (sm2N - 1) + 1

/-- The 64 bytes x ‖ y of a point. -/
def pointBytes : Sm2Point → List Byte
  | some (x, y) => natToBe 32 x ++ natToBe 32 y
  | none => []

/-- The signature r ‖ s of a digest under a private key and a random number. -/
def sm2SignWith (d : Nat) (e : BitVec 256) (k : Nat) : BitVec 512 :=
  let x := match sm2Mul k sm2G with
    | some (x, _) => x
    | none => 0
  let r := (e.toNat + x) % sm2N
  let s := powMod (1 + d) (sm2N - 2) sm2N * (k + sm2N * sm2N - r * d) % sm2N
  BitVec.ofNat 512 (r * 2 ^ 256 + s)

/-- The identity key's signature of a digest (R341, R349, R358). -/
def sm2Sign (e : BitVec 256) : BitVec 512 := sm2SignWith (sm2Private "iden") e ((Config.sm2Nonce e).toNat % (sm2N - 1) + 1)

/-- A signature of a digest holds under a public key. -/
def sm2Verify (q : Sm2Point) (e : BitVec 256) (sig : BitVec 512) : Bool :=
  let r := sig.toNat / 2 ^ 256
  let s := sig.toNat % 2 ^ 256
  let t := (r + s) % sm2N
  decide (0 < r) && decide (r < sm2N) && decide (0 < s) && decide (s < sm2N) && t != 0 &&
    match sm2Add (sm2Mul s sm2G) (sm2Mul t q) with
    | some (x, _) => (e.toNat + x) % sm2N == r
    | none => false

/-- The SM3 of the sealing public key (R344). -/
def sealKeyDigest : BitVec 256 := sm3 (pointBytes (sm2Mul (sm2Private "seal") sm2G))

/-- Decryption of a ciphertext C1 ‖ C3 ‖ C2 of 48 bytes with a private key; none where C1 is no point or C3 does not verify. -/
def sm2OpenWith (d : Nat) (bs : List Byte) : Option (BitVec 384) :=
  let x1 := beToNat ((bs.drop 1).take 32)
  let y1 := beToNat ((bs.drop 33).take 32)
  if bs.length ≠ 145 ∨ bs.head? ≠ some 4 ∨ sm2P ≤ x1 ∨ sm2P ≤ y1 ∨ y1 * y1 % sm2P ≠ (x1 * x1 % sm2P * x1 + sm2A * x1 + sm2B) % sm2P then none
  else match sm2Mul d (some (x1, y1)) with
    | none => none
    | some (x2, y2) =>
      let z := natToBe 32 x2 ++ natToBe 32 y2
      let key := (digestBytes (sm3 (z ++ [0, 0, 0, 1])) ++ digestBytes (sm3 (z ++ [0, 0, 0, 2]))).take 48
      let m := ((bs.drop 97).zip key).map fun (a, b) => a ^^^ b
      if key.all (· == 0) ∨ digestBytes (sm3 (natToBe 32 x2 ++ m ++ natToBe 32 y2)) ≠ (bs.drop 65).take 32 then none
      else some (BitVec.ofNat 384 (beToNat m))

/-- SM2 decryption with the sealing key d_s: the 48 bytes K1, K2, MAC (R344). -/
def sm2Open (bs : List Byte) : Option (BitVec 384) := sm2OpenWith (sm2Private "seal") bs

/-- The highest 128 bits of a derived value. -/
def trunc128 (d : BitVec 256) : BitVec 128 := d.extractLsb' 128 128

end Sys2Proof.Machine
end

