-- ==== Sys2Proof/Machine/Phys.lean ====
section
/-!
DEFINITION. Physical memory, its lines and their sealing (R13, R15, R61, R65, R338 to R340), what leaves through the I/O dies (R352), physical memory
protection (R24, R332), and who makes an access.
-/
namespace Sys2Proof.Machine

/-! ### Physical memory -/

/-- What lies at a physical address (R13): HBM without the attendance book (R356), the host window, a peer window, MMIO. -/
inductive PaKind where
  | hbm | host | peer (p : Nat) | mmio | none
  deriving DecidableEq, Repr

def paKind (pa : Nat) : PaKind :=
  if pa < 0xFFF8000000 then .hbm
  else if 2 ^ 48 ≤ pa ∧ pa < 2 ^ 48 + 2 ^ 44 then .host
  else if 8 * 2 ^ 48 ≤ pa ∧ pa < 9 * 2 ^ 48 then .peer (pa / 2 ^ 40 % 256)
  else if 15 * 2 ^ 48 ≤ pa ∧ pa < 16 * 2 ^ 48 then .mmio
  else .none

/-- The stack of an HBM address and its offset there (R14). -/
def hbmStack (pa : Nat) : Nat := (pa / 2 ^ 12 % 16) ^^^ (pa / 2 ^ 16 % 16) ^^^ (pa / 2 ^ 20 % 16) ^^^ (pa / 2 ^ 24 % 16)
def hbmOffset (pa : Nat) : Nat := pa / 2 ^ 16 % 2 ^ 24 * 2 ^ 12 + pa % 2 ^ 12

/-- Whether a physical address is backed: a peer's, where a link reports that device (R15, R406). -/
def backed (s : State) (pa : Nat) : Bool :=
  match paKind pa with
  | .none => false
  | .peer p => s.mgmt.podValid && decide (p < 192) && p != s.mgmt.pod.toNat && s.mgmt.peers.contains p && s.mgmt.links.any fun (_, up) => up
  | _ => true

/-- The canonical form of memory: addresses strictly rising, no entry equal to the 0 that an unlisted address reads as. -/
def Memory.wf (m : List Host.Cell) : Bool := SMap.wf 0 m

/-- A byte of memory; one that nothing has written reads 0 (log 4). -/
def rawByte (s : State) (pa : Nat) : Byte := SMap.get 0 s.mem pa

/-- n bytes of memory as they stand, sealed lines as ciphertext. -/
def rawBytes (s : State) (pa n : Nat) : List Byte := (List.range n).map fun i => rawByte s (pa + i)

/-- Put bytes into memory as they stand. -/
def putRaw (s : State) (pa : Nat) (bs : List Byte) : State :=
  { s with mem := (bs.zipIdx).foldl (fun m (b, i) => SMap.set 0 m (pa + i) b) s.mem }

/-- The metadata of a line, by line number (R65). -/
def State.line (s : State) (l : Nat) : LineMeta := s.lines.get {} l
def State.modLine (s : State) (l : Nat) (f : LineMeta → LineMeta) : State := { s with lines := s.lines.set {} l (f (s.line l)) }

/-- An 8-byte word of memory in clear (page tables, R28). -/
def rawWord (s : State) (pa : Nat) : Word := leWord (rawBytes s pa 8)

/-- A key id usable for a function and an EID (R342); id 0 needs none. -/
def keyUsable (s : State) (key fn eid : Nat) : Bool :=
  key == 0 || (let k := s.key key; k.loaded && k.fn == fn && (k.eid == 0 || k.eid == eid))

/-- The tag of a sealed line holds (R339). -/
def tagOk (s : State) (key l : Nat) : Bool :=
  key == 0 || (s.line l).tag == lineTag (s.key key).mac l (rawBytes s (128 * l) 128)

/-- The plaintext of a line under a key (R338). -/
def plainLine (s : State) (key l : Nat) : List Byte :=
  let bs := rawBytes s (128 * l) 128
  if key = 0 then bs else unsealLine (s.key key).k1 (s.key key).k2 l bs

/-- The lines that n bytes at an address touch. -/
def linesOf (pa n : Nat) : List Nat := if n = 0 then [] else (List.range ((pa + n - 1) / 128 - pa / 128 + 1)).map (· + pa / 128)

/-- n bytes in plaintext, line by line. -/
def readMem (s : State) (key pa n : Nat) : List Byte :=
  if key = 0 then rawBytes s pa n
  else (((linesOf pa n).map fun l => plainLine s key l).flatten.drop (pa % 128)).take n

/-- A byte to be stored: its physical address, its page's key id, the value. -/
structure PCell where
  pa : Nat
  key : Nat
  val : Byte
  deriving DecidableEq, Repr

/-- The I/O die a host-window line (R64) or a peer access (R407) leaves through. -/
def ioDie (s : State) (pa : Nat) : Nat :=
  match paKind pa with
  | .peer _ =>
    let up := (List.range 24).filter fun k => s.mgmt.links.get false k
    if nth 0 up (pa / 128 % 2 ^ 33 % max 1 up.length) < 12 then 0 else 1
  | _ => if pa / 2 ^ 12 % 8 < 4 then 0 else 1

/-- Bytes written to the host or a peer window leave the package with the writer's taint (R352). -/
def egressOf (s : State) (pa : Nat) (bs : List Byte) (taint : BitVec 16) : State :=
  match paKind pa with
  | .host => { s with egress := s.egress ++ [{ die := ioDie s pa, cls := 0, mask := taint, pa := pa, bytes := bs }] }
  | .peer _ => { s with egress := s.egress ++ [{ die := ioDie s pa, cls := 1, mask := taint, pa := pa, bytes := bs }] }
  | _ => s

/-! ### Physical memory protection (R24, R332; log 10) -/

/-- The range of PMP entry i: none when off. -/
def pmpRange (c : Csrs) (i : Nat) : Option (Nat × Nat) :=
  let cfg := c.pmpcfg.get 0 i
  let a := (c.pmpaddr.get 0 i).toNat
  match cfg.toNat / 8 % 4 with
  | 1 => some ((if i = 0 then 0 else (c.pmpaddr.get 0 (i - 1)).toNat / 1024 * 1024 * 4), a / 1024 * 1024 * 4)
  | 3 =>
    let a := a ||| 511
    let sz := (a ^^^ (a + 1)) + 1
    some (a / sz * sz * 4, a / sz * sz * 4 + 4 * sz)
  | _ => none

/-- Whether entry bits R W X L admit an access (r, w, x) in M or below, with Smepmp's MML rules. -/
def pmpAdmits (mml : Bool) (cfg : BitVec 8) (m : Bool) (r w x : Bool) : Bool :=
  let er := cfg.getLsbD 0
  let ew := cfg.getLsbD 1
  let ex := cfg.getLsbD 2
  let el := cfg.getLsbD 7
  let plain := (!r || er) && (!w || ew) && (!x || ex)
  if !mml then (if m && !el then true else plain)
  else if !er && ew then
    (if el then (if m then !w && (!x || true) && (!r || ex) else !w && !r)
     else (if m then !x else !x && (!w || ex)))
  else if el && er && ew && ex then !w && !x
  else if m then el && plain else !el && plain

/-- The PMP check of an access (lowest-numbered matching entry decides). -/
def pmpOk (c : Csrs) (p : Priv) (pa : Nat) (r w x : Bool) : Bool :=
  let m := p == .m
  let mml := c.mseccfg.getLsbD 0
  let mmwp := c.mseccfg.getLsbD 1
  match (List.range 64).find? fun i => match pmpRange c i with
      | some (lo, hi) => decide (lo ≤ pa) && decide (pa < hi)
      | none => false with
  | some i => pmpAdmits mml (c.pmpcfg.get 0 i) m r w x
  | none => m && !mmwp && !(mml && x)

/-- The measured-frame map: an 8-byte entry for each frame of HBM, and 2,048 summary bits (R347). -/
def inFrameMap (s : State) (pa : Nat) : Bool := decide (s.mgmt.kmfmap.toNat ≤ pa) && decide (pa < s.mgmt.kmfmap.toNat + 2 ^ 27 + 256)

/-- An address lies in Mladotte's region (R332). -/
def inMladotte (s : State) (pa : Nat) : Bool := decide (s.mgmt.mlBase ≤ pa) && decide (pa < s.mgmt.mlBase + s.mgmt.mlSize)

/-- The key id of an address used as a physical one: 0 (R18); Mladotte's region is sealed with key id 2, but for the measured-frame map in it
(R332). -/
def bareKey (s : State) (pa : Nat) : Nat := if inMladotte s pa && !inFrameMap s pa then 2 else 0

/-- A hart's PMP registers as they stand once Mladotte has a region (R332): entries 0 and 1 cover it, top-of-range from its base, with L = 1, and MML
is set (log 10). -/
def pmpSeen (s : State) (c : Csrs) : Csrs :=
  if s.mgmt.mlSize = 0 then c
  else { c with
    mseccfg := c.mseccfg ||| 1, pmpcfg := (c.pmpcfg.set 0 0 0x80).set 0 1 0x8B
    pmpaddr := (c.pmpaddr.set 0 0 (word (s.mgmt.mlBase / 4))).set 0 1 (word ((s.mgmt.mlBase + s.mgmt.mlSize) / 4)) }

/-- PMP admits an access: Mladotte's region to M mode only, and for code and data alike (R332), the 64 KiB of the management block to S and U mode never (R402), the rest by the
hart's entries. -/
def pmpPasses (s : State) (c : Csrs) (p : Priv) (pa : Nat) (r w x : Bool) : Bool :=
  if inMladotte s pa then p == .m
  else (p == .m || pa / 2 ^ 16 != 0xF00100000) && pmpOk (pmpSeen s c) p pa r w x

/-! ### Who makes an access -/

/-- Who makes an access: the hart (or the issuer of a copy), the privilege, the domain set, the function, the core's EID, the context's taint, whether addresses are
physical, whether it treats a normal page as a streaming one (R234), whether it is an engine's, which shares no reservation with the hart. -/
structure Who where
  hart : Nat := 0
  core : Nat := 0
  priv : Priv := .u
  kdom : BitVec 36 := 0
  fn : Nat := 0
  eid : Nat := 0
  taint : BitVec 16 := 0
  bare : Bool := false
  nt : Bool := false
  engine : Bool := false
  deriving DecidableEq, Repr

/-- The function that tags a cached line; physical addresses (M mode, Bare mode) have a tag of their own. -/
def Who.tag (w : Who) : Nat := if w.bare then 16 else w.fn

/-- Which unit makes an access (R26, R31). -/
inductive Src where
  | scalar | lane | tile | copy | fetch
  deriving DecidableEq, Repr

/-- What an access does: read, write, both, or execute. -/
inductive Acc where
  | rd | wr | rw | ex
  deriving DecidableEq, Repr

def Acc.writes (a : Acc) : Bool := a == .wr || a == .rw
def Acc.reads (a : Acc) : Bool := a == .rd || a == .rw

/-- The TLB that serves a unit (R31). -/
def Src.tlb (u : Src) : Nat :=
  match u with
  | .scalar | .lane => 0
  | .tile => 1
  | .copy => 2
  | .fetch => 3

/-- A failed check: its kind (R42), the stopping level of a walk, the DOM of the leaf. -/
structure VFault where
  kind : Nat := 0
  lvl : Nat := 0
  dom : Nat := 0
  deriving DecidableEq, Repr

/-- Where an access goes: physical address, key id, cache mode. -/
structure PRef where
  pa : Nat := 0
  key : Nat := 0
  cm : Nat := 0
  deriving DecidableEq, Repr

/-- An entry covers an address of a function. -/
def PageEntry.covers (e : PageEntry) (fn : Nat) (va : Word) : Bool :=
  e.fn == fn && (if e.huge then e.vpn / 8192 == fld va 29 26 else e.vpn == fld va 16 39)

end Sys2Proof.Machine
end

