-- ==== Sys2Proof/Machine/Lines.lean ====
section
/-!
DEFINITION. The lines that the clusters and the L2 hold, with the directory (R52, R56, R61, R62): where a line is, under which name, in which state,
and what a reader outside the clusters gets of it. One memory holds the latest value of every line of HBM and of the host (log 3); a line of a
peer window is the exception: a cluster's copy holds bytes of its own.
-/
namespace Sys2Proof.Machine

/-! ### Homes (R61) -/

/-- The die whose L2 is the home of an address; none where no L2 holds it. -/
def homeOf (pa : Nat) : Option Nat :=
  match paKind pa with
  | .hbm => some (hbmStack pa / 2)
  | .host => some (pa / 2 ^ 12 % 8)
  | _ => none

def homeDie (pa : Nat) : Nat := (homeOf pa).getD 0

/-- The slice of a line within its home die, and the set within the slice. -/
def sliceSet (pl : Nat) : Nat × Nat := ((pl % 16) ^^^ (pl / 2 ^ 16 % 16), pl / 16 % 2048)

/-- A line of a peer window. -/
def isPeer (pl : Nat) : Bool := match paKind (128 * pl) with
  | .peer _ => true
  | _ => false

/-! ### Lines of a cluster -/

/-- The lines of the set that a virtual line indexes. -/
def State.klines (s : State) (k vl : Nat) : List KLine := (s.cluster k).cache.get [] (vl % 2048)
def State.modKlines (s : State) (k vl : Nat) (f : List KLine → List KLine) : State :=
  s.modCluster k fun x => { x with cache := x.cache.set [] (vl % 2048) (f (x.cache.get [] (vl % 2048))) }

/-- Every line of a cluster. -/
def State.allKlines (s : State) (k : Nat) : List KLine := ((s.cluster k).cache.map (·.2)).flatten

/-- The name under which a cluster holds a line: the function's tag and the virtual line. -/
def KLine.named (y : KLine) (fn vl : Nat) : Bool := y.fn == fn && y.vline == vl

/-- The line that serves an access: its name, filled under the EID of the core (R334). -/
def State.kline (s : State) (w : Who) (vl : Nat) : Option KLine :=
  (s.klines (clusterOf w.core) vl).find? fun y => y.named w.tag vl && y.eid == w.eid

/-- A line differs from what the level below holds: changed in the cluster cache, or in a scalar cache. -/
def KLine.isDirty (y : KLine) : Bool := y.dirty || y.scal.any fun x => x.2 == .m

/-- Poison of the latest data of a line: that of the modified scalar copy where there is one, which is a copy of the whole line, else the cluster's own. -/
def KLine.poison (y : KLine) : Bool := match y.scal.find? fun x => x.2 == .m with
  | some x => y.spsn.get false x.1
  | none => y.psn

/-- The scalar copies are invalidated, their dirty data and its poison collected (R56). -/
def KLine.collect (y : KLine) : KLine := { y with dirty := y.isDirty, scal := [], spsn := [], psn := y.poison }

/-- The scalar copies are shared from now on, their dirty data collected. -/
def KLine.share (y : KLine) : KLine :=
  { y.collect with scal := y.scal.map fun x => (x.1, .s), spsn := y.spsn }

/-- Replace a line where it lies. -/
def putKline (s : State) (k : Nat) (y : KLine) : State :=
  s.modKlines k y.vline fun l => l.map fun x => if x.named y.fn y.vline && x.eid == y.eid then y else x

/-- Remove a line. -/
def dropKline (s : State) (k : Nat) (y : KLine) : State := s.modKlines k y.vline fun l => l.erase y

/-! ### The directory of the L2 (R62) -/

/-- The entry of a line in its home slice. -/
def State.dir (s : State) (pl : Nat) : Option L2Line := (s.die (homeDie (128 * pl))).l2.get none pl
def State.setDir (s : State) (pl : Nat) (x : Option L2Line) : State :=
  s.modDie (homeDie (128 * pl)) fun d => { d with l2 := d.l2.set none pl x }

/-- The clusters that a probe goes to: those named, or all 16 of every marked die. -/
def Sharers.members : Sharers → List Nat
  | .ids l => l
  | .dies v => (List.range 128).filter fun k => v.getLsbD (k / 16)

/-- The dirty copy of a line that a cluster holds. -/
def dirtyCopy (s : State) (pl : Nat) : Option KLine := match s.dir pl with
  | some x => (x.sharers.members.map fun k => s.klines k x.vline).flatten.find? fun y => y.pl == pl && y.isDirty
  | none => none

/-- Poison of the copy below the clusters: that of the L2 where it holds the line, else of HBM, the host or the peer (R69). -/
def belowPoison (s : State) (pl : Nat) : Bool := match s.dir pl with
  | some x => x.psn
  | none => (s.line pl).psn

/-- A line is poison as its home gives it, a cluster's dirty data first (R62, R69). -/
def homePoison (s : State) (pl : Nat) : Bool := match dirtyCopy s pl with
  | some y => y.poison
  | none => belowPoison s pl

/-- Some line of the bytes is poison for a reader outside the clusters (R69, R70). -/
def poisonAt (s : State) (pa n : Nat) : Bool := (linesOf pa n).any (homePoison s)

end Sys2Proof.Machine
end

