-- ==== Sys2Proof/Machine/Walk.lean ====
section
/-!
DEFINITION. The page walk (R28, R29, R347), the walkers' caches (R34) and the TLBs (R31 to R33).
-/
namespace Sys2Proof.Machine

/-! ### Walks and the buffers of translations -/

/-- A virtual address is canonical (R17). -/
def canonical (va : Word) : Bool := fld va 54 10 == 0 || fld va 54 10 == 1023

/-- The measured-frame map's entry of a frame, and its region's summary bit (R347). -/
def mfEntry (s : State) (frame : Nat) : Word := rawWord s (s.mgmt.kmfmap.toNat + 8 * frame)
def mfSummary (s : State) (frame : Nat) : Bool :=
  let r := frame / 8192
  (rawByte s (s.mgmt.kmfmap.toNat + 2 ^ 27 + r / 8)).getLsbD (r % 8)

/-- The checks of a leaf that maps HBM against the measured-frame map (R347). Gives the frame's EID. -/
def mfCheck (s : State) (pa : Nat) (huge : Bool) (va : Word) (pte : Word) : Option Nat :=
  if paKind pa != .hbm then some 0
  else if huge then (if mfSummary s (pa / 2 ^ 16) then none else some 0)
  else
    let e := mfEntry s (pa / 2 ^ 16)
    if bitOf e 63 then (if bitOf pte 5 && fld e 16 39 == fld va 16 39 then some (fld e 0 16) else none) else some 0

/-- The entry that a leaf PTE gives (R25, R29). -/
def entryOf (fn : Nat) (va pte : Word) (lvl eid : Nat) : PageEntry :=
  let huge := lvl == 2
  { vpn := if huge then fld va 29 26 * 8192 else fld va 16 39
    huge := huge, rd := bitOf pte 2, wr := bitOf pte 3, x := bitOf pte 4, meas := bitOf pte 5, cm := fld pte 6 2
    dirty := bitOf pte 9, key := fld pte 10 10, dom := fld pte 56 8, eid := eid, fn := fn
    pa := if huge then fld pte 33 23 * 2 ^ 29 else fld pte 20 36 * 2 ^ 16 }

/-- One level of the walk of R29, `n` levels to go. Gives the leaf's PTE, its address and its level. -/
def walkFrom (s : State) (va : Word) : Nat → Nat → Except VFault (Word × Nat × Nat)
  | 0, _ => .error { kind := 2, lvl := 3 }
  | n + 1, t =>
    let lvl := 3 - n
    let idx := if lvl = 1 then fld va 42 13 else if lvl = 2 then fld va 29 13 else fld va 16 13
    let at_ := t + idx * 8
    let pte := rawWord s at_
    if poisonAt s at_ 8 then .error { kind := 2, lvl := lvl }
    else if !bitOf pte 0 then .error { kind := 1, lvl := lvl }
    else if bitOf pte 1 then
      if lvl = 1 ∨ (lvl = 2 ∧ fld pte 20 13 ≠ 0) then .error { kind := 2, lvl := lvl, dom := fld pte 56 8 }
      else .ok (pte, at_, lvl)
    else if fld pte 2 18 ≠ 0 ∨ fld pte 56 8 ≠ 0 ∨ lvl = 3 then .error { kind := 2, lvl := lvl }
    else walkFrom s va n (fld pte 20 36 * 2 ^ 16)

/-- The index bits above the table of level 2 or 3. -/
def walkTag (lvl : Nat) (va : Word) : Nat := if lvl = 2 then fld va 42 13 else fld va 29 26

/-- Where a walker begins (R34): levels to go and the table, from the deepest non-leaf entry it keeps, else from the root. -/
def walkStart (l : List WalkEntry) (fn root : Nat) (va : Word) : Nat × Nat :=
  let has := fun (n : Nat) (e : WalkEntry) => e.fn == fn && e.lvl == n && e.tag == walkTag n va
  match l.find? (has 3) with
  | some e => (1, e.table)
  | none => match l.find? (has 2) with
    | some e => (2, e.table)
    | none => (3, root)

/-- The tables that a walk reaches, with their levels: those that its non-leaf entries name. -/
def walkPath (s : State) (va : Word) : Nat → Nat → List (Nat × Nat)
  | 0, _ => []
  | n + 1, t =>
    let lvl := 3 - n
    let at_ := t + (if lvl = 1 then fld va 42 13 else if lvl = 2 then fld va 29 13 else fld va 16 13) * 8
    let pte := rawWord s at_
    if poisonAt s at_ 8 || !bitOf pte 0 || bitOf pte 1 || fld pte 2 18 != 0 || fld pte 56 8 != 0 || lvl == 3 then []
    else (lvl + 1, fld pte 20 36 * 2 ^ 16) :: walkPath s va n (fld pte 20 36 * 2 ^ 16)

/-- The leaf that a walk of `n` levels from table `t` gives, with the checks of R347. -/
def leafOf (s : State) (fn : Nat) (va : Word) (n t : Nat) : Except VFault (PageEntry × Nat × Nat) :=
  match walkFrom s va n t with
  | .error e => .error e
  | .ok (pte, at_, lvl) =>
    let e := entryOf fn va pte lvl 0
    match mfCheck s e.pa e.huge va pte with
    | none => .error { kind := 2, lvl := lvl, dom := e.dom }
    | some eid => .ok ({ e with eid := eid }, at_, lvl)

/-- The root table of a function. -/
def rootOf (s : State) (fn : Nat) : Nat := fld (s.func fn).kroot 16 36 * 2 ^ 16

/-- The walk of R29 from the root. -/
def walk (s : State) (fn : Nat) (va : Word) : Except VFault (PageEntry × Nat × Nat) := leafOf s fn va 3 (rootOf s fn)

/-- A walk by one of the die's eight walkers, which one by choice (R34; log 13): it begins at a non-leaf entry that the walker keeps,
and keeps those that it reads, at most 16. -/
def unitWalk (s : State) (k fn : Nat) (va : Word) : State × Except VFault (PageEntry × Nat × Nat) :=
  let (c, s) := choose s
  let w := k / 16 * 8 + c % 8
  let l := s.walkers.get [] w
  let p := walkStart l fn (rootOf s fn) va
  let new := (walkPath s va p.1 p.2).map fun x => ({ fn := fn, lvl := x.1, tag := walkTag x.1 va, table := x.2 } : WalkEntry)
  ({ s with walkers := s.walkers.set [] w ((new ++ l).take 16) }, leafOf s fn va p.1 p.2)

/-- The page's physical address for a virtual one. -/
def PageEntry.phys (e : PageEntry) (va : Word) : Nat := e.pa + (if e.huge then fld va 0 29 else fld va 0 16)

/-- The set that an entry belongs to among n (log 14: the index bits next above the page offset). -/
def PageEntry.setIdx (e : PageEntry) (n : Nat) : Nat := (if e.huge then e.vpn / 8192 else e.vpn) % n

/-- Two entries for one page. -/
def PageEntry.samePage (e x : PageEntry) : Bool := x.vpn == e.vpn && x.fn == e.fn && x.huge == e.huge

/-- The last entry of a list that satisfies p, taken out. -/
def dropLast (p : PageEntry → Bool) (l : List PageEntry) : List PageEntry :=
  let r := l.reverse
  (match r.findIdx? p with
    | some i => r.eraseIdx i
    | none => r).reverse

/-- Enter an entry at the front of an LRU buffer of sets × ways; entries with protection still running are passed over (R33). -/
def lruFill (sets ways now : Nat) (l : List PageEntry) (e : PageEntry) : List PageEntry :=
  let i := e.setIdx sets
  let same := fun x : PageEntry => x.setIdx sets == i
  let l := l.filter fun x => !e.samePage x
  if (l.filter same).length < ways then e :: l
  else if l.any fun x => same x && decide (x.prot ≤ now) then e :: dropLast (fun x => same x && decide (x.prot ≤ now)) l
  else e :: dropLast same l

/-- Enter an entry in the matrix TLB: FIFO of 512, pinned entries skipped (R32). -/
def fifoFill (l : List PageEntry) (e : PageEntry) : List PageEntry :=
  if l.any e.samePage then l.map fun x => if e.samePage x then { e with pinned := x.pinned } else x
  else if l.length < 512 then l ++ [e]
  else match l.findIdx? fun x => !x.pinned with
    | some i => l.eraseIdx i ++ [e]
    | none => l

/-- Enter an entry in the copy TLB: 256 sets of 4 numbered ways, not recently used (R33). A fill takes a free way first, and sets the new entry's
reference bit: the rule names hits only (log 73). -/
def nruFill (l : List PageEntry) (e : PageEntry) : List PageEntry :=
  let same := fun x : PageEntry => x.setIdx 256 == e.setIdx 256
  let set := l.filter fun x => same x && !e.samePage x
  let put := fun (l : List PageEntry) (b : Nat) => (l.filter fun x => !(e.samePage x) && !(same x && x.way == b)) ++ [{ e with used := true, way := b }]
  match (List.range 4).find? fun b => !(set.any fun x => x.way == b) with
  | some b => put l b
  | none => match (List.range 4).find? fun b => set.any fun x => x.way == b && !x.used with
    | some b => put l b
    | none => put (l.map fun x => if same x then { x with used := false } else x) 0

/-- The entries of a cluster's TLB. -/
def Cluster.tlb (c : Cluster) (t : Nat) : List PageEntry :=
  match t with
  | 0 => c.tlbLane
  | 1 => c.tlbMat
  | 2 => c.tlbCopy
  | _ => c.tlbIns

/-- Load an entry into a cluster's TLB. -/
def Cluster.tlbFill (c : Cluster) (t now : Nat) (e : PageEntry) : Cluster :=
  match t with
  | 0 => { c with tlbLane := lruFill 256 8 0 c.tlbLane e }
  | 1 => { c with tlbMat := fifoFill c.tlbMat e }
  | 2 => { c with tlbCopy := nruFill c.tlbCopy e }
  | _ => { c with tlbIns := lruFill 64 8 now c.tlbIns e }

/-- A launch holds a valid owner entry in a cluster. -/
def ownsIn (s : State) (k id : Nat) : Bool := (s.cluster k).parts.any fun x => x.2.owners.any fun o => o.2.v && o.2.launch == id

/-- The entry of a page that the staging list of an owning launch names, pinned while fewer than 128 are (R32). -/
def staged (s : State) (k : Nat) (e : PageEntry) : PageEntry :=
  { e with pinned := (s.launches.any fun l => l.fn == e.fn && ownsIn s k l.id && l.stage.any fun va => e.covers l.fn va) &&
      decide (((s.cluster k).tlbMat.filter (·.pinned)).length < 128) }

/-- Load an entry into a TLB of a cluster. -/
def tlbLoad (s : State) (k t : Nat) (e : PageEntry) : State :=
  s.modCluster k fun c => c.tlbFill t s.clock (if t = 1 then staged s k e else e)

/-- Set a bit of a PTE in memory (R27). -/
def setPteBit (s : State) (at_ b : Nat) : State := putRaw s at_ (natToLe 8 (setFld (rawWord s at_) b 1 1).toNat)

end Sys2Proof.Machine
end

