-- ==== Sys2Proof/Machine/Cache.lean ====
section
/-!
DEFINITION. How lines move between the clusters, the L2 and what lies below (R52, R53, R55, R56, R61, R62, R66, R67, R132, R334): fills, probes,
evictions and write-backs, the gate's checks of a write-back (R30, R31, R332, R342), the scalar caches.
-/
namespace Sys2Proof.Machine

/-! ### Write-backs and the L2 -/

/-- One more sharer: the fifth turns the field into a vector of dies. -/
def Sharers.add (k : Nat) : Sharers → Sharers
  | .ids l =>
    if l.contains k then .ids l else if l.length < 4 then .ids (k :: l)
    else .dies ((k :: l).foldl (fun (v : BitVec 8) (j : Nat) => v ||| BitVec.ofNat 8 (2 ^ (j / 16))) 0)
  | .dies v => .dies (v ||| BitVec.ofNat 8 (2 ^ (k / 16)))

/-- The lane TLB serves a write-back (R30, R31): a hit notes the use, a miss walks and loads the page's entry. A is not set: an entry of the page was in a
TLB of the cluster when the line was filled (R27). The line goes to the address that it was filled from, whatever the entry names (R39; log 77). -/
def serveLane (s : State) (k : Nat) (y : KLine) : State :=
  let va := word (128 * y.vline)
  match (s.cluster k).tlbLane.find? fun e => e.covers y.fn va with
  | some e => s.modCluster k fun c => { c with tlbLane := e :: c.tlbLane.erase e }
  | none =>
    if 16 ≤ y.fn then s
    else match unitWalk s k y.fn va with
      | (s, .ok (e, _, _)) => tlbLoad s k 0 e
      | (s, .error _) => s

/-- The gate refuses a write-back: PMP of the hart that last filled or wrote the line denies it (R24, R332), or the key is not usable for the function and the EID
recorded on the line (R342). -/
def KLine.refused (y : KLine) (s : State) : Bool :=
  !pmpPasses s (s.hart y.hart).csr y.priv (128 * y.pl) false true false || (decide (y.fn < 16) && !keyUsable s y.key y.fn y.eid)

/-- The bytes of a peer-window line as they pass the gate: those of a page with a key sealed (R54, R338). -/
def KLine.sealed (y : KLine) (s : State) : List Byte :=
  let k := s.key y.key
  if y.key = 0 then y.keep.take 128 else (sealLine k.k1 k.k2 y.pl (y.keep.take 128)).take 128

/-- The dirty data of a line passes the gate (R54), poison with it (R69): into the home slice, or to the peer whose window it lies in, with the taints of
its writers (R352). Of data that the gate refuses the line becomes poison (log 80). -/
def writeBackIn (s : State) (k : Nat) (y : KLine) : State :=
  let y := y.collect
  if !y.dirty then s
  else
    let s := serveLane s k y
    let no := y.refused s
    if isPeer y.pl then
      let s := s.modLine y.pl fun m => { m with psn := y.psn || no }
      if no then s
      else
        let bs := y.sealed s
        egressOf ((putRaw s (128 * y.pl) bs).modLine y.pl fun m => { m with tag := if y.key = 0 then 0 else lineTag (s.key y.key).mac y.pl bs }) (128 * y.pl) bs y.taint
    else match s.dir y.pl with
      | some x => s.setDir y.pl (some { x with dirty := true, zero := y.zero && y.key == 0, taint := x.taint ||| y.taint, psn := y.psn || no })
      | none => s

/-- A probe reaches a cluster: the line of the recorded name leaves it, dirty data first, as `back` writes it. -/
def probeBy (back : State → Nat → KLine → State) (x : L2Line) (s : State) (k : Nat) : State :=
  ((s.klines k x.vline).filter fun y => y.named x.fn x.vline && y.pl == x.pl).foldl (fun s y => dropKline (back s k y) k y) s

/-- A line leaves the L2: out of every cluster that holds it, then, if it is dirty, to the host with its writers' taints, or to HBM, where a zero tag of a
key-0 line leaves ZERO = 1 (R62, R64, R67). -/
def l2Evict (s : State) (x : L2Line) : State :=
  let s := x.sharers.members.foldl (probeBy writeBackIn x) s
  let x := (s.dir x.pl).getD x
  let s := if !x.dirty then s else s.modLine x.pl fun m => { m with psn := x.psn }
  let s := if !x.dirty then s
    else if paKind (128 * x.pl) = .host then egressOf s (128 * x.pl) (rawBytes s (128 * x.pl) 128) x.taint
    else if x.zero then s.modLine x.pl fun m => { m with zero := true } else s
  s.setDir x.pl none

/-- A place for a line among the 16 ways or the 8 zero tags of its set, the victim of a full set by choice (pseudo-LRU, log 14). -/
def l2Room (s : State) (pl : Nat) (zero : Bool) : State :=
  let same := ((s.die (homeDie (128 * pl))).l2.map (·.2)).filterMap fun x => x.filter fun x =>
    x.zero == zero && x.pl != pl && sliceSet x.pl == sliceSet pl
  let cap := if zero then 8 else 16
  if same.length < cap then s
  else
    let (n, s) := choose s
    l2Evict s (nth {} same (n % max 1 same.length))

/-- The dirty data of a line passes the gate; where its home changes between a data way and a zero tag, the line finds room there first (R66, R67). -/
def writeBack (s : State) (k : Nat) (y : KLine) : State :=
  let z := y.zero && y.key == 0
  writeBackIn (match s.dir y.pl with
    | some x => if y.isDirty && x.zero != z then l2Room s y.pl z else s
    | none => s) k y

/-- A line leaves a cluster: the scalar copies first, then dirty data through the gate (R56). -/
def kOut (k : Nat) (s : State) (y : KLine) : State := dropKline (writeBack s k y) k y

/-- A line whose 128 bytes come as zero without data (R66): from the cluster that holds it dirty, else from the L2, else from HBM. -/
def zeroBelow (s : State) (key pl : Nat) : Bool :=
  key == 0 && match dirtyCopy s pl with
    | some y => y.zero
    | none => match s.dir pl with
      | some x => x.zero
      | none => (s.line pl).zero

/-- Another cluster's copy becomes shared, its dirty data written back. -/
def shareOut (x : L2Line) (s : State) (k : Nat) : State :=
  ((s.klines k x.vline).filter fun y => y.named x.fn x.vline && y.pl == x.pl).foldl (fun s y =>
    putKline (writeBack s k y) k { y.share with dirty := false, mesi := .s, keep := [], kept := {} }) s

/-- A cluster takes a line from its home: the L2 holds it from then on; for a store the other copies go, for a read they become shared. With it the
MESI state of the cluster's copy. -/
def l2Take (s : State) (k vl fn pl : Nat) (excl : Bool) : State × Mesi :=
  if (homeOf (128 * pl)).isNone then (s, if excl then .m else .s)
  else
    let s := if (s.dir pl).isSome then s
      else
        let m := s.line pl
        (l2Room s pl m.zero).setDir pl (some { pl := pl, zero := m.zero, vline := vl, fn := fn, psn := m.psn })
    let x := (s.dir pl).getD {}
    let others := x.sharers.members.filter (· != k)
    if excl then
      let s := others.foldl (probeBy writeBack x) s
      let x := (s.dir pl).getD {}
      (s.setDir pl (some { x with sharers := .ids [k], mesi := .m, vline := if x.sharers.members.isEmpty then vl else x.vline,
                                   fn := if x.sharers.members.isEmpty then fn else x.fn }), .m)
    else
      let s := others.foldl (shareOut x) s
      let x := (s.dir pl).getD {}
      let m : Mesi := if others.isEmpty then .e else .s
      (s.setDir pl (some { x with sharers := x.sharers.add k, mesi := m, vline := if x.sharers.members.isEmpty then vl else x.vline,
                                   fn := if x.sharers.members.isEmpty then fn else x.fn }), m)

/-- The line leaves the L2 and every cluster: an agent outside the clusters writes it at its home. -/
def homeWrite (s : State) (pl : Nat) : State := match s.dir pl with
  | some x => l2Evict s x
  | none => s

/-! ### Fills (R53, R57) -/

/-- The slabs whose ways take fills: in cache mode, with no switch in progress (R72, R74). -/
def kWays (s : State) (k : Nat) : List Nat :=
  let c := s.cluster k
  (List.range 16).filter fun b => c.modes.get 0 b == 0 && !(c.slabPhase != 0 && c.swSlab == b)

/-- A way for a line in its set: a free one, else that of a line entered as least recently used, else one by choice (pseudo-LRU,
log 14), whose line leaves. -/
def kRoom (s : State) (k vl : Nat) (zero : Bool) : State × Option Nat :=
  let ways := if zero then List.range 8 else kWays s k
  let l := (s.klines k vl).filter fun y => y.zero == zero && ways.contains y.way
  match ways.find? fun b => !(l.any fun y => y.way == b) with
  | some b => (s, some b)
  | none => match l.find? (·.lru) with
    | some y => (kOut k s y, some y.way)
    | none => match l with
      | [] => (s, none)
      | y :: _ =>
        let (n, s) := choose s
        let v := nth y l (n % l.length)
        (kOut k s v, some v.way)

/-- Enter a line in a way of its set. -/
def kPlace (s : State) (k : Nat) (y : KLine) : State :=
  let (s, b) := kRoom s k y.vline y.zero
  match b with
  | some b => s.modKlines k y.vline fun l => { y with way := b } :: l
  | none => s

/-- Fill a line into the cluster of the access (R53): a line of its name under another EID leaves first (R334), and a victim before the L2 takes the line, so that no
write-back evicts what it has just taken (R62). A streaming page's line enters as the least recently used. -/
def kFill (s : State) (w : Who) (vl pl key cm : Nat) (zero excl : Bool) : State :=
  let k := clusterOf w.core
  let s := ((s.klines k vl).filter fun y => y.named w.tag vl).foldl (kOut k) s
  let (s, b) := kRoom s k vl zero
  match b with
  | none => s
  | some b =>
    let (s, m) := l2Take s k vl w.tag pl excl
    s.modKlines k vl fun l =>
      { vline := vl, fn := w.tag, pl := pl, key := key, eid := w.eid, way := b, zero := zero, mesi := m, lru := cm == 1, psn := belowPoison s pl
        hart := w.hart, priv := w.priv, keep := if isPeer pl then plainLine s key pl else [] } :: l

/-! ### Reading -/

/-- A line in plaintext as the cluster of an access sees it. Two names of one physical line in the scalar and cluster caches show one value, though R16 lets such
copies differ (log 3). -/
def seenLine (s : State) (w : Who) (vl key pl : Nat) : List Byte :=
  match s.kline w vl with
  | some y => if isPeer y.pl then y.keep else plainLine s y.key y.pl
  | none => plainLine s key pl

/-- n bytes within one line as the cluster of an access sees them. -/
def seenBytes (s : State) (w : Who) (va : Word) (key pa n : Nat) : List Byte :=
  ((seenLine s w (va.toNat / 128) key (pa / 128)).drop (pa % 128)).take n

/-- A line is poison as the cluster of an access sees it. -/
def seenPoison (s : State) (w : Who) (vl pl : Nat) : Bool := match s.kline w vl with
  | some y => y.poison
  | none => homePoison s pl

/-- A line may enter the cluster of an access: it is there, or its integrity tag holds (R339, R340). -/
def entryOk (s : State) (w : Who) (vl key pl : Nat) : Bool := (s.kline w vl).isSome || tagOk s key pl

/-- An atomic on a line of a peer window is performed at the peer's home (R124, R236): the copy that the cluster holds leaves it first, and
nothing is allocated. -/
def peerHome (s : State) (w : Who) (vl : Nat) (r : PRef) : State × PRef :=
  if isPeer (r.pa / 128) then
    (match s.kline w vl with
      | some y => kOut (clusterOf w.core) s y
      | none => s, { r with cm := 2 })
  else (s, r)

/-- A read of a line reaches the cluster: a miss fills it where the page's mode allows, a dirty scalar copy is collected. -/
def readIn (s : State) (w : Who) (vl pl key cm : Nat) : State :=
  match s.kline w vl with
  | some y => if y.scal.any fun x => x.2 == .m || x.2 == .e then putKline s (clusterOf w.core) y.share else s
  | none => if cm < 2 then kFill s w vl pl key cm (zeroBelow s key pl) false else s

/-! ### Writing -/

/-- What stands of a list in which a later member replaces an earlier one of the same place: of two cells of one byte, the later (R235). -/
def keepLast (place : α → Nat) : List α → List α
  | [] => []
  | x :: xs => if xs.any fun y => place y == place x then keepLast place xs else x :: keepLast place xs

/-- The cells cover their line whole. -/
def coverLine (cs : List PCell) : Bool := (List.range 128).all fun o => cs.any fun c => c.pa % 128 == o

/-- Change a line of the one memory. A line of a key is read, changed and sealed again; one of key 0 has TAG 0 (R65); a write of all its bytes clears poison
(R71), a nonzero byte ends its zero mark (R66). -/
def putLine (s : State) (l : Nat) (cs : List PCell) : State :=
  let key := ((cs.head?).map (·.key)).getD 0
  let whole := coverLine cs
  let m := s.line l
  let psn := m.psn && !whole
  if key = 0 then
    let s := { s with mem := cs.foldl (fun (m : List Host.Cell) (c : PCell) => SMap.set 0 m c.pa c.val) s.mem }
    s.modLine l fun _ => { psn := psn, zero := m.zero && cs.all fun c => c.val == 0 }
  else
    let plain := if whole then List.replicate 128 0 else plainLine s key l
    let plain := cs.foldl (fun (p : List Byte) (c : PCell) => p.set (c.pa % 128) c.val) plain
    let k := s.key key
    let cipher := sealLine k.k1 k.k2 l plain
    (putRaw s (128 * l) cipher).modLine l fun _ => { psn := psn, tag := lineTag k.mac l cipher }

/-- Store cells of one line at its home: every cached copy leaves first. -/
def writeLine (s : State) (l : Nat) (cs : List PCell) (taint : BitVec 16) : State :=
  let s := putLine (homeWrite s l) l cs
  egressOf s (128 * l) (if ((cs.head?).map (·.key)).getD 0 = 0 then (keepLast PCell.pa cs).map (·.val) else rawBytes s (128 * l) 128) taint

/-- Store cells at their homes, line by line. -/
def writeCells (s : State) (cs : List PCell) (taint : BitVec 16) : State :=
  ((cs.map fun c => c.pa / 128).eraseDups).foldl (fun s l => writeLine s l (cs.filter fun c => c.pa / 128 == l) taint) s

/-- The cells of consecutive bytes. -/
def cellsOf (pa key : Nat) (bs : List Byte) : List PCell := bs.zipIdx.map fun (b, i) => { pa := pa + i, key := key, val := b }

/-- Store consecutive bytes at their homes. -/
def writeMem (s : State) (key pa : Nat) (bs : List Byte) (taint : BitVec 16) : State := writeCells s (cellsOf pa key bs) taint

/-- A line that a store misses is filled; one that the cluster holds leaves every other. -/
def kTake (s : State) (w : Who) (vl pl key cm : Nat) (zero : Bool) : State := match s.kline w vl with
  | some _ => (l2Take s (clusterOf w.core) vl w.tag pl true).1
  | none => kFill s w vl pl key cm zero true

/-- A line that a store turns into a zero tag, or back into a data line, finds room for that first (R66, R67). -/
def kReady (s : State) (w : Who) (vl : Nat) (zero : Bool) : State := match s.kline w vl with
  | some y => if y.zero = zero then s else (kRoom s (clusterOf w.core) vl zero).1
  | none => s

/-- The cluster of a store takes its line: filled where it misses, alone among the clusters, dirty, with the writer and its taint; in a zero tag while the
store leaves it all zero, else in a data way, which is found first (R66, R67). -/
def kOwn (s : State) (w : Who) (vl pl key cm : Nat) (zero whole : Bool) : State :=
  let k := clusterOf w.core
  let s := kTake (kReady s w vl zero) w vl pl key cm zero
  match s.kline w vl with
  | none => s
  | some y =>
    let c := y.collect
    let clean := !y.isDirty
    let n := { c with dirty := true, mesi := .m, zero := zero, psn := c.psn && !whole, taint := c.taint ||| w.taint, hart := w.hart, priv := w.priv
                      keep := if clean && !isPeer pl then rawBytes s (128 * pl) 128 else c.keep, kept := if clean then s.line pl else c.kept }
    if y.zero = zero then putKline s k n else kPlace (dropKline s k y) k n

/-- Store cells of one line for an access of a core: in its cluster, or at the home of a page whose mode is uncached or device-I/O. -/
def storeLine (s : State) (w : Who) (vl cm : Nat) (cs : List PCell) : State :=
  match cs with
  | [] => s
  | c :: _ =>
    let l := c.pa / 128
    if 2 ≤ cm then writeLine s l cs w.taint
    else
      let z := cs.all (fun x => x.val == 0) && match s.kline w vl with
        | some y => y.zero
        | none => zeroBelow s c.key l
      let s := kOwn s w vl l c.key cm z (coverLine cs)
      match s.kline w vl with
      | none => writeLine s l cs w.taint
      | some y =>
        if isPeer l then putKline s (clusterOf w.core) { y with keep := cs.foldl (fun (p : List Byte) (x : PCell) => p.set (x.pa % 128) x.val) y.keep }
        else putLine s l cs

/-- A line written whole with zeros by a zero fill becomes a dirty zero tag of the cluster (R67). -/
def zeroLine (s : State) (w : Who) (vl pl key cm : Nat) : State := if cm < 2 then kOwn s w vl pl key cm true true else s

/-- A line becomes poison (R69): the dirty copy that the cluster of a store holds, else the line at its home. -/
def markPoison (s : State) (w : Who) (vl pl : Nat) : State :=
  match (s.kline w vl).filter (·.isDirty) with
  | some y => putKline s (clusterOf w.core) { y with psn := true }
  | none => (homeWrite s pl).modLine pl fun m => { m with psn := true }

/-! ### The scalar caches (R52, R55, R56) -/

/-- The lines of a cluster that have a copy in the scalar cache of a core, in the set of a virtual line: VA[12:7]. -/
def scalSet (s : State) (core vl : Nat) : List KLine :=
  (s.allKlines (clusterOf core)).filter fun y => y.scal.get .i (core % 4) != .i && y.vline % 64 == vl % 64

/-- A copy leaves the scalar cache of a core, its dirty data with their poison into the cluster cache. -/
def scalOut (s : State) (core : Nat) (y : KLine) : State :=
  let c := core % 4
  let m := y.scal.get .i c == .m
  putKline s (clusterOf core) { y with dirty := y.dirty || m, psn := if m then y.spsn.get false c else y.psn, scal := y.scal.erase c, spsn := y.spsn.erase c }

/-- A place among the 8 ways of a scalar cache's set, the victim by choice (pseudo-LRU, log 14). -/
def scalRoom (s : State) (core vl : Nat) : State :=
  let l := scalSet s core vl
  if l.length < 8 then s
  else
    let (n, s) := choose s
    scalOut s core (nth {} l (n % l.length))

/-- The scalar cache of a core holds the line of an access: whether that copy is poison (R55, R69). -/
def scalHit (s : State) (w : Who) (vl : Nat) : Option Bool := match s.kline w vl with
  | some y => if y.scal.get .i (w.core % 4) != .i then some (y.spsn.get false (w.core % 4)) else none
  | none => none

/-- A line enters the scalar cache of an access's core, or stays there: a normal page's line is allocated, a streaming page's is used where it was (R53). `old` says that the
core had a copy, and whether that was poison, which a write of a part leaves (R71). A store makes it the only copy, modified; a read shares it. -/
def scalUse (s : State) (w : Who) (vl cm : Nat) (write : Bool) (old : Option Bool) : State :=
  match s.kline w vl with
  | none => s
  | some _ =>
    if old.isNone && cm != 0 then s
    else
      let c := w.core % 4
      let s := scalRoom s w.core vl
      match s.kline w vl with
      | none => s
      | some y =>
        let psn := old.getD y.poison
        putKline s (clusterOf w.core) (if write then { y.collect with dirty := y.dirty, mesi := .m, scal := [(c, .m)], spsn := SMap.set false [] c psn }
          else { y.share with
            scal := y.share.scal.set .i c (if y.mesi == .s || y.scal.any fun x => x.1 != c then .s else .e), spsn := y.share.spsn.set false c psn })

/-- `kflush`: the dirty lines of a core's scalar cache go to the cluster cache, and the copies go (R335). -/
def scalFlush (s : State) (core : Nat) : State :=
  ((s.allKlines (clusterOf core)).filter fun y => y.scal.get .i (core % 4) != .i).foldl (fun s y => scalOut s core y) s

/-! ### Write-backs of many lines -/

/-- The lines of a cluster that p picks leave it, dirty data written back (R39, R74, R135, R345). -/
def kFlush (p : KLine → Bool) (s : State) (k : Nat) : State := ((s.allKlines k).filter p).foldl (kOut k) s

/-- Likewise on every cluster. -/
def kFlushAll (s : State) (p : KLine → Bool) : State := (s.clusters.map (·.1)).foldl (kFlush p) s

/-- The lines of the L2 that p picks leave it. -/
def l2Flush (s : State) (p : L2Line → Bool) : State :=
  (s.dies.map fun x => (x.2.l2.filterMap (·.2)).filter p).flatten.foldl (fun s x => match s.dir x.pl with
    | some y => l2Evict s y
    | none => s) s

/-- The lines of a cluster that p picks go with no write-back (R362): what the level below holds stands again. -/
def kForget (p : KLine → Bool) (s : State) (k : Nat) : State :=
  ((s.allKlines k).filter p).foldl (fun s y =>
    let s := dropKline s k y
    if y.isDirty && !isPeer y.pl && y.keep.length = 128 then (putRaw s (128 * y.pl) y.keep).modLine y.pl fun _ => y.kept else s) s

/-- The dirty peer-window lines of a cluster that p picks go to their peers, and stay clean. -/
def peerBack (p : KLine → Bool) (s : State) (k : Nat) : State :=
  ((s.allKlines k).filter fun y => p y && isPeer y.pl && y.isDirty).foldl (fun s y => putKline (writeBackIn s k y) k { y.share with dirty := false }) s

/-- A release of scope 5 by an agent of a core: the dirty peer-window lines of its cluster go to their peers (R132). -/
def peerRelease (s : State) (core : Nat) : State := peerBack (fun _ => true) s (clusterOf core)

/-- An acquire of scope 5 by an agent of a core: the peer-window lines of its L1, scalar cache and cluster cache go (R132). -/
def peerAcquire (s : State) (core : Nat) : State :=
  kFlush (fun y => isPeer y.pl) (s.modCore core fun c => { c with l1 := c.l1.filter fun y => !isPeer y.pl }) (clusterOf core)

end Sys2Proof.Machine
end

