-- ==== Sys2Proof/Machine/Vm.lean ====
section
/-!
DEFINITION. The PLB (R22), the checks of R23, the posting of fault reports (R40, R41), and the
records of the attendance book (R357).
-/
namespace Sys2Proof.Machine

/-! ### The PLB and the buffers of translations -/

/-- Load an entry into a core's PLB: 128 sets of 8 ways, the victim of a full set by choice (pseudo-LRU, log 14). -/
def plbFill (s : State) (c : Nat) (e : PageEntry) : State :=
  let e := { e with prot := 0, used := false, pinned := false, way := 0 }
  let same := fun x : PageEntry => x.setIdx 128 == e.setIdx 128
  let l := (s.core c).plb.filter fun x => !e.samePage x
  if (l.filter same).length < 8 then s.modCore c fun x => { x with plb := e :: l }
  else
    let (n, s) := choose s
    let victim := nth e (l.filter same) (n % 8)
    s.modCore c fun x => { x with plb := e :: l.erase victim }

/-- The entry that a TLB gives for an address, from the TLB or from a walk; the walk sets A and fills the TLB. With it the walk's
level, 0 on a hit. -/
def tlbEntry (s : State) (k t fn : Nat) (va : Word) : State × Except VFault (PageEntry × Nat) :=
  match ((s.cluster k).tlb t).find? fun e => e.covers fn va with
  | some e =>
    (s.modCluster k fun c => (if t = 2 then { c with tlbCopy := c.tlbCopy.map fun x => if x == e then { x with used := true } else x }
       else if t = 0 then { c with tlbLane := e :: c.tlbLane.erase e }
       else if t = 3 then { c with tlbIns := e :: c.tlbIns.erase e } else c), .ok (e, 0))
  | none =>
    match unitWalk s k fn va with
    | (s, .error f) => (s, .error f)
    | (s, .ok (e, at_, lvl)) => (tlbLoad (setPteBit s at_ 8) k t e, .ok (e, lvl))

/-- The page attributes for an access: from the PLB, or from the TLB of its kind, which fills the PLB (R22). -/
def pageFor (s : State) (w : Who) (u : Src) (va : Word) : State × Except VFault (PageEntry × Nat) :=
  match (s.core w.core).plb.find? fun e => e.covers w.fn va with
  | some e => (s, .ok (e, 0))
  | none =>
    match tlbEntry s (clusterOf w.core) u.tlb w.fn va with
    | (s, .error f) => (s, .error f)
    | (s, .ok (e, lvl)) => (plbFill s w.core e, .ok (e, lvl))

/-- Some confined region of the context's taint shuts the page out (R354). -/
def confined (s : State) (w : Who) (e : PageEntry) : Bool :=
  (List.range 16).any fun g =>
    let r := s.region g
    w.taint.getLsbD g && r.en && r.conf && !r.doms.getLsbD e.dom && paKind e.pa == .hbm

/-- Steps 4 to 7 of R23 on a page's attributes; the rights of step 5 differ by access. `exec` reads need X. -/
def attrFault (s : State) (w : Who) (u : Src) (a : Acc) (mxr : Bool) (e : PageEntry) : Option Nat :=
  if !domActive w.kdom w.priv e.dom then some 6
  else if a.writes && confined s w e then some 6
  else if a == .ex then (if !e.x then some 3 else if e.cm != 0 || paKind e.pa == .mmio then some 9
    else if (s.core w.core).kencl != 0 && e.eid != (s.core w.core).kencl.toNat then some 1 else none)
  else if a.reads && !(e.rd || (mxr && e.x)) then some 3
  else if a.writes && !e.wr then some 4
  else if a.writes && e.meas then some 5
  else if e.cm == 3 && u != .scalar then some 9
  else if paKind e.pa == .mmio && e.cm != 3 then some 9
  else none

/-- Steps 8 and 9 of R23, and PMP (log 10): kinds 8 and 0xA. Key id 2 in Mladotte's region is M mode's (R332). -/
def physFault (s : State) (w : Who) (u : Src) (a : Acc) (pa key : Nat) : Option Nat :=
  if !backed s pa || (paKind pa == .mmio && u != .scalar) then some 8
  else if !pmpPasses s (s.hart w.hart).csr w.priv pa a.reads a.writes (a == .ex) then some 8
  else if !keyUsable s key w.fn w.eid then some 10
  else none

/-- Where a copy of a line inside the cluster serves an access (R30): the cluster cache, with it the scalar caches; for a lane load the L1 too; for
a fetch the instruction cache too. -/
def heldAt (s : State) (w : Who) (u : Src) (a : Acc) (va : Nat) : Option Nat :=
  match s.kline w (va / 128) with
  | some y => some (128 * y.pl + va % 128)
  | none =>
    let l := if u == .lane && a == .rd then (s.core w.core).l1 else if u == .fetch then (s.core w.core).icache else []
    (l.find? fun y => y.vline == va / 128 && y.fn == w.tag).map fun y => 128 * y.pl + va % 128

/-- Every line of n bytes is held. -/
def heldAll (s : State) (w : Who) (u : Src) (a : Acc) (va n : Nat) : Bool := (linesOf va (max 1 n)).all fun l => (heldAt s w u a (128 * l)).isSome

/-- Steps 8 and 9 for n bytes in one page: of each 4 KiB, PMP's grain (R24, R332), that has a line not held in the cluster; of an S- or U-mode access in
Bare mode, which PMP alone governs (R18), whatever is held. -/
def physFaults (s : State) (w : Who) (u : Src) (a : Acc) (va pa key n : Nat) : Option Nat :=
  (List.range ((pa + max 1 n - 1) / 4096 - pa / 4096 + 1)).findSome? fun i =>
    let lo := max pa ((pa / 4096 + i) * 4096)
    let m := min (pa + max 1 n) ((pa / 4096 + i + 1) * 4096) - lo
    if heldAll s w u a (va + (lo - pa)) m && !(w.bare && w.priv != .m) then none else physFault s w u a lo key

/-- Set D by compare-and-set on the PTE (R27): the walk is made again, the access is checked against the entry that it gives before the PTE
changes, and the buffers take that entry. -/
def markDirty (s : State) (w : Who) (u : Src) (a : Acc) (mxr : Bool) (va : Word) : State × Except VFault (PageEntry × Nat) :=
  match unitWalk s (clusterOf w.core) w.fn va with
  | (s, .error f) => (s, .error f)
  | (s, .ok (e, at_, lvl)) =>
    match attrFault s w u a mxr e with
    | some k => (s, .error { kind := k, lvl := lvl, dom := e.dom })
    | none =>
      let e := { e with dirty := true }
      let s := setPteBit (setPteBit s at_ 8) at_ 9
      (plbFill (tlbLoad s (clusterOf w.core) u.tlb e) w.core e, .ok (e, lvl))

/-- The cache mode of an access to a page: a streaming access treats a normal page as a streaming one (R234). -/
def Who.mode (w : Who) (cm : Nat) : Nat := if w.nt && cm == 0 then 1 else cm

/-- The physical side of an access that passed the PLB with entry e, reached by a walk of level `lvl` or none: a normal page's lines that the cluster
holds need no physical address (R30); the rest is formed in the TLB of the access and checked at the gate. -/
def reach (s : State) (w : Who) (u : Src) (a : Acc) (va : Word) (n : Nat) (e : PageEntry) (lvl : Nat) : State × Except VFault PRef :=
  match if w.mode e.cm = 0 ∧ heldAll s w u a va.toNat n then heldAt s w u a va.toNat else none with
  | some pa => (s, .ok { pa := pa, key := e.key, cm := 0 })
  | none =>
    match tlbEntry s (clusterOf w.core) u.tlb w.fn va with
    | (s, .error f) => (s, .error f)
    | (s, .ok (e', lvl')) =>
      let lvl := max lvl lvl'
      match physFaults s w u a va.toNat (e'.phys va) e'.key n with
      | some k => (s, .error { kind := k, lvl := lvl, dom := if lvl = 0 then 0 else e'.dom })
      | none => (s, .ok { pa := e'.phys va, key := e'.key, cm := w.mode e'.cm })

/-- Translate and check n bytes of one page, in the order of R23. An S- or U-mode access under translation passes the PLB; M mode and Bare mode use
the address as the physical address (R18). `setD` says that a store performs, so that D is set (R27). A report names the DOM of a leaf
that a walk of this access reached (R41). -/
def translate (s : State) (w : Who) (u : Src) (a : Acc) (mxr setD : Bool) (va : Word) (n : Nat) : State × Except VFault PRef :=
  if w.bare then
    if fld va 52 12 ≠ 0 then (s, .error { kind := 8 })
    else match physFaults s w u a va.toNat va.toNat 0 n with
      | some k => (s, .error { kind := k })
      | none => (s, .ok { pa := va.toNat, key := bareKey s va.toNat, cm := if paKind va.toNat = .mmio then 3 else w.mode 0 })
  else if !canonical va then (s, .error { kind := 7 })
  else
    match pageFor s w u va with
    | (s, .error f) => (s, .error f)
    | (s, .ok (e, lvl)) =>
      match attrFault s w u a mxr e with
      | some k => (s, .error { kind := k, lvl := lvl, dom := if lvl = 0 then 0 else e.dom })
      | none =>
        if setD && a.writes && !e.dirty then
          match markDirty s w u a mxr va with
          | (s, .error f) => (s, .error f)
          | (s, .ok (e, lvl)) => reach s w u a va n e lvl
        else reach s w u a va n e lvl

/-- The hart as the maker of an access; data accesses in M mode honour MPRV (R178). -/
def whoOf (s : State) (h : Nat) (data : Bool) : Who :=
  let x := s.hart h
  let p := if data && x.priv == .m && bitOf x.csr.mstatus 17 then Priv.ofCode (fld x.csr.mstatus 11 2) else x.priv
  { hart := h, core := coreOf h, priv := p, kdom := x.k.kdom, fn := x.fn, eid := (s.core (coreOf h)).kencl.toNat
    taint := taintOf s h, bare := p == .m || x.csr.satpMode == 0 }

/-- The standard cause of a failed scalar access (R23): fetch, load, store or atomic. -/
def scalarCause (kind : Nat) (a : Acc) : Nat :=
  let acc := kind == 8 || kind == 9 || kind == 10
  if a == .ex then (if acc then 1 else 12)
  else if a == .rd then (if acc then 5 else 13)
  else if acc then 7 else 15

/-! ### Fault reports (R40, R41) -/

/-- The first word that a report carries in i1 (R41). -/
def reportInfo (kind access tlb lvl core hart lane dom : Nat) : Word :=
  word (kind + access * 2 ^ 8 + tlb * 2 ^ 12 + lvl * 2 ^ 14 + core * 2 ^ 16 + hart * 2 ^ 25 + lane * 2 ^ 32 + dom * 2 ^ 40)

/-- A core holds a report of an origin: it holds no second one, so the access that would post it waits (R49; log 79). -/
def reportHeld (s : State) (c who : Nat) : Bool := (s.core c).heldReports.any fun r => r.who == who

/-- Post a report: it takes the core's next fault id, counts on counter 14, and enters the die's fault buffer, or is held at its
core when the buffer is full or older ones are held there (R49). -/
def postReport (s : State) (c who : Nat) (va info : Word) (slot off : Nat) (pc : Word) : State × Nat :=
  let id := (s.core c).fid.toNat
  let r : Report := { w0 := va, w1 := info, w2 := word (id + slot * 2 ^ 16 + off % 2 ^ 32 * 2 ^ 32), w3 := pc, who := who }
  let s := bump (s.modCore c fun x => { x with fid := x.fid + 1 }) c 14 1
  let d := dieOfCore c
  if (s.die d).buf.length < 512 ∧ (s.core c).heldReports.isEmpty then (s.modDie d fun x => { x with buf := x.buf ++ [r] }, id)
  else (s.modCore c fun x => { x with heldReports := x.heldReports ++ [r] }, id)

/-- Cause 24 on a hart, `kflane` written with it (R45). -/
def fatalFault (s : State) (h : Nat) (va : Word) (detail lane : Nat) : State :=
  takeTrap (s.modHart h fun x => { x with k := { x.k with kflane := BitVec.ofNat 16 (detail * 256 + lane) } }) h false 24 va

/-- `PostFault` (R10): the report is posted and the hart blocks; on the service hart cause 24 is raised at once (R48). -/
def postFault (s : State) (h : Nat) (f : VFault) (access tlb lane : Nat) (va : Word) : State :=
  let c := coreOf h
  if isService h then fatalFault s h va 2 lane
  else if reportHeld s c (hartNo h) then s.modHart h fun x => { x with wait := .stall }
  else
    let (s, id) := postReport s c (hartNo h) va (reportInfo f.kind access tlb f.lvl c (hartNo h) lane f.dom) 0 0 (s.hart h).pc
    s.modHart h fun x => { x with wait := .fault id lane va }

/-- End a lane or tile access of the current hart at a failed check (R40, R45). -/
def failAccess {α : Type} (f : VFault) (access tlb lane : Nat) (va : Word) : Exec α :=
  fun s => .error (postFault s s.cur f access tlb lane va)

/-! ### Records of the attendance book (R357) -/

/-- The book is full (R360). -/
def bookFull (s : State) : Bool := decide (2 ^ 20 - 1 ≤ s.book.next - s.book.ack)

/-- The book takes n more records. -/
def bookRoom (s : State) (n : Nat) : Bool := decide (s.book.next - s.book.ack + n ≤ 2 ^ 20 - 1)

/-- Put a record into the book: its words, chained by the hash of the one before (R357); after every 1,024th a signature is due
(R358). -/
def bookPut (s : State) (hd : Word) (args : List Word) : State :=
  let body := [word s.book.next, word s.time, hd] ++ (args ++ List.replicate 9 0).take 9
  let prev := digestBytes s.book.last
  let line := body ++ (List.range 4).map fun i => leWord ((prev.drop (8 * i)).take 8)
  let h := sm3 (prev ++ (body.map fun w => natToLe 8 w.toNat).flatten)
  { s with book := { s.book with recs := (s.book.recs ++ [BookRec.mk line (s.key 1)]).drop ((s.book.recs.length + 1) - 2 ^ 20), next := s.book.next + 1, last := h
                                 due := s.book.due || s.book.next % 1024 == 1023 } }

/-- Append a record (R357), or let it wait while the book is full (R360). -/
def bookAppend (s : State) (type fn eid core : Nat) (args : List Word) : State :=
  let hd := word (type + fn * 2 ^ 16 + eid * 2 ^ 24 + core * 2 ^ 40)
  if bookFull s then { s with book := { s.book with pend := s.book.pend ++ [{ hd := hd, args := args }] } } else bookPut s hd args

/-- The four argument words of a digest. -/
def digestWords (d : BitVec 256) : List Word := (List.range 4).map fun i => leWord (((digestBytes d).drop (8 * i)).take 8)

/-- The record of a seal integrity failure (R340, R357). -/
def sealNote (s : State) (fn eid core pa key : Nat) : State := bookAppend s 8 fn eid core [word pa, word key]

/-- A seal integrity failure (R340): the record, and cause 51 in M mode. -/
def sealFail (s : State) (h pa key : Nat) (va : Word) : State :=
  takeTrap (sealNote s (s.hart h).fn (s.core (coreOf h)).kencl.toNat (coreOf h) pa key) h false 51 va

end Sys2Proof.Machine
end

