-- ==== Sys2Proof/Machine/Mem.lean ====
section
/-!
DEFINITION. Accesses of the harts: the clause flags at issue (R194, R195), watermark holds (R80, R81), the checks of all lanes
before any write (R45, R233), the L1 (R52 to R58), poison and seal failures (R70, R340), the scratchpad (R75 to R78).
-/
namespace Sys2Proof.Machine

/-! ### Clause flags -/

/-- An instruction that counts on a flag stalls where its counter holds 63 (R195). What it counts completes within its step, so
the counter stands as it was (log 2). -/
def countOn (write : Bool) : Exec Unit := fun s =>
  let c := s.me.clause
  let k := (if write then c.fb else c.fa).toNat
  if c.rem ≠ 0 ∧ k < 12 ∧ 63 ≤ s.me.getCf k then stallWith .stall s else .ok ((), s)

/-! ### Watermark holds (R80, R81) -/

/-- The first of n bytes at `va` at or above a channel's watermark, where the channel is armed or in error. -/
def wmHit (w : WmChan) (va n : Nat) : Option Nat :=
  let lo := w.base + w.wm
  if (w.st = 1 ∨ w.st = 3) ∧ w.wm < w.len ∧ va < w.base + w.len ∧ lo < va + n then some (max va lo) else none

/-- The accesses of an instruction against the watermark channels of its core: cause 49 where a channel in error holds one,
otherwise a stall where an armed channel holds one. -/
def wmHeld (s : State) (accs : List (Nat × Nat)) : Option (Option Nat) :=
  let ch := (s.myCore.wm).map (·.2)
  match accs.findSome? fun (va, n) => (ch.filter fun w => w.st == 3).findSome? fun w => wmHit w va n with
  | some v => some (some v)
  | none => if accs.any fun (va, n) => ch.any fun w => (wmHit w va n).isSome then some none else none

/-- The hold of R80 inside a meaning. -/
def wmCheck (accs : List (Nat × Nat)) : Exec Unit := fun s =>
  match wmHeld s accs with
  | some (some v) => trap 49 (word v) s
  | some none => stallWith .stall s
  | none => .ok ((), s)

/-! ### Segments and their checks -/

/-- A piece of an access within one line: the lane, the address as issued, the piece's address and length. -/
structure Seg where
  lane : Nat := 0
  va : Word := 0
  at_ : Word := 0
  n : Nat := 0
  deriving DecidableEq, Repr

/-- The pieces of n bytes at an address, cut at the 128-byte line. -/
def segsOf (lane : Nat) (va : Word) (n : Nat) : List Seg :=
  let o := va.toNat % 128
  if o + n ≤ 128 then [{ lane := lane, va := va, at_ := va, n := n }]
  else [{ lane := lane, va := va, at_ := va, n := 128 - o },
        { lane := lane, va := va, at_ := va + word (128 - o), n := o + n - 128 }]

/-- A piece with where it goes. -/
structure Placed where
  seg : Seg := {}
  ref : PRef := {}
  deriving DecidableEq, Repr

/-- Check the pieces in order; the first that fails decides. -/
def placeAll (w : Who) (u : Src) (a : Acc) (mxr setD : Bool) : List Seg → State → State × Except (VFault × Seg) (List Placed)
  | [], s => (s, .ok [])
  | g :: gs, s =>
    match translate s w u a mxr setD g.at_ g.n with
    | (s, .error f) => (s, .error (f, g))
    | (s, .ok r) =>
      match placeAll w u a mxr setD gs s with
      | (s, .error e) => (s, .error e)
      | (s, .ok ps) => (s, .ok ({ seg := g, ref := r } :: ps))

/-- A page in flight between biases holds the accesses of the device (R135). -/
def flipHeld (s : State) (pa : Nat) : Bool := s.funcs.any fun (_, f) => f.kbiasGo && fld f.kbiasRun 16 36 == pa / 2 ^ 16

/-- All pieces of an instruction of the current hart checked, D set where it writes (R45); a failure posts its report. -/
def placeMine (w : Who) (u : Src) (a : Acc) (code : Nat) (gs : List Seg) : Exec (List Placed) := fun s =>
  match placeAll w u a false false gs s with
  | (s, .error (f, g)) => failAccess f code u.tlb g.lane g.va s
  | (s, .ok ps) =>
    if ps.any fun p => flipHeld s p.ref.pa then stallWith .stall s
    else if a.writes then
      match placeAll w u a false true gs s with
      | (s, .error (f, g)) => failAccess f code u.tlb g.lane g.va s
      | (s, .ok ps) => .ok (ps, s)
    else .ok (ps, s)

/-! ### Lines in the L1 -/

/-- Enter a line in a core's L1: 256 sets of 12 ways, the victim of a full set by choice (log 14). -/
def l1Fill (s : State) (c : Nat) (x : CLine) : State :=
  let same := fun y : CLine => y.vline % 256 == x.vline % 256
  let l := (s.core c).l1
  if (l.filter same).length < 12 then s.modCore c fun k => { k with l1 := x :: l }
  else
    let (n, s) := choose s
    s.modCore c fun k => { k with l1 := x :: l.erase (nth x (l.filter same) (n % 12)) }

/-- The line of an address from the cluster, into which a miss brings it (R53). None where its integrity tag fails (R340). -/
def lineIn (s : State) (w : Who) (va : Word) (r : PRef) : State × Option CLine :=
  let vl := va.toNat / 128
  let l := r.pa / 128
  if !entryOk s w vl r.key l then (s, none)
  else (readIn s w vl l r.key r.cm, some { vline := vl, fn := w.tag, pl := l, key := r.key, bytes := seenLine s w vl r.key l, psn := seenPoison s w vl l })

/-- The line of an address for a lane load: from the L1, or from the cluster, allocated where `alloc` and the page's mode allow
(R53, R234). None where the line's integrity tag fails (R340). -/
def l1Line (s : State) (w : Who) (va : Word) (r : PRef) (alloc : Bool) : State × Option CLine :=
  match if r.cm = 2 then none else (s.core w.core).l1.find? fun y => y.vline == va.toNat / 128 && y.fn == w.tag with
  | some y => (s, some y)
  | none => match lineIn s w va r with
    | (s, none) => (s, none)
    | (s, some x) => (if alloc && r.cm == 0 then l1Fill s w.core x else s, some x)

/-- Remove the copies of some lines from a core's L1. -/
def l1Drop (s : State) (c : Nat) (tag : Nat) (vls : List Nat) : State :=
  s.modCore c fun k => { k with l1 := k.l1.filter fun y => !(y.fn == tag && vls.contains y.vline) }

/-- Invalidate a core's L1 (R58). -/
def l1Clear (s : State) (c : Nat) : State := s.modCore c fun k => { k with l1 := [] }

/-- An acquire by an agent of a core at a scope (R58, R132). -/
def coreAcquire (s : State) (c scope : Nat) : State :=
  let s := if scope ≥ 2 then l1Clear s c else s
  if scope = 5 then peerAcquire s c else s

/-- A release by an agent of a core at a scope (R132): what it covers is performed within its step (log 2), but for the peer-window lines that its cluster
holds dirty. -/
def coreRelease (s : State) (c scope : Nat) : State := if scope = 5 then peerRelease s c else s

/-- A fence of an agent of a core at a scope (R121, R132): a release and an acquire; one that leaves the lane set out leaves the L1 alone. -/
def coreFence (s : State) (c scope : Nat) (lane : Bool) : State :=
  let s := coreRelease s c scope
  if lane then coreAcquire s c scope else if scope = 5 then kFlush (fun y => isPeer y.pl) s (clusterOf c) else s

/-- An acquire by the current hart at a scope. -/
def acquire (s : State) (scope : Nat) : State := coreAcquire s (coreOf s.cur) scope

/-- A store to lines ends the reservations of the other harts on them (R112; log 15). -/
def breakResv (s : State) (h : Nat) (ls : List Nat) : State :=
  s.harts.foldl (fun (t : State) (p : Nat × Hart) =>
    match p.2.resv with
    | some l => if p.1 ≠ h ∧ ls.contains l then t.modHart p.1 fun x => { x with resv := none } else t
    | none => t) s

/-- A byte to store with the virtual address it was named by and its page's cache mode. -/
structure VCell where
  va : Nat := 0
  cm : Nat := 0
  cell : PCell
  deriving DecidableEq, Repr

/-- The line that a cell lies in: its name, its page's mode, and where it is. -/
def VCell.at_ (x : VCell) : Nat × Nat × Nat := (x.va / 128, x.cm, x.cell.pa / 128)

/-- The L1 copies of a core take the bytes stored (R57). -/
def l1Update (s : State) (c tag : Nat) (cs : List VCell) : State :=
  s.modCore c fun k => { k with l1 := k.l1.map fun y =>
    if y.fn = tag then
      let mine := cs.filter fun x => x.va / 128 == y.vline
      if mine.isEmpty then y
      else
        let whole := (List.range 128).all fun o => mine.any fun x => x.va % 128 == o
        { y with bytes := mine.foldl (fun (b : List Byte) (x : VCell) => b.set (x.va % 128) x.cell.val) y.bytes, psn := y.psn && !whole }
    else y }

/-- Some line that a store writes only in part has a failing tag: a partial write of a sealed line that is not in the cluster reads it first. -/
def sealBroken (s : State) (w : Who) (cs : List VCell) : Option VCell :=
  cs.find? fun x => x.cell.key != 0 && !entryOk s w (x.va / 128) x.cell.key (x.cell.pa / 128) &&
    !((List.range 128).all fun o => cs.any fun y => y.cell.pa == x.cell.pa / 128 * 128 + o)

/-- Store cells line by line, each in the cluster of its access or at its home; of two cells of one byte the later stands. -/
def putCells (s : State) (w : Who) (cs : List VCell) : State :=
  let cs := keepLast (fun x : VCell => x.cell.pa) cs
  ((cs.map VCell.at_).eraseDups).foldl (fun s l => storeLine s w l.1 l.2.1 ((cs.filter fun x => x.at_ == l).map (·.cell))) s

/-- Store cells as an agent of a core: memory, the core's L1 copies, reservations, all of the line's where an engine stores. -/
def storeCells (s : State) (w : Who) (cs : List VCell) : State :=
  let s := putCells s w cs
  breakResv (l1Update s w.core w.tag cs) (if w.engine then 8192 else w.hart) ((cs.map fun x => x.cell.pa / 128).eraseDups)

/-- The cells of a placed piece, with the data of the whole access. -/
def cellsFor (p : Placed) (data : List Byte) : List VCell :=
  let off := (p.seg.at_ - p.seg.va).toNat
  ((data.drop off).take p.seg.n).zipIdx.map fun (b, i) =>
    { va := p.seg.at_.toNat + i, cm := p.ref.cm, cell := { pa := p.ref.pa + i, key := p.ref.key, val := b } }

/-! ### Lines of placed pieces -/

/-- The lines of a piece: virtual and physical. -/
def Placed.lines (p : Placed) : List (Nat × Nat) :=
  (linesOf p.seg.at_.toNat p.seg.n).map fun vl => (vl, p.ref.pa / 128 + (vl - p.seg.at_.toNat / 128))

/-- The first line among placed pieces that may not enter the cluster: its piece, its address, its key id. -/
def tagBroken (s : State) (w : Who) (ps : List Placed) : Option (Seg × Nat × Nat) :=
  ps.findSome? fun p => (p.lines.find? fun l => !entryOk s w l.1 p.ref.key l.2).map fun l => (p.seg, 128 * l.2, p.ref.key)

/-- The bytes of placed pieces as the cluster of the access sees them. -/
def seenPieces (s : State) (w : Who) (ps : List Placed) : List Byte :=
  (ps.map fun p => ((p.lines.map fun l => seenLine s w l.1 p.ref.key l.2).flatten.drop (p.seg.at_.toNat % 128)).take p.seg.n).flatten

/-- Some line of placed pieces is poison. -/
def poisonIn (s : State) (w : Who) (ps : List Placed) : Bool := ps.any fun p => p.lines.any fun l => seenPoison s w l.1 l.2

/-- A read of placed pieces brings their lines into the cluster (R53). -/
def bringIn (s : State) (w : Who) (ps : List Placed) : State :=
  ps.foldl (fun s p => p.lines.foldl (fun s l => readIn s w l.1 l.2 p.ref.key p.ref.cm) s) s

/-- Where byte k of an access at `va` lies: physical address, key id, cache mode. -/
def placedAt (va : Word) (ps : List Placed) (k : Nat) : PRef :=
  let a := va + word k
  match ps.find? fun p => decide ((a - p.seg.at_).toNat < p.seg.n) with
  | some p => { p.ref with pa := p.ref.pa + (a - p.seg.at_).toNat }
  | none => {}

/-- A byte of an access at `va` as a cell to store. -/
def cellAt (va : Word) (ps : List Placed) (k : Nat) (b : Byte) : VCell :=
  let r := placedAt va ps k
  { va := (va + word k).toNat, cm := r.cm, cell := { pa := r.pa, key := r.key, val := b } }

/-! ### Lane accesses in the global space -/

/-- Read placed pieces through the L1, in order: per piece its lane and bytes, with the first poisoned or unsealable piece. -/
def readPieces (w : Who) (alloc : Bool) : List Placed → State → State × Except (Bool × Seg × PRef) (List (Nat × List Byte))
  | [], s => (s, .ok [])
  | p :: ps, s =>
    match l1Line s w p.seg.at_ p.ref alloc with
    | (s, none) => (s, .error (false, p.seg, p.ref))
    | (s, some x) =>
      if x.psn then (s, .error (true, p.seg, p.ref))
      else match readPieces w alloc ps s with
        | (s, .error e) => (s, .error e)
        | (s, .ok r) => (s, .ok ((p.seg.lane, (x.bytes.drop (p.seg.at_.toNat % 128)).take p.seg.n) :: r))

/-- End a read of the current hart at poison (cause 48) or at a seal integrity failure (cause 51). -/
def failRead {α : Type} (e : Bool × Seg × PRef) : Exec α := fun s =>
  if e.1 then trap 48 e.2.1.va s else .error (sealFail s s.cur e.2.2.pa e.2.2.key e.2.1.va)

/-- The bytes of lane l among pieces read. -/
def laneBytes (r : List (Nat × List Byte)) (l : Nat) : List Byte := ((r.filter fun x => x.1 == l).map (·.2)).flatten

/-- The current hart as the maker of a data access. -/
def whoX : Exec Who := rd fun s => whoOf s s.cur true

/-! ### The scratchpad (R75 to R78) -/

/-- The size of the grant that a hart sees: 0 for a hart of no class (R76), and on a core that runs another enclave than it did at
the grant (R334). -/
def scratchSize (s : State) : Nat :=
  let k := s.cls (classOf s s.cur)
  if k.eid = s.myCore.kencl.toNat then k.scrSize else 0

/-- Bounds, then alignment, of scratch accesses of n bytes (R76, R233). -/
def scratchCheck (accs : List (Nat × Word)) (n : Nat) (store : Bool) : Exec Unit := fun s =>
  let size := scratchSize s
  match accs.find? fun x => decide (size < x.2.toNat + n) with
  | some x => trap (if store then 7 else 5) x.2 s
  | none =>
    match accs.find? fun x => x.2.toNat % min n 4 != 0 with
    | some x => trap (if store then 6 else 4) x.2 s
    | none => .ok ((), s)

/-- The passes of R77. -/
def scratchPasses (accs : List (Nat × Word)) (n : Nat) (atomic : Bool) : Nat :=
  let groups := if n ≤ 4 then 1 else if n = 8 then 2 else 4
  ((List.range groups).map fun g =>
    let mine := accs.filter fun x => x.1 / (32 / groups) == g
    let words := (mine.map fun x => (List.range (max 1 (n / 4))).map fun i => x.2.toNat / 4 + i).flatten
    let words := if atomic then words else words.eraseDups
    (List.range 32).foldl (fun m k => max m (words.filter fun w => w % 32 == k).length) 0).foldl (· + ·) 0

/-- Count the passes of an instruction on `kscrpass` and counter 5 (R78, R156). -/
def takePasses (s : State) (accs : List (Nat × Word)) (n : Nat) (atomic : Bool) : State :=
  let p := scratchPasses accs n atomic
  bump (s.modMyCore fun c => { c with kscrpass := (c.kscrpass + p) % 2 ^ 48 }) (coreOf s.cur) 5 (p - 1)

/-- n bytes of the class's scratch. -/
def ClassRec.scratch (c : ClassRec) (off n : Nat) : List Byte := (List.range n).map fun i => c.scr.get 0 (off + i)

/-- Some word that an access touches is poison. -/
def ClassRec.scratchPsn (c : ClassRec) (off n : Nat) : Bool :=
  (List.range ((off % 4 + n + 3) / 4)).any fun i => c.scrPsn.get false (off / 4 + i)

/-- Store bytes in the class's scratch: (offset, byte), later ones over earlier; a word wholly written loses its poison (R71). -/
def ClassRec.putScratch (c : ClassRec) (bs : List (Nat × Byte)) : ClassRec :=
  let words := (bs.map fun x => x.1 / 4).eraseDups
  { c with
    scr := bs.foldl (fun (m : SMap Byte) (x : Nat × Byte) => m.set 0 x.1 x.2) c.scr
    scrPsn := words.foldl (fun (m : SMap Bool) (w : Nat) =>
      if (List.range 4).all fun i => bs.any fun x => x.1 == 4 * w + i then m.set false w false else m) c.scrPsn }

/-- The bytes of an access with their offsets. -/
def scratchCells (off : Nat) (bs : List Byte) : List (Nat × Byte) := bs.zipIdx.map fun (b, i) => (off + i, b)

end Sys2Proof.Machine
end

