-- ==== Sys2Proof/Machine/Sched.lean ====
section
/-!
DEFINITION. Which turn comes next (log 1), and what of R163 a hart's turn records in its slot.
-/
namespace Sys2Proof.Machine

/-- A hart could issue: it runs, is not halted, and is not blocked until an event ends its wait. -/
def canIssue (x : Hart) : Bool :=
  x.live && !x.halted && (match x.wait with
    | .fault _ _ _ | .talloc _ _ _ | .reserve _ _ _ | .iwr _ _ | .arming _ _ => false
    | _ => true)

/-- A slot is asked to switch in the following clock (R163). -/
def askSwitch (s : State) (c slot : Nat) : State :=
  s.modCore c fun x => x.modSlotSched slot fun y => { y with yield := true }

/-- The EID under which a hart was bound. -/
def boundEid (s : State) (h : Nat) : Option Nat :=
  match (s.hart h).bind with
  | .cls k => some (s.cls k).eid
  | .firing f => some f.eid
  | .none => none

/-- A hart that another enclave than the core's present one bound is held until its own EID runs again (R336; log 31). -/
def eidHeld (s : State) (h : Nat) : Bool :=
  (s.hart h).priv == .u && (boundEid s h).any fun e => e != (s.core (coreOf h)).kencl.toNat

/-- A hart may issue now. -/
def mayIssue (s : State) (h : Nat) : Bool := canIssue (s.hart h) && !eidHeld s h

/-- A turn of the hart does something: it may issue, or it takes a halt or an interrupt. -/
def wantsTurn (s : State) (h : Nat) : Bool :=
  mayIssue s h || ((s.hart h).live && !(s.hart h).halted && (((s.hart h).haltReq && (s.hart h).priv == .u) || (intrNow s h).isSome))

/-- The events of a core that what it holds makes possible. -/
def coreEvents (c : Nat) (x : Core) : List (Instr × EvArg) :=
  (if x.mx.isEmpty then [] else [(.tmmaComplete, { a := c })]) ++
  (if 4096 ≤ x.mxCount then [(.popQuiz, { a := c })] else []) ++
  (if x.kflush then [(.flushComplete, { a := c })] else []) ++
  (if x.sends.isEmpty then [] else (List.range x.sends.length).map fun i => (.messageArrival, { a := c, b := i })) ++
  (if x.fifo.isEmpty then [] else [(.copyRequestStart, { a := c })]) ++
  ((x.fifo.map fun r => [Instr.copyTileAllocation, .copyPieceCopy, .copyPieceFill, .copyPieceZero, .copyPieceGather, .copyPieceReduce, .cprdPerform,
    .copyCompletion, .stageBarrierDelivery].map fun i => (i, ({ a := c, b := r.1 } : EvArg))).flatten) ++
  ((x.bars.map fun b => [(Instr.barrierSweep, ({ a := c, b := b.1 } : EvArg)), (.barrierRelease, { a := c, b := b.1 })]).flatten) ++
  (if x.chans.any fun y => y.2.rcnt != 0 then [(.channelRefill, { a := c })] else []) ++
  (if x.chans.any fun y => y.2.en && !y.2.hw.isEmpty then [(.firingStart, { a := c })] else []) ++
  ((x.chans.filter fun y => !y.2.held.isEmpty).map fun y => (Instr.heldMessageReoffer, ({ a := c, b := y.1 } : EvArg)))

/-- The events of a cluster, likewise. -/
def clusterEvents (k : Nat) (x : Cluster) : List (Instr × EvArg) :=
  (if x.slabPhase = 1 ∨ !x.recalled.isEmpty then [(.slabDrainComplete, { a := k })] else []) ++ (if x.slabPhase = 2 then [(.slabClearComplete, { a := k })] else []) ++
  ((x.parts.filter fun p => !p.2.waiters.isEmpty).map fun p => [(Instr.tallocGrant, ({ a := k, b := p.1 } : EvArg)), (.starvationDetectorFire, { a := k, b := p.1 })]).flatten

/-- The events of a die, likewise. -/
def dieEvents (d : Nat) (x : Die) : List (Instr × EvArg) :=
  (if x.buf.isEmpty then [] else [(.faultBufferDelivery, { a := d }), (.heldReportPost, { a := d })]) ++
  (if x.transit.isEmpty then [] else [(.reduceContributionArrival, { a := d })]) ++
  (List.range x.comb.length).map fun i => (.combiningEntryTimeout, { a := d, b := i })

/-- The events of a hart's waits, likewise. -/
def hartEvents (h : Nat) (x : Hart) : List (Instr × EvArg) :=
  (x.held.map fun w => (Instr.iwrHeldWriteEntry, ({ a := h, b := w.reg } : EvArg))) ++
  (match x.wait with
    | .reserve _ _ _ => [(.tileReservationCommit, { a := h }), (.tileReservationRelease, { a := h })]
    | _ => [])

/-- The events of the device itself that what the state holds makes possible: those that no agent outside it starts (log 1). -/
def ownEvents (s : State) : List (Instr × EvArg) :=
  (s.cores.map fun x => coreEvents x.1 x.2).flatten ++ (s.clusters.map fun x => clusterEvents x.1 x.2).flatten ++
  (s.dies.map fun x => dieEvents x.1 x.2).flatten ++ (s.harts.map fun x => hartEvents x.1 x.2).flatten ++
  ((s.funcs.filter fun x => x.2.ktinvGo).map fun x => (Instr.invalidationComplete, ({ a := x.1 } : EvArg))) ++
  ((s.funcs.filter fun x => x.2.kbiasGo).map fun x => (Instr.biasFlipComplete, ({ a := x.1 } : EvArg))) ++
  ((s.funcs.map fun x => (x.2.rings.filter fun r => r.2.en && !r.2.rx && r.2.head != r.2.tail % (r.2.size + 1)).map fun r =>
    (Instr.ethTransmit, ({ a := x.1, b := r.1 } : EvArg))).flatten) ++
  ((s.hall.filter fun x => x.2.arming).map fun x => (Instr.hpassArmAck, ({ a := x.1 } : EvArg))) ++
  ((s.hall.filter fun x => x.2.st == 2).map fun x => (Instr.hpassTokenHop, ({ a := x.1 } : EvArg))) ++
  (if s.queues.any fun q => q.2.en then [(.launchSelection, ({} : EvArg))] else []) ++
  (if s.launches.any fun l => l.selected then [(.cohortBinding, ({} : EvArg))] else []) ++
  (s.launches.map fun l => (Instr.launchCompletion, ({ a := l.id } : EvArg))) ++
  (s.egress.map fun e => (Instr.egressTransaction, ({ a := e.die, b := e.cls } : EvArg))) ++
  (if s.egress.isEmpty then [] else [(.bucketRefill, ({} : EvArg))]) ++
  (if s.book.due || s.book.signReq then [(.signedHead, ({} : EvArg))] else []) ++
  ((s.mgmt.islands.filter fun x => x.2.stretch && decide (x.2.till ≤ s.clock)).map fun x => (Instr.droopStretchEnd, ({ a := x.1 } : EvArg)))

/-- A hart of the slot whose turn comes with an empty agenda: the slots take turns in order of number. -/
def nextHart (s : State) : Option Nat :=
  let hs := (s.harts.filter fun p => wantsTurn s p.1).map (·.1)
  (hs.find? fun h => decide (s.cur / 4 < h / 4)).orElse fun _ => hs.head?

/-- The next turn and the agenda after it: the head of the agenda; with an empty agenda the harts and the device's own events take turns, and
where there is neither a clock passes. -/
def pickTurn (s : State) : Turn × List Turn :=
  match s.agenda with
  | t :: r => (t, r)
  | [] =>
    let own := ownEvents s
    match (if s.clock % 2 = 1 ∨ own.isEmpty then nextHart s else none) with
    | some h => (.hart h, [])
    | none =>
      match own[s.clock / 2 % max 1 own.length]? with
      | some e => (.event e.1 e.2, [])
      | none => (.wait 1, [])

/-- A slot's record of who issues (R163): its current hart and the clocks that it has issued in a row; a hart that comes out of a wait begins
a new row. -/
def noteIssue (s : State) (h : Nat) : State :=
  s.modCore (coreOf h) fun c => c.modSlotSched (hartNo h / 4) fun x =>
    { cur := h % 4, run := if x.cur = h % 4 ∧ (s.hart h).wait = .ready then x.run + 1 else 1 }

/-- Some turn of the agenda is the cold reset. -/
def coldAhead (s : State) : Bool := s.agenda.any fun t => match t with
  | .event .coldReset _ => true
  | _ => false

/-- The next turn is the cold reset. -/
def coldNext (s : State) : Bool :=
  match s.agenda with
  | .event .coldReset _ :: _ => true
  | _ => false

/-- A device that start-up or the thermal trip has stopped stays as it is until a cold reset (R410, R414): turns before one that
the agenda holds change nothing, and with none ahead the device is stuck. In a clean-slate test mode (R361) the spec gives only
the cold reset. -/
def stopped (s : State) : Option (Host.Outcome State Fault Refusal) :=
  if coldNext s then none
  else if s.mgmt.fail ≠ 0 ∨ s.mgmt.railsCut then
    some (if coldAhead s then .next { s with clock := s.clock + 1, agenda := s.agenda.drop 1 } else .fault .heldUntilColdReset)
  else if s.mgmt.mode ≠ 0 then
    some (if coldAhead s then .next { s with clock := s.clock + 1, agenda := s.agenda.drop 1 } else .refused .slateMode)
  else none

/-- A halt that takes effect (R318), or an interrupt that the hart takes, its wait left (R47, R179, R313, R315). -/
def haltOrIntr (s : State) (h : Nat) : Option State :=
  let x := s.hart h
  if x.haltReq && x.priv == .u then some ((abandon s h).modHart h fun y => { y with halted := true, haltReq := false })
  else match intrNow s h with
    | some c => some (takeTrap (leaveWait s h) h true c 0)
    | none => none

end Sys2Proof.Machine
end

