-- ==== Sys2Proof/Machine/Control.lean ====
section
/-!
DEFINITION. Clauses and flag waits (R193 to R198), fences (R36, R59, R121), the hints and waits of the base (R163, R179), the
returns (R197, R313) and the events of traps, waits and slots.
-/
namespace Sys2Proof.Machine

/-- A fatal copy fault is met at a wait on its target (R46): cause 24 with DETAIL 3, or cause 51 after a seal failure (R340). The
record of the fault goes with the trap. -/
def meetFaults (targets : List Nat) : Exec Unit := fun s =>
  match s.me.faults.find? fun x => targets.contains x.target with
  | none => .ok ((), s)
  | some x =>
    let s := s.modMe fun h => { h with faults := h.faults.erase x }
    .error (if x.isSealed then takeTrap s s.cur false 51 x.va else fatalFault s s.cur x.va 3 0xFF)

/-- The flags named in a mask. -/
def flagsIn (m : BitVec 12) : List Nat := (List.range 12).filter fun k => m.getLsbD k

/-- Wait until the counter of every named flag is zero (R193, R198). -/
def waitFlags (m : BitVec 12) : Exec Unit := do
  meetFaults (flagsIn m)
  fun s => if (flagsIn m).any fun k => s.me.getCf k != 0 then stallWith .stall s else .ok ((), s)

/-- The clause header (R193): it waits, then the LEN + 1 instructions that follow count on flags A and B. -/
def execClause (flagB flagA : BitVec 4) (wait : BitVec 12) (len : BitVec 5) (s : State) : Host.Outcome State Fault Refusal :=
  outsideClause (finish (do
    waitFlags wait
    retireX
    onMe fun h => { h with clause := { rem := len.toNat + 1, fa := flagA, fb := flagB } })) s

/-- `waitf` (R198). -/
def execWaitf (mask : BitVec 12) (s : State) : Host.Outcome State Fault Refusal :=
  finish (do
    waitFlags mask
    retireX) s

/-- Some copy or `cprd` that the hart issued has not completed (R121, engine). -/
def copiesOpen (s : State) (h : Nat) : Bool :=
  (s.core (coreOf h)).fifo.any fun p => match p.2 with
    | some r => r.hart == h
    | none => false

/-- `kfence` (R121): with engine in K it waits for the hart's copies; with lane in K and scope cluster or wider it clears the L1. -/
def execKfence (sets : BitVec 4) (scope : BitVec 3) (s : State) : Host.Outcome State Fault Refusal :=
  finish (do
    (fun s => if sets.getLsbD 3 && copiesOpen s s.cur then stallWith .stall s else .ok ((), s) : Exec Unit)
    upd fun s => if sets = 0 then s else coreFence s (coreOf s.cur) scope.toNat (sets.getLsbD 1)
    retireX) s

/-- `fence`: a scope-5 fence on the scalar set (R121); one whose predecessor or successor set is empty orders nothing, a HINT (R177). -/
def execFence (_fm pred succ : BitVec 4) (_a _d : BitVec 5) (s : State) : Host.Outcome State Fault Refusal :=
  .next (retire (if pred = 0 ∨ succ = 0 then s else coreFence s (coreOf s.cur) 5 false))

/-- `fence.i`: the core's instruction cache is invalidated (R59). -/
def execFenceI (s : State) : Host.Outcome State Fault Refusal :=
  .next (retire (s.modMyCore fun c => { c with icache := [] }))

/-- `sfence.vma`: the core's PLB entries, or those that cover the address in rs1 (R36); illegal in U mode, and in S mode under
TVM. -/
def execSfenceVma (a _b : BitVec 5) (s : State) : Host.Outcome State Fault Refusal :=
  if s.me.priv = .u ∨ (s.me.priv = .s ∧ bitOf s.me.csr.mstatus 20) then illegalNow s
  else
    let va := s.me.getX a.toNat
    .next (retire (s.modMyCore fun c => { c with plb := if a = 0 then [] else c.plb.filter fun e =>
      !(if e.huge then e.vpn / 8192 == fld va 29 26 else e.vpn == fld va 16 39) }))

/-- `pause`: the slot switches in the following clock (R163). -/
def execPause (s : State) : Host.Outcome State Fault Refusal :=
  .next (askSwitch (retire s) (coreOf s.cur) (hartNo s.cur / 4))

/-- `kyield` (R309, R163). -/
def execKyield (s : State) : Host.Outcome State Fault Refusal :=
  .next (askSwitch (retire s) (coreOf s.cur) (hartNo s.cur / 4))

/-- The clock at which the hart's wait in `wfi` began. -/
def wfiSince (s : State) : Nat :=
  match s.me.wait with
  | .wfi n => n
  | _ => s.islandClock (coreOf s.cur)

/-- `wfi` (R179): illegal in S and U mode under TW and inside a clause (R196); it ends when an interrupt is pending, enabled or
not, and in U mode after 65,536 clocks of its island (R412). -/
def execWfi (s : State) : Host.Outcome State Fault Refusal :=
  outsideClause (fun s =>
    if s.me.priv ≠ .m ∧ bitOf s.me.csr.mstatus 21 then illegalNow s
    else if mipOf s s.cur ≠ 0 ∨ (s.me.priv = .u ∧ 65536 ≤ s.islandClock (coreOf s.cur) - wfiSince s) then .next (retire s)
    else .next (s.modMe fun h => { h with wait := .wfi (wfiSince s) })) s

/-- `sret` (R197, R313): illegal in U mode, in S mode under TSR, and inside a clause. -/
def execSret (s : State) : Host.Outcome State Fault Refusal :=
  outsideClause (fun s =>
    if s.me.priv = .u ∨ (s.me.priv = .s ∧ bitOf s.me.csr.mstatus 22) then illegalNow s
    else .next (s.modMe fun h => { h.counted.sret with wait := .ready })) s

/-- `mret` (R197, R313): illegal outside M mode and inside a clause. -/
def execMret (s : State) : Host.Outcome State Fault Refusal :=
  outsideClause (fun s =>
    if s.me.priv ≠ .m then illegalNow s
    else .next (s.modMe fun h => { h.counted.mret with wait := .ready })) s

/-- The synchronous causes that are ever raised (R177, R314): the architecture's, and the device's own. -/
def raisedCause (c : Nat) : Bool := c ≤ 9 || [12, 13, 15].contains c || (24 ≤ c && c ≤ 31) || (48 ≤ c && c ≤ 51)

/-- A hart runs and is not halted: a halted hart takes no interrupt (R318). -/
def takesTraps (s : State) (h : Nat) : Bool := (s.hart h).live && !(s.hart h).halted

/-- TRAP_ENTRY (R313): hart `a` takes the interrupt that it takes now, or, where there is none, a synchronous trap of cause `b`,
where that is one that is raised (R314), with xtval `w`. -/
def execTrapEntry (s : State) : Host.Outcome State Fault Refusal :=
  let h := s.ev.a
  if takesTraps s h then
    match intrNow s h with
    | some c => .next (takeTrap (leaveWait s h) h true c 0)
    | none => .next (if raisedCause s.ev.b then takeTrap (abandon s h) h false s.ev.b s.ev.w else s)
  else .next s

/-- WFI_TIMEOUT (R179): a U-mode `wfi` of hart `a` that has waited 65,536 clocks completes. -/
def execWfiTimeout (s : State) : Host.Outcome State Fault Refusal :=
  let h := s.ev.a
  match (s.hart h).wait with
  | .wfi n => .next (if (s.hart h).priv = .u ∧ 65536 ≤ s.islandClock (coreOf h) - n then s.modHart h Hart.done else s)
  | _ => .next s

/-- SLOT_SWITCH_LIMIT (R163): slot `b` of core `a`, whose current hart has issued in 256 clocks, switches at its next turn. -/
def execSlotSwitchLimit (s : State) : Host.Outcome State Fault Refusal :=
  .next (if 256 ≤ ((s.core s.ev.a).slotOf s.ev.b).run then askSwitch s s.ev.a s.ev.b else s)

/-- SUPERVISOR_TIMER_INTERRUPT (R178): STIP of hart `a` shows `time` ≥ `stimecmp`; a hart that can take it does. -/
def execSupervisorTimerInterrupt (s : State) : Host.Outcome State Fault Refusal :=
  let h := s.ev.a
  .next (if takesTraps s h && timerPending s h && intrNow s h == some 5 then takeTrap (leaveWait s h) h true 5 0 else s)

end Sys2Proof.Machine
end

