-- ==== Sys2Proof/Machine/Barrier.lean ====
section
/-!
DEFINITION. Named barriers, stage barriers and the roll call (R301 to R304, R307, R127, R157).
-/
namespace Sys2Proof.Machine

/-! ### Configuration words (R301) -/

def bRow0 (g : BitVec 18) : Nat := g.toNat % 8
def bCol0 (g : BitVec 18) : Nat := g.toNat / 8 % 8
def bRows (g : BitVec 18) : Nat := g.toNat / 64 % 8 + 1
def bCols (g : BitVec 18) : Nat := g.toNat / 512 % 8 + 1
def bCount (g : BitVec 18) : Nat := g.toNat / 4096 % 32
def bStage (g : BitVec 18) : Bool := g.getLsbD 17

/-- A row and a column of the mesh lie in the rectangle. -/
def bHas (g : BitVec 18) (row col : Nat) : Bool :=
  decide (bRow0 g ≤ row) && decide (row < bRow0 g + bRows g) && decide (bCol0 g ≤ col) && decide (col < bCol0 g + bCols g)

/-- A configuration word is legal on core c (R301). -/
def barCfgLegal (w : Word) (c : Nat) : Bool :=
  let g := w.extractLsb' 0 18
  fld w 18 46 == 0 && decide (bRow0 g + bRows g ≤ 8) && decide (bCol0 g + bCols g ≤ 8) && bHas g (rowOf c) (colOf c) &&
  decide (1 ≤ bCount g) && decide (bCount g ≤ 16) && (!bStage g || (bRows g == 1 && bCols g == 1))

/-- The scope of a barrier: the narrowest that holds its rectangle (R127). -/
def barScope (g : BitVec 18) : Nat :=
  if bRows g = 1 ∧ bCols g = 1 then 1
  else if bRow0 g / 2 = (bRow0 g + bRows g - 1) / 2 ∧ bCol0 g / 2 = (bCol0 g + bCols g - 1) / 2 then 2
  else 3

/-! ### Arrivals, deliveries, sweeps -/

def modBar (s : State) (c id : Nat) (f : Barrier → Barrier) : State := s.modCore c fun k => k.modBar id f

/-- The harts of a core that wait on a barrier. -/
def barWaiters (s : State) (c id : Nat) : List Nat :=
  ((List.range 16).map (· + 16 * c)).filter fun h => match (s.hart h).wait with
    | .bar i => i == id
    | .barTest i _ _ _ => i == id
    | _ => false

/-- The phase of a hart's pending arrival, where one is pending. -/
def Barrier.pending (b : Barrier) (h : Nat) : Option Nat :=
  let p := b.pend.get 0 (hartNo h)
  if p = 0 then none else some (p - 1)

/-- A hart's pending arrival waits for its release. -/
def Barrier.unreleased (b : Barrier) (h : Nat) : Bool :=
  match b.pending h with
  | some p => decide (b.phase ≤ p)
  | none => false

/-- A hart's pending arrival has been released. -/
def Barrier.released (b : Barrier) (h : Nat) : Bool :=
  match b.pending h with
  | some p => decide (p < b.phase)
  | none => false

/-- A stage barrier breaks: every hart that waits on it, its arrival not released, takes cause 30 (R304). -/
def breakBar (s : State) (c id : Nat) : State :=
  ((barWaiters s c id).filter fun h => !((s.core c).bar id).released h).foldl (fun s h => takeTrap s h false 30 (word id)) (modBar s c id fun b => { b with broken := true })

/-- A stage barrier with every arrival of its phase in is decided (R304): equal counts complete the phase, more bytes than were
announced break it. -/
def decideStage (s : State) (c id : Nat) : State :=
  let b := (s.core c).bar id
  match b.cfg with
  | none => s
  | some g =>
    if !bStage g || b.broken || b.swept || decide (b.arr0 < bCount g) then s
    else
      let a := b.ann.get 0 b.phase
      if a < b.delivered then breakBar s c id
      else if b.delivered = a then modBar s c id fun b => { b with swept := true, sum := b.sample0, delivered := 0 }
      else s

/-- Bytes delivered to a stage barrier count towards its unreleased phase, whose release they give a scope (R127, R128); delivered to
anything else they are discarded (R304). -/
def deliver (s : State) (c id n edge : Nat) : State :=
  match ((s.core c).bar id).cfg with
  | some g =>
    if bStage g && !((s.core c).bar id).broken then decideStage (modBar s c id fun b =>
      { b with delivered := b.delivered + n, edge0 := if b.swept then b.edge0 else max b.edge0 edge, edge1 := if b.swept then max b.edge1 edge else b.edge1 }) c id
    else s
  | none => s

/-- The counters of a core as a roll call samples them (R157). -/
def sampleOf (s : State) (c : Nat) : List Nat := (List.range 16).map fun i => (s.core c).kev.get 0 i

/-- Hart h makes an arrival in the earliest phase with room, with a roll call where it makes one (R302, R307). None while both phases
are full. -/
def arriveBar (s : State) (h id : Nat) (g : BitVec 18) (roll : Option RollCall) : Option State :=
  let c := coreOf h
  let b := (s.core c).bar id
  let n := bCount g
  let sample := sampleOf s c
  if b.arr0 < n then
    some (decideStage (modBar s c id fun b =>
      { b with arr0 := b.arr0 + 1, pend := b.pend.set 0 (hartNo h) (b.phase + 1), sample0 := if b.arr0 + 1 = n then sample else b.sample0
               roll0 := b.roll0 <|> roll }) c id)
  else if b.arr1 < n then
    some (modBar s c id fun b =>
      { b with arr1 := b.arr1 + 1, pend := b.pend.set 0 (hartNo h) (b.phase + 2), sample1 := if b.arr1 + 1 = n then sample else b.sample1
               roll1 := b.roll1 <|> roll })
  else none

/-! ### The forms -/

/-- The id is granted to the current hart's class (R301). -/
def barGranted (id : Nat) : Exec Unit := fun s => need (decide (id < (s.cls (classOf s s.cur)).nbar)) s

/-- The configuration of a barrier that a form may use: granted, configured, not broken (R301, R304). -/
def barUse (id : Nat) : Exec (BitVec 18) := do
  barGranted id
  let b ← rd fun s => s.myCore.bar id
  match b.cfg with
  | none => illegal
  | some g => if b.broken then trap 30 (word id) else pure g

/-- `bar.cfg` (R301). -/
def execBarCfg (id : BitVec 7) (a : BitVec 5) (s : State) : Host.Outcome State Fault Refusal :=
  finish (do
    let w := s.me.getX a.toNat
    let i := id.toNat
    need (barCfgLegal w (coreOf s.cur))
    barGranted i
    if !(s.myCore.bar i).broken && (barWaiters s (coreOf s.cur) i).any (· != s.cur) then stallWith .stall
    else
      upd fun s => modBar s (coreOf s.cur) i fun _ => { cfg := some (w.extractLsb' 0 18) }
      retireX) s

/-- The current hart waits in a form on the barrier whose arrival has been released: that form completes, whatever befalls the barrier. -/
def releasedWait (s : State) (id : Nat) : Bool :=
  (match s.me.wait with
    | .bar i => i == id
    | .barTest i _ _ _ => i == id
    | _ => false) && (s.myCore.bar id).released s.cur

/-- `barUse` for a form that waits for a pending arrival. -/
def barUseWait (id : Nat) : Exec (BitVec 18) := fun s =>
  match (s.myCore.bar id).cfg, releasedWait s id with
  | some g, true => .ok (g, s)
  | _, _ => barUse id s

/-- Make the arrival of a form, waiting while an earlier one is unreleased or both phases are full. The hart that arrives waits no more. -/
def barArrive (id : Nat) (g : BitVec 18) (roll : Option RollCall) : Exec Unit := fun s =>
  let b := s.myCore.bar id
  match b.pending s.cur with
  | some p => if b.phase ≤ p then stallWith (.bar id) s else go s
  | none => go s
where
  go : Exec Unit := fun s => match arriveBar (s.modMe fun h => { h with wait := .ready }) s.cur id g roll with
    | some t => .ok ((), t)
    | none => stallWith (.bar id) s

/-- Wait for the release of the pending arrival (R302), with the wait that the hart records meanwhile. -/
def barAwait (id : Nat) (g : BitVec 18) (w : Wait) : Exec Unit := fun s =>
  let b := s.myCore.bar id
  match b.pending s.cur with
  | none => .ok ((), s)
  | some p =>
    if b.phase ≤ p then stallWith w s
    else .ok ((), acquire (modBar s (coreOf s.cur) id fun b => { b with pend := b.pend.set 0 (hartNo s.cur) 0 }) (barScope g))

/-- `bar.arr` (R302). -/
def execBarArr (id : BitVec 7) (s : State) : Host.Outcome State Fault Refusal :=
  finish (do
    let g ← barUse id.toNat
    barArrive id.toNat g none
    retireX) s

/-- `bar.wait` (R302). -/
def execBarWait (id : BitVec 7) (s : State) : Host.Outcome State Fault Refusal :=
  finish (do
    let g ← barUseWait id.toNat
    meetFaults [16 + id.toNat]
    barAwait id.toNat g (.bar id.toNat)
    retireX) s

/-- `bar.sync` (R302). -/
def execBarSync (id : BitVec 7) (s : State) : Host.Outcome State Fault Refusal :=
  finish (do
    let i := id.toNat
    let g ← barUseWait i
    meetFaults [16 + i]
    let p ← rd fun s => (s.myCore.bar i).pending s.cur
    if p.isNone then barArrive i g none
    let b ← rd fun s => s.myCore.bar i
    if p.isNone && b.broken then trap 30 (word i)
    barAwait i g (.bar i)
    retireX) s

/-- `bar.tx` (R304). On a broken barrier cause 30 comes before the trap of an illegal value (log 73). -/
def execBarTx (id : BitVec 7) (a : BitVec 5) (s : State) : Host.Outcome State Fault Refusal :=
  finish (do
    let i := id.toNat
    let g ← barUse i
    let n := (s.me.getX a.toNat).toNat
    need (decide (1 ≤ n) && decide (n < 2 ^ 40))
    upd fun s => decideStage (modBar s (coreOf s.cur) i fun b =>
      let p := b.phase + b2n (decide (bCount g ≤ b.arr0)) + b2n (decide (bCount g ≤ b.arr1))
      { b with ann := b.ann.set 0 p (b.ann.get 0 p + n) }) (coreOf s.cur) i
    retireX) s

/-- The clock of its island (R412) at which the hart's `bar.test` of a barrier began. -/
def testSince (s : State) (id : Nat) : Nat :=
  match s.me.wait with
  | .barTest i n _ _ => if i = id then n else s.islandClock (coreOf s.cur)
  | _ => s.islandClock (coreOf s.cur)

/-- `bar.test` (R302). -/
def execBarTest (d : BitVec 5) (id : BitVec 7) (a : BitVec 5) (s : State) : Host.Outcome State Fault Refusal :=
  finish (do
    let i := id.toNat
    let g ← barUseWait i
    meetFaults [16 + i]
    let lim := (s.me.getX a.toNat).toNat
    let b := s.myCore.bar i
    let since := testSince s i
    if lim ≤ s.islandClock (coreOf s.cur) - since ∧ b.unreleased s.cur then
      onMe fun h => h.setX d.toNat 1
      retireX
    else
      barAwait i g (.barTest i since d.toNat lim)
      onMe fun h => h.setX d.toNat 0
      retireX) s

/-- BAR_TEST_TIMEOUT (R302): the `bar.test` of hart `a` has waited its clocks; the arrival stays pending. -/
def execBarTestTimeout (s : State) : Host.Outcome State Fault Refusal :=
  let h := s.ev.a
  match (s.hart h).wait with
  | .barTest id since d lim =>
    let b := (s.core (coreOf h)).bar id
    .next (if lim ≤ s.islandClock (coreOf h) - since ∧ b.unreleased h then s.modHart h fun x => (x.setX d 1).done else s)
  | _ => .next s

/-- The roll call that the current hart makes with a record address (R307). -/
def rollOf (s : State) (va : Word) : RollCall :=
  let h := s.me
  { hart := s.cur, va := va, priv := h.priv, bare := h.priv == .m || h.csr.satpMode == 0, kdom := h.k.kdom, fn := h.fn
    eid := (s.core (coreOf s.cur)).kencl.toNat, taint := taintOf s s.cur, pc := h.pc }

/-- `rollc` (R307): an arrival with a roll call. On a broken barrier cause 30 comes before the trap of a misaligned address (log 73). -/
def execRollc (id : BitVec 7) (a : BitVec 5) (s : State) : Host.Outcome State Fault Refusal :=
  finish (do
    let i := id.toNat
    let va := s.me.getX a.toNat
    let g ← barUse i
    need (va.toNat % 128 == 0)
    barArrive i g (some (rollOf s va))
    retireX) s

/-! ### Sweep and release (R303) -/

/-- The cores from which a core's sweep takes arrivals: its neighbour in the row, and in column COL0 its neighbour in the column. -/
def sweepFrom (g : BitVec 18) (c : Nat) : List Nat :=
  (if bHas g (rowOf c) (colOf c + 1) then [c + 1] else []) ++ (if colOf c = bCol0 g ∧ bHas g (rowOf c + 1) (colOf c) then [c + 8] else [])

/-- The core from which a core's release comes; none for the corner. -/
def releaseFrom (g : BitVec 18) (c : Nat) : Option Nat :=
  if bCol0 g < colOf c then some (c - 1) else if bRow0 g < rowOf c then some (c - 8) else none

/-- Two configurations name the same rectangle. -/
def sameRect (g : BitVec 18) (x : Option (BitVec 18)) : Bool :=
  match x with
  | some y => y.extractLsb' 0 12 == g.extractLsb' 0 12
  | none => false

/-- Sums of counters. -/
def addSums (a b : List Nat) : List Nat := (List.range 16).map fun i => nth 0 a i + nth 0 b i

/-- BARRIER_SWEEP (R303): the arrivals of core `a` at barrier `b` are all in, and so are those behind it in the rectangle. -/
def execBarrierSweep (s : State) : Host.Outcome State Fault Refusal :=
  let c := s.ev.a
  let id := s.ev.b
  let b := (s.core c).bar id
  match b.cfg with
  | none => .next s
  | some g =>
    let up := (sweepFrom g c).map fun n => (s.core n).bar id
    if bStage g || b.swept || decide (b.arr0 < bCount g) || !(up.all fun x => sameRect g x.cfg && x.swept && x.phase % 2 == b.phase % 2) then .next s
    else .next (modBar s c id fun b => { b with swept := true, sum := up.foldl (fun t x => addSums t x.sum) b.sample0 })

/-- The barrier of a core moves to its next phase. -/
def Barrier.release (b : Barrier) : Barrier :=
  { b with phase := b.phase + 1, arr0 := b.arr1, arr1 := 0, swept := false, sum := [], sample0 := b.sample1, sample1 := []
           roll0 := b.roll1, roll1 := none, ann := b.ann.set 0 b.phase 0, edge0 := b.edge1, edge1 := 0 }

/-- The phase of core c's barrier is released, with the acquire that its copies' bytes give the waiters (R127, R128). -/
def releaseBar (s : State) (c id : Nat) : State :=
  coreAcquire (decideStage (modBar s c id Barrier.release) c id) c ((s.core c).bar id).edge0

/-- The record of a roll call is written by the corner's engine (R307): the release with it and interrupt 20, or a fault report on
which it waits. -/
def writeRoll (s : State) (c id : Nat) (r : RollCall) (sum : List Nat) : State :=
  let w : Who := { hart := r.hart, core := c, priv := r.priv, kdom := r.kdom, fn := r.fn, eid := r.eid, taint := r.taint, bare := r.bare }
  match placeAll w .copy .wr false true (segsOf 0 r.va 128) s with
  | (s, .error (f, g)) =>
    if reportHeld s c 256 then s
    else
    let (s, i) := postReport s c 256 g.va (reportInfo f.kind 6 2 f.lvl c (hartNo r.hart) 0xFF f.dom) 0 0 r.pc
    modBar s c id fun b => { b with roll0 := some { r with fault := some i } }
  | (s, .ok ps) =>
    if ps.any fun p => flipHeld s p.ref.pa then s
    else
      let bs := (sum.map fun n => natToLe 8 n).flatten
      let s := storeCells s { w with engine := true } ((ps.map fun p => cellsFor p bs).flatten)
      raiseIntr (releaseBar s c id) r.hart 20

/-- BARRIER_RELEASE (R303, R307): the release reaches core `a` for barrier `b`; at the corner it follows the roll call's record. -/
def execBarrierRelease (s : State) : Host.Outcome State Fault Refusal :=
  let c := s.ev.a
  let id := s.ev.b
  let b := (s.core c).bar id
  match b.cfg with
  | none => .next s
  | some g =>
    if !b.swept then .next s
    else match releaseFrom g c with
      | some n =>
        let p := (s.core n).bar id
        .next (if sameRect g p.cfg && p.phase % 2 != b.phase % 2 then releaseBar s c id else s)
      | none =>
        match b.roll0 with
        | none => .next (releaseBar s c id)
        | some r => .next (if r.fault.isSome then s else writeRoll s c id r b.sum)

/-- The barrier of a core whose roll call waits on a fault id. -/
def faultRoll (s : State) (c id : Nat) : Option (Nat × RollCall) :=
  (s.core c).bars.findSome? fun p => match p.2.roll0 with
    | some r => if r.fault = some id then some (p.1, r) else none
    | none => none

/-- A fatal reply to the record's write: the record stays unwritten, the release goes on, and the hart meets the fault at its next
wait on the barrier (R307). -/
def failRoll (s : State) (c i : Nat) (r : RollCall) : State :=
  (modBar s c i fun b => { b with roll0 := none }).modHart r.hart fun h =>
    { h with faults := h.faults ++ [{ target := 16 + i, va := r.va }] }

end Sys2Proof.Machine
end

