-- ==== Sys2Proof/Decode.lean ====
section
/-!
DEFINITION. Decoding, total on any bits (R181): the three instruction lengths, the L64 format (R185 to R188), the S32 forms and
the clause header (R189 to R193), and the scalar base (R177). After it the encoder, written from the same tables.
-/
namespace Sys2Proof

/-- What a decoded instruction is: a row of the opcode table, or one of the base's other instructions. -/
inductive Decoded where
  | instr (i : Instr)
  | base (b : BaseInstr)
  deriving DecidableEq, Repr

/-- Why bits are no instruction. Each is an illegal-instruction trap (R181, R188, R189, R177). -/
inductive DecodeError where
  /-- A 16-bit encoding that the C extension reserves. -/
  | reservedC
  /-- A length that the T9 does not implement: 48 bits, or 80 and more (R181). -/
  | length
  /-- A 32-bit word that no implemented extension and no S32 form assigns. -/
  | unassigned
  /-- An L64 group or opcode that is not assigned (R188). -/
  | l64Opcode
  /-- A field of an assigned form holds a value that the form does not list (R188, R189). -/
  | field
  deriving DecidableEq, Repr

/-- Bits [hi:lo] of a 32-bit word, as a number. -/
def bits32 (w : BitVec 32) (hi lo : Nat) : Nat := w.toNat / 2 ^ lo % 2 ^ (hi + 1 - lo)

/-- Group 000, lane integer (R199). -/
def l64Int (op : Nat) (f : L64) : Option Instr :=
  match op with
  | 0x00 => some (.ladd f)
  | 0x01 => some (.lsub f)
  | 0x02 => some (.ladds f)
  | 0x03 => some (.lsubs f)
  | 0x04 => some (.lmul f)
  | 0x05 => some (.lmulh f)
  | 0x06 => some (.lmulhu f)
  | 0x07 => some (.lmadd f)
  | 0x08 => some (.ldiv f)
  | 0x09 => some (.ldivu f)
  | 0x0A => some (.lrem f)
  | 0x0B => some (.lremu f)
  | 0x0C => some (.land f)
  | 0x0D => some (.lor f)
  | 0x0E => some (.lxor f)
  | 0x0F => some (.landn f)
  | 0x10 => some (.lsll f)
  | 0x11 => some (.lsrl f)
  | 0x12 => some (.lsra f)
  | 0x13 => some (.lmin f)
  | 0x14 => some (.lmax f)
  | 0x15 => some (.lminu f)
  | 0x16 => some (.lmaxu f)
  | 0x17 => some (.labs f)
  | 0x18 => some (.lclz f)
  | 0x19 => some (.lcpop f)
  | 0x1A => some (.lbrev f)
  | 0x1B => some (.lbfx f)
  | 0x1C => some (.lbfi f)
  | 0x1D => some (.lsel f)
  | 0x1E => some (.lmov f)
  | 0x1F => some (.lli f)
  | 0x20 => some (.lbcast f)
  | 0x21 => some (.lext f)
  | 0x22 => some (.lidx f)
  | _ => none

/-- Group 001, lane floating point (R200). -/
def l64Fp (op : Nat) (f : L64) : Option Instr :=
  match op with
  | 0x00 => some (.lfadd f)
  | 0x01 => some (.lfsub f)
  | 0x02 => some (.lfmul f)
  | 0x03 => some (.lffma f)
  | 0x04 => some (.lffms f)
  | 0x05 => some (.lfnma f)
  | 0x06 => some (.lfmin f)
  | 0x07 => some (.lfmax f)
  | 0x08 => some (.lfdiv f)
  | 0x09 => some (.lfsqrt f)
  | 0x0A => some (.lfrcp f)
  | 0x0B => some (.lfrsq f)
  | 0x0C => some (.lfex2 f)
  | 0x0D => some (.lflg2 f)
  | 0x0E => some (.lfsin f)
  | 0x0F => some (.lfcos f)
  | 0x10 => some (.lfabs f)
  | 0x11 => some (.lfneg f)
  | 0x12 => some (.lfsgnj f)
  | 0x13 => some (.lfcvt f)
  | 0x14 => some (.lfclass f)
  | 0x15 => some (.lfround f)
  | _ => none

/-- Group 010, lane memory (R201). -/
def l64Mem (op : Nat) (f : L64) : Option Instr :=
  match op with
  | 0x00 => some (.lldB f)
  | 0x01 => some (.lldBu f)
  | 0x02 => some (.lldH f)
  | 0x03 => some (.lldHu f)
  | 0x04 => some (.lldW f)
  | 0x05 => some (.lldD f)
  | 0x06 => some (.lldQ f)
  | 0x08 => some (.lstB f)
  | 0x09 => some (.lstH f)
  | 0x0A => some (.lstW f)
  | 0x0B => some (.lstD f)
  | 0x0C => some (.lstQ f)
  | 0x10 => some (.lamoAddW f)
  | 0x11 => some (.lamoAndW f)
  | 0x12 => some (.lamoOrW f)
  | 0x13 => some (.lamoXorW f)
  | 0x14 => some (.lamoMinW f)
  | 0x15 => some (.lamoMaxW f)
  | 0x16 => some (.lamoMinuW f)
  | 0x17 => some (.lamoMaxuW f)
  | 0x18 => some (.lamoSwapW f)
  | 0x19 => some (.lcasW f)
  | 0x20 => some (.lamoAddD f)
  | 0x21 => some (.lamoAndD f)
  | 0x22 => some (.lamoOrD f)
  | 0x23 => some (.lamoXorD f)
  | 0x24 => some (.lamoMinD f)
  | 0x25 => some (.lamoMaxD f)
  | 0x26 => some (.lamoMinuD f)
  | 0x27 => some (.lamoMaxuD f)
  | 0x28 => some (.lamoSwapD f)
  | 0x29 => some (.lcasD f)
  | 0x30 => some (.lfamoAddS f)
  | 0x31 => some (.lfamoMinS f)
  | 0x32 => some (.lfamoMaxS f)
  | 0x38 => some (.lprf f)
  | 0x39 => some (.lzero f)
  | _ => none

/-- Group 011, compare and cross-lane (R202). -/
def l64Cross (op : Nat) (f : L64) : Option Instr :=
  match op with
  | 0x00 => some (.lcmpEq f)
  | 0x01 => some (.lcmpNe f)
  | 0x02 => some (.lcmpLt f)
  | 0x03 => some (.lcmpGe f)
  | 0x04 => some (.lcmpLtu f)
  | 0x05 => some (.lcmpGeu f)
  | 0x08 => some (.lfcmpEq f)
  | 0x09 => some (.lfcmpLt f)
  | 0x0A => some (.lfcmpLe f)
  | 0x0B => some (.lfcmpUn f)
  | 0x10 => some (.lshflIdx f)
  | 0x11 => some (.lshflUp f)
  | 0x12 => some (.lshflDn f)
  | 0x13 => some (.lshflXor f)
  | 0x18 => some (.lredAdd f)
  | 0x19 => some (.lredMin f)
  | 0x1A => some (.lredMax f)
  | 0x1B => some (.lredAnd f)
  | 0x1C => some (.lredOr f)
  | 0x1D => some (.lredXor f)
  | 0x1E => some (.lredFadd f)
  | 0x1F => some (.lredFmin f)
  | 0x20 => some (.lredFmax f)
  | 0x28 => some (.lscanAdd f)
  | 0x29 => some (.lscanFadd f)
  | 0x30 => some (.lcomp f)
  | _ => none

/-- Group 100, tile (R203); forms that share an opcode are told apart by the field R244 gives them. -/
def l64Tile (op : Nat) (f : L64) : Option Instr :=
  match op with
  | 0x00 => some (if f.ib = 0 then .tallocReg f else .tallocImm f)
  | 0x01 => some (if f.ib = 0 then .tallocNbReg f else .tallocNbImm f)
  | 0x02 => some (if f.ty = 0 then .thdr f else .thdrM f)
  | 0x03 => some (.tst f)
  | 0x04 => some (.tseal f)
  | 0x05 => some (.tdrop f)
  | 0x06 => some (if f.ty = 0 then .tld f else .tldM f)
  | 0x07 => some (.tpeek f)
  | 0x08 => some (.tskip f)
  | 0x09 => some (.tgive f)
  | 0x0A => some (.tcnt f)
  | 0x0B => some (if f.ty = 0 then .tinfo f else .tinfoT f)
  | 0x0C => some (.tldl f)
  | 0x0D => some (.tmma f)
  | 0x0E => some (if f.ty = 0 then .tzero f else .tzeroM f)
  | 0x0F => some (if f.ty = 0 then .taccLd f else .taccLdM f)
  | 0x10 => some (if f.ty = 0 then .taccSt f else .taccStM f)
  | 0x11 => some (.taccLrd f)
  | 0x12 => some (.taccLwr f)
  | 0x13 => some (if f.ty = 0 then .tcvt f else .tcvtM f)
  | 0x14 => some (if f.imm15.getLsbD 3 then .tquizClear f else if f.imm15.getLsbD 2 then .tquizRun f else .tquizNone f)
  | _ => none

/-- The instruction that a group and an opcode name (R185). -/
def l64Instr (grp op : Nat) (f : L64) : Option Instr :=
  match grp with
  | 0 => l64Int op f
  | 1 => l64Fp op f
  | 2 => l64Mem op f
  | 3 => l64Cross op f
  | 4 => l64Tile op f
  | _ => none

/-- The group, opcode and operand fields of an L64 instruction (R199 to R203); none for the others. -/
def l64Fields (i : Instr) : Option (BitVec 3 × BitVec 8 × L64) :=
  match i with
  | .ladd f => some (0, 0x00, f)
  | .lsub f => some (0, 0x01, f)
  | .ladds f => some (0, 0x02, f)
  | .lsubs f => some (0, 0x03, f)
  | .lmul f => some (0, 0x04, f)
  | .lmulh f => some (0, 0x05, f)
  | .lmulhu f => some (0, 0x06, f)
  | .lmadd f => some (0, 0x07, f)
  | .ldiv f => some (0, 0x08, f)
  | .ldivu f => some (0, 0x09, f)
  | .lrem f => some (0, 0x0A, f)
  | .lremu f => some (0, 0x0B, f)
  | .land f => some (0, 0x0C, f)
  | .lor f => some (0, 0x0D, f)
  | .lxor f => some (0, 0x0E, f)
  | .landn f => some (0, 0x0F, f)
  | .lsll f => some (0, 0x10, f)
  | .lsrl f => some (0, 0x11, f)
  | .lsra f => some (0, 0x12, f)
  | .lmin f => some (0, 0x13, f)
  | .lmax f => some (0, 0x14, f)
  | .lminu f => some (0, 0x15, f)
  | .lmaxu f => some (0, 0x16, f)
  | .labs f => some (0, 0x17, f)
  | .lclz f => some (0, 0x18, f)
  | .lcpop f => some (0, 0x19, f)
  | .lbrev f => some (0, 0x1A, f)
  | .lbfx f => some (0, 0x1B, f)
  | .lbfi f => some (0, 0x1C, f)
  | .lsel f => some (0, 0x1D, f)
  | .lmov f => some (0, 0x1E, f)
  | .lli f => some (0, 0x1F, f)
  | .lbcast f => some (0, 0x20, f)
  | .lext f => some (0, 0x21, f)
  | .lidx f => some (0, 0x22, f)
  | .lfadd f => some (1, 0x00, f)
  | .lfsub f => some (1, 0x01, f)
  | .lfmul f => some (1, 0x02, f)
  | .lffma f => some (1, 0x03, f)
  | .lffms f => some (1, 0x04, f)
  | .lfnma f => some (1, 0x05, f)
  | .lfmin f => some (1, 0x06, f)
  | .lfmax f => some (1, 0x07, f)
  | .lfdiv f => some (1, 0x08, f)
  | .lfsqrt f => some (1, 0x09, f)
  | .lfrcp f => some (1, 0x0A, f)
  | .lfrsq f => some (1, 0x0B, f)
  | .lfex2 f => some (1, 0x0C, f)
  | .lflg2 f => some (1, 0x0D, f)
  | .lfsin f => some (1, 0x0E, f)
  | .lfcos f => some (1, 0x0F, f)
  | .lfabs f => some (1, 0x10, f)
  | .lfneg f => some (1, 0x11, f)
  | .lfsgnj f => some (1, 0x12, f)
  | .lfcvt f => some (1, 0x13, f)
  | .lfclass f => some (1, 0x14, f)
  | .lfround f => some (1, 0x15, f)
  | .lldB f => some (2, 0x00, f)
  | .lldBu f => some (2, 0x01, f)
  | .lldH f => some (2, 0x02, f)
  | .lldHu f => some (2, 0x03, f)
  | .lldW f => some (2, 0x04, f)
  | .lldD f => some (2, 0x05, f)
  | .lldQ f => some (2, 0x06, f)
  | .lstB f => some (2, 0x08, f)
  | .lstH f => some (2, 0x09, f)
  | .lstW f => some (2, 0x0A, f)
  | .lstD f => some (2, 0x0B, f)
  | .lstQ f => some (2, 0x0C, f)
  | .lamoAddW f => some (2, 0x10, f)
  | .lamoAndW f => some (2, 0x11, f)
  | .lamoOrW f => some (2, 0x12, f)
  | .lamoXorW f => some (2, 0x13, f)
  | .lamoMinW f => some (2, 0x14, f)
  | .lamoMaxW f => some (2, 0x15, f)
  | .lamoMinuW f => some (2, 0x16, f)
  | .lamoMaxuW f => some (2, 0x17, f)
  | .lamoSwapW f => some (2, 0x18, f)
  | .lcasW f => some (2, 0x19, f)
  | .lamoAddD f => some (2, 0x20, f)
  | .lamoAndD f => some (2, 0x21, f)
  | .lamoOrD f => some (2, 0x22, f)
  | .lamoXorD f => some (2, 0x23, f)
  | .lamoMinD f => some (2, 0x24, f)
  | .lamoMaxD f => some (2, 0x25, f)
  | .lamoMinuD f => some (2, 0x26, f)
  | .lamoMaxuD f => some (2, 0x27, f)
  | .lamoSwapD f => some (2, 0x28, f)
  | .lcasD f => some (2, 0x29, f)
  | .lfamoAddS f => some (2, 0x30, f)
  | .lfamoMinS f => some (2, 0x31, f)
  | .lfamoMaxS f => some (2, 0x32, f)
  | .lprf f => some (2, 0x38, f)
  | .lzero f => some (2, 0x39, f)
  | .lcmpEq f => some (3, 0x00, f)
  | .lcmpNe f => some (3, 0x01, f)
  | .lcmpLt f => some (3, 0x02, f)
  | .lcmpGe f => some (3, 0x03, f)
  | .lcmpLtu f => some (3, 0x04, f)
  | .lcmpGeu f => some (3, 0x05, f)
  | .lfcmpEq f => some (3, 0x08, f)
  | .lfcmpLt f => some (3, 0x09, f)
  | .lfcmpLe f => some (3, 0x0A, f)
  | .lfcmpUn f => some (3, 0x0B, f)
  | .lshflIdx f => some (3, 0x10, f)
  | .lshflUp f => some (3, 0x11, f)
  | .lshflDn f => some (3, 0x12, f)
  | .lshflXor f => some (3, 0x13, f)
  | .lredAdd f => some (3, 0x18, f)
  | .lredMin f => some (3, 0x19, f)
  | .lredMax f => some (3, 0x1A, f)
  | .lredAnd f => some (3, 0x1B, f)
  | .lredOr f => some (3, 0x1C, f)
  | .lredXor f => some (3, 0x1D, f)
  | .lredFadd f => some (3, 0x1E, f)
  | .lredFmin f => some (3, 0x1F, f)
  | .lredFmax f => some (3, 0x20, f)
  | .lscanAdd f => some (3, 0x28, f)
  | .lscanFadd f => some (3, 0x29, f)
  | .lcomp f => some (3, 0x30, f)
  | .tallocReg f => some (4, 0x00, f)
  | .tallocImm f => some (4, 0x00, f)
  | .tallocNbReg f => some (4, 0x01, f)
  | .tallocNbImm f => some (4, 0x01, f)
  | .thdr f => some (4, 0x02, f)
  | .thdrM f => some (4, 0x02, f)
  | .tst f => some (4, 0x03, f)
  | .tseal f => some (4, 0x04, f)
  | .tdrop f => some (4, 0x05, f)
  | .tld f => some (4, 0x06, f)
  | .tldM f => some (4, 0x06, f)
  | .tpeek f => some (4, 0x07, f)
  | .tskip f => some (4, 0x08, f)
  | .tgive f => some (4, 0x09, f)
  | .tcnt f => some (4, 0x0A, f)
  | .tinfo f => some (4, 0x0B, f)
  | .tinfoT f => some (4, 0x0B, f)
  | .tldl f => some (4, 0x0C, f)
  | .tmma f => some (4, 0x0D, f)
  | .tzero f => some (4, 0x0E, f)
  | .tzeroM f => some (4, 0x0E, f)
  | .taccLd f => some (4, 0x0F, f)
  | .taccLdM f => some (4, 0x0F, f)
  | .taccSt f => some (4, 0x10, f)
  | .taccStM f => some (4, 0x10, f)
  | .taccLrd f => some (4, 0x11, f)
  | .taccLwr f => some (4, 0x12, f)
  | .tcvt f => some (4, 0x13, f)
  | .tcvtM f => some (4, 0x13, f)
  | .tquizNone f => some (4, 0x14, f)
  | .tquizRun f => some (4, 0x14, f)
  | .tquizClear f => some (4, 0x14, f)
  | _ => none

/-- The operand fields of a 64-bit word (R185). -/
def l64Of (w : BitVec 64) : L64 :=
  { imm15 := w.extractLsb' 49 15, ib := w.extractLsb' 48 1, md := w.extractLsb' 45 3, ty := w.extractLsb' 42 3
    pn := w.extractLsb' 33 1, pm := w.extractLsb' 30 3, c := w.extractLsb' 25 5, b := w.extractLsb' 20 5
    a := w.extractLsb' 15 5, d := w.extractLsb' 7 5 }

/-- Decode a 64-bit instruction whose length field is 0111111 (R185, R188). -/
def decodeL64 (w : BitVec 64) : Except DecodeError Decoded :=
  match l64Instr (w.extractLsb' 12 3).toNat (w.extractLsb' 34 8).toNat (l64Of w) with
  | none => .error .l64Opcode
  | some i => if i.wf then .ok (.instr i) else .error .field

/-- A table row, where its fields are legal. -/
def checked (i : Instr) : Except DecodeError Decoded := if i.wf then .ok (.instr i) else .error .field

/-- A row whose unused fields must be 0. -/
def checkedIf (unusedZero : Bool) (i : Instr) : Except DecodeError Decoded := if unusedZero then checked i else .error .field

/-- custom-0, f3 = 000: the mask forms by f7 (R190). -/
def decodeMask (f7 : Nat) (d a b : BitVec 5) : Except DecodeError Decoded :=
  match f7 with
  | 0x00 => checked (.mand d a b)
  | 0x01 => checked (.mor d a b)
  | 0x02 => checked (.mxor d a b)
  | 0x03 => checked (.mandn d a b)
  | 0x04 => checkedIf (b == 0) (.mnot d a)
  | 0x05 => checkedIf (b == 0) (.mmov d a)
  | 0x06 => checkedIf (b == 0) (.mset d a)
  | 0x07 => checkedIf (b == 0) (.mget d a)
  | 0x08 => checkedIf (b == 0) (.mcnt d a)
  | 0x09 => checkedIf (b == 0) (.mffs d a)
  | 0x0A => checkedIf (b == 0 && d == 0) (.mpush a)
  | 0x0B => checkedIf (b == 0 && d == 0 && a == 0) .minv
  | 0x0C => checkedIf (b == 0 && d == 0 && a == 0) .mpop
  | _ => .error .unassigned

/-- The immediate of an S32-branch without its low zero: bits [12:1] of the offset, laid out as a RISC-V branch (R189). -/
def branchOff (w : BitVec 32) : BitVec 12 :=
  w.extractLsb' 31 1 ++ w.extractLsb' 7 1 ++ w.extractLsb' 25 6 ++ w.extractLsb' 8 4

/-- custom-0 (R190). -/
def decodeCustom0 (w : BitVec 32) (f3 f7 : Nat) (d a b : BitVec 5) : Except DecodeError Decoded :=
  match f3 with
  | 0 => decodeMask f7 d a b
  | 1 => checkedIf (a == 0 && decide (b.toNat < 8)) (.mbz (w.extractLsb' 20 3) (branchOff w))
  | 2 => checkedIf (a == 0 && decide (b.toNat < 8)) (.mbnz (w.extractLsb' 20 3) (branchOff w))
  | _ => .error .unassigned

/-- custom-1 (R191). -/
def decodeCustom1 (w : BitVec 32) (f3 f7 : Nat) (d a b : BitVec 5) : Except DecodeError Decoded :=
  let imm : BitVec 12 := w.extractLsb' 20 12
  let id : BitVec 7 := w.extractLsb' 20 7
  let sub := (w.extractLsb' 27 5).toNat
  match f3 with
  | 0 => match f7 with
    | 0x00 => checkedIf (b == 0) (.bbrd d a)
    | 0x01 => checkedIf (b == 0) (.bbwr d a)
    | 0x02 => checkedIf (b == 0) (.imv d a)
    | 0x03 => checked (.iwr d a b)
    | 0x04 => checkedIf (d == 0 && a == 0 && b == 0) .hdone
    | 0x05 => checkedIf (d == 0 && a == 0 && b == 0) .kyield
    | _ => .error .unassigned
  | 1 => checkedIf (d == 0 && a == 0) (.waitf imm)
  | 2 => match sub with
    | 0 => checkedIf (d == 0) (.barCfg id a)
    | 1 => checkedIf (d == 0 && a == 0) (.barArr id)
    | 2 => checkedIf (d == 0 && a == 0) (.barWait id)
    | 3 => checkedIf (d == 0 && a == 0) (.barSync id)
    | 4 => checkedIf (d == 0) (.barTx id a)
    | 5 => checked (.barTest d id a)
    | _ => .error .unassigned
  | 3 => checkedIf (sub == 0 && d == 0 && a == 0) (.kfence (w.extractLsb' 23 4) (w.extractLsb' 20 3))
  | 4 => checkedIf (sub == 0 && d == 0) (.rollc id a)
  | 5 => match f7 with
    | 0x00 => checkedIf (d == 0 && a == 0 && b == 0) .kscrub
    | 0x01 => checkedIf (d == 0 && b == 0) (.kctxSv a)
    | 0x02 => checkedIf (d == 0 && b == 0) (.kctxLd a)
    | _ => .error .unassigned
  | _ => .error .unassigned

/-- custom-2 (R192). The five `hpass` rows share one encoding; the operation is in a register (log 8). -/
def decodeCustom2 (f3 f7 : Nat) (d a b : BitVec 5) : Except DecodeError Decoded :=
  match f3, f7 with
  | 0, 0x00 => checkedIf (d == 0 && b == 0) (.msend a)
  | 0, 0x01 => checkedIf (d == 0) (.msendL a b)
  | 0, 0x02 => checkedIf (d == 0 && a == 0 && b == 0) .mnext
  | 0, 0x03 => checkedIf (d == 0) (.qpush a b)
  | 0, 0x04 => checkedIf (b == 0) (.qpop d a)
  | 0, 0x05 => checkedIf (b == 0) (.hpassArm d a)
  | 0, 0x06 => checkedIf (d == 0 && b == 0) (.cprd a)
  | 0, 0x07 => checkedIf (d == 0 && b == 0) (.cpq a)
  | 0, 0x08 => checkedIf (b == 0) (.cpqNb d a)
  | 0, 0x09 => checked (.cpwm d a b)
  | 0, 0x0A => checkedIf (a == 0 && b == 0) (.cpcls d)
  | 0, 0x0B => checkedIf (b == 0) (.launch d a)
  | _, _ => .error .unassigned

/-- The row that a CSR instruction with this CSR number is; rows that share a register are one word (log 8). -/
def csrRow (num : BitVec 12) (o : CsrOp) : Instr :=
  match num.toNat with
  | 0x5C0 => .kdomWrite o
  | 0x5C2 => .ktinvGo o
  | 0x5C4 => .krootWrite o
  | 0x5C8 => .kslabGo o
  | 0x5CB => .kpartWrite o
  | 0x5CC => .kpownWrite o
  | 0x5CD => .kpoolevRead o
  | 0x5CE => .kbiasGo o
  | 0x5D0 => .kflagclrWrite o
  | 0x5D3 => .khctlWrite o
  | 0x5D4 => .kchqDepthWrite o
  | 0x5D5 => .kchringWrite o
  | 0x5D7 => .kqctlWrite o
  | 0x9C1 => .ksibctlHalt o
  | 0x9C2 => .ksibdataWrite o
  | 0x9C8 => .kpreDone o
  | 0x9C9 => .kcsaveSave o
  | 0x9E2 => .ktqctlTailWrite o
  | 0x9E8 => .ktkillGo o
  | 0x7C1 => .kflushGo o
  | 0x7C5 => .kkctlQuery o
  | 0x7D1 => .khmctlWrite o
  | 0x7D2 => .khmdomWrite o
  | 0x7D3 => .khmrateWrite o
  | n => if 0x3A0 ≤ n ∧ n ≤ 0x3EF then .pmpWrite num o else .registerWrite (.csr num o)

/-- SYSTEM: the Zicsr instructions, `ecall`, `ebreak`, the returns, `wfi`, `sfence.vma` (R177). -/
def decodeSystem (w : BitVec 32) (f3 f7 : Nat) (d a b : BitVec 5) : Except DecodeError Decoded :=
  let csr := fun k imm => checked (csrRow (w.extractLsb' 20 12) { kind := k, imm := imm, src := a, rd := d })
  match f3 with
  | 0 =>
    if w = 0x00000073 then .ok (.base .ecall)
    else if w = 0x00100073 then .ok (.base .ebreak)
    else if w = 0x10200073 then checked .sret
    else if w = 0x30200073 then checked .mret
    else if w = 0x10500073 then checked .wfi
    else if f7 = 0x09 ∧ d = 0 then checked (.sfenceVma a b)
    else .error .unassigned
  | 1 => csr .rw false
  | 2 => csr .rs false
  | 3 => csr .rc false
  | 5 => csr .rw true
  | 6 => csr .rs true
  | 7 => csr .rc true
  | _ => .error .unassigned

/-- MISC-MEM: `fence` with `pause` among its words, `fence.i`. -/
def decodeMiscMem (w : BitVec 32) (f3 : Nat) (d a : BitVec 5) : Except DecodeError Decoded :=
  match f3 with
  | 0 => if w = 0x0100000F then checked .pause
         else checked (.fence (w.extractLsb' 28 4) (w.extractLsb' 24 4) (w.extractLsb' 20 4) a d)
  | 1 => checked .fenceI
  | _ => .error .unassigned

/-- LOAD and LOAD-FP. -/
def decodeLoad (fp : Bool) (f3 : Nat) (d a : BitVec 5) (imm : BitVec 12) : Except DecodeError Decoded :=
  let mk := fun k => checked (.scalarLoad { kind := k, rd := d, rs1 := a, imm := imm })
  match fp, f3 with
  | false, 0 => mk .lb
  | false, 1 => mk .lh
  | false, 2 => mk .lw
  | false, 3 => mk .ld
  | false, 4 => mk .lbu
  | false, 5 => mk .lhu
  | false, 6 => mk .lwu
  | true, 2 => mk .flw
  | true, 3 => mk .fld
  | _, _ => .error .unassigned

/-- STORE and STORE-FP. -/
def decodeStore (fp : Bool) (f3 : Nat) (a b : BitVec 5) (imm : BitVec 12) : Except DecodeError Decoded :=
  let mk := fun k => checked (.scalarStore { kind := k, rs2 := b, rs1 := a, imm := imm })
  match fp, f3 with
  | false, 0 => mk .sb
  | false, 1 => mk .sh
  | false, 2 => mk .sw
  | false, 3 => mk .sd
  | true, 2 => mk .fsw
  | true, 3 => mk .fsd
  | _, _ => .error .unassigned

/-- The A extension's operation by funct5. -/
def amoKind (f5 : Nat) : Option AmoKind :=
  match f5 with
  | 0x02 => some .lr
  | 0x03 => some .sc
  | 0x01 => some .swap
  | 0x00 => some .add
  | 0x04 => some .xor
  | 0x0C => some .and
  | 0x08 => some .or
  | 0x10 => some .min
  | 0x14 => some .max
  | 0x18 => some .minu
  | 0x1C => some .maxu
  | _ => none

/-- AMO. -/
def decodeAmo (w : BitVec 32) (f3 : Nat) (d a b : BitVec 5) : Except DecodeError Decoded :=
  match amoKind (bits32 w 31 27) with
  | none => .error .unassigned
  | some k =>
    if (f3 = 2 ∨ f3 = 3) ∧ (k = .lr → b = 0) then
      checked (.scalarAtomic { kind := k, dbl := f3 == 3, aq := w.getLsbD 26, rl := w.getLsbD 25, rs2 := b, rs1 := a, rd := d })
    else .error .unassigned

/-- OP: the register forms on doublewords. -/
def aluOp (f7 f3 : Nat) : Option AluKind :=
  match f7, f3 with
  | 0x00, 0 => some .add
  | 0x00, 1 => some .sll
  | 0x00, 2 => some .slt
  | 0x00, 3 => some .sltu
  | 0x00, 4 => some .xor
  | 0x00, 5 => some .srl
  | 0x00, 6 => some .or
  | 0x00, 7 => some .and
  | 0x20, 0 => some .sub
  | 0x20, 4 => some .xnor
  | 0x20, 5 => some .sra
  | 0x20, 6 => some .orn
  | 0x20, 7 => some .andn
  | 0x01, 0 => some .mul
  | 0x01, 1 => some .mulh
  | 0x01, 2 => some .mulhsu
  | 0x01, 3 => some .mulhu
  | 0x01, 4 => some .div
  | 0x01, 5 => some .divu
  | 0x01, 6 => some .rem
  | 0x01, 7 => some .remu
  | 0x10, 2 => some .sh1add
  | 0x10, 4 => some .sh2add
  | 0x10, 6 => some .sh3add
  | 0x05, 4 => some .min
  | 0x05, 5 => some .minu
  | 0x05, 6 => some .max
  | 0x05, 7 => some .maxu
  | 0x30, 1 => some .rol
  | 0x30, 5 => some .ror
  | 0x07, 5 => some .czeroEqz
  | 0x07, 7 => some .czeroNez
  | _, _ => none

/-- OP-32: the register forms on words. -/
def aluOpW (f7 f3 : Nat) : Option AluKind :=
  match f7, f3 with
  | 0x00, 0 => some .addw
  | 0x00, 1 => some .sllw
  | 0x00, 5 => some .srlw
  | 0x20, 0 => some .subw
  | 0x20, 5 => some .sraw
  | 0x01, 0 => some .mulw
  | 0x01, 4 => some .divw
  | 0x01, 5 => some .divuw
  | 0x01, 6 => some .remw
  | 0x01, 7 => some .remuw
  | 0x04, 0 => some .adduw
  | 0x10, 2 => some .sh1adduw
  | 0x10, 4 => some .sh2adduw
  | 0x10, 6 => some .sh3adduw
  | 0x30, 1 => some .rolw
  | 0x30, 5 => some .rorw
  | _, _ => none

/-- OP-IMM and OP-IMM-32. A shift's amount is carried in the low bits of the immediate. -/
def decodeOpImm (w : BitVec 32) (f3 : Nat) (d a : BitVec 5) : Except DecodeError Decoded :=
  let imm : BitVec 12 := w.extractLsb' 20 12
  let top := bits32 w 31 26
  let i := fun k => Except.ok (Decoded.base (.opImm k d a imm))
  let sh := fun k => Except.ok (Decoded.base (.opImm k d a (imm &&& 0x3F)))
  let un := fun k => Except.ok (Decoded.base (.un k d a))
  match f3 with
  | 0 => i .add
  | 2 => i .slt
  | 3 => i .sltu
  | 4 => i .xor
  | 6 => i .or
  | 7 => i .and
  | 1 => if top = 0 then sh .sll
         else match imm.toNat with
           | 0x600 => un .clz
           | 0x601 => un .ctz
           | 0x602 => un .cpop
           | 0x604 => un .sextb
           | 0x605 => un .sexth
           | _ => .error .unassigned
  | 5 => if top = 0 then sh .srl else if top = 0x10 then sh .sra else if top = 0x18 then sh .ror
         else match imm.toNat with
           | 0x287 => un .orcb
           | 0x6B8 => un .rev8
           | _ => .error .unassigned
  | _ => .error .unassigned

def decodeOpImmW (w : BitVec 32) (f3 : Nat) (d a : BitVec 5) : Except DecodeError Decoded :=
  let imm : BitVec 12 := w.extractLsb' 20 12
  let top := bits32 w 31 25
  let sh := fun k => Except.ok (Decoded.base (.opImm k d a (imm &&& 0x1F)))
  let un := fun k => Except.ok (Decoded.base (.un k d a))
  match f3 with
  | 0 => .ok (.base (.opImm .addw d a imm))
  | 1 => if top = 0 then sh .sllw else if top / 2 = 2 then .ok (.base (.opImm .slluw d a (imm &&& 0x3F)))
         else match imm.toNat with
           | 0x600 => un .clzw
           | 0x601 => un .ctzw
           | 0x602 => un .cpopw
           | _ => .error .unassigned
  | 5 => if top = 0 then sh .srlw else if top = 0x20 then sh .sraw else if top = 0x30 then sh .rorw else .error .unassigned
  | _ => .error .unassigned

/-- A rounding field: 000 to 100, or 111 for `frm`. -/
def rmOk (rm : Nat) : Bool := decide (rm ≤ 4) || rm == 7

/-- OP-FP. -/
def decodeFp (f7 : Nat) (rm : BitVec 3) (d a b : BitVec 5) : Except DecodeError Decoded :=
  let dbl := f7 % 2 == 1
  let two := fun k => Except.ok (Decoded.base (.fp k dbl rm d a b))
  let x := fun k => Except.ok (Decoded.base (.fpx k dbl rm d a b))
  let rnd := fun r : Except DecodeError Decoded => if rmOk rm.toNat then r else .error .field
  match f7 / 2 with
  | 0x00 => rnd (two .add)
  | 0x02 => rnd (two .sub)
  | 0x04 => rnd (two .mul)
  | 0x06 => rnd (two .div)
  | 0x16 => if b = 0 then rnd (two .sqrt) else .error .unassigned
  | 0x08 => match rm.toNat with
    | 0 => two .sgnj
    | 1 => two .sgnjn
    | 2 => two .sgnjx
    | _ => .error .unassigned
  | 0x0A => match rm.toNat with
    | 0 => two .min
    | 1 => two .max
    | _ => .error .unassigned
  | 0x10 => if dbl then (if b = 0 then rnd (two .cvtDS) else .error .unassigned)
            else if b = 1 then rnd (two .cvtSD) else .error .unassigned
  | 0x28 => match rm.toNat with
    | 0 => x .le
    | 1 => x .lt
    | 2 => x .eq
    | _ => .error .unassigned
  | 0x30 => match b.toNat with
    | 0 => rnd (x .toW)
    | 1 => rnd (x .toWu)
    | 2 => rnd (x .toL)
    | 3 => rnd (x .toLu)
    | _ => .error .unassigned
  | 0x34 => match b.toNat with
    | 0 => rnd (x .ofW)
    | 1 => rnd (x .ofWu)
    | 2 => rnd (x .ofL)
    | 3 => rnd (x .ofLu)
    | _ => .error .unassigned
  | 0x38 => if b = 0 then (match rm.toNat with
      | 0 => x .mvX
      | 1 => x .cls
      | _ => .error .unassigned) else .error .unassigned
  | 0x3C => if b = 0 ∧ rm = 0 then x .mvF else .error .unassigned
  | _ => .error .unassigned

/-- The fused multiply-adds. -/
def decodeFma (k : FmaKind) (w : BitVec 32) (d a b : BitVec 5) : Except DecodeError Decoded :=
  let fmt := bits32 w 26 25
  if decide (fmt ≤ 1) && rmOk (bits32 w 14 12) then
    .ok (.base (.fma k (fmt == 1) (w.extractLsb' 12 3) d a b (w.extractLsb' 27 5)))
  else .error .unassigned

/-- A 32-bit instruction (R181, R182). -/
def decode32 (w : BitVec 32) : Except DecodeError Decoded :=
  let f3 := bits32 w 14 12
  let f7 := bits32 w 31 25
  let d : BitVec 5 := w.extractLsb' 7 5
  let a : BitVec 5 := w.extractLsb' 15 5
  let b : BitVec 5 := w.extractLsb' 20 5
  let imm : BitVec 12 := w.extractLsb' 20 12
  let simm : BitVec 12 := w.extractLsb' 25 7 ++ w.extractLsb' 7 5
  let base := fun x => Except.ok (Decoded.base x)
  match bits32 w 6 0 with
  | 0x0B => decodeCustom0 w f3 f7 d a b
  | 0x2B => decodeCustom1 w f3 f7 d a b
  | 0x5B => decodeCustom2 f3 f7 d a b
  | 0x7B => checked (.clause (w.extractLsb' 28 4) (w.extractLsb' 24 4) (w.extractLsb' 12 12) (w.extractLsb' 7 5))
  | 0x73 => decodeSystem w f3 f7 d a b
  | 0x0F => decodeMiscMem w f3 d a
  | 0x03 => decodeLoad false f3 d a imm
  | 0x07 => decodeLoad true f3 d a imm
  | 0x23 => decodeStore false f3 a b simm
  | 0x27 => decodeStore true f3 a b simm
  | 0x2F => decodeAmo w f3 d a b
  | 0x37 => base (.lui d (w.extractLsb' 12 20))
  | 0x17 => base (.auipc d (w.extractLsb' 12 20))
  | 0x6F => base (.jal d (w.extractLsb' 31 1 ++ w.extractLsb' 12 8 ++ w.extractLsb' 20 1 ++ w.extractLsb' 21 10))
  | 0x67 => if f3 = 0 then base (.jalr d a imm) else .error .unassigned
  | 0x63 => match f3 with
    | 0 => base (.branch .eq a b (branchOff w))
    | 1 => base (.branch .ne a b (branchOff w))
    | 4 => base (.branch .lt a b (branchOff w))
    | 5 => base (.branch .ge a b (branchOff w))
    | 6 => base (.branch .ltu a b (branchOff w))
    | 7 => base (.branch .geu a b (branchOff w))
    | _ => .error .unassigned
  | 0x13 => decodeOpImm w f3 d a
  | 0x1B => decodeOpImmW w f3 d a
  | 0x33 => match aluOp f7 f3 with
    | some k => base (.op k d a b)
    | none => .error .unassigned
  | 0x3B => if f7 = 0x04 ∧ f3 = 4 ∧ b = 0 then base (.un .zexth d a)
            else match aluOpW f7 f3 with
              | some k => base (.op k d a b)
              | none => .error .unassigned
  | 0x43 => decodeFma .madd w d a b
  | 0x47 => decodeFma .msub w d a b
  | 0x4B => decodeFma .nmsub w d a b
  | 0x4F => decodeFma .nmadd w d a b
  | 0x53 => decodeFp f7 (w.extractLsb' 12 3) d a b
  | _ => .error .unassigned

/-- Bits [hi:lo] of a 16-bit parcel, as a number. -/
def bits16 (w : BitVec 16) (hi lo : Nat) : Nat := w.toNat / 2 ^ lo % 2 ^ (hi + 1 - lo)

/-- A register x8 to x15 of a compressed form. -/
def regC (n : Nat) : BitVec 5 := BitVec.ofNat 5 (8 + n)

/-- The 6-bit immediate of the CI formats, sign-extended. -/
def immCI (w : BitVec 16) : BitVec 12 := (w.extractLsb' 12 1 ++ w.extractLsb' 2 5 : BitVec 6).signExtend 12

/-- Quadrant 0 of the C extension. -/
def decodeC0 (w : BitVec 16) : Except DecodeError Decoded :=
  let rd := regC (bits16 w 4 2)
  let rs := regC (bits16 w 9 7)
  let d8 : BitVec 12 := BitVec.ofNat 12 (bits16 w 12 10 * 8 + bits16 w 6 5 * 64)
  let d4 : BitVec 12 := BitVec.ofNat 12 (bits16 w 12 10 * 8 + bits16 w 6 6 * 4 + bits16 w 5 5 * 64)
  let sp4 := bits16 w 12 11 * 16 + bits16 w 10 7 * 64 + bits16 w 6 6 * 4 + bits16 w 5 5 * 8
  match bits16 w 15 13 with
  | 0 => if sp4 = 0 then .error .reservedC else .ok (.base (.opImm .add rd 2 (BitVec.ofNat 12 sp4)))
  | 1 => decodeLoad true 3 rd rs d8
  | 2 => decodeLoad false 2 rd rs d4
  | 3 => decodeLoad false 3 rd rs d8
  | 5 => decodeStore true 3 rs rd d8
  | 6 => decodeStore false 2 rs rd d4
  | 7 => decodeStore false 3 rs rd d8
  | _ => .error .reservedC

/-- Quadrant 1 of the C extension. -/
def decodeC1 (w : BitVec 16) : Except DecodeError Decoded :=
  let rd : BitVec 5 := w.extractLsb' 7 5
  let rs := regC (bits16 w 9 7)
  let rt := regC (bits16 w 4 2)
  let imm := immCI w
  let shamt : BitVec 12 := BitVec.ofNat 12 (bits16 w 12 12 * 32 + bits16 w 6 2)
  let sp16 : BitVec 12 := BitVec.signExtend 12 (BitVec.ofNat 10
    (bits16 w 12 12 * 512 + bits16 w 6 6 * 16 + bits16 w 5 5 * 64 + bits16 w 4 3 * 128 + bits16 w 2 2 * 32))
  let joff : BitVec 20 := BitVec.signExtend 20 (BitVec.ofNat 11
    (bits16 w 12 12 * 1024 + bits16 w 11 11 * 8 + bits16 w 10 9 * 128 + bits16 w 8 8 * 512 + bits16 w 7 7 * 32 +
      bits16 w 6 6 * 64 + bits16 w 5 3 + bits16 w 2 2 * 16))
  let boff : BitVec 12 := BitVec.signExtend 12 (BitVec.ofNat 8
    (bits16 w 12 12 * 128 + bits16 w 11 10 * 4 + bits16 w 6 5 * 32 + bits16 w 4 3 + bits16 w 2 2 * 16))
  match bits16 w 15 13 with
  | 0 => .ok (.base (.opImm .add rd rd imm))
  | 1 => if rd = 0 then .error .reservedC else .ok (.base (.opImm .addw rd rd imm))
  | 2 => .ok (.base (.opImm .add rd 0 imm))
  | 3 => if rd = 2 then (if sp16 = 0 then .error .reservedC else .ok (.base (.opImm .add 2 2 sp16)))
         else if imm = 0 then .error .reservedC else .ok (.base (.lui rd (imm.signExtend 20)))
  | 4 => match bits16 w 11 10 with
    | 0 => .ok (.base (.opImm .srl rs rs shamt))
    | 1 => .ok (.base (.opImm .sra rs rs shamt))
    | 2 => .ok (.base (.opImm .and rs rs imm))
    | _ => match bits16 w 12 12, bits16 w 6 5 with
      | 0, 0 => .ok (.base (.op .sub rs rs rt))
      | 0, 1 => .ok (.base (.op .xor rs rs rt))
      | 0, 2 => .ok (.base (.op .or rs rs rt))
      | 0, _ => .ok (.base (.op .and rs rs rt))
      | _, 0 => .ok (.base (.op .subw rs rs rt))
      | _, 1 => .ok (.base (.op .addw rs rs rt))
      | _, _ => .error .reservedC
  | 5 => .ok (.base (.jal 0 joff))
  | 6 => .ok (.base (.branch .eq rs 0 boff))
  | _ => .ok (.base (.branch .ne rs 0 boff))

/-- Quadrant 2 of the C extension. -/
def decodeC2 (w : BitVec 16) : Except DecodeError Decoded :=
  let rd : BitVec 5 := w.extractLsb' 7 5
  let rs2 : BitVec 5 := w.extractLsb' 2 5
  let shamt : BitVec 12 := BitVec.ofNat 12 (bits16 w 12 12 * 32 + bits16 w 6 2)
  let l8 : BitVec 12 := BitVec.ofNat 12 (bits16 w 12 12 * 32 + bits16 w 6 5 * 8 + bits16 w 4 2 * 64)
  let l4 : BitVec 12 := BitVec.ofNat 12 (bits16 w 12 12 * 32 + bits16 w 6 4 * 4 + bits16 w 3 2 * 64)
  let s8 : BitVec 12 := BitVec.ofNat 12 (bits16 w 12 10 * 8 + bits16 w 9 7 * 64)
  let s4 : BitVec 12 := BitVec.ofNat 12 (bits16 w 12 9 * 4 + bits16 w 8 7 * 64)
  match bits16 w 15 13 with
  | 0 => .ok (.base (.opImm .sll rd rd shamt))
  | 1 => decodeLoad true 3 rd 2 l8
  | 2 => if rd = 0 then .error .reservedC else decodeLoad false 2 rd 2 l4
  | 3 => if rd = 0 then .error .reservedC else decodeLoad false 3 rd 2 l8
  | 4 => if bits16 w 12 12 = 0 then
           (if rs2 = 0 then (if rd = 0 then .error .reservedC else .ok (.base (.jalr 0 rd 0)))
            else .ok (.base (.op .add rd 0 rs2)))
         else if rs2 = 0 then (if rd = 0 then .ok (.base .ebreak) else .ok (.base (.jalr 1 rd 0)))
         else .ok (.base (.op .add rd rd rs2))
  | 5 => decodeStore true 3 2 rs2 s8
  | 6 => decodeStore false 2 2 rs2 s4
  | _ => decodeStore false 3 2 rs2 s8

/-- A 16-bit instruction. -/
def decode16 (w : BitVec 16) : Except DecodeError Decoded :=
  match bits16 w 1 0 with
  | 0 => decodeC0 w
  | 1 => decodeC1 w
  | _ => decodeC2 w

/-- The length in bytes that the first parcel gives (R181); none for a length the T9 does not implement, which a parcel with bits [6:0] = 1011111, in no row of the
table, is taken to have (log 73). -/
def lengthOf (parcel : Nat) : Option Nat :=
  if parcel % 4 ≠ 3 then some 2
  else if parcel / 4 % 8 ≠ 7 then some 4
  else if parcel % 128 = 0x3F then some 8
  else none

/-- The instruction at the low end of `w` (bit 0 the least significant bit of its first byte), with its length in bytes. -/
def decode (w : Nat) : Except DecodeError (Decoded × Nat) :=
  match lengthOf w with
  | none => .error .length
  | some 2 => (decode16 (BitVec.ofNat 16 w)).map fun i => (i, 2)
  | some 4 => (decode32 (BitVec.ofNat 32 w)).map fun i => (i, 4)
  | some n => (decodeL64 (BitVec.ofNat 64 w)).map fun i => (i, n)

/-- Little-endian bytes as a number. -/
def leNat (bs : List Byte) : Nat := bs.foldr (fun b n => b.toNat + 256 * n) 0

/-- The bytes of a number, lowest first. -/
def leBytes (n w : Nat) : List Byte :=
  match n with
  | 0 => []
  | n + 1 => BitVec.ofNat 8 w :: leBytes n (w / 256)

/-- The table row that the decoder reads from an instruction whose bits are `w`, the bits above `nbits` zero: the bytes as
memory stores them (R7) go to the decoder. -/
def decodeTableWord (nbits w : Nat) : Option Instr :=
  match decode (leNat (leBytes 8 (w % 2 ^ nbits))) with
  | .ok (.instr i, _) => some i
  | _ => none

/-- An encoded instruction: a 32-bit or a 64-bit word. -/
inductive Enc where
  | w32 (w : BitVec 32)
  | w64 (w : BitVec 64)
  deriving DecidableEq, Repr

/-- The L64 word of a group, an opcode and operand fields (R185). -/
def packL64 (grp : BitVec 3) (op : BitVec 8) (f : L64) : BitVec 64 :=
  f.imm15 ++ f.ib ++ f.md ++ f.ty ++ op ++ f.pn ++ f.pm ++ f.c ++ f.b ++ f.a ++ grp ++ f.d ++ 0x3F#7

/-- The S32-reg layout (R189). -/
def packReg (f7 : BitVec 7) (b a : BitVec 5) (f3 : BitVec 3) (d : BitVec 5) (major : BitVec 7) : BitVec 32 :=
  f7 ++ b ++ a ++ f3 ++ d ++ major

/-- The S32-imm layout (R189). -/
def packImm (imm : BitVec 12) (a : BitVec 5) (f3 : BitVec 3) (d : BitVec 5) (major : BitVec 7) : BitVec 32 :=
  imm ++ a ++ f3 ++ d ++ major

/-- The S32-branch layout (R189): `off` is bits [12:1] of the offset. -/
def packBranch (k : BitVec 3) (f3 : BitVec 3) (off : BitVec 12) : BitVec 32 :=
  off.extractLsb' 11 1 ++ off.extractLsb' 4 6 ++ 0#2 ++ k ++ 0#5 ++ f3 ++ off.extractLsb' 0 4 ++ off.extractLsb' 10 1 ++ 0x0B#7

/-- A CSR instruction's word. -/
def packCsr (num : BitVec 12) (o : CsrOp) : BitVec 32 :=
  let f3 : BitVec 3 := match o.kind, o.imm with
    | .rw, false => 1
    | .rs, false => 2
    | .rc, false => 3
    | .rw, true => 5
    | .rs, true => 6
    | .rc, true => 7
  packImm num o.src f3 o.rd 0x73

/-- A scalar load's word (RV64I, F, D). -/
def packLoad (o : LoadOp) : BitVec 32 :=
  let (f3, major) : BitVec 3 × BitVec 7 := match o.kind with
    | .lb => (0, 0x03)
    | .lh => (1, 0x03)
    | .lw => (2, 0x03)
    | .ld => (3, 0x03)
    | .lbu => (4, 0x03)
    | .lhu => (5, 0x03)
    | .lwu => (6, 0x03)
    | .flw => (2, 0x07)
    | .fld => (3, 0x07)
  packImm o.imm o.rs1 f3 o.rd major

/-- A scalar store's word. -/
def packStore (o : StoreOp) : BitVec 32 :=
  let (f3, major) : BitVec 3 × BitVec 7 := match o.kind with
    | .sb => (0, 0x23)
    | .sh => (1, 0x23)
    | .sw => (2, 0x23)
    | .sd => (3, 0x23)
    | .fsw => (2, 0x27)
    | .fsd => (3, 0x27)
  packReg (o.imm.extractLsb' 5 7) o.rs2 o.rs1 f3 (o.imm.extractLsb' 0 5) major

/-- An A-extension word. -/
def packAmo (o : AmoOp) : BitVec 32 :=
  let f5 : BitVec 5 := match o.kind with
    | .lr => 0x02
    | .sc => 0x03
    | .swap => 0x01
    | .add => 0x00
    | .xor => 0x04
    | .and => 0x0C
    | .or => 0x08
    | .min => 0x10
    | .max => 0x14
    | .minu => 0x18
    | .maxu => 0x1C
  packReg (f5 ++ BitVec.ofBool o.aq ++ BitVec.ofBool o.rl) o.rs2 o.rs1 (if o.dbl then 3 else 2) o.rd 0x2F

/-- The words of the S32 forms and of the standard rows (R190 to R193, R177). -/
def encode32 (i : Instr) : Option (BitVec 32) :=
  match i with
  | .mand d a b => some (packReg 0x00 b a 0 d 0x0B)
  | .mor d a b => some (packReg 0x01 b a 0 d 0x0B)
  | .mxor d a b => some (packReg 0x02 b a 0 d 0x0B)
  | .mandn d a b => some (packReg 0x03 b a 0 d 0x0B)
  | .mnot d a => some (packReg 0x04 0 a 0 d 0x0B)
  | .mmov d a => some (packReg 0x05 0 a 0 d 0x0B)
  | .mset d a => some (packReg 0x06 0 a 0 d 0x0B)
  | .mget d a => some (packReg 0x07 0 a 0 d 0x0B)
  | .mcnt d a => some (packReg 0x08 0 a 0 d 0x0B)
  | .mffs d a => some (packReg 0x09 0 a 0 d 0x0B)
  | .mpush a => some (packReg 0x0A 0 a 0 0 0x0B)
  | .minv => some (packReg 0x0B 0 0 0 0 0x0B)
  | .mpop => some (packReg 0x0C 0 0 0 0 0x0B)
  | .mbz k off => some (packBranch k 1 off)
  | .mbnz k off => some (packBranch k 2 off)
  | .bbrd d a => some (packReg 0x00 0 a 0 d 0x2B)
  | .bbwr d a => some (packReg 0x01 0 a 0 d 0x2B)
  | .imv d a => some (packReg 0x02 0 a 0 d 0x2B)
  | .iwr d a b => some (packReg 0x03 b a 0 d 0x2B)
  | .hdone => some (packReg 0x04 0 0 0 0 0x2B)
  | .kyield => some (packReg 0x05 0 0 0 0 0x2B)
  | .waitf mask => some (packImm mask 0 1 0 0x2B)
  | .barCfg id a => some (packImm (0#5 ++ id) a 2 0 0x2B)
  | .barArr id => some (packImm (1#5 ++ id) 0 2 0 0x2B)
  | .barWait id => some (packImm (2#5 ++ id) 0 2 0 0x2B)
  | .barSync id => some (packImm (3#5 ++ id) 0 2 0 0x2B)
  | .barTx id a => some (packImm (4#5 ++ id) a 2 0 0x2B)
  | .barTest d id a => some (packImm (5#5 ++ id) a 2 d 0x2B)
  | .kfence sets scope => some (packImm (0#5 ++ sets ++ scope) 0 3 0 0x2B)
  | .rollc id a => some (packImm (0#5 ++ id) a 4 0 0x2B)
  | .kscrub => some (packReg 0x00 0 0 5 0 0x2B)
  | .kctxSv a => some (packReg 0x01 0 a 5 0 0x2B)
  | .kctxLd a => some (packReg 0x02 0 a 5 0 0x2B)
  | .msend a => some (packReg 0x00 0 a 0 0 0x5B)
  | .msendL a b => some (packReg 0x01 b a 0 0 0x5B)
  | .mnext => some (packReg 0x02 0 0 0 0 0x5B)
  | .qpush a b => some (packReg 0x03 b a 0 0 0x5B)
  | .qpop d a => some (packReg 0x04 0 a 0 d 0x5B)
  | .hpassArm d a | .hpassStart d a | .hpassStatus d a | .hpassWait d a | .hpassDisarm d a => some (packReg 0x05 0 a 0 d 0x5B)
  | .cprd a => some (packReg 0x06 0 a 0 0 0x5B)
  | .cpq a => some (packReg 0x07 0 a 0 0 0x5B)
  | .cpqNb d a => some (packReg 0x08 0 a 0 d 0x5B)
  | .cpwm d a b => some (packReg 0x09 b a 0 d 0x5B)
  | .cpcls d => some (packReg 0x0A 0 0 0 d 0x5B)
  | .launch d a => some (packReg 0x0B 0 a 0 d 0x5B)
  | .clause fb fa wait len => some (fb ++ fa ++ wait ++ len ++ 0x7B#7)
  | .sfenceVma a b => some (packReg 0x09 b a 0 0 0x73)
  | .fenceI => some 0x0000100F
  | .fence fm pred succ a d => some (fm ++ pred ++ succ ++ a ++ 0#3 ++ d ++ 0x0F#7)
  | .pause => some 0x0100000F
  | .wfi => some 0x10500073
  | .sret => some 0x10200073
  | .mret => some 0x30200073
  | .kdomWrite o => some (packCsr 0x5C0 o)
  | .ktinvGo o => some (packCsr 0x5C2 o)
  | .krootWrite o => some (packCsr 0x5C4 o)
  | .kslabGo o | .kslabAbort o => some (packCsr 0x5C8 o)
  | .kpartWrite o => some (packCsr 0x5CB o)
  | .kpownWrite o => some (packCsr 0x5CC o)
  | .kpoolevRead o => some (packCsr 0x5CD o)
  | .kbiasGo o => some (packCsr 0x5CE o)
  | .kflagclrWrite o => some (packCsr 0x5D0 o)
  | .khctlWrite o => some (packCsr 0x5D3 o)
  | .kchqDepthWrite o | .kchqErrClear o => some (packCsr 0x5D4 o)
  | .kchringWrite o => some (packCsr 0x5D5 o)
  | .kqctlWrite o => some (packCsr 0x5D7 o)
  | .ksibctlHalt o | .ksibctlResume o => some (packCsr 0x9C1 o)
  | .ksibdataWrite o => some (packCsr 0x9C2 o)
  | .kpreDone o => some (packCsr 0x9C8 o)
  | .kcsaveSave o | .kcsaveRestore o => some (packCsr 0x9C9 o)
  | .ktqctlTailWrite o | .ktqctlRerrClear o => some (packCsr 0x9E2 o)
  | .ktkillGo o => some (packCsr 0x9E8 o)
  | .kflushGo o => some (packCsr 0x7C1 o)
  | .kkctlErase o | .kkctlDerive o | .kkctlUnwrap o | .kkctlRebind o | .kkctlQuery o => some (packCsr 0x7C5 o)
  | .khmctlWrite o => some (packCsr 0x7D1 o)
  | .khmdomWrite o => some (packCsr 0x7D2 o)
  | .khmrateWrite o => some (packCsr 0x7D3 o)
  | .pmpWrite num o => some (packCsr num o)
  | .registerWrite (.csr num o) => some (packCsr num o)
  | .scalarLoad o => some (packLoad o)
  | .scalarStore o => some (packStore o)
  | .scalarAtomic o => some (packAmo o)
  | _ => none

/-- The word of an instruction that has an encoding; an event has none. -/
def encode (i : Instr) : Option Enc :=
  match l64Fields i with
  | some (grp, op, f) => some (.w64 (packL64 grp op f))
  | none => (encode32 i).map Enc.w32

/-- The length of an encoded instruction in bytes (R181). -/
def Enc.size (e : Enc) : Nat :=
  match e with
  | .w32 _ => 4
  | .w64 _ => 8

/-- The bits of an encoded instruction, as the decoder takes them. -/
def Enc.bits (e : Enc) : Nat :=
  match e with
  | .w32 w => w.toNat
  | .w64 w => w.toNat

end Sys2Proof
end

