-- ==== Sys2Proof/Machine/Fetch.lean ====
section
/-!
DEFINITION. Instruction fetch (R59, R181): parcels of 16 bits through the instruction cache, each checked under R23; and the
placing of an instruction where the next fetch finds it.
-/
namespace Sys2Proof.Machine

/-- Enter a line at the front of a core's instruction cache: 128 sets of 8 ways, LRU (R52). -/
def icFill (s : State) (c : Nat) (x : CLine) : State :=
  let same := fun y : CLine => y.vline % 128 == x.vline % 128
  s.modCore c fun k =>
    let l := k.icache
    if (l.filter same).length < 8 then { k with icache := x :: l }
    else
      let r := l.reverse
      { k with icache := x :: (match r.findIdx? same with
        | some i => r.eraseIdx i
        | none => r).reverse }

/-- The line of a fetch address: from the instruction cache, which notes the use, or from the cluster. None where the line's tag
fails (R340). The rules do not say whether a fetch of a page that is not normal is kept, since none passes R26: in Bare and M mode every fetched line
is (log 73). -/
def icLine (s : State) (w : Who) (va : Word) (r : PRef) : State × Option CLine :=
  let vl := va.toNat / 128
  match (s.core w.core).icache.find? fun y => y.vline == vl && y.fn == w.tag with
  | some y => (s.modCore w.core fun k => { k with icache := y :: k.icache.erase y }, some y)
  | none => match lineIn s w va r with
    | (s, none) => (s, none)
    | (s, some x) => (if x.psn then s else icFill s w.core x, some x)

/-- Two bytes of an instruction at `va`; a failed check, poison or a failed tag ends the fetch with its trap (R23, R70, R340). A fetch that would
leave the core for a page in a bias flip is held (R135). -/
def fetchParcel (s : State) (h : Nat) (va : Word) : State × Option Nat :=
  let w := whoOf s h false
  match translate s w .fetch .ex false false va 2 with
  | (s, .error f) => (takeTrap s h false (scalarCause f.kind .ex) va, none)
  | (s, .ok r) =>
    if flipHeld s r.pa && !((s.core w.core).icache.any fun y => y.vline == va.toNat / 128 && y.fn == w.tag) then
      (s.modHart h fun x => { x with wait := .stall }, none)
    else match icLine s w va r with
    | (s, none) => (sealFail s h r.pa r.key va, none)
    | (s, some x) =>
      if x.psn then (takeTrap s h false 48 (s.hart h).pc, none)
      else (s, some (leToNat ((x.bytes.drop (va.toNat % 128)).take 2)))

/-- n further parcels from `va` on. -/
def fetchMore (h : Nat) : Nat → Word → State → State × Option Nat
  | 0, _, s => (s, some 0)
  | n + 1, va, s =>
    match fetchParcel s h va with
    | (s, none) => (s, none)
    | (s, some p) =>
      match fetchMore h n (va + 2) s with
      | (s, none) => (s, none)
      | (s, some r) => (s, some (p + 2 ^ 16 * r))

/-- The bits of the instruction at a hart's pc: as many parcels as its length has, one where the length is not implemented. -/
def fetch (s : State) (h : Nat) : State × Option Nat :=
  let pc := (s.hart h).pc
  match fetchParcel s h pc with
  | (s, none) => (s, none)
  | (s, some p) =>
    match fetchMore h ((lengthOf p).getD 2 / 2 - 1) (pc + 2) s with
    | (s, none) => (s, none)
    | (s, some r) => (s, some (p + 2 ^ 16 * r))

/-- Latch the fetched instruction: its bits and its length (log 13). -/
def latch (s : State) (h bits len : Nat) : State := s.modHart h fun x => { x with ibits := word bits, ilen := len }

/-- Put one parcel where a fetch of the hart at `va` reads it: into memory, and out of the instruction cache. -/
def placeParcel (s : State) (h : Nat) (va : Word) (p : Nat) : State :=
  let w := whoOf s h false
  let r := match (translate s w .fetch .ex false false va 2).2 with
    | .ok r => r
    | .error _ => { pa := va.toNat }
  (writeMem s r.key r.pa (natToLe 2 p) 0).modCore w.core fun k => { k with icache := k.icache.filter fun y => y.vline != va.toNat / 128 }

end Sys2Proof.Machine
end

