-- ==== Sys2Proof/Machine/LaneMem.lean ====
section
/-!
DEFINITION. The lane memory forms, group 010 (R232 to R238).
-/
namespace Sys2Proof.Machine

/-- Step 3 of R211: with no active lane the instruction completes and writes nothing. -/
def memStart (f : L64) : Exec (List Nat) := fun s =>
  if effMask s.me f = 0 then .error (retire s) else .ok (activeLanes s.me f, s)

/-- The addresses of the active lanes. -/
def laneAddrs (f : L64) (ls : List Nat) : Exec (List (Nat × Word)) := rd fun s => ls.map fun l => (l, laneAddr s.me f l)

/-- md 100: the scratch space (R186). -/
def isScr (f : L64) : Bool := f.md == 4

/-- The pieces of the accesses of all lanes. -/
def laneSegs (accs : List (Nat × Word)) (n : Nat) : List Seg := (accs.map fun x => segsOf x.1 x.2 n).flatten

/-- An active lane's scratch access touches poison (R70): cause 48 with the offset. -/
def scratchPoison (accs : List (Nat × Word)) (n : Nat) : Exec Unit := fun s =>
  match accs.find? fun x => (s.cls (classOf s s.cur)).scratchPsn x.2.toNat n with
  | some x => trap 48 x.2 s
  | none => .ok ((), s)

/-- The current hart as the maker of a lane access: md 010 is streaming (R186, R234). -/
def laneWho (s : State) (f : L64) : Who := { whoOf s s.cur true with nt := f.md == 2 }

/-- The bytes that each active lane reads, after every check of R233. A scratch access that traps on poison counts no passes: R78 does not say (log 73). -/
def laneFetch (f : L64) (n : Nat) (ls : List Nat) : Exec (List (Nat × List Byte)) := do
  let accs ← laneAddrs f ls
  if isScr f then
    scratchCheck accs n false
    scratchPoison accs n
    upd fun s => takePasses s accs n false
    rd fun s => accs.map fun x => (x.1, (s.cls (classOf s s.cur)).scratch x.2.toNat n)
  else
    countOn false
    wmCheck (accs.map fun x => (x.2.toNat, n))
    let w ← rd fun s => laneWho s f
    let ps ← placeMine w .lane .rd 0 (laneSegs accs n)
    fun s => match readPieces w (f.md == 0) ps s with
      | (s, .error e) => failRead e s
      | (s, .ok r) => .ok (r, s)

/-- Write n loaded bytes into lane l of the destination registers: 1 and 2 bytes extended to 32 bits, the rest whole words
(R184, R232). -/
def Hart.putBytes (h : Hart) (d l n : Nat) (sg : Bool) (bs : List Byte) : Hart :=
  if n < 4 then h.setV d l (if sg then BitVec.ofNat 32 (sext (leWord bs) (8 * n)).toNat else BitVec.ofNat 32 (leToNat bs))
  else (List.range (n / 4)).foldl (fun x i => x.setV (d + i) l (BitVec.ofNat 32 (leToNat ((bs.drop (4 * i)).take 4)))) h

/-- A lane load of n bytes (R232, R235). -/
def laneLoad (f : L64) (n : Nat) (sg : Bool) : Exec Unit := do
  let ls ← memStart f
  let r ← laneFetch f n ls
  onMe fun h => (ls.foldl (fun x l => x.putBytes f.d.toNat l n sg (laneBytes r l)) h).dirtyXs
  retireX

/-- The n bytes of lane l of the store data v[c] (R184). -/
def Hart.dataBytes (h : Hart) (c l n : Nat) : List Byte :=
  ((List.range ((n + 3) / 4)).map fun i => natToLe 4 (h.getV (c + i) l).toNat).flatten.take n

/-- Store placed pieces with each lane's data; a partly written sealed line that fails its tag ends the instruction (R340). -/
def storePieces (w : Who) (ps : List Placed) (data : Nat → List Byte) : Exec Unit := fun s =>
  let cs := (ps.map fun p => cellsFor p (data p.seg.lane)).flatten
  match sealBroken s w cs with
  | some x => .error (sealFail s s.cur x.cell.pa x.cell.key (word x.va))
  | none => .ok ((), storeCells s w cs)

/-- A lane store of n bytes; of lanes that write one byte the highest wins (R235). -/
def laneStore (f : L64) (n : Nat) : Exec Unit := do
  let ls ← memStart f
  let accs ← laneAddrs f ls
  let h ← meX
  if isScr f then
    scratchCheck accs n true
    upd fun s => (takePasses s accs n false).modCls (classOf s s.cur) fun c =>
      c.putScratch (accs.map fun x => scratchCells x.2.toNat (h.dataBytes f.c.toNat x.1 n)).flatten
  else
    countOn true
    wmCheck (accs.map fun x => (x.2.toNat, n))
    let w ← rd fun s => laneWho s f
    let ps ← placeMine w .lane .wr 1 (laneSegs accs n)
    storePieces w ps fun l => h.dataBytes f.c.toNat l n
  retireX

/-! ### Atomics (R236) -/

/-- An order for lanes that the spec leaves undefined (R123), from the choices (log 12). -/
def pickOrder : Nat → List Nat → State → State × List Nat
  | 0, _, s => (s, [])
  | n + 1, ls, s =>
    let (c, s) := choose s
    let l := nth 0 ls (c % max 1 ls.length)
    let (s, r) := pickOrder n (ls.filter (· != l)) s
    (s, l :: r)

/-- What a lane's update does: the element read, c, the old d, to the new value (none: no write) with flags and counters. -/
abbrev Update := Nat → Nat → Nat → Option Nat × FRes

/-- One lane's update at global memory. -/
def amoGlobal (w : Who) (n : Nat) (u : Update) (p : Placed) (c d : Nat) (s : State) : State × Nat × FRes :=
  let s := readIn s w (p.seg.at_.toNat / 128) (p.ref.pa / 128) p.ref.key p.ref.cm
  let m := leToNat (seenBytes s w p.seg.at_ p.ref.key p.ref.pa n)
  let (v, r) := u m c d
  (match v with
    | some v => breakResv (storeLine s w (p.seg.at_.toNat / 128) p.ref.cm (cellsOf p.ref.pa p.ref.key (natToLe n v))) w.hart [p.ref.pa / 128]
    | none => s, m, r)

/-- One lane's update in scratch. -/
def amoScratch (n : Nat) (u : Update) (off c d : Nat) (s : State) : State × Nat × FRes :=
  let k := classOf s s.cur
  let m := leToNat ((s.cls k).scratch off n)
  let (v, r) := u m c d
  (match v with
    | some v => s.modCls k fun x => x.putScratch (scratchCells off (natToLe n v))
    | none => s, m, r)

/-- Run the updates of the lanes in an order: the values read, the flags and counters raised. -/
def amoAll (upd1 : Nat → State → State × Nat × FRes) : List Nat → State → State × List (Nat × Nat) × FRes
  | [], s => (s, [], {})
  | l :: ls, s =>
    let (s, m, r) := upd1 l s
    let (s, ms, q) := amoAll upd1 ls s
    (s, (l, m) :: ms, r.after q)

/-- The pieces of an atomic, those in peer windows at their peers' homes (R124). -/
def peerHomes (w : Who) : List Placed → State → State × List Placed
  | [], s => (s, [])
  | p :: ps, s =>
    let (s, r) := peerHome s w (p.seg.at_.toNat / 128) p.ref
    let (s, qs) := peerHomes w ps s
    (s, { p with ref := r } :: qs)

/-- A lane atomic of n bytes (R123, R233, R236). Where a line that fails its tag and one that is poison meet, the rules give no order: cause 48 comes
first here, in a load the first line in lane order decides (log 73). -/
def laneAtomic (f : L64) (n : Nat) (u : Update) : Exec Unit := do
  let ls ← memStart f
  let h ← meX
  let accs := ls.map fun l => (l, atomicAddr h f n l)
  let addr := fun l => ((accs.find? fun x => x.1 == l).map (·.2)).getD 0
  let cv := fun l => h.elem (8 * n) f.c.toNat l
  let dv := fun l => h.elem (8 * n) f.d.toNat l
  let misaligned := accs.find? fun x => x.2.toNat % n != 0
  let run := fun (one : Nat → State → State × Nat × FRes) => (fun s =>
    let (s, order) := pickOrder ls.length ls s
    let (s, ms, r) := amoAll one order s
    let t := s.modMe fun h => h.setLanes (8 * n) f.d.toNat ls fun l => ((ms.find? fun x => x.1 == l).map (·.2)).getD 0
    .ok ((), setFlags (bumpFp t r.cnt) r.flags) : Exec Unit)
  if isScr f then
    scratchCheck accs n true
    match misaligned with
    | some x => trap 6 x.2
    | none => pure ()
    scratchPoison accs n
    upd fun s => takePasses s accs n true
    upd fun s => if orderRel f then coreRelease s (coreOf s.cur) f.ty.toNat else s
    run fun l => amoScratch n u (addr l).toNat (cv l) (dv l)
  else
    countOn false
    match misaligned with
    | some x => trap 6 x.2
    | none => pure ()
    wmCheck (accs.map fun x => (x.2.toNat, n))
    let w ← whoX
    let ps ← placeMine w .lane .rw 2 (laneSegs accs n)
    let ps ← (fun s => let x := peerHomes w ps s; .ok (x.2, x.1) : Exec (List Placed))
    fun s => match ps.find? fun p => seenPoison s w (p.seg.at_.toNat / 128) (p.ref.pa / 128) with
      | some p => trap 48 p.seg.va s
      | none => match ps.find? fun p => !entryOk s w (p.seg.at_.toNat / 128) p.ref.key (p.ref.pa / 128) with
        | some p => .error (sealFail s s.cur p.ref.pa p.ref.key p.seg.va)
        | none => .ok ((), s)
    let at_ := fun l => (ps.find? fun p => p.seg.lane == l).getD {}
    upd fun s => if orderRel f then coreRelease s w.core f.ty.toNat else s
    run fun l => amoGlobal w n u (at_ l) (cv l) (dv l)
    upd fun s => l1Drop s w.core w.tag (accs.map fun x => x.2.toNat / 128)
  upd fun s => if orderAcq f then acquire s f.ty.toNat else s
  retireX

/-- An integer update that always writes. -/
def intUpd (g : Nat → Nat → Nat) : Update := fun m c _ => (some (g m c), {})

/-- A floating-point update. -/
def fpUpd (g : Nat → Nat → FRes) : Update := fun m c _ => let r := g m c; (some r.bits, { r with bits := 0 })

/-- A lane floating-point atomic: FS first, then FS dirty, then the atomic (R211, R236). -/
def laneFpAtomic (f : L64) (g : Nat → Nat → FRes) (s : State) : Host.Outcome State Fault Refusal :=
  if s.me.fs = 0 then illegalNow s
  else finish (laneAtomic f 4 (fpUpd g)) (s.modMe fun h => h.setFs 3)

/-- `lcas`: c where the element equals the old d, else nothing written. -/
def casUpd : Update := fun m c d => (if m = d then some c else none, {})

/-- `lld.b` (R232, R235). -/
def execLldB (f : L64) (s : State) : Host.Outcome State Fault Refusal := finish (laneLoad f 1 true) s

/-- `lld.bu` (R232, R235). -/
def execLldBu (f : L64) (s : State) : Host.Outcome State Fault Refusal := finish (laneLoad f 1 false) s

/-- `lld.h` (R232, R235). -/
def execLldH (f : L64) (s : State) : Host.Outcome State Fault Refusal := finish (laneLoad f 2 true) s

/-- `lld.hu` (R232, R235). -/
def execLldHu (f : L64) (s : State) : Host.Outcome State Fault Refusal := finish (laneLoad f 2 false) s

/-- `lld.w` (R232, R235). -/
def execLldW (f : L64) (s : State) : Host.Outcome State Fault Refusal := finish (laneLoad f 4 false) s

/-- `lld.d` (R232, R235). -/
def execLldD (f : L64) (s : State) : Host.Outcome State Fault Refusal := finish (laneLoad f 8 false) s

/-- `lld.q` (R232, R235). -/
def execLldQ (f : L64) (s : State) : Host.Outcome State Fault Refusal := finish (laneLoad f 16 false) s

/-- `lst.b` (R235). -/
def execLstB (f : L64) (s : State) : Host.Outcome State Fault Refusal := finish (laneStore f 1) s

/-- `lst.h` (R235). -/
def execLstH (f : L64) (s : State) : Host.Outcome State Fault Refusal := finish (laneStore f 2) s

/-- `lst.w` (R235). -/
def execLstW (f : L64) (s : State) : Host.Outcome State Fault Refusal := finish (laneStore f 4) s

/-- `lst.d` (R235). -/
def execLstD (f : L64) (s : State) : Host.Outcome State Fault Refusal := finish (laneStore f 8) s

/-- `lst.q` (R235). -/
def execLstQ (f : L64) (s : State) : Host.Outcome State Fault Refusal := finish (laneStore f 16) s

/-- One lane of `lprf`: dropped where a watermark holds it or a check fails; the line enters the cluster, with md 000 the L1 too, unless it is poison or fails its
tag, which is recorded (R237, R40, R70, R340). -/
def prefetchLane (w : Who) (md : BitVec 3) (s : State) (va : Word) : State :=
  if s.myCore.wm.any fun x => (wmHit x.2 va.toNat 1).isSome then s
  else match translate s w .lane .rd false false va 1 with
    | (s, .error _) => s
    | (s, .ok r) =>
      if flipHeld s r.pa || seenPoison s w (va.toNat / 128) (r.pa / 128) then s
      else match lineIn s w va r with
        | (s, some x) =>
          if md == 0 && r.cm == 0 && !(s.core w.core).l1.any fun y => y.vline == x.vline && y.fn == w.tag then l1Fill s w.core x else s
        | (s, none) => sealNote s w.fn w.eid w.core r.pa r.key

/-- `lprf` (R237). -/
def execLprf (f : L64) (s : State) : Host.Outcome State Fault Refusal :=
  finish (do
    let ls ← memStart f
    let accs ← laneAddrs f ls
    let w ← rd fun s => laneWho s f
    upd fun s => accs.foldl (fun s x => prefetchLane w f.md s x.2) s
    retireX) s

/-- The lines of some addresses, each once, under the lane and the address that name it first. -/
def zeroSegs : List (Nat × Word) → List Nat → List Seg
  | [], _ => []
  | x :: xs, seen =>
    let l := x.2.toNat / 128
    if seen.contains l then zeroSegs xs seen
    else { lane := x.1, va := x.2, at_ := x.2 &&& ~~~(127 : Word), n := 128 } :: zeroSegs xs (l :: seen)

/-- The whole lines among placed pieces become dirty zero tags of the cluster (R67). -/
def zeroTags (s : State) (w : Who) (ps : List Placed) : State :=
  ps.foldl (fun s p => (linesOf p.seg.at_.toNat p.seg.n).foldl (fun s vl =>
    if p.seg.at_.toNat ≤ 128 * vl ∧ 128 * vl + 128 ≤ p.seg.at_.toNat + p.seg.n then
      zeroLine s w vl ((p.ref.pa + (128 * vl - p.seg.at_.toNat)) / 128) p.ref.key p.ref.cm
    else s) s) s

/-- A zero fill of placed pieces (R67): the lines that it covers whole become zero tags first, so that none takes a data way for it; then the bytes are stored. A
partly written sealed line that fails its tag ends the instruction before either (R340). -/
def zeroPieces (w : Who) (ps : List Placed) (data : Nat → List Byte) : Exec Unit := fun s =>
  let cs := (ps.map fun p => cellsFor p (data p.seg.lane)).flatten
  match sealBroken s w cs with
  | some x => .error (sealFail s s.cur x.cell.pa x.cell.key (word x.va))
  | none => .ok ((), storeCells (zeroTags s w ps) w cs)

/-- `lzero`: the whole line of each active lane's address becomes zero, once however many lanes name it (R238, R67). -/
def execLzero (f : L64) (s : State) : Host.Outcome State Fault Refusal :=
  finish (do
    let ls ← memStart f
    let accs ← laneAddrs f ls
    countOn true
    wmCheck (accs.map fun x => (x.2.toNat / 128 * 128, 128))
    let w ← whoX
    let ps ← placeMine w .lane .wr 1 (zeroSegs accs [])
    zeroPieces w (ps.map fun p => { p with seg := { p.seg with va := p.seg.at_ } }) fun _ => List.replicate 128 0
    retireX) s

/-- `lamo.add.w` (R236). -/
def execLamoAddW (f : L64) (s : State) : Host.Outcome State Fault Refusal := finish (laneAtomic f 4 (intUpd fun m c => (m + c) % 2 ^ 32)) s

/-- `lamo.add.d` (R236). -/
def execLamoAddD (f : L64) (s : State) : Host.Outcome State Fault Refusal := finish (laneAtomic f 8 (intUpd fun m c => (m + c) % 2 ^ 64)) s

/-- `lamo.and.w` (R236). -/
def execLamoAndW (f : L64) (s : State) : Host.Outcome State Fault Refusal := finish (laneAtomic f 4 (intUpd fun m c => m &&& c)) s

/-- `lamo.and.d` (R236). -/
def execLamoAndD (f : L64) (s : State) : Host.Outcome State Fault Refusal := finish (laneAtomic f 8 (intUpd fun m c => m &&& c)) s

/-- `lamo.or.w` (R236). -/
def execLamoOrW (f : L64) (s : State) : Host.Outcome State Fault Refusal := finish (laneAtomic f 4 (intUpd fun m c => m ||| c)) s

/-- `lamo.or.d` (R236). -/
def execLamoOrD (f : L64) (s : State) : Host.Outcome State Fault Refusal := finish (laneAtomic f 8 (intUpd fun m c => m ||| c)) s

/-- `lamo.xor.w` (R236). -/
def execLamoXorW (f : L64) (s : State) : Host.Outcome State Fault Refusal := finish (laneAtomic f 4 (intUpd fun m c => m ^^^ c)) s

/-- `lamo.xor.d` (R236). -/
def execLamoXorD (f : L64) (s : State) : Host.Outcome State Fault Refusal := finish (laneAtomic f 8 (intUpd fun m c => m ^^^ c)) s

/-- `lamo.min.w` (R236). -/
def execLamoMinW (f : L64) (s : State) : Host.Outcome State Fault Refusal := finish (laneAtomic f 4 (intUpd fun m c => if toS 32 c < toS 32 m then c else m)) s

/-- `lamo.min.d` (R236). -/
def execLamoMinD (f : L64) (s : State) : Host.Outcome State Fault Refusal := finish (laneAtomic f 8 (intUpd fun m c => if toS 64 c < toS 64 m then c else m)) s

/-- `lamo.max.w` (R236). -/
def execLamoMaxW (f : L64) (s : State) : Host.Outcome State Fault Refusal := finish (laneAtomic f 4 (intUpd fun m c => if toS 32 m < toS 32 c then c else m)) s

/-- `lamo.max.d` (R236). -/
def execLamoMaxD (f : L64) (s : State) : Host.Outcome State Fault Refusal := finish (laneAtomic f 8 (intUpd fun m c => if toS 64 m < toS 64 c then c else m)) s

/-- `lamo.minu.w` (R236). -/
def execLamoMinuW (f : L64) (s : State) : Host.Outcome State Fault Refusal := finish (laneAtomic f 4 (intUpd fun m c => min m c)) s

/-- `lamo.minu.d` (R236). -/
def execLamoMinuD (f : L64) (s : State) : Host.Outcome State Fault Refusal := finish (laneAtomic f 8 (intUpd fun m c => min m c)) s

/-- `lamo.maxu.w` (R236). -/
def execLamoMaxuW (f : L64) (s : State) : Host.Outcome State Fault Refusal := finish (laneAtomic f 4 (intUpd fun m c => max m c)) s

/-- `lamo.maxu.d` (R236). -/
def execLamoMaxuD (f : L64) (s : State) : Host.Outcome State Fault Refusal := finish (laneAtomic f 8 (intUpd fun m c => max m c)) s

/-- `lamo.swap.w` (R236). -/
def execLamoSwapW (f : L64) (s : State) : Host.Outcome State Fault Refusal := finish (laneAtomic f 4 (intUpd fun _ c => c)) s

/-- `lamo.swap.d` (R236). -/
def execLamoSwapD (f : L64) (s : State) : Host.Outcome State Fault Refusal := finish (laneAtomic f 8 (intUpd fun _ c => c)) s

/-- `lcas.w` (R236). -/
def execLcasW (f : L64) (s : State) : Host.Outcome State Fault Refusal := finish (laneAtomic f 4 casUpd) s

/-- `lcas.d` (R236). -/
def execLcasD (f : L64) (s : State) : Host.Outcome State Fault Refusal := finish (laneAtomic f 8 casUpd) s

/-- `lfamo.add.s` (R236). -/
def execLfamoAddS (f : L64) (s : State) : Host.Outcome State Fault Refusal := laneFpAtomic f (fAdd fp32 0 false) s

/-- `lfamo.min.s` (R236). -/
def execLfamoMinS (f : L64) (s : State) : Host.Outcome State Fault Refusal := laneFpAtomic f (fMinMax fp32 false) s

/-- `lfamo.max.s` (R236). -/
def execLfamoMaxS (f : L64) (s : State) : Host.Outcome State Fault Refusal := laneFpAtomic f (fMinMax fp32 true) s

end Sys2Proof.Machine
end

