-- ==== Sys2Proof/Machine/Tile.lean ====
section
/-!
DEFINITION. Tiles: the header and its fields (R82), formats and layouts (R83 to R86), the CRC (R87), the checks of R88, the
elements and scales of a tile (R84, R85, R142, R147), and the decoding of EX8 (R143 to R146).
-/
namespace Sys2Proof.Machine

/-! ### The header (R82) -/

/-- A 128-bit tile header. -/
abbrev Hdr := BitVec 128

/-- Bits [lo + n - 1 : lo] of a header. -/
def hf (h : Hdr) (lo n : Nat) : Nat := h.toNat / 2 ^ lo % 2 ^ n

def hMark (h : Hdr) : Nat := hf h 0 8
def hVer (h : Hdr) : Nat := hf h 8 4
def hEfmt (h : Hdr) : Nat := hf h 12 6
def hSlay (h : Hdr) : Nat := hf h 18 4
def hSfmt (h : Hdr) : Nat := hf h 22 2
def hSparse (h : Hdr) : Nat := hf h 24 3
def hOrder (h : Hdr) : Nat := hf h 27 2
def hPsn (h : Hdr) : Bool := h.getLsbD 29
def hSealed (h : Hdr) : Bool := h.getLsbD 30
def hExt (h : Hdr) : Nat := hf h 56 8
def hSoff (h : Hdr) : Nat := hf h 64 16
def hMoff (h : Hdr) : Nat := hf h 80 16
def hStride (h : Hdr) : Nat := hf h 96 16
def hCrc (h : Hdr) : Nat := hf h 112 16

/-- The numbers of rows and columns. -/
def hRows (h : Hdr) : Nat := hf h 32 12 + 1
def hCols (h : Hdr) : Nat := hf h 44 12 + 1

/-- The header with a field replaced. -/
def setHf (h : Hdr) (lo n v : Nat) : Hdr := BitVec.ofNat 128 (h.toNat - hf h lo n * 2 ^ lo + v % 2 ^ n * 2 ^ lo)

/-- One byte into the CRC (R87). -/
def crcByte (c : BitVec 16) (b : Byte) : BitVec 16 :=
  let t : BitVec 16 := (c >>> 8) ^^^ b.setWidth 16
  let t := t ^^^ (t >>> 4)
  (c <<< 8) ^^^ (t <<< 12) ^^^ (t <<< 5) ^^^ t

/-- The CRC of header bits [111:0] (R87). -/
def hdrCrc (h : Hdr) : BitVec 16 := (natToLe 14 h.toNat).foldl crcByte 0xFFFF

/-- The header with its CRC computed. -/
def sealCrc (h : Hdr) : Hdr := setHf h 112 16 (hdrCrc h).toNat

/-- The CRC of a header holds (R104). -/
def crcOk (h : Hdr) : Bool := hCrc h == (hdrCrc h).toNat

/-- The header of 16 bytes. -/
def hdrOf (bs : List Byte) : Hdr := BitVec.ofNat 128 (leToNat bs)

/-! ### Formats (R83) -/

/-- The element width of a supported format; EX8 counts 8 (R86 lays its rows out by STRIDE). -/
def elemBits (efmt : Nat) : Option Nat :=
  match efmt with
  | 0x01 => some 64
  | 0x02 | 0x10 => some 32
  | 0x03 | 0x04 => some 16
  | 0x05 | 0x06 | 0x0A | 0x12 | 0x13 => some 8
  | 0x07 | 0x08 => some 6
  | 0x09 | 0x14 => some 4
  | _ => none

def isEx8 (efmt : Nat) : Bool := efmt == 0x0A
def isNarrow (efmt : Nat) : Bool := (5 ≤ efmt && efmt ≤ 0x0A) || efmt == 0x12 || efmt == 0x13 || efmt == 0x14
def isHalf (efmt : Nat) : Bool := efmt == 3 || efmt == 4

/-- An integer format: its width and whether it is signed (R138). -/
def intFmt (efmt : Nat) : Option (Nat × Bool) :=
  match efmt with
  | 0x10 => some (32, true)
  | 0x12 => some (8, true)
  | 0x13 => some (8, false)
  | 0x14 => some (4, true)
  | _ => none

/-- The floating-point format of an EFMT; EX8 elements are E4M3 values (R146). -/
def tileFmt (efmt : Nat) : Fmt :=
  match efmt with
  | 0x01 => fp64
  | 0x02 => fp32
  | 0x03 => fp16
  | 0x04 => bf16
  | 0x06 => e5m2
  | 0x07 => e3m2
  | 0x08 => e2m3
  | 0x09 => e2m1
  | _ => e4m3

/-- emax (R138, R139). -/
def emaxOf (efmt : Nat) : Int :=
  match efmt with
  | 0x10 => 30
  | 0x12 => 6
  | 0x13 => 7
  | 0x14 => 2
  | _ => (tileFmt efmt).emax

/-- The exact value of an element's bits. -/
def elemVal (efmt bits : Nat) : FVal :=
  match intFmt efmt with
  | some (w, sg) =>
    let n : Int := if sg && decide (2 ^ (w - 1) ≤ bits) then (bits : Int) - 2 ^ w else bits
    .num (decide (n < 0)) n.natAbs 0
  | none => (tileFmt efmt).decode bits

/-! ### Layout (R84, R85, R86) -/

/-- The lines of a tile, and the elements in a line (R84). -/
def lineCount (h : Hdr) : Nat := if hOrder h = 1 then hCols h else hRows h
def lineLen (h : Hdr) : Nat := if hOrder h = 1 then hRows h else hCols h

/-- The element width of the header's format. -/
def hBits (h : Hdr) : Nat := (elemBits (hEfmt h)).getD 0

/-- The packed line size; under 2:4 sparsity of the kept elements (R85). -/
def packedLine (h : Hdr) : Nat :=
  let n := if hSparse h = 1 then lineLen h / 2 else lineLen h
  roundUp (ceilDiv (n * hBits h) 8) 16

/-- The line stride in bytes. -/
def lineStride (h : Hdr) : Nat := if hStride h = 0 then packedLine h else 16 * hStride h

/-- The 16 × 16 blocks of a bitmap tile. -/
def blockCount (h : Hdr) : Nat := hRows h / 16 * (hCols h / 16)

/-- The payload size, that of a bitmap tile as if every block were present (R85). -/
def payloadSize (h : Hdr) : Nat :=
  if hSparse h = 2 then 32 * hBits h * blockCount h else lineCount h * lineStride h

/-- The blocks of scales along one line: of 32, or of 16 under layout 5 (R84). -/
def lineBlocks (h : Hdr) : Nat := ceilDiv (lineLen h) (if hSlay h = 5 then 16 else 32)

/-- The scale entries of a layout, without the tile scale of layout 6 (R84). -/
def scaleEntries (h : Hdr) : Nat :=
  match hSlay h with
  | 0 => 0
  | 1 => 1
  | 2 => hRows h
  | 3 => hCols h
  | _ => lineCount h * lineBlocks h

/-- The size of the scale area. -/
def scaleSize (h : Hdr) : Nat :=
  (if hSlay h = 6 then 16 else 0) + scaleEntries h * (if hSfmt h = 2 then 4 else 2)

/-- The bytes of one line's 2:4 metadata (R85). -/
def metaLine (h : Hdr) : Nat := roundUp (ceilDiv (lineLen h / 4) 2) 16

/-- The size of the metadata area. -/
def metaSize (h : Hdr) : Nat :=
  if hSparse h = 1 then lineCount h * metaLine h else roundUp (ceilDiv (blockCount h) 8) 16

/-- The tile has a scale area of its own (EX8 blocks carry their scales). -/
def hasScales (h : Hdr) : Bool := hSlay h != 0 && !isEx8 (hEfmt h)

/-- The tile's extent in bytes, header included (R88). -/
def extentOf (h : Hdr) : Nat :=
  16 + max (payloadSize h) (max (if hasScales h then 16 * hSoff h + scaleSize h else 0)
    (if hSparse h = 0 then 0 else 16 * hMoff h + metaSize h))

/-! ### The checks of R88 -/

/-- A tile fault as R243 reports it. -/
structure TFail where
  cause : Nat := 0
  detail : Nat := 0
  step : Nat := 0
  role : Nat := 1
  reg : Nat := 0xFF
  index : Nat := 0
  deriving DecidableEq, Repr

/-- The scale combination is allowed (R84). -/
def scalesOk (h : Hdr) : Bool :=
  let e := hEfmt h
  match hSlay h with
  | 0 => hSfmt h == 0
  | 1 | 2 | 3 => hSfmt h != 0 && (isNarrow e || isHalf e)
  | 4 => hSfmt h != 0 && isNarrow e
  | 5 => hSfmt h != 0 && isHalf e
  | 6 => hSfmt h == 1 && isNarrow e && !isEx8 e
  | _ => false

/-- The sparsity is allowed (R85, R88 step 3). -/
def sparsityOk (h : Hdr) : Bool :=
  let e := hEfmt h
  hSparse h == 0 ||
  ((isNarrow e || isHalf e) && !isEx8 e &&
    (if hSparse h = 1 then lineLen h % 4 == 0
     else hRows h % 16 == 0 && hCols h % 16 == 0 && hOrder h == 0 && hStride h == 0))

/-- The requirements of R86 on an EX8 header, and EXT = 0 on every other. -/
def ex8Ok (h : Hdr) : Bool :=
  if isEx8 (hEfmt h) then
    hOrder h == 0 && hSparse h == 0 && hSlay h == 4 && hSfmt h == 1 && hSoff h == 0 && hMoff h == 0 && hStride h != 0
  else hExt h == 0

/-- The extent is consistent (R88 step 4). -/
def extentOk (h : Hdr) : Bool :=
  let p := payloadSize h
  let so := 16 * hSoff h
  let mo := 16 * hMoff h
  let sc := hasScales h
  let md := hSparse h != 0
  ((hSoff h != 0) == sc) && ((hMoff h != 0) == md) &&
  (hStride h == 0 || isEx8 (hEfmt h) || decide (packedLine h ≤ 16 * hStride h)) &&
  (hOrder h != 2 || lineStride h % 128 == 0) &&
  (!sc || decide (p ≤ so)) && (!md || decide (p ≤ mo)) &&
  (!sc || !md || decide (so + scaleSize h ≤ mo) || decide (mo + metaSize h ≤ so))

/-- Steps 1 to 4 of R88; the details are those of R243's list that name the failing field (log 22). -/
def hdrCheck (h : Hdr) : Option TFail :=
  if hMark h ≠ 0x5A ∨ hVer h ≠ 1 then some { cause := 25, detail := 0x03, step := 1 }
  else if !crcOk h then some { cause := 25, detail := 0x02, step := 1 }
  else if (elemBits (hEfmt h)).isNone ∨ h.getLsbD 31 then some { cause := 27, detail := 0x07, step := 2 }
  else if hSlay h > 6 ∨ hSfmt h = 3 then some { cause := 27, detail := 0x08, step := 2 }
  else if hSparse h > 2 then some { cause := 27, detail := 0x09, step := 2 }
  else if hOrder h = 3 then some { cause := 27, detail := 0x06, step := 2 }
  else if !scalesOk h then some { cause := 27, detail := 0x08, step := 3 }
  else if !sparsityOk h then some { cause := 27, detail := 0x09, step := 3 }
  else if !ex8Ok h then some { cause := 27, detail := 0x07, step := 3 }
  else if !extentOk h then some { cause := 27, detail := 0x0A, step := 4 }
  else none

/-- Steps 5 to 7: poison; for a pool tile, a slot of `room` bytes; for an operand from memory, SEALED. -/
def hdrUse (h : Hdr) (room : Option Nat) : Option TFail :=
  if hPsn h then some { cause := 48, step := 5 }
  else match room with
    | some r => if extentOf h > r then some { cause := 26, detail := 0x0D, step := 6 } else none
    | none => if hSealed h then none else some { cause := 26, step := 7 }

/-- All of R88 for a tile that is read. -/
def hdrCheckAll (h : Hdr) (room : Option Nat) : Option TFail := (hdrCheck h).orElse fun _ => hdrUse h room

/-- A tile fault of the current hart: the report (R243), counter 4 (R106), the trap. -/
def tileTrap {α : Type} (f : TFail) (tval : Word) : Exec α := fun s =>
  let w := word (f.cause + f.reg * 2 ^ 8 + f.role * 2 ^ 16 + f.step * 2 ^ 20 + f.detail * 2 ^ 24 + f.index * 2 ^ 32)
  .error (takeTrap (bump (s.modMe fun h => { h with tfr := w }) (coreOf s.cur) 4 1) s.cur false f.cause tval)

/-- Go on unless a check has failed. -/
def tileNeed (f : Option TFail) (tval : Word) : Exec Unit :=
  match f with
  | some f => tileTrap f tval
  | none => pure ()

/-! ### Elements -/

/-- A byte map from consecutive bytes. -/
def bytesMap (bs : List Byte) : SMap Byte := bs.zipIdx.filterMap fun (b, i) => if b = 0 then none else some (i, b)

/-- n bits at a bit position, of bytes given by address. -/
def bitsAt (at_ : Nat → Byte) (pos n : Nat) : Nat :=
  leToNat ((List.range (ceilDiv (pos % 8 + n) 8)).map fun i => at_ (pos / 8 + i)) / 2 ^ (pos % 8) % 2 ^ n

/-- Where byte k of line i lies: in swizzled order its 16-byte chunk is permuted within each 128 bytes (R85). -/
def linePos (h : Hdr) (i k : Nat) : Nat :=
  let c := k / 16
  let c := if hOrder h = 2 then c / 8 * 8 + ((c % 8) ^^^ (i % 8)) else c
  i * lineStride h + 16 * c + k % 16

/-- Bits of the payload's line i. -/
def lineBits (h : Hdr) (at_ : Nat → Byte) (i pos n : Nat) : Nat := bitsAt (fun k => at_ (linePos h i k)) pos n

/-- The kept positions of group g of line i under 2:4 sparsity (R147). -/
def keptOf (h : Hdr) (at_ : Nat → Byte) (i g : Nat) : Nat :=
  bitsAt (fun k => at_ (16 * hMoff h + i * metaLine h + k)) (4 * g) 4

/-- Block b of a bitmap tile is present. -/
def blockBit (h : Hdr) (at_ : Nat → Byte) (b : Nat) : Bool := bitsAt (fun k => at_ (16 * hMoff h + k)) b 1 == 1

/-- The bits of element (i, j) of a tile whose payload begins at byte 0 of `at_` (R85, R147). -/
def elemAt (h : Hdr) (at_ : Nat → Byte) (i j : Nat) : Nat :=
  let w := hBits h
  let l := if hOrder h = 1 then j else i
  let p := if hOrder h = 1 then i else j
  match hSparse h with
  | 1 =>
    let m := keptOf h at_ l (p / 4)
    if m / 2 ^ (p % 4) % 2 = 0 then 0
    else lineBits h at_ l ((p / 4 * 2 + popcount (p % 4) fun q => m / 2 ^ q % 2 == 1) * w) w
  | 2 =>
    let b := i / 16 * (hCols h / 16) + j / 16
    if !blockBit h at_ b then 0
    else bitsAt (fun k => at_ ((popcount b (blockBit h at_)) * (32 * w) + k)) ((i % 16 * 16 + j % 16) * w) w
  | _ => lineBits h at_ l (p * w) w

/-- Some group of a 2:4 tile keeps another number of elements than two (R147). -/
def badGroup (h : Hdr) (at_ : Nat → Byte) : Bool :=
  hSparse h == 1 && (List.range (lineCount h)).any fun i => (List.range (lineLen h / 4)).any fun g =>
    popcount 4 (fun q => keptOf h at_ i g / 2 ^ q % 2 == 1) != 2

/-! ### Scales (R84, R142) -/

/-- A UE8M4 scale (R142). -/
def ue8m4 (n : Nat) : FVal :=
  let e := n / 16 % 256
  if e = 0 then .num false 0 0 else if e = 255 then .nan false else .num false (16 + n % 16) ((e : Int) - 131)

/-- Scale entry k of a tile's scale area. -/
def scaleAt (h : Hdr) (at_ : Nat → Byte) (k : Nat) : FVal :=
  let base := 16 * hSoff h + (if hSlay h = 6 then 16 else 0)
  if hSfmt h = 2 then fp32.decode (leToNat ((List.range 4).map fun i => at_ (base + 4 * k + i)))
  else ue8m4 (leToNat ((List.range 2).map fun i => at_ (base + 2 * k + i)))

/-- The FP32 tile scale of layout 6. -/
def tileScale (h : Hdr) (at_ : Nat → Byte) : FVal := fp32.decode (leToNat ((List.range 4).map fun i => at_ (16 * hSoff h + i)))

/-- The exact product of two values; NaN for an infinity times zero. -/
def mulV (x y : FVal) : FVal :=
  if x.isNan || y.isNan then .nan false else (mulExact x y).getD (.nan false)

/-- The scale entry that applies to element (i, j) (R84). -/
def scaleIndex (h : Hdr) (i j : Nat) : Nat :=
  let l := if hOrder h = 1 then j else i
  let p := if hOrder h = 1 then i else j
  match hSlay h with
  | 2 => i
  | 3 => j
  | 4 | 6 => l * lineBlocks h + p / 32
  | 5 => l * lineBlocks h + p / 16
  | _ => 0

/-! ### Tiles in slots -/

/-- The bytes of a slot's tile, from its payload on. -/
def TileVal.at_ (t : TileVal) (k : Nat) : Byte := t.bytes.get 0 k

/-- The line stride of a decoded EX8 tile's elements in a slot. -/
def ex8Row (h : Hdr) : Nat := roundUp (hCols h) 16

/-- Element (i, j) of a slot's tile. -/
def TileVal.elem (t : TileVal) (i j : Nat) : Nat :=
  if isEx8 (hEfmt t.hdr) then (t.at_ (i * ex8Row t.hdr + j)).toNat else elemAt t.hdr t.at_ i j

/-- The block scale k of a decoded EX8 tile, its scales after its rows. -/
def TileVal.ex8Scale (t : TileVal) (k : Nat) : FVal :=
  let base := hRows t.hdr * ex8Row t.hdr + 2 * k
  ue8m4 (leToNat [t.at_ base, t.at_ (base + 1)])

/-- The scale of element (i, j) of a slot's tile; none where the tile has no scales. -/
def TileVal.scale (t : TileVal) (i j : Nat) : Option FVal :=
  if hSlay t.hdr = 0 then none
  else
    let k := scaleIndex t.hdr i j
    if isEx8 (hEfmt t.hdr) then some (t.ex8Scale k)
    else if hSlay t.hdr = 6 then some (mulV (tileScale t.hdr t.at_) (scaleAt t.hdr t.at_ k))
    else some (scaleAt t.hdr t.at_ k)

/-- The scale of element (i, j) is a NaN produced from no NaN: in layout 6 an infinite tile scale times a zero entry (R142, R153). -/
def TileVal.scaleMade (t : TileVal) (i j : Nat) : Bool :=
  hSlay t.hdr == 6 && !isEx8 (hEfmt t.hdr) && ((t.scale i j).any fun c => c.isNan) &&
    !(tileScale t.hdr t.at_).isNan && !(scaleAt t.hdr t.at_ (scaleIndex t.hdr i j)).isNan

/-- The exact value of element (i, j) with its scale (R264). -/
def TileVal.value (t : TileVal) (i j : Nat) : FVal :=
  let v := elemVal (hEfmt t.hdr) (t.elem i j)
  match t.scale i j with
  | some c => mulV v c
  | none => v

/-- The NaN scale entries of a slot's tile (R142). -/
def TileVal.nanScales (t : TileVal) : Nat :=
  if hSlay t.hdr = 0 then 0
  else if isEx8 (hEfmt t.hdr) then popcount (scaleEntries t.hdr) fun k => (t.ex8Scale k).isNan
  else popcount (scaleEntries t.hdr) (fun k => (scaleAt t.hdr t.at_ k).isNan) +
    (if hSlay t.hdr = 6 ∧ (tileScale t.hdr t.at_).isNan then 1 else 0)

/-! ### EX8 (R143 to R146) -/

/-- The code length of symbol `s` in a table word. -/
def codeLen (tab : Word) (s : Nat) : Nat := fld tab (4 * s) 4

/-- The table satisfies R144's limits. -/
def tableOk (tab : Word) : Bool :=
  ((List.range 16).all fun s => decide (codeLen tab s ≤ 11)) &&
  decide (((List.range 16).map fun s => if codeLen tab s = 0 then 0 else 2 ^ (11 - codeLen tab s)).foldl (· + ·) 0 ≤ 2 ^ 11)

/-- The canonical code of a table: length, codeword, symbol (R144). -/
def codesOf (tab : Word) : List (Nat × Nat × Nat) :=
  ((List.range 11).foldl (fun (st : Nat × List (Nat × Nat × Nat)) n =>
    let r := (List.range 16).foldl (fun (u : Nat × List (Nat × Nat × Nat)) s =>
      if codeLen tab s = n + 1 then (u.1 + 1, (n + 1, u.1 % 2 ^ (n + 1), s) :: u.2) else u) st
    (r.1 * 2, r.2)) (0, [])).2

/-- Stream bit j of a block that begins at byte `start` of a row (R145). -/
def streamBit (row : Nat → Byte) (start j : Nat) : Nat :=
  let k := 15 - j % 16
  b2n ((row (start + 2 * (j / 16) + k / 8)).getLsbD (k % 8))

/-- n stream bits from j on, most significant first. -/
def streamBits (row : Nat → Byte) (start j n : Nat) : Nat :=
  (List.range n).foldl (fun a i => a * 2 + streamBit row start (j + i)) 0

/-- One codeword from bit j on: the symbol and the next bit; none after 11 bits without a match. -/
def nextSymbol (codes : List (Nat × Nat × Nat)) (row : Nat → Byte) (start j : Nat) : Option (Nat × Nat) :=
  (List.range 11).findSome? fun n =>
    (codes.find? fun c => c.1 == n + 1 && c.2.1 == streamBits row start j (n + 1)).map fun c => (c.2.2, j + n + 1)

/-- n elements of a block, the exponents from bit j on: their E4M3 bytes, and the bit after them. -/
def blockElems (codes : List (Nat × Nat × Nat)) (row : Nat → Byte) (start : Nat) : Nat → Nat → Nat → Option (List Byte × Nat)
  | 0, _, j => some ([], j)
  | n + 1, i, j =>
    match nextSymbol codes row start j with
    | none => none
    | some (sym, j') =>
      match blockElems codes row start n (i + 1) j' with
      | none => none
      | some (r, e) =>
        let nib := streamBits row start (12 + 4 * i) 4
        some (BitVec.ofNat 8 (nib / 8 * 128 + sym * 8 + nib % 8) :: r, e)

/-- A decoded row: its elements and its block scales. -/
abbrev Ex8Row := List Byte × List Nat

/-- The blocks of a row from block j on (R145, R146): each ends before the next begins, the last before the row's end. -/
def rowBlocks (codes : List (Nat × Nat × Nat)) (row : Nat → Byte) (size nblk : Nat) : Nat → Nat → Option Ex8Row
  | 0, _ => some ([], [])
  | n + 1, j =>
    let off := fun k => 16 * leToNat [row (2 * k), row (2 * k + 1)]
    let start := off j
    let limit := if j + 1 < nblk then min (off (j + 1)) size else size
    match blockElems codes row start 32 0 140 with
    | none => none
    | some (es, e) =>
      if start + roundUp e 16 / 8 > limit then none
      else match rowBlocks codes row size nblk n (j + 1) with
        | none => none
        | some (es', ss) => some (es ++ es', streamBits row start 0 12 :: ss)

/-- One row of an EX8 tile under a table's codes; none where the decode fails (R146). -/
def ex8DecodeRow (h : Hdr) (codes : List (Nat × Nat × Nat)) (at_ : Nat → Byte) (i : Nat) : Option Ex8Row :=
  let size := 16 * hStride h
  let row := fun k => if k < size then at_ (i * size + k) else 0
  let n := lineBlocks h
  let off := fun k => 16 * leToNat [row (2 * k), row (2 * k + 1)]
  if off 0 < roundUp (2 * n) 16 || roundUp (2 * n) 16 > size || (List.range (n - 1)).any fun k => decide (off (k + 1) ≤ off k) then none
  else rowBlocks codes row size n n 0

/-- An EX8 tile decoded (R254): the elements row by row, then the scales; or the lowest failing row. -/
def ex8Decode (h : Hdr) (tab : Word) (at_ : Nat → Byte) : Except Nat (List Byte) :=
  if !tableOk tab then .error 0
  else
    let codes := codesOf tab
    let rows := (List.range (hRows h)).map fun i => ex8DecodeRow h codes at_ i
    match rows.findIdx? (·.isNone) with
    | some i => .error i
    | none =>
      let rs := rows.filterMap id
      .ok ((rs.map fun r => (r.1.take (hCols h) ++ List.replicate (ex8Row h - hCols h) 0)).flatten ++
        (rs.map fun r => (r.2.map (natToLe 2)).flatten).flatten)

end Sys2Proof.Machine
end

