-- ==== Sys2Proof/Machine/Pool.lean ====
section
/-!
DEFINITION. Tile pools (R89 to R103) and the pool instructions of group 100 (R245 to R251, R255), with the events of blocked
allocations and of the starvation detector.
-/
namespace Sys2Proof.Machine

/-! ### Handles (R89, R90) -/

def hdlGen (w : Word) : Nat := fld w 32 16
def hdlClus (w : Word) : Nat := fld w 20 7
def hdlPart (w : Word) : Nat := fld w 14 6
def hdlSlot (w : Word) : Nat := fld w 0 14

/-- The handle of a slot. -/
def mkHandle (gen clus part slot : Nat) : Word := word (gen * 2 ^ 32 + clus * 2 ^ 20 + part * 2 ^ 14 + slot)

/-- The reserved bits of a handle are 0. -/
def hdlFormed (w : Word) : Bool := fld w 48 16 == 0 && fld w 27 5 == 0 && fld w 10 4 == 0

/-- The units, and the bytes, of a slot of a size class (R92). -/
def classUnits (cls : Nat) : Nat := 4 ^ cls
def classBytes (cls : Nat) : Nat := 4096 * 4 ^ cls

/-- The first units of a partition's slots. -/
def Partition.slotUnits (p : Partition) : List Nat := (List.range p.count).map fun i => p.base + i * classUnits p.cls

/-- A slab whose switch is in progress is closed (R74), and so is one that a function-level reset recalls (R72). -/
def Cluster.closed (c : Cluster) (slab : Nat) : Bool := (c.slabPhase != 0 && c.swSlab == slab) || c.recalled.contains slab

/-- A live tile: its cluster, partition and first unit, the size of its slot. -/
structure TileRef where
  clus : Nat := 0
  part : Nat := 0
  unit : Nat := 0
  room : Nat := 0
  deriving DecidableEq, Repr

/-- The live tile that a handle names for a function (R90). -/
def liveTile (s : State) (fn : Nat) (w : Word) : Option TileRef :=
  let k := hdlClus w
  let p := (s.cluster k).part (hdlPart w)
  let t := (s.cluster k).slot (hdlSlot w)
  if hdlFormed w && p.en && p.slotUnits.contains (hdlSlot w) && t.gen == hdlGen w && t.st != .free && p.fn == fn then
    some { clus := k, part := hdlPart w, unit := hdlSlot w, room := classBytes p.cls }
  else none

/-- A core runs the enclave whose hart enabled a partition (R334). -/
def eidOk (s : State) (c clus part : Nat) : Bool := ((s.cluster clus).part part).eid == (s.core c).kencl.toNat

/-- The slot of a live tile. -/
def State.tile (s : State) (r : TileRef) : PoolSlot := (s.cluster r.clus).slot r.unit
def State.modTile (s : State) (r : TileRef) (f : PoolSlot → PoolSlot) : State := s.modCluster r.clus fun c => c.modSlot r.unit f

/-- The detector's count of a partition starts again (R103). -/
def touchPart (s : State) (clus part : Nat) : State :=
  s.modCluster clus fun c => c.modPart part fun p => { p with lastRead := s.clock }

/-- A slot becomes FREE under the next generation (R91). That P's count restarts also where a copy's new tile is dropped, and not at a `tskip`
of a POISONED tile, which frees and counts nothing, is the model's choice (R103; log 73). -/
def freeTile (s : State) (r : TileRef) : State :=
  touchPart (s.modTile r fun t => { gen := if t.gen = 0xFFFF then 1 else t.gen + 1 }) r.clus r.part

/-- The stored header of a slot. -/
def PoolSlot.hdr (t : PoolSlot) : Hdr := hdrOf ((List.range 16).map fun i => t.bytes.get 0 i)

/-- The payload byte k of a slot. -/
def PoolSlot.payload (t : PoolSlot) (k : Nat) : Byte := t.bytes.get 0 (16 + k)

/-- Bytes written to a slot, (offset, value) pairs; the written bits of their lines are set (R97), the tile takes the writer's
taint (R351). -/
def PoolSlot.put (t : PoolSlot) (bs : List (Nat × Byte)) (taint : BitVec 16) : PoolSlot :=
  { t with
    bytes := bs.foldl (fun (m : SMap Byte) (x : Nat × Byte) => m.set 0 x.1 x.2) t.bytes
    written := ((bs.map fun x => x.1 / 128).eraseDups).foldl (fun (m : SMap Bool) (l : Nat) => m.set false l true) t.written
    taint := t.taint ||| taint }

/-- Bytes with their offsets. -/
def atOffset (off : Nat) (bs : List Byte) : List (Nat × Byte) := bs.zipIdx.map fun (b, i) => (off + i, b)

/-! ### Allocation (R94, R95) -/

/-- The slots of a partition that a launch holds: INUSE (R92). -/
def inUse (s : State) (clus part launch : Nat) : Nat :=
  let c := s.cluster clus
  ((c.part part).slotUnits.filter fun u => (c.slot u).st != .free && (c.slot u).owner == launch).length

/-- The FREE slots of a partition that are open to allocation: the partition is enabled, and their slabs are in pool mode and not closed (R74,
R92). -/
def freeUnits (s : State) (clus part : Nat) : List Nat :=
  let c := s.cluster clus
  (c.part part).slotUnits.filter fun u => (c.part part).en && (c.slot u).st == .free && c.modes.get 0 (u / 64) == 3 && !c.closed (u / 64)

/-- The valid owner entry of a launch. -/
def ownerOf (p : Partition) (launch : Nat) : Option Owner :=
  ((p.owners).map (·.2)).find? fun o => o.v && o.launch == launch

/-- R94's grant condition. -/
def grantable (s : State) (clus part launch : Nat) : Bool :=
  let p := (s.cluster clus).part part
  match ownerOf p launch with
  | none => false
  | some e =>
    let reserved := (p.owners.map fun (_, o) => if o.v && o.launch != launch then o.min - inUse s clus part o.launch else 0).foldl (· + ·) 0
    p.en && decide (inUse s clus part launch < e.max) && decide (1 + reserved ≤ (freeUnits s clus part).length)

/-- Take the lowest FREE slot for a launch with a declared count (R94). -/
def takeSlot (s : State) (clus part launch n : Nat) : State × Word :=
  match freeUnits s clus part with
  | [] => (s, 0)
  | u :: _ =>
    let g := ((s.cluster clus).slot u).gen
    (s.modCluster clus fun c => c.modSlot u fun t => { gen := t.gen, st := .opened, owner := launch, n := n }, mkHandle g clus part u)

/-- The launch of a waiter. -/
def waiterLaunch (s : State) (w : Waiter) : Nat :=
  match w with
  | .hart h => launchOf s h
  | .copy c i => (((s.core c).req i).map (·.launch)).getD 0

/-- The state after R94 has granted every waiting allocation of a partition that it can. -/
def afterWaiters (clus part : Nat) : List Waiter → State → State
  | [], s => s
  | w :: ws, s =>
    let l := waiterLaunch s w
    afterWaiters clus part ws (if grantable s clus part l then (takeSlot s clus part l 1).1 else s)

/-- A new request of a launch is granted: a slot remains for it after the waiting ones (R95). -/
def newGrant (s : State) (clus part launch : Nat) : Bool :=
  grantable (afterWaiters clus part ((s.cluster clus).part part).waiters s) clus part launch

/-- The refusals of an allocation from a core (R94, R334): no partition, no owner entry, a count outside 1 to 255, another enclave. -/
def allocRefused (s : State) (c clus part launch n : Nat) : Bool :=
  let p := (s.cluster clus).part part
  !p.en || !eidOk s c clus part || (ownerOf p launch).isNone || n == 0 || decide (255 < n)

/-- The partition and the count that a `talloc` names (R245). -/
def tallocArgs (h : Hart) (f : L64) : Nat × Nat :=
  let v := if f.ib = 1 then word f.imm15.toNat else h.getX f.a.toNat
  (fld v 0 6, fld v 6 8)

/-- `talloc` and `talloc.nb` (R245). -/
def tallocOp (nb : Bool) (f : L64) : Exec Unit := fun s =>
  let (part, n) := tallocArgs s.me f
  let k := s.myCluster
  let l := launchOf s s.cur
  if allocRefused s (coreOf s.cur) k part l n then tileTrap { cause := 28, role := 0 } (mkHandle 0 k part 0) s
  else if newGrant s k part l then
    let (s, w) := takeSlot s k part l n
    .ok ((), retire (s.modMe fun h => h.setX f.d.toNat w))
  else if nb then .ok ((), retire (s.modMe fun h => h.setX f.d.toNat 0))
  else
    let s := s.modCluster k fun c => c.modPart part fun p => { p with waiters := p.waiters ++ [.hart s.cur] }
    stallWith (.talloc k part s.clock) (bump s (coreOf s.cur) 12 1)

/-- `talloc` from the immediate (R245). -/
def execTallocImm (f : L64) (s : State) : Host.Outcome State Fault Refusal := finish (tallocOp false f) s

/-- `talloc` from x[a] (R245). -/
def execTallocReg (f : L64) (s : State) : Host.Outcome State Fault Refusal := finish (tallocOp false f) s

/-- `talloc.nb` from the immediate (R245). -/
def execTallocNbImm (f : L64) (s : State) : Host.Outcome State Fault Refusal := finish (tallocOp true f) s

/-- `talloc.nb` from x[a] (R245). -/
def execTallocNbReg (f : L64) (s : State) : Host.Outcome State Fault Refusal := finish (tallocOp true f) s

/-- The fields of the L64 instruction that a hart last fetched, as far as `talloc` has them (R185). -/
def latchedTalloc (h : Hart) : L64 :=
  { d := BitVec.ofNat 5 (fld h.ibits 7 5), a := BitVec.ofNat 5 (fld h.ibits 15 5), ib := BitVec.ofNat 1 (fld h.ibits 48 1)
    imm15 := BitVec.ofNat 15 (fld h.ibits 49 15) }

/-- How a request that has what it was parked on goes on: at work where one of the four places is free, else it waits for one (R292). -/
def Core.atWork (x : Core) : CopySt :=
  if (x.fifo.filter fun r => r.2.any fun r => r.st == .working || r.st == .waitTile).length < 4 then .working else .resume

/-- A waiting allocation is granted: a hart's `talloc` completes; a copy request goes on with its tile (R95). -/
def grantWaiter (s : State) (clus part : Nat) (w : Waiter) : State :=
  let s := s.modCluster clus fun c => c.modPart part fun p => { p with waiters := p.waiters.filter (· != w) }
  match w with
  | .hart h =>
    let f := latchedTalloc (s.hart h)
    let (s, v) := takeSlot s clus part (launchOf s h) (tallocArgs (s.hart h) f).2
    s.modHart h fun x => (x.setX f.d.toNat v).done
  | .copy c i =>
    match (s.core c).req i with
    | none => s
    | some r =>
      let (s, v) := takeSlot s clus part r.launch (fld r.w3 32 8)
      s.modCore c fun x => x.setReq i (some { r with handle := v, st := x.atWork })

/-- TALLOC_GRANT (R95): of the allocations that wait in partition `b` of cluster `a`, the first in their order that R94 grants. -/
def execTallocGrant (s : State) : Host.Outcome State Fault Refusal :=
  let k := s.ev.a
  let p := s.ev.b
  match ((s.cluster k).part p).waiters.find? fun w => grantable s k p (waiterLaunch s w) with
  | some w => .next (grantWaiter s k p w)
  | none => .next s

/-- A tile fault of any hart: the report (R243), counter 4 (R106), the trap. -/
def tileTrapOn (s : State) (h : Nat) (f : TFail) (tval : Word) : State :=
  let w := word (f.cause + f.reg * 2 ^ 8 + f.role * 2 ^ 16 + f.step * 2 ^ 20 + f.detail * 2 ^ 24 + f.index * 2 ^ 32)
  takeTrap (bump (s.modHart h fun x => { x with tfr := w }) (coreOf h) 4 1) h false f.cause tval

/-- The resident harts of the launches that hold an owner entry of a partition (R103). -/
def starvers (s : State) (clus part : Nat) : List (Nat × Hart) :=
  let p := (s.cluster clus).part part
  s.harts.filter fun (h, x) => x.live && !x.retired && launchOf s h != 0 && (ownerOf p (launchOf s h)).isSome

/-- The detector's condition for a partition (R103). -/
def starved (s : State) (clus part : Nat) : Bool :=
  let lim := (s.cluster clus).kpoolto.toNat
  let hs := starvers s clus part
  lim != 0 && !hs.isEmpty && decide (lim ≤ s.clock - ((s.cluster clus).part part).lastRead) &&
  hs.all fun (_, x) => match x.wait with
    | .talloc k p n => k == clus && p == part && decide (lim ≤ s.clock - n)
    | _ => false

/-- STARVATION_DETECTOR_FIRE (R103): partition `b` of cluster `a`, where the condition holds. -/
def execStarvationDetectorFire (s : State) : Host.Outcome State Fault Refusal :=
  let k := s.ev.a
  let p := s.ev.b
  if !starved s k p then .next s
  else
    let t := (starvers s k p).foldl (fun t (h, _) => tileTrapOn (withdraw t h) h { cause := 31, role := 0 } (mkHandle 0 k p 0)) s
    .next (touchPart (t.modDie (k / 16) fun d => { d with poolEv := d.poolEv.set false (k * 64 + p) true }) k p)

/-! ### Using a handle -/

/-- The live tile to read that x[a] names; cause 28 where there is none, or for another enclave (R334). -/
def needTile (w : Word) : Exec TileRef := fun s =>
  match liveTile s s.me.fn w with
  | some r => if eidOk s (coreOf s.cur) r.clus r.part then .ok (r, s) else tileTrap { cause := 28 } w s
  | none => tileTrap { cause := 28 } w s

/-- The tile is in an admitted state and owned by the hart's launch; else cause 28 (R96). -/
def needOwned (w : Word) (states : List TileSt) (role : Nat := 1) : Exec TileRef := fun s =>
  match liveTile s s.me.fn w with
  | none => tileTrap { cause := 28, role := role } w s
  | some r =>
    if states.contains (s.tile r).st && (s.tile r).owner == launchOf s s.cur then .ok (r, s)
    else tileTrap { cause := 28, role := role } w s

/-- A tile to drop or to give: of the hart's launch, in any state, and of the core's enclave (R96, R334). -/
def needMine (w : Word) : Exec TileRef := do
  let r ← needOwned w [.opened, .sealed, .poisoned]
  fun s => if eidOk s (coreOf s.cur) r.clus r.part then .ok (r, s) else tileTrap { cause := 28 } w s

/-- A tile to be read: SEALED, else cause 28, or 48 for a poisoned one (R96); a consuming read, and one that reserves, waits while
every remaining count is reserved (R253). -/
def needSealed (w : Word) (counts : Bool) : Exec TileRef := do
  let r ← needTile w
  fun s =>
    let t := s.tile r
    match t.st with
    | .sealed => if counts && decide (t.c ≤ t.res) then stallWith .stall s else .ok (r, s)
    | .poisoned => tileTrap { cause := 48 } w s
    | _ => tileTrap { cause := 28 } w s

/-- One consuming read of a tile (R96): the count falls, the last read frees the slot. -/
def consume (s : State) (r : TileRef) : State :=
  let t := s.tile r
  if t.c ≤ 1 then freeTile s r else touchPart (s.modTile r fun t => { t with c := t.c - 1 }) r.clus r.part

/-- A reader of a pool tile acquires at scope 2 in the pool's cluster, else 4 (R126). -/
def poolAcquire (s : State) (r : TileRef) : State := acquire s (if s.myCluster = r.clus then 2 else 4)

/-- The reader's context takes the tile's taint (R351). -/
def takeTileTaint (s : State) (r : TileRef) : State := addTaint s s.cur (s.tile r).taint

/-- A pool write of the current hart. -/
def putTile (r : TileRef) (bs : List (Nat × Byte)) : Exec Unit := upd fun s => s.modTile r fun t => t.put bs (taintOf s s.cur)

/-! ### Tile accesses to memory (R111) -/

/-- The pieces of an access of n bytes, cut at the 64 KiB page; each piece reports its own first address. -/
def pageSegs : Nat → Word → Nat → List Seg
  | 0, _, _ => []
  | k + 1, va, n =>
    let m := min n (65536 - va.toNat % 65536)
    if n = 0 then [] else { lane := 0xFF, va := va, at_ := va, n := m } :: pageSegs k (va + word m) (n - m)

/-- The pieces of a tile access. -/
def tileSegs (va : Word) (n : Nat) : List Seg := pageSegs (n / 65536 + 2) va n

/-- A tile's address in memory must be a multiple of 128 (R88). -/
def needAligned (va : Word) (role : Nat := 1) : Exec Unit :=
  if va.toNat % 128 = 0 then pure () else tileTrap { cause := 27, role := role } va

/-- Hold and check a tile access of the current hart (R80, R23): code 3 reads, code 4 writes. -/
def tilePlace (write : Bool) (va : Word) (n : Nat) : Exec (List Placed) := do
  wmCheck [(va.toNat, n)]
  let w ← whoX
  placeMine w .tile (if write then .wr else .rd) (if write then 4 else 3) (tileSegs va n)

/-- The bytes of placed pieces; a failed tag ends the instruction (R340). -/
def tileRead (ps : List Placed) : Exec (List Byte) := fun s =>
  let w := whoOf s s.cur true
  match tagBroken s w ps with
  | some (g, pa, key) => .error (sealFail s s.cur pa key g.va)
  | none => .ok (seenPieces s w ps, bringIn s w ps)

/-- Some placed piece holds poison. -/
def tilePoison (s : State) (ps : List Placed) : Bool := poisonIn s (whoOf s s.cur true) ps

/-- Store (offset, byte) pairs of a tile access at `va` (R111). -/
def tileStore (va : Word) (ps : List Placed) (bs : List (Nat × Byte)) : Exec Unit := do
  let w ← whoX
  fun s =>
    let cs : List VCell := bs.map fun (k, b) => cellAt va ps k b
    match sealBroken s w cs with
    | some x => .error (sealFail s s.cur x.cell.pa x.cell.key (word x.va))
    | none => .ok ((), storeCells s w cs)

/-! ### Writing and sealing (R246 to R248) -/

/-- The header that `thdr` writes: PSN 0, the CRC computed (R246). -/
def thdrWord (h : Hart) (f : L64) (keepSealed : Bool) : Hdr :=
  let w : Hdr := BitVec.ofNat 128 ((h.getX f.b.toNat).toNat + (h.getX f.c.toNat).toNat % 2 ^ 48 * 2 ^ 64)
  let w := setHf w 29 1 0
  sealCrc (if keepSealed then w else setHf w 30 1 0)

/-- `thdr` with a handle (R246). -/
def execThdr (f : L64) (s : State) : Host.Outcome State Fault Refusal :=
  finish (do
    let h ← meX
    let r ← needOwned (h.getX f.a.toNat) [.opened]
    putTile r (atOffset 0 (natToLe 16 (thdrWord h f false).toNat))
    retireX) s

/-- `thdr.m` (R246). -/
def execThdrM (f : L64) (s : State) : Host.Outcome State Fault Refusal :=
  finish (do
    let h ← meX
    let va := h.getX f.a.toNat
    needAligned va
    countOn true
    let ps ← tilePlace true va 16
    tileStore va ps (atOffset 0 (natToLe 16 (thdrWord h f true).toNat))
    retireX) s

/-- The signed payload offset of lane l (R247, R255). -/
def tileOff (h : Hart) (f : L64) (size : Nat) (imm : Int) (l : Nat) : Int :=
  (if f.ib = 1 then (l : Int) else (h.getV f.b.toNat l).toNat) * size + imm

/-- The lowest active lane whose offset is negative, not a multiple of the size, or ends beyond `room` payload bytes. -/
def badOff (offs : List (Nat × Int)) (size room : Nat) : Option TFail :=
  (offs.find? fun (_, o) => decide (o < 0) || o % (size : Int) != 0 || decide ((room : Int) < o + size)).map fun (l, _) =>
    { cause := 26, detail := 0x0A, index := l }

/-- `tst` (R247). -/
def execTst (f : L64) (s : State) : Host.Outcome State Fault Refusal :=
  finish (do
    let ls ← memStart f
    let h ← meX
    let w := h.getX f.a.toNat
    let size := 4 * 2 ^ f.ty.toNat
    let r ← needOwned w [.opened]
    let offs := ls.map fun l => (l, tileOff h f size f.imm15.toInt l)
    tileNeed (badOff offs size (r.room - 16)) w
    putTile r (offs.map fun (l, o) => atOffset (16 + o.toNat) (h.dataBytes f.c.toNat l size)).flatten
    retireX) s

/-- `tseal` (R248): steps 1 to 4 and 6 of R88, then SEALED with c := n. -/
def execTseal (f : L64) (s : State) : Host.Outcome State Fault Refusal :=
  finish (do
    let h ← meX
    let w := h.getX f.a.toNat
    let r ← needOwned w [.opened]
    let t ← rd fun s => s.tile r
    tileNeed (hdrCheck t.hdr) w
    tileNeed (if extentOf t.hdr > r.room then some { cause := 26, detail := 0x0D, step := 6 } else none) w
    putTile r (atOffset 0 (natToLe 16 (sealCrc (setHf t.hdr 30 1 1)).toNat))
    upd fun s => s.modTile r fun t => { t with st := .sealed, c := t.n }
    retireX) s

/-! ### `tdrop`, `tskip`, `tgive` (R249) -/

/-- Wait while reservations are open on a tile (R253). -/
def waitRes (r : TileRef) : Exec Unit := fun s => if (s.tile r).res ≠ 0 then stallWith .stall s else .ok ((), s)

/-- `tdrop` (R249). -/
def execTdrop (f : L64) (s : State) : Host.Outcome State Fault Refusal :=
  finish (do
    let h ← meX
    let r ← needMine (h.getX f.a.toNat)
    waitRes r
    upd fun s => freeTile s r
    retireX) s

/-- `tskip` (R249). -/
def execTskip (f : L64) (s : State) : Host.Outcome State Fault Refusal :=
  finish (do
    let h ← meX
    let w := h.getX f.a.toNat
    let r ← needTile w
    let t ← rd fun s => s.tile r
    if t.st = .poisoned then retireX
    else
      let r ← needSealed w true
      upd fun s => poolAcquire (consume s r) r
      retireX) s

/-- `tgive` (R249, R100). -/
def execTgive (f : L64) (s : State) : Host.Outcome State Fault Refusal :=
  finish (do
    let h ← meX
    let w := h.getX f.a.toNat
    let r ← needMine w
    let l := fld (h.getX f.b.toNat) 0 16
    let p ← rd fun s => (s.cluster r.clus).part r.part
    if (ownerOf p l).isNone then tileTrap { cause := 28 } w else pure ()
    waitRes r
    upd fun s => s.modTile r fun t => { t with owner := l }
    retireX) s

/-! ### `tcnt` and `tinfo` (R250, R251) -/

def TileSt.code (t : TileSt) : Nat :=
  match t with
  | .free => 0
  | .opened => 1
  | .sealed => 2
  | .poisoned => 3

/-- The word of `tcnt` (R250). -/
def tcntWord (s : State) (w : Word) : Word :=
  match liveTile s s.me.fn w with
  | none => 0
  | some r =>
    let t := s.tile r
    word ((if t.st = .sealed then t.c - t.res else 0) + t.n * 2 ^ 8 + t.st.code * 2 ^ 16 + b2n (t.owner == launchOf s s.cur) * 2 ^ 18)

/-- `tcnt` (R250). -/
def execTcnt (f : L64) (s : State) : Host.Outcome State Fault Refusal :=
  doneWith (fun h => h.setX f.d.toNat (tcntWord s (h.getX f.a.toNat))) s

/-- The word of `tinfo` with a handle (R251). -/
def tinfoWord (s : State) (sel : Nat) (w : Word) : Word :=
  if sel = 3 then s.me.tfr
  else match liveTile s s.me.fn w with
    | none => 0
    | some r =>
      let t := s.tile r
      match sel with
      | 0 => word (hf t.hdr 0 64)
      | 1 => word (hf t.hdr 64 64)
      | _ => word (((s.cluster r.clus).part r.part).cls * 2 ^ 16 + t.owner)

/-- `tinfo` (R251). -/
def execTinfo (f : L64) (s : State) : Host.Outcome State Fault Refusal :=
  doneWith (fun h => h.setX f.d.toNat (tinfoWord s (f.imm15.toNat % 4) (h.getX f.a.toNat))) s

/-! ### `tldl` (R255) -/

/-- `tldl` with no active lane: with the consume bit one consuming read without data, else nothing. -/
def tldlNone (f : L64) (w : Word) : Exec Unit := do
  if f.imm15.getLsbD 14 then
    let r ← needTile w
    let t ← rd fun s => s.tile r
    if t.st = .poisoned then retireX
    else
      let r ← needSealed w true
      upd fun s => poolAcquire (consume s r) r
      retireX
  else retireX

/-- `tldl` with active lanes. -/
def tldlLanes (f : L64) (w : Word) (ls : List Nat) : Exec Unit := do
  let h ← meX
  let cons := f.imm15.getLsbD 14
  let size := 4 * 2 ^ f.ty.toNat
  countOn false
  let r ← needSealed w cons
  let t ← rd fun s => s.tile r
  tileNeed (hdrCheckAll t.hdr (some r.room)) w
  let offs := ls.map fun l => (l, tileOff h f size (f.imm15.extractLsb' 0 13).toInt l)
  tileNeed (badOff offs size (extentOf t.hdr - 16)) w
  upd fun s => takeTileTaint s r
  onMe fun h => (offs.foldl (fun x (l, o) => x.putBytes f.d.toNat l size false ((List.range size).map fun i => t.payload (o.toNat + i))) h).dirtyXs
  upd fun s => poolAcquire (if cons then consume s r else s) r
  retireX

/-- `tldl` (R255). -/
def execTldl (f : L64) (s : State) : Host.Outcome State Fault Refusal :=
  let w := s.me.getX f.a.toNat
  if effMask s.me f = 0 then finish (tldlNone f w) s else finish (tldlLanes f w (activeLanes s.me f)) s

end Sys2Proof.Machine
end

