-- ==== Sys2Proof/Machine/Matrix.lean ====
section
/-!
DEFINITION. The matrix unit: grants and order (R240 to R242), the loads of slots and accumulators (R252 to R254, R261), `tmma`
(R256 to R259), `tzero`, accumulator reads and writes (R260, R262), converting stores (R263, R264), the pop quiz (R266 to R268).
-/
namespace Sys2Proof.Machine

/-! ### Grants and the unit's order (R241, R242) -/

/-- The accumulators granted to the current hart's class; none without a grant, and for a firing. -/
def grantOf (s : State) : Option Nat :=
  match s.me.bind with
  | .cls k => (s.cls k).acc
  | _ => none

/-- A tile register code lies inside a grant. -/
def inGrant (g : Option Nat) (code : Nat) : Bool :=
  match g with
  | none => false
  | some n => code < 8 || decide (code - 8 < n)

/-- The registers named, (code, role) pairs, lie inside the grant: cause 26, detail 0x0B (R241). -/
def needGrant (rs : List (Nat × Nat)) : Exec Unit := fun s =>
  match rs.find? fun x => !inGrant (grantOf s) x.1 with
  | some x => tileTrap { cause := 26, detail := 0x0B, role := x.2, reg := x.1 } 0 s
  | none => .ok ((), s)

/-- A `tmma` in progress names a slot or accumulator code. -/
def inUseByUnit (c : Core) (code : Nat) : Bool := c.mx.any fun o => o.acc + 8 == code || o.a == code || o.b == code

/-- A `tmma` in progress has yet to write an accumulator code. -/
def accPending (c : Core) (code : Nat) : Bool := c.mx.any fun o => o.acc + 8 == code

/-- Take a place in the unit's order: a due pop quiz comes first (R266), then the `tmma` that write what this instruction names
(R242). -/
def unitTake (codes : List Nat) : Exec Unit := fun s =>
  if 4096 ≤ s.myCore.mxCount ∨ codes.any (accPending s.myCore) then stallWith .stall s else .ok ((), s)

/-! ### Loading (R240, R252, R261) -/

/-- The limits of an operand slot, the format before the shape (R240). -/
def slotLimits (code : Nat) (h : Hdr) : Option TFail :=
  let e := hEfmt h
  let k := if e = 1 then 64 else if e = 2 then 128 else 256
  if e = 0x10 ∨ (isEx8 e ∧ 4 ≤ code) then some { cause := 27, detail := 0x07 }
  else if (if code < 4 then hRows h > 128 ∨ hCols h > k else hRows h > k ∨ hCols h > (if e = 1 then 64 else 128)) then
    some { cause := 26, detail := 0x0D }
  else none

/-- The limits of an accumulator (R261). -/
def accLimits (h : Hdr) : Option TFail :=
  let e := hEfmt h
  if e ≠ 1 ∧ e ≠ 2 ∧ e ≠ 0x10 then some { cause := 27, detail := 0x07 }
  else if hSlay h ≠ 0 then some { cause := 27, detail := 0x08 }
  else if hSparse h ≠ 0 then some { cause := 27, detail := 0x09 }
  else if hRows h > 128 ∨ hCols h > (if e = 1 then 64 else 128) then some { cause := 26, detail := 0x0D }
  else none

/-- The address of the code table's word (R143). -/
def kxtabWord (h : Hart) (ext : Nat) : Word := sext (setFld h.k.kxtab 0 11 0) 55 + word (8 * ext)

/-- The decoded elements of an EX8 tile (R254): the table word is a tile read of the hart; a poisoned word, and a failing decode,
end the load. Counter 8 counts the blocks of a decode that succeeds (log 73). -/
def ex8Load (w : Word) (h : Hdr) (at_ : Nat → Byte) : Exec (List Byte) := do
  let x ← meX
  if !x.k.kxtab.getLsbD 0 then tileTrap { cause := 25, detail := 0x01 } w
  else
    let va := kxtabWord x (hExt h)
    let ps ← tilePlace false va 8
    (fun s => if tilePoison s ps then tileTrap { cause := 48, detail := 0x01 } va s else .ok ((), s) : Exec Unit)
    let bs ← tileRead ps
    match ex8Decode h (leWord bs) at_ with
    | .error i => tileTrap { cause := 25, detail := 0x01, index := i } w
    | .ok r =>
      upd fun s => bump s (coreOf s.cur) 8 (hRows h * lineBlocks h)
      pure r

/-- The header that an accumulator takes from a tile (R261). -/
def accHdr (h : Hdr) : Hdr := sealCrc (setHf (setHf (setHf (setHf (setHf h 27 2 0) 30 1 0) 64 16 0) 80 16 0) 96 16 0)

/-- The elements of a tile as an accumulator holds them. -/
def accElems (h : Hdr) (at_ : Nat → Byte) : SMap Word :=
  ((List.range (hRows h)).map fun i => (List.range (hCols h)).filterMap fun j =>
    let v := word (elemAt h at_ i j)
    if v = 0 then none else some (128 * i + j, v)).flatten

/-- A checked tile enters slot or accumulator `code`: its limits, EX8 decoding, then poison, then the write (R252 steps 4 to 7). -/
def acceptTile (code : Nat) (w : Word) (h : Hdr) (bytes : SMap Byte) (psn : Bool) : Exec Unit := do
  let at_ := fun k => bytes.get 0 k
  let pois : Exec Unit := if psn then tileTrap { cause := 48 } w else pure ()
  if code < 8 then
    tileNeed (slotLimits code h) w
    let kept ← (if isEx8 (hEfmt h) then do
        let r ← ex8Load w h at_
        pure (bytesMap r)
      else pure bytes : Exec (SMap Byte))
    pois
    upd fun s => s.modMyCore fun c => c.setOp code { loaded := true, hdr := h, bytes := kept }
  else
    tileNeed (accLimits h) w
    pois
    upd fun s => s.modMyCore fun c => c.setAcc (code - 8) { hdr := accHdr h, elems := accElems h at_ }

/-- The bytes of a slot's tile from its payload on. -/
def PoolSlot.body (t : PoolSlot) : SMap Byte :=
  t.bytes.filterMap fun (k, b) => if 16 ≤ k ∧ k < extentOf t.hdr then some (k - 16, b) else none

/-- The unit's side of a load from a pool tile: R88, acceptance, and with it the count (R252, R253). -/
def loadFromPool (code : Nat) (w : Word) (cons : Bool) (r : TileRef) : Exec Unit := do
  let t ← rd fun s => s.tile r
  tileNeed (hdrCheckAll t.hdr (some r.room)) w
  acceptTile code w t.hdr t.body false
  upd fun s => takeTileTaint s r
  upd fun s => poolAcquire (if cons then consume s r else s) r
  retireX

/-- A load from a pool tile (R252). Where a `tmma` in progress still uses the register the tile is reserved and the hart waits for
the commit (R253), where it takes its place in the unit's order (log 73); otherwise reservation and commit fall together. -/
def poolLoad (f : L64) (cons : Bool) : Exec Unit := do
  let code := f.d.toNat
  needGrant [(code, 0)]
  unitTake []
  countOn false
  let h ← meX
  let w := h.getX f.a.toNat
  let r ← needSealed w cons
  let busy ← rd fun s => inUseByUnit s.myCore code
  if busy then
    upd fun s => s.modTile r fun t => { t with res := t.res + 1 }
    fun s => stallWith (.reserve r.clus r.unit (s.tile r).gen) s
  else loadFromPool code w cons r

/-- A load from a tile in memory (R252): alignment, the header's bytes, every page of the extent, then R88. -/
def memLoad (f : L64) : Exec Unit := do
  let code := f.d.toNat
  needGrant [(code, 0)]
  unitTake [code]
  countOn false
  let h ← meX
  let va := h.getX f.a.toNat
  needAligned va
  let p ← tilePlace false va 16
  let hb ← tileRead p
  let hd := hdrOf hb
  tileNeed (hdrCheck hd) va
  let ps ← tilePlace false va (extentOf hd)
  tileNeed (hdrUse hd none) va
  let psn ← rd fun s => tilePoison s ps
  let bs ← tileRead ps
  acceptTile code va hd (bytesMap (bs.drop 16)) psn
  retireX

/-- `tld` from a handle (R252). -/
def execTld (f : L64) (s : State) : Host.Outcome State Fault Refusal := finish (poolLoad f true) s

/-- `tld.m` (R252). -/
def execTldM (f : L64) (s : State) : Host.Outcome State Fault Refusal := finish (memLoad f) s

/-- `tpeek` (R252). -/
def execTpeek (f : L64) (s : State) : Host.Outcome State Fault Refusal := finish (poolLoad f false) s

/-- `tacc.ld` from a handle (R261). -/
def execTaccLd (f : L64) (s : State) : Host.Outcome State Fault Refusal := finish (poolLoad f true) s

/-- `tacc.ld.m` (R261). -/
def execTaccLdM (f : L64) (s : State) : Host.Outcome State Fault Refusal := finish (memLoad f) s

/-- The load that a hart waits with, from its latched instruction: the fields, and whether it consumes. -/
def latchedLoad (x : Hart) : Option (L64 × Bool) :=
  match decode x.ibits.toNat with
  | .ok (.instr (.tld f), _) => some (f, true)
  | .ok (.instr (.tpeek f), _) => some (f, false)
  | .ok (.instr (.taccLd f), _) => some (f, true)
  | _ => none

/-- The reservation of a hart ends (R253): the unit's side of its load, with the reservation gone; none where the unit still uses
the register, or nothing is reserved. The tile is looked up again, for a last read that is committed frees the slot under a peek (R98; log 73). The outcome
is `.ok` where the unit accepts the tile. -/
def endReservation (s : State) (h : Nat) : Option (Except State (Unit × State)) :=
  match (s.hart h).wait, latchedLoad (s.hart h) with
  | .reserve _ _ _, some (f, cons) =>
    let w := (s.hart h).getX f.a.toNat
    if inUseByUnit (s.core (coreOf h)) f.d.toNat then none
    else some ((do
      let r ← needSealed w false
      loadFromPool f.d.toNat w cons r : Exec Unit) { (withdraw s h).modHart h (fun x => { x with wait := .ready }) with cur := h })
  | _, _ => none

/-- TILE_RESERVATION_COMMIT (R253): the unit accepts the tile that hart `a` reserved. -/
def execTileReservationCommit (s : State) : Host.Outcome State Fault Refusal :=
  match endReservation s s.ev.a with
  | some (.ok (_, t)) => .next { t with cur := s.cur }
  | _ => .next s

/-- TILE_RESERVATION_RELEASE (R253): the unit refuses it; the reservation goes and the hart takes the cause. -/
def execTileReservationRelease (s : State) : Host.Outcome State Fault Refusal :=
  match endReservation s s.ev.a with
  | some (.error t) => .next { t with cur := s.cur }
  | _ => .next s

/-! ### `tmma` (R256 to R259) -/

/-- The class of operand formats (R256): 0 narrow, 1 half, 2 FP32, 3 FP64, 4 integer, 5 other. -/
def fmtClass (e : Nat) : Nat :=
  if e = 0x12 ∨ e = 0x13 ∨ e = 0x14 then 4 else if isNarrow e then 0 else if isHalf e then 1 else if e = 2 then 2 else if e = 1 then 3 else 5

/-- The accumulator format that R257 infers. -/
def accFmt (cls : Nat) : Nat := if cls = 4 then 0x10 else if cls = 3 then 1 else 2

/-- A header of R104's form: an accumulator's format and shape. -/
def plainHdr (efmt rows cols : Nat) : Hdr :=
  sealCrc (BitVec.ofNat 128 (0x5A + 2 ^ 8 + efmt * 2 ^ 12 + (rows - 1) * 2 ^ 32 + (cols - 1) * 2 ^ 44))

/-- Four or more fenced sub-arrays are a group's limit: a fifth fails the unit (R267). -/
def unitFailed (fence : BitVec 64) : Bool := (List.range 4).any fun g => decide (5 ≤ popcount 16 fun i => fence.getLsbD (16 * g + i))

/-- The first of a list of checks that fails. -/
def firstFail (l : List (Bool × TFail)) : Option TFail := (l.find? fun x => !x.1).map (·.2)

/-- The checks of R256, in order; last, the metadata of a 2:4 operand (R147). Step 8 reports tb and step 10 the accumulator, where the rule names no operand
(log 73). -/
def tmmaCheck (c : Core) (f : L64) : Option TFail :=
  let (da, db, dd) := (f.a.toNat, f.b.toNat, f.d.toNat)
  let (ta, tb, acc) := (c.op da, c.op db, c.acc (dd - 8))
  let (ha, hb) := (ta.hdr, tb.hdr)
  let z := f.imm15.getLsbD 0
  let a := fun cause detail => ({ cause := cause, detail := detail, role := 1, reg := da } : TFail)
  let b := fun cause detail => ({ cause := cause, detail := detail, role := 2, reg := db } : TFail)
  let d := fun cause detail => ({ cause := cause, detail := detail, role := 0, reg := dd } : TFail)
  let (ca, cb) := (fmtClass (hEfmt ha), fmtClass (hEfmt hb))
  firstFail [
    (ta.loaded, a 26 4), (tb.loaded, b 26 4),
    (crcOk ha, a 25 2), (crcOk hb, b 25 2), (crcOk acc.hdr, d 25 2),
    (!hPsn ha, a 48 0), (!hPsn hb, b 48 0), (z || !hPsn acc.hdr, d 48 0),
    (ca == cb && ca != 5, a 27 7),
    ([0, 1, 2, 4, 5, 6].contains (hSlay ha) && (ca != 4 || hSlay ha == 0), a 27 8),
    ([0, 1, 3, 4, 5, 6].contains (hSlay hb) && (cb != 4 || hSlay hb == 0), b 27 8),
    (!(decide (4 ≤ hSlay ha) || hSparse ha == 1) || hOrder ha != 1, a 27 6),
    (!(decide (4 ≤ hSlay hb) || hSparse hb == 1) || hOrder hb == 1, b 27 6),
    (hSparse hb != 1, b 27 9),
    (hCols ha == hRows hb, b 26 5),
    (z || (hEfmt acc.hdr == accFmt ca && hRows acc.hdr == hRows ha && hCols acc.hdr == hCols hb), d 26 5),
    (!unitFailed c.fence, d 27 0x0C),
    (!badGroup ha ta.at_, a 27 9)]

/-- `tmma` (R256): the checks, then the unit takes the product; the accumulator is written when it completes (R259). -/
def execTmma (f : L64) (s : State) : Host.Outcome State Fault Refusal :=
  finish (do
    needGrant [(f.d.toNat, 0), (f.a.toNat, 1), (f.b.toNat, 2)]
    unitTake [f.d.toNat]
    let c ← rd fun s => s.myCore
    tileNeed (tmmaCheck c f) 0
    upd fun s => s.modMyCore fun c => { c with
      mx := c.mx ++ [{ acc := f.d.toNat - 8, a := f.a.toNat, b := f.b.toNat, z := f.imm15.getLsbD 0, ta := c.op f.a.toNat, tb := c.op f.b.toNat }]
      mxCount := c.mxCount + 1 }
    retireX) s

/-- An exact block sum in progress (R153): a NaN among the inputs, a NaN made, infinities of either sign, the finite sum. -/
structure BlockSum where
  nanIn : Bool := false
  made : Bool := false
  pinf : Bool := false
  ninf : Bool := false
  v : Int := 0
  q : Int := 0
  deriving DecidableEq, Repr

/-- Add one product to a block sum. -/
def BlockSum.add (s : BlockSum) (x y : FVal) : BlockSum :=
  if x.isNan || y.isNan then { s with nanIn := true }
  else match mulExact x y with
    | none => { s with made := true }
    | some (.inf n) => if n then { s with ninf := true } else { s with pinf := true }
    | some (.num n m e) =>
      let p := min s.q e
      { s with v := s.v * 2 ^ (s.q - p).toNat + sgn n m * 2 ^ (e - p).toNat, q := p }
    | some (.nan _) => { s with nanIn := true }

/-- The value of a block sum, and whether it is a NaN made from inputs without one; an exact zero is +0. -/
def BlockSum.value (s : BlockSum) : FVal × Bool :=
  if s.nanIn then (.nan false, false)
  else if s.made || (s.pinf && s.ninf) then (.nan false, true)
  else if s.pinf then (.inf false, false)
  else if s.ninf then (.inf true, false)
  else (.num (decide (s.v < 0)) s.v.natAbs s.q, false)

/-- Multiply a block sum by a scale (R142, R153); `made` says that a NaN scale was produced from no NaN. The flag says whether a NaN sum was. -/
def scaleSum (x : FVal × Bool) (c : Option FVal) (made : Bool) : FVal × Bool :=
  match c with
  | none => x
  | some c =>
    if c.isNan then (.nan false, made && (!x.1.isNan || x.2))
    else if x.1.isNan then x
    else match mulExact x.1 c with
      | none => (.nan false, true)
      | some (.num _ 0 e) => (.num false 0 e, x.2)
      | some v => (v, x.2)

/-- One element's accumulation: its bits, a NaN made, an overflow (R153, R156). -/
structure ElemAcc where
  bits : Nat := 0
  nan : Nat := 0
  ovf : Nat := 0

/-- Block `blk` of element (i, j), K elements deep, in blocks of bk (R152). -/
def accBlock (cls bk k : Nat) (ta tb : TileVal) (i j : Nat) (e : ElemAcc) (blk : Nat) : ElemAcc :=
  let ks := (List.range (min bk (k - blk * bk))).map (· + blk * bk)
  let av := fun n => elemVal (hEfmt ta.hdr) (ta.elem i n)
  let bv := fun n => elemVal (hEfmt tb.hdr) (tb.elem n j)
  let sum := ks.foldl (fun (s : BlockSum) n => s.add (av n) (bv n)) {}
  if cls = 4 then
    let c := toS 32 e.bits + sum.v * 2 ^ sum.q.toNat
    { e with bits := ofS 32 c, ovf := e.ovf + (if c < -(2 ^ 31) ∨ 2 ^ 31 ≤ c then 1 else 0) }
  else
    let x := scaleSum (scaleSum sum.value (ta.scale i (blk * bk)) (ta.scaleMade i (blk * bk))) (tb.scale (blk * bk) j) (tb.scaleMade (blk * bk) j)
    let f := if cls = 3 then fp64 else fp32
    let r : FRes := if bk = 1 then { bits := 0 } else toFloat fp32 0 false x.1
    let y := if bk = 1 then x.1 else fp32.decode r.bits
    let c := f.decode e.bits
    let t := if c.isNan || y.isNan then nanOf f false else addV f 0 false c y
    let cnt := r.cnt ||| t.cnt
    { bits := t.bits, nan := max e.nan (if (x.2 && !c.isNan) || cnt % 2 == 1 then 1 else 0), ovf := max e.ovf (cnt / 2 % 2) }

/-- One element of a product (R258). -/
def accElement (o : MatOp) (i j : Nat) (c : Nat) : ElemAcc :=
  let cls := fmtClass (hEfmt o.ta.hdr)
  let bk := if cls = 1 then 16 else if cls = 2 ∨ cls = 3 then 1 else 32
  let k := hCols o.ta.hdr
  (List.range (ceilDiv k bk)).foldl (accBlock cls bk k o.ta o.tb i j) { bits := c }

/-- The product of a `tmma` added to its accumulator: the accumulator after, counters 0 and 1 (R257, R258). -/
def product (o : MatOp) (c : AccVal) : AccVal × Nat × Nat :=
  let rows := hRows o.ta.hdr
  let cols := hCols o.tb.hdr
  let hdr := if o.z then plainHdr (accFmt (fmtClass (hEfmt o.ta.hdr))) rows cols else c.hdr
  let es := ((List.range rows).map fun i => (List.range cols).map fun j =>
    (128 * i + j, accElement o i j (if o.z then 0 else (c.elems.get 0 (128 * i + j)).toNat))).flatten
  ({ hdr := hdr, elems := es.filterMap fun (k, e) => if e.bits = 0 then none else some (k, word e.bits) },
   (es.map fun x => x.2.nan).foldl (· + ·) 0, (es.map fun x => x.2.ovf).foldl (· + ·) 0)

/-- TMMA_COMPLETE (R259): the oldest product of core `a` is written; counters 0, 1, 7 and 9 (R258). -/
def execTmmaComplete (s : State) : Host.Outcome State Fault Refusal :=
  let c := s.ev.a
  match (s.core c).mx with
  | [] => .next s
  | o :: r =>
    let (acc, n, v) := product o ((s.core c).acc o.acc)
    let s := s.modCore c fun x => { x.setAcc o.acc acc with mx := r }
    .next (bump (bump (bump (bump s c 0 n) c 1 v) c 7 (o.ta.nanScales + o.tb.nanScales)) c 9 1)

/-! ### `tzero`, `tacc.lrd`, `tacc.lwr` (R260, R262) -/

/-- `tzero` of an accumulator (R260). -/
def execTzero (f : L64) (s : State) : Host.Outcome State Fault Refusal :=
  finish (do
    let n := f.imm15.toNat
    needGrant [(f.d.toNat, 0)]
    unitTake [f.d.toNat]
    upd fun s => s.modMyCore fun c => c.setAcc (f.d.toNat - 8)
      { hdr := plainHdr (if f.imm15.getLsbD 14 then 0x10 else 2) (n % 128 + 1) (n / 128 % 128 + 1) }
    retireX) s

/-- `tzero.m` (R260, R67): cause 6 for an address or length that is not a multiple of 128, or a length above 1 MiB. -/
def execTzeroM (f : L64) (s : State) : Host.Outcome State Fault Refusal :=
  finish (do
    let h ← meX
    let va := h.getX f.a.toNat
    let n := (h.getX f.b.toNat).toNat
    orTrap (va.toNat % 128 == 0 && n % 128 == 0 && decide (n ≤ 2 ^ 20)) 6 va
    if n = 0 then retireX
    else
      countOn true
      let ps ← tilePlace true va n
      upd fun s => zeroTags s (whoOf s s.cur true) ps
      tileStore va ps (atOffset 0 (List.replicate n 0))
      retireX) s

/-- The element that lane l addresses (R262). -/
def accPos (x : Word) (col : Bool) (l : Nat) : Nat × Nat :=
  let r := fld x 0 7
  let k := fld x 8 7
  if col then (r + l, k) else (r, k + l)

/-- The checks of R262 on an accumulator's header. -/
def accPosCheck (h : Hdr) (f : L64) (code role : Nat) (x : Word) (ls : List Nat) : Option TFail :=
  if (f.ty == 1) != (hEfmt h == 1) then some { cause := 26, detail := 0x07, role := role, reg := code }
  else (ls.find? fun l => let p := accPos x (f.imm15.getLsbD 0) l; decide (hRows h ≤ p.1) || decide (hCols h ≤ p.2)).map fun l =>
    { cause := 26, detail := 0x0A, role := role, reg := code, index := l }

/-- `tacc.lrd` (R262). The header's CRC and PSN are checked before the type and the offset (log 73). -/
def execTaccLrd (f : L64) (s : State) : Host.Outcome State Fault Refusal :=
  finish (do
    let ls ← memStart f
    let code := f.a.toNat
    needGrant [(code, 1)]
    unitTake [code]
    let h ← meX
    let x := h.getX f.b.toNat
    let acc ← rd fun s => s.myCore.acc (code - 8)
    tileNeed (firstFail [(crcOk acc.hdr, { cause := 25, detail := 2, role := 1, reg := code }), (!hPsn acc.hdr, { cause := 48, role := 1, reg := code })]) 0
    tileNeed (accPosCheck acc.hdr f code 1 x ls) 0
    onMe fun h => h.setLanes (if f.ty = 1 then 64 else 32) f.d.toNat ls fun l =>
      let p := accPos x (f.imm15.getLsbD 0) l
      (acc.elems.get 0 (128 * p.1 + p.2)).toNat
    retireX) s

/-- `tacc.lwr` (R262). -/
def execTaccLwr (f : L64) (s : State) : Host.Outcome State Fault Refusal :=
  finish (do
    let ls ← memStart f
    let code := f.d.toNat
    needGrant [(code, 0)]
    unitTake [code]
    let h ← meX
    let x := h.getX f.b.toNat
    let acc ← rd fun s => s.myCore.acc (code - 8)
    tileNeed (accPosCheck acc.hdr f code 0 x ls) 0
    upd fun s => s.modMyCore fun c => c.setAcc (code - 8) { acc with elems := ls.foldl (fun (m : SMap Word) l =>
      let p := accPos x (f.imm15.getLsbD 0) l
      m.set 0 (128 * p.1 + p.2) (word (h.elem (if f.ty = 1 then 64 else 32) f.c.toNat l))) acc.elems }
    retireX) s

/-! ### Converting stores (R263, R264) -/

/-- The header that a template gives for a source of rows × cols; none where the template is refused (R263). -/
def templateHdr (t : Hdr) (rows cols : Nat) (sealed : Bool) : Option Hdr :=
  let e := hEfmt t
  if isEx8 e || (elemBits e).isNone || decide (6 ≤ hSlay t) || hSparse t != 0 then none
  else
    let h : Hdr := BitVec.ofNat 128 (0x5A + 2 ^ 8 + e * 2 ^ 12 + hSlay t * 2 ^ 18 + hSfmt t * 2 ^ 22 + hOrder t * 2 ^ 27 +
      b2n sealed * 2 ^ 30 + (rows - 1) * 2 ^ 32 + (cols - 1) * 2 ^ 44 + hStride t * 2 ^ 96)
    let soff := if hSlay t = 0 then 0 else payloadSize h / 16
    let h := sealCrc (setHf h 64 16 soff)
    if soff < 2 ^ 16 ∧ (hdrCheck h).isNone then some h else none

/-- What a converting store reads: shape, values, the bits where they are FP32, NaN scales, and whether an element's value is a NaN
made by its scale. -/
structure CvtSrc where
  rows : Nat
  cols : Nat
  val : Nat → Nat → FVal
  made : Nat → Nat → Bool
  raw : Option (Nat → Nat → Nat)
  nan7 : Nat

/-- The source of `tacc.st`. -/
def AccVal.cvt (a : AccVal) : CvtSrc :=
  let e := hEfmt a.hdr
  let raw := fun i j => (a.elems.get 0 (128 * i + j)).toNat
  { rows := hRows a.hdr, cols := hCols a.hdr, val := fun i j => elemVal e (raw i j), made := fun _ _ => false
    raw := if e = 2 then some raw else none, nan7 := 0 }

/-- The source of `tcvt`. -/
def TileVal.cvt (t : TileVal) : CvtSrc :=
  { rows := hRows t.hdr, cols := hCols t.hdr, val := t.value
    made := fun i j => (t.value i j).isNan && !(elemVal (hEfmt t.hdr) (t.elem i j)).isNan && (!((t.scale i j).getD (.num false 1 0)).isNan || t.scaleMade i j)
    raw := none, nan7 := t.nanScales }

/-- The elements of the template's block k (R264). -/
def cvtBlock (h : Hdr) (k : Nat) : List (Nat × Nat) :=
  let rows := hRows h
  let cols := hCols h
  let at_ := fun l p => if hOrder h = 1 then (p, l) else (l, p)
  match hSlay h with
  | 2 => (List.range cols).map fun j => (k, j)
  | 3 => (List.range rows).map fun i => (i, k)
  | 4 | 5 =>
    let n := if hSlay h = 5 then 16 else 32
    let b := k % lineBlocks h
    (List.range (min n (lineLen h - b * n))).map fun p => at_ (k / lineBlocks h) (b * n + p)
  | _ => ((List.range rows).map fun i => (List.range cols).map fun j => (i, j)).flatten

/-- ⌊log2 |x|⌋ of a finite nonzero value. -/
def log2V (v : FVal) : Option Int :=
  match v with
  | .num _ m e => if m = 0 then none else some (e + bitLen m - 1)
  | _ => none

/-- The greater of two exponents, none being below all. -/
def maxExp (a b : Option Int) : Option Int :=
  match a, b with
  | none, x => x
  | x, none => x
  | some x, some y => some (max x y)

/-- The scale of a block (R264): none for s = 0, else its exponent. -/
def blockScale (h : Hdr) (vs : List FVal) : Option Int :=
  match (vs.map log2V).foldl maxExp none with
  | some t => some (max (-126) (min 127 (t - emaxOf (hEfmt h))))
  | none => if vs.any fun v => v.isNan || v.isInf then some 0 else none

/-- The bits of a block's scale in the template's scale format. -/
def scaleBits (h : Hdr) (s : Option Int) : List Byte :=
  match s with
  | none => natToLe (if hSfmt h = 2 then 4 else 2) 0
  | some e => if hSfmt h = 2 then natToLe 4 ((e + 127).toNat * 2 ^ 23) else natToLe 2 ((e + 127).toNat * 16)

/-- One element converted: x ÷ 2^e rounded RNE to the template's format (R264, R151). -/
def tileCvtElem (efmt : Nat) (e : Int) (v : FVal) : FRes :=
  let v := match v with
    | .num s m q => .num s m (q - e)
    | w => w
  match intFmt efmt with
  | some (w, sg) => toInt w sg 0 v
  | none => toFloat (tileFmt efmt) 0 false v

/-- A converted tile: every element's bits with the counters it adds to, and the scale area. -/
structure CvtOut where
  elems : SMap Nat := []
  cnts : List Nat := []
  scales : List Byte := []

/-- The conversion of a source under a template header (R264). -/
def convertTile (h : Hdr) (x : CvtSrc) : CvtOut :=
  let blocks := if hSlay h = 0 then [cvtBlock h 0] else (List.range (scaleEntries h)).map (cvtBlock h)
  match x.raw, hSlay h == 0 && hEfmt h == 2 with
  | some raw, true => { elems := (cvtBlock h 0).map fun (i, j) => (4096 * i + j, raw i j) }
  | _, _ =>
    let one := fun (b : List (Nat × Nat)) =>
      let sc : Option Int := if hSlay h = 0 then some 0 else blockScale h (b.map fun (i, j) => x.val i j)
      let rs := b.map fun (i, j) =>
        let r : FRes := match sc with
          | none => {}
          | some e => tileCvtElem (hEfmt h) e (x.val i j)
        (4096 * i + j, { r with cnt := r.cnt ||| b2n (x.made i j) })
      (rs, if hSlay h = 0 then [] else scaleBits h sc)
    let all := blocks.map one
    { elems := (all.map fun p => p.1.map fun (k, r) => (k, r.bits)).flatten
      cnts := (all.map fun p => p.1.map fun (_, r) => r.cnt).flatten
      scales := (all.map (·.2)).flatten }

/-- The bytes of line l of a converted tile: its elements packed upward (R85); padding is not written. -/
def packLine (h : Hdr) (o : CvtOut) (l : Nat) : List (Nat × Byte) :=
  let w := hBits h
  let n := (List.range (lineLen h)).foldl (fun a p =>
    let k := if hOrder h = 1 then 4096 * p + l else 4096 * l + p
    a + o.elems.get 0 k * 2 ^ (w * p)) 0
  (natToLe (ceilDiv (lineLen h * w) 8) n).zipIdx.map fun (b, k) => (16 + linePos h l k, b)

/-- The bytes that a converting store writes: header, lines, scales, as offsets from the tile's first byte. -/
def cvtBytes (h : Hdr) (o : CvtOut) : List (Nat × Byte) :=
  atOffset 0 (natToLe 16 h.toNat) ++ ((List.range (lineCount h)).map (packLine h o)).flatten ++ atOffset (16 + 16 * hSoff h) o.scales

/-- The counters of a conversion: each element adds (R264, R156). -/
def bumpCvt (s : State) (o : CvtOut) (nan7 : Nat) : State :=
  let c := coreOf s.cur
  bump ((List.range 4).foldl (fun s k => bump s c k ((o.cnts.filter fun n => n / 2 ^ k % 2 == 1).length)) s) c 7 nan7

/-- The checks of a source register: loaded, CRC, PSN, the metadata of a 2:4 tile (R263, R147). -/
def cvtCheck (c : Core) (code : Nat) : Option TFail :=
  let f := fun cause detail => ({ cause := cause, detail := detail, role := 0, reg := code } : TFail)
  let h := if code < 8 then (c.op code).hdr else (c.acc (code - 8)).hdr
  firstFail [(decide (8 ≤ code) || (c.op code).loaded, f 26 4), (crcOk h, f 25 2), (!hPsn h, f 48 0),
    (decide (8 ≤ code) || !badGroup h (c.op code).at_, f 27 9)]

/-- A converting store (R263): the source, the template, the destination, then the bytes. -/
def cvtStore (f : L64) (mem : Bool) : Exec Unit := do
  let code := f.d.toNat
  needGrant [(code, 0)]
  unitTake [code]
  let h ← meX
  let c ← rd fun s => s.myCore
  tileNeed (cvtCheck c code) 0
  let src := if code < 8 then (c.op code).cvt else (c.acc (code - 8)).cvt
  let t : Hdr := BitVec.ofNat 128 ((h.getX f.b.toNat).toNat + (h.getX f.c.toNat).toNat * 2 ^ 64)
  match templateHdr t src.rows src.cols mem with
  | none => tileTrap { cause := 27, detail := 0x0E, role := 4 } 0
  | some hd =>
    let w := h.getX f.a.toNat
    let out := convertTile hd src
    if mem then
      needAligned w 5
      countOn true
      let ps ← tilePlace true w (extentOf hd)
      tileStore w ps (cvtBytes hd out)
    else
      let r ← needOwned w [.opened] 5
      tileNeed (if extentOf hd > r.room then some { cause := 26, detail := 0x0D, step := 6, role := 5 } else none) w
      putTile r (cvtBytes hd out)
    upd fun s => bumpCvt s out src.nan7
    retireX

/-- `tacc.st` to a pool tile (R263). -/
def execTaccSt (f : L64) (s : State) : Host.Outcome State Fault Refusal := finish (cvtStore f false) s

/-- `tacc.st.m` (R263). -/
def execTaccStM (f : L64) (s : State) : Host.Outcome State Fault Refusal := finish (cvtStore f true) s

/-- `tcvt` to a pool tile (R263). -/
def execTcvt (f : L64) (s : State) : Host.Outcome State Fault Refusal := finish (cvtStore f false) s

/-- `tcvt.m` (R263). -/
def execTcvtM (f : L64) (s : State) : Host.Outcome State Fault Refusal := finish (cvtStore f true) s

/-! ### `tinfo.t` (R251) -/

/-- The header of a tile register; 0 for an empty slot. -/
def regHdr (c : Core) (code : Nat) : Hdr :=
  if code < 8 then (if (c.op code).loaded then (c.op code).hdr else 0) else (c.acc (code - 8)).hdr

/-- `tinfo.t` (R251): outside the grant it returns 0. -/
def execTinfoT (f : L64) (s : State) : Host.Outcome State Fault Refusal :=
  finish (do
    let code := f.a.toNat
    let g ← rd grantOf
    if !inGrant g code then onMe fun h => h.setX f.d.toNat 0
    else
      unitTake [code]
      let c ← rd fun s => s.myCore
      let v := match f.imm15.toNat % 4 with
        | 0 => hf (regHdr c code) 0 64
        | 1 => hf (regHdr c code) 64 64
        | _ => 0
      onMe fun h => h.setX f.d.toNat (word v)
    retireX) s

/-! ### The pop quiz (R266 to R268) -/

/-- A quiz of group g in which the sub-arrays of `fails` fail: they are fenced; counters 10 and 11. -/
def quiz (s : State) (c g fails : Nat) : State :=
  let s := s.modCore c fun x => { x with fence := x.fence ||| BitVec.ofNat 64 (fails % 2 ^ 16 * 2 ^ (16 * g)) }
  bump (bump s c 10 1) c 11 (popcount 16 fun i => fails / 2 ^ i % 2 == 1)

/-- POP_QUIZ (R266): core `a` has taken 4,096 products; group after group in turn. `w` tells which sub-arrays fail (log 12). -/
def execPopQuiz (s : State) : Host.Outcome State Fault Refusal :=
  let c := s.ev.a
  let x := s.core c
  if x.mxCount < 4096 then .next s
  else .next ((quiz s c x.mxGroup (fld s.ev.w 0 16)).modCore c fun x => { x with mxCount := x.mxCount - 4096, mxGroup := (x.mxGroup + 1) % 4 })

/-- `tquiz` (R268), M mode only: clear a fence, run a quiz (which sub-arrays fail is a choice, log 12), return the fence map. -/
def tquizOp (f : L64) (run clear : Bool) : Exec Unit := do
  let n := f.imm15.toNat
  let g := n % 4
  let h ← meX
  need (h.priv == .m)
  unitTake []
  (fun s => if run && !s.myCore.mx.isEmpty then stallWith .stall s else .ok ((), s) : Exec Unit)
  if clear then upd fun s => s.modMyCore fun c => { c with fence := c.fence &&& ~~~((1 : BitVec 64) <<< (16 * g + n / 16 % 16)) } else pure ()
  if run then upd fun s => let (k, s) := choose s; quiz s (coreOf s.cur) g k else pure ()
  let m ← rd fun s => s.myCore.fence
  onMe fun h => h.setX f.d.toNat m
  retireX

/-- `tquiz` none (R268). -/
def execTquizNone (f : L64) (s : State) : Host.Outcome State Fault Refusal := finish (tquizOp f false false) s

/-- `tquiz` run (R268). -/
def execTquizRun (f : L64) (s : State) : Host.Outcome State Fault Refusal := finish (tquizOp f true false) s

/-- `tquiz` clear (R268): it runs the quiz too. -/
def execTquizClear (f : L64) (s : State) : Host.Outcome State Fault Refusal := finish (tquizOp f true true) s

end Sys2Proof.Machine
end

