-- ==== Sys2Proof/Machine/Msg.lean ====
section
/-!
DEFINITION. Blackboard and inbox registers (R164 to R167, R306, R280), messages and channels (R168 to R171, R271 to R279), hardware
queues (R281, R282), counted messages (R284), `kscrub` (R309).
-/
namespace Sys2Proof.Machine

/-! ### Scopes between agents (R109) -/

/-- J(a, b) for two harts: core, cluster, die or device. -/
def jointScope (a b : Nat) : Nat :=
  let c := coreOf a
  let d := coreOf b
  if c = d then 1 else if clusterOf c = clusterOf d then 2 else if dieOfCore c = dieOfCore d then 3 else 4

/-- An acquire by the current hart that pairs with a release of another hart (R58, R125). -/
def acquireFrom (s : State) (w : Nat) : State := acquire s (jointScope s.cur w)

/-! ### The blackboard (R164, R165, R306) -/

/-- `bbrd` (R306): a hart of no class reads zero. -/
def execBbrd (d a : BitVec 5) (s : State) : Host.Outcome State Fault Refusal :=
  let v := if classOf s s.cur = 0 then 0 else (s.cls (classOf s s.cur)).bb.get 0 a.toNat
  doneWith (fun h => h.setX d.toNat v) s

/-- HIDX of a class hart (R161). -/
def hidxOf (h : Hart) : Nat := fld h.k.kclass 0 4

/-- `bbwr` (R165): cause 29 for a hart that is not the owner, and for a hart of no class. -/
def execBbwr (d a : BitVec 5) (s : State) : Host.Outcome State Fault Refusal :=
  let k := classOf s s.cur
  if k = 0 ∨ fld (s.cls k).bbown (4 * d.toNat) 4 ≠ hidxOf s.me then .next (takeTrap s s.cur false 29 (word d.toNat))
  else .next (retire (s.modCls k fun c => { c with bb := c.bb.set 0 d.toNat (s.me.getX a.toNat) }))

/-! ### Inbox registers (R166, R167, R280) -/

def Hart.isPresent (h : Hart) (r : Nat) : Bool := h.present.getLsbD r

/-- A value enters an inbox register and sets its bit. -/
def Hart.fillInbox (h : Hart) (r : Nat) (v : Word) (src : InFrom) : Hart :=
  ({ h with inbox := h.inbox.set 0 r v, present := h.present ||| BitVec.ofNat 8 (2 ^ r), inFrom := h.inFrom.set {} r src }).dirtyXs

/-- `imv` clears the bit of a register; the value stays behind it. -/
def Hart.clearInbox (h : Hart) (r : Nat) : Hart :=
  ({ h with present := h.present &&& ~~~ BitVec.ofNat 8 (2 ^ r), inFrom := h.inFrom.set {} r {} }).dirtyXs

/-- `imv` (R166): it stalls while the register is absent; it is the acquire of R125, and the context takes the value's taint. -/
def execImv (d a : BitVec 5) (s : State) : Host.Outcome State Fault Refusal :=
  finish (do
    let h ← meX
    let r := a.toNat
    if !h.isPresent r then stallWith .stall
    else
      let src := h.inFrom.get {} r
      onMe fun h => (h.setX d.toNat (h.inbox.get 0 r)).clearInbox r
      upd fun s => addTaint s s.cur src.taint
      upd fun s => match src.writer with
        | some w => acquireFrom s w
        | none => if src.notice then acquire s 4 else s
      retireX) s

/-- A hart runs for a class or a firing of a function. -/
def boundTo (s : State) (h fn : Nat) : Bool :=
  match (s.hart h).bind with
  | .none => false
  | _ => (s.hart h).fn == fn

/-- `iwr` (R167, R280): the value enters an absent register; to a present one the write is held and the hart waits; to a hart bound
to nothing of the writer's function it is discarded. -/
def execIwr (d a b : BitVec 5) (s : State) : Host.Outcome State Fault Refusal :=
  finish (do
    let h ← meX
    let x := h.getX a.toNat
    let v := h.getX b.toNat
    let t := fld x 0 13
    let r := d.toNat
    need (fld x 13 51 == 0)
    fun s =>
      if !boundTo s t h.fn then .ok ((), retire s)
      else if (s.hart t).isPresent r || (s.hart t).held.any (fun w => w.reg == r) then
        stallWith (.iwr t r) (s.modHart t fun y => { y with held := y.held ++ [{ writer := s.cur, reg := r, val := v, taint := taintOf s s.cur }] })
      else .ok ((), retire (s.modHart t fun y => y.fillInbox r v { writer := some s.cur, taint := taintOf s s.cur }))) s

/-- IWR_HELD_WRITE_ENTRY (R167): the oldest write held for register `b` of hart `a` enters it; its `iwr` completes. It enters whatever has cleared the register's
presence bit (log 73). -/
def execIwrHeldWriteEntry (s : State) : Host.Outcome State Fault Refusal :=
  let t := s.ev.a
  let r := s.ev.b
  match (s.hart t).held.find? fun w => w.reg == r with
  | none => .next s
  | some w =>
    if (s.hart t).isPresent r then .next s
    else
      let s := s.modHart t fun y => { (y.fillInbox r w.val { writer := some w.writer, taint := w.taint }) with held := y.held.erase w }
      .next (s.modHart w.writer Hart.done)

/-- The writes held at a hart that retires are discarded and their `iwr` complete (R167). -/
def dropHeld (s : State) (t : Nat) : State :=
  let ws := (s.hart t).held
  ws.foldl (fun s w => s.modHart w.writer Hart.done) (s.modHart t fun y => { y with held := [] })

/-! ### Message headers (R271) -/

def mTag (w : Word) : Nat := fld w 40 24
def mHpc (w : Word) : Bool := bitOf w 39
def mHpi (w : Word) : Nat := fld w 36 3
def mNw (w : Word) : Nat := fld w 32 4
def mCh (w : Word) : Nat := fld w 9 6
def mCore (w : Word) : Nat := fld w 0 9

/-- The header as delivered: ORIG, SRC and STAT set by the hardware. -/
def deliveredHdr (w : Word) (orig src stat : Nat) : Word := setFld (setFld (setFld w 29 3 orig) 16 13 src) 15 1 stat

/-! ### Counted messages of the hall pass (R284) -/

/-- The cores of an instance's ring. -/
def HallPass.size (p : HallPass) : Nat := p.last - p.first + 1

/-- A core's position in the ring, counted upward from the initiator. -/
def HallPass.pos (p : HallPass) (c : Nat) : Option Nat :=
  if p.first ≤ c ∧ c ≤ p.last then some ((c + p.size - p.init) % p.size) else none

/-- The core at a position. -/
def HallPass.coreAt (p : HallPass) (i : Nat) : Nat := p.first + (p.init - p.first + i) % p.size

/-- A message of a hart with this header is counted. -/
def isCounted (s : State) (launch : Nat) (hdr : Word) : Bool :=
  let p := s.hp (mHpi hdr)
  mHpc hdr && (p.st == 1 || p.st == 2) && p.owner == launch

/-- A counted send from core `c` to core `t`: the count rises, and a backward send turns the core black. -/
def countSend (s : State) (c t : Nat) (hdr : Word) : State :=
  let i := mHpi hdr
  let p := s.hp i
  let back := match p.pos c, p.pos t with
    | some x, some y => decide (y < x)
    | _, _ => false
  s.modCore c fun x => { x with hpCount := x.hpCount.set 0 i (x.hpCount.get 0 i + 1), hpBlack := if back then x.hpBlack.set false i true else x.hpBlack }

/-- The consumption of a message on core `c`. -/
def countTaken (s : State) (c : Nat) (m : Message) : State :=
  if m.counted then
    let i := mHpi m.hdr
    s.modCore c fun x => { x with hpCount := x.hpCount.set 0 i (x.hpCount.get 0 i - 1) }
  else s

/-! ### The send buffer (R168, R272, R273) -/

/-- The entries of a core's send buffer that its firings hold reserved (R170). -/
def reservedSends (s : State) (c : Nat) : Nat :=
  ((s.harts.filter fun (h, _) => coreOf h == c).map fun (_, x) => match x.bind with
    | .firing f => f.sendLeft
    | _ => 0).foldl (· + ·) 0

/-- The entries neither used nor reserved. -/
def freeSends (s : State) (c : Nat) : Nat := 64 - (s.core c).sends.length - reservedSends s c

/-- Flag B of the live clause, where it names a flag (R194). -/
def flagB (h : Hart) : Option Nat := if h.clause.rem ≠ 0 ∧ h.clause.fb.toNat < 12 then some h.clause.fb.toNat else none

/-- The current hart's instruction counts on a flag until what it started completes. -/
def countFlag (k : Option Nat) (s : State) : State :=
  match k with
  | some k => s.modMe fun h => h.addCf k
  | none => s

/-- A message of the current hart enters the send buffer, for an instruction whose first entry is number `first`. -/
def enterSend (hdr : Word) (orig first : Nat) (s : State) (words : List Word) : State :=
  let c := coreOf s.cur
  let l := launchOf s s.cur
  let cnt := isCounted s l hdr
  let m : Message := { hdr := deliveredHdr hdr orig s.cur 0, words := words, fn := s.me.fn, launch := l, sender := s.cur
                       taint := taintOf s s.cur, counted := cnt }
  let s := s.modCore c fun x => { x with sends := x.sends ++ [{ id := x.sendSeq, first := first, msg := m, flag := flagB s.me }], sendSeq := x.sendSeq + 1 }
  if cnt then countSend s c (mCore hdr) hdr else s

/-- The messages of an instruction of the current hart enter in order; an instruction that sends any counts once on flag B (R194). -/
def enterSends (s : State) (hdr : Word) (orig : Nat) (data : List (List Word)) : State :=
  if data.isEmpty then s else countFlag (flagB s.me) (data.foldl (enterSend hdr orig s.myCore.sendSeq) s)

/-- The checks of a header (R271, R44). -/
def sendLegal (h : Hart) (hdr : Word) : Bool := decide (mNw hdr ≤ 8) && !(h.priv == .u && mCh hdr == 63)

/-- Use n reserved entries of a firing as far as it has them; the number of further entries that are needed. -/
def useReserved (s : State) (n : Nat) : State × Nat :=
  match s.me.bind with
  | .firing f =>
    let u := min n f.sendLeft
    (s.modMe fun h => { h with bind := .firing { f with sendLeft := f.sendLeft - u } }, n - u)
  | _ => (s, n)

/-- Room for n messages of the current hart: its reserved entries first, else a stall (R272). -/
def sendRoom (n : Nat) : Exec Unit := fun s =>
  let free := freeSends s (coreOf s.cur)
  let (t, more) := useReserved s n
  if more ≤ free then .ok ((), t) else stallWith .stall s

/-- `msend` (R272). -/
def execMsend (a : BitVec 5) (s : State) : Host.Outcome State Fault Refusal :=
  finish (do
    let h ← meX
    let hdr := h.getX a.toNat
    need (sendLegal h hdr)
    countOn true
    sendRoom 1
    upd fun s => enterSends s hdr 0 [(List.range (mNw hdr)).map fun i => s.me.getX (10 + i)]
    retireX) s

/-- Payload word w of lane l of `msend.l` (R273). -/
def laneWord (h : Hart) (b l w : Nat) : Word := h.getV (b + 2 * w + 1) l ++ h.getV (b + 2 * w) l

/-- `msend.l` (R273): one message for each lane of m0, all entered at once, in lane order. -/
def execMsendL (a b : BitVec 5) (s : State) : Host.Outcome State Fault Refusal :=
  finish (do
    let h ← meX
    let hdr := h.getX a.toNat
    need (sendLegal h hdr && b.toNat % 2 == 0 && decide (b.toNat + 2 * mNw hdr ≤ 32))
    let ls := lanesIn (h.getM 0)
    if ls.isEmpty then pure () else countOn true
    sendRoom ls.length
    upd fun s => enterSends s hdr 1 (ls.map fun l => (List.range (mNw hdr)).map fun w => laneWord s.me b.toNat l w)
    retireX) s

/-- A send completes: its entry goes, and with the last entry of its instruction the count on flag B (R194). -/
def sendDone (s : State) (c : Nat) (e : SendEntry) : State :=
  let s := s.modCore c fun x => { x with sends := x.sends.filter (·.id != e.id) }
  match e.flag with
  | some k => if (s.core c).sends.any fun x => x.first == e.first then s else s.modHart e.msg.sender fun h => h.subCf k
  | none => s

/-! ### Channels (R274, R276 to R279) -/

/-- The spill ring of a channel accesses memory in S mode in domain 255 (R277), for the function of the channel's launch. -/
def ringWho (s : State) (c : Nat) (ch : Channel) : Who :=
  { hart := 16 * c, core := c, priv := .s, fn := s.launchFn ch.launch, eid := (s.core c).kencl.toNat }

/-- The address of a ring's entry. -/
def ringVa (ch : Channel) (slot : Nat) : Word := sext (setFld ch.base 0 7 0) 55 + word (128 * slot)

/-- What the check of a ring entry gives: its place, a page in flight between biases (R135), or a fault. -/
inductive RingGot where
  | at_ (r : PRef)
  | flip
  | bad

/-- One of the accesses of the spill path to a ring entry: it must be a normal page with the right (R277). -/
def ringPlace (s : State) (c : Nat) (ch : Channel) (slot : Nat) (a : Acc) : State × RingGot :=
  match translate s (ringWho s c ch) .copy a false true (ringVa ch slot) 128 with
  | (s, .error _) => (s, .bad)
  | (s, .ok r) => (s, if r.cm ≠ 0 then .bad else if flipHeld s r.pa then .flip else .at_ r)

/-- The 128 bytes of a ring entry. -/
def ringBytes (m : Message) : List Byte :=
  let bs := natToLe 8 m.hdr.toNat ++ (m.words.map fun w => natToLe 8 w.toNat).flatten
  bs ++ List.replicate (128 - bs.length) 0

/-- How an arrival ends: it entered or was discarded, or it is held at its source. -/
inductive Arrival where
  | done | held
  deriving DecidableEq, Repr

/-- Offer a message to channel `ch` of core `c` (R274, R278, R279). -/
def offer (s : State) (c ch : Nat) (m : Message) : State × Arrival :=
  let x := (s.core c).chan ch
  if x.depth = 0 ∨ x.launch = 0 ∨ s.launchFn x.launch ≠ m.fn then
    (s.modCore c fun k => k.modChan ch fun y => { y with drop := min 255 (y.drop + 1) }, .done)
  else if x.err then (s, .held)
  else if x.rcnt = 0 ∧ x.hw.length < x.depth then
    (s.modCore c fun k => k.modChan ch fun y => { y with hw := y.hw ++ [{ msg := m }] }, .done)
  else if x.lsize ≠ 0 ∧ x.rcnt < 2 ^ x.lsize then
    match ringPlace s c x x.tail .wr with
    | (s, .bad) => (s.modCore c fun k => k.modChan ch fun y => { y with err := true }, .held)
    | (s, .flip) => (s, .held)
    | (s, .at_ r) =>
      let s := breakResv (storeLine s { ringWho s c x with taint := m.taint } ((ringVa x x.tail).toNat / 128) r.cm (cellsOf r.pa r.key (ringBytes m))) 8192 [r.pa / 128]
      (bump (s.modCore c fun k => k.modChan ch fun y =>
        { y with tail := (y.tail + 1) % 2 ^ y.lsize, rcnt := y.rcnt + 1, ringMeta := y.ringMeta ++ [m] }) c 13 1, .done)
  else (s, .held)

/-- A message waits where it is, behind those that reached the channel before it. -/
def hold (s : State) (c ch : Nat) (r : MsgRef) : State :=
  s.modCore c fun k => k.modChan ch fun y => if y.held.contains r then y else { y with held := y.held ++ [r] }

/-- The entry leaves a channel's order of held messages. -/
def unhold (s : State) (c ch : Nat) (r : MsgRef) : State :=
  s.modCore c fun k => k.modChan ch fun y => { y with held := y.held.filter (· != r) }

/-- An arrival, or a held message offered again: it enters only where it is first in the channel's order of held messages (R278). -/
def arrive (s : State) (c ch : Nat) (r : MsgRef) (m : Message) : State × Arrival :=
  let q := ((s.core c).chan ch).held
  if !q.isEmpty && q.head? != some r then (hold s c ch r, .held)
  else match offer s c ch m with
    | (s, .done) => (unhold s c ch r, .done)
    | (s, .held) => (hold s c ch r, .held)

/-- A channel can refill (R278, R279). -/
def Channel.canRefill (x : Channel) : Bool := x.rcnt != 0 && decide (x.hw.length < x.depth) && !x.err

/-- The head entry of a ring leaves it. -/
def Channel.popRing (x : Channel) : Channel :=
  let n := x.rcnt - 1
  { x with rcnt := n, head := if n = 0 then 0 else (x.head + 1) % 2 ^ x.lsize, tail := if n = 0 then 0 else x.tail, ringMeta := x.ringMeta.drop 1 }

/-- A message as it comes back from its ring entry; what memory does not hold comes from the channel's record. -/
def ringMessage (bs : List Byte) (m : Message) : Message :=
  let w := fun i => leWord ((bs.drop (8 * i)).take 8)
  { m with hdr := w 0, words := (List.range (min 8 (mNw (w 0)))).map fun i => w (i + 1) }

/-- CHANNEL_REFILL (R278, R279): core `a`, at most one message every 4 clocks. An entry whose line fails its tag is recorded (R340) and puts the channel in
error like a fault; the rules do not say which (log 73). A refill that fails counts as one for the core's 4 clocks and for the channel last refilled (log 73). -/
def execChannelRefill (s : State) : Host.Outcome State Fault Refusal :=
  let c := s.ev.a
  let k := s.core c
  match searchUp 64 k.lastRefill fun i => (k.chan i).canRefill with
  | none => .next s
  | some i =>
    if s.clock < k.refillAt then .next s
    else
      let x := k.chan i
      let t := s.modCore c fun y => { y with lastRefill := i, refillAt := s.clock + 4 }
      let fail := fun (s : State) => s.modCore c fun y => y.modChan i fun z => { z with err := true }
      match ringPlace t c x x.head .rd with
      | (s, .bad) => .next (fail s)
      | (_, .flip) => .next s
      | (s, .at_ r) =>
        let w := ringWho s c x
        match lineIn s w (ringVa x x.head) r with
        | (s, none) => .next (fail (sealNote s w.fn w.eid c r.pa r.key))
        | (s, some y) =>
          if y.psn then
            .next (s.modCore c fun y => y.modChan i fun z => { z.popRing with err := true, drop := min 255 (z.drop + 1) })
          else
            let m := ringMessage y.bytes ((x.ringMeta.head?).getD {})
            .next (s.modCore c fun y => y.modChan i fun z => { z.popRing with hw := z.hw ++ [{ msg := m }] })

/-! ### Firings (R169 to R171) -/

/-- The firings of a channel that run on a core. -/
def firingsOf (s : State) (c ch : Nat) : Nat :=
  (s.harts.filter fun (h, x) => coreOf h == c && (match x.bind with
    | .firing f => f.ch == ch
    | _ => false)).length

/-- A hart of the handler pool that runs nothing (R169). -/
def poolFree (s : State) (h : Nat) : Bool :=
  let x := s.hart h
  x.bind == .none && !x.live && !isService h

/-- The hart that a firing of a channel would take. -/
def firingHart (s : State) (c : Nat) (x : Channel) : Option Nat :=
  if x.pinen then (if poolFree s (16 * c + x.pin) then some (16 * c + x.pin) else none)
  else ((List.range 16).map (· + 16 * c)).find? (poolFree s)

/-- A channel is runnable (R169). -/
def runnable (s : State) (c ch : Nat) : Bool :=
  let x := (s.core c).chan ch
  ch != 63 && x.en && decide (x.k + 1 ≤ (x.hw.filter (·.resv == 0)).length) && decide (x.k + 1 ≤ x.depth) &&
  decide (firingsOf s c ch < x.conc + 1) && decide (x.maxp ≤ freeSends s c) && (firingHart s c x).isSome

/-- The channel that fires next (R169). -/
def selectChannel (s : State) (c : Nat) : Option (Nat × Nat) :=
  let k := s.core c
  let rs := (List.range 64).filter (runnable s c)
  match (rs.map fun i => (k.chan i).eprio).max? with
  | none => none
  | some p => (searchUp 64 (k.lastPrio.get 63 p) fun i => rs.contains i && (k.chan i).eprio == p).map fun i => (p, i)

/-- The state of a hart when a class hart or a firing starts (R176, R180): U mode at `pc` for function `fn`. The CSRs of S and M
mode stand. -/
def Hart.start (x : Hart) (pc : Word) (fn : Nat) (b : Binding) (m0 : BitVec 32) (kdom : BitVec 36) (kxtab : Word) : Hart :=
  { live := true, priv := .u, pc := pc, bind := b, fn := fn
    m := SMap.set 0 [] 0 m0, csr := (x.setXs 1).csr
    k := { x.k with kclst := 0, kdom := kdom, kxtab := kxtab, kwid := 0, kwidw := 0, kclass := 0, kwlim := 0, kargs := 0, kmhdr := 0
                    kpreReq := false, kpreRes := false, kpreDone := false, kpreTok := 0 }
    haltReq := x.haltReq }

/-- A firing takes a message: its header into `kmhdr`, its words into i0 onward, the other registers zero and absent; its taint
(R170, R351). -/
def Hart.loadMsg (x : Hart) (m : Message) : Hart :=
  let x := { x with inbox := [], present := 0, inFrom := [], k := { x.k with kmhdr := m.hdr } }
  (m.words.zipIdx.foldl (fun y (w, i) => y.fillInbox i w {}) x).dirtyXs

/-- Take the first message that a firing hart has reserved in its channel. -/
def takeReserved (s : State) (h c ch : Nat) : State × Option Message :=
  match ((s.core c).chan ch).hw.find? fun q => q.resv == h + 1 with
  | none => (s, none)
  | some q => (s.modCore c fun k => k.modChan ch fun x => { x with hw := x.hw.erase q }, some q.msg)

/-- Hart h takes a message of its firing: the acquire of R125, at the scope of a copy's release where it is a copy's completion (R128). -/
def firingTake (s : State) (h : Nat) (m : Message) : State :=
  let s := s.modHart h fun x => match x.bind with
    | .firing f => { (x.loadMsg m) with bind := .firing { f with taken := f.taken ++ [m], taint := f.taint ||| m.taint } }
    | _ => x
  coreAcquire s (coreOf h) (m.edge.getD (jointScope h m.sender))

/-- Mark the k oldest unreserved messages of a channel as reserved by a hart. -/
def reserveMsgs (h : Nat) : Nat → List QMsg → List QMsg
  | _, [] => []
  | 0, l => l
  | n + 1, q :: r => if q.resv = 0 then { q with resv := h + 1 } :: reserveMsgs h n r else q :: reserveMsgs h (n + 1) r

/-- The channel ages: after 4,096 passes EPRIO rises by one, up to 7 (R171). -/
def Channel.age (x : Channel) : Channel :=
  if 4096 ≤ x.passes then { x with passes := x.passes - 4096, eprio := min 7 (x.eprio + 1) } else x

/-- A firing of channel ch starts on hart h (R170, R171). -/
def startFiring (s : State) (c p ch h : Nat) : State :=
  let x := (s.core c).chan ch
  let passed := (List.range 64).filter fun i => i != ch && runnable s c i
  let fn := s.launchFn x.launch
  let f : Firing := { ch := ch, launch := x.launch, sendLeft := x.maxp, taint := regionMask s fn x.kdom .u, eid := (s.core c).kencl.toNat }
  let s := s.modCore c fun k =>
    let k := k.modChan ch fun y => { y with hw := reserveMsgs h (y.k + 1) y.hw, eprio := y.prio, passes := 0 }
    let k := passed.foldl (fun k i => k.modChan i fun y => ({ y with passes := y.passes + 1 }).age) k
    { k with lastPrio := k.lastPrio.set 63 p ch }
  let s := s.modHart h fun y =>
    let y := y.start x.pc fn (.firing f) 0xFFFFFFFF x.kdom x.kxtab
    { y with k := { y.k with kclass := word (x.launch * 2 ^ 32 + 2 ^ 20 + ch * 2 ^ 8) } }
  let (s, m) := takeReserved s h c ch
  match m with
  | some m => (firingTake s h m).modHart h fun y => y.setXs 1
  | none => s

/-- FIRING_START (R169, R170): the pigeonhole of core `a`. -/
def execFiringStart (s : State) : Host.Outcome State Fault Refusal :=
  let c := s.ev.a
  match selectChannel s c with
  | none => .next s
  | some (p, ch) =>
    match firingHart s c ((s.core c).chan ch) with
    | none => .next s
    | some h => .next (startFiring s c p ch h)

/-- EPRIO_AGING (R171): channel `b` of core `a` after 4,096 passes. -/
def execEprioAging (s : State) : Host.Outcome State Fault Refusal :=
  .next (s.modCore s.ev.a fun k => k.modChan s.ev.b Channel.age)

/-- `mnext` (R170, R275): the next reserved message; after the last, and outside a firing, `kmhdr` and the presence bits clear. -/
def execMnext (s : State) : Host.Outcome State Fault Refusal :=
  let none_ := s.modMe fun h => ({ h with present := 0, inFrom := [], k := { h.k with kmhdr := 0 } }).dirtyXs
  match s.me.bind with
  | .firing f =>
    match takeReserved s s.cur (coreOf s.cur) f.ch with
    | (t, some m) => .next (retire (firingTake t t.cur m))
    | (_, none) => .next (retire none_)
  | _ => .next (retire none_)

/-! ### Hardware queues (R281, R282) -/

/-- The core and queue that a name gives, where it may be used by the hart (R282). -/
def queueName (s : State) (x : Word) : Option (Nat × Nat) :=
  let c := fld x 0 9
  let q := fld x 9 5
  let y := (s.core c).q q
  if fld x 14 50 = 0 ∧ y.en ∧ s.launchFn y.launch = s.me.fn then some (c, q) else none

/-- `qpush` (R282). -/
def execQpush (a b : BitVec 5) (s : State) : Host.Outcome State Fault Refusal :=
  match queueName s (s.me.getX a.toNat) with
  | none => illegalNow s
  | some (c, q) =>
    finish (do
      countOn true
      let y ← rd fun s => (s.core c).q q
      if 16 * y.units ≤ y.vals.length then stallWith .stall
      else
        upd fun s => s.modCore c fun k => k.modQ q fun y =>
          { y with vals := y.vals ++ [{ val := s.me.getX b.toNat, writer := s.cur, taint := taintOf s s.cur }] }
        retireX) s

/-- `qpop` (R282): pops that wait are served in the order in which they came. -/
def execQpop (d a : BitVec 5) (s : State) : Host.Outcome State Fault Refusal :=
  match queueName s (s.me.getX a.toNat) with
  | none => illegalNow s
  | some (c, q) =>
    let y := (s.core c).q q
    let mine := y.waiters.isEmpty || y.waiters.head? == some s.cur
    match y.vals, mine with
    | v :: r, true =>
      let s := s.modCore c fun k => k.modQ q fun y => { y with vals := r, waiters := y.waiters.filter (· != s.cur) }
      let s := addTaint (s.modMe fun h => h.setX d.toNat v.val) s.cur v.taint
      .next (retire (acquireFrom s v.writer))
    | _, _ =>
      let s := s.modCore c fun k => k.modQ q fun y => if y.waiters.contains s.cur then y else { y with waiters := y.waiters ++ [s.cur] }
      .next (s.modMe fun h => { h with wait := .qpop c q })

/-! ### `kscrub` (R309) -/

/-- Some operation that a hart issued has not completed: a send, a copy or `cprd`, a product of its core's matrix unit. -/
def opsOpen (s : State) (h : Nat) : Bool :=
  let k := s.core (coreOf h)
  k.sends.any (fun e => e.msg.sender == h) || copiesOpen s h || !k.mx.isEmpty

/-- The hart after `kscrub` (R309). -/
def Hart.scrub (x : Hart) (service : Bool) : Hart :=
  let x := { x with v := [], m := [], kms := [], kmsd := 0, f := [], frm := 0, fflags := 0, tfr := 0, k := { x.k with kclst := 0 } }
  let x := if service then { x with inbox := x.inbox.filter (fun p => p.1 < 4), present := x.present &&& 0x0F, inFrom := x.inFrom.filter (fun p => p.1 < 4) }
    else { x with inbox := [], present := 0, inFrom := [] }
  x.setXs 1

/-- What `kscrub` resets of a core in M mode: every operand slot, accumulator and blackboard. -/
def scrubCore (s : State) (c : Nat) : State :=
  { (s.modCore c fun k => { k with ops := [], accs := [] }) with
    classes := s.classes.map fun (i, k) => (i, if k.live && k.core == c then { k with bb := [] } else k) }

/-- `kscrub` (R309), S or M mode: in M mode the slots, accumulators and blackboards of the core too. -/
def execKscrub (s : State) : Host.Outcome State Fault Refusal :=
  if s.me.priv = .u then illegalNow s
  else if opsOpen s s.cur then .next (s.modMe fun h => { h with wait := .stall })
  else
    let t := s.modMe fun h => h.scrub (isService s.cur)
    .next (retire (if s.me.priv = .m then scrubCore t (coreOf s.cur) else t))

end Sys2Proof.Machine
end

