-- ==== Sys2Proof/Machine/Copy.lean ====
section
/-!
DEFINITION. Copies and split-phase reads (R46, R51, R287 to R300): submission, the engine's pieces, reduction in the fabric (R131,
R296), completion, and the watermark channels (R79, R297).
-/
namespace Sys2Proof.Machine

/-! ### The request words (R288, R289) -/

namespace CopyReq

def kind (r : CopyReq) : Nat := if r.cprd then 0 else fld r.w3 0 3
def ssp (r : CopyReq) : Bool := !r.cprd && bitOf r.w3 3 && (r.kind == 0 || r.kind == 4)
def dsp (r : CopyReq) : Bool := !r.cprd && bitOf r.w3 4
def srct (r : CopyReq) : Bool := !r.cprd && bitOf r.w3 5
def dstt (r : CopyReq) : Nat := if r.cprd then 0 else fld r.w3 6 2
def rop (r : CopyReq) : Nat := if r.cprd then 0 else fld r.w3 8 4
def twod (r : CopyReq) : Bool := !r.cprd && bitOf r.w3 12
def acq (r : CopyReq) : Bool := r.cprd || bitOf r.w3 13
def acqScope (r : CopyReq) : Nat := if r.cprd then (if r.wide then 5 else 4) else fld r.w3 14 3
def rel (r : CopyReq) : Bool := r.cprd || bitOf r.w3 17
def relScope (r : CopyReq) : Nat := if r.cprd then (if r.wide then 5 else 4) else fld r.w3 18 3

/-- The completion target's kind: 0 none, 1 flag, 2 channel, 3 stage barrier, 4 watermark channel. -/
def ct (r : CopyReq) : Nat := if r.cprd then 2 else fld r.w3 21 3
def tgt (r : CopyReq) : Nat := if r.cprd then fld r.w3 9 6 else fld r.w3 24 7
def nread (r : CopyReq) : Nat := fld r.w3 32 8
def ccore (r : CopyReq) : Nat := if r.cprd then fld r.w3 0 9 else fld r.w3 40 9
def part (r : CopyReq) : Nat := fld r.w2 40 6
def toff (r : CopyReq) : Nat := if r.dstt = 2 then fld r.w2 48 16 else 0
def rowLen (r : CopyReq) : Nat := fld r.w2 0 20
def srcStride (r : CopyReq) : Nat := 16 * fld r.w2 36 14
def dstStride (r : CopyReq) : Nat := 16 * fld r.w2 50 14

/-- The bytes that the request moves. -/
def total (r : CopyReq) : Nat :=
  if r.cprd then r.w2.toNat
  else if r.srct then r.tlen
  else if r.twod then r.rowLen * (fld r.w2 20 16 + 1)
  else if r.kind = 3 then fld r.w2 0 40 * 2 ^ r.rop
  else fld r.w2 0 40

/-- The source and the destination address of byte o (R289). -/
def srcAt (r : CopyReq) (o : Nat) : Word :=
  if r.twod then r.w0 + word (o / r.rowLen * r.srcStride + o % r.rowLen) else r.w0 + word o
def dstAt (r : CopyReq) (o : Nat) : Word :=
  if r.twod then r.w1 + word (o / r.rowLen * r.dstStride + o % r.rowLen) else r.w1 + word o

/-- The element size of a reduce operation (R290). -/
def elemSize (r : CopyReq) : Nat := nth 8 [4, 8, 4, 4, 8, 8, 8, 4, 8, 2, 4, 4] r.rop

end CopyReq

/-- The request is legal at issue (R289, R291; a new tile's handle address is a multiple of 8, R292). -/
def copyLegal (r : CopyReq) (firing : Bool) : Bool :=
  let k := r.kind
  let d := r.dstt
  let scopeOk := fun (on : Bool) (sc : Nat) => if on then 1 ≤ sc && sc ≤ 5 else sc == 0
  decide (k ≤ 4) && d != 3 && decide (r.ct ≤ 4) && (k != 4 || decide (r.rop ≤ 11)) && (k != 3 || decide (r.rop ≤ 7)) &&
  (decide (3 ≤ k) || r.rop == 0) && scopeOk r.acq r.acqScope && scopeOk r.rel r.relScope &&
  fld r.w3 49 7 == 0 && !bitOf r.w3 31 && decide (r.tgt ≤ nth 0 [0, 11, 62, 127, 15] r.ct) &&
  !(firing && (r.ct == 1 || bitOf r.w3 3 || r.dsp)) &&
  !(r.srct && (k != 0 || r.twod || r.ct == 4)) && !(d != 0 && (k != 0 || r.twod || r.dsp)) &&
  !(d == 1 && (r.nread == 0 || (r.rel && r.relScope != 2 && r.relScope != 4) || r.w1.toNat % 8 != 0)) &&
  !(k == 2 && r.w0 != 0) && !(k == 4 && r.dsp) &&
  !(r.ct == 4 && (r.dsp || (r.twod && r.dstStride != r.rowLen))) &&
  (if r.twod then r.rowLen != 0
   else fld r.w2 46 2 == 0 && (d == 1 || r.part == 0) && (d == 2 || fld r.w2 48 16 == 0) && !(r.srct && fld r.w2 0 40 != 0))

/-- A `cprd` is legal at issue (R300). -/
def cprdLegal (r : CopyReq) : Bool :=
  let n := r.w2.toNat
  decide (n < 2 ^ 40) && (if r.w1 = 0 then decide (8 ≤ n) && decide (n ≤ 64) && n % 8 == 0 else n != 0) &&
  mCh r.w3 != 63 && fld r.w3 15 21 == 0

/-! ### Submission (R287, R194) -/

/-- The requests of a core's FIFO with their slots. -/
def reqsOf (s : State) (c : Nat) : List (Nat × CopyReq) := (s.core c).fifo.filterMap fun (i, r) => r.map fun r => (i, r)

/-- The slot that a new request of a hart takes: none without room (R287). Requests that an ended firing of the hart has left there count. -/
def fifoRoom (s : State) (h : Nat) : Option Nat :=
  let rs := reqsOf s (coreOf h)
  if 8 ≤ (rs.filter fun x => x.2.hart == h).length then none
  else firstBelow 32 fun i => ((s.core (coreOf h)).req i).isNone

def modReq (s : State) (c i : Nat) (f : CopyReq → CopyReq) : State := s.modCore c fun k => k.setReq i ((k.req i).map f)
def dropReq (s : State) (c i : Nat) : State := s.modCore c fun k => k.setReq i none

/-- The flags that a request counts on: flag B of a clause, and its own flag target, each once (R194). -/
def reqFlags (h : Hart) (r : CopyReq) : List Nat :=
  let b := (flagB h).toList
  if r.ct = 1 ∧ !b.contains r.tgt then b ++ [r.tgt] else b

/-- A request in the four registers from x[a] on, with what it captures of the current hart (R287). -/
def newReq (s : State) (a : Nat) (cprd : Bool) : CopyReq :=
  let h := s.me
  let r : CopyReq :=
    { cprd := cprd, w0 := h.getX a, w1 := h.getX (a + 1), w2 := h.getX (a + 2), w3 := h.getX (a + 3)
      hart := s.cur, priv := h.priv, bare := h.priv == .m || h.csr.satpMode == 0, kdom := h.k.kdom, launch := launchOf s s.cur
      fn := h.fn, cls := classOf s s.cur, taint := taintOf s s.cur, pc := h.pc, eid := (s.core (coreOf s.cur)).kencl.toNat }
  { r with wmEra := (s.myCore.wmc r.tgt).era }

/-- A request enters slot i of the current core's FIFO; its flags count. -/
def enterReq (s : State) (i : Nat) (r : CopyReq) : State :=
  let c := coreOf s.cur
  let fl := reqFlags s.me r
  let cnt := r.cprd && isCounted s r.launch r.w3
  let s := s.modCore c fun k => { (k.setReq i (some { r with seq := k.fifoSeq, flags := fl, counted := cnt })) with fifoSeq := k.fifoSeq + 1 }
  let s := s.modMe fun h => fl.foldl (fun x k => x.addCf k) h
  if cnt then countSend s c (mCore r.w3) r.w3 else s

/-- Submit a request of the current hart (R287): with no room `nb` answers 1, otherwise the hart stalls; it stalls too where its issue would
raise a counter beyond 63 (R195). -/
def submit (a : BitVec 5) (cprd : Bool) (nb : Option Nat) : Exec Unit := fun s =>
  let r := newReq s a.toNat cprd
  if !(if cprd then cprdLegal r else copyLegal r (isFiring s s.cur)) then illegal s
  else match fifoRoom s s.cur, nb with
    | some i, nb =>
      if (reqFlags s.me r).any fun k => decide (63 ≤ s.me.getCf k) then stallWith .stall s
      else
        let s := enterReq s i r
        .ok ((), retire (match nb with
          | some d => s.modMe fun h => h.setX d 0
          | none => s))
    | none, some d => .ok ((), retire (s.modMe fun h => h.setX d 1))
    | none, none => stallWith .stall s

/-- `cprd` (R300). -/
def execCprd (a : BitVec 5) (s : State) : Host.Outcome State Fault Refusal := finish (submit a true none) s

/-- `cpq` (R287). -/
def execCpq (a : BitVec 5) (s : State) : Host.Outcome State Fault Refusal := finish (submit a false none) s

/-- `cpq.nb` (R287). -/
def execCpqNb (d a : BitVec 5) (s : State) : Host.Outcome State Fault Refusal := finish (submit a false (some d.toNat)) s

/-! ### Watermark channels (R297) -/

/-- `cpwm` (R297). -/
def execCpwm (d a b : BitVec 5) (s : State) : Host.Outcome State Fault Refusal :=
  let base := s.me.getX a.toNat
  let len := (s.me.getX b.toNat).toNat
  let w := s.myCore.wmc d.toNat
  if w.st = 1 ∨ w.st = 3 ∨ base.toNat % 128 ≠ 0 ∨ len % 128 ≠ 0 ∨ len < 128 ∨ 2 ^ 40 < len then illegalNow s
  else .next (retire (s.modMyCore fun c => c.modWm d.toNat fun w => { base := base.toNat, len := len, st := 1, era := w.era + 1 }))

/-- `cpcls` (R297): idle; copies that still target the channel advance nothing. -/
def execCpcls (d : BitVec 5) (s : State) : Host.Outcome State Fault Refusal :=
  .next (retire (s.modMyCore fun c => c.modWm d.toNat fun w => { w with st := 0, era := w.era + 1 }))

/-- WM of a request's channel advances to the bytes written up to `endVa`, in whole lines except at the range's end (R79, R294). -/
def wmAdvance (s : State) (c : Nat) (r : CopyReq) (endVa : Word) : State :=
  if r.ct ≠ 4 then s
  else s.modCore c fun k => k.modWm r.tgt fun w =>
    if w.era ≠ r.wmEra ∨ w.st ≠ 1 then w
    else
      let n := endVa.toNat - w.base
      if w.len ≤ n then { w with wm := w.len, st := 2 } else { w with wm := max w.wm (n / 128 * 128) }

/-! ### The engine (R292, R293) -/

/-- The request as the maker of an access: what it captured (R21). -/
def reqWho (c : Nat) (r : CopyReq) : Who :=
  { hart := r.hart, core := c, priv := r.priv, kdom := r.kdom, fn := r.fn, eid := r.eid, taint := r.taint, bare := r.bare }

/-- A source tile is let go: its reservation ends, with the read counted or not. -/
def dropSource (s : State) (r : CopyReq) (count : Bool) : State :=
  if !r.res then s
  else match liveTile s r.fn r.w0 with
    | none => s
    | some t =>
      let s := s.modTile t fun x => { x with res := x.res - 1 }
      if count && (s.tile t).st == .sealed then consume s t else s

/-- A pool tile becomes POISONED, PSN in its header (R96). -/
def poisonTile (s : State) (r : TileRef) : State :=
  s.modTile r fun t => if t.st = .poisoned then t else { (t.put (atOffset 0 (natToLe 16 (sealCrc (setHf t.hdr 29 1 1)).toNat)) 0) with st := .poisoned }

/-- The destination tile of a request, OPEN and of the request's launch (R292). -/
def destTile (s : State) (r : CopyReq) (w : Word) : Option TileRef :=
  match liveTile s r.fn w with
  | some t => if (s.tile t).st = .opened ∧ (s.tile t).owner = r.launch then some t else none
  | none => none

/-- A request ends with a status, a detail and an offset (R293): a source tile's read counts unless the end is UE or nothing was
read; a tile destination of an UE end is POISONED. -/
def endReq (s : State) (c i : Nat) (code detail off : Nat) : State :=
  match (s.core c).req i with
  | none => s
  | some r =>
    let s := dropSource s r (code == 0 || (code != 1 && r.off != 0))
    let s := if code = 1 ∧ r.dstt ≠ 0 then (match destTile s r r.handle with
        | some t => poisonTile s t
        | none => s) else s
    modReq s c i fun r => { r with st := .ended, code := code, detail := detail, off := off, res := false }

/-- A request parks on a failed check, its report posted (R46); of the service hart cause 24 is taken at once and the copy ends
(R48). -/
def parkReq (s : State) (c i : Nat) (r : CopyReq) (f : VFault) (access : Nat) (va : Word) : State :=
  if isService r.hart then endReq (fatalFault s r.hart va 2 0xFF) c i 2 0 r.off
  else if reportHeld s c (16 + i) then s
  else
    let (s, id) := postReport s c (16 + i) va (reportInfo f.kind access 2 f.lvl c (hartNo r.hart) 0xFF f.dom) i r.off r.pc
    modReq s c i fun r => { r with st := .parkFault, faultId := id, faultVa := va }

/-- A request ends FAULT at an offset for a line whose tag failed (R340). -/
def sealEnd (s : State) (c i off : Nat) (va : Word) : State := modReq (endReq s c i 2 0 off) c i fun r => { r with isSealed := true, faultVa := va }

/-- A request ends at a seal integrity failure (R340): the record, and FAULT. -/
def sealReq (s : State) (c i : Nat) (r : CopyReq) (pa key : Nat) (va : Word) : State :=
  sealEnd (bookAppend s 8 r.fn r.eid c [word pa, word key]) c i r.off va

/-- The whole-request check of a scratch side (R293): offset and sizes multiples of 4, every byte below the grant. -/
def scratchSideOk (s : State) (r : CopyReq) (base : Word) (stride : Nat) : Bool :=
  let size := (s.cls r.cls).scrSize
  let rows := if r.twod then fld r.w2 20 16 + 1 else 1
  let len := if r.twod then r.rowLen else r.total
  base.toNat % 4 == 0 && len % 4 == 0 && (!r.twod || stride % 4 == 0) && decide (base.toNat + (rows - 1) * stride + len ≤ size)

/-- The context that issued a request gains the taint of the tile it reads (R351), while that context lasts: the hart in M mode, the class, or the
firing. -/
def issuerTaint (s : State) (r : CopyReq) (t : BitVec 16) : State :=
  if r.priv = .m then (if (s.hart r.hart).priv = .m then addTaint s r.hart t else s)
  else if r.cls ≠ 0 then (if (s.cls r.cls).live then s.modCls r.cls fun c => { c with taint := c.taint ||| t } else s)
  else if r.own then bindTaint s r.hart t
  else s

/-- The source tile of a request, reserved: none when the tile must be waited for; else the state, or the tile cause (48 for
poison). It is a consuming read (R96), so an acquire, at scope 2 in the pool's cluster, else 4 (R58, R126). -/
def reserveSource (s : State) (r : CopyReq) : Option (Except Nat (State × Nat)) :=
  match liveTile s r.fn r.w0 with
  | none => some (.error 28)
  | some t =>
    let x := s.tile t
    if !eidOk s (coreOf r.hart) t.clus t.part then some (.error 28)
    else match x.st with
    | .poisoned => some (.error 48)
    | .sealed =>
      if x.c ≤ x.res then none
      else match hdrCheckAll x.hdr (some t.room) with
        | some f => some (.error f.cause)
        | none =>
          let s := coreAcquire s (coreOf r.hart) (if clusterOf (coreOf r.hart) = t.clus then 2 else 4)
          some (.ok (issuerTaint (s.modTile t fun y => { y with res := y.res + 1 }) r x.taint, extentOf x.hdr))
    | _ => some (.error 28)

/-- The checks on a whole request, its source tile reserved: none where they hold (R293). -/
def refused (s : State) (c : Nat) (r : CopyReq) : Bool :=
  let w := (s.core c).wmc r.tgt
  (r.ssp && !scratchSideOk s r r.w0 r.srcStride) || (r.dsp && !scratchSideOk s r r.w1 r.dstStride) ||
  (r.ct == 4 && w.era == r.wmEra && (r.w1.toNat != w.base + w.total || decide (w.base + w.len < r.w1.toNat + r.total))) ||
  (r.kind == 4 && r.total % r.elemSize != 0)

/-- A request begins (R292, R293): the acquire, the source tile, the destination, the checks on the whole, which one entered again
has passed before (R311). One that finds every read of its source tile reserved waits for it at work (R253, R292). A new-tile copy of a poisoned source takes its tile all the same, which then ends POISONED under its handle. -/
def startReq (s : State) (c i : Nat) (r : CopyReq) : State :=
  if r.again && (r.code != 0 || r.tileDone) then modReq s c i fun _ => { r with st := .ended }
  else
  let s := if r.acq ∧ r.st ≠ .waitTile then coreAcquire s c r.acqScope else s
  let src : Option (Except Nat (State × Nat)) := if r.srct then reserveSource s r else some (.ok (s, 0))
  match src with
  | none => modReq s c i fun r => { r with st := .waitTile }
  | some (.error 48) =>
    if r.dstt = 1 then modReq s c i fun _ => { r with tlen := 1, st := if r.handle = 0 then .parkAlloc else .working }
    else if r.dstt = 2 ∧ (destTile s r r.w1).isNone then endReq s c i 4 28 0
    else endReq (modReq s c i fun _ => { r with handle := if r.dstt = 2 then r.w1 else 0 }) c i 1 0 0
  | some (.error n) => endReq s c i 4 n 0
  | some (.ok (s, n)) =>
    let r := { r with tlen := n, res := r.srct, handle := if r.dstt = 2 then r.w1 else if r.dstt = 1 then r.handle else 0
                      st := if r.dstt = 1 ∧ r.handle = 0 then .parkAlloc else .working }
    let bad := !r.again && refused s c r
    let s := modReq s c i fun _ => r
    let s := if r.ct = 4 then s.modCore c fun k => k.modWm r.tgt fun w => if w.era ≠ r.wmEra then w else
        { w with total := if r.again then r.w1.toNat - w.base + r.total else w.total + r.total } else s
    if bad then endReq s c i 3 0 0
    else if r.dstt = 2 then (match destTile s r r.w1 with
      | none => endReq s c i 4 28 0
      | some t => if t.room < r.toff + r.total then endReq s c i 4 26 0 else s)
    else s

/-- A request waits behind an earlier one of its watermark channel (R292). -/
def behindWm (rs : List (Nat × CopyReq)) (r : CopyReq) : Bool :=
  r.ct == 4 && rs.any fun x => x.2.ct == 4 && x.2.tgt == r.tgt && decide (x.2.seq < r.seq)

/-- COPY_REQUEST_START (R292): the engine of core `a` goes on with one that waits at work for its source tile, now to be had; else it takes the oldest request that it may,
of at most four at work: one that begins, or one that goes on after what it was parked on. -/
def execCopyRequestStart (s : State) : Host.Outcome State Fault Refusal :=
  let c := s.ev.a
  let rs := reqsOf s c
  let s := rs.foldl (fun s x => if x.2.st = .queued ∧ behindWm rs x.2 then modReq s c x.1 fun r => { r with st := .parkWm } else s) s
  match rs.find? fun x => x.2.st == .waitTile && (reserveSource s x.2).isSome with
  | some (i, r) => .next (startReq s c i r)
  | none =>
  if (s.core c).atWork = .resume then .next s
  else
    let ready := rs.filter fun x => x.2.st == .resume || ((x.2.st == .queued || x.2.st == .parkWm) && !behindWm rs x.2)
    match (ready.map fun x => x.2.seq).min? with
    | none => .next s
    | some m =>
      match ready.find? fun x => x.2.seq == m with
      | none => .next s
      | some (i, r) => .next (if r.st = .resume then modReq s c i fun r => { r with st := .working } else startReq s c i { r with st := .queued })

/-- COPY_TILE_ALLOCATION (R292, R95): slot `b` of core `a` allocates its new tile, or joins the partition's order. -/
def execCopyTileAllocation (s : State) : Host.Outcome State Fault Refusal :=
  let c := s.ev.a
  let i := s.ev.b
  match (s.core c).req i with
  | none => .next s
  | some r =>
    let k := clusterOf c
    let p := (s.cluster k).part r.part
    if r.st ≠ .parkAlloc ∨ p.waiters.contains (.copy c i) then .next s
    else if allocRefused s c k r.part r.launch r.nread then .next (endReq s c i 4 28 0)
    else if newGrant s k r.part r.launch then
      let (s, w) := takeSlot s k r.part r.launch r.nread
      .next (modReq s c i fun r => { r with handle := w, st := (s.core c).atWork })
    else .next (s.modCluster k fun x => x.modPart r.part fun p => { p with waiters := p.waiters ++ [.copy c i] })

/-! ### Pieces (R51, R290) -/

/-- The bytes left to the next 64 KiB boundary. -/
def toPage (va : Word) : Nat := 65536 - va.toNat % 65536

/-- The source lies in the global space; the destination does. -/
def CopyReq.srcMem (r : CopyReq) : Bool := !r.srct && !r.ssp && (r.kind == 0 || r.kind == 4)
def CopyReq.dstMem (r : CopyReq) : Bool := !r.dsp && r.dstt == 0 && !(r.cprd && r.w1 == 0)

/-- The size of the piece at the request's offset (R51); a gather moves one element, or what a page leaves of it, a reduction whole elements. -/
def pieceSize (r : CopyReq) : Nat :=
  let o := r.off
  let left := if r.twod then r.rowLen - o % r.rowLen else r.total - o
  let n := if r.srcMem then min left (toPage (r.srcAt o)) else left
  let n := if r.dstMem then min n (toPage (r.dstAt o)) else n
  if r.kind = 3 then min n (2 ^ r.rop - o % 2 ^ r.rop)
  else if r.kind = 4 then max r.elemSize (n / r.elemSize * r.elemSize)
  else n

/-- Place the bytes of a copy access. -/
def copyPlace (s : State) (c : Nat) (r : CopyReq) (a : Acc) (va : Word) (n : Nat) : State × Except (VFault × Seg) (List Placed) :=
  let gs := tileSegs va n
  match placeAll (reqWho c r) .copy a false false gs s with
  | (s, .error e) => (s, .error e)
  | (s, .ok ps) => if a.writes then placeAll (reqWho c r) .copy a false true gs s else (s, .ok ps)

/-- What a source gives: its bytes, and how many of them come before its first poisoned line or word. -/
structure PieceData where
  bytes : List Byte := []
  good : Nat := 0

/-- How a piece's read ends. -/
inductive PieceRead where
  | fault (f : VFault) (va : Word)
  | broken (pa key : Nat) (va : Word)
  | flip
  | data (d : PieceData)

/-- The bytes before the first poisoned line among placed pieces. -/
def goodBytes (s : State) (w : Who) : List Placed → Nat
  | [] => 0
  | p :: ps =>
    match p.lines.find? fun l => seenPoison s w l.1 l.2 with
    | some l => 128 * l.1 - p.seg.at_.toNat
    | none => p.seg.n + goodBytes s w ps

/-- Read n bytes of memory for a request. -/
def readGlobal (s : State) (c : Nat) (r : CopyReq) (va : Word) (n : Nat) : State × PieceRead :=
  match copyPlace s c r .rd va n with
  | (s, .error (f, g)) => (s, .fault f g.va)
  | (s, .ok ps) =>
    if ps.any fun p => flipHeld s p.ref.pa then (s, .flip)
    else
      let w := reqWho c r
      match tagBroken s w ps with
      | some (g, pa, key) => (s, .broken pa key g.va)
      | none => (bringIn s w ps, .data { bytes := seenPieces s w ps, good := goodBytes s w ps })

/-- The source bytes of a piece of kind copy, fill, zero or reduce. A source tile is read whole by the one read that reserved it (R290): one that was
poison before that was not reserved and gives nothing (R293), one that is poisoned later has been read. -/
def readPiece (s : State) (c : Nat) (r : CopyReq) (n : Nat) : State × PieceRead :=
  let o := r.off
  match r.kind with
  | 1 => (s, .data { bytes := (List.range n).map fun j => BitVec.ofNat 8 (fld r.w0 (8 * ((o + j) % 8)) 8), good := n })
  | 2 => (s, .data { bytes := List.replicate n 0, good := n })
  | _ =>
    if r.srct then
      match liveTile s r.fn r.w0 with
      | some t => (s, if !r.res then .data {} else .data { bytes := (List.range n).map fun j => (s.tile t).bytes.get 0 (o + j), good := n })
      | none => (s, .data {})
    else if r.ssp then
      let k := s.cls r.cls
      let off := (r.srcAt o).toNat
      (s, .data { bytes := k.scratch off n, good := ((List.range n).find? fun j => k.scrPsn.get false ((off + j) / 4)).getD n })
    else readGlobal s c r (r.srcAt o) n

/-- Store bytes of a copy through the issuing core: memory, its L1 copies, reservations (R57, R122). -/
def copyStore (s : State) (c : Nat) (r : CopyReq) (ps : List Placed) (bs : List Byte) : State :=
  let at_ := (ps.head?).map (·.seg.at_) |>.getD 0
  storeCells s { reqWho c r with engine := true } ((atOffset 0 bs).map fun (k, b) => cellAt at_ ps k b)

/-- A line that a copy's store of n bytes writes only in part, and whose tag fails (R339). -/
def copyBroken (s : State) (w : Who) (ps : List Placed) (n : Nat) : Option (Placed × Nat) :=
  ps.findSome? fun p => (p.lines.find? fun l =>
    !entryOk s w l.1 p.ref.key l.2 && !(decide (p.ref.pa ≤ 128 * l.2) && decide (128 * l.2 + 128 ≤ p.ref.pa + n))).map fun l => (p, l.2)

/-- Mark the destination of the failing source line as poison, and drop it from the issuing core's L1 (R57, R293). -/
def poisonDest (s : State) (c : Nat) (r : CopyReq) (ps : List Placed) (from_ n : Nat) : State :=
  let at_ := (ps.head?).map (·.seg.at_) |>.getD 0
  (((List.range n).map fun j => ((placedAt at_ ps (from_ + j)).pa / 128, (at_ + word (from_ + j)).toNat / 128)).eraseDups).foldl (fun s (l, v) =>
    l1Drop (markPoison s (reqWho c r) v l) c (reqWho c r).tag [v]) s

/-- The bytes of the failing line after the good ones: to the end of the source line, and of the piece; all that is left of a gather's element;
none of a source tile (R293). -/
def badSpan (r : CopyReq) (good n : Nat) : Nat :=
  let a := (r.srcAt (r.off + good)).toNat
  if r.srct then 0
  else if r.kind = 3 then n - good
  else min (n - good) (if r.ssp then 4 - a % 4 else 128 - a % 128)

/-- The data of a piece reach its destination; WM advances, the offset moves on; poison in the source ends the copy UE, the whole
moved ends it OK (R293, R294). A new tile whose copy runs past its slot is dropped, with cause 26 (log 73). -/
def writePiece (s : State) (c i : Nat) (r : CopyReq) (n : Nat) (d : PieceData) : State :=
  let good := d.bytes.take (min d.good n)
  let k := good.length
  let bad := decide (k < n)
  let span := if bad then badSpan r k n else 0
  let va := r.dstAt r.off
  let onward := fun (s : State) =>
    let s := modReq s c i fun r => { r with off := r.off + k, undelivered := if r.ct = 3 then r.undelivered + k + span else 0 }
    let s := wmAdvance s c r (r.dstAt (r.off + k))
    if bad then endReq s c i 1 0 (r.off + k)
    else if r.total ≤ r.off + k then endReq s c i 0 0 r.total
    else s
  if r.cprd ∧ r.w1 = 0 then
    onward (modReq s c i fun r => { r with data := r.data ++ good })
  else if r.dsp then
    onward (if !(s.cls r.cls).live then s else s.modCls r.cls fun x =>
      let x := x.putScratch (scratchCells va.toNat (good ++ List.replicate span 0))
      { x with scrPsn := (List.range span).foldl (fun (m : SMap Bool) j => m.set false ((va.toNat + k + j) / 4) true) x.scrPsn, taint := x.taint ||| r.taint })
  else if r.dstt ≠ 0 then
    match destTile s r r.handle with
    | none => endReq s c i 4 28 r.off
    | some t =>
      if t.room < r.toff + r.off + n then endReq (if r.dstt = 1 then freeTile s t else s) c i 4 26 r.off
      else onward (s.modTile t fun x => x.put (atOffset (r.toff + r.off) good) r.taint)
  else
    match copyPlace s c r .wr va n with
    | (s, .error (f, g)) => parkReq s c i r f (if r.cprd then 7 else 6) g.va
    | (s, .ok ps) =>
      if ps.any fun p => flipHeld s p.ref.pa then s
      else
        let bs := good ++ List.replicate span 0
        match copyBroken s (reqWho c r) ps bs.length with
        | some (p, l) => sealReq s c i r (128 * l) p.ref.key p.seg.va
        | none =>
          let s := copyStore (if r.kind = 2 then zeroTags s (reqWho c r) ps else s) c r ps bs
          onward (if bad then poisonDest s c r ps k span else s)

/-- A `cprd` whose source is found in a window acts at scope 5 (R128). -/
def widen (s : State) (c i : Nat) (r : CopyReq) : State × CopyReq :=
  match (if r.cprd && !r.wide then (copyPlace s c r .rd (r.srcAt r.off) 1).2 else .ok []) with
  | .ok (p :: _) =>
    if paKind p.ref.pa = .hbm then (s, r)
    else (coreAcquire (modReq s c i fun r => { r with wide := true }) c 5, { r with wide := true })
  | _ => (s, r)

/-- One piece of a copy, fill, zero or `cprd`. -/
def movePiece (s : State) (c i : Nat) (r : CopyReq) : State :=
  let (s, r) := widen s c i r
  let n := pieceSize r
  if r.total ≤ r.off then endReq s c i 0 0 r.total
  else match readPiece s c r n with
    | (s, .fault f va) => parkReq s c i r f (if r.cprd then 7 else 5) va
    | (s, .broken pa key va) => sealReq s c i r pa key va
    | (s, .flip) => s
    | (s, .data d) => writePiece s c i r n d

/-- The request at work in slot `b` of core `a`, where it has the kind. -/
def workingReq (s : State) (kind : Nat) : Option CopyReq :=
  match (s.core s.ev.a).req s.ev.b with
  | some r => if r.st = .working ∧ !r.cprd ∧ r.kind = kind then some r else none
  | none => none

/-- COPY_PIECE_COPY (R51). -/
def execCopyPieceCopy (s : State) : Host.Outcome State Fault Refusal :=
  .next (match workingReq s 0 with
    | some r => movePiece s s.ev.a s.ev.b r
    | none => s)

/-- COPY_PIECE_FILL (R290). -/
def execCopyPieceFill (s : State) : Host.Outcome State Fault Refusal :=
  .next (match workingReq s 1 with
    | some r => movePiece s s.ev.a s.ev.b r
    | none => s)

/-- COPY_PIECE_ZERO (R290, R67). -/
def execCopyPieceZero (s : State) : Host.Outcome State Fault Refusal :=
  .next (match workingReq s 2 with
    | some r => movePiece s s.ev.a s.ev.b r
    | none => s)

/-- COPY_PIECE_GATHER (R290): one element, or as much of it as lies in one page at the destination (R51); a source that is not aligned to its size is refused there (R293). -/
def execCopyPieceGather (s : State) : Host.Outcome State Fault Refusal :=
  .next (match workingReq s 3 with
    | none => s
    | some r =>
      let c := s.ev.a
      let i := s.ev.b
      let size := 2 ^ r.rop
      if r.total ≤ r.off then endReq s c i 0 0 r.total
      else match readGlobal s c r (r.w0 + word (8 * (r.off / size))) 8 with
        | (s, .fault f va) => parkReq s c i r f 5 va
        | (s, .broken pa key va) => sealReq s c i r pa key va
        | (s, .flip) => s
        | (s, .data d) =>
          if d.good < 8 then writePiece s c i r (pieceSize r) {}
          else
            let va := leWord d.bytes
            if va.toNat % size ≠ 0 then endReq s c i 3 0 r.off
            else match readGlobal s c r (va + word (r.off % size)) (pieceSize r) with
              | (s, .fault f va) => parkReq s c i r f 5 va
              | (s, .broken pa key va) => sealReq s c i r pa key va
              | (s, .flip) => s
              | (s, .data d) => writePiece s c i r (pieceSize r) d)

/-! ### Reduction (R131, R155, R296) -/

/-- Combine two elements under a reduce operation (R290). -/
def reduceOp (rop x y : Nat) : Nat :=
  match rop with
  | 0 => (x + y) % 2 ^ 32
  | 1 => (x + y) % 2 ^ 64
  | 2 => if toS 32 y < toS 32 x then y else x
  | 3 => if toS 32 x < toS 32 y then y else x
  | 4 => x &&& y
  | 5 => x ||| y
  | 6 => x ^^^ y
  | 7 => (fAdd fp32 0 false x y).bits
  | 8 => (fAdd fp64 0 false x y).bits
  | 9 => (fAdd bf16 0 false x y).bits
  | 10 => (fMinMax fp32 false x y).bits
  | _ => (fMinMax fp32 true x y).bits

/-- The contributions of a request that have not been performed, wherever they are. -/
def openParts (s : State) (c : Nat) (r : CopyReq) : List ContribSrc :=
  (s.dies.map fun (_, d) => ((d.transit ++ d.comb.map (·.sum)).map fun x => x.parts.filter fun p => p.core == c && p.seq == r.seq).flatten).flatten

/-- The offset below which every byte that a request has written is performed at its destination (R131). -/
def performedOff (s : State) (c : Nat) (r : CopyReq) : Nat := ((openParts s c r).map (·.off)).foldl min r.off

/-- Contributions have been performed: the lines leave their cores' L1 (R57, R122), and watermarks advance (R294). -/
def notePerformed (s : State) (ps : List ContribSrc) : State :=
  ps.foldl (fun s p =>
    let s := l1Drop s p.core p.tag [p.vline]
    (reqsOf s p.core).foldl (fun s x => if x.2.seq = p.seq then wmAdvance s p.core x.2 (x.2.dstAt (performedOff s p.core x.2)) else s) s) s

/-- The request of a contribution whose line failed its tag ends FAULT at the contribution's piece, for cause 51 at its wait (R340): at the lowest such offset; its
barrier counts no byte from there on (R293). -/
def failPart (s : State) (p : ContribSrc) : State :=
  match (reqsOf s p.core).find? fun x => x.2.seq == p.seq with
  | some (i, r) =>
    if r.st = .ended ∧ r.code ≠ 0 ∧ r.off ≤ p.off then s
    else modReq (sealEnd s p.core i p.off (r.dstAt p.off)) p.core i fun y => { y with undelivered := r.undelivered - (r.off - p.off) }
  | none => s

/-- The updates of a contribution at the destination's home (R131). A sealed line whose tag fails is not taken in: the failure is recorded, and the
copies that it came from end (R340; log 76). -/
def applyContrib (s : State) (x : Contrib) : State :=
  let s := if tagOk s x.key x.line then
      breakResv (x.els.foldl (fun (s : State) (pa, v) =>
        let old := leToNat (readMem s x.key pa x.size)
        writeMem s x.key pa (natToLe x.size (reduceOp x.rop old v.toNat)) x.taint) s) 8192 [x.line]
    else x.parts.foldl failPart (bookAppend s 8 x.fn x.eid (((x.parts.head?).map (·.core)).getD 0) [word (128 * x.line), word x.key])
  notePerformed s x.parts

/-- Two contributions combined in the order of arrival: for each element one value (R155, R296). -/
def Contrib.join (x y : Contrib) : Contrib :=
  { x with
    els := y.els.foldl (fun (l : List (Nat × Word)) (pa, v) =>
      if l.any fun e => e.1 == pa then l.map fun e => if e.1 = pa then (pa, word (reduceOp x.rop e.2.toNat v.toNat)) else e else l ++ [(pa, v)]) x.els
    release := x.release || y.release, taint := x.taint ||| y.taint, parts := x.parts ++ y.parts }

/-- What leaves the switch of die d goes on to the destination's home: to the home die's switch, or, from there, to the slice that performs it
(R296). The spec gives no paths between dies: a contribution crosses its issuer's die and its home's (log 52). -/
def forwardContrib (s : State) (d : Nat) (x : Contrib) : State :=
  let home := homeDie (128 * x.line)
  if d = home then applyContrib s x else s.modDie home fun y => { y with transit := y.transit ++ [x] }

/-- The contribution of consecutive elements cut at destination lines. -/
def contribsOf (c : Nat) (r : CopyReq) (ps : List Placed) (at_ : Word) (vals : List Word) : List Contrib :=
  let size := r.elemSize
  let els := vals.zipIdx.map fun (v, j) => (placedAt at_ ps (j * size), (at_ + word (j * size)).toNat / 128, v)
  ((els.map fun x => x.1.1 / 128).eraseDups).filterMap fun l =>
    match els.filter fun x => x.1.1 / 128 == l with
    | [] => none
    | x :: xs => some { line := l, key := x.1.2, rop := r.rop, size := size, els := (x :: xs).map fun y => (y.1.1, y.2.2), fn := r.fn, eid := r.eid
                        expected := r.nread, release := r.rel, taint := r.taint
                        parts := [{ core := c, seq := r.seq, off := r.off, vline := x.2.1, tag := (reqWho c r).tag }] }

/-- COPY_PIECE_REDUCE (R290, R296): the contributions of one piece set out from the issuing core's die; a destination outside HBM or
not aligned to the element ends the copy REFUSED there. -/
def execCopyPieceReduce (s : State) : Host.Outcome State Fault Refusal :=
  .next (match workingReq s 4 with
    | none => s
    | some r =>
      let c := s.ev.a
      let i := s.ev.b
      let n := pieceSize r
      let va := r.dstAt r.off
      if r.total ≤ r.off then endReq s c i 0 0 r.total
      else match readPiece s c r n with
        | (s, .fault f va) => parkReq s c i r f 5 va
        | (s, .broken pa key va) => sealReq s c i r pa key va
        | (s, .flip) => s
        | (s, .data d) =>
          match copyPlace s c r .wr va n with
          | (s, .error (f, g)) => parkReq s c i r f 6 g.va
          | (s, .ok ps) =>
            if ps.any fun p => flipHeld s p.ref.pa then s
            else if va.toNat % r.elemSize ≠ 0 ∨ ps.any (fun p => paKind p.ref.pa != .hbm) then endReq s c i 3 0 r.off
            else
              let k := min d.good n / r.elemSize * r.elemSize
              let vals := (List.range (k / r.elemSize)).map fun j => leWord ((d.bytes.drop (j * r.elemSize)).take r.elemSize)
              let s := s.modDie (dieOfCore c) fun x => { x with transit := x.transit ++ contribsOf c r ps va vals }
              let span := if k < n then badSpan r k n else 0
              let s := modReq s c i fun r => { r with off := r.off + k, undelivered := if r.ct = 3 then r.undelivered + k + span else 0 }
              if k < n then endReq (poisonDest s c r ps k span) c i 1 0 (r.off + k)
              else if r.total ≤ r.off + k then endReq s c i 0 0 r.total
              else s)

/-- A contribution waits while its page flips (R135). -/
def Contrib.held (s : State) (x : Contrib) : Bool := flipHeld s (128 * x.line)

/-- REDUCE_CONTRIBUTION_ARRIVAL (R296): the oldest contribution in transit at die `a` combines in the die's switch, takes an entry, or passes on
uncombined; an entry that is complete, or that holds a release, is forwarded (R131). -/
def execReduceContributionArrival (s : State) : Host.Outcome State Fault Refusal :=
  let d := s.ev.a
  match (s.die d).transit with
  | [] => .next s
  | x :: rest =>
    if x.held s then .next s
    else
      let s := s.modDie d fun y => { y with transit := rest }
      let tbl := (s.die d).comb
      let mine := fun (e : CombEntry) => e.sum.line == x.line && e.sum.rop == x.rop && e.sum.fn == x.fn
      let entry : Option CombEntry := match tbl.find? mine with
        | some e => some { e with sum := e.sum.join x }
        | none => if tbl.length < 256 then some { sum := x, since := s.clock } else none
      match entry with
      | none => .next (forwardContrib s d x)
      | some e =>
        let others := tbl.filter fun y => !mine y
        if x.release || (e.sum.expected != 0 && decide (e.sum.expected ≤ e.sum.parts.length)) then
          .next (forwardContrib (s.modDie d fun y => { y with comb := others }) d e.sum)
        else .next (s.modDie d fun y => { y with comb := others ++ [e] })

/-- COMBINING_ENTRY_TIMEOUT (R131): entry `b` of die `a`, 512 clocks after its first contribution. -/
def execCombiningEntryTimeout (s : State) : Host.Outcome State Fault Refusal :=
  let d := s.ev.a
  match (s.die d).comb[s.ev.b]? with
  | none => .next s
  | some e =>
    if s.clock - e.since < 512 ∨ e.sum.held s then .next s
    else .next (forwardContrib (s.modDie d fun y => { y with comb := y.comb.erase e }) d e.sum)

/-- Some contribution of a request has not been performed. -/
def contribsOpen (s : State) (c : Nat) (r : CopyReq) : Bool := !(openParts s c r).isEmpty

/-! ### Completion (R293 to R295, R300) -/

/-- The message that reports a request's end (R294, R300). -/
def copyMessage (r : CopyReq) : Message :=
  let inl := r.cprd && r.w1 == 0 && r.code == 0
  let words := if inl then (List.range (r.data.length / 8)).map fun j => leWord ((r.data.drop (8 * j)).take 8) else [word (r.code + r.detail * 2 ^ 8), word r.off, if r.cprd then r.w0 else if r.dstt = 1 then r.handle else 0]
  let base := if r.cprd then setFld r.w3 32 4 words.length else word (r.tgt * 2 ^ 9 + r.ccore + 3 * 2 ^ 32 + fld r.w3 56 8 * 2 ^ 40)
  { hdr := deliveredHdr base (if r.cprd then 3 else 2) r.hart (b2n !inl), words := words, fn := r.fn, launch := r.launch, sender := r.hart
    taint := r.taint, counted := r.counted, edge := some (if r.rel then r.relScope else 0) }

/-- A request leaves the FIFO: its flags fall (R194). -/
def finishReq (s : State) (c i : Nat) (r : CopyReq) : State :=
  let s := dropReq s c i
  if r.own then s.modHart r.hart fun h => r.flags.foldl (fun x k => x.subCf k) h else s

/-- Offer a request's message to its channel; held, the request keeps its slot (R278). -/
def offerReq (s : State) (c i : Nat) (r : CopyReq) : State :=
  match arrive s r.ccore r.tgt (.copy c i) (copyMessage r) with
  | (s, .done) => finishReq s c i r
  | (s, .held) => modReq s c i fun r => { r with st := .offering }

/-- What an end other than OK leaves for the hart: `kcpst` (R295), the fault to meet at the wait (R46, R340; the service hart has met its
own at once, R48), a watermark channel in error (R81). -/
def noteEnd (s : State) (c i : Nat) (r : CopyReq) : State :=
  let s := if r.ct = 4 ∧ (r.code = 1 ∨ r.code = 2) then s.modCore c fun k => k.modWm r.tgt fun w =>
      if w.era = r.wmEra ∧ w.st = 1 then { w with st := 3 } else w else s
  if r.code = 0 ∨ r.ct = 2 then s
  else s.modHart r.hart fun h =>
    let h := if fld h.k.kcpst 48 8 ≠ 0 then h
      else { h with k := { h.k with kcpst := word (r.detail * 2 ^ 56 + r.code * 2 ^ 48 + i * 2 ^ 40 + r.off % 2 ^ 40) } }
    if r.own ∧ r.code = 2 ∧ (r.isSealed ∨ !isService r.hart) ∧ (r.ct = 1 ∨ (r.ct = 3 ∧ r.ccore = c)) then
      { h with faults := h.faults ++ [{ target := if r.ct = 1 then r.tgt else 16 + r.tgt, va := r.faultVa, isSealed := r.isSealed }] }
    else h

/-- The bytes that a request has written, performed (R127, R131) and not yet delivered to its stage barrier; those of a new tile count only from its
completion on (R292). -/
def deliverable (s : State) (c : Nat) (r : CopyReq) : Nat :=
  if !contribsOpen s c r then r.undelivered
  else if r.st = .ended then 0
  else r.undelivered - (r.off - performedOff s c r)

/-- Deliver them. A copy that releases does so before its bytes can release a waiter, and gives the barrier's release its scope; bytes that another core's copy has written reach the waiters past
their L1 (R127, R128). Bytes into a peer window count once they lie in the issuing cluster's cache (log 73). -/
def deliverReq (s : State) (c i : Nat) (r : CopyReq) : State :=
  let n := deliverable s c r
  if n = 0 then s
  else deliver (modReq (if r.rel then coreRelease s c r.relScope else s) c i fun r => { r with undelivered := r.undelivered - n }) r.ccore r.tgt n
    (max (if r.rel then r.relScope else 0) (if r.ccore = c then 0 else 2))

/-- The seal of a new tile (R292 step 3): one that fails drops the tile and ends the copy TILE; a tile that is no longer OPEN gives cause 28, and
stays as it is (R96). -/
def sealNew (s : State) (c i : Nat) (r : CopyReq) : State :=
  match destTile s r r.handle with
  | none => modReq s c i fun r => { r with code := 4, detail := 28, handle := 0 }
  | some t =>
    let h := (s.tile t).hdr
    let f := (hdrCheck h).orElse fun _ => if t.room < extentOf h then some { cause := 26 } else none
    match f with
    | some f => modReq (freeTile s t) c i fun r => { r with code := 4, detail := f.cause, handle := 0 }
    | none => modReq (s.modTile t fun x => { (x.put (atOffset 0 (natToLe 16 (sealCrc (setHf h 30 1 1)).toNat)) 0) with st := .sealed, c := x.n }) c i
        fun r => { r with tileDone := true }

/-- The rest of a completion, once the tile is sealed and its handle written. -/
def signalReq (s : State) (c i : Nat) (r : CopyReq) : State :=
  let s := noteEnd (deliverReq s c i r) c i r
  let s := if r.rel then coreRelease s c r.relScope else s
  let s := if r.rel ∧ r.ct = 1 then coreAcquire s c r.relScope else s
  if r.ct = 2 then offerReq s c i r else finishReq s c i r

/-- The end of a request in slot i: new tile sealed, handle written, target signalled (R292, R294). -/
def completeReq (s : State) (c i : Nat) (r : CopyReq) : State :=
  if r.dstt ≠ 1 then signalReq s c i r
  else
    let s := if r.code = 0 ∧ !r.tileDone then sealNew s c i r else s
    match (s.core c).req i with
    | none => s
    | some r =>
      if r.w1 = 0 ∨ r.handle = 0 ∨ 1 < r.code then signalReq s c i r
      else match copyPlace s c r .wr r.w1 8 with
        | (s, .error (f, g)) => parkReq s c i r f 6 g.va
        | (s, .ok ps) =>
          if ps.any fun p => flipHeld s p.ref.pa then s
          else match copyBroken s (reqWho c r) ps 8 with
            | some (p, l) => sealReq s c i r (128 * l) p.ref.key p.seg.va
            | none => signalReq (copyStore s c r ps (natToLe 8 r.handle.toNat)) c i r

/-- COPY_COMPLETION (R294): slot `b` of core `a`, once every contribution of a reduction is performed (R131). -/
def execCopyCompletion (s : State) : Host.Outcome State Fault Refusal :=
  let c := s.ev.a
  let i := s.ev.b
  .next (match (s.core c).req i with
    | some r => if r.st = .ended ∧ !r.cprd ∧ !contribsOpen s c r then completeReq s c i r else s
    | none => s)

/-- CPRD_PERFORM (R300): one piece of the block; after the last, the completion message. -/
def execCprdPerform (s : State) : Host.Outcome State Fault Refusal :=
  let c := s.ev.a
  let i := s.ev.b
  .next (match (s.core c).req i with
    | some r =>
      if !r.cprd then s
      else if r.st = .working then movePiece s c i r
      else if r.st = .ended then signalReq s c i r
      else s
    | none => s)

/-- STAGE_BARRIER_DELIVERY (R304): the bytes that slot `b` of core `a` has written reach its barrier. -/
def execStageBarrierDelivery (s : State) : Host.Outcome State Fault Refusal :=
  let c := s.ev.a
  let i := s.ev.b
  .next (match (s.core c).req i with
    | some r => if r.ct = 3 ∧ r.dstt ≠ 1 then deliverReq s c i r else s
    | none => s)

end Sys2Proof.Machine
end

