-- ==== Sys2Proof/Machine/Ctx.lean ====
section
/-!
DEFINITION. Saving and restoring a lane context (R310 to R312).
-/
namespace Sys2Proof.Machine

/-- The pieces of an access to whole lines from a 128-byte boundary on, of no one lane. -/
def lineSegs (va : Word) (lines : Nat) : List Seg :=
  (List.range lines).map fun i => { lane := 0xFF, va := va, at_ := va + word (128 * i), n := 128 }

/-- The address of a save area: x[a] with bit 0 cleared, its bits [6:1] zero (R310). -/
def ctxAddr (s : State) (a : BitVec 5) : Word := s.me.getX a.toNat &&& ~~~(1 : Word)

/-- A request is parked on an allocation or on a fault. -/
def CopyReq.parked (r : CopyReq) : Bool := r.st == .parkAlloc || r.st == .parkFault

/-- An operation that the hart issued, under whatever binding, has not completed (R310): parked requests count only where `all` says so. -/
def opsOpenBut (s : State) (h : Nat) (all : Bool) : Bool :=
  let k := s.core (coreOf h)
  k.sends.any (fun e => e.msg.sender == h) || !k.mx.isEmpty ||
  (reqsOf s (coreOf h)).any fun x => x.2.hart == h && (all || !x.2.parked || contribsOpen s (coreOf h) x.2)

/-- The parked requests of a hart's own binding: those that a save withdraws (R310; log 75). -/
def parkedReqs (s : State) (h : Nat) : List (Nat × CopyReq) := (reqsOf s (coreOf h)).filter fun x => x.2.hart == h && x.2.own && x.2.parked

/-- A parked request leaves the FIFO with its progress: its source is let go, its flags fall, the bytes it has written are delivered; the new tile it
has, and what it has read towards an inline completion, are kept for its return (R310; log 75). -/
def withdrawReq (s : State) (c i : Nat) (r : CopyReq) : State :=
  let s := dropSource (deliverReq s c i r) r false
  let s := s.modCluster (clusterOf c) fun k => k.modPart r.part fun p => { p with waiters := p.waiters.filter (· != .copy c i) }
  let s := if r.handle ≠ 0 ∧ r.dstt = 1 ∨ !r.data.isEmpty then { s with withdrawn := s.withdrawn ++ [r] } else s
  finishReq s c i r

/-- The record of a withdrawn request (R312). -/
def reqRecord (r : CopyReq) : List Byte :=
  ([r.w0, r.w1, r.w2, r.w3, word r.off, word (b2n r.cprd + 2 * b2n (r.st == .parkAlloc) + 4 * b2n (r.st == .parkFault))].map fun w =>
    natToLe 8 w.toNat).flatten

/-- `kcfc0` and `kcfc1` (R195). -/
def kcfcOf (h : Hart) (hi : Bool) : Word :=
  word ((List.range (if hi then 4 else 8)).foldl (fun n k => n + h.getCf (k + if hi then 8 else 0) % 64 * 2 ^ (6 * k)) 0)

/-- Bytes of 64-bit words. -/
def wordBytes (ws : List Word) : List Byte := (ws.map fun w => natToLe 8 w.toNat).flatten

/-- The save area of a hart (R312). -/
def ctxBytes (h : Hart) (rs : List CopyReq) : List Byte :=
  ((List.range 1024).map fun i => natToLe 4 (h.getV (i / 32) (i % 32)).toNat).flatten ++
  ((List.range 8).map fun i => natToLe 4 (h.getM i).toNat).flatten ++
  ((List.range 16).map fun i => natToLe 4 (h.kms.get 0 i).toNat).flatten ++
  wordBytes ((List.range 8).map fun i => h.inbox.get 0 i) ++
  wordBytes [word (2 ^ 56 + h.present.toNat * 2 ^ 16 + h.kmsd), word h.k.kclst.toNat, kcfcOf h false, kcfcOf h true, word rs.length, 0] ++
  (rs.map reqRecord).flatten ++ List.replicate (432 - 48 * rs.length) 0

/-- `kctx.sv` (R310). -/
def execKctxSv (a : BitVec 5) (s : State) : Host.Outcome State Fault Refusal :=
  finish (do
    let va := ctxAddr s a
    let wd := bitOf (s.me.getX a.toNat) 0
    need (fld va 0 7 == 0)
    if opsOpenBut s s.cur !wd then stallWith .stall
    else
      wmCheck [(va.toNat, 4736)]
      let w ← whoX
      let ps ← placeMine w .lane .wr 1 (lineSegs va 37)
      let s ← rd id
      let rs := parkedReqs s s.cur
      let s := rs.foldl (fun s x => withdrawReq s (coreOf s.cur) x.1 x.2) s
      let bs := ctxBytes s.me (rs.map (·.2))
      upd fun _ => storeCells s w ((ps.map fun p => cellsFor p bs).flatten)
      onMe fun h => h.setXs 2
      retireX) s

/-- `kclst` as a write stores it: 17 to 31 in REM stores 0 (R197). -/
def kclstWarl (w : Word) : BitVec 13 := (setFld w 0 5 (if fld w 0 5 ≤ 16 then fld w 0 5 else 0)).extractLsb' 0 13

/-- The hart with the lane context that a save area holds (R311, R312); its inbox values carry the taint t of the hart that loads them: an area holds none
(R351; log 73). -/
def Hart.loadCtx (h : Hart) (bs : List Byte) (service : Bool) (t : BitVec 16) : Hart :=
  let w4 := fun o => leToNat ((bs.drop o).take 4)
  let w8 := fun o => leWord ((bs.drop o).take 8)
  let lo := if service then 4 else 0
  let st := w8 0x10A0
  let pres := fld st 16 8
  let cf := fun k => if k < 8 then fld (w8 0x10B0) (6 * k) 6 else fld (w8 0x10B8) (6 * (k - 8)) 6
  let h := (List.range 1024).foldl (fun (x : Hart) i => x.setV (i / 32) (i % 32) (BitVec.ofNat 32 (w4 (4 * i)))) h
  let h := (List.range 8).foldl (fun (x : Hart) i => x.setM i (BitVec.ofNat 32 (w4 (0x1000 + 4 * i)))) h
  let h := { h with kms := (List.range 16).foldl (fun (m : SMap (BitVec 32)) i => m.set 0 i (BitVec.ofNat 32 (w4 (0x1020 + 4 * i)))) h.kms
                    kmsd := if fld st 0 5 ≤ 16 then fld st 0 5 else h.kmsd, k := { h.k with kclst := kclstWarl (w8 0x10A8) }
                    cf := (List.range 12).foldl (fun (m : SMap Nat) k => m.set 0 k (cf k)) h.cf }
  ((List.range 8).foldl (fun (x : Hart) i =>
    if i < lo then x
    else { x with inbox := x.inbox.set 0 i (w8 (0x1060 + 8 * i)), inFrom := x.inFrom.set {} i { taint := t }
                  present := if pres.testBit i then x.present ||| BitVec.ofNat 8 (2 ^ i) else x.present &&& ~~~ BitVec.ofNat 8 (2 ^ i) }) h).setXs 2

/-- What has been kept of the progress of a withdrawn request of the same launch, words and offset (log 75). -/
def progressOf (s : State) (r : CopyReq) : Option CopyReq :=
  s.withdrawn.find? fun x => x.launch == r.launch && x.cprd == r.cprd && x.w0 == r.w0 && x.w1 == r.w1 && x.w2 == r.w2 && x.w3 == r.w3 && x.off == r.off

/-- The request that a record of a save area holds, as the current hart's own: one that was parked on a fault has what was kept of its progress, which no other
record then has, one parked on an allocation waits for its tile again (R311). -/
def recordReq (s : State) (bs : List Byte) (i : Nat) : State × CopyReq :=
  let w := fun k => leWord ((bs.drop (0x10D0 + 48 * i + 8 * k)).take 8)
  let r : CopyReq := { newReq s 0 (bitOf (w 5) 0) with w0 := w 0, w1 := w 1, w2 := w 2, w3 := w 3, off := (w 4).toNat, again := true }
  let kept := if bitOf (w 5) 2 then progressOf s r else none
  let r := match kept with
    | some k => { r with handle := k.handle, data := k.data, tileDone := k.tileDone, code := k.code, detail := k.detail }
    | none => if r.dstt = 1 ∨ (r.cprd ∧ r.w1 = 0) then { r with off := 0 } else r
  (match kept with
    | some k => { s with withdrawn := s.withdrawn.erase k }
    | none => s,
   { r with wmEra := (s.myCore.wmc r.tgt).era, flags := if r.ct = 1 then [r.tgt] else [], counted := r.cprd && isCounted s r.launch r.w3 })

/-- The requests of a save area's records, with the state in which what they had kept is theirs. -/
def recordReqs (bs : List Byte) : List Nat → State → State × List CopyReq
  | [], s => (s, [])
  | i :: is, s =>
    let (s, r) := recordReq s bs i
    let (s, rs) := recordReqs bs is s
    (s, r :: rs)

/-- A request of a save area enters the FIFO again; its send was counted when it was first accepted. -/
def reenter (s : State) (r : CopyReq) : State :=
  match fifoRoom s s.cur with
  | none => s
  | some i =>
    let s := s.modMyCore fun k => { (k.setReq i (some { r with seq := k.fifoSeq })) with fifoSeq := k.fifoSeq + 1 }
    s.modMe fun h => r.flags.foldl (fun x k => x.addCf k) h

/-- `kctx.ld` (R311). -/
def execKctxLd (a : BitVec 5) (s : State) : Host.Outcome State Fault Refusal :=
  finish (do
    let va := ctxAddr s a
    need (fld (s.me.getX a.toNat) 0 7 == 0)
    if opsOpen s s.cur then stallWith .stall
    else
      wmCheck [(va.toNat, 4736)]
      let w ← whoX
      let ps ← placeMine w .lane .rd 0 (lineSegs va 37)
      let s ← rd id
      match readPieces w true ps s with
      | (s', .error e) =>
        upd fun _ => s'
        failRead e
      | (s', .ok r) =>
        upd fun _ => s'
        let bs := (r.map (·.2)).flatten
        let n := min 8 (leToNat ((bs.drop 0x10C0).take 8) % 16)
        need (leToNat ((bs.drop 0x10A7).take 1) == 1)
        let (kept, rs) := recordReqs bs (List.range n) s'
        need (rs.all fun r => if r.cprd then cprdLegal r else copyLegal r false)
        if 32 < (reqsOf s' (coreOf s'.cur)).length + n then stallWith .stall
        else
          onMe fun h => h.loadCtx bs (isService s'.cur) (taintOf s' s'.cur)
          upd fun s => rs.foldl reenter { s with withdrawn := kept.withdrawn }
          retireX) s

end Sys2Proof.Machine
end

