-- ==== Sys2Proof/Machine/Hall.lean ====
section
/-!
DEFINITION. The hall pass (R283 to R286).
-/
namespace Sys2Proof.Machine

/-- The status word of an instance (R283). -/
def HallPass.status (p : HallPass) : Word := word (p.st * 2 ^ 62 + p.rounds % 2 ^ 14 * 2 ^ 48 + p.balance.toNat)

/-- An instance has an owner: it is armed, running, terminated, or an arm of it is under way. -/
def HallPass.owned (p : HallPass) : Bool := p.st != 0 || p.arming

/-- The harts whose `arm` of an instance has not completed complete, the status in x[d]. -/
def endArm (s : State) (i : Nat) : State :=
  s.harts.foldl (fun (s : State) (x : Nat × Hart) => match x.2.wait with
    | .arming j d => if j = i then s.modHart x.1 fun h => (h.setX d (s.hp i).status).done else s
    | _ => s) s

/-- The state becomes disarmed; a travelling token is dropped. -/
def disarm (s : State) (i : Nat) : State :=
  endArm (s.modHp i fun p => { p with st := 0, arming := false, owner := 0, notified := 0, tok := 0, tokBlack := false, tokBal := 0 }) i

/-- The status goes to x[d]; one that shows state terminated is an acquire at scope 4 (R286). -/
def hpassResult (d i : Nat) : Exec Unit := fun s =>
  let p := s.hp i
  let s := s.modMe fun h => h.setX d p.status
  .ok ((), retire (if p.st = 3 then acquire s 4 else s))

/-- `hpass` (R283): instance and operation from x[a]. An operation of another launch than the owner's changes nothing and gives 0. -/
def hpassOp (d a : BitVec 5) : Exec Unit := fun s =>
  let x := s.me.getX a.toNat
  let i := fld x 4 3
  let op := fld x 0 4
  let first := fld x 7 9
  let last := fld x 16 9
  let c := coreOf s.cur
  let p := s.hp i
  let l := launchOf s s.cur
  if 5 ≤ op ∨ fld x 25 39 ≠ 0 ∨ (op = 0 ∧ (last < first ∨ c < first ∨ last < c)) then illegal s
  else if p.owned ∧ p.owner ≠ l then .ok ((), retire (s.modMe fun h => h.setX d.toNat 0))
  else match op with
    | 0 =>
      if p.arming then stallWith (.arming i d.toNat) s
      else if p.st = 0 ∨ p.st = 3 then
        stallWith (.arming i d.toNat) (s.modHp i fun _ => { arming := true, first := first, last := last, init := c, owner := l })
      else hpassResult d.toNat i s
    | 1 =>
      hpassResult d.toNat i (if p.st = 1 then s.modHp i fun p => { p with st := 2, tok := 1 % p.size, tokBlack := false, tokBal := 0, notified := s.cur } else s)
    | 2 => hpassResult d.toNat i s
    | 3 => if p.st = 3 then hpassResult d.toNat i s else stallWith .stall s
    | _ => hpassResult d.toNat i (disarm s i)

/-- `hpass` with operation 0, arm (R283). -/
def execHpassArm (d a : BitVec 5) (s : State) : Host.Outcome State Fault Refusal := finish (hpassOp d a) s

/-- `hpass` with operation 1, start (R283). -/
def execHpassStart (d a : BitVec 5) (s : State) : Host.Outcome State Fault Refusal := finish (hpassOp d a) s

/-- `hpass` with operation 2, status (R283). -/
def execHpassStatus (d a : BitVec 5) (s : State) : Host.Outcome State Fault Refusal := finish (hpassOp d a) s

/-- `hpass` with operation 3, wait (R283). -/
def execHpassWait (d a : BitVec 5) (s : State) : Host.Outcome State Fault Refusal := finish (hpassOp d a) s

/-- `hpass` with operation 4, disarm (R283). -/
def execHpassDisarm (d a : BitVec 5) (s : State) : Host.Outcome State Fault Refusal := finish (hpassOp d a) s

/-- HPASS_ARM_ACK (R283): the next ring core of instance `a` clears its count and colour; after the last, the arm completes. -/
def execHpassArmAck (s : State) : Host.Outcome State Fault Refusal :=
  let i := s.ev.a
  let p := s.hp i
  if !p.arming then .next s
  else
    let s := s.modCore (p.coreAt p.acked) fun k => { k with hpCount := k.hpCount.set 0 i 0, hpBlack := k.hpBlack.set false i false }
    let s := s.modHp i fun p => { p with acked := p.acked + 1 }
    .next (if p.acked + 1 < p.size then s else endArm (s.modHp i fun p => { p with arming := false, st := 1 }) i)

/-- A write of a request has still to be performed: of one that writes; after its last piece a new tile's handle or a contribution may be left. -/
def CopyReq.writing (s : State) (c : Nat) (r : CopyReq) : Bool :=
  !(r.cprd && r.w1 == 0) && r.st != .offering && (r.st != .ended || r.dstt == 1 || contribsOpen s c r)

/-- A core holds the token idle: no firing of the owner runs on it, and what its ended firings write is performed (R285). A request of no class that has left its
binding is an ended firing's. -/
def tokenIdle (s : State) (c owner : Nat) : Bool :=
  !(s.harts.any fun (h, x) => coreOf h == c && (match x.bind with
    | .firing f => f.launch == owner
    | _ => false)) &&
  (reqsOf s c).all fun x => x.2.own || x.2.cls != 0 || x.2.launch != owner || !x.2.writing s c

/-- HPASS_TOKEN_HOP (R285, R286): the core that holds the token of instance `a` passes it on; the initiator ends the round. -/
def execHpassTokenHop (s : State) : Host.Outcome State Fault Refusal :=
  let i := s.ev.a
  let p := s.hp i
  let c := p.coreAt p.tok
  if p.st ≠ 2 ∨ !tokenIdle s c p.owner then .next s
  else
    let n := (s.core c).hpCount.get 0 i
    let black := (s.core c).hpBlack.get false i
    let white := fun (s : State) => s.modCore c fun k => { k with hpBlack := k.hpBlack.set false i false }
    if p.tok ≠ 0 then
      .next ((white s).modHp i fun p => { p with tok := (p.tok + 1) % p.size, tokBal := p.tokBal + n, tokBlack := p.tokBlack || black })
    else if !p.tokBlack && !black && p.tokBal + n == 0 then
      let s := s.modHp i fun p => { p with st := 3, balance := p.tokBal + n }
      .next (if launchOf s p.notified = p.owner ∧ (s.hart p.notified).bind ≠ .none then raiseIntr s p.notified 19 else s)
    else
      .next ((white s).modHp i fun p =>
        { p with rounds := min 0x3FFF (p.rounds + 1), balance := p.tokBal + n, tok := 1 % p.size, tokBal := 0, tokBlack := false })

end Sys2Proof.Machine
end

