-- ==== Sys2Proof/Machine/Reply.lean ====
section
/-!
DEFINITION. The fault buffer and the channel-63 messages (R40, R41, R44 to R49), and the arrival of messages at their channels (R274,
R278).
-/
namespace Sys2Proof.Machine

/-! ### The fault buffer (R40, R49) -/

/-- FAULT_BUFFER_DELIVERY (R40): die `a` moves its oldest entry into i0 to i3 of its service hart, once all four are absent. -/
def execFaultBufferDelivery (s : State) : Host.Outcome State Fault Refusal :=
  let d := s.ev.a
  let h := serviceHart d
  match (s.die d).buf with
  | [] => .next s
  | r :: rest =>
    if (s.hart h).present &&& 0x0F ≠ 0 then .next s
    else
      let src : InFrom := { taint := r.taint }
      .next ((s.modDie d fun x => { x with buf := rest }).modHart h fun x =>
        (((x.fillInbox 0 r.w0 { src with notice := fld r.w1 0 8 == 0 }).fillInbox 1 r.w1 src).fillInbox 2 r.w2 src).fillInbox 3 r.w3 src)

/-- HELD_REPORT_POST (R49): die `a` posts a held report, oldest first within a core and round robin across cores. -/
def execHeldReportPost (s : State) : Host.Outcome State Fault Refusal :=
  let d := s.ev.a
  if 512 ≤ (s.die d).buf.length then .next s
  else match searchUp 64 (s.die d).lastHeld fun i => !(s.core (64 * d + i)).heldReports.isEmpty with
    | none => .next s
    | some i =>
      match (s.core (64 * d + i)).heldReports with
      | [] => .next s
      | r :: rest =>
        .next ((s.modCore (64 * d + i) fun x => { x with heldReports := rest }).modDie d fun x => { x with buf := x.buf ++ [r], lastHeld := i })

/-! ### Replies and notices (R44) -/

/-- The hart of a core that waits for the reply to a fault id. -/
def faultHart (s : State) (c id : Nat) : Option (Nat × Nat × Word) :=
  ((List.range 16).map (· + 16 * c)).findSome? fun h => match (s.hart h).wait with
    | .fault i lane va => if i = id then some (h, lane, va) else none
    | _ => none

/-- The copy of a core that is parked on a fault id. -/
def faultCopy (s : State) (c id : Nat) : Option (Nat × CopyReq) := (reqsOf s c).find? fun x => x.2.st == .parkFault && x.2.faultId == id

/-- A retry replays the access (R44): the hart executes its instruction again, the copy goes on at the parked piece, or at its
handle write. The replay is an acquire at scope 4 (R125); a reply to an id that nothing waits on does nothing. -/
def replyRetry (s : State) (c id : Nat) : State :=
  match faultHart s c id with
  | some (h, _, _) => (coreAcquire s c 4).modHart h fun x => { x with wait := .ready }
  | none =>
    match faultCopy s c id with
    | some (i, r) => modReq (coreAcquire s c 4) c i fun r' => { r' with st := if r.code ≠ 0 ∨ r.off = r.total then .ended else (s.core c).atWork }
    | none =>
      match faultRoll s c id with
      | some (i, r) => modBar (coreAcquire s c 4) c i fun b => { b with roll0 := some { r with fault := none } }
      | none => s

/-- A fatal reply: cause 24 on the hart (R45), FAULT for the copy (R46), a roll call without its record (R307). -/
def replyFatal (s : State) (c id detail : Nat) : State :=
  match faultHart s c id with
  | some (h, lane, va) => fatalFault s h va detail lane
  | none =>
    match faultCopy s c id with
    | some (i, r) => endReq s c i 2 0 r.off
    | none =>
      match faultRoll s c id with
      | some (i, r) => failRoll s c i r
      | none => s

/-- The report that a notice makes in the fault buffer (R41). -/
def noticeReport (m : Message) : Report :=
  { w0 := nth 0 m.words 0, w1 := word (coreOf m.sender * 2 ^ 16 + hartNo m.sender * 2 ^ 25), w2 := nth 0 m.words 1, w3 := nth 0 m.words 2, taint := m.taint }

/-- What a channel-63 message asks for: 0 retry, 1 fatal, 2 notice, 3 nothing; one without word 0 names no fault (log 23). -/
def replyKind (m : Message) : Nat :=
  match m.words with
  | [] => 3
  | w :: _ => if fld w 26 38 ≠ 0 then 3 else fld w 16 2

/-- A notice reaches core c: it enters the die's fault buffer behind those held before it, waits while the buffer is full (R49), or
is discarded at a core without a service hart. -/
def takeNotice (s : State) (c from_ : Nat) (e : SendEntry) : State :=
  let r := MsgRef.send from_ e.id
  let q := ((s.core c).chan 63).held
  if c % 64 ≠ 0 then sendDone s from_ e
  else if (q.isEmpty ∨ q.head? = some r) ∧ (s.die (dieOfCore c)).buf.length < 512 then
    sendDone ((unhold s c 63 r).modDie (dieOfCore c) fun x => { x with buf := x.buf ++ [noticeReport e.msg] }) from_ e
  else hold s c 63 r

/-- A channel-63 message of core `from_` reaches its destination and is consumed. -/
def consume63 (s : State) (from_ : Nat) (e : SendEntry) : State :=
  let c := mCore e.msg.hdr
  let w := nth 0 e.msg.words 0
  match replyKind e.msg with
  | 0 => sendDone (replyRetry s c (fld w 0 16)) from_ e
  | 1 => sendDone (replyFatal s c (fld w 0 16) (fld w 18 8)) from_ e
  | 2 => takeNotice s c from_ e
  | _ => sendDone s from_ e

/-- The entry `b` of the send buffer of core `a`, where no earlier one goes to the same channel (R274). -/
def arriving (s : State) : Option SendEntry :=
  let es := (s.core s.ev.a).sends
  match es[s.ev.b]? with
  | none => none
  | some e =>
    if (es.take s.ev.b).any fun x => mCore x.msg.hdr == mCore e.msg.hdr && mCh x.msg.hdr == mCh e.msg.hdr then none else some e

/-- The arrival of a channel-63 message of one kind. -/
def arrive63 (kind : Nat) (s : State) : State :=
  match arriving s with
  | some e => if mCh e.msg.hdr = 63 ∧ replyKind e.msg = kind then consume63 s s.ev.a e else s
  | none => s

/-- FAULT_REPLY_RETRY (R44): entry `b` of the send buffer of core `a`. -/
def execFaultReplyRetry (s : State) : Host.Outcome State Fault Refusal := .next (arrive63 0 s)

/-- FAULT_REPLY_FATAL (R44, R45, R46). -/
def execFaultReplyFatal (s : State) : Host.Outcome State Fault Refusal := .next (arrive63 1 s)

/-- NOTICE (R44). -/
def execNotice (s : State) : Host.Outcome State Fault Refusal := .next (arrive63 2 s)

/-- A message of core `from_` reaches its channel (R274, R278). -/
def deliverSend (s : State) (from_ : Nat) (e : SendEntry) : State :=
  let c := mCore e.msg.hdr
  match arrive s c (mCh e.msg.hdr) (.send from_ e.id) e.msg with
  | (s, .done) => sendDone s from_ e
  | (s, .held) => s

/-- MESSAGE_ARRIVAL (R274, R278): entry `b` of the send buffer of core `a` reaches its destination. -/
def execMessageArrival (s : State) : Host.Outcome State Fault Refusal :=
  .next (match arriving s with
    | none => s
    | some e => if mCh e.msg.hdr = 63 then consume63 s s.ev.a e else deliverSend s s.ev.a e)

/-- HELD_MESSAGE_REOFFER (R278): the message that channel `b` of core `a` has held off longest is offered again. -/
def execHeldMessageReoffer (s : State) : Host.Outcome State Fault Refusal :=
  let c := s.ev.a
  let ch := s.ev.b
  .next (match ((s.core c).chan ch).held with
    | [] => s
    | .send k id :: _ =>
      (match (s.core k).sends.find? fun e => e.id == id with
        | none => unhold s c ch (.send k id)
        | some e => if ch = 63 then takeNotice s c k e else deliverSend s k e)
    | .copy k i :: _ =>
      (match (s.core k).req i with
        | none => unhold s c ch (.copy k i)
        | some r => offerReq s k i r))

end Sys2Proof.Machine
end

