-- ==== Sys2Proof/Machine/Slab.lean ====
section
/-!
DEFINITION. Slab modes (R72 to R74), the entries of queue-mode slabs (R276, R281), and the registers of partitions and owners (R92,
R93, R102, R103).
-/
namespace Sys2Proof.Machine

/-- How a register write ends: a state, or the writer must wait, with what that changes. -/
inductive RegOut where
  | ok (s : State)
  | wait (f : State → State := id)

/-! ### What the slabs hold -/

/-- The mode of a slab: 0 cache, 1 scratch, 2 queue, 3 pool (R72). -/
def Cluster.mode (c : Cluster) (slab : Nat) : Nat := c.modes.get 0 slab

/-- The scratch units of a cluster that classes hold; unit i of slab s is 16 s + i (R75). -/
def scratchHeld (s : State) (k : Nat) : List Nat :=
  ((s.classes.filter fun (_, c) => c.live && clusterOf c.core == k).map fun (_, c) => c.scrUnits).flatten

/-- The free scratch units of a cluster outside closed slabs. -/
def scratchFree (s : State) (k : Nat) : List Nat :=
  let c := s.cluster k
  let held := scratchHeld s k
  (List.range 256).filter fun u => c.mode (u / 16) == 1 && !c.closed (u / 16) && !held.contains u

/-- The entries of a slab that are assigned to its cluster's channels and queues: an entry per channel entry and per 16 values (R276, R281). -/
def entriesIn (s : State) (k slab : Nat) : Nat :=
  ((clusterCores k).map fun c =>
    (((s.core c).chans.map fun x => x.2.ents.get 0 slab) ++ ((s.core c).queues.map fun x => x.2.ents.get 0 slab)).foldl (· + ·) 0).foldl (· + ·) 0

/-- The unassigned entries of a queue-mode slab, of its 2,048; none of a closed one (R74). -/
def slabRoom (s : State) (k slab : Nat) : Nat :=
  if (s.cluster k).mode slab = 2 ∧ !(s.cluster k).closed slab then 2048 - entriesIn s k slab else 0

/-- The unassigned entries of a cluster. -/
def entriesFree (s : State) (k : Nat) : Nat := ((List.range 16).map (slabRoom s k)).foldl (· + ·) 0

/-- Where n entries are taken: from the lowest-numbered slabs with room (log 25). -/
def allotEntries (s : State) (k n : Nat) : SMap Nat :=
  ((List.range 16).foldl (fun (x : SMap Nat × Nat) i =>
    let t := min x.2 (slabRoom s k i)
    (x.1.set 0 i t, x.2 - t)) ([], n)).1

/-! ### `kslab` -/

/-- `kslab` as it reads (R73). -/
def kslabRead (c : Cluster) : Word :=
  word (b2n c.slabGo * 2 ^ 63 + c.slabStatus * 2 ^ 59 + c.slabNew * 2 ^ 52 + c.slabNum * 2 ^ 48 +
    (List.range 16).foldl (fun n i => n + c.mode i * 4 ^ i) 0)

/-- An ABORT during close or drain ends the switch; during clearing it has no effect (R74). -/
def Cluster.abortSlab (c : Cluster) : Cluster :=
  if c.slabPhase = 1 then { c with slabPhase := 0, slabGo := false, slabStatus := 4 } else c

/-- A switch of the named slab starts, or ends at once (R73). -/
def Cluster.startSlab (c : Cluster) : Cluster :=
  if c.mode c.slabNum = c.slabNew then { c with slabStatus := 0 }
  else if c.mode c.slabNum = 0 ∧ popcount 16 (fun i => c.mode i == 0) ≤ 1 then { c with slabStatus := 3 }
  else { c with recalled := c.recalled.filter (· != c.slabNum), slabGo := true, slabStatus := 1, slabPhase := 1, swSlab := c.slabNum, swNew := c.slabNew }

/-- A write to `kslab` (R73): with GO while a switch goes on, the writer waits. A write with ABORT and GO both 1 ends the switch in progress
first and then starts the new one: R73 does not say, and the order is the model's choice (log 73). -/
def kslabWrite (s : State) (k : Nat) (v : Word) : RegOut :=
  let c := if bitOf v 62 then (s.cluster k).abortSlab else s.cluster k
  if bitOf v 63 && c.slabGo then .wait
  else
    let c := { c with slabNew := fld v 52 2, slabNum := fld v 48 4 }
    .ok (s.modCluster k fun _ => if bitOf v 63 then c.startSlab else c)

/-- A slab of a cluster has drained (R74). -/
def slabDrained (s : State) (k i : Nat) : Bool :=
  let c := s.cluster k
  match c.mode i with
  | 0 => (s.allKlines k).all fun y => y.zero || y.way != i
  | 1 => (scratchHeld s k).all fun u => u / 16 != i
  | 2 => entriesIn s k i == 0
  | _ => (List.range 64).all fun j => (c.slot (64 * i + j)).st == .free

/-- The recalled slabs of a cluster that have drained are in cache mode (R72). -/
def returnSlabs (s : State) (k : Nat) : State :=
  let back := (s.cluster k).recalled.filter (slabDrained s k)
  s.modCluster k fun c => { c with modes := c.modes.filter fun x => !back.contains x.1, recalled := c.recalled.filter fun i => !back.contains i }

/-- The lines in the way of a slab leave it, dirty ones through the gate (R74). -/
def drainWay (s : State) (k slab : Nat) : State :=
  if (s.cluster k).mode slab = 0 then kFlush (fun y => !y.zero && y.way == slab) s k else s

/-- SLAB_DRAIN_COMPLETE (R74): cluster `a`; the lines of a cache-mode slab leave in the step that ends the drain (log 2). Recalled slabs that have drained change mode
with it (R72). -/
def execSlabDrainComplete (s : State) : Host.Outcome State Fault Refusal :=
  let k := s.ev.a
  let s := returnSlabs (if (s.cluster k).slabPhase = 1 then drainWay s k (s.cluster k).swSlab else s) k
  .next (if (s.cluster k).slabPhase = 1 ∧ slabDrained s k (s.cluster k).swSlab then s.modCluster k fun c => { c with slabPhase := 2, slabStatus := 2 } else s)

/-- The next generation of a slot (R91). -/
def nextGen (g : Nat) : Nat := if g = 0xFFFF then 1 else g + 1

/-- SLAB_CLEAR_COMPLETE (R74): the slab of cluster `a` is in its new mode; entering pool mode, its slots have new generations. -/
def execSlabClearComplete (s : State) : Host.Outcome State Fault Refusal :=
  let k := s.ev.a
  .next (if (s.cluster k).slabPhase ≠ 2 then s
    else s.modCluster k fun c =>
      let c := { c with modes := c.modes.set 0 c.swSlab c.swNew, slabPhase := 0, slabGo := false, slabStatus := 0 }
      if c.swNew ≠ 3 then c
      else (List.range 64).foldl (fun c i => c.modSlot (64 * c.swSlab + i) fun t => { gen := nextGen t.gen }) c)

/-! ### `kpart` and `kpown` (R92, R93) -/

/-- `kpart` of the selected partition. -/
def kpartRead (s : State) (k p : Nat) : Word :=
  let x := (s.cluster k).part p
  word (b2n x.en * 2 ^ 63 + b2n x.err * 2 ^ 62 + x.cls * 2 ^ 60 + (freeUnits s k p).length % 2 ^ 16 * 2 ^ 32 + x.count * 2 ^ 16 + x.base)

/-- `kpown` of the selected owner entry. -/
def kpownRead (s : State) (k p o : Nat) : Word :=
  let e := ((s.cluster k).part p).owners.get {} o
  word (b2n e.v * 2 ^ 63 + e.max * 2 ^ 41 + e.min * 2 ^ 30 + (if e.v then inUse s k p e.launch else 0) * 2 ^ 19 + e.launch)

/-- The units that a partition's slots cover. -/
def Partition.covers (p : Partition) (u : Nat) : Bool := decide (p.base ≤ u) && decide (u < p.base + p.count * classUnits p.cls)

/-- The sum of MIN over the valid owner entries. -/
def minSum (os : SMap Owner) : Nat := (os.map fun (_, o) => if o.v then o.min else 0).foldl (· + ·) 0

/-- Every slot of a partition is FREE. -/
def partIdle (c : Cluster) (p : Partition) : Bool := p.slotUnits.all fun u => (c.slot u).st == .free

/-- A write that R93 refuses sets ERR and changes nothing else. -/
def refusePart (s : State) (k p : Nat) : State := s.modCluster k fun c => c.modPart p fun x => { x with err := true }

/-- A write to `kpart` by the current hart (R93). -/
def kpartWrite (s : State) (k p : Nat) (v : Word) : State :=
  let c := s.cluster k
  let x := c.part p
  let y : Partition := { x with en := bitOf v 63, cls := fld v 60 2, count := fld v 16 11, base := fld v 0 10, err := false }
  let u := classUnits y.cls
  let placed := (List.range (y.count * u)).all fun i => decide (y.base + i < 1024) && c.mode ((y.base + i) / 64) == 3
  let overlaps := c.parts.any fun (i, z) => i != p && z.en && decide (z.base < y.base + y.count * u) && decide (y.base < z.base + z.count * classUnits z.cls)
  let changed := x.en != y.en || x.cls != y.cls || x.count != y.count || x.base != y.base
  if y.cls = 3 ∨ y.count = 0 ∨ 1024 < y.count ∨ y.base % u ≠ 0 ∨ (y.en ∧ (!placed ∨ overlaps)) ∨ (changed ∧ !partIdle c x) ∨ y.count < minSum x.owners then
    refusePart s k p
  else
    let y := if y.en && !x.en then { y with fn := s.me.fn, eid := s.myCore.kencl.toNat } else y
    s.modCluster k fun c => c.modPart p fun _ => y

/-- The pinned entries of a cluster's matrix TLB that no owning launch names in its staging list any more become ordinary ones at the FIFO's tail (R32). -/
def unpinIn (s : State) (k : Nat) : State :=
  let kept := fun (e : PageEntry) => s.launches.any fun l => l.fn == e.fn && ownsIn s k l.id && l.stage.any fun va => e.covers l.fn va
  s.modCluster k fun c =>
    { c with tlbMat := c.tlbMat.filter (fun e => !(e.pinned && !kept e)) ++ (c.tlbMat.filter fun e => e.pinned && !kept e).map fun e => { e with pinned := false } }

/-- An entry that the matrix TLB holds for a staging page of an owning launch is pinned (R32). -/
def pinHeld (s : State) (k : Nat) (l : Launch) (va : Word) : State :=
  s.modCluster k fun c => { c with tlbMat := c.tlbMat.map fun e => if e.covers l.fn va && !e.pinned then staged s k e else e }

/-- Owner entries have changed: pins follow them. -/
def repin (s : State) (k id : Nat) : State :=
  let s := unpinIn s k
  match s.launch? id with
  | some l => if ownsIn s k id then l.stage.foldl (fun s va => pinHeld s k l va) s else s
  | none => s

/-- A write to `kpown` (R93). A write with V = 0 that names a LAUNCH which another valid entry names is accepted: it makes no owner, so the
seventh refusal of R93 is taken to speak of valid entries (log 73). -/
def kpownWrite (s : State) (k p o : Nat) (v : Word) : State :=
  let x := (s.cluster k).part p
  let old := x.owners.get {} o
  let e : Owner := { v := bitOf v 63, max := fld v 41 11, min := fld v 30 11, launch := fld v 0 16 }
  let os := x.owners.set {} o e
  let named := e.v && x.owners.any fun (i, z) => i != o && z.v && z.launch == e.launch
  let held := old.v && inUse s k p old.launch != 0 && (!e.v || e.launch != old.launch)
  if x.count < minSum os ∨ e.max < e.min ∨ held ∨ named then refusePart s k p
  else repin (s.modCluster k fun c => c.modPart p fun x => { x with owners := os, err := false }) k e.launch

/-- `kpoolev` (R103): the lowest pending partition of the die, whose bit the read clears. -/
def kpoolevRead (s : State) (d : Nat) : Word × State :=
  match (s.die d).poolEv with
  | [] => (0, s)
  | (k, _) :: r => (word (2 ^ 63 + k), s.modDie d fun x => { x with poolEv := r })

end Sys2Proof.Machine
end

