-- ==== Sys2Proof/Machine/Launch.lean ====
section
/-!
DEFINITION. Launches: the record and its checks (R158, R325), the KCB and its checks (R368 to R373), the `launch` instruction (R308),
the ends of harts, classes and launches (R101, R170, R275, R328).
-/
namespace Sys2Proof.Machine

/-! ### The timetable unit's accesses (R324, R328, R370; log 26) -/

/-- The timetable unit as the maker of an access: S mode with domain 255 and a domain image. -/
def ttWho (s : State) (fn : Nat) (kdom : BitVec 36) : Who :=
  { hart := serviceHart 0, core := 0, priv := .s, kdom := kdom, fn := fn, eid := (s.core 0).kencl.toNat }

/-- The first line of placed pieces whose tag fails, for a unit that reads it at its home: its address and key id. -/
def homeBroken (s : State) (ps : List Placed) : Option (Nat × Nat) :=
  ps.findSome? fun p => ((linesOf p.ref.pa p.seg.n).find? fun l => !tagOk s p.ref.key l).map fun l => (128 * l, p.ref.key)

/-- A page is in flight between biases: the accesses of the units outside the cores wait (R135; log 26). -/
def flipsOpen (s : State) : Bool := s.funcs.any fun x => x.2.kbiasGo

/-- One copy read of a unit outside the cores: none where a check fails, or the data are poison or fail their tag, which is recorded (R340). -/
def unitRead (s : State) (w : Who) (va : Word) (n : Nat) : State × Option (List Byte) :=
  match placeAll w .copy .rd false false (tileSegs va n) s with
  | (s, .error _) => (s, none)
  | (s, .ok ps) =>
    match homeBroken s ps with
    | some (pa, key) => (sealNote s w.fn w.eid w.core pa key, none)
    | none =>
      if ps.any fun p => poisonAt s p.ref.pa p.seg.n then (s, none)
      else (s, some (ps.map fun p => readMem s p.ref.key p.ref.pa p.seg.n).flatten)

/-- One copy write of such a unit: false where a check fails, or a sealed line that it writes in part fails its tag, which is recorded (R339, R340). -/
def unitWrite (s : State) (w : Who) (va : Word) (bs : List Byte) : State × Bool :=
  match placeAll w .copy .wr false false (tileSegs va bs.length) s with
  | (s, .error _) => (s, false)
  | (s, .ok _) =>
    match placeAll w .copy .wr false true (tileSegs va bs.length) s with
    | (s, .error _) => (s, false)
    | (s, .ok ps) =>
      let cs := (atOffset 0 bs).map fun (k, b) => (cellAt va ps k b).cell
      match cs.find? fun c => !tagOk s c.key (c.pa / 128) && !coverLine (cs.filter fun x => x.pa / 128 == c.pa / 128) with
      | some c => (sealNote s w.fn w.eid w.core c.pa c.key, false)
      | none => (breakResv (writeCells s cs w.taint) 8192 ((cs.map fun c => c.pa / 128).eraseDups), true)

def ttRead (s : State) (fn : Nat) (kdom : BitVec 36) (va : Word) (n : Nat) : State × Option (List Byte) := unitRead s (ttWho s fn kdom) va n
def ttWrite (s : State) (fn : Nat) (kdom : BitVec 36) (va : Word) (bs : List Byte) : State × Bool := unitWrite s (ttWho s fn kdom) va bs

/-- Every page of a range lets the unit fetch: X = 1 (R370 step 8). -/
def ttExec (s : State) (fn : Nat) (kdom : BitVec 36) (va : Word) (n : Nat) : Bool :=
  (tileSegs va n).all fun g => match (pageFor s (ttWho s fn kdom) .copy g.at_).2 with
    | .ok (e, _) => e.x
    | .error _ => false

/-! ### The launch record (R158, R325) -/

def recW (ws : List Word) (i : Nat) : Word := nth 0 ws i

/-- Width w_i of the work identifier. -/
def recWidth (ws : List Word) (i : Nat) : Nat := fld (recW ws 3) (7 * i) 7

/-- Extent E_i, i = 1 to 5. -/
def recExt (ws : List Word) (i : Nat) : Nat :=
  match i with
  | 1 => fld (recW ws 4) 0 4 + 1
  | 2 => fld (recW ws 4) 4 6 + 1
  | _ => (recW ws (i + 2)).toNat + 1

/-- The cohorts of a launch (R159). -/
def recCohorts (ws : List Word) : Nat := recExt ws 3 * recExt ws 4 * recExt ws 5

/-- A `kdom` image names domain 255. -/
def namesDom255 (w : Word) : Bool := (List.range 4).any fun k => bitOf w (32 + k) && fld w (8 * k) 8 == 255

/-- The checks of R325. -/
def recordOk (ws : List Word) : Bool :=
  fld (recW ws 0) 0 8 == 1 && fld (recW ws 0) 14 50 == 0 && fld (recW ws 3) 42 22 == 0 && fld (recW ws 4) 10 54 == 0 &&
  fld (recW ws 10) 36 28 == 0 && [12, 13, 14, 15].all (fun i => recW ws i == 0) &&
  recWidth ws 0 == 5 && decide (recWidth ws 1 ≤ 4) && decide (recWidth ws 2 ≤ 6) &&
  decide (((List.range 6).map (recWidth ws)).foldl (· + ·) 0 ≤ 64) && [1, 2, 3, 4, 5].all (fun i => decide (recExt ws i ≤ 2 ^ recWidth ws i)) &&
  fld (recW ws 8) 0 7 == 0 && !namesDom255 (recW ws 10)

/-- The words of bytes. -/
def wordsOf (bs : List Byte) : List Word := (List.range (bs.length / 8)).map fun i => leWord ((bs.drop (8 * i)).take 8)

/-! ### The KCB (R368 to R373) -/

def kcbN (k : List Byte) (off n : Nat) : Nat := leToNat ((k.drop off).take n)
def kcbFlag (k : List Byte) (i : Nat) : Bool := (kcbN k 7 1).testBit i
def kcbHcount (k : List Byte) : Nat := kcbN k 0x18 1
def kcbHmin (k : List Byte) : Nat := kcbN k 0x19 1
def kcbBarriers (k : List Byte) : Nat := kcbN k 0x1C 1
def kcbAcc (k : List Byte) : Nat := kcbN k 0x1E 1

/-- The 16 KiB units of the scratch demand (R75). -/
def kcbUnits (k : List Byte) : Nat := ceilDiv (kcbN k 0x20 4) 16384

/-- The first lines' offsets, sign-extended. -/
def kcbFirst (k : List Byte) : List Word := (List.range (kcbN k 0x1F 1)).map fun i => sext (word (kcbN k (0x40 + 4 * i) 4)) 32

/-- A pool demand: partition, size class, MIN, MAX. -/
structure PoolDemand where
  part : Nat := 0
  cls : Nat := 0
  min : Nat := 0
  max : Nat := 0
  deriving DecidableEq, Repr

/-- The pool demands with V = 1. -/
def kcbPools (k : List Byte) : List PoolDemand :=
  (List.range 4).filterMap fun i =>
    let w := word (kcbN k (0x60 + 8 * i) 8)
    if bitOf w 30 then some { part := fld w 0 6, cls := fld w 6 2, min := fld w 8 11, max := fld w 19 11 } else none

/-- Owner of b_i in the KCB's map. -/
def kcbOwner (k : List Byte) (i : Nat) : Nat := fld (word (kcbN k 0x28 8)) (4 * i) 4

/-- An address that the KCB names by an offset. -/
def kcbAddr (l : Launch) (off : Word) : Word := recW l.words 1 + off
def kcbOff (k : List Byte) (at_ : Nat) : Word := word (kcbN k at_ 8)

/-- The fields marked 0, MAGIC and VERSION (R370 step 2). -/
def kcbMarked (k : List Byte) : Bool :=
  kcbN k 0 4 == 0x3142434B && kcbN k 4 2 == 1 && kcbN k 7 1 / 32 == 0 && kcbN k 0x30 8 / 2 ^ 42 == 0 && kcbN k 0xA0 64 == 0 &&
  (List.range 4).all (fun i => kcbN k (0x60 + 8 * i) 8 / 2 ^ 31 == 0) &&
  (List.range 8).all (fun i => decide (i < kcbN k 0x1F 1) || kcbN k (0x40 + 4 * i) 4 == 0) &&
  (!kcbFlag k 4 || kcbN k 8 8 / 2 ^ 16 == 0)

/-- The ranges of R368 (R370 step 4). -/
def kcbRanges (k : List Byte) : Bool :=
  let n := fun at_ => kcbN k at_ 1
  decide (n 0x18 ≤ 63) && decide (n 0x19 ≤ 15) && decide (1 ≤ n 0x1A) && decide (n 0x1A ≤ 16) && decide (1 ≤ n 0x1B) && decide (n 0x1B ≤ 32) &&
  decide (n 0x1C ≤ 128) && decide (n 0x1D ≤ 16) && decide (n 0x1E ≤ 8) && decide (n 0x1F ≤ 8) && decide (kcbN k 0x20 4 ≤ 3932160) &&
  decide (kcbN k 0x24 4 ≤ 128) && decide (kcbN k 0x98 8 ≤ 2 ^ 20) && kcbN k 0x10 8 % 16 == 0 && (kcbFlag k 4 || kcbN k 8 8 % 2 == 0) &&
  (List.range 4).all (fun i => n (0x60 + 8 * i) / 64 != 3) && (kcbFirst k).all (fun o => fld o 0 7 == 0) &&
  (kcbN k 0x10 8 != 0 || n 0x18 == 0)

/-- The floor of R373. -/
def kcbFloor (k : List Byte) (e2 : Nat) : Bool :=
  let n := fun at_ => kcbN k at_ 1
  decide (n 0x1A ≤ 8) && decide (n 0x1B ≤ 16) && decide (kcbN k 0x20 4 ≤ 262144) && decide (n 0x1C ≤ 16) && decide (n 0x1D ≤ 8) &&
  (!kcbFlag k 3 || (List.range 16).all fun i => decide (kcbOwner k i ≤ 7)) && decide (n 0x1E ≤ 2) && decide (e2 ≤ 16) &&
  decide (((kcbPools k).map fun p => p.max * classBytes p.cls).foldl (· + ·) 0 ≤ 2 ^ 20)

/-- A handler-table entry, two words (R369). -/
structure HEntry where
  w0 : Word := 0
  w1 : Word := 0
  deriving DecidableEq, Repr

def HEntry.ch (e : HEntry) : Nat := fld e.w0 0 6
def HEntry.parbel (e : HEntry) : Bool := bitOf e.w0 27
def HEntry.place (e : HEntry) : Bool := bitOf e.w0 28
def HEntry.onDie (e : HEntry) (d : Nat) : Bool := bitOf e.w0 (29 + d)

/-- The handler entries of a launch. -/
def Launch.entries (l : Launch) : List HEntry := (List.range (l.htab.length / 2)).map fun i => { w0 := recW l.htab (2 * i), w1 := recW l.htab (2 * i + 1) }

/-- Step 6 of R370: channels, Parbel bodies, the fields of R369 marked 0 and the parity of a handler's offset. -/
def handlersOk (l : Launch) (bodies : Nat) : Bool :=
  let es := l.entries
  es.all (fun e => decide (e.ch ≤ 62) && fld e.w0 37 27 == 0 && decide (fld e.w0 14 5 ≤ 16) &&
    (if e.parbel then kcbOff l.kcb 0x88 != 0 && fld e.w1 16 48 == 0 && decide (fld e.w1 0 16 < bodies) else fld e.w1 0 1 == 0)) &&
  (es.map HEntry.ch).eraseDups.length == es.length

/-- A check of the timetable unit: go on only where it holds. -/
def demand (b : Bool) : Exec Unit := fun s => if b then .ok ((), s) else .error s

/-- A read of the timetable unit that must succeed. -/
def demandRead (fn : Nat) (kdom : BitVec 36) (va : Word) (n : Nat) : Exec (List Byte) := fun s =>
  if n = 0 then .ok ([], s)
  else match ttRead s fn kdom va n with
    | (s, some b) => .ok (b, s)
    | (s, none) => .error s

/-- The checks of R370, in order. Gives the launch with its KCB, handler table and staging list. -/
def kcbCheck (l : Launch) : Exec Launch := do
  let rdm := demandRead l.fn l.kdom
  let k ← rdm (recW l.words 1) 256
  demand (kcbMarked k)
  demand (kcbN k 6 1 == 0 || kcbN k 6 1 == 9)
  demand (kcbRanges k)
  if !kcbFlag k 4 then
    let _ ← rdm (kcbAddr l (kcbOff k 8)) 2
  let firsts := kcbFirst k
  let _ ← firsts.mapM fun o => rdm (kcbAddr l o) 128
  let htab ← rdm (kcbAddr l (kcbOff k 0x10)) (16 * kcbHcount k)
  let stage ← rdm (kcbAddr l (kcbOff k 0x38)) (8 * kcbN k 0x24 4)
  demand ((wordsOf stage).all fun w => fld w 0 16 == 0)
  if kcbOff k 0x80 ≠ 0 then
    let _ ← rdm (kcbAddr l (kcbOff k 0x80)) 2048
  let m ← if kcbOff k 0x88 ≠ 0 then rdm (kcbAddr l (kcbOff k 0x88)) 32 else pure []
  let bodies := kcbN m 6 2
  let _ ← rdm (kcbAddr l (kcbOff k 0x88 + word (kcbN m 8 8))) (16 * bodies)
  demand (kcbN k 0x30 8 == fld (recW l.words 3) 0 42)
  demand (decide (recExt l.words 1 ≤ kcbN k 0x1A 1))
  demand (!kcbFlag k 3 || (List.range 16).all fun i => decide (kcbOwner k i < recExt l.words 1))
  let l := { l with kcb := k, htab := wordsOf htab, stage := wordsOf stage }
  demand (handlersOk l bodies)
  demand (kcbN k 6 1 != 0 || kcbFloor k (recExt l.words 2))
  if kcbFlag k 2 then
    let at_ := kcbAddr l (kcbOff k 0x90)
    let n := kcbN k 0x98 8
    let bs ← rdm at_ n
    let x ← rd fun s => ttExec s l.fn l.kdom at_ n
    demand x
    demand (digestBytes (sm3 bs) == (k.drop 0xE0).take 32)
  pure l

/-- `kxtab` of the launch's harts (R371). -/
def kxtabOf (l : Launch) : Word :=
  if bitOf (recW l.words 11) 0 then recW l.words 11
  else if kcbOff l.kcb 0x80 ≠ 0 then word (fld (kcbAddr l (kcbOff l.kcb 0x80)) 11 44 * 2 ^ 11 + 1)
  else 0

/-- The whole slabs outside cache mode that one cluster needs for a launch (R326). -/
def slabsNeeded (k : List Byte) : Nat :=
  ceilDiv (kcbUnits k) 16 + ceilDiv (((kcbPools k).map fun p => p.min * classUnits p.cls).foldl (· + ·) 0) 64 + ceilDiv (32 * kcbHcount k) 2048

/-- No die could place the launch's cohorts (R326). -/
def unplaceable (l : Launch) : Bool :=
  decide (16 < recExt l.words 1 + kcbHmin l.kcb) || decide (64 < recExt l.words 2) || decide (15 < slabsNeeded l.kcb)

/-! ### Unbinding a hart -/

/-- What a hart has under way goes on without it: its sends and requests count on no flag, its requests do not count towards its
limit (R170, R287). -/
def orphanOps (s : State) (h : Nat) : State :=
  s.modCore (coreOf h) fun c =>
    { c with
      sends := c.sends.map fun e => if e.msg.sender = h then { e with flag := none } else e
      fifo := c.fifo.map fun (i, r) => (i, r.map fun r => if r.hart = h then { r with own := false, flags := [] } else r) }

/-- The hart is bound to nothing: its wait ends, writes held for it are discarded (R167), and it counts on no flag; the CSRs of S and M mode
stand. A firing's PC and registers are discarded (R170); those of a class hart stay until its next start (R176). -/
def Hart.unbind (x : Hart) : Hart :=
  let y : Hart :=
    { csr := (x.setXs 1).csr, k := { x.k with kclst := 0, kdom := 0, kxtab := 0, kwid := 0, kwidw := 0, kclass := 0, kwlim := 0, kargs := 0, kmhdr := 0
                                              kpreReq := false, kpreRes := false, kpreDone := false, kpreTok := 0 }
      fn := x.fn }
  match x.bind with
  | .firing _ => y
  | _ => { y with pc := x.pc, x := x.x, f := x.f, frm := x.frm, fflags := x.fflags, v := x.v, m := x.m, kms := x.kms, kmsd := x.kmsd, inbox := x.inbox
                  present := x.present, inFrom := x.inFrom, tfr := x.tfr, csr := x.csr }

def unbindHart (s : State) (h : Nat) : State := (orphanOps (dropHeld (abandon s h) h) h).modHart h Hart.unbind

/-- A firing ends (R170): reserved messages that it has not taken are consumed, all that it took are counted (R284), the hart
returns to the pool. -/
def endFiring (s : State) (h : Nat) (f : Firing) : State :=
  let c := coreOf h
  let rest := ((s.core c).chan f.ch).hw.filter fun q => q.resv == h + 1
  let s := s.modCore c fun k => k.modChan f.ch fun x => { x with hw := x.hw.filter fun q => q.resv != h + 1 }
  unbindHart ((f.taken ++ rest.map (·.msg)).foldl (fun s m => countTaken s c m) s) h

/-! ### The ends of classes and cohorts (R160, R328) -/

/-- The products that a core's matrix unit has accepted complete (R259). -/
def drainMx (c : Nat) : Nat → State → State
  | 0, s => s
  | n + 1, s =>
    match (s.core c).mx with
    | [] => s
    | o :: r =>
      let (acc, m, v) := product o ((s.core c).acc o.acc)
      let s := s.modCore c fun x => { x.setAcc o.acc acc with mx := r }
      drainMx c n (bump (bump (bump (bump s c 0 m) c 1 v) c 7 (o.ta.nanScales + o.tb.nanScales)) c 9 1)

/-- A class gives back what it holds: its harts, scratch, barriers, slots and accumulators (R322, R328). -/
def releaseClass (s : State) (key : Nat) : State :=
  let k := s.cls key
  let s := if k.acc.isSome then drainMx k.core (s.core k.core).mx.length s else s
  let s := k.harts.foldl unbindHart s
  let s := s.modCore k.core fun c =>
    { c with bars := c.bars.filter fun p => decide (k.nbar ≤ p.1), ops := if k.acc.isSome then [] else c.ops, accs := if k.acc.isSome then [] else c.accs }
  { s with classes := s.classes.erase key }

/-- The classes of a cohort that are bound. -/
def cohortClasses (s : State) (launch coh : Nat) : List (Nat × ClassRec) :=
  s.classes.filter fun (_, c) => c.live && c.launch == launch && c.cohort == coh

/-- The cohort has ended when its last class has. -/
def noteCohort (s : State) (launch coh : Nat) : State :=
  if (cohortClasses s launch coh).isEmpty then s.modLaunch launch fun l => { l with ended := l.ended + 1 } else s

/-- Every hart of a class has retired. -/
def allRetired (s : State) (k : ClassRec) : Bool := k.harts.all fun h => (s.hart h).retired

/-! ### Saved cohorts (R322) -/

/-- Every unretired hart of every class of a cohort has written DONE. -/
def cohortSaved (s : State) (launch coh : Nat) : Bool :=
  let cs := cohortClasses s launch coh
  let hs := (cs.map fun (_, k) => k.harts).flatten
  hs.any (fun h => !(s.hart h).retired) && hs.all fun h => (s.hart h).retired || (s.hart h).k.kpreDone

/-- What the timetable unit keeps of a cohort. -/
def savedOf (s : State) (launch coh : Nat) : SavedCohort :=
  let cs := cohortClasses s launch coh
  let each := fun (f : Nat → SavedCohort → Hart → SavedCohort) (v : SavedCohort) =>
    cs.foldl (fun v (_, k) => k.harts.zipIdx.foldl (fun v (h, i) => f (16 * k.cidx + i) v (s.hart h)) v) v
  let v := each (fun i v x => { v with tokens := v.tokens.set 0 i x.k.kpreTok, retired := v.retired.set false i x.retired }) { launch := launch, cohort := coh, classes := cs.map fun x => x.2.cidx }
  cs.foldl (fun v (_, k) => { v with last := v.last.set 0 k.cidx k.last, taints := v.taints.set 0 k.cidx k.taint, arrived := v.arrived.set [] k.cidx k.arrived }) v

/-- The cohort is unbound once it is saved (R322). -/
def saveCohort (s : State) (launch coh : Nat) : State :=
  if !cohortSaved s launch coh then s
  else
    let v := savedOf s launch coh
    let s := (cohortClasses s launch coh).foldl (fun s (key, _) => releaseClass s key) s
    { s with saved := s.saved ++ [v] }

/-- A class hart retires (R172); the class ends with its last hart; a hart that retires under a pre-emption request counts as done
(R320), so that the rest of its cohort may then be saved (R322). -/
def retireHart (s : State) (h key : Nat) : State :=
  let k := s.cls key
  let s := (orphanOps (dropHeld s h) h).modHart h fun x => { x with live := false, retired := true, wait := .ready, resv := none }
  saveCohort (if allRetired s k then noteCohort (releaseClass s key) k.launch k.cohort else s) k.launch k.cohort

/-- `hdone` (R170, R275): it ends a firing or retires a class hart; illegal inside a clause (R196). On a hart bound to nothing it
ends nothing. -/
def execHdone (s : State) : Host.Outcome State Fault Refusal :=
  outsideClause (fun s =>
    let s := s.modMe fun h => h.counted
    match s.me.bind with
    | .none => .next (s.modMe fun h => { h with pc := h.pc + word h.ilen, wait := .ready })
    | .firing f => .next (endFiring s s.cur f)
    | .cls k => .next (retireHart s s.cur k)) s

/-! ### Completion of a launch (R101, R328) -/

/-- A tile that a completing launch leaves: its handle, cluster, unit, the record's event. -/
structure Leftover where
  ref : TileRef := {}
  handle : Word := 0
  ev : Word := 0
  deriving DecidableEq, Repr

/-- The tiles of a launch, in order of handle (R101). -/
def leftovers (s : State) (id : Nat) : List Leftover :=
  let all := (s.clusters.map fun (k, c) => (c.slots.filter fun x => x.2.st != .free && x.2.owner == id).filterMap fun (u, t) =>
    (c.parts.find? fun x => x.2.en && x.2.slotUnits.contains u).map fun x =>
      let h := mkHandle t.gen k x.1 u
      let (code, n) := match t.st with
        | .sealed => (1, t.c)
        | .opened => (2, t.n)
        | _ => (3, 0)
      { ref := { clus := k, part := x.1, unit := u }, handle := h, ev := word (fld h 0 48 + n % 256 * 2 ^ 48 + code * 2 ^ 56) : Leftover }).flatten
  all.mergeSort fun a b => decide (a.handle.toNat ≤ b.handle.toNat)

/-- Reclamation: the tiles become FREE, the owner entries of the launch are cleared (R101). -/
def reclaim (s : State) (id : Nat) : State :=
  let s := (leftovers s id).foldl (fun s x => freeTile s x.ref) s
  { s with clusters := s.clusters.map fun (k, c) =>
      (k, { c with parts := c.parts.map fun (i, p) => (i, { p with owners := p.owners.filter fun o => !(o.2.v && o.2.launch == id) }) }) }

/-- A channel loses its launch: firings stop, its messages are discarded, a depth that the binder set returns to 0 (R328, R369). -/
def Channel.clear (x : Channel) : Channel :=
  { x with en := false, launch := 0, hw := [], rcnt := 0, head := 0, tail := 0, ringMeta := [], depth := if x.byBinder then 0 else x.depth, byBinder := false
           ents := if x.byBinder then [] else x.ents }

/-- The matrix TLB entries that no owning launch still names in its staging list become ordinary ones at the tail (R32). -/
def unpin (s : State) : State := (s.clusters.map (·.1)).foldl unpinIn s

/-- The completion record (R328). -/
def completionBytes (s : State) (id status code : Nat) (evs : List Word) : List Byte :=
  wordBytes ([word (status + code * 2 ^ 8 + 2 ^ 63), word id, word evs.length, word s.time] ++ (List.range 8).map (fun i => nth 0 evs i) ++ [0, 0, 0, 0])

/-- The handler-table PC of an entry (R369). -/
def entryPc (l : Launch) (e : HEntry) : Word := if e.parbel then Config.bindingStub l.fn else kcbAddr l e.w1

/-- The binder writes a handler entry and gives its channel a queue (R369); the entry waits while another launch has the channel. -/
def installEntry (s : State) (l : Launch) (c : Nat) (e : HEntry) : State :=
  s.modCore c fun k => k.modChan e.ch fun x =>
    if x.launch ≠ 0 ∧ x.launch ≠ l.id then x
    else
      { x with
        pc := setFld (entryPc l e) 0 1 0, en := true, prio := fld e.w0 19 3, k := fld e.w0 6 4, conc := fld e.w0 10 4, maxp := fld e.w0 14 5, pinen := bitOf e.w0 22
        pin := fld e.w0 23 4, eprio := fld e.w0 19 3, passes := 0, launch := l.id, kdom := l.kdom, kxtab := l.kxtab
        ents := if x.depth = 0 then allotEntries s (clusterOf c) 32 else x.ents, depth := if x.depth = 0 then 32 else x.depth, byBinder := x.byBinder || x.depth == 0 }

/-- The cores on which a launch's entry stands (R369): those on which its classes were first bound, since a resumed cohort's entries are kept
from before (R327), or every core of the dies in DIEMASK. -/
def entryCores (s : State) (l : Launch) (e : HEntry) : List Nat :=
  if e.place then (if l.next = 0 then [] else (List.range 512).filter fun c => e.onDie (dieOfCore c))
  else l.hcores

/-- Entries that have waited for a channel take it (R369), none of a killed launch (R329). -/
def installWaiting (s : State) : State :=
  (s.launches.filter fun l => l.killed.isNone).foldl (fun s l => l.entries.foldl (fun s e => (entryCores s l e).foldl (fun s c =>
    if ((s.core c).chan e.ch).launch = 0 ∧ (((s.core c).chan e.ch).depth ≠ 0 ∨ 32 ≤ entriesFree s (clusterOf c)) then installEntry s l c e else s) s) s) s

/-- A launch completes with a status (R328). Its record is a release at scope 5 (R129), for which the dirty peer-window lines of its function go first. A killed one keeps its status 0x04 whatever its tiles, strict reads or not: R101 and R329 do not
say which stands, and the kill is the model's choice (log 73). -/
def finishLaunch (s : State) (id status : Nat) : State :=
  match s.launch? id with
  | none => s
  | some l =>
    let evs := (leftovers s id).map (·.ev)
    let strict := kcbFlag l.kcb 0 && evs.any fun w => fld w 56 2 != 3
    let status := if status = 0 ∧ strict then 1 else status
    let s := { reclaim s id with withdrawn := s.withdrawn.filter fun r => r.launch != id }
    let s := (s.hall.filter fun x => x.2.owned && x.2.owner == id).foldl (fun s x => disarm s x.1) s
    let s : State := { s with cores := s.cores.map fun (c, k) => (c, { k with chans := k.chans.map fun (i, x) => (i, if x.launch = id then x.clear else x) }) }
    let s := (s.clusters.map (·.1)).foldl (peerBack fun y => y.fn == l.fn || y.fn == 16) s
    let (s, ok) := ttWrite s l.fn l.kdom (recW l.words 8) (completionBytes s id status (l.killed.getD 0) evs)
    let s := match l.queue, ok with
      | some q, false => s.modQueue q fun x => { x with cerr := true }
      | _, _ => s
    let s := { s with launches := s.launches.filter fun l => l.id != id }
    let s := if (s.func l.fn).ktkillGo ∧ (s.func l.fn).killing = id then s.modFunc l.fn fun f => { f with ktkillGo := false } else s
    installWaiting (unpin s)

/-- Some operation issued for a launch has not completed, a firing of it runs (R101), or a reservation is open on a tile of it (R253). -/
def launchBusy (s : State) (id : Nat) : Bool :=
  (s.clusters.any fun (_, c) => c.slots.any fun (_, t) => t.st != .free && t.owner == id && t.res != 0) ||
  s.cores.any (fun (_, c) => c.sends.any (fun e => e.msg.launch == id) || c.fifo.any fun x => match x.2 with
    | some r => r.launch == id
    | none => false) ||
  s.harts.any fun (_, x) => match x.bind with
    | .firing f => f.launch == id
    | _ => false

/-- LAUNCH_COMPLETION (R328): launch `a`, once its last cohort has ended and its operations have completed. -/
def execLaunchCompletion (s : State) : Host.Outcome State Fault Refusal :=
  let id := s.ev.a
  .next (match s.launch? id with
    | none => s
    | some l =>
      let ended := (cohortClassesOf s id).isEmpty && (l.killed.isSome || (l.selected && decide (recCohorts l.words ≤ l.ended)))
      if ended && !launchBusy s id && !flipsOpen s then finishLaunch s id (if l.killed.isSome then 4 else 0) else s)
where
  cohortClassesOf (s : State) (id : Nat) : List (Nat × ClassRec) := s.classes.filter fun (_, c) => c.live && c.launch == id

/-! ### The `launch` instruction (R308) -/

/-- A launch id that no launch bears: the first after the one given last (log 20). -/
def newId (s : State) : Nat :=
  let next := fun i => if i ≥ 0xFFFF then 1 else i + 1
  (List.range (s.launches.length + 1)).foldl (fun i _ => if s.launches.any fun l => l.id == i then next i else i) (if s.launchSeq ≥ 0x10000 then 1 else s.launchSeq)

/-- A new launch of a function with its record, or without (a ring entry as it is read). -/
def addLaunch (s : State) (fn : Nat) (ws : List Word) (q : Option Nat) : State × Nat :=
  let id := newId s
  let l : Launch := { id := id, fn := fn, words := ws, queue := q, kdom := (recW ws 10).extractLsb' 0 36, kxtab := recW ws 11 }
  ({ s with launches := s.launches ++ [l], launchSeq := id + 1 }, id)

/-- A function's launches are taken: start-up is over (R410) and its interface is in RUN (R349). -/
def acceptsLaunch (s : State) (fn : Nat) : Bool := s.mgmt.s2 && (s.func fn).tdisp == .run

/-- A record that a hart submits: behind the ring entries of its queue, or malformed where it may enter none (R308). -/
def submitRecord (s : State) (fn : Nat) (ws : List Word) : State × Nat :=
  let q := fld (recW ws 0) 8 6
  let x := s.queue q
  if x.en ∧ x.fn = fn then
    let (s, id) := addLaunch s fn ws (some q)
    (s.modQueue q fun x => { x with subs := x.subs ++ [(id, x.tail)] }, id)
  else
    let (s, id) := addLaunch s fn ws none
    (finishLaunch s id 2, id)

/-- `launch` (R308): 0 where the intake of 256 is full, or the function's launches are ignored (R349, R362, R410). -/
def execLaunch (d a : BitVec 5) (s : State) : Host.Outcome State Fault Refusal :=
  finish (do
    let va := s.me.getX a.toNat
    need (fld va 0 7 == 0)
    if 256 ≤ (s.launches.filter fun l => !l.selected).length || !acceptsLaunch s s.me.fn then
      onMe fun h => h.setX d.toNat 0
      retireX
    else
      let w ← whoX
      let ps ← placeMine w .copy .rd 5 (tileSegs va 128)
      let s ← rd id
      match tagBroken s w ps with
      | some (g, pa, key) => fun s => .error (sealFail s s.cur pa key g.va)
      | none =>
        orTrap (!poisonIn s w ps) 48 va
        let ws := wordsOf (seenPieces s w ps)
        let x := s.queue (fld (recW ws 0) 8 6)
        if !(x.en && x.fn == s.me.fn) && flipsOpen s then stallWith .stall
        let r := submitRecord (bringIn s w ps) s.me.fn ws
        upd fun _ => r.1
        onMe fun h => h.setX d.toNat (word r.2)
        retireX) s

end Sys2Proof.Machine
end

