-- ==== Sys2Proof/Machine/Bind.lean ====
section
/-!
DEFINITION. Selection of launches and binding of cohorts by the timetable unit (R326, R327, R369 to R371), with the starts of R172
and R323.
-/
namespace Sys2Proof.Machine

/-! ### Selection (R326) -/

/-- The launches that are active: selected, some cohort not yet bound. -/
def activeLaunches (s : State) : List Launch :=
  s.launches.filter fun l => l.selected && l.killed.isNone && decide (l.next < recCohorts l.words)

/-- A queue's pending ring entries begin at HEAD. -/
def LaunchQ.ringHolds (q : LaunchQ) : Bool := q.lsize != 0 && q.head != q.tail % 2 ^ q.lsize

/-- The submission at the front of a queue is its oldest launch: the ring entries that it stands behind are taken. -/
def LaunchQ.subFirst (q : LaunchQ) : Bool :=
  match q.subs with
  | [] => false
  | (_, t) :: _ => !q.ringHolds || q.head == t % 2 ^ q.lsize

/-- A queue takes part in selection: enabled, not held by RERR, of a function in RUN, with a launch. -/
def eligible (s : State) (q : Nat) : Bool :=
  let x := s.queue q
  x.en && !x.rerr && acceptsLaunch s x.fn && (x.ringHolds || !x.subs.isEmpty)

/-- The queue that is selected next, with its priority. -/
def selectQueue (s : State) : Option (Nat × Nat) :=
  let qs := (List.range 64).filter (eligible s)
  match (qs.map fun q => (s.queue q).prio).max? with
  | none => none
  | some p => (searchUp 64 (s.lastQ.get 63 p) fun q => qs.contains q && (s.queue q).prio == p).map fun q => (p, q)

/-- The oldest launch of a queue, taken from it; none where its ring entry could not be read (R324). -/
def takeOldest (s : State) (q : Nat) : State × Option Nat :=
  let x := s.queue q
  if x.subFirst then (s.modQueue q fun x => { x with subs := x.subs.drop 1 }, (x.subs.head?).map (·.1))
  else
    match ttRead s x.fn 0 (sext (setFld x.base 0 7 0) 55 + word (128 * x.head)) 128 with
    | (s, none) => (s.modQueue q fun x => { x with rerr := true }, none)
    | (s, some bs) =>
      let (s, id) := addLaunch s x.fn (wordsOf bs) (some q)
      (s.modQueue q fun x => { x with head := (x.head + 1) % 2 ^ x.lsize }, some id)

/-- A launch that is taken from a queue is checked (R325, R370, R326), and becomes active with priority `p`, or completes. -/
def checkLaunch (s : State) (id p : Nat) : State :=
  match s.launch? id with
  | none => s
  | some l =>
    if !recordOk l.words then finishLaunch s id 2
    else match kcbCheck l s with
      | .error s => finishLaunch s id 5
      | .ok (l, s) =>
        let l := { l with selected := true, prio := p, order := s.orderSeq, kxtab := kxtabOf l }
        let s := { s.modLaunch id fun _ => l with orderSeq := s.orderSeq + 1 }
        if unplaceable l then finishLaunch s id 3 else s

/-- LAUNCH_SELECTION (R326). -/
def execLaunchSelection (s : State) : Host.Outcome State Fault Refusal :=
  .next (if 16 ≤ (activeLaunches s).length ∨ flipsOpen s then s
    else match selectQueue s with
      | none => s
      | some (p, q) =>
        match takeOldest { s with lastQ := s.lastQ.set 63 p q } q with
        | (s, none) => s
        | (s, some id) => checkLaunch s id p)

/-! ### Where a class can lie (R327) -/

/-- The harts of a core. -/
def coreHarts (c : Nat) : List Nat := (List.range 16).map (· + 16 * c)

/-- The launches resident on a core: a class or a handler entry of theirs is there (R169; log 27). -/
def residents (s : State) (c : Nat) : List Launch :=
  s.launches.filter fun l => (s.classes.any fun (_, k) => k.live && k.core == c && k.launch == l.id) || (s.core c).chans.any fun x => x.2.launch == l.id

/-- The largest handler-hart minimum of a core with a new launch counted. -/
def hminAt (s : State) (c : Nat) (l : Launch) : Nat := ((residents s c).map fun r => kcbHmin r.kcb).foldl max (kcbHmin l.kcb)

/-- The harts of a core that no class has; the fault service hart never counts. -/
def unbound (s : State) (c : Nat) : Nat :=
  ((coreHarts c).filter fun h => !isService h && (match (s.hart h).bind with
    | .cls _ => false
    | _ => true)).length

/-- The owner entry that a pool demand needs in a cluster: one that the launch has, or a free one; none where it cannot have one. -/
def ownerSlot (s : State) (k : Nat) (l : Launch) (d : PoolDemand) : Option (Option Nat) :=
  let p := (s.cluster k).part d.part
  if !p.en || p.cls != d.cls || p.fn != l.fn then none
  else if (ownerOf p l.id).isSome then some none
  else match firstBelow 8 fun i => !(p.owners.get {} i).v with
    | some i => if minSum p.owners + d.min ≤ p.count then some (some i) else none
    | none => none

/-- The owner entries of a launch in a cluster, filled from its pool demands (R93); none where one cannot be had. -/
def fillOwners (k : Nat) (l : Launch) : List PoolDemand → State → Option State
  | [], s => some s
  | d :: ds, s =>
    match ownerSlot s k l d with
    | none => none
    | some none => fillOwners k l ds s
    | some (some i) =>
      fillOwners k l ds (s.modCluster k fun c => c.modPart d.part fun p =>
        { p with owners := p.owners.set {} i { v := true, max := d.max, min := d.min, launch := l.id } })

/-- The queue entries that a core's handler entries need: 32 for each on a channel of DEPTH 0 (R369). -/
def depthNeed (s : State) (c : Nat) (es : List HEntry) : Nat := 32 * (es.filter fun e => ((s.core c).chan e.ch).depth == 0).length

/-- The handler entries of a core installed, where the cluster supplies their queue entries. -/
def fillHandlers (s : State) (l : Launch) (c : Nat) (es : List HEntry) : Option State :=
  if depthNeed s c es ≤ entriesFree s (clusterOf c) then some (es.foldl (fun s e => installEntry s l c e) s) else none

/-- The demands of a class on a core other than owners and queue entries (R327). -/
def coreFits (s : State) (l : Launch) (c : Nat) : Bool :=
  let k := l.kcb
  let e1 := recExt l.words 1
  let others := s.classes.filter fun (_, x) => x.live && x.core == c
  decide (e1 ≤ ((coreHarts c).filter (poolFree s)).length) && decide (e1 + hminAt s c l ≤ unbound s c) &&
  decide (kcbUnits k ≤ (scratchFree s (clusterOf c)).length) && (kcbBarriers k == 0 || others.all fun (_, x) => x.nbar == 0) &&
  (kcbAcc k == 0 || others.all fun (_, x) => x.acc.isNone)

/-! ### The harts of a class (R159, R161, R172) -/

/-- A rectangle of cores on a die. -/
structure Rect where
  die : Nat := 0
  row : Nat := 0
  col : Nat := 0
  rows : Nat := 1
  cols : Nat := 1
  deriving DecidableEq, Repr

/-- The core of class c in a rectangle (R160). -/
def Rect.core (r : Rect) (c : Nat) : Nat := r.die * 64 + (r.row + c / r.cols) * 8 + (r.col + c % r.cols)

/-- The work identifier of hart i of class c of a cohort (R159). -/
def workId (l : Launch) (coh c i : Nat) : Nat :=
  let w := recWidth l.words
  let e3 := recExt l.words 3
  let e4 := recExt l.words 4
  let i1 := 2 ^ w 0
  let i2 := i1 * 2 ^ w 1
  let i3 := i2 * 2 ^ w 2
  let i4 := i3 * 2 ^ w 3
  i * i1 + c * i2 + coh % e3 * i3 + coh / e3 % e4 * i4 + coh / (e3 * e4) * (i4 * 2 ^ w 4)

/-- The lanes inside the extent (R159). -/
def lanesInside (l : Launch) (wid : Nat) : BitVec 32 :=
  let lim := (recW l.words 2).toNat
  if lim = 0 then 0xFFFFFFFF else BitVec.ofNat 32 (maskOf 32 fun i => decide (wid + i < lim))

/-- `kwidw` of a launch's harts. -/
def kwidwOf (l : Launch) : Word :=
  word (fld (recW l.words 3) 0 42 + (recExt l.words 1 - 1) * 2 ^ 42 + (recExt l.words 2 - 1) * 2 ^ 46)

/-- `kclass` of hart i of class c. -/
def kclassOf (l : Launch) (r : Rect) (c i : Nat) : Word :=
  word (r.row * 2 ^ 57 + r.col * 2 ^ 54 + (r.rows - 1) * 2 ^ 51 + (r.cols - 1) * 2 ^ 48 + l.id * 2 ^ 32 + (recExt l.words 2 - 1) * 2 ^ 14 +
    c * 2 ^ 8 + (recExt l.words 1 - 1) * 2 ^ 4 + i)

/-- Where a class's harts begin (R368). -/
def entryOfKcb (l : Launch) : Word := if kcbFlag l.kcb 4 then Config.bindingStub l.fn else kcbAddr l (kcbOff l.kcb 8)

/-- A hart as hart i of class c (R172, R176). -/
def Hart.startClass (x : Hart) (l : Launch) (key : Nat) (r : Rect) (coh c i : Nat) : Hart :=
  let wid := workId l coh c i
  let y := x.start (entryOfKcb l) l.fn (.cls key) (lanesInside l wid) l.kdom l.kxtab
  { y with k := { y.k with kwid := word wid, kwidw := kwidwOf l, kclass := kclassOf l r c i, kwlim := recW l.words 2, kargs := recW l.words 9 } }

/-- A hart of a resumed cohort starts (R323): in S mode at the entry of interrupt 16, RES set, S-mode interrupts disabled (log 24). -/
def Hart.resumeStart (x : Hart) : Hart :=
  { x with live := true, priv := .s, pc := vecTarget x.csr.stvec true 16, k := { x.k with kpreRes := true }
           csr := { x.csr with mstatus := setFld x.csr.mstatus 1 1 0 } }

/-- A hart as hart i of a resumed class: retired as it was, the restoring hart started, the others not yet (R323). -/
def Hart.resumeClass (x : Hart) (v : SavedCohort) (c i : Nat) : Hart :=
  let j := 16 * c + i
  let x := { x with live := false, k := { x.k with kpreTok := v.tokens.get 0 j } }
  if v.retired.get false j then { x with retired := true }
  else if v.last.get 0 c = i then x.resumeStart
  else x

/-! ### What binding pushes and pins (R32, R33, R59, R327) -/

/-- The pages that a KCB names (R59): of the entry, the first lines, the handlers, the digest range, the tables and the staging list. -/
def kcbPages (l : Launch) : List Nat :=
  let k := l.kcb
  let at_ := fun o => (kcbAddr l (kcbOff k o)).toNat
  let dig := (List.range (kcbN k 0x98 8 / 65536 + 2)).map fun i => (at_ 0x90 + min (65536 * i) (kcbN k 0x98 8)) / 65536
  (([at_ 8, at_ 0x10, at_ 0x38, at_ 0x80, at_ 0x88] ++ ((kcbFirst k).map fun o => (kcbAddr l o).toNat) ++
    (l.entries.map fun e => (entryPc l e).toNat) ++ l.stage.map (·.toNat)).map (· / 65536)) ++ dig

/-- The dispatch push of one first line into a core's instruction cache and the instruction TLB, whose new entry it protects (R33);
a line that a fetch could not have is left out (R347), one whose tag fails is recorded (R340). -/
def pushFirst (s : State) (c h : Nat) (l : Launch) (o : Word) : State :=
  let va := kcbAddr l o
  let w : Who := { hart := h, core := c, priv := .u, kdom := l.kdom, fn := l.fn, eid := (s.core c).kencl.toNat }
  let had := (s.cluster (clusterOf c)).tlbIns.any fun e => e.covers l.fn va
  match translate s w .fetch .ex false false va 128 with
  | (s, .error _) => s
  | (s, .ok r) =>
    let s := if had then s else s.modCluster (clusterOf c) fun k =>
      { k with tlbIns := k.tlbIns.map fun e => if e.covers l.fn va then { e with prot := s.clock + 10000 } else e }
    match icLine s w va r with
    | (s, some _) => s
    | (s, none) => sealNote s w.fn w.eid c r.pa r.key

/-- A staging page enters the matrix TLB of a cluster, or is pinned there (R32). -/
def stagePage (s : State) (k : Nat) (l : Launch) (va : Word) : State :=
  if (s.cluster k).tlbMat.any fun e => e.covers l.fn va then
    pinHeld s k l va
  else match unitWalk s k l.fn va with
    | (s, .error _) => s
    | (s, .ok (e, at_, _)) => tlbLoad (setPteBit s at_ 8) k 1 e

/-- The instruction cache of a core loses the lines of a launch's pages (R59). -/
def dropPages (s : State) (c : Nat) (l : Launch) : State :=
  s.modCore c fun x => { x with icache := x.icache.filter fun y => !(y.fn == l.fn && (kcbPages l).contains (y.vline / 512)) }

/-! ### Binding (R327) -/

/-- The record of a class as it is bound. -/
def newClass (s : State) (l : Launch) (core coh c : Nat) (harts : List Nat) (v : Option SavedCohort) : ClassRec :=
  let k := l.kcb
  let e1 := recExt l.words 1
  { live := true, core := core, launch := l.id, fn := l.fn, cohort := coh, cidx := c, e1 := e1, harts := harts
    bbown := if kcbFlag k 3 then kcbOff k 0x28 else word ((List.range 16).foldl (fun n i => n + i % e1 * 16 ^ i) 0)
    scrUnits := (scratchFree s (clusterOf core)).take (kcbUnits k), scrSize := 16384 * kcbUnits k
    nbar := kcbBarriers k, acc := if kcbAcc k = 0 then none else some (kcbAcc k), eid := (s.core core).kencl.toNat
    taint := regionMask s l.fn l.kdom .u ||| (match v with
      | some v => v.taints.get 0 c
      | none => 0)
    resumed := v.isSome, arrived := match v with
      | some v => v.arrived.get [] c
      | none => [] }

/-- Class c of a cohort bound on its core of a rectangle: none where the core does not have what it demands. R160 lets the binder take any free
harts of the core; that it takes the lowest-numbered ones is the model's choice (log 73). -/
def bindClass (l : Launch) (r : Rect) (coh : Nat) (v : Option SavedCohort) (c : Nat) (s : State) : Option State :=
  let core := r.core c
  let k := clusterOf core
  if !coreFits s l core then none
  else match fillOwners k l (kcbPools l.kcb) s with
    | none => none
    | some s =>
      match (if v.isSome then some s else fillHandlers s l core (l.entries.filter fun e => !e.place)) with
      | none => none
      | some s =>
        let s := if v.isSome ∨ (l.entries.all fun e => e.place) then s
          else s.modLaunch l.id fun x => { x with hcores := if x.hcores.contains core then x.hcores else x.hcores ++ [core] }
        let hs := ((coreHarts core).filter (poolFree s)).take (recExt l.words 1)
        let key := s.classSeq
        let x := newClass s l core coh c hs v
        let s := { s with classes := s.classes.set {} key x, classSeq := key + 1 }
        let s := if x.acc.isSome then s.modCore core fun y => { y with accs := [], ops := [] } else s
        let s := dropPages s core l
        let s := (kcbFirst l.kcb).foldl (fun s o => pushFirst s core (nth 0 hs 0) l o) s
        let s := if (kcbPools l.kcb).isEmpty then s else l.stage.foldl (fun s va => stagePage s k l va) s
        let s := hs.zipIdx.foldl (fun s (h, i) => s.modHart h fun y =>
          let y := y.startClass l key r coh c i
          match v with
          | some v => y.resumeClass v c i
          | none => y) s
        some (l1Clear s core)

/-- The classes of a cohort bound one after the other. -/
def bindClasses (l : Launch) (r : Rect) (coh : Nat) (v : Option SavedCohort) : List Nat → State → Option State
  | [], s => some s
  | c :: cs, s => (bindClass l r coh v c s).bind (bindClasses l r coh v cs)

/-- The PLACE = 1 entries of a launch on every core they name, with its first cohort (R369). -/
def fillPlaced (l : Launch) : List Nat → State → Option State
  | [], s => some s
  | c :: cs, s => (fillHandlers s l c (l.entries.filter fun e => e.place && e.onDie (dieOfCore c))).bind (fillPlaced l cs)

/-- The rectangles of a die array that hold n cores, in the binder's order of preference (R327). -/
def rects (n : Nat) : List Rect :=
  let shapes := ((List.range 8).map fun r => (List.range 8).map fun c => (r + 1, c + 1)).flatten.filter fun (r, c) => decide (n ≤ r * c)
  let shapes := shapes.mergeSort fun a b => decide (a.1 * a.2 * 16 + a.1 ≤ b.1 * b.2 * 16 + b.1)
  (shapes.map fun (r, c) => ((List.range 8).map fun d => ((List.range (9 - r)).map fun row => (List.range (9 - c)).map fun col =>
    ({ die := d, row := row, col := col, rows := r, cols := c } : Rect)).flatten).flatten).flatten

/-- The next unbound cohort of a launch, saved ones among them, in ascending outer index. -/
def nextCohort (s : State) (l : Launch) : Option (Nat × Option SavedCohort) :=
  let vs := s.saved.filter fun v => v.launch == l.id
  match (vs.map (·.cohort)).min? with
  | some n => (vs.find? fun v => v.cohort == n).map fun v => (n, some v)
  | none => if l.next < recCohorts l.words then some (l.next, none) else none

/-- A cohort of a launch placed (R327): none where no rectangle can have it. -/
def placeCohort (s : State) (l : Launch) : Option State :=
  match nextCohort s l with
  | none => none
  | some (coh, v) =>
    let cs := match v with
      | some v => v.classes
      | none => List.range (recExt l.words 2)
    let try_ := fun r =>
      ((if coh = 0 ∧ v.isNone then fillPlaced l (List.range 512) s else some s).bind (bindClasses l r coh v cs)).map fun s =>
        match v with
        | some v => { s with saved := s.saved.erase v }
        | none => s.modLaunch l.id fun l => { l with next := l.next + 1 }
    (rects (recExt l.words 2)).findSome? try_

/-- The launches that the binder considers, in its order (R326). -/
def bindOrder (s : State) : List Launch :=
  (s.launches.filter fun l => l.selected && l.killed.isNone).mergeSort fun a b => decide (b.prio < a.prio) || (a.prio == b.prio && decide (a.order ≤ b.order))

/-- COHORT_BINDING (R327): one clock of the binder; what it pushes waits for a flip (R135; log 26). -/
def execCohortBinding (s : State) : Host.Outcome State Fault Refusal :=
  .next (if flipsOpen s then s else ((bindOrder s).findSome? (placeCohort s)).getD s)

end Sys2Proof.Machine
end

