-- ==== Sys2Proof/Machine/Save.lean ====
section
/-!
DEFINITION. The window onto a sibling hart (R316 to R318), pre-emption (R319, R320, R322, R323), the class save area (R321), the
end of a launch by `ktkill` (R329).
-/
namespace Sys2Proof.Machine

/-! ### `ksibctl` and `ksibdata` -/

/-- The sibling that a hart's `ksibsel` names: none where STATE reads 00 (R316). -/
def sibling (s : State) (h : Nat) : Option Nat :=
  match (s.hart h).bind with
  | .cls key =>
    let k := s.cls key
    let i := ((s.hart h).k.ksibsel.toNat) % 16
    if i < k.harts.length ∧ nth h k.harts i ≠ h then some (nth h k.harts i) else none
  | _ => none

/-- STATE of a sibling: 1 running, 2 halted, 3 retired. -/
def sibState (x : Hart) : Nat := if x.retired then 3 else if x.halted then 2 else 1

/-- `ksibctl` as it reads. -/
def ksibctlRead (s : State) (h : Nat) : Word :=
  match sibling s h with
  | none => 0
  | some t => word (sibState (s.hart t) * 2 ^ 62 + b2n (s.hart t).haltReq * 2 ^ 61)

/-- A write of `ksibctl`: HALT requests a halt of a running sibling, RESUME lets a halted one run. -/
def ksibctlWrite (s : State) (h : Nat) (v : Word) : State :=
  match sibling s h with
  | none => s
  | some t =>
    match sibState (s.hart t) with
    | 1 => if bitOf v 0 then s.modHart t fun x => { x with haltReq := true } else s
    | 2 => if bitOf v 1 then s.modHart t fun x => { x with halted := false } else s
    | _ => s

/-- Item `i` of a hart (R317). -/
def sibItem (x : Hart) (i : Nat) : Word :=
  if 1 ≤ i ∧ i < 0x20 then x.getX i
  else if 0x20 ≤ i ∧ i < 0x40 then x.getF (i - 0x20)
  else if i = 0x40 then x.pc
  else if i = 0x41 then word (x.frm.toNat * 32 + x.fflags.toNat)
  else if i = 0x42 then word x.k.kclst.toNat
  else if i = 0x43 then word x.kmsd
  else if 0x50 ≤ i ∧ i < 0x60 then word (x.kms.get 0 (i - 0x50)).toNat
  else if 0x60 ≤ i ∧ i < 0x68 then word (x.getM (i - 0x60)).toNat
  else if 0x80 ≤ i ∧ i < 0x88 then x.inbox.get 0 (i - 0x80)
  else if i = 0x88 then word x.present.toNat
  else if 0x400 ≤ i ∧ i < 0x800 then word (x.getV ((i - 0x400) / 32) ((i - 0x400) % 32)).toNat
  else 0

/-- The items of a hart's lane state, whose write XS shows (R180). -/
def laneItem (i : Nat) : Bool := i = 0x42 || i = 0x43 || (0x50 ≤ i && i < 0x68) || (0x80 ≤ i && i ≤ 0x88) || 0x400 ≤ i

/-- A hart with item `i` other than the flags written. -/
def setSibItem (x : Hart) (i : Nat) (v : Word) : Hart :=
  let x := if laneItem i then x.dirtyXs else x
  let e : BitVec 32 := v.extractLsb' 0 32
  if 1 ≤ i ∧ i < 0x20 then x.setX i v
  else if 0x20 ≤ i ∧ i < 0x40 then x.setF (i - 0x20) v
  else if i = 0x40 then { x with pc := setFld v 0 1 0 }
  else if i = 0x41 then { x with frm := v.extractLsb' 5 3 }
  else if i = 0x42 then { x with k := { x.k with kclst := kclstWarl v } }
  else if i = 0x43 then (if fld v 0 5 ≤ 16 then { x with kmsd := fld v 0 5 } else x)
  else if 0x50 ≤ i ∧ i < 0x60 then { x with kms := x.kms.set 0 (i - 0x50) e }
  else if 0x60 ≤ i ∧ i < 0x68 then x.setM (i - 0x60) e
  else if 0x80 ≤ i ∧ i < 0x88 then { x with inbox := x.inbox.set 0 (i - 0x80) v }
  else if i = 0x88 then { x with present := v.extractLsb' 0 8 }
  else if 0x400 ≤ i ∧ i < 0x800 then x.setV ((i - 0x400) / 32) ((i - 0x400) % 32) e
  else x

/-- The sibling that a hart's window reaches: a halted one. -/
def haltedSibling (s : State) (h : Nat) : Option Nat := (sibling s h).filter fun t => sibState (s.hart t) == 2

/-- INDEX of `ksibsel`. -/
def sibIndex (x : Hart) : Nat := x.k.ksibsel.toNat / 2 ^ 16

def ksibdataRead (s : State) (h : Nat) : Word :=
  match haltedSibling s h with
  | none => 0
  | some t => sibItem (s.hart t) (sibIndex (s.hart h))

def ksibdataWrite (s : State) (h : Nat) (v : Word) : State :=
  match haltedSibling s h with
  | none => s
  | some t =>
    let i := sibIndex (s.hart h)
    let s := s.modHart t fun x => setSibItem x i v
    if i = 0x41 then setFflags s t (v.extractLsb' 0 5) else s

/-! ### `kpre` and the request (R319, R320, R322) -/

/-- `kpre` as it reads: zero in a firing. -/
def kpreRead (s : State) (h : Nat) : Word :=
  let k := (s.hart h).k
  if isFiring s h then 0 else word (b2n k.kpreReq * 2 ^ 63 + b2n k.kpreRes * 2 ^ 62 + k.kpreTok.toNat)

/-- A write of `kpre`: TOKEN; RES cleared by 1; DONE under a request ends the hart's part, and with the last the cohort is
unbound. The hart leaves the starvation detector's set H (R103) at its DONE: R322 names the leaving only after the unbinding, and leaving at once
is the model's choice (log 73). -/
def kpreWrite (s : State) (h : Nat) (v : Word) : State :=
  if isFiring s h then s
  else
    let s := s.modHart h fun x => { x with k := { x.k with kpreTok := v.extractLsb' 0 48, kpreRes := x.k.kpreRes && !bitOf v 62 } }
    match (s.hart h).bind with
    | .cls key =>
      if bitOf v 61 && (s.hart h).k.kpreReq then
        let s := s.modHart h fun x => { x with live := false, k := { x.k with kpreDone := true } }
        let s := s.modCls key fun c => { c with last := hidxOf (s.hart h) }
        saveCohort s (s.cls key).launch (s.cls key).cohort
      else s
    | _ => s

/-- PREEMPTION_REQUEST (R320, R371): cohort `b` of launch `a`, where its kernel lets it be pre-empted. -/
def execPreemptionRequest (s : State) : Host.Outcome State Fault Refusal :=
  .next (match s.launch? s.ev.a with
    | none => s
    | some l =>
      if !kcbFlag l.kcb 1 || l.killed.isSome then s
      else
        let hs := ((cohortClasses s l.id s.ev.b).map fun (_, k) => k.harts).flatten.filter fun h => !(s.hart h).retired
        hs.foldl (fun s h => s.modHart h fun x => { x with k := { x.k with kpreReq := true } }) s)

/-! ### The class save area (R321) -/

/-- The places, in a slot's bytes, of what a slot record keeps: the payload's lines packed, the scales, the metadata (log 28). -/
def slotPlaces (h : Hdr) : List Nat :=
  if isEx8 (hEfmt h) then List.range (hRows h * ex8Row h + 2 * scaleEntries h)
  else
    let pl := if hOrder h = 2 then roundUp (packedLine h) 128 else packedLine h
    (if hSparse h = 2 then List.range (payloadSize h)
      else ((List.range (lineCount h)).map fun i => (List.range pl).map fun k => i * lineStride h + k).flatten) ++
    (if hasScales h then (List.range (scaleSize h)).map fun k => 16 * hSoff h + k else []) ++
    (if hSparse h = 0 then [] else (List.range (metaSize h)).map fun k => 16 * hMoff h + k)

/-- A record: header, zeros to byte 127, the content, zeros to its length. -/
def recordOf (h : Hdr) (body : List Byte) (len : Nat) : List Byte :=
  (natToLe 16 h.toNat ++ List.replicate 112 0 ++ body ++ List.replicate len 0).take len

/-- The record of an operand slot; all zero for an empty one. -/
def slotRecord (t : TileVal) : List Byte :=
  if t.loaded then recordOf t.hdr ((slotPlaces t.hdr).map t.at_) 73728 else List.replicate 73728 0

/-- The slot that a record holds: none where its header's CRC fails. -/
def slotOfRecord (bs : List Byte) : Option TileVal :=
  let h := hdrOf (bs.take 16)
  if h = 0 then some {}
  else if !crcOk h then none
  else some { loaded := true, hdr := h, bytes := ((slotPlaces h).zip (bs.drop 128)).foldl (fun m (i, b) => m.set 0 i b) [] }

/-- The record of an accumulator. -/
def accRecord (a : AccVal) : List Byte :=
  if hEfmt a.hdr = 1 then
    recordOf a.hdr (((List.range 128).map fun i => (List.range 64).map fun j => natToLe 8 (a.elems.get 0 (128 * i + j)).toNat).flatten.flatten) 65664
  else
    recordOf a.hdr (((List.range 128).map fun i => (List.range 128).map fun j => natToLe 4 (a.elems.get 0 (128 * i + j)).toNat).flatten.flatten) 65664

/-- The accumulator that a record holds. -/
def accOfRecord (bs : List Byte) : Option AccVal :=
  let h := hdrOf (bs.take 16)
  let body := bs.drop 128
  let cell := fun (w n i j : Nat) => leWord ((body.drop (w * (n * i + j))).take w)
  if !crcOk h then none
  else if hEfmt h = 1 then
    some { hdr := h, elems := ((List.range 128).map fun i => (List.range 64).filterMap fun j =>
      let v := cell 8 64 i j
      if v = 0 then none else some (128 * i + j, v)).flatten }
  else
    some { hdr := h, elems := ((List.range 128).map fun i => (List.range 128).filterMap fun j =>
      let v := cell 4 128 i j
      if v = 0 then none else some (128 * i + j, v)).flatten }

/-- A barrier as a save finds it: the phase of a decided stage barrier counts as released (log 24). -/
def savedBar (b : Barrier) : Barrier :=
  match b.cfg with
  | some g => if bStage g && b.swept then b.release else b
  | none => b

/-- The released arrivals of a class that are still pending, as pairs of barrier and hart-in-class; a record shows them with the parity of the
next phase (log 24). -/
def arrivedOf (s : State) (k : ClassRec) : List (Nat × Nat) :=
  ((List.range k.nbar).map fun id => ((List.range k.harts.length).filter fun i =>
    (savedBar ((s.core k.core).bar id)).released (nth 0 k.harts i)).map fun i => (id, i)).flatten

/-- A barrier record (R321). -/
def barRecord (k : ClassRec) (id : Nat) (b : Barrier) : List Byte :=
  let b := savedBar b
  match b.cfg with
  | none => wordBytes [word (id * 2 ^ 18), 0, 0, 0]
  | some g =>
    let mask := fun (p : Nat → Bool) => maskOf 16 fun i => decide (i < k.harts.length) && p (nth 0 k.harts i)
    wordBytes [word (g.toNat + id * 2 ^ 18 + b2n b.broken * 2 ^ 25 + b.phase % 2 * 2 ^ 26 + 2 ^ 27)
             , word (b.arr0 + b.arr1 * 2 ^ 5 + mask (fun h => (b.pending h).isSome) * 2 ^ 10 +
                 mask (fun h => (b.pending h).any fun p => p % 2 == 1) * 2 ^ 26)
             , word (b.ann.get 0 b.phase), word b.delivered]

/-- The barrier `id` that a record holds, for a class on its core. An arrival with the other parity is of the next phase, unless the save found
it released, or no arrival of the next phase is in. -/
def barOfRecord (k : ClassRec) (id : Nat) (bs : List Byte) : Barrier :=
  let w := fun i => leWord ((bs.drop (8 * i)).take 8)
  if !bitOf (w 0) 27 then {}
  else
    let par := fld (w 0) 26 1
    let phase := 2 + par
    let arr1 := fld (w 1) 5 5
    let pend := (List.range 16).foldl (fun (m : SMap Nat) i =>
      if i < k.harts.length ∧ bitOf (w 1) (10 + i) then
        let p := if fld (w 1) (26 + i) 1 = par then phase else if arr1 = 0 ∨ k.arrived.contains (id, i) then phase - 1 else phase + 1
        m.set 0 (hartNo (nth 0 k.harts i)) (p + 1)
      else m) []
    { cfg := some ((w 0).extractLsb' 0 18), broken := bitOf (w 0) 25, phase := phase, arr0 := fld (w 1) 0 5, arr1 := arr1, pend := pend
      ann := SMap.set 0 [] phase (w 2).toNat, delivered := (w 3).toNat }

/-- Where a class's scratch begins in its save area, and the area's length. -/
def scratchAt (k : ClassRec) : Nat :=
  match k.acc with
  | none => 0x1080
  | some a => 0x91080 + a * 0x10080

def areaLen (k : ClassRec) : Nat := scratchAt k + k.scrSize

/-- The class save area. -/
def areaBytes (s : State) (k : ClassRec) : List Byte :=
  let c := s.core k.core
  wordBytes ((List.range 16).map fun i => k.bb.get 0 i) ++
  ((List.range 128).map fun i => if i < k.nbar then barRecord k i (c.bar i) else List.replicate 32 0).flatten ++
  (match k.acc with
    | none => []
    | some a => ((List.range 8).map fun i => slotRecord (c.op i)).flatten ++ ((List.range a).map fun i => accRecord (c.acc i)).flatten) ++
  k.scratch 0 k.scrSize

/-- The class state that an area holds put into the class and its core: none where a header's CRC fails. -/
def loadArea (s : State) (key : Nat) (bs : List Byte) : Option State :=
  let k := s.cls key
  let ops := (List.range 8).map fun i => slotOfRecord ((bs.drop (0x1080 + 73728 * i)).take 73728)
  let accs := (List.range (k.acc.getD 0)).map fun i => accOfRecord ((bs.drop (0x91080 + 65664 * i)).take 65664)
  if k.acc.isSome && (ops.any (·.isNone) || accs.any (·.isNone)) then none
  else
    let k' := { k with
      bb := (List.range 16).foldl (fun (m : SMap Word) i => m.set 0 i (leWord ((bs.drop (8 * i)).take 8))) []
      scr := bytesMap ((bs.drop (scratchAt k)).take k.scrSize), scrPsn := [] }
    let s := s.modCls key fun _ => k'
    some (s.modCore k.core fun c =>
      let c := (List.range k.nbar).foldl (fun c i => c.modBar i fun _ => barOfRecord k i ((bs.drop (0x80 + 32 * i)).take 32)) c
      if k.acc.isNone then c
      else
        let c := ops.zipIdx.foldl (fun c (t, i) => c.setOp i (t.getD {})) c
        accs.zipIdx.foldl (fun c (t, i) => c.setAcc i (t.getD { hdr := unusedAccHdr })) c)

/-- The copy engine's accesses for a hart: its privilege and domain set. -/
def copyWho (s : State) (h : Nat) : Who := { whoOf s h false with core := coreOf h }

/-- Every other unretired hart of a class has written DONE. -/
def othersDone (s : State) (k : ClassRec) (h : Nat) : Bool :=
  k.harts.all fun t => t == h || (s.hart t).retired || (s.hart t).k.kpreDone

/-- The harts of a resumed class that have not started do so (R323). -/
def startRest (s : State) (key h : Nat) : State :=
  let k := s.cls key
  if k.restored then s
  else (k.harts.filter fun t => t != h && !(s.hart t).retired).foldl (fun s t => s.modHart t Hart.resumeStart)
    (s.modCls key fun c => { c with restored := true })

/-- The pieces of a save area from `kcsarea`.BASE on. -/
def areaSegs (s : State) (h : Nat) (k : ClassRec) : Word × List Seg :=
  let va := sext (setFld (s.hart h).k.kcsarea 0 7 0) 55
  (va, tileSegs va (areaLen k))

/-- A save: the state and STATUS. -/
def saveArea (s : State) (h key : Nat) : State × Nat :=
  let s := drainMx (coreOf h) (s.core (coreOf h)).mx.length s
  let k := s.cls key
  let w := copyWho s h
  let (va, gs) := areaSegs s h k
  match placeAll w .copy .wr false false gs s with
  | (s, .error _) => (s, 2)
  | (s, .ok _) =>
    if k.scrPsn.any (·.2) then (s, 2)
    else match placeAll w .copy .wr false true gs s with
      | (s, .error _) => (s, 2)
      | (s, .ok ps) =>
        let cs := (atOffset 0 (areaBytes s k)).map fun (o, b) => cellAt va ps o b
        (storeCells (s.modCls key fun x => { x with arrived := arrivedOf s k }) { w with engine := true } cs, 0)

/-- A restore: the state and STATUS. -/
def restoreArea (s : State) (h key : Nat) : State × Nat :=
  let w := copyWho s h
  let (_, gs) := areaSegs s h (s.cls key)
  match placeAll w .copy .rd false false gs s with
  | (s, .error _) => (s, 2)
  | (s, .ok ps) =>
    if poisonIn s w ps then (s, 2)
    else match tagBroken s w ps with
      | some (_, pa, key) => (sealNote s w.fn w.eid w.core pa key, 2)
      | none =>
        match loadArea (bringIn s w ps) key (seenPieces s w ps) with
        | none => (s, 2)
        | some s => (s, 0)

/-- `kcsave` as written by hart h (R321): the whole operation falls in the step of the write (log 2). -/
def kcsaveWrite (s : State) (h : Nat) (v : Word) : State :=
  let fin := fun (s : State) (st : Nat) => s.modHart h fun x => { x with k := { x.k with kcsave := setFld (setFld 0 62 1 (fld v 62 1)) 59 3 st } }
  if !bitOf v 63 then s.modHart h fun x => { x with k := { x.k with kcsave := setFld x.k.kcsave 62 1 (fld v 62 1) } }
  else match (s.hart h).bind with
    | .cls key =>
      let k := s.cls key
      if bitOf v 62 then
        if !k.resumed then fin s 3
        else
          let r := restoreArea s h key
          fin (startRest r.1 key h) r.2
      else if !othersDone s k h then fin s 3
      else
        let r := saveArea s h key
        fin r.1 r.2
    | _ => fin s 3

/-! ### `ktkill` (R329) -/

/-- A request is discarded: its source is let go, its place in a partition's order falls. A new tile stays as it is: of a killed launch it is
reclaimed (R101), of a function that is reset it goes with the function's slots (R91, R362). -/
def discardReq (s : State) (c i : Nat) (r : CopyReq) : State :=
  let s := dropSource s r false
  let s := s.modCluster (clusterOf c) fun k => k.modPart r.part fun p => { p with waiters := p.waiters.filter (· != .copy c i) }
  dropReq s c i

/-- A request has not come to its end. -/
def CopyReq.under (r : CopyReq) : Bool := r.st == .queued || r.st == .working || r.st == .parkFault || r.st == .parkAlloc || r.st == .parkWm || r.st == .resume

/-- The requests of a launch that have not come to their ends are discarded without completion signals. -/
def discardReqs (s : State) (p : CopyReq → Bool) : State :=
  s.cores.foldl (fun (s : State) (x : Nat × Core) => (reqsOf s x.1).foldl (fun s y => if p y.2 then discardReq s x.1 y.1 y.2 else s) s) s

/-- The harts that run firings of a launch. -/
def firingHarts (s : State) (p : Firing → Bool) : List Nat :=
  (s.harts.filter fun (_, x) => match x.bind with
    | .firing f => p f
    | _ => false).map (·.1)

/-- A firing is cut off: the messages that it has reserved are discarded. -/
def cutFiring (s : State) (h : Nat) : State :=
  match (s.hart h).bind with
  | .firing f => unbindHart (s.modCore (coreOf h) fun k => k.modChan f.ch fun x => { x with hw := x.hw.filter fun q => q.resv != h + 1 }) h
  | _ => s

/-- A launch is killed with a code: its harts halt without saving, its requests and saved cohorts go; LAUNCH_COMPLETION follows when
its operations have completed. -/
def killLaunch (s : State) (id code : Nat) : State :=
  let s := s.modLaunch id fun l => { l with killed := some code }
  let s := { s with queues := s.queues.map fun (q, x) => (q, { x with subs := x.subs.filter fun y => y.1 != id }) }
  let s := (firingHarts s fun f => f.launch == id).foldl cutFiring s
  let s := (s.classes.filter fun (_, c) => c.live && c.launch == id).foldl (fun s (key, _) => releaseClass s key) s
  let s := discardReqs s fun r => r.launch == id && r.under
  { s with saved := s.saved.filter (fun v => v.launch != id), withdrawn := s.withdrawn.filter fun r => r.launch != id }

/-- The launch has channels whose firings would go on; a killed launch's stop (R329 step 2). -/
def stopChannels (s : State) (id : Nat) : State :=
  { s with cores := s.cores.map fun (c, k) => (c, { k with chans := k.chans.map fun (i, x) => (i, if x.launch = id then { x with en := false } else x) }) }

/-- `ktkill` as it reads. -/
def ktkillRead (f : Func) : Word := setFld f.ktkill 63 1 (b2n f.ktkillGo)

/-- A write of function fn's `ktkill`: with GO while a kill goes on, the writer waits (log 29). -/
def ktkillWrite (s : State) (fn : Nat) (v : Word) : RegOut :=
  if bitOf v 63 && (s.func fn).ktkillGo then .wait
  else
    let s := s.modFunc fn fun f => { f with ktkill := v &&& 0xFFFFFF }
    let id := fld v 0 16
    if !bitOf v 63 then .ok s
    else match s.launch? id with
      | none => .ok s
      | some l => .ok (if l.fn ≠ fn ∨ l.killed.isSome then s
          else killLaunch (stopChannels (s.modFunc fn fun f => { f with ktkillGo := true, killing := id }) id) id (fld v 16 8))

end Sys2Proof.Machine
end

