-- ==== Sys2Proof/Machine/Space.lean ====
section
/-!
DEFINITION. The registers of a function's address space: root and invalidation (R19, R35 to R39), the bias of its pages (R133 to
R135); the events of walkers, gates, flushes and memory errors (R34, R68, R69, R335, R338).
-/
namespace Sys2Proof.Machine

/-! ### What a function's tables map -/

/-- The indices of the entries of a table that memory lists. -/
def tableIdx (s : State) (t : Nat) : List Nat :=
  ((s.mem.filter fun x => decide (t ≤ x.1) && decide (x.1 < t + 65536)).map fun x => (x.1 - t) / 8).eraseDups

/-- A leaf of a function's tables: the virtual page number of its first 64 KiB, the PTE, whether it maps 512 MiB. -/
structure Leaf where
  vpn : Nat := 0
  pte : Word := 0
  huge : Bool := false
  deriving DecidableEq, Repr

/-- The leaves below a table, `n` levels to go. -/
def leavesFrom (s : State) : Nat → Nat → Nat → List Leaf
  | 0, _, _ => []
  | n + 1, t, v =>
    ((tableIdx s t).map fun i =>
      let pte := rawWord s (t + 8 * i)
      let vpn := v + i * 8192 ^ n
      if !bitOf pte 0 then []
      else if bitOf pte 1 then (if n = 2 ∨ (n = 1 ∧ fld pte 20 13 ≠ 0) then [] else [{ vpn := vpn, pte := pte, huge := n == 1 }])
      else leavesFrom s n (fld pte 20 36 * 2 ^ 16) vpn).flatten

/-- The leaves of a function's tables. -/
def leavesOf (s : State) (fn : Nat) : List Leaf := leavesFrom s 3 (fld (s.func fn).kroot 16 36 * 2 ^ 16) 0

/-- A leaf maps the 64 KiB frame f. -/
def Leaf.maps (x : Leaf) (f : Nat) : Bool := if x.huge then fld x.pte 33 23 == f / 8192 else fld x.pte 20 36 == f

/-- The virtual page under which a leaf maps frame f. -/
def Leaf.pageOf (x : Leaf) (f : Nat) : Nat := if x.huge then x.vpn + f % 8192 else x.vpn

/-- The leaves that map a frame, with their functions. -/
def mappers (s : State) (f : Nat) : List (Nat × Leaf) :=
  ((List.range 16).map fun fn => ((leavesOf s fn).filter fun x => x.maps f).map fun x => (fn, x)).flatten

/-! ### `kroot` and `ktinv` -/

/-- A write of `kroot` (R19); the walkers' caches are cleared (R34). -/
def krootWrite (s : State) (fn : Nat) (v : Word) : State :=
  { s.modFunc fn fun f => { f with kroot := word (fld v 16 36 * 2 ^ 16) } with walkers := [] }

/-- The writable fields of `ktinv`. -/
def ktinvMask : Word := 0x707FFFFFFFFF0000

def ktinvRead (f : Func) : Word := setFld f.ktinv 63 1 (b2n f.ktinvGo)

/-- A write of `ktinv` (R37): with GO while an invalidation goes on, the writer waits. -/
def ktinvWrite (s : State) (fn : Nat) (v : Word) : RegOut :=
  if bitOf v 63 && (s.func fn).ktinvGo then .wait
  else .ok (s.modFunc fn fun f => { f with ktinv := v &&& ktinvMask, ktinvGo := f.ktinvGo || bitOf v 63, ktinvRun := if bitOf v 63 then v &&& ktinvMask else f.ktinvRun })

/-- An entry covers a page that `ktinv` names. -/
def tinvEntry (v : Word) (fn : Nat) (e : PageEntry) : Bool :=
  e.fn == fn && (bitOf v 61 || (if bitOf v 60 then e.vpn / 8192 == fld v 29 26 else e.covers fn v))

/-- A line, by function and virtual line, lies in a page that `ktinv` names. -/
def tinvLine (v : Word) (fn g vline : Nat) : Bool :=
  g == fn && (bitOf v 61 || (if bitOf v 60 then vline / 2 ^ 22 % 2 ^ 26 == fld v 29 26 else vline / 512 % 2 ^ 39 == fld v 16 39))

/-- The entries that a predicate names leave every PLB and TLB. -/
def dropEntries (s : State) (p : PageEntry → Bool) : State :=
  let keep := fun (l : List PageEntry) => l.filter fun e => !p e
  { s with
    cores := s.cores.map fun (c, x) => (c, { x with plb := keep x.plb })
    clusters := s.clusters.map fun (k, x) => (k, { x with tlbLane := keep x.tlbLane, tlbMat := keep x.tlbMat, tlbCopy := keep x.tlbCopy, tlbIns := keep x.tlbIns }) }

/-- The lines that a predicate names leave every L1 and instruction cache. -/
def dropLines (s : State) (p : CLine → Bool) : State :=
  { s with cores := s.cores.map fun (c, x) => (c, { x with l1 := x.l1.filter (fun y => !p y), icache := x.icache.filter fun y => !p y }) }

/-- Lines leave the caches of the device: those of the clusters and the L2 with their dirty data written back. -/
def flushLines (s : State) (p : CLine → Bool) (q : KLine → Bool) (r : L2Line → Bool) : State := dropLines (l2Flush (kFlushAll s q) r) p

/-- The invalidation that a `ktinv` value names, carried out: with FLUSH the cached data first, then the entries (R38, R39); the walkers' caches are
cleared (R34). -/
def invalidate (s : State) (fn : Nat) (v : Word) : State :=
  let s := if bitOf v 62 then flushLines s (fun y => tinvLine v fn y.fn y.vline) (fun y => tinvLine v fn y.fn y.vline) (fun y => tinvLine v fn y.fn y.vline) else s
  { dropEntries s (tinvEntry v fn) with walkers := [] }

/-- A contribution under way whose address was translated for a function under an entry that `ktinv` names (R38). -/
def tinvContrib (v : Word) (fn : Nat) (x : Contrib) : Bool :=
  x.fn == fn && x.parts.any fun p => tinvLine v fn fn p.vline

/-- INVALIDATION_COMPLETE (R38): function `a`. The pages leave every PLB and TLB; GO clears once the reduce contributions under way that passed a
check there have been performed. Every other access is performed in the step that checks it. -/
def execInvalidationComplete (s : State) : Host.Outcome State Fault Refusal :=
  let fn := s.ev.a
  let f := s.func fn
  .next (if f.ktinvGo then
      let t := invalidate s fn f.ktinvRun
      if t.dies.any fun d => (d.2.transit ++ d.2.comb.map (·.sum)).any (tinvContrib f.ktinvRun fn) then t
      else t.modFunc fn fun f => { f with ktinvGo := false }
    else s)

/-- PAGE_WALK (R29, R34): a walker of die `a` walks for function `b` and page `w`, and the entry enters TLB `nums`[1] of the die's cluster
`nums`[0]. -/
def execPageWalk (s : State) : Host.Outcome State Fault Refusal :=
  let k := s.ev.a * 16 + nth 0 s.ev.nums 0 % 16
  .next (if canonical s.ev.w then (tlbEntry s k (nth 0 s.ev.nums 1 % 4) s.ev.b s.ev.w).1 else s)

/-! ### Bias (R133 to R135) -/

/-- A page is in device bias. -/
def deviceBias (s : State) (page : Nat) : Bool := s.devBias.get 0 page != 0

/-- `kbias` as it reads. -/
def kbiasRead (s : State) (fn : Nat) : Word :=
  let f := s.func fn
  setFld (setFld f.kbias 63 1 (b2n f.kbiasGo)) 0 1 (b2n (!deviceBias s (fld f.kbias 16 36)))

/-- A page is an HBM page of a function: its tables map it. -/
def ownsPage (s : State) (fn page : Nat) : Bool := paKind (page * 65536) == .hbm && (leavesOf s fn).any fun x => x.maps page

/-- The writers of GO that wait for a function's flip: a hart only while it stalls there. -/
def flipWaiters (s : State) (fn : Nat) : List Nat := (s.func fn).kbiasWait.filter fun h => h == 8192 || (s.hart h).wait == .stall

/-- A write of a function's bias register by hart `who` or the host (R134): with GO while a flip goes on, or behind one that waits, the writer
waits; before stage 2 it is ignored (R410). -/
def kbiasWrite (s : State) (fn who : Nat) (v : Word) : RegOut :=
  let f := s.func fn
  let ws := flipWaiters s fn
  if !s.mgmt.s2 then .ok s
  else if bitOf v 63 && (f.kbiasGo || !(ws.isEmpty || ws.head? == some who)) then
    .wait fun s => s.modFunc fn fun f => { f with kbiasWait := if ws.contains who then ws else ws ++ [who] }
  else
    let w := word (fld v 62 1 * 2 ^ 62 + fld v 16 36 * 2 ^ 16)
    let put := fun (st : Nat) (go : Bool) => RegOut.ok (s.modFunc fn fun f =>
      { f with kbias := setFld w 60 2 st, kbiasGo := f.kbiasGo || go, kbiasRun := if go then w else f.kbiasRun
               kbiasWait := if bitOf v 63 then ws.filter (· != who) else f.kbiasWait })
    let page := fld v 16 36
    if !bitOf v 63 then put (fld f.kbias 60 2) false
    else if !ownsPage s fn page then put 2 false
    else if deviceBias s page == bitOf v 62 then put 0 false
    else put 1 true

/-- A flip ends (R135): the bias changes; towards host bias the page's lines leave every cache first, dirty data written back. -/
def endFlip (s : State) (fn : Nat) : State :=
  let f := s.func fn
  if !f.kbiasGo then s
  else
    let page := fld f.kbiasRun 16 36
    let dev := bitOf f.kbiasRun 62
    let s := if dev then s else flushLines s (fun y => y.pl / 512 == page) (fun y => y.pl / 512 == page) (fun y => y.pl / 512 == page)
    let s := { s with devBias := s.devBias.set 0 page (if dev then fn + 1 else 0) }
    s.modFunc fn fun f => { f with kbias := setFld f.kbias 60 2 0, kbiasGo := false }

/-- BIAS_FLIP_COMPLETE (R135): function `a`. -/
def execBiasFlipComplete (s : State) : Host.Outcome State Fault Refusal := .next (endFlip s s.ev.a)

/-- BIAS_GO (R134): the host writes `w` to the bias register of function `a`; one that must wait is offered again. -/
def execBiasGo (s : State) : Host.Outcome State Fault Refusal :=
  if (s.func s.ev.a).tdisp != .run then .next s
  else match kbiasWrite s s.ev.a 8192 s.ev.w with
    | .ok t => .next t
    | .wait f => .next { f s with agenda := s.agenda ++ [.event .biasGo s.ev] }

/-! ### Gates, flushes, errors -/

/-- `kflush` as it reads (R335). -/
def kflushRead (c : Core) : Word := word (b2n c.kflush * 2 ^ 63)

/-- A write of `kflush`: with GO while a flush goes on, the writer waits. -/
def kflushWrite (s : State) (c : Nat) (v : Word) : RegOut :=
  if !bitOf v 63 then .ok s
  else if (s.core c).kflush then .wait
  else .ok (s.modCore c fun x => { x with kflush := true })

/-- The private caches of a core are empty, the dirty lines of its scalar cache in the cluster cache (R335). -/
def flushCore (s : State) (c : Nat) : State := (scalFlush s c).modCore c fun x => { x with l1 := [], icache := [] }

/-- FLUSH_COMPLETE (R335): core `a`. -/
def execFlushComplete (s : State) : Host.Outcome State Fault Refusal :=
  let c := s.ev.a
  .next (if (s.core c).kflush then (flushCore s c).modCore c fun x => { x with kflush := false } else s)

/-- LINE_FILL (R338 to R340): the line at `w` of function `b`, in HBM with a usable key, enters the cluster of core `a` on its own account where its page's
mode lets it and it is not in flight between biases (R135); one whose tag fails is dropped, with its record. -/
def execLineFill (s : State) : Host.Outcome State Fault Refusal :=
  let fn := s.ev.b
  match walk s fn s.ev.w with
  | .error _ => .next s
  | .ok (e, _, _) =>
    let pa := e.phys s.ev.w
    let w : Who := { core := s.ev.a, fn := fn, eid := (s.core s.ev.a).kencl.toNat }
    .next (if paKind pa != .hbm || !keyUsable s e.key fn w.eid || flipHeld s pa then s
      else match lineIn s w s.ev.w { pa := pa, key := e.key, cm := e.cm } with
        | (s, some _) => s
        | (s, none) => sealNote s fn w.eid s.ev.a pa e.key)

/-- CORRECTED_ERROR (R68): counted at core `a`; a die's L2 and HBM count at its fault service hart's core. -/
def execCorrectedError (s : State) : Host.Outcome State Fault Refusal := .next (bump s s.ev.a 6 1)

/-- The data at a place become poison, at the granularity of R69. -/
def poisonPlace (s : State) (p : ErrPlace) : State :=
  match p with
  | .line pa => s.modLine (pa / 128) fun m => { m with psn := true }
  | .l2Copy pa => match s.dir (pa / 128) with
    | some x => s.setDir (pa / 128) (some { x with psn := true })
    | none => s
  | .scratch k w => s.modCls k fun c => { c with scrPsn := c.scrPsn.set false w true }
  | .poolSlot k u =>
    match ((s.cluster k).parts.find? fun x => x.2.en && x.2.slotUnits.contains u) with
    | some (i, _) => if ((s.cluster k).slot u).st = .free then s else poisonTile s { clus := k, part := i, unit := u }
    | none => s
  | .acc c i => s.modCore c fun x => x.setAcc i { x.acc i with hdr := sealCrc (setHf (x.acc i).hdr 29 1 1) }
  | .slot c i => if ((s.core c).op i).loaded then s.modCore c fun x => x.setOp i { x.op i with hdr := sealCrc (setHf (x.op i).hdr 29 1 1) } else s
  | .queueEntry c ch i =>
    let w := s.ev.b
    s.modCore c fun x =>
      if ch < 64 then x.modChan ch fun y => { y with hw := y.hw.zipIdx.map fun (m, j) => if j = i ∧ !m.psn.contains w then { m with psn := m.psn ++ [w] } else m }
      else x.modQ (ch - 64) fun y => { y with vals := y.vals.zipIdx.map fun (m, j) => if j = i ∧ !m.psn.contains w then { m with psn := m.psn ++ [w] } else m }

  | .l1Copy c fn vl => s.modCore c fun x => { x with l1 := x.l1.map fun y => if y.fn = fn ∧ y.vline = vl then { y with psn := true } else y }
  | .scalarCopy c fn vl => s.modKlines (clusterOf c) vl fun l => l.map fun y =>
      if y.named fn vl && y.scal.get .i (c % 4) != .i then { y with spsn := y.spsn.set false (c % 4) true } else y
  | .clusterCopy k fn vl => s.modKlines k vl fun l => l.map fun y => if y.named fn vl then { y with psn := true } else y

/-- UNCORRECTABLE_ERROR (R69): of a copy in a cache, that copy; of a queue entry, 4-byte word `b` of message or value i in channel ch, or in hardware queue ch - 64; its poison has no
consumer in R70. -/
def execUncorrectableError (s : State) : Host.Outcome State Fault Refusal := .next (poisonPlace s s.ev.place)

end Sys2Proof.Machine
end

