-- ==== Sys2Proof/Machine/Trust.lean ====
section
/-!
DEFINITION. Enclaves, keys, the hall monitor, the attendance book, clean slate and the function-level reset (R332 to R364).
-/
namespace Sys2Proof.Machine

/-! ### The book (R356 to R360) -/

/-- What leaves the device for the host (log 16). -/
def toHost (s : State) (die pa : Nat) (bs : List Byte) : State := { s with sent := s.sent ++ [{ cls := 0, die := die, pa := pa, bytes := bs }] }

/-- An append that has waited takes its place; a reset that it completes is reported to the host (R362). -/
def putPending (s : State) (r : BookReq) : State :=
  let s := bookPut s r.hd r.args
  match r.reset with
  | some f => toHost s 0 0 [BitVec.ofNat 8 f]
  | none => s

/-- The appends that wait enter the book while it has room. -/
def drainBook : Nat → State → State
  | 0, s => s
  | n + 1, s =>
    match s.book.pend with
    | [] => s
    | r :: rs => if bookFull s then s else drainBook n (putPending { s with book := { s.book with pend := rs } } r)

/-- A write of BOOKACK (R360). -/
def bookackTo (s : State) (v : Word) : State :=
  if v.toNat < s.book.ack ∨ s.book.next < v.toNat then s
  else drainBook s.book.pend.length { s with book := { s.book with ack := v.toNat } }

/-- BOOKACK_WRITE (R360): the host writes `w`. -/
def execBookackWrite (s : State) : Host.Outcome State Fault Refusal := .next (bookackTo s s.ev.w)

/-- A write of BOOKSIGN. -/
def booksignTo (s : State) (v : Word) : State := if bitOf v 0 then { s with book := { s.book with signReq := true } } else s

/-- BOOKSIGN_REQUEST (R360): the host writes `w`. -/
def execBooksignRequest (s : State) : Host.Outcome State Fault Refusal := .next (booksignTo s s.ev.w)

/-- The signing counter (R358). -/
def signCounter (s : State) : Word := word (s.mgmt.epoch * 2 ^ 48 + s.book.signs % 2 ^ 48)

/-- The signature record (R358). -/
def signatureArgs (s : State) : List Word :=
  let msg := digestBytes s.book.last ++ natToLe 8 (signCounter s).toNat ++ natToLe 8 Config.serial.toNat
  let sig := natToBe 64 (sm2Sign (sm3 msg)).toNat
  signCounter s :: (List.range 8).map fun i => leWord ((sig.drop (8 * i)).take 8)

/-- SIGNED_HEAD (R358): one that is due after a record, else one that was asked for, while the book has room. -/
def execSignedHead (s : State) : Host.Outcome State Fault Refusal :=
  if !(s.book.due || s.book.signReq) || bookFull s then .next s
  else
    let b := if s.book.due then { s.book with due := false } else { s.book with signReq := false }
    let t := bookPut { s with book := b } 0xF0 (signatureArgs s)
    .next { t with book := { t.book with signs := t.book.signs + 1 } }

/-! ### Keys (R341 to R345) -/

/-- Erase a slot (R345): the lines of its pages leave the caches of its function, dirty data written back, then the key goes. -/
def eraseKey (s : State) (k : Nat) : State :=
  let f := (s.key k).fn
  let s := dropLines (kFlushAll s fun y => y.fn == f && y.key == k && k != 0) fun y => y.fn == f && y.key == k && k != 0
  { s with keys := s.keys.set {} k {} }

/-- Load a slot from K1 ‖ K2 ‖ MAC. -/
def loadKey (s : State) (k fn eid : Nat) (km : BitVec 384) : State :=
  { s with keys := s.keys.set {} k { loaded := true, k1 := km.extractLsb' 256 128, k2 := km.extractLsb' 128 128, mac := km.extractLsb' 0 128, fn := fn, eid := eid } }

/-- n bytes at a physical address, as the device reads them there in clear: Mladotte's region under its key (R332); else the address of the first line that is not
memory, is poison or fails its tag. -/
def bareRead (s : State) (pa n : Nat) : Except Nat (List Byte) :=
  match (linesOf pa n).find? fun l => !backed s (128 * l) || paKind (128 * l) == .mmio || homePoison s l || !tagOk s (bareKey s (128 * l)) l with
  | some l => .error (128 * l)
  | none => .ok ((((linesOf pa n).map fun l => plainLine s (bareKey s (128 * l)) l).flatten.drop (pa % 128)).take n)

/-- The status of an unwrap before its effect, with the keys (R344): 4 integrity, 3 policy. -/
def unwrapBlob (s : State) (eid pa : Nat) : Except Nat (BitVec 384) :=
  let bs := (bareRead s pa 256).toOption.getD []
  let at_ := fun o n => (bs.drop o).take n
  let e := s.enclaves.get {} eid
  if bs.isEmpty then .error 4
  else if leToNat (at_ 0 4) ≠ 0x4B424C31 ∨ leToNat (at_ 4 4) ≠ 1 ∨ leWord (at_ 8 8) ≠ Config.serial ∨ at_ 0x10 32 ≠ digestBytes sealKeyDigest then .error 4
  else if !(e.alive && e.final && digestBytes e.meas == at_ 0x30 32) then .error 3
  else match sm2Open (at_ 0x50 145) with
    | some km => .ok km
    | none => .error 4

/-- A key operation other than query (R343): the state that its record and effect leave, and STATUS. `op` is 0 erase, 1 derive,
2 unwrap, 3 rebind. -/
def keyOp (s : State) (core op k fn eid : Nat) (dat : Word) : State × Nat :=
  let slot := s.key k
  let km := if op = 2 then unwrapBlob s eid dat.toNat
    else .ok (Config.slotKeys (derive "slot" (natToLe 11 (fn * 2 ^ 80 + eid * 2 ^ 64 + dat.toNat))))
  let st := match op with
    | 0 => if k = 0 then 2 else 0
    | 3 => if k < 4 ∨ !slot.loaded then 2 else 0
    | _ => if k < 4 ∨ slot.loaded then 2 else (match km with
      | .ok _ => 0
      | .error n => n)
  if bookFull s then (s, 5)
  else
    let s := bookAppend s 1 fn eid core [word k, word op, word st]
    if st ≠ 0 then (s, st)
    else match op, km with
      | 0, _ => (eraseKey s k, 0)
      | 3, _ => ({ s with keys := s.keys.set {} k { slot with fn := fn, eid := eid } }, 0)
      | _, .ok km => (loadKey s k fn eid km, 0)
      | _, .error n => (s, n)

/-- `kkctl` with its fields. -/
def kkctlWord (op st loaded fn eid : Nat) : Word := word (op * 2 ^ 60 + st * 2 ^ 57 + loaded * 2 ^ 56 + fn * 2 ^ 48 + eid * 2 ^ 32)

/-- A write of `kkctl` by hart h (R343): the whole operation falls in the step of the write (log 2). Only a query writes LOADED. -/
def kkctlWrite (s : State) (h : Nat) (v : Word) : State :=
  let x := (s.hart h).k
  let k := x.kksel.toNat
  let op := fld v 60 3
  let fn := fld v 48 8
  let eid := fld v 32 16
  let put := fun (s : State) (w : Word) => s.modHart h fun y => { y with k := { y.k with kkctl := w } }
  if !bitOf v 63 then put s (kkctlWord op (fld x.kkctl 57 3) (fld x.kkctl 56 1) fn eid)
  else if op = 4 then put s (kkctlWord op 0 (b2n (s.key k).loaded) (s.key k).fn (s.key k).eid)
  else if op > 4 then put s (kkctlWord op 2 (fld x.kkctl 56 1) fn eid)
  else
    let r := keyOp s (coreOf h) op k fn eid x.kkdat
    put r.1 (kkctlWord op r.2 (fld x.kkctl 56 1) fn eid)

/-! ### The hall monitor (R350 to R355) -/

def selRegion (w : BitVec 12) : Nat := w.toNat % 16
def selClass (w : BitVec 12) : Nat := w.toNat / 16 % 4
def selDie (w : BitVec 12) : Nat := w.toNat / 512 % 2
def selWord (w : BitVec 12) : Nat := w.toNat / 1024

/-- The key of a bucket in its region. -/
def bucketKey (cls die : Nat) : Nat := 2 * cls + die

def Region.bucket (r : Region) (cls die : Nat) : Bucket := r.buckets.get {} (bucketKey cls die)
def Region.modBucket (r : Region) (cls die : Nat) (f : Bucket → Bucket) : Region :=
  { r with buckets := r.buckets.set {} (bucketKey cls die) (f (r.bucket cls die)) }

def setRegion (s : State) (g : Nat) (r : Region) : State := { s with regions := s.regions.set {} g r }

/-- `khmctl`, `khmdom`, `khmrate` and `khmlvl` as they read. -/
def khmctlOf (r : Region) : Word := word (b2n r.en * 2 ^ 63 + b2n r.conf * 2 ^ 62 + b2n r.lock * 2 ^ 61 + r.fn)
def khmdomOf (r : Region) (w : Nat) : Word := r.doms.extractLsb' (64 * w) 64
def khmrateOf (b : Bucket) : Word := word (b.rate * 2 ^ 40 + b.depth)
def khmlvlOf (b : Bucket) : Word := word (b2n b.stall * 2 ^ 63 + b.credit)

/-- n microsecond boundaries of a bucket (R353). -/
def Bucket.refill (n : Nat) (b : Bucket) : Bucket := { b with credit := min b.depth (b.credit + n * b.rate) }

/-- The microsecond boundaries of `time` that have passed fill the buckets (R353): whatever reads or changes a bucket comes after them. -/
def refillDue (s : State) : State :=
  let n := s.time / 100 - s.mgmt.usDone
  if n = 0 then s
  else { s with
    mgmt := { s.mgmt with usDone := s.time / 100 }
    regions := s.regions.map fun (g, r) => (g, { r with buckets := r.buckets.map fun (k, b) => (k, b.refill n) }) }

/-- While LOCK = 1 a write may not loosen the region (R355). -/
def lockHolds (old new : Region) (cls die : Nat) : Bool :=
  old.lock && ((old.en && !new.en) || (old.conf && !new.conf) || !new.lock || old.fn != new.fn || (old.doms &&& ~~~new.doms) != 0 ||
    decide ((old.bucket cls die).rate < (new.bucket cls die).rate) || decide ((old.bucket cls die).depth < (new.bucket cls die).depth))

/-- A write to a region by hart h (R350): a change is recorded first, and is ignored while the book is full. Contexts in M mode keep the taint of the
regions enabled until now. -/
def regionWrite (s : State) (h : Nat) (f : Region → Region) : State :=
  let s := refillDue s
  let sel := (s.hart h).k.khmsel
  let g := selRegion sel
  let old := s.region g
  let new := f old
  if lockHolds old new (selClass sel) (selDie sel) then s
  else if { new with fn := old.fn } = old then setRegion s g new
  else if bookFull s then s
  else
    let args := [word g, khmctlOf new] ++ (List.range 4).map (khmdomOf new) ++
      [word (sel.toNat / 16 % 64 * 16), khmrateOf (new.bucket (selClass sel) (selDie sel))]
    setRegion (bookAppend (keepTaint s) 4 new.fn (s.core (coreOf h)).kencl.toNat (coreOf h) args) g new

def khmctlWrite (s : State) (h : Nat) (v : Word) : State :=
  regionWrite s h fun r => { r with en := bitOf v 63, conf := bitOf v 62, lock := bitOf v 61, fn := fld v 0 8 }

def khmdomWrite (s : State) (h : Nat) (v : Word) : State :=
  let w := selWord (s.hart h).k.khmsel
  regionWrite s h fun r => { r with doms := BitVec.ofNat 256 (r.doms.toNat - (khmdomOf r w).toNat * 2 ^ (64 * w) + v.toNat * 2 ^ (64 * w)) }

def khmrateWrite (s : State) (h : Nat) (v : Word) : State :=
  let sel := (s.hart h).k.khmsel
  regionWrite s h fun r => r.modBucket (selClass sel) (selDie sel) fun b => { b with rate := fld v 40 24, depth := fld v 0 40 }

/-- The regions of a mask that a port class meters: the enabled ones. -/
def metered (s : State) (mask : BitVec 16) : List Nat := (List.range 16).filter fun g => mask.getLsbD g && (s.region g).en

/-- The transaction at the head of a port's egress, with its place. -/
def egressHead (s : State) (die cls : Nat) : Option (Nat × Egress) :=
  (s.egress.zipIdx.find? fun x => x.1.die == die && x.1.cls == cls).map fun x => (x.2, x.1)

/-- A bucket that stalls a transaction: the first stall is recorded (R353). -/
def stallBucket (s : State) (e : Egress) (g : Nat) : State :=
  let r := s.region g
  if (r.bucket e.cls e.die).stall then s
  else setRegion (bookAppend s 5 r.fn 0 0 [word g, word (e.die * 2 ^ 9 + e.cls * 2 ^ 4), word e.mask.toNat]) g (r.modBucket e.cls e.die fun b => { b with stall := true })

/-- EGRESS_TRANSACTION (R353): the oldest transaction of port class `b` at I/O die `a` passes, debiting its buckets, or stalls; what is
stalled stays so while the book is full (R360). -/
def execEgressTransaction (s : State) : Host.Outcome State Fault Refusal :=
  let s := refillDue s
  match egressHead s s.ev.a s.ev.b with
  | none => .next s
  | some (i, e) =>
    let gs := metered s e.mask
    if bookFull s && gs.any fun g => ((s.region g).bucket e.cls e.die).stall then .next s
    else
    let short := gs.filter fun g => decide (((s.region g).bucket e.cls e.die).credit < e.bytes.length)
    if short.isEmpty then
      let s := gs.foldl (fun s g => setRegion s g ((s.region g).modBucket e.cls e.die fun b => { b with credit := b.credit - e.bytes.length, stall := false })) s
      .next { s with egress := s.egress.eraseIdx i, sent := s.sent ++ [{ cls := e.cls, die := e.die, pa := e.pa, bytes := e.bytes }] }
    else .next (short.foldl (fun s g => stallBucket s e g) s)

/-- BUCKET_REFILL (R353): at microsecond boundaries of `time` not yet served. -/
def execBucketRefill (s : State) : Host.Outcome State Fault Refusal := .next (refillDue s)

/-! ### The measured-frame map (R347) -/

/-- Write the entry of a frame and the summary bit of its region. -/
def setMf (s : State) (frame : Nat) (e : Word) : State :=
  let base := s.mgmt.kmfmap.toNat
  let s := putRaw s (base + 8 * frame) (natToLe 8 e.toNat)
  let r := frame / 8192
  let any := s.mem.any fun x => decide (base + 65536 * r ≤ x.1) && decide (x.1 < base + 65536 * (r + 1)) && (x.1 - base) % 8 == 7 && x.2.getLsbD 7
  let at_ := base + 2 ^ 27 + r / 8
  let old := (rawByte s at_).toNat
  let bit := 2 ^ (r % 8)
  putRaw s at_ [BitVec.ofNat 8 (if any then old ||| bit else old - old / bit % 2 * bit)]

/-- The translations of a page leave every function's buffers and the walkers' caches (a `ktinv` with FLUSH = 0 in every function); the call that does this has
waited for what was checked under them (R38, `callWaits`). -/
def dropPage (s : State) (vpn : Nat) : State :=
  { dropEntries s (fun e => if e.huge then e.vpn / 8192 == vpn / 8192 else e.vpn == vpn) with walkers := [] }

/-! ### Mladotte's calls (R337, R346, R348, R349) -/

/-- The hart is in Mladotte with a call: in M mode by `ecall`, a7 = 0x4B4D. -/
def inCall (x : Hart) : Bool := x.priv == .m && (x.csr.mcause == 8 || x.csr.mcause == 9) && x.getX 17 == 0x4B4D

/-- The call that Mladotte's event n serves: from S mode function n; from U mode, or with a function above 8, a refusal. -/
def callFits (x : Hart) (n : Nat) : Bool := inCall x && (x.csr.mcause == 8 || decide (8 < (x.getX 16).toNat) || x.getX 16 == word n)

/-- Mladotte returns: a0, and a1 where the call gives a result, then `mret` past the `ecall`. -/
def callReturn (s : State) (h : Nat) (st : Int) (r : Option Word) : State :=
  s.modHart h fun x =>
    let x := x.setX 10 (BitVec.ofInt 64 st)
    let x := match r with
      | some v => x.setX 11 v
      | none => x
    Hart.mret { x with csr := { x.csr with mepc := x.csr.mepc + 4 } }

/-- What a call does: the state, the status, the result. -/
abbrev CallRes := State × Int × Option Word

/-- A Mladotte event on hart `a`. -/
def mladotte (n : Nat) (eff : State → Nat → CallRes) (s : State) : Host.Outcome State Fault Refusal :=
  let h := s.ev.a
  let x := s.hart h
  if !callFits x n then .next s
  else if x.csr.mcause == 8 || decide (8 < (x.getX 16).toNat) then .next (callReturn s h (-1) none)
  else
    let (t, st, r) := eff s h
    .next (callReturn t h st r)

/-- The live enclave of the calling hart's function that a0 names. -/
def callEnclave (s : State) (h : Nat) : Option (Nat × Enclave) :=
  let e := ((s.hart h).getX 10).toNat
  let x := s.enclaves.get {} e
  if 0 < e ∧ e < 65536 ∧ x.alive ∧ x.fn = (s.hart h).fn then some (e, x) else none

def setEnclave (s : State) (e : Nat) (x : Enclave) : State := { s with enclaves := s.enclaves.set {} e x }

/-- The record of an enclave's measurement (type 2). -/
def enclaveRecord (s : State) (h e : Nat) (x : Enclave) : State :=
  bookAppend s 2 x.fn (s.core (coreOf h)).kencl.toNat (coreOf h) (word e :: digestWords x.meas)

/-- The lowest slot that no enclave of a function has (R349; log 30). -/
def freeSlot (s : State) (fn : Nat) : Nat :=
  let l := s.enclaves.filter fun x => x.2.alive && x.2.fn == fn
  ((List.range (l.length + 1)).find? fun i => !(l.any fun x => x.2.slot == i)).getD 0

/-- create: the lowest EID that no enclave has (log 30). -/
def callCreate (s : State) (h : Nat) : CallRes :=
  match (List.range 65535).find? fun i => !(s.enclaves.get {} (i + 1)).alive with
  | none => (s, -1, none)
  | some i =>
    if bookFull s then (s, -4, none)
    else
      let x : Enclave := { alive := true, slot := freeSlot s (s.hart h).fn, fn := (s.hart h).fn, meas := Config.measureStart }
      (setEnclave (enclaveRecord s h (i + 1) x) (i + 1) x, 0, some (word (i + 1)))

/-- A page of 64 KiB that an enclave may take: mapped by its function, in HBM. Gives the entry and the PTE's address. -/
def callPage (s : State) (fn : Nat) (va : Word) : Option (PageEntry × Nat) :=
  if !canonical va then none
  else match walk s fn va with
    | .ok (e, at_, 3) => if paKind e.pa == .hbm then some (e, at_) else none
    | _ => none

/-- n bytes of a page from `off` on, as Mladotte measures them; else the address of the first line that is poison or whose tag fails. -/
def pageBytes (s : State) (e : PageEntry) (off n : Nat) : Except Nat (List Byte) :=
  match (linesOf (e.pa + off) n).find? fun l => homePoison s l || !tagOk s e.key l with
  | some l => .error (128 * l)
  | none => .ok (readMem s e.key (e.pa + off) n)

/-- Mladotte's read of a page has failed at an address: a failed tag has its record (R340); poison has none. -/
def measureFail (s : State) (h : Nat) (e : PageEntry) (pa : Nat) : State :=
  if tagOk s e.key (pa / 128) then s else sealNote s e.fn (s.core (coreOf h)).kencl.toNat (coreOf h) pa e.key

/-- M = 1 in the PTE of a page (R346, R348). -/
def markPage (s : State) (e : PageEntry) (at_ : Nat) : State := dropPage (setPteBit s at_ 5) e.vpn

/-- A measured page: M and X in its PTE, its frame recorded (R346, R347). -/
def lockPage (s : State) (eid : Nat) (e : PageEntry) (at_ : Nat) : State :=
  dropPage (setMf (setPteBit (setPteBit s at_ 5) at_ 4) (e.pa / 65536) (word (2 ^ 63 + e.vpn % 2 ^ 39 * 2 ^ 16 + eid))) e.vpn

/-- The measurement extended (R346). -/
def extendMeas (m : BitVec 256) (va : Word) (tail : List Byte) : BitVec 256 := sm3 (digestBytes m ++ natToLe 8 va.toNat ++ tail)

/-- add page. -/
def callAddPage (s : State) (h : Nat) : CallRes :=
  let va := (s.hart h).getX 11
  let code := (s.hart h).getX 12
  match callEnclave s h with
  | none => (s, -1, none)
  | some (e, x) =>
    if x.final ∨ 1 < code.toNat ∨ fld va 0 16 ≠ 0 then (s, -1, none)
    else match callPage s x.fn va with
      | none => (s, -1, none)
      | some (p, at_) =>
        let x := { x with pages := x.pages ++ [(p.vpn, p.pa / 65536)] }
        if code = 0 then (setEnclave s e x, 0, none)
        else if bitOf (mfEntry s (p.pa / 65536)) 63 then (s, -1, none)
        else match pageBytes s p 0 65536 with
          | .error pa => (measureFail s h p pa, -3, none)
          | .ok bs => (setEnclave (lockPage s e p at_) e { x with meas := extendMeas x.meas va (digestBytes (sm3 bs)) }, 0, none)

/-- The pages that n bytes at an address touch. -/
def pagesOf (va : Word) (n : Nat) : List Word := (List.range ((va.toNat % 65536 + n + 65535) / 65536)).map fun i => (va &&& ~~~0xFFFF) + word (65536 * i)

/-- The bytes of pages, in order, as Mladotte reads n of them from an offset in the first. -/
def pagesBytes (s : State) : List PageEntry → Nat → Nat → Except (PageEntry × Nat) (List Byte)
  | [], _, _ => .ok []
  | e :: r, off, n =>
    let m := min n (65536 - off)
    match pageBytes s e off m with
    | .error pa => .error (e, pa)
    | .ok bs => match pagesBytes s r 0 (n - m) with
      | .error x => .error x
      | .ok cs => .ok (bs ++ cs)

/-- extend (R348): M = 1 on the pages, their bytes read, the measurement extended with the length, then X = 1. The `kfence.dev` comes first: the call waits for the
hart's copies (`callWaits`); every other store has been performed in its step (log 3). -/
def callExtend (s : State) (h : Nat) : CallRes :=
  let va := (s.hart h).getX 11
  let n := ((s.hart h).getX 12).toNat
  match callEnclave s h with
  | none => (s, -1, none)
  | some (e, x) =>
    if n = 0 ∨ 65536 * x.pages.length < n then (s, -1, none)
    else
      let ps := (pagesOf va n).map fun v => callPage s x.fn v
      if ps.any (fun p => match p with
          | some (p, _) => !x.pages.contains (p.vpn, p.pa / 65536)
          | none => true) then (s, -1, none)
      else if bookFull s then (s, -4, none)
      else
        let ps := ps.filterMap id
        let s := ps.foldl (fun s (p, at_) => markPage s p at_) s
        match pagesBytes s (ps.map (·.1)) (va.toNat % 65536) n with
        | .error (p, pa) => (measureFail s h p pa, -3, none)
        | .ok _ =>
          let x := { x with meas := extendMeas x.meas va (natToLe 8 n) }
          let s := enclaveRecord s h e x
          (setEnclave (ps.foldl (fun s (p, at_) => lockPage s e p at_) s) e x, 0, none)

/-- Mladotte stores bytes at a physical address on hart h; none of them where a line that they cover in part fails its tag (R339, R340; log 30), whose address the
error names. -/
def mladWrite (s : State) (h pa : Nat) (bs : List Byte) : Except Nat State :=
  match (linesOf pa bs.length).find? fun l =>
      !tagOk s (bareKey s (128 * l)) l && !(decide (pa ≤ 128 * l) && decide (128 * l + 128 ≤ pa + bs.length)) with
  | some l => .error (128 * l)
  | none => .ok (breakResv (writeCells s (bs.zipIdx.map fun (b, i) => { pa := pa + i, key := bareKey s (pa + i), val := b }) (taintOf s h)) h (linesOf pa bs.length))

/-- Mladotte's own access at a physical address has failed: a failed tag has its record (R340). -/
def mladFail (s : State) (h pa : Nat) : CallRes :=
  (if tagOk s (bareKey s pa) (pa / 128) then s else sealNote s (s.hart h).fn (s.core (coreOf h)).kencl.toNat (coreOf h) pa (bareKey s pa), -3, none)

/-- finalize: the measurement's 32 bytes lie at the physical address `w` (log 30). -/
def callFinalize (s : State) (h : Nat) : CallRes :=
  match callEnclave s h with
  | none => (s, -1, none)
  | some (e, x) =>
    if x.final then (s, -1, none)
    else if bookFull s then (s, -4, none)
    else
      let x := { x with final := true }
      match mladWrite (enclaveRecord s h e x) h s.ev.w.toNat (digestBytes x.meas) with
      | .ok t => (setEnclave t e x, 0, some s.ev.w)
      | .error pa => mladFail s h pa

/-- Masks of the key slots that an enclave may use, 64 in each word. -/
def usableMasks (s : State) (fn eid lo n : Nat) : List Word :=
  (List.range n).map fun i => word (maskOf 64 fun j => (s.key (lo + 64 * i + j)).loaded && keyUsable s (lo + 64 * i + j) fn eid && lo + 64 * i + j != 0)

/-- The bound harts of a core. -/
def boundHarts (s : State) (c : Nat) : List Nat := (coreHarts c).filter fun h => (s.hart h).live && (s.hart h).bind != .none

/-- What Mladotte saves of a core for an EID (R336 step 2). -/
def parkOf (s : State) (c eid : Nat) : Parked :=
  { harts := ((boundHarts s c).filter fun h => boundEid s h == some eid).map fun h => (h, s.hart h)
    prots := (coreHarts c).map fun h => (h, (s.hart h).csr.pmpcfg, (s.hart h).csr.pmpaddr, (s.hart h).k.kdom)
    ops := (s.core c).ops, accs := (s.core c).accs
    bbs := (s.classes.filter fun (_, k) => k.live && k.core == c && k.eid == eid).map fun (i, k) => (i, k.bb) }

/-- A hart takes back what was saved of it: lanes, masks, inbox, floating-point registers. -/
def Hart.unpark (x y : Hart) : Hart :=
  { x with
    f := y.f, frm := y.frm, fflags := y.fflags, v := y.v, m := y.m, kms := y.kms, kmsd := y.kmsd, inbox := y.inbox, present := y.present
    inFrom := y.inFrom, tfr := y.tfr, k := { x.k with kclst := y.k.kclst }
    csr := { x.csr with mstatus := setFld x.csr.mstatus 15 2 (fld y.csr.mstatus 15 2) } }

/-- The PMP entries and `kdom` that a hart has under an EID whose parked state has them; for an EID that its core has not run yet the values are
Mladotte's, which the spec does not give: free ones (R336 step 5; log 31). -/
def Hart.protect (x : Hart) (h eid : Nat) (p : Parked) : Hart :=
  match p.prots.find? fun y => y.1 == h with
  | some (_, cfg, adr, dom) => { x with k := { x.k with kdom := dom }, csr := { x.csr with pmpcfg := cfg, pmpaddr := adr } }
  | none =>
    { x with
      k := { x.k with kdom := Config.entryKdom eid h }
      csr := { x.csr with pmpcfg := (List.range 64).foldl (fun m i => SMap.set 0 m i (Config.entryPmpcfg eid h i)) []
                          pmpaddr := (List.range 64).foldl (fun m i => SMap.set 0 m i (Config.entryPmpaddr eid h i)) [] } }

/-- What was saved of a core goes back, to the harts that are bound as they were. -/
def unparkCore (s : State) (c : Nat) (p : Parked) : State :=
  let s := p.harts.foldl (fun s (h, y) => if (s.hart h).bind = y.bind then (s.modHart h fun x => x.unpark y).stick c (y.fflags &&& ~~~(s.hart h).fflags) else s) s
  let s := p.bbs.foldl (fun s (i, b) => if (s.cls i).live then s.modCls i fun k => { k with bb := b } else s) s
  s.modCore c fun x => { x with ops := p.ops, accs := p.accs }

/-- The steps 1 to 6 and 8 of R336, in one step of the model (log 31): the bound harts come into M mode by a machine software interrupt, what runs under the
outgoing EID is parked, the private caches are flushed, every hart is scrubbed, what was parked of the incoming EID comes back, each hart has the PMP
entries and `kdom` of that EID, `kencl` is written, the harts return by `mret`. -/
def switchCore (s : State) (c eid : Nat) : State :=
  let old := (s.core c).kencl.toNat
  let hs := (boundHarts s c).filter fun h => (s.hart h).priv != .m
  let s := hs.foldl (fun s h => takeTrap (leaveWait s h) h true 3 0) s
  let p := parkOf s c old
  let s := scrubCore ((coreHarts c).foldl (fun s h => s.modHart h fun x => x.scrub (isService h)) (flushCore s c)) c
  let q := (s.core c).parked.get {} eid
  let s := (coreHarts c).foldl (fun s h => s.modHart h fun x => x.protect h eid q) (unparkCore s c q)
  let s := s.modCore c fun x => { x with kencl := BitVec.ofNat 16 eid, parked := (x.parked.erase eid).set {} old p }
  hs.foldl (fun s h => s.modHart h Hart.mret) s

/-- What a switch waits for (R336 step 2, R309): the operations of the core's bound harts. -/
def switchWaits (s : State) (h : Nat) : Bool := (boundHarts s (coreOf h)).any (opsOpen s)

/-- enter (R336): the switch with its records, which need room for both; at most 8 enclaves are resident on a core (R333). -/
def callEnter (s : State) (h : Nat) : CallRes :=
  match callEnclave s h with
  | none => (s, -1, none)
  | some (e, x) =>
    let c := coreOf h
    let res := (s.core c).resident
    let up := usableMasks s x.fn e 512 8
    let two := !(up.all (· == 0))
    if 8 ≤ res.length ∧ !res.contains e then (s, -1, none)
    else if !bookRoom s (if two then 2 else 1) then (s, -4, none)
    else
      let s := bookAppend s 3 x.fn e c (word e :: usableMasks s x.fn e 0 8)
      let s := if two then bookAppend s 10 x.fn e c (word e :: up) else s
      let s := s.modCore c fun y => { y with resident := if res.contains e then res else res ++ [e] }
      (if (s.core c).kencl.toNat = e then s else switchCore s c e, 0, none)

/-- exit: the core returns to EID 0. -/
def callExit (s : State) (h : Nat) : CallRes :=
  (if (s.core (coreOf h)).kencl = 0 then s else switchCore s (coreOf h) 0, 0, none)

/-- An enclave is destroyed: its keys erased, its frames' entries cleared, its pages freed; cores that run it return to EID 0, and what cores keep
of it goes. -/
def dropEnclave (s : State) (e : Nat) (x : Enclave) : State :=
  let s := x.pages.foldl (fun s (v, f) => if fld (mfEntry s f) 0 16 = e ∧ bitOf (mfEntry s f) 63 then dropPage (setMf s f 0) v else s) s
  let s := (s.cores.filter fun (_, c) => c.kencl.toNat == e && e != 0).foldl (fun s (c, _) => switchCore s c 0) s
  setEnclave { s with cores := s.cores.map fun (c, y) => (c, { y with resident := y.resident.filter (· != e), parked := y.parked.erase e }) } e {}

/-- The key slots of an enclave that its destruction erases: not the device's own. -/
def enclaveKeys (s : State) (fn e : Nat) : List Nat :=
  (s.keys.filter fun (k, y) => decide (4 ≤ k) && y.loaded && y.fn == fn && y.eid == e).map (·.1)

/-- destroy: the record of the destruction and one for each erased key, which need room together. -/
def callDestroy (s : State) (h : Nat) : CallRes :=
  match callEnclave s h with
  | none => (s, -1, none)
  | some (e, x) =>
    let ks := enclaveKeys s x.fn e
    if !bookRoom s (1 + ks.length) then (s, -4, none)
    else
      let s := ks.foldl (fun s k => bookAppend (eraseKey s k) 1 x.fn e (coreOf h) [word k, 0, 0]) (enclaveRecord s h e x)
      (dropEnclave s e x, 0, none)

/-- unwrap: a1 names the blob; the key enters slot `b`. -/
def callUnwrap (s : State) (h : Nat) : CallRes :=
  match callEnclave s h with
  | none => (s, -1, none)
  | some (e, x) =>
    let (t, st) := keyOp s (coreOf h) 2 (s.ev.b % 1024) x.fn e ((s.hart h).getX 11)
    match st with
    | 0 => (t, 0, some (word (s.ev.b % 1024)))
    | 3 => (t, -2, none)
    | 4 => (t, -3, none)
    | 5 => (t, -4, none)
    | _ => (t, -1, none)

/-- The measurement blocks of a function (R349): from block 0x10 on the finalized measurements of its enclaves by slot. -/
def measBlock (s : State) (fn b : Nat) : Option (BitVec 256) :=
  match b with
  | 1 => some s.mgmt.fw
  | 2 => some s.mgmt.mlad
  | 3 => some Config.fuseDigest
  | _ => if b < 0x10 then none
    else (s.enclaves.find? fun (_, x) => x.alive && x.final && x.fn == fn && x.slot + 0x10 == b).map fun (_, x) => x.meas

/-- Blocks signed with the identity key over a nonce (R349; log 30: the order of the parts). -/
def signedBlocks (bs nonce : List Byte) : List Byte := bs ++ natToBe 64 (sm2Sign (sm3 (bs ++ nonce))).toNat

/-- The blocks of a function's report, by rising number. -/
def reportBlocks (s : State) (fn : Nat) : List Byte :=
  let n := (s.enclaves.map fun x => x.2.slot + 1).foldl max 0
  (([1, 2, 3] ++ (List.range n).map (· + 0x10)).filterMap fun b => (measBlock s fn b).map digestBytes).flatten

/-- report: over the 32-byte nonce at the physical address a1, the report lying at `w`. -/
def callReport (s : State) (h : Nat) : CallRes :=
  match callEnclave s h with
  | none => (s, -1, none)
  | some (_, x) =>
    match bareRead s ((s.hart h).getX 11).toNat 32 with
    | .error pa => mladFail s h pa
    | .ok nonce => match mladWrite s h s.ev.w.toNat (signedBlocks (reportBlocks s x.fn) nonce) with
      | .ok t => (t, 0, some s.ev.w)
      | .error pa => mladFail s h pa

/-- A contribution is under way that was checked under a translation of a page of 64 KiB, or of the 512 MiB page over it (R38). -/
def contribOn (s : State) (vpn : Nat) : Bool :=
  s.dies.any fun d => (d.2.transit ++ d.2.comb.map (·.sum)).any fun x => x.parts.any fun p => p.vline / 2 ^ 22 == vpn / 8192

/-- What function n waits for on hart h: add page, extend and destroy for the accesses checked under the translations that they take out (R38, R347), extend for the
hart's copies, as its `kfence.dev` does (R348); those that read or write memory for the end of a flip (R135; log 26); enter and exit for the operations
of the core's harts (R336). -/
def callWaits (s : State) (h n : Nat) : Bool :=
  let x := s.hart h
  match n with
  | 1 => flipsOpen s || contribOn s (fld (x.getX 11) 16 39)
  | 2 => flipsOpen s || copiesOpen s h || (pagesOf (x.getX 11) (x.getX 12).toNat).any fun va => contribOn s (fld va 16 39)
  | 3 | 7 | 8 => flipsOpen s
  | 6 => ((callEnclave s h).map fun e => e.2.pages).any fun l => l.any fun p => contribOn s p.1
  | 4 | 5 => switchWaits s h
  | _ => false

/-- The event of function n: it waits, or the call is made. -/
def callEvent (n : Nat) (eff : State → Nat → CallRes) (s : State) : Host.Outcome State Fault Refusal :=
  if callWaits s s.ev.a n then .next s else mladotte n eff s

/-- MLADOTTE_CREATE (R337): hart `a`. -/
def execMladotteCreate (s : State) : Host.Outcome State Fault Refusal := callEvent 0 callCreate s

/-- MLADOTTE_ADD_PAGE (R337, R346): hart `a`. -/
def execMladotteAddPage (s : State) : Host.Outcome State Fault Refusal := callEvent 1 callAddPage s

/-- MLADOTTE_EXTEND (R348): hart `a`. -/
def execMladotteExtend (s : State) : Host.Outcome State Fault Refusal := callEvent 2 callExtend s

/-- MLADOTTE_FINALIZE (R337): hart `a`, the address `w`. -/
def execMladotteFinalize (s : State) : Host.Outcome State Fault Refusal := callEvent 3 callFinalize s

/-- MLADOTTE_ENTER (R336): hart `a`; it waits for the operations of the core's harts. -/
def execMladotteEnter (s : State) : Host.Outcome State Fault Refusal := callEvent 4 callEnter s

/-- MLADOTTE_EXIT (R337): hart `a`, likewise. -/
def execMladotteExit (s : State) : Host.Outcome State Fault Refusal := callEvent 5 callExit s

/-- MLADOTTE_DESTROY (R337, R345, R347): hart `a`. -/
def execMladotteDestroy (s : State) : Host.Outcome State Fault Refusal := callEvent 6 callDestroy s

/-- MLADOTTE_UNWRAP (R337, R344): hart `a`, the slot `b`. -/
def execMladotteUnwrap (s : State) : Host.Outcome State Fault Refusal := callEvent 7 callUnwrap s

/-- MLADOTTE_REPORT (R349): hart `a`, the address `w`. -/
def execMladotteReport (s : State) : Host.Outcome State Fault Refusal := callEvent 8 callReport s

/-- SPDM_REQUEST (R349): the host asks, over the CXL port of I/O die `nums`[0], in version `w` 0x12 (1.2) or 0x13 (1.3), for measurement block `b` of function `a` with the nonce
`bytes`. -/
def execSpdmRequest (s : State) : Host.Outcome State Fault Refusal :=
  .next (if s.ev.w ≠ 0x12 ∧ s.ev.w ≠ 0x13 then s else match measBlock s s.ev.a s.ev.b with
    | some d => toHost s (nth 0 s.ev.nums 0 % 2) 0 (signedBlocks (digestBytes d) s.ev.bytes)
    | none => s)

/-! ### Function-level reset and TDISP (R349, R362, R363) -/

/-- The harts of a function that run bound to no class or firing, the service harts aside. -/
def freeHarts (s : State) (f : Nat) : List Nat := (s.harts.filter fun (h, x) => x.live && x.fn == f && x.bind == .none && !isService h).map (·.1)

/-- Steps 1 to 3: F's queues stop, its harts halt, what they and its launches have under way is discarded; with step 4 of R362, its harts are
scrubbed. -/
def haltFunction (s : State) (f : Nat) : State :=
  let mine := fun (w : Word) => (s.hart (fld w 16 9 * 16 + fld w 25 4)).fn == f && fld w 0 8 != 0
  let ids := (s.launches.filter fun l => l.fn == f).map (·.id)
  let s := { s with
    queues := s.queues.filter fun (_, q) => q.fn != f
    dies := s.dies.map fun (d, x) => (d, { x with buf := x.buf.filter fun r => !mine r.w1, transit := x.transit.filter (fun c => c.fn != f), comb := x.comb.filter fun c => c.sum.fn != f })
    cores := s.cores.map fun (c, x) => (c, { x with heldReports := x.heldReports.filter fun r => !mine r.w1 })
    egress := s.egress.filter fun e => (metered s e.mask).all fun g => (s.region g).fn != f }
  let s := discardReqs s fun r => r.fn == f
  let fs := firingHarts s fun x => ids.contains x.launch
  let s := fs.foldl cutFiring s
  let ks := s.classes.filter fun (_, c) => c.live && c.fn == f
  let s := { s with cores := s.cores.map fun (c, x) =>
    (c, { x with
      mx := if ks.any fun (_, k) => k.core == c && k.acc.isSome then [] else x.mx
      sends := x.sends.filter (fun e => e.msg.fn != f)
      chans := x.chans.map fun (i, y) => (i, { y with hw := y.hw.filter (fun q => q.msg.fn != f), held := y.held.filter fun r => match r with
        | .send c i => !((s.core c).sends.any fun e => e.id == i && e.msg.fn == f)
        | .copy c i => ((s.core c).req i).isSome }) }) }
  let us := freeHarts s f
  let hs := (ks.map fun (_, k) => k.harts).flatten ++ fs ++ us
  let s := ks.foldl (fun s (key, _) => releaseClass s key) s
  let s := us.foldl (fun s h => (abandon s h).modHart h fun x => { x with live := false }) s
  let s := hs.foldl (fun s h => s.modHart h fun x => x.scrub false) s
  { s with withdrawn := s.withdrawn.filter fun r => r.fn != f }

/-- The cluster without function `f`'s pool partitions; the slots they held are free and keep their generations (R91, R362). -/
def clearParts (f : Nat) (x : Cluster) : Cluster :=
  let gone := ((x.parts.filter fun p => p.2.en && p.2.fn == f).map fun p => p.2.slotUnits).flatten
  { x with
    parts := (x.parts.filter fun p => !(p.2.en && p.2.fn == f)),
    slots := (x.slots.map fun (u, t) => (u, if gone.contains u then { gen := t.gen } else t)) }

/-- Every slab returns to cache mode (R72), one that other functions fill, which run throughout (R362), as soon as it has drained; until then it takes no new use
(R74; log 32). A switch in progress ends as it would have. -/
def recallSlabs (s : State) (k : Nat) : State :=
  returnSlabs (s.modCluster k fun c =>
    { c with recalled := (c.modes.map (·.1)).filter fun i => c.mode i != 0 && !(c.slabPhase != 0 && c.swSlab == i) }) k

/-- Step 4: F's plaintext lines, pool partitions with their slots (their generations stand, R91), channels and queues; the slabs (R72). -/
def clearFunction (s : State) (f : Nat) : State :=
  let ids := (s.launches.filter fun l => l.fn == f).map (·.id)
  let s := dropLines ((s.clusters.map (·.1)).foldl (kForget fun y => y.fn == f) s) fun y => y.fn == f
  let s : State := { s with cores := (s.cores.map fun (c, (x : Core)) => (c, ({ x with
      chans := (x.chans.filter fun y => !ids.contains y.2.launch),
      queues := (x.queues.filter fun y => !ids.contains y.2.launch) } : Core))) }
  let s : State := { s with clusters := (s.clusters.map fun (k, x) => (k, clearParts f x)) }
  (s.clusters.map (·.1)).foldl recallSlabs s

/-- Step 5: F's keys are cleared, its enclaves destroyed. -/
def forgetFunction (s : State) (f : Nat) : State :=
  let s := { s with keys := s.keys.filter fun (k, y) => decide (k < 4) || y.fn != f }
  (s.enclaves.filter fun (_, x) => x.fn == f).foldl (fun s (e, x) => dropEnclave s e x) s

/-- Step 6: F's mappings, biases and guarded regions go, and with them its launches and its registers. -/
def revokeFunction (s : State) (f : Nat) : State :=
  let ids := (s.launches.filter fun l => l.fn == f).map (·.id)
  let s := (s.hall.filter fun x => x.2.owned && ids.contains x.2.owner).foldl (fun s x => disarm s x.1) s
  let s := keepTaint (refillDue (dropEntries (endFlip s f) fun e => e.fn == f))
  { s with
    walkers := [], funcs := s.funcs.set {} f {}, devBias := s.devBias.filter (fun x => x.2 != f + 1), regions := s.regions.filter (fun x => x.2.fn != f)
    launches := s.launches.filter (fun l => l.fn != f), saved := s.saved.filter fun v => !ids.contains v.launch }

/-- The reset of function F (R362), its record and the report of its completion. -/
def resetFunction (s : State) (f : Nat) : State :=
  let s := revokeFunction (forgetFunction (clearFunction (haltFunction s f) f) f) f
  let r : BookReq := { hd := word (9 + f * 2 ^ 16), args := [word f, 7], reset := some f }
  if bookFull s then { s with book := { s.book with pend := s.book.pend ++ [r] } } else putPending s r

/-- FUNCTION_LEVEL_RESET (R362): function `a`. -/
def execFunctionLevelReset (s : State) : Host.Outcome State Fault Refusal := .next (resetFunction s s.ev.a)

/-- TDISP_LEAVE_RUN (R349): the interface of function `a` leaves RUN, with the reset; to ERROR where `b` is 2, else to
CONFIG_UNLOCKED. -/
def execTdispLeaveRun (s : State) : Host.Outcome State Fault Refusal :=
  let f := s.ev.a
  .next (if (s.func f).tdisp = .run then (resetFunction s f).modFunc f fun x => { x with tdisp := if s.ev.b = 2 then .error else .unlocked } else s)

/-- TDISP_ENTER_RUN (R349): function `a`, from CONFIG_UNLOCKED by CONFIG_LOCKED, or from there; with `b` 1 no further than CONFIG_LOCKED. -/
def execTdispEnterRun (s : State) : Host.Outcome State Fault Refusal :=
  let f := s.ev.a
  .next (if s.ev.b = 1 then (if (s.func f).tdisp = .unlocked then s.modFunc f fun x => { x with tdisp := .locked } else s)
    else if (s.func f).tdisp = .unlocked ∨ (s.func f).tdisp = .locked then s.modFunc f fun x => { x with tdisp := .run } else s)

/-! ### Clean slate (R361) -/

/-- A free value of the run (log 12). -/
def drawFree (s : State) : State × Word := ({ s with freeCtr := s.freeCtr + 1 }, Config.freeValue s.freeCtr)

/-- A fresh nonce: a free value. -/
def drawNonce (s : State) : State × Word :=
  let (s, n) := drawFree s
  ({ s with mgmt := { s.mgmt with nonce := some n } }, n)

/-- The token's word i. -/
def tokenWord (s : State) (i : Nat) : Word := s.mgmt.token.get 0 i

/-- The token passes (R361 step 3): the debug key is the one whose digest is fused, and the signature holds under it. -/
def tokenOk (s : State) : Bool :=
  let bs := ((List.range 12).map fun i => natToLe 8 (tokenWord s i).toNat).flatten
  tokenWord s 0 == 0x4B534C54 && tokenWord s 1 == Config.serial && s.mgmt.nonce == some (tokenWord s 2) &&
  (tokenWord s 3 == 1 || tokenWord s 3 == 2) && sm3 (pointBytes (some Config.debugKey)) == Config.debugKeyDigest &&
  sm2Verify (some Config.debugKey) (sm3 (bs.take 32)) (BitVec.ofNat 512 (beToNat (bs.drop 32)))

/-- The wipe (R361 step 4): everything but HBM with its metadata and bias, the management block, the book, and what the model keeps of
its run; the clusters' dirty lines are lost with their caches; slots keep their generations (R91). `kmfmap` is no register of the block. -/
def wipe (s : State) : State :=
  let s := (s.clusters.map (·.1)).foldl (kForget fun _ => true) s
  { clock := s.clock, agenda := s.agenda, choices := s.choices, freeCtr := s.freeCtr, mem := s.mem, lines := s.lines, devBias := s.devBias
    sent := s.sent, book := s.book, mgmt := { s.mgmt with kmfmap := 0 }
    clusters := s.clusters.map fun (k, x) => (k, { slots := x.slots.map fun (u, t) => (u, { gen := t.gen }) }) }

/-- A token is submitted. -/
def submitToken (s : State) : State :=
  if bookFull s then s
  else
    let ok := tokenOk s
    let s := bookAppend s 7 0 0 0 [tokenWord s 2, tokenWord s 3, word (b2n (!ok))]
    let t := wipe s
    if !ok then s else { t with mgmt := { t.mgmt with mode := (tokenWord s 3).toNat, token := [] } }

/-- A write of doubleword i of SLATETOKEN. -/
def tokenTo (s : State) (i : Nat) (v : Word) : State :=
  let s := { s with mgmt := { s.mgmt with token := s.mgmt.token.set 0 i v } }
  if i = 11 then submitToken s else s

/-- SLATETOKEN_SUBMIT (R361): the host writes `w` to the last doubleword. -/
def execSlatetokenSubmit (s : State) : Host.Outcome State Fault Refusal := .next (tokenTo s 11 s.ev.w)

end Sys2Proof.Machine
end

