-- ==== Sys2Proof/Machine/Sysif.lean ====
section
/-!
DEFINITION. What lies outside the cores (R402 to R414): the launch-queue registers (R324), the MMIO range, start-up, the host's
memory accesses (R133, R405), Noham (R406 to R408), Ethernet (R409), clocks and health.
-/
namespace Sys2Proof.Machine

/-! ### `ktqbase` and `ktqctl` (R324) -/

/-- A queue that another function has enabled is closed to function `fn` (log 33). -/
def LaunchQ.closedTo (q : LaunchQ) (fn : Nat) : Bool := q.en && q.fn != fn

def ktqbaseRead (s : State) (fn q : Nat) : Word := if (s.queue q).closedTo fn then 0 else (s.queue q).base

/-- `ktqctl` as it reads. -/
def ktqctlRead (s : State) (fn q : Nat) : Word :=
  let x := s.queue q
  if x.closedTo fn then 0
  else word (b2n x.en * 2 ^ 63 + x.prio * 2 ^ 60 + x.lsize * 2 ^ 56 + b2n x.rerr * 2 ^ 55 + b2n x.cerr * 2 ^ 54 + x.head * 2 ^ 16 + x.tail)

/-- A write of `ktqbase`: before stage 2 (R410), and where it changes BASE while entries are pending, it is ignored. -/
def ktqbaseWrite (s : State) (fn q : Nat) (v : Word) : State :=
  let x := s.queue q
  let b := word (fld v 7 48 * 128)
  if !s.mgmt.s2 || x.closedTo fn || (x.ringHolds && b != x.base) then s else s.modQueue q fun x => { x with base := b }

/-- A write of `ktqctl`, likewise for LSIZE; TAIL is ignored of a function that is not in RUN (R349, R362). -/
def ktqctlWrite (s : State) (fn q : Nat) (v : Word) : State :=
  let x := s.queue q
  let l := if fld v 56 4 ≤ 12 then fld v 56 4 else x.lsize
  if !s.mgmt.s2 || x.closedTo fn || (x.ringHolds && l != x.lsize) then s
  else s.modQueue q fun x =>
    { x with en := bitOf v 63, prio := fld v 60 3, lsize := l, rerr := x.rerr && !bitOf v 55, cerr := x.cerr && !bitOf v 54
             tail := if (s.func fn).tdisp == .run then fld v 0 16 else x.tail, fn := if bitOf v 63 && !x.en then fn else x.fn }

/-! ### Ethernet rings (R409) -/

/-- Who writes a register of the MMIO range: the host, or a context with what a ring's TAIL captures of it. -/
structure Poster where
  host : Bool := true
  priv : Priv := .u
  bare : Bool := false
  kdom : BitVec 36 := 0
  taint : BitVec 16 := 0
  deriving DecidableEq, Repr

def Func.ring (f : Func) (r : Nat) : EthRing := f.rings.get {} r
def modRing (s : State) (fn r : Nat) (g : EthRing → EthRing) : State := s.modFunc fn fun f => { f with rings := f.rings.set {} r (g (f.ring r)) }

/-- The number of a ring's descriptors, and the place that TAIL names (log 34: TAIL is taken modulo it). -/
def EthRing.entries (r : EthRing) : Nat := r.size + 1
def EthRing.busy (r : EthRing) : Bool := r.head != r.tail % r.entries

/-- Doubleword i of a ring. -/
def ringRead (s : State) (fn r i : Nat) : Word :=
  let x := (s.func fn).ring r
  match i with
  | 0 => word (fld x.base 7 48 * 128)
  | 1 => word (b2n x.en * 2 ^ 63 + b2n x.rx * 2 ^ 62 + x.size)
  | 2 => word x.tail
  | _ => word x.head

/-- A write of doubleword i of a ring: RBASE is the canonical address of its bits (R17), TAIL captures its writer. -/
def ringWrite (s : State) (p : Poster) (fn r i : Nat) (v : Word) : State :=
  match i with
  | 0 => modRing s fn r fun x => { x with base := sext (word (fld v 7 48 * 128)) 55 }
  | 1 => if ((s.func fn).ring r).busy then s else modRing s fn r fun x => { x with en := bitOf v 63, rx := bitOf v 62, size := fld v 0 12 }
  | 2 => modRing s fn r fun x => { x with tail := fld v 0 16, priv := p.priv, bare := p.bare, kdom := p.kdom, taint := p.taint }
  | _ => s

/-- A port as the maker of a ring's accesses (log 26, log 34). -/
def portWho (s : State) (fn : Nat) (r : EthRing) : Who :=
  { hart := serviceHart 0, core := 0, priv := r.priv, kdom := r.kdom, fn := fn, eid := (s.core 0).kencl.toNat, taint := r.taint, bare := r.bare }

/-- The port has served a descriptor: its status, then HEAD. -/
def endDescriptor (s : State) (fn i : Nat) (r : EthRing) (st : Nat) : State :=
  modRing (unitWrite s (portWho s fn r) (r.base + word (32 * r.head + 10)) [BitVec.ofNat 8 st]).1 fn i fun x => { x with head := (r.head + 1) % r.entries }

/-- The guarded regions of function `fn` that hold a domain (R352). -/
def domRegions (s : State) (fn dom : Nat) : BitVec 16 :=
  BitVec.ofNat 16 (maskOf 16 fun g => (s.region g).en && (s.region g).fn == fn && (s.region g).doms.getLsbD dom)

/-- The regions that hold the DOM of a page (R352). -/
def pageRegions (s : State) (pa : Nat) : BitVec 16 :=
  (mappers s (pa / 65536)).foldl (fun m x => m ||| domRegions s x.1 (fld x.2.pte 56 8)) 0

/-- The regions of the pages that bytes are read from. -/
def readRegions (s : State) (w : Who) (va : Word) (n : Nat) : BitVec 16 :=
  if w.bare then (linesOf va.toNat n).foldl (fun m l => m ||| pageRegions s (128 * l)) 0 else (tileSegs va n).foldl (fun m g => match (pageFor s w .copy g.at_).2 with
    | .ok (e, _) => m ||| domRegions s w.fn e.dom
    | .error _ => m) 0

/-- The buffer and length of the descriptor at HEAD; none where it cannot be read. -/
def descriptor (s : State) (fn : Nat) (r : EthRing) : State × Option (Word × Nat) :=
  match unitRead s (portWho s fn r) (r.base + word (32 * r.head)) 32 with
  | (s, none) => (s, none)
  | (s, some bs) => (s, some (leWord (bs.take 8), leToNat ((bs.drop 8).take 2)))

/-- ETH_TRANSMIT (R409): port b div 16 takes the next descriptor of ring `b` of function `a`. -/
def execEthTransmit (s : State) : Host.Outcome State Fault Refusal :=
  let fn := s.ev.a
  let i := s.ev.b
  let r := (s.func fn).ring i
  .next (if !r.en || r.rx || !r.busy || flipsOpen s then s
    else match descriptor s fn r with
      | (s, none) => endDescriptor s fn i r 1
      | (s, some (va, n)) =>
        if 9216 < n then endDescriptor s fn i r 2
        else match unitRead s (portWho s fn r) va n with
          | (s, none) => endDescriptor s fn i r 1
          | (s, some bs) =>
            let e : Egress := { die := i / 32, cls := 2, mask := r.taint ||| readRegions s (portWho s fn r) va n, pa := i, bytes := bs }
            endDescriptor { s with egress := s.egress ++ [e] } fn i r 0)

/-- ETH_RECEIVE (R409): the frame `bytes` arrives for ring `b` of function `a`; without a descriptor for it the port drops it. -/
def execEthReceive (s : State) : Host.Outcome State Fault Refusal :=
  let fn := s.ev.a
  let i := s.ev.b
  let r := (s.func fn).ring i
  let bs := s.ev.bytes
  .next (if !r.en || !r.rx || !r.busy || flipsOpen s then s
    else match descriptor s fn r with
      | (s, none) => endDescriptor s fn i r 1
      | (s, some (va, n)) =>
        if n < bs.length ∨ 9216 < bs.length then endDescriptor s fn i r 2
        else
          let x := unitWrite s (portWho s fn r) va bs
          endDescriptor x.1 fn i r (if x.2 then 0 else 1))

/-- ETH_TAIL_DOORBELL (R409): the host writes TAIL `w` of ring `b` of function `a`; ignored outside RUN (R404). -/
def execEthTailDoorbell (s : State) : Host.Outcome State Fault Refusal :=
  .next (if (s.func s.ev.a).tdisp == .run then ringWrite s {} s.ev.a (s.ev.b % 64) 2 s.ev.w else s)

/-! ### The management block (R403) -/

/-- READY (R410). -/
def readyWord (m : Mgmt) : Word := word (m.fail.toNat * 2 ^ 56 + b2n m.s2 * 4 + b2n m.s1 * 2 + b2n m.s0)

/-- ISLST i (R413). -/
def islstWord (s : State) (i : Nat) : Word :=
  let x := s.island i
  word (x.temp % 256 * 2 ^ 40 + b2n (x.cap != 0) * 2 ^ 39 + b2n (x.power != 0) * 2 ^ 38 + b2n x.stretch * 2 ^ 37 + b2n (x.thermal != 0) * 2 ^ 36 +
    x.point * 2 ^ 24 + x.cap * 2 ^ 16 + (Config.islandProc i).toNat * 2 ^ 8 + x.droop)

def modIsland (s : State) (i : Nat) (f : Island → Island) : State :=
  { s with mgmt := { s.mgmt with islands := s.mgmt.islands.set {} i (f (s.island i)) } }

/-- A write of ISLST i: CAP, and DROOP cleared bit by bit. -/
def islstWrite (s : State) (i : Nat) (v : Word) : State :=
  modIsland s i fun x => { x with cap := fld v 16 3, droop := (BitVec.ofNat 8 x.droop &&& ~~~v.extractLsb' 0 8).toNat }

/-- ISLST_CAP_WRITE (R413): the host writes `w` to ISLST `a`. -/
def execIslstCapWrite (s : State) : Host.Outcome State Fault Refusal := .next (if s.ev.a < 128 then islstWrite s s.ev.a s.ev.w else s)

/-- Doubleword i of BOOKWIN (R360): the record that IDX names, or zero. Of a record sealed under a key that slot 1 no longer holds there is no plaintext:
the word is free (log 12, log 78). -/
def bookwinRead (s : State) (i : Nat) : State × Word :=
  let b := s.book
  if b.next ≤ b.idx ∨ b.next - b.idx > b.recs.length then (s, 0)
  else
    let r := nth {} b.recs (b.recs.length - (b.next - b.idx))
    if r.key = s.key 1 then (s, nth 0 r.words i) else drawFree s

/-- A read of the management block at an offset; a read of SLATENONCE draws the nonce (R361). -/
def mgmtRead (s : State) (o : Nat) : State × Word :=
  if o % 8 ≠ 0 then (s, 0)
  else if o = 0x200 then drawNonce s
  else if 0x180 ≤ o ∧ o < 0x200 then bookwinRead s ((o - 0x180) / 8)
  else (s,
    if o = 0x000 then readyWord s.mgmt
    else if o = 0x008 then word (b2n s.mgmt.podValid * 256 + s.mgmt.pod.toNat)
    else if o = 0x010 then s.mgmt.nohexp
    else if o = 0x018 then word s.mgmt.pwrlim
    else if o = 0x020 then word (s.mgmt.pwrnow % 2 ^ 16)
    else if o = 0x100 then word s.book.next
    else if o = 0x108 then word s.book.ack
    else if o = 0x110 then word s.book.idx
    else if o = 0x118 then b2w s.book.signReq
    else if 0x400 ≤ o ∧ o < 0x800 then islstWord s ((o - 0x400) / 8)
    else if 0x800 ≤ o ∧ o < 0x880 then word (s.mgmt.hbm.get 0 ((o - 0x800) / 8) % 256)
    else 0)

/-- A write of the management block at an offset. -/
def mgmtWrite (s : State) (o : Nat) (v : Word) : State :=
  if o % 8 ≠ 0 then s
  else if o = 0x010 then { s with mgmt := { s.mgmt with nohexp := word (fld v 21 31 * 2 ^ 21) } }
  else if o = 0x018 then { s with mgmt := { s.mgmt with pwrlim := max 1200 (min 2400 (fld v 0 16)) } }
  else if o = 0x108 then bookackTo s v
  else if o = 0x110 then { s with book := { s.book with idx := v.toNat } }
  else if o = 0x118 then booksignTo s v
  else if 0x280 ≤ o ∧ o < 0x2E0 then tokenTo s ((o - 0x280) / 8) v
  else if 0x400 ≤ o ∧ o < 0x800 then islstWrite s ((o - 0x400) / 8) v
  else s

/-! ### The MMIO range (R402, R404) -/

/-- A doubleword of function f's block. -/
def blockRead (s : State) (f o : Nat) : Word :=
  if o % 8 ≠ 0 then 0
  else if o = 0 then kbiasRead s f
  else if 0x100 ≤ o ∧ o < 0x500 then (if o % 16 = 0 then ktqbaseRead else ktqctlRead) s f ((o - 0x100) / 16)
  else if o = 0x800 then ktkillRead (s.func f)
  else if 0x1000 ≤ o ∧ o < 0x1800 then ringRead s f ((o - 0x1000) / 32) (o % 32 / 8)
  else 0

def blockWrite (s : State) (p : Poster) (f o : Nat) (v : Word) : RegOut :=
  if o % 8 ≠ 0 then .ok s
  else if o = 0 then kbiasWrite s f 8192 v
  else if 0x100 ≤ o ∧ o < 0x500 then .ok ((if o % 16 = 0 then ktqbaseWrite else ktqctlWrite) s f ((o - 0x100) / 16) v)
  else if o = 0x800 then ktkillWrite s f v
  else if 0x1000 ≤ o ∧ o < 0x1800 then .ok (ringWrite s p f ((o - 0x1000) / 32) (o % 32 / 8) v)
  else .ok s

/-- Offset 0x0C of Krovan's capability in function 0's configuration space mirrors READY (R410); the spec gives no other field of it. -/
def capRead (s : State) (o : Nat) : Word := if o = 0x0C then readyWord s.mgmt else 0

/-- An aligned doubleword of the MMIO range: the function blocks, the management block, zero elsewhere; a function outside RUN shows the
host nothing. -/
def mmioRead (s : State) (host : Bool) (pa : Nat) : State × Word :=
  let o := pa - 15 * 2 ^ 48
  let f := o / 2 ^ 32
  if f = 16 then mgmtRead s (o % 2 ^ 32)
  else if 16 < f ∨ (host ∧ (s.func f).tdisp ≠ .run) then (s, 0)
  else (s, blockRead s f (o % 2 ^ 32))

/-- A write of such a doubleword. -/
def mmioWrite (s : State) (p : Poster) (pa : Nat) (v : Word) : RegOut :=
  let o := pa - 15 * 2 ^ 48
  let f := o / 2 ^ 32
  if f = 16 then .ok (mgmtWrite s (o % 2 ^ 32) v)
  else if 16 < f ∨ (p.host ∧ (s.func f).tdisp ≠ .run) then .ok s
  else blockWrite s p f (o % 2 ^ 32) v

/-- SLATENONCE_READ (R361): the host reads SLATENONCE. The table has no other row for a host's reads of registers, so the event makes them all: `w` is the address in
the MMIO range of an aligned doubleword, 0 for SLATENONCE (R402), or, with `b` 1, an offset in Krovan's capability of function 0 (R410; log 16). -/
def execSlatenonceRead (s : State) : Host.Outcome State Fault Refusal :=
  let pa := if s.ev.w = 0 then 0xF001000000200 else s.ev.w.toNat
  if s.ev.b = 1 then .next (toHost s 0 s.ev.w.toNat (natToLe 8 (capRead s s.ev.w.toNat).toNat))
  else if pa < 15 * 2 ^ 48 ∨ pa % 8 ≠ 0 then .next s
  else
    let r := mmioRead s true pa
    .next (toHost r.1 0 pa (natToLe 8 r.2.toNat))

/-! ### Start-up (R410) and cold reset -/

/-- COLD_RESET (R410): the state of reset; the fuses (R358), the memories outside the device, and what the model keeps of its own run
stay (log 1, log 4). -/
def execColdReset (s : State) : Host.Outcome State Fault Refusal :=
  .next { State.reset with
    agenda := s.agenda, choices := s.choices, freeCtr := s.freeCtr, sent := s.sent, mem := s.mem.filter (fun x => decide (2 ^ 48 ≤ x.1))
    mgmt := { epoch := s.mgmt.epoch } }

/-- STAGE_0_COMPLETE (R410). -/
def execStage0Complete (s : State) : Host.Outcome State Fault Refusal :=
  .next (if s.mgmt.fail = 0 then { s with mgmt := { s.mgmt with s0 := true } } else s)

/-- The 384 bits of a key of R341: K1, K2 and MAC, each the highest 128 bits of a derived value. -/
def deviceKey (a b c : String) (ctx : List Byte) : BitVec 384 := trunc128 (derive a ctx) ++ trunc128 (derive b ctx) ++ trunc128 (derive c ctx)

/-- STAGE_1_COMPLETE (R410, R341, R357, R358): FAIL code `a`, 0 for success; `digest` is the firmware's SM3. A fuse is blown, the book
begins with its record; the keys of ids 1 and 2 belong to no function (log 30). -/
def execStage1Complete (s : State) : Host.Outcome State Fault Refusal :=
  let m := s.mgmt
  .next (if !m.s0 || m.s1 || m.fail ≠ 0 then s
    else if 1 ≤ s.ev.a ∧ s.ev.a ≤ 3 then { s with mgmt := { m with fail := BitVec.ofNat 8 s.ev.a } }
    else if 4096 ≤ m.epoch then { s with mgmt := { m with fail := 4 } }
    else
      let ep := natToLe 8 (m.epoch + 1)
      let s := { s with mgmt := { m with epoch := m.epoch + 1, fw := s.ev.digest, s1 := true }
                        book := { s.book with last := sm3 (natToLe 8 Config.serial.toNat ++ ep) } }
      bookAppend (loadKey s 1 255 0 (deviceKey "bok1" "bok2" "bokm" ep)) 6 0 0 0 (1 :: digestWords s.ev.digest ++ [0]))

/-- The lines of Mladotte's region that memory lists, but for the measured-frame map, sealed under key id 2 (R332; log 10). -/
def sealRegion (s : State) : State :=
  let ls := ((s.mem.map fun x => x.1 / 128).eraseDups).filter fun l => bareKey s (128 * l) == 2
  ls.foldl (fun s l => putLine s l (cellsOf (128 * l) 2 (rawBytes s (128 * l) 128))) s

/-- STAGE_2_COMPLETE (R410, R332): `a` = 5 where Mladotte's measurement fails; else `digest` is its measurement and `nums` the base and
size of its region, which PMP entries 0 and 1 of every hart lock from now on (`pmpSeen`), and which is sealed under key id 2; without a region there is nothing to lock, and
the stage has not ended. -/
def execStage2Complete (s : State) : Host.Outcome State Fault Refusal :=
  let m := s.mgmt
  .next (if !m.s1 || m.s2 || m.fail ≠ 0 then s
    else if s.ev.a = 5 then { s with mgmt := { m with fail := 5 } }
    else if bookFull s || nth 0 s.ev.nums 1 == 0 then s
    else
      let s := bookAppend s 6 0 0 0 (2 :: digestWords s.ev.digest ++ [0])
      sealRegion (loadKey { s with mgmt := { m with mlad := s.ev.digest, mlBase := nth 0 s.ev.nums 0, mlSize := nth 0 s.ev.nums 1, s2 := true } } 2 255 0
          (deviceKey "mld1" "mld2" "mldm" (digestBytes s.ev.digest))))

/-! ### The host's memory accesses (R133, R405) -/

/-- A page of HBM accepts host traffic: a function that maps it is in RUN (R349), or none maps it and function 0, which exposes the
window (R405), is (log 16). -/
def hostAccepts (s : State) (pa : Nat) : Bool :=
  let ms := mappers s (pa / 65536)
  if ms.isEmpty then (s.func 0).tdisp == .run else ms.any fun x => (s.func x.1).tdisp == .run

/-- A host CXL.mem access finds memory: after stage 2, HBM outside the reserved regions, of a function in RUN. -/
def hostBacked (s : State) (pa : Nat) : Bool := s.mgmt.s2 && paKind pa == .hbm && !inMladotte s pa && hostAccepts s pa

/-- HOST_CXL_MEM_READ (R133, R405): the host reads the 64 bytes of `a` on I/O die `b`: as they stand, sealed lines as ciphertext; all ones
where no memory answers; nothing of a poisoned line (log 16). An access to a page between biases waits (R135). -/
def execHostCxlMemRead (s : State) : Host.Outcome State Fault Refusal :=
  let pa := s.ev.a / 64 * 64
  let d := s.ev.b % 2
  .next (if !hostBacked s pa then { s with egress := s.egress ++ [{ die := d, pa := pa, bytes := List.replicate 64 0xFF }] }
    else if flipHeld s pa then { s with agenda := s.agenda ++ [.event .hostCxlMemRead s.ev] }
    else { s with egress := s.egress ++ [{ die := d, mask := pageRegions s pa, pa := pa, bytes := if poisonAt s pa 64 then [] else rawBytes s pa 64 }] })

/-- Bytes that an agent outside the package writes at their home: every cached copy leaves, the bytes go in as they stand, with no tag (R65); a nonzero
byte ends a line's zero mark, a line wholly written is poison no more (R66, R71); reservations end. -/
def outerWrite (s : State) (pa : Nat) (bs : List Byte) : State :=
  let ls := linesOf pa bs.length
  let s := ls.foldl (fun s l => s.modLine l fun m =>
    { m with tag := 0, zero := m.zero && bs.all (· == 0), psn := m.psn && !(decide (pa ≤ 128 * l) && decide (128 * l + 128 ≤ pa + bs.length)) }) (putRaw (ls.foldl homeWrite s) pa bs)
  breakResv s 8192 ls

/-- HOST_CXL_MEM_WRITE (R133, R405): the host writes `bytes` at `a`. -/
def execHostCxlMemWrite (s : State) : Host.Outcome State Fault Refusal :=
  let pa := s.ev.a
  .next (if !hostBacked s pa then s
    else if flipHeld s pa then { s with agenda := s.agenda ++ [.event .hostCxlMemWrite s.ev] }
    else outerWrite s pa (s.ev.bytes.take (64 - pa % 64)))

/-- HOST_CXL_CACHE_SNOOP (R133, R61, R124): the host recalls its window's line at `a`, which leaves the L2 and the clusters, dirty data first; with `b` nonzero
it takes the line and writes `bytes` there, and the device's later reads meet them. -/
def execHostCxlCacheSnoop (s : State) : Host.Outcome State Fault Refusal :=
  let pa := s.ev.a / 64 * 64
  .next (if paKind pa ≠ .host then s
    else if s.ev.b ≠ 0 then outerWrite s pa (s.ev.bytes.take 64)
    else homeWrite s (pa / 128))

/-! ### Noham (R406 to R408) -/

/-- LINK_TRAINING (R406): link `a` trains, the switch assigns the device number `b` and reports which devices the pod has. -/
def execLinkTraining (s : State) : Host.Outcome State Fault Refusal :=
  .next (if s.ev.a < 24 ∧ s.ev.b < 192 then
      let links := s.mgmt.links.set false s.ev.a true
      { s with mgmt := { s.mgmt with links := links, podValid := true, pod := BitVec.ofNat 8 s.ev.b, peers := s.ev.nums } }
    else s)

/-- The I/O die of a transaction that leaves over Noham, over the links that are up (R407): a peer access by its plane, an answer to a peer by the lowest link (log 16). -/
def nohamDie (s : State) (pa : Nat) : Nat :=
  match paKind pa with
  | .peer _ => ioDie s pa
  | _ => if (List.range 12).any fun k => s.mgmt.links.get false k then 0 else 1

/-- A line of a peer window whose read has not come back becomes poison where a cluster or an L1 has it clean (R407). -/
def loseRead (s : State) (pl : Nat) : State :=
  { s with
    clusters := s.clusters.map fun (k, x) => (k, { x with cache := x.cache.map fun (i, l) => (i, l.map fun y => if y.pl = pl ∧ !y.isDirty then { y with psn := true } else y) })
    cores := s.cores.map fun (c, x) => (c, { x with l1 := x.l1.map fun y => if y.pl = pl then { y with psn := true } else y }) }

/-- LINK_FAILURE (R407): link `a` fails. What waits to leave is replayed on the recomputed plane; the reads of the peer-window lines at `nums` cannot be, and
complete as poison: an access is one step here, so the line that it has brought in is poison for the next that reads it (log 16). -/
def execLinkFailure (s : State) : Host.Outcome State Fault Refusal :=
  let s : State := { s with mgmt := { s.mgmt with links := s.mgmt.links.set false s.ev.a false } }
  let s : State := { s with egress := s.egress.map fun e => if e.cls = 1 then { e with die := nohamDie s e.pa } else e }
  .next ((s.ev.nums.filter fun pa => isPeer (pa / 128)).foldl (fun s pa => loseRead s (pa / 128)) s)

/-- The bit of a page in the export bitmap. -/
def exported (s : State) (pa : Nat) : Bool := (rawByte s (s.mgmt.nohexp.toNat + pa / 65536 / 8)).getLsbD (pa / 65536 % 8)

/-- A peer access is accepted (R408, R347). -/
def peerAccepts (s : State) (pa : Nat) : Bool :=
  s.mgmt.podValid && paKind pa == .hbm && !inMladotte s pa && (mappers s (pa / 65536)).all (fun x => fld x.2.pte 10 10 == 0) && exported s pa

/-- PEER_ACCESS_ARRIVAL (R408): a peer reads `b` bytes at `a`, or, with `w` nonzero, writes `bytes` there. A refused read gets poison (an
empty answer, log 16), a refused write is dropped. -/
def execPeerAccessArrival (s : State) : Host.Outcome State Fault Refusal :=
  let pa := s.ev.a
  let d := nohamDie s pa
  .next (if s.ev.w ≠ 0 then (if peerAccepts s pa then outerWrite s pa (s.ev.bytes.take (65536 - pa % 65536)) else s)
    else if peerAccepts s pa then
      let n := min s.ev.b (65536 - pa % 65536)
      { s with egress := s.egress ++ [{ die := d, cls := 1, mask := pageRegions s pa, pa := pa, bytes := if poisonAt s pa n then [] else rawBytes s pa n }] }
    else { s with egress := s.egress ++ [{ die := d, cls := 1, pa := pa }] })

/-! ### Clocks and health (R411 to R414) -/

/-- The thermal source's request (R412); from 95 °C to 100 °C it stands as it is. -/
def thermalRequest (x : Island) : Nat := if 100 ≤ x.temp then min 7 (x.point + 1) else if x.temp < 95 then x.point - 1 else x.thermal

/-- An island at a boundary: its new requests, then the highest; whether the thermal or the power source has changed POINT. -/
def Island.govern (x : Island) (temp : Nat) (above hot : Bool) : Island × Bool :=
  let x := { x with temp := temp }
  let y := { x with thermal := thermalRequest x, power := if above then (if hot then min 7 (x.power + 1) else x.power) else x.power - 1 }
  let p := max (max y.thermal y.power) y.cap
  ({ y with point := p }, if x.point < p then max y.thermal y.power == p else p != x.point && max x.thermal x.power == x.point)

/-- Island i at a 1 ms boundary (R412). -/
def governIsland (above : Bool) (hot : List Byte) (temps : List Nat) (s : State) (i : Nat) : State :=
  let x := s.island i
  let r := x.govern (nth x.temp temps i) above (hot.any fun b => b.toNat == i)
  let s := modIsland s i fun _ => r.1
  if r.2 then raiseIntr s (serviceHart (i / 16)) 21 else s

/-- The trip (R414): the core rails are cut, FAIL says so, and the device holds (`stopped`). -/
def trip (s : State) : State := { s with mgmt := { s.mgmt with railsCut := true, fail := 6 } }

/-- OPERATING_POINT_UPDATE (R412, R413): at a 1 ms boundary not yet served, with the temperatures `nums` of the 128 islands and the 16
stacks, PWRNOW `a`, and in `bytes` the islands of the highest power. A sensor at 115 °C trips the device instead (R414). -/
def execOperatingPointUpdate (s : State) : Host.Outcome State Fault Refusal :=
  .next (if s.time / 100000 ≤ s.mgmt.msDone then s
    else
      let hbm := (List.range 16).foldl (fun (m : SMap Nat) k => m.set 0 k (nth (m.get 0 k) s.ev.nums (128 + k))) s.mgmt.hbm
      let s := { s with mgmt := { s.mgmt with msDone := s.mgmt.msDone + 1, pwrnow := s.ev.a, hbm := hbm } }
      if (s.ev.nums.take 144).any (115 ≤ ·) then trip ((List.range 128).foldl (fun s i => modIsland s i fun x => { x with temp := nth x.temp s.ev.nums i }) s)
      else (List.range 128).foldl (governIsland (decide (s.mgmt.pwrlim < s.ev.a)) s.ev.bytes s.ev.nums) s)

/-- 64 clocks of an island at half the clock of its operating point, in reference clocks, rounded up (R411, R412). -/
def stretchClocks (point : Nat) : Nat := (128 * 21 + 20 - 2 * point) / (21 - 2 * point)

/-- DROOP_DETECTOR_FIRE (R412, R413): island `a`. -/
def execDroopDetectorFire (s : State) : Host.Outcome State Fault Refusal :=
  .next (if s.ev.a < 128 then modIsland s s.ev.a fun x => { x with droop := min 255 (x.droop + 1), stretch := true, till := s.clock + stretchClocks x.point } else s)

/-- DROOP_STRETCH_END (R412): island `a`, once the 64 island clocks have passed. -/
def execDroopStretchEnd (s : State) : Host.Outcome State Fault Refusal :=
  .next (if (s.island s.ev.a).stretch ∧ (s.island s.ev.a).till ≤ s.clock then modIsland s s.ev.a fun x => { x with stretch := false } else s)

/-- THERMAL_TRIP (R414): a sensor of island `a`, or of HBM stack `a` - 128, reads `b`; at 115 °C the core rails are cut. -/
def execThermalTrip (s : State) : Host.Outcome State Fault Refusal :=
  let t := if s.ev.a < 128 then modIsland s s.ev.a fun x => { x with temp := s.ev.b }
    else { s with mgmt := { s.mgmt with hbm := s.mgmt.hbm.set 0 (s.ev.a % 16) s.ev.b } }
  .next (if 115 ≤ s.ev.b then trip t else s)

end Sys2Proof.Machine
end

