-- ==== Sys2Proof/Machine/Csr.lean ====
section
/-!
DEFINITION. The CSRs: the standard ones (R177, R178, R18), the custom ones (R204, R205 and the rules it names), and the Zicsr
instructions that reach them. `h` is the hart that executes the instruction.
-/
namespace Sys2Proof.Machine

/-! ### Fields that R178 fixes -/

def medelegMask : Word := word (maskOf 64 fun i => i ≤ 9 || i == 12 || i == 13 || i == 15 || (decide (24 ≤ i) && decide (i ≤ 31)) || (decide (48 ≤ i) && decide (i ≤ 50)))
def midelegMask : Word := word (maskOf 64 fun i => i == 1 || i == 5 || i == 9 || (decide (16 ≤ i) && decide (i ≤ 21)))
def mieMask : Word := midelegMask ||| 0x888

/-- The writable bits of `mstatus` apart from MPP: SIE, MIE, SPIE, MPIE, SPP, FS, MPRV, MXR, TVM, TW, TSR. -/
def mstatusMask : Word := 0x7A61AA

/-- The bits of `mstatus` that `sstatus` shows: SIE, SPIE, SPP, FS, XS, MXR; of these XS is read-only. -/
def sstatusMask : Word := 0x9E122
def sstatusWrite : Word := 0x86122

/-- `mstatus` as it reads: SXL and UXL 2, SD where FS or XS is dirty. -/
def mstatusOf (c : Csrs) : Word :=
  c.mstatus ||| 0xA00000000 ||| (if fld c.mstatus 13 2 = 3 ∨ fld c.mstatus 15 2 = 3 then 0x8000000000000000 else 0)

def sstatusOf (c : Csrs) : Word := mstatusOf c &&& (sstatusMask ||| 0x8000000300000000)

/-- The bits of `old` outside a mask, of `v` inside. -/
def under (mask old v : Word) : Word := (old &&& ~~~mask) ||| (v &&& mask)

/-- A write of `mstatus`; MPP holds 0, 1 or 3, and a write of 2 leaves it (log 9). -/
def mstatusTo (c : Csrs) (v : Word) : Csrs :=
  let m := under mstatusMask c.mstatus v
  { c with mstatus := if fld v 11 2 = 2 then m else setFld m 11 2 (fld v 11 2) }

/-- A write of a trap vector: MODE 2 or 3 leaves MODE (R178). -/
def tvecTo (old v : Word) : Word := if fld v 0 2 ≤ 1 then v else (v &&& ~~~3) ||| (old &&& 3)

/-- A write of `mip` under a mask of its software-writable bits: SSIP, STIP without Sstc, SEIP; bits 19 to 21 only clear (R315). -/
def mipTo (c : Csrs) (mask v : Word) : Csrs :=
  let soft : Word := if bitOf c.menvcfg 63 then 0x202 else 0x222
  { c with mip := under (mask &&& soft) c.mip v &&& (v ||| ~~~(mask &&& 0x380000)) }

/-- `cycle` counts the clocks of the core's island while it counts (R178, R412). -/
def cycleOf (s : State) (h : Nat) (c : Csrs) : Word := if bitOf c.mcountinhibit 0 then c.mcycle else c.mcycle + word (s.islandClock (coreOf h))
def cycleTo (s : State) (h : Nat) (c : Csrs) (v : Word) : Csrs :=
  { c with mcycle := if bitOf c.mcountinhibit 0 then v else v - word (s.islandClock (coreOf h)) }

/-- A write of `mcountinhibit`: `cycle` stands or goes on from its value. -/
def inhibitTo (s : State) (h : Nat) (c : Csrs) (v : Word) : Csrs := cycleTo s h { c with mcountinhibit := v &&& 5 } (cycleOf s h c)

/-! ### PMP (R178, R332; log 10) -/

def pmpLocked (c : Csrs) (i : Nat) : Bool := (c.pmpcfg.get 0 i).getLsbD 7 && !bitOf c.mseccfg 2

/-- Entry i makes its upper neighbour's region top-of-range. -/
def pmpTor (c : Csrs) (i : Nat) : Bool := (c.pmpcfg.get 0 i).toNat / 8 % 4 == 1

/-- A write of an entry's configuration byte: a locked entry keeps it; A = NA4 leaves A, R = 0 with W = 1 is kept out without MML, and under
MML a locked entry does not gain X. -/
def pmpcfgTo (c : Csrs) (i : Nat) (b : BitVec 8) : Csrs :=
  let old := c.pmpcfg.get 0 i
  let b := b &&& 0x9F
  let b := if b.toNat / 8 % 4 = 2 then (b &&& 0xE7) ||| (old &&& 0x18) else b
  let mml := bitOf c.mseccfg 0
  let x := if b.getLsbD 0 || !b.getLsbD 1 then b.getLsbD 2 else true
  if pmpLocked c i || (!mml && !b.getLsbD 0 && b.getLsbD 1) || (mml && !bitOf c.mseccfg 2 && b.getLsbD 7 && x && !(b &&& 7 == 7)) then c
  else { c with pmpcfg := c.pmpcfg.set 0 i b }

/-- `pmpcfg` 2j, eight bytes. -/
def pmpcfgRead (c : Csrs) (j : Nat) : Word := leWord ((List.range 8).map fun i => c.pmpcfg.get 0 (8 * j + i))
def pmpcfgWrite (c : Csrs) (j : Nat) (v : Word) : Csrs := (List.range 8).foldl (fun c i => pmpcfgTo c (8 * j + i) (BitVec.ofNat 8 (fld v (8 * i) 8))) c

/-- `pmpaddr` i as it reads at a granularity of 4 KiB. -/
def pmpaddrRead (c : Csrs) (i : Nat) : Word :=
  let a := c.pmpaddr.get 0 i
  if 2 ≤ (c.pmpcfg.get 0 i).toNat / 8 % 4 then a ||| 0x1FF else a &&& ~~~0x3FF

def pmpaddrWrite (c : Csrs) (i : Nat) (v : Word) : Csrs :=
  if pmpLocked c i || (pmpLocked c (i + 1) && pmpTor c (i + 1)) then c else { c with pmpaddr := c.pmpaddr.set 0 i (v &&& 0x3FFFFFFFFFFFF) }

/-- A write of `mseccfg`: MML and MMWP stay set; RLB cannot be set once an entry is locked. -/
def mseccfgTo (c : Csrs) (v : Word) : Csrs :=
  let rlb := bitOf v 2 && (bitOf c.mseccfg 2 || (List.range 64).all fun i => !(c.pmpcfg.get 0 i).getLsbD 7)
  { c with mseccfg := (c.mseccfg &&& 3) ||| (v &&& 3) ||| (if rlb then 4 else 0) }

/-! ### The standard CSRs -/

/-- The value of a standard CSR; none where there is none. -/
def stdRead (s : State) (h n : Nat) : Option Word :=
  let x := s.hart h
  let c := x.csr
  match n with
  | 0x001 => some (word x.fflags.toNat)
  | 0x002 => some (word x.frm.toNat)
  | 0x003 => some (word (x.frm.toNat * 32 + x.fflags.toNat))
  | 0xC00 => some (cycleOf s h c)
  | 0xC01 => some (word s.time)
  | 0xC02 => some c.minstret
  | 0x100 => some (sstatusOf c)
  | 0x104 => some (c.mie &&& c.mideleg)
  | 0x105 => some c.stvec
  | 0x106 => some c.scounteren
  | 0x10A => some c.senvcfg
  | 0x140 => some c.sscratch
  | 0x141 => some c.sepc
  | 0x142 => some c.scause
  | 0x143 => some c.stval
  | 0x144 => some (mipOf s h &&& c.mideleg)
  | 0x14D => some c.stimecmp
  | 0x180 => some (word (c.satpMode.toNat * 2 ^ 60 + fld (s.func x.fn).kroot 12 40))
  | 0x300 => some (mstatusOf c)
  | 0x301 => some 0x800000000094112D
  | 0x302 => some c.medeleg
  | 0x303 => some c.mideleg
  | 0x304 => some c.mie
  | 0x305 => some c.mtvec
  | 0x306 => some c.mcounteren
  | 0x30A => some c.menvcfg
  | 0x320 => some c.mcountinhibit
  | 0x340 => some c.mscratch
  | 0x341 => some c.mepc
  | 0x342 => some c.mcause
  | 0x343 => some c.mtval
  | 0x344 => some (mipOf s h)
  | 0x747 => some (pmpSeen s c).mseccfg
  | 0xB00 => some (cycleOf s h c)
  | 0xB02 => some c.minstret
  | 0xF11 => some 0
  | 0xF12 => some 9
  | 0xF13 => some 0x101
  | 0xF14 => some (word h)
  | 0xF15 => some 0
  | n =>
    if (0x323 ≤ n ∧ n ≤ 0x33F) ∨ (0xB03 ≤ n ∧ n ≤ 0xB1F) then some 0
    else if 0x3A0 ≤ n ∧ n ≤ 0x3AE ∧ n % 2 = 0 then some (pmpcfgRead (pmpSeen s c) ((n - 0x3A0) / 2))
    else if 0x3B0 ≤ n ∧ n ≤ 0x3EF then some (pmpaddrRead (pmpSeen s c) (n - 0x3B0))
    else none

/-- The standard CSRs of a hart after a write to one of those that hold only its own state. -/
def csrsTo (s : State) (h : Nat) (c : Csrs) (n : Nat) (v : Word) : Csrs :=
  match n with
  | 0x100 => { c with mstatus := under sstatusWrite c.mstatus v }
  | 0x104 => { c with mie := under c.mideleg c.mie v }
  | 0x105 => { c with stvec := tvecTo c.stvec v }
  | 0x106 => { c with scounteren := v &&& 7 }
  | 0x10A => { c with senvcfg := v &&& 1 }
  | 0x140 => { c with sscratch := v }
  | 0x141 => { c with sepc := v &&& ~~~1 }
  | 0x142 => { c with scause := v }
  | 0x143 => { c with stval := v }
  | 0x144 => mipTo c (c.mideleg &&& ~~~0x220) v
  | 0x14D => { c with stimecmp := v }
  | 0x180 => if fld v 60 4 = 0 ∨ fld v 60 4 = 15 then { c with satpMode := v.extractLsb' 60 4 } else c
  | 0x300 => mstatusTo c v
  | 0x302 => { c with medeleg := v &&& medelegMask }
  | 0x303 => { c with mideleg := v &&& midelegMask }
  | 0x304 => { c with mie := v &&& mieMask }
  | 0x305 => { c with mtvec := tvecTo c.mtvec v }
  | 0x306 => { c with mcounteren := v &&& 7 }
  | 0x30A => { c with menvcfg := v &&& 0x8000000000000001 }
  | 0x320 => inhibitTo s h c v
  | 0x340 => { c with mscratch := v }
  | 0x341 => { c with mepc := v &&& ~~~1 }
  | 0x342 => { c with mcause := v }
  | 0x343 => { c with mtval := v }
  | 0x344 => mipTo c (~~~0) v
  | 0x747 => mseccfgTo (pmpSeen s c) v
  | 0xB00 => cycleTo s h c v
  | 0xB02 => { c with minstret := v }
  | n =>
    if 0x3A0 ≤ n ∧ n ≤ 0x3AE then pmpcfgWrite (pmpSeen s c) ((n - 0x3A0) / 2) v
    else if 0x3B0 ≤ n ∧ n ≤ 0x3EF then pmpaddrWrite (pmpSeen s c) (n - 0x3B0) v
    else c

/-- A write of a standard CSR. -/
def stdWrite (s : State) (h n : Nat) (v : Word) : State :=
  match n with
  | 0x001 => (setFflags s h (v.extractLsb' 0 5)).modHart h fun x => x.setFs 3
  | 0x002 => s.modHart h fun x => ({ x with frm := v.extractLsb' 0 3 }).setFs 3
  | 0x003 => (setFflags s h (v.extractLsb' 0 5)).modHart h fun x => ({ x with frm := v.extractLsb' 5 3 }).setFs 3
  | n => s.modHart h fun x => { x with csr := csrsTo s h x.csr n v }

/-! ### Custom CSRs of a hart, a core, a cluster -/

/-- `kdom` (R20): the context that runs under it gains the taint of its new set (R351); M mode has every enabled region already. -/
def kdomWrite (s : State) (h : Nat) (v : Word) : State :=
  let d := v.extractLsb' 0 36
  let x := s.hart h
  bindTaint (s.modHart h fun x => { x with k := { x.k with kdom := d } }) h (regionMask s x.fn d (if x.priv = .m then .u else x.priv))

/-- A change of a hart's custom CSRs. -/
def modK (s : State) (h : Nat) (f : Kcsrs → Kcsrs) : State := s.modHart h fun x => { x with k := f x.k }

/-- A change of the lane-side state of a hart (R180). -/
def modLane (s : State) (h : Nat) (f : Hart → Hart) : State := s.modHart h fun x => (f x).dirtyXs

/-- `kflagsum` (R150). -/
def kflagsumOf (s : State) (k : Nat) : Word :=
  let live := (clusterCores k).foldl (fun m c => (coreHarts c).foldl (fun m h => m ||| (s.hart h).fflags) m) (0 : BitVec 5)
  word (live.toNat * 2 ^ 16 + (s.cluster k).sticky.toNat)

/-- `khctl` (R168, R171). -/
def khctlRead (y : Channel) : Word :=
  word (b2n y.en * 2 ^ 63 + y.prio * 2 ^ 60 + y.k * 2 ^ 56 + y.conc * 2 ^ 52 + y.maxp * 2 ^ 47 + b2n y.pinen * 2 ^ 46 + y.pin * 2 ^ 42 + y.eprio * 2 ^ 39 + y.launch)

/-- A write of `khctl`: EPRIO becomes PRIO and its count restarts (R171); a new LAUNCH brings what the binder recorded for that
launch, its domain set and tables (R170; log 35). -/
def khctlWrite (s : State) (c ch : Nat) (v : Word) : State :=
  s.modCore c fun k => k.modChan ch fun y =>
    let y := { y with en := bitOf v 63, prio := fld v 60 3, k := fld v 56 4, conc := fld v 52 4, maxp := min 16 (fld v 47 5), pinen := bitOf v 46
                      pin := fld v 42 4, eprio := fld v 60 3, passes := 0 }
    if fld v 0 16 = y.launch then y
    else match s.launch? (fld v 0 16) with
      | some l => { y with launch := l.id, kdom := l.kdom, kxtab := l.kxtab }
      | none => { y with launch := fld v 0 16, kdom := 0, kxtab := 0 }

/-- `kchq` (R276); zero for channel 63. -/
def kchqRead (y : Channel) (ch : Nat) : Word :=
  if ch = 63 then 0
  else word (b2n y.err * 2 ^ 63 + b2n (y.rcnt != 0) * 2 ^ 62 + y.rcnt * 2 ^ 32 + y.drop * 2 ^ 24 + y.hw.length * 2 ^ 16 + y.depth)

/-- A write of `kchq`: ERR cleared by 1, DROP, and DEPTH where it may change. -/
def kchqWrite (s : State) (c ch : Nat) (v : Word) : State :=
  if ch = 63 then s
  else
    let y := (s.core c).chan ch
    let d := fld v 0 7
    let back := s.modCore c fun k => k.modChan ch fun y => { y with ents := [] }
    let ok := y.hw.isEmpty && y.rcnt == 0 && (d == 0 || (decide (4 ≤ d) && decide (d ≤ 64))) && decide (d ≤ entriesFree back (clusterOf c))
    s.modCore c fun k => k.modChan ch fun y =>
      { y with err := y.err && !bitOf v 63, drop := fld v 24 8, depth := if ok then d else y.depth, byBinder := y.byBinder && !ok
               ents := if ok then allotEntries back (clusterOf c) d else y.ents }

/-- `kchring` (R277). -/
def kchringRead (y : Channel) : Word := word (y.lsize * 2 ^ 60) + (y.base &&& 0x7FFFFFFFFFFF80)

def kchringWrite (s : State) (c ch : Nat) (v : Word) : State :=
  s.modCore c fun k => k.modChan ch fun y =>
    if y.rcnt ≠ 0 then y
    else { y with lsize := if 1 ≤ fld v 60 4 ∧ fld v 60 4 ≤ 3 then y.lsize else fld v 60 4, base := word (fld v 7 48 * 128), head := 0, tail := 0 }

/-- `kqctl` (R281). -/
def kqctlRead (y : HwQueue) : Word := word (b2n y.en * 2 ^ 63 + y.vals.length * 2 ^ 32 + y.launch * 2 ^ 16 + y.units)

def kqctlWrite (s : State) (c q : Nat) (v : Word) : State :=
  let y := (s.core c).q q
  let u := fld v 0 7
  let l := fld v 16 16
  let back := s.modCore c fun k => k.modQ q fun y => { y with ents := [] }
  if (!y.vals.isEmpty && (u != y.units || l != y.launch)) || (bitOf v 63 && u == 0) || decide (entriesFree back (clusterOf c) < u) then s
  else s.modCore c fun k => k.modQ q fun y =>
    { y with en := bitOf v 63, launch := l, units := u, ents := if u = y.units ∧ !y.vals.isEmpty then y.ents else allotEntries back (clusterOf c) u }

/-- A request of the core targets watermark channel i (R298). -/
def wmBusy (s : State) (c i : Nat) : Bool := (reqsOf s c).any fun x => x.2.ct == 4 && x.2.tgt == i

/-- A write of one of the selected watermark channel's registers (R298). -/
def wmWrite (s : State) (c i : Nat) (f : WmChan → WmChan) : State := if wmBusy s c i then s else s.modCore c fun k => k.modWm i f

/-- The class of a hart that is bound to one. -/
def myClass (s : State) (h : Nat) : ClassRec := s.cls (classOf s h)

/-- The value of a custom CSR; none where none has the number (R205). `kpoolev` changes the state as it is read. -/
def customRead (s : State) (h n : Nat) : Option Word :=
  let x := s.hart h
  let k := x.k
  let c := coreOf h
  let y := (s.core c).chan k.khsel.toNat
  let w := (s.core c).wmc k.kwmsel.toNat
  let cl := clusterOf c
  match n with
  | 0x800 => some (word x.kmsd)
  | 0x819 => some (word k.kclst.toNat)
  | 0xCC0 => some k.kwid
  | 0xCC1 => some k.kwidw
  | 0xCC2 => some (word (cl * 2 ^ 16 + h))
  | 0xCC3 => some k.kclass
  | 0xCC4 => some k.kmhdr
  | 0xCC5 => some (word (s.core c).kscrpass)
  | 0xCC6 => some (kflagsumOf s cl)
  | 0xCC7 => some k.kwlim
  | 0xCC8 => some (myClass s h).bbown
  | 0xCC9 => some k.kargs
  | 0xCCA => some (kcfcOf x false)
  | 0xCCB => some (kcfcOf x true)
  | 0x5C0 => some (word k.kdom.toNat)
  | 0x5C2 => some (ktinvRead (s.func x.fn))
  | 0x5C3 => some (word k.kflane.toNat)
  | 0x5C4 => some (s.func x.fn).kroot
  | 0x5C8 => some (kslabRead (s.cluster cl))
  | 0x5C9 => some (word (s.cluster cl).kpoolto.toNat)
  | 0x5CA => some (word k.kpsel.toNat)
  | 0x5CB => some (kpartRead s cl (k.kpsel.toNat % 64))
  | 0x5CC => some (kpownRead s cl (k.kpsel.toNat % 64) (k.kpsel.toNat / 256))
  | 0x5CD => some (kpoolevRead s (dieOfCore c)).1
  | 0x5CE => some (kbiasRead s x.fn)
  | 0x5CF => some k.kxtab
  | 0x5D0 => some 0
  | 0x5D1 => some (word k.khsel.toNat)
  | 0x5D2 => some y.pc
  | 0x5D3 => some (khctlRead y)
  | 0x5D4 => some (kchqRead y k.khsel.toNat)
  | 0x5D5 => some (kchringRead y)
  | 0x5D6 => some (word k.kqsel.toNat)
  | 0x5D7 => some (kqctlRead ((s.core c).q k.kqsel.toNat))
  | 0x5D9 => some k.kcpst
  | 0x5DA => some (word k.kwmsel.toNat)
  | 0x5DB => some (word w.base &&& 0x7FFFFFFFFFFF80)
  | 0x5DC => some (word w.len)
  | 0x5DD => some (word (w.st * 2 ^ 62 + w.wm))
  | 0x9C0 => some (word k.ksibsel.toNat)
  | 0x9C1 => some (ksibctlRead s h)
  | 0x9C2 => some (ksibdataRead s h)
  | 0x9C8 => some (kpreRead s h)
  | 0x9C9 => some k.kcsave
  | 0x9CA => some k.kcsarea
  | 0x9E0 => some (word k.ktqsel.toNat)
  | 0x9E1 => some (ktqbaseRead s x.fn k.ktqsel.toNat)
  | 0x9E2 => some (ktqctlRead s x.fn k.ktqsel.toNat)
  | 0x9E8 => some (ktkillRead (s.func x.fn))
  | 0x7C0 => some (word (s.core c).kencl.toNat)
  | 0x7C1 => some (kflushRead (s.core c))
  | 0x7C2 => some s.mgmt.kmfmap
  | 0x7C4 => some (word k.kksel.toNat)
  | 0x7C5 => some k.kkctl
  | 0x7C6 => some k.kkdat
  | 0x7D0 => some (word k.khmsel.toNat)
  | 0x7D1 => some (khmctlOf (s.region (selRegion k.khmsel)))
  | 0x7D2 => some (khmdomOf (s.region (selRegion k.khmsel)) (selWord k.khmsel))
  | 0x7D3 => some (khmrateOf ((s.region (selRegion k.khmsel)).bucket (selClass k.khmsel) (selDie k.khmsel)))
  | 0x7D4 => some (khmlvlOf (((refillDue s).region (selRegion k.khmsel)).bucket (selClass k.khmsel) (selDie k.khmsel)))
  | 0x7D5 => some (word (taintOf s h).toNat)
  | n =>
    if 0x801 ≤ n ∧ n ≤ 0x810 then some (word (x.kms.get 0 (n - 0x801)).toNat)
    else if 0x811 ≤ n ∧ n ≤ 0x818 then some (word (x.getM (n - 0x811)).toNat)
    else if 0x5E0 ≤ n ∧ n ≤ 0x5EF then some (word ((s.core c).kev.get 0 (n - 0x5E0)))
    else none

/-- A write of a custom CSR. -/
def customWrite (s : State) (h n : Nat) (v : Word) : RegOut :=
  let x := s.hart h
  let k := x.k
  let c := coreOf h
  let cl := clusterOf c
  match n with
  | 0x800 => .ok (if fld v 0 5 ≤ 16 then modLane s h fun x => { x with kmsd := fld v 0 5 } else s)
  | 0x819 => .ok (modLane s h fun x => { x with k := { x.k with kclst := kclstWarl v } })
  | 0x5C0 => .ok (kdomWrite s h v)
  | 0x5C2 => ktinvWrite s x.fn v
  | 0x5C4 => .ok (krootWrite s x.fn v)
  | 0x5C8 => kslabWrite s cl v
  | 0x5C9 => .ok (s.modCluster cl fun y => { y with kpoolto := v.extractLsb' 0 32 })
  | 0x5CA => .ok (modK s h fun k => { k with kpsel := v.extractLsb' 0 11 &&& 0x73F })
  | 0x5CB => .ok (kpartWrite s cl (k.kpsel.toNat % 64) v)
  | 0x5CC => .ok (kpownWrite s cl (k.kpsel.toNat % 64) (k.kpsel.toNat / 256) v)
  | 0x5CE => kbiasWrite s x.fn h v
  | 0x5CF => .ok (modK s h fun k => { k with kxtab := v &&& 0x7FFFFFFFFFF801 })
  | 0x5D0 => .ok (s.modCluster cl fun y => { y with sticky := y.sticky &&& ~~~v.extractLsb' 0 5 })
  | 0x5D1 => .ok (modK s h fun k => { k with khsel := v.extractLsb' 0 6 })
  | 0x5D2 => .ok (s.modCore c fun y => y.modChan k.khsel.toNat fun z => { z with pc := v &&& ~~~1 })
  | 0x5D3 => .ok (khctlWrite s c k.khsel.toNat v)
  | 0x5D4 => .ok (kchqWrite s c k.khsel.toNat v)
  | 0x5D5 => .ok (kchringWrite s c k.khsel.toNat v)
  | 0x5D6 => .ok (modK s h fun k => { k with kqsel := v.extractLsb' 0 5 })
  | 0x5D7 => .ok (kqctlWrite s c k.kqsel.toNat v)
  | 0x5D9 => .ok (modK s h fun k => { k with kcpst := v })
  | 0x5DA => .ok (modK s h fun k => { k with kwmsel := v.extractLsb' 0 4 })
  | 0x5DB => .ok (wmWrite s c k.kwmsel.toNat fun w => { w with base := (sext v 55).toNat / 128 * 128 })
  | 0x5DC => .ok (wmWrite s c k.kwmsel.toNat fun w => { w with len := fld v 0 41 })
  | 0x5DD => .ok (wmWrite s c k.kwmsel.toNat fun w => { w with wm := fld v 0 41, st := fld v 62 2, total := fld v 0 41 })
  | 0x9C0 => .ok (modK s h fun k => { k with ksibsel := v.extractLsb' 0 27 &&& 0x7FF000F })
  | 0x9C1 => .ok (ksibctlWrite s h v)
  | 0x9C2 => .ok (ksibdataWrite s h v)
  | 0x9C8 => .ok (kpreWrite s h v)
  | 0x9C9 => if bitOf v 63 && flipsOpen s then .wait else .ok (kcsaveWrite s h v)
  | 0x9CA => .ok (modK s h fun k => { k with kcsarea := word (fld v 7 48 * 128) })
  | 0x9E0 => .ok (modK s h fun k => { k with ktqsel := v.extractLsb' 0 6 })
  | 0x9E1 => .ok (ktqbaseWrite s x.fn k.ktqsel.toNat v)
  | 0x9E2 => .ok (ktqctlWrite s x.fn k.ktqsel.toNat v)
  | 0x9E8 => ktkillWrite s x.fn v
  | 0x7C0 => .ok (s.modCore c fun y => { y with kencl := v.extractLsb' 0 16 })
  | 0x7C1 => kflushWrite s c v
  | 0x7C2 => .ok (if s.mgmt.s2 then s else { s with mgmt := { s.mgmt with kmfmap := word (fld v 16 36 * 2 ^ 16) } })
  | 0x7C4 => .ok (modK s h fun k => { k with kksel := v.extractLsb' 0 10 })
  | 0x7C5 => .ok (kkctlWrite s h v)
  | 0x7C6 => .ok (modK s h fun k => { k with kkdat := v })
  | 0x7D0 => .ok (modK s h fun k => { k with khmsel := v.extractLsb' 0 12 &&& 0xE3F })
  | 0x7D1 => .ok (khmctlWrite s h v)
  | 0x7D2 => .ok (khmdomWrite s h v)
  | 0x7D3 => .ok (khmrateWrite s h v)
  | n =>
    if 0x801 ≤ n ∧ n ≤ 0x810 then .ok (modLane s h fun x => { x with kms := x.kms.set 0 (n - 0x801) (v.extractLsb' 0 32) })
    else if 0x811 ≤ n ∧ n ≤ 0x818 then .ok (modLane s h fun x => x.setM (n - 0x811) (v.extractLsb' 0 32))
    else if 0x5E0 ≤ n ∧ n ≤ 0x5EF then .ok (s.modCore c fun y => { y with kev := y.kev.set 0 (n - 0x5E0) (fld v 0 48) })
    else .ok s

/-! ### The Zicsr instructions -/

/-- A number of RISC-V's custom CSR ranges that this device uses (R204). -/
def customCsr (n : Nat) : Bool :=
  (decide (0x800 ≤ n) && decide (n < 0x900)) || (decide (0xCC0 ≤ n) && decide (n < 0xD00)) || (decide (0x5C0 ≤ n) && decide (n < 0x600)) ||
  (decide (0x9C0 ≤ n) && decide (n < 0xA00)) || (decide (0x7C0 ≤ n) && decide (n < 0x800))

def csrRead (s : State) (h n : Nat) : Option Word := if customCsr n then customRead s h n else stdRead s h n
def csrWrite (s : State) (h n : Nat) (v : Word) : RegOut := if customCsr n then customWrite s h n v else .ok (stdWrite s h n v)

/-- A counter's CSR is open to a mode (`mcounteren`, `scounteren`). -/
def counterOpen (x : Hart) (i : Nat) : Bool := x.priv == .m || (bitOf x.csr.mcounteren i && (x.priv == .s || bitOf x.csr.scounteren i))

/-- The conditions beside the mode under which the RISC-V privileged architecture lets a CSR be reached: FS for the floating-point CSRs, TVM for
`satp`, the counter enables, STCE and TM for `stimecmp`. -/
def csrOpen (x : Hart) (n : Nat) : Bool :=
  match n with
  | 0x001 | 0x002 | 0x003 => x.fs != 0
  | 0x180 => !(x.priv == .s && bitOf x.csr.mstatus 20)
  | 0xC00 => counterOpen x 0
  | 0xC01 => counterOpen x 1
  | 0xC02 => counterOpen x 2
  | 0x14D => x.priv == .m || (bitOf x.csr.mcounteren 1 && bitOf x.csr.menvcfg 63)
  | _ => true


/-- The instruction writes: `csrrw` always, the others with a source field other than 0. -/
def csrWrites (o : CsrOp) : Bool := o.kind == .rw || o.src != 0

/-- The instruction reads: all but `csrrw` into x0. -/
def csrReads (o : CsrOp) : Bool := o.kind != .rw || o.rd != 0

/-- The source operand: a register, or the field itself. -/
def csrSource (x : Hart) (o : CsrOp) : Word := if o.imm then word o.src.toNat else x.getX o.src.toNat

/-- The value written. -/
def csrNew (o : CsrOp) (old src : Word) : Word :=
  match o.kind with
  | .rw => src
  | .rs => old ||| src
  | .rc => old &&& ~~~src

/-- Whether the access is legal (R204): the number's bits [9:8] give the lowest mode, bits [11:10] = 11 forbid a write. -/
def csrLegal (x : Hart) (n : Nat) (o : CsrOp) : Bool := decide (n / 256 % 4 ≤ x.priv.code) && !(n / 1024 == 3 && csrWrites o) && csrOpen x n

/-- The side of a read: `kpoolev` clears the bit that it reports (R103). -/
def afterRead (s : State) (h n : Nat) (o : CsrOp) : State := if n = 0x5CD ∧ csrReads o then (kpoolevRead s (dieOfCore (coreOf h))).2 else s

/-- A Zicsr instruction on the current hart. The instruction retires before the write takes effect, so that a write of `instret` or of the
hart's own state stands; a write that must wait stalls the hart with nothing done. -/
def csrInstr (n : Nat) (o : CsrOp) (s : State) : Host.Outcome State Fault Refusal :=
  match (if csrLegal s.me n o then csrRead s s.cur n else none) with
  | none => illegalNow s
  | some old =>
    let v := csrNew o old (csrSource s.me o)
    let t := retire ((afterRead s s.cur n o).modMe fun h => h.setX o.rd.toNat old)
    if !csrWrites o then .next t
    else match csrWrite t s.cur n v with
      | .ok u => .next u
      | .wait f => .next (f (s.modMe fun h => { h with wait := .stall }))

/-- KROOT_WRITE (R19). -/
def execKrootWrite (o : CsrOp) (s : State) : Host.Outcome State Fault Refusal := csrInstr 0x5C4 o s
/-- KDOM_WRITE (R21). -/
def execKdomWrite (o : CsrOp) (s : State) : Host.Outcome State Fault Refusal := csrInstr 0x5C0 o s
/-- KTINV_GO (R37). -/
def execKtinvGo (o : CsrOp) (s : State) : Host.Outcome State Fault Refusal := csrInstr 0x5C2 o s
/-- KSLAB_GO (R73). -/
def execKslabGo (o : CsrOp) (s : State) : Host.Outcome State Fault Refusal := csrInstr 0x5C8 o s
/-- KSLAB_ABORT (R74). -/
def execKslabAbort (o : CsrOp) (s : State) : Host.Outcome State Fault Refusal := csrInstr 0x5C8 o s
/-- KPART_WRITE (R93). -/
def execKpartWrite (o : CsrOp) (s : State) : Host.Outcome State Fault Refusal := csrInstr 0x5CB o s
/-- KPOWN_WRITE (R93). -/
def execKpownWrite (o : CsrOp) (s : State) : Host.Outcome State Fault Refusal := csrInstr 0x5CC o s
/-- KPOOLEV_READ (R103). -/
def execKpoolevRead (o : CsrOp) (s : State) : Host.Outcome State Fault Refusal := csrInstr 0x5CD o s
/-- KBIAS_GO (R134). -/
def execKbiasGo (o : CsrOp) (s : State) : Host.Outcome State Fault Refusal := csrInstr 0x5CE o s
/-- KFLAGCLR_WRITE (R150). -/
def execKflagclrWrite (o : CsrOp) (s : State) : Host.Outcome State Fault Refusal := csrInstr 0x5D0 o s
/-- KHCTL_WRITE (R168, R171). -/
def execKhctlWrite (o : CsrOp) (s : State) : Host.Outcome State Fault Refusal := csrInstr 0x5D3 o s
/-- KCHQ_DEPTH_WRITE (R276). -/
def execKchqDepthWrite (o : CsrOp) (s : State) : Host.Outcome State Fault Refusal := csrInstr 0x5D4 o s
/-- KCHQ_ERR_CLEAR (R279). -/
def execKchqErrClear (o : CsrOp) (s : State) : Host.Outcome State Fault Refusal := csrInstr 0x5D4 o s
/-- KCHRING_WRITE (R277). -/
def execKchringWrite (o : CsrOp) (s : State) : Host.Outcome State Fault Refusal := csrInstr 0x5D5 o s
/-- KQCTL_WRITE (R281). -/
def execKqctlWrite (o : CsrOp) (s : State) : Host.Outcome State Fault Refusal := csrInstr 0x5D7 o s
/-- KSIBCTL_HALT (R318). -/
def execKsibctlHalt (o : CsrOp) (s : State) : Host.Outcome State Fault Refusal := csrInstr 0x9C1 o s
/-- KSIBCTL_RESUME (R318). -/
def execKsibctlResume (o : CsrOp) (s : State) : Host.Outcome State Fault Refusal := csrInstr 0x9C1 o s
/-- KSIBDATA_WRITE (R317). -/
def execKsibdataWrite (o : CsrOp) (s : State) : Host.Outcome State Fault Refusal := csrInstr 0x9C2 o s
/-- KPRE_DONE (R322). -/
def execKpreDone (o : CsrOp) (s : State) : Host.Outcome State Fault Refusal := csrInstr 0x9C8 o s
/-- KCSAVE_SAVE (R321). -/
def execKcsaveSave (o : CsrOp) (s : State) : Host.Outcome State Fault Refusal := csrInstr 0x9C9 o s
/-- KCSAVE_RESTORE (R321). -/
def execKcsaveRestore (o : CsrOp) (s : State) : Host.Outcome State Fault Refusal := csrInstr 0x9C9 o s
/-- KTQCTL_TAIL_WRITE (R324). -/
def execKtqctlTailWrite (o : CsrOp) (s : State) : Host.Outcome State Fault Refusal := csrInstr 0x9E2 o s
/-- KTQCTL_RERR_CLEAR (R324). -/
def execKtqctlRerrClear (o : CsrOp) (s : State) : Host.Outcome State Fault Refusal := csrInstr 0x9E2 o s
/-- KTKILL_GO (R329). -/
def execKtkillGo (o : CsrOp) (s : State) : Host.Outcome State Fault Refusal := csrInstr 0x9E8 o s
/-- KFLUSH_GO (R335). -/
def execKflushGo (o : CsrOp) (s : State) : Host.Outcome State Fault Refusal := csrInstr 0x7C1 o s
/-- KKCTL_ERASE (R343, R345). -/
def execKkctlErase (o : CsrOp) (s : State) : Host.Outcome State Fault Refusal := csrInstr 0x7C5 o s
/-- KKCTL_DERIVE (R343). -/
def execKkctlDerive (o : CsrOp) (s : State) : Host.Outcome State Fault Refusal := csrInstr 0x7C5 o s
/-- KKCTL_UNWRAP (R344). -/
def execKkctlUnwrap (o : CsrOp) (s : State) : Host.Outcome State Fault Refusal := csrInstr 0x7C5 o s
/-- KKCTL_REBIND (R343). -/
def execKkctlRebind (o : CsrOp) (s : State) : Host.Outcome State Fault Refusal := csrInstr 0x7C5 o s
/-- KKCTL_QUERY (R343). -/
def execKkctlQuery (o : CsrOp) (s : State) : Host.Outcome State Fault Refusal := csrInstr 0x7C5 o s
/-- KHMCTL_WRITE (R350, R355). -/
def execKhmctlWrite (o : CsrOp) (s : State) : Host.Outcome State Fault Refusal := csrInstr 0x7D1 o s
/-- KHMDOM_WRITE (R350). -/
def execKhmdomWrite (o : CsrOp) (s : State) : Host.Outcome State Fault Refusal := csrInstr 0x7D2 o s
/-- KHMRATE_WRITE (R350). -/
def execKhmrateWrite (o : CsrOp) (s : State) : Host.Outcome State Fault Refusal := csrInstr 0x7D3 o s
/-- PMP_WRITE (R332): the cluster gate's mirror is the core's PMP itself. -/
def execPmpWrite (num : BitVec 12) (o : CsrOp) (s : State) : Host.Outcome State Fault Refusal := csrInstr num.toNat o s

/-- REGISTER_WRITE (R8): a Zicsr instruction on a register without a row of its own, or a write of the host to the MMIO range (R402); a host
write that must wait is offered again. -/
def execRegisterWrite (w : RegWrite) (s : State) : Host.Outcome State Fault Refusal :=
  match w with
  | .csr num o => csrInstr num.toNat o s
  | .mmio pa v =>
    if pa < 15 * 2 ^ 48 ∨ pa % 8 ≠ 0 then .next s
    else match mmioWrite s {} pa v with
      | .ok t => .next t
      | .wait f => .next { f s with agenda := s.agenda ++ [.event (.registerWrite (.mmio pa v)) s.ev] }

end Sys2Proof.Machine
end

