-- ==== Sys2Proof/Machine/LaneCross.lean ====
section
/-!
DEFINITION. Compares into masks and cross-lane forms, group 011 (R224, R228 to R231, R154).
-/
namespace Sys2Proof.Machine

/-! ### Compares (R224) -/

/-- An integer compare: bit l of m[d] in each active lane. -/
def cmpOp (f : L64) (g : Nat → Nat → Nat → Bool) (s : State) : Host.Outcome State Fault Refusal :=
  laneOp f (fun h ls =>
    let w := widthOf f
    h.setMaskLanes f.d.toNat ls fun l => g w (h.elem w f.a.toNat l) (operandB h f w l)) s

/-- `lcmp.eq` (R224). -/
def execLcmpEq (f : L64) (s : State) : Host.Outcome State Fault Refusal := cmpOp f (fun _ a b => a == b) s

/-- `lcmp.ne` (R224). -/
def execLcmpNe (f : L64) (s : State) : Host.Outcome State Fault Refusal := cmpOp f (fun _ a b => a != b) s

/-- `lcmp.lt` (R224). -/
def execLcmpLt (f : L64) (s : State) : Host.Outcome State Fault Refusal := cmpOp f (fun w a b => decide (toS w a < toS w b)) s

/-- `lcmp.ge` (R224). -/
def execLcmpGe (f : L64) (s : State) : Host.Outcome State Fault Refusal := cmpOp f (fun w a b => decide (toS w b ≤ toS w a)) s

/-- `lcmp.ltu` (R224). -/
def execLcmpLtu (f : L64) (s : State) : Host.Outcome State Fault Refusal := cmpOp f (fun _ a b => decide (a < b)) s

/-- `lcmp.geu` (R224). -/
def execLcmpGeu (f : L64) (s : State) : Host.Outcome State Fault Refusal := cmpOp f (fun _ a b => decide (b ≤ a)) s

/-- A floating-point compare by its relation: 0 eq, 1 lt, 2 le, 3 un (R224). -/
def fcmpOp (rel : Nat) (f : L64) (s : State) : Host.Outcome State Fault Refusal :=
  fpOp f false (fun h ls _ =>
    let w := widthOf f
    let r := fun l => fCmp (fmtOf f.ty) rel (h.elem w f.a.toNat l) (h.elem w f.b.toNat l)
    { hart := h.setMaskLanes f.d.toNat ls fun l => (r l).1, flags := ls.foldl (fun n l => n ||| (r l).2) 0 }) s

/-- `lfcmp.eq` (R224). -/
def execLfcmpEq (f : L64) (s : State) : Host.Outcome State Fault Refusal := fcmpOp 0 f s

/-- `lfcmp.lt` (R224). -/
def execLfcmpLt (f : L64) (s : State) : Host.Outcome State Fault Refusal := fcmpOp 1 f s

/-- `lfcmp.le` (R224). -/
def execLfcmpLe (f : L64) (s : State) : Host.Outcome State Fault Refusal := fcmpOp 2 f s

/-- `lfcmp.un` (R224). -/
def execLfcmpUn (f : L64) (s : State) : Host.Outcome State Fault Refusal := fcmpOp 3 f s

/-! ### Shuffles (R228) -/

/-- Operand b of a shuffle: an unsigned 32-bit value, in one register under `.d` too. -/
def shflB (h : Hart) (f : L64) (l : Nat) : Nat := operandB h f 32 l

/-- A shuffle by its source-lane rule. -/
def shflOp (f : L64) (src : Nat → Nat → Nat) (s : State) : Host.Outcome State Fault Refusal :=
  laneOp f (fun h ls =>
    let w := widthOf f
    h.setLanes w f.d.toNat ls fun l => h.elem w f.a.toNat (src l (shflB h f l))) s

/-- `lshfl.idx` (R228). -/
def execLshflIdx (f : L64) (s : State) : Host.Outcome State Fault Refusal := shflOp f (fun _ b => b % 32) s

/-- `lshfl.up`: lane l - b, or l where that lies outside (R228). -/
def execLshflUp (f : L64) (s : State) : Host.Outcome State Fault Refusal := shflOp f (fun l b => if b ≤ l then l - b else l) s

/-- `lshfl.dn`: lane l + b, or l where that lies outside (R228). -/
def execLshflDn (f : L64) (s : State) : Host.Outcome State Fault Refusal := shflOp f (fun l b => if l + b < 32 then l + b else l) s

/-- `lshfl.xor` (R228). -/
def execLshflXor (f : L64) (s : State) : Host.Outcome State Fault Refusal := shflOp f (fun l b => l ^^^ (b % 32)) s

/-! ### Reductions (R229, R154) -/

/-- An integer reduction of the active lanes into x[d], sign-extended from W. -/
def redOp (f : L64) (g : Nat → Nat → Nat → Nat) (s : State) : Host.Outcome State Fault Refusal :=
  laneOp f (fun h ls =>
    let w := widthOf f
    match ls.map fun l => h.elem w f.a.toNat l with
    | [] => h
    | v :: vs => h.setX f.d.toNat (sext (word (vs.foldl (g w) v)) w)) s

/-- `lred.add` (R229). -/
def execLredAdd (f : L64) (s : State) : Host.Outcome State Fault Refusal := redOp f (fun w a b => (a + b) % 2 ^ w) s

/-- `lred.min`, signed (R229). -/
def execLredMin (f : L64) (s : State) : Host.Outcome State Fault Refusal := redOp f (fun w a b => if toS w b < toS w a then b else a) s

/-- `lred.max`, signed (R229). -/
def execLredMax (f : L64) (s : State) : Host.Outcome State Fault Refusal := redOp f (fun w a b => if toS w a < toS w b then b else a) s

/-- `lred.and` (R229). -/
def execLredAnd (f : L64) (s : State) : Host.Outcome State Fault Refusal := redOp f (fun _ a b => a &&& b) s

/-- `lred.or` (R229). -/
def execLredOr (f : L64) (s : State) : Host.Outcome State Fault Refusal := redOp f (fun _ a b => a ||| b) s

/-- `lred.xor` (R229). -/
def execLredXor (f : L64) (s : State) : Host.Outcome State Fault Refusal := redOp f (fun _ a b => a ^^^ b) s

/-- A node of the tree of R154: both inputs combined, or the present one passed on. -/
def treeNode (g : Nat → Nat → FRes) (x y : Option FRes) : Option FRes :=
  match x, y with
  | some a, some b => some ((a.after b).after (g a.bits b.bits))
  | some a, none => some a
  | none, y => y

/-- One level of the tree: neighbours in lane order. -/
def treeLevel (g : Nat → Nat → FRes) : List (Option FRes) → List (Option FRes)
  | x :: y :: r => treeNode g x y :: treeLevel g r
  | r => r

/-- The balanced tree over lanes 0 to 31 (R154): five levels. -/
def treeSum (g : Nat → Nat → FRes) (l : List (Option FRes)) : Option FRes :=
  ((treeLevel g (treeLevel g (treeLevel g (treeLevel g (treeLevel g l))))).head?).join

/-- A floating-point reduction into x[d]: FP32 NaN-boxed (R229). -/
def fredOp (f : L64) (rounds : Bool) (g : Nat → Nat → Nat → FRes) (s : State) : Host.Outcome State Fault Refusal :=
  fpOp f rounds (fun h ls rm =>
    let w := widthOf f
    match treeSum (g rm) ((List.range 32).map fun l => if ls.contains l then some { bits := h.elem w f.a.toNat l } else none) with
    | none => { hart := h }
    | some r =>
      { hart := h.setX f.d.toNat (if w = 32 then word (r.bits + (2 ^ 32 - 1) * 2 ^ 32) else word r.bits), flags := r.flags, cnt := r.cnt }) s

/-- `lred.fadd` (R154, R229). -/
def execLredFadd (f : L64) (s : State) : Host.Outcome State Fault Refusal :=
  fredOp f true (fun rm a b => fAdd (fmtOf f.ty) rm false a b) s

/-- `lred.fmin` (R154, R229). -/
def execLredFmin (f : L64) (s : State) : Host.Outcome State Fault Refusal :=
  fredOp f false (fun _ a b => fMinMax (fmtOf f.ty) false a b) s

/-- `lred.fmax` (R154, R229). -/
def execLredFmax (f : L64) (s : State) : Host.Outcome State Fault Refusal :=
  fredOp f false (fun _ a b => fMinMax (fmtOf f.ty) true a b) s

/-! ### Prefixes (R230, R231) -/

/-- The inclusive prefixes of a list of (lane, element): the first passed on, each later one combined with the one before. -/
def prefixes (g : Nat → Nat → FRes) : Option FRes → List (Nat × Nat) → List (Nat × FRes)
  | _, [] => []
  | none, (l, v) :: r => (l, { bits := v }) :: prefixes g (some { bits := v }) r
  | some p, (l, v) :: r => let q := p.after (g p.bits v); (l, q) :: prefixes g (some q) r

/-- The value that a list of (lane, result) gives a lane. -/
def lookupLane (rs : List (Nat × FRes)) (l : Nat) : Nat := ((rs.find? fun p => p.1 == l).map fun p => p.2.bits).getD 0

/-- `lscan.add` (R230). -/
def execLscanAdd (f : L64) (s : State) : Host.Outcome State Fault Refusal :=
  laneOp f (fun h ls =>
    let w := widthOf f
    let rs := prefixes (fun a b => { bits := (a + b) % 2 ^ w }) none (ls.map fun l => (l, h.elem w f.a.toNat l))
    h.setLanes w f.d.toNat ls (lookupLane rs)) s

/-- `lscan.fadd` (R154, R230). -/
def execLscanFadd (f : L64) (s : State) : Host.Outcome State Fault Refusal :=
  fpOp f true (fun h ls rm =>
    let w := widthOf f
    let rs := prefixes (fAdd (fmtOf f.ty) rm false) none (ls.map fun l => (l, h.elem w f.a.toNat l))
    { hart := h.setLanes w f.d.toNat ls (lookupLane rs), flags := allFlags (rs.map (·.2)), cnt := allCnt (rs.map (·.2)) }) s

/-- `lcomp`: a plus the number of active lanes below (R231). -/
def execLcomp (f : L64) (s : State) : Host.Outcome State Fault Refusal :=
  laneOp f (fun h ls => h.setLanes 32 f.d.toNat ls fun l =>
    (h.elem 32 f.a.toNat l + (ls.filter fun k => decide (k < l)).length) % 2 ^ 32) s

end Sys2Proof.Machine
end

