-- ==== Sys2Proof/Machine/LaneFp.lean ====
section
/-!
DEFINITION. The lane floating-point forms, group 001 (R219 to R223).
-/
namespace Sys2Proof.Machine

/-- md 110 (R220, R221). -/
def fpSat (f : L64) : Bool := f.md == 6

/-- `lfadd` (R220). -/
def execLfadd (f : L64) (s : State) : Host.Outcome State Fault Refusal :=
  fpMap f true (fun rm x a b _ => fAdd x rm (fpSat f) a b) s

/-- `lfsub` (R220). -/
def execLfsub (f : L64) (s : State) : Host.Outcome State Fault Refusal :=
  fpMap f true (fun rm x a b _ => fSub x rm (fpSat f) a b) s

/-- `lfmul` (R220). -/
def execLfmul (f : L64) (s : State) : Host.Outcome State Fault Refusal :=
  fpMap f true (fun rm x a b _ => fMul x rm (fpSat f) a b) s

/-- `lffma`: a × b + c (R220). -/
def execLffma (f : L64) (s : State) : Host.Outcome State Fault Refusal :=
  fpMap f true (fun rm x a b c => fMa x rm (fpSat f) false false a b c) s

/-- `lffms`: a × b - c (R220). -/
def execLffms (f : L64) (s : State) : Host.Outcome State Fault Refusal :=
  fpMap f true (fun rm x a b c => fMa x rm (fpSat f) false true a b c) s

/-- `lfnma`: -(a × b) + c (R220). -/
def execLfnma (f : L64) (s : State) : Host.Outcome State Fault Refusal :=
  fpMap f true (fun rm x a b c => fMa x rm (fpSat f) true false a b c) s

/-- `lfdiv` (R220). -/
def execLfdiv (f : L64) (s : State) : Host.Outcome State Fault Refusal :=
  fpMap f true (fun rm x a b _ => fDiv x rm (fpSat f) a b) s

/-- `lfsqrt` (R220). -/
def execLfsqrt (f : L64) (s : State) : Host.Outcome State Fault Refusal :=
  fpMap f true (fun rm x a _ _ => fSqrt x rm a) s

/-- `lfrcp` (R221). -/
def execLfrcp (f : L64) (s : State) : Host.Outcome State Fault Refusal :=
  fpMap f true (fun rm x a _ _ => fRcp x rm (fpSat f) a) s

/-- `lfrsq` (R221). -/
def execLfrsq (f : L64) (s : State) : Host.Outcome State Fault Refusal :=
  fpMap f true (fun rm x a _ _ => fRsq x rm a) s

/-- `lfex2` (R221). -/
def execLfex2 (f : L64) (s : State) : Host.Outcome State Fault Refusal :=
  fpMap f true (fun rm x a _ _ => fEx2 x rm (fpSat f) a) s

/-- `lflg2` (R221). -/
def execLflg2 (f : L64) (s : State) : Host.Outcome State Fault Refusal :=
  fpMap f true (fun rm x a _ _ => fLg2 x rm a) s

/-- `lfsin` (R221). -/
def execLfsin (f : L64) (s : State) : Host.Outcome State Fault Refusal :=
  fpMap f true (fun rm x a _ _ => fTrig x rm false a) s

/-- `lfcos` (R221). -/
def execLfcos (f : L64) (s : State) : Host.Outcome State Fault Refusal :=
  fpMap f true (fun rm x a _ _ => fTrig x rm true a) s

/-- `lfmin` (R222). -/
def execLfmin (f : L64) (s : State) : Host.Outcome State Fault Refusal :=
  fpMap f false (fun _ x a b _ => fMinMax x false a b) s

/-- `lfmax` (R222). -/
def execLfmax (f : L64) (s : State) : Host.Outcome State Fault Refusal :=
  fpMap f false (fun _ x a b _ => fMinMax x true a b) s

/-- `lfabs`: the sign cleared (R222). -/
def execLfabs (f : L64) (s : State) : Host.Outcome State Fault Refusal :=
  fpMap f false (fun _ x a _ _ => { bits := a % 2 ^ (x.width - 1) }) s

/-- `lfneg`: the sign inverted (R222). -/
def execLfneg (f : L64) (s : State) : Host.Outcome State Fault Refusal :=
  fpMap f false (fun _ x a _ _ => { bits := (a + 2 ^ (x.width - 1)) % 2 ^ x.width }) s

/-- `lfsgnj`: a with the sign of b (R222). -/
def execLfsgnj (f : L64) (s : State) : Host.Outcome State Fault Refusal :=
  fpMap f false (fun _ x a b _ => { bits := a % 2 ^ (x.width - 1) + b / 2 ^ (x.width - 1) * 2 ^ (x.width - 1) }) s

/-- `lfclass` (R222). -/
def execLfclass (f : L64) (s : State) : Host.Outcome State Fault Refusal :=
  fpMap f false (fun _ x a _ _ => { bits := fClass x a }) s

/-- `lfround`: NX only with md 110 (R222). -/
def execLfround (f : L64) (s : State) : Host.Outcome State Fault Refusal :=
  fpMap f true (fun rm x a _ _ => fRound x rm (fpSat f) a) s

/-! ### Conversions (R223) -/

/-- The value of an element of a conversion type. -/
def cvtValue (code bits : Nat) : FVal :=
  match code with
  | 0 => fp32.decode bits
  | 1 => fp64.decode bits
  | 2 => fp16.decode bits
  | 3 => bf16.decode bits
  | 4 => ofInt (toS 32 bits)
  | 5 => ofInt bits
  | 6 => e4m3.decode bits
  | _ => e5m2.decode bits

/-- A value converted to a conversion type (R151). -/
def cvtTo (code rm : Nat) (md6 : Bool) (v : FVal) : FRes :=
  match code with
  | 0 => toFloat fp32 rm md6 v
  | 1 => toFloat fp64 rm md6 v
  | 2 => toFloat fp16 rm md6 v
  | 3 => toFloat bf16 rm md6 v
  | 4 => toInt 32 true rm v
  | 5 => toInt 32 false rm v
  | 6 => toFloat e4m3 rm md6 v
  | _ => toFloat e5m2 rm md6 v

/-- The bits of an element of a conversion type. -/
def cvtBits (code : Nat) : Nat := 32 * Sys2Proof.L64.cvtWidth code / Sys2Proof.L64.cvtCount code

/-- Element k of a group of registers starting at r, in lane l. -/
def cvtElem (h : Hart) (code r l k : Nat) : Nat :=
  if code = 1 then h.elem 64 (r + 2 * k) l
  else
    let per := Sys2Proof.L64.cvtCount code
    (h.getV (r + k / per) l).toNat / 2 ^ (cvtBits code * (k % per)) % 2 ^ cvtBits code

/-- The register words that n results make in one lane: each register's number and value. -/
def cvtPack (code d n : Nat) (r : Nat → Nat) : List (Nat × Nat) :=
  if code = 1 then ((List.range n).map fun k => [(d + 2 * k, r k % 2 ^ 32), (d + 2 * k + 1, r k / 2 ^ 32)]).flatten
  else
    let per := Sys2Proof.L64.cvtCount code
    (List.range ((n + per - 1) / per)).map fun j =>
      (d + j, (List.range per).foldl (fun w i => if j * per + i < n then w + r (j * per + i) * 2 ^ (cvtBits code * i) else w) 0)

/-- `lfcvt` (R223, R151). -/
def execLfcvt (f : L64) (s : State) : Host.Outcome State Fault Refusal :=
  fpOp f true (fun h ls rm =>
    let dst := f.ty.toNat
    let src := f.c.toNat % 8
    let n := Sys2Proof.L64.cvtN src dst
    let r := fun l k => cvtTo dst rm (fpSat f) (cvtValue src (cvtElem h src f.a.toNat l k))
    let rs := (ls.map fun l => (List.range n).map (r l)).flatten
    let h' := ls.foldl (fun x l =>
      (cvtPack dst f.d.toNat n fun k => (r l k).bits).foldl (fun (y : Hart) (p : Nat × Nat) => y.setV p.1 l (BitVec.ofNat 32 p.2)) x) h
    { hart := h'.dirtyXs, flags := allFlags rs, cnt := allCnt rs }) s

end Sys2Proof.Machine
end

