-- ==== Sys2Proof/Machine/LaneInt.lean ====
section
/-!
DEFINITION. The lane integer forms, group 000 (R215 to R218): one meaning for each over the lane operations of Operands.lean.
-/
namespace Sys2Proof.Machine

/-- A two-source integer form: W, a, operand b (R215). -/
def intOp2 (f : L64) (g : Nat → Nat → Nat → Nat) (s : State) : Host.Outcome State Fault Refusal :=
  laneOp f (fun h ls =>
    let w := widthOf f
    h.setLanes w f.d.toNat ls fun l => g w (h.elem w f.a.toNat l) (operandB h f w l)) s

/-- A three-source integer form: W, a, operand b, c. -/
def intOp3 (f : L64) (g : Nat → Nat → Nat → Nat → Nat) (s : State) : Host.Outcome State Fault Refusal :=
  laneOp f (fun h ls =>
    let w := widthOf f
    h.setLanes w f.d.toNat ls fun l => g w (h.elem w f.a.toNat l) (operandB h f w l) (h.elem w f.c.toNat l)) s

/-- A one-source integer form: W, a. -/
def intOp1 (f : L64) (g : Nat → Nat → Nat) (s : State) : Host.Outcome State Fault Refusal :=
  laneOp f (fun h ls =>
    let w := widthOf f
    h.setLanes w f.d.toNat ls fun l => g w (h.elem w f.a.toNat l)) s

/-- md 110 selects the saturating form (R215). -/
def isSat (f : L64) : Bool := f.md == 6

/-- Signed quotient of R216. -/
def ldivS (w a b : Nat) : Nat := if b = 0 then 2 ^ w - 1 else ofS w (Int.tdiv (toS w a) (toS w b))

/-- Signed remainder of R216. -/
def lremS (w a b : Nat) : Nat := if b = 0 then a else ofS w (Int.tmod (toS w a) (toS w b))

/-- An arithmetic shift right. -/
def ashr (w a n : Nat) : Nat := ofS w (toS w a / 2 ^ n)

/-- The bits in reverse (R215). -/
def brev (w a : Nat) : Nat := maskOf w fun i => a / 2 ^ (w - 1 - i) % 2 == 1

/-- The bit-field extract of R217, sign-extended where `sx`. -/
def bfx (sx : Bool) (w a b : Nat) : Nat :=
  let pos := b % 64
  let len := b / 64 % 128
  let e := min (pos + len) w
  if len = 0 ∨ pos ≥ w then 0
  else
    let v := a / 2 ^ pos % 2 ^ (e - pos)
    if sx then ofS w (toS (e - pos) v) else v

/-- The bit-field insert of R217. -/
def bfi (w a b c : Nat) : Nat :=
  let pos := b % 64
  let len := b / 64 % 128
  let e := min (pos + len) w
  if len = 0 ∨ pos ≥ w then c
  else c - c / 2 ^ pos % 2 ^ (e - pos) * 2 ^ pos + a % 2 ^ (e - pos) * 2 ^ pos

/-- `ladd` (R215). -/
def execLadd (f : L64) (s : State) : Host.Outcome State Fault Refusal := intOp2 f (fun w a b => (a + b) % 2 ^ w) s

/-- `lsub` (R215). -/
def execLsub (f : L64) (s : State) : Host.Outcome State Fault Refusal := intOp2 f (fun w a b => ofS w ((a : Int) - b)) s

/-- `ladds` (R215). -/
def execLadds (f : L64) (s : State) : Host.Outcome State Fault Refusal := intOp2 f (fun w a b => satS w (toS w a + toS w b)) s

/-- `lsubs` (R215). -/
def execLsubs (f : L64) (s : State) : Host.Outcome State Fault Refusal := intOp2 f (fun w a b => satS w (toS w a - toS w b)) s

/-- `lmul` (R215). -/
def execLmul (f : L64) (s : State) : Host.Outcome State Fault Refusal := intOp2 f (fun w a b => if isSat f then satS w (toS w a * toS w b) else a * b % 2 ^ w) s

/-- `lmulh` (R215). -/
def execLmulh (f : L64) (s : State) : Host.Outcome State Fault Refusal := intOp2 f (fun w a b => ofS w (toS w a * toS w b / 2 ^ w)) s

/-- `lmulhu` (R215). -/
def execLmulhu (f : L64) (s : State) : Host.Outcome State Fault Refusal := intOp2 f (fun w a b => a * b / 2 ^ w) s

/-- `ldiv` (R215, R216). -/
def execLdiv (f : L64) (s : State) : Host.Outcome State Fault Refusal := intOp2 f (fun w a b => ldivS w a b) s

/-- `ldivu` (R215, R216). -/
def execLdivu (f : L64) (s : State) : Host.Outcome State Fault Refusal := intOp2 f (fun w a b => if b = 0 then 2 ^ w - 1 else a / b) s

/-- `lrem` (R215, R216). -/
def execLrem (f : L64) (s : State) : Host.Outcome State Fault Refusal := intOp2 f (fun w a b => lremS w a b) s

/-- `lremu` (R215, R216). -/
def execLremu (f : L64) (s : State) : Host.Outcome State Fault Refusal := intOp2 f (fun _ a b => if b = 0 then a else a % b) s

/-- `land` (R215). -/
def execLand (f : L64) (s : State) : Host.Outcome State Fault Refusal := intOp2 f (fun _ a b => a &&& b) s

/-- `lor` (R215). -/
def execLor (f : L64) (s : State) : Host.Outcome State Fault Refusal := intOp2 f (fun _ a b => a ||| b) s

/-- `lxor` (R215). -/
def execLxor (f : L64) (s : State) : Host.Outcome State Fault Refusal := intOp2 f (fun _ a b => a ^^^ b) s

/-- `landn` (R215). -/
def execLandn (f : L64) (s : State) : Host.Outcome State Fault Refusal := intOp2 f (fun w a b => a &&& (2 ^ w - 1 - b)) s

/-- `lsll` (R215). -/
def execLsll (f : L64) (s : State) : Host.Outcome State Fault Refusal := intOp2 f (fun w a b => if isSat f then satS w (toS w a * 2 ^ (b % w)) else a * 2 ^ (b % w) % 2 ^ w) s

/-- `lsrl` (R215). -/
def execLsrl (f : L64) (s : State) : Host.Outcome State Fault Refusal := intOp2 f (fun w a b => a / 2 ^ (b % w)) s

/-- `lsra` (R215). -/
def execLsra (f : L64) (s : State) : Host.Outcome State Fault Refusal := intOp2 f (fun w a b => ashr w a (b % w)) s

/-- `lmin` (R215). -/
def execLmin (f : L64) (s : State) : Host.Outcome State Fault Refusal := intOp2 f (fun w a b => if toS w b < toS w a then b else a) s

/-- `lmax` (R215). -/
def execLmax (f : L64) (s : State) : Host.Outcome State Fault Refusal := intOp2 f (fun w a b => if toS w a < toS w b then b else a) s

/-- `lminu` (R215). -/
def execLminu (f : L64) (s : State) : Host.Outcome State Fault Refusal := intOp2 f (fun _ a b => min a b) s

/-- `lmaxu` (R215). -/
def execLmaxu (f : L64) (s : State) : Host.Outcome State Fault Refusal := intOp2 f (fun _ a b => max a b) s

/-- `lmadd` (R215). -/
def execLmadd (f : L64) (s : State) : Host.Outcome State Fault Refusal :=
  intOp3 f (fun w a b c => if isSat f then satS w (toS w a * toS w b + toS w c) else (a * b + c) % 2 ^ w) s

/-- `labs` (R215). -/
def execLabs (f : L64) (s : State) : Host.Outcome State Fault Refusal :=
  intOp1 f (fun w a => if isSat f then satS w (toS w a).natAbs else ofS w (toS w a).natAbs) s

/-- `lclz` (R215). -/
def execLclz (f : L64) (s : State) : Host.Outcome State Fault Refusal := intOp1 f (fun w a => w - bitLen a) s

/-- `lcpop` (R215). -/
def execLcpop (f : L64) (s : State) : Host.Outcome State Fault Refusal :=
  intOp1 f (fun w a => popcount w fun i => a / 2 ^ i % 2 == 1) s

/-- `lbrev` (R215). -/
def execLbrev (f : L64) (s : State) : Host.Outcome State Fault Refusal := intOp1 f brev s

/-- `lbfx` (R217). -/
def execLbfx (f : L64) (s : State) : Host.Outcome State Fault Refusal := intOp2 f (bfx (isSat f)) s

/-- `lbfi` (R217). -/
def execLbfi (f : L64) (s : State) : Host.Outcome State Fault Refusal := intOp3 f bfi s

/-- `lsel`: a where the lane's bit of m[c] is 1, else b (R215). -/
def execLsel (f : L64) (s : State) : Host.Outcome State Fault Refusal :=
  laneOp f (fun h ls =>
    let w := widthOf f
    h.setLanes w f.d.toNat ls fun l =>
      if (h.getM f.c.toNat).getLsbD l then h.elem w f.a.toNat l else operandB h f w l) s

/-- `lmov` (R215). -/
def execLmov (f : L64) (s : State) : Host.Outcome State Fault Refusal := intOp1 f (fun _ a => a) s

/-- `lli` (R215). -/
def execLli (f : L64) (s : State) : Host.Outcome State Fault Refusal :=
  laneOp f (fun h ls => h.setLanes (widthOf f) f.d.toNat ls fun _ => immW f (widthOf f)) s

/-- `lbcast`: x[a] truncated to W bits (R215). -/
def execLbcast (f : L64) (s : State) : Host.Outcome State Fault Refusal :=
  laneOp f (fun h ls => h.setLanes (widthOf f) f.d.toNat ls fun _ => (h.getX f.a.toNat).toNat % 2 ^ widthOf f) s

/-- `lext`: the element of one lane, sign-extended, into x[d]; the lane is read whatever the masks hold (R218). -/
def execLext (f : L64) (s : State) : Host.Outcome State Fault Refusal :=
  laneOp f (fun h _ =>
    h.setX f.d.toNat (sext (word (h.elem (widthOf f) f.a.toNat (f.imm15.toNat % 32))) (widthOf f))) s

/-- `lidx`: the lane's number (R215). -/
def execLidx (f : L64) (s : State) : Host.Outcome State Fault Refusal :=
  laneOp f (fun h ls => h.setLanes 32 f.d.toNat ls fun l => l) s

end Sys2Proof.Machine
end

