-- ==== Sys2Proof/Machine/Mask.lean ====
section
/-!
DEFINITION. Whole-mask forms, the mask stack and the mask branches (R225 to R227, R175).
-/
namespace Sys2Proof.Machine

/-- A form that writes mask d from the hart (R225). -/
def maskOp (d : BitVec 5) (g : Hart → BitVec 32) (s : State) : Host.Outcome State Fault Refusal :=
  doneWith (fun h => (h.setM d.toNat (g h)).dirtyXs) s

/-- `mand` (R225). -/
def execMand (d a b : BitVec 5) (s : State) : Host.Outcome State Fault Refusal :=
  maskOp d (fun h => h.getM a.toNat &&& h.getM b.toNat) s

/-- `mor` (R225). -/
def execMor (d a b : BitVec 5) (s : State) : Host.Outcome State Fault Refusal :=
  maskOp d (fun h => h.getM a.toNat ||| h.getM b.toNat) s

/-- `mxor` (R225). -/
def execMxor (d a b : BitVec 5) (s : State) : Host.Outcome State Fault Refusal :=
  maskOp d (fun h => h.getM a.toNat ^^^ h.getM b.toNat) s

/-- `mandn` (R225). -/
def execMandn (d a b : BitVec 5) (s : State) : Host.Outcome State Fault Refusal :=
  maskOp d (fun h => h.getM a.toNat &&& ~~~ h.getM b.toNat) s

/-- `mnot` (R225). -/
def execMnot (d a : BitVec 5) (s : State) : Host.Outcome State Fault Refusal := maskOp d (fun h => ~~~ h.getM a.toNat) s

/-- `mmov` (R225). -/
def execMmov (d a : BitVec 5) (s : State) : Host.Outcome State Fault Refusal := maskOp d (fun h => h.getM a.toNat) s

/-- `mset` (R225). -/
def execMset (d a : BitVec 5) (s : State) : Host.Outcome State Fault Refusal :=
  maskOp d (fun h => (h.getX a.toNat).setWidth 32) s

/-- `mget` (R225). -/
def execMget (d a : BitVec 5) (s : State) : Host.Outcome State Fault Refusal :=
  doneWith (fun h => h.setX d.toNat ((h.getM a.toNat).setWidth 64)) s

/-- `mcnt` (R225). -/
def execMcnt (d a : BitVec 5) (s : State) : Host.Outcome State Fault Refusal :=
  doneWith (fun h => h.setX d.toNat (word (lanesIn (h.getM a.toNat)).length)) s

/-- `mffs`: the index of the lowest set bit, 32 for none (R225). -/
def execMffs (d a : BitVec 5) (s : State) : Host.Outcome State Fault Refusal :=
  doneWith (fun h => h.setX d.toNat (word ((lanesIn (h.getM a.toNat)).head?.getD 32))) s

/-- `mpush`: push m0, then narrow it; with depth 16 cause 50 (R226, R175). -/
def execMpush (a : BitVec 5) (s : State) : Host.Outcome State Fault Refusal :=
  if 16 ≤ s.me.kmsd then .next (takeTrap s s.cur false 50 16)
  else doneWith (fun h =>
    ({ h with kms := h.kms.set 0 h.kmsd (h.getM 0), kmsd := h.kmsd + 1 }.setM 0 (h.getM 0 &&& h.getM a.toNat)).dirtyXs) s

/-- `minv`: m0 := T & ~m0 with T the top entry, not popped; with depth 0 cause 50 (R226, R175). -/
def execMinv (s : State) : Host.Outcome State Fault Refusal :=
  if s.me.kmsd = 0 then .next (takeTrap s s.cur false 50 0)
  else doneWith (fun h => (h.setM 0 (h.kms.get 0 (h.kmsd - 1) &&& ~~~ h.getM 0)).dirtyXs) s

/-- `mpop`: pop into m0; with depth 0 cause 50 (R226, R175). -/
def execMpop (s : State) : Host.Outcome State Fault Refusal :=
  if s.me.kmsd = 0 then .next (takeTrap s s.cur false 50 0)
  else doneWith (fun h => ({ h with kmsd := h.kmsd - 1 }.setM 0 (h.kms.get 0 (h.kmsd - 1))).dirtyXs) s

/-- A branch on a mask (R227): forbidden inside a clause (R196). -/
def maskBranch (taken : Bool) (off : BitVec 12) (s : State) : Host.Outcome State Fault Refusal :=
  outsideClause (fun s => .next (s.modMe fun h => if taken then h.jump (h.pc + offWord off) else h.done)) s

/-- `mbz` (R227). -/
def execMbz (k : BitVec 3) (off : BitVec 12) (s : State) : Host.Outcome State Fault Refusal :=
  maskBranch (s.me.getM k.toNat == 0) off s

/-- `mbnz` (R227). -/
def execMbnz (k : BitVec 3) (off : BitVec 12) (s : State) : Host.Outcome State Fault Refusal :=
  maskBranch (s.me.getM k.toNat != 0) off s

end Sys2Proof.Machine
end

