-- ==== Sys2Proof/Machine/Scalar.lean ====
section
/-!
DEFINITION. The scalar loads, stores and atomics (R23, R55 to R57, R70, R80, R112, R123, R177, R179), with the MMIO range behind
device-I/O pages (R402).
-/
namespace Sys2Proof.Machine

/-- One checked address of a scalar access: alignment (R179), watermarks (R80), the checks of R23 with their scalar causes, a page between
biases (R135); a write then sets D (R27). -/
def scalarPlace (a : Acc) (n : Nat) (va : Word) : Exec PRef := do
  orTrap (va.toNat % n == 0) (if a == .rd then 4 else 6) va
  wmCheck [(va.toNat, n)]
  let w ← whoX
  let mxr ← rd fun s => bitOf s.me.csr.mstatus 19
  let fit := fun (setD : Bool) => (fun s => match translate s w .scalar a mxr setD va n with
    | (s, .error f) => trap (scalarCause f.kind a) va s
    | (s, .ok r) => .ok (r, s) : Exec PRef)
  let r ← fit false
  (fun s => if flipHeld s r.pa then stallWith .stall s else .ok ((), s) : Exec Unit)
  if a.writes then fit true else pure r

/-- The line of an address for a scalar read: the copy in the core's scalar cache, else the cluster's, which enters the scalar cache (R53, R55). None where the line's
integrity tag fails (R340). -/
def scalarIn (s : State) (w : Who) (va : Word) (r : PRef) : State × Option CLine :=
  let vl := va.toNat / 128
  match scalHit s w vl with
  | some p => (s, some { vline := vl, fn := w.tag, pl := r.pa / 128, key := r.key, bytes := seenLine s w vl r.key (r.pa / 128), psn := p })
  | none => match lineIn s w va r with
    | (s, none) => (s, none)
    | (s, some x) => (scalUse s w vl r.cm false none, some x)

/-- The n bytes at a checked place: a register of the MMIO range as an aligned doubleword, zero in another width (R402); memory, whose tag must
hold (R340) and whose poison is consumed (R70). -/
def scalarFetch (r : PRef) (n : Nat) (va : Word) : Exec Nat := fun s =>
  if paKind r.pa = .mmio then
    if n = 8 then (let x := mmioRead s false r.pa; .ok (x.2.toNat, x.1)) else .ok (0, s)
  else
    let w := whoOf s s.cur true
    match scalarIn s w va r with
    | (s, none) => .error (sealFail s s.cur r.pa r.key va)
    | (s, some x) =>
      if x.psn then trap 48 va s
      else .ok (leToNat ((x.bytes.drop (va.toNat % 128)).take n), s)

/-- A hart that stores to the MMIO range, as what its store captures (R409). -/
def posterOf (w : Who) : Poster := { host := false, priv := w.priv, bare := w.bare, kdom := w.kdom, taint := w.taint }

/-- Store the n low bytes of a number at a checked place; a copy of the line in the core's L1 goes (R57), and so do the other harts'
reservations. -/
def scalarPut (r : PRef) (n : Nat) (va : Word) (v : Nat) : Exec Unit := fun s =>
  let w := whoOf s s.cur true
  if paKind r.pa = .mmio then
    if n ≠ 8 then .ok ((), s)
    else match mmioWrite s (posterOf w) r.pa (word v) with
      | .ok t => .ok ((), t)
      | .wait g => stallWith .stall (g s)
  else if !entryOk s w (va.toNat / 128) r.key (r.pa / 128) then .error (sealFail s s.cur r.pa r.key va)
  else
    let vl := va.toNat / 128
    let s := scalUse (storeLine s w vl r.cm (cellsOf r.pa r.key (natToLe n v))) w vl r.cm true (scalHit s w vl)
    .ok ((), l1Drop (breakResv s s.cur [r.pa / 128]) w.core w.tag [vl])

/-- Bytes of a load, whether it sign-extends, whether it is floating-point. -/
def loadShape (k : LoadKind) : Nat × Bool × Bool :=
  match k with
  | .lb => (1, true, false)
  | .lh => (2, true, false)
  | .lw => (4, true, false)
  | .ld => (8, false, false)
  | .lbu => (1, false, false)
  | .lhu => (2, false, false)
  | .lwu => (4, false, false)
  | .flw => (4, false, true)
  | .fld => (8, false, true)

/-- The register written by a load: an FP32 is NaN-boxed, FS becomes dirty. -/
def loadTo (fp sg : Bool) (rd n v : Nat) (h : Hart) : Hart :=
  if fp then h.setFval (n == 8) rd v else h.setX rd (if sg then sext (word v) (8 * n) else word v)

/-- SCALAR_LOAD (R70, R177). -/
def execScalarLoad (o : LoadOp) (s : State) : Host.Outcome State Fault Refusal :=
  let sh := loadShape o.kind
  if sh.2.2 ∧ s.me.fs = 0 then illegalNow s
  else finish (do
    let va := s.me.getX o.rs1.toNat + o.imm.signExtend 64
    let r ← scalarPlace .rd sh.1 va
    let v ← scalarFetch r sh.1 va
    onMe (loadTo sh.2.2 sh.2.1 o.rd.toNat sh.1 v)
    retireX) s

/-- Bytes of a store, whether it is floating-point. -/
def storeShape (k : StoreKind) : Nat × Bool :=
  match k with
  | .sb => (1, false)
  | .sh => (2, false)
  | .sw => (4, false)
  | .sd => (8, false)
  | .fsw => (4, true)
  | .fsd => (8, true)

/-- The number that a store writes. -/
def storeData (h : Hart) (fp : Bool) (n : Nat) (rs2 : BitVec 5) : Nat := (if fp then h.getF rs2.toNat else h.getX rs2.toNat).toNat % 256 ^ n

/-- SCALAR_STORE (R57, R177). -/
def execScalarStore (o : StoreOp) (s : State) : Host.Outcome State Fault Refusal :=
  let sh := storeShape o.kind
  if sh.2 ∧ s.me.fs = 0 then illegalNow s
  else finish (do
    let va := s.me.getX o.rs1.toNat + o.imm.signExtend 64
    let r ← scalarPlace .wr sh.1 va
    scalarPut r sh.1 va (storeData s.me sh.2 sh.1 o.rs2)
    retireX) s

/-- The value that an AMO writes, in n bytes. -/
def amoResult (k : AmoKind) (n m v : Nat) : Nat :=
  let a := word m
  let b := word v
  let sa := (sext a (8 * n)).toInt
  let sb := (sext b (8 * n)).toInt
  match k with
  | .add => (a + b).toNat % 256 ^ n
  | .xor => (a ^^^ b).toNat
  | .and => (a &&& b).toNat
  | .or => (a ||| b).toNat
  | .min => if sa ≤ sb then m else v
  | .max => if sa ≤ sb then v else m
  | .minu => min m v
  | .maxu => max m v
  | _ => v

/-- With rl, the release of an atomic before its access is performed (R112, R132). -/
def amoRelease (o : AmoOp) : Exec Unit := upd fun s => if o.rl then coreRelease s (coreOf s.cur) 5 else s

/-- A scalar atomic on a peer window is performed at the peer's home (R124). -/
def atPeerHome (va : Word) (r : PRef) : Exec PRef := fun s =>
  let x := peerHome s (whoOf s s.cur true) (va.toNat / 128) r
  .ok (x.2, x.1)

/-- LR: the load's value, and the reservation of its line (log 15). -/
def loadReserved (o : AmoOp) (n : Nat) (va : Word) : Exec Unit := do
  let r ← scalarPlace .rd n va
  let r ← atPeerHome va r
  let v ← scalarFetch r n va
  amoRelease o
  onMe fun h => { h.setX o.rd.toNat (sext (word v) (8 * n)) with resv := some (r.pa / 128) }

/-- SC: 0 and the store where the hart still holds the line's reservation, else 1; the reservation ends. Of a device-I/O register it reads nothing: the
access is the one store, or none (R53). -/
def storeConditional (o : AmoOp) (n : Nat) (va : Word) : Exec Unit := do
  let r ← scalarPlace .wr n va
  let r ← atPeerHome va r
  let _ ← if paKind r.pa = .mmio then pure 0 else scalarFetch r n va
  amoRelease o
  let h ← meX
  let good := h.resv == some (r.pa / 128)
  if good then scalarPut r n va (storeData h false n o.rs2) else pure ()
  onMe fun h => { h.setX o.rd.toNat (b2w !good) with resv := none }

/-- An AMO: the old value to rd, the result to memory; on a peer window at the peer's home (R124). -/
def scalarAmo (o : AmoOp) (n : Nat) (va : Word) : Exec Unit := do
  let r ← scalarPlace .rw n va
  let r ← atPeerHome va r
  let m ← scalarFetch r n va
  amoRelease o
  let h ← meX
  scalarPut r n va (amoResult o.kind n m (storeData h false n o.rs2))
  onMe fun h => h.setX o.rd.toNat (sext (word m) (8 * n))

/-- SCALAR_ATOMIC (R123, R112): at scope 5; with aq an acquire, which empties the core's L1 (R58). -/
def execScalarAtomic (o : AmoOp) (s : State) : Host.Outcome State Fault Refusal :=
  finish (do
    let n := if o.dbl then 8 else 4
    let va := s.me.getX o.rs1.toNat
    (match o.kind with
      | .lr => loadReserved o n va
      | .sc => storeConditional o n va
      | _ => scalarAmo o n va : Exec Unit)
    upd fun s => if o.aq then acquire s 5 else s
    retireX) s

end Sys2Proof.Machine
end

