-- ==== Sys2Proof/Machine/Dispatch.lean ====
section
/-!
DEFINITION. One arm for every constructor of Instr: its meaning.
-/
namespace Sys2Proof.Machine

def exec (i : Instr) (s : State) : Host.Outcome State Fault Refusal :=
  match i with
  | .ladd f => Sys2Proof.Machine.execLadd f s
  | .lsub f => Sys2Proof.Machine.execLsub f s
  | .ladds f => Sys2Proof.Machine.execLadds f s
  | .lsubs f => Sys2Proof.Machine.execLsubs f s
  | .lmul f => Sys2Proof.Machine.execLmul f s
  | .lmulh f => Sys2Proof.Machine.execLmulh f s
  | .lmulhu f => Sys2Proof.Machine.execLmulhu f s
  | .lmadd f => Sys2Proof.Machine.execLmadd f s
  | .ldiv f => Sys2Proof.Machine.execLdiv f s
  | .ldivu f => Sys2Proof.Machine.execLdivu f s
  | .lrem f => Sys2Proof.Machine.execLrem f s
  | .lremu f => Sys2Proof.Machine.execLremu f s
  | .land f => Sys2Proof.Machine.execLand f s
  | .lor f => Sys2Proof.Machine.execLor f s
  | .lxor f => Sys2Proof.Machine.execLxor f s
  | .landn f => Sys2Proof.Machine.execLandn f s
  | .lsll f => Sys2Proof.Machine.execLsll f s
  | .lsrl f => Sys2Proof.Machine.execLsrl f s
  | .lsra f => Sys2Proof.Machine.execLsra f s
  | .lmin f => Sys2Proof.Machine.execLmin f s
  | .lmax f => Sys2Proof.Machine.execLmax f s
  | .lminu f => Sys2Proof.Machine.execLminu f s
  | .lmaxu f => Sys2Proof.Machine.execLmaxu f s
  | .labs f => Sys2Proof.Machine.execLabs f s
  | .lclz f => Sys2Proof.Machine.execLclz f s
  | .lcpop f => Sys2Proof.Machine.execLcpop f s
  | .lbrev f => Sys2Proof.Machine.execLbrev f s
  | .lbfx f => Sys2Proof.Machine.execLbfx f s
  | .lbfi f => Sys2Proof.Machine.execLbfi f s
  | .lsel f => Sys2Proof.Machine.execLsel f s
  | .lmov f => Sys2Proof.Machine.execLmov f s
  | .lli f => Sys2Proof.Machine.execLli f s
  | .lbcast f => Sys2Proof.Machine.execLbcast f s
  | .lext f => Sys2Proof.Machine.execLext f s
  | .lidx f => Sys2Proof.Machine.execLidx f s
  | .lfadd f => Sys2Proof.Machine.execLfadd f s
  | .lfsub f => Sys2Proof.Machine.execLfsub f s
  | .lfmul f => Sys2Proof.Machine.execLfmul f s
  | .lffma f => Sys2Proof.Machine.execLffma f s
  | .lffms f => Sys2Proof.Machine.execLffms f s
  | .lfnma f => Sys2Proof.Machine.execLfnma f s
  | .lfmin f => Sys2Proof.Machine.execLfmin f s
  | .lfmax f => Sys2Proof.Machine.execLfmax f s
  | .lfdiv f => Sys2Proof.Machine.execLfdiv f s
  | .lfsqrt f => Sys2Proof.Machine.execLfsqrt f s
  | .lfrcp f => Sys2Proof.Machine.execLfrcp f s
  | .lfrsq f => Sys2Proof.Machine.execLfrsq f s
  | .lfex2 f => Sys2Proof.Machine.execLfex2 f s
  | .lflg2 f => Sys2Proof.Machine.execLflg2 f s
  | .lfsin f => Sys2Proof.Machine.execLfsin f s
  | .lfcos f => Sys2Proof.Machine.execLfcos f s
  | .lfabs f => Sys2Proof.Machine.execLfabs f s
  | .lfneg f => Sys2Proof.Machine.execLfneg f s
  | .lfsgnj f => Sys2Proof.Machine.execLfsgnj f s
  | .lfcvt f => Sys2Proof.Machine.execLfcvt f s
  | .lfclass f => Sys2Proof.Machine.execLfclass f s
  | .lfround f => Sys2Proof.Machine.execLfround f s
  | .lldB f => Sys2Proof.Machine.execLldB f s
  | .lldBu f => Sys2Proof.Machine.execLldBu f s
  | .lldH f => Sys2Proof.Machine.execLldH f s
  | .lldHu f => Sys2Proof.Machine.execLldHu f s
  | .lldW f => Sys2Proof.Machine.execLldW f s
  | .lldD f => Sys2Proof.Machine.execLldD f s
  | .lldQ f => Sys2Proof.Machine.execLldQ f s
  | .lstB f => Sys2Proof.Machine.execLstB f s
  | .lstH f => Sys2Proof.Machine.execLstH f s
  | .lstW f => Sys2Proof.Machine.execLstW f s
  | .lstD f => Sys2Proof.Machine.execLstD f s
  | .lstQ f => Sys2Proof.Machine.execLstQ f s
  | .lprf f => Sys2Proof.Machine.execLprf f s
  | .lzero f => Sys2Proof.Machine.execLzero f s
  | .lamoAddW f => Sys2Proof.Machine.execLamoAddW f s
  | .lamoAddD f => Sys2Proof.Machine.execLamoAddD f s
  | .lamoAndW f => Sys2Proof.Machine.execLamoAndW f s
  | .lamoAndD f => Sys2Proof.Machine.execLamoAndD f s
  | .lamoOrW f => Sys2Proof.Machine.execLamoOrW f s
  | .lamoOrD f => Sys2Proof.Machine.execLamoOrD f s
  | .lamoXorW f => Sys2Proof.Machine.execLamoXorW f s
  | .lamoXorD f => Sys2Proof.Machine.execLamoXorD f s
  | .lamoMinW f => Sys2Proof.Machine.execLamoMinW f s
  | .lamoMinD f => Sys2Proof.Machine.execLamoMinD f s
  | .lamoMaxW f => Sys2Proof.Machine.execLamoMaxW f s
  | .lamoMaxD f => Sys2Proof.Machine.execLamoMaxD f s
  | .lamoMinuW f => Sys2Proof.Machine.execLamoMinuW f s
  | .lamoMinuD f => Sys2Proof.Machine.execLamoMinuD f s
  | .lamoMaxuW f => Sys2Proof.Machine.execLamoMaxuW f s
  | .lamoMaxuD f => Sys2Proof.Machine.execLamoMaxuD f s
  | .lamoSwapW f => Sys2Proof.Machine.execLamoSwapW f s
  | .lamoSwapD f => Sys2Proof.Machine.execLamoSwapD f s
  | .lcasW f => Sys2Proof.Machine.execLcasW f s
  | .lcasD f => Sys2Proof.Machine.execLcasD f s
  | .lfamoAddS f => Sys2Proof.Machine.execLfamoAddS f s
  | .lfamoMinS f => Sys2Proof.Machine.execLfamoMinS f s
  | .lfamoMaxS f => Sys2Proof.Machine.execLfamoMaxS f s
  | .lcmpEq f => Sys2Proof.Machine.execLcmpEq f s
  | .lcmpNe f => Sys2Proof.Machine.execLcmpNe f s
  | .lcmpLt f => Sys2Proof.Machine.execLcmpLt f s
  | .lcmpGe f => Sys2Proof.Machine.execLcmpGe f s
  | .lcmpLtu f => Sys2Proof.Machine.execLcmpLtu f s
  | .lcmpGeu f => Sys2Proof.Machine.execLcmpGeu f s
  | .lfcmpEq f => Sys2Proof.Machine.execLfcmpEq f s
  | .lfcmpLt f => Sys2Proof.Machine.execLfcmpLt f s
  | .lfcmpLe f => Sys2Proof.Machine.execLfcmpLe f s
  | .lfcmpUn f => Sys2Proof.Machine.execLfcmpUn f s
  | .lshflIdx f => Sys2Proof.Machine.execLshflIdx f s
  | .lshflUp f => Sys2Proof.Machine.execLshflUp f s
  | .lshflDn f => Sys2Proof.Machine.execLshflDn f s
  | .lshflXor f => Sys2Proof.Machine.execLshflXor f s
  | .lredAdd f => Sys2Proof.Machine.execLredAdd f s
  | .lredMin f => Sys2Proof.Machine.execLredMin f s
  | .lredMax f => Sys2Proof.Machine.execLredMax f s
  | .lredAnd f => Sys2Proof.Machine.execLredAnd f s
  | .lredOr f => Sys2Proof.Machine.execLredOr f s
  | .lredXor f => Sys2Proof.Machine.execLredXor f s
  | .lredFadd f => Sys2Proof.Machine.execLredFadd f s
  | .lredFmin f => Sys2Proof.Machine.execLredFmin f s
  | .lredFmax f => Sys2Proof.Machine.execLredFmax f s
  | .lscanAdd f => Sys2Proof.Machine.execLscanAdd f s
  | .lscanFadd f => Sys2Proof.Machine.execLscanFadd f s
  | .lcomp f => Sys2Proof.Machine.execLcomp f s
  | .tallocImm f => Sys2Proof.Machine.execTallocImm f s
  | .tallocReg f => Sys2Proof.Machine.execTallocReg f s
  | .tallocNbImm f => Sys2Proof.Machine.execTallocNbImm f s
  | .tallocNbReg f => Sys2Proof.Machine.execTallocNbReg f s
  | .thdr f => Sys2Proof.Machine.execThdr f s
  | .thdrM f => Sys2Proof.Machine.execThdrM f s
  | .tst f => Sys2Proof.Machine.execTst f s
  | .tseal f => Sys2Proof.Machine.execTseal f s
  | .tdrop f => Sys2Proof.Machine.execTdrop f s
  | .tld f => Sys2Proof.Machine.execTld f s
  | .tldM f => Sys2Proof.Machine.execTldM f s
  | .tpeek f => Sys2Proof.Machine.execTpeek f s
  | .tskip f => Sys2Proof.Machine.execTskip f s
  | .tgive f => Sys2Proof.Machine.execTgive f s
  | .tcnt f => Sys2Proof.Machine.execTcnt f s
  | .tinfo f => Sys2Proof.Machine.execTinfo f s
  | .tinfoT f => Sys2Proof.Machine.execTinfoT f s
  | .tldl f => Sys2Proof.Machine.execTldl f s
  | .tmma f => Sys2Proof.Machine.execTmma f s
  | .tzero f => Sys2Proof.Machine.execTzero f s
  | .tzeroM f => Sys2Proof.Machine.execTzeroM f s
  | .taccLd f => Sys2Proof.Machine.execTaccLd f s
  | .taccLdM f => Sys2Proof.Machine.execTaccLdM f s
  | .taccSt f => Sys2Proof.Machine.execTaccSt f s
  | .taccStM f => Sys2Proof.Machine.execTaccStM f s
  | .tcvt f => Sys2Proof.Machine.execTcvt f s
  | .tcvtM f => Sys2Proof.Machine.execTcvtM f s
  | .taccLrd f => Sys2Proof.Machine.execTaccLrd f s
  | .taccLwr f => Sys2Proof.Machine.execTaccLwr f s
  | .tquizNone f => Sys2Proof.Machine.execTquizNone f s
  | .tquizRun f => Sys2Proof.Machine.execTquizRun f s
  | .tquizClear f => Sys2Proof.Machine.execTquizClear f s
  | .mand d a b => Sys2Proof.Machine.execMand d a b s
  | .mor d a b => Sys2Proof.Machine.execMor d a b s
  | .mxor d a b => Sys2Proof.Machine.execMxor d a b s
  | .mandn d a b => Sys2Proof.Machine.execMandn d a b s
  | .mnot d a => Sys2Proof.Machine.execMnot d a s
  | .mmov d a => Sys2Proof.Machine.execMmov d a s
  | .mset d a => Sys2Proof.Machine.execMset d a s
  | .mget d a => Sys2Proof.Machine.execMget d a s
  | .mcnt d a => Sys2Proof.Machine.execMcnt d a s
  | .mffs d a => Sys2Proof.Machine.execMffs d a s
  | .mpush a => Sys2Proof.Machine.execMpush a s
  | .mbz k off => Sys2Proof.Machine.execMbz k off s
  | .mbnz k off => Sys2Proof.Machine.execMbnz k off s
  | .bbrd d a => Sys2Proof.Machine.execBbrd d a s
  | .bbwr d a => Sys2Proof.Machine.execBbwr d a s
  | .imv d a => Sys2Proof.Machine.execImv d a s
  | .iwr d a b => Sys2Proof.Machine.execIwr d a b s
  | .waitf mask => Sys2Proof.Machine.execWaitf mask s
  | .barCfg id a => Sys2Proof.Machine.execBarCfg id a s
  | .barArr id => Sys2Proof.Machine.execBarArr id s
  | .barWait id => Sys2Proof.Machine.execBarWait id s
  | .barSync id => Sys2Proof.Machine.execBarSync id s
  | .barTx id a => Sys2Proof.Machine.execBarTx id a s
  | .barTest d id a => Sys2Proof.Machine.execBarTest d id a s
  | .kfence sets scope => Sys2Proof.Machine.execKfence sets scope s
  | .rollc id a => Sys2Proof.Machine.execRollc id a s
  | .kctxSv a => Sys2Proof.Machine.execKctxSv a s
  | .kctxLd a => Sys2Proof.Machine.execKctxLd a s
  | .msend a => Sys2Proof.Machine.execMsend a s
  | .msendL a b => Sys2Proof.Machine.execMsendL a b s
  | .qpush a b => Sys2Proof.Machine.execQpush a b s
  | .qpop d a => Sys2Proof.Machine.execQpop d a s
  | .hpassArm d a => Sys2Proof.Machine.execHpassArm d a s
  | .hpassStart d a => Sys2Proof.Machine.execHpassStart d a s
  | .hpassStatus d a => Sys2Proof.Machine.execHpassStatus d a s
  | .hpassWait d a => Sys2Proof.Machine.execHpassWait d a s
  | .hpassDisarm d a => Sys2Proof.Machine.execHpassDisarm d a s
  | .cprd a => Sys2Proof.Machine.execCprd a s
  | .cpq a => Sys2Proof.Machine.execCpq a s
  | .cpqNb d a => Sys2Proof.Machine.execCpqNb d a s
  | .cpwm d a b => Sys2Proof.Machine.execCpwm d a b s
  | .cpcls d => Sys2Proof.Machine.execCpcls d s
  | .launch d a => Sys2Proof.Machine.execLaunch d a s
  | .clause flagB flagA wait len => Sys2Proof.Machine.execClause flagB flagA wait len s
  | .sfenceVma a b => Sys2Proof.Machine.execSfenceVma a b s
  | .fence fm pred succ a d => Sys2Proof.Machine.execFence fm pred succ a d s
  | .krootWrite o => Sys2Proof.Machine.execKrootWrite o s
  | .kdomWrite o => Sys2Proof.Machine.execKdomWrite o s
  | .ktinvGo o => Sys2Proof.Machine.execKtinvGo o s
  | .kslabGo o => Sys2Proof.Machine.execKslabGo o s
  | .kslabAbort o => Sys2Proof.Machine.execKslabAbort o s
  | .kpartWrite o => Sys2Proof.Machine.execKpartWrite o s
  | .kpownWrite o => Sys2Proof.Machine.execKpownWrite o s
  | .kpoolevRead o => Sys2Proof.Machine.execKpoolevRead o s
  | .kbiasGo o => Sys2Proof.Machine.execKbiasGo o s
  | .kflagclrWrite o => Sys2Proof.Machine.execKflagclrWrite o s
  | .khctlWrite o => Sys2Proof.Machine.execKhctlWrite o s
  | .kchqDepthWrite o => Sys2Proof.Machine.execKchqDepthWrite o s
  | .kchqErrClear o => Sys2Proof.Machine.execKchqErrClear o s
  | .kchringWrite o => Sys2Proof.Machine.execKchringWrite o s
  | .kqctlWrite o => Sys2Proof.Machine.execKqctlWrite o s
  | .ksibctlHalt o => Sys2Proof.Machine.execKsibctlHalt o s
  | .ksibctlResume o => Sys2Proof.Machine.execKsibctlResume o s
  | .ksibdataWrite o => Sys2Proof.Machine.execKsibdataWrite o s
  | .kpreDone o => Sys2Proof.Machine.execKpreDone o s
  | .kcsaveSave o => Sys2Proof.Machine.execKcsaveSave o s
  | .kcsaveRestore o => Sys2Proof.Machine.execKcsaveRestore o s
  | .ktqctlTailWrite o => Sys2Proof.Machine.execKtqctlTailWrite o s
  | .ktqctlRerrClear o => Sys2Proof.Machine.execKtqctlRerrClear o s
  | .ktkillGo o => Sys2Proof.Machine.execKtkillGo o s
  | .kflushGo o => Sys2Proof.Machine.execKflushGo o s
  | .kkctlErase o => Sys2Proof.Machine.execKkctlErase o s
  | .kkctlDerive o => Sys2Proof.Machine.execKkctlDerive o s
  | .kkctlUnwrap o => Sys2Proof.Machine.execKkctlUnwrap o s
  | .kkctlRebind o => Sys2Proof.Machine.execKkctlRebind o s
  | .kkctlQuery o => Sys2Proof.Machine.execKkctlQuery o s
  | .khmctlWrite o => Sys2Proof.Machine.execKhmctlWrite o s
  | .khmdomWrite o => Sys2Proof.Machine.execKhmdomWrite o s
  | .khmrateWrite o => Sys2Proof.Machine.execKhmrateWrite o s
  | .pmpWrite num o => Sys2Proof.Machine.execPmpWrite num o s
  | .registerWrite w => Sys2Proof.Machine.execRegisterWrite w s
  | .scalarLoad o => Sys2Proof.Machine.execScalarLoad o s
  | .scalarStore o => Sys2Proof.Machine.execScalarStore o s
  | .scalarAtomic o => Sys2Proof.Machine.execScalarAtomic o s
  | .minv => Sys2Proof.Machine.execMinv s
  | .mpop => Sys2Proof.Machine.execMpop s
  | .hdone => Sys2Proof.Machine.execHdone s
  | .kyield => Sys2Proof.Machine.execKyield s
  | .kscrub => Sys2Proof.Machine.execKscrub s
  | .mnext => Sys2Proof.Machine.execMnext s
  | .fenceI => Sys2Proof.Machine.execFenceI s
  | .pause => Sys2Proof.Machine.execPause s
  | .wfi => Sys2Proof.Machine.execWfi s
  | .sret => Sys2Proof.Machine.execSret s
  | .mret => Sys2Proof.Machine.execMret s
  | .trapEntry => Sys2Proof.Machine.execTrapEntry s
  | .wfiTimeout => Sys2Proof.Machine.execWfiTimeout s
  | .slotSwitchLimit => Sys2Proof.Machine.execSlotSwitchLimit s
  | .pageWalk => Sys2Proof.Machine.execPageWalk s
  | .faultBufferDelivery => Sys2Proof.Machine.execFaultBufferDelivery s
  | .heldReportPost => Sys2Proof.Machine.execHeldReportPost s
  | .faultReplyRetry => Sys2Proof.Machine.execFaultReplyRetry s
  | .faultReplyFatal => Sys2Proof.Machine.execFaultReplyFatal s
  | .notice => Sys2Proof.Machine.execNotice s
  | .invalidationComplete => Sys2Proof.Machine.execInvalidationComplete s
  | .lineFill => Sys2Proof.Machine.execLineFill s
  | .correctedError => Sys2Proof.Machine.execCorrectedError s
  | .uncorrectableError => Sys2Proof.Machine.execUncorrectableError s
  | .slabDrainComplete => Sys2Proof.Machine.execSlabDrainComplete s
  | .slabClearComplete => Sys2Proof.Machine.execSlabClearComplete s
  | .biasFlipComplete => Sys2Proof.Machine.execBiasFlipComplete s
  | .flushComplete => Sys2Proof.Machine.execFlushComplete s
  | .tallocGrant => Sys2Proof.Machine.execTallocGrant s
  | .tileReservationCommit => Sys2Proof.Machine.execTileReservationCommit s
  | .tileReservationRelease => Sys2Proof.Machine.execTileReservationRelease s
  | .starvationDetectorFire => Sys2Proof.Machine.execStarvationDetectorFire s
  | .tmmaComplete => Sys2Proof.Machine.execTmmaComplete s
  | .popQuiz => Sys2Proof.Machine.execPopQuiz s
  | .messageArrival => Sys2Proof.Machine.execMessageArrival s
  | .channelRefill => Sys2Proof.Machine.execChannelRefill s
  | .heldMessageReoffer => Sys2Proof.Machine.execHeldMessageReoffer s
  | .firingStart => Sys2Proof.Machine.execFiringStart s
  | .eprioAging => Sys2Proof.Machine.execEprioAging s
  | .iwrHeldWriteEntry => Sys2Proof.Machine.execIwrHeldWriteEntry s
  | .copyRequestStart => Sys2Proof.Machine.execCopyRequestStart s
  | .copyTileAllocation => Sys2Proof.Machine.execCopyTileAllocation s
  | .copyPieceCopy => Sys2Proof.Machine.execCopyPieceCopy s
  | .copyPieceFill => Sys2Proof.Machine.execCopyPieceFill s
  | .copyPieceZero => Sys2Proof.Machine.execCopyPieceZero s
  | .copyPieceGather => Sys2Proof.Machine.execCopyPieceGather s
  | .copyPieceReduce => Sys2Proof.Machine.execCopyPieceReduce s
  | .reduceContributionArrival => Sys2Proof.Machine.execReduceContributionArrival s
  | .combiningEntryTimeout => Sys2Proof.Machine.execCombiningEntryTimeout s
  | .cprdPerform => Sys2Proof.Machine.execCprdPerform s
  | .copyCompletion => Sys2Proof.Machine.execCopyCompletion s
  | .barrierSweep => Sys2Proof.Machine.execBarrierSweep s
  | .barrierRelease => Sys2Proof.Machine.execBarrierRelease s
  | .stageBarrierDelivery => Sys2Proof.Machine.execStageBarrierDelivery s
  | .barTestTimeout => Sys2Proof.Machine.execBarTestTimeout s
  | .hpassArmAck => Sys2Proof.Machine.execHpassArmAck s
  | .hpassTokenHop => Sys2Proof.Machine.execHpassTokenHop s
  | .launchSelection => Sys2Proof.Machine.execLaunchSelection s
  | .cohortBinding => Sys2Proof.Machine.execCohortBinding s
  | .preemptionRequest => Sys2Proof.Machine.execPreemptionRequest s
  | .launchCompletion => Sys2Proof.Machine.execLaunchCompletion s
  | .mladotteCreate => Sys2Proof.Machine.execMladotteCreate s
  | .mladotteAddPage => Sys2Proof.Machine.execMladotteAddPage s
  | .mladotteExtend => Sys2Proof.Machine.execMladotteExtend s
  | .mladotteFinalize => Sys2Proof.Machine.execMladotteFinalize s
  | .mladotteEnter => Sys2Proof.Machine.execMladotteEnter s
  | .mladotteExit => Sys2Proof.Machine.execMladotteExit s
  | .mladotteDestroy => Sys2Proof.Machine.execMladotteDestroy s
  | .mladotteUnwrap => Sys2Proof.Machine.execMladotteUnwrap s
  | .mladotteReport => Sys2Proof.Machine.execMladotteReport s
  | .spdmRequest => Sys2Proof.Machine.execSpdmRequest s
  | .egressTransaction => Sys2Proof.Machine.execEgressTransaction s
  | .bucketRefill => Sys2Proof.Machine.execBucketRefill s
  | .signedHead => Sys2Proof.Machine.execSignedHead s
  | .functionLevelReset => Sys2Proof.Machine.execFunctionLevelReset s
  | .tdispLeaveRun => Sys2Proof.Machine.execTdispLeaveRun s
  | .coldReset => Sys2Proof.Machine.execColdReset s
  | .stage0Complete => Sys2Proof.Machine.execStage0Complete s
  | .stage1Complete => Sys2Proof.Machine.execStage1Complete s
  | .stage2Complete => Sys2Proof.Machine.execStage2Complete s
  | .operatingPointUpdate => Sys2Proof.Machine.execOperatingPointUpdate s
  | .droopDetectorFire => Sys2Proof.Machine.execDroopDetectorFire s
  | .droopStretchEnd => Sys2Proof.Machine.execDroopStretchEnd s
  | .thermalTrip => Sys2Proof.Machine.execThermalTrip s
  | .linkTraining => Sys2Proof.Machine.execLinkTraining s
  | .linkFailure => Sys2Proof.Machine.execLinkFailure s
  | .peerAccessArrival => Sys2Proof.Machine.execPeerAccessArrival s
  | .hostCxlMemRead => Sys2Proof.Machine.execHostCxlMemRead s
  | .hostCxlMemWrite => Sys2Proof.Machine.execHostCxlMemWrite s
  | .ethTransmit => Sys2Proof.Machine.execEthTransmit s
  | .ethReceive => Sys2Proof.Machine.execEthReceive s
  | .biasGo => Sys2Proof.Machine.execBiasGo s
  | .bookackWrite => Sys2Proof.Machine.execBookackWrite s
  | .booksignRequest => Sys2Proof.Machine.execBooksignRequest s
  | .slatenonceRead => Sys2Proof.Machine.execSlatenonceRead s
  | .slatetokenSubmit => Sys2Proof.Machine.execSlatetokenSubmit s
  | .islstCapWrite => Sys2Proof.Machine.execIslstCapWrite s
  | .ethTailDoorbell => Sys2Proof.Machine.execEthTailDoorbell s
  | .supervisorTimerInterrupt => Sys2Proof.Machine.execSupervisorTimerInterrupt s
  | .tdispEnterRun => Sys2Proof.Machine.execTdispEnterRun s
  | .hostCxlCacheSnoop => Sys2Proof.Machine.execHostCxlCacheSnoop s

end Sys2Proof.Machine
end

