-- ==== Sys2Proof/Machine/Turn.lean ====
section
/-!
DEFINITION. A hart's turn: what is decoded at its pc is executed (R181), and which hart of its slot the turn goes to (R163).
-/
namespace Sys2Proof.Machine

/-- What an island's clock loses in a reference clock, in 42nds of one (R411, R412): at point p it runs at 2.1 - 0.2 p GHz, at half that while it is stretched. -/
def Island.loss (x : Island) : Nat := if x.stretch then 21 + 2 * x.point else 4 * x.point

/-- n reference clocks pass: counter 15 of the cores of every island that runs below point 0 or is stretched takes them (R156, R412), and its clock falls
behind. -/
def tick (s : State) (n : Nat) : State :=
  let slow := s.mgmt.islands.filter fun x => x.2.point != 0 || x.2.stretch
  let s := slow.foldl (fun s x => (clusterCores x.1).foldl (fun s c => bump s c 15 n) s) { s with clock := s.clock + n }
  { s with mgmt := { s.mgmt with islands := s.mgmt.islands.map fun (i, x) => (i, { x with lost := x.lost + n * x.loss }) } }

/-- Run what the decoder made of the bits at the pc (R181); bits that are no instruction are an illegal-instruction trap with the
bits in xtval, the first 16 for a length that is not implemented (R179). -/
def runDecoded (s : State) (h bits : Nat) : Host.Outcome State Fault Refusal :=
  match decode bits with
  | .ok (.instr i, n) => exec i (latch s h bits n)
  | .ok (.base b, n) => execBase b (latch s h bits n)
  | .error _ => illegalNow (latch s h bits ((lengthOf bits).getD 2))

/-- Hart h issues: an interrupt that it takes, or the instruction at its pc. -/
def issue (s : State) (h : Nat) : Host.Outcome State Fault Refusal :=
  let s := { s with cur := h }
  if (s.hart h).halted || !(s.hart h).live then .next s
  else match haltOrIntr s h with
    | some t => .next t
    | none =>
      if mayIssue s h then
        match fetch s h with
        | (t, none) => .next t
        | (t, some bits) => runDecoded t h bits
      else .next s

/-- A hart is ready (R162): its turn does something, and where it waits, its instruction would now leave that wait. -/
def isReady (s : State) (h : Nat) : Bool :=
  wantsTurn s h && ((s.hart h).wait == .ready || (match issue s h with
    | .next t => (t.hart h).wait != (s.hart h).wait
    | _ => true))

/-- A turn of hart h: where it is ready its slot notes that it issues (R163); where it is not its wait stands. -/
def hartTurn (s : State) (h : Nat) : Host.Outcome State Fault Refusal := issue (if isReady s h then noteIssue s h else s) h

/-- The hart that a turn of hart h's slot goes to (R163): the current hart while it is ready, with no switch asked for and fewer than 256
clocks in a row; else the next ready one upward; the current hart again where no other is ready; h itself where none is. -/
def slotHart (s : State) (h : Nat) : Nat :=
  let x := (s.core (coreOf h)).slotOf (hartNo h / 4)
  let at_ := fun i => h / 4 * 4 + (x.cur + i) % 4
  let next := ([1, 2, 3].map at_).find? (isReady s)
  if isReady s (at_ 0) then
    if x.yield || 256 ≤ x.run then next.getD (at_ 0) else at_ 0
  else next.getD h

end Sys2Proof.Machine
end

