-- ==== Sys2Proof/Machine/Step.lean ====
section
/-!
DEFINITION. The step of the device: one turn of the agenda (log 1).
-/
namespace Sys2Proof.Machine

/-- One step: the next turn, a clock later. -/
def step (s : State) : Host.Outcome State Fault Refusal :=
  match stopped s with
  | some o => o
  | none =>
    let p := pickTurn s
    let s := { s with agenda := p.2 }
    match p.1 with
    | .wait n => .next (tick s n)
    | .hart h =>
      let s := tick s 1
      hartTurn s (slotHart s h)
    | .event i a => exec i { tick s 1 with ev := a }

/-- The state with an instruction placed at the pc of its current hart, whose turn comes next (log 17). -/
def State.withFetchWord (s : State) (nbits w : Nat) : State :=
  let s := (List.range 4).foldl (fun t i => placeParcel t t.cur (t.me.pc + word (2 * i)) (w % 2 ^ nbits / 2 ^ (16 * i) % 2 ^ 16)) s
  { s.modMe (fun x => { x with live := true, halted := false, wait := .ready }) with agenda := .hart s.cur :: s.agenda }

end Sys2Proof.Machine
end

