-- ==== Sys2Proof/Safety.lean ====
section
/-!
DEFINITION. What a safe step is, and the terms the statements use: what an instruction leaves as it was, what it writes, and the
tables of the results that spec/ gives the forms of one shape.
-/
namespace Sys2Proof
open Machine

/-- The step goes on. -/
def Goes (s t : State) : Prop := step s = .next t

/-- The meaning of an instruction goes on with a state. -/
def Runs (i : Instr) (s t : State) : Prop := exec i s = .next t

/-- Every byte of memory reads as it did. -/
def SameMemory (s t : State) : Prop := ∀ a, rawByte t a = rawByte s a

/-- Every byte of memory outside the peer windows reads as it did: what leaves a cluster's cache may reach a peer's window (R132). -/
def HomeMemory (s t : State) : Prop := ∀ a, isPeer (a / 128) = false → rawByte t a = rawByte s a

/-- What fills and write-backs of the cluster caches and the L2 may change (R30, R52 to R62, R132): the lines that they hold, the metadata of lines, the lane
TLBs and the walkers that serve write-backs, peers' windows, and what leaves for the host and the peers. Every register, every other cache and every byte of HBM and of the host is as it was, and memory keeps its
canonical form. -/
def CacheMoves (s t : State) : Prop :=
  HomeMemory s t ∧ (Memory.wf s.mem = true → Memory.wf t.mem = true) ∧
  { t with mem := s.mem, lines := s.lines, clusters := s.clusters, dies := s.dies, egress := s.egress, choices := s.choices, walkers := s.walkers } = s ∧
  (∀ k, { t.cluster k with cache := (s.cluster k).cache, tlbLane := (s.cluster k).tlbLane } = s.cluster k) ∧
  ∀ d, { t.die d with l2 := (s.die d).l2 } = s.die d

/-- The instruction completes and changes its own hart alone: the hart becomes `h'`; every other hart, every core, cluster and
table, and every byte of memory is as it was. -/
def Becomes (i : Instr) (s : State) (h' : Hart) : Prop := ∃ t, Runs i s t ∧ t = s.setHart s.cur h' ∧ SameMemory s t

/-- The instruction traps on its own hart and changes nothing else. -/
def Traps (i : Instr) (s : State) (cause : Nat) (tval : Word) : Prop := Runs i s (takeTrap s s.cur false cause tval)

/-- The row as which the decoder reads an instruction's words: rows that are one word are told apart when it executes (log 8), and
`pause` is the `fence` word with predecessor set W and nothing else. -/
def Instr.spelt (i : Instr) : Instr :=
  match i with
  | .fence fm pred succ a d => if fm = 0 ∧ pred = 1 ∧ succ = 0 ∧ a = 0 ∧ d = 0 then .pause else i
  | .hpassStart d a | .hpassStatus d a | .hpassWait d a | .hpassDisarm d a => .hpassArm d a
  | .kslabAbort o => .kslabGo o
  | .kchqErrClear o => .kchqDepthWrite o
  | .ksibctlResume o => .ksibctlHalt o
  | .kcsaveRestore o => .kcsaveSave o
  | .ktqctlRerrClear o => .ktqctlTailWrite o
  | .kkctlErase o | .kkctlDerive o | .kkctlUnwrap o | .kkctlRebind o => .kkctlQuery o
  | .pmpWrite num o | .registerWrite (.csr num o) => csrRow num o
  | _ => i

/-! ### Lane results -/

/-- The lane registers of `h'`: in each active lane the W-bit element of v[d] (the pair v[d], v[d + 1] for W = 64) is `r`'s, and every
other element of every register is `h`'s (R174, R184). -/
def LaneElems (h h' : Hart) (f : L64) (w d : Nat) (r : Nat → Nat) : Prop :=
  ∀ n l, l < 32 → h'.getV n l =
    if (effMask h f).getLsbD l then
      if n = d then BitVec.ofNat 32 (r l) else if w = 64 ∧ n = d + 1 then BitVec.ofNat 32 (r l / 2 ^ 32) else h.getV n l
    else h.getV n l

/-- A lane form completes with the elements `r` in its active lanes: everything of the hart but its lane registers is as it was,
but for the marks of a completed instruction and, where a lane is active, XS = dirty (R174, R180). -/
def LaneDone (i : Instr) (s : State) (f : L64) (w d : Nat) (r : Nat → Nat) : Prop :=
  ∃ h', Becomes i s h' ∧ LaneElems s.me h' f w d r ∧
    { h' with v := s.me.v } = (if effMask s.me f = 0 then s.me else s.me.dirtyXs).done

/-- A compare completes with bit `r l` of m[d] in each active lane l; the other bits of m[d] and every other mask register stand
(R212, R224). -/
def MaskElems (h h' : Hart) (f : L64) (d : Nat) (r : Nat → Bool) : Prop :=
  ∀ n, h'.getM n = if n = d then BitVec.ofNat 32 (maskOf 32 fun l => if (effMask h f).getLsbD l then r l else (h.getM d).getLsbD l) else h.getM n

def MaskDone (i : Instr) (s : State) (f : L64) (d : Nat) (r : Nat → Bool) : Prop :=
  ∃ h', Becomes i s h' ∧ (effMask s.me f ≠ 0 → MaskElems s.me h' f d r) ∧ (effMask s.me f = 0 → h' = s.me.done) ∧
    { h' with m := s.me.m } = (if effMask s.me f = 0 then s.me else s.me.dirtyXs).done

/-- The two-source integer forms with their results by W, a and operand b (R215 to R217). -/
def intForms2 (f : L64) : List (Instr × (Nat → Nat → Nat → Nat)) :=
  [ (.ladd f, fun w a b => (a + b) % 2 ^ w), (.lsub f, fun w a b => ofS w ((a : Int) - b))
  , (.ladds f, fun w a b => satS w (toS w a + toS w b)), (.lsubs f, fun w a b => satS w (toS w a - toS w b))
  , (.lmul f, fun w a b => if f.md = 6 then satS w (toS w a * toS w b) else a * b % 2 ^ w)
  , (.lmulh f, fun w a b => ofS w (toS w a * toS w b / 2 ^ w)), (.lmulhu f, fun w a b => a * b / 2 ^ w)
  , (.ldiv f, fun w a b => if b = 0 then 2 ^ w - 1 else ofS w (Int.tdiv (toS w a) (toS w b)))
  , (.ldivu f, fun w a b => if b = 0 then 2 ^ w - 1 else a / b)
  , (.lrem f, fun w a b => if b = 0 then a else ofS w (Int.tmod (toS w a) (toS w b)))
  , (.lremu f, fun _ a b => if b = 0 then a else a % b)
  , (.land f, fun _ a b => a &&& b), (.lor f, fun _ a b => a ||| b), (.lxor f, fun _ a b => a ^^^ b)
  , (.landn f, fun w a b => a &&& (2 ^ w - 1 - b))
  , (.lsll f, fun w a b => if f.md = 6 then satS w (toS w a * 2 ^ (b % w)) else a * 2 ^ (b % w) % 2 ^ w)
  , (.lsrl f, fun w a b => a / 2 ^ (b % w)), (.lsra f, fun w a b => ofS w (toS w a / 2 ^ (b % w)))
  , (.lmin f, fun w a b => if toS w b < toS w a then b else a), (.lmax f, fun w a b => if toS w a < toS w b then b else a)
  , (.lminu f, fun _ a b => min a b), (.lmaxu f, fun _ a b => max a b) ]

/-- The one-source integer forms with their results by W and a (R215). -/
def intForms1 (f : L64) : List (Instr × (Nat → Nat → Nat)) :=
  [ (.labs f, fun w a => if f.md = 6 then satS w (toS w a).natAbs else ofS w (toS w a).natAbs)
  , (.lcpop f, fun w a => ((List.range w).filter fun i => a.testBit i).length), (.lmov f, fun _ a => a) ]

/-- Bit i of the result of `lbfx` (R217), with POS = b[5:0], LEN = b[12:6] and E = min(POS + LEN, W): the bits of a from POS on, then zeros,
or for `.sat` copies of bit E - 1; all zero for an empty field. -/
def bfxBit (sat : Bool) (w a b i : Nat) : Bool :=
  let pos := b % 64
  let len := b / 64 % 128
  let e := min (pos + len) w
  if len = 0 ∨ w ≤ pos then false else if pos + i < e then a.testBit (pos + i) else sat && a.testBit (e - 1)

/-- Bit i of the result of `lbfi` (R217): c with bits [E - 1 : POS] replaced by the low bits of a. -/
def bfiBit (w a b c i : Nat) : Bool :=
  let pos := b % 64
  let len := b / 64 % 128
  let e := min (pos + len) w
  if (len = 0 ∨ w ≤ pos) ∨ i < pos ∨ e ≤ i then c.testBit i else a.testBit (i - pos)

/-- A lane form completes with a result that has bit `b l i` at every place i below W of every active lane l. -/
def LaneBits (i : Instr) (s : State) (f : L64) (w d : Nat) (b : Nat → Nat → Bool) : Prop :=
  ∃ r, LaneDone i s f w d r ∧ ∀ l ∈ activeLanes s.me f, r l < 2 ^ w ∧ ∀ k < w, (r l).testBit k = b l k

/-! ### Scalar and mask results -/

/-- x[d] holds v, and every other x register what it held; a write to x0 is discarded. -/
def XReg (h h' : Hart) (d : Nat) (v : Word) : Prop := ∀ n, h'.getX n = if n = 0 then 0 else if n = d then v else h.getX n

/-- A form completes with v in x[d]; nothing else of the hart changes but for the marks of a completed instruction. -/
def XDone (i : Instr) (s : State) (d : Nat) (v : Word) : Prop :=
  ∃ h', Becomes i s h' ∧ XReg s.me h' d v ∧ { h' with x := s.me.x } = s.me.done

/-- A lane form completes with v in x[d] where a lane is active, and writes nothing where none is (R211, step 3). -/
def LaneX (i : Instr) (s : State) (f : L64) (d : Nat) (v : Word) : Prop :=
  if effMask s.me f = 0 then Becomes i s s.me.done else XDone i s d v

/-- m[d] holds v, and every other mask register what it held. -/
def MReg (h h' : Hart) (d : Nat) (v : BitVec 32) : Prop := ∀ n, h'.getM n = if n = d then v else h.getM n

/-- A form completes with v in m[d]; nothing else of the hart changes but XS and the marks of a completed instruction. -/
def MDone (i : Instr) (s : State) (d : Nat) (v : BitVec 32) : Prop :=
  ∃ h', Becomes i s h' ∧ MReg s.me h' d v ∧ { h' with m := s.me.m } = s.me.dirtyXs.done

/-- The integer compares with their relations by W, a and operand b (R224). -/
def cmpForms (f : L64) : List (Instr × (Nat → Nat → Nat → Bool)) :=
  [ (.lcmpEq f, fun _ a b => decide (a = b)), (.lcmpNe f, fun _ a b => decide (a ≠ b))
  , (.lcmpLt f, fun w a b => decide (toS w a < toS w b)), (.lcmpGe f, fun w a b => decide (toS w a ≥ toS w b))
  , (.lcmpLtu f, fun _ a b => decide (a < b)), (.lcmpGeu f, fun _ a b => decide (a ≥ b)) ]

/-- The shuffles with the source lane of lane l under operand b (R228). -/
def shflForms (f : L64) : List (Instr × (Nat → Nat → Nat)) :=
  [ (.lshflIdx f, fun _ b => b % 32), (.lshflUp f, fun l b => if b ≤ l then l - b else l)
  , (.lshflDn f, fun l b => if l + b ≤ 31 then l + b else l), (.lshflXor f, fun l b => l ^^^ (b % 32)) ]

/-- The integer reductions with their combining operation by W (R229). -/
def redForms (f : L64) : List (Instr × (Nat → Nat → Nat → Nat)) :=
  [ (.lredAdd f, fun w a b => (a + b) % 2 ^ w), (.lredMin f, fun w a b => if toS w b < toS w a then b else a)
  , (.lredMax f, fun w a b => if toS w a < toS w b then b else a), (.lredAnd f, fun _ a b => a &&& b)
  , (.lredOr f, fun _ a b => a ||| b), (.lredXor f, fun _ a b => a ^^^ b) ]

/-- The two-source mask forms (R225). -/
def maskForms2 (d a b : BitVec 5) : List (Instr × (BitVec 32 → BitVec 32 → BitVec 32)) :=
  [ (.mand d a b, fun x y => x &&& y), (.mor d a b, fun x y => x ||| y), (.mxor d a b, fun x y => x ^^^ y), (.mandn d a b, fun x y => x &&& ~~~y) ]

/-! ### Floating-point results -/

/-- A floating-point lane form completes: its hart becomes `h'` with the flags raised; its core's counters 0 to 3 rise by the bits of
`cnt`; its cluster's STICKY takes the flags; nothing else changes (R149, R150, R156). -/
def FpDone (i : Instr) (s : State) (h' : Hart) (fl cnt : Nat) : Prop :=
  ∃ t, Runs i s t ∧ SameMemory s t ∧ t.me = (h'.orFlags fl).done ∧ (∀ h, h ≠ s.cur → t.hart h = s.hart h) ∧
    (∀ k, t.myCore.kev.get 0 k =
      if k < 4 ∧ cnt.testBit k then min (s.myCore.kev.get 0 k + 1) (2 ^ 48 - 1) else s.myCore.kev.get 0 k) ∧
    { t.myCore with kev := s.myCore.kev } = s.myCore ∧ (∀ c, c ≠ coreOf s.cur → t.core c = s.core c) ∧
    t.cluster s.myCluster = { s.cluster s.myCluster with sticky := (s.cluster s.myCluster).sticky ||| BitVec.ofNat 5 fl } ∧
    (∀ k, k ≠ s.myCluster → t.cluster k = s.cluster k) ∧
    { t with harts := s.harts, cores := s.cores, clusters := s.clusters } = s

/-- A floating-point lane form completes with the results `r` in its active lanes, their flags and counters in union; with no active
lane it only sets FS (R211, R219). -/
def LaneFpDone (i : Instr) (s : State) (f : L64) (w d : Nat) (r : Nat → FRes) : Prop :=
  (effMask s.me f = 0 → Becomes i s (s.me.setFs 3).done) ∧
  (effMask s.me f ≠ 0 →
    ∃ h', FpDone i s h' (allFlags ((activeLanes s.me f).map r)) (allCnt ((activeLanes s.me f).map r)) ∧
      LaneElems s.me h' f w d (fun l => (r l).bits) ∧ { h' with v := s.me.v } = (s.me.setFs 3).dirtyXs)

/-- The forms of group 001 but `lfcvt`: whether each rounds, and its result by rounding mode, format and elements (R220 to R222). -/
def fpForms (f : L64) : List (Instr × Bool × (Nat → Fmt → Nat → Nat → Nat → FRes)) :=
  let sat := decide (f.md = 6)
  [ (.lfadd f, true, fun rm x a b _ => fAdd x rm sat a b), (.lfsub f, true, fun rm x a b _ => fSub x rm sat a b)
  , (.lfmul f, true, fun rm x a b _ => fMul x rm sat a b), (.lffma f, true, fun rm x a b c => fMa x rm sat false false a b c)
  , (.lffms f, true, fun rm x a b c => fMa x rm sat false true a b c), (.lfnma f, true, fun rm x a b c => fMa x rm sat true false a b c)
  , (.lfdiv f, true, fun rm x a b _ => fDiv x rm sat a b), (.lfsqrt f, true, fun rm x a _ _ => fSqrt x rm a)
  , (.lfrcp f, true, fun rm x a _ _ => fRcp x rm sat a), (.lfrsq f, true, fun rm x a _ _ => fRsq x rm a)
  , (.lfex2 f, true, fun rm x a _ _ => fEx2 x rm sat a), (.lflg2 f, true, fun rm x a _ _ => fLg2 x rm a)
  , (.lfsin f, true, fun rm x a _ _ => fTrig x rm false a), (.lfcos f, true, fun rm x a _ _ => fTrig x rm true a)
  , (.lfround f, true, fun rm x a _ _ => fRound x rm sat a)
  , (.lfmin f, false, fun _ x a b _ => fMinMax x false a b), (.lfmax f, false, fun _ x a b _ => fMinMax x true a b)
  , (.lfabs f, false, fun _ x a _ _ => { bits := a % 2 ^ (x.width - 1) })
  , (.lfneg f, false, fun _ x a _ _ => { bits := (a + 2 ^ (x.width - 1)) % 2 ^ x.width })
  , (.lfsgnj f, false, fun _ x a b _ => { bits := a % 2 ^ (x.width - 1) + b / 2 ^ (x.width - 1) * 2 ^ (x.width - 1) })
  , (.lfclass f, false, fun _ x a _ _ => { bits := fClass x a }) ]

/-- The floating-point compares with their relation codes (R224). -/
def fcmpForms (f : L64) : List (Instr × Nat) := [(.lfcmpEq f, 0), (.lfcmpLt f, 1), (.lfcmpLe f, 2), (.lfcmpUn f, 3)]

/-- The floating-point reductions: whether each rounds, and its node (R154, R229). -/
def fredForms (f : L64) : List (Instr × Bool × (Nat → Nat → Nat → FRes)) :=
  [ (.lredFadd f, true, fun rm a b => fAdd (fmtOf f.ty) rm false a b), (.lredFmin f, false, fun _ a b => fMinMax (fmtOf f.ty) false a b)
  , (.lredFmax f, false, fun _ a b => fMinMax (fmtOf f.ty) true a b) ]

/-- The rounding mode that a form runs with: that of its md field where it rounds (R148). -/
def RoundsWith (h : Hart) (f : L64) (rounds : Bool) (rm : Nat) : Prop := if rounds then roundMode h f.md = some rm else rm = 0

/-- Node i of level n of the balanced tree over the lanes (R154): level 0 holds the lanes, level n + 1 pairs the nodes 2 i and 2 i + 1 of level
n; a node with one input passes it on. -/
def treeAt (g : Nat → Nat → FRes) (leaf : Nat → Option FRes) : Nat → Nat → Option FRes
  | 0, i => leaf i
  | n + 1, i => treeNode g (treeAt g leaf n (2 * i)) (treeAt g leaf n (2 * i + 1))

/-- The value of a number with mantissa m and exponent e. -/
def ratOf (m : Nat) (e : Int) : Rat := (m : Rat) * (2 : Rat) ^ e

/-- The lane floating-point forms (R211): illegal while FS is Off. -/
def fpAll (f : L64) : List Instr :=
  (fpForms f).map (·.1) ++ (fcmpForms f).map (·.1) ++ (fredForms f).map (·.1) ++ [.lfcvt f, .lscanFadd f, .lfamoAddS f, .lfamoMinS f, .lfamoMaxS f]

/-- Those of them that round (R148). -/
def fpRounding (f : L64) : List Instr :=
  ((fpForms f).filter (·.2.1)).map (·.1) ++ [.lredFadd f, .lfcvt f, .lscanFadd f]

/-! ### Lane memory -/

/-- The lane loads: bytes, sign extension (R232). -/
def loadForms (f : L64) : List (Instr × Nat × Bool) :=
  [(.lldB f, 1, true), (.lldBu f, 1, false), (.lldH f, 2, true), (.lldHu f, 2, false), (.lldW f, 4, false), (.lldD f, 8, false), (.lldQ f, 16, false)]

/-- The lane stores: bytes. -/
def storeForms (f : L64) : List (Instr × Nat) := [(.lstB f, 1), (.lstH f, 2), (.lstW f, 4), (.lstD f, 8), (.lstQ f, 16)]

/-- The integer atomics: bytes, and the new value by the element m, c and the old d; none where nothing is written (R236). -/
def amoForms (f : L64) : List (Instr × Nat × (Nat → Nat → Nat → Option Nat)) :=
  [ (.lamoAddW f, 4, fun m c _ => some ((m + c) % 2 ^ 32)), (.lamoAddD f, 8, fun m c _ => some ((m + c) % 2 ^ 64))
  , (.lamoAndW f, 4, fun m c _ => some (m &&& c)), (.lamoAndD f, 8, fun m c _ => some (m &&& c))
  , (.lamoOrW f, 4, fun m c _ => some (m ||| c)), (.lamoOrD f, 8, fun m c _ => some (m ||| c))
  , (.lamoXorW f, 4, fun m c _ => some (m ^^^ c)), (.lamoXorD f, 8, fun m c _ => some (m ^^^ c))
  , (.lamoMinW f, 4, fun m c _ => some (if toS 32 c < toS 32 m then c else m)), (.lamoMinD f, 8, fun m c _ => some (if toS 64 c < toS 64 m then c else m))
  , (.lamoMaxW f, 4, fun m c _ => some (if toS 32 m < toS 32 c then c else m)), (.lamoMaxD f, 8, fun m c _ => some (if toS 64 m < toS 64 c then c else m))
  , (.lamoMinuW f, 4, fun m c _ => some (min m c)), (.lamoMinuD f, 8, fun m c _ => some (min m c))
  , (.lamoMaxuW f, 4, fun m c _ => some (max m c)), (.lamoMaxuD f, 8, fun m c _ => some (max m c))
  , (.lamoSwapW f, 4, fun _ c _ => some c), (.lamoSwapD f, 8, fun _ c _ => some c)
  , (.lcasW f, 4, fun m c d => if m = d then some c else none), (.lcasD f, 8, fun m c d => if m = d then some c else none) ]

/-- The floating-point atomics (R236). -/
def famoForms (f : L64) : List (Instr × (Nat → Nat → FRes)) :=
  [(.lfamoAddS f, fAdd fp32 0 false), (.lfamoMinS f, fMinMax fp32 false), (.lfamoMaxS f, fMinMax fp32 true)]

/-- Every lane atomic: bytes, whether it is a floating-point form, and its update: the new value where one is written, with the flags and counters
that it raises (R236). -/
def atomicForms (f : L64) : List (Instr × Nat × Bool × Update) :=
  (amoForms f).map (fun x => (x.1, x.2.1, false, fun m c d => (x.2.2 m c d, ({} : FRes)))) ++
    (famoForms f).map fun x => (x.1, 4, true, fun m c _ => (some (x.2 m c).bits, { x.2 m c with bits := 0 }))

/-- The state in which a lane atomic makes its checks: a floating-point form has set FS (R211). -/
def fpStart (s : State) (fp : Bool) : State := if fp then s.setHart s.cur (s.me.setFs 3) else s

/-- The lanes that access memory and their addresses (R187). -/
def accsOf (s : State) (f : L64) : List (Nat × Word) := (activeLanes s.me f).map fun l => (l, laneAddr s.me f l)

/-- The same for an atomic of n bytes. -/
def amoAccs (s : State) (f : L64) (n : Nat) : List (Nat × Word) := (activeLanes s.me f).map fun l => (l, atomicAddr s.me f n l)

/-- The flag that the instruction counts on, A or B, is none or has room (R195). -/
def FlagFree (s : State) (write : Bool) : Prop :=
  s.me.clause.rem = 0 ∨ 12 ≤ (if write then s.me.clause.fb else s.me.clause.fa).toNat ∨
    s.me.getCf (if write then s.me.clause.fb else s.me.clause.fa).toNat < 63

/-- Steps 3 and 4 of R233 pass for n bytes at each of the addresses by the accesses of `w`, leaving the state `t` with the pieces placed at `ps`. -/
def Checked (s : State) (w : Who) (write : Bool) (a : Acc) (code n : Nat) (accs : List (Nat × Word)) (ps : List Placed) (t : State) : Prop :=
  FlagFree s write ∧ wmHeld s (accs.map fun x => (x.2.toNat, n)) = none ∧
    placeMine w .lane a code (laneSegs accs n) s = .ok (ps, t)

/-- A walk for `va` from state s finds its leaf in the entry at some address, and memory takes bit A of that entry, with `d` bit D too, and nothing else (R27, R29,
R34). -/
def WalkMarks (s : State) (k fn : Nat) (va : Word) (d : Bool) (t : State) : Prop :=
  ∃ u e at_ lvl, unitWalk s k fn va = (u, .ok (e, at_, lvl)) ∧
    t.mem = (if d then setPteBit (setPteBit s at_ 8) at_ 9 else setPteBit s at_ 8).mem

/-- What the checks of one access at `va` do to memory (R22, R23, R27, R33): the page comes from a buffer, or a walk marks A; a store to a page that is not dirty walks again,
and marks A and D; a line that the cluster does not hold passes the TLB, where a walk marks A. -/
def CheckMarks (s : State) (w : Who) (src : Src) (a : Acc) (mxr setD : Bool) (va : Word) (t : State) : Prop :=
  let k := clusterOf w.core
  let u := (pageFor s w src va).1
  let v := (markDirty u w src a mxr va).1
  t.mem = s.mem ∨ w.bare = false ∧ canonical va = true ∧
    (u.mem = s.mem ∨ WalkMarks s k w.fn va false u) ∧ (v.mem = u.mem ∨ WalkMarks u k w.fn va true v) ∧
    ((t.mem = u.mem ∨ WalkMarks u k w.fn va false t) ∨ setD = true ∧ a.writes = true ∧ (t.mem = v.mem ∨ WalkMarks v k w.fn va false t))

/-- Every placed line of an atomic may enter the cluster and is not poison (R70, R340). -/
def EntersClean (t : State) (w : Who) (ps : List Placed) : Prop :=
  ∀ p ∈ ps, seenPoison t w (p.seg.at_.toNat / 128) (p.ref.pa / 128) = false ∧ entryOk t w (p.seg.at_.toNat / 128) p.ref.key (p.ref.pa / 128) = true

/-- The lane registers after a load of n bytes per lane (R184, R232): 1 and 2 bytes extended to the element, 4, 8 and 16 bytes in one, two and
four registers, lowest first; inactive lanes and other registers stand. -/
def LoadElems (h h' : Hart) (f : L64) (n : Nat) (sg : Bool) (bytes : Nat → List Byte) : Prop :=
  ∀ m l, l < 32 → h'.getV m l =
    if (effMask h f).getLsbD l = true ∧ f.d.toNat ≤ m ∧ m < f.d.toNat + max 1 (n / 4) then
      (if n < 4 then (if sg then (sext (leWord (bytes l)) (8 * n)).setWidth 32 else BitVec.ofNat 32 (leToNat (bytes l)))
       else BitVec.ofNat 32 (leToNat (((bytes l).drop (4 * (m - f.d.toNat))).take 4)))
    else h.getV m l

/-- The cells that lane data store at placed pieces, in ascending lane order. -/
def storedCells (ps : List Placed) (data : Nat → List Byte) : List VCell := (ps.map fun p => cellsFor p (data p.seg.lane)).flatten

/-- Memory after a store of cells that no key seals, of peer windows apart, whose bytes a cluster may hold until a release (R132): each stored byte holds the value
of the last cell that names it, every other byte what it held (R235). -/
def StoredTo (t u : State) (cs : List PCell) : Prop :=
  ∀ a, isPeer (a / 128) = false → rawByte u a = match cs.reverse.find? fun c => c.pa == a with
    | some c => c.val
    | none => rawByte t a

/-- Every active lane's scratch access of n bytes lies in the grant and is aligned (R76). -/
def ScratchFits (s : State) (n : Nat) (accs : List (Nat × Word)) : Prop :=
  ∀ x ∈ accs, x.2.toNat + n ≤ scratchSize s ∧ x.2.toNat % min n 4 = 0

/-- No word of the accesses is poison (R70). -/
def ScratchClean (s : State) (n : Nat) (accs : List (Nat × Word)) : Prop :=
  ∀ x ∈ accs, (s.cls (classOf s s.cur)).scratchPsn x.2.toNat n = false

/-- The state that a lane atomic leaves once its lanes' updates have run in an order: the old values in v[d], the flags and counters raised. -/
def amoEnd (f : L64) (n : Nat) (ls : List Nat) (r : State × List (Nat × Nat) × FRes) : State :=
  setFlags (bumpFp (r.1.modMe fun h => h.setLanes (8 * n) f.d.toNat ls fun l => ((r.2.1.find? fun x => x.1 == l).map (·.2)).getD 0) r.2.2.cnt)
    r.2.2.flags

/-! ### The class save area (R321) -/

/-- `bs` is the class save area of class k on core c: the blackboards, a record per barrier id, the slots and accumulators of a matrix grant, the scratch. The
phase of a stage barrier that has been decided counts as released (log 24). -/
def AreaHolds (c : Core) (k : ClassRec) (bs : List Byte) : Prop :=
  let at_ := fun (o n : Nat) => (bs.drop o).take n
  bs.length = scratchAt k + k.scrSize ∧ (∀ i < 16, at_ (8 * i) 8 = natToLe 8 (k.bb.get 0 i).toNat) ∧
  (∀ i < 128,
    let b := savedBar (c.bar i)
    let mask := fun (p : Nat → Bool) => maskOf 16 fun j => decide (j < k.harts.length) && p (nth 0 k.harts j)
    at_ (0x80 + 32 * i) 32 =
      if k.nbar ≤ i then List.replicate 32 0
      else match b.cfg with
        | none => wordBytes [word (i * 2 ^ 18), 0, 0, 0]
        | some g => wordBytes
            [ word (g.toNat + i * 2 ^ 18 + b2n b.broken * 2 ^ 25 + b.phase % 2 * 2 ^ 26 + 2 ^ 27)
            , word (b.arr0 + b.arr1 * 2 ^ 5 + mask (fun h => (b.pending h).isSome) * 2 ^ 10 + mask (fun h => (b.pending h).any fun p => p % 2 == 1) * 2 ^ 26)
            , word (b.ann.get 0 b.phase), word b.delivered ]) ∧
  (∀ a, k.acc = some a →
    (∀ i < 8,
      let t := c.op i
      let r := fun n => bs.getD (0x1080 + 73728 * i + n) 0
      (t.loaded = false → ∀ n < 73728, r n = 0) ∧
      (t.loaded = true → at_ (0x1080 + 73728 * i) 16 = natToLe 16 t.hdr.toNat ∧ (∀ n, 16 ≤ n → n < 128 → r n = 0) ∧
        ∀ n, 128 + n < 73728 → r (128 + n) = match (slotPlaces t.hdr)[n]? with
          | some p => t.at_ p
          | none => 0)) ∧
    ∀ i < a,
      let x := c.acc i
      let o := 0x91080 + 65664 * i
      at_ o 16 = natToLe 16 x.hdr.toNat ∧ (∀ n, 16 ≤ n → n < 128 → bs.getD (o + n) 0 = 0) ∧
      (hEfmt x.hdr ≠ 1 → ∀ p < 128, ∀ q < 128, at_ (o + 128 + 4 * (128 * p + q)) 4 = natToLe 4 (x.elems.get 0 (128 * p + q)).toNat) ∧
      (hEfmt x.hdr = 1 → ∀ p < 128, ∀ q < 64, at_ (o + 128 + 8 * (64 * p + q)) 8 = natToLe 8 (x.elems.get 0 (128 * p + q)).toNat)) ∧
  ∀ j < k.scrSize, bs.getD (scratchAt k + j) 0 = k.scr.get 0 j

/-- Some header that the area of a class with a matrix grant holds fails its CRC: of a slot that is not empty, or of an accumulator. -/
def AreaSpoilt (k : ClassRec) (bs : List Byte) : Prop :=
  ∃ a, k.acc = some a ∧ ((∃ i < 8, let h := hdrOf ((bs.drop (0x1080 + 73728 * i)).take 16)
    h ≠ 0 ∧ crcOk h = false) ∨ ∃ i < a, crcOk (hdrOf ((bs.drop (0x91080 + 65664 * i)).take 16)) = false)

/-- Class k' on core c' holds what the area `bs` holds for class k: blackboards and scratch, the granted barriers with their configuration, parities, arrivals and
bytes, the slots and accumulators. -/
def AreaTaken (k k' : ClassRec) (c' : Core) (bs : List Byte) : Prop :=
  let w := fun (o : Nat) => leWord ((bs.drop o).take 8)
  (∀ i < 16, k'.bb.get 0 i = w (8 * i)) ∧ (∀ j < k.scrSize, k'.scr.get 0 j = bs.getD (scratchAt k + j) 0) ∧ k'.scrPsn = [] ∧
  (∀ i < k.nbar, i < 128 →
    let r := fun j => w (0x80 + 32 * i + 8 * j)
    let b := c'.bar i
    (bitOf (r 0) 27 = false → b = {}) ∧
    (bitOf (r 0) 27 = true → b.cfg = some ((r 0).extractLsb' 0 18) ∧ b.broken = bitOf (r 0) 25 ∧ b.phase % 2 = fld (r 0) 26 1 ∧ b.arr0 = fld (r 1) 0 5 ∧
      b.arr1 = fld (r 1) 5 5 ∧ b.ann.get 0 b.phase = (r 2).toNat ∧ b.delivered = (r 3).toNat ∧
      ((k.harts.map hartNo).Nodup → ∀ j < 16, j < k.harts.length → (b.pending (nth 0 k.harts j)).isSome = bitOf (r 1) (10 + j) ∧
        ∀ p, b.pending (nth 0 k.harts j) = some p → p % 2 = fld (r 1) (26 + j) 1))) ∧
  ∀ a, k.acc = some a →
    (∀ i < 8,
      let h := hdrOf ((bs.drop (0x1080 + 73728 * i)).take 16)
      let t := c'.op i
      (h = 0 → t = {}) ∧ (h ≠ 0 → t.loaded = true ∧ t.hdr = h ∧ ((slotPlaces h).Nodup → ∀ n p, 128 + n < 73728 → (slotPlaces h)[n]? = some p →
        t.at_ p = bs.getD (0x1080 + 73728 * i + 128 + n) 0))) ∧
    ∀ i < a,
      let o := 0x91080 + 65664 * i
      let h := hdrOf ((bs.drop o).take 16)
      let x := c'.acc i
      x.hdr = h ∧ (hEfmt h ≠ 1 → ∀ p < 128, ∀ q < 128, x.elems.get 0 (128 * p + q) = leWord ((bs.drop (o + 128 + 4 * (128 * p + q))).take 4)) ∧
      (hEfmt h = 1 → ∀ p < 128, ∀ q < 64, x.elems.get 0 (128 * p + q) = leWord ((bs.drop (o + 128 + 8 * (64 * p + q))).take 8))

/-! ### Tiles -/

/-- The bytes of a pool slot after (offset, byte) pairs have been written to it: the last pair for an offset stands; nothing of the slot but its bytes, the
written bits of its lines and its taint changes. -/
def SlotPut (t u : PoolSlot) (bs : List (Nat × Byte)) : Prop :=
  (∀ o, u.bytes.get 0 o = match bs.reverse.find? fun x => x.1 == o with
    | some x => x.2
    | none => t.bytes.get 0 o) ∧
  { u with bytes := t.bytes, written := t.written, taint := t.taint } = t

/-- Nothing differs but the current hart, its core, one pool slot, and the time of a partition's last read (R103). -/
def OnlyTile (s t : State) (r : TileRef) : Prop :=
  SameMemory s t ∧ { t with harts := s.harts, cores := s.cores, clusters := s.clusters, classes := s.classes } = s ∧
    (∀ h, h ≠ s.cur → t.hart h = s.hart h) ∧ (∀ c, c ≠ coreOf s.cur → t.core c = s.core c) ∧
    (∀ k u, k ≠ r.clus ∨ u ≠ r.unit → (t.cluster k).slot u = (s.cluster k).slot u) ∧
    (∀ k p, { (t.cluster k).part p with lastRead := 0 } = { (s.cluster k).part p with lastRead := 0 }) ∧
    ∀ k, { t.cluster k with slots := (s.cluster k).slots, parts := (s.cluster k).parts } = s.cluster k

/-- The hart's handle names a live tile that its launch owns (R90, R96). -/
def OwnTile (s : State) (w : Word) (r : TileRef) : Prop := liveTile s s.me.fn w = some r ∧ (s.tile r).owner = launchOf s s.cur

/-- The hart's handle names a tile that can be read now, `counts` for a read that consumes (R96, R253, R334). -/
def ReadTile (s : State) (w : Word) (r : TileRef) (counts : Bool) : Prop :=
  liveTile s s.me.fn w = some r ∧ eidOk s (coreOf s.cur) r.clus r.part = true ∧ (s.tile r).st = .sealed ∧
    (counts = true → (s.tile r).res < (s.tile r).c)

/-- A slot that a drop or the last read has freed: FREE under the next generation, which skips 0 (R91). -/
def freedSlot (t : PoolSlot) : PoolSlot := { gen := if t.gen = 0xFFFF then 1 else t.gen + 1 }

/-- The slot after one consuming read (R96). -/
def readSlot (t : PoolSlot) : PoolSlot := if t.c ≤ 1 then freedSlot t else { t with c := t.c - 1 }

/-- The checks of a tile access to n bytes of memory at `va` pass, leaving `t` with the pieces placed at `ps` (R80, R23). -/
def TileChecked (s : State) (write : Bool) (va : Word) (n : Nat) (ps : List Placed) (t : State) : Prop :=
  wmHeld s [(va.toNat, n)] = none ∧
    placeMine (whoOf s s.cur true) .tile (if write then .wr else .rd) (if write then 4 else 3) (tileSegs va n) s = .ok (ps, t)

/-- The cells that (offset, byte) pairs of a tile at `va` store. -/
def tileCells (va : Word) (ps : List Placed) (bs : List (Nat × Byte)) : List VCell :=
  bs.map fun x => cellAt va ps x.1 x.2

/-- A tile form that stores bytes to a tile in memory completes, `f` being applied to the state after the store: it stores those bytes and no others. -/
def TileStores (i : Instr) (s t : State) (va : Word) (ps : List Placed) (bs : List (Nat × Byte)) (f : State → State) : Prop :=
  let cs := tileCells va ps bs
  sealBroken t (whoOf t s.cur true) cs = none → ∃ u, Runs i s u ∧ u = retire (f (storeCells t (whoOf t s.cur true) cs)) ∧ u.me = s.me.done ∧
    ((∀ c ∈ cs, c.cell.key = 0) → StoredTo t u (cs.map (·.cell)))

/-! ### Messages and units -/

/-- Nothing differs but the named harts and cores. -/
def OnlyUnits (s t : State) (hs cs : List Nat) : Prop :=
  SameMemory s t ∧ { t with harts := s.harts, cores := s.cores } = s ∧ (∀ h, h ∉ hs → t.hart h = s.hart h) ∧ ∀ c, c ∉ cs → t.core c = s.core c

/-- The reserved send-buffer entries that a hart's firing has left (R170). -/
def sendsLeft (h : Hart) : Nat :=
  match h.bind with
  | .firing f => f.sendLeft
  | _ => 0

/-- A counted send from core c to core d goes backward on the ring of instance i (R284). -/
def SendsBack (s : State) (i c d : Nat) : Prop := ∃ x y, (s.hp i).pos c = some x ∧ (s.hp i).pos d = some y ∧ y < x

/-- A form completes by putting messages with one header into the core's send buffer, in order: what each carries, the reserved entries used up, the
flag, which an instruction that sends any raises once, and the hall-pass count that they raise; nothing else changes (R272, R273, R284, R194). -/
def Sends (i : Instr) (s : State) (hdr : Word) (orig : Nat) (data : List (List Word)) : Prop :=
  let c := coreOf s.cur
  let l := launchOf s s.cur
  let n := data.length
  ∃ t, Runs i s t ∧ OnlyUnits s t [s.cur] [c] ∧
    t.myCore.sends = s.myCore.sends ++ data.zipIdx.map (fun x => { id := s.myCore.sendSeq + x.2, first := s.myCore.sendSeq, flag := flagB s.me, msg :=
      { hdr := deliveredHdr hdr orig s.cur 0, words := x.1, fn := s.me.fn, launch := l, sender := s.cur, taint := taintOf s s.cur
        counted := isCounted s l hdr } }) ∧
    { t.myCore with sends := s.myCore.sends, sendSeq := s.myCore.sendSeq, hpCount := s.myCore.hpCount, hpBlack := s.myCore.hpBlack } = s.myCore ∧
    (∀ k, t.myCore.hpCount.get 0 k =
      s.myCore.hpCount.get 0 k + (if isCounted s l hdr = true ∧ k = mHpi hdr then BitVec.ofNat 48 n else 0)) ∧
    (∀ k, t.myCore.hpBlack.get false k = true ↔
      s.myCore.hpBlack.get false k = true ∨ isCounted s l hdr = true ∧ k = mHpi hdr ∧ 0 < n ∧ SendsBack s k c (mCore hdr)) ∧
    (∀ k, t.me.getCf k = s.me.getCf k + if flagB s.me = some k ∧ 0 < n then 1 else 0) ∧
    (∀ f, s.me.bind = .firing f → t.me.bind = .firing { f with sendLeft := f.sendLeft - n }) ∧
    ((∀ f, s.me.bind ≠ .firing f) → t.me.bind = s.me.bind) ∧
    { t.me with cf := s.me.cf, bind := s.me.bind } = s.me.done

/-- What a message leaves in the inbox registers that it is written to: its words from i0 on, the others zero and absent (R170). -/
def InboxOf (h : Hart) (m : Message) : Prop :=
  h.k.kmhdr = m.hdr ∧ h.present.toNat = 2 ^ m.words.length - 1 ∧
    ∀ k, h.inbox.get 0 k = if k < m.words.length then nth 0 m.words k else 0

/-- A send completes: the entry leaves its core's send buffer, and with the last entry of its instruction the flag falls by one (R272, R194). -/
def SendLeaves (s t : State) (a : Nat) (e : SendEntry) : Prop :=
  let left := (s.core a).sends.filter (·.id != e.id)
  (t.core a).sends = left ∧ (∀ h, h ≠ e.msg.sender → t.hart h = s.hart h) ∧
    t.hart e.msg.sender = (match e.flag with
      | some k => if left.any fun x => x.first == e.first then s.hart e.msg.sender else (s.hart e.msg.sender).subCf k
      | none => s.hart e.msg.sender)

/-- The arrival of an entry of core a's send buffer at its channel (R274, R278, R279): in its turn it is discarded, enters the hardware part, enters the
spill ring, or finds the ring's page failing; out of turn, with no room, or where the ring's page is between biases (R135), it is held. -/
def Delivers (i : Instr) (s : State) (a : Nat) (e : SendEntry) : Prop :=
  let c := mCore e.msg.hdr
  let ch := mCh e.msg.hdr
  let x := (s.core c).chan ch
  let r := MsgRef.send a e.id
  let turn := x.held = [] ∨ x.held.head? = some r
  let mine := x.depth ≠ 0 ∧ x.launch ≠ 0 ∧ s.launchFn x.launch = e.msg.fn
  let rest := x.held.filter (· != r)
  let later := if r ∈ x.held then x.held else x.held ++ [r]
  let room := x.rcnt = 0 ∧ x.hw.length < x.depth
  let ring := x.lsize ≠ 0 ∧ x.rcnt < 2 ^ x.lsize
  (turn → ¬ mine → ∃ t, Runs i s t ∧ OnlyUnits s t [e.msg.sender] [a, c] ∧ SendLeaves s t a e ∧
    (t.core c).chan ch = { x with drop := min 255 (x.drop + 1), held := rest }) ∧
  (turn → mine → x.err = false → room → ∃ t, Runs i s t ∧ OnlyUnits s t [e.msg.sender] [a, c] ∧ SendLeaves s t a e ∧
    (t.core c).chan ch = { x with hw := x.hw ++ [{ msg := e.msg }], held := rest }) ∧
  (turn → mine → x.err = false → ¬ room → ring →
    (∀ u p, ringPlace s c x x.tail .wr = (u, .at_ p) → ∃ t, Runs i s t ∧
      SendLeaves s { t with harts := (SMap.set {} s.harts e.msg.sender { t.hart e.msg.sender with resv := (s.hart e.msg.sender).resv }) } a e ∧
      (∀ h, h ≠ e.msg.sender → { t.hart h with resv := (s.hart h).resv } = s.hart h) ∧
      (t.core c).chan ch =
        { x with tail := (x.tail + 1) % 2 ^ x.lsize, rcnt := x.rcnt + 1, ringMeta := x.ringMeta ++ [e.msg], held := rest } ∧
      (t.core c).kev.get 0 13 = min ((s.core c).kev.get 0 13 + 1) (2 ^ 48 - 1) ∧
      (p.key = 0 → p.pa % 128 = 0 → isPeer (p.pa / 128) = false → e.msg.words.length ≤ 8 → rawBytes t p.pa 128 = ringBytes e.msg ∧
        ∀ b, b < p.pa ∨ p.pa + 128 ≤ b → isPeer (b / 128) = false → rawByte t b = rawByte u b)) ∧
    (∀ u, ringPlace s c x x.tail .wr = (u, .bad) → ∃ t, Runs i s t ∧ (t.core c).chan ch = { x with err := true, held := later } ∧
      (t.core a).sends = (s.core a).sends ∧ t.harts = s.harts ∧ SameMemory u t) ∧
    (∀ u, ringPlace s c x x.tail .wr = (u, .flip) → ∃ t, Runs i s t ∧ (t.core c).chan ch = { x with held := later } ∧
      (t.core a).sends = (s.core a).sends ∧ t.harts = s.harts ∧ SameMemory u t)) ∧
  ((¬ turn ∨ mine ∧ (x.err = true ∨ ¬ room ∧ ¬ ring)) → ∃ t, Runs i s t ∧ OnlyUnits s t [] [c] ∧
    (t.core c).chan ch = { x with held := later } ∧ (t.core a).sends = (s.core a).sends)

/-- The `hpass` rows, which are one word; x[a] names the operation (log 8). -/
def hpassForms (d a : BitVec 5) : List Instr := [.hpassArm d a, .hpassStart d a, .hpassStatus d a, .hpassWait d a, .hpassDisarm d a]

/-- An operation on hall-pass instance k completes: the instance becomes `p`, x[d] takes its status, and one that shows state terminated empties the
core's L1 (R283, R286). Harts whose arm of the instance had not completed may complete with it. -/
def HpDone (i : Instr) (s : State) (d k : Nat) (p : HallPass) : Prop :=
  ∃ t, Runs i s t ∧ SameMemory s t ∧ { t with harts := s.harts, cores := s.cores, hall := s.hall } = s ∧ t.hp k = p ∧
    (∀ j, j ≠ k → t.hp j = s.hp j) ∧ XReg s.me t.me d p.status ∧ { t.me with x := s.me.x } = s.me.done ∧
    (∀ h, h ≠ s.cur → (∀ e, (s.hart h).wait ≠ .arming k e) → t.hart h = s.hart h) ∧
    t.myCore = { s.myCore with l1 := if p.st = 3 then [] else s.myCore.l1 } ∧ ∀ c, c ≠ coreOf s.cur → t.core c = s.core c

/-! ### Copies -/

/-- A request of the current hart enters slot j of its core's FIFO: the flags that it counts on rise, x[d] takes 0 where the form reports it, and nothing
else changes but the hall-pass count of a counted `cprd` (R287, R194, R284). -/
def Enters (i : Instr) (s : State) (j : Nat) (r : CopyReq) (d : Option Nat) : Prop :=
  let cnt := r.cprd && isCounted s r.launch r.w3
  let c := s.myCore
  ∃ t, Runs i s t ∧ OnlyUnits s t [s.cur] [coreOf s.cur] ∧
    t.myCore.req j = some { r with seq := c.fifoSeq, flags := reqFlags s.me r, counted := cnt } ∧
    (∀ k, k ≠ j → t.myCore.req k = c.req k) ∧
    { t.myCore with fifo := c.fifo, fifoSeq := c.fifoSeq, hpCount := c.hpCount, hpBlack := c.hpBlack } = c ∧
    (∀ k, t.myCore.hpCount.get 0 k = c.hpCount.get 0 k + if cnt = true ∧ k = mHpi r.w3 then 1 else 0) ∧
    (∀ k, t.me.getCf k = s.me.getCf k + if k ∈ reqFlags s.me r then 1 else 0) ∧
    (match d with
     | some d => XReg s.me t.me d 0
     | none => t.me.x = s.me.x) ∧
    { t.me with cf := s.me.cf, x := s.me.x } = s.me.done

/-- The cells of a copy's bytes at placed pieces. -/
def copyCells (ps : List Placed) (bs : List Byte) : List PCell :=
  let at_ := (ps.head?).map (·.seg.at_) |>.getD 0
  (atOffset 0 bs).map fun x => (cellAt at_ ps x.1 x.2).cell

/-- The event stores the n bytes `bs` of a piece of request r, slot j of core c, at its placed destination, and the request's offset moves on, to the end
where the whole is moved (R51, R293, R294). No hart changes but for reservations that the store ends. -/
def PieceStored (i : Instr) (s u : State) (c j : Nat) (r : CopyReq) (n : Nat) (bs : List Byte) (ps : List Placed) : Prop :=
  ∃ t, Runs i s t ∧ StoredTo u t (copyCells ps bs) ∧ (∀ h, { t.hart h with resv := (s.hart h).resv } = s.hart h) ∧
    (t.core c).req j = some (if r.total ≤ r.off + n then
        { r with st := .ended, code := 0, detail := 0, off := r.total, res := false, undelivered := if r.ct = 3 then r.undelivered + n else 0 }
      else { r with off := r.off + n, undelivered := if r.ct = 3 then r.undelivered + n else 0 })

/-- The destination of a piece of n bytes is memory, its pages pass the checks, leaving `u`, and no key seals them. -/
def PieceGoes (s u : State) (c : Nat) (r : CopyReq) (n : Nat) (ps : List Placed) : Prop :=
  r.off < r.total ∧ r.dsp = false ∧ r.dstt = 0 ∧ (r.cprd = true → r.w1 ≠ 0) ∧ copyPlace s c r .wr (r.dstAt r.off) n = (u, .ok ps) ∧
    (∀ p ∈ ps, p.ref.key = 0 ∧ flipHeld u p.ref.pa = false)

/-! ### Control and status registers -/

/-- The rows that are a Zicsr access, with the number of the register each reaches (R204, R205; log 8). -/
def csrForms (num : BitVec 12) (o : CsrOp) : List (Instr × Nat) :=
  [ (.krootWrite o, 0x5C4), (.kdomWrite o, 0x5C0), (.ktinvGo o, 0x5C2), (.kslabGo o, 0x5C8), (.kslabAbort o, 0x5C8), (.kpartWrite o, 0x5CB)
  , (.kpownWrite o, 0x5CC), (.kpoolevRead o, 0x5CD), (.kbiasGo o, 0x5CE), (.kflagclrWrite o, 0x5D0), (.khctlWrite o, 0x5D3)
  , (.kchqDepthWrite o, 0x5D4), (.kchqErrClear o, 0x5D4), (.kchringWrite o, 0x5D5), (.kqctlWrite o, 0x5D7), (.ksibctlHalt o, 0x9C1)
  , (.ksibctlResume o, 0x9C1), (.ksibdataWrite o, 0x9C2), (.kpreDone o, 0x9C8), (.kcsaveSave o, 0x9C9), (.kcsaveRestore o, 0x9C9)
  , (.ktqctlTailWrite o, 0x9E2), (.ktqctlRerrClear o, 0x9E2), (.ktkillGo o, 0x9E8), (.kflushGo o, 0x7C1), (.kkctlErase o, 0x7C5)
  , (.kkctlDerive o, 0x7C5), (.kkctlUnwrap o, 0x7C5), (.kkctlRebind o, 0x7C5), (.kkctlQuery o, 0x7C5), (.khmctlWrite o, 0x7D1)
  , (.khmdomWrite o, 0x7D2), (.khmrateWrite o, 0x7D3), (.pmpWrite num o, num.toNat), (.registerWrite (.csr num o), num.toNat) ]

/-- The custom CSRs that hold what is written under a mask: number and mask (R19, R20, R93, R102, R156, R168, R173, R175, R276, R281, R288, R298, R310,
R316, R321, R324, R335, R343, R350). -/
def maskedCsrs : List (Nat × Word) :=
  [ (0x5C0, 0xFFFFFFFFF), (0x5C4, 0xFFFFFFFFF0000), (0x5C9, 0xFFFFFFFF), (0x5CA, 0x73F), (0x5CF, 0x7FFFFFFFFFF801), (0x5D1, 0x3F)
  , (0x5D2, 0xFFFFFFFFFFFFFFFE), (0x5D6, 0x1F), (0x5D9, 0xFFFFFFFFFFFFFFFF), (0x5DA, 0xF), (0x9C0, 0x7FF000F), (0x9CA, 0x7FFFFFFFFFFF80)
  , (0x9E0, 0x3F), (0x7C0, 0xFFFF), (0x7C4, 0x3FF), (0x7C6, 0xFFFFFFFFFFFFFFFF), (0x7D0, 0xE3F) ] ++
  ((List.range 16).map fun i => (0x801 + i, 0xFFFFFFFF)) ++ ((List.range 8).map fun i => (0x811 + i, 0xFFFFFFFF)) ++
  (List.range 16).map fun i => (0x5E0 + i, 0xFFFFFFFFFFFF)

/-- The standard CSRs that hold what is written under a mask (R178). -/
def maskedStd : List (Nat × Word) :=
  [ (0x106, 7), (0x10A, 1), (0x140, 0xFFFFFFFFFFFFFFFF), (0x141, 0xFFFFFFFFFFFFFFFE), (0x142, 0xFFFFFFFFFFFFFFFF)
  , (0x143, 0xFFFFFFFFFFFFFFFF), (0x14D, 0xFFFFFFFFFFFFFFFF), (0x302, 0x70000FF00B3FF), (0x303, 0x3F0222), (0x304, 0x3F0AAA)
  , (0x306, 7), (0x30A, 0x8000000000000001), (0x320, 5), (0x340, 0xFFFFFFFFFFFFFFFF)
  , (0x341, 0xFFFFFFFFFFFFFFFE), (0x342, 0xFFFFFFFFFFFFFFFF), (0x343, 0xFFFFFFFFFFFFFFFF), (0xB02, 0xFFFFFFFFFFFFFFFF) ]

/-- A page that a `ktinv` value names: every page, the 512 MiB page, or the page of its VPN (R37). -/
def tinvNames (v : Word) (vpn : Nat) : Prop :=
  bitOf v 61 = true ∨ if bitOf v 60 then vpn / 8192 = fld v 29 26 else vpn = fld v 16 39

/-- An entry of function fn covers a page that a `ktinv` value names (R38): a 512 MiB entry covers every page of its own. -/
def EntryNamed (fn : Nat) (v : Word) (e : PageEntry) : Prop := e.fn = fn ∧ (tinvNames v e.vpn ∨ e.huge = true ∧ e.vpn / 8192 = fld v 29 26)

/-- The entries of a buffer after an invalidation for function fn (R38): those that cover a named page are gone. -/
def EntriesAfter (fn : Nat) (v : Word) (l l' : List PageEntry) : Prop := ∀ e, e ∈ l' ↔ e ∈ l ∧ ¬ EntryNamed fn v e

/-- A write of channel ch's register on core c changes that channel alone. -/
def ChanBecomes (s t : State) (c ch : Nat) (x : Channel) : Prop :=
  SameMemory s t ∧ { t with cores := s.cores } = s ∧ (∀ d, d ≠ c → t.core d = s.core d) ∧ (t.core c).chan ch = x ∧
    (∀ k, k ≠ ch → (t.core c).chan k = (s.core c).chan k) ∧ { t.core c with chans := (s.core c).chans } = s.core c

/-! ### Scalar memory -/

/-- The checks of a scalar access to n bytes at `va` pass (R179, R80, R23, R135, R27), leaving `t`, and it goes to memory at `r`. -/
def ScalarPlaced (s : State) (a : Acc) (n : Nat) (va : Word) (t : State) (r : PRef) : Prop :=
  let w := whoOf s s.cur true
  let mxr := bitOf s.me.csr.mstatus 19
  va.toNat % n = 0 ∧ wmHeld s [(va.toNat, n)] = none ∧ paKind r.pa ≠ .mmio ∧
    ∃ t0 r0, translate s w .scalar a mxr false va n = (t0, .ok r0) ∧ flipHeld t0 r0.pa = false ∧
      if a.writes then translate t0 w .scalar a mxr true va n = (t, .ok r) else t0 = t ∧ r0 = r

/-- A placed scalar read takes line `x`: the copy that its core's scalar cache holds, with that copy's poison, which changes nothing (R55, R69); else the
cluster brings the line in (R53, R56), and the scalar cache of the core, leaving `u`. -/
def ScalarTakes (s t : State) (va : Word) (r : PRef) (u : State) (x : CLine) : Prop :=
  let w := whoOf s s.cur true
  let vl := va.toNat / 128
  match scalHit t w vl with
  | some p => u = t ∧ x = { vline := vl, fn := w.tag, pl := r.pa / 128, key := r.key, bytes := seenLine t w vl r.key (r.pa / 128), psn := p }
  | none => ∃ v, lineIn t w va r = (v, some x) ∧ u = scalUse v w vl r.cm false none

/-- The number that n bytes at `va` of a line hold. -/
def lineNat (x : CLine) (va : Word) (n : Nat) : Nat := leToNat ((x.bytes.drop (va.toNat % 128)).take n)

/-- A form that stores n bytes completes, `t` being the state in which the store is performed, at a place that no key seals, outside the peer windows, in a line that may
enter the cluster: the hart becomes `h'`; those bytes hold the data and every other byte what it held; copies of
the line leave the core's L1, all of it at an acquire, and reservations of the line end (R57, R58, R112). Nothing else changes but what caches move. -/
def ScalarStores (i : Instr) (s t : State) (va : Word) (r : PRef) (n data : Nat) (h' : Hart) (acq : Bool) : Prop :=
  r.key = 0 → isPeer (r.pa / 128) = false → ∃ u, Runs i s u ∧ u.me = h' ∧ StoredTo t u (cellsOf r.pa 0 (natToLe n data)) ∧
    (∀ h, h ≠ s.cur → { u.hart h with resv := (s.hart h).resv } = s.hart h) ∧
    (∀ h, h ≠ s.cur → (s.hart h).resv = some (r.pa / 128) → (u.hart h).resv = none) ∧
    (∀ y ∈ u.myCore.l1, ¬ (y.fn = (whoOf s s.cur true).tag ∧ y.vline = va.toNat / 128)) ∧ (acq = true → u.myCore.l1 = []) ∧
    (∀ c, c ≠ coreOf s.cur → u.core c = t.core c) ∧ { u.myCore with l1 := t.myCore.l1 } = t.myCore ∧
    { u with mem := t.mem, lines := t.lines, harts := t.harts, cores := t.cores, clusters := t.clusters, dies := t.dies, egress := t.egress
             choices := t.choices, walkers := t.walkers } = t

/-- The scalar loads (R177): bytes, whether the value is sign-extended, whether the register is floating-point. -/
def scalarLoads : List (LoadKind × Nat × Bool × Bool) :=
  [ (.lb, 1, true, false), (.lh, 2, true, false), (.lw, 4, true, false), (.ld, 8, false, false), (.lbu, 1, false, false), (.lhu, 2, false, false)
  , (.lwu, 4, false, false), (.flw, 4, false, true), (.fld, 8, false, true) ]

/-- The scalar stores (R177): bytes, whether the register is floating-point. -/
def scalarStores : List (StoreKind × Nat × Bool) := [(.sb, 1, false), (.sh, 2, false), (.sw, 4, false), (.sd, 8, false), (.fsw, 4, true), (.fsd, 8, true)]

/-- The AMOs (R177): the new value from the old m and the source v, in w bits. -/
def scalarAmos : List (AmoKind × (Nat → Nat → Nat → Nat)) :=
  [ (.swap, fun _ _ v => v), (.add, fun w m v => (m + v) % 2 ^ w), (.xor, fun _ m v => m ^^^ v), (.and, fun _ m v => m &&& v), (.or, fun _ m v => m ||| v)
  , (.min, fun w m v => if toS w v < toS w m then v else m), (.max, fun w m v => if toS w m < toS w v then v else m)
  , (.minu, fun _ m v => min m v), (.maxu, fun _ m v => max m v) ]

/-! ### Mladotte -/

/-- Mladotte's calls: the row, the function in a6, and what the call does. -/
def mladotteCalls : List (Instr × Nat × (State → Nat → State × Int × Option Word)) :=
  [ (.mladotteCreate, 0, callCreate), (.mladotteAddPage, 1, callAddPage), (.mladotteExtend, 2, callExtend), (.mladotteFinalize, 3, callFinalize)
  , (.mladotteEnter, 4, callEnter), (.mladotteExit, 5, callExit), (.mladotteDestroy, 6, callDestroy), (.mladotteUnwrap, 7, callUnwrap)
  , (.mladotteReport, 8, callReport) ]

end Sys2Proof
end

