-- ==== Sys2Proof/Certificates/Slice0/Obligations.lean ====
section
/-!
DEFINITION. The statements for the provers, from the numbered rules of spec/. The terms they use stand in Sys2Proof/Safety.lean.
-/
open Sys2Proof Sys2Proof.Machine

/-! ### Lane integer forms -/

/-- R215, R216, R187: every two-source integer form but `lbfx`, in every active lane, with its frame. -/
def Obligations.LaneIntTwoSource : Prop :=
  ∀ (s : State) (f : L64) (i : Instr) (r : Nat → Nat → Nat → Nat), (i, r) ∈ intForms2 f →
    LaneDone i s f (widthOf f) f.d.toNat fun l => r (widthOf f) (s.me.elem (widthOf f) f.a.toNat l) (operandB s.me f (widthOf f) l)

/-- R215, R218: the one-source forms and the forms with a source of their own, with their frames; `lext` writes the element of its lane,
sign-extended, to x[d] whatever the masks hold, and with no active lane nothing.

R215, R217: the bit forms `lbrev`, `lbfx`, `lbfi` bit by bit, and `lclz` by the magnitude of a. -/
def Obligations.LaneIntOther : Prop :=
  (∀ (s : State) (f : L64),
     (∀ i r, (i, r) ∈ intForms1 f → LaneDone i s f (widthOf f) f.d.toNat fun l => r (widthOf f) (s.me.elem (widthOf f) f.a.toNat l)) ∧
     LaneDone (.lmadd f) s f (widthOf f) f.d.toNat (fun l =>
       let w := widthOf f
       let a := s.me.elem w f.a.toNat l
       let b := operandB s.me f w l
       let c := s.me.elem w f.c.toNat l
       if f.md = 6 then satS w (toS w a * toS w b + toS w c) else (a * b + c) % 2 ^ w) ∧
     LaneDone (.lsel f) s f (widthOf f) f.d.toNat (fun l =>
       if (s.me.getM f.c.toNat).getLsbD l then s.me.elem (widthOf f) f.a.toNat l else operandB s.me f (widthOf f) l) ∧
     LaneDone (.lli f) s f (widthOf f) f.d.toNat (fun _ => ofS (widthOf f) f.imm15.toInt) ∧
     LaneDone (.lbcast f) s f (widthOf f) f.d.toNat (fun _ => (s.me.getX f.a.toNat).toNat % 2 ^ widthOf f) ∧
     LaneDone (.lidx f) s f 32 f.d.toNat (fun l => l) ∧
     LaneX (.lext f) s f f.d.toNat (sext (word (s.me.elem (widthOf f) f.a.toNat (f.imm15.toNat % 32))) (widthOf f))) ∧
  (∀ (s : State) (f : L64),
     let w := widthOf f
     let a := fun l => s.me.elem w f.a.toNat l
     let b := fun l => operandB s.me f w l
     LaneBits (.lbrev f) s f w f.d.toNat (fun l k => (a l).testBit (w - 1 - k)) ∧
     LaneBits (.lbfx f) s f w f.d.toNat (fun l k => bfxBit (f.md == 6) w (a l) (b l) k) ∧
     LaneBits (.lbfi f) s f w f.d.toNat (fun l k => bfiBit w (a l) (b l) (s.me.elem w f.c.toNat l) k) ∧
     ∃ n, LaneDone (.lclz f) s f w f.d.toNat n ∧ ∀ l ∈ activeLanes s.me f, n l ≤ w ∧ a l < 2 ^ (w - n l) ∧ (n l < w → 2 ^ (w - 1 - n l) ≤ a l))

/-- R224, R174: the integer compares write bit l of m[d] in every active lane l and keep the others.

R224: the floating-point compares write bit l of m[d] in every active lane. -/
def Obligations.LaneCompares : Prop :=
  (∀ (s : State) (f : L64) (i : Instr) (r : Nat → Nat → Nat → Bool), (i, r) ∈ cmpForms f →
     MaskDone i s f f.d.toNat fun l => r (widthOf f) (s.me.elem (widthOf f) f.a.toNat l) (operandB s.me f (widthOf f) l)) ∧
  (∀ (s : State) (f : L64) (i : Instr) (rel : Nat), (i, rel) ∈ fcmpForms f → s.me.fs ≠ 0 →
     let r := fun l => fCmp (fmtOf f.ty) rel (s.me.elem (widthOf f) f.a.toNat l) (s.me.elem (widthOf f) f.b.toNat l)
     (effMask s.me f = 0 → Becomes i s (s.me.setFs 3).done) ∧
     (effMask s.me f ≠ 0 → ∃ h', FpDone i s h' ((activeLanes s.me f).foldl (fun n l => n ||| (r l).2) 0) 0 ∧
       MaskElems s.me h' f f.d.toNat (fun l => (r l).1) ∧ { h' with m := s.me.m } = (s.me.setFs 3).dirtyXs))

/-- R228: each shuffle takes a[s] of its source lane s, active or not; `lcomp` (R231) adds the number of active lanes below; `lscan.add` (R230)
gives lane l the sum of the active lanes 0 to l;
the integer reductions (R229) fold the active lanes' elements in lane order into x[d], sign-extended from W. -/
def Obligations.LaneCross : Prop :=
  ∀ (s : State) (f : L64),
    (∀ i src, (i, src) ∈ shflForms f →
      LaneDone i s f (widthOf f) f.d.toNat fun l => s.me.elem (widthOf f) f.a.toNat (src l (operandB s.me f 32 l))) ∧
    LaneDone (.lcomp f) s f 32 f.d.toNat (fun l =>
      ((s.me.getV f.a.toNat l).toNat + ((List.range 32).filter fun k => decide (k < l) && (effMask s.me f).getLsbD k).length) % 2 ^ 32) ∧
    LaneDone (.lscanAdd f) s f (widthOf f) f.d.toNat (fun l =>
      (((activeLanes s.me f).filter fun k => decide (k ≤ l)).map fun k => s.me.elem (widthOf f) f.a.toNat k).sum % 2 ^ widthOf f) ∧
    ∀ (i : Instr) (g : Nat → Nat → Nat → Nat) (l : Nat) (ls : List Nat), (i, g) ∈ redForms f → activeLanes s.me f = l :: ls →
      XDone i s f.d.toNat (sext (word ((ls.map fun k => s.me.elem (widthOf f) f.a.toNat k).foldl (g (widthOf f)) (s.me.elem (widthOf f) f.a.toNat l)))
        (widthOf f))

/-! ### Mask forms -/

/-- R225: the whole-mask forms, with their frames.

R226, R175: below the limits of the mask stack the three forms push, invert and pop, and the other entries stand; at its limits each takes
cause 50 and leaves m0, the stack and D as they were. Outside a clause the mask branches (R227, R189) go on at pc + offset where m[k] is zero, or is not. -/
def Obligations.MaskForms : Prop :=
  (∀ (s : State) (d a b : BitVec 5),
     (∀ i r, (i, r) ∈ maskForms2 d a b → MDone i s d.toNat (r (s.me.getM a.toNat) (s.me.getM b.toNat))) ∧
     MDone (.mnot d a) s d.toNat (~~~ s.me.getM a.toNat) ∧ MDone (.mmov d a) s d.toNat (s.me.getM a.toNat) ∧
     MDone (.mset d a) s d.toNat ((s.me.getX a.toNat).extractLsb' 0 32) ∧
     XDone (.mget d a) s d.toNat ((s.me.getM a.toNat).setWidth 64) ∧
     XDone (.mcnt d a) s d.toNat (word ((List.range 32).filter fun l => (s.me.getM a.toNat).getLsbD l).length) ∧
     ∃ n, XDone (.mffs d a) s d.toNat (word n) ∧
       (s.me.getM a.toNat = 0 ∧ n = 32 ∨ n < 32 ∧ (s.me.getM a.toNat).getLsbD n = true ∧ ∀ k < n, (s.me.getM a.toNat).getLsbD k = false)) ∧
  (∀ (s : State) (a : BitVec 5),
     (s.me.kmsd < 16 → ∃ h', Becomes (.mpush a) s h' ∧ h'.kmsd = s.me.kmsd + 1 ∧
       (∀ n, h'.kms.get 0 n = if n = s.me.kmsd then s.me.getM 0 else s.me.kms.get 0 n) ∧
       MReg s.me h' 0 (s.me.getM 0 &&& s.me.getM a.toNat) ∧
       { h' with m := s.me.m, kms := s.me.kms, kmsd := s.me.kmsd } = s.me.dirtyXs.done) ∧
     (0 < s.me.kmsd → MDone .minv s 0 (s.me.kms.get 0 (s.me.kmsd - 1) &&& ~~~ s.me.getM 0)) ∧
     (0 < s.me.kmsd → ∃ h', Becomes .mpop s h' ∧ h'.kmsd = s.me.kmsd - 1 ∧ MReg s.me h' 0 (s.me.kms.get 0 (s.me.kmsd - 1)) ∧
       { h' with m := s.me.m, kmsd := s.me.kmsd } = s.me.dirtyXs.done) ∧
     (s.me.kmsd = 16 → Traps (.mpush a) s 50 16) ∧ (s.me.kmsd = 0 → Traps .minv s 50 0 ∧ Traps .mpop s 50 0) ∧
     ∀ (k : BitVec 3) (off : BitVec 12), s.me.inClause = false →
     Becomes (.mbz k off) s { s.me.done with pc := if s.me.getM k.toNat = 0 then s.me.pc + (off ++ 0#1).signExtend 64 else s.me.pc + word s.me.ilen } ∧
     Becomes (.mbnz k off) s { s.me.done with pc := if s.me.getM k.toNat ≠ 0 then s.me.pc + (off ++ 0#1).signExtend 64 else s.me.pc + word s.me.ilen })

/-! ### Lane floating-point forms -/

/-- R219 to R222: every form of group 001 but `lfcvt`, with its frame, where FS is not Off and the rounding mode is valid. -/
def Obligations.LaneFpResult : Prop :=
  ∀ (s : State) (f : L64) (i : Instr) (rounds : Bool) (rm : Nat) (op : Nat → Fmt → Nat → Nat → Nat → FRes), (i, rounds, op) ∈ fpForms f →
    s.me.fs ≠ 0 → RoundsWith s.me f rounds rm →
    LaneFpDone i s f (if f.ty = 1 then 64 else 32) f.d.toNat fun l =>
      let w := if f.ty = 1 then 64 else 32
      laneFp f.ty (op rm) (s.me.elem w f.a.toNat l) (s.me.elem w f.b.toNat l) (s.me.elem w f.c.toNat l)

/-- R223, R151: `lfcvt` writes element k of each active lane's result, for each of its elements, and leaves every other lane and register; with no active lane it only sets FS. -/
def Obligations.LfcvtResult : Prop :=
  ∀ (s : State) (f : L64) (rm : Nat), s.me.fs ≠ 0 → RoundsWith s.me f true rm → (effMask s.me f = 0 → Becomes (.lfcvt f) s (s.me.setFs 3).done) ∧
   (effMask s.me f ≠ 0 →
    let dst := f.ty.toNat
    let src := f.c.toNat % 8
    let n := L64.cvtN src dst
    let r := fun l k => cvtTo dst rm (decide (f.md = 6)) (cvtValue src (cvtElem s.me src f.a.toNat l k))
    let rs := ((activeLanes s.me f).map fun l => (List.range n).map (r l)).flatten
    ∃ h', FpDone (.lfcvt f) s h' (allFlags rs) (allCnt rs) ∧
      (∀ l < 32, (effMask s.me f).getLsbD l = true → ∀ k < n, cvtElem h' dst f.d.toNat l k = (r l k).bits) ∧
      (∀ m l, l < 32 → ((effMask s.me f).getLsbD l = false ∨ m < f.d.toNat ∨ f.d.toNat + L64.cvtSpan src dst dst ≤ m) →
        h'.getV m l = s.me.getV m l) ∧
      { h' with v := s.me.v } = (s.me.setFs 3).dirtyXs)

/-- R154, R229, R230: the floating-point reductions follow the balanced tree over lanes 0 to 31 into x[d], an FP32 result NaN-boxed, and with no active
lane x[d] keeps its value; the first active lane of `lscan.fadd` keeps its element, each later one receives the sum of the prefix before it and its own
element, rounded once. -/
def Obligations.LaneFpReduce : Prop :=
  (∀ (s : State) (f : L64) (i : Instr) (rounds : Bool) (rm : Nat) (g : Nat → Nat → Nat → FRes), (i, rounds, g) ∈ fredForms f →
     s.me.fs ≠ 0 → RoundsWith s.me f rounds rm →
     (effMask s.me f = 0 → Becomes i s (s.me.setFs 3).done) ∧
     (effMask s.me f ≠ 0 → ∃ h' r,
       treeAt (g rm) (fun l => if (effMask s.me f).getLsbD l then some { bits := s.me.elem (widthOf f) f.a.toNat l } else none) 5 0 = some r ∧
       FpDone i s h' r.flags r.cnt ∧
       XReg s.me h' f.d.toNat (if widthOf f = 32 then word (r.bits + 0xFFFFFFFF * 2 ^ 32) else word r.bits) ∧
       { h' with x := s.me.x } = s.me.setFs 3)) ∧
  (∀ (s : State) (f : L64) (rm : Nat), s.me.fs ≠ 0 → RoundsWith s.me f true rm →
     ∃ r : Nat → FRes, LaneFpDone (.lscanFadd f) s f (widthOf f) f.d.toNat r ∧
       ∀ j l, (activeLanes s.me f)[j]? = some l →
         (j = 0 → r l = { bits := s.me.elem (widthOf f) f.a.toNat l }) ∧
         ∀ k p, j = k + 1 → (activeLanes s.me f)[k]? = some p →
           r l = (r p).after (fAdd (fmtOf f.ty) rm false (r p).bits (s.me.elem (widthOf f) f.a.toNat l)))

/-- R211, R148: a lane floating-point form with FS Off, and one that rounds by an invalid `frm`, is an illegal-instruction trap whatever the masks
hold.

R148: rounding m × 2^e to a multiple of 2^q under each mode: towards zero, down, up, to nearest with ties to even and ties away. -/
def Obligations.RoundingAndFpIllegal : Prop :=
  (∀ (s : State) (f : L64) (i : Instr),
     (i ∈ fpAll f → s.me.fs = 0 → Traps i s 2 s.me.ibits) ∧
     (i ∈ fpRounding f → (f.md = 0 ∨ f.md = 6) → 5 ≤ s.me.frm.toNat → Traps i s 2 s.me.ibits)) ∧
  (∀ (neg : Bool) (m : Nat) (e q : Int) (r : Nat) (rm : Nat) (inexact : Bool), rm ≤ 4 → roundAt rm neg m e q false = (r, inexact) →
     let v := ratOf m e
     let u := (2 : Rat) ^ q
     (inexact = decide ((r : Rat) * u ≠ v)) ∧
     (rm = 1 → (r : Rat) * u ≤ v ∧ v < (r + 1 : Rat) * u) ∧
     (rm = 2 → if neg then v ≤ (r : Rat) * u ∧ (r : Rat) * u < v + u else (r : Rat) * u ≤ v ∧ v < (r + 1 : Rat) * u) ∧
     (rm = 3 → if neg then (r : Rat) * u ≤ v ∧ v < (r + 1 : Rat) * u else v ≤ (r : Rat) * u ∧ (r : Rat) * u < v + u) ∧
     (rm = 0 ∨ rm = 4 → 2 * |(r : Rat) * u - v| ≤ u) ∧
     (rm = 0 → 2 * |(r : Rat) * u - v| = u → r % 2 = 0) ∧
     (rm = 4 → 2 * |(r : Rat) * u - v| = u → v < (r : Rat) * u))

/-! ### Lane memory -/

/-- R232, R233, R235, R45: a lane load in the global space whose checks pass writes the bytes read to its active lanes; the load itself changes no
byte of memory but those of peer windows that a victim line writes back (R132), and no hart but its own. A piece of a page without a key, outside the peer windows, whose
line neither the core's L1 nor its cluster holds reads the bytes of memory at the place that the checks gave it. -/
def Obligations.LaneLoad : Prop :=
  ∀ (s t u : State) (f : L64) (i : Instr) (n : Nat) (sg : Bool) (ps : List Placed) (r : List (Nat × List Byte)), (i, n, sg) ∈ loadForms f →
    let w := laneWho s f
    f.md ≠ 4 → effMask s.me f ≠ 0 → Checked s w false .rd 0 n (accsOf s f) ps t → readPieces w (f.md == 0) ps t = (u, .ok r) →
    (∃ h', Runs i s (u.setHart s.cur h') ∧ u.harts = s.harts ∧ HomeMemory t (u.setHart s.cur h') ∧ LoadElems s.me h' f n sg (laneBytes r) ∧
      { h' with v := s.me.v } = s.me.dirtyXs.done) ∧
    r.map (·.1) = ps.map (·.seg.lane) ∧
    ∀ (j : Nat) (p : Placed) (x : Nat × List Byte), ps[j]? = some p → r[j]? = some x → p.ref.key = 0 → isPeer (p.ref.pa / 128) = false →
      p.ref.pa % 128 = p.seg.at_.toNat % 128 → (∀ y ∈ t.myCore.l1, ¬ (y.fn = w.tag ∧ y.vline = p.seg.at_.toNat / 128)) →
      t.kline w (p.seg.at_.toNat / 128) = none →
      (∀ q ∈ ps, q.seg.at_.toNat / 128 = p.seg.at_.toNat / 128 → q.ref.key = 0 ∧ q.ref.pa / 128 = p.ref.pa / 128) →
      x.2 = rawBytes t p.ref.pa p.seg.n

/-- R75 to R78, R232, R235, R236: within the grant a lane load of the scratch space reads the class's scratch; a store stores every active lane's data
there, the highest lane's value where lanes name one byte, and ends the poison of the words it writes whole (R71); an atomic, integer or floating-point, runs its
lanes' updates one after another, past a release at its scope with rel and before an acquire with acq (R123). None of them touches memory, but for peer-window lines that a
release of scope 5 writes back (R132). One update of such an atomic reads the element of the class's scratch, writes the new one where there is one, with the poison of its words
ended, and changes nothing else. -/
def Obligations.LaneScratch : Prop :=
  (∀ (s : State) (f : L64) (i : Instr) (n : Nat) (sg : Bool), (i, n, sg) ∈ loadForms f → f.md = 4 → effMask s.me f ≠ 0 →
     ScratchFits s n (accsOf s f) → ScratchClean s n (accsOf s f) →
     ∃ h', Runs i s ((takePasses s (accsOf s f) n false).setHart s.cur h') ∧ SameMemory s ((takePasses s (accsOf s f) n false).setHart s.cur h') ∧
       LoadElems s.me h' f n sg (fun l => (s.cls (classOf s s.cur)).scratch (laneAddr s.me f l).toNat n) ∧ { h' with v := s.me.v } = s.me.dirtyXs.done) ∧
  (∀ (s : State) (f : L64) (i : Instr) (n : Nat), (i, n) ∈ storeForms f → f.md = 4 → effMask s.me f ≠ 0 → ScratchFits s n (accsOf s f) →
     let bs := ((accsOf s f).map fun x => scratchCells x.2.toNat (s.me.dataBytes f.c.toNat x.1 n)).flatten
     let k := classOf s s.cur
     ∃ t, Runs i s t ∧ SameMemory s t ∧ t.me = s.me.done ∧
       (∀ o, (t.cls k).scr.get 0 o = match bs.reverse.find? fun x => x.1 == o with
         | some x => x.2
         | none => (s.cls k).scr.get 0 o) ∧
       (∀ o, (t.cls k).scrPsn.get false o =
         ((s.cls k).scrPsn.get false o && !((List.range 4).all fun j => bs.any fun x => x.1 == 4 * o + j))) ∧
       { t.cls k with scr := (s.cls k).scr, scrPsn := (s.cls k).scrPsn } = s.cls k ∧ (∀ j, j ≠ k → t.cls j = s.cls j)) ∧
  (∀ (s₀ : State) (f : L64) (i : Instr) (n : Nat) (fp : Bool) (u : Update), (i, n, fp, u) ∈ atomicForms f → (fp = true → s₀.me.fs ≠ 0) →
     let s := fpStart s₀ fp
     f.md = 4 → effMask s.me f ≠ 0 → ScratchFits s n (amoAccs s f n) → (∀ x ∈ amoAccs s f n, x.2.toNat % n = 0) → ScratchClean s n (amoAccs s f n) →
     ∃ (t' : State) (order : List Nat), order.Perm (activeLanes s.me f) ∧
       let t := takePasses s (amoAccs s f n) n true
       let t1 := if f.imm15.getLsbD 14 = true then coreRelease t (coreOf s.cur) f.ty.toNat else t
       { t' with choices := t1.choices } = t1 ∧
       let one := fun l => amoScratch n u (atomicAddr s.me f n l).toNat (s.me.elem (8 * n) f.c.toNat l) (s.me.elem (8 * n) f.d.toNat l)
       let e := amoEnd f n (activeLanes s.me f) (amoAll one order t')
       Runs i s₀ (retire (if f.imm15.getLsbD 13 = true then acquire e f.ty.toNat else e)) ∧ HomeMemory s e ∧ (f.imm15.getLsbD 14 = false → SameMemory s e)) ∧
  (∀ (s : State) (n : Nat) (u : Update) (off c d : Nat), (n = 4 ∨ n = 8) → off % n = 0 →
     let k := classOf s s.cur
     let m := leToNat ((s.cls k).scratch off n)
     let r := amoScratch n u off c d s
     r.2.1 = m ∧ r.2.2 = (u m c d).2 ∧ ((u m c d).1 = none → r.1 = s) ∧
     ∀ v, (u m c d).1 = some v → v < 2 ^ (8 * n) →
       leToNat ((r.1.cls k).scratch off n) = v ∧ (∀ o, o < off ∨ off + n ≤ o → (r.1.cls k).scr.get 0 o = (s.cls k).scr.get 0 o) ∧
       (∀ o, (r.1.cls k).scrPsn.get false o = ((s.cls k).scrPsn.get false o && !decide (off ≤ 4 * o ∧ 4 * o < off + n))) ∧
       { r.1.cls k with scr := (s.cls k).scr, scrPsn := (s.cls k).scrPsn } = s.cls k ∧ (∀ j, j ≠ k → r.1.cls j = s.cls j) ∧
       { r.1 with classes := s.classes } = s)

/-- R235: a lane store in the global space whose checks pass stores every active lane's data; where lanes name one byte the highest lane's value
stands, and every other byte of memory is as it was; bytes of peer windows may stay in the cluster (R132). -/
def Obligations.LaneStore : Prop :=
  ∀ (s t : State) (f : L64) (i : Instr) (n : Nat) (ps : List Placed), (i, n) ∈ storeForms f →
    let w := laneWho s f
    f.md ≠ 4 → effMask s.me f ≠ 0 → Checked s w true .wr 1 n (accsOf s f) ps t →
    let cs := storedCells ps fun l => s.me.dataBytes f.c.toNat l n
    sealBroken t w cs = none →
    Runs i s (retire (storeCells t w cs)) ∧
    ((∀ c ∈ cs, c.cell.key = 0) → StoredTo t (retire (storeCells t w cs)) (cs.map (·.cell))) ∧
    (retire (storeCells t w cs)).me = s.me.done

/-- R76, R233: a scratch access beyond the grant takes cause 5 or 7 with the offset of the lowest failing lane; one within it that is misaligned, where
none lies beyond it, cause 4 or 6; an atomic takes cause 7, or 6 where it is not aligned to 4 bytes and then where it is not aligned to its size. A global atomic one of whose active lanes is
misaligned takes cause 6 with the lowest such lane's address. With no active lane a lane memory form or an integer reduction completes and writes nothing, a floating-point atomic but FS (R211).

R40, R45, R49: a lane load, store or atomic of the global space one of whose lanes fails a check performs nothing: on any hart but the service
hart it posts a report under the core's next fault id and blocks, or waits where its core holds an earlier report of it back (log 79). -/
def Obligations.LaneAccessFails : Prop :=
  ((∀ (s : State) (f : L64) (i : Instr) (n : Nat) (store : Bool), (∃ sg, (i, n, sg) ∈ loadForms f) ∧ store = false ∨ (i, n) ∈ storeForms f ∧ store = true →
     f.md = 4 → effMask s.me f ≠ 0 →
     (∀ x, (accsOf s f).find? (fun x => decide (scratchSize s < x.2.toNat + n)) = some x → Traps i s (if store then 7 else 5) x.2) ∧
     (∀ x, (accsOf s f).find? (fun x => decide (scratchSize s < x.2.toNat + n)) = none →
       (accsOf s f).find? (fun x => x.2.toNat % min n 4 != 0) = some x → Traps i s (if store then 6 else 4) x.2)) ∧
   (∀ (s₀ : State) (f : L64) (i : Instr) (n : Nat) (fp : Bool) (u : Update) (x : Nat × Word), (i, n, fp, u) ∈ atomicForms f → (fp = true → s₀.me.fs ≠ 0) →
     let s := fpStart s₀ fp
     let accs := amoAccs s f n
     let beyond := fun (x : Nat × Word) => decide (scratchSize s < x.2.toNat + n)
     (effMask s.me f = 0 → Becomes i s₀ s.me.done) ∧
     (f.md ≠ 4 → effMask s.me f ≠ 0 → FlagFree s false → accs.find? (fun x => x.2.toNat % n != 0) = some x → Runs i s₀ (takeTrap s s.cur false 6 x.2)) ∧
     (f.md = 4 → effMask s.me f ≠ 0 →
       (accs.find? beyond = some x → Runs i s₀ (takeTrap s s.cur false 7 x.2)) ∧
       (accs.find? beyond = none → accs.find? (fun x => x.2.toNat % 4 != 0) = some x → Runs i s₀ (takeTrap s s.cur false 6 x.2)) ∧
       (accs.find? beyond = none → (∀ y ∈ accs, y.2.toNat % 4 = 0) → accs.find? (fun x => x.2.toNat % n != 0) = some x →
         Runs i s₀ (takeTrap s s.cur false 6 x.2)))) ∧
   ∀ (s : State) (f : L64) (i : Instr), i ∈ (loadForms f).map (·.1) ++ (storeForms f).map (·.1) ++ (redForms f).map (·.1) ++
     [.lprf f, .lzero f] → effMask s.me f = 0 → Becomes i s s.me.done) ∧
  (∀ (s₀ s t : State) (f : L64) (i : Instr) (n : Nat) (write : Bool) (a : Acc) (code : Nat) (accs : List (Nat × Word)) (w : Who) (v : VFault) (g : Seg),
     (∃ sg, (i, n, sg) ∈ loadForms f ∧ write = false ∧ a = .rd ∧ code = 0 ∧ accs = accsOf s f ∧ w = laneWho s f ∧ s = s₀) ∨
     ((i, n) ∈ storeForms f ∧ write = true ∧ a = .wr ∧ code = 1 ∧ accs = accsOf s f ∧ w = laneWho s f ∧ s = s₀) ∨
     (∃ fp u, (i, n, fp, u) ∈ atomicForms f ∧ (fp = true → s₀.me.fs ≠ 0) ∧ s = fpStart s₀ fp ∧ write = false ∧ a = .rw ∧ code = 2 ∧ accs = amoAccs s f n ∧
       w = whoOf s s.cur true ∧ ∀ x ∈ accs, x.2.toNat % n = 0) →
     f.md ≠ 4 → effMask s.me f ≠ 0 → FlagFree s write → wmHeld s (accs.map fun x => (x.2.toNat, n)) = none →
     placeAll w .lane a false false (laneSegs accs n) s = (t, .error (v, g)) →
     Runs i s₀ (postFault t s.cur v code 0 g.lane g.va) ∧
     (isService s.cur = false → reportHeld t (coreOf s.cur) (hartNo s.cur) = true →
       postFault t s.cur v code 0 g.lane g.va = t.modHart s.cur fun x => { x with wait := .stall }) ∧
     (isService s.cur = false → reportHeld t (coreOf s.cur) (hartNo s.cur) = false → ∃ id, id = (t.core (coreOf s.cur)).fid.toNat ∧
       (postFault t s.cur v code 0 g.lane g.va).me = { t.me with wait := .fault id g.lane g.va } ∧
       ((t.die (dieOfCore (coreOf s.cur))).buf.length < 512 → (t.core (coreOf s.cur)).heldReports = [] →
         ((postFault t s.cur v code 0 g.lane g.va).die (dieOfCore (coreOf s.cur))).buf =
           (t.die (dieOfCore (coreOf s.cur))).buf ++
             [{ w0 := g.va, w1 := reportInfo v.kind code 0 v.lvl (coreOf s.cur) (hartNo s.cur) g.lane v.dom, w2 := word id, w3 := t.me.pc }])))

/-- R236, R123, R124, R112, R132: a global atomic, integer or floating-point, runs the updates of its lanes one after another in some order and returns the old values; with rel it
releases before them at its scope, with acq it acquires after them; one on a peer window is performed at the peer's home; the floating-point atomics round each update to nearest even,
raise their flags and set FS. -/
def Obligations.LaneAtomic : Prop :=
  ∀ (s₀ t₀ : State) (f : L64) (i : Instr) (n : Nat) (fp : Bool) (u : Update) (qs : List Placed), (i, n, fp, u) ∈ atomicForms f → (fp = true → s₀.me.fs ≠ 0) →
    let s := fpStart s₀ fp
    f.md ≠ 4 → effMask s.me f ≠ 0 → (∀ x ∈ amoAccs s f n, x.2.toNat % n = 0) → Checked s (whoOf s s.cur true) false .rw 2 n (amoAccs s f n) qs t₀ →
    let w := whoOf s s.cur true
    let t := (peerHomes w qs t₀).1
    let ps := (peerHomes w qs t₀).2
    EntersClean t w ps →
    ∃ (t' : State) (order : List Nat), order.Perm (activeLanes s.me f) ∧
      let t1 := if f.imm15.getLsbD 14 then coreRelease t w.core f.ty.toNat else t
      { t' with choices := t1.choices } = t1 ∧
      let one := fun l => amoGlobal w n u ((ps.find? fun p => p.seg.lane == l).getD {}) (s.me.elem (8 * n) f.c.toNat l) (s.me.elem (8 * n) f.d.toNat l)
      let e := l1Drop (amoEnd f n (activeLanes s.me f) (amoAll one order t')) w.core w.tag ((amoAccs s f n).map fun x => x.2.toNat / 128)
      Runs i s₀ (retire (if f.imm15.getLsbD 13 then acquire e f.ty.toNat else e)) ∧
      ((∀ p ∈ qs, isPeer (p.ref.pa / 128) = false) → t = t₀ ∧ ps = qs) ∧
      ∀ p ∈ ps, isPeer (p.ref.pa / 128) = true → p.ref.cm = 2

/-- R7, R236: one update of an atomic at memory that no key seals, outside the peer windows and in no line that the cluster holds for another place, reads the old element,
writes the new one where there is one, and changes no other
byte but those of peer windows that a victim line writes back (R132); bytes put into memory read back, every other byte stands, and the canonical form stays. The checks of an access
(R23, R27, R33) change no hart, no line's state, and no byte of memory but bits A and D of the entries in which the walks for its addresses find their leaves: the checks of a list of
pieces are those of each in turn, up to the first that fails, and those of one piece mark what `CheckMarks` says. -/
def Obligations.MemoryUpdate : Prop :=
  (∀ (s : State) (w : Who) (n : Nat) (u : Update) (p : Placed) (c d : Nat), w.hart = s.cur → p.ref.key = 0 → p.ref.pa % n = 0 → (n = 4 ∨ n = 8) →
     isPeer (p.ref.pa / 128) = false →
     (∀ y, s.kline w (p.seg.at_.toNat / 128) = some y → y.pl = p.ref.pa / 128 ∧ y.key = 0) → p.seg.at_.toNat % 128 = p.ref.pa % 128 →
     let m := leToNat (rawBytes s p.ref.pa n)
     let r := amoGlobal w n u p c d s
     r.2.1 = m ∧ r.2.2 = (u m c d).2 ∧ r.1.me = s.me ∧
     (∀ v, (u m c d).1 = some v → v < 2 ^ (8 * n) → leToNat (rawBytes r.1 p.ref.pa n) = v) ∧
     ((u m c d).1 = none → CacheMoves s r.1) ∧
     ∀ a, a < p.ref.pa ∨ p.ref.pa + n ≤ a → isPeer (a / 128) = false → rawByte r.1 a = rawByte s a) ∧
  (∀ (s : State) (pa : Nat) (bs : List Byte),
     rawBytes (putRaw s pa bs) pa bs.length = bs ∧ (∀ a, a < pa ∨ pa + bs.length ≤ a → rawByte (putRaw s pa bs) a = rawByte s a) ∧
     (Memory.wf s.mem = true → Memory.wf (putRaw s pa bs).mem = true)) ∧
  (∀ (s t : State) (w : Who) (u : Src) (a : Acc) (mxr setD : Bool) (gs : List Seg) (r : Except (VFault × Seg) (List Placed)),
    placeAll w u a mxr setD gs s = (t, r) →
    t.harts = s.harts ∧ t.lines = s.lines ∧ t.classes = s.classes ∧ t.dies = s.dies ∧ t.clock = s.clock ∧
    (∀ k, (t.cluster k).cache = (s.cluster k).cache) ∧ (∀ c, { t.core c with plb := (s.core c).plb } = s.core c) ∧
    let after := fun (n : Nat) => (gs.take n).foldl (fun s g => (translate s w u a mxr setD g.at_ g.n).1) s
    (match r with
     | .ok ps => t = after gs.length ∧ ps.map (·.seg) = gs
     | .error (v, g) => ∃ n, gs[n]? = some g ∧ translate (after n) w u a mxr setD g.at_ g.n = (t, .error v)) ∧
    ∀ n g, gs[n]? = some g → CheckMarks (after n) w u a mxr setD g.at_ (after (n + 1)))

/-- R237, R238, R67: `lprf` completes, lane by lane in order: an address that a watermark holds changes nothing; for another the checks of a load mark what `CheckMarks` says, bit A of the
entries that the walks for that address find, and nothing else changes but what caches move, the core's L1, and, where the line's tag fails, the book; no register does. `lzero`
completes and makes the whole line of each active lane's address zero, the line a dirty zero tag of the cluster where its mode lets it stay there.

R68 to R71, R340: a corrected error counts; an uncorrectable one marks its place poison: a line, a scratch word, a tile, an accumulator or a slot, a word of a queue entry, a copy of a line in
the L2, an L1, a scalar cache or a cluster cache; a fill of a line of HBM under a usable key whose integrity tag holds brings it into the cluster and changes nothing but what caches move; one whose tag
fails is recorded. -/
def Obligations.LinesAndErrors : Prop :=
  (∀ (s : State) (f : L64), effMask s.me f ≠ 0 →
     Runs (.lprf f) s (retire ((accsOf s f).foldl (fun s x => prefetchLane (laneWho s f) f.md s x.2) s)) ∧
     (retire ((accsOf s f).foldl (fun s x => prefetchLane (laneWho s f) f.md s x.2) s)).harts = (s.setHart s.cur s.me.done).harts ∧
     (∀ (x : State) (w : Who) (va : Word), w.core = coreOf x.cur →
       let u := (translate x w .lane .rd false false va 1).1
       let v := prefetchLane w f.md x va
       ((∃ y ∈ x.myCore.wm, (wmHit y.2 va.toNat 1).isSome = true) → v = x) ∧
       ((∀ y ∈ x.myCore.wm, wmHit y.2 va.toNat 1 = none) → CheckMarks x w .lane .rd false false va u ∧
         CacheMoves u ({ v with cores := u.cores, book := u.book } : State) ∧ v.harts = x.harts ∧
         (∀ c, c ≠ w.core → v.core c = u.core c) ∧ { v.core w.core with l1 := (u.core w.core).l1 } = u.core w.core ∧
         ∀ f, (translate x w .lane .rd false false va 1).2 = .error f → v = u)) ∧
     ∀ (t : State) (ps : List Placed),
       let w := whoOf s s.cur true
       let accs := accsOf s f
       let cs := (ps.map fun p => cellsFor { p with seg := { p.seg with va := p.seg.at_ } } (List.replicate 128 0)).flatten
       FlagFree s true → wmHeld s (accs.map fun x => (x.2.toNat / 128 * 128, 128)) = none →
       placeMine w .lane .wr 1 (zeroSegs accs []) s = .ok (ps, t) → sealBroken t w cs = none →
       ∃ u, Runs (.lzero f) s u ∧ u = retire (storeCells (zeroTags t w ps) w cs) ∧ u.me = s.me.done ∧
         ((∀ p ∈ ps, p.ref.key = 0) → StoredTo t u (cs.map (·.cell)) ∧
           ∀ p ∈ ps, p.ref.pa % 128 = 0 → ∀ o < 128, isPeer (p.ref.pa / 128) = false → rawByte u (p.ref.pa + o) = 0) ∧
         ∀ p, ps = [p] → p.ref.cm < 2 → ∀ y, u.kline w (p.seg.at_.toNat / 128) = some y → y.zero = true ∧ y.dirty = true) ∧
  (∀ (s : State) (f : L64), (effMask s.me f = 0 → Becomes (.lprf f) s s.me.done ∧ Becomes (.lzero f) s s.me.done) ∧
     (effMask s.me f ≠ 0 →
       let w := whoOf s s.cur true
       let accs := accsOf s f
       FlagFree s true → wmHeld s (accs.map fun x => (x.2.toNat / 128 * 128, 128)) = none →
         (∀ t v g, placeAll w .lane .wr false false (zeroSegs accs []) s = (t, .error (v, g)) → Runs (.lzero f) s (postFault t s.cur v 1 0 g.lane g.va)) ∧
         ∀ ps t x, placeMine w .lane .wr 1 (zeroSegs accs []) s = .ok (ps, t) →
           sealBroken t w (ps.map fun p => cellsFor { p with seg := { p.seg with va := p.seg.at_ } } (List.replicate 128 0)).flatten = some x →
           Runs (.lzero f) s (sealFail t s.cur x.cell.pa x.cell.key (word x.va)))) ∧
  (∀ (s : State),
     (∃ t, Runs .correctedError s t ∧ t.harts = s.harts ∧ SameMemory s t ∧
       (t.core s.ev.a).kev.get 0 6 = min ((s.core s.ev.a).kev.get 0 6 + 1) (2 ^ 48 - 1) ∧ ∀ c, c ≠ s.ev.a → t.core c = s.core c) ∧
     (∀ pa, s.ev.place = .line pa → ∃ t, Runs .uncorrectableError s t ∧ SameMemory s t ∧ (s.dir (pa / 128) = none → poisonAt t pa 1 = true) ∧
       { t with lines := s.lines } = s ∧ ∀ l, t.line l = if l = pa / 128 then { s.line l with psn := true } else s.line l) ∧
     (∀ pa, s.ev.place = .l2Copy pa → (s.dir (pa / 128) = none → Runs .uncorrectableError s s) ∧
       ∀ x, s.dir (pa / 128) = some x → ∃ t, Runs .uncorrectableError s t ∧ CacheMoves s t ∧ t.lines = s.lines ∧ t.mem = s.mem ∧
         t.dir (pa / 128) = some { x with psn := true } ∧ (dirtyCopy s (pa / 128) = none → poisonAt t pa 1 = true)) ∧
     (∀ k w, s.ev.place = .scratch k w → ∃ t, Runs .uncorrectableError s t ∧ { t with classes := s.classes } = s ∧
       ∀ j, t.cls j = if j = k then { s.cls k with scrPsn := (s.cls k).scrPsn.set false w true } else s.cls j) ∧
     (∀ k u i p, s.ev.place = .poolSlot k u → (s.cluster k).parts.find? (fun x => x.2.en && x.2.slotUnits.contains u) = some (i, p) →
       ((s.cluster k).slot u).st ≠ .free → Runs .uncorrectableError s (poisonTile s { clus := k, part := i, unit := u })) ∧
     (∀ k u, s.ev.place = .poolSlot k u → (∀ x ∈ (s.cluster k).parts, ¬ (x.2.en = true ∧ u ∈ x.2.slotUnits)) ∨ ((s.cluster k).slot u).st = .free →
       Runs .uncorrectableError s s) ∧
     (∀ c i, s.ev.place = .slot c i → ((s.core c).op i).loaded = false → Runs .uncorrectableError s s) ∧
     (∀ c i, s.ev.place = .acc c i → ∃ t, Runs .uncorrectableError s t ∧ { t with cores := s.cores } = s ∧ hf ((t.core c).acc i).hdr 29 1 = 1 ∧
       ((t.core c).acc i).elems = ((s.core c).acc i).elems ∧ (∀ j, j ≠ i → (t.core c).acc j = (s.core c).acc j) ∧ ∀ d, d ≠ c → t.core d = s.core d) ∧
     (∀ c i, s.ev.place = .slot c i → ((s.core c).op i).loaded = true → ∃ t, Runs .uncorrectableError s t ∧ { t with cores := s.cores } = s ∧
       hf ((t.core c).op i).hdr 29 1 = 1 ∧ (∀ j, j ≠ i → (t.core c).op j = (s.core c).op j) ∧ ∀ d, d ≠ c → t.core d = s.core d) ∧
     (∀ c ch i, s.ev.place = .queueEntry c ch i → ∃ t, Runs .uncorrectableError s t ∧ { t with cores := s.cores } = s ∧ (∀ d, d ≠ c → t.core d = s.core d) ∧
       (ch < 64 → ∀ m, ((s.core c).chan ch).hw[i]? = some m → ∃ m', ((t.core c).chan ch).hw[i]? = some m' ∧ m'.msg = m.msg ∧ ∀ k, k ∈ m'.psn ↔ k ∈ m.psn ∨ k = s.ev.b) ∧
       (64 ≤ ch → ∀ m, ((s.core c).q (ch - 64)).vals[i]? = some m →
         ∃ m', ((t.core c).q (ch - 64)).vals[i]? = some m' ∧ m'.val = m.val ∧ ∀ k, k ∈ m'.psn ↔ k ∈ m.psn ∨ k = s.ev.b)) ∧
     (∀ c fn vl, s.ev.place = .l1Copy c fn vl → ∃ t, Runs .uncorrectableError s t ∧ { t with cores := s.cores } = s ∧ (∀ d, d ≠ c → t.core d = s.core d) ∧
       { t.core c with l1 := (s.core c).l1 } = s.core c ∧ (∀ y ∈ (t.core c).l1, y.fn = fn → y.vline = vl → y.psn = true)) ∧
     (∀ c fn vl, s.ev.place = .scalarCopy c fn vl → ∃ t, Runs .uncorrectableError s t ∧ CacheMoves s t ∧ t.lines = s.lines ∧ t.mem = s.mem ∧
       ∀ y ∈ t.klines (clusterOf c) vl, y.named fn vl = true → y.scal.get .i (c % 4) ≠ .i → y.spsn.get false (c % 4) = true) ∧
     (∀ k fn vl, s.ev.place = .clusterCopy k fn vl → ∃ t, Runs .uncorrectableError s t ∧ CacheMoves s t ∧ t.lines = s.lines ∧ t.mem = s.mem ∧
       ∀ y ∈ t.klines k vl, y.named fn vl = true → y.psn = true) ∧
     let fn := s.ev.b
     let w : Who := { core := s.ev.a, fn := fn, eid := (s.core s.ev.a).kencl.toNat }
     (∀ f, walk s fn s.ev.w = .error f → Runs .lineFill s s) ∧
     ∀ e at_ lvl, walk s fn s.ev.w = .ok (e, at_, lvl) →
       let pa := e.phys s.ev.w
       let ok := paKind pa = .hbm ∧ keyUsable s e.key fn w.eid = true
       (¬ ok → Runs .lineFill s s) ∧
       (ok → entryOk s w (s.ev.w.toNat / 128) e.key (pa / 128) = false → Runs .lineFill s (bookAppend s 8 fn w.eid s.ev.a [word pa, word e.key])) ∧
       (ok → entryOk s w (s.ev.w.toNat / 128) e.key (pa / 128) = true → ∃ t, Runs .lineFill s t ∧ t = readIn s w (s.ev.w.toNat / 128) (pa / 128) e.key e.cm ∧ CacheMoves s t))

/-! ### Encoding and step -/

/-- R185, R189, R181: decoding what encode makes of a well-formed instruction gives that instruction, every operand as it was, with its length;
rows that share one word come back as the row they are spelt as (log 8). -/
def Obligations.EncodeDecode : Prop :=
  ∀ (i : Instr) (e : Enc), i.wf = true → encode i = some e → decode e.bits = .ok (.instr i.spelt, e.size)

/-- No instruction of the table stops the model: whatever the state, each answers a next state. -/
def Obligations.NothingStops : Prop := ∀ (i : Instr) (s : State), ∃ t, Runs i s t

/-- R185 to R193: words that spec/ writes out decode to the instructions it gives them for.

R181, R188: a length that the T9 does not implement, an L64 group 101 to 111, md = 111, and pm = 0 with pn = 1 are no instruction. -/
def Obligations.Decoding : Prop :=
  (decodeTableWord 64 0x0000400E883110BF = some (.lffma { d := 1, a := 2, b := 3, c := 4, md := 2, pm := 2, pn := 1 }) ∧
   decodeTableWord 64 0x00010810000520BF = some (.lldW { d := 1, a := 10, ty := 2, ib := 1 }) ∧
   decodeTableWord 64 0x000700000000813F = some (.ladd { d := 2, a := 1, ib := 1, imm15 := 3 }) ∧
   decodeTableWord 64 0x000108280405A03F = some (.lstW { c := 2, a := 11, ty := 2, ib := 1 }) ∧
   decodeTableWord 64 0x0000384C0002143F = some (.lfcvt { d := 8, a := 4, md := 1, ty := 6 }) ∧
   decodeTableWord 64 0x000000340040443F = some (.tmma { d := 8, b := 4 }) ∧
   decodeTableWord 64 0x000010100002C03F = some (.tseal { a := 5, ty := 4 }) ∧
   decodeTableWord 64 0x01070000000042BF = some (.tallocImm { d := 5, ib := 1, imm15 := 0x083 }) ∧
   decodeTableWord 32 0x0030008B = some (.mand 1 0 3) ∧ decodeTableWord 32 0x0140302B = some (.kfence 2 4) ∧
   decodeTableWord 32 0x210091FB = some (.clause 2 1 9 3) ∧ decodeTableWord 32 0x0020102B = some (.waitf 2) ∧
   decodeTableWord 32 0x0800002B = some .hdone ∧ decodeTableWord 32 0x0000160B = some (.mbz 0 6) ∧
   decodeTableWord 32 0x0004B503 = some (.scalarLoad { kind := .ld, rd := 10, rs1 := 9, imm := 0 }) ∧
   decodeTableWord 32 0xCC9024F3 = some (.registerWrite (.csr 0xCC9 { kind := .rs, imm := false, src := 0, rd := 9 }))) ∧
  ((∀ w : Nat, w % 128 = 0x1F ∨ w % 128 = 0x7F → decode w = .error .length) ∧
   ∀ w : BitVec 64, w.toNat % 128 = 0x3F →
     5 ≤ (w.extractLsb' 12 3).toNat ∨ w.extractLsb' 45 3 = 7 ∨ (w.extractLsb' 30 3 = 0 ∧ w.extractLsb' 33 1 = 1) →
     ∃ e, decode w.toNat = .error e)

/-- A step runs the decoded instruction: where the turn that comes next is a hart's, it goes to the hart that its slot's order gives (R163); that hart able to issue and with no interrupt
or halt to take, a fetch that gives `bits` is followed by exec of the row they decode to, by the meaning of the base instruction, or by the illegal-instruction trap with
the bits in xtval (R179). Around it the step counts a clock, notes the issue of a ready hart in its slot, and latches the bits. The other turns (log 1):
an event of the table runs its row with the event's arguments, and a wait passes clocks; the clocks that pass add to counter 15 of the cores of islands that run below point 0 or are
stretched, up to 2^48 - 1 (R156, R412), no other counter rises, and such an island's clock falls behind. -/
def Obligations.StepRunsDecoded : Prop :=
  (∀ (s t : State) (h bits : Nat) (rest : List Turn), stopped s = none → pickTurn s = (.hart h, rest) →
     let v := tick { s with agenda := rest } 1
     let g := slotHart v h
     let u := { (if isReady v g = true then noteIssue v g else v) with cur := g }
     (u.hart g).live = true → (u.hart g).halted = false → haltOrIntr u g = none → mayIssue u g = true → fetch u g = (t, some bits) →
     (∀ i n, decode bits = .ok (.instr i, n) → step s = exec i (latch t g bits n)) ∧
     (∀ b n, decode bits = .ok (.base b, n) → step s = execBase b (latch t g bits n)) ∧
     (∀ e, decode bits = .error e → step s = illegalNow (latch t g bits ((lengthOf bits).getD 2)))) ∧
  (∀ (s : State) (rest : List Turn), stopped s = none →
     (∀ i a, pickTurn s = (.event i a, rest) → step s = exec i { tick { s with agenda := rest } 1 with ev := a }) ∧
     (∀ n, pickTurn s = (.wait n, rest) → step s = .next (tick { s with agenda := rest } n))) ∧
  (∀ (s : State) (x : Turn) (rest : List Turn), s.agenda = x :: rest → pickTurn s = (x, rest)) ∧
  ∀ (s : State) (n : Nat), (tick s n).clock = s.clock + n ∧ (tick s n).harts = s.harts ∧ SameMemory s (tick s n) ∧
    (∀ c k, k ≠ 15 → ((tick s n).core c).kev.get 0 k = (s.core c).kev.get 0 k) ∧
    ((s.mgmt.islands.map (·.1)).Nodup → ∀ c, ((tick s n).core c).kev.get 0 15 =
      (let x := s.island (clusterOf c)
       if x.point ≠ 0 ∨ x.stretch = true then min ((s.core c).kev.get 0 15 + n) (2 ^ 48 - 1) else (s.core c).kev.get 0 15)) ∧
    ∀ k, let x := s.island k
      (tick s n).island k = { x with lost := x.lost + n * (if x.stretch = true then 21 + 2 * x.point else 4 * x.point) }

/-- R3, R168, R175, R197, R204: the machine right after reset: the harts that run, in M mode at pc 0, with empty mask stacks and no live clause; every
other hart bound to nothing; no class, launch, firing or enabled channel; memory with nothing listed. That the running harts start at 0 in M mode is
the model's choice (log 5), as is memory with nothing listed (log 4); that instances are idle, no key is loaded and no reservation held is its reading of silence (log 6). -/
def Obligations.ResetState : Prop :=
  (∀ h, (State.reset.hart h).live = decide (h ∈ [0, 15, 1039, 2063, 3087, 4111, 5135, 6159, 7183])) ∧
  (∀ h, (State.reset.hart h).pc = 0 ∧ (State.reset.hart h).priv = .m ∧ (State.reset.hart h).kmsd = 0 ∧ (State.reset.hart h).clause = {} ∧
    (State.reset.hart h).present = 0 ∧ (State.reset.hart h).bind = .none ∧ (State.reset.hart h).k.kclst = 0 ∧ (State.reset.hart h).resv = none) ∧
  (∀ c ch, ((State.reset.core c).chan ch).en = false) ∧ State.reset.classes = [] ∧ State.reset.launches = [] ∧ State.reset.mem = [] ∧
  (∀ i, (State.reset.hp i).st = 0) ∧ (∀ k, (State.reset.key k).loaded = false) ∧ State.reset.book.next = 0 ∧ Memory.wf State.reset.mem = true

/-- The invariant of memory: every step keeps the canonical form (addresses strictly rising, nothing listed that reads as an unlisted byte does);
and so it does for the table of the harts. -/
def Obligations.MemoryFormKept : Prop :=
  ∀ s t : State, step s = .next t → (Memory.wf s.mem = true → Memory.wf t.mem = true) ∧ (SMap.wf {} s.harts = true → SMap.wf {} t.harts = true)

/-! ### Traps, returns, control -/

/-- R313, R178, R197, R180: what trap entry writes, by whether the trap is delegated, and all that it leaves; XS becomes dirty where `kclst` takes another value, which is the
model's reading (log 74). -/
def Obligations.TrapEntry : Prop :=
  ∀ (s : State) (h : Nat) (intr : Bool) (cause : Nat) (tval : Word),
    let x := s.hart h
    let y := (takeTrap s h intr cause tval).hart h
    let toS := x.priv ≠ .m ∧ bitOf (if intr then x.csr.mideleg else x.csr.medeleg) cause = true
    let code := (if intr then (0x8000000000000000 : Word) else 0) + word cause
    let ms := fun i => bitOf x.csr.mstatus i || (decide (i = 15 ∨ i = 16) && decide (clauseWord x.clause ≠ x.k.kclst))
    y.k = { x.k with kclst := clauseWord x.clause } ∧ y.clause = {} ∧ y.wait = .ready ∧
    (toS → y.priv = .s ∧ y.pc = vecTarget x.csr.stvec intr cause ∧
      y.csr = { x.csr with mstatus := y.csr.mstatus, sepc := x.pc, scause := code, stval := tval } ∧
      ∀ i < 64, bitOf y.csr.mstatus i =
        if i = 5 then bitOf x.csr.mstatus 1 else if i = 1 then false else if i = 8 then decide (x.priv = .s) else ms i) ∧
    (¬ toS → y.priv = .m ∧ y.pc = vecTarget x.csr.mtvec intr cause ∧
      y.csr = { x.csr with mstatus := y.csr.mstatus, mepc := x.pc, mcause := code, mtval := tval } ∧
      ∀ i < 64, bitOf y.csr.mstatus i =
        if i = 7 then bitOf x.csr.mstatus 3 else if i = 3 then false else if i = 11 then decide (x.priv ≠ .u) else if i = 12 then decide (x.priv = .m)
        else ms i) ∧
    { y with priv := x.priv, pc := x.pc, csr := x.csr, k := x.k, clause := x.clause, wait := x.wait } = x ∧
    takeTrap s h intr cause tval = s.setHart h y

/-- R313, R197, R351: outside a clause `mret` and `sret` restore the mode, the interrupt enable and the live clause, and go on at xepc; out of M mode the taint of the M-mode context
ends. That XS becomes dirty where `kclst` changes is the model's reading (log 74). -/
def Obligations.TrapReturn : Prop :=
  ∀ (s : State), s.me.inClause = false →
    let csr := s.me.csr
    let ms := fun i => bitOf csr.mstatus i || (decide (i = 15 ∨ i = 16) && decide (s.me.k.kclst ≠ 0))
    let left := fun (h' : Hart) => h'.clause = clauseOf s.me.k.kclst ∧ h'.k = { s.me.k with kclst := 0 } ∧
      h'.csr = { s.me.counted.csr with mstatus := h'.csr.mstatus } ∧ h'.mtaint = (if h'.priv = .m then s.me.mtaint else 0) ∧ h'.wait = .ready ∧
      { h' with priv := s.me.priv, pc := s.me.pc, clause := s.me.clause, k := s.me.k, csr := s.me.csr, wait := s.me.wait, mtaint := s.me.mtaint } = s.me
    (s.me.priv = .m → ∃ h', Becomes .mret s h' ∧ h'.priv = Priv.ofCode (fld csr.mstatus 11 2) ∧ h'.pc = csr.mepc ∧ left h' ∧
      ∀ i < 64, bitOf h'.csr.mstatus i = if i = 3 then bitOf csr.mstatus 7 else if i = 7 then true else if i = 11 ∨ i = 12 then false
        else if i = 17 ∧ fld csr.mstatus 11 2 ≤ 1 then false else ms i) ∧
    (s.me.priv = .m ∨ s.me.priv = .s ∧ bitOf csr.mstatus 22 = false → ∃ h', Becomes .sret s h' ∧
      h'.priv = (if bitOf csr.mstatus 8 then .s else .u) ∧ h'.pc = csr.sepc ∧ left h' ∧
      ∀ i < 64, bitOf h'.csr.mstatus i = if i = 1 then bitOf csr.mstatus 5 else if i = 5 then true else if i = 8 ∨ i = 17 then false else ms i)

/-- R196, R177, R179: the privileged forms in a mode that may not run them, and the forms that a clause must not contain inside one, are
illegal-instruction traps; `ecall` and `ebreak` take causes 8, 9 or 11, and 3. -/
def Obligations.ControlTraps : Prop :=
  ∀ (s : State) (a b : BitVec 5),
    (s.me.priv ≠ .m → Traps .mret s 2 s.me.ibits) ∧
    (s.me.priv = .u ∨ s.me.priv = .s ∧ bitOf s.me.csr.mstatus 22 = true → Traps .sret s 2 s.me.ibits) ∧
    (s.me.priv = .u ∨ s.me.priv = .s ∧ bitOf s.me.csr.mstatus 20 = true → Traps (.sfenceVma a b) s 2 s.me.ibits) ∧
    (s.me.priv ≠ .m → bitOf s.me.csr.mstatus 21 = true → Traps .wfi s 2 s.me.ibits) ∧
    (s.me.inClause = true → ∀ i, (i = .mret ∨ i = .sret ∨ i = .wfi ∨ i = .hdone ∨ (∃ fb fa w n, i = .clause fb fa w n) ∨
      (∃ k o, i = .mbz k o ∨ i = .mbnz k o)) → Traps i s 2 s.me.ibits) ∧
    (s.me.inClause = true → execBase .ecall s = illegalNow s ∧ execBase .ebreak s = illegalNow s) ∧
    (s.me.inClause = false →
      execBase .ecall s = .next (takeTrap s s.cur false (match s.me.priv with | .u => 8 | .s => 9 | .m => 11) 0) ∧
      execBase .ebreak s = .next (takeTrap s s.cur false 3 s.me.pc))

/-- R193, R195, R198: outside a clause, with no fault to meet, the clause header waits for the flags it names and then opens the clause; `waitf`
waits likewise and only completes. A hart that waits keeps its pc.

R121, R59, R36, R58, R132: the fences complete; `kfence` with lane in K at cluster scope or wider empties the core's L1, with an empty K it does nothing; at scope 5 it and `fence` write the
dirty peer-window lines of the cluster back; a `fence` whose predecessor or successor set is empty is a HINT and does nothing (R177); `kfence` with engine in K waits for the hart's copies; `fence.i` empties the instruction cache,
`sfence.vma` the PLB or its entries for one address. -/
def Obligations.FlagsAndFences : Prop :=
  (∀ (s : State) (fb fa : BitVec 4) (m : BitVec 12) (len : BitVec 5),
     (∀ x ∈ s.me.faults, ¬ (x.target < 12 ∧ m.getLsbD x.target = true)) →
     ((∀ k < 12, m.getLsbD k = true → s.me.getCf k = 0) →
       Becomes (.waitf m) s s.me.done ∧
       (s.me.inClause = false → Becomes (.clause fb fa m len) s { s.me.done with clause := { rem := len.toNat + 1, fa := fa, fb := fb } })) ∧
     ((∃ k < 12, m.getLsbD k = true ∧ s.me.getCf k ≠ 0) →
       Becomes (.waitf m) s { s.me with wait := .stall } ∧ (s.me.inClause = false → Becomes (.clause fb fa m len) s { s.me with wait := .stall }))) ∧
  (∀ (s : State) (k : BitVec 4) (sc : BitVec 3) (fm pred succ : BitVec 4) (a b d : BitVec 5),
     (pred = 0 ∨ succ = 0 → Becomes (.fence fm pred succ a d) s s.me.done) ∧
     (∃ t, Runs (.fence fm pred succ a d) s t ∧ (pred ≠ 0 → succ ≠ 0 → t = retire (coreFence s (coreOf s.cur) 5 false)) ∧ t.me = s.me.done ∧
       (∀ h, h ≠ s.cur → t.hart h = s.hart h) ∧
       HomeMemory s t ∧ t.myCore.l1 = s.myCore.l1) ∧
     (k.getLsbD 3 = true → copiesOpen s s.cur = true → Becomes (.kfence k sc) s { s.me with wait := .stall }) ∧
     (k.getLsbD 3 = false ∨ copiesOpen s s.cur = false →
       ∃ t, Runs (.kfence k sc) s t ∧ t.me = s.me.done ∧ (∀ h, h ≠ s.cur → t.hart h = s.hart h) ∧ HomeMemory s t ∧
         (k = 0 → t = retire s) ∧ (k ≠ 0 → sc = 5 → t = retire (coreFence s (coreOf s.cur) 5 (k.getLsbD 1))) ∧
         (k.getLsbD 1 = true → 2 ≤ sc.toNat → t.myCore.l1 = []) ∧
         (sc ≠ 5 → t = retire (if k.getLsbD 1 = true ∧ 2 ≤ sc.toNat then s.modMyCore fun c => { c with l1 := [] } else s))) ∧
     Runs .fenceI s (retire (s.modMyCore fun c => { c with icache := [] })) ∧
     (s.me.priv = .m ∨ s.me.priv = .s ∧ bitOf s.me.csr.mstatus 20 = false → ∃ l,
       Runs (.sfenceVma a b) s (retire (s.modMyCore fun c => { c with plb := l })) ∧
       (a = 0 → l = []) ∧ (a ≠ 0 → ∀ e, e ∈ l ↔ e ∈ s.myCore.plb ∧ e.covers e.fn (s.me.getX a.toNat) = false)))

/-- R163, R179, R309, R178, R314, R318: the hints and waits: `pause` and `kyield` complete, ask their slot to switch, and touch no other hart and no memory; a slot's turn goes to its
current hart while that is ready, with no switch asked for and fewer than 256 clocks in a row, else to the next ready one upward; a turn of a hart that is not ready leaves the
slot's record; `wfi` completes once an
interrupt is pending or, in U mode, after 65,536 clocks of the core's island (R412), and waits until then; the events that end such a wait, ask a slot to switch at its limit, and take the
supervisor timer interrupt or another trap on a hart that runs and is not halted. -/
def Obligations.HintsAndWaits : Prop :=
  ∀ (s : State),
    (∀ i, i = .pause ∨ i = .kyield → ∃ t, Runs i s t ∧ t.harts = (s.setHart s.cur s.me.done).harts ∧ SameMemory s t ∧
      t.myCore.slotOf (hartNo s.cur / 4) = { s.myCore.slotOf (hartNo s.cur / 4) with yield := true } ∧
      { t.myCore with slots := s.myCore.slots } = s.myCore ∧ ∀ c, c ≠ coreOf s.cur → t.core c = s.core c) ∧
    (∀ h,
      let x := (s.core (coreOf h)).slotOf (hartNo h / 4)
      let at_ := fun i => h / 4 * 4 + (x.cur + i) % 4
      (isReady s (at_ 0) = true → x.yield = false → x.run < 256 → slotHart s h = at_ 0) ∧
      ∀ i, 1 ≤ i → i ≤ 3 → isReady s (at_ i) = true → (∀ j, 1 ≤ j → j < i → isReady s (at_ j) = false) →
        (x.yield = true ∨ 256 ≤ x.run ∨ isReady s (at_ 0) = false) → slotHart s h = at_ i) ∧
    (∀ h, (isReady s h = false → hartTurn s h = issue s h) ∧ (isReady s h = true → hartTurn s h = issue (noteIssue s h) h ∧
      let x := (s.core (coreOf h)).slotOf (hartNo h / 4)
      let y := ((noteIssue s h).core (coreOf h)).slotOf (hartNo h / 4)
      y.cur = h % 4 ∧ y.yield = false ∧ y.run = if x.cur = h % 4 ∧ (s.hart h).wait = .ready then x.run + 1 else 1)) ∧
    (s.me.inClause = false → (s.me.priv = .m ∨ bitOf s.me.csr.mstatus 21 = false) →
      let since := s.islandClock (coreOf s.cur) - wfiSince s
      (mipOf s s.cur ≠ 0 ∨ s.me.priv = .u ∧ 65536 ≤ since → Becomes .wfi s s.me.done) ∧
      (mipOf s s.cur = 0 → ¬ (s.me.priv = .u ∧ 65536 ≤ since) → Becomes .wfi s { s.me with wait := .wfi (wfiSince s) })) ∧
    (∀ n, (s.hart s.ev.a).wait = .wfi n → (s.hart s.ev.a).priv = .u → 65536 ≤ s.islandClock (coreOf s.ev.a) - n →
      Runs .wfiTimeout s (s.setHart s.ev.a (s.hart s.ev.a).done)) ∧
    (256 ≤ ((s.core s.ev.a).slotOf s.ev.b).run →
      Runs .slotSwitchLimit s (s.modCore s.ev.a fun c => c.modSlotSched s.ev.b fun y => { y with yield := true })) ∧
    ((s.hart s.ev.a).live = true → (s.hart s.ev.a).halted = false →
      (timerPending s s.ev.a = true → intrNow s s.ev.a = some 5 → Runs .supervisorTimerInterrupt s (takeTrap (leaveWait s s.ev.a) s.ev.a true 5 0)) ∧
      (∀ c, intrNow s s.ev.a = some c → Runs .trapEntry s (takeTrap (leaveWait s s.ev.a) s.ev.a true c 0)) ∧
      (intrNow s s.ev.a = none → raisedCause s.ev.b = true → Runs .trapEntry s (takeTrap (abandon s s.ev.a) s.ev.a false s.ev.b s.ev.w)) ∧
      (intrNow s s.ev.a = none → (32 ≤ s.ev.b ∧ s.ev.b ≤ 47 ∨ 52 ≤ s.ev.b) → Runs .trapEntry s s)) ∧
    ((s.hart s.ev.a).halted = true → Runs .trapEntry s s ∧ Runs .supervisorTimerInterrupt s s) ∧
    (∀ h n, (s.hart h).wait = .wfi n → leaveWait s h = s.setHart h (s.hart h).done)

/-! ### Tiles -/

/-- R94, R95, R245, R106: the four `talloc` forms: cause 28 with counter 4 where the allocation is refused; the lowest FREE slot, OPEN under its handle,
where it is granted; else the null handle for `.nb`, and for the others a wait at the end of the partition's order, which TALLOC_GRANT ends. A request is refused in a partition
that is not enabled, or another enclave's (R334), with no valid owner entry, or with a count outside 1 to 255; the grant condition is R94's, in the state in which each waiting allocation
that it grants has been granted; the slots that count as free are those FREE in open pool-mode slabs, lowest first. -/
def Obligations.PoolAllocate : Prop :=
  ∀ (s : State) (f : L64),
    let part := (tallocArgs s.me f).1
    let n := (tallocArgs s.me f).2
    let k := s.myCluster
    let l := launchOf s s.cur
    (∀ i nb, (i, nb) ∈ [(Instr.tallocImm f, false), (.tallocReg f, false), (.tallocNbImm f, true), (.tallocNbReg f, true)] →
      (allocRefused s (coreOf s.cur) k part l n = true → Runs i s (tileTrapOn s s.cur { cause := 28, role := 0 } (mkHandle 0 k part 0))) ∧
      (allocRefused s (coreOf s.cur) k part l n = false → newGrant s k part l = true → ∀ u us, freeUnits s k part = u :: us →
        ∃ t, Runs i s t ∧ OnlyTile s t { clus := k, part := part, unit := u } ∧
          t.me = (s.me.setX f.d.toNat (mkHandle ((s.cluster k).slot u).gen k part u)).done ∧
          (t.cluster k).slot u = { gen := ((s.cluster k).slot u).gen, st := .opened, owner := l, n := n }) ∧
      (allocRefused s (coreOf s.cur) k part l n = false → newGrant s k part l = false → nb = true → XDone i s f.d.toNat 0) ∧
      (allocRefused s (coreOf s.cur) k part l n = false → newGrant s k part l = false → nb = false →
        ∃ t, Runs i s t ∧ SameMemory s t ∧ t.me = { s.me with wait := .talloc k part s.clock } ∧
          ((t.cluster k).part part).waiters = ((s.cluster k).part part).waiters ++ [.hart s.cur])) ∧
    (let p := (s.cluster k).part part
     let valid := fun (o : Owner) (l : Nat) => o.v = true ∧ o.launch = l
     (allocRefused s (coreOf s.cur) k part l n = true ↔
       p.en = false ∨ p.eid ≠ s.myCore.kencl.toNat ∨ (∀ o ∈ p.owners, ¬ valid o.2 l) ∨ n = 0 ∨ 255 < n) ∧
     (newGrant s k part l = true ↔ grantable (afterWaiters k part p.waiters s) k part l = true) ∧ (∀ x : State, afterWaiters k part [] x = x) ∧
     (∀ (x : State) w ws, let g := waiterLaunch x w
       afterWaiters k part (w :: ws) x = afterWaiters k part ws (if grantable x k part g = true then (takeSlot x k part g 1).1 else x)) ∧
     (∀ j, grantable s k part j = true ↔ p.en = true ∧ ∃ e, ownerOf p j = some e ∧ inUse s k part j < e.max ∧
       1 + ((p.owners.filter fun o => o.2.v && o.2.launch != j).map fun o => o.2.min - inUse s k part o.2.launch).sum ≤ (freeUnits s k part).length) ∧
     (∀ j e, ownerOf p j = some e → valid e j ∧ ∃ i, (i, e) ∈ p.owners) ∧ (∀ j, ownerOf p j = none → ∀ o ∈ p.owners, ¬ valid o.2 j) ∧
     (∀ j, inUse s k part j = (p.slotUnits.filter fun u => decide (((s.cluster k).slot u).st ≠ .free ∧ ((s.cluster k).slot u).owner = j)).length) ∧
     let free := fun u => u ∈ p.slotUnits ∧ p.en = true ∧ ((s.cluster k).slot u).st = .free ∧ (s.cluster k).mode (u / 64) = 3 ∧ (s.cluster k).closed (u / 64) = false
     (∀ u, u ∈ freeUnits s k part ↔ free u) ∧ ∀ u us, freeUnits s k part = u :: us → free u ∧ ∀ v, free v → u ≤ v) ∧
    (∀ h u us, (((s.cluster s.ev.a).part s.ev.b).waiters.find? fun w => grantable s s.ev.a s.ev.b (waiterLaunch s w)) = some (.hart h) →
      freeUnits s s.ev.a s.ev.b = u :: us → ∃ t, Runs .tallocGrant s t ∧ SameMemory s t ∧
        t.hart h = ((s.hart h).setX (fld (s.hart h).ibits 7 5) (mkHandle ((s.cluster s.ev.a).slot u).gen s.ev.a s.ev.b u)).done ∧
        ((t.cluster s.ev.a).slot u).st = .opened ∧ ((t.cluster s.ev.a).slot u).owner = launchOf s h ∧
        ((t.cluster s.ev.a).part s.ev.b).waiters = ((s.cluster s.ev.a).part s.ev.b).waiters.filter (· != .hart h)) ∧
    (starved s s.ev.a s.ev.b = true → ∃ t, Runs .starvationDetectorFire s t ∧ SameMemory s t ∧
      (∀ h x, (h, x) ∈ starvers s s.ev.a s.ev.b → ∃ y : Hart, t.hart h = y.enter false 31 (mkHandle 0 s.ev.a s.ev.b 0)) ∧
      (t.die (s.ev.a / 16)).poolEv.get false (s.ev.a * 64 + s.ev.b) = true ∧ ((t.cluster s.ev.a).part s.ev.b).lastRead = s.clock)

/-- R246 to R248, R82, R87, R97: on an OPEN tile of the hart's launch `thdr` writes the header with PSN and SEALED 0 and its CRC, `tst` every active lane's
data at its payload offset, and `tseal` passes a tile whose header and extent are sound to SEALED with its declared count. `thdr.m` writes the header to
memory. -/
def Obligations.TileWrite : Prop :=
  ∀ (s : State) (f : L64),
    let w := s.me.getX f.a.toNat
    (∀ r, OwnTile s w r → (s.tile r).st = .opened →
      (∃ t, Runs (.thdr f) s t ∧ OnlyTile s t r ∧ t.me = s.me.done ∧
        SlotPut (s.tile r) (t.tile r) (atOffset 0 (natToLe 16 (thdrWord s.me f false).toNat))) ∧
      (∀ offs, offs = (activeLanes s.me f).map (fun l => (l, tileOff s.me f (4 * 2 ^ f.ty.toNat) f.imm15.toInt l)) →
        effMask s.me f ≠ 0 → badOff offs (4 * 2 ^ f.ty.toNat) (r.room - 16) = none →
        ∃ t, Runs (.tst f) s t ∧ OnlyTile s t r ∧ t.me = s.me.done ∧ SlotPut (s.tile r) (t.tile r)
          (offs.map fun x => atOffset (16 + x.2.toNat) (s.me.dataBytes f.c.toNat x.1 (4 * 2 ^ f.ty.toNat))).flatten) ∧
      (hdrCheck (s.tile r).hdr = none → extentOf (s.tile r).hdr ≤ r.room →
        ∃ t, Runs (.tseal f) s t ∧ OnlyTile s t r ∧ t.me = s.me.done ∧ (t.tile r).st = .sealed ∧ (t.tile r).c = (s.tile r).n ∧
          SlotPut { s.tile r with st := .sealed, c := (s.tile r).n } (t.tile r) (atOffset 0 (natToLe 16 (sealCrc (setHf (s.tile r).hdr 30 1 1)).toNat)))) ∧
    (effMask s.me f = 0 → Becomes (.tst f) s s.me.done) ∧
    (∀ t ps, w.toNat % 128 = 0 → FlagFree s true → TileChecked s true w 16 ps t →
      TileStores (.thdrM f) s t w ps (atOffset 0 (natToLe 16 (thdrWord s.me f true).toNat)) id) ∧
    crcOk (thdrWord s.me f false) = true ∧ hPsn (thdrWord s.me f false) = false ∧ hSealed (thdrWord s.me f false) = false

/-- R91, R96, R100, R249: `tdrop` frees a tile with no open reservation and waits on one with some; `tskip` is one consuming read, and does nothing on a
poisoned tile; `tgive` hands the tile to a launch with an owner entry. A handle that names no live tile is cause 28 (R90). -/
def Obligations.TileRelease : Prop :=
  ∀ (s : State) (f : L64),
    let w := s.me.getX f.a.toNat
    (∀ r, OwnTile s w r → eidOk s (coreOf s.cur) r.clus r.part = true →
      ((s.tile r).res = 0 → ∃ t, Runs (.tdrop f) s t ∧ OnlyTile s t r ∧ t.me = s.me.done ∧ t.tile r = freedSlot (s.tile r)) ∧
      ((s.tile r).res ≠ 0 → Becomes (.tdrop f) s { s.me with wait := .stall }) ∧
      ((ownerOf ((s.cluster r.clus).part r.part) (fld (s.me.getX f.b.toNat) 0 16)).isSome = true → (s.tile r).res = 0 →
        ∃ t, Runs (.tgive f) s t ∧ OnlyTile s t r ∧ t.me = s.me.done ∧ t.tile r = { s.tile r with owner := fld (s.me.getX f.b.toNat) 0 16 })) ∧
    (∀ r, ReadTile s w r true → ∃ t, Runs (.tskip f) s t ∧ OnlyTile s t r ∧ t.me = s.me.done ∧ t.tile r = readSlot (s.tile r) ∧
      t.myCore = { s.myCore with l1 := [] }) ∧
    (∀ r, liveTile s s.me.fn w = some r → eidOk s (coreOf s.cur) r.clus r.part = true → (s.tile r).st = .poisoned → Becomes (.tskip f) s s.me.done) ∧
    (liveTile s s.me.fn w = none → ∀ i ∈ [Instr.thdr f, .tseal f, .tdrop f, .tskip f, .tgive f], Runs i s (tileTrapOn s s.cur { cause := 28 } w))

/-- R250, R251, R255: `tcnt` and `tinfo` read a tile's state and header, 0 for a stale handle; `tinfo.t` a tile register's header, 0 outside the grant;
`tldl` gives each active lane its payload bytes, with the consume bit as one consuming read. -/
def Obligations.TileRead : Prop :=
  ∀ (s : State) (f : L64),
    let w := s.me.getX f.a.toNat
    (liveTile s s.me.fn w = none → XDone (.tcnt f) s f.d.toNat 0 ∧ (f.imm15.toNat % 4 ≠ 3 → XDone (.tinfo f) s f.d.toNat 0)) ∧
    (f.imm15.toNat % 4 = 3 → XDone (.tinfo f) s f.d.toNat s.me.tfr) ∧
    (∀ r, liveTile s s.me.fn w = some r →
      XDone (.tcnt f) s f.d.toNat (word ((if (s.tile r).st = .sealed then (s.tile r).c - (s.tile r).res else 0) + (s.tile r).n * 2 ^ 8 +
        (s.tile r).st.code * 2 ^ 16 + (if (s.tile r).owner = launchOf s s.cur then 1 else 0) * 2 ^ 18)) ∧
      (f.imm15.toNat % 4 = 0 → XDone (.tinfo f) s f.d.toNat (word (hf (s.tile r).hdr 0 64))) ∧
      (f.imm15.toNat % 4 = 1 → XDone (.tinfo f) s f.d.toNat (word (hf (s.tile r).hdr 64 64))) ∧
      (f.imm15.toNat % 4 = 2 → XDone (.tinfo f) s f.d.toNat (word (((s.cluster r.clus).part r.part).cls * 2 ^ 16 + (s.tile r).owner)))) ∧
    (inGrant (grantOf s) f.a.toNat = false → XDone (.tinfoT f) s f.d.toNat 0) ∧
    (inGrant (grantOf s) f.a.toNat = true → s.myCore.mxCount < 4096 → accPending s.myCore f.a.toNat = false →
      (f.imm15.toNat % 4 = 0 → XDone (.tinfoT f) s f.d.toNat (word (hf (regHdr s.myCore f.a.toNat) 0 64))) ∧
      (f.imm15.toNat % 4 = 1 → XDone (.tinfoT f) s f.d.toNat (word (hf (regHdr s.myCore f.a.toNat) 64 64)))) ∧
    (∀ r, let size := 4 * 2 ^ f.ty.toNat
      let cons := f.imm15.getLsbD 14
      let offs := (activeLanes s.me f).map fun l => (l, tileOff s.me f size (f.imm15.extractLsb' 0 13).toInt l)
      effMask s.me f ≠ 0 → f.ty.toNat ≤ 2 → FlagFree s false → ReadTile s w r cons → hdrCheckAll (s.tile r).hdr (some r.room) = none →
      badOff offs size (extentOf (s.tile r).hdr - 16) = none →
      ∃ t, Runs (.tldl f) s t ∧ OnlyTile s t r ∧ t.tile r = (if cons then readSlot (s.tile r) else s.tile r) ∧
        LoadElems s.me t.me f size false (fun l => (List.range size).map fun i =>
          (s.tile r).payload ((tileOff s.me f size (f.imm15.extractLsb' 0 13).toInt l).toNat + i)) ∧
        { t.me with v := s.me.v, mtaint := s.me.mtaint, bind := s.me.bind } = s.me.dirtyXs.done)

/-- R252 to R254, R261: a load of a slot or accumulator from a pool tile or from memory: the register takes the checked tile, and a consuming read its
count; a register that a `tmma` still uses makes the hart wait with the tile reserved, until the commit or the release of the reservation. -/
def Obligations.TileLoad : Prop :=
  ∀ (s : State) (f : L64),
    let code := f.d.toNat
    let w := s.me.getX f.a.toNat
    (inGrant (grantOf s) code = true → s.myCore.mxCount < 4096 → FlagFree s false →
      (∀ i cons r, (i, cons) ∈ [(Instr.tld f, true), (.tpeek f, false), (.taccLd f, true)] → ReadTile s w r cons →
        (inUseByUnit s.myCore code = true →
          ∃ t, Runs i s t ∧ OnlyTile s t r ∧ t.me = { s.me with wait := .reserve r.clus r.unit (s.tile r).gen } ∧ t.tile r = { s.tile r with res := (s.tile r).res + 1 }) ∧
        (inUseByUnit s.myCore code = false → hdrCheckAll (s.tile r).hdr (some r.room) = none →
          ∀ u, acceptTile code w (s.tile r).hdr (s.tile r).body false s = .ok ((), u) →
            let v := takeTileTaint u r
            Runs i s (retire (l1Clear (if cons then consume v r else v) (coreOf s.cur))))) ∧
      (∀ i, i = .tldM f ∨ i = .taccLdM f → accPending s.myCore code = false → w.toNat % 128 = 0 →
        ∀ p s1 hb s2 ps s3 bs s4 u, TileChecked s false w 16 p s1 → tileRead p s1 = .ok (hb, s2) →
          hdrCheck (hdrOf hb) = none → TileChecked s2 false w (extentOf (hdrOf hb)) ps s3 → hdrUse (hdrOf hb) none = none →
          tileRead ps s3 = .ok (bs, s4) → acceptTile code w (hdrOf hb) (bytesMap (bs.drop 16)) (tilePoison s3 ps) s4 = .ok ((), u) →
          Runs i s (retire u))) ∧
    (∀ h bytes, (code < 8 → slotLimits code h = none → isEx8 (hEfmt h) = false →
        acceptTile code w h bytes false s = .ok ((), s.modMyCore fun c => c.setOp code { loaded := true, hdr := h, bytes := bytes })) ∧
      (code < 8 → slotLimits code h = none → isEx8 (hEfmt h) = true → ∀ bs u, ex8Load w h (fun k => bytes.get 0 k) s = .ok (bs, u) →
        acceptTile code w h bytes false s = .ok ((), u.modMyCore fun c => c.setOp code { loaded := true, hdr := h, bytes := bytesMap bs })) ∧
      (8 ≤ code → accLimits h = none →
        acceptTile code w h bytes false s =
          .ok ((), s.modMyCore fun c => c.setAcc (code - 8) { hdr := accHdr h, elems := accElems h fun k => bytes.get 0 k }))) ∧
    (∀ t, endReservation s s.ev.a = some (.ok ((), t)) → Runs .tileReservationCommit s { t with cur := s.cur }) ∧
    (∀ t, endReservation s s.ev.a = some (.error t) → Runs .tileReservationRelease s { t with cur := s.cur })

/-- R152, R256 to R259, R266 to R268: `tmma` with sound operands enters the unit; its completion writes the accumulator and counts; a product of integer
tiles is the exact sum modulo 2^32. A pop quiz fences the sub-arrays that fail and takes 4,096 from the count; `tquiz`, in M mode alone, clears, runs, and
returns the fence map. -/
def Obligations.TileProduct : Prop :=
  ∀ (s : State) (f : L64),
    let code := fun r : BitVec 5 => inGrant (grantOf s) r.toNat = true
    (code f.d → code f.a → code f.b → s.myCore.mxCount < 4096 → accPending s.myCore f.d.toNat = false → tmmaCheck s.myCore f = none →
      ∃ t, Runs (.tmma f) s t ∧ SameMemory s t ∧ t.me = s.me.done ∧
        t.myCore = { s.myCore with
          mxCount := s.myCore.mxCount + 1
          mx := s.myCore.mx ++ [{ acc := f.d.toNat - 8, a := f.a.toNat, b := f.b.toNat, z := f.imm15.getLsbD 0, ta := s.myCore.op f.a.toNat,
                                  tb := s.myCore.op f.b.toNat }] }) ∧
    (∀ o os, (s.core s.ev.a).mx = o :: os → ∃ t, Runs .tmmaComplete s t ∧ SameMemory s t ∧ t.harts = s.harts ∧ (t.core s.ev.a).mx = os ∧
      (t.core s.ev.a).acc o.acc = (product o ((s.core s.ev.a).acc o.acc)).1 ∧
      (∀ j, j ≠ o.acc → (t.core s.ev.a).acc j = (s.core s.ev.a).acc j) ∧
      (t.core s.ev.a).kev.get 0 9 = min ((s.core s.ev.a).kev.get 0 9 + 1) (2 ^ 48 - 1)) ∧
    (∀ (o : MatOp) (i j c : Nat), fmtClass (hEfmt o.ta.hdr) = 4 → fmtClass (hEfmt o.tb.hdr) = 4 → c < 2 ^ 32 →
      (accElement o i j c).bits = ofS 32 (toS 32 c + ((List.range (hCols o.ta.hdr)).map fun k =>
        (match elemVal (hEfmt o.ta.hdr) (o.ta.elem i k), elemVal (hEfmt o.tb.hdr) (o.tb.elem k j) with
          | .num n m _, .num n' m' _ => sgn n m * sgn n' m'
          | _, _ => 0)).sum)) ∧
    (4096 ≤ (s.core s.ev.a).mxCount → ∃ t, Runs .popQuiz s t ∧ SameMemory s t ∧ t.harts = s.harts ∧
      (t.core s.ev.a).mxCount = (s.core s.ev.a).mxCount - 4096 ∧ (t.core s.ev.a).mxGroup = ((s.core s.ev.a).mxGroup + 1) % 4 ∧
      (t.core s.ev.a).fence = (s.core s.ev.a).fence ||| BitVec.ofNat 64 (fld s.ev.w 0 16 * 2 ^ (16 * (s.core s.ev.a).mxGroup))) ∧
    (s.me.priv ≠ .m → ∀ i ∈ [Instr.tquizNone f, .tquizRun f, .tquizClear f], Traps i s 2 s.me.ibits) ∧
    (s.me.priv = .m → s.myCore.mxCount < 4096 → XDone (.tquizNone f) s f.d.toNat s.myCore.fence) ∧
    (s.me.priv = .m → s.myCore.mxCount < 4096 → s.myCore.mx = [] →
      (∃ t fails, Runs (.tquizRun f) s t ∧ SameMemory s t ∧
        t.myCore.fence = s.myCore.fence ||| BitVec.ofNat 64 (fails % 2 ^ 16 * 2 ^ (16 * (f.imm15.toNat % 4))) ∧ XReg s.me t.me f.d.toNat t.myCore.fence) ∧
      ∃ t fails, Runs (.tquizClear f) s t ∧ SameMemory s t ∧
        t.myCore.fence = (s.myCore.fence &&& ~~~ (1#64 <<< (16 * (f.imm15.toNat % 4) + f.imm15.toNat / 16 % 16))) |||
          BitVec.ofNat 64 (fails % 2 ^ 16 * 2 ^ (16 * (f.imm15.toNat % 4))) ∧ XReg s.me t.me f.d.toNat t.myCore.fence)

/-- R260, R262 to R264, R67: `tzero` writes an accumulator of zeros; `tzero.m` stores zeros, whole lines as zero tags of the cluster; `tacc.lrd` and `tacc.lwr` move elements between an accumulator and the
active lanes; the converting stores write the header, lines and scales of the converted tile to an OPEN pool tile or to memory. -/
def Obligations.TileAccumulator : Prop :=
  ∀ (s : State) (f : L64),
    let free := fun r : BitVec 5 => inGrant (grantOf s) r.toNat = true ∧ s.myCore.mxCount < 4096 ∧ accPending s.myCore r.toNat = false
    let w := s.me.getX f.a.toNat
    let x := s.me.getX f.b.toNat
    (free f.d → ∃ t, Runs (.tzero f) s t ∧ SameMemory s t ∧ t.me = s.me.done ∧
      t.myCore = s.myCore.setAcc (f.d.toNat - 8) { hdr := (plainHdr (if f.imm15.getLsbD 14 then 0x10 else 2)
        (f.imm15.toNat % 128 + 1) (f.imm15.toNat / 128 % 128 + 1)) }) ∧
    (w.toNat % 128 = 0 → x.toNat % 128 = 0 → x.toNat ≤ 2 ^ 20 →
      (x.toNat = 0 → Becomes (.tzeroM f) s s.me.done) ∧
      (x.toNat ≠ 0 → FlagFree s true → ∀ t ps, TileChecked s true w x.toNat ps t →
        TileStores (.tzeroM f) s (zeroTags t (whoOf t t.cur true) ps) w ps (atOffset 0 (List.replicate x.toNat 0)) id)) ∧
    (¬ (w.toNat % 128 = 0 ∧ x.toNat % 128 = 0 ∧ x.toNat ≤ 2 ^ 20) → Traps (.tzeroM f) s 6 w) ∧
    (effMask s.me f ≠ 0 → free f.a → crcOk (s.myCore.acc (f.a.toNat - 8)).hdr = true → hPsn (s.myCore.acc (f.a.toNat - 8)).hdr = false →
      accPosCheck (s.myCore.acc (f.a.toNat - 8)).hdr f f.a.toNat 1 x (activeLanes s.me f) = none →
      LaneDone (.taccLrd f) s f (if f.ty = 1 then 64 else 32) f.d.toNat fun l =>
        ((s.myCore.acc (f.a.toNat - 8)).elems.get 0
          (128 * (accPos x (f.imm15.getLsbD 0) l).1 + (accPos x (f.imm15.getLsbD 0) l).2)).toNat) ∧
    (effMask s.me f ≠ 0 → free f.d → accPosCheck (s.myCore.acc (f.d.toNat - 8)).hdr f f.d.toNat 0 x (activeLanes s.me f) = none →
      ∃ t, Runs (.taccLwr f) s t ∧ SameMemory s t ∧ t.me = s.me.done ∧
        (t.myCore.acc (f.d.toNat - 8)).hdr = (s.myCore.acc (f.d.toNat - 8)).hdr ∧
        (∀ l ∈ activeLanes s.me f, (t.myCore.acc (f.d.toNat - 8)).elems.get 0
            (128 * (accPos x (f.imm15.getLsbD 0) l).1 + (accPos x (f.imm15.getLsbD 0) l).2) =
          word (s.me.elem (if f.ty = 1 then 64 else 32) f.c.toNat l)) ∧
        ∀ j, j ≠ f.d.toNat - 8 → t.myCore.acc j = s.myCore.acc j) ∧
    (free f.d → cvtCheck s.myCore f.d.toNat = none →
      ∀ src hd, src = (if f.d.toNat < 8 then (s.myCore.op f.d.toNat).cvt else (s.myCore.acc (f.d.toNat - 8)).cvt) →
        (∀ i, i = .taccSt f ∨ i = .tcvt f →
          templateHdr (BitVec.ofNat 128 (x.toNat + (s.me.getX f.c.toNat).toNat * 2 ^ 64)) src.rows src.cols false = some hd →
          ∀ r, OwnTile s w r → (s.tile r).st = .opened → extentOf hd ≤ r.room →
            ∃ t, Runs i s t ∧ SameMemory s t ∧ t.me = s.me.done ∧ SlotPut (s.tile r) (t.tile r) (cvtBytes hd (convertTile hd src))) ∧
        (∀ i, i = .taccStM f ∨ i = .tcvtM f →
          templateHdr (BitVec.ofNat 128 (x.toNat + (s.me.getX f.c.toNat).toNat * 2 ^ 64)) src.rows src.cols true = some hd →
          w.toNat % 128 = 0 → FlagFree s true → ∀ t ps, TileChecked s true w (extentOf hd) ps t →
            TileStores i s t w ps (cvtBytes hd (convertTile hd src)) fun u => bumpCvt u (convertTile hd src) src.nan7))

/-! ### Messages -/

/-- R271 to R273, R194, R284: `msend` puts one message into the send buffer and `msend.l` one for each lane of m0, in lane order, where the buffer has
room beside the firing's reserved entries; an illegal header or register range is an illegal-instruction trap, and no room a stall. -/
def Obligations.MessageSend : Prop :=
  ∀ (s : State) (a b : BitVec 5),
    let hdr := s.me.getX a.toNat
    let free := freeSends s (coreOf s.cur) + sendsLeft s.me
    let ls := lanesIn (s.me.getM 0)
    let legal := mNw hdr ≤ 8 ∧ ¬ (s.me.priv = .u ∧ mCh hdr = 63)
    let span := b.toNat % 2 = 0 ∧ b.toNat + 2 * mNw hdr ≤ 32
    (legal → (∀ k, flagB s.me = some k → s.me.getCf k < 63) → 1 ≤ free →
      Sends (.msend a) s hdr 0 [(List.range (mNw hdr)).map fun i => s.me.getX (10 + i)]) ∧
    (legal → span → (ls = [] ∨ ∀ k, flagB s.me = some k → s.me.getCf k < 63) → ls.length ≤ free →
      Sends (.msendL a b) s hdr 1 (ls.map fun l => (List.range (mNw hdr)).map fun w =>
        s.me.getV (b.toNat + 2 * w + 1) l ++ s.me.getV (b.toNat + 2 * w) l)) ∧
    (legal → free = 0 → Becomes (.msend a) s { s.me with wait := .stall }) ∧
    (legal → span → free < ls.length → Becomes (.msendL a b) s { s.me with wait := .stall }) ∧
    (¬ legal → Traps (.msend a) s 2 s.me.ibits) ∧ (¬ (legal ∧ span) → Traps (.msendL a b) s 2 s.me.ibits)

/-- R170, R275, R282: `mnext` takes the firing's next reserved message, and with none left, or outside a firing, clears `kmhdr` and the presence bits;
`qpush` appends to a queue of the hart's function with room, `qpop` removes the oldest value, each stalling otherwise; another name is an
illegal-instruction trap. -/
def Obligations.MessageTake : Prop :=
  ∀ (s : State) (d a b : BitVec 5),
    let c := fld (s.me.getX a.toNat) 0 9
    let q := fld (s.me.getX a.toNat) 9 5
    let y := (s.core c).q q
    let named := fld (s.me.getX a.toNat) 14 50 = 0 ∧ y.en = true ∧ s.launchFn y.launch = s.me.fn
    let taken := fun (f : Firing) => (s.myCore.chan f.ch).hw.find? fun m => m.resv == s.cur + 1
    (∀ f m, s.me.bind = .firing f → taken f = some m → m.msg.words.length ≤ 8 →
      let sc := m.msg.edge.getD (jointScope s.cur m.msg.sender)
      ∃ t, Runs .mnext s t ∧ HomeMemory s t ∧ (∀ h, h ≠ s.cur → t.hart h = s.hart h) ∧ InboxOf t.me m.msg ∧ t.me.k = { s.me.k with kmhdr := m.msg.hdr } ∧
        t.me.bind = .firing { f with taken := f.taken ++ [m.msg], taint := f.taint ||| m.msg.taint } ∧
        { t.me with inbox := s.me.inbox, present := s.me.present, inFrom := s.me.inFrom, k := s.me.k, bind := s.me.bind } = s.me.dirtyXs.done ∧
        t.myCore = { s.myCore.modChan f.ch (fun x => { x with hw := x.hw.erase m }) with l1 := if 2 ≤ sc then [] else s.myCore.l1 } ∧
        (sc ≠ 5 → OnlyUnits s t [s.cur] [coreOf s.cur])) ∧
    ((∀ f, s.me.bind = .firing f → taken f = none) →
      Becomes .mnext s ({ s.me with present := 0, inFrom := [], k := { s.me.k with kmhdr := 0 } } : Hart).dirtyXs.done) ∧
    (named → FlagFree s true → y.vals.length < 16 * y.units → ∃ t, Runs (.qpush a b) s t ∧ OnlyUnits s t [s.cur] [c] ∧ t.me = s.me.done ∧
      t.core c = (s.core c).modQ q fun y =>
        { y with vals := y.vals ++ [{ val := s.me.getX b.toNat, writer := s.cur, taint := taintOf s s.cur }] }) ∧
    (named → 16 * y.units ≤ y.vals.length → Becomes (.qpush a b) s { s.me with wait := .stall }) ∧
    (∀ v r, named → y.vals = v :: r → (y.waiters = [] ∨ y.waiters.head? = some s.cur) →
      ∃ t, Runs (.qpop d a) s t ∧ SameMemory s t ∧ { t with harts := s.harts, cores := s.cores, classes := s.classes } = s ∧
        (∀ h, h ≠ s.cur → t.hart h = s.hart h) ∧ XReg s.me t.me d.toNat v.val ∧
        { t.me with x := s.me.x, mtaint := s.me.mtaint, bind := s.me.bind } = s.me.done ∧
        (t.core c).q q = { y with vals := r, waiters := y.waiters.filter (· != s.cur) } ∧
        (∀ j, j ≠ q → (t.core c).q j = (s.core c).q j) ∧ (s.me.priv ≠ .m → taintOf t s.cur = taintOf s s.cur ||| v.taint)) ∧
    (named → (y.vals = [] ∨ ¬ (y.waiters = [] ∨ y.waiters.head? = some s.cur)) →
      ∃ t, Runs (.qpop d a) s t ∧ OnlyUnits s t [s.cur] [c] ∧ t.me = { s.me with wait := .qpop c q } ∧
        ((t.core c).q q).vals = y.vals ∧ ((t.core c).q q).waiters = (if s.cur ∈ y.waiters then y.waiters else y.waiters ++ [s.cur])) ∧
    (¬ named → Traps (.qpush a b) s 2 s.me.ibits ∧ Traps (.qpop d a) s 2 s.me.ibits)

/-- R274, R278, R279: an entry with none before it in its core's send buffer for the same channel arrives: discarded, queued, spilled or held; the message
that a channel has held longest is offered again likewise; a refill moves the ring's head entry into the hardware part, waits while its page is between biases, and puts the channel in error where
the page fails or the entry is poison (one whose tag fails likewise, which is the model's choice, log 73). That an arrival at a channel that holds arrivals joins behind them is
its reading (log 55). -/
def Obligations.MessageDelivery : Prop :=
  ∀ (s : State),
    (∀ e, (s.core s.ev.a).sends[s.ev.b]? = some e → mCh e.msg.hdr ≠ 63 →
      (∀ x ∈ (s.core s.ev.a).sends.take s.ev.b, ¬ (mCore x.msg.hdr = mCore e.msg.hdr ∧ mCh x.msg.hdr = mCh e.msg.hdr)) →
      Delivers .messageArrival s s.ev.a e) ∧
    (∀ e k r, ((s.core s.ev.a).chan s.ev.b).held = .send k e.id :: r → ((s.core k).sends.find? fun y => y.id == e.id) = some e →
      s.ev.b ≠ 63 → mCore e.msg.hdr = s.ev.a → mCh e.msg.hdr = s.ev.b → Delivers .heldMessageReoffer s k e) ∧
    (∀ i, searchUp 64 (s.core s.ev.a).lastRefill (fun j => ((s.core s.ev.a).chan j).canRefill) = some i → (s.core s.ev.a).refillAt ≤ s.clock →
      let x := (s.core s.ev.a).chan i
      let s1 := s.modCore s.ev.a fun y => { y with lastRefill := i, refillAt := s.clock + 4 }
      let w := ringWho s s.ev.a x
      (∀ u p v y, ringPlace s1 s.ev.a x x.head .rd = (u, .at_ p) → lineIn u w (ringVa x x.head) p = (v, some y) →
        ∃ t, Runs .channelRefill s t ∧ HomeMemory u t ∧ t.harts = s.harts ∧ (t.core s.ev.a).refillAt = s.clock + 4 ∧
          (t.core s.ev.a).chan i = (if y.psn then { x.popRing with err := true, drop := min 255 (x.drop + 1) }
            else { x.popRing with hw := x.hw ++ [{ msg := ringMessage y.bytes (x.ringMeta.head?.getD {}) }] })) ∧
      (∀ u p v, ringPlace s1 s.ev.a x x.head .rd = (u, .at_ p) → lineIn u w (ringVa x x.head) p = (v, none) →
        ∃ t, Runs .channelRefill s t ∧ t.harts = s.harts ∧ (t.core s.ev.a).chan i = { x with err := true } ∧
          t.book = (sealNote v w.fn w.eid s.ev.a p.pa p.key).book) ∧
      (∀ u, ringPlace s1 s.ev.a x x.head .rd = (u, .bad) →
        ∃ t, Runs .channelRefill s t ∧ SameMemory u t ∧ t.harts = s.harts ∧ (t.core s.ev.a).chan i = { x with err := true }) ∧
      (∀ u, ringPlace s1 s.ev.a x x.head .rd = (u, .flip) → Runs .channelRefill s s)) ∧
    (∀ x : Channel, 0 < x.rcnt → x.popRing = { x with
      rcnt := x.rcnt - 1, ringMeta := x.ringMeta.drop 1
      head := if x.rcnt = 1 then 0 else (x.head + 1) % 2 ^ x.lsize, tail := if x.rcnt = 1 then 0 else x.tail })

/-- R169 to R171, R176: a firing starts for the first runnable channel of the highest EPRIO after the one last started there; its hart starts in U mode at
the handler's PC with its state zero, holding the first message; k messages stay reserved for it; the other runnable channels are passed over, and one
that has been passed over 4,096 times rises by one. -/
def Obligations.FiringStart : Prop :=
  ∀ (s : State),
    (∀ c p ch, selectChannel s c = some (p, ch) → runnable s c ch = true ∧ ((s.core c).chan ch).eprio = p ∧
      (∀ j < 64, runnable s c j = true → ((s.core c).chan j).eprio ≤ p) ∧
      ∀ j < 64, runnable s c j = true → ((s.core c).chan j).eprio = p → (s.core c).lastPrio.get 63 p < 64 →
        (ch + 63 - (s.core c).lastPrio.get 63 p) % 64 ≤ (j + 63 - (s.core c).lastPrio.get 63 p) % 64) ∧
    (∀ p ch h q, let c := s.ev.a
      let x := (s.core c).chan ch
      selectChannel s c = some (p, ch) → firingHart s c x = some h → coreOf h = c → (∀ m ∈ x.hw, m.resv ≠ h + 1) → (x.hw.find? fun m => m.resv == 0) = some q →
      q.msg.words.length ≤ 8 →
      ∃ t, Runs .firingStart s t ∧ HomeMemory s t ∧ (∀ g, g ≠ h → t.hart g = s.hart g) ∧ (∀ d, d ≠ c → t.core d = s.core d) ∧
        (q.msg.edge ≠ some 5 → OnlyUnits s t [h] [c]) ∧
        (let y := t.hart h
         y.live = true ∧ y.priv = .u ∧ y.pc = x.pc ∧ y.fn = s.launchFn x.launch ∧ y.x = [] ∧ y.f = [] ∧ y.frm = 0 ∧ y.fflags = 0 ∧ y.v = [] ∧
         (∀ n, y.getM n = if n = 0 then 0xFFFFFFFF else 0) ∧ y.kms = [] ∧ y.kmsd = 0 ∧ y.cf = [] ∧ y.clause = {} ∧ y.wait = .ready ∧
         y.k.kdom = x.kdom ∧ y.k.kxtab = x.kxtab ∧ InboxOf y q.msg ∧
         y.bind = .firing { ch := ch, launch := x.launch, taken := [q.msg], sendLeft := x.maxp, eid := (s.core c).kencl.toNat
                            taint := regionMask s (s.launchFn x.launch) x.kdom .u ||| q.msg.taint }) ∧
        (let z := (t.core c).chan ch
         z.eprio = x.prio ∧ z.passes = 0 ∧ (z.hw.filter fun m => m.resv == h + 1).length = x.k ∧ z.hw.length + 1 = x.hw.length) ∧
        (∀ j < 64, j ≠ ch → (t.core c).chan j =
          let z := (s.core c).chan j
          if runnable s c j then (if 4096 ≤ z.passes + 1 then { z with passes := z.passes + 1 - 4096, eprio := min 7 (z.eprio + 1) } else { z with passes := z.passes + 1 })
          else z) ∧
        (t.core c).lastPrio.get 63 p = ch) ∧
    (let x := (s.core s.ev.a).chan s.ev.b
     ∃ t, Runs .eprioAging s t ∧ OnlyUnits s t [] [s.ev.a] ∧ (∀ j, j ≠ s.ev.b → (t.core s.ev.a).chan j = (s.core s.ev.a).chan j) ∧
       (t.core s.ev.a).chan s.ev.b = if 4096 ≤ x.passes then { x with passes := x.passes - 4096, eprio := min 7 (x.eprio + 1) } else x)

/-! ### The hall pass -/

/-- R283 to R286: the operations of `hpass` by the state and owner of the instance, and the status that they write; the acknowledgement of an arm by
each ring core; the hop of the token, which a core passes on once it is idle, and the check at the initiator. That the balance of a round counts the
initiator's own count is a reading (log 18). -/
def Obligations.HallPassOps : Prop :=
  ∀ (s : State),
    (∀ (d a : BitVec 5) (i : Instr), i ∈ hpassForms d a →
      let x := s.me.getX a.toNat
      let op := fld x 0 4
      let k := fld x 4 3
      let first := fld x 7 9
      let last := fld x 16 9
      let c := coreOf s.cur
      let p := s.hp k
      let legal := op ≤ 4 ∧ fld x 25 39 = 0 ∧ (op = 0 → first ≤ last ∧ first ≤ c ∧ c ≤ last)
      let mine := (p.st = 0 ∧ p.arming = false) ∨ p.owner = launchOf s s.cur
      (¬ legal → Traps i s 2 s.me.ibits) ∧ (legal → ¬ mine → XDone i s d.toNat 0) ∧
      (legal → mine →
        (op = 0 → p.arming = true → Becomes i s { s.me with wait := .arming k d.toNat }) ∧
        (op = 0 → p.arming = false → p.st = 0 ∨ p.st = 3 → ∃ t, Runs i s t ∧ SameMemory s t ∧ t.me = { s.me with wait := .arming k d.toNat } ∧
          t.cores = s.cores ∧ (∀ h, h ≠ s.cur → t.hart h = s.hart h) ∧ t.hp k = { arming := true, first := first, last := last, init := c, owner := launchOf s s.cur }) ∧
        (op = 0 → p.arming = false → p.st = 1 ∨ p.st = 2 → HpDone i s d.toNat k p) ∧
        (op = 1 → HpDone i s d.toNat k
          (if p.st = 1 then { p with st := 2, tok := 1 % p.size, tokBlack := false, tokBal := 0, notified := s.cur } else p)) ∧
        (op = 2 → HpDone i s d.toNat k p) ∧
        (op = 3 → p.st = 3 → HpDone i s d.toNat k p) ∧ (op = 3 → p.st ≠ 3 → Becomes i s { s.me with wait := .stall }) ∧
        (op = 4 → SMap.wf {} s.harts = true → (∀ e, s.me.wait ≠ .arming k e) →
          HpDone i s d.toNat k { p with st := 0, arming := false, owner := 0, notified := 0, tok := 0, tokBlack := false, tokBal := 0 }))) ∧
    (∀ p : HallPass, fld p.status 0 48 = p.balance.toNat ∧ fld p.status 48 14 = p.rounds % 2 ^ 14 ∧ fld p.status 62 2 = p.st % 4) ∧
    (let k := s.ev.a
     let p := s.hp k
     (p.arming = true → ∃ t, Runs .hpassArmAck s t ∧ SameMemory s t ∧
        (t.core (p.coreAt p.acked)).hpCount.get 0 k = 0 ∧ (t.core (p.coreAt p.acked)).hpBlack.get false k = false ∧
        (∀ c, c ≠ p.coreAt p.acked → t.core c = s.core c) ∧
        t.hp k = (if p.acked + 1 < p.size then { p with acked := p.acked + 1 } else { p with acked := p.acked + 1, arming := false, st := 1 }) ∧
        (p.acked + 1 < p.size → t.harts = s.harts) ∧
        (p.size ≤ p.acked + 1 → SMap.wf {} s.harts = true → ∀ h d, (s.hart h).wait = .arming k d →
          t.hart h = ((s.hart h).setX d (t.hp k).status).done)) ∧
     (p.st = 2 → tokenIdle s (p.coreAt p.tok) p.owner = true →
       let c := p.coreAt p.tok
       let n := (s.core c).hpCount.get 0 k
       let black := (s.core c).hpBlack.get false k
       ∃ t, Runs .hpassTokenHop s t ∧ SameMemory s t ∧ (∀ e, e ≠ c → t.core e = s.core e) ∧ (t.core c).hpCount = (s.core c).hpCount ∧
         (p.tok ≠ 0 → t.hp k = { p with tok := (p.tok + 1) % p.size, tokBal := p.tokBal + n, tokBlack := p.tokBlack || black } ∧
           (t.core c).hpBlack.get false k = false ∧ t.harts = s.harts) ∧
         (p.tok = 0 → p.tokBlack = false → black = false → p.tokBal + n = 0 → t.hp k = { p with st := 3, balance := 0 } ∧
           (launchOf s p.notified = p.owner → (s.hart p.notified).bind ≠ .none → t.hart p.notified =
             { s.hart p.notified with csr := { (s.hart p.notified).csr with mip := setFld (s.hart p.notified).csr.mip 19 1 1 } })) ∧
         (p.tok = 0 → ¬ (p.tokBlack = false ∧ black = false ∧ p.tokBal + n = 0) →
           t.hp k = { p with rounds := min 0x3FFF (p.rounds + 1), balance := p.tokBal + n, tok := 1 % p.size, tokBal := 0, tokBlack := false } ∧
           (t.core c).hpBlack.get false k = false ∧ t.harts = s.harts)))

/-! ### Copies -/

/-- R287, R194, R297, R300: a legal request enters the first free slot of the core's FIFO where the hart has fewer than eight; without room `cpq` and
`cprd` stall and `cpq.nb` answers 1; an illegal one is an illegal-instruction trap. `cpwm` arms a watermark channel, `cpcls` makes one idle.

R292, R293, R95, R253: the engine takes the oldest request that may start, or may go on after what it was parked on, of at most four at work; one that fails a check of
the whole ends REFUSED at offset 0; one whose source tile has every read reserved waits for it at work, and the engine goes on with it once the tile is to be had; a new tile is allocated,
or the request joins the partition's order. -/
def Obligations.CopySubmitAndStart : Prop :=
  (∀ (s : State) (d a b : BitVec 5),
     let r := newReq s a.toNat false
     let q := newReq s a.toNat true
     let ok := copyLegal r (isFiring s s.cur) = true
     let flags := fun (x : CopyReq) => ∀ k ∈ reqFlags s.me x, s.me.getCf k < 63
     let wm := s.myCore.wmc d.toNat
     let base := (s.me.getX a.toNat).toNat
     let len := (s.me.getX b.toNat).toNat
     let armable := wm.st ≠ 1 ∧ wm.st ≠ 3 ∧ base % 128 = 0 ∧ len % 128 = 0 ∧ 128 ≤ len ∧ len ≤ 2 ^ 40
     (∀ j, fifoRoom s s.cur = some j →
       (j < 32 ∧ s.myCore.req j = none ∧ ((reqsOf s (coreOf s.cur)).filter fun x => x.2.hart == s.cur).length < 8) ∧
       (ok → flags r → Enters (.cpq a) s j r none ∧ Enters (.cpqNb d a) s j r (some d.toNat)) ∧
       (ok → ¬ flags r → Becomes (.cpq a) s { s.me with wait := .stall } ∧ Becomes (.cpqNb d a) s { s.me with wait := .stall }) ∧
       (cprdLegal q = true → flags q → Enters (.cprd a) s j q none) ∧ (cprdLegal q = true → ¬ flags q → Becomes (.cprd a) s { s.me with wait := .stall })) ∧
     (fifoRoom s s.cur = none →
       (ok → Becomes (.cpq a) s { s.me with wait := .stall }) ∧ (ok → XDone (.cpqNb d a) s d.toNat 1) ∧
       (cprdLegal q = true → Becomes (.cprd a) s { s.me with wait := .stall })) ∧
     (¬ ok → Traps (.cpq a) s 2 s.me.ibits ∧ Traps (.cpqNb d a) s 2 s.me.ibits) ∧
     (cprdLegal q = false → Traps (.cprd a) s 2 s.me.ibits) ∧
     (armable → ∃ t, Runs (.cpwm d a b) s t ∧ OnlyUnits s t [s.cur] [coreOf s.cur] ∧ t.me = s.me.done ∧
       t.myCore = s.myCore.modWm d.toNat fun w => { base := base, len := len, wm := 0, st := 1, total := 0, era := w.era + 1 }) ∧
     (¬ armable → Traps (.cpwm d a b) s 2 s.me.ibits) ∧
     (∃ t, Runs (.cpcls d) s t ∧ OnlyUnits s t [s.cur] [coreOf s.cur] ∧ t.me = s.me.done ∧
       t.myCore = s.myCore.modWm d.toNat fun w => { w with st := 0, era := w.era + 1 })) ∧
  (∀ (s : State) (r : CopyReq),
     let c := s.ev.a
     let rs := reqsOf s c
     let again := r.again = true ∧ (r.code ≠ 0 ∨ r.tileDone = true)
     (∀ j, (j, r) ∈ rs → (s.core c).req j = some r → (∀ x ∈ rs, x.1 = j → x.2 = r) → (rs.filter fun x => x.2.st == .working || x.2.st == .waitTile).length < 4 →
       (∀ x ∈ rs, x.2.st = .waitTile → (reserveSource s x.2).isNone = true) →
       (∀ x ∈ rs, x.1 ≠ j → (x.2.st = .queued ∨ x.2.st = .parkWm ∨ x.2.st = .resume) → r.seq < x.2.seq) →
       (r.st = .resume → ∃ t, Runs .copyRequestStart s t ∧ SameMemory s t ∧ t.harts = s.harts ∧ (t.core c).req j = some { r with st := .working }) ∧
       ((r.st = .queued ∨ r.st = .parkWm) → behindWm rs r = false →
         (again → ∃ t, Runs .copyRequestStart s t ∧ SameMemory s t ∧ t.harts = s.harts ∧ (t.core c).req j = some { r with st := .ended }) ∧
         (¬ again → r.srct = true → reserveSource s r = none → ∃ t, Runs .copyRequestStart s t ∧ HomeMemory s t ∧ t.harts = s.harts ∧
           (t.core c).req j = some { r with st := .waitTile }) ∧
         (¬ again → r.srct = false → r.dstt ≤ 1 →
           (refused s c r = false ∨ r.again = true → ∃ t, Runs .copyRequestStart s t ∧ HomeMemory s t ∧ t.harts = s.harts ∧
             (t.core c).req j = some { r with st := if r.dstt = 1 ∧ r.handle = 0 then .parkAlloc else .working, tlen := 0, res := false
                                              handle := if r.dstt = 1 then r.handle else 0 }) ∧
           (refused s c r = true → r.again = false → ∃ t x, Runs .copyRequestStart s t ∧ HomeMemory s t ∧ t.harts = s.harts ∧
             (t.core c).req j = some x ∧ x.st = .ended ∧ x.code = 3 ∧ x.detail = 0 ∧ x.off = 0)))) ∧
     (∀ j u n, (j, r) ∈ rs → (s.core c).req j = some r → (∀ x ∈ rs, x.1 = j ∨ x.2.st = .waitTile → x = (j, r)) → r.st = .waitTile → ¬ again → r.srct = true → r.dstt ≤ 1 →
       reserveSource s r = some (.ok (u, n)) → refused s c { r with tlen := n } = false ∨ r.again = true → ∃ t, Runs .copyRequestStart s t ∧
         (t.core c).req j = some { r with tlen := n, res := true, handle := if r.dstt = 1 then r.handle else 0
                                          st := if r.dstt = 1 ∧ r.handle = 0 then .parkAlloc else .working }) ∧
     ((s.core c).req s.ev.b = some r → r.st = .parkAlloc →
       let k := clusterOf c
       let p := (s.cluster k).part r.part
       .copy c s.ev.b ∉ p.waiters →
       (allocRefused s c k r.part r.launch r.nread = true → ∃ t x, Runs .copyTileAllocation s t ∧ SameMemory s t ∧ t.harts = s.harts ∧
         (t.core c).req s.ev.b = some x ∧ x.st = .ended ∧ x.code = 4 ∧ x.detail = 28 ∧ x.off = 0) ∧
       (allocRefused s c k r.part r.launch r.nread = false → newGrant s k r.part r.launch = true → ∀ u us, freeUnits s k r.part = u :: us →
         ∃ t, Runs .copyTileAllocation s t ∧ OnlyUnits s { t with clusters := s.clusters } [] [c] ∧
           (t.core c).req s.ev.b = some { r with st := (s.core c).atWork, handle := mkHandle ((s.cluster k).slot u).gen k r.part u } ∧
           (t.cluster k).slot u = { gen := ((s.cluster k).slot u).gen, st := .opened, owner := r.launch, n := r.nread }) ∧
       (allocRefused s c k r.part r.launch r.nread = false → newGrant s k r.part r.launch = false →
         ∃ t, Runs .copyTileAllocation s t ∧ OnlyUnits s { t with clusters := s.clusters } [] [] ∧
           ((t.cluster k).part r.part).waiters = p.waiters ++ [.copy c s.ev.b])) ∧
     ((s.core c).atWork = .working ↔ ((s.core c).fifo.filter fun x => x.2.any fun y => y.st == .working || y.st == .waitTile).length < 4))

/-- R51, R290, R300: one piece of a copy, fill, zero, gather or `cprd` stores the bytes of its source at its destination in memory; a whole line that a zero
fill covers becomes a dirty zero tag of the cluster (R67); a gather's piece is what of one element lies in one page at the destination (R51); one piece of a reduction sends its elements,
in line groups, on their way. -/
def Obligations.CopyPieces : Prop :=
  ∀ (s s1 u v : State) (r r1 : CopyReq) (ps : List Placed) (x : PieceData),
    let c := s.ev.a
    let j := s.ev.b
    let n := pieceSize r
    (s.core c).req j = some r → r.st = .working →
    (r.cprd = false → r.kind = 0 → r.srct = false → r.ssp = false → readGlobal s c r (r.srcAt r.off) n = (u, .data x) → n ≤ x.good → x.bytes.length = n →
      PieceGoes u v c r n ps → PieceStored .copyPieceCopy s v c j r n x.bytes ps) ∧
    (r.cprd = true → widen s c j r = (s1, r1) → readGlobal s1 c r1 (r1.srcAt r1.off) n = (u, .data x) → n ≤ x.good → x.bytes.length = n →
      PieceGoes u v c r1 n ps → PieceStored .cprdPerform s v c j r1 n x.bytes ps) ∧
    (r.cprd = false → r.kind = 1 → PieceGoes s v c r n ps →
      PieceStored .copyPieceFill s v c j r n ((List.range n).map fun k => BitVec.ofNat 8 (fld r.w0 (8 * ((r.off + k) % 8)) 8)) ps) ∧
    (r.cprd = false → r.kind = 2 → PieceGoes s v c r n ps → PieceStored .copyPieceZero s v c j r n (List.replicate n 0) ps ∧
      ∀ p t, ps = [p] → p.ref.cm < 2 → p.ref.pa % 128 = 0 → p.seg.at_.toNat % 128 = 0 → p.seg.n = 128 → Runs .copyPieceZero s t →
        ∀ y, t.kline (reqWho c r) (p.seg.at_.toNat / 128) = some y → y.zero = true ∧ y.dirty = true) ∧
    (r.cprd = false → r.kind = 3 → n ≤ 2 ^ r.rop - r.off % 2 ^ r.rop ∧ n ≤ r.total - r.off ∧ (r.dsp = false → r.dstt = 0 → n ≤ toPage (r.dstAt r.off))) ∧
    (r.cprd = false → r.kind = 3 → ∀ w y, readGlobal s c r (r.w0 + word (8 * (r.off / 2 ^ r.rop))) 8 = (w, .data y) → 8 ≤ y.good →
      (leWord y.bytes).toNat % 2 ^ r.rop = 0 → readGlobal w c r (leWord y.bytes + word (r.off % 2 ^ r.rop)) n = (u, .data x) → n ≤ x.good →
      x.bytes.length = n → PieceGoes u v c r n ps → PieceStored .copyPieceGather s v c j r n x.bytes ps) ∧
    (r.cprd = false → r.kind = 4 → r.srct = false → r.ssp = false → readGlobal s c r (r.srcAt r.off) n = (u, .data x) → n ≤ x.good → n % r.elemSize = 0 →
      r.off < r.total → copyPlace u c r .wr (r.dstAt r.off) n = (v, .ok ps) →
      (∀ p ∈ ps, flipHeld v p.ref.pa = false ∧ paKind p.ref.pa = .hbm) → (r.dstAt r.off).toNat % r.elemSize = 0 →
      ∃ t y, Runs .copyPieceReduce s t ∧ SameMemory v t ∧ t.harts = v.harts ∧ (t.core c).req j = some y ∧
        (t.die (dieOfCore c)).transit = (v.die (dieOfCore c)).transit ++ contribsOf c r ps (r.dstAt r.off)
          ((List.range (n / r.elemSize)).map fun k => leWord ((x.bytes.drop (k * r.elemSize)).take r.elemSize)) ∧
        (r.total ≤ r.off + n → y.st = .ended ∧ y.code = 0 ∧ y.off = r.total) ∧ (r.off + n < r.total → y.st = .working ∧ y.off = r.off + n))

/-- R131, R296, R155: a contribution that reaches a die's switch combines into the entry of its key, takes a free entry, or, with the table full, passes on; an entry with all
that it expects, with a release, or 512 clocks old, is forwarded: to the home's die, and from there performed: one update of each element, with the values combined in the order of arrival. No
other byte of memory changes. A page between biases holds all of it (R135). That a contribution crosses its issuer's die and its home's is the model's choice (log 52). A sealed line whose tag
fails takes no update, the failure is recorded (R340), and a copy that a contribution came from ends FAULT at that piece, for cause 51 at its wait (R340); where it ends is log 76.

R292 to R295, R300, R304, R46: a request that has ended leaves the FIFO and its flags fall; with a channel as target its message is offered first; an end other than
OK notes itself in `kcpst`, and a FAULT with a flag target is met at the wait, but for one that the service hart has met at once (R48); a new tile is sealed with its count, and its handle
written; a new tile of a copy with another end is not sealed, and of a UE end its handle is written all the same; the bytes written, and performed, reach a stage barrier, past the
release of a copy that releases (R128). -/
def Obligations.ReduceAndCompletion : Prop :=
  ((∀ (s : State) (x : Contrib) (rest : List Contrib), (s.die s.ev.a).transit = x :: rest →
      let d := s.ev.a
      let v := s.modDie d fun y => { y with transit := rest }
      let tbl := (s.die d).comb
      let mine := fun (e : CombEntry) => e.sum.line == x.line && e.sum.rop == x.rop && e.sum.fn == x.fn
      let others := tbl.filter fun y => !mine y
      let goes := fun (e : CombEntry) =>
        if x.release = true ∨ e.sum.expected ≠ 0 ∧ e.sum.expected ≤ e.sum.parts.length then
          Runs .reduceContributionArrival s (forwardContrib (v.modDie d fun y => { y with comb := others }) d e.sum)
        else ∃ t, Runs .reduceContributionArrival s t ∧ SameMemory s t ∧ t.harts = s.harts ∧ t.cores = s.cores ∧
          (t.die d).transit = rest ∧ (t.die d).comb = others ++ [e]
      (flipHeld s (128 * x.line) = true → Runs .reduceContributionArrival s s) ∧
      (flipHeld s (128 * x.line) = false →
        (∀ e, tbl.find? mine = some e → goes { e with sum := e.sum.join x }) ∧
        (tbl.find? mine = none → tbl.length < 256 → goes { sum := x, since := s.clock }) ∧
        (tbl.find? mine = none → 256 ≤ tbl.length → Runs .reduceContributionArrival s (forwardContrib v d x)))) ∧
   (∀ (s : State) (e : CombEntry), (s.die s.ev.a).comb[s.ev.b]? = some e →
      (512 ≤ s.clock - e.since → flipHeld s (128 * e.sum.line) = false →
        Runs .combiningEntryTimeout s (forwardContrib (s.modDie s.ev.a fun y => { y with comb := y.comb.erase e }) s.ev.a e.sum)) ∧
      (s.clock - e.since < 512 ∨ flipHeld s (128 * e.sum.line) = true → Runs .combiningEntryTimeout s s)) ∧
   (∀ (s : State) (d : Nat) (x : Contrib),
      forwardContrib s d x = if d = homeDie (128 * x.line) then applyContrib s x
        else s.modDie (homeDie (128 * x.line)) fun y => { y with transit := y.transit ++ [x] }) ∧
   (∀ (x y : Contrib) (pa : Nat), (y.els.map (·.1)).Nodup →
      let val := fun (z : Contrib) => (z.els.find? fun e => e.1 == pa).map (·.2)
      (x.join y).release = (x.release || y.release) ∧ (x.join y).parts = x.parts ++ y.parts ∧
      val (x.join y) = match val x, val y with
        | some a, some b => some (word (reduceOp x.rop a.toNat b.toNat))
        | some a, none => some a
        | none, b => b) ∧
   ∀ (s : State) (x : Contrib),
      let t := applyContrib s x
      (x.key = 0 → isPeer x.line = false → (x.size = 2 ∨ x.size = 4 ∨ x.size = 8) → (x.els.map (·.1)).Nodup →
        (∀ e ∈ x.els, e.1 / 128 = x.line ∧ e.1 % x.size = 0) →
        (∀ e ∈ x.els, rawBytes t e.1 x.size = natToLe x.size (reduceOp x.rop (leToNat (rawBytes s e.1 x.size)) e.2.toNat)) ∧
        ∀ a, isPeer (a / 128) = false → (∀ e ∈ x.els, a < e.1 ∨ e.1 + x.size ≤ a) → rawByte t a = rawByte s a) ∧
      (tagOk s x.key x.line = false → SameMemory s t ∧
        t.book = (bookAppend s 8 x.fn x.eid (((x.parts.head?).map (·.core)).getD 0) [word (128 * x.line), word x.key]).book ∧
        ∀ p j r, x.parts = [p] → (s.core p.core).req j = some r → (j, r) ∈ reqsOf s p.core → r.seq = p.seq →
          (∀ y ∈ reqsOf s p.core, y.1 = j ∨ y.2.seq = p.seq → y = (j, r)) → ¬ (r.st = .ended ∧ r.code ≠ 0 ∧ r.off ≤ p.off) →
          ∃ y, (t.core p.core).req j = some y ∧ y.st = .ended ∧ y.code = 2 ∧ y.off = p.off ∧ y.isSealed = true ∧ y.faultVa = r.dstAt p.off)) ∧
  (∀ (s : State) (r : CopyReq),
     let c := s.ev.a
     let j := s.ev.b
     let h := s.hart r.hart
     let ended := (s.core c).req j = some r ∧ r.st = .ended ∧ r.cprd = false ∧ contribsOpen s c r = false
     let free := fun (t : State) => (t.core c).req j = none ∧ (r.own = true → ∀ k, (t.hart r.hart).getCf k = h.getCf k - (r.flags.filter (· == k)).length)
     let only := fun (t : State) (hs cs : List Nat) => HomeMemory s t ∧ (∀ k, k ∉ hs → t.hart k = s.hart k) ∧ (∀ k, k ∉ cs → t.core k = s.core k) ∧
       (¬ (r.rel = true ∧ r.relScope = 5) → OnlyUnits s t hs cs)
     let noted := fun (code detail : Nat) => if fld h.k.kcpst 48 8 = 0 then word (detail * 2 ^ 56 + code * 2 ^ 48 + j * 2 ^ 40 + r.off % 2 ^ 40) else h.k.kcpst
     (ended → r.dstt ≠ 1 → r.ct ≠ 2 → r.undelivered = 0 → r.code = 0 → ∃ t, Runs .copyCompletion s t ∧ only t [r.hart] [c] ∧ free t ∧
       { t.hart r.hart with cf := h.cf } = h ∧ (r.rel = true → r.ct = 1 → 2 ≤ r.relScope → (t.core c).l1 = [])) ∧
     (ended → r.dstt ≠ 1 → r.ct ≠ 2 → r.undelivered = 0 → r.code ≠ 0 → ∃ t, Runs .copyCompletion s t ∧ only t [r.hart] [c] ∧ free t ∧
       (t.hart r.hart).k.kcpst = noted r.code r.detail ∧
       (t.hart r.hart).faults = (if r.own = false ∨ r.isSealed = false ∧ isService r.hart = true then h.faults
         else if r.code = 2 ∧ r.ct = 1 then h.faults ++ [{ target := r.tgt, va := r.faultVa, isSealed := r.isSealed }]
         else if r.code = 2 ∧ r.ct = 3 ∧ r.ccore = c then h.faults ++ [{ target := 16 + r.tgt, va := r.faultVa, isSealed := r.isSealed }]
         else h.faults)) ∧
     (∀ i, (i = .copyCompletion ∧ ended ∧ r.dstt ≠ 1 ∨ i = .cprdPerform ∧ (s.core c).req j = some r ∧ r.st = .ended ∧ r.cprd = true) → r.ct = 2 →
       r.undelivered = 0 →
       let x := (s.core r.ccore).chan r.tgt
       let turn := x.held = [] ∨ x.held.head? = some (.copy c j)
       let mine := x.depth ≠ 0 ∧ x.launch ≠ 0 ∧ s.launchFn x.launch = r.fn
       let rest := x.held.filter (· != .copy c j)
       (turn → mine → x.err = false → x.rcnt = 0 → x.hw.length < x.depth → ∃ t, Runs i s t ∧ only t [r.hart] [c, r.ccore] ∧ free t ∧
         (t.core r.ccore).chan r.tgt = { x with hw := x.hw ++ [{ msg := copyMessage r }], held := rest }) ∧
       (turn → ¬ mine → ∃ t, Runs i s t ∧ only t [r.hart] [c, r.ccore] ∧ free t ∧
         (t.core r.ccore).chan r.tgt = { x with drop := min 255 (x.drop + 1), held := rest }) ∧
       (¬ turn ∨ mine ∧ x.err = true → ∃ t, Runs i s t ∧ only t [] [c, r.ccore] ∧ (t.core c).req j = some { r with st := .offering } ∧
         (t.core r.ccore).chan r.tgt =
           { x with held := if MsgRef.copy c j ∈ x.held then x.held else x.held ++ [.copy c j] })) ∧
     (ended → r.dstt = 1 → r.code = 0 → r.ct = 0 → r.undelivered = 0 →
       (∀ p, r.tileDone = false → r.w1 = 0 → destTile s r r.handle = some p → hdrCheck (s.tile p).hdr = none → extentOf (s.tile p).hdr ≤ p.room →
         ∃ t, Runs .copyCompletion s t ∧ HomeMemory s t ∧ free t ∧ (t.tile p).st = .sealed ∧ (t.tile p).c = (s.tile p).n) ∧
       (r.tileDone = false → destTile s r r.handle = none → ∃ t, Runs .copyCompletion s t ∧ only t [r.hart] [c] ∧ free t ∧ (t.hart r.hart).k.kcpst = noted 4 28) ∧
       (∀ u ps, r.tileDone = true → r.w1 ≠ 0 → r.handle ≠ 0 → copyPlace s c r .wr r.w1 8 = (u, .ok ps) → (∀ p ∈ ps, p.ref.key = 0 ∧ flipHeld u p.ref.pa = false) →
         ∃ t, Runs .copyCompletion s t ∧ StoredTo u t (copyCells ps (natToLe 8 r.handle.toNat)) ∧ (t.core c).req j = none)) ∧
     (ended → r.dstt = 1 → r.code ≠ 0 → r.ct = 0 → r.undelivered = 0 →
       (r.w1 = 0 ∨ r.handle = 0 ∨ 1 < r.code → ∃ t, Runs .copyCompletion s t ∧ only t [r.hart] [c] ∧ free t ∧ (t.hart r.hart).k.kcpst = noted r.code r.detail) ∧
       (∀ u ps, r.w1 ≠ 0 → r.handle ≠ 0 → r.code = 1 → copyPlace s c r .wr r.w1 8 = (u, .ok ps) → (∀ p ∈ ps, p.ref.key = 0 ∧ flipHeld u p.ref.pa = false) →
         ∃ t, Runs .copyCompletion s t ∧ StoredTo u t (copyCells ps (natToLe 8 r.handle.toNat)) ∧ (t.core c).req j = none ∧
           (t.hart r.hart).k.kcpst = noted r.code r.detail)) ∧
     ((s.core c).req j = some r → r.ct = 3 → r.dstt ≠ 1 →
       let n := deliverable s c r
       (contribsOpen s c r = false → n = r.undelivered) ∧ (contribsOpen s c r = true → r.st = .ended → n = 0) ∧
       (n = 0 → Runs .stageBarrierDelivery s s) ∧
       (n ≠ 0 → Runs .stageBarrierDelivery s (deliver (modReq (if r.rel = true then coreRelease s c r.relScope else s) c j fun x =>
           { x with undelivered := r.undelivered - n }) r.ccore r.tgt n
         (max (if r.rel then r.relScope else 0) (if r.ccore = c then 0 else 2))))))

/-! ### Barriers -/

/-- R301, R302, R304, R307, R127: the forms on a named barrier: the configuration, arrivals in the earliest phase with room, waits on a pending arrival and
the acquire at its release, announcements, the timed test; cause 2 on a barrier that is not granted or not configured, cause 30 on a broken one, but for a wait whose
arrival has been released. Then the decision of a stage barrier, and the bytes delivered to one.

R303, R304, R307, R157: the sweep of a core's full phase joins the sums of the cores behind it; the release follows the reverse path and starts the next
phase; where the corner made a roll call it first writes the sums of the counters, 128 bytes, and interrupt 20 becomes pending on that hart; a failing check posts
a report on which the release waits. A `bar.test` ends at its limit. That `bar.cfg` clears the pending arrivals is the model's (log 57), and that a release waits whose core holds an earlier report (log 79). -/
def Obligations.Barriers : Prop :=
  (∀ (s : State) (id : BitVec 7) (d a : BitVec 5),
     let n := id.toNat
     let c := coreOf s.cur
     let b := s.myCore.bar n
     let x := s.me.getX a.toNat
     let granted := n < (s.cls (classOf s s.cur)).nbar
     let usable := fun g => granted ∧ b.cfg = some g ∧ b.broken = false
     let calm := ∀ y ∈ s.me.faults, y.target ≠ 16 + n
     let s0 := s.modMe fun h => { h with wait := .ready }
     let since := testSince s n
     (barCfgLegal x c = true ∧ granted →
       (b.broken = true ∨ (∀ h ∈ barWaiters s c n, h = s.cur) → ∃ t, Runs (.barCfg id a) s t ∧ OnlyUnits s t [s.cur] [c] ∧ t.me = s.me.done ∧
         t.myCore = s.myCore.modBar n fun _ => { cfg := some (x.extractLsb' 0 18) }) ∧
       (b.broken = false → (∃ h ∈ barWaiters s c n, h ≠ s.cur) → Becomes (.barCfg id a) s { s.me with wait := .stall })) ∧
     (¬ (barCfgLegal x c = true ∧ granted) → Traps (.barCfg id a) s 2 s.me.ibits) ∧
     (∀ i ∈ [Instr.barArr id, .barWait id, .barSync id, .barTx id a, .barTest d id a, .rollc id a],
       (i ∈ [Instr.barWait id, .barSync id, .barTest d id a] → releasedWait s n = false) →
       (¬ granted ∨ b.cfg = none → Traps i s 2 s.me.ibits) ∧ (∀ g, granted → b.cfg = some g → b.broken = true → Traps i s 30 (word n))) ∧
     (∀ g, usable g →
       (∀ i roll, (i = .barArr id ∧ roll = none ∨ i = .rollc id a ∧ x.toNat % 128 = 0 ∧ roll = some (rollOf s x)) →
         (b.unreleased s.cur = true → Becomes i s { s.me with wait := .bar n }) ∧
         (b.unreleased s.cur = false → ∀ t, arriveBar s0 s.cur n g roll = some t → Runs i s (retire t)) ∧
         (b.unreleased s.cur = false → arriveBar s0 s.cur n g roll = none → Becomes i s { s.me with wait := .bar n })) ∧
       (x.toNat % 128 ≠ 0 → Traps (.rollc id a) s 2 s.me.ibits) ∧
       (∀ roll, arriveBar s0 s.cur n g roll =
         if b.arr0 < bCount g then some (decideStage (s0.modMyCore fun k => k.modBar n fun _ =>
           { b with arr0 := b.arr0 + 1, pend := b.pend.set 0 (hartNo s.cur) (b.phase + 1), roll0 := b.roll0 <|> roll
                    sample0 := if b.arr0 + 1 = bCount g then (List.range 16).map (fun k => s.myCore.kev.get 0 k) else b.sample0 }) c n)
         else if b.arr1 < bCount g then some (s0.modMyCore fun k => k.modBar n fun _ =>
           { b with arr1 := b.arr1 + 1, pend := b.pend.set 0 (hartNo s.cur) (b.phase + 2), roll1 := b.roll1 <|> roll
                    sample1 := if b.arr1 + 1 = bCount g then (List.range 16).map (fun k => s.myCore.kev.get 0 k) else b.sample1 })
         else none) ∧
       (calm → b.pending s.cur = none → Becomes (.barWait id) s s.me.done ∧ XDone (.barTest d id a) s d.toNat 0 ∧
         (arriveBar s0 s.cur n g none = none → Becomes (.barSync id) s { s.me with wait := .bar n }) ∧
         ∀ t, arriveBar s0 s.cur n g none = some t → Runs (.barSync id) s
           (if ((t.core c).bar n).broken then takeTrap t s.cur false 30 (word n) else t.modMe fun h => { h with wait := .bar n })) ∧
       (calm → b.unreleased s.cur = true →
         Becomes (.barWait id) s { s.me with wait := .bar n } ∧ Becomes (.barSync id) s { s.me with wait := .bar n } ∧
         (x.toNat ≤ s.islandClock c - since → XDone (.barTest d id a) s d.toNat 1) ∧
         (s.islandClock c - since < x.toNat → Becomes (.barTest d id a) s { s.me with wait := .barTest n since d.toNat x.toNat })) ∧
       (calm → ∀ p, b.pending s.cur = some p → p < b.phase → ∀ i ∈ [Instr.barWait id, .barSync id, .barTest d id a],
         ∃ t, Runs i s t ∧ OnlyUnits s t [s.cur] [c] ∧ { t.me with x := s.me.x } = s.me.done ∧
           (if i = .barTest d id a then XReg s.me t.me d.toNat 0 else t.me = s.me.done) ∧
           t.myCore = { s.myCore.modBar n (fun b => { b with pend := b.pend.set 0 (hartNo s.cur) 0 }) with
             l1 := if 2 ≤ barScope g then [] else s.myCore.l1 }) ∧
       (1 ≤ x.toNat → x.toNat < 2 ^ 40 → Runs (.barTx id a) s (retire (decideStage (s.modMyCore fun k => k.modBar n fun b =>
         let p := b.phase + (if bCount g ≤ b.arr0 then 1 else 0) + if bCount g ≤ b.arr1 then 1 else 0
         { b with ann := b.ann.set 0 p (b.ann.get 0 p + x.toNat) }) c n))) ∧
       (x.toNat = 0 ∨ 2 ^ 40 ≤ x.toNat → Traps (.barTx id a) s 2 s.me.ibits)) ∧
     ∀ (u : State) (e m : Nat) (g : BitVec 18),
       let z := (u.core e).bar m
       z.cfg = some g →
       (bStage g = false ∨ z.broken = true ∨ z.swept = true ∨ z.arr0 < bCount g ∨ z.delivered < z.ann.get 0 z.phase → decideStage u e m = u) ∧
       (bStage g = true → z.broken = false → z.swept = false → bCount g ≤ z.arr0 →
         (z.delivered = z.ann.get 0 z.phase → decideStage u e m = u.modCore e fun k => k.modBar m fun b =>
           { b with swept := true, sum := b.sample0, delivered := 0 }) ∧
         (z.ann.get 0 z.phase < z.delivered → ((decideStage u e m).core e).bar m = { z with broken := true } ∧
           ∀ h, (h ∈ barWaiters u e m ∧ z.released h = false → (decideStage u e m).hart h = (u.hart h).enter false 30 (word m)) ∧
             (¬ (h ∈ barWaiters u e m ∧ z.released h = false) → (decideStage u e m).hart h = u.hart h))) ∧
       (∀ k edge, deliver u e m k edge = if bStage g = true ∧ z.broken = false then
         decideStage (u.modCore e fun y => y.modBar m fun b =>
           { b with delivered := b.delivered + k, edge0 := if b.swept then b.edge0 else max b.edge0 edge
                    edge1 := if b.swept then max b.edge1 edge else b.edge1 }) e m else u)) ∧
  ((∀ (s : State) (h m since e lim : Nat), h = s.ev.a → (s.hart h).wait = .barTest m since e lim → lim ≤ s.islandClock (coreOf h) - since →
     ((s.core (coreOf h)).bar m).unreleased h = true → ∃ t, Runs .barTestTimeout s t ∧ t = s.setHart h (((s.hart h).setX e 1).done)) ∧
   ∀ (s : State) (g : BitVec 18),
     let c := s.ev.a
     let n := s.ev.b
     let b := (s.core c).bar n
     b.cfg = some g →
     (bStage g = false → b.swept = false → bCount g ≤ b.arr0 →
       (∀ e ∈ sweepFrom g c, sameRect g ((s.core e).bar n).cfg = true ∧ ((s.core e).bar n).swept = true ∧ ((s.core e).bar n).phase % 2 = b.phase % 2) →
       ∃ t, Runs .barrierSweep s t ∧ OnlyUnits s t [] [c] ∧ (t.core c).bar n =
         { b with swept := true, sum := (sweepFrom g c).foldl (fun x e => addSums x ((s.core e).bar n).sum) b.sample0 }) ∧
     (b.swept = true → ∀ e, releaseFrom g c = some e → sameRect g ((s.core e).bar n).cfg = true → ((s.core e).bar n).phase % 2 ≠ b.phase % 2 →
       Runs .barrierRelease s (releaseBar s c n)) ∧
     (b.swept = true → releaseFrom g c = none → b.roll0 = none → Runs .barrierRelease s (releaseBar s c n)) ∧
     (bStage g = false → releaseBar s c n = coreAcquire (s.modCore c fun k => k.modBar n fun b =>
       { b with phase := b.phase + 1, arr0 := b.arr1, arr1 := 0, swept := false, sum := [], sample0 := b.sample1, sample1 := [], roll0 := b.roll1, roll1 := none
                ann := b.ann.set 0 b.phase 0, edge0 := b.edge1, edge1 := 0 }) c b.edge0) ∧
     (∀ r u ps, b.swept = true → bStage g = false → releaseFrom g c = none → b.roll0 = some r → r.fault = none →
       placeAll { hart := r.hart, core := c, priv := r.priv, kdom := r.kdom, fn := r.fn, eid := r.eid, taint := r.taint, bare := r.bare } .copy .wr false true
         (segsOf 0 r.va 128) s = (u, .ok ps) → (∀ p ∈ ps, p.ref.key = 0 ∧ flipHeld u p.ref.pa = false) →
       ∃ t, Runs .barrierRelease s t ∧ ((t.core c).bar n).phase = b.phase + 1 ∧ bitOf (t.hart r.hart).csr.mip 20 = true ∧
         StoredTo u t (((ps.map fun p => cellsFor p (b.sum.map fun k => natToLe 8 k).flatten).flatten).map (·.cell))) ∧
     (∀ r u f, b.swept = true → releaseFrom g c = none → b.roll0 = some r → r.fault = none →
       placeAll { hart := r.hart, core := c, priv := r.priv, kdom := r.kdom, fn := r.fn, eid := r.eid, taint := r.taint, bare := r.bare } .copy .wr false true
         (segsOf 0 r.va 128) s = (u, .error f) →
       (reportHeld u c 256 = false → ∃ t, Runs .barrierRelease s t ∧
         (t.core c).bar n = { b with roll0 := some { r with fault := some (u.core c).fid.toNat } } ∧ t.harts = s.harts) ∧
       (reportHeld u c 256 = true → Runs .barrierRelease s u)))

/-! ### Blackboard, inbox, fault replies, `hdone` -/

/-- R165 to R167, R280, R306, R170, R275: the blackboard and inbox forms, the held inbox write, and `hdone`: it returns a firing's hart to the pool with its
messages counted, and retires a class hart, ending the class with its last one, the slots and accumulators of its matrix grant emptied once the unit's products have completed. That on a hart
bound to nothing it goes on is the model's choice (log 53). -/
def Obligations.InboxAndEnd : Prop :=
  ∀ (s : State) (d a b : BitVec 5),
    let k := classOf s s.cur
    let x := s.me.getX a.toNat
    let tgt := fld x 0 13
    let src := s.me.inFrom.get {} a.toNat
    XDone (.bbrd d a) s d.toNat (if k = 0 then 0 else (s.cls k).bb.get 0 a.toNat) ∧
    (k ≠ 0 → fld (s.cls k).bbown (4 * d.toNat) 4 = fld s.me.k.kclass 0 4 → ∃ t, Runs (.bbwr d a) s t ∧ SameMemory s t ∧
      { t with harts := s.harts, classes := s.classes } = s ∧ t.me = s.me.done ∧ (∀ h, h ≠ s.cur → t.hart h = s.hart h) ∧
      t.cls k = { s.cls k with bb := (s.cls k).bb.set 0 d.toNat x } ∧ ∀ j, j ≠ k → t.cls j = s.cls j) ∧
    (k = 0 ∨ fld (s.cls k).bbown (4 * d.toNat) 4 ≠ fld s.me.k.kclass 0 4 → Traps (.bbwr d a) s 29 (word d.toNat)) ∧
    (s.me.present.getLsbD a.toNat = true → ∃ t, Runs (.imv d a) s t ∧ SameMemory s t ∧
      { t with harts := s.harts, cores := s.cores, classes := s.classes } = s ∧ (∀ h, h ≠ s.cur → t.hart h = s.hart h) ∧
      XReg s.me t.me d.toNat (s.me.inbox.get 0 a.toNat) ∧ (∀ j, t.me.present.getLsbD j = (s.me.present.getLsbD j && decide (j ≠ a.toNat))) ∧
      { t.me with x := s.me.x, present := s.me.present, inFrom := s.me.inFrom, taint := s.me.taint, mtaint := s.me.mtaint, bind := s.me.bind } = s.me.dirtyXs.done ∧
      taintOf t s.cur = taintOf s s.cur ||| src.taint ∧
      t.myCore = { s.myCore with l1 := if (∃ w, src.writer = some w ∧ 2 ≤ jointScope s.cur w) ∨ src.writer = none ∧ src.notice = true then [] else s.myCore.l1 }) ∧
    (s.me.present.getLsbD a.toNat = false → Becomes (.imv d a) s { s.me with wait := .stall }) ∧
    (fld x 13 51 ≠ 0 → Traps (.iwr d a b) s 2 s.me.ibits) ∧
    (fld x 13 51 = 0 → boundTo s tgt s.me.fn = false → Becomes (.iwr d a b) s s.me.done) ∧
    (fld x 13 51 = 0 → boundTo s tgt s.me.fn = true →
      ((s.hart tgt).present.getLsbD d.toNat = false → (∀ w ∈ (s.hart tgt).held, w.reg ≠ d.toNat) → d.toNat < 8 →
        ∃ t, Runs (.iwr d a b) s t ∧ OnlyUnits s t [s.cur, tgt] [] ∧ (t.hart tgt).inbox.get 0 d.toNat = s.me.getX b.toNat ∧
          (t.hart tgt).present.getLsbD d.toNat = true ∧ (∀ j, j ≠ d.toNat → (t.hart tgt).inbox.get 0 j = (s.hart tgt).inbox.get 0 j ∧
            (t.hart tgt).present.getLsbD j = (s.hart tgt).present.getLsbD j) ∧ (tgt ≠ s.cur → t.me = s.me.done)) ∧
      ((s.hart tgt).present.getLsbD d.toNat = true ∨ (∃ w ∈ (s.hart tgt).held, w.reg = d.toNat) →
        ∃ t, Runs (.iwr d a b) s t ∧ OnlyUnits s t [s.cur, tgt] [] ∧ t.me.wait = .iwr tgt d.toNat ∧ t.me.pc = s.me.pc ∧
          (t.hart tgt).held =
            (s.hart tgt).held ++ [{ writer := s.cur, reg := d.toNat, val := s.me.getX b.toNat, taint := taintOf s s.cur }] ∧
          (t.hart tgt).inbox = (s.hart tgt).inbox ∧ (t.hart tgt).present = (s.hart tgt).present)) ∧
    (∀ w, (s.hart s.ev.a).held.find? (fun y => y.reg == s.ev.b) = some w → (s.hart s.ev.a).present.getLsbD s.ev.b = false → s.ev.b < 8 →
      w.writer ≠ s.ev.a → ∃ t, Runs .iwrHeldWriteEntry s t ∧ OnlyUnits s t [s.ev.a, w.writer] [] ∧ (t.hart s.ev.a).inbox.get 0 s.ev.b = w.val ∧
        (t.hart s.ev.a).present.getLsbD s.ev.b = true ∧ (t.hart s.ev.a).held = (s.hart s.ev.a).held.erase w ∧
        t.hart w.writer = (s.hart w.writer).done) ∧
    (s.me.inClause = false →
      (s.me.bind = .none → Becomes .hdone s { s.me.counted with pc := s.me.pc + word s.me.ilen, wait := .ready }) ∧
      (∀ f, s.me.bind = .firing f → ∃ t, Runs .hdone s t ∧ SameMemory s t ∧ t.me.live = false ∧ t.me.bind = .none ∧ t.me.x = [] ∧ t.me.v = [] ∧
        ((t.myCore.chan f.ch).hw = (s.myCore.chan f.ch).hw.filter fun q => q.resv != s.cur + 1) ∧
        ∀ i, t.myCore.hpCount.get 0 i = s.myCore.hpCount.get 0 i - BitVec.ofNat 48
          ((f.taken ++ ((s.myCore.chan f.ch).hw.filter fun q => q.resv == s.cur + 1).map (·.msg)).filter fun m => m.counted && mHpi m.hdr == i).length) ∧
      (∀ j, s.me.bind = .cls j →
        ((∃ h ∈ (s.cls j).harts, h ≠ s.cur ∧ (s.hart h).retired = false) →
          cohortSaved (s.modMe fun h => { h with retired := true }) (s.cls j).launch (s.cls j).cohort = false →
          ∃ t, Runs .hdone s t ∧ SameMemory s t ∧ t.me.live = false ∧ t.me.retired = true ∧ t.classes = s.classes) ∧
        ((∀ h ∈ (s.cls j).harts, h ≠ s.cur → (s.hart h).retired = true) →
          ∃ t, Runs .hdone s t ∧ SameMemory s t ∧ (t.cls j).live = false ∧ (∀ h ∈ (s.cls j).harts, (t.hart h).live = false ∧ (t.hart h).bind = .none) ∧
            ((s.cls j).acc ≠ none → (s.cls j).core = coreOf s.cur → t.myCore.ops = [] ∧ t.myCore.accs = [] ∧ t.myCore.mx = []))))

/-- R40, R41, R44 to R46, R49, R125: a reply to a fault id makes the waiting hart, or the parked copy, go on, past an acquire of its core, or fail; a notice enters the fault buffer of a die's
service hart; the buffer's oldest entry moves into i0 to i3 of that hart once they are absent, and held reports follow when there is room. That a notice joins behind held ones
(log 55) and carries its sender's taint (log 56) is the model's. -/
def Obligations.FaultReplies : Prop :=
  (∀ (s : State) (e : SendEntry) (w : Word) (ws : List Word) (i : Instr), (s.core s.ev.a).sends[s.ev.b]? = some e → mCh e.msg.hdr = 63 →
    (∀ x ∈ (s.core s.ev.a).sends.take s.ev.b, ¬ (mCore x.msg.hdr = mCore e.msg.hdr ∧ mCh x.msg.hdr = 63)) → e.msg.words = w :: ws → fld w 26 38 = 0 →
    let c := mCore e.msg.hdr
    let id := fld w 0 16
    let gone := fun (t : State) => (t.core s.ev.a).sends = (s.core s.ev.a).sends.filter (·.id != e.id)
    let waits := fun h => h / 16 = c ∧ ∃ lane va, (s.hart h).wait = .fault id lane va
    (fld w 16 2 = 0 → i = .faultReplyRetry ∨ i = .messageArrival →
      (∀ h, waits h → (∀ g, waits g → g = h) → h ≠ e.msg.sender →
        ∃ t, Runs i s t ∧ OnlyUnits s t [h, e.msg.sender] [s.ev.a, c] ∧ gone t ∧ t.hart h = { s.hart h with wait := .ready } ∧ (t.core c).l1 = []) ∧
      (∀ j r, (∀ h, ¬ waits h) → faultCopy s c id = some (j, r) → (s.core c).req j = some r →
        ∃ t, Runs i s t ∧ OnlyUnits s t [e.msg.sender] [s.ev.a, c] ∧ gone t ∧ (t.core c).l1 = [] ∧
          (t.core c).req j = some { r with st := if r.code ≠ 0 ∨ r.off = r.total then .ended else (s.core c).atWork })) ∧
    (fld w 16 2 = 1 → i = .faultReplyFatal ∨ i = .messageArrival →
      (∀ h lane va, h / 16 = c → (s.hart h).wait = .fault id lane va → (∀ g, waits g → g = h) → h ≠ e.msg.sender →
        ∃ t, Runs i s t ∧ OnlyUnits s t [h, e.msg.sender] [s.ev.a] ∧ gone t ∧
          t.hart h = ({ s.hart h with k := { (s.hart h).k with kflane := BitVec.ofNat 16 (fld w 18 8 * 256 + lane) } } : Hart).enter false 24 va) ∧
      (∀ j r, (∀ h, ¬ waits h) → faultCopy s c id = some (j, r) → (s.core c).req j = some r →
        ∃ t, Runs i s t ∧ SameMemory s t ∧ gone t ∧ (t.core c).req j = some { r with st := .ended, code := 2, detail := 0, res := false })) ∧
    (fld w 16 2 = 2 → i = .notice ∨ i = .messageArrival →
      let q := ((s.core c).chan 63).held
      let ref := MsgRef.send s.ev.a e.id
      let turn := q = [] ∨ q.head? = some ref
      (c % 64 ≠ 0 → ∃ t, Runs i s t ∧ OnlyUnits s t [e.msg.sender] [s.ev.a] ∧ gone t) ∧
      (c % 64 = 0 → turn → (s.die (c / 64)).buf.length < 512 → ∃ t, Runs i s t ∧ SameMemory s t ∧ gone t ∧
        (t.die (c / 64)).buf = (s.die (c / 64)).buf ++ [{ w0 := w, w1 := word (coreOf e.msg.sender * 2 ^ 16 + hartNo e.msg.sender * 2 ^ 25)
                                                          w2 := nth 0 e.msg.words 1, w3 := nth 0 e.msg.words 2, taint := e.msg.taint }]) ∧
      (c % 64 = 0 → ¬ (turn ∧ (s.die (c / 64)).buf.length < 512) → ∃ t, Runs i s t ∧ OnlyUnits s t [] [c] ∧
        ((t.core c).chan 63).held = (if ref ∈ q then q else q ++ [ref]) ∧ (t.core s.ev.a).sends = (s.core s.ev.a).sends))) ∧
  ∀ (s : State), let d := s.ev.a
    let h := d * 1024 + 15
    (∀ r rest, (s.die d).buf = r :: rest → (s.hart h).present &&& 0x0F = 0 → ∃ t, Runs .faultBufferDelivery s t ∧ SameMemory s t ∧
      (t.die d).buf = rest ∧ t.cores = s.cores ∧ (∀ g, g ≠ h → t.hart g = s.hart g) ∧ (t.hart h).present = (s.hart h).present ||| 0x0F ∧
      (∀ k, (t.hart h).inbox.get 0 k = if k = 0 then r.w0 else if k = 1 then r.w1 else if k = 2 then r.w2 else if k = 3 then r.w3 else (s.hart h).inbox.get 0 k)) ∧
    (∀ i r rest, (s.die d).buf.length < 512 → searchUp 64 (s.die d).lastHeld (fun j => !(s.core (64 * d + j)).heldReports.isEmpty) = some i →
      (s.core (64 * d + i)).heldReports = r :: rest → ∃ t, Runs .heldReportPost s t ∧ SameMemory s t ∧ t.harts = s.harts ∧
        (t.die d).buf = (s.die d).buf ++ [r] ∧ (t.core (64 * d + i)).heldReports = rest ∧ (t.die d).lastHeld = i)

/-! ### Lane contexts -/

/-- R310 to R312, R309: `kctx.sv` waits for the hart's operations, withdraws its parked requests where asked to, and stores the 4,736 bytes of R312; `kctx.ld` reads
them back into the lane context and enters the saved requests again; loading what was saved restores every field. `kscrub` clears the lane and floating-point
state, in M mode the matrix slots and blackboards of the core too. That restored inbox values carry the taint of the loading hart is the model's (log 73). -/
def Obligations.LaneContext : Prop :=
  (∀ (s t : State) (a : BitVec 5) (ps : List Placed),
     let x := s.me.getX a.toNat
     let va := x &&& ~~~(1 : Word)
     let rs := parkedReqs t s.cur
     let u := rs.foldl (fun s x => withdrawReq s (coreOf s.cur) x.1 x.2) t
     let cs := (ps.map fun p => cellsFor p (ctxBytes u.me (rs.map (·.2)))).flatten
     fld x 1 6 = 0 → opsOpenBut s s.cur (!bitOf x 0) = false → wmHeld s [(va.toNat, 4736)] = none →
     placeMine (whoOf s s.cur true) .lane .wr 1 (lineSegs va 37) s = .ok (ps, t) →
     ∃ v, Runs (.kctxSv a) s v ∧ v.me = ((u.me.setXs 2).done) ∧ ((∀ c ∈ cs, c.cell.key = 0) → StoredTo t v (cs.map (·.cell)))) ∧
  (∀ (s : State) (a : BitVec 5),
     (fld (s.me.getX a.toNat) 1 6 ≠ 0 → Traps (.kctxSv a) s 2 s.me.ibits) ∧ (fld (s.me.getX a.toNat) 0 7 ≠ 0 → Traps (.kctxLd a) s 2 s.me.ibits) ∧
     (fld (s.me.getX a.toNat) 1 6 = 0 → opsOpenBut s s.cur (!bitOf (s.me.getX a.toNat) 0) = true → Becomes (.kctxSv a) s { s.me with wait := .stall }) ∧
     (∀ all, opsOpenBut s s.cur all = true ↔ (∃ e ∈ s.myCore.sends, e.msg.sender = s.cur) ∨ s.myCore.mx ≠ [] ∨
       ∃ x ∈ reqsOf s (coreOf s.cur), x.2.hart = s.cur ∧ (all = true ∨ (x.2.st ≠ .parkAlloc ∧ x.2.st ≠ .parkFault) ∨ contribsOpen s (coreOf s.cur) x.2 = true)) ∧
     (fld (s.me.getX a.toNat) 0 7 = 0 → opsOpen s s.cur = true → Becomes (.kctxLd a) s { s.me with wait := .stall })) ∧
  (∀ (s t u : State) (a : BitVec 5) (ps : List Placed) (r : List (Nat × List Byte)),
     let va := s.me.getX a.toNat
     let bs := (r.map (·.2)).flatten
     let n := min 8 (leToNat ((bs.drop 0x10C0).take 8) % 16)
     let kept := (recordReqs bs (List.range n) u).1
     let rs := (recordReqs bs (List.range n) u).2
     fld va 0 7 = 0 → opsOpen s s.cur = false → wmHeld s [(va.toNat, 4736)] = none →
     placeMine (whoOf s s.cur true) .lane .rd 0 (lineSegs va 37) s = .ok (ps, t) → readPieces (whoOf s s.cur true) true ps t = (u, .ok r) →
     (leToNat ((bs.drop 0x10A7).take 1) ≠ 1 → Runs (.kctxLd a) s (takeTrap u u.cur false 2 u.me.ibits)) ∧
     (leToNat ((bs.drop 0x10A7).take 1) = 1 → (∀ q ∈ rs, (if q.cprd then cprdLegal q else copyLegal q false) = true) →
       (reqsOf u (coreOf s.cur)).length + n ≤ 32 →
       ∃ v, Runs (.kctxLd a) s v ∧ HomeMemory t v ∧ v = retire (rs.foldl reenter
           { u.modMe fun h => h.loadCtx bs (isService s.cur) (taintOf u s.cur) with withdrawn := kept.withdrawn })) ∧
     rs.length = n ∧ { kept with withdrawn := u.withdrawn } = u ∧
     (∀ i q, rs[i]? = some q → let w := fun k => leWord ((bs.drop (0x10D0 + 48 * i + 8 * k)).take 8)
       q.w0 = w 0 ∧ q.w1 = w 1 ∧ q.w2 = w 2 ∧ q.w3 = w 3 ∧ q.cprd = bitOf (w 5) 0 ∧ q.hart = u.cur ∧ (q.off = (w 4).toNat ∨ q.off = 0))) ∧
  (∀ (h g : Hart) (rs : List CopyReq) (tn : BitVec 16), h.kmsd ≤ 16 → (∀ k < 12, h.getCf k < 64) → h.k.kclst.toNat % 32 ≤ 16 → rs.length ≤ 8 →
     let bs := ctxBytes h rs
     let y := g.loadCtx bs false tn
     bs.length = 4736 ∧ leToNat ((bs.drop 0x10A7).take 1) = 1 ∧ leToNat ((bs.drop 0x10C0).take 8) = rs.length ∧
     (∀ n < 32, ∀ l < 32, y.getV n l = h.getV n l) ∧ (∀ n < 8, y.getM n = h.getM n) ∧ (∀ n < 16, y.kms.get 0 n = h.kms.get 0 n) ∧ y.kmsd = h.kmsd ∧
     (∀ n < 8, y.inbox.get 0 n = h.inbox.get 0 n ∧ (y.inFrom.get {} n).taint = tn) ∧ y.present = h.present ∧ y.k.kclst = h.k.kclst ∧ (∀ k < 12, y.getCf k = h.getCf k) ∧
     fld y.csr.mstatus 15 2 = 2 ∧ y.x = g.x ∧ y.f = g.f ∧ y.pc = g.pc ∧ y.priv = g.priv) ∧
  ∀ (s : State),
    (s.me.priv = .u → Traps .kscrub s 2 s.me.ibits) ∧
    (s.me.priv ≠ .u → opsOpen s s.cur = true → Becomes .kscrub s { s.me with wait := .stall }) ∧
    (s.me.priv ≠ .u → opsOpen s s.cur = false → ∃ t, Runs .kscrub s t ∧ SameMemory s t ∧ (∀ h, h ≠ s.cur → t.hart h = s.hart h) ∧
      t.me.v = [] ∧ t.me.m = [] ∧ t.me.kms = [] ∧ t.me.kmsd = 0 ∧ t.me.f = [] ∧ t.me.frm = 0 ∧ t.me.fflags = 0 ∧ t.me.tfr = 0 ∧ t.me.k.kclst = 0 ∧
      t.me.present = (if isService s.cur then s.me.present &&& 0x0F else 0) ∧ fld t.me.csr.mstatus 15 2 = 1 ∧ t.me.x = s.me.x ∧
      t.me.pc = s.me.pc + word s.me.ilen ∧ (s.me.priv = .s → t.cores = s.cores ∧ t.classes = s.classes) ∧
      (s.me.priv = .m → t.myCore.ops = [] ∧ t.myCore.accs = [] ∧
        ∀ k, (s.cls k).live = true → (s.cls k).core = coreOf s.cur → (t.cls k).bb = []))

/-! ### Launches -/

/-- R308, R324 to R328, R101, R172, R176, R320: `launch` submits the record that it reads, under a new id; selection takes the oldest launch of the first queue of the
highest priority after the one last selected there, checks it, and makes it active or completes it; the binder binds the first cohort that it can place, each
class's harts starting at the kernel's entry with their identifiers; a launch, whose record is a release at scope 5 (R129), completes once its cohorts have ended and its operations have completed; a
pre-emption request reaches the unretired harts of a cohort. Each of the five rows completes; where what it asks for is not there, it changes nothing. That the units outside
the cores wait while a page is between biases is the model's reading of R135 (log 26); that a class takes the lowest-numbered free harts of its core, and that a killed launch keeps
status 4 whatever its strict reads find, are its choices (log 73). -/
def Obligations.Launches : Prop :=
  (∀ (s t : State) (d a : BitVec 5) (ps : List Placed),
     let va := s.me.getX a.toNat
     let w := whoOf s s.cur true
     let full := 256 ≤ (s.launches.filter fun l => !l.selected).length ∨ acceptsLaunch s s.me.fn = false
     let id := newId t
     let ws := wordsOf (seenPieces t w ps)
     let q := fld (recW ws 0) 8 6
     let queued := (t.queue q).en = true ∧ (t.queue q).fn = s.me.fn
     let u := bringIn t w ps
     let l : Launch := { id := id, fn := s.me.fn, words := ws, kdom := (recW ws 10).extractLsb' 0 36, kxtab := recW ws 11 }
     (va.toNat % 128 ≠ 0 → Traps (.launch d a) s 2 s.me.ibits) ∧ (va.toNat % 128 = 0 → full → XDone (.launch d a) s d.toNat 0) ∧
     (∀ g pa key, va.toNat % 128 = 0 → ¬ full → placeMine w .copy .rd 5 (tileSegs va 128) s = .ok (ps, t) → tagBroken t w ps = some (g, pa, key) →
       Runs (.launch d a) s (sealFail t s.cur pa key g.va)) ∧
     (∀ v g, va.toNat % 128 = 0 → ¬ full → placeAll w .copy .rd false false (tileSegs va 128) s = (t, .error (v, g)) → Runs (.launch d a) s (postFault t s.cur v 5 2 g.lane g.va)) ∧
     (va.toNat % 128 = 0 → ¬ full → placeAll w .copy .rd false false (tileSegs va 128) s = (t, .ok ps) → (∃ p ∈ ps, flipHeld t p.ref.pa = true) →
       Runs (.launch d a) s (t.modMe fun h => { h with wait := .stall })) ∧
     (va.toNat % 128 = 0 → ¬ full → placeMine w .copy .rd 5 (tileSegs va 128) s = .ok (ps, t) → tagBroken t w ps = none →
       (poisonIn t w ps = false → ¬ queued → flipsOpen t = true → Runs (.launch d a) s (t.modMe fun h => { h with wait := .stall })) ∧
       (poisonIn t w ps = true → Runs (.launch d a) s (takeTrap t s.cur false 48 va)) ∧
       (poisonIn t w ps = false → queued →
         ∃ v, Runs (.launch d a) s v ∧ HomeMemory t v ∧ XReg s.me v.me d.toNat (word id) ∧ { v.me with x := s.me.x } = s.me.done ∧
           v.launches = t.launches ++ [{ l with queue := some q }] ∧ v.queue q = { t.queue q with subs := (t.queue q).subs ++ [(id, (t.queue q).tail)] }) ∧
       (poisonIn t w ps = false → ¬ queued → flipsOpen t = false →
         Runs (.launch d a) s (retire ((finishLaunch { u with launches := t.launches ++ [l], launchSeq := id + 1 } id 2).modMe fun h =>
           h.setX d.toNat (word id)))) ∧
       (t.launches.length < 0xFFFF → 1 ≤ t.launchSeq → 1 ≤ id ∧ id ≤ 0xFFFF ∧ ∀ l ∈ t.launches, l.id ≠ id))) ∧
  (∀ (s : State),
     (16 ≤ (activeLaunches s).length ∨ flipsOpen s = true ∨ selectQueue s = none → Runs .launchSelection s s) ∧
     ∀ p q, (activeLaunches s).length < 16 → flipsOpen s = false → selectQueue s = some (p, q) →
     let x := s.queue q
     let s1 := { s with lastQ := s.lastQ.set 63 p q }
     (q < 64 ∧ x.en = true ∧ x.rerr = false ∧ x.prio = p ∧ ∀ j < 64, eligible s j = true → (s.queue j).prio ≤ p) ∧
     (∀ id n rest l, x.subs = (id, n) :: rest → x.subFirst = true →
       let s2 := s1.modQueue q fun x => { x with subs := rest }
       (s.launch? id = none → Runs .launchSelection s s2) ∧
       (s.launch? id = some l →
       (recordOk l.words = false → Runs .launchSelection s (finishLaunch s2 id 2)) ∧
       (recordOk l.words = true → ∀ u, kcbCheck l s2 = .error u → Runs .launchSelection s (finishLaunch u id 5)) ∧
       (recordOk l.words = true → ∀ u l', kcbCheck l s2 = .ok (l', u) →
         let v := { u.modLaunch id (fun _ => { l' with selected := true, prio := p, order := u.orderSeq, kxtab := kxtabOf l' }) with
                    orderSeq := u.orderSeq + 1 }
         Runs .launchSelection s (if unplaceable l' then finishLaunch v id 3 else v)))) ∧
     (x.subFirst = false → ∀ u, ttRead s1 x.fn 0 (sext (setFld x.base 0 7 0) 55 + word (128 * x.head)) 128 = (u, none) →
       ∃ t, Runs .launchSelection s t ∧ SameMemory u t ∧ t.queue q = { x with rerr := true } ∧ t.launches = s.launches) ∧
     (x.subFirst = false → ∀ u bs, ttRead s1 x.fn 0 (sext (setFld x.base 0 7 0) 55 + word (128 * x.head)) 128 = (u, some bs) →
       let r := addLaunch u x.fn (wordsOf bs) (some q)
       Runs .launchSelection s (checkLaunch (r.1.modQueue q fun x => { x with head := (x.head + 1) % 2 ^ x.lsize }) r.2 p))) ∧
  (∀ (s : State), (∀ t, flipsOpen s = false → (bindOrder s).findSome? (placeCohort s) = some t → Runs .cohortBinding s t) ∧
     (flipsOpen s = true ∨ (bindOrder s).findSome? (placeCohort s) = none → Runs .cohortBinding s s) ∧
     ((bindOrder s).Pairwise fun a b => b.prio < a.prio ∨ a.prio = b.prio ∧ a.order ≤ b.order) ∧
     ∀ l rest c, flipsOpen s = false → bindOrder s = l :: rest → (∀ v ∈ s.saved, v.launch ≠ l.id) → l.next < recCohorts l.words → recExt l.words 2 = 1 → l.htab = [] → kcbPools l.kcb = [] →
       c < 512 → coreFits s l c = true →
       ∃ t core, Runs .cohortBinding s t ∧ coreFits s l core = true ∧ (t.cls s.classSeq).live = true ∧ (t.cls s.classSeq).launch = l.id ∧
         (t.cls s.classSeq).cohort = l.next ∧ (t.cls s.classSeq).core = core ∧ ∀ h ∈ (t.cls s.classSeq).harts, coreOf h = core ∧ (t.hart h).live = true) ∧
  (∀ (s t : State) (l : Launch) (r : Rect) (coh c : Nat), c < 64 → bindClass l r coh none c s = some t →
     let core := r.core c
     let hs := ((coreHarts core).filter (poolFree s)).take (recExt l.words 1)
     coreFits s l core = true ∧ hs.length = recExt l.words 1 ∧ (t.cls s.classSeq).live = true ∧ (t.cls s.classSeq).harts = hs ∧
       (t.cls s.classSeq).launch = l.id ∧ (t.cls s.classSeq).core = core ∧ (t.cls s.classSeq).scrSize = 16384 * kcbUnits l.kcb ∧
       ∀ h i, (h, i) ∈ hs.zipIdx →
         let y := t.hart h
         y.live = true ∧ y.priv = .u ∧ y.pc = entryOfKcb l ∧ y.bind = .cls s.classSeq ∧ y.fn = l.fn ∧ y.x = [] ∧ y.f = [] ∧ y.v = [] ∧ y.kmsd = 0 ∧ y.tfr = 0 ∧
         y.present = 0 ∧ y.cf = [] ∧ y.getM 0 = lanesInside l (workId l coh c i) ∧ y.k.kwid = word (workId l coh c i) ∧ y.k.kdom = l.kdom ∧
         y.k.kxtab = l.kxtab ∧ y.k.kargs = recW l.words 9 ∧ y.k.kwlim = recW l.words 2 ∧ fld y.k.kclass 0 4 = i ∧ fld y.k.kclass 32 16 = l.id % 2 ^ 16) ∧
  (∀ (s : State), s.launch? s.ev.a = none → Runs .launchCompletion s s ∧ Runs .preemptionRequest s s) ∧
  (∀ (s : State) (l : Launch), s.launch? s.ev.a = some l →
     let ended := (∀ x ∈ s.classes, ¬ (x.2.live = true ∧ x.2.launch = s.ev.a)) ∧ (l.killed ≠ none ∨ l.selected = true ∧ recCohorts l.words ≤ l.ended)
     let quiet := launchBusy s s.ev.a = false ∧ flipsOpen s = false
     (ended → quiet → Runs .launchCompletion s (finishLaunch s s.ev.a (if l.killed = none then 0 else 4))) ∧
     (¬ (ended ∧ quiet) → Runs .launchCompletion s s) ∧
     (¬ (kcbFlag l.kcb 1 = true ∧ l.killed = none) → Runs .preemptionRequest s s) ∧
     (kcbFlag l.kcb 1 = true → l.killed = none → ∃ t, Runs .preemptionRequest s t ∧ SameMemory s t ∧ t.cores = s.cores ∧ t.classes = s.classes ∧
       ∀ h, t.hart h = if (∃ x ∈ s.classes, x.2.live = true ∧ x.2.launch = l.id ∧ x.2.cohort = s.ev.b ∧ h ∈ x.2.harts) ∧ (s.hart h).retired = false then
           { s.hart h with k := { (s.hart h).k with kpreReq := true } }
         else s.hart h)) ∧
  ∀ (s : State) (l : Launch) (id st : Nat), s.launch? id = some l → id ≠ 0 →
    let t := finishLaunch s id st
    let evs := (leftovers s id).map (·.ev)
    let status := if st = 0 ∧ kcbFlag l.kcb 0 = true ∧ (∃ w ∈ evs, fld w 56 2 ≠ 3) then 1 else st
    (∀ x ∈ t.launches, x.id ≠ id) ∧ (∀ c ch, ((t.core c).chan ch).launch ≠ id) ∧
    (∀ k p o, ¬ ((((t.cluster k).part p).owners.get {} o).v = true ∧ (((t.cluster k).part p).owners.get {} o).launch = id)) ∧
    ∃ u x, { u with harts := s.harts, cores := s.cores, clusters := s.clusters, dies := s.dies, hall := s.hall, classes := s.classes, withdrawn := s.withdrawn } = s ∧
      CacheMoves u x ∧ (∀ k vl, ∀ y ∈ x.klines k vl, y.vline = vl → y.fn = l.fn → isPeer y.pl = true → y.isDirty = false) ∧
      ∀ v ok, ttWrite x l.fn l.kdom (recW l.words 8) (completionBytes x id status (l.killed.getD 0) evs) = (v, ok) → SameMemory v t

/-! ### Control and status registers -/

/-- R204, R177, R8: a Zicsr access from a mode below the one that the number's bits [9:8] name, a write to a read-only number, an access that the
privileged architecture closes, and a number without a register are illegal-instruction traps; every other one retires with the old value in x[rd], and its
write takes effect or, where it sets the GO of a register that is busy, stalls with nothing done. A write of the host to the MMIO range acts on the register there.

R178, R204, R18, R175, R150: what a register reads after a write: the value under the mask of its fields; `mstatus` bit by bit, trap vectors, `satp`,
`fcsr`, which reaches STICKY, `kmsd`, `kflagclr`; a locked PMP entry keeps its configuration and address; an implementation's constants. That a write of MPP = 2 leaves the field is the model's (log 9), and
so are the formats and locks of PMP with `mseccfg` (log 10). -/
def Obligations.CsrAccess : Prop :=
  ((∀ (s : State) (num : BitVec 12) (o : CsrOp) (i : Instr) (n : Nat), (i, n) ∈ csrForms num o →
     let x := s.me
     let src := if o.imm then word o.src.toNat else x.getX o.src.toNat
     let writes := o.kind = .rw ∨ o.src ≠ 0
     let legal := n / 256 % 4 ≤ x.priv.code ∧ ¬ (n / 1024 = 3 ∧ writes) ∧ csrOpen x n = true
     (¬ legal ∨ csrRead s s.cur n = none → Traps i s 2 x.ibits) ∧
     ∀ old, legal → csrRead s s.cur n = some old →
       let v := match o.kind with
         | .rw => src
         | .rs => old ||| src
         | .rc => old &&& ~~~src
       let u := if n = 0x5CD ∧ (o.kind ≠ .rw ∨ o.rd ≠ 0) then (kpoolevRead s (dieOfCore (coreOf s.cur))).2 else s
       let t := u.setHart s.cur (x.setX o.rd.toNat old).done
       (¬ writes → Runs i s t ∧ SameMemory s t ∧ XReg x t.me o.rd.toNat old) ∧
       (writes → ∀ w, csrWrite t s.cur n v = .ok w → Runs i s w) ∧
       (writes → ∀ f, csrWrite t s.cur n v = .wait f → Runs i s (f (s.setHart s.cur { x with wait := .stall })) ∧
         ∀ w, f w = w ∨ n = 0x5CE ∧ ∃ ws, f w = w.modFunc x.fn fun y => { y with kbiasWait := ws })) ∧
   (∀ (s : State) (h n : Nat) (v : Word), n ∉ [0x5C2, 0x5C8, 0x5CE, 0x9C9, 0x9E8, 0x7C1] ∨ bitOf v 63 = false → ∃ t, csrWrite s h n v = .ok t) ∧
   ∀ (s : State) (pa : Nat) (v : Word), 15 * 2 ^ 48 ≤ pa → pa % 8 = 0 →
     (∀ t, mmioWrite s {} pa v = .ok t → Runs (.registerWrite (.mmio pa v)) s t) ∧
     (∀ f, mmioWrite s {} pa v = .wait f →
       Runs (.registerWrite (.mmio pa v)) s { f s with agenda := s.agenda ++ [.event (.registerWrite (.mmio pa v)) s.ev] })) ∧
  (∀ (s : State) (h : Nat) (v : Word),
     let x := s.hart h
     let c := x.csr
     (∀ n m, (n, m) ∈ maskedCsrs → ∃ t, csrWrite s h n v = .ok t ∧ csrRead t h n = some (v &&& m) ∧ SameMemory s t ∧ ∀ g, g ≠ h → t.hart g = s.hart g) ∧
     (∀ n m, (n, m) ∈ maskedStd → ∃ d, csrWrite s h n v = .ok (s.setHart h { x with csr := d }) ∧
       csrRead (s.setHart h { x with csr := d }) h n = some (v &&& m)) ∧
     (∃ t r r', csrWrite s h 0x300 v = .ok t ∧ csrRead s h 0x300 = some r ∧ csrRead t h 0x300 = some r' ∧
       (∀ i < 63, bitOf r' i =
         if i ∈ [1, 3, 5, 7, 8, 13, 14, 17, 19, 20, 21, 22] then bitOf v i
         else if i = 11 ∨ i = 12 then (if fld v 11 2 = 2 then bitOf r i else bitOf v i) else bitOf r i) ∧
       (fld r' 13 2 = 3 ∨ fld r' 15 2 = 3 → bitOf r' 63 = true) ∧ (fld c.mstatus 32 4 = 0 → fld r' 32 2 = 2 ∧ fld r' 34 2 = 2)) ∧
     (∀ n, n = 0x105 ∨ n = 0x305 → ∃ t old, csrWrite s h n v = .ok t ∧ csrRead s h n = some old ∧
       csrRead t h n = some (if fld v 0 2 ≤ 1 then v else setFld v 0 2 (fld old 0 2))) ∧
     (∃ t, csrWrite s h 0x180 v = .ok t ∧ (t.hart h).csr.satpMode = (if fld v 60 4 = 0 ∨ fld v 60 4 = 15 then v.extractLsb' 60 4 else c.satpMode) ∧
       ∃ r, csrRead t h 0x180 = some r ∧ fld r 60 4 = (t.hart h).csr.satpMode.toNat ∧ fld r 0 44 = fld (s.func x.fn).kroot 12 40) ∧
     (∃ t, csrWrite s h 0x003 v = .ok t ∧ csrRead t h 0x003 = some (v &&& 0xFF) ∧ (t.hart h).fs = 3 ∧ csrRead t h 0x001 = some (v &&& 0x1F) ∧
       (t.cluster (clusterOf (coreOf h))).sticky = (s.cluster (clusterOf (coreOf h))).sticky ||| (v.extractLsb' 0 5 &&& ~~~x.fflags)) ∧
     (∃ t, csrWrite s h 0x800 v = .ok t ∧ (t.hart h).kmsd = if fld v 0 5 ≤ 16 then fld v 0 5 else x.kmsd) ∧
     (∃ t, csrWrite s h 0x5D0 v = .ok t ∧ t.harts = s.harts ∧ ∀ i < 5,
       (t.cluster (clusterOf (coreOf h))).sticky.getLsbD i = ((s.cluster (clusterOf (coreOf h))).sticky.getLsbD i && !bitOf v i)) ∧
     (∀ n i, customCsr n = false → i < 64 → ((pmpSeen s c).pmpcfg.get 0 i).getLsbD 7 = true → bitOf (pmpSeen s c).mseccfg 2 = false →
       ∃ t, csrWrite s h n v = .ok t ∧ (pmpSeen t (t.hart h).csr).pmpcfg.get 0 i = (pmpSeen s c).pmpcfg.get 0 i ∧
         (pmpSeen t (t.hart h).csr).pmpaddr.get 0 i = (pmpSeen s c).pmpaddr.get 0 i) ∧
     csrRead s h 0x301 = some 0x800000000094112D ∧ csrRead s h 0xF11 = some 0 ∧ csrRead s h 0xF12 = some 9 ∧ csrRead s h 0xF13 = some 0x101 ∧
     csrRead s h 0xF14 = some (word h) ∧ csrRead s h 0xF15 = some 0)

/-- R73, R74, R91: a write of `kslab` starts, refuses, completes at once or aborts a switch, or waits; a slab drains, the lines of a cache way through the gate, is
cleared, and then is in its new mode, its slots under new generations where that is pool mode. That a write with ABORT and GO aborts first is the model's choice (log 73), that COUNT above 1,024 is refused with
EN 0 too its reading (log 62), and that V = 0 with another's LAUNCH is accepted its choice (log 73).

R93, R92, R103: a write of `kpart` or `kpown` takes effect whole and clears ERR, or is refused whole and sets ERR; what the matrix TLB pins follows the owners (R32); `kpoolev` gives the lowest pending partition
of the die and clears its bit. -/
def Obligations.SlabsAndPartitions : Prop :=
  (∀ (s : State) (k : Nat),
     let c := s.cluster k
     let only := fun (t : State) (d : Cluster) => SameMemory s t ∧ t.cluster k = d ∧ (∀ j, j ≠ k → t.cluster j = s.cluster j) ∧ { t with clusters := s.clusters } = s
     (∀ v, let new := fld v 52 2
       let num := fld v 48 4
       let z := if bitOf v 62 = true ∧ c.slabPhase = 1 then { c with slabPhase := 0, slabGo := false, slabStatus := 4 } else c
       (bitOf v 63 = true → z.slabGo = true → kslabWrite s k v = .wait) ∧
       (bitOf v 63 = true → z.slabGo = false → ∃ t, kslabWrite s k v = .ok t ∧
         (c.mode num = new → only t { z with slabNew := new, slabNum := num, slabStatus := 0 }) ∧
         (c.mode num = 0 → new ≠ 0 → (∀ i < 16, c.mode i = 0 → i = num) → only t { z with slabNew := new, slabNum := num, slabStatus := 3 }) ∧
         (c.mode num ≠ new → (c.mode num ≠ 0 ∨ ∃ i < 16, i ≠ num ∧ c.mode i = 0) →
           only t { z with slabNew := new, slabNum := num, slabGo := true, slabStatus := 1, slabPhase := 1, swSlab := num, swNew := new,
                            recalled := z.recalled.filter (· != num) })) ∧
       (bitOf v 63 = false → ∃ t, kslabWrite s k v = .ok t ∧ only t { z with slabNew := new, slabNum := num })) ∧
     (s.ev.a = k →
       let m := c.mode c.swSlab
       let drained := (m = 1 → ∀ u ∈ scratchHeld s k, u / 16 ≠ c.swSlab) ∧ (m = 2 → entriesIn s k c.swSlab = 0) ∧
         (3 ≤ m → ∀ i < 64, (c.slot (64 * c.swSlab + i)).st = .free)
       let back := c.recalled.filter (slabDrained s k)
       (c.slabPhase ≠ 1 → ∃ t, Runs .slabDrainComplete s t ∧
         only t { c with modes := c.modes.filter fun x => !back.contains x.1, recalled := c.recalled.filter fun i => !back.contains i } ∧
         ∀ i ∈ back, (t.cluster k).mode i = 0) ∧
       (c.recalled = [] → c.slabPhase = 1 → m ≠ 0 → drained → ∃ t, Runs .slabDrainComplete s t ∧ only t { c with slabPhase := 2, slabStatus := 2 }) ∧
       (c.recalled = [] → c.slabPhase = 1 → m ≠ 0 → ¬ drained → Runs .slabDrainComplete s s) ∧
       (c.recalled = [] → c.slabPhase = 1 → m = 0 → (∀ y ∈ s.allKlines k, y.zero = true ∨ y.way ≠ c.swSlab) →
         ∃ t, Runs .slabDrainComplete s t ∧ only t { c with slabPhase := 2, slabStatus := 2 }) ∧
       (c.slabPhase = 1 → let u := drainWay s k c.swSlab
         let x := returnSlabs u k
         CacheMoves s u ∧ ∃ t, Runs .slabDrainComplete s t ∧ HomeMemory s t ∧ t.harts = s.harts ∧
         (slabDrained x k c.swSlab = true → t.cluster k = { x.cluster k with slabPhase := 2, slabStatus := 2 }) ∧
         (slabDrained x k c.swSlab = false → t = x)) ∧
       ∀ i, slabDrained s k i = true ↔ (c.mode i = 0 → ∀ y ∈ s.allKlines k, y.zero = true ∨ y.way ≠ i) ∧ (c.mode i = 1 → ∀ u ∈ scratchHeld s k, u / 16 ≠ i) ∧
         (c.mode i = 2 → entriesIn s k i = 0) ∧ (3 ≤ c.mode i → ∀ j < 64, (c.slot (64 * i + j)).st = .free)) ∧
     (s.ev.a = k → c.slabPhase ≠ 2 → Runs .slabClearComplete s s) ∧
     (s.ev.a = k → c.slabPhase = 2 → ∃ t, Runs .slabClearComplete s t ∧ SameMemory s t ∧ { t with clusters := s.clusters } = s ∧
       (t.cluster k).slabPhase = 0 ∧ (t.cluster k).slabGo = false ∧ (t.cluster k).slabStatus = 0 ∧
       (∀ i, (t.cluster k).mode i = if i = c.swSlab then c.swNew else c.mode i) ∧
       ∀ u, (t.cluster k).slot u = if c.swNew = 3 ∧ u / 64 = c.swSlab then { gen := if (c.slot u).gen = 0xFFFF then 1 else (c.slot u).gen + 1 } else c.slot u)) ∧
  (∀ (s : State) (k p : Nat) (v : Word),
     let c := s.cluster k
     let x := c.part p
     let only := fun (t : State) (y : Partition) => SameMemory s t ∧ { t with clusters := s.clusters } = s ∧ (∀ j, j ≠ k → t.cluster j = s.cluster j) ∧
       (t.cluster k).part p = y ∧ (∀ j, j ≠ p → (t.cluster k).part j = c.part j) ∧ { t.cluster k with parts := c.parts } = c
     (let y : Partition := { x with en := bitOf v 63, cls := fld v 60 2, count := fld v 16 11, base := fld v 0 10, err := false }
      let u := classUnits y.cls
      let end_ := fun (z : Partition) => z.base + z.count * classUnits z.cls
      let bad := y.cls = 3 ∨ y.count = 0 ∨ 1024 < y.count ∨ y.base % u ≠ 0 ∨
        (y.en = true ∧ (∃ n, y.base ≤ n ∧ n < end_ y ∧ (1024 ≤ n ∨ c.mode (n / 64) ≠ 3))) ∨
        (y.en = true ∧ ∃ z ∈ c.parts, z.1 ≠ p ∧ z.2.en = true ∧ z.2.base < end_ y ∧ y.base < end_ z.2) ∨
        (¬ (x.en = y.en ∧ x.cls = y.cls ∧ x.count = y.count ∧ x.base = y.base) ∧ ∃ n ∈ x.slotUnits, (c.slot n).st ≠ .free) ∨ y.count < minSum x.owners
      let fresh := y.en = true ∧ x.en = false
      (bad → only (kpartWrite s k p v) { x with err := true }) ∧
      (¬ bad → ¬ fresh → only (kpartWrite s k p v) y) ∧
      (¬ bad → fresh → only (kpartWrite s k p v) { y with fn := s.me.fn, eid := s.myCore.kencl.toNat })) ∧
     (∀ o, let old := x.owners.get {} o
       let e : Owner := { v := bitOf v 63, max := fld v 41 11, min := fld v 30 11, launch := fld v 0 16 }
       let bad := x.count < minSum (x.owners.set {} o e) ∨ e.max < e.min ∨ (old.v = true ∧ inUse s k p old.launch ≠ 0 ∧ (e.v = false ∨ e.launch ≠ old.launch)) ∨
         (e.v = true ∧ ∃ z ∈ x.owners, z.1 ≠ o ∧ z.2.v = true ∧ z.2.launch = e.launch)
       (bad → only (kpownWrite s k p o v) { x with err := true }) ∧
       (¬ bad → ∃ m, let t := kpownWrite s k p o v
         SameMemory s t ∧ { t with clusters := s.clusters } = s ∧ (∀ j, j ≠ k → t.cluster j = s.cluster j) ∧
         (t.cluster k).part p = { x with owners := x.owners.set {} o e, err := false } ∧ (∀ j, j ≠ p → (t.cluster k).part j = c.part j) ∧
         { t.cluster k with parts := c.parts, tlbMat := m } = { c with tlbMat := m } ∧
         (∀ y ∈ (t.cluster k).tlbMat, ∃ z ∈ c.tlbMat, { y with pinned := z.pinned } = z) ∧
         let named := fun (y : PageEntry) => ∃ l ∈ s.launches, l.fn = y.fn ∧ ownsIn t k l.id = true ∧ ∃ va ∈ l.stage, y.covers l.fn va = true
         (∀ y ∈ (t.cluster k).tlbMat, y.pinned = true → named y) ∧ (∀ z ∈ c.tlbMat, z.pinned = true → named z → z ∈ (t.cluster k).tlbMat) ∧
         ∀ l, s.launch? e.launch = some l → ownsIn t k e.launch = true → ∀ va ∈ l.stage, ∀ y ∈ (t.cluster k).tlbMat, y.covers l.fn va = true →
           y.pinned = true ∨ 128 ≤ ((t.cluster k).tlbMat.filter (·.pinned)).length)) ∧
     ∀ d, ((s.die d).poolEv = [] → kpoolevRead s d = (0, s)) ∧
       ∀ n b r, (s.die d).poolEv = (n, b) :: r → ∃ t, kpoolevRead s d = (word (2 ^ 63 + n), t) ∧ (t.die d).poolEv = r ∧ (∀ e, e ≠ d → t.die e = s.die e) ∧
         { t with dies := s.dies } = s)

/-- R19, R29, R34, R37 to R39: `ktinv` stores its fields, starts an invalidation or waits for the one under way, which acts on what it was started with; at its completion
no buffer holds an entry of a named page, and with FLUSH no L1 and no instruction cache a line of one; GO stays while a reduce contribution translated there is under way. Where the walkers keep
nothing a walk goes from the root; it leaves a walker's entries as they were or at most 16, and a kroot write or an invalidation leaves none. A walk that succeeds
enters its page's entry in the TLB, sets A and touches nothing else but the walker's entries.

R134, R135, R410, R404: a write of the bias register, by the device or by the host, stores its fields, ends at once, starts a flip or waits in its turn; a flip that
completes changes the bias of the page that it was started for, and towards host bias takes the page's lines from every L1 and instruction cache. R335: `kflush` likewise, whose
completion empties the core's private caches, the scalar cache into the cluster's. -/
def Obligations.InvalidationAndBias : Prop :=
  (∀ (s : State),
     (∀ fn v, let f := s.func fn
       (bitOf v 63 = true → f.ktinvGo = true → ktinvWrite s fn v = .wait) ∧
       (bitOf v 63 = false ∨ f.ktinvGo = false → ∃ t, ktinvWrite s fn v = .ok t ∧ { t with funcs := s.funcs } = s ∧ (∀ g, g ≠ fn → t.func g = s.func g) ∧
         t.func fn = { f with ktinv := v &&& 0x707FFFFFFFFF0000, ktinvGo := f.ktinvGo || bitOf v 63
                              ktinvRun := if bitOf v 63 then v &&& 0x707FFFFFFFFF0000 else f.ktinvRun })) ∧
     (let fn := s.ev.a
      let v := (s.func fn).ktinvRun
      let open_ := ∃ d ∈ s.dies, ∃ x, (x ∈ d.2.transit ∨ x ∈ d.2.comb.map (·.sum)) ∧ tinvContrib v fn x = true
      let after := EntriesAfter fn v
      let lines := fun (l l' : List CLine) => ∀ y, y ∈ l' ↔ y ∈ l ∧ ¬ (bitOf v 62 = true ∧ y.fn = fn ∧ tinvNames v (y.vline / 512 % 2 ^ 39))
      ((s.func fn).ktinvGo = false → Runs .invalidationComplete s s) ∧
      ((s.func fn).ktinvGo = true → ∃ t, Runs .invalidationComplete s t ∧ HomeMemory s t ∧ (bitOf v 62 = false → SameMemory s t) ∧ t.harts = s.harts ∧
        (open_ → t.func fn = s.func fn) ∧ (¬ open_ → t.func fn = { s.func fn with ktinvGo := false }) ∧
        (∀ c, after (s.core c).plb (t.core c).plb ∧ lines (s.core c).l1 (t.core c).l1 ∧ lines (s.core c).icache (t.core c).icache ∧
          { t.core c with plb := (s.core c).plb, l1 := (s.core c).l1, icache := (s.core c).icache } = s.core c) ∧
        ∀ k, (bitOf v 62 = false → after (s.cluster k).tlbLane (t.cluster k).tlbLane) ∧ (∀ e ∈ (t.cluster k).tlbLane, ¬ EntryNamed fn v e) ∧
          after (s.cluster k).tlbMat (t.cluster k).tlbMat ∧
          after (s.cluster k).tlbCopy (t.cluster k).tlbCopy ∧ after (s.cluster k).tlbIns (t.cluster k).tlbIns)) ∧
     (let k := s.ev.a * 16 + nth 0 s.ev.nums 0 % 16
      let u := nth 0 s.ev.nums 1 % 4
      let fn := s.ev.b
      let va := s.ev.w
      (canonical va = false → Runs .pageWalk s s) ∧
      (∀ t f, canonical va = true → (∀ e ∈ (s.cluster k).tlb u, e.covers fn va = false) → unitWalk s k fn va = (t, .error f) → Runs .pageWalk s t) ∧
      (s.walkers = [] → (unitWalk s k fn va).2 = walk s fn va) ∧
      ({ (unitWalk s k fn va).1 with walkers := s.walkers, choices := s.choices } = s ∧ ∀ i, ((unitWalk s k fn va).1.walkers.get [] i).length ≤ 16 ∨
        (unitWalk s k fn va).1.walkers.get [] i = s.walkers.get [] i) ∧
      (∀ v, (krootWrite s fn v).walkers = [] ∧ (invalidate s fn v).walkers = []) ∧
      (∀ t0 e at_ lvl, canonical va = true → (∀ e ∈ (s.cluster k).tlb u, e.covers fn va = false) → unitWalk s k fn va = (t0, .ok (e, at_, lvl)) →
        ∃ t, Runs .pageWalk s t ∧ t.mem = (setPteBit s at_ 8).mem ∧ { t with mem := s.mem, clusters := s.clusters, walkers := s.walkers, choices := s.choices } = s ∧
          (∀ j, j ≠ k → t.cluster j = s.cluster j) ∧
          (((s.cluster k).tlbMat.length < 512 → ∃ x ∈ (t.cluster k).tlb u, x.covers fn va = true ∧ x.pa = e.pa ∧ x.rd = e.rd ∧ x.wr = e.wr ∧ x.x = e.x ∧
            x.dom = e.dom ∧ x.key = e.key))))) ∧
  (∀ (s : State),
     (∀ fn who v, let f := s.func fn
       let page := fld v 16 36
       let ws := flipWaiters s fn
       let stored := fun (t : State) (st : Nat) (go starts : Bool) => { t with funcs := s.funcs } = s ∧ (∀ g, g ≠ fn → t.func g = s.func g) ∧ (t.func fn).kbiasGo = go ∧
         { t.func fn with kbias := f.kbias, kbiasGo := f.kbiasGo, kbiasRun := f.kbiasRun, kbiasWait := f.kbiasWait } = f ∧
         fld (t.func fn).kbias 16 36 = page ∧ fld (t.func fn).kbias 62 1 = fld v 62 1 ∧ fld (t.func fn).kbias 60 2 = st ∧
         (starts = true → fld (t.func fn).kbiasRun 16 36 = page ∧ fld (t.func fn).kbiasRun 62 1 = fld v 62 1) ∧ (starts = false → (t.func fn).kbiasRun = f.kbiasRun)
       let turn := f.kbiasGo = false ∧ (ws = [] ∨ ws.head? = some who)
       (s.mgmt.s2 = false → kbiasWrite s fn who v = .ok s) ∧
       (s.mgmt.s2 = true → bitOf v 63 = true → ¬ turn → ∃ f, kbiasWrite s fn who v = .wait f ∧
         ∀ u, f u = u.modFunc fn fun y => { y with kbiasWait := if who ∈ ws then ws else ws ++ [who] }) ∧
       (s.mgmt.s2 = true → bitOf v 63 = false → ∃ t, kbiasWrite s fn who v = .ok t ∧ stored t (fld f.kbias 60 2) f.kbiasGo false ∧ (t.func fn).kbiasWait = f.kbiasWait) ∧
       (s.mgmt.s2 = true → bitOf v 63 = true → turn → ∃ t, kbiasWrite s fn who v = .ok t ∧ (t.func fn).kbiasWait = ws.filter (· != who) ∧
         (ownsPage s fn page = false → stored t 2 false false) ∧
         (ownsPage s fn page = true → deviceBias s page = bitOf v 62 → stored t 0 false false) ∧
         (ownsPage s fn page = true → deviceBias s page ≠ bitOf v 62 → stored t 1 true true))) ∧
     ((s.func s.ev.a).tdisp ≠ .run → Runs .biasGo s s) ∧
     ((s.func s.ev.a).tdisp = .run →
       (∀ t, kbiasWrite s s.ev.a 8192 s.ev.w = .ok t → Runs .biasGo s t) ∧
       (∀ f, kbiasWrite s s.ev.a 8192 s.ev.w = .wait f → Runs .biasGo s { f s with agenda := s.agenda ++ [.event .biasGo s.ev] })) ∧
     (let fn := s.ev.a
      let f := s.func fn
      let page := fld f.kbiasRun 16 36
      let dev := bitOf f.kbiasRun 62
      (f.kbiasGo = false → Runs .biasFlipComplete s s) ∧
      (f.kbiasGo = true → ∃ t, Runs .biasFlipComplete s t ∧ HomeMemory s t ∧ t.harts = s.harts ∧ (t.func fn).kbiasGo = false ∧ fld (t.func fn).kbias 60 2 = 0 ∧
        deviceBias t page = dev ∧ (∀ p, p ≠ page → deviceBias t p = deviceBias s p) ∧
        (dev = true → SameMemory s t ∧ t.cores = s.cores ∧ t.clusters = s.clusters ∧ t.lines = s.lines) ∧
        (dev = false → ∀ c, (∀ y ∈ (t.core c).l1, y.pl / 512 ≠ page) ∧ ∀ y ∈ (t.core c).icache, y.pl / 512 ≠ page))) ∧
     (∀ c v, (bitOf v 63 = false → kflushWrite s c v = .ok s) ∧ (bitOf v 63 = true → (s.core c).kflush = true → kflushWrite s c v = .wait) ∧
       (bitOf v 63 = true → (s.core c).kflush = false → kflushWrite s c v = .ok (s.setCore c { s.core c with kflush := true }))) ∧
     (let c := s.ev.a
      ((s.core c).kflush = true → ∃ t, Runs .flushComplete s t ∧ SameMemory s t ∧ t = (scalFlush s c).setCore c { s.core c with l1 := [], icache := [], kflush := false } ∧
        t.harts = s.harts ∧ CacheMoves s (scalFlush s c)) ∧
      ((s.core c).kflush = false → Runs .flushComplete s s)))

/-- R168, R171, R276, R277, R279, R281: a write of `khctl`, `kchq`, `kchring` or `kqctl` changes the fields of its register that may change, of the selected entry of the core
alone. The domain set and the tables that a new LAUNCH brings, none where no launch has the number, are the model's (log 35). -/
def Obligations.ChannelRegisters : Prop :=
  ∀ (s : State) (c ch : Nat) (v : Word),
    let x := (s.core c).chan ch
    let id := fld v 0 16
    (∃ y, ChanBecomes s (khctlWrite s c ch v) c ch y ∧ y.en = bitOf v 63 ∧ y.prio = fld v 60 3 ∧ y.k = fld v 56 4 ∧ y.conc = fld v 52 4 ∧
      y.maxp = min 16 (fld v 47 5) ∧ y.pinen = bitOf v 46 ∧ y.pin = fld v 42 4 ∧ y.eprio = fld v 60 3 ∧ y.passes = 0 ∧ y.launch = id ∧
      (id = x.launch → y.kdom = x.kdom ∧ y.kxtab = x.kxtab) ∧
      (id ≠ x.launch → ∀ l, s.launch? id = some l → y.kdom = l.kdom ∧ y.kxtab = l.kxtab) ∧ (id ≠ x.launch → s.launch? id = none → y.kdom = 0 ∧ y.kxtab = 0) ∧
      { y with en := x.en, prio := x.prio, k := x.k, conc := x.conc, maxp := x.maxp, pinen := x.pinen, pin := x.pin, eprio := x.eprio, passes := x.passes
               launch := x.launch, kdom := x.kdom, kxtab := x.kxtab } = x) ∧
    (let d := fld v 0 7
     let back := s.modCore c fun k => k.modChan ch fun y => { y with ents := [] }
     let takes := x.hw = [] ∧ x.rcnt = 0 ∧ (d = 0 ∨ 4 ≤ d ∧ d ≤ 64) ∧ d ≤ entriesFree back (clusterOf c)
     (ch = 63 → kchqWrite s c ch v = s ∧ kchqRead x ch = 0) ∧
     (ch ≠ 63 → ∃ y, ChanBecomes s (kchqWrite s c ch v) c ch y ∧ y.err = (x.err && !bitOf v 63) ∧ y.drop = fld v 24 8 ∧
       (takes → y.depth = d ∧ y.ents = allotEntries back (clusterOf c) d) ∧ (¬ takes → y.depth = x.depth ∧ y.ents = x.ents) ∧
       { y with err := x.err, drop := x.drop, depth := x.depth, byBinder := x.byBinder, ents := x.ents } = x)) ∧
    (∃ y, ChanBecomes s (kchringWrite s c ch v) c ch y ∧ (x.rcnt ≠ 0 → y = x) ∧
      (x.rcnt = 0 → y = { x with lsize := (if 1 ≤ fld v 60 4 ∧ fld v 60 4 ≤ 3 then x.lsize else fld v 60 4), base := word (fld v 7 48 * 128)
                                 head := 0, tail := 0 })) ∧
    ∀ q, let y := (s.core c).q q
      let u := fld v 0 7
      let back := s.modCore c fun k => k.modQ q fun y => { y with ents := [] }
      let ignored := (y.vals ≠ [] ∧ (u ≠ y.units ∨ fld v 16 16 ≠ y.launch)) ∨ (bitOf v 63 = true ∧ u = 0) ∨ entriesFree back (clusterOf c) < u
      (ignored → kqctlWrite s c q v = s) ∧
      (¬ ignored → ∃ t, kqctlWrite s c q v = t ∧ SameMemory s t ∧ { t with cores := s.cores } = s ∧ (∀ d, d ≠ c → t.core d = s.core d) ∧
        (t.core c).q q = { y with en := bitOf v 63, launch := fld v 16 16, units := u
                                  ents := if u = y.units ∧ y.vals ≠ [] then y.ents else allotEntries back (clusterOf c) u } ∧ (∀ k, k ≠ q → (t.core c).q k = (s.core c).q k) ∧
        { t.core c with queues := (s.core c).queues } = s.core c)

/-- R316 to R322: a running sibling takes a request to halt, a halted one resumes or has an item written, and no other write of the window does anything; an item that a
halted sibling holds reads back as written; `kpre` ends a hart's part of a save; `kcsave` is refused, or saves the class's state into the area at BASE, or restores the class
from it; a restore that fails leaves the class as the binding left it. That STATUS is final when the write ends is the model's (log 70), and how a record shows a decided
stage barrier (log 24). -/
def Obligations.SiblingsAndSaves : Prop :=
  ∀ (s : State) (h : Nat) (v : Word),
    (∀ t, sibling s h = some t → ∃ k i, (s.hart h).bind = .cls k ∧ i = (s.hart h).k.ksibsel.toNat % 16 ∧ (s.cls k).harts[i]? = some t ∧ t ≠ h) ∧
    (sibling s h = none → ksibctlWrite s h v = s ∧ ksibdataWrite s h v = s ∧ ksibctlRead s h = 0 ∧ ksibdataRead s h = 0) ∧
    (∀ t, sibling s h = some t →
      let x := s.hart t
      let i := (s.hart h).k.ksibsel.toNat / 2 ^ 16
      (x.retired = true → ksibctlWrite s h v = s ∧ ksibdataWrite s h v = s) ∧
      (x.retired = false → x.halted = false → ksibdataWrite s h v = s ∧ ksibdataRead s h = 0 ∧
        ksibctlWrite s h v = if bitOf v 0 then s.setHart t { x with haltReq := true } else s) ∧
      (x.retired = false → x.halted = true →
        ksibctlWrite s h v = (if bitOf v 1 then s.setHart t { x with halted := false } else s) ∧
        ∃ y, (let u := ksibdataWrite s h v
              u.hart t = y ∧ (∀ g, g ≠ t → u.hart g = s.hart g) ∧ SameMemory s u ∧ { u with harts := s.harts, clusters := s.clusters } = s ∧ (i ≠ 0x41 → u.clusters = s.clusters) ∧
              (i = 0x41 → (u.cluster (clusterOf (coreOf t))).sticky = (s.cluster (clusterOf (coreOf t))).sticky ||| (v.extractLsb' 0 5 &&& ~~~x.fflags))) ∧
          ksibdataRead s h = sibItem x i ∧
          ((1 ≤ i ∧ i < 0x40) ∨ 0x80 ≤ i ∧ i < 0x88 → sibItem y i = v) ∧ (i = 0x40 → sibItem y i = v &&& ~~~1) ∧
          (i = 0x41 ∨ i = 0x88 → sibItem y i = v &&& 0xFF) ∧
          (0x50 ≤ i ∧ i < 0x60 ∨ 0x60 ≤ i ∧ i < 0x68 ∨ 0x400 ≤ i ∧ i < 0x800 → sibItem y i = v &&& 0xFFFFFFFF) ∧
          (i = 0x43 → sibItem y i = if fld v 0 5 ≤ 16 then word (fld v 0 5) else sibItem x i) ∧
          ((i = 0 ∨ 0x44 ≤ i ∧ i < 0x50 ∨ 0x68 ≤ i ∧ i < 0x80 ∨ 0x89 ≤ i ∧ i < 0x400) → y = x) ∧
          ∀ j < 0x800, j ≠ i → sibItem y j = sibItem x j)) ∧
    (let x := s.hart h
     let y := { x with k := { x.k with kpreTok := v.extractLsb' 0 48, kpreRes := x.k.kpreRes && !bitOf v 62 } }
     (isFiring s h = true → kpreWrite s h v = s) ∧
     (isFiring s h = false → (bitOf v 61 = false ∨ x.k.kpreReq = false ∨ ∀ k, x.bind ≠ .cls k) → kpreWrite s h v = s.setHart h y) ∧
     (∀ k, x.bind = .cls k → bitOf v 61 = true → x.k.kpreReq = true → ∃ t, kpreWrite s h v = t ∧ SameMemory s t ∧ (t.hart h).live = false ∧
       (cohortSaved ((s.setHart h { y with live := false, k := { y.k with kpreDone := true } }).modCls k fun c => { c with last := hidxOf x })
          (s.cls k).launch (s.cls k).cohort = false →
         t.hart h = { y with live := false, k := { y.k with kpreDone := true } } ∧ ∀ g, g ≠ h → t.hart g = s.hart g))) ∧
    (let x := s.hart h
     let st := fun (t : State) => fld (t.hart h).k.kcsave 59 3
     let w := copyWho s h
     let va := sext (setFld x.k.kcsarea 0 7 0) 55
     (bitOf v 63 = false → ∃ t, kcsaveWrite s h v = t ∧ st t = fld x.k.kcsave 59 3 ∧ SameMemory s t ∧ ∀ g, g ≠ h → t.hart g = s.hart g) ∧
     (bitOf v 63 = true → (∀ k, x.bind ≠ .cls k) → st (kcsaveWrite s h v) = 3 ∧ SameMemory s (kcsaveWrite s h v)) ∧
     (∀ k, x.bind = .cls k → bitOf v 63 = true → bitOf v 62 = true → (s.cls k).resumed = false →
       st (kcsaveWrite s h v) = 3 ∧ SameMemory s (kcsaveWrite s h v) ∧ (kcsaveWrite s h v).classes = s.classes) ∧
     (∀ k, x.bind = .cls k → bitOf v 63 = true → bitOf v 62 = true → (s.cls k).resumed = true →
       let r := kcsaveWrite s h v
       let c := (s.cls k).core
       (∀ t f, placeAll w .copy .rd false false (tileSegs va (areaLen (s.cls k))) s = (t, .error f) → st r = 2) ∧
       (∀ t ps, placeAll w .copy .rd false false (tileSegs va (areaLen (s.cls k))) s = (t, .ok ps) →
         let bs := seenPieces t w ps
         let bad := poisonIn t w ps = true ∨ (tagBroken t w ps).isSome = true ∨ AreaSpoilt (s.cls k) bs
         ((∀ p ∈ ps, p.ref.key = 0 ∧ p.ref.pa % 128 = p.seg.at_.toNat % 128 ∧ ∀ l ∈ p.lines, t.kline w l.1 = none) →
           bs = (ps.map fun p => rawBytes t p.ref.pa p.seg.n).flatten) ∧
         (bad → st r = 2) ∧ (¬ bad → st r = 0 ∧ AreaTaken (s.cls k) (r.cls k) (r.core c) bs)) ∧
       (st r = 0 ∨ st r = 2) ∧
       (st r = 2 → { r.cls k with restored := (s.cls k).restored } = s.cls k ∧ (r.core c).bars = (s.core c).bars ∧ (r.core c).ops = (s.core c).ops ∧
         (r.core c).accs = (s.core c).accs)) ∧
     (∀ k, x.bind = .cls k → bitOf v 63 = true → bitOf v 62 = false →
       (∃ g ∈ (s.cls k).harts, g ≠ h ∧ (s.hart g).retired = false ∧ (s.hart g).k.kpreDone = false) →
       st (kcsaveWrite s h v) = 3 ∧ SameMemory s (kcsaveWrite s h v)) ∧
     (∀ k, x.bind = .cls k → bitOf v 63 = true → bitOf v 62 = false →
       (∀ g ∈ (s.cls k).harts, g ≠ h → (s.hart g).retired = true ∨ (s.hart g).k.kpreDone = true) →
       let r := kcsaveWrite s h v
       let s' := drainMx (coreOf h) (s.core (coreOf h)).mx.length s
       (st r = 0 ∨ st r = 2 ∧ r.classes = s.classes) ∧
       ((∃ p ∈ (s.cls k).scrPsn, p.2 = true) → st r = 2) ∧
       (∀ t f, placeAll w .copy .wr false false (tileSegs va (areaLen (s.cls k))) s' = (t, .error f) → st r = 2) ∧
       ∀ t ps u qs, (∀ p ∈ (s.cls k).scrPsn, p.2 = false) → placeAll w .copy .wr false false (tileSegs va (areaLen (s.cls k))) s' = (t, .ok ps) →
         placeAll w .copy .wr false true (tileSegs va (areaLen (s.cls k))) t = (u, .ok qs) →
         st r = 0 ∧ ∃ bs, AreaHolds (u.core (s.cls k).core) (s.cls k) bs ∧ ((∀ q ∈ qs, q.ref.key = 0) →
           StoredTo u r ((atOffset 0 bs).map fun o => (cellAt va qs o.1 o.2).cell))))

/-! ### Scalar memory -/

/-- R177, R179, R80, R23, R70, R57, R112, R402: a scalar load, store or atomic that is misaligned, held in error or fails a check traps with its cause and its address; else a load
gives the bytes read, extended or NaN-boxed; a store puts its bytes at the address translated and nowhere else; LR reserves the line, SC stores where the reservation
stands and reports it, an AMO gives the old value and stores the new one, each on a peer window at the peer's home (R124); an acquire empties the core's L1. A doubleword access of the MMIO range reaches the
register there. The size of a reservation and the checks of an SC that fails are the model's (log 15), and that the trap of a misaligned access comes before a hold (log 37). -/
def Obligations.ScalarMemory : Prop :=
  ∀ (s : State),
    let x := s.me
    let w := whoOf s s.cur true
    let mxr := bitOf x.csr.mstatus 19
    let cause := fun (a : Acc) (k : Nat) => if a = .rd then (if k = 8 ∨ k = 9 ∨ k = 10 then 5 else 13) else (if k = 8 ∨ k = 9 ∨ k = 10 then 7 else 15)
    let fails := fun (i : Instr) (a : Acc) (n : Nat) (va : Word) =>
      (va.toNat % n ≠ 0 → Traps i s (if a = .rd then 4 else 6) va) ∧
      (va.toNat % n = 0 → (∀ v, wmHeld s [(va.toNat, n)] = some (some v) → Traps i s 49 (word v)) ∧
        (wmHeld s [(va.toNat, n)] = some none → Becomes i s { x with wait := .stall })) ∧
      (va.toNat % n = 0 → wmHeld s [(va.toNat, n)] = none → ∀ t f, translate s w .scalar a mxr false va n = (t, .error f) →
        Runs i s (takeTrap t s.cur false (cause a f.kind) va))
    let spoilt := fun (i : Instr) (n : Nat) (va : Word) (t : State) (r : PRef) =>
      (∀ u, lineIn t w va r = (u, none) → Runs i s (sealFail u s.cur r.pa r.key va)) ∧
      (∀ u y, ScalarTakes s t va r u y → y.psn = true → Runs i s (takeTrap u s.cur false 48 va)) ∧
      (∀ u y, ScalarTakes s t va r u y → u.harts = s.harts ∧ HomeMemory t u ∧
        (t.kline w (va.toNat / 128) = none → r.key = 0 → r.pa % 128 = va.toNat % 128 → va.toNat % n = 0 → n ≤ 8 → lineNat y va n = leToNat (rawBytes t r.pa n)))
    (∀ o n sg fp, (o.kind, n, sg, fp) ∈ scalarLoads →
      let i := Instr.scalarLoad o
      let va := x.getX o.rs1.toNat + o.imm.signExtend 64
      (fp = true → x.fs = 0 → Traps i s 2 x.ibits) ∧
      ((fp = true → x.fs ≠ 0) → fails i .rd n va ∧ ∀ t r, ScalarPlaced s .rd n va t r → spoilt i n va t r ∧
        ∀ u y, ScalarTakes s t va r u y → y.psn = false →
          let m := word (lineNat y va n)
          ∃ h', Runs i s (u.setHart s.cur h') ∧
            (fp = false → XReg x h' o.rd.toNat (if sg then sext m (8 * n) else m) ∧ { h' with x := x.x } = x.done) ∧
            (fp = true → (∀ k, h'.getF k = if k = o.rd.toNat then (if n = 8 then m else m + 0xFFFFFFFF00000000) else x.getF k) ∧
              { h' with f := x.f } = (x.setFs 3).done))) ∧
    (∀ o n fp, (o.kind, n, fp) ∈ scalarStores →
      let i := Instr.scalarStore o
      let va := x.getX o.rs1.toNat + o.imm.signExtend 64
      (fp = true → x.fs = 0 → Traps i s 2 x.ibits) ∧
      ((fp = true → x.fs ≠ 0) → fails i .wr n va ∧ ∀ t r, ScalarPlaced s .wr n va t r →
        (entryOk t w (va.toNat / 128) r.key (r.pa / 128) = false → Runs i s (sealFail t s.cur r.pa r.key va)) ∧
        (entryOk t w (va.toNat / 128) r.key (r.pa / 128) = true →
          ScalarStores i s t va r n ((if fp then x.getF o.rs2.toNat else x.getX o.rs2.toNat).toNat % 256 ^ n) x.done false))) ∧
    (∀ (o : AmoOp),
      let i := Instr.scalarAtomic o
      let n := if o.dbl then 8 else 4
      let va := x.getX o.rs1.toNat
      let src := (x.getX o.rs2.toNat).toNat % 256 ^ n
      let rel := fun (t : State) => if o.rl then coreRelease t (coreOf s.cur) 5 else t
      let acq := fun (t : State) => if o.aq then acquire t 5 else t
      fails i (if o.kind = .lr then .rd else if o.kind = .sc then .wr else .rw) n va ∧
      (∀ t r, ScalarPlaced s (if o.kind = .lr then .rd else if o.kind = .sc then .wr else .rw) n va t r →
        let p := peerHome t w (va.toNat / 128) r
        (isPeer (r.pa / 128) = false → p = (t, r)) ∧ (isPeer (r.pa / 128) = true → p.2 = { r with cm := 2 } ∧ CacheMoves t p.1) ∧ spoilt i n va p.1 p.2) ∧
      (∀ t₀ r₀ t r u y, o.kind = .lr → ScalarPlaced s .rd n va t₀ r₀ → peerHome t₀ w (va.toNat / 128) r₀ = (t, r) → ScalarTakes s t va r u y → y.psn = false →
        Runs i s (retire (acq ((rel u).setHart s.cur { x.setX o.rd.toNat (sext (word (lineNat y va n)) (8 * n)) with resv := some (r.pa / 128) })))) ∧
      (∀ t₀ r₀ t r u y, o.kind = .sc → ScalarPlaced s .wr n va t₀ r₀ → peerHome t₀ w (va.toNat / 128) r₀ = (t, r) → ScalarTakes s t va r u y → y.psn = false →
        (x.resv ≠ some (r.pa / 128) → Runs i s (retire (acq ((rel u).setHart s.cur { x.setX o.rd.toNat 1 with resv := none })))) ∧
        (x.resv = some (r.pa / 128) → entryOk (rel u) w (va.toNat / 128) r.key (r.pa / 128) = true →
          ScalarStores i s (rel u) va r n src ({ x.setX o.rd.toNat 0 with resv := none } : Hart).done o.aq)) ∧
      (∀ g t₀ r₀ t r u y, (o.kind, g) ∈ scalarAmos → ScalarPlaced s .rw n va t₀ r₀ → peerHome t₀ w (va.toNat / 128) r₀ = (t, r) → ScalarTakes s t va r u y →
        y.psn = false → entryOk (rel u) w (va.toNat / 128) r.key (r.pa / 128) = true →
        ScalarStores i s (rel u) va r n (g (8 * n) (lineNat y va n) src) (x.setX o.rd.toNat (sext (word (lineNat y va n)) (8 * n))).done o.aq)) ∧
    ∀ va pa t, va.toNat % 8 = 0 → wmHeld s [(va.toNat, 8)] = none → paKind pa = .mmio →
      (∀ o r, o.kind = .ld → va = x.getX o.rs1.toNat + o.imm.signExtend 64 → translate s w .scalar .rd mxr false va 8 = (t, .ok r) → r.pa = pa →
        flipHeld t pa = false → Runs (.scalarLoad o) s (retire ((mmioRead t false pa).1.modMe fun h => h.setX o.rd.toNat (mmioRead t false pa).2))) ∧
      (∀ o r t0 r0, o.kind = .sd → va = x.getX o.rs1.toNat + o.imm.signExtend 64 → translate s w .scalar .wr mxr false va 8 = (t0, .ok r0) →
        flipHeld t0 r0.pa = false → translate t0 w .scalar .wr mxr true va 8 = (t, .ok r) → r.pa = pa →
        let p : Poster := { host := false, priv := w.priv, bare := w.bare, kdom := w.kdom, taint := w.taint }
        (∀ u, mmioWrite t p pa (x.getX o.rs2.toNat) = .ok u → Runs (.scalarStore o) s (retire u)) ∧
        (∀ g, mmioWrite t p pa (x.getX o.rs2.toNat) = .wait g → Runs (.scalarStore o) s ((g t).modMe fun h => { h with wait := .stall })))

/-! ### Keys, the hall monitor, enclaves, the book -/

/-- R343 to R345, R360: each operation of `kkctl`: refused on the slots it may not touch, its record appended before its effect, status 5 with nothing done while the book is full;
erase writes the lines of the key's pages out of the caches and empties the slot, derive and unwrap load it, rebind changes its owner, query changes nothing. The keys
that derive cuts from its digest are the model's free function, and that erase, derive, unwrap and rebind refuse slot 0, which holds no key, is its reading (log 30). -/
def Obligations.KeyStore : Prop :=
  ∀ (s : State) (h : Nat) (v : Word),
    let x := s.hart h
    let k := x.k.kksel.toNat
    let op := fld v 60 3
    let fn := fld v 48 8
    let eid := fld v 32 16
    let slot := s.key k
    let t := kkctlWrite s h v
    let r := (t.hart h).k.kkctl
    let status := fld r 57 3
    let same := t.keys = s.keys ∧ SameMemory s t ∧ t.cores = s.cores
    let rec_ := fun (st : Nat) => t.book = (bookAppend s 1 fn eid (coreOf h) [word k, word op, word st]).book
    let loads := fun (km : BitVec 384) => t.key k =
      { loaded := true, k1 := km.extractLsb' 256 128, k2 := km.extractLsb' 128 128, mac := km.extractLsb' 0 128, fn := fn, eid := eid }
    slot.fn < 256 → slot.eid < 65536 → HomeMemory s t ∧ (∀ j, j ≠ k → t.key j = s.key j) ∧ { t.hart h with k := { (t.hart h).k with kkctl := x.k.kkctl } } = x ∧ (∀ g, g ≠ h → t.hart g = s.hart g) ∧
    fld r 60 3 = op ∧ bitOf r 63 = false ∧ (bitOf v 63 = false ∨ op ≠ 4 → bitOf r 56 = bitOf x.k.kkctl 56) ∧
    (bitOf v 63 = false → same ∧ t.book = s.book ∧ status = fld x.k.kkctl 57 3 ∧ fld r 48 8 = fn ∧ fld r 32 16 = eid) ∧
    (bitOf v 63 = true →
      (op = 4 → same ∧ t.book = s.book ∧ status = 0 ∧ bitOf r 56 = slot.loaded ∧ fld r 48 8 = slot.fn ∧ fld r 32 16 = slot.eid) ∧
      (4 < op → same ∧ t.book = s.book ∧ status = 2) ∧
      (op < 4 → bookFull s = true → same ∧ t.book = s.book ∧ status = 5) ∧
      (op < 4 → bookFull s = false →
        (op = 0 → k = 0 → same ∧ rec_ 2 ∧ status = 2) ∧
        (op = 0 → k ≠ 0 → rec_ 0 ∧ status = 0 ∧ t.key k = {} ∧ ∀ c, ∀ y ∈ (t.core c).l1 ++ (t.core c).icache, ¬ (y.fn = slot.fn ∧ y.key = k)) ∧
        (op = 1 ∨ op = 2 → k < 4 ∨ slot.loaded = true → same ∧ rec_ 2 ∧ status = 2) ∧
        (op = 1 → ¬ (k < 4 ∨ slot.loaded = true) → rec_ 0 ∧ status = 0 ∧
          loads (Config.slotKeys (derive "slot" (natToLe 11 (fn * 2 ^ 80 + eid * 2 ^ 64 + x.k.kkdat.toNat))))) ∧
        (op = 2 → ¬ (k < 4 ∨ slot.loaded = true) →
          (∀ n, unwrapBlob s eid x.k.kkdat.toNat = .error n → same ∧ rec_ n ∧ status = n ∧ (n = 3 ∨ n = 4)) ∧
          (∀ km, unwrapBlob s eid x.k.kkdat.toNat = .ok km → rec_ 0 ∧ status = 0 ∧ loads km)) ∧
        (op = 3 → (k < 4 ∨ slot.loaded = false → same ∧ rec_ 2 ∧ status = 2) ∧
          (¬ (k < 4 ∨ slot.loaded = false) → rec_ 0 ∧ status = 0 ∧ t.key k = { slot with fn := fn, eid := eid }))))

/-- R350, R353, R355, R352: the boundaries of a microsecond that have passed give each bucket its rate, up to its depth. A write of a guarded region that would loosen a locked
one is ignored whole; one that changes what a record holds is recorded first, contexts in M mode keeping the taint of the regions enabled until then, and is ignored while the book is
full. A transaction passes when every metered region's bucket holds its bytes, which it takes from each, and stalls otherwise, each bucket's first stall recorded with the region,
the port and the mask; a stalled one stays so while the book is full (R360). How the record's A1 names class and die is the model's (log 73). -/
def Obligations.HallMonitor : Prop :=
  (∀ (s : State),
    let t := refillDue s
    Runs .bucketRefill s t ∧ { t with mgmt := s.mgmt, regions := s.regions } = s ∧ { t.mgmt with usDone := s.mgmt.usDone } = s.mgmt ∧
    (s.time / 100 ≤ s.mgmt.usDone → t = s) ∧
    (s.mgmt.usDone < s.time / 100 → t.mgmt.usDone = s.time / 100 ∧
      ∀ g, { t.region g with buckets := (s.region g).buckets } = s.region g ∧ ∀ j,
        let b := (s.region g).buckets.get {} j
        (t.region g).buckets.get {} j = { b with credit := min b.depth (b.credit + (s.time / 100 - s.mgmt.usDone) * b.rate) })) ∧
  (∀ (s₀ : State) (h : Nat) (v : Word),
    let s := refillDue s₀
    let sel := (s.hart h).k.khmsel
    let g := sel.toNat % 16
    let cls := sel.toNat / 16 % 4
    let die := sel.toNat / 512 % 2
    let old := s.region g
    let wrote := fun (t : State) (new : Region) => t.regions = s.regions.set {} g new ∧ { t with regions := s.regions, book := s.book, harts := s.harts } = s
    let keeps := fun (t : State) => ∀ k, { t.hart k with mtaint := (s.hart k).mtaint } = s.hart k ∧ ∀ i < 16, (t.hart k).mtaint.getLsbD i =
      ((s.hart k).mtaint.getLsbD i || (s.hart k).live && (s.hart k).priv == .m && (s.region i).en)
    let outcome := fun (t : State) (new : Region) (locked record : Prop) =>
      (locked → t = s) ∧ (¬ locked → ¬ record → wrote t new ∧ t.book = s.book ∧ t.harts = s.harts) ∧ (¬ locked → record → bookFull s = true → t = s) ∧
        (¬ locked → record → bookFull s = false → wrote t new ∧ t.book.next = s.book.next + 1 ∧ keeps t)
    (let new : Region := { old with en := bitOf v 63, conf := bitOf v 62, lock := bitOf v 61, fn := fld v 0 8 }
     outcome (khmctlWrite s₀ h v) new
       (old.lock = true ∧ (old.en = true ∧ new.en = false ∨ old.conf = true ∧ new.conf = false ∨ new.lock = false ∨ old.fn ≠ new.fn))
       (¬ (old.en = new.en ∧ old.conf = new.conf ∧ old.lock = new.lock))) ∧
    (∃ new : Region, (∀ i < 256, new.doms.getLsbD i = if i / 64 = sel.toNat / 1024 then bitOf v (i % 64) else old.doms.getLsbD i) ∧ { new with doms := old.doms } = old ∧
      outcome (khmdomWrite s₀ h v) new (old.lock = true ∧ ∃ i < 256, old.doms.getLsbD i = true ∧ new.doms.getLsbD i = false) (new.doms ≠ old.doms)) ∧
    (let b := old.buckets.get {} (2 * cls + die)
     let e : Bucket := { b with rate := fld v 40 24, depth := fld v 0 40 }
     let new : Region := { old with buckets := old.buckets.set {} (2 * cls + die) e }
     outcome (khmrateWrite s₀ h v) new (old.lock = true ∧ (b.rate < e.rate ∨ b.depth < e.depth)) (new.buckets ≠ old.buckets))) ∧
  ∀ (s₀ : State),
    let s := refillDue s₀
    ((∀ e ∈ s.egress, ¬ (e.die = s.ev.a ∧ e.cls = s.ev.b)) → Runs .egressTransaction s₀ s) ∧
    ∀ (i : Nat) (e : Egress), s.egress[i]? = some e → e.die = s.ev.a → e.cls = s.ev.b →
      (∀ j e', j < i → s.egress[j]? = some e' → ¬ (e'.die = e.die ∧ e'.cls = e.cls)) →
      let b := fun (t : State) (g : Nat) => (t.region g).buckets.get {} (2 * e.cls + e.die)
      let meters := fun g => g < 16 ∧ e.mask.getLsbD g = true ∧ (s.region g).en = true
      let held := bookFull s = true ∧ ∃ g, meters g ∧ (b s g).stall = true
      let fresh := (List.range 16).filter fun g => e.mask.getLsbD g && (s.region g).en && decide ((b s g).credit < e.bytes.length) && !(b s g).stall
      (held → Runs .egressTransaction s₀ s) ∧
      (¬ held → (∀ g, meters g → e.bytes.length ≤ (b s g).credit) → ∃ t, Runs .egressTransaction s₀ t ∧ t.egress = s.egress.eraseIdx i ∧
        t.sent = s.sent ++ [{ cls := e.cls, die := e.die, pa := e.pa, bytes := e.bytes }] ∧
        (∀ g, b t g = if g < 16 ∧ e.mask.getLsbD g = true ∧ (s.region g).en = true then { b s g with credit := (b s g).credit - e.bytes.length, stall := false }
          else b s g) ∧ { t with egress := s.egress, sent := s.sent, regions := s.regions } = s) ∧
      (¬ held → (∃ g, meters g ∧ (b s g).credit < e.bytes.length) → ∃ t, Runs .egressTransaction s₀ t ∧ t.egress = s.egress ∧ t.sent = s.sent ∧
        (∀ g, b t g = if g < 16 ∧ e.mask.getLsbD g = true ∧ (s.region g).en = true ∧ (b s g).credit < e.bytes.length then { b s g with stall := true } else b s g) ∧
        { t with regions := s.regions, book := s.book } = s ∧
        t.book = (fresh.foldl (fun u g => bookAppend u 5 (s.region g).fn 0 0 [word g, word (e.die * 2 ^ 9 + e.cls * 2 ^ 4), word e.mask.toNat]) s).book) ∧
      ∀ (u : State) (g : Nat) (args : List Word), args.length ≤ 9 →
        (bookFull u = true → (bookAppend u 5 g 0 0 args).book = { u.book with pend := u.book.pend ++ [{ hd := word (5 + g * 2 ^ 16), args := args }] }) ∧
        (bookFull u = false → (bookAppend u 5 g 0 0 args).book.next = u.book.next + 1 ∧ (bookAppend u 5 g 0 0 args).book.pend = u.book.pend ∧
          ∃ r, (bookAppend u 5 g 0 0 args).book.recs.getLast? = some r ∧ r.key = u.key 1 ∧
            r.words.take (3 + args.length) = [word u.book.next, word u.time, word (5 + g * 2 ^ 16)] ++ args)

/-- R337, R336, R346 to R349: a call of Mladotte does its effect and returns past the `ecall` with its status in a0 and its result in a1; from U mode or with a function above 8 it
is refused; enter and exit wait for the operations of the core's harts, extend for the hart's copies, and calls that take translations out or access memory for what is under
way there. The effects: a new enclave; a page added, a code page measured, its PTE marked and its frame recorded; bytes
measured after finalize too; the measurement closed; a core switched to an enclave or back, what runs there parked and what was parked of the enclave back, with empty private caches
and the enclave's PMP entries and `kdom`; an enclave destroyed with its keys; a key unwrapped; the report. The lowest EID and slot, −3 for poison, the measurement's start and a write
into a line whose tag fails are the model's (log 30), as are the ninth enclave's refusal, the parked state, the free values of a first entry and the return of cores at a destruction (log 31). -/
def Obligations.Enclaves : Prop :=
  (∀ (s : State) (i : Instr) (n : Nat) (eff : State → Nat → State × Int × Option Word), (i, n, eff) ∈ mladotteCalls →
     let h := s.ev.a
     let x := s.hart h
     let inM := x.priv = .m ∧ x.getX 17 = 0x4B4D
     let waits := callWaits s h n = true
     let back := fun (t : State) (u : State) (st : Int) (r : Option Word) => ∃ y, t = u.setHart h y ∧ y.getX 10 = BitVec.ofInt 64 st ∧
       (∀ v, r = some v → y.getX 11 = v) ∧ (∀ k, k ≠ 10 → (k ≠ 11 ∨ r = none) → y.getX k = (u.hart h).getX k) ∧ y.pc = (u.hart h).csr.mepc + 4 ∧
       y.priv = Priv.ofCode (fld (u.hart h).csr.mstatus 11 2)
     (waits → Runs i s s) ∧
     (¬ waits → inM → (x.csr.mcause = 8 ∨ x.csr.mcause = 9 ∧ 8 < (x.getX 16).toNat) → ∃ t, Runs i s t ∧ back t s (-1) none) ∧
     (¬ waits → inM → x.csr.mcause = 9 → x.getX 16 = word n → ∃ t u st r, Runs i s t ∧ eff s h = (u, st, r) ∧ back t u st r) ∧
     ((¬ inM ∨ x.csr.mcause ≠ 8 ∧ x.csr.mcause ≠ 9 ∨ x.csr.mcause = 9 ∧ (x.getX 16).toNat ≤ 8 ∧ x.getX 16 ≠ word n) → Runs i s s)) ∧
  ∀ (s : State) (h : Nat),
    (∀ n, callWaits s h n = true →
      (n = 1 ∨ n = 2 ∨ n = 3 ∨ n = 7 ∨ n = 8) ∧ flipsOpen s = true ∨ n = 2 ∧ copiesOpen s h = true ∨ (n = 4 ∨ n = 5) ∧ switchWaits s h = true ∨
        (n = 1 ∨ n = 2 ∨ n = 6) ∧ ∃ v, contribOn s v = true) ∧
    let x := s.hart h
    let core := coreOf h
    let rec_ := fun (t : State) => t.book.next = s.book.next + 1
    let bares := fun (a n : Nat) => ∀ i < n, bareKey s (a + i) = 0 ∧ isPeer ((a + i) / 128) = false
    let broken := fun (a n : Nat) => ∃ l ∈ linesOf a n, tagOk s (bareKey s (128 * l)) l = false ∧ ¬ (a ≤ 128 * l ∧ 128 * l + 128 ≤ a + n)
    let noted := fun (r : State × Int × Option Word) => r.2 = (-3, none) ∧ { r.1 with book := s.book } = s ∧ (bookFull s = false → rec_ r.1)
    let outside := fun (t : State) (a n : Nat) => ∀ b, b / 128 ∉ linesOf a n → isPeer (b / 128) = false → rawByte t b = rawByte s b
    let switched := fun (t : State) (eid : Nat) =>
      let old := (s.core core).kencl.toNat
      let p := (s.core core).parked.get {} eid
      let q := (t.core core).parked.get {} old
      let bare := fun (g : Nat) => (t.hart g).v = [] ∧ (t.hart g).m = [] ∧ (t.hart g).f = [] ∧ (t.hart g).kms = []
      (t.core core).kencl.toNat = eid ∧ (t.core core).l1 = [] ∧ (t.core core).icache = [] ∧ (t.core core).ops = p.ops ∧ (t.core core).accs = p.accs ∧
      q.ops = (s.core core).ops ∧ q.accs = (s.core core).accs ∧ (t.core core).parked.get {} eid = {} ∧
      (∀ g, coreOf g = core → (s.hart g).live = true → (s.hart g).bind ≠ .none → boundEid s g = some old →
        ∃ y, (g, y) ∈ q.harts ∧ y.v = (s.hart g).v ∧ y.m = (s.hart g).m ∧ y.f = (s.hart g).f ∧ y.inbox = (s.hart g).inbox) ∧
      (∀ g ∈ coreHarts core, (g, (s.hart g).csr.pmpcfg, (s.hart g).csr.pmpaddr, (s.hart g).k.kdom) ∈ q.prots ∧
        match p.prots.find? fun z => z.1 == g with
        | some (_, cfg, adr, dom) => (t.hart g).csr.pmpcfg = cfg ∧ (t.hart g).csr.pmpaddr = adr ∧ (t.hart g).k.kdom = dom
        | none => (t.hart g).k.kdom = Config.entryKdom eid g ∧ ∀ i < 64, (t.hart g).csr.pmpcfg.get 0 i = Config.entryPmpcfg eid g i ∧
            (t.hart g).csr.pmpaddr.get 0 i = Config.entryPmpaddr eid g i) ∧
      (∀ g, coreOf g = core → (∀ z ∈ p.harts, z.1 ≠ g) → bare g) ∧
      (∀ g y, coreOf g = core → (g, y) ∈ p.harts → (∀ z ∈ p.harts, z.1 = g → z = (g, y)) →
        if (s.hart g).bind = y.bind then (t.hart g).v = y.v ∧ (t.hart g).m = y.m ∧ (t.hart g).f = y.f ∧ (t.hart g).inbox = y.inbox else bare g) ∧
      ∀ g, coreOf g ≠ core → (∀ z ∈ p.harts, z.1 ≠ g) → { t.hart g with held := (s.hart g).held } = s.hart g
    ((∀ j < 65535, (s.enclaves.get {} (j + 1)).alive = true) → callCreate s h = (s, -1, none)) ∧
    (∀ e, (∀ j < e, (s.enclaves.get {} (j + 1)).alive = true) → e < 65535 → (s.enclaves.get {} (e + 1)).alive = false →
      (bookFull s = true → callCreate s h = (s, -4, none)) ∧
      (bookFull s = false → ∃ t sl, callCreate s h = (t, 0, some (word (e + 1))) ∧ rec_ t ∧
        t.enclaves.get {} (e + 1) = { alive := true, slot := sl, fn := x.fn, meas := Config.measureStart } ∧
        (∀ y ∈ s.enclaves, y.2.alive = true → y.2.fn = x.fn → y.2.slot ≠ sl) ∧
        (∀ j, j ≠ e + 1 → t.enclaves.get {} j = s.enclaves.get {} j) ∧ { t with enclaves := s.enclaves, book := s.book } = s)) ∧
    (callEnclave s h = none → callAddPage s h = (s, -1, none) ∧ callExtend s h = (s, -1, none) ∧ callFinalize s h = (s, -1, none) ∧ callEnter s h = (s, -1, none) ∧
      callDestroy s h = (s, -1, none) ∧ callUnwrap s h = (s, -1, none) ∧ callReport s h = (s, -1, none)) ∧
    (∀ e y, callEnclave s h = some (e, y) →
      (word e = x.getX 10 ∧ y = s.enclaves.get {} e ∧ y.alive = true ∧ y.fn = x.fn) ∧
      (let va := x.getX 11
       let code := (x.getX 12).toNat
       (y.final = true ∨ 1 < code ∨ fld va 0 16 ≠ 0 ∨ callPage s y.fn va = none → callAddPage s h = (s, -1, none)) ∧
       (∀ p at_, y.final = false → fld va 0 16 = 0 → callPage s y.fn va = some (p, at_) →
         let pages := y.pages ++ [(p.vpn, p.pa / 65536)]
         (code = 0 → callAddPage s h = ({ s with enclaves := s.enclaves.set {} e { y with pages := pages } }, 0, none)) ∧
         (code = 1 → bitOf (mfEntry s (p.pa / 65536)) 63 = true → callAddPage s h = (s, -1, none)) ∧
         (∀ pa, code = 1 → bitOf (mfEntry s (p.pa / 65536)) 63 = false → pageBytes s p 0 65536 = .error pa → ∃ t, callAddPage s h = (t, -3, none) ∧
           { t with book := s.book } = s ∧ (tagOk s p.key (pa / 128) = true → t = s) ∧ (tagOk s p.key (pa / 128) = false → bookFull s = false → rec_ t)) ∧
         (∀ bs, code = 1 → bitOf (mfEntry s (p.pa / 65536)) 63 = false → pageBytes s p 0 65536 = .ok bs → ∃ t, callAddPage s h = (t, 0, none) ∧
           t.enclaves.get {} e = { y with pages := pages, meas := sm3 (digestBytes y.meas ++ natToLe 8 va.toNat ++ digestBytes (sm3 bs)) } ∧
           t.harts = s.harts ∧ t.book = s.book ∧
           (at_ + 8 ≤ s.mgmt.kmfmap.toNat → p.pa < 2 ^ 40 → bitOf (rawWord t at_) 4 = true ∧ bitOf (rawWord t at_) 5 = true ∧
             bitOf (mfEntry t (p.pa / 65536)) 63 = true ∧ fld (mfEntry t (p.pa / 65536)) 16 39 = p.vpn % 2 ^ 39 ∧
             fld (mfEntry t (p.pa / 65536)) 0 16 = e % 2 ^ 16)))) ∧
      (let va := x.getX 11
       let n := (x.getX 12).toNat
       let inside := 0 < n ∧ n ≤ 65536 * y.pages.length ∧ ∀ v ∈ pagesOf va n, ∃ p at_, callPage s y.fn v = some (p, at_) ∧ (p.vpn, p.pa / 65536) ∈ y.pages
       let ps := (pagesOf va n).filterMap (callPage s y.fn)
       let u := ps.foldl (fun u p => markPage u p.1 p.2) s
       (¬ inside → callExtend s h = (s, -1, none)) ∧ (inside → bookFull s = true → callExtend s h = (s, -4, none)) ∧
       (inside → bookFull s = false → ∀ r, pagesBytes u (ps.map (·.1)) (va.toNat % 65536) n = .error r →
         ∃ t, callExtend s h = (t, -3, none) ∧ t.harts = s.harts ∧ { t with book := s.book } = u) ∧
       (inside → bookFull s = false → ∀ bs, pagesBytes u (ps.map (·.1)) (va.toNat % 65536) n = .ok bs →
         ∃ t, callExtend s h = (t, 0, none) ∧ rec_ t ∧ t.harts = s.harts ∧
         t.enclaves.get {} e = { y with meas := sm3 (digestBytes y.meas ++ natToLe 8 va.toNat ++ natToLe 8 n) })) ∧
      ((y.final = true → callFinalize s h = (s, -1, none)) ∧ (y.final = false → bookFull s = true → callFinalize s h = (s, -4, none)) ∧
       (y.final = false → bookFull s = false → broken s.ev.w.toNat 32 → noted (callFinalize s h)) ∧
       (y.final = false → bookFull s = false → ¬ broken s.ev.w.toNat 32 → ∃ t, callFinalize s h = (t, 0, some s.ev.w) ∧ rec_ t ∧ t.enclaves.get {} e = { y with final := true } ∧
         outside t s.ev.w.toNat 32 ∧ (bares s.ev.w.toNat 32 → rawBytes t s.ev.w.toNat 32 = digestBytes y.meas))) ∧
      (let res := (s.core core).resident
       let n := if (usableMasks s y.fn e 512 8).all (· == 0) then 1 else 2
       (8 ≤ res.length → e ∉ res → callEnter s h = (s, -1, none)) ∧
       (res.length < 8 ∨ e ∈ res → bookRoom s n = false → callEnter s h = (s, -4, none)) ∧
       (res.length < 8 ∨ e ∈ res → bookRoom s n = true → ∃ t, callEnter s h = (t, 0, none) ∧ SameMemory s t ∧ t.book.next = s.book.next + n ∧
         e ∈ (t.core core).resident ∧ (t.core core).resident.length ≤ max 8 res.length ∧
         ((s.core core).kencl.toNat = e → t.harts = s.harts ∧ { t.core core with resident := res } = s.core core) ∧
         ((s.core core).kencl.toNat ≠ e → switched t e))) ∧
      (let ks := enclaveKeys s y.fn e
       (bookRoom s (1 + ks.length) = false → callDestroy s h = (s, -4, none)) ∧
       (bookRoom s (1 + ks.length) = true → ∃ t, callDestroy s h = (t, 0, none) ∧ t.book.next = s.book.next + 1 + ks.length ∧ t.enclaves.get {} e = {} ∧
         (SMap.wf {} s.keys = true → ∀ k, 4 ≤ k → ¬ ((t.key k).loaded = true ∧ (t.key k).fn = y.fn ∧ (t.key k).eid = e)) ∧
         (SMap.wf {} s.cores = true → ∀ c, (t.core c).kencl.toNat ≠ e) ∧ ∀ c, e ∉ (t.core c).resident)) ∧
      (∀ t st, keyOp s core 2 (s.ev.b % 1024) y.fn e (x.getX 11) = (t, st) →
        callUnwrap s h = (t, if st = 0 then 0 else if st = 3 then -2 else if st = 4 then -3 else if st = 5 then -4 else -1,
          if st = 0 then some (word (s.ev.b % 1024)) else none)) ∧
      (let bs := reportBlocks s y.fn
       let a := (x.getX 11).toNat
       let bad := fun l => backed s (128 * l) = false ∨ paKind (128 * l) = .mmio ∨ homePoison s l = true ∨ tagOk s (bareKey s (128 * l)) l = false
       ((∀ l ∈ linesOf a 32, ¬ bad l) → ∃ nonce, bareRead s a 32 = .ok nonce ∧ ((∀ l ∈ linesOf a 32, bareKey s (128 * l) = 0) → nonce = rawBytes s a 32)) ∧
       ((∃ l ∈ linesOf a 32, bad l) → ∃ t, callReport s h = (t, -3, none) ∧ { t with book := s.book } = s) ∧
       ∀ nonce, bareRead s a 32 = .ok nonce →
         let out := bs ++ natToBe 64 (sm2Sign (sm3 (bs ++ nonce))).toNat
         (broken s.ev.w.toNat out.length → noted (callReport s h)) ∧
         (¬ broken s.ev.w.toNat out.length → ∃ t, callReport s h = (t, 0, some s.ev.w) ∧ t.book = s.book ∧ t.enclaves = s.enclaves ∧
           outside t s.ev.w.toNat out.length ∧ (bares s.ev.w.toNat out.length → rawBytes t s.ev.w.toNat out.length = out)))) ∧
    ((s.core core).kencl = 0 → callExit s h = (s, 0, none)) ∧
    ((s.core core).kencl ≠ 0 → ∃ t, callExit s h = (t, 0, none) ∧ SameMemory s t ∧ t.book = s.book ∧ switched t 0)

/-- R356 to R362, R349: an acknowledgement moves ACK within its bounds and lets waiting appends in; a signature record takes the next number while the book has room; the host reads a
measurement block signed over its nonce, a fresh slate nonce, and any register of the range; a token that fails, or meets a full book, changes nothing but the book, and one that passes wipes the device into
its mode; leaving RUN resets the function, which leaves none of its queues, classes, launches, keys, enclaves, mappings, biases or guarded regions, and no slab out of cache mode
but those that are on their way there (R72). The free nonce is the model's (log 12), and which harts and slabs the reset takes and when (log 32). -/
def Obligations.BookAndResets : Prop :=
  ∀ (s : State),
    (((s.ev.w.toNat < s.book.ack ∨ s.book.next < s.ev.w.toNat) → Runs .bookackWrite s s) ∧
     (s.book.ack ≤ s.ev.w.toNat → s.ev.w.toNat ≤ s.book.next → ∃ t, Runs .bookackWrite s t ∧ t.book.ack = s.ev.w.toNat ∧ SameMemory s t ∧ t.harts = s.harts ∧
       (s.book.pend = [] → t = { s with book := { s.book with ack := s.ev.w.toNat } }) ∧
       t.book.next + t.book.pend.length = s.book.next + s.book.pend.length ∧ (t.book.pend = [] ∨ 2 ^ 20 - 1 ≤ t.book.next - t.book.ack))) ∧
    Runs .booksignRequest s (if bitOf s.ev.w 0 then { s with book := { s.book with signReq := true } } else s) ∧
    ((s.book.due = false ∧ s.book.signReq = false ∨ bookFull s = true → Runs .signedHead s s) ∧
     ((s.book.due = true ∨ s.book.signReq = true) → bookFull s = false → ∃ t, Runs .signedHead s t ∧ { t with book := s.book } = s ∧ t.book.next = s.book.next + 1 ∧
       t.book.signs = s.book.signs + 1 ∧ (s.book.due = true → t.book.signReq = s.book.signReq) ∧ (s.book.due = false → t.book.signReq = false) ∧
       ∃ r, t.book.recs.getLast? = some r ∧ nth 0 r.words 0 = word s.book.next ∧ nth 0 r.words 2 = 0xF0 ∧
         nth 0 r.words 3 = word (s.mgmt.epoch * 2 ^ 48 + s.book.signs % 2 ^ 48) ∧ r.key = s.key 1)) ∧
    (∀ d, (s.ev.w = 0x12 ∨ s.ev.w = 0x13) → measBlock s s.ev.a s.ev.b = some d → ∃ t m, Runs .spdmRequest s t ∧ { t with sent := s.sent } = s ∧ t.sent = s.sent ++ [m] ∧
      m.die = nth 0 s.ev.nums 0 % 2 ∧ m.bytes = digestBytes d ++ natToBe 64 (sm2Sign (sm3 (digestBytes d ++ s.ev.bytes))).toNat) ∧
    ((¬ (s.ev.w = 0x12 ∨ s.ev.w = 0x13) ∨ measBlock s s.ev.a s.ev.b = none) → Runs .spdmRequest s s) ∧
    (s.ev.b ≠ 1 → (s.ev.w = 0 ∨ s.ev.w = 0xF001000000200) → ∃ t n m, Runs .slatenonceRead s t ∧ t.mgmt = { s.mgmt with nonce := some n } ∧ t.sent = s.sent ++ [m] ∧ m.bytes = natToLe 8 n.toNat ∧
      n = Config.freeValue s.freeCtr ∧ { t with mgmt := s.mgmt, sent := s.sent, freeCtr := s.freeCtr } = s) ∧
    (s.ev.b = 1 → ∃ m, Runs .slatenonceRead s { s with sent := s.sent ++ [m] } ∧ m.bytes = natToLe 8 (if s.ev.w = 0x0C then readyWord s.mgmt else 0).toNat) ∧
    (s.ev.b ≠ 1 → s.ev.w ≠ 0 → (s.ev.w.toNat < 15 * 2 ^ 48 ∨ s.ev.w.toNat % 8 ≠ 0) → Runs .slatenonceRead s s) ∧
    (∀ u v, s.ev.b ≠ 1 → s.ev.w ≠ 0 → 15 * 2 ^ 48 ≤ s.ev.w.toNat → s.ev.w.toNat % 8 = 0 → mmioRead s true s.ev.w.toNat = (u, v) →
      ∃ m, Runs .slatenonceRead s { u with sent := u.sent ++ [m] } ∧ m.pa = s.ev.w.toNat ∧ m.bytes = natToLe 8 v.toNat) ∧
    (let u := { s with mgmt := { s.mgmt with token := s.mgmt.token.set 0 11 s.ev.w } }
     (bookFull s = true → Runs .slatetokenSubmit s u) ∧
     (bookFull s = false → tokenOk u = false → ∃ t, Runs .slatetokenSubmit s t ∧ { t with book := s.book } = u ∧ t.book.next = s.book.next + 1) ∧
     (bookFull s = false → tokenOk u = true → ∃ t, Runs .slatetokenSubmit s t ∧ t.mgmt.mode = (tokenWord u 3).toNat ∧ t.book.next = s.book.next + 1 ∧
       (∀ a, (∀ k, ∀ y ∈ s.allKlines k, y.isDirty = true → y.pl ≠ a / 128) → rawByte t a = rawByte s a ∧ t.line (a / 128) = s.line (a / 128)) ∧ t.mgmt.kmfmap = 0 ∧ t.keys = [] ∧ t.harts = [] ∧ t.cores = [] ∧ t.classes = [] ∧ t.funcs = [] ∧ t.enclaves = [] ∧ t.regions = [] ∧ t.queues = [] ∧
       t.launches = [] ∧ ∀ k, { t.cluster k with slots := [] } = {})) ∧
    (let f := s.ev.a
     let goes := fun (x : Tdisp) => ∃ t, Runs .tdispEnterRun s t ∧ { t with funcs := s.funcs } = s ∧ t.func f = { s.func f with tdisp := x } ∧ ∀ g, g ≠ f → t.func g = s.func g
     (s.ev.b = 1 → ((s.func f).tdisp = .unlocked → goes .locked) ∧ ((s.func f).tdisp ≠ .unlocked → Runs .tdispEnterRun s s)) ∧
     (s.ev.b ≠ 1 → ((s.func f).tdisp = .unlocked ∨ (s.func f).tdisp = .locked → goes .run) ∧
       ((s.func f).tdisp = .run ∨ (s.func f).tdisp = .error → Runs .tdispEnterRun s s)) ∧
     ((s.func f).tdisp ≠ .run → Runs .tdispLeaveRun s s) ∧
     ((s.func f).tdisp = .run → Runs .tdispLeaveRun s ((resetFunction s f).modFunc f fun x => { x with tdisp := if s.ev.b = 2 then .error else .unlocked })) ∧
     (SMap.wf {} s.harts = true → SMap.wf {} s.classes = true → SMap.wf {} s.enclaves = true → ∃ t, Runs .functionLevelReset s t ∧
       (∀ e, (t.enclaves.get {} e).alive = true → (t.enclaves.get {} e).fn ≠ f) ∧
       (∀ k i, (t.cluster k).mode i ≠ 0 → i ∈ (t.cluster k).recalled ∨ (t.cluster k).slabPhase ≠ 0 ∧ (t.cluster k).swSlab = i) ∧ t.func f = {} ∧ (∀ q, (t.queue q).fn = f → t.queue q = {}) ∧
       (∀ l ∈ t.launches, l.fn ≠ f) ∧ (∀ k, (t.cls k).live = true → (t.cls k).fn ≠ f) ∧ (∀ k, 4 ≤ k → (t.key k).loaded = true → (t.key k).fn ≠ f) ∧
       (∀ h, (s.hart h).live = true → (s.hart h).fn = f → (s.hart h).bind = .none → isService h = false → (t.hart h).live = false) ∧
       (∀ g, (t.region g).fn = f → t.region g = {}) ∧ (∀ p, t.devBias.get 0 p ≠ f + 1) ∧
       (bookFull s = false → t.book.next = s.book.next + 1 ∧ ∃ m, t.sent = s.sent ++ [m] ∧ m.bytes = [BitVec.ofNat 8 f]) ∧
       (bookFull s = true → t.sent = s.sent ∧ t.book.next = s.book.next ∧ t.book.pend.length = s.book.pend.length + 1)))

/-! ### Start-up, health, the host, links, Ethernet -/

/-- R410, R332, R341, R357, R358, R412 to R414: a cold reset gives the reset state, with the memories outside the device; each stage sets its bit once, in order, or stops with its FAIL code; from stage 2 on
Mladotte's region is open to M mode only, PMP entries 0 and 1 read as covering it, locked, and MML as set (log 10); the governor's requests and POINT at a millisecond boundary; droop, its end, the thermal trip of any sensor, the host's cap. From 95 to 100 degrees the thermal request stands as it is (log 36);
that HBM is zero after the cold reset, and the bytes of the host and the peers stand, is the model's (log 4). -/
def Obligations.StartUpAndHealth : Prop :=
  ∀ (s : State),
    (∃ t, Runs .coldReset s t ∧ (∀ a, rawByte t a = if a < 2 ^ 48 then 0 else rawByte s a) ∧ t.mgmt = { epoch := s.mgmt.epoch } ∧
      { t with mem := [], mgmt := {}, agenda := [], choices := [], freeCtr := 0, sent := [] } =
        { State.reset with mem := [], mgmt := {}, agenda := [], choices := [], freeCtr := 0, sent := [] }) ∧
    (s.mgmt.fail = 0 → Runs .stage0Complete s { s with mgmt := { s.mgmt with s0 := true } }) ∧ (s.mgmt.fail ≠ 0 → Runs .stage0Complete s s) ∧
    ((s.mgmt.s0 = false ∨ s.mgmt.s1 = true ∨ s.mgmt.fail ≠ 0) → Runs .stage1Complete s s) ∧
    (s.mgmt.s0 = true → s.mgmt.s1 = false → s.mgmt.fail = 0 →
      (1 ≤ s.ev.a → s.ev.a ≤ 3 → Runs .stage1Complete s { s with mgmt := { s.mgmt with fail := BitVec.ofNat 8 s.ev.a } }) ∧
      (¬ (1 ≤ s.ev.a ∧ s.ev.a ≤ 3) → 4096 ≤ s.mgmt.epoch → Runs .stage1Complete s { s with mgmt := { s.mgmt with fail := 4 } }) ∧
      (¬ (1 ≤ s.ev.a ∧ s.ev.a ≤ 3) → s.mgmt.epoch < 4096 → bookFull s = false → ∃ t, Runs .stage1Complete s t ∧
        t.mgmt = { s.mgmt with epoch := s.mgmt.epoch + 1, fw := s.ev.digest, s1 := true } ∧ t.book.next = s.book.next + 1 ∧ (t.key 1).loaded = true ∧
        (∀ k, k ≠ 1 → t.key k = s.key k) ∧ { t with mgmt := s.mgmt, book := s.book, keys := s.keys } = s ∧
        ∃ r, t.book.recs.getLast? = some r ∧ fld (nth 0 r.words 2) 0 16 = 6 ∧ nth 0 r.words 3 = 1) ∧
      (¬ (1 ≤ s.ev.a ∧ s.ev.a ≤ 3) → s.mgmt.epoch < 4096 → bookFull s = true → ∃ t, Runs .stage1Complete s t ∧
        t.mgmt = { s.mgmt with epoch := s.mgmt.epoch + 1, fw := s.ev.digest, s1 := true } ∧ t.book.pend.length = s.book.pend.length + 1 ∧ (t.key 1).loaded = true ∧
        { t with mgmt := s.mgmt, book := s.book, keys := s.keys } = s)) ∧
    ((s.mgmt.s1 = false ∨ s.mgmt.s2 = true ∨ s.mgmt.fail ≠ 0) → Runs .stage2Complete s s) ∧
    (s.mgmt.s1 = true → s.mgmt.s2 = false → s.mgmt.fail = 0 →
      (s.ev.a = 5 → Runs .stage2Complete s { s with mgmt := { s.mgmt with fail := 5 } }) ∧
      (s.ev.a ≠ 5 → (bookFull s = true ∨ nth 0 s.ev.nums 1 = 0) → Runs .stage2Complete s s) ∧
      (s.ev.a ≠ 5 → bookFull s = false → nth 0 s.ev.nums 1 ≠ 0 → ∃ t, Runs .stage2Complete s t ∧
        t.mgmt = { s.mgmt with mlad := s.ev.digest, mlBase := nth 0 s.ev.nums 0, mlSize := nth 0 s.ev.nums 1, s2 := true } ∧
        t.book.next = s.book.next + 1 ∧ (t.key 2).loaded = true ∧ { t with mgmt := s.mgmt, book := s.book, keys := s.keys, mem := s.mem, lines := s.lines } = s ∧
        (∀ a, bareKey t (a / 128 * 128) = 0 → rawByte t a = rawByte s a ∧ t.line (a / 128) = s.line (a / 128)) ∧
        (∀ h p pa r w x, nth 0 s.ev.nums 0 ≤ pa → pa < nth 0 s.ev.nums 0 + nth 0 s.ev.nums 1 → pmpPasses t (t.hart h).csr p pa r w x = (p == .m)) ∧
        (∀ h, ∃ m e, csrRead t h 0x747 = some m ∧ bitOf m 0 = true ∧ csrRead t h 0x3A0 = some e ∧ bitOf e 7 = true ∧ bitOf e 15 = true ∧
          (let c := pmpSeen t (t.hart h).csr
           c.pmpaddr.get 0 0 = word (nth 0 s.ev.nums 0 / 4) ∧ c.pmpaddr.get 0 1 = word ((nth 0 s.ev.nums 0 + nth 0 s.ev.nums 1) / 4) ∧ (c.pmpcfg.get 0 1).toNat / 8 % 4 = 1)))) ∧
    ((s.time / 100000 ≤ s.mgmt.msDone → Runs .operatingPointUpdate s s) ∧
     (s.mgmt.msDone < s.time / 100000 → (∃ x ∈ s.ev.nums.take 144, 115 ≤ x) → ∃ t, Runs .operatingPointUpdate s t ∧ t.mgmt.railsCut = true ∧ t.mgmt.fail = 6 ∧
       t.mgmt.msDone = s.mgmt.msDone + 1 ∧ (∀ i < 128, t.island i = { s.island i with temp := nth (s.island i).temp s.ev.nums i }) ∧ { t with mgmt := s.mgmt } = s) ∧
     (s.mgmt.msDone < s.time / 100000 → (∀ x ∈ s.ev.nums.take 144, x < 115) → ∃ t, Runs .operatingPointUpdate s t ∧ t.mgmt.msDone = s.mgmt.msDone + 1 ∧ t.mgmt.pwrnow = s.ev.a ∧ { t with mgmt := s.mgmt, harts := s.harts } = s ∧
       (∀ h, { t.hart h with csr := { (t.hart h).csr with mip := (s.hart h).csr.mip } } = s.hart h ∧ ((∀ d < 8, h ≠ serviceHart d) → t.hart h = s.hart h)) ∧
       ∀ i < 128,
         let x := s.island i
         let y := t.island i
         let above := s.mgmt.pwrlim < s.ev.a
         let hot := ∃ b ∈ s.ev.bytes, b.toNat = i
         y.temp = nth x.temp s.ev.nums i ∧ y.cap = x.cap ∧ y.droop = x.droop ∧ y.stretch = x.stretch ∧ y.till = x.till ∧
         (100 ≤ y.temp → y.thermal = min 7 (x.point + 1)) ∧ (y.temp < 95 → y.thermal = x.point - 1) ∧ (95 ≤ y.temp → y.temp < 100 → y.thermal = x.thermal) ∧
         (above → hot → y.power = min 7 (x.power + 1)) ∧ (above → ¬ hot → y.power = x.power) ∧ (¬ above → y.power = x.power - 1) ∧
         y.point = max (max y.thermal y.power) y.cap ∧
         (x.point < y.point → y.cap < y.point → bitOf (t.hart (serviceHart (i / 16))).csr.mip 21 = true) ∧
         (y.point < x.point → max x.thermal x.power = x.point → bitOf (t.hart (serviceHart (i / 16))).csr.mip 21 = true))) ∧
    (128 ≤ s.ev.a → Runs .droopDetectorFire s s ∧ Runs .islstCapWrite s s) ∧
    ((s.island s.ev.a).stretch = true → (s.island s.ev.a).till ≤ s.clock → ∃ t, Runs .droopStretchEnd s t ∧ t.island s.ev.a = { s.island s.ev.a with stretch := false } ∧
      (∀ i, i ≠ s.ev.a → t.island i = s.island i) ∧ { t with mgmt := s.mgmt } = s) ∧
    ((s.island s.ev.a).stretch = false ∨ s.clock < (s.island s.ev.a).till → Runs .droopStretchEnd s s) ∧
    (115 ≤ s.ev.b → ∃ t, Runs .thermalTrip s t ∧ t.mgmt.railsCut = true ∧ t.mgmt.fail = 6 ∧ { t with mgmt := s.mgmt } = s ∧
      (s.ev.a < 128 → (t.island s.ev.a).temp = s.ev.b) ∧ (128 ≤ s.ev.a → t.mgmt.hbm.get 0 (s.ev.a % 16) = s.ev.b)) ∧
    (s.ev.a < 128 →
      (∃ t n, Runs .droopDetectorFire s t ∧
        t.island s.ev.a = { s.island s.ev.a with droop := min 255 ((s.island s.ev.a).droop + 1), stretch := true, till := s.clock + n } ∧
        ((s.island s.ev.a).point ≤ 7 → 128 * 21 ≤ n * (21 - 2 * (s.island s.ev.a).point) ∧ (n - 1) * (21 - 2 * (s.island s.ev.a).point) < 128 * 21) ∧
        (∀ i, i ≠ s.ev.a → t.island i = s.island i) ∧ { t with mgmt := s.mgmt } = s) ∧
      (∃ t, Runs .islstCapWrite s t ∧ (t.island s.ev.a).cap = fld s.ev.w 16 3 ∧ { t with mgmt := s.mgmt } = s ∧
        (∀ i < 8, (t.island s.ev.a).droop.testBit i = ((s.island s.ev.a).droop.testBit i && !bitOf s.ev.w i)) ∧
        { t.island s.ev.a with cap := (s.island s.ev.a).cap, droop := (s.island s.ev.a).droop } = s.island s.ev.a ∧
        ∀ i, i ≠ s.ev.a → t.island i = s.island i)) ∧
    (s.ev.b < 115 → Runs .thermalTrip s s) ∧
    ∀ a b : Bool, fld (readyWord { s.mgmt with s0 := a, s1 := b, s2 := true }) 0 3 = (if a then 1 else 0) + (if b then 2 else 0) + 4

/-- R133, R135, R405 to R408: what the host reads and writes of HBM, its recalled of a line of its window, with data or without, the training and failure of a link, and a peer's access, accepted or
refused. What waits to leave when a link fails is replayed on the recomputed plane, and reads that cannot be complete as poison. What an agent outside writes goes to the home: cached copies leave first, dirty data to the peer whose window they lie in. A peer's page is backed only while the link reports the device. The
answers' places in the model's record of what leaves the device are its own, as are the reads that a failure names (log 16); the reservations that a write ends are those
of the 128-byte line (log 15). -/
def Obligations.HostAndPeers : Prop :=
  ∀ (s : State),
    let sends := fun (i : Instr) (m : Egress) => Runs i s { s with egress := s.egress ++ [m] }
    let takes := fun (i : Instr) (pa : Nat) (bs : List Byte) => ∃ t, Runs i s t ∧ rawBytes t pa bs.length = bs ∧
      (∀ a, a < pa ∨ pa + bs.length ≤ a → isPeer (a / 128) = false → rawByte t a = rawByte s a) ∧ (∀ l ∈ linesOf pa bs.length, (t.line l).tag = 0) ∧
      (∀ h, { t.hart h with resv := (s.hart h).resv } = s.hart h) ∧
      (SMap.wf {} s.harts = true → ∀ h l, h ≠ 8192 → (s.hart h).resv = some l → l ∈ linesOf pa bs.length → (t.hart h).resv = none) ∧
      { t with mem := s.mem, lines := s.lines, harts := s.harts, clusters := s.clusters, dies := s.dies, egress := s.egress, choices := s.choices, walkers := s.walkers } = s
    (let pa := s.ev.a / 64 * 64
     let d := s.ev.b % 2
     (hostBacked s pa = false → sends .hostCxlMemRead { die := d, pa := pa, bytes := List.replicate 64 0xFF }) ∧
     (hostBacked s pa = true → flipHeld s pa = true → Runs .hostCxlMemRead s { s with agenda := s.agenda ++ [.event .hostCxlMemRead s.ev] }) ∧
     (hostBacked s pa = true → flipHeld s pa = false →
       sends .hostCxlMemRead { die := d, mask := pageRegions s pa, pa := pa, bytes := if poisonAt s pa 64 then [] else rawBytes s pa 64 })) ∧
    (hostBacked s s.ev.a = false → Runs .hostCxlMemWrite s s) ∧
    (hostBacked s s.ev.a = true → flipHeld s s.ev.a = true → Runs .hostCxlMemWrite s { s with agenda := s.agenda ++ [.event .hostCxlMemWrite s.ev] }) ∧
    (hostBacked s s.ev.a = true → flipHeld s s.ev.a = false → takes .hostCxlMemWrite s.ev.a (s.ev.bytes.take (64 - s.ev.a % 64))) ∧
    (∀ pa, hostBacked s pa = true → s.mgmt.s2 = true ∧ paKind pa = .hbm ∧ ¬ (s.mgmt.mlBase ≤ pa ∧ pa < s.mgmt.mlBase + s.mgmt.mlSize)) ∧
    (let pa := s.ev.a / 64 * 64
     (paKind pa ≠ .host → Runs .hostCxlCacheSnoop s s) ∧ (paKind pa = .host → s.ev.b ≠ 0 → takes .hostCxlCacheSnoop pa (s.ev.bytes.take 64)) ∧
     (paKind pa = .host → s.ev.b = 0 → (∃ t, Runs .hostCxlCacheSnoop s t ∧ CacheMoves s t) ∧ (s.dir (pa / 128) = none → Runs .hostCxlCacheSnoop s s))) ∧
    (s.ev.a < 24 → s.ev.b < 192 → ∃ t, Runs .linkTraining s t ∧ t.mgmt.podValid = true ∧ t.mgmt.pod = BitVec.ofNat 8 s.ev.b ∧ t.mgmt.links.get false s.ev.a = true ∧
      t.mgmt.peers = s.ev.nums ∧ (∀ k, k ≠ s.ev.a → t.mgmt.links.get false k = s.mgmt.links.get false k) ∧ { t with mgmt := s.mgmt } = s) ∧
    (24 ≤ s.ev.a ∨ 192 ≤ s.ev.b → Runs .linkTraining s s) ∧
    (∃ t, Runs .linkFailure s t ∧ (∀ k, t.mgmt.links.get false k = if k = s.ev.a then false else s.mgmt.links.get false k) ∧
      { t.mgmt with links := s.mgmt.links } = s.mgmt ∧ { t with mgmt := s.mgmt, egress := s.egress, cores := s.cores, clusters := s.clusters } = s ∧
      t.egress = (s.egress.map fun e => if e.cls = 1 then { e with die := nohamDie t e.pa } else e) ∧
      ((∀ pa ∈ s.ev.nums, isPeer (pa / 128) = false) → t.cores = s.cores ∧ t.clusters = s.clusters) ∧
      ∀ pa ∈ s.ev.nums, isPeer (pa / 128) = true → (∀ c, ∀ y ∈ (t.core c).l1, y.pl = pa / 128 → y.psn = true) ∧
        ∀ k, ∀ y ∈ t.allKlines k, y.pl = pa / 128 → y.isDirty = false → y.psn = true) ∧
    (∀ pa p, paKind pa = .peer p → backed s pa = true → s.mgmt.podValid = true ∧ p < 192 ∧ p ∈ s.mgmt.peers) ∧
    (let pa := s.ev.a
     let n := min s.ev.b (65536 - pa % 65536)
     let ok := peerAccepts s pa = true
     (s.ev.w ≠ 0 → (ok → takes .peerAccessArrival pa (s.ev.bytes.take (65536 - pa % 65536))) ∧ (¬ ok → Runs .peerAccessArrival s s)) ∧
     (s.ev.w = 0 → ∃ m, sends .peerAccessArrival m ∧ m.cls = 1 ∧ m.pa = pa ∧
       (¬ ok → m.bytes = []) ∧ (ok → m.bytes = (if poisonAt s pa n then [] else rawBytes s pa n) ∧ m.mask = pageRegions s pa)) ∧
     (ok → s.mgmt.podValid = true ∧ paKind pa = .hbm ∧ (∀ x ∈ mappers s (pa / 65536), fld x.2.pte 10 10 = 0) ∧
       (rawByte s (s.mgmt.nohexp.toNat + pa / 65536 / 8)).getLsbD (pa / 65536 % 8) = true))

/-- R404, R409, R324, R329: a doorbell captures its writer; a port that takes a descriptor sends the frame or receives one, writes its status and moves HEAD; a queue's registers store what they may;
a kill closes the launch's channels and cohorts and discards its requests, in the queues and in the copy FIFOs. That a second GO of `ktkill` waits is the model's (log 29), as are a
queue closed to another function and LSIZE 13 to 15 (log 33), TAIL modulo the ring and the status codes (log 34). -/
def Obligations.RingsAndQueues : Prop :=
  ∀ (s : State),
    let f := s.ev.a
    let i := s.ev.b
    let r := (s.func f).ring i
    let idle := r.head = r.tail % (r.size + 1)
    let ended := fun (t u : State) (st : Nat) => ∃ v ok, unitWrite t (portWho t f r) (r.base + word (32 * r.head + 10)) [BitVec.ofNat 8 st] = (v, ok) ∧
      u = modRing v f i fun x => { x with head := (r.head + 1) % (r.size + 1) }
    ((s.func f).tdisp ≠ .run → Runs .ethTailDoorbell s s) ∧
    ((s.func f).tdisp = .run → ∃ t, Runs .ethTailDoorbell s t ∧ { t with funcs := s.funcs } = s ∧
      (t.func f).ring (i % 64) = { (s.func f).ring (i % 64) with tail := fld s.ev.w 0 16, priv := .u, bare := false, kdom := 0, taint := 0 } ∧
      (∀ g, g ≠ f → t.func g = s.func g) ∧ ∀ k, k ≠ i % 64 → (t.func f).ring k = (s.func f).ring k) ∧
    ((r.en = false ∨ r.rx = true ∨ idle ∨ flipsOpen s = true) → Runs .ethTransmit s s) ∧
    ((r.en = false ∨ r.rx = false ∨ idle ∨ flipsOpen s = true) → Runs .ethReceive s s) ∧
    (r.en = true → ¬ idle → flipsOpen s = false → ∀ t d, unitRead s (portWho s f r) (r.base + word (32 * r.head)) 32 = (t, d) →
      (d = none → ∃ u, ended t u 1 ∧ (r.rx = false → Runs .ethTransmit s u) ∧ (r.rx = true → Runs .ethReceive s u)) ∧
      ∀ bs, d = some bs →
        let va := leWord (bs.take 8)
        let n := leToNat ((bs.drop 8).take 2)
        (r.rx = false →
          (9216 < n → ∃ u, ended t u 2 ∧ Runs .ethTransmit s u) ∧
          (n ≤ 9216 → ∀ v, unitRead t (portWho t f r) va n = (v, none) → ∃ u, ended v u 1 ∧ Runs .ethTransmit s u) ∧
          (n ≤ 9216 → ∀ v frame, unitRead t (portWho t f r) va n = (v, some frame) → ∃ u m, Runs .ethTransmit s u ∧
            ended { v with egress := v.egress ++ [m] } u 0 ∧ m.die = i / 32 ∧ m.cls = 2 ∧ m.bytes = frame ∧ r.taint &&& m.mask = r.taint)) ∧
        (r.rx = true →
          ((n < s.ev.bytes.length ∨ 9216 < s.ev.bytes.length) → ∃ u, ended t u 2 ∧ Runs .ethReceive s u) ∧
          (s.ev.bytes.length ≤ n → s.ev.bytes.length ≤ 9216 → ∀ v ok, unitWrite t (portWho t f r) va s.ev.bytes = (v, ok) →
            ∃ u, ended v u (if ok then 0 else 1) ∧ Runs .ethReceive s u))) ∧
    (∀ q fn v, let x := s.queue q
      let closed := s.mgmt.s2 = false ∨ x.en = true ∧ x.fn ≠ fn
      let l := if fld v 56 4 ≤ 12 then fld v 56 4 else x.lsize
      (closed → ktqbaseWrite s fn q v = s ∧ ktqctlWrite s fn q v = s) ∧
      (x.ringHolds = true → (word (fld v 7 48 * 128) ≠ x.base → ktqbaseWrite s fn q v = s) ∧ (l ≠ x.lsize → ktqctlWrite s fn q v = s)) ∧
      (¬ closed → x.ringHolds = false → ktqbaseWrite s fn q v = (s.modQueue q fun x => { x with base := word (fld v 7 48 * 128) }) ∧
        ktqctlWrite s fn q v = s.modQueue q fun x =>
          { x with en := bitOf v 63, prio := fld v 60 3, lsize := l, rerr := x.rerr && !bitOf v 55, cerr := x.cerr && !bitOf v 54
                   tail := if (s.func fn).tdisp = .run then fld v 0 16 else x.tail, fn := if bitOf v 63 = true ∧ x.en = false then fn else x.fn })) ∧
    ∀ fn v, let id := fld v 0 16
      (bitOf v 63 = true → (s.func fn).ktkillGo = true → ktkillWrite s fn v = .wait) ∧
      (bitOf v 63 = false → ktkillWrite s fn v = .ok (s.modFunc fn fun f => { f with ktkill := v &&& 0xFFFFFF })) ∧
      (bitOf v 63 = true → (s.func fn).ktkillGo = false → (∀ l, s.launch? id = some l → l.fn = fn → l.killed.isSome = true) →
        ktkillWrite s fn v = .ok (s.modFunc fn fun f => { f with ktkill := v &&& 0xFFFFFF })) ∧
      (bitOf v 63 = true → (s.func fn).ktkillGo = false → ∀ l, s.launch? id = some l → l.fn = fn → l.killed = none → SMap.wf {} s.classes = true → ∃ t, ktkillWrite s fn v = .ok t ∧
        (t.func fn).ktkillGo = true ∧ (∃ m, t.launch? id = some m ∧ m.killed = some (fld v 16 8)) ∧ (∀ k, (t.cls k).live = true → (t.cls k).launch ≠ id) ∧
        (∀ q, ∀ y ∈ (t.queue q).subs, y.1 ≠ id) ∧ (∀ c i, ((t.core c).chan i).launch = id → ((t.core c).chan i).en = false) ∧ (∀ y ∈ t.saved, y.launch ≠ id) ∧
        (∀ c i r, (t.core c).req i = some r → r.launch = id → r.under = false) ∧ ∀ r ∈ t.withdrawn, r.launch ≠ id)
end

