-- ==== Sys2Proof/Laws/Map.lean ====
section
/-!
SUPPORT. The laws of sparse maps: what a read after a write gives, that two writes to one key are the later one, and that a write
keeps the canonical form.
-/
namespace Sys2Proof.Machine.SMap

variable {α : Type}

theorem get_erase_self (d : α) (m : SMap α) (i : Nat) : get d (erase m i) i = d := by
  induction m with
  | nil => rfl
  | cons p m ih =>
    obtain ⟨k, v⟩ := p
    by_cases h : i = k <;> simp [erase, get, h]
    · rw [← h]; exact ih
    · exact ih

theorem get_erase_ne (d : α) (m : SMap α) {i j : Nat} (h : j ≠ i) : get d (erase m i) j = get d m j := by
  induction m with
  | nil => rfl
  | cons p m ih =>
    obtain ⟨k, v⟩ := p
    by_cases hi : i = k
    · subst hi; simp [erase, get, h, ih]
    · simp [erase, get, hi, ih]

theorem get_insert_self (d : α) (m : SMap α) (i : Nat) (v : α) (h : ∀ p ∈ m, p.1 ≠ i) : get d (insert m i v) i = v := by
  induction m with
  | nil => simp [insert, get]
  | cons p m ih =>
    obtain ⟨k, w⟩ := p
    have hk : i ≠ k := fun e => h (k, w) (by simp) e.symm
    by_cases hlt : i < k
    · simp [insert, get, hlt]
    · simp [insert, get, hlt, hk, ih fun p hp => h p (by simp [hp])]

theorem get_insert_ne (d : α) (m : SMap α) {i j : Nat} (v : α) (h : j ≠ i) : get d (insert m i v) j = get d m j := by
  induction m with
  | nil => simp [insert, get, h]
  | cons p m ih =>
    obtain ⟨k, w⟩ := p
    by_cases hlt : i < k
    · simp [insert, get, hlt, h]
    · simp [insert, get, hlt, ih]

theorem ne_of_mem_erase {m : SMap α} {i : Nat} {p : Nat × α} (h : p ∈ erase m i) : p.1 ≠ i := by
  induction m with
  | nil => simp [erase] at h
  | cons q m ih =>
    obtain ⟨k, v⟩ := q
    by_cases hi : i = k
    · simp only [erase, hi, if_true] at h; rw [← hi] at h; exact ih h
    · simp only [erase, hi, if_false, List.mem_cons] at h
      rcases h with rfl | h
      · exact fun e => hi e.symm
      · exact ih h

theorem erase_of_ne {m : SMap α} {i : Nat} (h : ∀ p ∈ m, p.1 ≠ i) : erase m i = m := by
  induction m with
  | nil => rfl
  | cons p m ih =>
    obtain ⟨k, v⟩ := p
    have hk : i ≠ k := fun e => h (k, v) (by simp) e.symm
    simp [erase, hk, ih fun p hp => h p (by simp [hp])]

@[simp] theorem erase_erase (m : SMap α) (i : Nat) : erase (erase m i) i = erase m i :=
  erase_of_ne fun _ => ne_of_mem_erase

theorem erase_insert (m : SMap α) (i : Nat) (v : α) : erase (insert m i v) i = erase m i := by
  induction m with
  | nil => simp [insert, erase]
  | cons p m ih =>
    obtain ⟨k, w⟩ := p
    by_cases hlt : i < k
    · simp [insert, erase, hlt]
    · by_cases hk : i = k <;> simp [insert, erase, hlt, hk]
      · rw [← hk]; exact ih
      · exact ih

variable [DecidableEq α]

/-- A read at the key that was written gives the value. -/
@[simp] theorem get_set_self (d : α) (m : SMap α) (i : Nat) (v : α) : get d (set d m i v) i = v := by
  unfold set
  split
  · next h => rw [h]; exact get_erase_self d m i
  · exact get_insert_self d _ i v fun _ => ne_of_mem_erase

/-- A read at another key gives what it gave. -/
theorem get_set_ne (d : α) (m : SMap α) {i j : Nat} (v : α) (h : j ≠ i) : get d (set d m i v) j = get d m j := by
  unfold set
  split
  · exact get_erase_ne d m h
  · rw [get_insert_ne d _ v h]; exact get_erase_ne d m h

theorem get_set (d : α) (m : SMap α) (i j : Nat) (v : α) : get d (set d m i v) j = if j = i then v else get d m j := by
  by_cases h : j = i
  · subst h; simp
  · simp [h, get_set_ne d m v h]

/-- Of two writes to one key the later stands. -/
@[simp] theorem set_set (d : α) (m : SMap α) (i : Nat) (v w : α) : set d (set d m i v) i w = set d m i w := by
  have h : erase (set d m i v) i = erase m i := by
    unfold set
    split
    · simp
    · rw [erase_insert]; simp
  rw [set, h, ← set]

/-! ### The canonical form -/

theorem wfAbove_erase (d : α) {m : SMap α} {b : Nat} (i : Nat) (h : wfAbove d b m = true) : wfAbove d b (erase m i) = true := by
  induction m generalizing b with
  | nil => exact h
  | cons p m ih =>
    obtain ⟨k, v⟩ := p
    simp only [wfAbove, Bool.and_eq_true, decide_eq_true_eq] at h
    by_cases hk : i = k
    · simp only [erase, hk, if_true]
      have h2 := ih (b := k) h.2
      rw [hk] at h2
      have mono : ∀ {m : SMap α} {a b : Nat}, a < b → wfAbove d b m = true → wfAbove d a m = true := by
        intro m a b hab hm
        cases m with
        | nil => rfl
        | cons q m =>
          obtain ⟨k, v⟩ := q
          simp only [wfAbove, Bool.and_eq_true, decide_eq_true_eq] at hm ⊢
          exact ⟨⟨by omega, hm.1.2⟩, hm.2⟩
      exact mono h.1.1 h2
    · simp only [erase, hk, if_false, wfAbove, Bool.and_eq_true, decide_eq_true_eq]
      exact ⟨h.1, ih h.2⟩

theorem wfAbove_insert (d : α) {m : SMap α} {b i : Nat} {v : α} (hb : b < i) (hv : v ≠ d) (hm : ∀ p ∈ m, p.1 ≠ i)
    (h : wfAbove d b m = true) : wfAbove d b (insert m i v) = true := by
  induction m generalizing b with
  | nil => simp [insert, wfAbove, hb, hv]
  | cons p m ih =>
    obtain ⟨k, w⟩ := p
    have hk : k ≠ i := hm (k, w) (by simp)
    simp only [wfAbove, Bool.and_eq_true, decide_eq_true_eq] at h
    by_cases hlt : i < k
    · simp [insert, wfAbove, hlt, hb, hv, h.1.2, h.2]
    · simp only [insert, hlt, if_false, wfAbove, Bool.and_eq_true, decide_eq_true_eq]
      exact ⟨h.1, ih (by omega) (fun p hp => hm p (by simp [hp])) h.2⟩

/-- The canonical form as a bound below every key: at 0 for the tail, and for the whole list when key 0 is told apart. -/
theorem wf_cons (d : α) (k : Nat) (v : α) (m : SMap α) : wf d ((k, v) :: m) = (decide (v ≠ d) && wfAbove d k m) := rfl

theorem wf_of_wfAbove (d : α) {m : SMap α} {b : Nat} (h : wfAbove d b m = true) : wf d m = true := by
  cases m with
  | nil => rfl
  | cons p m =>
    obtain ⟨k, v⟩ := p
    simp only [wfAbove, Bool.and_eq_true, decide_eq_true_eq] at h
    simp [wf, h.1.2, h.2]

theorem wf_erase (d : α) {m : SMap α} (i : Nat) (h : wf d m = true) : wf d (erase m i) = true := by
  cases m with
  | nil => exact h
  | cons p m =>
    obtain ⟨k, v⟩ := p
    simp only [wf, Bool.and_eq_true, decide_eq_true_eq] at h
    by_cases hk : i = k
    · simp only [erase, hk, if_true]
      have := wfAbove_erase d i h.2
      rw [hk] at this
      exact wf_of_wfAbove d this
    · simp only [erase, hk, if_false, wf, Bool.and_eq_true, decide_eq_true_eq]
      exact ⟨h.1, wfAbove_erase d i h.2⟩

theorem wf_insert (d : α) {m : SMap α} {i : Nat} {v : α} (hv : v ≠ d) (hm : ∀ p ∈ m, p.1 ≠ i) (h : wf d m = true) :
    wf d (insert m i v) = true := by
  cases m with
  | nil => simp [insert, wf, wfAbove, hv]
  | cons p m =>
    obtain ⟨k, w⟩ := p
    have hk : k ≠ i := hm (k, w) (by simp)
    simp only [wf, Bool.and_eq_true, decide_eq_true_eq] at h
    by_cases hlt : i < k
    · simp [insert, wf, wfAbove, hlt, hv, h.1, h.2]
    · simp only [insert, hlt, if_false, wf, Bool.and_eq_true, decide_eq_true_eq]
      exact ⟨h.1, wfAbove_insert d (by omega) hv (fun p hp => hm p (by simp [hp])) h.2⟩

/-- A write keeps the canonical form. -/
theorem wf_set (d : α) {m : SMap α} (i : Nat) (v : α) (h : wf d m = true) : wf d (set d m i v) = true := by
  unfold set
  split
  · exact wf_erase d i h
  · next hv => exact wf_insert d hv (fun _ => ne_of_mem_erase) (wf_erase d i h)

theorem wf_foldl_set {β : Type} (d : α) (f : β → Nat) (g : β → α) (l : List β) {m : SMap α} (h : wf d m = true) :
    wf d (l.foldl (fun m x => set d m (f x) (g x)) m) = true := by
  induction l generalizing m with
  | nil => exact h
  | cons x l ih => exact ih (wf_set d _ _ h)

end Sys2Proof.Machine.SMap
end

