-- ==== Sys2Proof/Laws/Memory.lean ====
section
/-!
SUPPORT. Memory: what putting bytes into it leaves, what leaves it as it is, and its canonical form at reset.
-/
namespace Sys2Proof.Machine

/-- The memory of reset has the canonical form. -/
theorem reset_mem_wf : Memory.wf State.reset.mem = true := rfl

/-! ### Bytes put into memory -/

theorem get_foldl_zipIdx_ne (l : List Byte) (pa k a : Nat) (m : List Host.Cell) (h : a < pa + k ∨ pa + k + l.length ≤ a) :
    SMap.get 0 ((l.zipIdx k).foldl (fun m (x : Byte × Nat) => SMap.set 0 m (pa + x.2) x.1) m) a = SMap.get 0 m a := by
  induction l generalizing k m with
  | nil => rfl
  | cons b l ih =>
    simp only [List.zipIdx_cons, List.foldl_cons, List.length_cons] at h ⊢
    rw [ih (k + 1) _ (by omega), SMap.get_set_ne 0 m b (by omega)]

theorem get_foldl_zipIdx (l : List Byte) (pa k i : Nat) (m : List Host.Cell) (h : i < l.length) :
    SMap.get 0 ((l.zipIdx k).foldl (fun m (x : Byte × Nat) => SMap.set 0 m (pa + x.2) x.1) m) (pa + k + i) = l[i] := by
  induction l generalizing k i m with
  | nil => simp at h
  | cons b l ih =>
    simp only [List.zipIdx_cons, List.foldl_cons]
    cases i with
    | zero =>
      rw [get_foldl_zipIdx_ne l pa (k + 1) _ _ (by omega)]
      simp
    | succ i =>
      have := ih (k + 1) i (SMap.set 0 m (pa + k) b) (by simpa using h)
      rw [show pa + k + (i + 1) = pa + (k + 1) + i by omega]
      simpa using this

/-- Bytes outside those put stand. -/
theorem rawByte_putRaw_ne (s : State) (pa a : Nat) (bs : List Byte) (h : a < pa ∨ pa + bs.length ≤ a) : rawByte (putRaw s pa bs) a = rawByte s a := by
  unfold rawByte putRaw
  exact get_foldl_zipIdx_ne bs pa 0 a s.mem (by omega)

/-- Bytes put read back. -/
theorem rawByte_putRaw (s : State) (pa i : Nat) (bs : List Byte) (h : i < bs.length) : rawByte (putRaw s pa bs) (pa + i) = bs[i] := by
  unfold rawByte putRaw
  simpa using get_foldl_zipIdx bs pa 0 i s.mem h

theorem rawBytes_putRaw (s : State) (pa : Nat) (bs : List Byte) : rawBytes (putRaw s pa bs) pa bs.length = bs := by
  apply List.ext_getElem
  · simp [rawBytes]
  · intro i h1 h2
    simp only [rawBytes, List.getElem_map, List.getElem_range]
    exact rawByte_putRaw s pa i bs h2

theorem putRaw_wf (s : State) (pa : Nat) (bs : List Byte) (h : Memory.wf s.mem = true) : Memory.wf (putRaw s pa bs).mem = true :=
  SMap.wf_foldl_set 0 (fun x : Byte × Nat => pa + x.2) (fun x => x.1) bs.zipIdx h

theorem setPteBit_wf (s : State) (a b : Nat) (h : Memory.wf s.mem = true) : Memory.wf (setPteBit s a b).mem = true := putRaw_wf s a _ h

/-! ### What leaves memory as it is -/

@[simp] theorem modLine_mem (s : State) (l : Nat) (f : LineMeta → LineMeta) : (s.modLine l f).mem = s.mem := rfl
@[simp] theorem modCore_mem (s : State) (c : Nat) (f : Core → Core) : (s.modCore c f).mem = s.mem := rfl
@[simp] theorem modHart_mem (s : State) (c : Nat) (f : Hart → Hart) : (s.modHart c f).mem = s.mem := rfl

@[simp] theorem egressOf_mem (s : State) (pa : Nat) (bs : List Byte) (t : BitVec 16) : (egressOf s pa bs t).mem = s.mem := by
  unfold egressOf; split <;> rfl

@[simp] theorem breakResv_mem (s : State) (h : Nat) (ls : List Nat) : (breakResv s h ls).mem = s.mem := by
  unfold breakResv
  generalize s.harts = hs
  induction hs generalizing s with
  | nil => rfl
  | cons p hs ih =>
    rw [List.foldl_cons, ih]
    split
    · split <;> rfl
    · rfl

@[simp] theorem l1Update_mem (s : State) (c t : Nat) (cs : List VCell) : (l1Update s c t cs).mem = s.mem := rfl
@[simp] theorem l1Drop_mem (s : State) (c t : Nat) (ls : List Nat) : (l1Drop s c t ls).mem = s.mem := rfl

end Sys2Proof.Machine
end

