-- ==== Sys2Proof/Laws/State.lean ====
section
/-!
SUPPORT. What each update of the state and of a hart leaves as it was: one lemma for each field, and the laws of reading a unit
after writing it.
-/
namespace Sys2Proof.Machine

/-! ### Units: reading after writing -/

@[simp] theorem State.hart_setHart_self (s : State) (h : Nat) (x : Hart) : (s.setHart h x).hart h = x := SMap.get_set_self ..
theorem State.hart_setHart_ne (s : State) {h k : Nat} (x : Hart) (e : k ≠ h) : (s.setHart h x).hart k = s.hart k := SMap.get_set_ne _ _ _ e
@[simp] theorem State.me_setHart_cur (s : State) (x : Hart) : (s.setHart s.cur x).me = x := SMap.get_set_self ..
@[simp] theorem State.setHart_setHart (s : State) (h : Nat) (x y : Hart) : (s.setHart h x).setHart h y = s.setHart h y := by
  simp [State.setHart]
@[simp] theorem State.core_setCore_self (s : State) (c : Nat) (x : Core) : (s.setCore c x).core c = x := SMap.get_set_self ..
theorem State.core_setCore_ne (s : State) {c k : Nat} (x : Core) (e : k ≠ c) : (s.setCore c x).core k = s.core k := SMap.get_set_ne _ _ _ e
@[simp] theorem State.cluster_modCluster_self (s : State) (k : Nat) (f : Cluster → Cluster) : (s.modCluster k f).cluster k = f (s.cluster k) :=
  SMap.get_set_self ..
theorem State.cluster_modCluster_ne (s : State) {k j : Nat} (f : Cluster → Cluster) (e : j ≠ k) : (s.modCluster k f).cluster j = s.cluster j :=
  SMap.get_set_ne _ _ _ e

/-! ### `setHart` -/

@[simp] theorem State.setHart_cur (s : State) (h : Nat) (x : Hart) : (s.setHart h x).cur = s.cur := rfl
@[simp] theorem State.setHart_ev (s : State) (h : Nat) (x : Hart) : (s.setHart h x).ev = s.ev := rfl
@[simp] theorem State.setHart_clock (s : State) (h : Nat) (x : Hart) : (s.setHart h x).clock = s.clock := rfl
@[simp] theorem State.setHart_agenda (s : State) (h : Nat) (x : Hart) : (s.setHart h x).agenda = s.agenda := rfl
@[simp] theorem State.setHart_choices (s : State) (h : Nat) (x : Hart) : (s.setHart h x).choices = s.choices := rfl
@[simp] theorem State.setHart_freeCtr (s : State) (h : Nat) (x : Hart) : (s.setHart h x).freeCtr = s.freeCtr := rfl
@[simp] theorem State.setHart_cores (s : State) (h : Nat) (x : Hart) : (s.setHart h x).cores = s.cores := rfl
@[simp] theorem State.setHart_clusters (s : State) (h : Nat) (x : Hart) : (s.setHart h x).clusters = s.clusters := rfl
@[simp] theorem State.setHart_dies (s : State) (h : Nat) (x : Hart) : (s.setHart h x).dies = s.dies := rfl
@[simp] theorem State.setHart_walkers (s : State) (h : Nat) (x : Hart) : (s.setHart h x).walkers = s.walkers := rfl
@[simp] theorem State.setHart_funcs (s : State) (h : Nat) (x : Hart) : (s.setHart h x).funcs = s.funcs := rfl
@[simp] theorem State.setHart_mem (s : State) (h : Nat) (x : Hart) : (s.setHart h x).mem = s.mem := rfl
@[simp] theorem State.setHart_lines (s : State) (h : Nat) (x : Hart) : (s.setHart h x).lines = s.lines := rfl
@[simp] theorem State.setHart_devBias (s : State) (h : Nat) (x : Hart) : (s.setHart h x).devBias = s.devBias := rfl
@[simp] theorem State.setHart_classes (s : State) (h : Nat) (x : Hart) : (s.setHart h x).classes = s.classes := rfl
@[simp] theorem State.setHart_classSeq (s : State) (h : Nat) (x : Hart) : (s.setHart h x).classSeq = s.classSeq := rfl
@[simp] theorem State.setHart_launches (s : State) (h : Nat) (x : Hart) : (s.setHart h x).launches = s.launches := rfl
@[simp] theorem State.setHart_launchSeq (s : State) (h : Nat) (x : Hart) : (s.setHart h x).launchSeq = s.launchSeq := rfl
@[simp] theorem State.setHart_queues (s : State) (h : Nat) (x : Hart) : (s.setHart h x).queues = s.queues := rfl
@[simp] theorem State.setHart_lastQ (s : State) (h : Nat) (x : Hart) : (s.setHart h x).lastQ = s.lastQ := rfl
@[simp] theorem State.setHart_orderSeq (s : State) (h : Nat) (x : Hart) : (s.setHart h x).orderSeq = s.orderSeq := rfl
@[simp] theorem State.setHart_saved (s : State) (h : Nat) (x : Hart) : (s.setHart h x).saved = s.saved := rfl
@[simp] theorem State.setHart_withdrawn (s : State) (h : Nat) (x : Hart) : (s.setHart h x).withdrawn = s.withdrawn := rfl
@[simp] theorem State.setHart_hall (s : State) (h : Nat) (x : Hart) : (s.setHart h x).hall = s.hall := rfl
@[simp] theorem State.setHart_keys (s : State) (h : Nat) (x : Hart) : (s.setHart h x).keys = s.keys := rfl
@[simp] theorem State.setHart_enclaves (s : State) (h : Nat) (x : Hart) : (s.setHart h x).enclaves = s.enclaves := rfl
@[simp] theorem State.setHart_regions (s : State) (h : Nat) (x : Hart) : (s.setHart h x).regions = s.regions := rfl
@[simp] theorem State.setHart_egress (s : State) (h : Nat) (x : Hart) : (s.setHart h x).egress = s.egress := rfl
@[simp] theorem State.setHart_sent (s : State) (h : Nat) (x : Hart) : (s.setHart h x).sent = s.sent := rfl
@[simp] theorem State.setHart_book (s : State) (h : Nat) (x : Hart) : (s.setHart h x).book = s.book := rfl
@[simp] theorem State.setHart_mgmt (s : State) (h : Nat) (x : Hart) : (s.setHart h x).mgmt = s.mgmt := rfl

/-! ### `setCore` -/

@[simp] theorem State.setCore_cur (s : State) (c : Nat) (x : Core) : (s.setCore c x).cur = s.cur := rfl
@[simp] theorem State.setCore_ev (s : State) (c : Nat) (x : Core) : (s.setCore c x).ev = s.ev := rfl
@[simp] theorem State.setCore_clock (s : State) (c : Nat) (x : Core) : (s.setCore c x).clock = s.clock := rfl
@[simp] theorem State.setCore_agenda (s : State) (c : Nat) (x : Core) : (s.setCore c x).agenda = s.agenda := rfl
@[simp] theorem State.setCore_choices (s : State) (c : Nat) (x : Core) : (s.setCore c x).choices = s.choices := rfl
@[simp] theorem State.setCore_freeCtr (s : State) (c : Nat) (x : Core) : (s.setCore c x).freeCtr = s.freeCtr := rfl
@[simp] theorem State.setCore_harts (s : State) (c : Nat) (x : Core) : (s.setCore c x).harts = s.harts := rfl
@[simp] theorem State.setCore_clusters (s : State) (c : Nat) (x : Core) : (s.setCore c x).clusters = s.clusters := rfl
@[simp] theorem State.setCore_dies (s : State) (c : Nat) (x : Core) : (s.setCore c x).dies = s.dies := rfl
@[simp] theorem State.setCore_walkers (s : State) (c : Nat) (x : Core) : (s.setCore c x).walkers = s.walkers := rfl
@[simp] theorem State.setCore_funcs (s : State) (c : Nat) (x : Core) : (s.setCore c x).funcs = s.funcs := rfl
@[simp] theorem State.setCore_mem (s : State) (c : Nat) (x : Core) : (s.setCore c x).mem = s.mem := rfl
@[simp] theorem State.setCore_lines (s : State) (c : Nat) (x : Core) : (s.setCore c x).lines = s.lines := rfl
@[simp] theorem State.setCore_devBias (s : State) (c : Nat) (x : Core) : (s.setCore c x).devBias = s.devBias := rfl
@[simp] theorem State.setCore_classes (s : State) (c : Nat) (x : Core) : (s.setCore c x).classes = s.classes := rfl
@[simp] theorem State.setCore_classSeq (s : State) (c : Nat) (x : Core) : (s.setCore c x).classSeq = s.classSeq := rfl
@[simp] theorem State.setCore_launches (s : State) (c : Nat) (x : Core) : (s.setCore c x).launches = s.launches := rfl
@[simp] theorem State.setCore_launchSeq (s : State) (c : Nat) (x : Core) : (s.setCore c x).launchSeq = s.launchSeq := rfl
@[simp] theorem State.setCore_queues (s : State) (c : Nat) (x : Core) : (s.setCore c x).queues = s.queues := rfl
@[simp] theorem State.setCore_lastQ (s : State) (c : Nat) (x : Core) : (s.setCore c x).lastQ = s.lastQ := rfl
@[simp] theorem State.setCore_orderSeq (s : State) (c : Nat) (x : Core) : (s.setCore c x).orderSeq = s.orderSeq := rfl
@[simp] theorem State.setCore_saved (s : State) (c : Nat) (x : Core) : (s.setCore c x).saved = s.saved := rfl
@[simp] theorem State.setCore_withdrawn (s : State) (c : Nat) (x : Core) : (s.setCore c x).withdrawn = s.withdrawn := rfl
@[simp] theorem State.setCore_hall (s : State) (c : Nat) (x : Core) : (s.setCore c x).hall = s.hall := rfl
@[simp] theorem State.setCore_keys (s : State) (c : Nat) (x : Core) : (s.setCore c x).keys = s.keys := rfl
@[simp] theorem State.setCore_enclaves (s : State) (c : Nat) (x : Core) : (s.setCore c x).enclaves = s.enclaves := rfl
@[simp] theorem State.setCore_regions (s : State) (c : Nat) (x : Core) : (s.setCore c x).regions = s.regions := rfl
@[simp] theorem State.setCore_egress (s : State) (c : Nat) (x : Core) : (s.setCore c x).egress = s.egress := rfl
@[simp] theorem State.setCore_sent (s : State) (c : Nat) (x : Core) : (s.setCore c x).sent = s.sent := rfl
@[simp] theorem State.setCore_book (s : State) (c : Nat) (x : Core) : (s.setCore c x).book = s.book := rfl
@[simp] theorem State.setCore_mgmt (s : State) (c : Nat) (x : Core) : (s.setCore c x).mgmt = s.mgmt := rfl

/-! ### `modCluster` -/

@[simp] theorem State.modCluster_cur (s : State) (k : Nat) (f : Cluster → Cluster) : (s.modCluster k f).cur = s.cur := rfl
@[simp] theorem State.modCluster_ev (s : State) (k : Nat) (f : Cluster → Cluster) : (s.modCluster k f).ev = s.ev := rfl
@[simp] theorem State.modCluster_clock (s : State) (k : Nat) (f : Cluster → Cluster) : (s.modCluster k f).clock = s.clock := rfl
@[simp] theorem State.modCluster_agenda (s : State) (k : Nat) (f : Cluster → Cluster) : (s.modCluster k f).agenda = s.agenda := rfl
@[simp] theorem State.modCluster_choices (s : State) (k : Nat) (f : Cluster → Cluster) : (s.modCluster k f).choices = s.choices := rfl
@[simp] theorem State.modCluster_freeCtr (s : State) (k : Nat) (f : Cluster → Cluster) : (s.modCluster k f).freeCtr = s.freeCtr := rfl
@[simp] theorem State.modCluster_harts (s : State) (k : Nat) (f : Cluster → Cluster) : (s.modCluster k f).harts = s.harts := rfl
@[simp] theorem State.modCluster_cores (s : State) (k : Nat) (f : Cluster → Cluster) : (s.modCluster k f).cores = s.cores := rfl
@[simp] theorem State.modCluster_dies (s : State) (k : Nat) (f : Cluster → Cluster) : (s.modCluster k f).dies = s.dies := rfl
@[simp] theorem State.modCluster_walkers (s : State) (k : Nat) (f : Cluster → Cluster) : (s.modCluster k f).walkers = s.walkers := rfl
@[simp] theorem State.modCluster_funcs (s : State) (k : Nat) (f : Cluster → Cluster) : (s.modCluster k f).funcs = s.funcs := rfl
@[simp] theorem State.modCluster_mem (s : State) (k : Nat) (f : Cluster → Cluster) : (s.modCluster k f).mem = s.mem := rfl
@[simp] theorem State.modCluster_lines (s : State) (k : Nat) (f : Cluster → Cluster) : (s.modCluster k f).lines = s.lines := rfl
@[simp] theorem State.modCluster_devBias (s : State) (k : Nat) (f : Cluster → Cluster) : (s.modCluster k f).devBias = s.devBias := rfl
@[simp] theorem State.modCluster_classes (s : State) (k : Nat) (f : Cluster → Cluster) : (s.modCluster k f).classes = s.classes := rfl
@[simp] theorem State.modCluster_classSeq (s : State) (k : Nat) (f : Cluster → Cluster) : (s.modCluster k f).classSeq = s.classSeq := rfl
@[simp] theorem State.modCluster_launches (s : State) (k : Nat) (f : Cluster → Cluster) : (s.modCluster k f).launches = s.launches := rfl
@[simp] theorem State.modCluster_launchSeq (s : State) (k : Nat) (f : Cluster → Cluster) : (s.modCluster k f).launchSeq = s.launchSeq := rfl
@[simp] theorem State.modCluster_queues (s : State) (k : Nat) (f : Cluster → Cluster) : (s.modCluster k f).queues = s.queues := rfl
@[simp] theorem State.modCluster_lastQ (s : State) (k : Nat) (f : Cluster → Cluster) : (s.modCluster k f).lastQ = s.lastQ := rfl
@[simp] theorem State.modCluster_orderSeq (s : State) (k : Nat) (f : Cluster → Cluster) : (s.modCluster k f).orderSeq = s.orderSeq := rfl
@[simp] theorem State.modCluster_saved (s : State) (k : Nat) (f : Cluster → Cluster) : (s.modCluster k f).saved = s.saved := rfl
@[simp] theorem State.modCluster_withdrawn (s : State) (k : Nat) (f : Cluster → Cluster) : (s.modCluster k f).withdrawn = s.withdrawn := rfl
@[simp] theorem State.modCluster_hall (s : State) (k : Nat) (f : Cluster → Cluster) : (s.modCluster k f).hall = s.hall := rfl
@[simp] theorem State.modCluster_keys (s : State) (k : Nat) (f : Cluster → Cluster) : (s.modCluster k f).keys = s.keys := rfl
@[simp] theorem State.modCluster_enclaves (s : State) (k : Nat) (f : Cluster → Cluster) : (s.modCluster k f).enclaves = s.enclaves := rfl
@[simp] theorem State.modCluster_regions (s : State) (k : Nat) (f : Cluster → Cluster) : (s.modCluster k f).regions = s.regions := rfl
@[simp] theorem State.modCluster_egress (s : State) (k : Nat) (f : Cluster → Cluster) : (s.modCluster k f).egress = s.egress := rfl
@[simp] theorem State.modCluster_sent (s : State) (k : Nat) (f : Cluster → Cluster) : (s.modCluster k f).sent = s.sent := rfl
@[simp] theorem State.modCluster_book (s : State) (k : Nat) (f : Cluster → Cluster) : (s.modCluster k f).book = s.book := rfl
@[simp] theorem State.modCluster_mgmt (s : State) (k : Nat) (f : Cluster → Cluster) : (s.modCluster k f).mgmt = s.mgmt := rfl

/-! ### `modDie` -/

@[simp] theorem State.modDie_cur (s : State) (d : Nat) (f : Die → Die) : (s.modDie d f).cur = s.cur := rfl
@[simp] theorem State.modDie_ev (s : State) (d : Nat) (f : Die → Die) : (s.modDie d f).ev = s.ev := rfl
@[simp] theorem State.modDie_clock (s : State) (d : Nat) (f : Die → Die) : (s.modDie d f).clock = s.clock := rfl
@[simp] theorem State.modDie_agenda (s : State) (d : Nat) (f : Die → Die) : (s.modDie d f).agenda = s.agenda := rfl
@[simp] theorem State.modDie_choices (s : State) (d : Nat) (f : Die → Die) : (s.modDie d f).choices = s.choices := rfl
@[simp] theorem State.modDie_freeCtr (s : State) (d : Nat) (f : Die → Die) : (s.modDie d f).freeCtr = s.freeCtr := rfl
@[simp] theorem State.modDie_harts (s : State) (d : Nat) (f : Die → Die) : (s.modDie d f).harts = s.harts := rfl
@[simp] theorem State.modDie_cores (s : State) (d : Nat) (f : Die → Die) : (s.modDie d f).cores = s.cores := rfl
@[simp] theorem State.modDie_clusters (s : State) (d : Nat) (f : Die → Die) : (s.modDie d f).clusters = s.clusters := rfl
@[simp] theorem State.modDie_walkers (s : State) (d : Nat) (f : Die → Die) : (s.modDie d f).walkers = s.walkers := rfl
@[simp] theorem State.modDie_funcs (s : State) (d : Nat) (f : Die → Die) : (s.modDie d f).funcs = s.funcs := rfl
@[simp] theorem State.modDie_mem (s : State) (d : Nat) (f : Die → Die) : (s.modDie d f).mem = s.mem := rfl
@[simp] theorem State.modDie_lines (s : State) (d : Nat) (f : Die → Die) : (s.modDie d f).lines = s.lines := rfl
@[simp] theorem State.modDie_devBias (s : State) (d : Nat) (f : Die → Die) : (s.modDie d f).devBias = s.devBias := rfl
@[simp] theorem State.modDie_classes (s : State) (d : Nat) (f : Die → Die) : (s.modDie d f).classes = s.classes := rfl
@[simp] theorem State.modDie_classSeq (s : State) (d : Nat) (f : Die → Die) : (s.modDie d f).classSeq = s.classSeq := rfl
@[simp] theorem State.modDie_launches (s : State) (d : Nat) (f : Die → Die) : (s.modDie d f).launches = s.launches := rfl
@[simp] theorem State.modDie_launchSeq (s : State) (d : Nat) (f : Die → Die) : (s.modDie d f).launchSeq = s.launchSeq := rfl
@[simp] theorem State.modDie_queues (s : State) (d : Nat) (f : Die → Die) : (s.modDie d f).queues = s.queues := rfl
@[simp] theorem State.modDie_lastQ (s : State) (d : Nat) (f : Die → Die) : (s.modDie d f).lastQ = s.lastQ := rfl
@[simp] theorem State.modDie_orderSeq (s : State) (d : Nat) (f : Die → Die) : (s.modDie d f).orderSeq = s.orderSeq := rfl
@[simp] theorem State.modDie_saved (s : State) (d : Nat) (f : Die → Die) : (s.modDie d f).saved = s.saved := rfl
@[simp] theorem State.modDie_withdrawn (s : State) (d : Nat) (f : Die → Die) : (s.modDie d f).withdrawn = s.withdrawn := rfl
@[simp] theorem State.modDie_hall (s : State) (d : Nat) (f : Die → Die) : (s.modDie d f).hall = s.hall := rfl
@[simp] theorem State.modDie_keys (s : State) (d : Nat) (f : Die → Die) : (s.modDie d f).keys = s.keys := rfl
@[simp] theorem State.modDie_enclaves (s : State) (d : Nat) (f : Die → Die) : (s.modDie d f).enclaves = s.enclaves := rfl
@[simp] theorem State.modDie_regions (s : State) (d : Nat) (f : Die → Die) : (s.modDie d f).regions = s.regions := rfl
@[simp] theorem State.modDie_egress (s : State) (d : Nat) (f : Die → Die) : (s.modDie d f).egress = s.egress := rfl
@[simp] theorem State.modDie_sent (s : State) (d : Nat) (f : Die → Die) : (s.modDie d f).sent = s.sent := rfl
@[simp] theorem State.modDie_book (s : State) (d : Nat) (f : Die → Die) : (s.modDie d f).book = s.book := rfl
@[simp] theorem State.modDie_mgmt (s : State) (d : Nat) (f : Die → Die) : (s.modDie d f).mgmt = s.mgmt := rfl

/-! ### `modFunc` -/

@[simp] theorem State.modFunc_cur (s : State) (n : Nat) (f : Func → Func) : (s.modFunc n f).cur = s.cur := rfl
@[simp] theorem State.modFunc_ev (s : State) (n : Nat) (f : Func → Func) : (s.modFunc n f).ev = s.ev := rfl
@[simp] theorem State.modFunc_clock (s : State) (n : Nat) (f : Func → Func) : (s.modFunc n f).clock = s.clock := rfl
@[simp] theorem State.modFunc_agenda (s : State) (n : Nat) (f : Func → Func) : (s.modFunc n f).agenda = s.agenda := rfl
@[simp] theorem State.modFunc_choices (s : State) (n : Nat) (f : Func → Func) : (s.modFunc n f).choices = s.choices := rfl
@[simp] theorem State.modFunc_freeCtr (s : State) (n : Nat) (f : Func → Func) : (s.modFunc n f).freeCtr = s.freeCtr := rfl
@[simp] theorem State.modFunc_harts (s : State) (n : Nat) (f : Func → Func) : (s.modFunc n f).harts = s.harts := rfl
@[simp] theorem State.modFunc_cores (s : State) (n : Nat) (f : Func → Func) : (s.modFunc n f).cores = s.cores := rfl
@[simp] theorem State.modFunc_clusters (s : State) (n : Nat) (f : Func → Func) : (s.modFunc n f).clusters = s.clusters := rfl
@[simp] theorem State.modFunc_dies (s : State) (n : Nat) (f : Func → Func) : (s.modFunc n f).dies = s.dies := rfl
@[simp] theorem State.modFunc_walkers (s : State) (n : Nat) (f : Func → Func) : (s.modFunc n f).walkers = s.walkers := rfl
@[simp] theorem State.modFunc_mem (s : State) (n : Nat) (f : Func → Func) : (s.modFunc n f).mem = s.mem := rfl
@[simp] theorem State.modFunc_lines (s : State) (n : Nat) (f : Func → Func) : (s.modFunc n f).lines = s.lines := rfl
@[simp] theorem State.modFunc_devBias (s : State) (n : Nat) (f : Func → Func) : (s.modFunc n f).devBias = s.devBias := rfl
@[simp] theorem State.modFunc_classes (s : State) (n : Nat) (f : Func → Func) : (s.modFunc n f).classes = s.classes := rfl
@[simp] theorem State.modFunc_classSeq (s : State) (n : Nat) (f : Func → Func) : (s.modFunc n f).classSeq = s.classSeq := rfl
@[simp] theorem State.modFunc_launches (s : State) (n : Nat) (f : Func → Func) : (s.modFunc n f).launches = s.launches := rfl
@[simp] theorem State.modFunc_launchSeq (s : State) (n : Nat) (f : Func → Func) : (s.modFunc n f).launchSeq = s.launchSeq := rfl
@[simp] theorem State.modFunc_queues (s : State) (n : Nat) (f : Func → Func) : (s.modFunc n f).queues = s.queues := rfl
@[simp] theorem State.modFunc_lastQ (s : State) (n : Nat) (f : Func → Func) : (s.modFunc n f).lastQ = s.lastQ := rfl
@[simp] theorem State.modFunc_orderSeq (s : State) (n : Nat) (f : Func → Func) : (s.modFunc n f).orderSeq = s.orderSeq := rfl
@[simp] theorem State.modFunc_saved (s : State) (n : Nat) (f : Func → Func) : (s.modFunc n f).saved = s.saved := rfl
@[simp] theorem State.modFunc_withdrawn (s : State) (n : Nat) (f : Func → Func) : (s.modFunc n f).withdrawn = s.withdrawn := rfl
@[simp] theorem State.modFunc_hall (s : State) (n : Nat) (f : Func → Func) : (s.modFunc n f).hall = s.hall := rfl
@[simp] theorem State.modFunc_keys (s : State) (n : Nat) (f : Func → Func) : (s.modFunc n f).keys = s.keys := rfl
@[simp] theorem State.modFunc_enclaves (s : State) (n : Nat) (f : Func → Func) : (s.modFunc n f).enclaves = s.enclaves := rfl
@[simp] theorem State.modFunc_regions (s : State) (n : Nat) (f : Func → Func) : (s.modFunc n f).regions = s.regions := rfl
@[simp] theorem State.modFunc_egress (s : State) (n : Nat) (f : Func → Func) : (s.modFunc n f).egress = s.egress := rfl
@[simp] theorem State.modFunc_sent (s : State) (n : Nat) (f : Func → Func) : (s.modFunc n f).sent = s.sent := rfl
@[simp] theorem State.modFunc_book (s : State) (n : Nat) (f : Func → Func) : (s.modFunc n f).book = s.book := rfl
@[simp] theorem State.modFunc_mgmt (s : State) (n : Nat) (f : Func → Func) : (s.modFunc n f).mgmt = s.mgmt := rfl

/-! ### `modCls` -/

@[simp] theorem State.modCls_cur (s : State) (k : Nat) (f : ClassRec → ClassRec) : (s.modCls k f).cur = s.cur := rfl
@[simp] theorem State.modCls_ev (s : State) (k : Nat) (f : ClassRec → ClassRec) : (s.modCls k f).ev = s.ev := rfl
@[simp] theorem State.modCls_clock (s : State) (k : Nat) (f : ClassRec → ClassRec) : (s.modCls k f).clock = s.clock := rfl
@[simp] theorem State.modCls_agenda (s : State) (k : Nat) (f : ClassRec → ClassRec) : (s.modCls k f).agenda = s.agenda := rfl
@[simp] theorem State.modCls_choices (s : State) (k : Nat) (f : ClassRec → ClassRec) : (s.modCls k f).choices = s.choices := rfl
@[simp] theorem State.modCls_freeCtr (s : State) (k : Nat) (f : ClassRec → ClassRec) : (s.modCls k f).freeCtr = s.freeCtr := rfl
@[simp] theorem State.modCls_harts (s : State) (k : Nat) (f : ClassRec → ClassRec) : (s.modCls k f).harts = s.harts := rfl
@[simp] theorem State.modCls_cores (s : State) (k : Nat) (f : ClassRec → ClassRec) : (s.modCls k f).cores = s.cores := rfl
@[simp] theorem State.modCls_clusters (s : State) (k : Nat) (f : ClassRec → ClassRec) : (s.modCls k f).clusters = s.clusters := rfl
@[simp] theorem State.modCls_dies (s : State) (k : Nat) (f : ClassRec → ClassRec) : (s.modCls k f).dies = s.dies := rfl
@[simp] theorem State.modCls_walkers (s : State) (k : Nat) (f : ClassRec → ClassRec) : (s.modCls k f).walkers = s.walkers := rfl
@[simp] theorem State.modCls_funcs (s : State) (k : Nat) (f : ClassRec → ClassRec) : (s.modCls k f).funcs = s.funcs := rfl
@[simp] theorem State.modCls_mem (s : State) (k : Nat) (f : ClassRec → ClassRec) : (s.modCls k f).mem = s.mem := rfl
@[simp] theorem State.modCls_lines (s : State) (k : Nat) (f : ClassRec → ClassRec) : (s.modCls k f).lines = s.lines := rfl
@[simp] theorem State.modCls_devBias (s : State) (k : Nat) (f : ClassRec → ClassRec) : (s.modCls k f).devBias = s.devBias := rfl
@[simp] theorem State.modCls_classSeq (s : State) (k : Nat) (f : ClassRec → ClassRec) : (s.modCls k f).classSeq = s.classSeq := rfl
@[simp] theorem State.modCls_launches (s : State) (k : Nat) (f : ClassRec → ClassRec) : (s.modCls k f).launches = s.launches := rfl
@[simp] theorem State.modCls_launchSeq (s : State) (k : Nat) (f : ClassRec → ClassRec) : (s.modCls k f).launchSeq = s.launchSeq := rfl
@[simp] theorem State.modCls_queues (s : State) (k : Nat) (f : ClassRec → ClassRec) : (s.modCls k f).queues = s.queues := rfl
@[simp] theorem State.modCls_lastQ (s : State) (k : Nat) (f : ClassRec → ClassRec) : (s.modCls k f).lastQ = s.lastQ := rfl
@[simp] theorem State.modCls_orderSeq (s : State) (k : Nat) (f : ClassRec → ClassRec) : (s.modCls k f).orderSeq = s.orderSeq := rfl
@[simp] theorem State.modCls_saved (s : State) (k : Nat) (f : ClassRec → ClassRec) : (s.modCls k f).saved = s.saved := rfl
@[simp] theorem State.modCls_withdrawn (s : State) (k : Nat) (f : ClassRec → ClassRec) : (s.modCls k f).withdrawn = s.withdrawn := rfl
@[simp] theorem State.modCls_hall (s : State) (k : Nat) (f : ClassRec → ClassRec) : (s.modCls k f).hall = s.hall := rfl
@[simp] theorem State.modCls_keys (s : State) (k : Nat) (f : ClassRec → ClassRec) : (s.modCls k f).keys = s.keys := rfl
@[simp] theorem State.modCls_enclaves (s : State) (k : Nat) (f : ClassRec → ClassRec) : (s.modCls k f).enclaves = s.enclaves := rfl
@[simp] theorem State.modCls_regions (s : State) (k : Nat) (f : ClassRec → ClassRec) : (s.modCls k f).regions = s.regions := rfl
@[simp] theorem State.modCls_egress (s : State) (k : Nat) (f : ClassRec → ClassRec) : (s.modCls k f).egress = s.egress := rfl
@[simp] theorem State.modCls_sent (s : State) (k : Nat) (f : ClassRec → ClassRec) : (s.modCls k f).sent = s.sent := rfl
@[simp] theorem State.modCls_book (s : State) (k : Nat) (f : ClassRec → ClassRec) : (s.modCls k f).book = s.book := rfl
@[simp] theorem State.modCls_mgmt (s : State) (k : Nat) (f : ClassRec → ClassRec) : (s.modCls k f).mgmt = s.mgmt := rfl

/-! ### `modQueue` -/

@[simp] theorem State.modQueue_cur (s : State) (q : Nat) (f : LaunchQ → LaunchQ) : (s.modQueue q f).cur = s.cur := rfl
@[simp] theorem State.modQueue_ev (s : State) (q : Nat) (f : LaunchQ → LaunchQ) : (s.modQueue q f).ev = s.ev := rfl
@[simp] theorem State.modQueue_clock (s : State) (q : Nat) (f : LaunchQ → LaunchQ) : (s.modQueue q f).clock = s.clock := rfl
@[simp] theorem State.modQueue_agenda (s : State) (q : Nat) (f : LaunchQ → LaunchQ) : (s.modQueue q f).agenda = s.agenda := rfl
@[simp] theorem State.modQueue_choices (s : State) (q : Nat) (f : LaunchQ → LaunchQ) : (s.modQueue q f).choices = s.choices := rfl
@[simp] theorem State.modQueue_freeCtr (s : State) (q : Nat) (f : LaunchQ → LaunchQ) : (s.modQueue q f).freeCtr = s.freeCtr := rfl
@[simp] theorem State.modQueue_harts (s : State) (q : Nat) (f : LaunchQ → LaunchQ) : (s.modQueue q f).harts = s.harts := rfl
@[simp] theorem State.modQueue_cores (s : State) (q : Nat) (f : LaunchQ → LaunchQ) : (s.modQueue q f).cores = s.cores := rfl
@[simp] theorem State.modQueue_clusters (s : State) (q : Nat) (f : LaunchQ → LaunchQ) : (s.modQueue q f).clusters = s.clusters := rfl
@[simp] theorem State.modQueue_dies (s : State) (q : Nat) (f : LaunchQ → LaunchQ) : (s.modQueue q f).dies = s.dies := rfl
@[simp] theorem State.modQueue_walkers (s : State) (q : Nat) (f : LaunchQ → LaunchQ) : (s.modQueue q f).walkers = s.walkers := rfl
@[simp] theorem State.modQueue_funcs (s : State) (q : Nat) (f : LaunchQ → LaunchQ) : (s.modQueue q f).funcs = s.funcs := rfl
@[simp] theorem State.modQueue_mem (s : State) (q : Nat) (f : LaunchQ → LaunchQ) : (s.modQueue q f).mem = s.mem := rfl
@[simp] theorem State.modQueue_lines (s : State) (q : Nat) (f : LaunchQ → LaunchQ) : (s.modQueue q f).lines = s.lines := rfl
@[simp] theorem State.modQueue_devBias (s : State) (q : Nat) (f : LaunchQ → LaunchQ) : (s.modQueue q f).devBias = s.devBias := rfl
@[simp] theorem State.modQueue_classes (s : State) (q : Nat) (f : LaunchQ → LaunchQ) : (s.modQueue q f).classes = s.classes := rfl
@[simp] theorem State.modQueue_classSeq (s : State) (q : Nat) (f : LaunchQ → LaunchQ) : (s.modQueue q f).classSeq = s.classSeq := rfl
@[simp] theorem State.modQueue_launches (s : State) (q : Nat) (f : LaunchQ → LaunchQ) : (s.modQueue q f).launches = s.launches := rfl
@[simp] theorem State.modQueue_launchSeq (s : State) (q : Nat) (f : LaunchQ → LaunchQ) : (s.modQueue q f).launchSeq = s.launchSeq := rfl
@[simp] theorem State.modQueue_lastQ (s : State) (q : Nat) (f : LaunchQ → LaunchQ) : (s.modQueue q f).lastQ = s.lastQ := rfl
@[simp] theorem State.modQueue_orderSeq (s : State) (q : Nat) (f : LaunchQ → LaunchQ) : (s.modQueue q f).orderSeq = s.orderSeq := rfl
@[simp] theorem State.modQueue_saved (s : State) (q : Nat) (f : LaunchQ → LaunchQ) : (s.modQueue q f).saved = s.saved := rfl
@[simp] theorem State.modQueue_withdrawn (s : State) (q : Nat) (f : LaunchQ → LaunchQ) : (s.modQueue q f).withdrawn = s.withdrawn := rfl
@[simp] theorem State.modQueue_hall (s : State) (q : Nat) (f : LaunchQ → LaunchQ) : (s.modQueue q f).hall = s.hall := rfl
@[simp] theorem State.modQueue_keys (s : State) (q : Nat) (f : LaunchQ → LaunchQ) : (s.modQueue q f).keys = s.keys := rfl
@[simp] theorem State.modQueue_enclaves (s : State) (q : Nat) (f : LaunchQ → LaunchQ) : (s.modQueue q f).enclaves = s.enclaves := rfl
@[simp] theorem State.modQueue_regions (s : State) (q : Nat) (f : LaunchQ → LaunchQ) : (s.modQueue q f).regions = s.regions := rfl
@[simp] theorem State.modQueue_egress (s : State) (q : Nat) (f : LaunchQ → LaunchQ) : (s.modQueue q f).egress = s.egress := rfl
@[simp] theorem State.modQueue_sent (s : State) (q : Nat) (f : LaunchQ → LaunchQ) : (s.modQueue q f).sent = s.sent := rfl
@[simp] theorem State.modQueue_book (s : State) (q : Nat) (f : LaunchQ → LaunchQ) : (s.modQueue q f).book = s.book := rfl
@[simp] theorem State.modQueue_mgmt (s : State) (q : Nat) (f : LaunchQ → LaunchQ) : (s.modQueue q f).mgmt = s.mgmt := rfl

/-! ### `modHp` -/

@[simp] theorem State.modHp_cur (s : State) (i : Nat) (f : HallPass → HallPass) : (s.modHp i f).cur = s.cur := rfl
@[simp] theorem State.modHp_ev (s : State) (i : Nat) (f : HallPass → HallPass) : (s.modHp i f).ev = s.ev := rfl
@[simp] theorem State.modHp_clock (s : State) (i : Nat) (f : HallPass → HallPass) : (s.modHp i f).clock = s.clock := rfl
@[simp] theorem State.modHp_agenda (s : State) (i : Nat) (f : HallPass → HallPass) : (s.modHp i f).agenda = s.agenda := rfl
@[simp] theorem State.modHp_choices (s : State) (i : Nat) (f : HallPass → HallPass) : (s.modHp i f).choices = s.choices := rfl
@[simp] theorem State.modHp_freeCtr (s : State) (i : Nat) (f : HallPass → HallPass) : (s.modHp i f).freeCtr = s.freeCtr := rfl
@[simp] theorem State.modHp_harts (s : State) (i : Nat) (f : HallPass → HallPass) : (s.modHp i f).harts = s.harts := rfl
@[simp] theorem State.modHp_cores (s : State) (i : Nat) (f : HallPass → HallPass) : (s.modHp i f).cores = s.cores := rfl
@[simp] theorem State.modHp_clusters (s : State) (i : Nat) (f : HallPass → HallPass) : (s.modHp i f).clusters = s.clusters := rfl
@[simp] theorem State.modHp_dies (s : State) (i : Nat) (f : HallPass → HallPass) : (s.modHp i f).dies = s.dies := rfl
@[simp] theorem State.modHp_walkers (s : State) (i : Nat) (f : HallPass → HallPass) : (s.modHp i f).walkers = s.walkers := rfl
@[simp] theorem State.modHp_funcs (s : State) (i : Nat) (f : HallPass → HallPass) : (s.modHp i f).funcs = s.funcs := rfl
@[simp] theorem State.modHp_mem (s : State) (i : Nat) (f : HallPass → HallPass) : (s.modHp i f).mem = s.mem := rfl
@[simp] theorem State.modHp_lines (s : State) (i : Nat) (f : HallPass → HallPass) : (s.modHp i f).lines = s.lines := rfl
@[simp] theorem State.modHp_devBias (s : State) (i : Nat) (f : HallPass → HallPass) : (s.modHp i f).devBias = s.devBias := rfl
@[simp] theorem State.modHp_classes (s : State) (i : Nat) (f : HallPass → HallPass) : (s.modHp i f).classes = s.classes := rfl
@[simp] theorem State.modHp_classSeq (s : State) (i : Nat) (f : HallPass → HallPass) : (s.modHp i f).classSeq = s.classSeq := rfl
@[simp] theorem State.modHp_launches (s : State) (i : Nat) (f : HallPass → HallPass) : (s.modHp i f).launches = s.launches := rfl
@[simp] theorem State.modHp_launchSeq (s : State) (i : Nat) (f : HallPass → HallPass) : (s.modHp i f).launchSeq = s.launchSeq := rfl
@[simp] theorem State.modHp_queues (s : State) (i : Nat) (f : HallPass → HallPass) : (s.modHp i f).queues = s.queues := rfl
@[simp] theorem State.modHp_lastQ (s : State) (i : Nat) (f : HallPass → HallPass) : (s.modHp i f).lastQ = s.lastQ := rfl
@[simp] theorem State.modHp_orderSeq (s : State) (i : Nat) (f : HallPass → HallPass) : (s.modHp i f).orderSeq = s.orderSeq := rfl
@[simp] theorem State.modHp_saved (s : State) (i : Nat) (f : HallPass → HallPass) : (s.modHp i f).saved = s.saved := rfl
@[simp] theorem State.modHp_withdrawn (s : State) (i : Nat) (f : HallPass → HallPass) : (s.modHp i f).withdrawn = s.withdrawn := rfl
@[simp] theorem State.modHp_keys (s : State) (i : Nat) (f : HallPass → HallPass) : (s.modHp i f).keys = s.keys := rfl
@[simp] theorem State.modHp_enclaves (s : State) (i : Nat) (f : HallPass → HallPass) : (s.modHp i f).enclaves = s.enclaves := rfl
@[simp] theorem State.modHp_regions (s : State) (i : Nat) (f : HallPass → HallPass) : (s.modHp i f).regions = s.regions := rfl
@[simp] theorem State.modHp_egress (s : State) (i : Nat) (f : HallPass → HallPass) : (s.modHp i f).egress = s.egress := rfl
@[simp] theorem State.modHp_sent (s : State) (i : Nat) (f : HallPass → HallPass) : (s.modHp i f).sent = s.sent := rfl
@[simp] theorem State.modHp_book (s : State) (i : Nat) (f : HallPass → HallPass) : (s.modHp i f).book = s.book := rfl
@[simp] theorem State.modHp_mgmt (s : State) (i : Nat) (f : HallPass → HallPass) : (s.modHp i f).mgmt = s.mgmt := rfl

/-! ### `modLine` -/

@[simp] theorem State.modLine_cur (s : State) (l : Nat) (f : LineMeta → LineMeta) : (s.modLine l f).cur = s.cur := rfl
@[simp] theorem State.modLine_ev (s : State) (l : Nat) (f : LineMeta → LineMeta) : (s.modLine l f).ev = s.ev := rfl
@[simp] theorem State.modLine_clock (s : State) (l : Nat) (f : LineMeta → LineMeta) : (s.modLine l f).clock = s.clock := rfl
@[simp] theorem State.modLine_agenda (s : State) (l : Nat) (f : LineMeta → LineMeta) : (s.modLine l f).agenda = s.agenda := rfl
@[simp] theorem State.modLine_choices (s : State) (l : Nat) (f : LineMeta → LineMeta) : (s.modLine l f).choices = s.choices := rfl
@[simp] theorem State.modLine_freeCtr (s : State) (l : Nat) (f : LineMeta → LineMeta) : (s.modLine l f).freeCtr = s.freeCtr := rfl
@[simp] theorem State.modLine_harts (s : State) (l : Nat) (f : LineMeta → LineMeta) : (s.modLine l f).harts = s.harts := rfl
@[simp] theorem State.modLine_cores (s : State) (l : Nat) (f : LineMeta → LineMeta) : (s.modLine l f).cores = s.cores := rfl
@[simp] theorem State.modLine_clusters (s : State) (l : Nat) (f : LineMeta → LineMeta) : (s.modLine l f).clusters = s.clusters := rfl
@[simp] theorem State.modLine_dies (s : State) (l : Nat) (f : LineMeta → LineMeta) : (s.modLine l f).dies = s.dies := rfl
@[simp] theorem State.modLine_walkers (s : State) (l : Nat) (f : LineMeta → LineMeta) : (s.modLine l f).walkers = s.walkers := rfl
@[simp] theorem State.modLine_funcs (s : State) (l : Nat) (f : LineMeta → LineMeta) : (s.modLine l f).funcs = s.funcs := rfl
@[simp] theorem State.modLine_mem (s : State) (l : Nat) (f : LineMeta → LineMeta) : (s.modLine l f).mem = s.mem := rfl
@[simp] theorem State.modLine_devBias (s : State) (l : Nat) (f : LineMeta → LineMeta) : (s.modLine l f).devBias = s.devBias := rfl
@[simp] theorem State.modLine_classes (s : State) (l : Nat) (f : LineMeta → LineMeta) : (s.modLine l f).classes = s.classes := rfl
@[simp] theorem State.modLine_classSeq (s : State) (l : Nat) (f : LineMeta → LineMeta) : (s.modLine l f).classSeq = s.classSeq := rfl
@[simp] theorem State.modLine_launches (s : State) (l : Nat) (f : LineMeta → LineMeta) : (s.modLine l f).launches = s.launches := rfl
@[simp] theorem State.modLine_launchSeq (s : State) (l : Nat) (f : LineMeta → LineMeta) : (s.modLine l f).launchSeq = s.launchSeq := rfl
@[simp] theorem State.modLine_queues (s : State) (l : Nat) (f : LineMeta → LineMeta) : (s.modLine l f).queues = s.queues := rfl
@[simp] theorem State.modLine_lastQ (s : State) (l : Nat) (f : LineMeta → LineMeta) : (s.modLine l f).lastQ = s.lastQ := rfl
@[simp] theorem State.modLine_orderSeq (s : State) (l : Nat) (f : LineMeta → LineMeta) : (s.modLine l f).orderSeq = s.orderSeq := rfl
@[simp] theorem State.modLine_saved (s : State) (l : Nat) (f : LineMeta → LineMeta) : (s.modLine l f).saved = s.saved := rfl
@[simp] theorem State.modLine_withdrawn (s : State) (l : Nat) (f : LineMeta → LineMeta) : (s.modLine l f).withdrawn = s.withdrawn := rfl
@[simp] theorem State.modLine_hall (s : State) (l : Nat) (f : LineMeta → LineMeta) : (s.modLine l f).hall = s.hall := rfl
@[simp] theorem State.modLine_keys (s : State) (l : Nat) (f : LineMeta → LineMeta) : (s.modLine l f).keys = s.keys := rfl
@[simp] theorem State.modLine_enclaves (s : State) (l : Nat) (f : LineMeta → LineMeta) : (s.modLine l f).enclaves = s.enclaves := rfl
@[simp] theorem State.modLine_regions (s : State) (l : Nat) (f : LineMeta → LineMeta) : (s.modLine l f).regions = s.regions := rfl
@[simp] theorem State.modLine_egress (s : State) (l : Nat) (f : LineMeta → LineMeta) : (s.modLine l f).egress = s.egress := rfl
@[simp] theorem State.modLine_sent (s : State) (l : Nat) (f : LineMeta → LineMeta) : (s.modLine l f).sent = s.sent := rfl
@[simp] theorem State.modLine_book (s : State) (l : Nat) (f : LineMeta → LineMeta) : (s.modLine l f).book = s.book := rfl
@[simp] theorem State.modLine_mgmt (s : State) (l : Nat) (f : LineMeta → LineMeta) : (s.modLine l f).mgmt = s.mgmt := rfl

/-! ### `Hart.setX` -/

@[simp] theorem Hart.setX_live (h : Hart) (i : Nat) (v : Word) : (h.setX i v).live = h.live := by unfold Hart.setX; split <;> rfl
@[simp] theorem Hart.setX_halted (h : Hart) (i : Nat) (v : Word) : (h.setX i v).halted = h.halted := by unfold Hart.setX; split <;> rfl
@[simp] theorem Hart.setX_haltReq (h : Hart) (i : Nat) (v : Word) : (h.setX i v).haltReq = h.haltReq := by unfold Hart.setX; split <;> rfl
@[simp] theorem Hart.setX_retired (h : Hart) (i : Nat) (v : Word) : (h.setX i v).retired = h.retired := by unfold Hart.setX; split <;> rfl
@[simp] theorem Hart.setX_priv (h : Hart) (i : Nat) (v : Word) : (h.setX i v).priv = h.priv := by unfold Hart.setX; split <;> rfl
@[simp] theorem Hart.setX_pc (h : Hart) (i : Nat) (v : Word) : (h.setX i v).pc = h.pc := by unfold Hart.setX; split <;> rfl
@[simp] theorem Hart.setX_f (h : Hart) (i : Nat) (v : Word) : (h.setX i v).f = h.f := by unfold Hart.setX; split <;> rfl
@[simp] theorem Hart.setX_frm (h : Hart) (i : Nat) (v : Word) : (h.setX i v).frm = h.frm := by unfold Hart.setX; split <;> rfl
@[simp] theorem Hart.setX_fflags (h : Hart) (i : Nat) (v : Word) : (h.setX i v).fflags = h.fflags := by unfold Hart.setX; split <;> rfl
@[simp] theorem Hart.setX_v (h : Hart) (i : Nat) (v : Word) : (h.setX i v).v = h.v := by unfold Hart.setX; split <;> rfl
@[simp] theorem Hart.setX_m (h : Hart) (i : Nat) (v : Word) : (h.setX i v).m = h.m := by unfold Hart.setX; split <;> rfl
@[simp] theorem Hart.setX_kms (h : Hart) (i : Nat) (v : Word) : (h.setX i v).kms = h.kms := by unfold Hart.setX; split <;> rfl
@[simp] theorem Hart.setX_kmsd (h : Hart) (i : Nat) (v : Word) : (h.setX i v).kmsd = h.kmsd := by unfold Hart.setX; split <;> rfl
@[simp] theorem Hart.setX_inbox (h : Hart) (i : Nat) (v : Word) : (h.setX i v).inbox = h.inbox := by unfold Hart.setX; split <;> rfl
@[simp] theorem Hart.setX_present (h : Hart) (i : Nat) (v : Word) : (h.setX i v).present = h.present := by unfold Hart.setX; split <;> rfl
@[simp] theorem Hart.setX_inFrom (h : Hart) (i : Nat) (v : Word) : (h.setX i v).inFrom = h.inFrom := by unfold Hart.setX; split <;> rfl
@[simp] theorem Hart.setX_held (h : Hart) (i : Nat) (v : Word) : (h.setX i v).held = h.held := by unfold Hart.setX; split <;> rfl
@[simp] theorem Hart.setX_cf (h : Hart) (i : Nat) (v : Word) : (h.setX i v).cf = h.cf := by unfold Hart.setX; split <;> rfl
@[simp] theorem Hart.setX_faults (h : Hart) (i : Nat) (v : Word) : (h.setX i v).faults = h.faults := by unfold Hart.setX; split <;> rfl
@[simp] theorem Hart.setX_clause (h : Hart) (i : Nat) (v : Word) : (h.setX i v).clause = h.clause := by unfold Hart.setX; split <;> rfl
@[simp] theorem Hart.setX_csr (h : Hart) (i : Nat) (v : Word) : (h.setX i v).csr = h.csr := by unfold Hart.setX; split <;> rfl
@[simp] theorem Hart.setX_k (h : Hart) (i : Nat) (v : Word) : (h.setX i v).k = h.k := by unfold Hart.setX; split <;> rfl
@[simp] theorem Hart.setX_resv (h : Hart) (i : Nat) (v : Word) : (h.setX i v).resv = h.resv := by unfold Hart.setX; split <;> rfl
@[simp] theorem Hart.setX_wait (h : Hart) (i : Nat) (v : Word) : (h.setX i v).wait = h.wait := by unfold Hart.setX; split <;> rfl
@[simp] theorem Hart.setX_bind (h : Hart) (i : Nat) (v : Word) : (h.setX i v).bind = h.bind := by unfold Hart.setX; split <;> rfl
@[simp] theorem Hart.setX_fn (h : Hart) (i : Nat) (v : Word) : (h.setX i v).fn = h.fn := by unfold Hart.setX; split <;> rfl
@[simp] theorem Hart.setX_taint (h : Hart) (i : Nat) (v : Word) : (h.setX i v).taint = h.taint := by unfold Hart.setX; split <;> rfl
@[simp] theorem Hart.setX_mtaint (h : Hart) (i : Nat) (v : Word) : (h.setX i v).mtaint = h.mtaint := by unfold Hart.setX; split <;> rfl
@[simp] theorem Hart.setX_tfr (h : Hart) (i : Nat) (v : Word) : (h.setX i v).tfr = h.tfr := by unfold Hart.setX; split <;> rfl
@[simp] theorem Hart.setX_ibits (h : Hart) (i : Nat) (v : Word) : (h.setX i v).ibits = h.ibits := by unfold Hart.setX; split <;> rfl
@[simp] theorem Hart.setX_ilen (h : Hart) (i : Nat) (v : Word) : (h.setX i v).ilen = h.ilen := by unfold Hart.setX; split <;> rfl

/-! ### `Hart.setF` -/

@[simp] theorem Hart.setF_live (h : Hart) (i : Nat) (v : Word) : (h.setF i v).live = h.live := rfl
@[simp] theorem Hart.setF_halted (h : Hart) (i : Nat) (v : Word) : (h.setF i v).halted = h.halted := rfl
@[simp] theorem Hart.setF_haltReq (h : Hart) (i : Nat) (v : Word) : (h.setF i v).haltReq = h.haltReq := rfl
@[simp] theorem Hart.setF_retired (h : Hart) (i : Nat) (v : Word) : (h.setF i v).retired = h.retired := rfl
@[simp] theorem Hart.setF_priv (h : Hart) (i : Nat) (v : Word) : (h.setF i v).priv = h.priv := rfl
@[simp] theorem Hart.setF_pc (h : Hart) (i : Nat) (v : Word) : (h.setF i v).pc = h.pc := rfl
@[simp] theorem Hart.setF_x (h : Hart) (i : Nat) (v : Word) : (h.setF i v).x = h.x := rfl
@[simp] theorem Hart.setF_frm (h : Hart) (i : Nat) (v : Word) : (h.setF i v).frm = h.frm := rfl
@[simp] theorem Hart.setF_fflags (h : Hart) (i : Nat) (v : Word) : (h.setF i v).fflags = h.fflags := rfl
@[simp] theorem Hart.setF_v (h : Hart) (i : Nat) (v : Word) : (h.setF i v).v = h.v := rfl
@[simp] theorem Hart.setF_m (h : Hart) (i : Nat) (v : Word) : (h.setF i v).m = h.m := rfl
@[simp] theorem Hart.setF_kms (h : Hart) (i : Nat) (v : Word) : (h.setF i v).kms = h.kms := rfl
@[simp] theorem Hart.setF_kmsd (h : Hart) (i : Nat) (v : Word) : (h.setF i v).kmsd = h.kmsd := rfl
@[simp] theorem Hart.setF_inbox (h : Hart) (i : Nat) (v : Word) : (h.setF i v).inbox = h.inbox := rfl
@[simp] theorem Hart.setF_present (h : Hart) (i : Nat) (v : Word) : (h.setF i v).present = h.present := rfl
@[simp] theorem Hart.setF_inFrom (h : Hart) (i : Nat) (v : Word) : (h.setF i v).inFrom = h.inFrom := rfl
@[simp] theorem Hart.setF_held (h : Hart) (i : Nat) (v : Word) : (h.setF i v).held = h.held := rfl
@[simp] theorem Hart.setF_cf (h : Hart) (i : Nat) (v : Word) : (h.setF i v).cf = h.cf := rfl
@[simp] theorem Hart.setF_faults (h : Hart) (i : Nat) (v : Word) : (h.setF i v).faults = h.faults := rfl
@[simp] theorem Hart.setF_clause (h : Hart) (i : Nat) (v : Word) : (h.setF i v).clause = h.clause := rfl
@[simp] theorem Hart.setF_csr (h : Hart) (i : Nat) (v : Word) : (h.setF i v).csr = h.csr := rfl
@[simp] theorem Hart.setF_k (h : Hart) (i : Nat) (v : Word) : (h.setF i v).k = h.k := rfl
@[simp] theorem Hart.setF_resv (h : Hart) (i : Nat) (v : Word) : (h.setF i v).resv = h.resv := rfl
@[simp] theorem Hart.setF_wait (h : Hart) (i : Nat) (v : Word) : (h.setF i v).wait = h.wait := rfl
@[simp] theorem Hart.setF_bind (h : Hart) (i : Nat) (v : Word) : (h.setF i v).bind = h.bind := rfl
@[simp] theorem Hart.setF_fn (h : Hart) (i : Nat) (v : Word) : (h.setF i v).fn = h.fn := rfl
@[simp] theorem Hart.setF_taint (h : Hart) (i : Nat) (v : Word) : (h.setF i v).taint = h.taint := rfl
@[simp] theorem Hart.setF_mtaint (h : Hart) (i : Nat) (v : Word) : (h.setF i v).mtaint = h.mtaint := rfl
@[simp] theorem Hart.setF_tfr (h : Hart) (i : Nat) (v : Word) : (h.setF i v).tfr = h.tfr := rfl
@[simp] theorem Hart.setF_ibits (h : Hart) (i : Nat) (v : Word) : (h.setF i v).ibits = h.ibits := rfl
@[simp] theorem Hart.setF_ilen (h : Hart) (i : Nat) (v : Word) : (h.setF i v).ilen = h.ilen := rfl

/-! ### `Hart.setV` -/

@[simp] theorem Hart.setV_live (h : Hart) (n l : Nat) (v : Elem) : (h.setV n l v).live = h.live := rfl
@[simp] theorem Hart.setV_halted (h : Hart) (n l : Nat) (v : Elem) : (h.setV n l v).halted = h.halted := rfl
@[simp] theorem Hart.setV_haltReq (h : Hart) (n l : Nat) (v : Elem) : (h.setV n l v).haltReq = h.haltReq := rfl
@[simp] theorem Hart.setV_retired (h : Hart) (n l : Nat) (v : Elem) : (h.setV n l v).retired = h.retired := rfl
@[simp] theorem Hart.setV_priv (h : Hart) (n l : Nat) (v : Elem) : (h.setV n l v).priv = h.priv := rfl
@[simp] theorem Hart.setV_pc (h : Hart) (n l : Nat) (v : Elem) : (h.setV n l v).pc = h.pc := rfl
@[simp] theorem Hart.setV_x (h : Hart) (n l : Nat) (v : Elem) : (h.setV n l v).x = h.x := rfl
@[simp] theorem Hart.setV_f (h : Hart) (n l : Nat) (v : Elem) : (h.setV n l v).f = h.f := rfl
@[simp] theorem Hart.setV_frm (h : Hart) (n l : Nat) (v : Elem) : (h.setV n l v).frm = h.frm := rfl
@[simp] theorem Hart.setV_fflags (h : Hart) (n l : Nat) (v : Elem) : (h.setV n l v).fflags = h.fflags := rfl
@[simp] theorem Hart.setV_m (h : Hart) (n l : Nat) (v : Elem) : (h.setV n l v).m = h.m := rfl
@[simp] theorem Hart.setV_kms (h : Hart) (n l : Nat) (v : Elem) : (h.setV n l v).kms = h.kms := rfl
@[simp] theorem Hart.setV_kmsd (h : Hart) (n l : Nat) (v : Elem) : (h.setV n l v).kmsd = h.kmsd := rfl
@[simp] theorem Hart.setV_inbox (h : Hart) (n l : Nat) (v : Elem) : (h.setV n l v).inbox = h.inbox := rfl
@[simp] theorem Hart.setV_present (h : Hart) (n l : Nat) (v : Elem) : (h.setV n l v).present = h.present := rfl
@[simp] theorem Hart.setV_inFrom (h : Hart) (n l : Nat) (v : Elem) : (h.setV n l v).inFrom = h.inFrom := rfl
@[simp] theorem Hart.setV_held (h : Hart) (n l : Nat) (v : Elem) : (h.setV n l v).held = h.held := rfl
@[simp] theorem Hart.setV_cf (h : Hart) (n l : Nat) (v : Elem) : (h.setV n l v).cf = h.cf := rfl
@[simp] theorem Hart.setV_faults (h : Hart) (n l : Nat) (v : Elem) : (h.setV n l v).faults = h.faults := rfl
@[simp] theorem Hart.setV_clause (h : Hart) (n l : Nat) (v : Elem) : (h.setV n l v).clause = h.clause := rfl
@[simp] theorem Hart.setV_csr (h : Hart) (n l : Nat) (v : Elem) : (h.setV n l v).csr = h.csr := rfl
@[simp] theorem Hart.setV_k (h : Hart) (n l : Nat) (v : Elem) : (h.setV n l v).k = h.k := rfl
@[simp] theorem Hart.setV_resv (h : Hart) (n l : Nat) (v : Elem) : (h.setV n l v).resv = h.resv := rfl
@[simp] theorem Hart.setV_wait (h : Hart) (n l : Nat) (v : Elem) : (h.setV n l v).wait = h.wait := rfl
@[simp] theorem Hart.setV_bind (h : Hart) (n l : Nat) (v : Elem) : (h.setV n l v).bind = h.bind := rfl
@[simp] theorem Hart.setV_fn (h : Hart) (n l : Nat) (v : Elem) : (h.setV n l v).fn = h.fn := rfl
@[simp] theorem Hart.setV_taint (h : Hart) (n l : Nat) (v : Elem) : (h.setV n l v).taint = h.taint := rfl
@[simp] theorem Hart.setV_mtaint (h : Hart) (n l : Nat) (v : Elem) : (h.setV n l v).mtaint = h.mtaint := rfl
@[simp] theorem Hart.setV_tfr (h : Hart) (n l : Nat) (v : Elem) : (h.setV n l v).tfr = h.tfr := rfl
@[simp] theorem Hart.setV_ibits (h : Hart) (n l : Nat) (v : Elem) : (h.setV n l v).ibits = h.ibits := rfl
@[simp] theorem Hart.setV_ilen (h : Hart) (n l : Nat) (v : Elem) : (h.setV n l v).ilen = h.ilen := rfl

/-! ### `Hart.setM` -/

@[simp] theorem Hart.setM_live (h : Hart) (i : Nat) (v : BitVec 32) : (h.setM i v).live = h.live := rfl
@[simp] theorem Hart.setM_halted (h : Hart) (i : Nat) (v : BitVec 32) : (h.setM i v).halted = h.halted := rfl
@[simp] theorem Hart.setM_haltReq (h : Hart) (i : Nat) (v : BitVec 32) : (h.setM i v).haltReq = h.haltReq := rfl
@[simp] theorem Hart.setM_retired (h : Hart) (i : Nat) (v : BitVec 32) : (h.setM i v).retired = h.retired := rfl
@[simp] theorem Hart.setM_priv (h : Hart) (i : Nat) (v : BitVec 32) : (h.setM i v).priv = h.priv := rfl
@[simp] theorem Hart.setM_pc (h : Hart) (i : Nat) (v : BitVec 32) : (h.setM i v).pc = h.pc := rfl
@[simp] theorem Hart.setM_x (h : Hart) (i : Nat) (v : BitVec 32) : (h.setM i v).x = h.x := rfl
@[simp] theorem Hart.setM_f (h : Hart) (i : Nat) (v : BitVec 32) : (h.setM i v).f = h.f := rfl
@[simp] theorem Hart.setM_frm (h : Hart) (i : Nat) (v : BitVec 32) : (h.setM i v).frm = h.frm := rfl
@[simp] theorem Hart.setM_fflags (h : Hart) (i : Nat) (v : BitVec 32) : (h.setM i v).fflags = h.fflags := rfl
@[simp] theorem Hart.setM_v (h : Hart) (i : Nat) (v : BitVec 32) : (h.setM i v).v = h.v := rfl
@[simp] theorem Hart.setM_kms (h : Hart) (i : Nat) (v : BitVec 32) : (h.setM i v).kms = h.kms := rfl
@[simp] theorem Hart.setM_kmsd (h : Hart) (i : Nat) (v : BitVec 32) : (h.setM i v).kmsd = h.kmsd := rfl
@[simp] theorem Hart.setM_inbox (h : Hart) (i : Nat) (v : BitVec 32) : (h.setM i v).inbox = h.inbox := rfl
@[simp] theorem Hart.setM_present (h : Hart) (i : Nat) (v : BitVec 32) : (h.setM i v).present = h.present := rfl
@[simp] theorem Hart.setM_inFrom (h : Hart) (i : Nat) (v : BitVec 32) : (h.setM i v).inFrom = h.inFrom := rfl
@[simp] theorem Hart.setM_held (h : Hart) (i : Nat) (v : BitVec 32) : (h.setM i v).held = h.held := rfl
@[simp] theorem Hart.setM_cf (h : Hart) (i : Nat) (v : BitVec 32) : (h.setM i v).cf = h.cf := rfl
@[simp] theorem Hart.setM_faults (h : Hart) (i : Nat) (v : BitVec 32) : (h.setM i v).faults = h.faults := rfl
@[simp] theorem Hart.setM_clause (h : Hart) (i : Nat) (v : BitVec 32) : (h.setM i v).clause = h.clause := rfl
@[simp] theorem Hart.setM_csr (h : Hart) (i : Nat) (v : BitVec 32) : (h.setM i v).csr = h.csr := rfl
@[simp] theorem Hart.setM_k (h : Hart) (i : Nat) (v : BitVec 32) : (h.setM i v).k = h.k := rfl
@[simp] theorem Hart.setM_resv (h : Hart) (i : Nat) (v : BitVec 32) : (h.setM i v).resv = h.resv := rfl
@[simp] theorem Hart.setM_wait (h : Hart) (i : Nat) (v : BitVec 32) : (h.setM i v).wait = h.wait := rfl
@[simp] theorem Hart.setM_bind (h : Hart) (i : Nat) (v : BitVec 32) : (h.setM i v).bind = h.bind := rfl
@[simp] theorem Hart.setM_fn (h : Hart) (i : Nat) (v : BitVec 32) : (h.setM i v).fn = h.fn := rfl
@[simp] theorem Hart.setM_taint (h : Hart) (i : Nat) (v : BitVec 32) : (h.setM i v).taint = h.taint := rfl
@[simp] theorem Hart.setM_mtaint (h : Hart) (i : Nat) (v : BitVec 32) : (h.setM i v).mtaint = h.mtaint := rfl
@[simp] theorem Hart.setM_tfr (h : Hart) (i : Nat) (v : BitVec 32) : (h.setM i v).tfr = h.tfr := rfl
@[simp] theorem Hart.setM_ibits (h : Hart) (i : Nat) (v : BitVec 32) : (h.setM i v).ibits = h.ibits := rfl
@[simp] theorem Hart.setM_ilen (h : Hart) (i : Nat) (v : BitVec 32) : (h.setM i v).ilen = h.ilen := rfl

/-! ### `Hart.setXs` -/

@[simp] theorem Hart.setXs_live (h : Hart) (n : Nat) : (h.setXs n).live = h.live := by unfold Hart.setXs; rfl
@[simp] theorem Hart.setXs_halted (h : Hart) (n : Nat) : (h.setXs n).halted = h.halted := by unfold Hart.setXs; rfl
@[simp] theorem Hart.setXs_haltReq (h : Hart) (n : Nat) : (h.setXs n).haltReq = h.haltReq := by unfold Hart.setXs; rfl
@[simp] theorem Hart.setXs_retired (h : Hart) (n : Nat) : (h.setXs n).retired = h.retired := by unfold Hart.setXs; rfl
@[simp] theorem Hart.setXs_priv (h : Hart) (n : Nat) : (h.setXs n).priv = h.priv := by unfold Hart.setXs; rfl
@[simp] theorem Hart.setXs_pc (h : Hart) (n : Nat) : (h.setXs n).pc = h.pc := by unfold Hart.setXs; rfl
@[simp] theorem Hart.setXs_x (h : Hart) (n : Nat) : (h.setXs n).x = h.x := by unfold Hart.setXs; rfl
@[simp] theorem Hart.setXs_f (h : Hart) (n : Nat) : (h.setXs n).f = h.f := by unfold Hart.setXs; rfl
@[simp] theorem Hart.setXs_frm (h : Hart) (n : Nat) : (h.setXs n).frm = h.frm := by unfold Hart.setXs; rfl
@[simp] theorem Hart.setXs_fflags (h : Hart) (n : Nat) : (h.setXs n).fflags = h.fflags := by unfold Hart.setXs; rfl
@[simp] theorem Hart.setXs_v (h : Hart) (n : Nat) : (h.setXs n).v = h.v := by unfold Hart.setXs; rfl
@[simp] theorem Hart.setXs_m (h : Hart) (n : Nat) : (h.setXs n).m = h.m := by unfold Hart.setXs; rfl
@[simp] theorem Hart.setXs_kms (h : Hart) (n : Nat) : (h.setXs n).kms = h.kms := by unfold Hart.setXs; rfl
@[simp] theorem Hart.setXs_kmsd (h : Hart) (n : Nat) : (h.setXs n).kmsd = h.kmsd := by unfold Hart.setXs; rfl
@[simp] theorem Hart.setXs_inbox (h : Hart) (n : Nat) : (h.setXs n).inbox = h.inbox := by unfold Hart.setXs; rfl
@[simp] theorem Hart.setXs_present (h : Hart) (n : Nat) : (h.setXs n).present = h.present := by unfold Hart.setXs; rfl
@[simp] theorem Hart.setXs_inFrom (h : Hart) (n : Nat) : (h.setXs n).inFrom = h.inFrom := by unfold Hart.setXs; rfl
@[simp] theorem Hart.setXs_held (h : Hart) (n : Nat) : (h.setXs n).held = h.held := by unfold Hart.setXs; rfl
@[simp] theorem Hart.setXs_cf (h : Hart) (n : Nat) : (h.setXs n).cf = h.cf := by unfold Hart.setXs; rfl
@[simp] theorem Hart.setXs_faults (h : Hart) (n : Nat) : (h.setXs n).faults = h.faults := by unfold Hart.setXs; rfl
@[simp] theorem Hart.setXs_clause (h : Hart) (n : Nat) : (h.setXs n).clause = h.clause := by unfold Hart.setXs; rfl
@[simp] theorem Hart.setXs_k (h : Hart) (n : Nat) : (h.setXs n).k = h.k := by unfold Hart.setXs; rfl
@[simp] theorem Hart.setXs_resv (h : Hart) (n : Nat) : (h.setXs n).resv = h.resv := by unfold Hart.setXs; rfl
@[simp] theorem Hart.setXs_wait (h : Hart) (n : Nat) : (h.setXs n).wait = h.wait := by unfold Hart.setXs; rfl
@[simp] theorem Hart.setXs_bind (h : Hart) (n : Nat) : (h.setXs n).bind = h.bind := by unfold Hart.setXs; rfl
@[simp] theorem Hart.setXs_fn (h : Hart) (n : Nat) : (h.setXs n).fn = h.fn := by unfold Hart.setXs; rfl
@[simp] theorem Hart.setXs_taint (h : Hart) (n : Nat) : (h.setXs n).taint = h.taint := by unfold Hart.setXs; rfl
@[simp] theorem Hart.setXs_mtaint (h : Hart) (n : Nat) : (h.setXs n).mtaint = h.mtaint := by unfold Hart.setXs; rfl
@[simp] theorem Hart.setXs_tfr (h : Hart) (n : Nat) : (h.setXs n).tfr = h.tfr := by unfold Hart.setXs; rfl
@[simp] theorem Hart.setXs_ibits (h : Hart) (n : Nat) : (h.setXs n).ibits = h.ibits := by unfold Hart.setXs; rfl
@[simp] theorem Hart.setXs_ilen (h : Hart) (n : Nat) : (h.setXs n).ilen = h.ilen := by unfold Hart.setXs; rfl

/-! ### `Hart.setFs` -/

@[simp] theorem Hart.setFs_live (h : Hart) (n : Nat) : (h.setFs n).live = h.live := by unfold Hart.setFs; rfl
@[simp] theorem Hart.setFs_halted (h : Hart) (n : Nat) : (h.setFs n).halted = h.halted := by unfold Hart.setFs; rfl
@[simp] theorem Hart.setFs_haltReq (h : Hart) (n : Nat) : (h.setFs n).haltReq = h.haltReq := by unfold Hart.setFs; rfl
@[simp] theorem Hart.setFs_retired (h : Hart) (n : Nat) : (h.setFs n).retired = h.retired := by unfold Hart.setFs; rfl
@[simp] theorem Hart.setFs_priv (h : Hart) (n : Nat) : (h.setFs n).priv = h.priv := by unfold Hart.setFs; rfl
@[simp] theorem Hart.setFs_pc (h : Hart) (n : Nat) : (h.setFs n).pc = h.pc := by unfold Hart.setFs; rfl
@[simp] theorem Hart.setFs_x (h : Hart) (n : Nat) : (h.setFs n).x = h.x := by unfold Hart.setFs; rfl
@[simp] theorem Hart.setFs_f (h : Hart) (n : Nat) : (h.setFs n).f = h.f := by unfold Hart.setFs; rfl
@[simp] theorem Hart.setFs_frm (h : Hart) (n : Nat) : (h.setFs n).frm = h.frm := by unfold Hart.setFs; rfl
@[simp] theorem Hart.setFs_fflags (h : Hart) (n : Nat) : (h.setFs n).fflags = h.fflags := by unfold Hart.setFs; rfl
@[simp] theorem Hart.setFs_v (h : Hart) (n : Nat) : (h.setFs n).v = h.v := by unfold Hart.setFs; rfl
@[simp] theorem Hart.setFs_m (h : Hart) (n : Nat) : (h.setFs n).m = h.m := by unfold Hart.setFs; rfl
@[simp] theorem Hart.setFs_kms (h : Hart) (n : Nat) : (h.setFs n).kms = h.kms := by unfold Hart.setFs; rfl
@[simp] theorem Hart.setFs_kmsd (h : Hart) (n : Nat) : (h.setFs n).kmsd = h.kmsd := by unfold Hart.setFs; rfl
@[simp] theorem Hart.setFs_inbox (h : Hart) (n : Nat) : (h.setFs n).inbox = h.inbox := by unfold Hart.setFs; rfl
@[simp] theorem Hart.setFs_present (h : Hart) (n : Nat) : (h.setFs n).present = h.present := by unfold Hart.setFs; rfl
@[simp] theorem Hart.setFs_inFrom (h : Hart) (n : Nat) : (h.setFs n).inFrom = h.inFrom := by unfold Hart.setFs; rfl
@[simp] theorem Hart.setFs_held (h : Hart) (n : Nat) : (h.setFs n).held = h.held := by unfold Hart.setFs; rfl
@[simp] theorem Hart.setFs_cf (h : Hart) (n : Nat) : (h.setFs n).cf = h.cf := by unfold Hart.setFs; rfl
@[simp] theorem Hart.setFs_faults (h : Hart) (n : Nat) : (h.setFs n).faults = h.faults := by unfold Hart.setFs; rfl
@[simp] theorem Hart.setFs_clause (h : Hart) (n : Nat) : (h.setFs n).clause = h.clause := by unfold Hart.setFs; rfl
@[simp] theorem Hart.setFs_k (h : Hart) (n : Nat) : (h.setFs n).k = h.k := by unfold Hart.setFs; rfl
@[simp] theorem Hart.setFs_resv (h : Hart) (n : Nat) : (h.setFs n).resv = h.resv := by unfold Hart.setFs; rfl
@[simp] theorem Hart.setFs_wait (h : Hart) (n : Nat) : (h.setFs n).wait = h.wait := by unfold Hart.setFs; rfl
@[simp] theorem Hart.setFs_bind (h : Hart) (n : Nat) : (h.setFs n).bind = h.bind := by unfold Hart.setFs; rfl
@[simp] theorem Hart.setFs_fn (h : Hart) (n : Nat) : (h.setFs n).fn = h.fn := by unfold Hart.setFs; rfl
@[simp] theorem Hart.setFs_taint (h : Hart) (n : Nat) : (h.setFs n).taint = h.taint := by unfold Hart.setFs; rfl
@[simp] theorem Hart.setFs_mtaint (h : Hart) (n : Nat) : (h.setFs n).mtaint = h.mtaint := by unfold Hart.setFs; rfl
@[simp] theorem Hart.setFs_tfr (h : Hart) (n : Nat) : (h.setFs n).tfr = h.tfr := by unfold Hart.setFs; rfl
@[simp] theorem Hart.setFs_ibits (h : Hart) (n : Nat) : (h.setFs n).ibits = h.ibits := by unfold Hart.setFs; rfl
@[simp] theorem Hart.setFs_ilen (h : Hart) (n : Nat) : (h.setFs n).ilen = h.ilen := by unfold Hart.setFs; rfl

/-! ### `Hart.dirtyXs` -/

@[simp] theorem Hart.dirtyXs_live (h : Hart) : (h.dirtyXs).live = h.live := by unfold Hart.dirtyXs Hart.setXs; rfl
@[simp] theorem Hart.dirtyXs_halted (h : Hart) : (h.dirtyXs).halted = h.halted := by unfold Hart.dirtyXs Hart.setXs; rfl
@[simp] theorem Hart.dirtyXs_haltReq (h : Hart) : (h.dirtyXs).haltReq = h.haltReq := by unfold Hart.dirtyXs Hart.setXs; rfl
@[simp] theorem Hart.dirtyXs_retired (h : Hart) : (h.dirtyXs).retired = h.retired := by unfold Hart.dirtyXs Hart.setXs; rfl
@[simp] theorem Hart.dirtyXs_priv (h : Hart) : (h.dirtyXs).priv = h.priv := by unfold Hart.dirtyXs Hart.setXs; rfl
@[simp] theorem Hart.dirtyXs_pc (h : Hart) : (h.dirtyXs).pc = h.pc := by unfold Hart.dirtyXs Hart.setXs; rfl
@[simp] theorem Hart.dirtyXs_x (h : Hart) : (h.dirtyXs).x = h.x := by unfold Hart.dirtyXs Hart.setXs; rfl
@[simp] theorem Hart.dirtyXs_f (h : Hart) : (h.dirtyXs).f = h.f := by unfold Hart.dirtyXs Hart.setXs; rfl
@[simp] theorem Hart.dirtyXs_frm (h : Hart) : (h.dirtyXs).frm = h.frm := by unfold Hart.dirtyXs Hart.setXs; rfl
@[simp] theorem Hart.dirtyXs_fflags (h : Hart) : (h.dirtyXs).fflags = h.fflags := by unfold Hart.dirtyXs Hart.setXs; rfl
@[simp] theorem Hart.dirtyXs_v (h : Hart) : (h.dirtyXs).v = h.v := by unfold Hart.dirtyXs Hart.setXs; rfl
@[simp] theorem Hart.dirtyXs_m (h : Hart) : (h.dirtyXs).m = h.m := by unfold Hart.dirtyXs Hart.setXs; rfl
@[simp] theorem Hart.dirtyXs_kms (h : Hart) : (h.dirtyXs).kms = h.kms := by unfold Hart.dirtyXs Hart.setXs; rfl
@[simp] theorem Hart.dirtyXs_kmsd (h : Hart) : (h.dirtyXs).kmsd = h.kmsd := by unfold Hart.dirtyXs Hart.setXs; rfl
@[simp] theorem Hart.dirtyXs_inbox (h : Hart) : (h.dirtyXs).inbox = h.inbox := by unfold Hart.dirtyXs Hart.setXs; rfl
@[simp] theorem Hart.dirtyXs_present (h : Hart) : (h.dirtyXs).present = h.present := by unfold Hart.dirtyXs Hart.setXs; rfl
@[simp] theorem Hart.dirtyXs_inFrom (h : Hart) : (h.dirtyXs).inFrom = h.inFrom := by unfold Hart.dirtyXs Hart.setXs; rfl
@[simp] theorem Hart.dirtyXs_held (h : Hart) : (h.dirtyXs).held = h.held := by unfold Hart.dirtyXs Hart.setXs; rfl
@[simp] theorem Hart.dirtyXs_cf (h : Hart) : (h.dirtyXs).cf = h.cf := by unfold Hart.dirtyXs Hart.setXs; rfl
@[simp] theorem Hart.dirtyXs_faults (h : Hart) : (h.dirtyXs).faults = h.faults := by unfold Hart.dirtyXs Hart.setXs; rfl
@[simp] theorem Hart.dirtyXs_clause (h : Hart) : (h.dirtyXs).clause = h.clause := by unfold Hart.dirtyXs Hart.setXs; rfl
@[simp] theorem Hart.dirtyXs_k (h : Hart) : (h.dirtyXs).k = h.k := by unfold Hart.dirtyXs Hart.setXs; rfl
@[simp] theorem Hart.dirtyXs_resv (h : Hart) : (h.dirtyXs).resv = h.resv := by unfold Hart.dirtyXs Hart.setXs; rfl
@[simp] theorem Hart.dirtyXs_wait (h : Hart) : (h.dirtyXs).wait = h.wait := by unfold Hart.dirtyXs Hart.setXs; rfl
@[simp] theorem Hart.dirtyXs_bind (h : Hart) : (h.dirtyXs).bind = h.bind := by unfold Hart.dirtyXs Hart.setXs; rfl
@[simp] theorem Hart.dirtyXs_fn (h : Hart) : (h.dirtyXs).fn = h.fn := by unfold Hart.dirtyXs Hart.setXs; rfl
@[simp] theorem Hart.dirtyXs_taint (h : Hart) : (h.dirtyXs).taint = h.taint := by unfold Hart.dirtyXs Hart.setXs; rfl
@[simp] theorem Hart.dirtyXs_mtaint (h : Hart) : (h.dirtyXs).mtaint = h.mtaint := by unfold Hart.dirtyXs Hart.setXs; rfl
@[simp] theorem Hart.dirtyXs_tfr (h : Hart) : (h.dirtyXs).tfr = h.tfr := by unfold Hart.dirtyXs Hart.setXs; rfl
@[simp] theorem Hart.dirtyXs_ibits (h : Hart) : (h.dirtyXs).ibits = h.ibits := by unfold Hart.dirtyXs Hart.setXs; rfl
@[simp] theorem Hart.dirtyXs_ilen (h : Hart) : (h.dirtyXs).ilen = h.ilen := by unfold Hart.dirtyXs Hart.setXs; rfl

/-! ### `Hart.orFlags` -/

@[simp] theorem Hart.orFlags_live (h : Hart) (n : Nat) : (h.orFlags n).live = h.live := rfl
@[simp] theorem Hart.orFlags_halted (h : Hart) (n : Nat) : (h.orFlags n).halted = h.halted := rfl
@[simp] theorem Hart.orFlags_haltReq (h : Hart) (n : Nat) : (h.orFlags n).haltReq = h.haltReq := rfl
@[simp] theorem Hart.orFlags_retired (h : Hart) (n : Nat) : (h.orFlags n).retired = h.retired := rfl
@[simp] theorem Hart.orFlags_priv (h : Hart) (n : Nat) : (h.orFlags n).priv = h.priv := rfl
@[simp] theorem Hart.orFlags_pc (h : Hart) (n : Nat) : (h.orFlags n).pc = h.pc := rfl
@[simp] theorem Hart.orFlags_x (h : Hart) (n : Nat) : (h.orFlags n).x = h.x := rfl
@[simp] theorem Hart.orFlags_f (h : Hart) (n : Nat) : (h.orFlags n).f = h.f := rfl
@[simp] theorem Hart.orFlags_frm (h : Hart) (n : Nat) : (h.orFlags n).frm = h.frm := rfl
@[simp] theorem Hart.orFlags_v (h : Hart) (n : Nat) : (h.orFlags n).v = h.v := rfl
@[simp] theorem Hart.orFlags_m (h : Hart) (n : Nat) : (h.orFlags n).m = h.m := rfl
@[simp] theorem Hart.orFlags_kms (h : Hart) (n : Nat) : (h.orFlags n).kms = h.kms := rfl
@[simp] theorem Hart.orFlags_kmsd (h : Hart) (n : Nat) : (h.orFlags n).kmsd = h.kmsd := rfl
@[simp] theorem Hart.orFlags_inbox (h : Hart) (n : Nat) : (h.orFlags n).inbox = h.inbox := rfl
@[simp] theorem Hart.orFlags_present (h : Hart) (n : Nat) : (h.orFlags n).present = h.present := rfl
@[simp] theorem Hart.orFlags_inFrom (h : Hart) (n : Nat) : (h.orFlags n).inFrom = h.inFrom := rfl
@[simp] theorem Hart.orFlags_held (h : Hart) (n : Nat) : (h.orFlags n).held = h.held := rfl
@[simp] theorem Hart.orFlags_cf (h : Hart) (n : Nat) : (h.orFlags n).cf = h.cf := rfl
@[simp] theorem Hart.orFlags_faults (h : Hart) (n : Nat) : (h.orFlags n).faults = h.faults := rfl
@[simp] theorem Hart.orFlags_clause (h : Hart) (n : Nat) : (h.orFlags n).clause = h.clause := rfl
@[simp] theorem Hart.orFlags_csr (h : Hart) (n : Nat) : (h.orFlags n).csr = h.csr := rfl
@[simp] theorem Hart.orFlags_k (h : Hart) (n : Nat) : (h.orFlags n).k = h.k := rfl
@[simp] theorem Hart.orFlags_resv (h : Hart) (n : Nat) : (h.orFlags n).resv = h.resv := rfl
@[simp] theorem Hart.orFlags_wait (h : Hart) (n : Nat) : (h.orFlags n).wait = h.wait := rfl
@[simp] theorem Hart.orFlags_bind (h : Hart) (n : Nat) : (h.orFlags n).bind = h.bind := rfl
@[simp] theorem Hart.orFlags_fn (h : Hart) (n : Nat) : (h.orFlags n).fn = h.fn := rfl
@[simp] theorem Hart.orFlags_taint (h : Hart) (n : Nat) : (h.orFlags n).taint = h.taint := rfl
@[simp] theorem Hart.orFlags_mtaint (h : Hart) (n : Nat) : (h.orFlags n).mtaint = h.mtaint := rfl
@[simp] theorem Hart.orFlags_tfr (h : Hart) (n : Nat) : (h.orFlags n).tfr = h.tfr := rfl
@[simp] theorem Hart.orFlags_ibits (h : Hart) (n : Nat) : (h.orFlags n).ibits = h.ibits := rfl
@[simp] theorem Hart.orFlags_ilen (h : Hart) (n : Nat) : (h.orFlags n).ilen = h.ilen := rfl

/-! ### `Hart.addCf` -/

@[simp] theorem Hart.addCf_live (h : Hart) (k : Nat) : (h.addCf k).live = h.live := rfl
@[simp] theorem Hart.addCf_halted (h : Hart) (k : Nat) : (h.addCf k).halted = h.halted := rfl
@[simp] theorem Hart.addCf_haltReq (h : Hart) (k : Nat) : (h.addCf k).haltReq = h.haltReq := rfl
@[simp] theorem Hart.addCf_retired (h : Hart) (k : Nat) : (h.addCf k).retired = h.retired := rfl
@[simp] theorem Hart.addCf_priv (h : Hart) (k : Nat) : (h.addCf k).priv = h.priv := rfl
@[simp] theorem Hart.addCf_pc (h : Hart) (k : Nat) : (h.addCf k).pc = h.pc := rfl
@[simp] theorem Hart.addCf_x (h : Hart) (k : Nat) : (h.addCf k).x = h.x := rfl
@[simp] theorem Hart.addCf_f (h : Hart) (k : Nat) : (h.addCf k).f = h.f := rfl
@[simp] theorem Hart.addCf_frm (h : Hart) (k : Nat) : (h.addCf k).frm = h.frm := rfl
@[simp] theorem Hart.addCf_fflags (h : Hart) (k : Nat) : (h.addCf k).fflags = h.fflags := rfl
@[simp] theorem Hart.addCf_v (h : Hart) (k : Nat) : (h.addCf k).v = h.v := rfl
@[simp] theorem Hart.addCf_m (h : Hart) (k : Nat) : (h.addCf k).m = h.m := rfl
@[simp] theorem Hart.addCf_kms (h : Hart) (k : Nat) : (h.addCf k).kms = h.kms := rfl
@[simp] theorem Hart.addCf_kmsd (h : Hart) (k : Nat) : (h.addCf k).kmsd = h.kmsd := rfl
@[simp] theorem Hart.addCf_inbox (h : Hart) (k : Nat) : (h.addCf k).inbox = h.inbox := rfl
@[simp] theorem Hart.addCf_present (h : Hart) (k : Nat) : (h.addCf k).present = h.present := rfl
@[simp] theorem Hart.addCf_inFrom (h : Hart) (k : Nat) : (h.addCf k).inFrom = h.inFrom := rfl
@[simp] theorem Hart.addCf_held (h : Hart) (k : Nat) : (h.addCf k).held = h.held := rfl
@[simp] theorem Hart.addCf_faults (h : Hart) (k : Nat) : (h.addCf k).faults = h.faults := rfl
@[simp] theorem Hart.addCf_clause (h : Hart) (k : Nat) : (h.addCf k).clause = h.clause := rfl
@[simp] theorem Hart.addCf_csr (h : Hart) (k : Nat) : (h.addCf k).csr = h.csr := rfl
@[simp] theorem Hart.addCf_k (h : Hart) (k : Nat) : (h.addCf k).k = h.k := rfl
@[simp] theorem Hart.addCf_resv (h : Hart) (k : Nat) : (h.addCf k).resv = h.resv := rfl
@[simp] theorem Hart.addCf_wait (h : Hart) (k : Nat) : (h.addCf k).wait = h.wait := rfl
@[simp] theorem Hart.addCf_bind (h : Hart) (k : Nat) : (h.addCf k).bind = h.bind := rfl
@[simp] theorem Hart.addCf_fn (h : Hart) (k : Nat) : (h.addCf k).fn = h.fn := rfl
@[simp] theorem Hart.addCf_taint (h : Hart) (k : Nat) : (h.addCf k).taint = h.taint := rfl
@[simp] theorem Hart.addCf_mtaint (h : Hart) (k : Nat) : (h.addCf k).mtaint = h.mtaint := rfl
@[simp] theorem Hart.addCf_tfr (h : Hart) (k : Nat) : (h.addCf k).tfr = h.tfr := rfl
@[simp] theorem Hart.addCf_ibits (h : Hart) (k : Nat) : (h.addCf k).ibits = h.ibits := rfl
@[simp] theorem Hart.addCf_ilen (h : Hart) (k : Nat) : (h.addCf k).ilen = h.ilen := rfl

/-! ### `Hart.subCf` -/

@[simp] theorem Hart.subCf_live (h : Hart) (k : Nat) : (h.subCf k).live = h.live := rfl
@[simp] theorem Hart.subCf_halted (h : Hart) (k : Nat) : (h.subCf k).halted = h.halted := rfl
@[simp] theorem Hart.subCf_haltReq (h : Hart) (k : Nat) : (h.subCf k).haltReq = h.haltReq := rfl
@[simp] theorem Hart.subCf_retired (h : Hart) (k : Nat) : (h.subCf k).retired = h.retired := rfl
@[simp] theorem Hart.subCf_priv (h : Hart) (k : Nat) : (h.subCf k).priv = h.priv := rfl
@[simp] theorem Hart.subCf_pc (h : Hart) (k : Nat) : (h.subCf k).pc = h.pc := rfl
@[simp] theorem Hart.subCf_x (h : Hart) (k : Nat) : (h.subCf k).x = h.x := rfl
@[simp] theorem Hart.subCf_f (h : Hart) (k : Nat) : (h.subCf k).f = h.f := rfl
@[simp] theorem Hart.subCf_frm (h : Hart) (k : Nat) : (h.subCf k).frm = h.frm := rfl
@[simp] theorem Hart.subCf_fflags (h : Hart) (k : Nat) : (h.subCf k).fflags = h.fflags := rfl
@[simp] theorem Hart.subCf_v (h : Hart) (k : Nat) : (h.subCf k).v = h.v := rfl
@[simp] theorem Hart.subCf_m (h : Hart) (k : Nat) : (h.subCf k).m = h.m := rfl
@[simp] theorem Hart.subCf_kms (h : Hart) (k : Nat) : (h.subCf k).kms = h.kms := rfl
@[simp] theorem Hart.subCf_kmsd (h : Hart) (k : Nat) : (h.subCf k).kmsd = h.kmsd := rfl
@[simp] theorem Hart.subCf_inbox (h : Hart) (k : Nat) : (h.subCf k).inbox = h.inbox := rfl
@[simp] theorem Hart.subCf_present (h : Hart) (k : Nat) : (h.subCf k).present = h.present := rfl
@[simp] theorem Hart.subCf_inFrom (h : Hart) (k : Nat) : (h.subCf k).inFrom = h.inFrom := rfl
@[simp] theorem Hart.subCf_held (h : Hart) (k : Nat) : (h.subCf k).held = h.held := rfl
@[simp] theorem Hart.subCf_faults (h : Hart) (k : Nat) : (h.subCf k).faults = h.faults := rfl
@[simp] theorem Hart.subCf_clause (h : Hart) (k : Nat) : (h.subCf k).clause = h.clause := rfl
@[simp] theorem Hart.subCf_csr (h : Hart) (k : Nat) : (h.subCf k).csr = h.csr := rfl
@[simp] theorem Hart.subCf_k (h : Hart) (k : Nat) : (h.subCf k).k = h.k := rfl
@[simp] theorem Hart.subCf_resv (h : Hart) (k : Nat) : (h.subCf k).resv = h.resv := rfl
@[simp] theorem Hart.subCf_wait (h : Hart) (k : Nat) : (h.subCf k).wait = h.wait := rfl
@[simp] theorem Hart.subCf_bind (h : Hart) (k : Nat) : (h.subCf k).bind = h.bind := rfl
@[simp] theorem Hart.subCf_fn (h : Hart) (k : Nat) : (h.subCf k).fn = h.fn := rfl
@[simp] theorem Hart.subCf_taint (h : Hart) (k : Nat) : (h.subCf k).taint = h.taint := rfl
@[simp] theorem Hart.subCf_mtaint (h : Hart) (k : Nat) : (h.subCf k).mtaint = h.mtaint := rfl
@[simp] theorem Hart.subCf_tfr (h : Hart) (k : Nat) : (h.subCf k).tfr = h.tfr := rfl
@[simp] theorem Hart.subCf_ibits (h : Hart) (k : Nat) : (h.subCf k).ibits = h.ibits := rfl
@[simp] theorem Hart.subCf_ilen (h : Hart) (k : Nat) : (h.subCf k).ilen = h.ilen := rfl

/-! ### `Hart.done` -/

@[simp] theorem Hart.done_live (h : Hart) : (h.done).live = h.live := by unfold Hart.done Hart.counted; rfl
@[simp] theorem Hart.done_halted (h : Hart) : (h.done).halted = h.halted := by unfold Hart.done Hart.counted; rfl
@[simp] theorem Hart.done_haltReq (h : Hart) : (h.done).haltReq = h.haltReq := by unfold Hart.done Hart.counted; rfl
@[simp] theorem Hart.done_retired (h : Hart) : (h.done).retired = h.retired := by unfold Hart.done Hart.counted; rfl
@[simp] theorem Hart.done_priv (h : Hart) : (h.done).priv = h.priv := by unfold Hart.done Hart.counted; rfl
@[simp] theorem Hart.done_x (h : Hart) : (h.done).x = h.x := by unfold Hart.done Hart.counted; rfl
@[simp] theorem Hart.done_f (h : Hart) : (h.done).f = h.f := by unfold Hart.done Hart.counted; rfl
@[simp] theorem Hart.done_frm (h : Hart) : (h.done).frm = h.frm := by unfold Hart.done Hart.counted; rfl
@[simp] theorem Hart.done_fflags (h : Hart) : (h.done).fflags = h.fflags := by unfold Hart.done Hart.counted; rfl
@[simp] theorem Hart.done_v (h : Hart) : (h.done).v = h.v := by unfold Hart.done Hart.counted; rfl
@[simp] theorem Hart.done_m (h : Hart) : (h.done).m = h.m := by unfold Hart.done Hart.counted; rfl
@[simp] theorem Hart.done_kms (h : Hart) : (h.done).kms = h.kms := by unfold Hart.done Hart.counted; rfl
@[simp] theorem Hart.done_kmsd (h : Hart) : (h.done).kmsd = h.kmsd := by unfold Hart.done Hart.counted; rfl
@[simp] theorem Hart.done_inbox (h : Hart) : (h.done).inbox = h.inbox := by unfold Hart.done Hart.counted; rfl
@[simp] theorem Hart.done_present (h : Hart) : (h.done).present = h.present := by unfold Hart.done Hart.counted; rfl
@[simp] theorem Hart.done_inFrom (h : Hart) : (h.done).inFrom = h.inFrom := by unfold Hart.done Hart.counted; rfl
@[simp] theorem Hart.done_held (h : Hart) : (h.done).held = h.held := by unfold Hart.done Hart.counted; rfl
@[simp] theorem Hart.done_cf (h : Hart) : (h.done).cf = h.cf := by unfold Hart.done Hart.counted; rfl
@[simp] theorem Hart.done_faults (h : Hart) : (h.done).faults = h.faults := by unfold Hart.done Hart.counted; rfl
@[simp] theorem Hart.done_k (h : Hart) : (h.done).k = h.k := by unfold Hart.done Hart.counted; rfl
@[simp] theorem Hart.done_resv (h : Hart) : (h.done).resv = h.resv := by unfold Hart.done Hart.counted; rfl
@[simp] theorem Hart.done_bind (h : Hart) : (h.done).bind = h.bind := by unfold Hart.done Hart.counted; rfl
@[simp] theorem Hart.done_fn (h : Hart) : (h.done).fn = h.fn := by unfold Hart.done Hart.counted; rfl
@[simp] theorem Hart.done_taint (h : Hart) : (h.done).taint = h.taint := by unfold Hart.done Hart.counted; rfl
@[simp] theorem Hart.done_mtaint (h : Hart) : (h.done).mtaint = h.mtaint := by unfold Hart.done Hart.counted; rfl
@[simp] theorem Hart.done_tfr (h : Hart) : (h.done).tfr = h.tfr := by unfold Hart.done Hart.counted; rfl
@[simp] theorem Hart.done_ibits (h : Hart) : (h.done).ibits = h.ibits := by unfold Hart.done Hart.counted; rfl
@[simp] theorem Hart.done_ilen (h : Hart) : (h.done).ilen = h.ilen := by unfold Hart.done Hart.counted; rfl

/-! ### Registers: reading after writing -/

theorem Hart.getX_setX (h : Hart) (i n : Nat) (v : Word) :
    (h.setX i v).getX n = if n = 0 then 0 else if n = i then v else h.getX n := by
  unfold Hart.setX Hart.getX
  by_cases h0 : n = 0
  · simp [h0]
  · by_cases hi : i = 0
    · simp [hi, h0]
    · simp [hi, h0, SMap.get_set]

@[simp] theorem Hart.getX_zero (h : Hart) : h.getX 0 = 0 := rfl

theorem Hart.getM_setM (h : Hart) (i n : Nat) (v : BitVec 32) : (h.setM i v).getM n = if n = i then v else h.getM n := by
  simp [Hart.setM, Hart.getM, SMap.get_set]

/-- Lanes are below 32, so a register and a lane name one place. -/
theorem Hart.getV_setV (h : Hart) {i k n l : Nat} (v : Elem) (hk : k < 32) (hl : l < 32) :
    (h.setV i k v).getV n l = if n = i ∧ l = k then v else h.getV n l := by
  simp only [Hart.setV, Hart.getV, SMap.get_set]
  by_cases e : n = i ∧ l = k
  · rw [if_pos e, if_pos (by omega)]
  · rw [if_neg e, if_neg (by omega)]

end Sys2Proof.Machine
end

