-- ==== Sys2Proof/Laws/Cache.lean ====
section
/-!
SUPPORT. The caches: what fills, probes, evictions and write-backs leave as it is (`CacheMoves`), and that they keep the canonical form of memory.
-/
namespace Sys2Proof
open Machine

namespace CacheMoves

theorem refl (s : State) : CacheMoves s s := ⟨fun _ _ => rfl, id, rfl, fun _ => rfl, fun _ => rfl⟩

theorem trans {s t u : State} (h : CacheMoves s t) (g : CacheMoves t u) : CacheMoves s u := by
  obtain ⟨h1, hw, h2, h3, h4⟩ := h
  obtain ⟨g1, gw, g2, g3, g4⟩ := g
  refine ⟨fun a ha => (g1 a ha).trans (h1 a ha), gw ∘ hw, ?_, fun k => ?_, fun d => ?_⟩
  · cases s; cases t; cases u; simp_all
  · have a := h3 k; have b := g3 k
    generalize s.cluster k = x at *; generalize t.cluster k = y at *; generalize u.cluster k = z at *
    cases x; cases y; cases z; simp_all
  · have a := h4 d; have b := g4 d
    generalize s.die d = x at *; generalize t.die d = y at *; generalize u.die d = z at *
    cases x; cases y; cases z; simp_all

theorem foldl {α : Type} {f : State → α → State} (hf : ∀ s a, CacheMoves s (f s a)) (l : List α) (s : State) : CacheMoves s (l.foldl f s) := by
  induction l generalizing s with
  | nil => exact refl s
  | cons a l ih => exact (hf s a).trans (ih _)

theorem modCluster (s : State) (k : Nat) (f : Cluster → Cluster)
    (hf : ∀ c : Cluster, { f c with cache := c.cache, tlbLane := c.tlbLane } = c) : CacheMoves s (s.modCluster k f) := by
  refine ⟨fun _ _ => rfl, id, rfl, fun j => ?_, fun _ => rfl⟩
  by_cases h : j = k
  · subst h; rw [State.cluster_modCluster_self]; exact hf _
  · rw [State.cluster_modCluster_ne _ _ h]

theorem die_self (s : State) (d : Nat) (f : Die → Die) : (s.modDie d f).die d = f (s.die d) := SMap.get_set_self ..

theorem die_ne (s : State) {d j : Nat} (f : Die → Die) (e : j ≠ d) : (s.modDie d f).die j = s.die j := SMap.get_set_ne _ _ _ e

theorem modDie (s : State) (d : Nat) (f : Die → Die) (hf : ∀ x : Die, { f x with l2 := x.l2 } = x) : CacheMoves s (s.modDie d f) := by
  refine ⟨fun _ _ => rfl, id, rfl, fun _ => rfl, fun j => ?_⟩
  by_cases h : j = d
  · subst h; rw [die_self]; exact hf _
  · rw [die_ne _ _ h]

theorem modLine (s : State) (l : Nat) (f : LineMeta → LineMeta) : CacheMoves s (s.modLine l f) := ⟨fun _ _ => rfl, id, rfl, fun _ => rfl, fun _ => rfl⟩

theorem choose (s : State) : CacheMoves s (choose s).2 := by
  unfold Machine.choose; split
  · exact refl s
  · exact ⟨fun _ _ => rfl, id, rfl, fun _ => rfl, fun _ => rfl⟩

theorem egressOf (s : State) (pa : Nat) (bs : List Byte) (t : BitVec 16) : CacheMoves s (egressOf s pa bs t) := by
  unfold Machine.egressOf; split
  · exact ⟨fun _ _ => rfl, id, rfl, fun _ => rfl, fun _ => rfl⟩
  · exact ⟨fun _ _ => rfl, id, rfl, fun _ => rfl, fun _ => rfl⟩
  · exact refl s

theorem putPeer (s : State) (l : Nat) (bs : List Byte) (h : isPeer l = true) (hb : bs.length ≤ 128) : CacheMoves s (putRaw s (128 * l) bs) := by
  refine ⟨fun a ha => rawByte_putRaw_ne s _ _ bs ?_, putRaw_wf s _ bs, rfl, fun _ => rfl, fun _ => rfl⟩
  apply Classical.byContradiction
  intro hc
  have : a / 128 = l := by omega
  rw [this, h] at ha
  cases ha

/-- Every hart, core and class is as it was. -/
theorem harts {s t : State} (h : CacheMoves s t) : t.harts = s.harts ∧ t.cores = s.cores ∧ t.classes = s.classes ∧ t.cur = s.cur := by
  have := h.2.2.1
  cases s; cases t; simp_all

end CacheMoves

theorem modKlines_moves (s : State) (k vl : Nat) (f : List KLine → List KLine) : CacheMoves s (s.modKlines k vl f) :=
  CacheMoves.modCluster s k _ fun _ => rfl

theorem putKline_moves (s : State) (k : Nat) (y : KLine) : CacheMoves s (putKline s k y) := modKlines_moves ..

theorem dropKline_moves (s : State) (k : Nat) (y : KLine) : CacheMoves s (dropKline s k y) := modKlines_moves ..

theorem setDir_moves (s : State) (pl : Nat) (x : Option L2Line) : CacheMoves s (s.setDir pl x) := CacheMoves.modDie s _ _ fun _ => rfl

theorem unitWalk_moves (s : State) (k fn : Nat) (va : Word) : CacheMoves s (unitWalk s k fn va).1 := by
  unfold unitWalk
  simp only []
  exact (CacheMoves.choose s).trans ⟨fun _ _ => rfl, id, rfl, fun _ => rfl, fun _ => rfl⟩

theorem serveLane_moves (s : State) (k : Nat) (y : KLine) : CacheMoves s (serveLane s k y) := by
  unfold serveLane
  simp only []
  split
  · exact CacheMoves.modCluster s k _ fun _ => rfl
  · split
    · exact .refl s
    · have h := unitWalk_moves s k y.fn (word (128 * y.vline))
      split
      · next heq => rw [heq] at h; exact h.trans (CacheMoves.modCluster _ _ _ fun _ => rfl)
      · next heq => rw [heq] at h; exact h

theorem KLine.sealed_length (y : KLine) (s : State) : (y.sealed s).length ≤ 128 := by
  unfold Machine.KLine.sealed; simp only []; split <;> simp <;> omega

theorem writeBackIn_moves (s : State) (k : Nat) (y : KLine) : CacheMoves s (writeBackIn s k y) := by
  unfold writeBackIn
  simp only []
  split
  · exact .refl s
  · refine (serveLane_moves s k y.collect).trans ?_
    generalize serveLane s k y.collect = t
    split
    · next h =>
      generalize hu : (t.modLine y.collect.pl fun m => { m with psn := _ }) = u
      have m : CacheMoves t u := hu ▸ CacheMoves.modLine ..
      split
      · exact m
      · exact ((m.trans (CacheMoves.putPeer u _ _ h (KLine.sealed_length ..))).trans (.modLine ..)).trans (.egressOf ..)
    · split
      · exact setDir_moves ..
      · exact .refl t

theorem probeBy_moves {back : State → Nat → KLine → State} (hb : ∀ s k y, CacheMoves s (back s k y)) (x : L2Line) (s : State) (k : Nat) :
    CacheMoves s (probeBy back x s k) :=
  CacheMoves.foldl (fun s y => (hb s k y).trans (dropKline_moves _ k y)) _ s

theorem l2Evict_moves (s : State) (x : L2Line) : CacheMoves s (l2Evict s x) := by
  unfold l2Evict
  simp only []
  refine (CacheMoves.foldl (probeBy_moves writeBackIn_moves x) x.sharers.members s).trans ?_
  generalize x.sharers.members.foldl (probeBy writeBackIn x) s = t
  refine CacheMoves.trans ?_ (setDir_moves ..)
  generalize ((t.dir x.pl).getD x) = y
  refine CacheMoves.trans (t := if (!y.dirty) = true then t else t.modLine y.pl fun m => { m with psn := y.psn }) ?_ ?_
  · split
    · exact .refl t
    · exact .modLine ..
  · generalize (if (!y.dirty) = true then t else t.modLine y.pl fun m => { m with psn := y.psn }) = u
    split
    · exact .refl u
    · split
      · exact .egressOf ..
      · split
        · exact .modLine ..
        · exact .refl u

theorem l2Room_moves (s : State) (pl : Nat) (zero : Bool) : CacheMoves s (l2Room s pl zero) := by
  unfold l2Room
  simp only []
  generalize (if zero = true then 8 else 16) = cap
  split
  · exact .refl s
  · exact (CacheMoves.choose s).trans (l2Evict_moves ..)

theorem writeBack_moves (s : State) (k : Nat) (y : KLine) : CacheMoves s (writeBack s k y) := by
  unfold writeBack
  simp only []
  refine CacheMoves.trans ?_ (writeBackIn_moves ..)
  split
  · split
    · exact l2Room_moves ..
    · exact .refl s
  · exact .refl s

theorem kOut_moves (k : Nat) (s : State) (y : KLine) : CacheMoves s (kOut k s y) := (writeBack_moves s k y).trans (dropKline_moves ..)

theorem shareOut_moves (x : L2Line) (s : State) (k : Nat) : CacheMoves s (shareOut x s k) :=
  CacheMoves.foldl (fun s y => (writeBack_moves s k y).trans (putKline_moves ..)) _ s

theorem l2Take_moves (s : State) (k vl fn pl : Nat) (excl : Bool) : CacheMoves s (l2Take s k vl fn pl excl).1 := by
  unfold l2Take
  split
  · exact .refl s
  · simp only []
    refine CacheMoves.trans (t := if (s.dir pl).isSome = true then s
        else (l2Room s pl (s.line pl).zero).setDir pl (some { pl := pl, zero := (s.line pl).zero, vline := vl, fn := fn, psn := (s.line pl).psn })) ?_ ?_
    · split
      · exact .refl s
      · exact (l2Room_moves ..).trans (setDir_moves ..)
    · generalize (if (s.dir pl).isSome = true then s
        else (l2Room s pl (s.line pl).zero).setDir pl (some { pl := pl, zero := (s.line pl).zero, vline := vl, fn := fn, psn := (s.line pl).psn })) = t
      split
      · exact (CacheMoves.foldl (probeBy_moves writeBack_moves _) _ t).trans (setDir_moves ..)
      · exact (CacheMoves.foldl (shareOut_moves _) _ t).trans (setDir_moves ..)

theorem homeWrite_moves (s : State) (pl : Nat) : CacheMoves s (homeWrite s pl) := by
  unfold homeWrite; split
  · exact l2Evict_moves ..
  · exact .refl s

theorem kRoom_moves (s : State) (k vl : Nat) (zero : Bool) : CacheMoves s (kRoom s k vl zero).1 := by
  unfold kRoom
  simp only []
  split
  · exact .refl s
  · split
    · exact kOut_moves ..
    · split
      · exact .refl s
      · exact (CacheMoves.choose s).trans (kOut_moves ..)

theorem kPlace_moves (s : State) (k : Nat) (y : KLine) : CacheMoves s (kPlace s k y) := by
  have h := kRoom_moves s k y.vline y.zero
  unfold kPlace
  simp only []
  split
  · exact h.trans (modKlines_moves ..)
  · exact h

/-- A fill changes nothing but what caches move. -/
theorem kFill_moves (s : State) (w : Who) (vl pl key cm : Nat) (zero excl : Bool) : CacheMoves s (kFill s w vl pl key cm zero excl) := by
  unfold kFill
  simp only []
  have h := (CacheMoves.foldl (kOut_moves (clusterOf w.core)) ((s.klines (clusterOf w.core) vl).filter fun y => y.named w.tag vl) s).trans
    (kRoom_moves _ (clusterOf w.core) vl zero)
  split
  · exact h
  · exact (h.trans (l2Take_moves ..)).trans (modKlines_moves ..)

theorem peerHome_moves (s : State) (w : Who) (vl : Nat) (r : PRef) : CacheMoves s (peerHome s w vl r).1 := by
  unfold peerHome; split
  · simp only []; split
    · exact kOut_moves ..
    · exact .refl s
  · exact .refl s

theorem readIn_moves (s : State) (w : Who) (vl pl key cm : Nat) : CacheMoves s (readIn s w vl pl key cm) := by
  unfold readIn; split
  · split
    · exact putKline_moves ..
    · exact .refl s
  · split
    · exact kFill_moves ..
    · exact .refl s

theorem kTake_moves (s : State) (w : Who) (vl pl key cm : Nat) (zero : Bool) : CacheMoves s (kTake s w vl pl key cm zero) := by
  unfold kTake; split
  · exact l2Take_moves ..
  · exact kFill_moves ..

theorem kReady_moves (s : State) (w : Who) (vl : Nat) (zero : Bool) : CacheMoves s (kReady s w vl zero) := by
  unfold kReady; split
  · split
    · exact .refl s
    · exact kRoom_moves ..
  · exact .refl s

theorem kOwn_moves (s : State) (w : Who) (vl pl key cm : Nat) (zero whole : Bool) : CacheMoves s (kOwn s w vl pl key cm zero whole) := by
  unfold kOwn
  simp only []
  refine ((kReady_moves s w vl zero).trans (kTake_moves _ w vl pl key cm zero)).trans ?_
  generalize kTake (kReady s w vl zero) w vl pl key cm zero = t
  split
  · exact .refl t
  · split
    · exact putKline_moves ..
    · exact (dropKline_moves ..).trans (kPlace_moves ..)

theorem zeroLine_moves (s : State) (w : Who) (vl pl key cm : Nat) : CacheMoves s (zeroLine s w vl pl key cm) := by
  unfold zeroLine; split
  · exact kOwn_moves ..
  · exact .refl s

theorem kFlush_moves (p : KLine → Bool) (s : State) (k : Nat) : CacheMoves s (kFlush p s k) := CacheMoves.foldl (kOut_moves k) _ s

theorem kFlushAll_moves (s : State) (p : KLine → Bool) : CacheMoves s (kFlushAll s p) := CacheMoves.foldl (kFlush_moves p) _ s

theorem peerBack_moves (p : KLine → Bool) (s : State) (k : Nat) : CacheMoves s (peerBack p s k) :=
  CacheMoves.foldl (fun s y => (writeBackIn_moves s _ y).trans (putKline_moves ..)) _ s

theorem peerRelease_moves (s : State) (core : Nat) : CacheMoves s (peerRelease s core) := peerBack_moves ..

theorem l2Flush_moves (s : State) (p : L2Line → Bool) : CacheMoves s (l2Flush s p) := by
  refine CacheMoves.foldl (fun s x => ?_) _ s
  split
  · exact l2Evict_moves ..
  · exact .refl s

theorem scalOut_moves (s : State) (core : Nat) (y : KLine) : CacheMoves s (scalOut s core y) := putKline_moves ..

theorem scalRoom_moves (s : State) (core vl : Nat) : CacheMoves s (scalRoom s core vl) := by
  unfold scalRoom
  simp only []
  split
  · exact .refl s
  · exact (CacheMoves.choose s).trans (scalOut_moves ..)

theorem scalUse_moves (s : State) (w : Who) (vl cm : Nat) (write : Bool) (old : Option Bool) : CacheMoves s (scalUse s w vl cm write old) := by
  unfold scalUse
  split
  · exact .refl s
  · split
    · exact .refl s
    · simp only []
      refine (scalRoom_moves s w.core vl).trans ?_
      split
      · exact .refl _
      · exact putKline_moves ..

theorem scalFlush_moves (s : State) (core : Nat) : CacheMoves s (scalFlush s core) :=
  CacheMoves.foldl (fun s y => scalOut_moves s core y) _ s

/-! ### Acquires and releases -/

/-- A release by an agent of a core changes nothing but what caches move. -/
theorem coreRelease_moves (s : State) (c scope : Nat) : CacheMoves s (coreRelease s c scope) := by
  unfold coreRelease; split
  · exact peerRelease_moves ..
  · exact .refl s

/-- An acquire by an agent of a core changes no register, no class and no byte of memory outside the peer windows. -/
theorem coreAcquire_keeps (s : State) (c scope : Nat) :
    let t := coreAcquire s c scope
    HomeMemory s t ∧ (Memory.wf s.mem = true → Memory.wf t.mem = true) ∧ t.harts = s.harts ∧ t.classes = s.classes ∧ t.cur = s.cur := by
  have h1 : ∀ s, let t := if scope ≥ 2 then l1Clear s c else s
      HomeMemory s t ∧ (Memory.wf s.mem = true → Memory.wf t.mem = true) ∧ t.harts = s.harts ∧ t.classes = s.classes ∧ t.cur = s.cur := by
    intro s; simp only []; split <;> exact ⟨fun _ _ => rfl, id, rfl, rfl, rfl⟩
  unfold coreAcquire
  simp only []
  obtain ⟨a1, a2, a3, a4, a5⟩ := h1 s
  generalize (if scope ≥ 2 then l1Clear s c else s) = t at *
  split
  · have m := kFlush_moves (fun y => isPeer y.pl) (t.modCore c fun k => { k with l1 := k.l1.filter fun y => !isPeer y.pl }) (clusterOf c)
    have e := m.harts
    exact ⟨fun a ha => (m.1 a ha).trans (a1 a ha), m.2.1 ∘ a2, e.1.trans a3, e.2.2.1.trans a4, e.2.2.2.trans a5⟩
  · exact ⟨a1, a2, a3, a4, a5⟩

end Sys2Proof
end

