-- ==== Sys2Proof/Laws/Dispatch.lean ====
section
/-!
SUPPORT. What exec answers for each constructor: its meaning, one equation each, so that a proof never opens the whole dispatch.
-/
namespace Sys2Proof.Machine

theorem exec_ladd (f : L64) (s : State) : exec (.ladd f) s = execLadd f s := rfl
theorem exec_lsub (f : L64) (s : State) : exec (.lsub f) s = execLsub f s := rfl
theorem exec_ladds (f : L64) (s : State) : exec (.ladds f) s = execLadds f s := rfl
theorem exec_lsubs (f : L64) (s : State) : exec (.lsubs f) s = execLsubs f s := rfl
theorem exec_lmul (f : L64) (s : State) : exec (.lmul f) s = execLmul f s := rfl
theorem exec_lmulh (f : L64) (s : State) : exec (.lmulh f) s = execLmulh f s := rfl
theorem exec_lmulhu (f : L64) (s : State) : exec (.lmulhu f) s = execLmulhu f s := rfl
theorem exec_lmadd (f : L64) (s : State) : exec (.lmadd f) s = execLmadd f s := rfl
theorem exec_ldiv (f : L64) (s : State) : exec (.ldiv f) s = execLdiv f s := rfl
theorem exec_ldivu (f : L64) (s : State) : exec (.ldivu f) s = execLdivu f s := rfl
theorem exec_lrem (f : L64) (s : State) : exec (.lrem f) s = execLrem f s := rfl
theorem exec_lremu (f : L64) (s : State) : exec (.lremu f) s = execLremu f s := rfl
theorem exec_land (f : L64) (s : State) : exec (.land f) s = execLand f s := rfl
theorem exec_lor (f : L64) (s : State) : exec (.lor f) s = execLor f s := rfl
theorem exec_lxor (f : L64) (s : State) : exec (.lxor f) s = execLxor f s := rfl
theorem exec_landn (f : L64) (s : State) : exec (.landn f) s = execLandn f s := rfl
theorem exec_lsll (f : L64) (s : State) : exec (.lsll f) s = execLsll f s := rfl
theorem exec_lsrl (f : L64) (s : State) : exec (.lsrl f) s = execLsrl f s := rfl
theorem exec_lsra (f : L64) (s : State) : exec (.lsra f) s = execLsra f s := rfl
theorem exec_lmin (f : L64) (s : State) : exec (.lmin f) s = execLmin f s := rfl
theorem exec_lmax (f : L64) (s : State) : exec (.lmax f) s = execLmax f s := rfl
theorem exec_lminu (f : L64) (s : State) : exec (.lminu f) s = execLminu f s := rfl
theorem exec_lmaxu (f : L64) (s : State) : exec (.lmaxu f) s = execLmaxu f s := rfl
theorem exec_labs (f : L64) (s : State) : exec (.labs f) s = execLabs f s := rfl
theorem exec_lclz (f : L64) (s : State) : exec (.lclz f) s = execLclz f s := rfl
theorem exec_lcpop (f : L64) (s : State) : exec (.lcpop f) s = execLcpop f s := rfl
theorem exec_lbrev (f : L64) (s : State) : exec (.lbrev f) s = execLbrev f s := rfl
theorem exec_lbfx (f : L64) (s : State) : exec (.lbfx f) s = execLbfx f s := rfl
theorem exec_lbfi (f : L64) (s : State) : exec (.lbfi f) s = execLbfi f s := rfl
theorem exec_lsel (f : L64) (s : State) : exec (.lsel f) s = execLsel f s := rfl
theorem exec_lmov (f : L64) (s : State) : exec (.lmov f) s = execLmov f s := rfl
theorem exec_lli (f : L64) (s : State) : exec (.lli f) s = execLli f s := rfl
theorem exec_lbcast (f : L64) (s : State) : exec (.lbcast f) s = execLbcast f s := rfl
theorem exec_lext (f : L64) (s : State) : exec (.lext f) s = execLext f s := rfl
theorem exec_lidx (f : L64) (s : State) : exec (.lidx f) s = execLidx f s := rfl
theorem exec_lfadd (f : L64) (s : State) : exec (.lfadd f) s = execLfadd f s := rfl
theorem exec_lfsub (f : L64) (s : State) : exec (.lfsub f) s = execLfsub f s := rfl
theorem exec_lfmul (f : L64) (s : State) : exec (.lfmul f) s = execLfmul f s := rfl
theorem exec_lffma (f : L64) (s : State) : exec (.lffma f) s = execLffma f s := rfl
theorem exec_lffms (f : L64) (s : State) : exec (.lffms f) s = execLffms f s := rfl
theorem exec_lfnma (f : L64) (s : State) : exec (.lfnma f) s = execLfnma f s := rfl
theorem exec_lfmin (f : L64) (s : State) : exec (.lfmin f) s = execLfmin f s := rfl
theorem exec_lfmax (f : L64) (s : State) : exec (.lfmax f) s = execLfmax f s := rfl
theorem exec_lfdiv (f : L64) (s : State) : exec (.lfdiv f) s = execLfdiv f s := rfl
theorem exec_lfsqrt (f : L64) (s : State) : exec (.lfsqrt f) s = execLfsqrt f s := rfl
theorem exec_lfrcp (f : L64) (s : State) : exec (.lfrcp f) s = execLfrcp f s := rfl
theorem exec_lfrsq (f : L64) (s : State) : exec (.lfrsq f) s = execLfrsq f s := rfl
theorem exec_lfex2 (f : L64) (s : State) : exec (.lfex2 f) s = execLfex2 f s := rfl
theorem exec_lflg2 (f : L64) (s : State) : exec (.lflg2 f) s = execLflg2 f s := rfl
theorem exec_lfsin (f : L64) (s : State) : exec (.lfsin f) s = execLfsin f s := rfl
theorem exec_lfcos (f : L64) (s : State) : exec (.lfcos f) s = execLfcos f s := rfl
theorem exec_lfabs (f : L64) (s : State) : exec (.lfabs f) s = execLfabs f s := rfl
theorem exec_lfneg (f : L64) (s : State) : exec (.lfneg f) s = execLfneg f s := rfl
theorem exec_lfsgnj (f : L64) (s : State) : exec (.lfsgnj f) s = execLfsgnj f s := rfl
theorem exec_lfcvt (f : L64) (s : State) : exec (.lfcvt f) s = execLfcvt f s := rfl
theorem exec_lfclass (f : L64) (s : State) : exec (.lfclass f) s = execLfclass f s := rfl
theorem exec_lfround (f : L64) (s : State) : exec (.lfround f) s = execLfround f s := rfl
theorem exec_lldB (f : L64) (s : State) : exec (.lldB f) s = execLldB f s := rfl
theorem exec_lldBu (f : L64) (s : State) : exec (.lldBu f) s = execLldBu f s := rfl
theorem exec_lldH (f : L64) (s : State) : exec (.lldH f) s = execLldH f s := rfl
theorem exec_lldHu (f : L64) (s : State) : exec (.lldHu f) s = execLldHu f s := rfl
theorem exec_lldW (f : L64) (s : State) : exec (.lldW f) s = execLldW f s := rfl
theorem exec_lldD (f : L64) (s : State) : exec (.lldD f) s = execLldD f s := rfl
theorem exec_lldQ (f : L64) (s : State) : exec (.lldQ f) s = execLldQ f s := rfl
theorem exec_lstB (f : L64) (s : State) : exec (.lstB f) s = execLstB f s := rfl
theorem exec_lstH (f : L64) (s : State) : exec (.lstH f) s = execLstH f s := rfl
theorem exec_lstW (f : L64) (s : State) : exec (.lstW f) s = execLstW f s := rfl
theorem exec_lstD (f : L64) (s : State) : exec (.lstD f) s = execLstD f s := rfl
theorem exec_lstQ (f : L64) (s : State) : exec (.lstQ f) s = execLstQ f s := rfl
theorem exec_lprf (f : L64) (s : State) : exec (.lprf f) s = execLprf f s := rfl
theorem exec_lzero (f : L64) (s : State) : exec (.lzero f) s = execLzero f s := rfl
theorem exec_lamoAddW (f : L64) (s : State) : exec (.lamoAddW f) s = execLamoAddW f s := rfl
theorem exec_lamoAddD (f : L64) (s : State) : exec (.lamoAddD f) s = execLamoAddD f s := rfl
theorem exec_lamoAndW (f : L64) (s : State) : exec (.lamoAndW f) s = execLamoAndW f s := rfl
theorem exec_lamoAndD (f : L64) (s : State) : exec (.lamoAndD f) s = execLamoAndD f s := rfl
theorem exec_lamoOrW (f : L64) (s : State) : exec (.lamoOrW f) s = execLamoOrW f s := rfl
theorem exec_lamoOrD (f : L64) (s : State) : exec (.lamoOrD f) s = execLamoOrD f s := rfl
theorem exec_lamoXorW (f : L64) (s : State) : exec (.lamoXorW f) s = execLamoXorW f s := rfl
theorem exec_lamoXorD (f : L64) (s : State) : exec (.lamoXorD f) s = execLamoXorD f s := rfl
theorem exec_lamoMinW (f : L64) (s : State) : exec (.lamoMinW f) s = execLamoMinW f s := rfl
theorem exec_lamoMinD (f : L64) (s : State) : exec (.lamoMinD f) s = execLamoMinD f s := rfl
theorem exec_lamoMaxW (f : L64) (s : State) : exec (.lamoMaxW f) s = execLamoMaxW f s := rfl
theorem exec_lamoMaxD (f : L64) (s : State) : exec (.lamoMaxD f) s = execLamoMaxD f s := rfl
theorem exec_lamoMinuW (f : L64) (s : State) : exec (.lamoMinuW f) s = execLamoMinuW f s := rfl
theorem exec_lamoMinuD (f : L64) (s : State) : exec (.lamoMinuD f) s = execLamoMinuD f s := rfl
theorem exec_lamoMaxuW (f : L64) (s : State) : exec (.lamoMaxuW f) s = execLamoMaxuW f s := rfl
theorem exec_lamoMaxuD (f : L64) (s : State) : exec (.lamoMaxuD f) s = execLamoMaxuD f s := rfl
theorem exec_lamoSwapW (f : L64) (s : State) : exec (.lamoSwapW f) s = execLamoSwapW f s := rfl
theorem exec_lamoSwapD (f : L64) (s : State) : exec (.lamoSwapD f) s = execLamoSwapD f s := rfl
theorem exec_lcasW (f : L64) (s : State) : exec (.lcasW f) s = execLcasW f s := rfl
theorem exec_lcasD (f : L64) (s : State) : exec (.lcasD f) s = execLcasD f s := rfl
theorem exec_lfamoAddS (f : L64) (s : State) : exec (.lfamoAddS f) s = execLfamoAddS f s := rfl
theorem exec_lfamoMinS (f : L64) (s : State) : exec (.lfamoMinS f) s = execLfamoMinS f s := rfl
theorem exec_lfamoMaxS (f : L64) (s : State) : exec (.lfamoMaxS f) s = execLfamoMaxS f s := rfl
theorem exec_lcmpEq (f : L64) (s : State) : exec (.lcmpEq f) s = execLcmpEq f s := rfl
theorem exec_lcmpNe (f : L64) (s : State) : exec (.lcmpNe f) s = execLcmpNe f s := rfl
theorem exec_lcmpLt (f : L64) (s : State) : exec (.lcmpLt f) s = execLcmpLt f s := rfl
theorem exec_lcmpGe (f : L64) (s : State) : exec (.lcmpGe f) s = execLcmpGe f s := rfl
theorem exec_lcmpLtu (f : L64) (s : State) : exec (.lcmpLtu f) s = execLcmpLtu f s := rfl
theorem exec_lcmpGeu (f : L64) (s : State) : exec (.lcmpGeu f) s = execLcmpGeu f s := rfl
theorem exec_lfcmpEq (f : L64) (s : State) : exec (.lfcmpEq f) s = execLfcmpEq f s := rfl
theorem exec_lfcmpLt (f : L64) (s : State) : exec (.lfcmpLt f) s = execLfcmpLt f s := rfl
theorem exec_lfcmpLe (f : L64) (s : State) : exec (.lfcmpLe f) s = execLfcmpLe f s := rfl
theorem exec_lfcmpUn (f : L64) (s : State) : exec (.lfcmpUn f) s = execLfcmpUn f s := rfl
theorem exec_lshflIdx (f : L64) (s : State) : exec (.lshflIdx f) s = execLshflIdx f s := rfl
theorem exec_lshflUp (f : L64) (s : State) : exec (.lshflUp f) s = execLshflUp f s := rfl
theorem exec_lshflDn (f : L64) (s : State) : exec (.lshflDn f) s = execLshflDn f s := rfl
theorem exec_lshflXor (f : L64) (s : State) : exec (.lshflXor f) s = execLshflXor f s := rfl
theorem exec_lredAdd (f : L64) (s : State) : exec (.lredAdd f) s = execLredAdd f s := rfl
theorem exec_lredMin (f : L64) (s : State) : exec (.lredMin f) s = execLredMin f s := rfl
theorem exec_lredMax (f : L64) (s : State) : exec (.lredMax f) s = execLredMax f s := rfl
theorem exec_lredAnd (f : L64) (s : State) : exec (.lredAnd f) s = execLredAnd f s := rfl
theorem exec_lredOr (f : L64) (s : State) : exec (.lredOr f) s = execLredOr f s := rfl
theorem exec_lredXor (f : L64) (s : State) : exec (.lredXor f) s = execLredXor f s := rfl
theorem exec_lredFadd (f : L64) (s : State) : exec (.lredFadd f) s = execLredFadd f s := rfl
theorem exec_lredFmin (f : L64) (s : State) : exec (.lredFmin f) s = execLredFmin f s := rfl
theorem exec_lredFmax (f : L64) (s : State) : exec (.lredFmax f) s = execLredFmax f s := rfl
theorem exec_lscanAdd (f : L64) (s : State) : exec (.lscanAdd f) s = execLscanAdd f s := rfl
theorem exec_lscanFadd (f : L64) (s : State) : exec (.lscanFadd f) s = execLscanFadd f s := rfl
theorem exec_lcomp (f : L64) (s : State) : exec (.lcomp f) s = execLcomp f s := rfl
theorem exec_tallocImm (f : L64) (s : State) : exec (.tallocImm f) s = execTallocImm f s := rfl
theorem exec_tallocReg (f : L64) (s : State) : exec (.tallocReg f) s = execTallocReg f s := rfl
theorem exec_tallocNbImm (f : L64) (s : State) : exec (.tallocNbImm f) s = execTallocNbImm f s := rfl
theorem exec_tallocNbReg (f : L64) (s : State) : exec (.tallocNbReg f) s = execTallocNbReg f s := rfl
theorem exec_thdr (f : L64) (s : State) : exec (.thdr f) s = execThdr f s := rfl
theorem exec_thdrM (f : L64) (s : State) : exec (.thdrM f) s = execThdrM f s := rfl
theorem exec_tst (f : L64) (s : State) : exec (.tst f) s = execTst f s := rfl
theorem exec_tseal (f : L64) (s : State) : exec (.tseal f) s = execTseal f s := rfl
theorem exec_tdrop (f : L64) (s : State) : exec (.tdrop f) s = execTdrop f s := rfl
theorem exec_tld (f : L64) (s : State) : exec (.tld f) s = execTld f s := rfl
theorem exec_tldM (f : L64) (s : State) : exec (.tldM f) s = execTldM f s := rfl
theorem exec_tpeek (f : L64) (s : State) : exec (.tpeek f) s = execTpeek f s := rfl
theorem exec_tskip (f : L64) (s : State) : exec (.tskip f) s = execTskip f s := rfl
theorem exec_tgive (f : L64) (s : State) : exec (.tgive f) s = execTgive f s := rfl
theorem exec_tcnt (f : L64) (s : State) : exec (.tcnt f) s = execTcnt f s := rfl
theorem exec_tinfo (f : L64) (s : State) : exec (.tinfo f) s = execTinfo f s := rfl
theorem exec_tinfoT (f : L64) (s : State) : exec (.tinfoT f) s = execTinfoT f s := rfl
theorem exec_tldl (f : L64) (s : State) : exec (.tldl f) s = execTldl f s := rfl
theorem exec_tmma (f : L64) (s : State) : exec (.tmma f) s = execTmma f s := rfl
theorem exec_tzero (f : L64) (s : State) : exec (.tzero f) s = execTzero f s := rfl
theorem exec_tzeroM (f : L64) (s : State) : exec (.tzeroM f) s = execTzeroM f s := rfl
theorem exec_taccLd (f : L64) (s : State) : exec (.taccLd f) s = execTaccLd f s := rfl
theorem exec_taccLdM (f : L64) (s : State) : exec (.taccLdM f) s = execTaccLdM f s := rfl
theorem exec_taccSt (f : L64) (s : State) : exec (.taccSt f) s = execTaccSt f s := rfl
theorem exec_taccStM (f : L64) (s : State) : exec (.taccStM f) s = execTaccStM f s := rfl
theorem exec_tcvt (f : L64) (s : State) : exec (.tcvt f) s = execTcvt f s := rfl
theorem exec_tcvtM (f : L64) (s : State) : exec (.tcvtM f) s = execTcvtM f s := rfl
theorem exec_taccLrd (f : L64) (s : State) : exec (.taccLrd f) s = execTaccLrd f s := rfl
theorem exec_taccLwr (f : L64) (s : State) : exec (.taccLwr f) s = execTaccLwr f s := rfl
theorem exec_tquizNone (f : L64) (s : State) : exec (.tquizNone f) s = execTquizNone f s := rfl
theorem exec_tquizRun (f : L64) (s : State) : exec (.tquizRun f) s = execTquizRun f s := rfl
theorem exec_tquizClear (f : L64) (s : State) : exec (.tquizClear f) s = execTquizClear f s := rfl
theorem exec_mand (d a b : BitVec 5) (s : State) : exec (.mand d a b) s = execMand d a b s := rfl
theorem exec_mor (d a b : BitVec 5) (s : State) : exec (.mor d a b) s = execMor d a b s := rfl
theorem exec_mxor (d a b : BitVec 5) (s : State) : exec (.mxor d a b) s = execMxor d a b s := rfl
theorem exec_mandn (d a b : BitVec 5) (s : State) : exec (.mandn d a b) s = execMandn d a b s := rfl
theorem exec_mnot (d a : BitVec 5) (s : State) : exec (.mnot d a) s = execMnot d a s := rfl
theorem exec_mmov (d a : BitVec 5) (s : State) : exec (.mmov d a) s = execMmov d a s := rfl
theorem exec_mset (d a : BitVec 5) (s : State) : exec (.mset d a) s = execMset d a s := rfl
theorem exec_mget (d a : BitVec 5) (s : State) : exec (.mget d a) s = execMget d a s := rfl
theorem exec_mcnt (d a : BitVec 5) (s : State) : exec (.mcnt d a) s = execMcnt d a s := rfl
theorem exec_mffs (d a : BitVec 5) (s : State) : exec (.mffs d a) s = execMffs d a s := rfl
theorem exec_mpush (a : BitVec 5) (s : State) : exec (.mpush a) s = execMpush a s := rfl
theorem exec_mbz (k : BitVec 3) (off : BitVec 12) (s : State) : exec (.mbz k off) s = execMbz k off s := rfl
theorem exec_mbnz (k : BitVec 3) (off : BitVec 12) (s : State) : exec (.mbnz k off) s = execMbnz k off s := rfl
theorem exec_bbrd (d a : BitVec 5) (s : State) : exec (.bbrd d a) s = execBbrd d a s := rfl
theorem exec_bbwr (d a : BitVec 5) (s : State) : exec (.bbwr d a) s = execBbwr d a s := rfl
theorem exec_imv (d a : BitVec 5) (s : State) : exec (.imv d a) s = execImv d a s := rfl
theorem exec_iwr (d a b : BitVec 5) (s : State) : exec (.iwr d a b) s = execIwr d a b s := rfl
theorem exec_waitf (mask : BitVec 12) (s : State) : exec (.waitf mask) s = execWaitf mask s := rfl
theorem exec_barCfg (id : BitVec 7) (a : BitVec 5) (s : State) : exec (.barCfg id a) s = execBarCfg id a s := rfl
theorem exec_barArr (id : BitVec 7) (s : State) : exec (.barArr id) s = execBarArr id s := rfl
theorem exec_barWait (id : BitVec 7) (s : State) : exec (.barWait id) s = execBarWait id s := rfl
theorem exec_barSync (id : BitVec 7) (s : State) : exec (.barSync id) s = execBarSync id s := rfl
theorem exec_barTx (id : BitVec 7) (a : BitVec 5) (s : State) : exec (.barTx id a) s = execBarTx id a s := rfl
theorem exec_barTest (d : BitVec 5) (id : BitVec 7) (a : BitVec 5) (s : State) : exec (.barTest d id a) s = execBarTest d id a s := rfl
theorem exec_kfence (sets : BitVec 4) (scope : BitVec 3) (s : State) : exec (.kfence sets scope) s = execKfence sets scope s := rfl
theorem exec_rollc (id : BitVec 7) (a : BitVec 5) (s : State) : exec (.rollc id a) s = execRollc id a s := rfl
theorem exec_kctxSv (a : BitVec 5) (s : State) : exec (.kctxSv a) s = execKctxSv a s := rfl
theorem exec_kctxLd (a : BitVec 5) (s : State) : exec (.kctxLd a) s = execKctxLd a s := rfl
theorem exec_msend (a : BitVec 5) (s : State) : exec (.msend a) s = execMsend a s := rfl
theorem exec_msendL (a b : BitVec 5) (s : State) : exec (.msendL a b) s = execMsendL a b s := rfl
theorem exec_qpush (a b : BitVec 5) (s : State) : exec (.qpush a b) s = execQpush a b s := rfl
theorem exec_qpop (d a : BitVec 5) (s : State) : exec (.qpop d a) s = execQpop d a s := rfl
theorem exec_hpassArm (d a : BitVec 5) (s : State) : exec (.hpassArm d a) s = execHpassArm d a s := rfl
theorem exec_hpassStart (d a : BitVec 5) (s : State) : exec (.hpassStart d a) s = execHpassStart d a s := rfl
theorem exec_hpassStatus (d a : BitVec 5) (s : State) : exec (.hpassStatus d a) s = execHpassStatus d a s := rfl
theorem exec_hpassWait (d a : BitVec 5) (s : State) : exec (.hpassWait d a) s = execHpassWait d a s := rfl
theorem exec_hpassDisarm (d a : BitVec 5) (s : State) : exec (.hpassDisarm d a) s = execHpassDisarm d a s := rfl
theorem exec_cprd (a : BitVec 5) (s : State) : exec (.cprd a) s = execCprd a s := rfl
theorem exec_cpq (a : BitVec 5) (s : State) : exec (.cpq a) s = execCpq a s := rfl
theorem exec_cpqNb (d a : BitVec 5) (s : State) : exec (.cpqNb d a) s = execCpqNb d a s := rfl
theorem exec_cpwm (d a b : BitVec 5) (s : State) : exec (.cpwm d a b) s = execCpwm d a b s := rfl
theorem exec_cpcls (d : BitVec 5) (s : State) : exec (.cpcls d) s = execCpcls d s := rfl
theorem exec_launch (d a : BitVec 5) (s : State) : exec (.launch d a) s = execLaunch d a s := rfl
theorem exec_clause (flagB flagA : BitVec 4) (wait : BitVec 12) (len : BitVec 5) (s : State) : exec (.clause flagB flagA wait len) s = execClause flagB flagA wait len s := rfl
theorem exec_sfenceVma (a b : BitVec 5) (s : State) : exec (.sfenceVma a b) s = execSfenceVma a b s := rfl
theorem exec_fence (fm pred succ : BitVec 4) (a d : BitVec 5) (s : State) : exec (.fence fm pred succ a d) s = execFence fm pred succ a d s := rfl
theorem exec_krootWrite (o : CsrOp) (s : State) : exec (.krootWrite o) s = execKrootWrite o s := rfl
theorem exec_kdomWrite (o : CsrOp) (s : State) : exec (.kdomWrite o) s = execKdomWrite o s := rfl
theorem exec_ktinvGo (o : CsrOp) (s : State) : exec (.ktinvGo o) s = execKtinvGo o s := rfl
theorem exec_kslabGo (o : CsrOp) (s : State) : exec (.kslabGo o) s = execKslabGo o s := rfl
theorem exec_kslabAbort (o : CsrOp) (s : State) : exec (.kslabAbort o) s = execKslabAbort o s := rfl
theorem exec_kpartWrite (o : CsrOp) (s : State) : exec (.kpartWrite o) s = execKpartWrite o s := rfl
theorem exec_kpownWrite (o : CsrOp) (s : State) : exec (.kpownWrite o) s = execKpownWrite o s := rfl
theorem exec_kpoolevRead (o : CsrOp) (s : State) : exec (.kpoolevRead o) s = execKpoolevRead o s := rfl
theorem exec_kbiasGo (o : CsrOp) (s : State) : exec (.kbiasGo o) s = execKbiasGo o s := rfl
theorem exec_kflagclrWrite (o : CsrOp) (s : State) : exec (.kflagclrWrite o) s = execKflagclrWrite o s := rfl
theorem exec_khctlWrite (o : CsrOp) (s : State) : exec (.khctlWrite o) s = execKhctlWrite o s := rfl
theorem exec_kchqDepthWrite (o : CsrOp) (s : State) : exec (.kchqDepthWrite o) s = execKchqDepthWrite o s := rfl
theorem exec_kchqErrClear (o : CsrOp) (s : State) : exec (.kchqErrClear o) s = execKchqErrClear o s := rfl
theorem exec_kchringWrite (o : CsrOp) (s : State) : exec (.kchringWrite o) s = execKchringWrite o s := rfl
theorem exec_kqctlWrite (o : CsrOp) (s : State) : exec (.kqctlWrite o) s = execKqctlWrite o s := rfl
theorem exec_ksibctlHalt (o : CsrOp) (s : State) : exec (.ksibctlHalt o) s = execKsibctlHalt o s := rfl
theorem exec_ksibctlResume (o : CsrOp) (s : State) : exec (.ksibctlResume o) s = execKsibctlResume o s := rfl
theorem exec_ksibdataWrite (o : CsrOp) (s : State) : exec (.ksibdataWrite o) s = execKsibdataWrite o s := rfl
theorem exec_kpreDone (o : CsrOp) (s : State) : exec (.kpreDone o) s = execKpreDone o s := rfl
theorem exec_kcsaveSave (o : CsrOp) (s : State) : exec (.kcsaveSave o) s = execKcsaveSave o s := rfl
theorem exec_kcsaveRestore (o : CsrOp) (s : State) : exec (.kcsaveRestore o) s = execKcsaveRestore o s := rfl
theorem exec_ktqctlTailWrite (o : CsrOp) (s : State) : exec (.ktqctlTailWrite o) s = execKtqctlTailWrite o s := rfl
theorem exec_ktqctlRerrClear (o : CsrOp) (s : State) : exec (.ktqctlRerrClear o) s = execKtqctlRerrClear o s := rfl
theorem exec_ktkillGo (o : CsrOp) (s : State) : exec (.ktkillGo o) s = execKtkillGo o s := rfl
theorem exec_kflushGo (o : CsrOp) (s : State) : exec (.kflushGo o) s = execKflushGo o s := rfl
theorem exec_kkctlErase (o : CsrOp) (s : State) : exec (.kkctlErase o) s = execKkctlErase o s := rfl
theorem exec_kkctlDerive (o : CsrOp) (s : State) : exec (.kkctlDerive o) s = execKkctlDerive o s := rfl
theorem exec_kkctlUnwrap (o : CsrOp) (s : State) : exec (.kkctlUnwrap o) s = execKkctlUnwrap o s := rfl
theorem exec_kkctlRebind (o : CsrOp) (s : State) : exec (.kkctlRebind o) s = execKkctlRebind o s := rfl
theorem exec_kkctlQuery (o : CsrOp) (s : State) : exec (.kkctlQuery o) s = execKkctlQuery o s := rfl
theorem exec_khmctlWrite (o : CsrOp) (s : State) : exec (.khmctlWrite o) s = execKhmctlWrite o s := rfl
theorem exec_khmdomWrite (o : CsrOp) (s : State) : exec (.khmdomWrite o) s = execKhmdomWrite o s := rfl
theorem exec_khmrateWrite (o : CsrOp) (s : State) : exec (.khmrateWrite o) s = execKhmrateWrite o s := rfl
theorem exec_pmpWrite (num : BitVec 12) (o : CsrOp) (s : State) : exec (.pmpWrite num o) s = execPmpWrite num o s := rfl
theorem exec_registerWrite (w : RegWrite) (s : State) : exec (.registerWrite w) s = execRegisterWrite w s := rfl
theorem exec_scalarLoad (o : LoadOp) (s : State) : exec (.scalarLoad o) s = execScalarLoad o s := rfl
theorem exec_scalarStore (o : StoreOp) (s : State) : exec (.scalarStore o) s = execScalarStore o s := rfl
theorem exec_scalarAtomic (o : AmoOp) (s : State) : exec (.scalarAtomic o) s = execScalarAtomic o s := rfl
theorem exec_minv (s : State) : exec .minv s = execMinv s := rfl
theorem exec_mpop (s : State) : exec .mpop s = execMpop s := rfl
theorem exec_hdone (s : State) : exec .hdone s = execHdone s := rfl
theorem exec_kyield (s : State) : exec .kyield s = execKyield s := rfl
theorem exec_kscrub (s : State) : exec .kscrub s = execKscrub s := rfl
theorem exec_mnext (s : State) : exec .mnext s = execMnext s := rfl
theorem exec_fenceI (s : State) : exec .fenceI s = execFenceI s := rfl
theorem exec_pause (s : State) : exec .pause s = execPause s := rfl
theorem exec_wfi (s : State) : exec .wfi s = execWfi s := rfl
theorem exec_sret (s : State) : exec .sret s = execSret s := rfl
theorem exec_mret (s : State) : exec .mret s = execMret s := rfl
theorem exec_trapEntry (s : State) : exec .trapEntry s = execTrapEntry s := rfl
theorem exec_wfiTimeout (s : State) : exec .wfiTimeout s = execWfiTimeout s := rfl
theorem exec_slotSwitchLimit (s : State) : exec .slotSwitchLimit s = execSlotSwitchLimit s := rfl
theorem exec_pageWalk (s : State) : exec .pageWalk s = execPageWalk s := rfl
theorem exec_faultBufferDelivery (s : State) : exec .faultBufferDelivery s = execFaultBufferDelivery s := rfl
theorem exec_heldReportPost (s : State) : exec .heldReportPost s = execHeldReportPost s := rfl
theorem exec_faultReplyRetry (s : State) : exec .faultReplyRetry s = execFaultReplyRetry s := rfl
theorem exec_faultReplyFatal (s : State) : exec .faultReplyFatal s = execFaultReplyFatal s := rfl
theorem exec_notice (s : State) : exec .notice s = execNotice s := rfl
theorem exec_invalidationComplete (s : State) : exec .invalidationComplete s = execInvalidationComplete s := rfl
theorem exec_lineFill (s : State) : exec .lineFill s = execLineFill s := rfl
theorem exec_correctedError (s : State) : exec .correctedError s = execCorrectedError s := rfl
theorem exec_uncorrectableError (s : State) : exec .uncorrectableError s = execUncorrectableError s := rfl
theorem exec_slabDrainComplete (s : State) : exec .slabDrainComplete s = execSlabDrainComplete s := rfl
theorem exec_slabClearComplete (s : State) : exec .slabClearComplete s = execSlabClearComplete s := rfl
theorem exec_biasFlipComplete (s : State) : exec .biasFlipComplete s = execBiasFlipComplete s := rfl
theorem exec_flushComplete (s : State) : exec .flushComplete s = execFlushComplete s := rfl
theorem exec_tallocGrant (s : State) : exec .tallocGrant s = execTallocGrant s := rfl
theorem exec_tileReservationCommit (s : State) : exec .tileReservationCommit s = execTileReservationCommit s := rfl
theorem exec_tileReservationRelease (s : State) : exec .tileReservationRelease s = execTileReservationRelease s := rfl
theorem exec_starvationDetectorFire (s : State) : exec .starvationDetectorFire s = execStarvationDetectorFire s := rfl
theorem exec_tmmaComplete (s : State) : exec .tmmaComplete s = execTmmaComplete s := rfl
theorem exec_popQuiz (s : State) : exec .popQuiz s = execPopQuiz s := rfl
theorem exec_messageArrival (s : State) : exec .messageArrival s = execMessageArrival s := rfl
theorem exec_channelRefill (s : State) : exec .channelRefill s = execChannelRefill s := rfl
theorem exec_heldMessageReoffer (s : State) : exec .heldMessageReoffer s = execHeldMessageReoffer s := rfl
theorem exec_firingStart (s : State) : exec .firingStart s = execFiringStart s := rfl
theorem exec_eprioAging (s : State) : exec .eprioAging s = execEprioAging s := rfl
theorem exec_iwrHeldWriteEntry (s : State) : exec .iwrHeldWriteEntry s = execIwrHeldWriteEntry s := rfl
theorem exec_copyRequestStart (s : State) : exec .copyRequestStart s = execCopyRequestStart s := rfl
theorem exec_copyTileAllocation (s : State) : exec .copyTileAllocation s = execCopyTileAllocation s := rfl
theorem exec_copyPieceCopy (s : State) : exec .copyPieceCopy s = execCopyPieceCopy s := rfl
theorem exec_copyPieceFill (s : State) : exec .copyPieceFill s = execCopyPieceFill s := rfl
theorem exec_copyPieceZero (s : State) : exec .copyPieceZero s = execCopyPieceZero s := rfl
theorem exec_copyPieceGather (s : State) : exec .copyPieceGather s = execCopyPieceGather s := rfl
theorem exec_copyPieceReduce (s : State) : exec .copyPieceReduce s = execCopyPieceReduce s := rfl
theorem exec_reduceContributionArrival (s : State) : exec .reduceContributionArrival s = execReduceContributionArrival s := rfl
theorem exec_combiningEntryTimeout (s : State) : exec .combiningEntryTimeout s = execCombiningEntryTimeout s := rfl
theorem exec_cprdPerform (s : State) : exec .cprdPerform s = execCprdPerform s := rfl
theorem exec_copyCompletion (s : State) : exec .copyCompletion s = execCopyCompletion s := rfl
theorem exec_barrierSweep (s : State) : exec .barrierSweep s = execBarrierSweep s := rfl
theorem exec_barrierRelease (s : State) : exec .barrierRelease s = execBarrierRelease s := rfl
theorem exec_stageBarrierDelivery (s : State) : exec .stageBarrierDelivery s = execStageBarrierDelivery s := rfl
theorem exec_barTestTimeout (s : State) : exec .barTestTimeout s = execBarTestTimeout s := rfl
theorem exec_hpassArmAck (s : State) : exec .hpassArmAck s = execHpassArmAck s := rfl
theorem exec_hpassTokenHop (s : State) : exec .hpassTokenHop s = execHpassTokenHop s := rfl
theorem exec_launchSelection (s : State) : exec .launchSelection s = execLaunchSelection s := rfl
theorem exec_cohortBinding (s : State) : exec .cohortBinding s = execCohortBinding s := rfl
theorem exec_preemptionRequest (s : State) : exec .preemptionRequest s = execPreemptionRequest s := rfl
theorem exec_launchCompletion (s : State) : exec .launchCompletion s = execLaunchCompletion s := rfl
theorem exec_mladotteCreate (s : State) : exec .mladotteCreate s = execMladotteCreate s := rfl
theorem exec_mladotteAddPage (s : State) : exec .mladotteAddPage s = execMladotteAddPage s := rfl
theorem exec_mladotteExtend (s : State) : exec .mladotteExtend s = execMladotteExtend s := rfl
theorem exec_mladotteFinalize (s : State) : exec .mladotteFinalize s = execMladotteFinalize s := rfl
theorem exec_mladotteEnter (s : State) : exec .mladotteEnter s = execMladotteEnter s := rfl
theorem exec_mladotteExit (s : State) : exec .mladotteExit s = execMladotteExit s := rfl
theorem exec_mladotteDestroy (s : State) : exec .mladotteDestroy s = execMladotteDestroy s := rfl
theorem exec_mladotteUnwrap (s : State) : exec .mladotteUnwrap s = execMladotteUnwrap s := rfl
theorem exec_mladotteReport (s : State) : exec .mladotteReport s = execMladotteReport s := rfl
theorem exec_spdmRequest (s : State) : exec .spdmRequest s = execSpdmRequest s := rfl
theorem exec_egressTransaction (s : State) : exec .egressTransaction s = execEgressTransaction s := rfl
theorem exec_bucketRefill (s : State) : exec .bucketRefill s = execBucketRefill s := rfl
theorem exec_signedHead (s : State) : exec .signedHead s = execSignedHead s := rfl
theorem exec_functionLevelReset (s : State) : exec .functionLevelReset s = execFunctionLevelReset s := rfl
theorem exec_tdispLeaveRun (s : State) : exec .tdispLeaveRun s = execTdispLeaveRun s := rfl
theorem exec_coldReset (s : State) : exec .coldReset s = execColdReset s := rfl
theorem exec_stage0Complete (s : State) : exec .stage0Complete s = execStage0Complete s := rfl
theorem exec_stage1Complete (s : State) : exec .stage1Complete s = execStage1Complete s := rfl
theorem exec_stage2Complete (s : State) : exec .stage2Complete s = execStage2Complete s := rfl
theorem exec_operatingPointUpdate (s : State) : exec .operatingPointUpdate s = execOperatingPointUpdate s := rfl
theorem exec_droopDetectorFire (s : State) : exec .droopDetectorFire s = execDroopDetectorFire s := rfl
theorem exec_droopStretchEnd (s : State) : exec .droopStretchEnd s = execDroopStretchEnd s := rfl
theorem exec_thermalTrip (s : State) : exec .thermalTrip s = execThermalTrip s := rfl
theorem exec_linkTraining (s : State) : exec .linkTraining s = execLinkTraining s := rfl
theorem exec_linkFailure (s : State) : exec .linkFailure s = execLinkFailure s := rfl
theorem exec_peerAccessArrival (s : State) : exec .peerAccessArrival s = execPeerAccessArrival s := rfl
theorem exec_hostCxlMemRead (s : State) : exec .hostCxlMemRead s = execHostCxlMemRead s := rfl
theorem exec_hostCxlMemWrite (s : State) : exec .hostCxlMemWrite s = execHostCxlMemWrite s := rfl
theorem exec_ethTransmit (s : State) : exec .ethTransmit s = execEthTransmit s := rfl
theorem exec_ethReceive (s : State) : exec .ethReceive s = execEthReceive s := rfl
theorem exec_biasGo (s : State) : exec .biasGo s = execBiasGo s := rfl
theorem exec_bookackWrite (s : State) : exec .bookackWrite s = execBookackWrite s := rfl
theorem exec_booksignRequest (s : State) : exec .booksignRequest s = execBooksignRequest s := rfl
theorem exec_slatenonceRead (s : State) : exec .slatenonceRead s = execSlatenonceRead s := rfl
theorem exec_slatetokenSubmit (s : State) : exec .slatetokenSubmit s = execSlatetokenSubmit s := rfl
theorem exec_islstCapWrite (s : State) : exec .islstCapWrite s = execIslstCapWrite s := rfl
theorem exec_ethTailDoorbell (s : State) : exec .ethTailDoorbell s = execEthTailDoorbell s := rfl
theorem exec_supervisorTimerInterrupt (s : State) : exec .supervisorTimerInterrupt s = execSupervisorTimerInterrupt s := rfl
theorem exec_tdispEnterRun (s : State) : exec .tdispEnterRun s = execTdispEnterRun s := rfl
theorem exec_hostCxlCacheSnoop (s : State) : exec .hostCxlCacheSnoop s = execHostCxlCacheSnoop s := rfl

end Sys2Proof.Machine
end

