-- ==== Sys2Proof/Laws/Encoding.lean ====
section
/-!
SUPPORT. The fields of packed words: what decoding meets of a word that the encoder made, for the 64-bit and the 32-bit forms.
-/
namespace Sys2Proof.Machine

/-! ### 64-bit words -/

theorem l64Of_packL64 (g : BitVec 3) (op : BitVec 8) (f : L64) : l64Of (packL64 g op f) = f := by
  cases f
  simp only [l64Of, packL64, L64.mk.injEq]
  refine ⟨?_, ?_, ?_, ?_, ?_, ?_, ?_, ?_, ?_, ?_⟩ <;>
  · ext i hi
    simp only [BitVec.getElem_extractLsb', BitVec.getLsbD_append]
    repeat (first | (rw [if_pos (by omega)]) | (rw [if_neg (by omega)]))
    simp only [← BitVec.getLsbD_eq_getElem]
    congr 1
    try omega

theorem packL64_group (g : BitVec 3) (op : BitVec 8) (f : L64) : (packL64 g op f).extractLsb' 12 3 = g := by
  simp only [packL64]
  ext i hi
  simp only [BitVec.getElem_extractLsb', BitVec.getLsbD_append]
  repeat (first | (rw [if_pos (by omega)]) | (rw [if_neg (by omega)]))
  simp only [← BitVec.getLsbD_eq_getElem]
  congr 1
  try omega

theorem packL64_op (g : BitVec 3) (op : BitVec 8) (f : L64) : (packL64 g op f).extractLsb' 34 8 = op := by
  simp only [packL64]
  ext i hi
  simp only [BitVec.getElem_extractLsb', BitVec.getLsbD_append]
  repeat (first | (rw [if_pos (by omega)]) | (rw [if_neg (by omega)]))
  simp only [← BitVec.getLsbD_eq_getElem]
  congr 1
  try omega

theorem packL64_length (g : BitVec 3) (op : BitVec 8) (f : L64) : (packL64 g op f).toNat % 128 = 63 := by
  have : (packL64 g op f).extractLsb' 0 7 = 0x3F#7 := by
    simp only [packL64]
    ext i hi
    simp only [BitVec.getElem_extractLsb', BitVec.getLsbD_append]
    repeat (first | (rw [if_pos (by omega)]) | (rw [if_neg (by omega)]))
    simp only [← BitVec.getLsbD_eq_getElem]
    congr 1
    omega
  have h := congrArg BitVec.toNat this
  simpa [BitVec.extractLsb'_toNat] using h

/-- A packed 64-bit word is read by the 64-bit decoder. -/
theorem decode_packL64 (g : BitVec 3) (op : BitVec 8) (f : L64) :
    decode (packL64 g op f).toNat = (decodeL64 (packL64 g op f)).map (fun i => (i, 8)) := by
  have h := packL64_length g op f
  have hl : lengthOf (packL64 g op f).toNat = some 8 := by
    unfold lengthOf
    rw [if_neg (by omega), if_neg (by omega), if_pos (by omega)]
  unfold decode
  rw [hl]
  simp

/-! ### 32-bit words -/

/-- A 32-bit word is read by the 32-bit decoder. -/
theorem decode_word32 (w : BitVec 32) (h1 : w.toNat % 4 = 3) (h2 : w.toNat / 4 % 8 ≠ 7) : decode w.toNat = (decode32 w).map (fun i => (i, 4)) := by
  have hl : lengthOf w.toNat = some 4 := by
    unfold lengthOf
    rw [if_neg (by omega), if_pos (by omega)]
  unfold decode
  rw [hl]
  simp

theorem packReg_toNat (f7 : BitVec 7) (b a : BitVec 5) (f3 : BitVec 3) (d : BitVec 5) (m : BitVec 7) :
    (packReg f7 b a f3 d m).toNat =
      m.toNat + 2 ^ 7 * d.toNat + 2 ^ 12 * f3.toNat + 2 ^ 15 * a.toNat + 2 ^ 20 * b.toNat + 2 ^ 25 * f7.toNat := by
  simp only [packReg, BitVec.toNat_append]
  have := m.isLt
  have := d.isLt
  have := f3.isLt
  have := a.isLt
  have := b.isLt
  rw [← Nat.shiftLeft_add_eq_or_of_lt (by omega), ← Nat.shiftLeft_add_eq_or_of_lt (by omega), ← Nat.shiftLeft_add_eq_or_of_lt (by omega),
    ← Nat.shiftLeft_add_eq_or_of_lt (by omega), ← Nat.shiftLeft_add_eq_or_of_lt (by omega)]
  simp [Nat.shiftLeft_eq]
  omega

/-- The fields of a packed register word. -/
theorem packReg_fields (f7 : BitVec 7) (b a : BitVec 5) (f3 : BitVec 3) (d : BitVec 5) (m : BitVec 7) :
    let w := packReg f7 b a f3 d m
    bits32 w 14 12 = f3.toNat ∧ bits32 w 31 25 = f7.toNat ∧ w.extractLsb' 7 5 = d ∧ w.extractLsb' 15 5 = a ∧ w.extractLsb' 20 5 = b ∧
      bits32 w 6 0 = m.toNat := by
  intro w
  have h : w.toNat = _ := packReg_toNat f7 b a f3 d m
  have := m.isLt
  have := d.isLt
  have := f3.isLt
  have := a.isLt
  have := b.isLt
  refine ⟨?_, ?_, ?_, ?_, ?_, ?_⟩
  · unfold bits32; omega
  · unfold bits32; omega
  · apply BitVec.eq_of_toNat_eq; simp only [BitVec.extractLsb'_toNat, Nat.shiftRight_eq_div_pow]; omega
  · apply BitVec.eq_of_toNat_eq; simp only [BitVec.extractLsb'_toNat, Nat.shiftRight_eq_div_pow]; omega
  · apply BitVec.eq_of_toNat_eq; simp only [BitVec.extractLsb'_toNat, Nat.shiftRight_eq_div_pow]; omega
  · unfold bits32; omega

end Sys2Proof.Machine
end

