-- ==== Sys2Proof/Laws/Exec.lean ====
section
/-!
SUPPORT. Meanings in steps: how one goes on and how it ends, what each checking step can do, and the cases of a Zicsr access.
-/
namespace Sys2Proof.Machine

/-! ### Going on and ending -/

/-- A meaning in steps always gives a next state. -/
theorem finish_next (m : Exec Unit) (s : State) : ∃ t, finish m s = .next t := by
  unfold finish
  split <;> exact ⟨_, rfl⟩

theorem finish_ok {m : Exec Unit} {s t : State} (h : m s = .ok ((), t)) : finish m s = .next t := by
  unfold finish
  rw [h]

theorem finish_error {m : Exec Unit} {s t : State} (h : m s = .error t) : finish m s = .next t := by
  unfold finish
  rw [h]

/-- A step that goes on hands its result and its state to the rest. -/
theorem bind_ok {α β : Type} {m : Exec α} {f : α → Exec β} {s t : State} {a : α} (h : m s = .ok (a, t)) : (m >>= f) s = f a t := by
  show (StateT.bind m f) s = _
  simp [StateT.bind, h, bind, Except.bind]

/-- A step that ends the instruction ends it for good. -/
theorem bind_error {α β : Type} {m : Exec α} {f : α → Exec β} {s t : State} (h : m s = .error t) : (m >>= f) s = .error t := by
  show (StateT.bind m f) s = _
  simp [StateT.bind, h, bind, Except.bind]

/-! ### The checking steps -/

theorem need_true {b : Bool} (h : b = true) (s : State) : need b s = .ok ((), s) := by subst h; rfl
theorem need_false {b : Bool} (h : b = false) (s : State) : need b s = .error (takeTrap s s.cur false 2 s.me.ibits) := by subst h; rfl

theorem orTrap_true {b : Bool} (h : b = true) (c : Nat) (v : Word) (s : State) : orTrap b c v s = .ok ((), s) := by subst h; rfl
theorem orTrap_false {b : Bool} (h : b = false) (c : Nat) (v : Word) (s : State) : orTrap b c v s = .error (takeTrap s s.cur false c v) := by
  subst h; rfl

theorem wmCheck_free {accs : List (Nat × Nat)} {s : State} (h : wmHeld s accs = none) : wmCheck accs s = .ok ((), s) := by
  unfold wmCheck
  rw [h]

theorem wmCheck_held {accs : List (Nat × Nat)} {s : State} (h : wmHeld s accs = some none) :
    wmCheck accs s = .error (s.modMe fun x => { x with wait := .stall }) := by
  unfold wmCheck
  rw [h]
  rfl

theorem wmCheck_failed {accs : List (Nat × Nat)} {s : State} {v : Nat} (h : wmHeld s accs = some (some v)) :
    wmCheck accs s = .error (takeTrap s s.cur false 49 (word v)) := by
  unfold wmCheck
  rw [h]
  rfl

/-- What the checks of an access can do: all pieces are placed, or the first that fails posts its report, or the hart stalls at a page
between biases. -/
theorem placeMine_cases (w : Who) (u : Src) (a : Acc) (code : Nat) (gs : List Seg) (s : State) :
    (∃ (ps : List Placed) (t : State), placeMine w u a code gs s = .ok (ps, t)) ∨
    (∃ (f : VFault) (g : Seg) (t : State), placeMine w u a code gs s = .error (postFault t t.cur f code u.tlb g.lane g.va)) ∨
    ∃ t : State, placeMine w u a code gs s = .error (t.modMe fun x => { x with wait := .stall }) := by
  unfold placeMine failAccess stallWith
  generalize placeAll w u a false false gs s = r
  obtain ⟨t, e | ps⟩ := r
  · exact .inr (.inl ⟨e.1, e.2, t, rfl⟩)
  · simp only []
    by_cases h1 : (ps.any fun p => flipHeld t p.ref.pa) = true
    · rw [if_pos h1]
      exact .inr (.inr ⟨t, rfl⟩)
    · rw [if_neg h1]
      by_cases h2 : a.writes = true
      · rw [if_pos h2]
        generalize placeAll w u a false true gs t = r
        obtain ⟨t', e | ps'⟩ := r
        · exact .inr (.inl ⟨e.1, e.2, t', rfl⟩)
        · exact .inl ⟨ps', t', rfl⟩
      · rw [if_neg h2]
        exact .inl ⟨ps, t, rfl⟩

/-! ### Zicsr -/

/-- An access that is not legal, or names no register, is an illegal-instruction trap. -/
theorem csrInstr_illegal {n : Nat} {o : CsrOp} {s : State} (h : csrLegal s.me n o = false ∨ csrRead s s.cur n = none) :
    csrInstr n o s = illegalNow s := by
  unfold csrInstr
  have : (if csrLegal s.me n o then csrRead s s.cur n else none) = none := by
    rcases h with h | h
    · simp [h]
    · simp [h]
  rw [this]

/-- A legal access: the old value is read, and the write takes effect or waits. -/
theorem csrInstr_legal {n : Nat} {o : CsrOp} {s : State} {old : Word} (h : csrLegal s.me n o = true) (hr : csrRead s s.cur n = some old) :
    csrInstr n o s =
      let t := retire ((afterRead s s.cur n o).modMe fun x => x.setX o.rd.toNat old)
      if !csrWrites o then .next t
      else match csrWrite t s.cur n (csrNew o old (csrSource s.me o)) with
        | .ok u => .next u
        | .wait f => .next (f (s.modMe fun x => { x with wait := .stall })) := by
  unfold csrInstr
  have : (if csrLegal s.me n o then csrRead s s.cur n else none) = some old := by simp [h, hr]
  simp only [this]
  all_goals rfl

theorem csrInstr_next (n : Nat) (o : CsrOp) (s : State) : ∃ t, csrInstr n o s = .next t := by
  unfold csrInstr illegalNow
  split
  · exact ⟨_, rfl⟩
  · simp only []
    split
    · exact ⟨_, rfl⟩
    · split <;> exact ⟨_, rfl⟩

end Sys2Proof.Machine
end

