-- ==== Sys2Proof/Laws/Lane.lean ====
section
/-!
SUPPORT. What writing results to active lanes does, register by register and lane by lane; that a completed instruction of one hart
changes its hart alone.
-/
namespace Sys2Proof
open Machine

namespace Machine

theorem State.modMe_modMe (s : State) (f g : Hart → Hart) : (s.modMe f).modMe g = s.modMe (g ∘ f) := by
  simp [State.modMe, State.modHart, State.setHart, State.hart]

/-- A meaning that changes its hart and completes. -/
theorem doneWith_eq (g : Hart → Hart) (s : State) : doneWith g s = .next (s.setHart s.cur (g s.me).done) := by
  unfold doneWith retire
  rw [State.modMe_modMe]
  rfl

@[simp] theorem rawByte_setHart (s : State) (h : Nat) (x : Hart) (a : Nat) : rawByte (s.setHart h x) a = rawByte s a := rfl

theorem laneOp_eq (f : L64) (eff : Hart → List Nat → Hart) (s : State) :
    laneOp f eff s = .next (s.setHart s.cur (if effMask s.me f = 0 then s.me else eff s.me (activeLanes s.me f)).done) := by
  unfold laneOp; rw [doneWith_eq]

theorem mem_lanesIn {m : BitVec 32} {l : Nat} : l ∈ lanesIn m ↔ l < 32 ∧ m.getLsbD l = true := by
  simp [lanesIn]

theorem mem_activeLanes {h : Hart} {f : L64} {l : Nat} : l ∈ activeLanes h f ↔ l < 32 ∧ (effMask h f).getLsbD l = true := mem_lanesIn

theorem lanesIn_nodup (m : BitVec 32) : (lanesIn m).Nodup := List.nodup_range.filter _

theorem Hart.getV_setElem (h : Hart) (w d k v : Nat) {n l : Nat} (hk : k < 32) (hl : l < 32) :
    (h.setElem w d k v).getV n l =
      if l = k then
        if n = d then BitVec.ofNat 32 v else if w ≠ 32 ∧ n = d + 1 then BitVec.ofNat 32 (v / 2 ^ 32) else h.getV n l
      else h.getV n l := by
  unfold Hart.setElem
  by_cases hw : w = 32
  · simp only [hw, if_true, Hart.getV_setV h _ hk hl]
    by_cases hlk : l = k <;> by_cases hn : n = d <;> simp [hlk, hn]
  · simp only [hw, if_false, Hart.getV_setV _ _ hk hl]
    by_cases hlk : l = k <;> by_cases hn : n = d <;> by_cases hn1 : n = d + 1 <;> simp [hlk, hn, hn1]
    all_goals (try omega)

/-- Writing results to a list of lanes changes the listed lanes of the destination and nothing else. -/
theorem Hart.getV_foldl_setElem (w d : Nat) (r : Nat → Nat) {n l : Nat} (hl : l < 32) (ls : List Nat) (h : Hart) (hls : ∀ k ∈ ls, k < 32) :
    (ls.foldl (fun x k => x.setElem w d k (r k)) h).getV n l =
      if l ∈ ls then
        if n = d then BitVec.ofNat 32 (r l) else if w ≠ 32 ∧ n = d + 1 then BitVec.ofNat 32 (r l / 2 ^ 32) else h.getV n l
      else h.getV n l := by
  induction ls generalizing h with
  | nil => simp
  | cons k ls ih =>
    rw [List.foldl_cons, ih _ fun j hj => hls j (List.mem_cons_of_mem _ hj),
      Hart.getV_setElem h w d k (r k) (hls k List.mem_cons_self) hl]
    by_cases e : l = k
    · subst e
      by_cases m : l ∈ ls <;> by_cases hn : n = d <;> by_cases h1 : w ≠ 32 ∧ n = d + 1 <;> simp_all
    · simp [e]

/-- An element write leaves everything but the lane registers. -/
theorem Hart.setElem_frame (h : Hart) (w d k v : Nat) : { h.setElem w d k v with v := h.v } = h := by
  unfold Hart.setElem; split <;> rfl

theorem Hart.foldl_setElem_frame (w d : Nat) (r : Nat → Nat) (ls : List Nat) (h : Hart) (v : SMap Elem) :
    { ls.foldl (fun x k => x.setElem w d k (r k)) h with v := v } = { h with v := v } := by
  induction ls generalizing h with
  | nil => rfl
  | cons k ls ih =>
    rw [List.foldl_cons, ih]
    unfold Hart.setElem; split <;> rfl

/-- The marks of a completed instruction do not touch the lane registers. -/
theorem Hart.done_with_v (h : Hart) (v : SMap Elem) : { h.dirtyXs.done with v := v } = ({ h with v := v } : Hart).dirtyXs.done := by
  unfold Hart.dirtyXs Hart.setXs Hart.done Hart.counted; rfl

end Machine

/-- The widths are 32 and 64. -/
theorem widthOf_cases (f : L64) : widthOf f = 32 ∨ widthOf f = 64 := by
  unfold widthOf; split <;> simp

/-- A lane form that writes `r` to its active lanes. -/
theorem laneDone_of {i : Instr} {s : State} {f : L64} {w d : Nat} {r : Nat → Nat} {eff : Hart → List Nat → Hart} (hw : w = 32 ∨ w = 64)
    (h : exec i s = laneOp f eff s) (he : eff s.me (activeLanes s.me f) = s.me.setLanes w d (activeLanes s.me f) r) :
    LaneDone i s f w d r := by
  unfold LaneDone Becomes Runs LaneElems
  rw [h, laneOp_eq, he]
  by_cases e : effMask s.me f = 0
  · refine ⟨s.me.done, ⟨_, by rw [if_pos e], rfl, fun a => rfl⟩, ?_, ?_⟩
    · intro n l hl; simp only [e]; simp [Hart.getV]
    · rw [if_pos e]; unfold Hart.done Hart.counted; rfl
  · refine ⟨(s.me.setLanes w d (activeLanes s.me f) r).done, ⟨_, by rw [if_neg e], rfl, fun a => rfl⟩, ?_, ?_⟩
    · intro n l hl
      have : (s.me.setLanes w d (activeLanes s.me f) r).done.getV n l = ((activeLanes s.me f).foldl (fun x k => x.setElem w d k (r k)) s.me).getV n l := by
        simp [Hart.getV, Hart.setLanes]
      rw [this, Hart.getV_foldl_setElem w d r hl _ _ fun k hk => (mem_activeLanes.1 hk).1]
      have hm : l ∈ activeLanes s.me f ↔ (effMask s.me f).getLsbD l = true := by simp [mem_activeLanes, hl]
      simp only [hm]
      rcases hw with rfl | rfl <;> simp
    · rw [if_neg e]
      unfold Hart.setLanes
      rw [Hart.done_with_v, Hart.foldl_setElem_frame]

/-- `intOp2` at the current hart. -/
theorem intOp2_done {i : Instr} {s : State} {f : L64} {g : Nat → Nat → Nat → Nat} (h : exec i s = intOp2 f g s) :
    LaneDone i s f (widthOf f) f.d.toNat fun l => g (widthOf f) (s.me.elem (widthOf f) f.a.toNat l) (operandB s.me f (widthOf f) l) :=
  laneDone_of (widthOf_cases f) h rfl

/-- `intOp3` at the current hart. -/
theorem intOp3_done {i : Instr} {s : State} {f : L64} {g : Nat → Nat → Nat → Nat → Nat} (h : exec i s = intOp3 f g s) :
    LaneDone i s f (widthOf f) f.d.toNat fun l =>
      g (widthOf f) (s.me.elem (widthOf f) f.a.toNat l) (operandB s.me f (widthOf f) l) (s.me.elem (widthOf f) f.c.toNat l) :=
  laneDone_of (widthOf_cases f) h rfl

/-- `intOp1` at the current hart. -/
theorem intOp1_done {i : Instr} {s : State} {f : L64} {g : Nat → Nat → Nat} (h : exec i s = intOp1 f g s) :
    LaneDone i s f (widthOf f) f.d.toNat fun l => g (widthOf f) (s.me.elem (widthOf f) f.a.toNat l) :=
  laneDone_of (widthOf_cases f) h rfl

end Sys2Proof
end

