-- ==== Sys2Proof/Laws/LaneFp.lean ====
section
/-!
SUPPORT. What the frame of the floating-point lane forms does: the flags, the event counters, STICKY, and nothing else.
-/
namespace Sys2Proof
open Machine

namespace Machine

theorem State.core_modCore_self (s : State) (c : Nat) (g : Core → Core) : (s.modCore c g).core c = g (s.core c) := SMap.get_set_self ..

theorem State.core_modCore_ne (s : State) {c k : Nat} (g : Core → Core) (h : k ≠ c) : (s.modCore c g).core k = s.core k :=
  SMap.get_set_ne _ _ _ h

/-- `bump` changes one counter of one core. -/
theorem bump_kev (s : State) (c k n j : Nat) :
    ((bump s c k n).core c).kev.get 0 j = if j = k then min ((s.core c).kev.get 0 k + n) (2 ^ 48 - 1) else (s.core c).kev.get 0 j := by
  unfold bump
  rw [State.core_modCore_self]
  simp only [SMap.get_set]

theorem bump_core (s : State) (c k n : Nat) : { (bump s c k n).core c with kev := (s.core c).kev } = s.core c := by
  unfold bump
  rw [State.core_modCore_self]

theorem bump_core_ne (s : State) (c k n : Nat) {d : Nat} (h : d ≠ c) : (bump s c k n).core d = s.core d :=
  State.core_modCore_ne _ _ h

theorem bump_rest (s : State) (c k n : Nat) : { bump s c k n with cores := s.cores } = s := rfl

/-- What `bumpFp` does: counters 0 to 3 of the current core, by the bits of `cnt`. -/
theorem bumpFp_spec (s : State) (cnt : Nat) :
    (∀ k, (bumpFp s cnt).myCore.kev.get 0 k =
      if k < 4 ∧ cnt.testBit k then min (s.myCore.kev.get 0 k + 1) (2 ^ 48 - 1) else s.myCore.kev.get 0 k) ∧
    { (bumpFp s cnt).myCore with kev := s.myCore.kev } = s.myCore ∧
    (∀ c, c ≠ coreOf s.cur → (bumpFp s cnt).core c = s.core c) ∧ { bumpFp s cnt with cores := s.cores } = s := by
  have key : ∀ (n : Nat), n ≤ 4 → ∀ t, t = (List.range n).foldl (fun s k => if cnt / 2 ^ k % 2 = 1 then bump s (coreOf s.cur) k 1 else s) s →
      t.cur = s.cur ∧
      (∀ k, t.myCore.kev.get 0 k = if k < n ∧ cnt.testBit k then min (s.myCore.kev.get 0 k + 1) (2 ^ 48 - 1) else s.myCore.kev.get 0 k) ∧
      { t.myCore with kev := s.myCore.kev } = s.myCore ∧ (∀ c, c ≠ coreOf s.cur → t.core c = s.core c) ∧ { t with cores := s.cores } = s := by
    intro n
    induction n with
    | zero => intro _ t ht; subst ht; simp
    | succ n ih =>
      intro hn t ht
      rw [List.range_succ, List.foldl_append] at ht
      obtain ⟨h0, h1, h2, h3, h4⟩ := ih (by omega) _ rfl
      generalize (List.range n).foldl (fun s k => if cnt / 2 ^ k % 2 = 1 then bump s (coreOf s.cur) k 1 else s) s = u at *
      have hb : cnt.testBit n = decide (cnt / 2 ^ n % 2 = 1) := Nat.testBit_eq_decide_div_mod_eq
      by_cases hc : cnt / 2 ^ n % 2 = 1
      · simp only [List.foldl_cons, List.foldl_nil, hc, if_true] at ht
        subst ht
        have hcur : (bump u (coreOf u.cur) n 1).cur = u.cur := rfl
        refine ⟨h0, ?_, ?_, ?_, ?_⟩
        · intro k
          have e := bump_kev u (coreOf u.cur) n 1 k
          have h1k := h1 k
          have h1n := h1 n
          unfold State.myCore at *
          rw [hcur, e, h1k, h1n]
          by_cases hk : k = n
          · subst hk; simp [hb, hc]
          · have hlt : k < n + 1 ↔ k < n := by omega
            simp [hk, hlt]
        · have e := bump_core u (coreOf u.cur) n 1
          unfold State.myCore at *
          rw [hcur]
          rw [← h2, ← e]
        · intro c hne; rw [bump_core_ne _ _ _ _ (by rw [h0]; exact hne)]; exact h3 c hne
        · rw [← h4]; rfl
      · simp only [List.foldl_cons, List.foldl_nil, hc, if_false] at ht
        subst ht
        refine ⟨h0, ?_, h2, h3, h4⟩
        intro k; rw [h1 k]
        by_cases hk : k = n
        · subst hk; simp [hb, hc]
        · have hlt : k < n + 1 ↔ k < n := by omega
          simp [hlt]
  obtain ⟨_, h1, h2, h3, h4⟩ := key 4 (Nat.le_refl 4) _ rfl
  refine ⟨fun k => ?_, ?_, h3, h4⟩
  · exact h1 k
  · exact h2

/-- The end of a floating-point lane form with hart `h'`, flags and counters. -/
theorem fpDone_of {i : Instr} {s : State} {h' : Hart} {fl cnt : Nat}
    (h : exec i s = .next (retire (setFlags (bumpFp (s.setHart s.cur h') cnt) fl))) : FpDone i s h' fl cnt := by
  obtain ⟨h1, h2, h3, h4⟩ := bumpFp_spec (s.setHart s.cur h') cnt
  refine ⟨_, h, ?_⟩
  generalize hb : bumpFp (s.setHart s.cur h') cnt = b at *
  have hcur : b.cur = s.cur := by have := congrArg State.cur h4; exact this
  have hharts : b.harts = (s.setHart s.cur h').harts := by have := congrArg State.harts h4; exact this
  have hme : b.me = h' := by
    unfold State.me State.hart; rw [hcur, hharts]; exact SMap.get_set_self ..
  have hmem : b.mem = s.mem := by have := congrArg State.mem h4; exact this
  have hcl : b.clusters = s.clusters := by have := congrArg State.clusters h4; exact this
  have hcores : (retire (setFlags b fl)).cores = b.cores := rfl
  have hcur' : (retire (setFlags b fl)).cur = s.cur := hcur
  have hh : (retire (setFlags b fl)).harts = s.harts.set {} s.cur (h'.orFlags fl).done := by
    unfold retire setFlags State.stick State.modMe State.modHart
    simp only [State.hart, State.setHart, State.modCluster_harts, State.modCluster_cur, hcur, hharts, SMap.get_set_self, SMap.set_set]
  have hc : (retire (setFlags b fl)).clusters = s.clusters.set {} s.myCluster
      { s.cluster s.myCluster with sticky := (s.cluster s.myCluster).sticky ||| BitVec.ofNat 5 fl } := by
    unfold retire setFlags State.stick State.modMe State.modHart State.modCluster State.myCluster State.cluster State.setHart
    simp only [hcur, hcl]
  refine ⟨fun a => ?_, ?_, fun h hn => ?_, ?_, ?_, fun c hne => ?_, ?_, fun k hk => ?_, ?_⟩
  · unfold rawByte; rw [show (retire (setFlags b fl)).mem = b.mem from rfl, hmem]
  · unfold State.me State.hart; rw [hcur', hh]; exact SMap.get_set_self ..
  · unfold State.hart; rw [hh]; exact SMap.get_set_ne _ _ _ hn
  · intro k; have := h1 k; unfold State.myCore State.core at *; rw [hcores, hcur']; rw [hcur] at this; exact this
  · unfold State.myCore State.core at *; rw [hcores, hcur']; rw [hcur] at h2; exact h2
  · have := h3 c hne; unfold State.core at *; rw [hcores]; exact this
  · unfold State.cluster; rw [hc]; exact SMap.get_set_self ..
  · unfold State.cluster; rw [hc]; exact SMap.get_set_ne _ _ _ hk
  · calc ({ retire (setFlags b fl) with harts := s.harts, cores := s.cores, clusters := s.clusters } : State)
        = { ({ b with cores := (s.setHart s.cur h').cores } : State) with harts := s.harts, cores := s.cores, clusters := s.clusters } := rfl
      _ = { s.setHart s.cur h' with harts := s.harts, cores := s.cores, clusters := s.clusters } := by rw [h4]
      _ = s := rfl

end Machine
end Sys2Proof
end

