-- ==== Sys2Proof/Laws/PerInstr.lean ====
section
/-!
SUPPORT. Statements made per instruction: the row as which an instruction is spelt is itself spelt so (log 8).
-/
namespace Sys2Proof

/-- Spelling is settled: the row as which the decoder reads an instruction is read as itself. -/
def Laws.Spelling.Statement (i : Instr) : Prop := i.spelt.spelt = i.spelt

/-- The row of a CSR's number is read as itself. -/
theorem csrRow_spelt (num : BitVec 12) (o : CsrOp) : (csrRow num o).spelt = csrRow num o := by
  unfold csrRow
  split <;> first | rfl | skip
  split
  · next h => simp only [Instr.spelt, csrRow]; split <;> simp_all
  · next h => simp only [Instr.spelt, csrRow]; split <;> simp_all

theorem Laws.Spelling.ladd (f : L64) : Laws.Spelling.Statement (.ladd f) := rfl
theorem Laws.Spelling.lsub (f : L64) : Laws.Spelling.Statement (.lsub f) := rfl
theorem Laws.Spelling.ladds (f : L64) : Laws.Spelling.Statement (.ladds f) := rfl
theorem Laws.Spelling.lsubs (f : L64) : Laws.Spelling.Statement (.lsubs f) := rfl
theorem Laws.Spelling.lmul (f : L64) : Laws.Spelling.Statement (.lmul f) := rfl
theorem Laws.Spelling.lmulh (f : L64) : Laws.Spelling.Statement (.lmulh f) := rfl
theorem Laws.Spelling.lmulhu (f : L64) : Laws.Spelling.Statement (.lmulhu f) := rfl
theorem Laws.Spelling.lmadd (f : L64) : Laws.Spelling.Statement (.lmadd f) := rfl
theorem Laws.Spelling.ldiv (f : L64) : Laws.Spelling.Statement (.ldiv f) := rfl
theorem Laws.Spelling.ldivu (f : L64) : Laws.Spelling.Statement (.ldivu f) := rfl
theorem Laws.Spelling.lrem (f : L64) : Laws.Spelling.Statement (.lrem f) := rfl
theorem Laws.Spelling.lremu (f : L64) : Laws.Spelling.Statement (.lremu f) := rfl
theorem Laws.Spelling.land (f : L64) : Laws.Spelling.Statement (.land f) := rfl
theorem Laws.Spelling.lor (f : L64) : Laws.Spelling.Statement (.lor f) := rfl
theorem Laws.Spelling.lxor (f : L64) : Laws.Spelling.Statement (.lxor f) := rfl
theorem Laws.Spelling.landn (f : L64) : Laws.Spelling.Statement (.landn f) := rfl
theorem Laws.Spelling.lsll (f : L64) : Laws.Spelling.Statement (.lsll f) := rfl
theorem Laws.Spelling.lsrl (f : L64) : Laws.Spelling.Statement (.lsrl f) := rfl
theorem Laws.Spelling.lsra (f : L64) : Laws.Spelling.Statement (.lsra f) := rfl
theorem Laws.Spelling.lmin (f : L64) : Laws.Spelling.Statement (.lmin f) := rfl
theorem Laws.Spelling.lmax (f : L64) : Laws.Spelling.Statement (.lmax f) := rfl
theorem Laws.Spelling.lminu (f : L64) : Laws.Spelling.Statement (.lminu f) := rfl
theorem Laws.Spelling.lmaxu (f : L64) : Laws.Spelling.Statement (.lmaxu f) := rfl
theorem Laws.Spelling.labs (f : L64) : Laws.Spelling.Statement (.labs f) := rfl
theorem Laws.Spelling.lclz (f : L64) : Laws.Spelling.Statement (.lclz f) := rfl
theorem Laws.Spelling.lcpop (f : L64) : Laws.Spelling.Statement (.lcpop f) := rfl
theorem Laws.Spelling.lbrev (f : L64) : Laws.Spelling.Statement (.lbrev f) := rfl
theorem Laws.Spelling.lbfx (f : L64) : Laws.Spelling.Statement (.lbfx f) := rfl
theorem Laws.Spelling.lbfi (f : L64) : Laws.Spelling.Statement (.lbfi f) := rfl
theorem Laws.Spelling.lsel (f : L64) : Laws.Spelling.Statement (.lsel f) := rfl
theorem Laws.Spelling.lmov (f : L64) : Laws.Spelling.Statement (.lmov f) := rfl
theorem Laws.Spelling.lli (f : L64) : Laws.Spelling.Statement (.lli f) := rfl
theorem Laws.Spelling.lbcast (f : L64) : Laws.Spelling.Statement (.lbcast f) := rfl
theorem Laws.Spelling.lext (f : L64) : Laws.Spelling.Statement (.lext f) := rfl
theorem Laws.Spelling.lidx (f : L64) : Laws.Spelling.Statement (.lidx f) := rfl
theorem Laws.Spelling.lfadd (f : L64) : Laws.Spelling.Statement (.lfadd f) := rfl
theorem Laws.Spelling.lfsub (f : L64) : Laws.Spelling.Statement (.lfsub f) := rfl
theorem Laws.Spelling.lfmul (f : L64) : Laws.Spelling.Statement (.lfmul f) := rfl
theorem Laws.Spelling.lffma (f : L64) : Laws.Spelling.Statement (.lffma f) := rfl
theorem Laws.Spelling.lffms (f : L64) : Laws.Spelling.Statement (.lffms f) := rfl
theorem Laws.Spelling.lfnma (f : L64) : Laws.Spelling.Statement (.lfnma f) := rfl
theorem Laws.Spelling.lfmin (f : L64) : Laws.Spelling.Statement (.lfmin f) := rfl
theorem Laws.Spelling.lfmax (f : L64) : Laws.Spelling.Statement (.lfmax f) := rfl
theorem Laws.Spelling.lfdiv (f : L64) : Laws.Spelling.Statement (.lfdiv f) := rfl
theorem Laws.Spelling.lfsqrt (f : L64) : Laws.Spelling.Statement (.lfsqrt f) := rfl
theorem Laws.Spelling.lfrcp (f : L64) : Laws.Spelling.Statement (.lfrcp f) := rfl
theorem Laws.Spelling.lfrsq (f : L64) : Laws.Spelling.Statement (.lfrsq f) := rfl
theorem Laws.Spelling.lfex2 (f : L64) : Laws.Spelling.Statement (.lfex2 f) := rfl
theorem Laws.Spelling.lflg2 (f : L64) : Laws.Spelling.Statement (.lflg2 f) := rfl
theorem Laws.Spelling.lfsin (f : L64) : Laws.Spelling.Statement (.lfsin f) := rfl
theorem Laws.Spelling.lfcos (f : L64) : Laws.Spelling.Statement (.lfcos f) := rfl
theorem Laws.Spelling.lfabs (f : L64) : Laws.Spelling.Statement (.lfabs f) := rfl
theorem Laws.Spelling.lfneg (f : L64) : Laws.Spelling.Statement (.lfneg f) := rfl
theorem Laws.Spelling.lfsgnj (f : L64) : Laws.Spelling.Statement (.lfsgnj f) := rfl
theorem Laws.Spelling.lfcvt (f : L64) : Laws.Spelling.Statement (.lfcvt f) := rfl
theorem Laws.Spelling.lfclass (f : L64) : Laws.Spelling.Statement (.lfclass f) := rfl
theorem Laws.Spelling.lfround (f : L64) : Laws.Spelling.Statement (.lfround f) := rfl
theorem Laws.Spelling.lldB (f : L64) : Laws.Spelling.Statement (.lldB f) := rfl
theorem Laws.Spelling.lldBu (f : L64) : Laws.Spelling.Statement (.lldBu f) := rfl
theorem Laws.Spelling.lldH (f : L64) : Laws.Spelling.Statement (.lldH f) := rfl
theorem Laws.Spelling.lldHu (f : L64) : Laws.Spelling.Statement (.lldHu f) := rfl
theorem Laws.Spelling.lldW (f : L64) : Laws.Spelling.Statement (.lldW f) := rfl
theorem Laws.Spelling.lldD (f : L64) : Laws.Spelling.Statement (.lldD f) := rfl
theorem Laws.Spelling.lldQ (f : L64) : Laws.Spelling.Statement (.lldQ f) := rfl
theorem Laws.Spelling.lstB (f : L64) : Laws.Spelling.Statement (.lstB f) := rfl
theorem Laws.Spelling.lstH (f : L64) : Laws.Spelling.Statement (.lstH f) := rfl
theorem Laws.Spelling.lstW (f : L64) : Laws.Spelling.Statement (.lstW f) := rfl
theorem Laws.Spelling.lstD (f : L64) : Laws.Spelling.Statement (.lstD f) := rfl
theorem Laws.Spelling.lstQ (f : L64) : Laws.Spelling.Statement (.lstQ f) := rfl
theorem Laws.Spelling.lprf (f : L64) : Laws.Spelling.Statement (.lprf f) := rfl
theorem Laws.Spelling.lzero (f : L64) : Laws.Spelling.Statement (.lzero f) := rfl
theorem Laws.Spelling.lamoAddW (f : L64) : Laws.Spelling.Statement (.lamoAddW f) := rfl
theorem Laws.Spelling.lamoAddD (f : L64) : Laws.Spelling.Statement (.lamoAddD f) := rfl
theorem Laws.Spelling.lamoAndW (f : L64) : Laws.Spelling.Statement (.lamoAndW f) := rfl
theorem Laws.Spelling.lamoAndD (f : L64) : Laws.Spelling.Statement (.lamoAndD f) := rfl
theorem Laws.Spelling.lamoOrW (f : L64) : Laws.Spelling.Statement (.lamoOrW f) := rfl
theorem Laws.Spelling.lamoOrD (f : L64) : Laws.Spelling.Statement (.lamoOrD f) := rfl
theorem Laws.Spelling.lamoXorW (f : L64) : Laws.Spelling.Statement (.lamoXorW f) := rfl
theorem Laws.Spelling.lamoXorD (f : L64) : Laws.Spelling.Statement (.lamoXorD f) := rfl
theorem Laws.Spelling.lamoMinW (f : L64) : Laws.Spelling.Statement (.lamoMinW f) := rfl
theorem Laws.Spelling.lamoMinD (f : L64) : Laws.Spelling.Statement (.lamoMinD f) := rfl
theorem Laws.Spelling.lamoMaxW (f : L64) : Laws.Spelling.Statement (.lamoMaxW f) := rfl
theorem Laws.Spelling.lamoMaxD (f : L64) : Laws.Spelling.Statement (.lamoMaxD f) := rfl
theorem Laws.Spelling.lamoMinuW (f : L64) : Laws.Spelling.Statement (.lamoMinuW f) := rfl
theorem Laws.Spelling.lamoMinuD (f : L64) : Laws.Spelling.Statement (.lamoMinuD f) := rfl
theorem Laws.Spelling.lamoMaxuW (f : L64) : Laws.Spelling.Statement (.lamoMaxuW f) := rfl
theorem Laws.Spelling.lamoMaxuD (f : L64) : Laws.Spelling.Statement (.lamoMaxuD f) := rfl
theorem Laws.Spelling.lamoSwapW (f : L64) : Laws.Spelling.Statement (.lamoSwapW f) := rfl
theorem Laws.Spelling.lamoSwapD (f : L64) : Laws.Spelling.Statement (.lamoSwapD f) := rfl
theorem Laws.Spelling.lcasW (f : L64) : Laws.Spelling.Statement (.lcasW f) := rfl
theorem Laws.Spelling.lcasD (f : L64) : Laws.Spelling.Statement (.lcasD f) := rfl
theorem Laws.Spelling.lfamoAddS (f : L64) : Laws.Spelling.Statement (.lfamoAddS f) := rfl
theorem Laws.Spelling.lfamoMinS (f : L64) : Laws.Spelling.Statement (.lfamoMinS f) := rfl
theorem Laws.Spelling.lfamoMaxS (f : L64) : Laws.Spelling.Statement (.lfamoMaxS f) := rfl
theorem Laws.Spelling.lcmpEq (f : L64) : Laws.Spelling.Statement (.lcmpEq f) := rfl
theorem Laws.Spelling.lcmpNe (f : L64) : Laws.Spelling.Statement (.lcmpNe f) := rfl
theorem Laws.Spelling.lcmpLt (f : L64) : Laws.Spelling.Statement (.lcmpLt f) := rfl
theorem Laws.Spelling.lcmpGe (f : L64) : Laws.Spelling.Statement (.lcmpGe f) := rfl
theorem Laws.Spelling.lcmpLtu (f : L64) : Laws.Spelling.Statement (.lcmpLtu f) := rfl
theorem Laws.Spelling.lcmpGeu (f : L64) : Laws.Spelling.Statement (.lcmpGeu f) := rfl
theorem Laws.Spelling.lfcmpEq (f : L64) : Laws.Spelling.Statement (.lfcmpEq f) := rfl
theorem Laws.Spelling.lfcmpLt (f : L64) : Laws.Spelling.Statement (.lfcmpLt f) := rfl
theorem Laws.Spelling.lfcmpLe (f : L64) : Laws.Spelling.Statement (.lfcmpLe f) := rfl
theorem Laws.Spelling.lfcmpUn (f : L64) : Laws.Spelling.Statement (.lfcmpUn f) := rfl
theorem Laws.Spelling.lshflIdx (f : L64) : Laws.Spelling.Statement (.lshflIdx f) := rfl
theorem Laws.Spelling.lshflUp (f : L64) : Laws.Spelling.Statement (.lshflUp f) := rfl
theorem Laws.Spelling.lshflDn (f : L64) : Laws.Spelling.Statement (.lshflDn f) := rfl
theorem Laws.Spelling.lshflXor (f : L64) : Laws.Spelling.Statement (.lshflXor f) := rfl
theorem Laws.Spelling.lredAdd (f : L64) : Laws.Spelling.Statement (.lredAdd f) := rfl
theorem Laws.Spelling.lredMin (f : L64) : Laws.Spelling.Statement (.lredMin f) := rfl
theorem Laws.Spelling.lredMax (f : L64) : Laws.Spelling.Statement (.lredMax f) := rfl
theorem Laws.Spelling.lredAnd (f : L64) : Laws.Spelling.Statement (.lredAnd f) := rfl
theorem Laws.Spelling.lredOr (f : L64) : Laws.Spelling.Statement (.lredOr f) := rfl
theorem Laws.Spelling.lredXor (f : L64) : Laws.Spelling.Statement (.lredXor f) := rfl
theorem Laws.Spelling.lredFadd (f : L64) : Laws.Spelling.Statement (.lredFadd f) := rfl
theorem Laws.Spelling.lredFmin (f : L64) : Laws.Spelling.Statement (.lredFmin f) := rfl
theorem Laws.Spelling.lredFmax (f : L64) : Laws.Spelling.Statement (.lredFmax f) := rfl
theorem Laws.Spelling.lscanAdd (f : L64) : Laws.Spelling.Statement (.lscanAdd f) := rfl
theorem Laws.Spelling.lscanFadd (f : L64) : Laws.Spelling.Statement (.lscanFadd f) := rfl
theorem Laws.Spelling.lcomp (f : L64) : Laws.Spelling.Statement (.lcomp f) := rfl
theorem Laws.Spelling.tallocImm (f : L64) : Laws.Spelling.Statement (.tallocImm f) := rfl
theorem Laws.Spelling.tallocReg (f : L64) : Laws.Spelling.Statement (.tallocReg f) := rfl
theorem Laws.Spelling.tallocNbImm (f : L64) : Laws.Spelling.Statement (.tallocNbImm f) := rfl
theorem Laws.Spelling.tallocNbReg (f : L64) : Laws.Spelling.Statement (.tallocNbReg f) := rfl
theorem Laws.Spelling.thdr (f : L64) : Laws.Spelling.Statement (.thdr f) := rfl
theorem Laws.Spelling.thdrM (f : L64) : Laws.Spelling.Statement (.thdrM f) := rfl
theorem Laws.Spelling.tst (f : L64) : Laws.Spelling.Statement (.tst f) := rfl
theorem Laws.Spelling.tseal (f : L64) : Laws.Spelling.Statement (.tseal f) := rfl
theorem Laws.Spelling.tdrop (f : L64) : Laws.Spelling.Statement (.tdrop f) := rfl
theorem Laws.Spelling.tld (f : L64) : Laws.Spelling.Statement (.tld f) := rfl
theorem Laws.Spelling.tldM (f : L64) : Laws.Spelling.Statement (.tldM f) := rfl
theorem Laws.Spelling.tpeek (f : L64) : Laws.Spelling.Statement (.tpeek f) := rfl
theorem Laws.Spelling.tskip (f : L64) : Laws.Spelling.Statement (.tskip f) := rfl
theorem Laws.Spelling.tgive (f : L64) : Laws.Spelling.Statement (.tgive f) := rfl
theorem Laws.Spelling.tcnt (f : L64) : Laws.Spelling.Statement (.tcnt f) := rfl
theorem Laws.Spelling.tinfo (f : L64) : Laws.Spelling.Statement (.tinfo f) := rfl
theorem Laws.Spelling.tinfoT (f : L64) : Laws.Spelling.Statement (.tinfoT f) := rfl
theorem Laws.Spelling.tldl (f : L64) : Laws.Spelling.Statement (.tldl f) := rfl
theorem Laws.Spelling.tmma (f : L64) : Laws.Spelling.Statement (.tmma f) := rfl
theorem Laws.Spelling.tzero (f : L64) : Laws.Spelling.Statement (.tzero f) := rfl
theorem Laws.Spelling.tzeroM (f : L64) : Laws.Spelling.Statement (.tzeroM f) := rfl
theorem Laws.Spelling.taccLd (f : L64) : Laws.Spelling.Statement (.taccLd f) := rfl
theorem Laws.Spelling.taccLdM (f : L64) : Laws.Spelling.Statement (.taccLdM f) := rfl
theorem Laws.Spelling.taccSt (f : L64) : Laws.Spelling.Statement (.taccSt f) := rfl
theorem Laws.Spelling.taccStM (f : L64) : Laws.Spelling.Statement (.taccStM f) := rfl
theorem Laws.Spelling.tcvt (f : L64) : Laws.Spelling.Statement (.tcvt f) := rfl
theorem Laws.Spelling.tcvtM (f : L64) : Laws.Spelling.Statement (.tcvtM f) := rfl
theorem Laws.Spelling.taccLrd (f : L64) : Laws.Spelling.Statement (.taccLrd f) := rfl
theorem Laws.Spelling.taccLwr (f : L64) : Laws.Spelling.Statement (.taccLwr f) := rfl
theorem Laws.Spelling.tquizNone (f : L64) : Laws.Spelling.Statement (.tquizNone f) := rfl
theorem Laws.Spelling.tquizRun (f : L64) : Laws.Spelling.Statement (.tquizRun f) := rfl
theorem Laws.Spelling.tquizClear (f : L64) : Laws.Spelling.Statement (.tquizClear f) := rfl
theorem Laws.Spelling.mand (d a b : BitVec 5) : Laws.Spelling.Statement (.mand d a b) := rfl
theorem Laws.Spelling.mor (d a b : BitVec 5) : Laws.Spelling.Statement (.mor d a b) := rfl
theorem Laws.Spelling.mxor (d a b : BitVec 5) : Laws.Spelling.Statement (.mxor d a b) := rfl
theorem Laws.Spelling.mandn (d a b : BitVec 5) : Laws.Spelling.Statement (.mandn d a b) := rfl
theorem Laws.Spelling.mnot (d a : BitVec 5) : Laws.Spelling.Statement (.mnot d a) := rfl
theorem Laws.Spelling.mmov (d a : BitVec 5) : Laws.Spelling.Statement (.mmov d a) := rfl
theorem Laws.Spelling.mset (d a : BitVec 5) : Laws.Spelling.Statement (.mset d a) := rfl
theorem Laws.Spelling.mget (d a : BitVec 5) : Laws.Spelling.Statement (.mget d a) := rfl
theorem Laws.Spelling.mcnt (d a : BitVec 5) : Laws.Spelling.Statement (.mcnt d a) := rfl
theorem Laws.Spelling.mffs (d a : BitVec 5) : Laws.Spelling.Statement (.mffs d a) := rfl
theorem Laws.Spelling.mpush (a : BitVec 5) : Laws.Spelling.Statement (.mpush a) := rfl
theorem Laws.Spelling.minv : Laws.Spelling.Statement (.minv) := rfl
theorem Laws.Spelling.mpop : Laws.Spelling.Statement (.mpop) := rfl
theorem Laws.Spelling.mbz (k : BitVec 3) (off : BitVec 12) : Laws.Spelling.Statement (.mbz k off) := rfl
theorem Laws.Spelling.mbnz (k : BitVec 3) (off : BitVec 12) : Laws.Spelling.Statement (.mbnz k off) := rfl
theorem Laws.Spelling.bbrd (d a : BitVec 5) : Laws.Spelling.Statement (.bbrd d a) := rfl
theorem Laws.Spelling.bbwr (d a : BitVec 5) : Laws.Spelling.Statement (.bbwr d a) := rfl
theorem Laws.Spelling.imv (d a : BitVec 5) : Laws.Spelling.Statement (.imv d a) := rfl
theorem Laws.Spelling.iwr (d a b : BitVec 5) : Laws.Spelling.Statement (.iwr d a b) := rfl
theorem Laws.Spelling.hdone : Laws.Spelling.Statement (.hdone) := rfl
theorem Laws.Spelling.kyield : Laws.Spelling.Statement (.kyield) := rfl
theorem Laws.Spelling.waitf (mask : BitVec 12) : Laws.Spelling.Statement (.waitf mask) := rfl
theorem Laws.Spelling.barCfg (id : BitVec 7) (a : BitVec 5) : Laws.Spelling.Statement (.barCfg id a) := rfl
theorem Laws.Spelling.barArr (id : BitVec 7) : Laws.Spelling.Statement (.barArr id) := rfl
theorem Laws.Spelling.barWait (id : BitVec 7) : Laws.Spelling.Statement (.barWait id) := rfl
theorem Laws.Spelling.barSync (id : BitVec 7) : Laws.Spelling.Statement (.barSync id) := rfl
theorem Laws.Spelling.barTx (id : BitVec 7) (a : BitVec 5) : Laws.Spelling.Statement (.barTx id a) := rfl
theorem Laws.Spelling.barTest (d : BitVec 5) (id : BitVec 7) (a : BitVec 5) : Laws.Spelling.Statement (.barTest d id a) := rfl
theorem Laws.Spelling.kfence (sets : BitVec 4) (scope : BitVec 3) : Laws.Spelling.Statement (.kfence sets scope) := rfl
theorem Laws.Spelling.rollc (id : BitVec 7) (a : BitVec 5) : Laws.Spelling.Statement (.rollc id a) := rfl
theorem Laws.Spelling.kscrub : Laws.Spelling.Statement (.kscrub) := rfl
theorem Laws.Spelling.kctxSv (a : BitVec 5) : Laws.Spelling.Statement (.kctxSv a) := rfl
theorem Laws.Spelling.kctxLd (a : BitVec 5) : Laws.Spelling.Statement (.kctxLd a) := rfl
theorem Laws.Spelling.msend (a : BitVec 5) : Laws.Spelling.Statement (.msend a) := rfl
theorem Laws.Spelling.msendL (a b : BitVec 5) : Laws.Spelling.Statement (.msendL a b) := rfl
theorem Laws.Spelling.mnext : Laws.Spelling.Statement (.mnext) := rfl
theorem Laws.Spelling.qpush (a b : BitVec 5) : Laws.Spelling.Statement (.qpush a b) := rfl
theorem Laws.Spelling.qpop (d a : BitVec 5) : Laws.Spelling.Statement (.qpop d a) := rfl
theorem Laws.Spelling.hpassArm (d a : BitVec 5) : Laws.Spelling.Statement (.hpassArm d a) := rfl
theorem Laws.Spelling.hpassStart (d a : BitVec 5) : Laws.Spelling.Statement (.hpassStart d a) := rfl
theorem Laws.Spelling.hpassStatus (d a : BitVec 5) : Laws.Spelling.Statement (.hpassStatus d a) := rfl
theorem Laws.Spelling.hpassWait (d a : BitVec 5) : Laws.Spelling.Statement (.hpassWait d a) := rfl
theorem Laws.Spelling.hpassDisarm (d a : BitVec 5) : Laws.Spelling.Statement (.hpassDisarm d a) := rfl
theorem Laws.Spelling.cprd (a : BitVec 5) : Laws.Spelling.Statement (.cprd a) := rfl
theorem Laws.Spelling.cpq (a : BitVec 5) : Laws.Spelling.Statement (.cpq a) := rfl
theorem Laws.Spelling.cpqNb (d a : BitVec 5) : Laws.Spelling.Statement (.cpqNb d a) := rfl
theorem Laws.Spelling.cpwm (d a b : BitVec 5) : Laws.Spelling.Statement (.cpwm d a b) := rfl
theorem Laws.Spelling.cpcls (d : BitVec 5) : Laws.Spelling.Statement (.cpcls d) := rfl
theorem Laws.Spelling.launch (d a : BitVec 5) : Laws.Spelling.Statement (.launch d a) := rfl
theorem Laws.Spelling.clause (flagB flagA : BitVec 4) (wait : BitVec 12) (len : BitVec 5) : Laws.Spelling.Statement (.clause flagB flagA wait len) := rfl
theorem Laws.Spelling.sfenceVma (a b : BitVec 5) : Laws.Spelling.Statement (.sfenceVma a b) := rfl
theorem Laws.Spelling.fenceI : Laws.Spelling.Statement (.fenceI) := rfl
theorem Laws.Spelling.fence (fm pred succ : BitVec 4) (a d : BitVec 5) : Laws.Spelling.Statement (.fence fm pred succ a d) := by
  unfold Laws.Spelling.Statement
  by_cases h : fm = 0 ∧ pred = 1 ∧ succ = 0 ∧ a = 0 ∧ d = 0
  · have e : (Instr.fence fm pred succ a d).spelt = .pause := if_pos h
    rw [e]
    rfl
  · have e : (Instr.fence fm pred succ a d).spelt = .fence fm pred succ a d := if_neg h
    rw [e, e]
theorem Laws.Spelling.pause : Laws.Spelling.Statement (.pause) := rfl
theorem Laws.Spelling.wfi : Laws.Spelling.Statement (.wfi) := rfl
theorem Laws.Spelling.sret : Laws.Spelling.Statement (.sret) := rfl
theorem Laws.Spelling.mret : Laws.Spelling.Statement (.mret) := rfl
theorem Laws.Spelling.trapEntry : Laws.Spelling.Statement (.trapEntry) := rfl
theorem Laws.Spelling.wfiTimeout : Laws.Spelling.Statement (.wfiTimeout) := rfl
theorem Laws.Spelling.slotSwitchLimit : Laws.Spelling.Statement (.slotSwitchLimit) := rfl
theorem Laws.Spelling.pageWalk : Laws.Spelling.Statement (.pageWalk) := rfl
theorem Laws.Spelling.faultBufferDelivery : Laws.Spelling.Statement (.faultBufferDelivery) := rfl
theorem Laws.Spelling.heldReportPost : Laws.Spelling.Statement (.heldReportPost) := rfl
theorem Laws.Spelling.faultReplyRetry : Laws.Spelling.Statement (.faultReplyRetry) := rfl
theorem Laws.Spelling.faultReplyFatal : Laws.Spelling.Statement (.faultReplyFatal) := rfl
theorem Laws.Spelling.notice : Laws.Spelling.Statement (.notice) := rfl
theorem Laws.Spelling.invalidationComplete : Laws.Spelling.Statement (.invalidationComplete) := rfl
theorem Laws.Spelling.lineFill : Laws.Spelling.Statement (.lineFill) := rfl
theorem Laws.Spelling.correctedError : Laws.Spelling.Statement (.correctedError) := rfl
theorem Laws.Spelling.uncorrectableError : Laws.Spelling.Statement (.uncorrectableError) := rfl
theorem Laws.Spelling.slabDrainComplete : Laws.Spelling.Statement (.slabDrainComplete) := rfl
theorem Laws.Spelling.slabClearComplete : Laws.Spelling.Statement (.slabClearComplete) := rfl
theorem Laws.Spelling.biasFlipComplete : Laws.Spelling.Statement (.biasFlipComplete) := rfl
theorem Laws.Spelling.flushComplete : Laws.Spelling.Statement (.flushComplete) := rfl
theorem Laws.Spelling.tallocGrant : Laws.Spelling.Statement (.tallocGrant) := rfl
theorem Laws.Spelling.tileReservationCommit : Laws.Spelling.Statement (.tileReservationCommit) := rfl
theorem Laws.Spelling.tileReservationRelease : Laws.Spelling.Statement (.tileReservationRelease) := rfl
theorem Laws.Spelling.starvationDetectorFire : Laws.Spelling.Statement (.starvationDetectorFire) := rfl
theorem Laws.Spelling.tmmaComplete : Laws.Spelling.Statement (.tmmaComplete) := rfl
theorem Laws.Spelling.popQuiz : Laws.Spelling.Statement (.popQuiz) := rfl
theorem Laws.Spelling.messageArrival : Laws.Spelling.Statement (.messageArrival) := rfl
theorem Laws.Spelling.channelRefill : Laws.Spelling.Statement (.channelRefill) := rfl
theorem Laws.Spelling.heldMessageReoffer : Laws.Spelling.Statement (.heldMessageReoffer) := rfl
theorem Laws.Spelling.firingStart : Laws.Spelling.Statement (.firingStart) := rfl
theorem Laws.Spelling.eprioAging : Laws.Spelling.Statement (.eprioAging) := rfl
theorem Laws.Spelling.iwrHeldWriteEntry : Laws.Spelling.Statement (.iwrHeldWriteEntry) := rfl
theorem Laws.Spelling.copyRequestStart : Laws.Spelling.Statement (.copyRequestStart) := rfl
theorem Laws.Spelling.copyTileAllocation : Laws.Spelling.Statement (.copyTileAllocation) := rfl
theorem Laws.Spelling.copyPieceCopy : Laws.Spelling.Statement (.copyPieceCopy) := rfl
theorem Laws.Spelling.copyPieceFill : Laws.Spelling.Statement (.copyPieceFill) := rfl
theorem Laws.Spelling.copyPieceZero : Laws.Spelling.Statement (.copyPieceZero) := rfl
theorem Laws.Spelling.copyPieceGather : Laws.Spelling.Statement (.copyPieceGather) := rfl
theorem Laws.Spelling.copyPieceReduce : Laws.Spelling.Statement (.copyPieceReduce) := rfl
theorem Laws.Spelling.reduceContributionArrival : Laws.Spelling.Statement (.reduceContributionArrival) := rfl
theorem Laws.Spelling.combiningEntryTimeout : Laws.Spelling.Statement (.combiningEntryTimeout) := rfl
theorem Laws.Spelling.cprdPerform : Laws.Spelling.Statement (.cprdPerform) := rfl
theorem Laws.Spelling.copyCompletion : Laws.Spelling.Statement (.copyCompletion) := rfl
theorem Laws.Spelling.barrierSweep : Laws.Spelling.Statement (.barrierSweep) := rfl
theorem Laws.Spelling.barrierRelease : Laws.Spelling.Statement (.barrierRelease) := rfl
theorem Laws.Spelling.stageBarrierDelivery : Laws.Spelling.Statement (.stageBarrierDelivery) := rfl
theorem Laws.Spelling.barTestTimeout : Laws.Spelling.Statement (.barTestTimeout) := rfl
theorem Laws.Spelling.hpassArmAck : Laws.Spelling.Statement (.hpassArmAck) := rfl
theorem Laws.Spelling.hpassTokenHop : Laws.Spelling.Statement (.hpassTokenHop) := rfl
theorem Laws.Spelling.launchSelection : Laws.Spelling.Statement (.launchSelection) := rfl
theorem Laws.Spelling.cohortBinding : Laws.Spelling.Statement (.cohortBinding) := rfl
theorem Laws.Spelling.preemptionRequest : Laws.Spelling.Statement (.preemptionRequest) := rfl
theorem Laws.Spelling.launchCompletion : Laws.Spelling.Statement (.launchCompletion) := rfl
theorem Laws.Spelling.mladotteCreate : Laws.Spelling.Statement (.mladotteCreate) := rfl
theorem Laws.Spelling.mladotteAddPage : Laws.Spelling.Statement (.mladotteAddPage) := rfl
theorem Laws.Spelling.mladotteExtend : Laws.Spelling.Statement (.mladotteExtend) := rfl
theorem Laws.Spelling.mladotteFinalize : Laws.Spelling.Statement (.mladotteFinalize) := rfl
theorem Laws.Spelling.mladotteEnter : Laws.Spelling.Statement (.mladotteEnter) := rfl
theorem Laws.Spelling.mladotteExit : Laws.Spelling.Statement (.mladotteExit) := rfl
theorem Laws.Spelling.mladotteDestroy : Laws.Spelling.Statement (.mladotteDestroy) := rfl
theorem Laws.Spelling.mladotteUnwrap : Laws.Spelling.Statement (.mladotteUnwrap) := rfl
theorem Laws.Spelling.mladotteReport : Laws.Spelling.Statement (.mladotteReport) := rfl
theorem Laws.Spelling.spdmRequest : Laws.Spelling.Statement (.spdmRequest) := rfl
theorem Laws.Spelling.egressTransaction : Laws.Spelling.Statement (.egressTransaction) := rfl
theorem Laws.Spelling.bucketRefill : Laws.Spelling.Statement (.bucketRefill) := rfl
theorem Laws.Spelling.signedHead : Laws.Spelling.Statement (.signedHead) := rfl
theorem Laws.Spelling.functionLevelReset : Laws.Spelling.Statement (.functionLevelReset) := rfl
theorem Laws.Spelling.tdispLeaveRun : Laws.Spelling.Statement (.tdispLeaveRun) := rfl
theorem Laws.Spelling.coldReset : Laws.Spelling.Statement (.coldReset) := rfl
theorem Laws.Spelling.stage0Complete : Laws.Spelling.Statement (.stage0Complete) := rfl
theorem Laws.Spelling.stage1Complete : Laws.Spelling.Statement (.stage1Complete) := rfl
theorem Laws.Spelling.stage2Complete : Laws.Spelling.Statement (.stage2Complete) := rfl
theorem Laws.Spelling.operatingPointUpdate : Laws.Spelling.Statement (.operatingPointUpdate) := rfl
theorem Laws.Spelling.droopDetectorFire : Laws.Spelling.Statement (.droopDetectorFire) := rfl
theorem Laws.Spelling.droopStretchEnd : Laws.Spelling.Statement (.droopStretchEnd) := rfl
theorem Laws.Spelling.thermalTrip : Laws.Spelling.Statement (.thermalTrip) := rfl
theorem Laws.Spelling.linkTraining : Laws.Spelling.Statement (.linkTraining) := rfl
theorem Laws.Spelling.linkFailure : Laws.Spelling.Statement (.linkFailure) := rfl
theorem Laws.Spelling.peerAccessArrival : Laws.Spelling.Statement (.peerAccessArrival) := rfl
theorem Laws.Spelling.hostCxlMemRead : Laws.Spelling.Statement (.hostCxlMemRead) := rfl
theorem Laws.Spelling.hostCxlMemWrite : Laws.Spelling.Statement (.hostCxlMemWrite) := rfl
theorem Laws.Spelling.ethTransmit : Laws.Spelling.Statement (.ethTransmit) := rfl
theorem Laws.Spelling.ethReceive : Laws.Spelling.Statement (.ethReceive) := rfl
theorem Laws.Spelling.krootWrite (o : CsrOp) : Laws.Spelling.Statement (.krootWrite o) := rfl
theorem Laws.Spelling.kdomWrite (o : CsrOp) : Laws.Spelling.Statement (.kdomWrite o) := rfl
theorem Laws.Spelling.ktinvGo (o : CsrOp) : Laws.Spelling.Statement (.ktinvGo o) := rfl
theorem Laws.Spelling.kslabGo (o : CsrOp) : Laws.Spelling.Statement (.kslabGo o) := rfl
theorem Laws.Spelling.kslabAbort (o : CsrOp) : Laws.Spelling.Statement (.kslabAbort o) := rfl
theorem Laws.Spelling.kpartWrite (o : CsrOp) : Laws.Spelling.Statement (.kpartWrite o) := rfl
theorem Laws.Spelling.kpownWrite (o : CsrOp) : Laws.Spelling.Statement (.kpownWrite o) := rfl
theorem Laws.Spelling.kpoolevRead (o : CsrOp) : Laws.Spelling.Statement (.kpoolevRead o) := rfl
theorem Laws.Spelling.kbiasGo (o : CsrOp) : Laws.Spelling.Statement (.kbiasGo o) := rfl
theorem Laws.Spelling.biasGo : Laws.Spelling.Statement (.biasGo) := rfl
theorem Laws.Spelling.kflagclrWrite (o : CsrOp) : Laws.Spelling.Statement (.kflagclrWrite o) := rfl
theorem Laws.Spelling.khctlWrite (o : CsrOp) : Laws.Spelling.Statement (.khctlWrite o) := rfl
theorem Laws.Spelling.kchqDepthWrite (o : CsrOp) : Laws.Spelling.Statement (.kchqDepthWrite o) := rfl
theorem Laws.Spelling.kchqErrClear (o : CsrOp) : Laws.Spelling.Statement (.kchqErrClear o) := rfl
theorem Laws.Spelling.kchringWrite (o : CsrOp) : Laws.Spelling.Statement (.kchringWrite o) := rfl
theorem Laws.Spelling.kqctlWrite (o : CsrOp) : Laws.Spelling.Statement (.kqctlWrite o) := rfl
theorem Laws.Spelling.ksibctlHalt (o : CsrOp) : Laws.Spelling.Statement (.ksibctlHalt o) := rfl
theorem Laws.Spelling.ksibctlResume (o : CsrOp) : Laws.Spelling.Statement (.ksibctlResume o) := rfl
theorem Laws.Spelling.ksibdataWrite (o : CsrOp) : Laws.Spelling.Statement (.ksibdataWrite o) := rfl
theorem Laws.Spelling.kpreDone (o : CsrOp) : Laws.Spelling.Statement (.kpreDone o) := rfl
theorem Laws.Spelling.kcsaveSave (o : CsrOp) : Laws.Spelling.Statement (.kcsaveSave o) := rfl
theorem Laws.Spelling.kcsaveRestore (o : CsrOp) : Laws.Spelling.Statement (.kcsaveRestore o) := rfl
theorem Laws.Spelling.ktqctlTailWrite (o : CsrOp) : Laws.Spelling.Statement (.ktqctlTailWrite o) := rfl
theorem Laws.Spelling.ktqctlRerrClear (o : CsrOp) : Laws.Spelling.Statement (.ktqctlRerrClear o) := rfl
theorem Laws.Spelling.ktkillGo (o : CsrOp) : Laws.Spelling.Statement (.ktkillGo o) := rfl
theorem Laws.Spelling.kflushGo (o : CsrOp) : Laws.Spelling.Statement (.kflushGo o) := rfl
theorem Laws.Spelling.kkctlErase (o : CsrOp) : Laws.Spelling.Statement (.kkctlErase o) := rfl
theorem Laws.Spelling.kkctlDerive (o : CsrOp) : Laws.Spelling.Statement (.kkctlDerive o) := rfl
theorem Laws.Spelling.kkctlUnwrap (o : CsrOp) : Laws.Spelling.Statement (.kkctlUnwrap o) := rfl
theorem Laws.Spelling.kkctlRebind (o : CsrOp) : Laws.Spelling.Statement (.kkctlRebind o) := rfl
theorem Laws.Spelling.kkctlQuery (o : CsrOp) : Laws.Spelling.Statement (.kkctlQuery o) := rfl
theorem Laws.Spelling.khmctlWrite (o : CsrOp) : Laws.Spelling.Statement (.khmctlWrite o) := rfl
theorem Laws.Spelling.khmdomWrite (o : CsrOp) : Laws.Spelling.Statement (.khmdomWrite o) := rfl
theorem Laws.Spelling.khmrateWrite (o : CsrOp) : Laws.Spelling.Statement (.khmrateWrite o) := rfl
theorem Laws.Spelling.pmpWrite (num : BitVec 12) (o : CsrOp) : Laws.Spelling.Statement (.pmpWrite num o) := csrRow_spelt num o
theorem Laws.Spelling.bookackWrite : Laws.Spelling.Statement (.bookackWrite) := rfl
theorem Laws.Spelling.booksignRequest : Laws.Spelling.Statement (.booksignRequest) := rfl
theorem Laws.Spelling.slatenonceRead : Laws.Spelling.Statement (.slatenonceRead) := rfl
theorem Laws.Spelling.slatetokenSubmit : Laws.Spelling.Statement (.slatetokenSubmit) := rfl
theorem Laws.Spelling.islstCapWrite : Laws.Spelling.Statement (.islstCapWrite) := rfl
theorem Laws.Spelling.ethTailDoorbell : Laws.Spelling.Statement (.ethTailDoorbell) := rfl
theorem Laws.Spelling.registerWrite (w : RegWrite) : Laws.Spelling.Statement (.registerWrite w) := by
  cases w with
  | csr num o => exact csrRow_spelt num o
  | mmio pa v => rfl
theorem Laws.Spelling.scalarLoad (o : LoadOp) : Laws.Spelling.Statement (.scalarLoad o) := rfl
theorem Laws.Spelling.scalarStore (o : StoreOp) : Laws.Spelling.Statement (.scalarStore o) := rfl
theorem Laws.Spelling.scalarAtomic (o : AmoOp) : Laws.Spelling.Statement (.scalarAtomic o) := rfl
theorem Laws.Spelling.supervisorTimerInterrupt : Laws.Spelling.Statement (.supervisorTimerInterrupt) := rfl
theorem Laws.Spelling.tdispEnterRun : Laws.Spelling.Statement (.tdispEnterRun) := rfl
theorem Laws.Spelling.hostCxlCacheSnoop : Laws.Spelling.Statement (.hostCxlCacheSnoop) := rfl

end Sys2Proof
end

