-- ==== Sys2Proof/Laws/Stores.lean ====
section
/-!
SUPPORT. Stores and the checks of accesses: which bytes a store changes (`StoredTo`), and that every operation that writes memory keeps its canonical form.
-/
namespace Sys2Proof
open Machine

/-! ### The bytes that cells leave -/

/-- The value that the last of some cells gives to an address, or what was there. -/
def lastAt (cs : List PCell) (a : Nat) (b : Byte) : Byte := match cs.reverse.find? fun c => c.pa == a with
  | some c => c.val
  | none => b

theorem lastAt_cons (c : PCell) (cs : List PCell) (a : Nat) (b : Byte) : lastAt (c :: cs) a b = lastAt cs a (if c.pa = a then c.val else b) := by
  unfold lastAt
  rw [List.reverse_cons, List.find?_append]
  cases cs.reverse.find? fun c => c.pa == a with
  | some x => rfl
  | none => by_cases h : c.pa = a <;> simp [h]

theorem get_foldl_cells (cs : List PCell) (m : List Host.Cell) (a : Nat) :
    SMap.get 0 (cs.foldl (fun (m : List Host.Cell) (c : PCell) => SMap.set 0 m c.pa c.val) m) a = lastAt cs a (SMap.get 0 m a) := by
  induction cs generalizing m with
  | nil => rfl
  | cons c cs ih =>
    rw [List.foldl_cons, ih, lastAt_cons, SMap.get_set]
    simp only [eq_comm (a := a)]

theorem lastAt_none {cs : List PCell} {a : Nat} (h : ∀ c ∈ cs, c.pa ≠ a) (b : Byte) : lastAt cs a b = b := by
  have : cs.reverse.find? (fun c => c.pa == a) = none := by
    rw [List.find?_eq_none]; intro c hc; simp [h c (by simpa using hc)]
  simp [lastAt, this]

/-- A line of no key takes the cells. -/
theorem putLine_byte (s : State) (l : Nat) (cs : List PCell) (a : Nat) (h : ∀ c ∈ cs, c.key = 0) :
    rawByte (putLine s l cs) a = lastAt cs a (rawByte s a) := by
  have hk : ((cs.head?).map (·.key)).getD 0 = 0 := by
    cases cs with
    | nil => rfl
    | cons c cs => simpa using h c (by simp)
  unfold putLine
  simp only [hk, if_true]
  exact get_foldl_cells cs s.mem a

theorem egressOf_byte (s : State) (pa : Nat) (bs : List Byte) (t : BitVec 16) (a : Nat) : rawByte (egressOf s pa bs t) a = rawByte s a := by
  unfold rawByte; rw [egressOf_mem]

theorem writeLine_byte (s : State) (l : Nat) (cs : List PCell) (t : BitVec 16) (a : Nat) (h : ∀ c ∈ cs, c.key = 0) (ha : isPeer (a / 128) = false) :
    rawByte (writeLine s l cs t) a = lastAt cs a (rawByte s a) := by
  unfold writeLine
  simp only []
  rw [egressOf_byte, putLine_byte _ _ _ _ h, (homeWrite_moves s l).1 a ha]

/-- Cells of one physical line that an access stores: outside the peer windows memory takes them. -/
theorem storeLine_byte (s : State) (w : Who) (vl cm l : Nat) (cs : List PCell) (a : Nat) (h : ∀ c ∈ cs, c.key = 0) (hl : ∀ c ∈ cs, c.pa / 128 = l)
    (ha : isPeer (a / 128) = false) : rawByte (storeLine s w vl cm cs) a = lastAt cs a (rawByte s a) := by
  unfold storeLine
  split
  · rfl
  · next c cs =>
    have hc : c.pa / 128 = l := hl c (by simp)
    simp only [hc]
    split
    · exact writeLine_byte s l _ _ a h ha
    · generalize hz : (_ && _ : Bool) = z
      have hm := (kOwn_moves s w vl l c.key cm z (coverLine (c :: cs))).1 a ha
      split
      · rw [writeLine_byte _ l _ _ a h ha, hm]
      · split
        · next hp =>
          rw [show rawByte (putKline _ _ _) a = _ from (putKline_moves _ _ _).1 a ha, hm, lastAt_none]
          intro x hx e
          rw [← e, hl x hx, hp] at ha
          cases ha
        · rw [putLine_byte _ _ _ _ h, hm]

theorem keepLast_cons {α : Type} (place : α → Nat) (x : α) (l : List α) :
    keepLast place (x :: l) = if l.any fun y => place y == place x then keepLast place l else x :: keepLast place l := rfl

theorem mem_of_keepLast {α : Type} (place : α → Nat) {l : List α} {x : α} (h : x ∈ keepLast place l) : x ∈ l := by
  induction l with
  | nil => exact h
  | cons y l ih =>
    rw [keepLast_cons] at h
    split at h
    · exact List.mem_cons_of_mem _ (ih h)
    · rcases List.mem_cons.1 h with e | h
      · rw [e]; exact List.mem_cons_self
      · exact List.mem_cons_of_mem _ (ih h)

/-- Of the members of one place the last is what stands. -/
theorem find_keepLast {α : Type} (place : α → Nat) (l : List α) (p : Nat) :
    (keepLast place l).find? (fun x => place x == p) = l.reverse.find? fun x => place x == p := by
  induction l with
  | nil => rfl
  | cons x l ih =>
    rw [List.reverse_cons, List.find?_append, ← ih, keepLast_cons]
    split
    · next h =>
      by_cases hx : place x = p
      · obtain ⟨y, hy, e⟩ := List.any_eq_true.1 h
        have hs : (l.reverse.find? fun x => place x == p).isSome := by
          rw [List.find?_isSome]
          exact ⟨y, by simpa using hy, by simpa [hx] using e⟩
        rw [← ih] at hs
        obtain ⟨z, hz⟩ := Option.isSome_iff_exists.1 hs
        simp [hz]
      · simp [hx]
    · next h =>
      by_cases hx : place x = p
      · have : (keepLast place l).find? (fun x => place x == p) = none := by
          rw [List.find?_eq_none]
          intro y hy e
          apply h
          exact List.any_eq_true.2 ⟨y, mem_of_keepLast place hy, by simpa [hx] using e⟩
        simp [hx, this]
      · simp [hx]

/-- Two members of what stands are of two places. -/
theorem keepLast_inj {α : Type} (place : α → Nat) {l : List α} {x y : α} (hx : x ∈ keepLast place l) (hy : y ∈ keepLast place l)
    (h : place x = place y) : x = y := by
  induction l with
  | nil => cases hx
  | cons z l ih =>
    rw [keepLast_cons] at hx hy
    split at hx
    · next hz => rw [if_pos hz] at hy; exact ih hx hy
    · next hz =>
      rw [if_neg hz] at hy
      have no : ∀ u ∈ keepLast place l, place u ≠ place z := fun u hu e =>
        hz (List.any_eq_true.2 ⟨u, mem_of_keepLast place hu, by simpa using e⟩)
      rcases List.mem_cons.1 hx with ex | hx <;> rcases List.mem_cons.1 hy with ey | hy
      · rw [ex, ey]
      · exact absurd (h.symm.trans (by rw [ex])) (no _ hy)
      · exact absurd (h.trans (by rw [ey])) (no _ hx)
      · exact ih hx hy

/-- Storing cells that no key seals leaves each byte outside the peer windows with the value of the last cell that names it. -/
theorem putCells_stored (s : State) (w : Who) (cs : List VCell) (h : ∀ c ∈ cs, c.cell.key = 0) : StoredTo s (putCells s w cs) (cs.map (·.cell)) := by
  intro a ha
  unfold putCells
  simp only []
  generalize hk : keepLast (fun x : VCell => x.cell.pa) cs = ks
  have hfold : ∀ (gs : List (Nat × Nat × Nat)) (t : State), rawByte (gs.foldl (fun s l =>
      storeLine s w l.1 l.2.1 ((ks.filter fun x => x.at_ == l).map (·.cell))) t) a =
      match ks.find? fun x => x.cell.pa == a with
      | some x => if x.at_ ∈ gs then x.cell.val else rawByte t a
      | none => rawByte t a := by
    intro gs
    induction gs with
    | nil => intro t; cases ks.find? fun x => x.cell.pa == a <;> simp
    | cons g gs ih =>
      intro t
      rw [List.foldl_cons, ih]
      have step : rawByte (storeLine t w g.1 g.2.1 ((ks.filter fun x => x.at_ == g).map (·.cell))) a =
          match ks.find? fun x => x.cell.pa == a with
          | some x => if x.at_ = g then x.cell.val else rawByte t a
          | none => rawByte t a := by
        rw [storeLine_byte t w g.1 g.2.1 g.2.2 _ a ?_ ?_ ha]
        · cases hf : ks.find? fun x => x.cell.pa == a with
          | none =>
            apply lastAt_none
            intro c hc e
            obtain ⟨x, hx, rfl⟩ := List.mem_map.1 hc
            have := List.find?_eq_none.1 hf x ((List.mem_filter.1 hx).1)
            simp [e] at this
          | some x =>
            have hx := List.mem_of_find?_eq_some hf
            have hxa : x.cell.pa = a := by simpa using List.find?_some hf
            have uniq : ∀ y ∈ ks, y.cell.pa = a → y = x := fun y hy e => by
              rw [← hk] at hy hx
              exact keepLast_inj _ hy hx (e.trans hxa.symm)
            by_cases hg : x.at_ = g
            · simp only [hg, if_true]
              unfold lastAt
              cases hr : (((ks.filter fun x => x.at_ == g).map (·.cell)).reverse.find? fun c => c.pa == a) with
              | none =>
                have := List.find?_eq_none.1 hr x.cell (by simp only [List.mem_reverse, List.mem_map]; exact ⟨x, by simp [hx, hg], rfl⟩)
                simp [hxa] at this
              | some c =>
                have hc := List.mem_of_find?_eq_some hr
                have hca : c.pa = a := by simpa using List.find?_some hr
                simp only [List.mem_reverse, List.mem_map] at hc
                obtain ⟨y, hy, rfl⟩ := hc
                rw [uniq y ((List.mem_filter.1 hy).1) hca]
            · simp only [hg, if_false]
              apply lastAt_none
              intro c hc e
              obtain ⟨y, hy, rfl⟩ := List.mem_map.1 hc
              have := uniq y ((List.mem_filter.1 hy).1) e
              rw [this] at hy
              simp [hg] at hy
        · intro c hc
          obtain ⟨x, hx, rfl⟩ := List.mem_map.1 hc
          exact h x (mem_of_keepLast _ (hk ▸ (List.mem_filter.1 hx).1))
        · intro c hc
          obtain ⟨x, hx, rfl⟩ := List.mem_map.1 hc
          have : x.at_ = g := by simpa using (List.mem_filter.1 hx).2
          rw [← this]; rfl
      rw [step]
      cases ks.find? fun x => x.cell.pa == a with
      | none => rfl
      | some x =>
        by_cases hg : x.at_ = g
        · simp [hg]
        · simp [hg]
  rw [hfold]
  have e : ((cs.map (·.cell)).reverse.find? fun c => c.pa == a) = (ks.find? fun x => x.cell.pa == a).map (·.cell) := by
    rw [← hk, find_keepLast, ← List.map_reverse, List.find?_map]
    rfl
  rw [e]
  cases hf : ks.find? fun x => x.cell.pa == a with
  | none => rfl
  | some x =>
    have hx : x.at_ ∈ (ks.map VCell.at_).eraseDups := by
      rw [List.mem_eraseDups]; exact List.mem_map.2 ⟨x, List.mem_of_find?_eq_some hf, rfl⟩
    simp [hx]

theorem breakResv_byte (s : State) (h : Nat) (ls : List Nat) (a : Nat) : rawByte (breakResv s h ls) a = rawByte s a := by
  unfold rawByte; rw [breakResv_mem]

/-- A store of an access: the bytes that its cells name, and no others. -/
theorem storeCells_stored (s : State) (w : Who) (cs : List VCell) (h : ∀ c ∈ cs, c.cell.key = 0) : StoredTo s (storeCells s w cs) (cs.map (·.cell)) := by
  intro a ha
  unfold storeCells
  simp only []
  rw [breakResv_byte]
  exact putCells_stored s w cs h a ha

/-! ### Stores keep the canonical form -/

theorem putLine_wf (s : State) (l : Nat) (cs : List PCell) (h : Memory.wf s.mem = true) : Memory.wf (putLine s l cs).mem = true := by
  unfold putLine
  simp only []
  split
  · exact SMap.wf_foldl_set 0 (fun c : PCell => c.pa) (fun c => c.val) cs h
  · rw [modLine_mem]; exact putRaw_wf s _ _ h

theorem writeLine_wf (s : State) (l : Nat) (cs : List PCell) (t : BitVec 16) (h : Memory.wf s.mem = true) :
    Memory.wf (writeLine s l cs t).mem = true := by
  unfold writeLine
  simp only [egressOf_mem]
  exact putLine_wf _ l cs ((homeWrite_moves s l).2.1 h)

theorem writeCells_wf (s : State) (cs : List PCell) (t : BitVec 16) (h : Memory.wf s.mem = true) : Memory.wf (writeCells s cs t).mem = true := by
  unfold writeCells
  generalize (cs.map fun c => c.pa / 128).eraseDups = ls
  induction ls generalizing s with
  | nil => exact h
  | cons l ls ih => exact ih _ (writeLine_wf s l _ t h)

theorem writeMem_wf (s : State) (key pa : Nat) (bs : List Byte) (t : BitVec 16) (h : Memory.wf s.mem = true) :
    Memory.wf (writeMem s key pa bs t).mem = true := writeCells_wf s _ t h

theorem storeLine_wf (s : State) (w : Who) (vl cm : Nat) (cs : List PCell) (h : Memory.wf s.mem = true) :
    Memory.wf (storeLine s w vl cm cs).mem = true := by
  unfold storeLine
  split
  · exact h
  · next c cs =>
    simp only []
    split
    · exact writeLine_wf s _ _ _ h
    · generalize (_ && _ : Bool) = z
      have hm := (kOwn_moves s w vl (c.pa / 128) c.key cm z (coverLine (c :: cs))).2.1 h
      split
      · exact writeLine_wf _ _ _ _ hm
      · split
        · exact (putKline_moves _ _ _).2.1 hm
        · exact putLine_wf _ _ _ hm

theorem putCells_wf (s : State) (w : Who) (cs : List VCell) (h : Memory.wf s.mem = true) : Memory.wf (putCells s w cs).mem = true := by
  unfold putCells
  simp only []
  generalize ((keepLast _ cs).map VCell.at_).eraseDups = ls
  induction ls generalizing s with
  | nil => exact h
  | cons l ls ih => exact ih _ (storeLine_wf s w _ _ _ h)

theorem storeCells_wf (s : State) (w : Who) (cs : List VCell) (h : Memory.wf s.mem = true) : Memory.wf (storeCells s w cs).mem = true := by
  simpa [storeCells] using putCells_wf s w cs h

theorem mladWrite_wf (s t : State) (h pa : Nat) (bs : List Byte) (e : mladWrite s h pa bs = .ok t) (hw : Memory.wf s.mem = true) : Memory.wf t.mem = true := by
  unfold mladWrite at e
  split at e
  · cases e
  · cases e; simpa using writeCells_wf s _ _ hw

theorem foldl_modLine_mem (f : Nat → LineMeta → LineMeta) (ls : List Nat) (s : State) :
    (ls.foldl (fun (t : State) l => t.modLine l (f l)) s).mem = s.mem := by
  induction ls generalizing s with
  | nil => rfl
  | cons l ls ih => exact ih _

theorem outerWrite_wf (s : State) (pa : Nat) (bs : List Byte) (h : Memory.wf s.mem = true) : Memory.wf (outerWrite s pa bs).mem = true := by
  unfold outerWrite
  simp only [breakResv_mem, foldl_modLine_mem]
  exact putRaw_wf _ pa bs ((CacheMoves.foldl homeWrite_moves _ s).2.1 h)

theorem setMf_wf (s : State) (f : Nat) (e : Word) (h : Memory.wf s.mem = true) : Memory.wf (setMf s f e).mem = true :=
  putRaw_wf _ _ _ (putRaw_wf s _ _ h)

/-! ### The checks of an access -/

theorem tlbLoad_mem (s : State) (k t : Nat) (e : PageEntry) : (tlbLoad s k t e).mem = s.mem := rfl

theorem choose_mem (s : State) : (choose s).2.mem = s.mem := by unfold choose; split <;> rfl

theorem plbFill_mem (s : State) (c : Nat) (e : PageEntry) : (plbFill s c e).mem = s.mem := by
  simp only [plbFill]
  split
  · rfl
  · simp only [modCore_mem]; exact choose_mem s

theorem unitWalk_mem (s : State) (k fn : Nat) (va : Word) : (unitWalk s k fn va).1.mem = s.mem := choose_mem s

theorem tlbEntry_wf (s : State) (k t fn : Nat) (va : Word) (h : Memory.wf s.mem = true) : Memory.wf (tlbEntry s k t fn va).1.mem = true := by
  have hw : Memory.wf (unitWalk s k fn va).1.mem = true := by rw [unitWalk_mem]; exact h
  unfold tlbEntry
  split
  · exact h
  · split
    · next heq => rw [heq] at hw; exact hw
    · next heq => rw [heq] at hw; exact setPteBit_wf _ _ 8 hw

theorem pageFor_wf (s : State) (w : Who) (u : Src) (va : Word) (h : Memory.wf s.mem = true) : Memory.wf (pageFor s w u va).1.mem = true := by
  have ht := tlbEntry_wf s (clusterOf w.core) u.tlb w.fn va h
  unfold pageFor
  split
  · exact h
  · split
    · next heq => rw [heq] at ht; exact ht
    · next heq => rw [heq] at ht; simpa [plbFill_mem] using ht

theorem markDirty_wf (s : State) (w : Who) (u : Src) (a : Acc) (mxr : Bool) (va : Word) (h : Memory.wf s.mem = true) :
    Memory.wf (markDirty s w u a mxr va).1.mem = true := by
  have hw : Memory.wf (unitWalk s (clusterOf w.core) w.fn va).1.mem = true := by rw [unitWalk_mem]; exact h
  unfold markDirty
  split
  · next heq => rw [heq] at hw; exact hw
  · next heq =>
    rw [heq] at hw
    split
    · exact hw
    · simpa [plbFill_mem, tlbLoad_mem] using setPteBit_wf _ _ 9 (setPteBit_wf _ _ 8 hw)

theorem reach_wf (s : State) (w : Who) (u : Src) (a : Acc) (va : Word) (n : Nat) (e : PageEntry) (lvl : Nat) (h : Memory.wf s.mem = true) :
    Memory.wf (reach s w u a va n e lvl).1.mem = true := by
  have ht := tlbEntry_wf s (clusterOf w.core) u.tlb w.fn va h
  unfold reach
  split
  · exact h
  · split
    · next heq => rw [heq] at ht; exact ht
    · next heq => rw [heq] at ht; simp only []; split <;> exact ht

/-- The checks of an access keep the canonical form: they write A and D bits alone. -/
theorem translate_wf (s : State) (w : Who) (u : Src) (a : Acc) (mxr setD : Bool) (va : Word) (n : Nat) (h : Memory.wf s.mem = true) :
    Memory.wf (translate s w u a mxr setD va n).1.mem = true := by
  have hp := pageFor_wf s w u va h
  unfold Sys2Proof.Machine.translate
  split
  · split
    · exact h
    · split <;> exact h
  · split
    · exact h
    · split
      · next heq => rw [heq] at hp; exact hp
      · next t e l heq =>
        rw [heq] at hp
        split
        · exact hp
        · split
          · have hd := markDirty_wf t w u a mxr va hp
            split
            · next heq2 => rw [heq2] at hd; exact hd
            · next heq2 => rw [heq2] at hd; exact reach_wf _ _ _ _ _ _ _ _ hd
          · exact reach_wf _ _ _ _ _ _ _ _ hp

theorem placeAll_wf (w : Who) (u : Src) (a : Acc) (mxr setD : Bool) (gs : List Seg) (s : State) (h : Memory.wf s.mem = true) :
    Memory.wf (placeAll w u a mxr setD gs s).1.mem = true := by
  induction gs generalizing s with
  | nil => exact h
  | cons g gs ih =>
    have ht := translate_wf s w u a mxr setD g.at_ g.n h
    unfold placeAll
    split
    · next heq => rw [heq] at ht; exact ht
    · next t r heq =>
      rw [heq] at ht
      have hi := ih t ht
      split
      · next heq2 => rw [heq2] at hi; exact hi
      · next heq2 => rw [heq2] at hi; exact hi

theorem bookAppend_mem (s : State) (type fn eid core : Nat) (args : List Word) : (bookAppend s type fn eid core args).mem = s.mem := by
  unfold bookAppend bookPut
  simp only []
  split
  · rfl
  · rfl

theorem unitWrite_wf (s : State) (w : Who) (va : Word) (bs : List Byte) (h : Memory.wf s.mem = true) : Memory.wf (unitWrite s w va bs).1.mem = true := by
  have h1 := placeAll_wf w .copy .wr false false (tileSegs va bs.length) s h
  unfold unitWrite
  split
  · next heq => rw [heq] at h1; exact h1
  · next t ps heq =>
    rw [heq] at h1
    have h2 := placeAll_wf w .copy .wr false true (tileSegs va bs.length) t h1
    split
    · next heq2 => rw [heq2] at h2; exact h2
    · next heq2 =>
      rw [heq2] at h2
      simp only []
      split
      · unfold sealNote; rw [bookAppend_mem]; exact h2
      · simpa using writeCells_wf _ _ _ h2

end Sys2Proof
end

