-- ==== Sys2Proof/Machine/Object.lean ====
section
/-!
DEFINITION. Code objects (R365 to R367, R369, R372, R210): the ELF header of an object, the KCB notes, the relocations of Krovan's range,
and the KCB, handler entries and tile templates that the toolchain writes from a kernel's directives. The toolchain is software: nothing
in step calls this; a KCB built here is what the checks of R370 (Launch.lean) read. The text of `grelas` (R206 to R209) is left out.
-/
namespace Sys2Proof.Obj

open Sys2Proof.Machine

/-- n bytes of an object as a number. -/
def num (m : List Byte) (at_ n : Nat) : Nat := leToNat ((m.drop at_).take n)

/-- The ELF64 header of a T9 code object (R365): class 2, data 1, ET_DYN, EM_RISCV, flags 5. -/
def headerOk (m : List Byte) : Bool :=
  decide (64 ≤ m.length) && num m 0 4 == 0x464C457F && num m 4 1 == 2 && num m 5 1 == 1 && num m 16 2 == 3 && num m 18 2 == 243 &&
  num m 48 4 == 5

/-- A note of `.note.krovan` (R366) that begins at offset `at_` of the section: zeros before its header so that the descriptor, 20
bytes on, begins on a multiple of 128; name "Krovan", type 1, one KCB. -/
def kcbNote (at_ : Nat) (kcb : List Byte) : List Byte :=
  List.replicate ((128 - (at_ + 20) % 128) % 128) 0 ++ natToLe 4 7 ++ natToLe 4 256 ++ natToLe 4 1 ++ asciiBytes "Krovan" ++ [0, 0] ++ kcb

/-- The descriptors of the notes of a section: KCBs; notes of another type or name are passed by (R366). A note's descriptor is padded
to four bytes, and zeros between notes are padding. -/
def kcbNotes : Nat → List Byte → List (List Byte)
  | 0, _ => []
  | fuel + 1, m =>
    if m.length < 12 then []
    else if num m 0 4 = 0 then kcbNotes fuel (m.drop 4)
    else
      let n := roundUp (num m 0 4) 4
      let d := num m 4 4
      let rest := kcbNotes fuel (m.drop (12 + n + roundUp d 4))
      if num m 8 4 = 1 ∧ d = 256 ∧ (m.drop 12).take 7 = asciiBytes "Krovan" ++ [0] then (m.drop (12 + n)).take 256 :: rest else rest

/-- A section of a code object (R366): what it holds, the alignment, the rights of its pages. -/
structure Section where
  name : String
  content : String
  align : Nat
  rd : Bool := true
  wr : Bool := false
  x : Bool := false
  deriving DecidableEq, Repr

/-- The sections of R366. -/
def sections : List Section :=
  [{ name := ".text", content := "native code", align := 128, x := true },
   { name := ".rodata", content := "data", align := 8 },
   { name := ".data", content := "data", align := 8, wr := true },
   { name := ".bss", content := "data", align := 8, wr := true },
   { name := ".tdesc", content := "16-byte tile header templates", align := 16 },
   { name := ".ktab", content := "EX8 code tables: 256 words of 8 bytes", align := 2048 },
   { name := ".parbel", content := "Parbel module", align := 8 },
   { name := ".note.krovan", content := "KCB notes", align := 128 }]

/-- A section's name, type (SHT_NOTE is 7) and address are as R366 has them; other sections are not its matter. -/
def sectionOk (name : String) (shtype addr : Nat) : Bool :=
  match sections.find? fun x => x.name == name with
  | some x => addr % x.align == 0 && (name != ".note.krovan" || shtype == 7)
  | none => true

/-! ### Relocations (R367) -/

/-- The value that a relocation writes: S + A − K or S + A by type, `p` and `k` the place and its KCB; none is a link error. The
value of type 196 is the CRC of the 14 bytes at the place, `h`. -/
def relocate (ty : Nat) (s a p : Int) (k : Option Int) (h : List Byte) : Option Int :=
  if ty = 192 then k.map fun k => s + a - k
  else if ty = 193 then k.bind fun k =>
    let v := s + a - k
    if -2 ^ 31 ≤ v ∧ v < 2 ^ 31 ∧ v % 128 = 0 then some v else none
  else if ty = 194 then if -16384 ≤ s + a ∧ s + a < 16384 then some (s + a) else none
  else if ty = 195 then if -4096 ≤ s + a ∧ s + a < 4096 then some (s + a) else none
  else if ty = 196 then if p % 16 = 0 then some ((hdrCrc (hdrOf (h.take 14))).toNat : Int) else none
  else none

/-- The bits of the place that each type writes: where they begin and how many (R185, R367). -/
def relocField (ty : Nat) : Nat × Nat :=
  if ty = 192 then (0, 64) else if ty = 193 then (0, 32) else if ty = 194 then (49, 15) else if ty = 195 then (49, 13) else (112, 16)

/-- A place with a relocation's value in it. -/
def patch (ty : Nat) (v : Int) (w : Nat) : Nat :=
  let (lo, n) := relocField ty
  w % 2 ^ lo + (v % 2 ^ n).toNat * 2 ^ lo + w / 2 ^ (lo + n) * 2 ^ (lo + n)

/-- Where a standard relocation's value goes: bytes, the immediate of an instruction layout, or the pair `auipc` and `jalr`. -/
inductive Place where
  | bytes (n : Nat)
  | bImm | jImm | uImm | iImm | sImm | pair | cb | cj
  deriving DecidableEq, Repr

/-- Some bits of a number replaced: `n` bits from `lo` on, by the low bits of `v`. -/
def setBits (w lo n v : Nat) : Nat := w % 2 ^ lo + v % 2 ^ n * 2 ^ lo + w / 2 ^ (lo + n) * 2 ^ (lo + n)

/-- Scattered bits: each (from bit of the value, bit of the word, how many). -/
def scatter (fs : List (Nat × Nat × Nat)) (w v : Nat) : Nat := fs.foldl (fun w f => setBits w f.2.1 f.2.2 (v / 2 ^ f.1)) w

/-- A value's bits in its place; the upper part of `uImm` and of `pair` is rounded so that the lower part is signed. -/
def Place.put (p : Place) (w : Nat) (v : Int) : Nat :=
  let n := (v % 2 ^ 64).toNat
  match p with
  | .bytes k => setBits w 0 (8 * k) n
  | .bImm => scatter [(12, 31, 1), (5, 25, 6), (1, 8, 4), (11, 7, 1)] w n
  | .jImm => scatter [(20, 31, 1), (1, 21, 10), (11, 20, 1), (12, 12, 8)] w n
  | .uImm => setBits w 12 20 ((n + 2048) / 4096)
  | .iImm => setBits w 20 12 n
  | .sImm => scatter [(5, 25, 7), (0, 7, 5)] w n
  | .pair => setBits (setBits w 12 20 ((n + 2048) / 4096)) 52 12 n
  | .cb => scatter [(8, 12, 1), (3, 10, 2), (6, 5, 2), (1, 3, 2), (5, 2, 1)] w n
  | .cj => scatter [(11, 12, 1), (4, 11, 1), (8, 9, 2), (10, 8, 1), (6, 7, 1), (7, 6, 1), (1, 3, 3), (5, 2, 1)] w n

/-- The bytes of a place. -/
def Place.size (p : Place) : Nat :=
  match p with
  | .bytes n => n
  | .pair => 8
  | .cb | .cj => 2
  | .bImm | .jImm | .uImm | .iImm | .sImm => 4

/-- The place takes the value whole (R367: no value is truncated). -/
def Place.holds (p : Place) (v : Int) : Bool :=
  let within := fun (n : Nat) => decide (-2 ^ n ≤ v) && decide (v < 2 ^ n)
  match p with
  | .bytes n => decide (-2 ^ (8 * n - 1) ≤ v) && decide (v < 2 ^ (8 * n))
  | .bImm => within 12 && v % 2 == 0
  | .jImm => within 20 && v % 2 == 0
  | .uImm | .pair => decide (-2 ^ 31 - 2048 ≤ v) && decide (v < 2 ^ 31 - 2048)
  | .cb => within 8 && v % 2 == 0
  | .cj => within 11 && v % 2 == 0
  | .iImm | .sImm => true

/-- A relocation of an object: its place as an offset, its type, whether its symbol is `KROVAN`, S (of a thread-local symbol its offset) and A; the address of what the
linker keeps for the symbol (its GOT entry, its descriptor, the answer of its resolver), the number of its thread-local module, the bytes that COPY copies. -/
structure Rel where
  off : Nat
  ty : Nat
  krovan : Bool := false
  value : Int := 0
  addend : Int := 0
  slot : Option Int := none
  tlsMod : Nat := 1
  bytes : List Byte := []
  deriving DecidableEq, Repr

/-- What a standard type of the psABI does (PRESUMED: the RISC-V psABI; log 72): the place, whether P is subtracted, and how the
value joins what the place held: replaced, added, subtracted. None for a type of no fixed place. -/
def stdType (ty : Nat) : Option (Place × Bool × Int) :=
  match ty with
  | 1 | 6 | 8 | 10 => some (.bytes 4, false, 0)
  | 2 | 3 | 5 | 7 | 9 | 11 | 58 => some (.bytes 8, false, 0)
  | 16 => some (.bImm, true, 0)
  | 17 => some (.jImm, true, 0)
  | 18 | 19 => some (.pair, true, 0)
  | 20 | 21 | 22 | 23 | 62 => some (.uImm, true, 0)
  | 24 | 27 | 30 | 63 | 64 => some (.iImm, false, 0)
  | 25 | 28 | 31 => some (.sImm, false, 0)
  | 26 | 29 => some (.uImm, false, 0)
  | 33 => some (.bytes 1, false, 1)
  | 34 => some (.bytes 2, false, 1)
  | 35 => some (.bytes 4, false, 1)
  | 36 => some (.bytes 8, false, 1)
  | 37 => some (.bytes 1, false, -1)
  | 38 => some (.bytes 2, false, -1)
  | 39 => some (.bytes 4, false, -1)
  | 40 => some (.bytes 8, false, -1)
  | 41 | 57 | 59 => some (.bytes 4, true, 0)
  | 44 => some (.cb, true, 0)
  | 45 => some (.cj, true, 0)
  | 54 => some (.bytes 1, false, 0)
  | 55 => some (.bytes 2, false, 0)
  | 56 => some (.bytes 4, false, 0)
  | _ => none

/-- Types that write nothing: NONE, TPREL_ADD, ALIGN, RELAX, TLSDESC_CALL and VENDOR. -/
def idleType (ty : Nat) : Bool := [0, 32, 43, 51, 65, 191].contains ty

/-- Bytes put at an offset of an object; none where they do not fit. -/
def putBytes (m : List Byte) (at_ : Nat) (bs : List Byte) : Option (List Byte) :=
  if at_ + bs.length ≤ m.length then some (m.take at_ ++ bs ++ m.drop (at_ + bs.length)) else none

/-- What a type names before P is subtracted: S + A; the base + A; the module of a thread-local symbol, or its offset from the module's pointer; what the linker keeps for
the symbol. -/
def Rel.target (base : Int) (r : Rel) : Option Int :=
  match r.ty with
  | 3 => some (base + r.addend)
  | 6 | 7 => some r.tlsMod
  | 8 | 9 => some (r.value + r.addend - 0x800)
  | 20 | 21 | 22 | 41 | 62 => r.slot.map (· + r.addend)
  | 58 => r.slot
  | _ => some (r.value + r.addend)

/-- The value of the lower half of a pc-relative address (24, 25, 63, 64): that of the upper half that its symbol stands at. -/
def lowerHalf (base : Int) (rels : List Rel) (r : Rel) : Option Int :=
  (rels.find? fun h => [20, 21, 22, 23, 62].contains h.ty && base + h.off == r.value).bind fun h => (h.target base).map (· - (base + h.off))

/-- The bytes of the ULEB128 number at the start of some bytes. -/
def ulebSize : List Byte → Nat
  | [] => 0
  | b :: r => if b.getLsbD 7 then ulebSize r + 1 else 1

/-- The number in n bytes of ULEB128, and n bytes that hold a number. -/
def ulebNum : List Byte → Nat
  | [] => 0
  | b :: r => b.toNat % 128 + 128 * ulebNum r
def ulebBytes : Nat → Nat → List Byte
  | 0, _ => []
  | n + 1, v => BitVec.ofNat 8 (v % 128 + if n = 0 then 0 else 128) :: ulebBytes n (v / 128)

/-- A standard relocation applied to the object at `base`; none is a link error. Types 52 and 53 change six bits, 60 and 61 a number in ULEB128 that keeps its length, 4
copies a symbol's bytes, 12 fills a descriptor of two words. -/
def applyStd (base : Int) (rels : List Rel) (r : Rel) (m : List Byte) : Option (List Byte) :=
  let s := r.value + r.addend
  if idleType r.ty then some m
  else if r.ty = 4 then putBytes m r.off r.bytes
  else if r.ty = 12 then r.slot.bind fun f => putBytes m r.off (natToLe 8 (f % 2 ^ 64).toNat ++ natToLe 8 (s % 2 ^ 64).toNat)
  else if r.ty = 52 then putBytes m r.off (natToLe 1 (setBits (num m r.off 1) 0 6 (((num m r.off 1 : Int) - s) % 64).toNat))
  else if r.ty = 53 then (if 0 ≤ s ∧ s < 64 then putBytes m r.off (natToLe 1 (setBits (num m r.off 1) 0 6 s.toNat)) else none)
  else if r.ty = 60 ∨ r.ty = 61 then
    let n := ulebSize (m.drop r.off)
    let v := if r.ty = 60 then s else (ulebNum ((m.drop r.off).take n) : Int) - s
    if 0 ≤ v ∧ v < 128 ^ n then putBytes m r.off (ulebBytes n v.toNat) else none
  else match stdType r.ty with
    | none => none
    | some (p, rel, k) =>
      let old := num m r.off p.size
      match (if [24, 25, 63, 64].contains r.ty then lowerHalf base rels r else (r.target base).map fun v => if rel then v - (base + r.off) else v) with
      | none => none
      | some v =>
        if k ≠ 0 then putBytes m r.off (natToLe p.size (((old : Int) + k * v) % 2 ^ (8 * p.size)).toNat)
        else if p.holds v then putBytes m r.off (natToLe p.size (p.put old v)) else none

/-- A relocation of Krovan's range applied; `kcb` gives the address of the KCB that holds a place. -/
def applyKrovan (base : Int) (kcb : Nat → Option Int) (r : Rel) (m : List Byte) : Option (List Byte) :=
  let n := if r.ty = 193 then 4 else if r.ty = 196 then 16 else 8
  (relocate r.ty r.value r.addend (base + r.off) (kcb r.off) (m.drop r.off)).bind fun v => putBytes m r.off (natToLe n (patch r.ty v (num m r.off n)))

/-- Every type of 192 to 255 has R_RISCV_VENDOR with symbol `KROVAN` right before it at its offset (R367). -/
def vendorsOk : Option Rel → List Rel → Bool
  | _, [] => true
  | p, r :: rs =>
    (decide (r.ty < 192) || (match p with
      | some v => v.ty == 191 && v.krovan && v.off == r.off
      | none => false)) && vendorsOk (some r) rs

/-- The relocations of an object at `base`, in order, those of type 196 after every other (R367); none is a link error. -/
def link (base : Int) (kcb : Nat → Option Int) (rels : List Rel) (m : List Byte) : Option (List Byte) :=
  if vendorsOk none rels then
    (rels.filter (·.ty != 196) ++ rels.filter (·.ty == 196)).foldl
      (fun m r => m.bind fun m => if 192 ≤ r.ty then applyKrovan base kcb r m else applyStd base rels r m) (some m)
  else none

/-! ### What the directives build (R210, R369, R372) -/

/-- A `.handler` directive: its quantities, and where the handler is: the offset of its first instruction, or a Parbel body. -/
structure Handler where
  ch : Nat
  at_ : Int
  parbel : Bool := false
  k : Nat := 1
  conc : Nat := 1
  maxp : Nat := 0
  prio : Nat := 0
  pin : Option Nat := none
  diemask : Option Nat := none
  deriving DecidableEq, Repr

/-- A handler-table entry (R369). -/
def Handler.bytes (h : Handler) : List Byte :=
  natToLe 8 (h.ch + (h.k - 1) * 2 ^ 6 + (h.conc - 1) * 2 ^ 10 + h.maxp * 2 ^ 14 + h.prio * 2 ^ 19 + (match h.pin with
      | some n => 2 ^ 22 + n * 2 ^ 23
      | none => 0) + b2n h.parbel * 2 ^ 27 + (match h.diemask with
      | some m => 2 ^ 28 + m * 2 ^ 29
      | none => 0)) ++
    natToLe 8 (h.at_ % 2 ^ 64).toNat

/-- A kernel's directives (R210) with the values of omitted keys, and where the linker puts what they name, in bytes from the KCB. -/
structure Kernel where
  entry : Int
  code : List Byte
  harts : Nat := 1
  vregs : Nat := 32
  scratch : Nat := 0
  barriers : Nat := 0
  bb : Nat := 0
  acc : Nat := 0
  handlers : Nat := 0
  bbown : Option (List Nat) := none
  device : Nat := 0
  widths : List Nat := []
  strict : Bool := false
  preempt : Bool := true
  first : List Int := []
  pools : List PoolDemand := []
  htab : Int := 0
  hcount : Nat := 0
  stage : Int := 0
  nstage : Nat := 0
  ktab : Int := 0
  parbel : Int := 0
  deriving DecidableEq, Repr

def Kernel.pool (p : PoolDemand) : Nat := p.part + p.cls * 2 ^ 6 + p.min * 2 ^ 8 + p.max * 2 ^ 19 + 2 ^ 30

/-- The KCB of a kernel (R368, R372): w0 is 5; without `first`, the line of the entry; the digest covers the kernel's code; `bbown`
leaves the registers beyond its list to hart 0. -/
def Kernel.kcb (x : Kernel) : List Byte :=
  let off := fun (n : Nat) (v : Int) => natToLe n (v % 2 ^ (8 * n)).toNat
  let firsts := if x.first.isEmpty then [x.entry / 128 * 128] else x.first
  natToLe 4 0x3142434B ++ natToLe 2 1 ++ natToLe 1 x.device ++
    natToLe 1 (b2n x.strict + 2 * b2n x.preempt + 4 + 8 * b2n x.bbown.isSome) ++ off 8 x.entry ++ off 8 x.htab ++
    ([x.hcount, x.handlers, x.harts, x.vregs, x.barriers, x.bb, x.acc, firsts.length].map fun n => natToLe 1 n).flatten ++
    natToLe 4 x.scratch ++ natToLe 4 x.nstage ++
    natToLe 8 (((x.bbown.getD []).take 16).foldr (fun o n => o + 16 * n) 0) ++
    natToLe 8 (5 + 2 ^ 7 * (x.widths.take 5).foldr (fun w n => w + 2 ^ 7 * n) 0) ++ off 8 x.stage ++
    ((List.range 8).map fun i => off 4 (nth 0 firsts i)).flatten ++
    ((List.range 4).map fun i => natToLe 8 (match x.pools[i]? with
      | some p => Kernel.pool p
      | none => 0)).flatten ++
    off 8 x.ktab ++ off 8 x.parbel ++ off 8 x.entry ++ natToLe 8 x.code.length ++ List.replicate 64 0 ++ digestBytes (sm3 x.code)

/-- `device=0` above the floor is a link error (R372, R373); E2 is the launch's, not the linker's to check. -/
def Kernel.link (x : Kernel) : Option (List Byte) :=
  if x.device = 0 ∧ kcbFloor x.kcb 0 = false then none else some x.kcb

/-- A `.tile` template: a header with its CRC (R210, R87). -/
def tileTemplate (h : Hdr) : List Byte := natToLe 16 (sealCrc h).toNat

end Sys2Proof.Obj
end

