-- ==== Sys2Proof/Machine/Parbel.lean ====
section
/-!
DEFINITION. Parbel (R374 to R385): the module, the words, the forty operations, the native code into which the binder translates a
body, the pages it lies in, and what the binding stub keeps. The binder is runtime code (R378): nothing in step calls this; it says what
the code it writes is. What R379 to R383 leave open is log 71.
-/
namespace Sys2Proof.Parbel

open Sys2Proof.Machine

/-! ### The module (R374) -/

/-- n bytes of a module as a number. -/
def num (m : List Byte) (at_ n : Nat) : Nat := leToNat ((m.drop at_).take n)

/-- The module header: the marks, the body count, the place of the body table. -/
def headerOk (m : List Byte) : Bool :=
  decide (32 ≤ m.length) && num m 0 4 == 0x314C4250 && num m 4 2 == 1 && decide (1 ≤ num m 6 2) && decide (num m 6 2 ≤ 4096) &&
  num m 8 8 % 8 == 0 && num m 16 16 == 0

/-- n bytes of a module through the binder's reads; reason 8 where one fails a check of R23 or meets poison. -/
def readBytes (rd : Nat → Option Byte) (at_ n : Nat) : Except Nat (List Byte) :=
  match (List.range n).mapM fun k => rd (at_ + k) with
  | some bs => .ok bs
  | none => .error 8

/-- The words of body `i` and whether it is a handler, with `rd` what a read of each byte of the module gives: header, body table and
words are read; reason 8 where one cannot be, or the header or the entry breaks R374. -/
def bodyFrom (rd : Nat → Option Byte) (i : Nat) : Except Nat (List Nat × Bool) := do
  let h ← readBytes rd 0 32
  if !headerOk h || !decide (i < num h 6 2) then .error 8
  else
    let t ← readBytes rd (num h 8 8) (16 * num h 6 2)
    let e := (t.drop (16 * i)).take 16
    let off := num e 0 8
    let n := num e 8 4
    if off % 4 != 0 || decide (n < 1) || decide (65536 < n) || decide (1 < num e 12 1) || num e 13 3 != 0 then .error 8
    else
      let ws ← readBytes rd off (4 * n)
      .ok ((List.range n).map fun j => num ws (4 * j) 4, num e 12 1 == 1)

/-- Body `i` of a module that is readable to its end. -/
def body (m : List Byte) (i : Nat) : Except Nat (List Nat × Bool) := bodyFrom (fun k => m[k]?) i

/-! ### The operations (R375, R377) -/

/-- The classes of virtual registers (R376): uniform, lane, mask. -/
inductive Cls where
  | u | v | m
  deriving DecidableEq, Repr

/-- The operations 0x01 to 0x08. -/
inductive UOp where
  | add | sub | mul | and | or | xor | shl | lt
  deriving DecidableEq, Repr

/-- The operations 0x10 to 0x14. -/
inductive VOp where
  | add | mul | and | fadd | fmul
  deriving DecidableEq, Repr

/-- An operation with its operands: virtual register numbers, immediates, branch offsets in words (R377). -/
inductive POp where
  | alu (k : UOp) (d a b : Nat)
  | uli (d imm : Nat)
  | ulih (d imm : Nat)
  | uld (d a : Nat) (n : BitVec 8)
  | ust (a b : Nat) (n : BitVec 8)
  | pb (nz : Bool) (a : Nat) (off : BitVec 16)
  | pjmp (off : BitVec 16)
  | lane (k : VOp) (d a b : Nat)
  | ffma (d a b : Nat)
  | fcvt (d a : Nat)
  | pdot (d a b : Nat)
  | vbcast (d a : Nat)
  | vidx (d : Nat)
  | vld (d a b : Nat)
  | vst (d a b : Nat)
  | vred (fp : Bool) (d a : Nat)
  | vcmp (eq : Bool) (d a b : Nat)
  | pif (a : Nat)
  | pelse
  | pendif
  | psend (a b : Nat)
  | pnext
  | pdone
  | parg (d imm : Nat)
  | pwid (d : Nat)
  | pin (d imm : Nat)
  deriving DecidableEq, Repr

/-- The operation of a word with its register numbers; none for an OP that R377 does not list. -/
def opOf (w d a b : Nat) : Option POp :=
  let imm := w / 2 ^ 16 % 2 ^ 16
  let off : BitVec 16 := BitVec.ofNat 16 (w / 2 ^ 24 % 256 * 256 + w / 2 ^ 8 % 256)
  let d8 : BitVec 8 := BitVec.ofNat 8 (w / 2 ^ 8)
  let b8 : BitVec 8 := BitVec.ofNat 8 (w / 2 ^ 24)
  match w % 256 with
  | 0x01 => some (.alu .add d a b)
  | 0x02 => some (.alu .sub d a b)
  | 0x03 => some (.alu .mul d a b)
  | 0x04 => some (.alu .and d a b)
  | 0x05 => some (.alu .or d a b)
  | 0x06 => some (.alu .xor d a b)
  | 0x07 => some (.alu .shl d a b)
  | 0x08 => some (.alu .lt d a b)
  | 0x09 => some (.uli d imm)
  | 0x0A => some (.ulih d imm)
  | 0x0B => some (.uld d a b8)
  | 0x0C => some (.ust a b d8)
  | 0x0D => some (.pb true a off)
  | 0x0E => some (.pb false a off)
  | 0x0F => some (.pjmp off)
  | 0x10 => some (.lane .add d a b)
  | 0x11 => some (.lane .mul d a b)
  | 0x12 => some (.lane .and d a b)
  | 0x13 => some (.lane .fadd d a b)
  | 0x14 => some (.lane .fmul d a b)
  | 0x15 => some (.ffma d a b)
  | 0x16 => some (.fcvt d a)
  | 0x17 => some (.pdot d a b)
  | 0x18 => some (.vbcast d a)
  | 0x19 => some (.vidx d)
  | 0x1A => some (.vld d a b)
  | 0x1B => some (.vst d a b)
  | 0x1C => some (.vred false d a)
  | 0x1D => some (.vred true d a)
  | 0x20 => some (.vcmp false d a b)
  | 0x21 => some (.vcmp true d a b)
  | 0x22 => some (.pif a)
  | 0x23 => some .pelse
  | 0x24 => some .pendif
  | 0x28 => some (.psend a b)
  | 0x29 => some .pnext
  | 0x2A => some .pdone
  | 0x2B => some (.parg d imm)
  | 0x2C => some (.pwid d)
  | 0x2D => some (.pin d imm)
  | _ => none

/-- The fields D, A and B that an operation uses as an immediate or an offset (R375). -/
def POp.immFields (o : POp) : Bool × Bool × Bool :=
  match o with
  | .uli _ _ | .ulih _ _ | .parg _ _ | .pin _ _ => (false, true, true)
  | .uld _ _ _ => (false, false, true)
  | .ust _ _ _ => (true, false, false)
  | .pb _ _ _ | .pjmp _ => (true, false, true)
  | _ => (false, false, false)

/-- A use of a virtual register by an operation. -/
structure Use where
  reg : Nat
  cls : Cls
  wr : Bool := false
  deriving DecidableEq, Repr

/-- The uses of an operation, reads before writes (R377). `psend` reads eight payload registers. -/
def POp.uses (o : POp) : List Use :=
  let r := fun (c : Cls) (x : Nat) => ({ reg := x, cls := c } : Use)
  let w := fun (c : Cls) (x : Nat) => ({ reg := x, cls := c, wr := true } : Use)
  match o with
  | .alu _ d a b => [r .u a, r .u b, w .u d]
  | .uli d _ => [w .u d]
  | .ulih d _ => [r .u d, w .u d]
  | .uld d a _ => [r .u a, w .u d]
  | .ust a b _ => [r .u a, r .u b]
  | .pb _ a _ => [r .u a]
  | .pjmp _ => []
  | .lane _ d a b => [r .v a, r .v b, w .v d]
  | .ffma d a b => [r .v a, r .v b, r .v d, w .v d]
  | .fcvt d a => [r .v a, w .v d]
  | .pdot d a b => [r .v a, r .v b, r .v d, w .v d]
  | .vbcast d a => [r .u a, w .v d]
  | .vidx d => [w .v d]
  | .vld d a b => [r .u a, r .v b, w .v d]
  | .vst d a b => [r .u a, r .v b, r .v d]
  | .vred _ d a => [r .v a, w .u d]
  | .vcmp _ d a b => [r .v a, r .v b, w .m d]
  | .pif a => [r .m a]
  | .pelse | .pendif | .pnext | .pdone => []
  | .psend a b => r .u a :: (List.range 8).map fun k => r .u (b + k)
  | .parg d _ | .pwid d | .pin d _ => [w .u d]

/-- An operation in a body: the word at which it begins (its prefix's, where it has one), its own word, counted from 1. -/
structure PInst where
  at_ : Nat
  wd : Nat
  op : POp
  deriving DecidableEq, Repr

/-- The operations of a body from word `i` on, `pre` being the prefix before it (R375); reason 1 for an OP or immediate outside R377,
6 for a broken prefix. -/
def parse : List Nat → Option (Nat × Nat × Nat) → Nat → Except Nat (List PInst)
  | [], none, _ => .ok []
  | [], some _, _ => .error 6
  | w :: ws, pre, i =>
    let d := w / 2 ^ 8 % 256
    let a := w / 2 ^ 16 % 256
    let b := w / 2 ^ 24 % 256
    if w % 256 = 0xFF then
      if pre.isSome then .error 6 else parse ws (some (d, a, b)) (i + 1)
    else
      let p := pre.getD (0, 0, 0)
      match opOf w (p.1 * 256 + d) (p.2.1 * 256 + a) (p.2.2 * 256 + b) with
      | none => .error 1
      | some o =>
        let f := o.immFields
        if (f.1 && p.1 != 0) || (f.2.1 && p.2.1 != 0) || (f.2.2 && p.2.2 != 0) then .error 6
        else if (match o with | .pin _ k => decide (7 < k) | _ => false) then .error 1
        else match parse ws none (i + 1) with
          | .error e => .error e
          | .ok r => .ok ({ at_ := if pre.isSome then i - 1 else i, wd := i, op := o } :: r)

/-- The word that a branch names. -/
def PInst.target (x : PInst) : Option Int :=
  match x.op with
  | .pb _ _ off | .pjmp off => some (x.wd + off.toInt)
  | _ => none

/-- Every branch goes to a word of the body that begins an operation (R379 reason 3). -/
def targetsOk (ps : List PInst) : Bool :=
  ps.all fun x => match x.target with
    | some t => ps.any fun y => (y.at_ : Int) == t
    | none => true

/-- The last word is `pdone` or `pjmp` (R379 reason 5). -/
def endOk (ps : List PInst) : Bool :=
  match ps.getLast? with
  | some x => (match x.op with
    | .pdone | .pjmp _ => true
    | _ => false)
  | none => false

/-! ### Register classes and intervals (R376, R380) -/

/-- The class of a register: that of the first operation that writes it, else of the first that reads it. -/
def clsOf (ps : List PInst) (r : Nat) : Option Cls :=
  let us := (ps.map fun x => x.op.uses).flatten.filter fun u => u.reg == r
  ((us.find? fun u => u.wr).orElse fun _ => us.head?).map (·.cls)

/-- R376: every use in the register's class, %0 no M operand, `psend` within %65535 (R379 reason 2). -/
def typesOk (ps : List PInst) : Bool :=
  ps.all fun x => x.op.uses.all fun u => if u.reg = 0 then u.cls != .m else decide (u.reg ≤ 65535) && clsOf ps u.reg == some u.cls

/-- An interval of R380: its register, first and last word, whether its first reference is a read. -/
structure Ival where
  reg : Nat
  fst : Nat
  lst : Nat
  readFirst : Bool := false
  deriving DecidableEq, Repr

/-- The words that refer to a register. -/
def refs (ps : List PInst) (r : Nat) : List Nat := (ps.filter fun x => x.op.uses.any fun u => u.reg == r).map (·.wd)

/-- Each operation with the words that may run after it; `nx` the word of the operation behind it. -/
def flow : List PInst → List (PInst × List Nat)
  | [] => []
  | x :: xs =>
    let nx := (xs.head?.map (·.at_)).toList
    (x, match x.op with
      | .pjmp _ => [(x.target.getD 0).toNat]
      | .pb _ _ _ => (x.target.getD 0).toNat :: nx
      | .pdone => []
      | _ => nx) :: flow xs

/-- The operations, by where they begin, with the numbers of open `pif` (at most 17) under which a path from those of the list reaches them. -/
def depths (fs : List (PInst × List Nat)) : Nat → List (Nat × Nat) → List (Nat × Nat)
  | 0, l => l
  | n + 1, l =>
    let new := (l.map fun y => match fs.find? fun x => x.1.at_ == y.1 with
      | some x => x.2.map fun a => (a, match x.1.op with
        | .pif _ => min 17 (y.2 + 1)
        | .pendif => y.2 - 1
        | _ => y.2)
      | none => []).flatten
    let l' := (l ++ new).eraseDups
    if l'.length = l.length then l else depths fs n l'

/-- A use that leaves nothing of what the register held: a write of a uniform register, or of any where no path has a `pif` open (R376, R377: the lanes outside the mask
keep theirs). -/
def Use.whole (u : Use) (at_ : Nat) (ds : List (Nat × Nat)) : Bool := u.wr && (u.cls == .u || !ds.any fun y => y.1 == at_ && y.2 != 0)

/-- The operations, by where they begin, before which a path to a read of the register passes no whole write to it. -/
def liveIn (fs : List (PInst × List Nat)) (ds : List (Nat × Nat)) (r : Nat) : Nat → List Nat → List Nat
  | 0, l => l
  | n + 1, l => liveIn fs ds r n ((fs.filter fun x =>
      (x.1.op.uses.any fun u => u.reg == r && !u.wr) || (!(x.1.op.uses.any fun u => u.reg == r && u.whole x.1.at_ ds) && x.2.any l.contains)).map (·.1.at_))

/-- One register's interval before loops (R380): from its first to its last reference; from word 1, its register zeroed, where it is
read first: in word order, or on some path from the body's start (R376; DEDUCED, log 71). A word that the value must outlive lies in it, that
of the lanes which a write under a mask leaves out too. -/
def spanOf (ps : List PInst) (r : Nat) : Ival :=
  let ws := refs ps r
  let live := liveIn (flow ps) (depths (flow ps) (18 * ps.length) [(1, 0)]) r (ps.length + 1) []
  let lw := (ps.filter fun x => live.contains x.at_).map (·.wd)
  let rf := (match ps.find? fun x => x.op.uses.any fun u => u.reg == r with
    | some x => x.op.uses.any fun u => u.reg == r && !u.wr
    | none => false) || live.contains 1
  { reg := r, fst := if rf then 1 else lw.foldl min (nth 0 ws 0), lst := lw.foldl max (ws.getLast?.getD 0), readFirst := rf }

/-- The backward branches: their word and the word they go to. -/
def loopsOf (ps : List PInst) : List (Nat × Nat) :=
  ps.filterMap fun x => match x.target with
    | some t => if t ≤ x.wd then some (x.wd, t.toNat) else none
    | none => none

/-- An interval that begins before a loop and is used in it lasts to the loop's end; repeated until nothing changes. One that is read
first begins before every loop, one to word 1 too. -/
def extend (ls : List (Nat × Nat)) (ws : List Nat) : Nat → Ival → Ival
  | 0, v => v
  | n + 1, v =>
    extend ls ws n (ls.foldl (fun v l => if (v.fst < l.2 ∨ v.readFirst) ∧ ws.any (fun w => decide (l.2 ≤ w) && decide (w ≤ l.1)) then { v with lst := max v.lst l.1 } else v) v)

/-- A value in its place in a list, before the first that may stand after it; a list sorted so. -/
def place (le : α → α → Bool) (x : α) : List α → List α
  | [] => [x]
  | y :: ys => if le x y then x :: y :: ys else y :: place le x ys

def sorted (le : α → α → Bool) (l : List α) : List α := l.foldr (place le) []

/-- The numbers of a list, each once, in ascending order. -/
def ascending (l : List Nat) : List Nat :=
  sorted (fun a b => decide (a ≤ b)) (l.foldl (fun k n => if k.contains n then k else n :: k) [])

/-- The virtual registers of a class that a body uses, in ascending order. -/
def regsOf (ps : List PInst) (c : Cls) : List Nat :=
  let rs := ((ps.map fun x => x.op.uses).flatten.filter fun u => u.reg != 0 && u.cls == c).map (·.reg)
  ascending rs

/-- The intervals of a class in order of their start, ties by register. -/
def ivals (ps : List PInst) (c : Cls) : List Ival :=
  let ls := loopsOf ps
  let vs := (regsOf ps c).map fun r => extend ls (refs ps r) (ls.length + 1) (spanOf ps r)
  sorted (fun a b => decide (a.fst < b.fst) || (a.fst == b.fst && decide (a.reg ≤ b.reg))) vs

/-- The intervals live at a word. -/
def liveAt (vs : List Ival) (w : Nat) : List Ival := vs.filter fun v => decide (v.fst ≤ w) && decide (w ≤ v.lst)

/-- The largest number of intervals live at one word. -/
def maxLive (vs : List Ival) : Nat := (vs.map fun v => (liveAt vs v.fst).length).foldl max 0

/-! ### Assignment (R380 to R382) -/

/-- Where a virtual register lives. -/
inductive Home where
  | reg (n : Nat)
  | slot (s : Nat)
  deriving DecidableEq, Repr

/-- The registers of a class: their homes, and how many spill slots are used. -/
structure Alloc where
  homes : List (Nat × Home) := []
  slots : Nat := 0
  deriving DecidableEq, Repr

def Alloc.home (a : Alloc) (r : Nat) : Home := ((a.homes.find? fun x => x.1 == r).map (·.2)).getD (.reg 0)

/-- Put a register in its home. -/
def Alloc.put (a : Alloc) (r : Nat) (h : Home) : Alloc := { a with homes := (r, h) :: a.homes.filter fun x => x.1 != r }

/-- The interval with the latest end, ties to the highest register. -/
def latest : List (Ival × Nat) → Option (Ival × Nat)
  | [] => none
  | x :: xs => match latest xs with
    | none => some x
    | some y => if y.1.lst < x.1.lst ∨ (y.1.lst = x.1.lst ∧ y.1.reg < x.1.reg) then some x else some y

/-- The linear scan (R380): intervals in order, the active ones with their registers, what is assigned. None where an interval must be
spilled and none may be. -/
def scan (pool : List Nat) (pinned : Nat → Bool) (spill : Bool) : List Ival → List (Ival × Nat) → Alloc → Option Alloc
  | [], _, a => some a
  | v :: vs, act, a =>
    let act := act.filter fun x => decide (v.fst ≤ x.1.lst)
    match pool.find? fun n => !act.any fun x => x.2 == n with
    | some n => scan pool pinned spill vs ((v, n) :: act) (a.put v.reg (.reg n))
    | none =>
      match (if spill then latest (((v, 0) :: act).filter fun x => !pinned x.1.reg) else none) with
      | none => none
      | some x =>
        let b := { a.put x.1.reg (.slot a.slots) with slots := a.slots + 1 }
        if x.1.reg = v.reg then scan pool pinned spill vs act b
        else scan pool pinned spill vs ((v, x.2) :: act.filter fun y => y.1.reg != x.1.reg) (b.put v.reg (.reg x.2))

/-- The registers that some `pdot.h2f` names. -/
def dotRegs (ps : List PInst) : List Nat :=
  (ps.map fun x => match x.op with
    | .pdot d a b => [d, a, b].filter (· != 0)
    | _ => []).flatten

def hasDot (ps : List PInst) : Bool := ps.any fun x => match x.op with
  | .pdot _ _ _ => true
  | _ => false

/-- %0 is a V operand of some operation. -/
def zeroV (ps : List PInst) : Bool := ps.any fun x => x.op.uses.any fun u => u.reg == 0 && u.cls == .v

/-- The lane registers (R381, R382): without `pdot.h2f`, %0 and spills every declared register serves; else four are kept as
temporaries. None where the budget does not hold. -/
def allocV (ps : List PInst) (vregs : Nat) : Option Alloc :=
  let vs := ivals ps .v
  let b := vregs / 2 * 2
  let dots := dotRegs ps
  if !hasDot ps && !zeroV ps && decide (maxLive vs ≤ vregs) then scan (List.range (maxLive vs)) (fun _ => false) false vs [] {}
  else if vregs < 6 then none
  else if !(vs.all fun v => decide (((liveAt vs v.fst).filter fun x => dots.contains x.reg).length ≤ b - 4)) then none
  else (scan (List.range (b - 4)) dots.contains true vs [] {}).filter fun a => decide (a.slots ≤ 128)

/-- The scalar registers: x18 to x31, and spills. -/
def allocU (ps : List PInst) : Option Alloc :=
  (scan ((List.range 14).map (· + 18)) (fun _ => false) true (ivals ps .u) [] {}).filter fun a => decide (a.slots ≤ 256)

/-- The mask registers: m1 to m6, no spills. -/
def allocM (ps : List PInst) : Option Alloc := scan ((List.range 6).map (· + 1)) (fun _ => false) false (ivals ps .m) [] {}

/-! ### Native code (R383) -/

/-- A piece of native code: the bits and bytes of an instruction, the start of a word's code, a branch on x[a] being nonzero or zero, a jump. -/
inductive Item where
  | code (bits size : Nat)
  | mark (w : Nat)
  | cond (nz : Bool) (a w : Nat)
  | jump (w : Nat)
  deriving DecidableEq, Repr

/-- RISC-V words by layout. -/
def rWord (f7 f3 rd a b : Nat) : Item := .code (f7 * 2 ^ 25 + b * 2 ^ 20 + a * 2 ^ 15 + f3 * 2 ^ 12 + rd * 2 ^ 7 + 0x33) 4
def iWord (major f3 rd a : Nat) (imm : Int) : Item := .code ((BitVec.ofInt 12 imm).toNat * 2 ^ 20 + a * 2 ^ 15 + f3 * 2 ^ 12 + rd * 2 ^ 7 + major) 4
def addi (rd a : Nat) (imm : Int) : Item := iWord 0x13 0 rd a imm
def mv (rd a : Nat) : Item := addi rd a 0
def slli (rd a sh : Nat) : Item := iWord 0x13 1 rd a sh
def srli (rd a sh : Nat) : Item := iWord 0x13 5 rd a sh
def andi (rd a : Nat) (imm : Int) : Item := iWord 0x13 7 rd a imm
def ld (rd a : Nat) (imm : Int) : Item := iWord 0x03 3 rd a imm
def sd (b a : Nat) (imm : Int) : Item :=
  let i := (BitVec.ofInt 12 imm).toNat
  .code (i / 32 * 2 ^ 25 + b * 2 ^ 20 + a * 2 ^ 15 + 3 * 2 ^ 12 + i % 32 * 2 ^ 7 + 0x23) 4
def lui (rd : Nat) (imm : Int) : Item := .code ((BitVec.ofInt 20 imm).toNat * 2 ^ 12 + rd * 2 ^ 7 + 0x37) 4
def csrr (rd csr : Nat) : Item := .code (csr * 2 ^ 20 + 2 * 2 ^ 12 + rd * 2 ^ 7 + 0x73) 4
def add (rd a b : Nat) : Item := rWord 0 0 rd a b
def bWord (f3 a b : Nat) (off : Int) : Nat :=
  let i := (BitVec.ofInt 13 off).toNat
  i / 4096 * 2 ^ 31 + i / 32 % 64 * 2 ^ 25 + b * 2 ^ 20 + a * 2 ^ 15 + f3 * 2 ^ 12 + i / 2 % 16 * 2 ^ 8 + i / 2048 % 2 * 2 ^ 7 + 0x63
def jWord (off : Int) : Nat :=
  let i := (BitVec.ofInt 21 off).toNat
  i / 2 ^ 20 * 2 ^ 31 + i / 2 % 1024 * 2 ^ 21 + i / 2048 % 2 * 2 ^ 20 + i / 4096 % 256 * 2 ^ 12 + 0x6F

/-- A constant: `addi`, or `lui` and `addi`. -/
def li (rd : Nat) (v : Int) : List Item := if -2048 ≤ v ∧ v < 2048 then [addi rd 0 v] else [lui rd ((v + 2048) / 4096), addi rd rd ((v + 2048) % 4096 - 2048)]

/-- An instruction of the T9's own. -/
def nat (i : Instr) : Item :=
  match encode i with
  | some (.w32 w) => .code w.toNat 4
  | some (.w64 w) => .code w.toNat 8
  | none => .code 0 4

def r5 (n : Nat) : BitVec 5 := BitVec.ofNat 5 n

/-- Instructions that stay together in one page, since a branch among them counts bytes. -/
def fuse : List Item → Item
  | [] => .code 0 0
  | x :: xs => match x, fuse xs with
    | .code b n, .code c k => .code (b + c * 2 ^ (8 * n)) (n + k)
    | y, _ => y

/-- Lane loads and stores of a spill slot, lane l at + 4 l of 128 s(x4). -/
def vSlot (s : Nat) : L64 := { imm15 := BitVec.ofNat 15 (128 * s), ib := 1, ty := 2, a := 4 }
def vReload (v s : Nat) : Item := nat (.lldW { vSlot s with d := r5 v })
def vSpill (v s : Nat) : Item := nat (.lstW { vSlot s with c := r5 v })
def uSlot (s : Nat) : Int := -8 * (s + 1)

/-- What the translation of a body has settled: the three assignments, the first temporary, the payload words that `pin` names and the U
slots that keep them where the body also sends. -/
structure Plan where
  u : Alloc
  v : Alloc
  m : Alloc
  t : Nat
  pins : List Nat
  keep : Bool
  deriving DecidableEq, Repr

/-- A U source in position 0 to 2: its code, its native register. -/
def Plan.srcU (p : Plan) (pos r : Nat) : List Item × Nat :=
  if r = 0 then ([], 0) else match p.u.home r with
    | .reg n => ([], n)
    | .slot s => ([ld (5 + pos) 4 (uSlot s)], 5 + pos)

/-- A U destination: the code before, the native register, the code after. -/
def Plan.dstU (p : Plan) (r : Nat) : List Item × Nat × List Item :=
  if r = 0 then ([], 0, []) else match p.u.home r with
    | .reg n => ([], n, [])
    | .slot s => ([ld 7 4 (uSlot s)], 7, [sd 7 4 (uSlot s)])

/-- A V source in position 0 to 2; a read of %0 takes its zero from a temporary (R381). -/
def Plan.srcV (p : Plan) (pos r : Nat) : List Item × Nat :=
  if r = 0 then ([nat (.lli { ib := 1, d := r5 (p.t + pos) })], p.t + pos) else match p.v.home r with
    | .reg n => ([], n)
    | .slot s => ([vReload (p.t + pos) s], p.t + pos)

/-- A V destination; `rd` for one that is read too. -/
def Plan.dstV (p : Plan) (rd : Bool) (r : Nat) : List Item × Nat × List Item :=
  if r = 0 then (if rd then [nat (.lli { ib := 1, d := r5 (p.t + 3) })] else [], p.t + 3, []) else match p.v.home r with
    | .reg n => ([], n, [])
    | .slot s => ([vReload (p.t + 3) s], p.t + 3, [vSpill (p.t + 3) s])

def Plan.mReg (p : Plan) (r : Nat) : Nat :=
  match p.m.home r with
  | .reg n => n
  | .slot _ => 0

/-- Rounding to nearest even in the md field (R187). -/
def rne (d a b c : Nat) : L64 := { md := 1, d := r5 d, a := r5 a, b := r5 b, c := r5 c }

/-- The words of the message that the body's `pin`s name, into x10 upward (R383). -/
def Plan.pinLoad (p : Plan) : List Item :=
  if p.pins.isEmpty then []
  else [csrr 5 0xCC4, srli 5 5 32, andi 5 5 15] ++ (p.pins.map fun (k : Nat) =>
    [addi 6 0 (k : Int), fuse [.code (bWord 7 6 5 12) 4, nat (.imv (r5 (10 + k)) (r5 k)), .code (jWord 8) 4, addi (10 + k) 0 0]]).flatten ++
    (if p.keep then p.pins.zipIdx.map fun (k, i) => sd (10 + k) 4 (uSlot (p.u.slots + i)) else [])

/-- `psend` (R383): NW, read as it runs, selects an entry of a branch table; the entry for n jumps to the last n of the eight words' moves, the
payload's last first, and `msend` follows them. A spilled header is in x5, a spilled word of the payload comes through x6; x6 and x7 find the entry. -/
def Plan.send (p : Plan) (a b : Nat) : List Item :=
  let (ca, ra) := p.srcU 0 a
  let moves := (List.range 8).map fun k =>
    let (cb, rb) := p.srcU 1 (b + k)
    cb ++ [mv (10 + k) rb]
  let from_ := fun (n : Nat) => 76 + 4 * ((moves.drop n).map (·.length)).foldl (· + ·) 0
  let table := (List.range 16).map fun (i : Nat) => Item.code (jWord ((from_ (min i 8) : Nat) - (12 + 4 * (i : Int)))) 4
  ca ++ [srli 6 ra 32, andi 6 6 15, slli 6 6 2,
    fuse ([.code (7 * 2 ^ 7 + 0x17) 4, add 7 7 6, iWord 0x67 0 0 7 12] ++ table ++ moves.reverse.flatten ++ [nat (.msend (r5 ra))])] ++
    (if p.keep then p.pins.zipIdx.map fun (k, i) => ld (10 + k) 4 (uSlot (p.u.slots + i)) else [])

/-- funct7 and funct3 of the operations 0x01 to 0x08. -/
def UOp.funct (k : UOp) : Nat × Nat :=
  match k with
  | .add => (0, 0)
  | .sub => (0x20, 0)
  | .mul => (1, 0)
  | .and => (0, 7)
  | .or => (0, 6)
  | .xor => (0, 4)
  | .shl => (0, 1)
  | .lt => (0, 2)

/-- The native code of one operation (R377, R383). -/
def Plan.emit (p : Plan) (x : PInst) : List Item :=
  let toV := fun (rd : Bool) (d : Nat) (f : Nat → List Item) => let (a, r, z) := p.dstV rd d; a ++ f r ++ z
  let toU := fun (d : Nat) (f : Nat → List Item) => let (a, r, z) := p.dstU d; a ++ f r ++ z
  match x.op with
  | .alu k d a b =>
    let (ca, ra) := p.srcU 0 a
    let (cb, rb) := p.srcU 1 b
    ca ++ cb ++ toU d fun r => [rWord k.funct.1 k.funct.2 r ra rb]
  | .uli d imm => toU d fun r => li r (BitVec.ofNat 16 imm).toInt
  | .ulih d imm => toU d fun r =>
    [slli r r 16, lui 5 ((imm + 2048) / 4096), addi 5 5 (((imm : Int) + 2048) % 4096 - 2048), rWord 0 6 r r 5]
  | .uld d a n =>
    let (ca, ra) := p.srcU 0 a
    ca ++ toU d fun r => [ld r ra (8 * n.toInt)]
  | .ust a b n =>
    let (ca, ra) := p.srcU 0 a
    let (cb, rb) := p.srcU 1 b
    ca ++ cb ++ [sd rb ra (8 * n.toInt)]
  | .pb nz a _ =>
    let (ca, ra) := p.srcU 0 a
    ca ++ [.cond nz ra (x.target.getD 0).toNat]
  | .pjmp _ => [.jump (x.target.getD 0).toNat]
  | .lane k d a b =>
    let (ca, ra) := p.srcV 0 a
    let (cb, rb) := p.srcV 1 b
    ca ++ cb ++ toV false d fun r => [nat (match k with
      | .add => .ladd { d := r5 r, a := r5 ra, b := r5 rb }
      | .mul => .lmul { d := r5 r, a := r5 ra, b := r5 rb }
      | .and => .land { d := r5 r, a := r5 ra, b := r5 rb }
      | .fadd => .lfadd (rne r ra rb 0)
      | .fmul => .lfmul (rne r ra rb 0))]
  | .ffma d a b =>
    let (ca, ra) := p.srcV 0 a
    let (cb, rb) := p.srcV 1 b
    ca ++ cb ++ toV true d fun r => [nat (.lffma (rne r ra rb r))]
  | .fcvt d a =>
    let (ca, ra) := p.srcV 0 a
    ca ++ toV false d fun r => [nat (.lfcvt (rne r ra 0 4))]
  | .pdot d a b =>
    let (ca, ra) := p.srcV 0 a
    let (cb, rb) := p.srcV 2 b
    let t := p.t
    let halves := [nat (.lfcvt (rne t ra 0 2)), nat (.lfcvt (rne (t + 2) rb 0 2))]
    ca ++ cb ++ halves ++
      (if d = 0 then [nat (.lfmul (rne t t (t + 2) 0)), nat (.lffma (rne t (t + 1) (t + 3) t))]
       else toV true d fun r => [nat (.lffma (rne r t (t + 2) r)), nat (.lffma (rne r (t + 1) (t + 3) r))])
  | .vbcast d a =>
    let (ca, ra) := p.srcU 0 a
    ca ++ toV false d fun r => [nat (.lbcast { d := r5 r, a := r5 ra })]
  | .vidx d => toV false d fun r => [nat (.lidx { d := r5 r })]
  | .vld d a b =>
    let (ca, ra) := p.srcU 0 a
    let (cb, rb) := p.srcV 1 b
    ca ++ cb ++ toV false d fun r => [nat (.lldW { ty := 2, d := r5 r, a := r5 ra, b := r5 rb })]
  | .vst d a b =>
    let (ca, ra) := p.srcU 0 a
    let (cb, rb) := p.srcV 1 b
    let (cd, rd) := p.srcV 2 d
    ca ++ cb ++ cd ++ [nat (.lstW { ty := 2, c := r5 rd, a := r5 ra, b := r5 rb })]
  | .vred fp d a =>
    let (ca, ra) := p.srcV 0 a
    ca ++ toU d fun r => [nat (if fp then .lredFadd (rne r ra 0 0) else .lredAdd { d := r5 r, a := r5 ra })]
  | .vcmp eq d a b =>
    let (ca, ra) := p.srcV 0 a
    let (cb, rb) := p.srcV 1 b
    let f : L64 := { d := r5 (p.mReg d), a := r5 ra, b := r5 rb }
    ca ++ cb ++ [nat (if eq then .lcmpEq f else .lcmpLt f)]
  | .pif a => [nat (.mpush (r5 (p.mReg a)))]
  | .pelse => [nat .minv]
  | .pendif => [nat .mpop]
  | .psend a b => p.send a b
  | .pnext => nat .mnext :: p.pinLoad
  | .pdone => [nat .hdone]
  | .parg d imm => toU d fun r =>
    let q := if r = 0 then 7 else r
    csrr q 0xCC9 :: (if 8 * imm < 2048 then [ld q q (8 * imm)] else li 5 (8 * imm) ++ [add q q 5, ld q q 0])
  | .pwid d => toU d fun r => [csrr r 0xCC0]
  | .pin d k => toU d fun r => [mv r (10 + k)]

/-- The prologue (R383): x4 where slots are used, zeros in every slot and in the registers of the intervals that are read first. -/
def Plan.prologue (p : Plan) (ps : List PInst) : List Item :=
  let us := p.u.slots + (if p.keep then p.pins.length else 0)
  let base := if us = 0 ∧ p.v.slots = 0 then []
    else [.code (5 * 2 ^ 7 + 0x17) 4, srli 5 5 16, slli 5 5 16, csrr 6 0xCC2, srli 7 6 4, slli 7 7 55, srli 7 7 52, add 5 5 7, ld 4 5 0,
      andi 6 6 15] ++ li 5 18432 ++ [rWord 1 0 6 6 5, add 4 4 6, addi 4 4 2047, addi 4 4 1]
  base ++ ((List.range p.v.slots).map fun (s : Nat) => li 5 ((128 * s : Nat) : Int) ++ [add 5 5 4] ++ (List.range 16).map fun (j : Nat) => sd 0 5 ((8 * j : Nat) : Int)).flatten ++
    ((List.range us).map fun s => sd 0 4 (uSlot s)) ++
    ((ivals ps .u).filter (·.readFirst)).filterMap (fun v => match p.u.home v.reg with | .reg n => some (addi n 0 0) | .slot _ => none) ++
    ((ivals ps .v).filter (·.readFirst)).filterMap (fun v => match p.v.home v.reg with | .reg n => some (nat (.lli { ib := 1, d := r5 n })) | .slot _ => none) ++
    ((ivals ps .m).filter (·.readFirst)).map fun v => nat (.mset (r5 (p.mReg v.reg)) 0)

/-- The size of an item: a branch whose target is near, one through a `jal`, one through `auipc` and `jalr`; `long` names an item once
for each step up. -/
def Item.size (long : List Nat) (i : Nat) (x : Item) : Nat :=
  match x with
  | .code _ n => n
  | .mark _ => 0
  | .cond _ _ _ => 4 + 4 * long.count i
  | .jump _ => 4 + 4 * long.count i

/-- Where a piece of `n` bytes goes when `at_` is free: the code of a page begins behind its table of 4,096 bytes, and four bytes stay
free for the jump to the next page (R383). -/
def fit (at_ n : Nat) : Nat := if at_ % 65536 + n + 4 ≤ 65536 then at_ else (at_ / 65536 + 1) * 65536 + 4096

/-- The items with their places, counted from the first page's first byte. -/
def placed (long : List Nat) : List Item → Nat → Nat → List (Nat × Nat × Item)
  | [], _, _ => []
  | x :: xs, i, at_ =>
    let n := x.size long i
    (i, fit at_ n, x) :: placed long xs (i + 1) (fit at_ n + n)

/-- The place of a word's code. -/
def markAt (l : List (Nat × Nat × Item)) (w : Nat) : Int :=
  match l.find? fun x => x.2.2 == .mark w with
  | some x => x.2.1
  | none => 0

/-- The step that a branch needs: its target within reach of the branch, of a `jal`, or neither. -/
def Item.need (x : Item) (q : List (Nat × Nat × Item)) (at_ : Nat) : Nat :=
  let far := fun (o : Int) => decide (o < -1048576) || decide (1048574 < o)
  match x with
  | .cond _ _ w => let o := markAt q w - at_; if -4096 ≤ o ∧ o ≤ 4094 then 0 else if far (o - 4) then 2 else 1
  | .jump w => if far (markAt q w - at_) then 1 else 0
  | .code _ _ | .mark _ => 0

/-- The branches that need a longer form; each round lengthens what the last one moved out of reach. -/
def longs (items : List Item) : Nat → List Nat → List Nat
  | 0, l => l
  | n + 1, l =>
    let q := placed l items 0 4096
    longs items n (l ++ (q.filter fun x => decide (l.count x.1 < x.2.2.need q x.2.1)).map (·.1))

/-- A jump over any distance, with x5 between. -/
def farJump (o : Int) : List Byte :=
  natToLe 4 ((BitVec.ofInt 20 ((o + 2048) / 4096)).toNat * 2 ^ 12 + 5 * 2 ^ 7 + 0x17) ++
    (match iWord 0x67 0 0 5 ((o + 2048) % 4096 - 2048) with
      | .code b n => natToLe n b
      | _ => [])

/-- The bytes of a list of items with their places, and before an item that begins a new page the jump there from the last one. -/
def pieces (l : List Nat) (q : List (Nat × Nat × Item)) : List (Nat × Nat × Item) → Nat → List (Nat × List Byte)
  | [], _ => []
  | (i, at_, x) :: rest, free =>
    let bs := match x with
      | .code b n => natToLe n b
      | .mark _ => []
      | .cond nz a w =>
        let o := markAt q w - at_
        match l.count i with
        | 0 => natToLe 4 (bWord (if nz then 1 else 0) a 0 o)
        | 1 => natToLe 4 (bWord (if nz then 0 else 1) a 0 8) ++ natToLe 4 (jWord (o - 4))
        | _ => natToLe 4 (bWord (if nz then 0 else 1) a 0 12) ++ farJump (o - 4)
      | .jump w =>
        let o := markAt q w - at_
        if l.count i = 0 then natToLe 4 (jWord o) else farJump o
    (if at_ = free then [] else [(free, natToLe 4 (jWord ((at_ : Int) - free)))]) ++ (at_, bs) :: pieces l q rest (at_ + bs.length)

/-- The native code of a list of items, by pages: the code behind each page's table. -/
def assemble (items : List Item) : List (List Byte) :=
  let l := longs items (2 * items.length) []
  let q := placed l items 0 4096
  let ps := pieces l q q 4096
  (List.range ((ps.foldl (fun n x => max n x.1) 0) / 65536 + 1)).map fun k => ((ps.filter fun x => x.1 / 65536 == k).map (·.2)).flatten

/-- What the translation settles before any code: the reasons of R379 in the order 1 and 6, 3, 5, 2, 4. -/
def plan (vregs : Nat) (words : List Nat) : Except Nat (List PInst × Plan) :=
  match parse words none 1 with
  | .error e => .error e
  | .ok ps =>
    if !targetsOk ps then .error 3
    else if !endOk ps then .error 5
    else if !typesOk ps then .error 2
    else match allocU ps, allocV ps vregs, allocM ps with
      | some u, some v, some m =>
        let pins := ascending (ps.filterMap fun x => match x.op with | .pin _ k => some k | _ => none)
        let sends := ps.any fun x => match x.op with | .psend _ _ => true | _ => false
        let keep := sends && !pins.isEmpty
        if keep && decide (256 < u.slots + pins.length) then .error 4
        else .ok (ps, { u := u, v := v, m := m, t := vregs / 2 * 2 - 4, pins := pins, keep := keep })
      | _, _, _ => .error 4

/-- The native code of a body under a KCB's VREGS, by pages, or the reason for which binding fails (R379). -/
def translate (vregs : Nat) (words : List Nat) : Except Nat (List (List Byte)) :=
  match plan vregs words with
  | .error e => .error e
  | .ok (ps, p) => .ok (assemble (p.prologue ps ++ p.pinLoad ++ (ps.map fun x => .mark x.at_ :: p.emit x).flatten))

/-- The binding of body `i` of the module that `rd` reads (R378); reason 7 where the binder cannot write native code or spill areas. -/
def bindFrom (rd : Nat → Option Byte) (writable : Bool) (vregs i : Nat) : Except Nat (List (List Byte)) := do
  let (ws, _) ← bodyFrom rd i
  let code ← translate vregs ws
  if writable then .ok code else .error 7

/-- The binding of body `i` of a module that is readable to its end. -/
def bind (m : List Byte) (vregs i : Nat) : Except Nat (List (List Byte)) := bindFrom (fun k => m[k]?) true vregs i

/-- A page of native code (R383): the table of the cores' spill regions, then the code. -/
def codePage (regions : List Word) (code : List Byte) : List Byte :=
  ((List.range 512).map fun k => natToLe 8 (nth 0 regions k).toNat).flatten ++ code

/-- The pages of a body's native code. -/
def codePages (regions : List Word) (code : List (List Byte)) : List (List Byte) := code.map (codePage regions)

/-- A hart's spill area: `x4` (R383). -/
def spillBase (region : Word) (hartNo : Nat) : Word := region + word (18432 * hartNo + 2048)

/-- A binding entry (R384): state 0 unbound, 1 translating, 2 bound, 3 failed; the reason; the native PC. -/
structure Entry where
  st : Nat := 0
  reason : Nat := 0
  pc : Word := 0
  deriving DecidableEq, Repr

/-- The two words of a binding entry. -/
def Entry.words (e : Entry) : Word × Word := (word (e.st % 4 + (if e.st = 3 then e.reason % 256 else 0) * 256), if e.st = 2 then e.pc else 0)

/-- The entry after a translation that put its code at `pc` (R385). -/
def Entry.bound (r : Except Nat (List (List Byte))) (pc : Word) : Entry :=
  match r with
  | .ok _ => { st := 2, pc := pc }
  | .error e => { st := 3, reason := e }

/-- The leaf of an entry's gate page (R384): V = 0 until the entry is bound, then a leaf that lets the 64 KiB frame `ppn` be read. -/
def Entry.gateLeaf (e : Entry) (dom ppn : Nat) : Word :=
  if e.st = 2 then word (1 + 2 + 4 + ppn % 2 ^ 36 * 2 ^ 20 + dom % 256 * 2 ^ 56) else 0

/-- The gate page: its first word holds the native PC. -/
def Entry.gatePage (e : Entry) : List Byte := natToLe 8 e.pc.toNat ++ List.replicate 65528 0

/-- What a hart that reaches the body does (R385): translate, run the native code, or load the gate page's first word. -/
inductive Stub where
  | translate | jump (pc : Word) | gate
  deriving DecidableEq, Repr

/-- The binding stub: the entry after it, and what the hart does. -/
def Entry.reach (e : Entry) : Entry × Stub :=
  if e.st = 0 then ({ e with st := 1 }, .translate) else if e.st = 2 then (e, .jump e.pc) else (e, .gate)

/-- The payload of the bound notice (R385). -/
def boundNotice (entry : Word) : List Word := [word (1 + 2 * 2 ^ 16), entry, 0]

end Sys2Proof.Parbel
end

