-- ==== Sys2Proof/Tests/Slice0.lean ====
section
/-!
SUPPORT. Tests. The checks of WellFormed each refuse an ill-formed term; words written out from the encodings of spec/ decode to the instructions it
gives them for; a few worked results of spec/; and for the statements with hypotheses, states and operands that meet them (wit_…).
-/
namespace Sys2Proof.Tests
set_option Elab.async false
open Sys2Proof Sys2Proof.Machine

/-! ### The decode checks -/

/-- An ill-formed term for each check: pm and pn, type, md, pairs, operand b, unused fields, mask registers, groups of registers, scopes,
tile register codes, immediates with reserved bits. -/
theorem wf_refuses :
    ([ .ladd { pn := 1 }, .ladd { ty := 2 }, .ladd { md := 6 }, .ladd { ty := 1, d := 1 }, .ladd { ty := 1, a := 3 }, .ladd { ty := 1, b := 5 }
     , .ladd { ib := 1, b := 1 }, .ladd { imm15 := 1 }, .ladd { c := 1 }, .lmul { md := 1 }, .lmadd { ty := 1, c := 1 }, .labs { b := 1 }, .lclz { md := 6 }
     , .lsel { c := 8 }, .lli { ib := 0 }, .lbcast { ib := 1 }, .lext { ib := 1, imm15 := 32 }, .lidx { ty := 1 }
     , .lfadd { ty := 4 }, .lfadd { md := 7 }, .lfadd { ib := 1 }, .lffma { ty := 1, c := 1 }, .lfsqrt { md := 6 }, .lfrcp { ty := 1 }, .lfmin { md := 1 }
     , .lfcvt { ty := 0, c := 0 }, .lfcvt { ty := 4, c := 5 }, .lfcvt { ty := 4, c := 0, md := 6 }, .lfcvt { ty := 1, c := 0, d := 1 }
     , .lldW { ty := 5 }, .lldD { d := 1 }, .lldQ { d := 2 }, .lldW { md := 3 }, .lldW { c := 1 }, .lstQ { c := 2 }, .lstW { d := 1 }, .lprf { md := 4 }
     , .lzero { md := 1 } ] : List Instr).all (fun i => !i.wf) = true := by decide

theorem wf_refuses_more :
    ([ .lamoAddW { ty := 0 }, .lamoAddW { ty := 6 }, .lamoAddD { ty := 1, c := 1 }, .lamoAddW { ty := 1, md := 1 }
     , .lcmpEq { d := 8 }, .lfcmpEq { ib := 1 }, .lshflUp { ib := 1, b := 1 }, .lredAdd { md := 1 }, .lredFadd { md := 6 }, .lscanAdd { ty := 1, d := 1 }
     , .lcomp { ty := 1 }, .tallocImm { ib := 1, imm15 := 0x4000 }, .tallocReg { ib := 1 }, .thdr { d := 1 }, .tst { ty := 3 }, .tst { ty := 1, c := 1 }
     , .tseal { ty := 0 }, .tdrop { b := 1 }, .tld { d := 8 }, .tinfo { imm15 := 4 }, .tinfo { imm15 := 3, a := 1 }, .tinfoT { ty := 1, a := 16 }
     , .tldl { imm15 := 0x2000 }, .tmma { d := 7, b := 4 }, .tmma { d := 8, b := 3 }, .tmma { d := 8, b := 4, a := 4 }, .tzero { d := 0 }, .taccLd { d := 16 }
     , .taccLrd { a := 7 }, .tquizNone { imm15 := 16 }, .tquizRun { imm15 := 0 }, .tquizClear { imm15 := 0x107 }, .mand 8 0 0, .mand 0 8 0, .mset 8 0
     , .mget 0 8, .mpush 8, .bbrd 0 16, .bbwr 16 0, .imv 0 8, .iwr 8 0 0, .kfence 0 6, .msendL 0 1, .cprd 29, .cpq 29, .cpwm 16 0 0, .clause 0 0 0 16
     , .scalarAtomic { kind := .lr, dbl := false, aq := false, rl := false, rs2 := 1, rs1 := 0, rd := 0 } ] : List Instr).all (fun i => !i.wf) = true := by
  decide

/-! ### Words written out from the encodings -/

/-- The L64 examples of R185, R187, R195, R223, R227, R245, R248, R256. -/
theorem decode_lane :
    decodeTableWord 64 0x0000400E883110BF = some (.lffma { d := 1, a := 2, b := 3, c := 4, md := 2, pm := 2, pn := 1 }) ∧
    decodeTableWord 64 0x00010810000520BF = some (.lldW { d := 1, a := 10, ty := 2, ib := 1 }) ∧
    decodeTableWord 64 0x000108280405A03F = some (.lstW { c := 2, a := 11, ty := 2, ib := 1 }) ∧
    decodeTableWord 64 0x0000384C0002143F = some (.lfcvt { d := 8, a := 4, md := 1, ty := 6 }) ∧
    decodeTableWord 64 0x00010008_0000B0BF = some (.lcmpLt { d := 1, a := 1, ib := 1 }) ∧
    decodeTableWord 64 0xFFFF0010_0000813F = some (.lmul { d := 2, a := 1, ib := 1, imm15 := 0x7FFF }) ∧
    decodeTableWord 64 0x00030040_0000813F = some (.lsll { d := 2, a := 1, ib := 1, imm15 := 1 }) := by decide +kernel

theorem decode_tile :
    decodeTableWord 64 0x000000340040443F = some (.tmma { d := 8, b := 4 }) ∧
    decodeTableWord 64 0x000010100002C03F = some (.tseal { a := 5, ty := 4 }) ∧
    decodeTableWord 64 0x01070000000042BF = some (.tallocImm { d := 5, ib := 1, imm15 := 0x083 }) := by decide +kernel

/-- The S32 examples: masks (R225 to R227), the clause header and `waitf` (R193, R195). -/
theorem decode_masks :
    decodeTableWord 32 0x0030008B = some (.mand 1 0 3) ∧ decodeTableWord 32 0x1400800B = some (.mpush 1) ∧
    decodeTableWord 32 0x1600000B = some .minv ∧ decodeTableWord 32 0x1800000B = some .mpop ∧ decodeTableWord 32 0x0000160B = some (.mbz 0 6) ∧
    decodeTableWord 32 0x210091FB = some (.clause 2 1 9 3) ∧ decodeTableWord 32 0x0020102B = some (.waitf 2) := by decide +kernel

/-- The table of custom-1 and custom-2 forms of spec/10. -/
theorem decode_sync :
    decodeTableWord 32 0x000182AB = some (.bbrd 5 3) ∧ decodeTableWord 32 0x020281AB = some (.bbwr 3 5) ∧
    decodeTableWord 32 0x040102AB = some (.imv 5 2) ∧ decodeTableWord 32 0x0673012B = some (.iwr 2 6 7) ∧
    decodeTableWord 32 0x0800002B = some .hdone ∧ decodeTableWord 32 0x0055202B = some (.barCfg 5 10) ∧
    decodeTableWord 32 0x1850202B = some (.barSync 5) ∧ decodeTableWord 32 0x285322AB = some (.barTest 5 5 6) ∧
    decodeTableWord 32 0x0320302B = some (.kfence 6 2) ∧ decodeTableWord 32 0x0055402B = some (.rollc 5 10) ∧
    decodeTableWord 32 0x0000502B = some .kscrub ∧ decodeTableWord 32 0x0405502B = some (.kctxLd 10) := by decide +kernel

theorem decode_messages :
    decodeTableWord 32 0x0002805B = some (.msend 5) ∧ decodeTableWord 32 0x0302805B = some (.msendL 5 16) ∧
    decodeTableWord 32 0x0400005B = some .mnext ∧ decodeTableWord 32 0x0673005B = some (.qpush 6 7) ∧
    decodeTableWord 32 0x0803045B = some (.qpop 8 6) ∧ decodeTableWord 32 0x0A0504DB = some (.hpassArm 9 10) ∧
    decodeTableWord 32 0x0C06005B = some (.cprd 12) ∧ decodeTableWord 32 0x0E0A005B = some (.cpq 20) ∧
    decodeTableWord 32 0x100A02DB = some (.cpqNb 5 20) ∧ decodeTableWord 32 0x12B501DB = some (.cpwm 3 10 11) ∧
    decodeTableWord 32 0x140001DB = some (.cpcls 3) ∧ decodeTableWord 32 0x160502DB = some (.launch 5 10) := by decide +kernel

/-- The standard forms, and a CSR access (`csrrs x9, 0xCC9, x0`). -/
theorem decode_scalar :
    decodeTableWord 32 0x0004B503 = some (.scalarLoad { kind := .ld, rd := 10, rs1 := 9, imm := 0 }) ∧
    decodeTableWord 32 0x30200073 = some .mret ∧ decodeTableWord 32 0x10200073 = some .sret ∧ decodeTableWord 32 0x10500073 = some .wfi ∧
    decodeTableWord 32 0x0100000F = some .pause ∧ decodeTableWord 32 0x0000100F = some .fenceI ∧
    decodeTableWord 32 0xCC9024F3 = some (.registerWrite (.csr 0xCC9 { kind := .rs, imm := false, src := 0, rd := 9 })) := by decide +kernel

/-! ### States for one step -/

/-- The next state of an outcome. -/
def nextOf (o : Host.Outcome State Fault Refusal) : Option State :=
  match o with
  | .next t => some t
  | _ => none

/-- The state that is empty but for hart 0. -/
def mini (x : Hart) : State := ({} : State).setHart 0 x

/-- A hart in M mode with lanes 0 and 31 active, v1 = 5, 9 and v2 = 7, 2 there, x10 = 0x1000, x11 = 0x2000, x12 = 3. -/
def hA : Hart :=
  { live := true, m := [(0, 0x80000001), (1, 1)], v := [(32, 5), (63, 9), (64, 7), (95, 2)], x := [(10, 0x1000), (11, 0x2000), (12, 3)], ilen := 8 }

def sA : State := mini hA

/-- The same with every lane inactive, and with FS off. -/
def sIdle : State := mini { hA with m := [] }
def sOff : State := mini { hA with csr := { mstatus := 0 } }

/-- x[n] and element l of v[n] after a step. -/
def xOf (o : Host.Outcome State Fault Refusal) (n : Nat) : Option Word := (nextOf o).map fun t => t.me.getX n
def vOf (o : Host.Outcome State Fault Refusal) (n l : Nat) : Option Elem := (nextOf o).map fun t => t.me.getV n l

/-! ### Worked results -/

/-- R217's example: the field of LEN 10 at POS 8 of 0xABCE1234. -/
theorem test_lbfx :
    let h : Hart := { live := true, m := [(0, 1)], v := [(32, 0xABCE1234), (64, 0x288)] }
    vOf (exec (.lbfx { d := 3, a := 1, b := 2 }) (mini h)) 3 0 = some 0x212 ∧
    vOf (exec (.lbfx { d := 3, a := 1, b := 2, md := 6 }) (mini h)) 3 0 = some 0xFFFFFE12 := by decide +kernel

/-- R231's example: `lcomp` under mask 0xB4 with 100 in every lane. -/
theorem test_lcomp :
    let h : Hart := { live := true, m := [(0, 0xB4)], v := (List.range 32).map fun l => (32 + l, 100) }
    (nextOf (exec (.lcomp { d := 3, a := 1 }) (mini h))).map (fun t => [t.me.getV 3 2, t.me.getV 3 4, t.me.getV 3 5, t.me.getV 3 7, t.me.getV 3 3]) =
      some [100, 101, 102, 103, 0] := by decide +kernel

/-- R215, R216: a wrap, a saturation, a division by zero, a source that is the destination. -/
theorem test_lane_int :
    let h : Hart := { live := true, m := [(0, 1)], v := [(32, 0x7FFFFFFF), (64, 1)] }
    vOf (exec (.ladd { d := 1, a := 1, b := 2 }) (mini h)) 1 0 = some 0x80000000 ∧
    vOf (exec (.ladds { d := 3, a := 1, b := 2 }) (mini h)) 3 0 = some 0x7FFFFFFF ∧
    vOf (exec (.ldiv { d := 3, a := 1, b := 4 }) (mini h)) 3 0 = some 0xFFFFFFFF ∧
    vOf (exec (.lrem { d := 3, a := 1, b := 4 }) (mini h)) 3 0 = some 0x7FFFFFFF := by decide +kernel

/-- R220: 1.5 + 0.25 = 1.75, 1 / 0 = infinity with DZ, in FP32. -/
theorem test_lane_fp :
    let h : Hart := { live := true, m := [(0, 1)], v := [(32, 0x3FC00000), (64, 0x3E800000)] }
    vOf (exec (.lfadd { d := 3, a := 1, b := 2 }) (mini h)) 3 0 = some 0x3FE00000 ∧
    vOf (exec (.lfdiv { d := 3, a := 1, b := 4 }) (mini h)) 3 0 = some 0x7F800000 ∧
    (nextOf (exec (.lfdiv { d := 3, a := 1, b := 4 }) (mini h))).map (fun t => t.me.fflags) = some 8 := by decide +kernel

/-- R224, R225: the signed compare of lane 0; the number of active lanes. -/
theorem test_masks :
    (nextOf (exec (.lcmpLt { d := 1, a := 1, b := 2 }) sA)).map (fun t => t.me.getM 1) = some 1 ∧
    xOf (exec (.mcnt 5 0) sA) 5 = some 2 ∧ xOf (exec (.mffs 5 2) sA) 5 = some 32 := by decide +kernel

/-- R177, R7: a doubleword stored by `sd` reads back byte by byte, the least significant byte at the lowest address. -/
theorem test_store :
    (nextOf (exec (.scalarStore { kind := .sd, rs2 := 11, rs1 := 10, imm := 1#12 + 7 }) sA)).map (fun t => rawBytes t 0x1008 3) =
      some [0x00, 0x20, 0x00] ∧
    (nextOf (exec (.lstW { c := 1, a := 10, ib := 1, ty := 2 }) sA)).map (fun t => rawBytes t 0x1000 4 ++ rawBytes t 0x107C 4) = some [5, 0, 0, 0, 9, 0, 0, 0] := by decide +kernel

/-- R313: `ecall` from U mode saves pc and the cause 8, and goes on at mtvec in M mode. -/
theorem test_ecall :
    let h : Hart := { live := true, priv := .u, pc := 0x500, csr := { mtvec := 0x8000 } }
    (nextOf (execBase .ecall (mini h))).map (fun t => (t.me.pc, t.me.csr.mepc, t.me.csr.mcause, t.me.priv)) = some (0x8000, 0x500, 8, .m) := by
  decide +kernel

/-- R178: reads of misa and marchid; an M-mode register is illegal in U mode (cause 2). -/
theorem test_csr :
    xOf (exec (.registerWrite (.csr 0x301 { kind := .rs, imm := false, src := 0, rd := 5 })) sA) 5 = some 0x800000000094112D ∧
    (nextOf (exec (.registerWrite (.csr 0x300 { kind := .rs, imm := false, src := 0, rd := 5 })) (mini { hA with priv := .u }))).map
      (fun t => t.me.csr.mcause) = some 2 := by decide +kernel

/-- An instruction placed where the machine fetches runs as the first after reset (`mand m1, m0, m3`; a lane load). -/
theorem test_first :
    ((nextOf (step (State.reset.withFetchWord 32 0x0030008B))).map fun t => (t.me.pc, t.me.ibits)) = some (4, 0x0030008B) ∧
    ((nextOf (step (State.reset.withFetchWord 64 0x00010810000520BF))).map fun t => (t.me.pc, t.me.ilen)) = some (8, 8) := by decide +kernel

/-! ### Witnesses: what the statements' hypotheses ask for exists -/

/-- The value of a result is there and meets p. -/
def okAnd {ε α : Type} (p : α → Bool) : Except ε α → Bool
  | .ok a => p a
  | .error _ => false

theorem okAnd_spec {ε α : Type} {p : α → Bool} {x : Except ε α} (h : okAnd p x = true) : ∃ a, x = .ok a ∧ p a = true := by
  cases x with
  | ok a => exact ⟨a, rfl, h⟩
  | error e => cases h

/-- A state with a value. -/
def okSt {ε α : Type} (p : State → α → Bool) (x : State × Except ε α) : Bool := okAnd (p x.1) x.2

theorem okSt_spec {ε α : Type} {p : State → α → Bool} {x : State × Except ε α} (h : okSt p x = true) :
    ∃ t a, x = (t, .ok a) ∧ p t a = true := by
  obtain ⟨a, e, h⟩ := okAnd_spec h
  exact ⟨x.1, a, Prod.ext rfl e, h⟩

/-- A state with an error. -/
def errSt {ε α : Type} (p : State → ε → Bool) (x : State × Except ε α) : Bool :=
  match x.2 with
  | .ok _ => false
  | .error e => p x.1 e

theorem errSt_spec {ε α : Type} {p : State → ε → Bool} {x : State × Except ε α} (h : errSt p x = true) :
    ∃ t e, x = (t, .error e) ∧ p t e = true := by
  obtain ⟨t, r⟩ := x
  cases r with
  | ok a => cases h
  | error e => exact ⟨t, e, rfl, h⟩

theorem some_spec {α : Type} {x : Option α} (h : x.isSome = true) : ∃ a, x = some a := Option.isSome_iff_exists.mp h

theorem flagFree_idle {s : State} (b : Bool) (h : s.me.clause.rem = 0) : FlagFree s b := .inl h

theorem wit_LaneIntTwoSource : ∃ i r, (i, r) ∈ intForms2 {} := ⟨_, _, .head _⟩

theorem wit_LaneIntOther :
    (∃ i r, (i, r) ∈ intForms1 {}) ∧ 31 ∈ activeLanes sA.me {} ∧ effMask sIdle.me {} = 0 ∧ effMask sA.me {} ≠ 0 := by
  exact ⟨⟨_, _, .head _⟩, by decide +kernel, by decide +kernel, by decide +kernel⟩

theorem wit_LaneCompares : (∃ i r, (i, r) ∈ cmpForms {}) ∧ (∃ i n, (i, n) ∈ fcmpForms {}) ∧
    sA.me.fs ≠ 0 ∧ effMask sA.me {} ≠ 0 ∧ sIdle.me.fs ≠ 0 ∧ effMask sIdle.me {} = 0 := by
  exact ⟨⟨_, _, .head _⟩, ⟨_, _, .head _⟩, by decide +kernel, by decide +kernel, by decide +kernel, by decide +kernel⟩

theorem wit_LaneCross : (∃ i src, (i, src) ∈ shflForms {}) ∧ (∃ i g, (i, g) ∈ redForms {}) ∧ activeLanes sA.me {} = [0, 31] :=
  ⟨⟨_, _, .head _⟩, ⟨_, _, .head _⟩, by decide +kernel⟩

/-- An empty and a full mask stack, one just below the limit; a zero and a nonzero mask. -/
theorem wit_MaskForms :
    (∃ i r, (i, r) ∈ maskForms2 0 0 0) ∧ (mini { hA with kmsd := 15 }).me.kmsd < 16 ∧ 0 < (mini { hA with kmsd := 1 }).me.kmsd ∧
    (mini { hA with kmsd := 16 }).me.kmsd = 16 ∧ sA.me.kmsd = 0 ∧ sA.me.inClause = false ∧ sA.me.getM 2 = 0 ∧ sA.me.getM 1 ≠ 0 := by
  exact ⟨⟨_, _, .head _⟩, by decide +kernel, by decide +kernel, by decide +kernel, by decide +kernel, by decide +kernel, by decide +kernel,
    by decide +kernel⟩

theorem wit_LaneFpResult : (∃ i b op, (i, b, op) ∈ fpForms {}) ∧ sA.me.fs ≠ 0 ∧ RoundsWith sA.me {} true 0 ∧ RoundsWith sA.me { md := 5 } true 4 ∧
    effMask sA.me {} ≠ 0 ∧ effMask sIdle.me {} = 0 := by
  refine ⟨⟨_, _, _, .head _⟩, ?_⟩
  simp only [RoundsWith]
  decide +kernel

theorem wit_LfcvtResult : sA.me.fs ≠ 0 ∧ RoundsWith sA.me { ty := 6, md := 1, a := 4, d := 8 } true 0 ∧
    effMask sA.me { ty := 6, md := 1, a := 4, d := 8 } ≠ 0 := by
  simp only [RoundsWith]
  decide +kernel

theorem wit_LaneFpReduce : (∃ i b g, (i, b, g) ∈ fredForms {}) ∧ sA.me.fs ≠ 0 ∧ RoundsWith sA.me {} true 0 ∧ effMask sA.me {} ≠ 0 ∧
    sIdle.me.fs ≠ 0 ∧ RoundsWith sIdle.me {} true 0 ∧ effMask sIdle.me {} = 0 ∧ (activeLanes sA.me {})[1]? = some 31 ∧
    (activeLanes sA.me {})[0]? = some 0 := by
  refine ⟨⟨_, _, _, .head _⟩, ?_⟩
  simp only [RoundsWith]
  decide +kernel

/-- FS Off; `frm` 5, the first invalid; and for the rounding of 3 × 2^-1, each of the five modes. -/
theorem wit_RoundingAndFpIllegal : (∃ i, i ∈ fpAll {}) ∧ sOff.me.fs = 0 ∧ (∃ i, i ∈ fpRounding {}) ∧
    5 ≤ (mini { hA with frm := 5 }).me.frm.toNat ∧ (∀ rm ≤ 4, ∃ r b, roundAt rm false 3 (-1) 0 false = (r, b)) := by
  exact ⟨⟨_, .head _⟩, by decide +kernel, ⟨_, .head _⟩, by decide +kernel, fun rm _ => ⟨_, _, rfl⟩⟩

/-- A unit-stride load of words, and a word atomic of cluster scope, at x10. -/
def fM : L64 := { d := 3, a := 10, ib := 1, ty := 2 }
def fA : L64 := { d := 3, c := 1, a := 10, ib := 1, ty := 2, imm15 := 0x2000 }

theorem wit_LaneLoad : ∃ (t u : State) (ps : List Placed) (r : List (Nat × List Byte)), (.lldW fM, 4, false) ∈ loadForms fM ∧ fM.md ≠ 4 ∧
    effMask sA.me fM ≠ 0 ∧ Checked sA (laneWho sA fM) false .rd 0 4 (accsOf sA fM) ps t ∧ readPieces (laneWho sA fM) (fM.md == 0) ps t = (u, .ok r) := by
  obtain ⟨⟨ps, t⟩, h, h2⟩ := okAnd_spec (x := placeMine (laneWho sA fM) .lane .rd 0 (laneSegs (accsOf sA fM) 4) sA)
    (p := fun a => okSt (fun _ _ => true) (readPieces (laneWho sA fM) (fM.md == 0) a.1 a.2)) (by decide +kernel)
  obtain ⟨u, r, h3, -⟩ := okSt_spec h2
  exact ⟨t, u, ps, r, by simp [loadForms], by decide, by decide +kernel, ⟨flagFree_idle _ (by decide +kernel), by decide +kernel, h⟩, h3⟩

/-- A hart of class 1, whose scratch grant has 256 bytes; lanes 0 and 31 reach the bytes 124 to 127 and 248 to 251, or the last four. -/
def hS : Hart := { hA with bind := .cls 1, x := [(10, 0), (11, 128), (12, 252)] }
def sS : State := { mini hS with classes := [(1, { live := true, scrSize := 256, harts := [0] })] }
def fS : L64 := { fM with md := 4, a := 11 }
def oneLane : State := { mini { hS with m := [(0, 1)] } with classes := [(1, { live := true, scrSize := 256, harts := [0] })] }

theorem wit_LaneScratch : (.lldW fS, 4, false) ∈ loadForms fS ∧ (.lstW fS, 4) ∈ storeForms fS ∧ (∃ g, (.lamoAddW fS, 4, g) ∈ amoForms fS) ∧
    fS.md = 4 ∧ effMask sS.me fS ≠ 0 ∧ ScratchFits sS 4 (accsOf sS fS) ∧ ScratchClean sS 4 (accsOf sS fS) ∧
    ScratchFits sS 4 (amoAccs sS fS 4) ∧ (∀ x ∈ amoAccs sS fS 4, x.2.toNat % 4 = 0) ∧ ScratchClean sS 4 (amoAccs sS fS 4) ∧
    ScratchFits oneLane 4 (accsOf oneLane { fS with a := 12 }) := by
  refine ⟨by simp [loadForms], by simp [storeForms], ⟨_, .head _⟩, ?_⟩
  simp only [ScratchFits, ScratchClean]
  decide +kernel

theorem wit_LaneStore : ∃ (t : State) (ps : List Placed), (.lstW fM, 4) ∈ storeForms fM ∧ fM.md ≠ 4 ∧ effMask sA.me fM ≠ 0 ∧
    Checked sA (laneWho sA fM) true .wr 1 4 (accsOf sA fM) ps t ∧ sealBroken t (laneWho sA fM) (storedCells ps fun l => sA.me.dataBytes fM.c.toNat l 4) = none ∧
    ∀ c ∈ storedCells ps fun l => sA.me.dataBytes fM.c.toNat l 4, c.cell.key = 0 := by
  obtain ⟨⟨ps, t⟩, h, h2⟩ := okAnd_spec (x := placeMine (laneWho sA fM) .lane .wr 1 (laneSegs (accsOf sA fM) 4) sA)
    (p := fun a => (sealBroken a.2 (laneWho sA fM) (storedCells a.1 fun l => sA.me.dataBytes fM.c.toNat l 4)).isNone &&
      (storedCells a.1 fun l => sA.me.dataBytes fM.c.toNat l 4).all fun c => c.cell.key == 0) (by decide +kernel)
  simp only [Bool.and_eq_true, Option.isNone_iff_eq_none, List.all_eq_true, beq_iff_eq] at h2
  exact ⟨t, ps, by simp [storeForms], by decide, by decide +kernel, ⟨flagFree_idle _ (by decide +kernel), by decide +kernel, h⟩, h2⟩

/-- Scratch accesses at the first offset beyond the grant, and misaligned within it; a misaligned atomic; no active lane; U mode with no page table. -/
theorem wit_LaneAccessFails :
    (accsOf sS { fS with a := 12, imm15 := 4 }).find? (fun x => decide (scratchSize sS < x.2.toNat + 4)) = some (0, 256) ∧
    (accsOf sS { fS with a := 10, imm15 := 1 }).find? (fun x => decide (scratchSize sS < x.2.toNat + 4)) = none ∧
    (accsOf sS { fS with a := 10, imm15 := 1 }).find? (fun x => x.2.toNat % min 4 4 != 0) = some (0, 1) ∧
    (amoAccs sA { fA with imm15 := 2 } 4).find? (fun x => x.2.toNat % 4 != 0) = some (0, 0x1002) ∧
    effMask sIdle.me fM = 0 ∧ isService 0 = false := by decide +kernel

def sU : State := mini { hA with priv := .u, csr := { satpMode := 15 } }

theorem wit_LaneAccessFails_page : ∃ (t : State) (v : VFault) (g : Seg), (.lldW fM, 4, false) ∈ loadForms fM ∧ fM.md ≠ 4 ∧
    effMask sU.me fM ≠ 0 ∧ FlagFree sU false ∧ wmHeld sU ((accsOf sU fM).map fun x => (x.2.toNat, 4)) = none ∧
    placeAll (whoOf sU sU.cur true) .lane .rd false false (laneSegs (accsOf sU fM) 4) sU = (t, .error (v, g)) ∧
    reportHeld t (coreOf sU.cur) (hartNo sU.cur) = false ∧ (t.die (dieOfCore (coreOf sU.cur))).buf.length < 512 ∧
    (t.core (coreOf sU.cur)).heldReports = [] := by
  obtain ⟨t, ⟨v, g⟩, h, h2⟩ := errSt_spec (x := placeAll (whoOf sU sU.cur true) .lane .rd false false (laneSegs (accsOf sU fM) 4) sU)
    (p := fun t _ => (!reportHeld t (coreOf sU.cur) (hartNo sU.cur)) && (decide ((t.die (dieOfCore (coreOf sU.cur))).buf.length < 512) &&
      (t.core (coreOf sU.cur)).heldReports.isEmpty)) (by decide +kernel)
  simp only [Bool.and_eq_true, Bool.not_eq_true', decide_eq_true_eq, List.isEmpty_iff] at h2
  exact ⟨t, v, g, by simp [loadForms], by decide, by decide +kernel, flagFree_idle _ (by decide +kernel), by decide +kernel, h, h2⟩

/-- A core that holds a report of the hart back. -/
theorem wit_LaneAccessFails_held :
    reportHeld { sU with cores := [(0, { heldReports := [{ w1 := reportInfo 1 0 0 1 0 0 0 0 }] })] } 0 0 = true ∧ isService sU.cur = false := by decide +kernel

theorem wit_LaneAtomic : ∃ (t : State) (ps : List Placed), (∃ g, (.lamoAddW fA, 4, g) ∈ amoForms fA) ∧ fA.md ≠ 4 ∧ effMask sA.me fA ≠ 0 ∧
    (∀ x ∈ amoAccs sA fA 4, x.2.toNat % 4 = 0) ∧ Checked sA (whoOf sA sA.cur true) false .rw 2 4 (amoAccs sA fA 4) ps t ∧
    EntersClean t (whoOf sA sA.cur true) ps := by
  obtain ⟨⟨ps, t⟩, h, h2⟩ := okAnd_spec (x := placeMine (whoOf sA sA.cur true) .lane .rw 2 (laneSegs (amoAccs sA fA 4) 4) sA)
    (p := fun a => a.1.all fun p => !seenPoison a.2 (whoOf sA sA.cur true) (p.seg.at_.toNat / 128) (p.ref.pa / 128) &&
      entryOk a.2 (whoOf sA sA.cur true) (p.seg.at_.toNat / 128) p.ref.key (p.ref.pa / 128)) (by decide +kernel)
  simp only [List.all_eq_true, Bool.and_eq_true, Bool.not_eq_true'] at h2
  exact ⟨t, ps, ⟨_, .head _⟩, by decide, by decide +kernel, by decide +kernel, ⟨flagFree_idle _ (by decide +kernel), by decide +kernel, h⟩, h2⟩

theorem wit_LaneAtomic_fp : ∃ (t : State) (ps : List Placed), (∃ g, (.lfamoAddS fA, g) ∈ famoForms fA) ∧ sA.me.fs ≠ 0 ∧
    Checked (sA.setHart sA.cur (sA.me.setFs 3)) (whoOf (sA.setHart sA.cur (sA.me.setFs 3)) sA.cur true) false .rw 2 4 (amoAccs sA fA 4) ps t ∧
    EntersClean t (whoOf (sA.setHart sA.cur (sA.me.setFs 3)) sA.cur true) ps := by
  obtain ⟨⟨ps, t⟩, h, h2⟩ := okAnd_spec
    (x := placeMine (whoOf (sA.setHart sA.cur (sA.me.setFs 3)) (sA.setHart sA.cur (sA.me.setFs 3)).cur true) .lane .rw 2 (laneSegs (amoAccs sA fA 4) 4)
      (sA.setHart sA.cur (sA.me.setFs 3)))
    (p := fun a => a.1.all fun p => !seenPoison a.2 (whoOf (sA.setHart sA.cur (sA.me.setFs 3)) sA.cur true) (p.seg.at_.toNat / 128) (p.ref.pa / 128) &&
      entryOk a.2 (whoOf (sA.setHart sA.cur (sA.me.setFs 3)) sA.cur true) (p.seg.at_.toNat / 128) p.ref.key (p.ref.pa / 128)) (by decide +kernel)
  simp only [List.all_eq_true, Bool.and_eq_true, Bool.not_eq_true'] at h2
  exact ⟨t, ps, ⟨_, .head _⟩, by decide +kernel, ⟨flagFree_idle _ (by decide +kernel), by decide +kernel, h⟩, h2⟩

/-- A doubleword at 8, an update that writes and one that does not. -/
theorem wit_MemoryUpdate :
    let w := whoOf sA 0 true
    let p : Placed := { ref := { pa := 8 } }
    w.hart = sA.cur ∧ p.ref.key = 0 ∧ p.ref.pa % 8 = 0 ∧ Memory.wf sA.mem = true ∧ isPeer (p.ref.pa / 128) = false ∧
    sA.kline w (p.seg.at_.toNat / 128) = none ∧ p.ref.pa % 128 = 8 ∧
    (∃ t r, placeAll w .lane .rd false true [] sA = (t, r)) := by
  exact ⟨rfl, rfl, rfl, rfl, by decide +kernel, by decide +kernel, rfl, ⟨_, _, rfl⟩⟩

theorem wit_LinesAndErrors_lzero :
    let w := whoOf sA sA.cur true
    ∃ (t : State) (ps : List Placed), effMask sA.me fM ≠ 0 ∧ FlagFree sA true ∧ wmHeld sA ((accsOf sA fM).map fun x => (x.2.toNat / 128 * 128, 128)) = none ∧
    placeMine w .lane .wr 1 (zeroSegs (accsOf sA fM) []) sA = .ok (ps, t) ∧
    sealBroken t w (ps.map fun p => cellsFor { p with seg := { p.seg with va := p.seg.at_ } } (List.replicate 128 0)).flatten = none ∧
    ∀ p ∈ ps, p.ref.key = 0 ∧ p.ref.pa % 128 = 0 ∧ isPeer (p.ref.pa / 128) = false ∧ p.ref.cm < 2 := by
  intro w
  obtain ⟨⟨ps, t⟩, h, h2⟩ := okAnd_spec
    (x := placeMine w .lane .wr 1 (zeroSegs (accsOf sA fM) []) sA)
    (p := fun a => (sealBroken a.2 w (a.1.map fun p => cellsFor { p with seg := { p.seg with va := p.seg.at_ } } (List.replicate 128 0)).flatten).isNone &&
      a.1.all fun p => p.ref.key == 0 && (p.ref.pa % 128 == 0 && (!isPeer (p.ref.pa / 128) && decide (p.ref.cm < 2)))) (by decide +kernel)
  simp only [Bool.and_eq_true, Option.isNone_iff_eq_none, List.all_eq_true, beq_iff_eq, Bool.not_eq_true', decide_eq_true_eq] at h2
  exact ⟨t, ps, by decide +kernel, flagFree_idle _ (by decide +kernel), by decide +kernel, h, h2⟩

/-- `lzero` in U mode with no page table: a check fails; with no active lane. -/
theorem wit_LinesAndErrors_fails :
    errSt (fun _ _ => true) (placeAll (whoOf sU sU.cur true) .lane .wr false false (zeroSegs (accsOf sU fM) []) sU) = true ∧ effMask sU.me fM ≠ 0 ∧
    sU.me.clause.rem = 0 ∧ wmHeld sU ((accsOf sU fM).map fun x => (x.2.toNat / 128 * 128, 128)) = none ∧ effMask sIdle.me fM = 0 := by decide +kernel

/-- A pool partition of 64 slots on slab 0 of cluster 0, with launch 0 as its owner; unit 0 FREE, 1 OPEN, 2 SEALED with a sound 1 × 1 header,
3 POISONED, 4 SEALED with a reservation open. -/
def hdr1 : BitVec 128 := plainHdr 2 1 1
def tileBytes : SMap Byte := (natToLe 16 (sealCrc (setHf hdr1 30 1 1)).toNat).zipIdx.map fun x => (x.2, x.1)
def pool : Cluster :=
  { modes := [(0, 3)]
    parts := [(0, { en := true, count := 64, owners := [(0, { v := true, max := 64 })] })]
    slots := [ (1, { st := .opened, gen := 1, n := 2, bytes := tileBytes }), (2, { st := .sealed, gen := 1, n := 2, c := 2, bytes := tileBytes })
             , (3, { st := .poisoned, gen := 1, bytes := tileBytes }), (4, { st := .sealed, gen := 1, n := 1, c := 1, res := 1, bytes := tileBytes }) ] }
def hT : Hart :=
  { hA with x := [(5, 0), (10, mkHandle 1 0 0 1), (11, mkHandle 1 0 0 2), (12, mkHandle 1 0 0 3), (13, mkHandle 1 0 0 4), (14, 0x8000)] }
def sT : State := { mini hT with clusters := [(0, pool)] }

/-- Each place that an error strikes (R69); a line fill with and without a mapping. -/
theorem wit_LinesAndErrors :
    ((sT.cluster 0).parts.find? (fun x => x.2.en && x.2.slotUnits.contains 2)).isSome = true ∧ ((sT.cluster 0).slot 2).st ≠ .free ∧
    (({ sT with cores := [(0, { ops := [(0, { loaded := true })] })] } : State).core 0).op 0 ≠ ({} : TileVal) ∧
    ((({ sT with cores := [(0, { ops := [(0, { loaded := true })] })] } : State).core 0).op 0).loaded = true := by decide +kernel

/-! The step, traps, control. -/

theorem wit_EncodeDecode : ∃ e, (Instr.ladd {}).wf = true ∧ encode (.ladd {}) = some e := ⟨_, rfl, rfl⟩

theorem wit_Decoding : (0x1F : Nat) % 128 = 0x1F ∧ (0xFF : Nat) % 128 = 0x7F ∧ (0x503F : BitVec 64).toNat % 128 = 0x3F ∧
    5 ≤ ((0x503F : BitVec 64).extractLsb' 12 3).toNat ∧ ((0xE0000000003F : BitVec 64).extractLsb' 45 3 = 7) ∧
    (0x20000003F : BitVec 64).extractLsb' 30 3 = 0 ∧ (0x20000003F : BitVec 64).extractLsb' 33 1 = 1 := by decide

/-- Hart 0 with a 32-bit word at its pc and its turn next. -/
def sF (w : Nat) : State := putRaw { mini hA with agenda := [.hart 0] } 0 (natToLe 4 w)
def issued (s : State) : State := noteIssue { tick { s with agenda := [] } 1 with cur := 0 } 0

/-- `mnext`, a base instruction, a word that is no instruction. -/
theorem wit_StepRunsDecoded : ∀ w ∈ [0x0400005B, 0x00000013, 0xFFFFFF7F], stopped (sF w) = none ∧ pickTurn (sF w) = (.hart 0, []) ∧
    slotHart (tick { sF w with agenda := [] } 1) 0 = 0 ∧ ((issued (sF w)).hart 0).live = true ∧
    ((issued (sF w)).hart 0).halted = false ∧ haltOrIntr (issued (sF w)) 0 = none ∧ mayIssue (issued (sF w)) 0 = true ∧
    (fetch (issued (sF w)) 0).2.isSome = true := by decide +kernel

theorem wit_StepRunsDecoded_turns : stopped { sA with agenda := [.event .kyield {}] } = none ∧ pickTurn { sA with agenda := [.event .kyield {}] } = (.event .kyield {}, []) ∧
    pickTurn { sA with agenda := [.wait 3] } = (.wait 3, []) := by decide +kernel

theorem wit_StepRunsDecoded_read : (fetch (issued (sF 0x0400005B)) 0).2 = some 0x0400005B ∧ decode 0x0400005B = .ok (.instr .mnext, 4) ∧
    (∃ b n, decode 0x00000013 = .ok (.base b, n)) ∧ ∃ e, decode 0xFFFFFF7F = .error e := by
  exact ⟨by decide +kernel, rfl, ⟨_, _, rfl⟩, ⟨_, rfl⟩⟩

theorem wit_MemoryFormKept : ∃ t, step { sA with agenda := [.wait 3] } = .next t ∧ Memory.wf sA.mem = true ∧ SMap.wf {} sA.harts = true :=
  ⟨_, rfl, by decide +kernel, by decide +kernel⟩

/-- Traps from U mode under delegation and not, and from M mode. -/
theorem wit_TrapEntry :
    let h : Hart := { hA with priv := .u, csr := { medeleg := 0x100 } }
    h.priv ≠ .m ∧ bitOf h.csr.medeleg 8 = true ∧ bitOf h.csr.medeleg 9 = false := by decide

theorem wit_TrapReturn : sA.me.inClause = false ∧ sA.me.priv = .m ∧ (mini { hA with priv := .s }).me.priv = .s ∧
    bitOf (mini { hA with priv := .s }).me.csr.mstatus 22 = false ∧ (mini { hA with priv := .s }).me.inClause = false := by decide +kernel

theorem wit_ControlTraps :
    let s : State := mini { hA with priv := .s, csr := { mstatus := 0x702000 } }
    let c : State := mini { hA with clause := { rem := 1 } }
    (mini { hA with priv := .u }).me.priv = .u ∧ s.me.priv = .s ∧ bitOf s.me.csr.mstatus 22 = true ∧ bitOf s.me.csr.mstatus 20 = true ∧
    bitOf s.me.csr.mstatus 21 = true ∧ c.me.inClause = true := by decide +kernel

/-- Every flag of the mask at 0; flag 11, the last, above 0; the fences in S mode without TVM, and with a copy open. -/
theorem wit_FlagsAndFences :
    let s : State := mini { hA with cf := [(11, 1)] }
    (∀ x ∈ sA.me.faults, ¬ (x.target < 12 ∧ (0xFFF : BitVec 12).getLsbD x.target = true)) ∧
    (∀ k < 12, (0xFFF : BitVec 12).getLsbD k = true → sA.me.getCf k = 0) ∧ sA.me.inClause = false ∧
    (∃ k < 12, (0x800 : BitVec 12).getLsbD k = true ∧ s.me.getCf k ≠ 0) ∧ s.me.inClause = false ∧ copiesOpen sA sA.cur = false ∧
    (0x7 : BitVec 4).getLsbD 3 = false ∧ bitOf (mini { hA with priv := .s }).me.csr.mstatus 20 = false := by decide +kernel

/-- A slot with another ready hart; `wfi` with an interrupt pending, with none, and in U mode at the limit of 65,536 clocks. -/
theorem wit_HintsAndWaits :
    let two : State := (mini hA).setHart 1 { live := true }
    let at_ := fun n y => ({ two with cores := [(0, { slots := [(0, { run := n, yield := y })] })] } : State)
    let full : State := at_ 256 false
    let w : State := { mini { hA with priv := .u, wait := .wfi 0 } with clock := 65536 }
    let t : State := mini { hA with csr := { mstatus := 8, menvcfg := 0x8000000000000000, mie := 0x20 } }
    (isReady (at_ 255 false) 0 = true ∧ isReady (at_ 256 false) 0 = true ∧ isReady (at_ 3 true) 0 = true ∧ isReady (at_ 256 false) 1 = true) ∧
    sA.me.inClause = false ∧ sA.me.priv = .m ∧
    mipOf sA sA.cur = 0 ∧ mipOf t t.cur ≠ 0 ∧ ¬ (sA.me.priv = .u ∧ 65536 ≤ sA.islandClock 0 - wfiSince sA) ∧
    w.me.priv = .u ∧ bitOf w.me.csr.mstatus 21 = false ∧ 65536 ≤ w.islandClock 0 - wfiSince w ∧ (w.hart w.ev.a).wait = .wfi 0 ∧ 65536 ≤ w.islandClock 0 - 0 ∧
    256 ≤ ((full.core full.ev.a).slotOf full.ev.b).run ∧
    (t.hart t.ev.a).live = true ∧ (t.hart t.ev.a).halted = false ∧ (sA.hart sA.ev.a).live = true ∧ (sA.hart sA.ev.a).halted = false ∧
    timerPending t t.ev.a = true ∧ intrNow t t.ev.a = some 5 ∧ intrNow sA sA.ev.a = none ∧ raisedCause 31 = true ∧ raisedCause 51 = true ∧
    ((mini { hA with halted := true }).hart 0).halted = true := by decide +kernel

/-! Tiles. -/

/-- Refused for a count of 0; granted with the least count; a launch at its maximum. -/
theorem wit_PoolAllocate :
    let f : L64 := { d := 5, ib := 1, imm15 := 64 }
    let full : State := { sT with clusters := [(0, { pool with parts := [(0, { en := true, count := 64, owners := [(0, { v := true, max := 3 })] })] })] }
    (tallocArgs sT.me f) = (0, 1) ∧ allocRefused sT 0 0 0 0 0 = true ∧ allocRefused sT 0 0 0 0 1 = false ∧ newGrant sT 0 0 0 = true ∧
    (freeUnits sT 0 0).head? = some 0 ∧ allocRefused full 0 0 0 0 1 = false ∧ newGrant full 0 0 0 = false := by decide +kernel

def sWait : State :=
  { mini { hT with bind := .firing { launch := 7 }, wait := .talloc 0 0 0, ibits := 0x280 } with
    clock := 0x01000000
    clusters := [(0, { pool with parts := [(0, { en := true, count := 64, owners := [(0, { v := true, max := 64, launch := 7 })], waiters := [.hart 0] })] })] }

theorem wit_PoolAllocate_events :
    (((sWait.cluster sWait.ev.a).part sWait.ev.b).waiters.find? fun w => grantable sWait sWait.ev.a sWait.ev.b (waiterLaunch sWait w)) = some (.hart 0) ∧
    (freeUnits sWait sWait.ev.a sWait.ev.b).head? = some 0 ∧ starved sWait sWait.ev.a sWait.ev.b = true ∧
    (∃ x, (0, x) ∈ starvers sWait sWait.ev.a sWait.ev.b) := by
  refine ⟨by decide +kernel, by decide +kernel, by decide +kernel, ⟨_, List.mem_of_getElem? (i := 0) (by rfl)⟩⟩

def r1 : TileRef := { clus := 0, part := 0, unit := 1, room := 4096 }
def r2 : TileRef := { clus := 0, part := 0, unit := 2, room := 4096 }
def r3 : TileRef := { clus := 0, part := 0, unit := 3, room := 4096 }
def r4 : TileRef := { clus := 0, part := 0, unit := 4, room := 4096 }

/-- An OPEN tile of the hart's launch; lane 0 at the last payload offset that is in bounds. -/
theorem wit_TileWrite :
    let f : L64 := { a := 10, c := 1, ib := 1, imm15 := 0xF6C }
    OwnTile sT (sT.me.getX 10) r1 ∧ (sT.tile r1).st = .opened ∧ effMask sT.me f ≠ 0 ∧
    badOff ((activeLanes sT.me f).map (fun l => (l, tileOff sT.me f (4 * 2 ^ f.ty.toNat) f.imm15.toInt l))) (4 * 2 ^ f.ty.toNat) (r1.room - 16) = none ∧
    hdrCheck (sT.tile r1).hdr = none ∧ extentOf (sT.tile r1).hdr ≤ r1.room ∧ effMask sIdle.me f = 0 := by
  simp only [OwnTile]
  decide +kernel

theorem wit_TileWrite_memory : ∃ t ps, (sT.me.getX 14).toNat % 128 = 0 ∧ FlagFree sT true ∧ TileChecked sT true (sT.me.getX 14) 16 ps t ∧
    sealBroken t (whoOf sT sT.cur true) (tileCells (sT.me.getX 14) ps (atOffset 0 (natToLe 16 (thdrWord sT.me { a := 14, b := 5 } true).toNat))) = none := by
  obtain ⟨⟨ps, t⟩, h, h2⟩ := okAnd_spec (x := placeMine (whoOf sT sT.cur true) .tile .wr 4 (tileSegs (sT.me.getX 14) 16) sT)
    (p := fun a => (sealBroken a.2 (whoOf sT sT.cur true) (tileCells (sT.me.getX 14) a.1 (atOffset 0 (natToLe 16 (thdrWord sT.me { a := 14, b := 5 } true).toNat)))).isNone)
    (by decide +kernel)
  exact ⟨t, ps, by decide +kernel, flagFree_idle _ (by decide +kernel), ⟨by decide +kernel, h⟩, Option.isNone_iff_eq_none.mp h2⟩

/-- A tile with no reservation and one with one; a SEALED one with a count left; a POISONED one; a null handle; a launch with an owner entry. -/
theorem wit_TileRelease :
    OwnTile sT (sT.me.getX 11) r2 ∧ eidOk sT (coreOf sT.cur) 0 0 = true ∧ (sT.tile r2).res = 0 ∧ OwnTile sT (sT.me.getX 13) r4 ∧ (sT.tile r4).res ≠ 0 ∧
    (ownerOf ((sT.cluster 0).part 0) (fld (sT.me.getX 5) 0 16)).isSome = true ∧ ReadTile sT (sT.me.getX 11) r2 true ∧
    liveTile sT sT.me.fn (sT.me.getX 12) = some r3 ∧ (sT.tile r3).st = .poisoned ∧ liveTile sT sT.me.fn (sT.me.getX 5) = none := by
  simp only [OwnTile, ReadTile]
  decide +kernel

/-- A core with a matrix grant of one accumulator, two slots loaded with 1 × 1 tiles of INT8. -/
def hdrI : BitVec 128 := plainHdr 0 1 1
def gr : ClassRec := { live := true, acc := some 1, harts := [0] }
def sG : State :=
  { sT with
    harts := [(0, { hT with bind := .cls 1 })]
    classes := [(1, gr)] }
def inUse : State := { sG with cores := [(0, { mx := [{ acc := 0, a := 0, b := 4 }] })] }

theorem wit_TileRead :
    let f : L64 := { d := 3, a := 11, ib := 1, imm15 := 0x4000 }
    let one : State := { sT with harts := [(0, { hT with m := [(0, 1)] })] }
    liveTile sT sT.me.fn (sT.me.getX 5) = none ∧ liveTile sT sT.me.fn (sT.me.getX 11) = some r2 ∧ inGrant (grantOf sT) 8 = false ∧
    inGrant (grantOf sG) 8 = true ∧ sG.myCore.mxCount < 4096 ∧ accPending sG.myCore 8 = false ∧
    effMask one.me f ≠ 0 ∧ ReadTile one (one.me.getX 11) r2 true ∧ hdrCheckAll (one.tile r2).hdr (some r2.room) = none ∧
    badOff ((activeLanes one.me f).map fun l => (l, tileOff one.me f 4 (f.imm15.extractLsb' 0 13).toInt l)) 4 (extentOf (one.tile r2).hdr - 16) = none := by
  simp only [ReadTile]
  decide +kernel

theorem wit_TileLoad :
    inGrant (grantOf sG) 0 = true ∧ sG.myCore.mxCount < 4096 ∧ FlagFree sG false ∧ ReadTile sG (sG.me.getX 11) r2 true ∧
    inUseByUnit sG.myCore 0 = false ∧ hdrCheckAll (sG.tile r2).hdr (some r2.room) = none ∧
    inGrant (grantOf inUse) 0 = true ∧ inUse.myCore.mxCount < 4096 ∧ FlagFree inUse false ∧ ReadTile inUse (inUse.me.getX 11) r2 true ∧
    inUseByUnit inUse.myCore 0 = true ∧ inGrant (grantOf sG) 8 = true := by
  simp only [ReadTile, FlagFree]
  decide +kernel

theorem wit_TileLoad_accept :
    (∃ u, acceptTile 0 (sG.me.getX 11) (sG.tile r2).hdr (sG.tile r2).body false sG = .ok ((), u)) ∧
    ∃ u, acceptTile 8 (sG.me.getX 11) (sG.tile r2).hdr (sG.tile r2).body false sG = .ok ((), u) := by
  obtain ⟨⟨⟨⟩, u⟩, h, -⟩ := okAnd_spec (x := acceptTile 0 (sG.me.getX 11) (sG.tile r2).hdr (sG.tile r2).body false sG) (p := fun _ => true)
    (by decide +kernel)
  obtain ⟨⟨⟨⟩, v⟩, h', -⟩ := okAnd_spec (x := acceptTile 8 (sG.me.getX 11) (sG.tile r2).hdr (sG.tile r2).body false sG) (p := fun _ => true)
    (by decide +kernel)
  exact ⟨⟨u, h⟩, ⟨v, h'⟩⟩

/-- The 1 × 1 tile of FP32 stored SEALED at 0x8000. -/
def sTM : State := putRaw sG 0x8000 (natToLe 16 (sealCrc (setHf hdr1 30 1 1)).toNat)

/-- The checks of a load from memory pass one after another, in a state that they leave as it is. -/
theorem wit_TileLoad_memory : accPending sTM.myCore 0 = false ∧ (sTM.me.getX 14).toNat % 128 = 0 ∧
    okAnd (fun a => a.2.cur == 0 && (!tilePoison a.2 a.1) && okAnd (fun b => (hdrCheck (hdrOf b.1)).isNone && (hdrUse (hdrOf b.1) none).isNone &&
        okAnd (fun c => okAnd (fun d => okAnd (fun _ => true)
            (acceptTile 0 (sTM.me.getX 14) (hdrOf b.1) (bytesMap (d.1.drop 16)) (tilePoison d.2 c.1) d.2)) (tileRead c.1 c.2))
          (placeMine (whoOf a.2 a.2.cur true) .tile .rd 3 (tileSegs (sTM.me.getX 14) (extentOf (hdrOf b.1))) a.2)) (tileRead a.1 a.2))
      (placeMine (whoOf sTM sTM.cur true) .tile .rd 3 (tileSegs (sTM.me.getX 14) 16) sTM) = true := by decide +kernel

/-- An EX8 tile of one row, its code table 16 codes of 4 bits, at 0. -/
def hdrE : BitVec 128 := BitVec.ofNat 128 (0x5A + 2 ^ 8 + 10 * 2 ^ 12 + 4 * 2 ^ 18 + 2 ^ 22 + 4 * 2 ^ 96)
def sE : State := putRaw { sG with harts := [(0, { hT with bind := .cls 1, k := { kxtab := 1 } })] } 0 (natToLe 8 0x4444444444444444)

theorem wit_TileLoad_ex8 : slotLimits 0 hdrE = none ∧ isEx8 (hEfmt hdrE) = true ∧ (∃ bs u, ex8Load 0 hdrE (fun k => SMap.get 0 [(0, (1 : Byte))] k) sE = .ok (bs, u)) ∧
    slotLimits 0 hdr1 = none ∧ isEx8 (hEfmt hdr1) = false ∧ accLimits hdr1 = none := by
  obtain ⟨⟨bs, u⟩, h, -⟩ := okAnd_spec (x := ex8Load 0 hdrE (fun k => SMap.get 0 [(0, (1 : Byte))] k) sE) (p := fun _ => true) (by decide +kernel)
  exact ⟨by decide +kernel, by decide +kernel, ⟨bs, u, h⟩, by decide +kernel, by decide +kernel, by decide +kernel⟩

/-- A hart that waits with `tld ta0, x11` latched and its tile reserved; the same with a tile whose header is unsound. -/
def sRes (bs : SMap Byte) : State :=
  { sG with
    harts := [(0, { hT with bind := .cls 1, wait := .reserve 0 4 1, x := [(11, mkHandle 1 0 0 4)], ibits := BitVec.ofNat 64 ((encode (.tld { a := 11 })).map (·.bits) |>.getD 0) })]
    clusters := [(0, { pool with slots := [(4, { st := .sealed, gen := 1, n := 1, c := 1, res := 1, bytes := bs })] })] }

theorem wit_TileLoad_reservation : (∃ t, endReservation (sRes tileBytes) 0 = some (.ok ((), t))) ∧ ∃ t, endReservation (sRes []) 0 = some (.error t) := by
  obtain ⟨x, h⟩ := some_spec (x := endReservation (sRes tileBytes) 0) (by decide +kernel)
  obtain ⟨y, h'⟩ := some_spec (x := endReservation (sRes []) 0) (by decide +kernel)
  have e : (endReservation (sRes tileBytes) 0).any (okAnd fun _ => true) = true := by decide +kernel
  have e' : (endReservation (sRes []) 0).any (okAnd fun _ => true) = false := by decide +kernel
  rw [h] at e ⊢; rw [h'] at e' ⊢
  refine ⟨?_, ?_⟩
  · cases x with
    | ok a => exact ⟨a.2, rfl⟩
    | error t => cases e
  · cases y with
    | ok a => cases e'
    | error t => exact ⟨t, rfl⟩

/-- Two 1 × 1 tiles of INT8 in ta0 and tb0, and the unused accumulator, with z set. -/
def tI : TileVal := { loaded := true, hdr := plainHdr 0x12 1 1, bytes := [(0, 3)] }
def sMul (md : Priv) (mx : List MatOp) (n : Nat) : State :=
  { sG with harts := [(0, { hT with bind := .cls 1, priv := md })], cores := [(0, { ops := [(0, tI), (4, tI)], mx := mx, mxCount := n })] }

theorem wit_TileProduct :
    let f : L64 := { d := 8, a := 0, b := 4, imm15 := 1 }
    let o : MatOp := { ta := tI, tb := tI }
    inGrant (grantOf (sMul .m [] 4095)) 8 = true ∧ inGrant (grantOf (sMul .m [] 4095)) 0 = true ∧ inGrant (grantOf (sMul .m [] 4095)) 4 = true ∧
    (sMul .m [] 4095).myCore.mxCount < 4096 ∧ accPending (sMul .m [] 4095).myCore 8 = false ∧ tmmaCheck (sMul .m [] 4095).myCore f = none ∧
    ((sMul .m [o] 0).core (sMul .m [o] 0).ev.a).mx = [o] ∧ fmtClass (hEfmt o.ta.hdr) = 4 ∧ fmtClass (hEfmt o.tb.hdr) = 4 ∧
    4096 ≤ ((sMul .m [] 4096).core (sMul .m [] 4096).ev.a).mxCount ∧ (sMul .u [] 0).me.priv ≠ .m ∧ (sMul .m [] 0).me.priv = .m ∧
    (sMul .m [] 0).myCore.mx = [] ∧ (sMul .m [] 0).myCore.mxCount < 4096 := by decide +kernel

/-- The unused accumulator, of 128 × 128, at its corner; a converting store of a slot's tile to a pool tile and to memory; `tzero.m` of 128 bytes. -/
theorem wit_TileAccumulator :
    let f : L64 := { d := 3, a := 8, b := 5 }
    let s := sMul .m [] 0
    inGrant (grantOf s) 8 = true ∧ s.myCore.mxCount < 4096 ∧ accPending s.myCore 8 = false ∧ effMask s.me f ≠ 0 ∧
    crcOk (s.myCore.acc 0).hdr = true ∧ hPsn (s.myCore.acc 0).hdr = false ∧
    accPosCheck (s.myCore.acc 0).hdr f 8 1 (s.me.getX 5) (activeLanes s.me f) = none ∧ accPosCheck (s.myCore.acc 0).hdr f 8 0 (s.me.getX 5) (activeLanes s.me f) = none ∧
    cvtCheck s.myCore 0 = none ∧ inGrant (grantOf s) 0 = true ∧ (s.me.getX 14).toNat % 128 = 0 ∧ (128 : Word).toNat % 128 = 0 ∧ (128 : Word).toNat ≤ 2 ^ 20 ∧
    ¬ ((s.me.getX 12).toNat % 128 = 0) := by decide +kernel

def tmpl : Word := BitVec.ofNat 64 (2 * 2 ^ 12)

theorem wit_TileAccumulator_convert :
    let s := sMul .m [] 0
    let src := (s.myCore.op 0).cvt
    (templateHdr (BitVec.ofNat 128 (tmpl.toNat + 0 * 2 ^ 64)) src.rows src.cols false).any (fun hd => decide (extentOf hd ≤ r1.room)) = true ∧
    OwnTile s (s.me.getX 10) r1 ∧ (s.tile r1).st = .opened ∧
    (templateHdr (BitVec.ofNat 128 (tmpl.toNat + 0 * 2 ^ 64)) src.rows src.cols true).any (fun hd =>
      okAnd (fun a => (sealBroken a.2 (whoOf s s.cur true) (tileCells (s.me.getX 14) a.1 (cvtBytes hd (convertTile hd src)))).isNone)
        (placeMine (whoOf s s.cur true) .tile .wr 4 (tileSegs (s.me.getX 14) (extentOf hd)) s)) = true := by
  simp only [OwnTile]
  decide +kernel

theorem wit_TileAccumulator_zero : ∃ t ps, (0x8000 : Word).toNat % 128 = 0 ∧ FlagFree sT true ∧ TileChecked sT true 0x8000 128 ps t ∧
    sealBroken t (whoOf sT sT.cur true) (tileCells 0x8000 ps (atOffset 0 (List.replicate 128 0))) = none := by
  obtain ⟨⟨ps, t⟩, h, h2⟩ := okAnd_spec (x := placeMine (whoOf sT sT.cur true) .tile .wr 4 (tileSegs 0x8000 128) sT)
    (p := fun a => (sealBroken a.2 (whoOf sT sT.cur true) (tileCells 0x8000 a.1 (atOffset 0 (List.replicate 128 0)))).isNone) (by decide +kernel)
  exact ⟨t, ps, by decide, flagFree_idle _ (by decide +kernel), ⟨by decide +kernel, h⟩, Option.isNone_iff_eq_none.mp h2⟩

/-! Messages, firings, the hall pass. -/

/-- Page 0 of function 0 mapped at 0x40000 with every right and domain 255, and PMP open. -/
def csrP : Csrs := { satpMode := 15, pmpcfg := [(0, 0x1F)], pmpaddr := [(0, 0x3FFFFFFFFFFFFF)] }
def hP (md : Priv) : Hart := { hA with priv := md, csr := csrP, x := [(10, 0x100), (11, 0x200)] }
def sP (md : Priv) : State :=
  putRaw (putRaw (putRaw { mini (hP md) with funcs := [(0, { kroot := 0x10000 })] } 0x10000 (natToLe 8 0x200001)) 0x20000 (natToLe 8 0x300001)) 0x30000
    (natToLe 8 0xFF0000000040001F)

theorem wit_MessageSend :
    let full : State := { sA with cores := [(0, { sends := List.replicate 64 {} })] }
    let tight : State := { sA with cores := [(0, { sends := List.replicate 63 {} })] }
    let fl : State := mini { hA with clause := { rem := 1 }, cf := [(0, 62)] }
    mNw (sA.me.getX 10) ≤ 8 ∧ flagB sA.me = none ∧ 1 ≤ freeSends tight (coreOf tight.cur) + sendsLeft tight.me ∧ flagB fl.me = some 0 ∧ fl.me.getCf 0 < 63 ∧
    (lanesIn (sA.me.getM 0)).length = 2 ∧ (lanesIn (sA.me.getM 0)).length ≤ freeSends sA (coreOf sA.cur) + sendsLeft sA.me ∧
    (16 : BitVec 5).toNat % 2 = 0 ∧ (16 : BitVec 5).toNat + 2 * 8 ≤ 32 ∧ freeSends full (coreOf full.cur) + sendsLeft full.me = 0 ∧
    freeSends tight (coreOf tight.cur) + sendsLeft tight.me < (lanesIn (tight.me.getM 0)).length ∧ ¬ mNw (0x900000000 : Word) ≤ 8 ∧
    mCh (0x7E00 : Word) = 63 := by decide +kernel

/-- A firing of channel 1 with a message left and without; queue 0 with room for one value, full, with a value, empty. -/
def sQ (q : HwQueue) : State := { mini { hA with x := [(10, 0), (11, 0x4000)] } with cores := [(0, { queues := [(0, q)] })] }
def sFire (ms : List QMsg) : State :=
  { mini { hA with bind := .firing { ch := 1 } } with cores := [(0, { chans := [(1, { hw := ms })] })] }

theorem wit_MessageTake :
    let q : HwQueue := { en := true, units := 1, vals := List.replicate 15 {} }
    (sFire [{ resv := 1 }]).me.bind = .firing { ch := 1 } ∧
    ((((sFire [{ resv := 1 }]).myCore.chan 1).hw.find? fun m => m.resv == (sFire []).cur + 1) = some { resv := 1 }) ∧
    ((((sFire []).myCore.chan 1).hw.find? fun m => m.resv == (sFire []).cur + 1) = none) ∧
    FlagFree (sQ q) true ∧ (QMsg.msg { resv := 1 }).words.length ≤ 8 ∧
    fld ((sQ q).me.getX 10) 14 50 = 0 ∧ (((sQ q).core 0).q 0).en = true ∧ (sQ q).launchFn (((sQ q).core 0).q 0).launch = (sQ q).me.fn ∧
    (((sQ q).core 0).q 0).vals.length < 16 * (((sQ q).core 0).q 0).units ∧ 16 * 1 ≤ (List.replicate 16 ({} : QVal)).length ∧
    (((sQ q).core 0).q 0).vals ≠ [] ∧ (((sQ q).core 0).q 0).waiters = [] ∧ (((sQ { q with vals := [] }).core 0).q 0).vals = [] ∧
    (((sQ { q with waiters := [5] }).core 0).q 0).waiters.head? ≠ some (sQ q).cur ∧ fld ((sQ q).me.getX 11) 14 50 ≠ 0 := by
  simp only [FlagFree]
  decide +kernel

/-- A message from core 0 to its channel 1, which belongs to launch 5. -/
def msg : Message := { hdr := 0x200 }
def sMsg (x : Channel) : State :=
  { sP .m with launches := [{ id := 5 }], cores := [(0, { sends := [{ id := 9, msg := msg }], chans := [(1, x)] })] }
def ch5 : Channel := { depth := 4, launch := 5 }

theorem wit_MessageDelivery :
    ((sMsg ch5).core 0).sends[0]? = some { id := 9, msg := msg } ∧ mCh msg.hdr = 1 ∧ mCore msg.hdr = 0 ∧ ((sMsg {}).core 0).chan 1 = ({} : Channel) ∧
    ((sMsg ch5).core 0).chan 1 = ch5 ∧ ch5.depth ≠ 0 ∧ ch5.launch ≠ 0 ∧ (sMsg ch5).launchFn ch5.launch = msg.fn ∧ ch5.err = false ∧ ch5.rcnt = 0 ∧
    ch5.hw.length < ch5.depth ∧
    ((sMsg { ch5 with held := [.send 0 9] }).core 0).chan 1 = { ch5 with held := [.send 0 9] } ∧
    (((sMsg ch5).core 0).sends.find? fun y => y.id == 9) = some { id := 9, msg := msg } := by decide +kernel

/-- A full hardware part before a ring at 0, whose page is mapped and whose page at 2^54 is not; a refill of it. -/
def chR : Channel := { ch5 with hw := List.replicate 4 {}, lsize := 4, base := 0 }
def chBad : Channel := { chR with base := 0x20000000000000 }

/-- What a ring's check gave: 0 its place, which meets p; 1 its page between biases; 2 a fault; 3 its place, which does not. -/
def gotTag (p : State → PRef → Bool) (x : State × RingGot) : Nat :=
  match x.2 with
  | .at_ r => if p x.1 r then 0 else 3
  | .flip => 1
  | .bad => 2

/-- The head entry of chR's ring is read from its place, and p holds of it. -/
def entryReads (s : State) (p : Option CLine → Bool) : Bool :=
  gotTag (fun u r => p (lineIn u (ringWho s 0 chR) (ringVa chR chR.head) r).2) (ringPlace s 0 chR chR.head .rd) == 0

theorem wit_MessageDelivery_ring :
    let fl : State := { sMsg chR with mgmt := { s2 := true }, funcs := [(0, { kroot := 0x10000, tdisp := .run, kbias := 0x40000, kbiasRun := 0x40000, kbiasGo := true })] }
    gotTag (fun _ p => p.key == 0 && p.pa % 128 == 0) (ringPlace (sMsg chR) 0 chR 0 .wr) = 0 ∧ gotTag (fun _ _ => true) (ringPlace (sMsg chBad) 0 chBad 0 .wr) = 2 ∧
    chR.lsize ≠ 0 ∧ chR.rcnt < 2 ^ chR.lsize ∧ ¬ chR.hw.length < chR.depth ∧
    searchUp 64 ((sMsg { ch5 with rcnt := 1, lsize := 4 }).core 0).lastRefill (fun j => (((sMsg { ch5 with rcnt := 1, lsize := 4 }).core 0).chan j).canRefill) = some 1 ∧
    ((sMsg ch5).core 0).refillAt ≤ (sMsg ch5).clock ∧
    entryReads (sMsg chR) (fun y => y.any fun l => !l.psn) = true ∧
    entryReads { sMsg chR with lines := [(0x800, { psn := true })] } (fun y => y.any (·.psn)) = true ∧
    gotTag (fun _ _ => true) (ringPlace (sMsg chBad) 0 chBad 0 .rd) = 2 ∧ gotTag (fun _ _ => true) (ringPlace fl 0 chR 0 .rd) = 1 ∧ 0 < chBad.lsize ∧
    0 < ({ ch5 with rcnt := 1 } : Channel).rcnt := by decide +kernel

/-- Channels 1 and 2 runnable at EPRIO 3 and 7. -/
theorem wit_FiringStart :
    let x : Channel := { ch5 with en := true, eprio := 3, hw := [{ msg := msg }] }
    let s : State := { mini hA with launches := [{ id := 5 }], cores := [(0, { chans := [(1, x), (2, { x with eprio := 7 })] })] }
    selectChannel s 0 = some (7, 2) ∧ runnable s 0 1 = true ∧ coreOf 1 = 0 ∧ msg.edge ≠ some 5 ∧ firingHart s 0 ((s.core 0).chan 2) = some 1 ∧
    (∀ m ∈ ((s.core 0).chan 2).hw, m.resv ≠ 1 + 1) ∧ (((s.core 0).chan 2).hw.find? fun m => m.resv == 0) = some { msg := msg } ∧
    msg.words.length ≤ 8 ∧ (s.core 0).lastPrio.get 63 7 < 64 := by decide +kernel

/-- Operations 0 to 4 of instance 0 over ring 0 to 1, by the states 0 to 3, and one that is no operation. -/
def sHp (x : Word) (p : HallPass) : State := { mini { hA with x := [(10, x)] } with hall := [(0, p)] }
def ring : HallPass := { last := 1 }

theorem wit_HallPassOps :
    (∀ op < 5, fld (word op + 0x10000) 0 4 = op ∧ fld (word op + 0x10000) 4 3 = 0 ∧ fld (word op + 0x10000) 7 9 ≤ fld (word op + 0x10000) 16 9 ∧
      fld (word op + 0x10000) 25 39 = 0) ∧
    (sHp 0x10000 ring).hp 0 = ring ∧ ring.st = 0 ∧ ring.arming = false ∧ launchOf (sHp 0 ring) 0 = 0 ∧
    ¬ ((({ ring with st := 1, owner := 6 } : HallPass).st = 0 ∧ ring.arming = false) ∨ ({ ring with owner := 6 } : HallPass).owner = launchOf (sHp 0 ring) 0) ∧
    fld (5 : Word) 0 4 = 5 ∧ SMap.wf {} (sHp 0x10004 ring).harts = true ∧ (∀ e, (sHp 0 ring).me.wait ≠ .arming 0 e) := by
  refine ⟨by decide +kernel, by decide +kernel, rfl, rfl, by decide +kernel, by decide +kernel, by decide +kernel, by decide +kernel, ?_⟩
  intro e h
  cases h

theorem wit_HallPassOps_events :
    let a : State := { (mini hA).setHart 1 { live := true, wait := .arming 0 5 } with hall := [(0, { last := 1, arming := true, acked := 1 })] }
    let r : HallPass := { last := 1, st := 2, tok := 1 }
    (a.hp 0).arming = true ∧ (a.hp 0).size ≤ (a.hp 0).acked + 1 ∧ ({ last := 1, arming := true } : HallPass).acked + 1 < (a.hp 0).size ∧
    (a.hart 1).wait = .arming 0 5 ∧ SMap.wf {} a.harts = true ∧ (sHp 0 r).hp 0 = r ∧ tokenIdle (sHp 0 r) (r.coreAt 1) r.owner = true ∧
    tokenIdle (sHp 0 { r with tok := 0 }) (r.coreAt 0) r.owner = true ∧ ({ r with tok := 0 } : HallPass).tokBal + ((sHp 0 r).core 0).hpCount.get 0 0 = 0 ∧
    ¬ ({ r with tok := 0, tokBlack := true } : HallPass).tokBlack = false := by decide +kernel

/-! Copies, reductions, barriers. -/

/-- Core 0 with requests in its FIFO, its hart 0 in M mode. -/
def sC (rs : List (Nat × Option CopyReq)) : State := { mini { hA with x := [(10, 0x1000), (11, 0x2000), (12, 128)] } with cores := [(0, { fifo := rs })] }

/-- Room and none; a legal copy, an illegal kind; a legal `cprd` and one of 0 bytes; a flag's counter at its limit; a channel that can be armed with 128 bytes, the least, and with 0. -/
theorem wit_CopySubmit :
    let full : State := sC ((List.range 8).map fun i => (i, some { hart := 0 }))
    let bad : State := mini { hA with x := [(13, 7)] }
    let rd : State := mini { hA with x := [(12, 8)] }
    let fl : State := mini { hA with x := [(12, 128), (13, 0x200000)], cf := [(0, 63)] }
    fifoRoom fl 0 = some 0 ∧ copyLegal (newReq fl 10 false) (isFiring fl 0) = true ∧ (∃ k ∈ reqFlags fl.me (newReq fl 10 false), 63 ≤ fl.me.getCf k) ∧
    fifoRoom (sC []) 0 = some 0 ∧ copyLegal (newReq (sC []) 10 false) (isFiring (sC []) 0) = true ∧
    (∀ k ∈ reqFlags (sC []).me (newReq (sC []) 10 false), (sC []).me.getCf k < 63) ∧ fifoRoom full full.cur = none ∧
    copyLegal (newReq bad 10 false) (isFiring bad 0) = false ∧ cprdLegal (newReq rd 10 true) = true ∧ cprdLegal (newReq sA 0 true) = false ∧
    ((sC []).myCore.wmc 3).st ≠ 1 ∧ ((sC []).myCore.wmc 3).st ≠ 3 ∧ ((sC []).me.getX 10).toNat % 128 = 0 ∧ ((sC []).me.getX 12).toNat = 128 ∧
    (sA.me.getX 0).toNat = 0 := by decide +kernel

/-- A queued copy; the same with a scratch side outside its grant; one that waits for a new tile, refused, granted, and out of slots. -/
def rq : CopyReq := { w0 := 0x1000, w1 := 0x2000, w2 := 128, priv := .m, bare := true }
def rNew (n : Nat) : CopyReq := { rq with w3 := word (n * 2 ^ 32 + 2 ^ 6), st := .parkAlloc }
def sStart (r : CopyReq) : State := { sT with cores := [(0, { fifo := [(0, some r)] })] }

theorem wit_CopyStart :
    let scr : CopyReq := { rq with w3 := 0x10 }
    let full : State := { sStart (rNew 1) with clusters := [(0, { pool with parts := [(0, { en := true, count := 64, owners := [(0, { v := true, max := 3 })] })] })] }
    let rg : CopyReq := { rq with again := true, code := 2 }
    (¬ (rq.again = true ∧ (rq.code ≠ 0 ∨ rq.tileDone = true)) ∧ rg.again = true ∧ rg.code ≠ 0 ∧ behindWm (reqsOf (sStart rg) 0) rg = false ∧
      ((sStart { rq with st := .resume }).core 0).req 0 = some { rq with st := .resume } ∧ ((sStart rq).core 0).atWork = .working) ∧
    (0, rq) ∈ reqsOf (sStart rq) 0 ∧ ((sStart rq).core 0).req 0 = some rq ∧ (∀ x ∈ reqsOf (sStart rq) 0, x.1 = 0 → x.2 = rq) ∧
    ((reqsOf (sStart rq) 0).filter fun x => x.2.st == .working).length < 4 ∧ rq.st = .queued ∧ behindWm (reqsOf (sStart rq) 0) rq = false ∧
    (∀ x ∈ reqsOf (sStart rq) 0, x.1 ≠ 0 → (x.2.st = .queued ∨ x.2.st = .parkWm ∨ x.2.st = .resume) → rq.seq < x.2.seq) ∧ rq.srct = false ∧ rq.dstt ≤ 1 ∧
    refused (sStart rq) 0 rq = false ∧ refused (sStart scr) 0 scr = true ∧ scr.again = false ∧ scr.dstt ≤ 1 ∧
    ((sStart (rNew 1)).core 0).req (sStart (rNew 1)).ev.b = some (rNew 1) ∧ (rNew 1).st = .parkAlloc ∧ (rNew 1).res = false ∧
    Waiter.copy 0 0 ∉ (((sStart (rNew 1)).cluster 0).part 0).waiters ∧ allocRefused (sStart (rNew 0)) 0 0 0 0 (rNew 0).nread = true ∧
    allocRefused (sStart (rNew 1)) 0 0 0 0 (rNew 1).nread = false ∧ newGrant (sStart (rNew 1)) 0 0 0 = true ∧
    (freeUnits (sStart (rNew 1)) 0 0).head? = some 0 ∧ allocRefused full 0 0 0 0 1 = false ∧ newGrant full 0 0 0 = false := by decide +kernel

/-- The destination of a piece is placed in memory that no key seals (PieceGoes, as a test). -/
def goesOk (s : State) (r : CopyReq) (n : Nat) : Bool :=
  decide (r.off < r.total) && !r.dsp && r.dstt == 0 && (!r.cprd || r.w1 != 0) &&
    okSt (fun u ps => ps.all fun p => p.ref.key == 0 && !flipHeld u p.ref.pa) (copyPlace s 0 r .wr (r.dstAt r.off) n)

/-- The source of a piece reads, and p holds of the state and the bytes after it. -/
def readsOk (s : State) (r : CopyReq) (va : Word) (n : Nat) (p : State → List Byte → Bool) : Bool :=
  match readGlobal s 0 r va n with
  | (u, .data x) => decide (n ≤ x.good) && x.bytes.length == n && p u x.bytes
  | _ => false

/-- A piece of each kind: copy, `cprd`, fill, zero, gather, reduce. -/
theorem wit_CopyPieces :
    let w := fun (r : CopyReq) => ({ r with st := .working } : CopyReq)
    let st := fun (r : CopyReq) => ((sStart (w r)).core 0).req 0 == some (w r)
    let k := fun n : Nat => w { rq with w3 := word n }
    let rd : CopyReq := w { rq with cprd := true, w2 := 8 }
    let g : CopyReq := w { rq with w2 := 2, w3 := word (3 + 2 * 2 ^ 8) }
    let r : CopyReq := w { rq with w2 := 8, w3 := 4 }
    (st (k 0) && (k 0).kind == 0 && !(k 0).srct && !(k 0).ssp && readsOk (sStart (k 0)) (k 0) ((k 0).srcAt 0) (pieceSize (k 0)) fun u _ => goesOk u (k 0) (pieceSize (k 0))) = true ∧
    (let w := widen (sStart rd) 0 0 rd
     st rd && rd.cprd && readsOk w.1 w.2 (w.2.srcAt 0) (pieceSize rd) fun u _ => goesOk u w.2 (pieceSize rd)) = true ∧
    (st (k 1) && (k 1).kind == 1 && goesOk (sStart (k 1)) (k 1) (pieceSize (k 1))) = true ∧
    (st (k 2) && (k 2).kind == 2 && goesOk (sStart (k 2)) (k 2) (pieceSize (k 2))) = true ∧
    (st g && g.kind == 3 && readsOk (sStart g) g g.w0 8 fun u bs => (leWord bs).toNat % 4 == 0 && readsOk u g (leWord bs) 4 fun v _ => goesOk v g 4) = true ∧
    (st r && r.kind == 4 && !r.ssp && pieceSize r % r.elemSize == 0 && decide (r.off < r.total) && (r.dstAt 0).toNat % r.elemSize == 0 &&
      readsOk (sStart r) r (r.srcAt 0) (pieceSize r) fun u _ =>
        okSt (fun v ps => ps.all fun p => !flipHeld v p.ref.pa && decide (paKind p.ref.pa = .hbm)) (copyPlace u 0 r .wr (r.dstAt 0) (pieceSize r))) = true := by
  decide +kernel

/-- Contributions in transit: to an entry, completing it and not, to a free entry, with the table full; an entry at the limit of 512 clocks; two elements of a word;
a line at home on the die and on another; a sealed line whose tag fails. -/
theorem wit_Reduce :
    let x : Contrib := { line := 0x20, els := [(0x1000, 1), (0x1004, 2)], size := 4, parts := [{}], expected := 2 }
    let e : CombEntry := { sum := x }
    let s := fun (n : Nat) (l : List CombEntry) => ({ ({} : State) with clock := n, dies := [(0, { transit := [x], comb := l })] } : State)
    let mine := fun (e : CombEntry) => e.sum.line == x.line && e.sum.rop == x.rop && e.sum.fn == x.fn
    let other : Contrib := { x with line := 1, els := [(0x80, 1)] }
    ((s 0 []).die 0).transit = [x] ∧ flipHeld (s 0 []) (128 * x.line) = false ∧ ((s 0 [e]).die 0).comb.find? mine = some e ∧
    x.release = false ∧ 2 ≤ (x.join x).parts.length ∧ x.parts.length < 2 ∧
    ((s 0 []).die 0).comb.find? mine = none ∧ ((s 0 []).die 0).comb.length < 256 ∧
    256 ≤ ((s 0 (List.replicate 256 { sum := other })).die 0).comb.length ∧ ((s 512 [e]).die 0).comb[0]? = some e ∧ 512 ≤ (s 512 [e]).clock - e.since ∧
    (s 511 [e]).clock - e.since < 512 ∧ homeDie (128 * x.line) = 0 ∧ (∃ l, homeDie (128 * l) ≠ 0) ∧ (x.els.map (·.1)).Nodup ∧
    x.key = 0 ∧ isPeer x.line = false ∧ x.size = 4 ∧ (∀ y ∈ x.els, y.1 / 128 = x.line ∧ y.1 % x.size = 0) ∧
    flipHeld { s 0 [] with mgmt := { s2 := true }, funcs := [(0, { kbiasRun := 0, kbiasGo := true })] } (128 * x.line) = true := by
  refine ⟨rfl, by decide +kernel, by decide +kernel, rfl, by decide, by decide, by decide, by decide, by decide +kernel, by decide +kernel, by decide, by decide,
    by decide +kernel, ⟨0x40, by decide +kernel⟩, by decide, rfl, by decide +kernel, rfl, by decide, by decide +kernel⟩

/-- Requests that have ended: OK and FAULT, with no target, a flag, a channel, a stage barrier, a new tile. -/
def cE : CopyReq := { rq with st := .ended }
def cF : CopyReq := { cE with code := 2, w3 := word (2 ^ 21) }
def cC : CopyReq := { cE with w3 := word (2 * 2 ^ 21 + 2 ^ 24) }
def cB : CopyReq := { cE with w3 := word (3 * 2 ^ 21), undelivered := 1 }
def cD : CopyReq := { cE with cprd := true, w3 := 0x200 }
def cT : CopyReq := { cE with w1 := 0, w3 := word (2 ^ 32 + 2 ^ 6), handle := mkHandle 1 0 0 1 }
def sEnd (r : CopyReq) : State := { sT with launches := [{ id := 5 }], cores := [(0, { fifo := [(0, some r)], chans := [(1, ch5)] })] }

theorem wit_Completion :
    ((sEnd cE).core 0).req 0 = some cE ∧ cE.st = .ended ∧ cE.cprd = false ∧ contribsOpen (sEnd cE) 0 cE = false ∧ cE.dstt ≠ 1 ∧ cE.ct ≠ 2 ∧ cF.ct = 1 ∧
    cF.code ≠ 0 ∧ cF.own = true ∧ cC.ct = 2 ∧ cC.tgt = 1 ∧ cC.ccore = 0 ∧ cD.ct = 2 ∧ cD.tgt = 1 ∧ cD.cprd = true ∧ cB.ct = 3 ∧ cB.undelivered ≠ 0 ∧
    cT.dstt = 1 ∧ cT.ct = 0 ∧ (sEnd cC).launchFn ch5.launch = cC.fn ∧ ({ ch5 with held := [.send 3 3] } : Channel).held.head? ≠ some (.copy 0 0) ∧
    destTile (sEnd cT) cT cT.handle = some r1 ∧ hdrCheck ((sEnd cT).tile r1).hdr = none ∧ extentOf ((sEnd cT).tile r1).hdr ≤ r1.room := by decide +kernel

/-- Core 0 with barrier 0 granted; a rectangle of one core with one arrival, or a stage barrier of one. -/
def sBar (b : Barrier) (x : Word) : State :=
  { mini { hA with bind := .cls 1, x := [(10, x)] } with classes := [(1, { live := true, nbar := 1, harts := [0] })], cores := [(0, { bars := [(0, b)] })] }
def gOne : BitVec 18 := 0x1000
def gStage : BitVec 18 := 0x21000

theorem wit_Barriers :
    let b : Barrier := { cfg := some gOne }
    let w : State := (sBar b 0x1000).setHart 1 { live := true, wait := .bar 0 }
    barCfgLegal ((sBar b 0x1000).me.getX 10) (coreOf 0) = true ∧ (0 : BitVec 7).toNat < ((sBar b 0).cls (classOf (sBar b 0) 0)).nbar ∧
    (∀ h ∈ barWaiters (sBar b 0) (coreOf 0) 0, h = (sBar b 0).cur) ∧ (∃ h ∈ barWaiters w (coreOf 0) 0, h ≠ w.cur) ∧
    barCfgLegal ((sBar b 0).me.getX 10) (coreOf 0) = false ∧ ¬ (1 : BitVec 7).toNat < ((sBar b 0).cls (classOf (sBar b 0) 0)).nbar ∧
    ((sBar {} 0).myCore.bar 0).cfg = none ∧ ((sBar { b with broken := true } 0).myCore.bar 0).broken = true ∧
    ((sBar b 0).myCore.bar 0).cfg = some gOne ∧ ((sBar b 0).myCore.bar 0).unreleased 0 = false ∧
    (arriveBar (sBar b 0) 0 0 gOne none).isSome = true ∧ arriveBar (sBar { b with arr0 := 1, arr1 := 1 } 0) 0 0 gOne none = none ∧
    ((sBar { b with pend := [(0, 1)] } 0).myCore.bar 0).unreleased 0 = true ∧ ((sBar { b with pend := [(0, 1)], phase := 1 } 0).myCore.bar 0).pending 0 = some 0 ∧
    (∀ y ∈ (sBar b 0).me.faults, y.target ≠ 16 + 0) ∧ ((sBar b 0).myCore.bar 0).pending 0 = none ∧ 0 ≤ (sBar b 0).islandClock 0 - testSince (sBar b 0) 0 ∧
    word ((sBar b 0).islandClock 0 - testSince (sBar b 0) 0) < (sBar b 1).me.getX 10 ∧ 1 ≤ ((sBar b 1).me.getX 10).toNat ∧ ((sBar b 1).me.getX 10).toNat < 2 ^ 40 ∧
    bStage gStage = true ∧ bCount gStage = 1 ∧
    (let z : Barrier := { cfg := some gStage, arr0 := 1, ann := [(0, 4)], delivered := 4 }
     bCount gStage ≤ z.arr0 ∧ z.delivered = z.ann.get 0 z.phase ∧ ({ z with delivered := 5 } : Barrier).delivered > z.ann.get 0 z.phase) := by decide +kernel

/-- A sweep over two cores, the release of a core and of the corner, a roll call that can be written and one whose page fails; `bar.test` at its limit. -/
def gTwo : BitVec 18 := 0x1040
theorem wit_BarrierEvents :
    let b : Barrier := { cfg := some gTwo, arr0 := 1 }
    let s := fun (x y : Barrier) (a : Nat) => ({ sBar x 0 with ev := { a := a }, cores := [(0, { bars := [(0, x)] }), (1, { bars := [(0, y)] }), (8, { bars := [(0, y)] })] } : State)
    let r : RollCall := { hart := 0, va := 0x1000, priv := .m, bare := true }
    let t : State := { mini { hA with wait := .barTest 0 0 5 10 } with clock := 10, cores := [(0, { bars := [(0, { b with pend := [(0, 1)] })] })] }
    bStage gTwo = false ∧ bCount gTwo ≤ b.arr0 ∧ sweepFrom gTwo 0 ≠ [] ∧
    (∀ e ∈ sweepFrom gTwo 0, sameRect gTwo (((s b { b with swept := true } 0).core e).bar 0).cfg = true ∧
      (((s b { b with swept := true } 0).core e).bar 0).swept = true ∧ (((s b { b with swept := true } 0).core e).bar 0).phase % 2 = b.phase % 2) ∧
    (sweepFrom gTwo 0).all (fun e => (releaseFrom gTwo e).isSome) = true ∧ releaseFrom gTwo 0 = none ∧
    okSt (fun u ps => ps.all fun p => p.ref.key == 0 && !flipHeld u p.ref.pa)
      (placeAll { hart := r.hart, core := 0, priv := r.priv, kdom := r.kdom, fn := r.fn, eid := r.eid, taint := r.taint, bare := r.bare } .copy .wr false true
         (segsOf 0 r.va 128) (s b b 0)) = true ∧
    errSt (fun _ _ => true)
      (placeAll { hart := r.hart, core := 0, priv := .u, kdom := r.kdom, fn := r.fn, eid := r.eid, taint := r.taint, bare := false } .copy .wr false true
         (segsOf 0 r.va 128) (s b b 0)) = true ∧
    (t.hart t.ev.a).wait = .barTest 0 0 5 10 ∧ 10 ≤ t.islandClock 0 - 0 ∧ ((t.core (coreOf 0)).bar 0).unreleased 0 = true := by decide +kernel

/-! Blackboard, inbox, replies, contexts, launches. -/

/-- Hart 0, and hart 1 of the same class. -/
def sI (x : Hart) (own : Word) (y : Hart) : State :=
  { ({} : State) with harts := [(0, x), (1, y)], classes := [(1, { live := true, harts := [0, 1], bbown := own })] }
def hI : Hart := { hA with bind := .cls 1, x := [(10, 1), (11, 0x2000)] }

theorem wit_InboxAndEnd :
    let s := sI hI 1 { live := true, bind := .cls 1, present := 2, held := [{ reg := 1 }] }
    let a := sI { hI with present := 0x80 } 0 { live := true, bind := .cls 1 }
    let ev : State := { sI { hI with held := [{ writer := 1, reg := 7 }] } 0 { live := true } with ev := { b := 7 } }
    classOf s 0 = 1 ∧ fld (s.cls 1).bbown (4 * 3) 4 = fld s.me.k.kclass 0 4 ∧ fld (s.cls 1).bbown (4 * 0) 4 ≠ fld s.me.k.kclass 0 4 ∧ classOf sA 0 = 0 ∧
    a.me.present.getLsbD 7 = true ∧ s.me.present.getLsbD 7 = false ∧ fld (s.me.getX 11) 13 51 ≠ 0 ∧ fld (s.me.getX 10) 13 51 = 0 ∧
    boundTo s 1 s.me.fn = true ∧ boundTo ev 1 ev.me.fn = false ∧ (s.hart 1).present.getLsbD 1 = true ∧ (a.hart 1).present.getLsbD 1 = false ∧
    (∀ w ∈ (a.hart 1).held, w.reg ≠ 1) ∧ (∃ w ∈ (s.hart 1).held, w.reg = 1) ∧
    (ev.hart ev.ev.a).held.find? (fun y => y.reg == ev.ev.b) = some { writer := 1, reg := 7 } ∧ (ev.hart ev.ev.a).present.getLsbD ev.ev.b = false := by
  decide +kernel

/-- `hdone` outside a binding, in a firing, in a class with another hart that runs, and with the others retired. -/
theorem wit_InboxAndEnd_hdone :
    let s := sI hI 0 { live := true, bind := .cls 1 }
    let l := sI hI 0 { retired := true, bind := .cls 1 }
    sA.me.inClause = false ∧ sA.me.bind = .none ∧ (sFire []).me.bind = .firing { ch := 1 } ∧ s.me.bind = .cls 1 ∧
    (∃ h ∈ (s.cls 1).harts, h ≠ s.cur ∧ (s.hart h).retired = false) ∧
    cohortSaved (s.modMe fun h => { h with retired := true }) (s.cls 1).launch (s.cls 1).cohort = false ∧
    (∀ h ∈ (l.cls 1).harts, h ≠ l.cur → (l.hart h).retired = true) ∧ (l.cls 1).acc = none := by decide +kernel

/-- A reply with action `n` from core 0 to hart 3 of core 1, which waits under id 7, or to its parked copy. -/
def reply (n : Nat) (x : Hart) (rs : List (Nat × Option CopyReq)) : State :=
  { ({} : State) with
    harts := [(0, hA), (19, x)]
    cores := [(0, { sends := [{ id := 1, msg := { hdr := 0x7E01, words := [word (7 + n * 2 ^ 16)] } }] }), (1, { fifo := rs })] }
def blocked : Hart := { live := true, wait := .fault 7 0 0x5000 }
def parked : CopyReq := { rq with st := .parkFault, faultId := 7 }

theorem blocked_alone (n : Nat) : ∀ g, (g / 16 = 1 ∧ ∃ lane va, ((reply n blocked []).hart g).wait = .fault 7 lane va) → g = 19 := by
  intro g ⟨h, _, _, e⟩
  by_contra k
  have k0 : g ≠ 0 := by omega
  simp [reply, State.hart, SMap.get, k, k0] at e

theorem none_blocked (n : Nat) (rs : List (Nat × Option CopyReq)) :
    ∀ g, ¬ (g / 16 = 1 ∧ ∃ lane va, ((reply n {} rs).hart g).wait = .fault 7 lane va) := by
  intro g ⟨h, _, _, e⟩
  have k0 : g ≠ 0 := by omega
  by_cases k : g = 19 <;> simp [reply, State.hart, SMap.get, k, k0] at e

theorem wit_FaultReplies :
    let e : SendEntry := { id := 1, msg := { hdr := 0x7E01, words := [word (7 + 0 * 2 ^ 16)] } }
    let s := reply 0 {} [(2, some parked)]
    ((s.core s.ev.a).sends[s.ev.b]? = some e) ∧ mCh e.msg.hdr = 63 ∧ mCore e.msg.hdr = 1 ∧ fld (word (7 + 0 * 2 ^ 16)) 26 38 = 0 ∧
    (∀ n < 3, fld (word (7 + n * 2 ^ 16)) 16 2 = n ∧ fld (word (7 + n * 2 ^ 16)) 0 16 = 7) ∧ faultCopy s 1 7 = some (2, parked) ∧
    (s.core 1).req 2 = some parked ∧ parked.code = 0 ∧ parked.off ≠ parked.total ∧ parked.res = false ∧ mCore (0x7E00 : Word) % 64 = 0 ∧
    ((s.core 0).chan 63).held = [] ∧ (s.die 0).buf.length < 512 ∧ ((reply 0 blocked []).hart 19).wait = .fault 7 0 0x5000 := by decide +kernel

/-- The fault buffer of die 0 with an entry, and with room while core 0 holds a report. -/
theorem wit_FaultReplies_buffer :
    let s : State := { ({} : State) with dies := [(0, { buf := [{}] })], cores := [(0, { heldReports := [{}] })] }
    (s.die s.ev.a).buf = [{}] ∧ (s.hart (s.ev.a * 1024 + 15)).present &&& 0x0F = 0 ∧ (s.die s.ev.a).buf.length < 512 ∧
    searchUp 64 (s.die s.ev.a).lastHeld (fun j => !(s.core (64 * s.ev.a + j)).heldReports.isEmpty) = some 0 ∧ (s.core 0).heldReports = [{}] := by
  decide +kernel

/-- `kctx.sv` and `kctx.ld` at 0x1000, where version 1 stands; a misaligned area; an operation open; `kscrub` in the three modes. -/
def sCtx : State := putRaw sA 0x20A7 [1]

theorem wit_LaneContext :
    let va : Word := sCtx.me.getX 10
    let open_ : State := { sA with cores := [(0, { sends := [{}] })] }
    fld va 1 6 = 0 ∧ fld va 0 7 = 0 ∧ opsOpenBut sCtx sCtx.cur true = false ∧ opsOpen sCtx sCtx.cur = false ∧ parkedReqs sCtx sCtx.cur = [] ∧
    wmHeld sCtx [(va.toNat, 4736)] = none ∧ (placeMine (whoOf sCtx sCtx.cur true) .lane .wr 1 (lineSegs va 37) sCtx).isOk = true ∧
    okAnd (fun a => okSt (fun _ r => let bs := (r.map (·.2)).flatten
        leToNat ((bs.drop 0x10A7).take 1) == 1 && leToNat ((bs.drop 0x10C0).take 8) % 16 == 0) (readPieces (whoOf sCtx sCtx.cur true) true a.1 a.2))
      (placeMine (whoOf sCtx sCtx.cur true) .lane .rd 0 (lineSegs va 37) sCtx) = true ∧
    fld (2 : Word) 1 6 ≠ 0 ∧ fld (1 : Word) 0 7 ≠ 0 ∧ opsOpenBut open_ open_.cur true = true ∧ opsOpen open_ open_.cur = true ∧
    hA.kmsd ≤ 16 ∧ (∀ k < 12, hA.getCf k < 64) ∧ hA.k.kclst.toNat % 32 ≤ 16 := by decide +kernel

/-- A launch record at virtual 0x800 of function 0 (physical 0x40800), its KCB at 0x100, and a queue of the function, 3. -/
def rec1 : List Word := [0x301, 0x100, 64, 5, 0, 0, 0, 0, 0x1000, 0, 0, 0, 0, 0, 0, 0]
def kcb1 : List Byte :=
  ((List.range 256).map fun i => if i = 0 then 0x4B else if i = 1 then 0x43 else if i = 2 then 0x42 else if i = 3 then 0x31 else if i = 4 then 1
    else if i = 0x1A then 1 else if i = 0x1B then 1 else if i = 0x30 then 5 else 0)
def sL (ws : List Word) (subs : List (Nat × Nat)) (l : Launch) : State :=
  putRaw (putRaw
    { sP .m with
      harts := [(0, { hP .m with x := [(10, 0x40800), (11, 1)] }), (15, { live := true, csr := csrP })]
      mgmt := { s2 := true }
      funcs := [(0, { kroot := 0x10000, tdisp := .run })]
      queues := [(3, { en := true, prio := 2, lsize := 4, base := 0x800, tail := if subs = [] then 1 else 0, subs := subs })]
      launches := [l] }
    0x40800 (wordBytes ws)) 0x40100 kcb1
def lSub : Launch := { id := 7, words := rec1, queue := some 3 }
def lSel : Launch := { lSub with kcb := kcb1, selected := true, prio := 2 }

theorem wit_Launches_submit :
    let s := sL rec1 [] lSel
    let va := s.me.getX 10
    va.toNat % 128 = 0 ∧ (s.me.getX 11).toNat % 128 ≠ 0 ∧ ¬ (256 ≤ (s.launches.filter fun l => !l.selected).length ∨ acceptsLaunch s s.me.fn = false) ∧
    acceptsLaunch sA sA.me.fn = false ∧
    okAnd (fun a => (tagBroken a.2 (whoOf s s.cur true) a.1).isNone && !poisonIn a.2 (whoOf s s.cur true) a.1 && !flipsOpen a.2 &&
      wordsOf (seenPieces a.2 (whoOf s s.cur true) a.1) == rec1) (placeMine (whoOf s s.cur true) .copy .rd 5 (tileSegs va 128) s) = true ∧
    fld (recW rec1 0) 8 6 = 3 ∧ (s.queue 3).en = true ∧ (s.queue 3).fn = s.me.fn ∧ ¬ ((s.queue 2).en = true ∧ (s.queue 2).fn = s.me.fn) ∧
    s.launches.length < 0xFFFF ∧ 1 ≤ s.launchSeq := by decide +kernel

/-- A record that is poison, under a flip of another page, whose check fails, whose page is between biases. -/
theorem wit_Launches_submit_forms :
    let s := sL rec1 [] lSel
    let w := whoOf s s.cur true
    let va := s.me.getX 10
    let u : State := { s with harts := [(0, { hP .u with x := [(10, 0x20000), (11, 1)] })] }
    let fl := fun (page : Word) => ({ s with funcs := [(0, { kroot := 0x10000, tdisp := .run, kbiasRun := page, kbiasGo := true })] } : State)
    okAnd (fun a => poisonIn a.2 w a.1 && (tagBroken a.2 w a.1).isNone)
      (placeMine w .copy .rd 5 (tileSegs va 128) { s with lines := [(0x810, { psn := true })] }) = true ∧
    okAnd (fun a => flipsOpen a.2 && !poisonIn a.2 w a.1) (placeMine w .copy .rd 5 (tileSegs va 128) (fl 0x50000)) = true ∧
    okSt (fun t ps => ps.any fun p => flipHeld t p.ref.pa) (placeAll w .copy .rd false false (tileSegs va 128) (fl 0x40000)) = true ∧
    errSt (fun _ _ => true) (placeAll (whoOf u 0 true) .copy .rd false false (tileSegs (u.me.getX 10) 128) u) = true := by decide +kernel

theorem wit_Launches_select :
    let s := sL rec1 [(7, 0)] lSub
    let bad := sL [] [(7, 0)] { lSub with words := [] }
    let r := sL rec1 [] lSel
    (activeLaunches s).length < 16 ∧ flipsOpen s = false ∧ s.launch? 8 = none ∧ selectQueue sA = none ∧ selectQueue s = some (2, 3) ∧ (s.queue 3).subFirst = true ∧ s.launch? 7 = some lSub ∧ recordOk lSub.words = true ∧
    okAnd (fun a => !unplaceable a.1) (kcbCheck lSub s) = true ∧ okAnd (fun _ => true) (kcbCheck { lSub with words := [0x301, 0x200, 64, 5] } s) = false ∧
    (bad.queue 3).subFirst = true ∧ recordOk ([] : List Word) = false ∧ selectQueue r = some (2, 3) ∧ (r.queue 3).subFirst = false ∧
    (ttRead r 0 0 (sext (setFld (r.queue 3).base 0 7 0) 55 + word (128 * (r.queue 3).head)) 128).2.isSome = true ∧
    (ttRead { r with funcs := [] } 0 0 (sext (setFld (r.queue 3).base 0 7 0) 55 + word (128 * (r.queue 3).head)) 128).2 = none := by decide +kernel

theorem wit_Launches_bind :
    let s := sL rec1 [] lSel
    bindOrder s = [lSel] ∧ s.saved = [] ∧ lSel.next < recCohorts lSel.words ∧ recExt lSel.words 2 = 1 ∧ lSel.htab = [] ∧ kcbPools lSel.kcb = [] ∧
    coreFits s lSel 0 = true ∧ flipsOpen s = false ∧ s.launch? 0 = none ∧ bindOrder sA = [] ∧
    (bindClass lSel {} 0 none 0 s).isSome = true ∧ s.launch? 7 = some lSel ∧ (7 : Nat) ≠ 0 ∧ launchBusy s 7 = false ∧
    (lSel.killed ≠ none ∨ lSel.selected = true ∧ recCohorts lSel.words ≤ ({ lSel with ended := 1 } : Launch).ended) ∧
    kcbFlag ({ lSel with kcb := kcb1.set 7 2 } : Launch).kcb 1 = true ∧ lSel.killed = none := by decide +kernel

/-! Registers, slabs, scalar memory, trust, the system interface. -/

theorem wit_CsrAccess : ∃ i n, (i, n) ∈ csrForms 0x301 { kind := .rs, imm := false, src := 0, rd := 5 } ∧ (0x301, (0 : Word)) ∉ maskedCsrs ∧
    0x301 / 256 % 4 ≤ sA.me.priv.code ∧ ¬ (0x301 / 1024 = 3) ∧ csrOpen sA.me 0x301 = true ∧ (csrRead sA sA.cur 0x301).isSome = true ∧
    csrRead sA sA.cur 0x5C1 = none ∧ 15 * 2 ^ 48 ≤ 15 * 2 ^ 48 + 8 ∧ (15 * 2 ^ 48 + 8) % 8 = 0 :=
  ⟨_, _, .head _, by decide +kernel⟩

/-- A write that completes, and one that waits, of the register of a busy unit; a CSR under a mask of each kind; a locked PMP entry, the last. -/
theorem wit_CsrAccess_write :
    let busy : State := { sA with funcs := [(0, { ktinvGo := true })] }
    let l : Csrs := { pmpcfg := [(63, 0x80)] }
    (match csrWrite sA sA.cur 0x340 5 with | .ok _ => true | .wait _ => false) = true ∧
    (match csrWrite busy busy.cur 0x5C2 0x8000000000000000 with | .ok _ => false | .wait _ => true) = true ∧
    (match mmioWrite sA {} (15 * 2 ^ 48) 0 with | .ok _ => true | .wait _ => false) = true ∧ maskedCsrs ≠ [] ∧ maskedStd ≠ [] ∧
    customCsr 0x3A0 = false ∧ (l.pmpcfg.get 0 63).getLsbD 7 = true ∧ bitOf l.mseccfg 2 = false := by decide +kernel

/-- Cluster 0 with the mode of slab 0 pool and of slab 1 scratch; a switch draining, and clearing. -/
def cSl (ph : Nat) : Cluster := { modes := [(0, 3), (1, 1)], slabPhase := ph, swSlab := 0, swNew := 0 }
theorem wit_Slabs :
    let s := fun ph => ({ ({} : State) with clusters := [(0, cSl ph)] } : State)
    (cSl 0).slabGo = false ∧ (cSl 0).mode 0 = 3 ∧ (cSl 0).mode 15 = 0 ∧ ({ cSl 0 with modes := (List.range 15).map fun i => (i, 3) } : Cluster).mode 15 = 0 ∧
    (∀ i < 16, ({ cSl 0 with modes := (List.range 15).map fun i => (i, 3) } : Cluster).mode i = 0 → i = 15) ∧ ((s 1).cluster 0).slabPhase = 1 ∧
    (∀ i < 64, ((cSl 1).slot (64 * 0 + i)).st = .free) ∧ ((s 2).cluster 0).slabPhase = 2 ∧ scratchHeld (s 1) 0 = [] ∧ entriesIn (s 1) 0 0 = 0 ∧
    (s 1).allKlines 0 = [] ∧ entriesIn { s 1 with cores := [(0, { chans := [(1, { ents := [(0, 4)] })] })] } 0 0 ≠ 0 ∧ bitOf (0xC000000000000000 : Word) 62 = true := by
  decide +kernel

/-- A partition of one unit on the pool slab; 0 slots, too many, off the slab; an owner entry that fits and one beyond the count. -/
theorem wit_Partitions :
    let v : Word := 0x8000000000010000
    fld v 16 11 = 1 ∧ bitOf v 63 = true ∧ fld (0 : Word) 16 11 = 0 ∧ 1024 < fld (0x7FF0000 : Word) 16 11 ∧ (cSl 0).mode (64 / 64) ≠ 3 ∧
    minSum ([] : SMap Owner) ≤ 1 ∧ minSum ([(0, { v := true, min := 2 })] : SMap Owner) > 1 ∧
    ({ poolEv := [(5, true)] } : Die).poolEv = (5, true) :: [] ∧ ({} : Die).poolEv = [] := by decide +kernel

/-- A page that the tables map, and one that they do not; an address that is not canonical. -/
theorem wit_Invalidation :
    let s := sP .m
    (∀ e ∈ (s.cluster 0).tlb 0, e.covers 0 0 = false) ∧ canonical 0 = true ∧ okAnd (fun _ => true) (walk s 0 0) = true ∧
    okAnd (fun _ => true) (walk s 0 0x10000) = false ∧ canonical (0x40000000000000 : Word) = false ∧ (s.cluster 0).tlbMat.length < 512 ∧
    ({ ktinvGo := true } : Func).ktinvGo = true ∧ bitOf (0x8000000000000000 : Word) 63 = true := by decide +kernel

/-- A flip of a page that the function maps (frame 4), towards each side; of one that it does not; a flip under way. -/
def sBias (v : Word) (go : Bool) : State :=
  { sP .m with mgmt := { s2 := true }, funcs := [(0, { kroot := 0x10000, tdisp := .run, kbias := v, kbiasRun := v, kbiasGo := go })], ev := { w := 0xC000000000040000 } }
theorem wit_Bias :
    (sBias 0 false).mgmt.s2 = true ∧ sA.mgmt.s2 = false ∧ ownsPage (sBias 0 false) 0 4 = true ∧ ownsPage (sBias 0 false) 0 5 = false ∧
    deviceBias (sBias 0 false) 4 = false ∧ bitOf (0x4000000000000000 : Word) 62 = true ∧ ((sBias 0x40000 true).func 0).kbiasGo = true ∧
    fld ((sBias 0x40000 true).func 0).kbiasRun 16 36 = 4 ∧ (mappers (sBias 0x40000 true) 4).length = 1 ∧ ((sBias 0 false).func 0).tdisp = .run ∧
    (sA.func 0).tdisp ≠ .run ∧
    (match kbiasWrite (sBias 0 false) 0 0 0xC000000000040000 with | .ok _ => true | .wait _ => false) = true ∧
    (match kbiasWrite (sBias 0 true) 0 0 0xC000000000040000 with | .ok _ => false | .wait _ => true) = true ∧
    ((({ ({} : State) with cores := [(0, { kflush := true })] } : State).core 0).kflush = true) := by decide +kernel

/-- An empty channel and the least and greatest DEPTH; one that holds a message; a ring in use; a queue with a value. -/
theorem wit_ChannelRegisters :
    (4 ≤ fld (4 : Word) 0 7 ∧ fld (4 : Word) 0 7 ≤ 64 ∧ fld (64 : Word) 0 7 ≤ 64) ∧ 64 ≤ entriesFree ({ ({} : State) with clusters := [(0, { modes := [(0, 2)] })] } : State) 0 ∧
    ({} : Channel).hw = [] ∧ ({} : Channel).rcnt = 0 ∧ ({ rcnt := 1 } : Channel).rcnt ≠ 0 ∧ ¬ ({ hw := [{}] } : Channel).hw = [] ∧
    ({ vals := [{}] } : HwQueue).vals ≠ [] ∧ fld (7 : Word) 0 16 ≠ 0 ∧ (sL rec1 [] lSel).launch? 7 = some lSel := by decide +kernel

/-- Hart 1 as hart 0's sibling: running, retired, halted; a class that may save, restores, and has another hart that runs. -/
def sSib (y : Hart) : State := sI { hI with k := { ksibsel := 1, kpreReq := true } } 0 y
theorem wit_SiblingsAndSaves :
    let s := sSib { live := true, bind := .cls 1 }
    let x := sSib { live := true, bind := .cls 1, retired := true }
    let y := sSib { live := true, bind := .cls 1, halted := true }
    sibling s 0 = some 1 ∧ sibling sA 0 = none ∧ (s.hart 1).retired = false ∧ (s.hart 1).halted = false ∧ (x.hart 1).retired = true ∧ sibling x 0 = some 1 ∧
    (y.hart 1).halted = true ∧ isFiring (sFire []) 0 = true ∧ isFiring s 0 = false ∧ (s.hart 0).bind = .cls 1 ∧ (s.hart 0).k.kpreReq = true ∧
    (s.cls 1).resumed = false ∧ (∃ g ∈ (s.cls 1).harts, g ≠ 0 ∧ (s.hart g).retired = false ∧ (s.hart g).k.kpreDone = false) ∧
    (∀ g ∈ (x.cls 1).harts, g ≠ 0 → (x.hart g).retired = true ∨ (x.hart g).k.kpreDone = true) ∧ bitOf (0x2000000000000000 : Word) 61 = true := by
  decide +kernel

/-- The checks of ScalarPlaced, as a test: it is placed in memory that no key seals, its line may enter the cluster and is not poison. -/
def placedOk (s : State) (a : Acc) (n : Nat) (va : Word) : Bool :=
  let w := whoOf s s.cur true
  let mxr := bitOf s.me.csr.mstatus 19
  let good := fun (t : State) (r : PRef) => decide (paKind r.pa ≠ .mmio) && r.key == 0 && !isPeer (r.pa / 128) && r.pa % 128 == va.toNat % 128 &&
    entryOk t w (va.toNat / 128) r.key (r.pa / 128) && (scalHit t w (va.toNat / 128)).isNone && (peerHome t w (va.toNat / 128) r).2 == r && (lineIn t w va r).2.any fun y => !y.psn
  va.toNat % n == 0 && (wmHeld s [(va.toNat, n)]).isNone &&
    okSt (fun t0 r0 => !flipHeld t0 r0.pa && (if a.writes then okSt good (Machine.translate t0 w .scalar a mxr true va n) else good t0 r0))
      (Machine.translate s w .scalar a mxr false va n)

theorem wit_ScalarMemory :
    let wm : State := { sA with cores := [(0, { wm := [(2, { base := 0x1000, len := 128, st := 1 })] })] }
    let er : State := { sA with cores := [(0, { wm := [(2, { base := 0x1000, len := 128, st := 3 })] })] }
    placedOk sA .rd 8 0x1000 = true ∧ placedOk sA .wr 8 0x1000 = true ∧ placedOk sA .rw 4 0x1004 = true ∧ (0x1001 : Word).toNat % 2 ≠ 0 ∧
    wmHeld wm [(0x1000, 8)] = some none ∧ wmHeld er [(0x1000, 8)] = some (some 0x1000) ∧
    errSt (fun _ _ => true) (Machine.translate sU (whoOf sU sU.cur true) .scalar .rd false false 0x1000 8) = true ∧ sOff.me.fs = 0 ∧ sA.me.fs ≠ 0 ∧
    (mini { hA with resv := some 0x20 }).me.resv = some (0x1000 / 128) ∧ sA.me.resv ≠ some (0x1000 / 128) ∧
    placedOk { sA with lines := [(0x20, { psn := true })] } .rd 8 0x1000 = false ∧ placedOk (sP .s) .rd 8 0x100 = true ∧ placedOk (sP .s) .rw 8 0x100 = true := by
  decide +kernel

/-- A doubleword access of the MMIO range. -/
theorem wit_ScalarMemory_mmio :
    let va : Word := 0xF000000000000
    paKind va.toNat = .mmio ∧ wmHeld sA [(va.toNat, 8)] = none ∧
    okSt (fun t r => r.pa == va.toNat && !flipHeld t r.pa) (Machine.translate sA (whoOf sA sA.cur true) .scalar .rd false false va 8) = true ∧
    okSt (fun t0 r0 => !flipHeld t0 r0.pa && okSt (fun t r => r.pa == va.toNat && (match mmioWrite t {} r.pa 0 with | .ok _ => true | .wait _ => false))
      (Machine.translate t0 (whoOf sA sA.cur true) .scalar .wr false true va 8)) (Machine.translate sA (whoOf sA sA.cur true) .scalar .wr false false va 8) = true := by
  decide +kernel

/-- Slot 4, the first that may change, empty and loaded; slot 0; the book with room and full. -/
def sKey (l : Bool) (n : Nat) : State := { sA with keys := [(4, { loaded := l, mac := 1 })], book := { next := n } }
theorem wit_KeyStore :
    ((sKey true 0).key 4).loaded = true ∧ ((sKey false 0).key 4).loaded = false ∧ ((sKey true 0).key 4).fn < 256 ∧ ((sKey true 0).key 4).eid < 65536 ∧
    bookFull (sKey true 0) = false ∧ bookFull (sKey true (2 ^ 20)) = true ∧ (∀ op < 8, fld (word (op * 2 ^ 60)) 60 3 = op) ∧
    (match unwrapBlob (sKey false 0) 0 0 with | .ok _ => false | .error n => n == 3 || n == 4) = true := by decide +kernel

/-- Region 0 locked with both flags set, and open; a transaction that the credit admits, and one short of a byte; a boundary of a microsecond. -/
def sHall (credit : Nat) : State :=
  { sA with regions := [(0, { en := true, conf := true, lock := true, doms := 1, buckets := [(0, { rate := 1, depth := 64, credit := credit })] })]
            egress := [{ mask := 1, bytes := List.replicate 64 0 }], clock := 2100 }
theorem wit_HallMonitor :
    ((sHall 64).region 0).lock = true ∧ ((sHall 64).region 0).en = true ∧ ((sHall 64).region 1).lock = false ∧ bookFull (sHall 64) = false ∧
    egressHead (sHall 64) 0 0 = some (0, { mask := 1, bytes := List.replicate 64 0 }) ∧
    (64 ≤ (((sHall 64).region 0).buckets.get {} 0).credit) ∧ (((sHall 63).region 0).buckets.get {} 0).credit < 64 ∧
    (sHall 64).mgmt.usDone < (sHall 64).time / 100 ∧ sA.time / 100 ≤ sA.mgmt.usDone := by decide +kernel

/-- A call of Mladotte by a hart of function 0, its enclave 1 in x10; a page of its address space, and one it does not have. -/
def sMl (fin : Bool) : State :=
  { sP .m with
    harts := [(0, { hP .m with x := [(10, 1), (11, 0), (12, 0), (16, 1), (17, 0x4B4D)], csr := { csrP with mcause := 9 } })]
    enclaves := [(1, { alive := true, final := fin, pages := if fin then [(0, 4)] else [] })] }
theorem wit_Enclaves :
    let s := sMl false
    let h := s.hart s.ev.a
    (∃ i n e, (i, n, e) ∈ mladotteCalls) ∧ h.priv = .m ∧ h.getX 17 = 0x4B4D ∧ h.csr.mcause = 9 ∧ h.getX 16 = word 1 ∧
    (callEnclave s 0).isSome = true ∧ callEnclave { s with enclaves := [] } 0 = none ∧ bookFull s = false ∧ bookFull { s with book := { next := 2 ^ 20 } } = true ∧
    (∀ j < 1, (s.enclaves.get {} (j + 1)).alive = true) ∧ (s.enclaves.get {} 2).alive = false ∧ (callPage s 0 0).isSome = true ∧
    callPage s 0 0x10000 = none ∧ bitOf (mfEntry s 4) 63 = false ∧ ((sMl true).enclaves.get {} 1).final = true ∧ SMap.wf {} s.keys = true ∧
    SMap.wf {} s.cores = true := by
  refine ⟨⟨_, _, _, .head _⟩, ?_⟩
  decide +kernel

/-- `extend` over the last byte of the enclave's page. -/
theorem wit_Enclaves_extend :
    let s := sMl true
    let y := s.enclaves.get {} 1
    1 ≤ 65536 * y.pages.length ∧ pagesOf (0xFFFF : Word) 1 = [0] ∧
    (callPage s y.fn 0).any (fun x => y.pages.contains (x.1.vpn, x.1.pa / 65536)) = true := by decide +kernel

/-- A line of a mapped page that may be filled; an address without a page. -/
theorem wit_LinesAndErrors_fill :
    let s : State := { sP .m with ev := { w := 0 } }
    let w : Who := { core := s.ev.a, fn := s.ev.b, eid := (s.core s.ev.a).kencl.toNat }
    okAnd (fun x => paKind (x.1.phys s.ev.w) == .hbm && keyUsable s x.1.key 0 w.eid && entryOk s w 0 x.1.key (x.1.phys s.ev.w / 128)) (walk s 0 0) = true ∧
    okAnd (fun _ => true) (walk s 0 0x10000) = false := by decide +kernel

/-- A core that an enclave may enter, with room for its records; one that is full; the last byte of a page that Mladotte reads. -/
theorem wit_Enclaves_enter :
    let s := sMl true
    switchWaits s 0 = false ∧ (s.core 0).resident.length < 8 ∧ bookRoom s 2 = true ∧ bookRoom { s with book := { next := 2 ^ 20 } } 1 = false ∧
    (s.core 0).kencl = 0 ∧ 8 ≤ (({ s with cores := [(0, { resident := [2, 3, 4, 5, 6, 7, 8, 9] })] } : State).core 0).resident.length ∧
    (callPage s 0 0).any (fun x => okAnd (fun _ => true) (pagesBytes s [x.1] 0xFFFF 1)) = true := by decide +kernel

/-- ACK within its bounds and outside; a signature due, and none; a block, and none; a function in RUN and one not. -/
theorem wit_BookAndResets :
    let s : State := { sA with book := { next := 5, ack := 2, due := true }, ev := { w := 5 } }
    s.book.ack ≤ s.ev.w.toNat ∧ s.ev.w.toNat ≤ s.book.next ∧ (1 : Word).toNat < s.book.ack ∧ s.book.next < (6 : Word).toNat ∧ bookFull s = false ∧
    s.book.due = true ∧ sA.book.due = false ∧ sA.book.signReq = false ∧ (measBlock sA 0 1).isSome = true ∧ measBlock sA 0 4 = none ∧
    ((sBias 0 false).func 0).tdisp = .run ∧ (sA.func 0).tdisp = .unlocked ∧ SMap.wf {} sA.harts = true ∧ SMap.wf {} sA.classes = true ∧
    ({ s with book := { next := 2 ^ 20 } } : State).book.next - 0 = 2 ^ 20 := by decide +kernel

/-- A token that fails its checks (R361). -/
theorem wit_BookAndResets_token : tokenOk { sA with mgmt := { sA.mgmt with token := sA.mgmt.token.set 0 11 sA.ev.w } } = false := by decide +kernel

/-- Each stage next in order; a millisecond's boundary with islands at 94, 95 and 100 degrees; the trip at 115. -/
theorem wit_StartUpAndHealth :
    let s : State := { sA with mgmt := { s0 := true } }
    let t : State := { sA with clock := 2100000, ev := { a := 2401, nums := [94, 95, 100], bytes := [2] } }
    sA.mgmt.fail = 0 ∧ s.mgmt.s0 = true ∧ s.mgmt.s1 = false ∧ s.mgmt.fail = 0 ∧ s.mgmt.epoch < 4096 ∧ bookFull s = false ∧ sA.mgmt.s0 = false ∧
    sA.mgmt.s1 = false ∧ ({ s1 := true } : Mgmt).s2 = false ∧ t.mgmt.msDone < t.time / 100000 ∧ sA.time / 100000 ≤ sA.mgmt.msDone ∧
    t.mgmt.pwrlim < t.ev.a ∧ (∃ b ∈ t.ev.bytes, b.toNat = 2) ∧ nth 0 t.ev.nums 0 < 95 ∧ 95 ≤ nth 0 t.ev.nums 1 ∧ 100 ≤ nth 0 t.ev.nums 2 ∧
    t.ev.a ≠ 5 ∧ 4096 ≤ ({ epoch := 4096 } : Mgmt).epoch ∧ ({ sA with clock := 128, mgmt := { islands := [(0, { stretch := true, till := 128 })] } } : State).clock = 128 ∧
    (({ sA with mgmt := { islands := [(0, { stretch := true, till := 128 })] } } : State).island 0).stretch = true := by decide +kernel
/-- R332, R402: S mode is kept out of Mladotte's region, the management block is M mode's, and PMP entries 0 and 1 read as locked. -/
theorem pmp_r332 :
    let s : State := { sA with mgmt := { s1 := true, mlBase := 0x100000, mlSize := 0x10000 } }
    let c : Csrs := { pmpcfg := [(2, 0x1F)], pmpaddr := [(2, 0x3FFFFFFFFFFFFF)] }
    pmpPasses s c .s 0x10FFFF true false false = false ∧ pmpPasses s c .m 0x10FFFF true true true = true ∧
    pmpPasses s c .s 0x110000 true true true = true ∧ pmpPasses s c .m 0x110000 false false true = false ∧
    pmpPasses s c .s 0xF001000000000 true false false = false ∧ csrRead s 0 0x747 = some 1 ∧ csrRead s 0 0x3A0 = some 0x8B80 ∧
    csrRead sA 0 0x3A0 = some 0 := by decide +kernel

/-- A page of the host's memory in HBM, outside Mladotte's region, and no memory; the host window; a page exported to peers and not. -/
def sHost : State := putRaw { sA with mgmt := { s2 := true, mlBase := 0x100000, mlSize := 0x10000, podValid := true, nohexp := 0x20000 }, funcs := [(0, { tdisp := .run })] } 0x20000 [1]
theorem wit_HostAndPeers :
    hostBacked sHost 0x1000 = true ∧ hostBacked sHost 0x100000 = false ∧ hostBacked sA 0x1000 = false ∧ flipHeld sHost 0x1000 = false ∧
    poisonAt sHost 0x1000 64 = false ∧ hostBacked (sBias 0x40000 true) 0x40000 = true ∧ flipHeld (sBias 0x40000 true) 0x40000 = true ∧
    paKind (2 ^ 48) = .host ∧ peerAccepts sHost 0x1000 = true ∧ peerAccepts sHost 0x10000 = false ∧ SMap.wf {} sHost.harts = true ∧ (23 : Nat) < 24 := by decide +kernel

/-- A peer that a link reports, one that none does. -/
theorem wit_HostAndPeers_peers :
    let s : State := { sHost with mgmt := { sHost.mgmt with links := [(3, true)], peers := [5] } }
    paKind (8 * 2 ^ 48 + 5 * 2 ^ 40) = .peer 5 ∧ backed s (8 * 2 ^ 48 + 5 * 2 ^ 40) = true ∧ backed s (8 * 2 ^ 48 + 6 * 2 ^ 40) = false := by decide +kernel

/-- A transmit ring with a descriptor of a frame of 64 bytes at virtual 0x2000; a receive ring; one whose page is not mapped; a queue in RUN;
a kill of a launch. -/
def sEth (rx : Bool) (at_ : Word) : State :=
  putRaw { sP .m with harts := [(0, hP .m), (15, { csr := csrP })]
                      funcs := [(0, { kroot := 0x10000, tdisp := .run
                                      rings := [(0, { base := at_, en := true, rx := rx, size := 1, tail := 1, kdom := 0xF000000FF, priv := .s })] })] }
    0x40800 (natToLe 8 0x2000 ++ natToLe 2 64)
theorem wit_Rings :
    let r := ((sEth false 0x800).func 0).ring 0
    let q := ((sEth false 0x20000).func 0).ring 0
    (r.en = true ∧ r.rx = false ∧ ¬ r.head = r.tail % (r.size + 1)) ∧ (((sEth true 0x800).func 0).ring 0).rx = true ∧
    (match unitRead (sEth false 0x800) (portWho (sEth false 0x800) 0 r) (r.base + word (32 * r.head)) 32 with
      | (t, some bs) => leToNat ((bs.drop 8).take 2) == 64 && ((unitRead t (portWho t 0 r) (leWord (bs.take 8)) 64).2).isSome &&
          (unitWrite t (portWho t 0 r) (leWord (bs.take 8)) (List.replicate 64 0)).2
      | _ => false) = true ∧
    (unitRead (sEth false 0x20000) (portWho (sEth false 0x20000) 0 q) (q.base + word (32 * q.head)) 32).2 = none := by decide +kernel

/-- No page is between biases, and one is. -/
theorem wit_Rings_flips : flipsOpen (sEth false 0x800) = false ∧ flipsOpen (sBias 0 true) = true ∧ ((sEth false 0x800).func 0).tdisp = .run := by decide +kernel

theorem wit_Queues :
    let s : State := { sL rec1 [] lSel with classes := [] }
    (s.mgmt.s2 = true ∧ (s.queue 0).en = false) ∧ (s.queue 3).en = true ∧ (s.queue 3).fn ≠ 1 ∧ (s.queue 3).ringHolds = true ∧ (s.queue 0).ringHolds = false ∧
    (s.func 0).ktkillGo = false ∧ s.launch? 7 = some lSel ∧ lSel.fn = 0 ∧ lSel.killed = none ∧ SMap.wf {} s.classes = true := by decide +kernel

/-! ### Further clauses of the statements -/

/-- The piece of lane 0 is of a page without a key, outside the peer windows, in a line that neither L1 nor cluster holds. -/
theorem wit_LaneLoad_piece :
    let w := laneWho sA fM
    okAnd (fun a => a.1.all fun p => p.ref.key == 0 && !isPeer (p.ref.pa / 128) && p.ref.pa % 128 == p.seg.at_.toNat % 128 && a.2.myCore.l1.isEmpty &&
      (a.2.kline w (p.seg.at_.toNat / 128)).isNone && p.ref.pa / 128 == 0x20) (placeMine w .lane .rd 0 (laneSegs (accsOf sA fM) 4) sA) = true ∧
    (List.length <$> (placeMine w .lane .rd 0 (laneSegs (accsOf sA fM) 4) sA).toOption.map (·.1)) ≠ some 0 := by decide +kernel

/-- An update of a scratch word that writes. -/
theorem wit_LaneScratch_update : ∃ (u : Update) (v : Nat), (u 1 2 3).1 = some v ∧ v < 2 ^ (8 * 4) := ⟨fun m c _ => (some (m + c), {}), 3, rfl, by decide⟩

/-- A class that is resumed, or whose other hart has retired, with its area at 0x10000: read and written; a page that is not mapped; poison in the
area and in the scratch; a slot's header whose CRC fails. -/
def sSave (md : Priv) (psn : Bool) : State :=
  let y := hI
  { ({} : State) with
    harts := [(0, { y with priv := md, csr := if md == .m then {} else { satpMode := 15 }, k := { kcsarea := 0x10000 } }), (1, { live := true, bind := .cls 1, retired := true })]
    classes := [(1, { live := true, resumed := true, harts := [0, 1], scrSize := 4, scrPsn := [(0, psn)] })]
    lines := if psn then [(0x200, { psn := true })] else [] }
theorem wit_SiblingsAndSaves_area :
    let s := sSave .m false
    let w := copyWho s 0
    let va := sext (setFld (s.hart 0).k.kcsarea 0 7 0) 55
    let gs := tileSegs va (areaLen (s.cls 1))
    (s.cls 1).resumed = true ∧ (∀ p ∈ (s.cls 1).scrPsn, p.2 = false) ∧ (∃ p ∈ ((sSave .m true).cls 1).scrPsn, p.2 = true) ∧
    okSt (fun t ps => !poisonIn t w ps && (tagBroken t w ps).isNone && ps.all fun p => p.ref.key == 0 && p.ref.pa % 128 == p.seg.at_.toNat % 128 &&
      p.lines.all fun l => (t.kline w l.1).isNone) (placeAll w .copy .rd false false gs s) = true ∧
    okSt (fun t ps => poisonIn t w ps) (placeAll w .copy .rd false false gs (sSave .m true)) = true ∧
    okSt (fun t _ => okSt (fun _ qs => qs.all fun q => q.ref.key == 0) (placeAll w .copy .wr false true gs t)) (placeAll w .copy .wr false false gs s) = true ∧
    errSt (fun _ _ => true) (placeAll (copyWho (sSave .u false) 0) .copy .rd false false gs (sSave .u false)) = true ∧
    errSt (fun _ _ => true) (placeAll (copyWho (sSave .u false) 0) .copy .wr false false gs (sSave .u false)) = true := by decide +kernel
theorem wit_SiblingsAndSaves_spoilt : ¬ AreaSpoilt {} [] ∧ AreaSpoilt { acc := some 1 } [] := by
  refine ⟨fun h => ?_, 1, rfl, .inr ⟨0, by decide, by decide +kernel⟩⟩
  obtain ⟨a, h, -⟩ := h
  cases h

/-- A request that waits for its source's reads, and a fence without a predecessor set; a gather at a page's end. -/
theorem wit_CopyStart_waitTile :
    let r : CopyReq := { rq with w0 := mkHandle 1 0 0 4, w3 := 0x20, st := .waitTile }
    r.srct = true ∧ (reserveSource (sStart r) r).isNone = true ∧ (0, r) ∈ reqsOf (sStart r) 0 ∧
    (let q : CopyReq := { r with w0 := mkHandle 1 0 0 2 }
     (reserveSource (sStart q) q).any (·.toOption.isSome) = true) ∧
    pieceSize { rq with w1 := 0x1FFFE, w2 := 8, w3 := word (3 + 3 * 2 ^ 8) } = 2 := by decide +kernel

/-- A contribution of one copy, at work, whose line's tag fails. -/
theorem wit_Reduce_fault :
    let r : CopyReq := { rq with seq := 9, st := .working }
    let s : State := { sStart r with lines := [(0x20, { tag := 1 })], keys := [(4, { loaded := true, mac := 1 })] }
    let x : Contrib := { line := 0x20, key := 4, els := [(0x1000, 1)], size := 4, parts := [{ core := 0, seq := 9, off := 0 }] }
    tagOk s x.key x.line = false ∧ (s.core 0).req 0 = some r ∧ (∀ y ∈ reqsOf s 0, y.1 = 0 ∨ y.2.seq = 9 → y = (0, r)) := by decide +kernel

/-- A full book with a stalled bucket, a bucket that stalls for the first time, one that has. -/
theorem wit_HallMonitor_held :
    let e : Egress := { mask := 1, bytes := List.replicate 64 0 }
    let s := fun (n : Nat) (b : Bool) => ({ sHall 63 with book := { next := n }, regions := [(0, { en := true, buckets := [(0, { credit := 63, stall := b })] })] } : State)
    let fresh := fun (s : State) => (List.range 16).filter fun g => e.mask.getLsbD g && (s.region g).en &&
      decide (((s.region g).buckets.get {} (2 * e.cls + e.die)).credit < e.bytes.length) && !((s.region g).buckets.get {} (2 * e.cls + e.die)).stall
    bookFull (s (2 ^ 20) true) = true ∧ (((s (2 ^ 20) true).region 0).buckets.get {} 0).stall = true ∧ fresh (s 0 false) = [0] ∧ fresh (s 0 true) = [] ∧
    bookFull (s 0 false) = false ∧ ([1, 2, 3] : List Word).length ≤ 9 := by decide +kernel

/-- Calls that wait: under a flip, with a copy of the hart, with a contribution of the page in transit; the switch waits for an open operation. A nonce that reads, and one whose
line is poison; a line under Mladotte's key whose tag fails, written in part and whole. -/
theorem wit_Enclaves_waits :
    let s := sMl true
    let fl : State := { s with funcs := [(0, { kroot := 0x10000, kbiasGo := true })] }
    let cp : State := { s with harts := [(0, { s.hart 0 with bind := .cls 1 })], cores := [(0, { fifo := [(0, some { hart := 0 })], sends := [{}] })] }
    let ct : State := { s with dies := [(0, { transit := [{ parts := [{ vline := 0 }] }] })] }
    let bad : State := { s with mgmt := { mlBase := 0x50000, mlSize := 0x10000, s2 := true, kmfmap := 0x1000000000 }, lines := [(0xA00, { tag := 1 })] }
    let broken := fun (a n : Nat) => (linesOf a n).any fun l => !tagOk bad (bareKey bad (128 * l)) l && !(decide (a ≤ 128 * l) && decide (128 * l + 128 ≤ a + n))
    (List.range 9).all (fun n => !callWaits s 0 n) = true ∧ callWaits fl 0 1 = true ∧ callWaits fl 0 8 = true ∧ copiesOpen cp 0 = true ∧ callWaits cp 0 2 = true ∧
    callWaits cp 0 4 = true ∧ contribOn ct 0 = true ∧ callWaits ct 0 1 = true ∧
    okAnd (fun n => n.length == 32) (bareRead s 0x1000 32) = true ∧ (linesOf 0x1000 32).all (fun l => bareKey s (128 * l) == 0 && !isPeer l) = true ∧
    okAnd (fun _ => true) (bareRead { s with lines := [(0x20, { psn := true })] } 0x1000 32) = false ∧
    broken 0x50000 32 = true ∧ broken 0x50000 128 = false ∧ broken 0x1000 32 = false := by decide +kernel

/-- Reads of the function's configuration space, of nothing, and of a register by the host; maps in their form. -/
theorem wit_BookAndResets_reads :
    let s := fun (b : Nat) (w : Word) => ({ sA with ev := { b := b, w := w } } : State)
    (s 1 0x0C).ev.b = 1 ∧ (s 0 0).ev.b ≠ 1 ∧ ((s 0 8).ev.w ≠ 0 ∧ (s 0 8).ev.w.toNat < 15 * 2 ^ 48) ∧
    (s 0 0xF001000000004).ev.w.toNat % 8 ≠ 0 ∧ 15 * 2 ^ 48 ≤ (s 0 0xF001000000008).ev.w.toNat ∧ (s 0 0xF001000000008).ev.w.toNat % 8 = 0 ∧
    SMap.wf {} sA.enclaves = true ∧ ((0x12 : Word) = 0x12 ∨ (0x12 : Word) = 0x13) := by decide +kernel

/-- Mladotte's region with a size and without; a sensor at 115 among the islands and the stacks, and none; a trip of each kind. -/
theorem wit_StartUp_sensors :
    nth 0 [0x100000, 0x10000] 1 ≠ 0 ∧ nth 0 [0x100000] 1 = 0 ∧ (∃ x ∈ (List.replicate 143 0 ++ [115]).take 144, 115 ≤ x) ∧ (∀ x ∈ [94, 114].take 144, x < 115) ∧
    ((115 : Nat) ≤ 115 ∧ (127 : Nat) < 128 ∧ 128 ≤ (143 : Nat)) := by decide +kernel

/-- What waits for a peer when a link fails, and a peer's line that the cluster holds clean. -/
theorem wit_HostAndPeers_failure :
    let pa := 8 * 2 ^ 48 + 5 * 2 ^ 40
    let s : State := { sHost with
      egress := [{ cls := 1, pa := pa }], ev := { nums := [pa, 0x1000] }
      clusters := [(0, { cache := [(0, [{ vline := 0x80, pl := pa / 128 }])] })]
      mgmt := { sHost.mgmt with links := [(3, true)], peers := [5] } }
    (∃ e ∈ s.egress, e.cls = 1) ∧ isPeer (pa / 128) = true ∧ isPeer (0x1000 / 128) = false ∧
    ((s.allKlines 0).any fun y => y.pl == pa / 128 && !y.isDirty) = true := by decide +kernel

/-- A recalled slab that has drained and one that has not; a launch that no entry names. -/
theorem wit_Slabs_recalled :
    let k : Cluster := { modes := [(0, 3), (1, 3)], recalled := [0, 1], slots := [(64, { st := .opened })] }
    let s : State := { ({} : State) with clusters := [(0, k)] }
    slabDrained s 0 0 = true ∧ slabDrained s 0 1 = false ∧ k.recalled.filter (slabDrained s 0) = [0] ∧ (sL rec1 [] lSel).launch? 9 = none := by decide +kernel

/-- A line that the core's scalar cache holds; an access of a peer window. -/
theorem wit_ScalarMemory_copy :
    let w := whoOf sA sA.cur true
    let s : State := { sA with clusters := [(0, { cache := [(0x20, [{ vline := 0x20, pl := 0x20, fn := w.tag, scal := [(0, .s)], spsn := [(0, true)] }])] })] }
    scalHit s w 0x20 = some true ∧ scalHit sA w 0x20 = none ∧ isPeer (8 * 2 ^ 48 / 128) = true ∧
    (peerHome sA w 0x20 { pa := 8 * 2 ^ 48 }).2.cm = 2 := by decide +kernel

/-- A report of the copy engine that a core holds back; a fence that is a HINT. -/
theorem wit_Barriers_held :
    reportHeld { sA with cores := [(0, { heldReports := [{ who := 256 }] })] } 0 256 = true ∧ ((0 : BitVec 4) = 0 ∨ (3 : BitVec 4) = 0) := by
  decide +kernel

/-! ### Code objects and Parbel -/

/-- The body of R399. -/
def r399 : List Nat :=
  [0x0000012B, 0x0001022B, 0x0002032B, 0x0003042B, 0x00000519, 0x00000619, 0x0504071A, 0x0503081A, 0x0501091A, 0x05020A1A, 0x0A090817, 0x07080B14,
   0x06030B1B, 0x000B0C1D, 0x0C03FF0C, 0x0000002A]

/-- The homes that R399 prints with VREGS 8, and the expansion that R400 prints; VREGS 6 does not hold a body with `pdot.h2f` (R382). -/
theorem parbel_r399 :
    (match Parbel.plan 8 r399 with
      | .ok (_, p) => ((List.range 4).map fun k => p.u.home (k + 1)) ++ ((List.range 7).map fun k => p.v.home (k + 5)) ++ [p.u.home 12]
      | .error _ => []) =
      [.reg 18, .reg 19, .reg 20, .reg 21, .reg 0, .slot 0, .slot 1, .reg 3, .reg 1, .reg 2, .reg 0, .reg 18] ∧
    (match Parbel.plan 8 r399 with
      | .ok (_, p) => p.emit { at_ := 11, wd := 11, op := .pdot 8 9 10 }
      | .error _ => []) =
      [.code 0x0000204C0400923F 8, .code 0x0000204C0401133F 8, .code 0x0000200C066211BF 8, .code 0x0000200C067291BF 8] ∧
    (match Parbel.plan 6 r399 with
      | .ok _ => 0
      | .error e => e) = 4 := by decide +kernel

/-- The kernel of R210 and its KCB as R372 prints it. -/
def addthree : Obj.Kernel :=
  { entry := -0x10000, vregs := 2,
    code := ([0xCC9024F3, 0x0004B503, 0x0084B583, 0x1000017B].map (natToLe 4)).flatten ++
      ([0x00010810000520BF, 0x000700000000813F, 0x000108280405A03F].map (natToLe 8)).flatten ++ natToLe 4 0x0020102B ++ natToLe 4 0x0800002B }

theorem kcb_r372 :
    addthree.kcb.take 64 = [0x4B, 0x43, 0x42, 0x31, 1, 0, 0, 6] ++ natToLe 8 0xFFFFFFFFFFFF0000 ++ natToLe 8 0 ++ [0, 0, 1, 2, 0, 0, 0, 1] ++
      natToLe 8 0 ++ natToLe 8 0 ++ natToLe 8 5 ++ natToLe 8 0 ∧
    (addthree.kcb.drop 0x40).take 4 = natToLe 4 0xFFFF0000 ∧
    (addthree.kcb.drop 0x90).take 16 = natToLe 8 0xFFFFFFFFFFFF0000 ++ natToLe 8 0x30 ∧
    addthree.kcb.length = 256 ∧ kcbMarked addthree.kcb = true ∧ kcbRanges addthree.kcb = true ∧ kcbFloor addthree.kcb 1 = true := by decide +kernel

end Sys2Proof.Tests
end

section
/-!
The state after reset (R3, R168, R175, R197, R204).
-/
namespace Sys2Proof
open Machine

/-- A table that gives every listed key one value. -/
theorem Machine.SMap.get_map_const {α : Type} (d v : α) (l : List Nat) (i : Nat) :
    SMap.get d (l.map fun h => (h, v)) i = if i ∈ l then v else d := by
  induction l with
  | nil => rfl
  | cons k l ih =>
    by_cases h : i = k
    · simp [SMap.get, h]
    · simp [SMap.get, h, ih]

/-- After reset every register of every hart holds its default; the harts of R3 that run are told by `live` alone. -/
theorem Machine.reset_hart (h : Nat) :
    State.reset.hart h = { live := decide (h ∈ [0, 15, 1039, 2063, 3087, 4111, 5135, 6159, 7183]) } := by
  unfold State.hart State.reset
  rw [SMap.get_map_const]
  split
  · next hm => rw [decide_eq_true hm]
  · next hm => rw [decide_eq_false hm]

/-- Settles O21: a hart after reset is `reset_hart`'s, and every other table is empty. -/
theorem resetState : Obligations.ResetState := by
  refine ⟨fun h => ?_, fun h => ?_, fun _ _ => rfl, rfl, rfl, rfl, fun _ => rfl, fun _ => rfl, rfl, reset_mem_wf⟩
  · rw [reset_hart]
  · rw [reset_hart]
    exact ⟨rfl, rfl, rfl, rfl, rfl, rfl, rfl, rfl⟩

end Sys2Proof
end

section
/-!
SUPPORT. Every meaning answers a next state: the operations that the rows share, then the table.
-/
namespace Sys2Proof.Machine

/-! ### The shared operations -/

theorem illegalNow_next (s : State) : ∃ t, illegalNow s = .next t := ⟨_, rfl⟩

theorem outsideClause_next {k : State → Host.Outcome State Fault Refusal} {s : State} (hk : ∃ t, k s = .next t) : ∃ t, outsideClause k s = .next t := by
  unfold outsideClause
  split
  · exact illegalNow_next s
  · exact hk

theorem fpOp_next (f : L64) (rounds : Bool) (eff : Hart → List Nat → Nat → FpEff) (s : State) : ∃ t, fpOp f rounds eff s = .next t := by
  unfold fpOp
  split
  · exact illegalNow_next s
  · split
    · exact illegalNow_next s
    · dsimp only
      split <;> exact ⟨_, rfl⟩

theorem fpMap_next (f : L64) (rounds : Bool) (op : Nat → Fmt → Nat → Nat → Nat → FRes) (s : State) : ∃ t, fpMap f rounds op s = .next t :=
  fpOp_next _ _ _ s

theorem fcmpOp_next (rel : Nat) (f : L64) (s : State) : ∃ t, fcmpOp rel f s = .next t := fpOp_next _ _ _ s

theorem fredOp_next (f : L64) (rounds : Bool) (g : Nat → Nat → Nat → FRes) (s : State) : ∃ t, fredOp f rounds g s = .next t := fpOp_next _ _ _ s

theorem maskBranch_next (taken : Bool) (off : BitVec 12) (s : State) : ∃ t, maskBranch taken off s = .next t := outsideClause_next ⟨_, rfl⟩

theorem laneFpAtomic_next (f : L64) (g : Nat → Nat → FRes) (s : State) : ∃ t, laneFpAtomic f g s = .next t := by
  unfold laneFpAtomic
  split
  · exact illegalNow_next s
  · exact finish_next _ _

/-- A call of Mladotte waits, is refused or is made (R336, R337). -/
theorem callEvent_next (n : Nat) (eff : State → Nat → CallRes) (s : State) : ∃ t, callEvent n eff s = .next t := by
  unfold callEvent mladotte
  dsimp only
  repeat' split
  all_goals exact ⟨_, rfl⟩

/-- A register write is a Zicsr row, goes nowhere, takes effect or comes again (R402). -/
theorem execRegisterWrite_next (w : RegWrite) (s : State) : ∃ t, execRegisterWrite w s = .next t := by
  unfold execRegisterWrite
  split
  · exact csrInstr_next _ _ s
  · split
    · exact ⟨_, rfl⟩
    · split <;> exact ⟨_, rfl⟩

/-! ### The table -/

/-- Every row answers a next state: a meaning in steps by `finish`, a Zicsr row by `csrInstr`, a lane form by its frame, an event of one outcome by that
outcome, and a meaning that branches by the outcome of each branch. -/
theorem exec_next (i : Instr) (s : State) : ∃ t, exec i s = .next t := by
  cases i with
  | lldB | lldBu | lldH | lldHu | lldW | lldD | lldQ | lstB | lstH | lstW | lstD | lstQ | lprf | lzero | lamoAddW | lamoAddD | lamoAndW | lamoAndD
  | lamoOrW | lamoOrD | lamoXorW | lamoXorD | lamoMinW | lamoMinD | lamoMaxW | lamoMaxD | lamoMinuW | lamoMinuD | lamoMaxuW | lamoMaxuD | lamoSwapW
  | lamoSwapD | lcasW | lcasD | tallocImm | tallocReg | tallocNbImm | tallocNbReg | thdr | thdrM | tst | tseal | tdrop | tld | tldM | tpeek | tskip
  | tgive | tinfoT | tmma | tzero | tzeroM | taccLd | taccLdM | taccSt | taccStM | tcvt | tcvtM | taccLrd | taccLwr | tquizNone | tquizRun
  | tquizClear | imv | iwr | waitf | barCfg | barArr | barWait | barSync | barTx | barTest | kfence | rollc | kctxSv | kctxLd | msend | msendL
  | hpassArm | hpassStart | hpassStatus | hpassWait | hpassDisarm | cprd | cpq | cpqNb | launch | scalarAtomic => exact finish_next _ _
  | krootWrite | kdomWrite | ktinvGo | kslabGo | kslabAbort | kpartWrite | kpownWrite | kpoolevRead | kbiasGo | kflagclrWrite | khctlWrite
  | kchqDepthWrite | kchqErrClear | kchringWrite | kqctlWrite | ksibctlHalt | ksibctlResume | ksibdataWrite | kpreDone | kcsaveSave | kcsaveRestore
  | ktqctlTailWrite | ktqctlRerrClear | ktkillGo | kflushGo | kkctlErase | kkctlDerive | kkctlUnwrap | kkctlRebind | kkctlQuery | khmctlWrite
  | khmdomWrite | khmrateWrite | pmpWrite => exact csrInstr_next _ _ _
  | ladd | lsub | ladds | lsubs | lmul | lmulh | lmulhu | lmadd | ldiv | ldivu | lrem | lremu | land | lor | lxor | landn | lsll | lsrl | lsra
  | lmin | lmax | lminu | lmaxu | labs | lclz | lcpop | lbrev | lbfx | lbfi | lsel | lmov | lli | lbcast | lext | lidx | lcmpEq | lcmpNe | lcmpLt
  | lcmpGe | lcmpLtu | lcmpGeu | lshflIdx | lshflUp | lshflDn | lshflXor | lredAdd | lredMin | lredMax | lredAnd | lredOr | lredXor | lscanAdd
  | lcomp | tcnt | tinfo | mand | mor | mxor | mandn | mnot | mmov | mset | mget | mcnt | mffs | bbrd => exact ⟨_, rfl⟩
  | lfadd | lfsub | lfmul | lffma | lffms | lfnma | lfmin | lfmax | lfdiv | lfsqrt | lfrcp | lfrsq | lfex2 | lflg2 | lfsin | lfcos | lfabs | lfneg
  | lfsgnj | lfclass | lfround => dsimp only [exec]; exact fpMap_next _ _ _ _
  | lfcvt | lscanFadd => dsimp only [exec]; exact fpOp_next _ _ _ _
  | lfcmpEq | lfcmpLt | lfcmpLe | lfcmpUn => dsimp only [exec]; exact fcmpOp_next _ _ _
  | lredFadd | lredFmin | lredFmax => dsimp only [exec]; exact fredOp_next _ _ _ _
  | lfamoAddS | lfamoMinS | lfamoMaxS => exact laneFpAtomic_next _ _ _
  | mbz | mbnz => dsimp only [exec]; exact maskBranch_next _ _ _
  | clause => exact outsideClause_next (finish_next _ _)
  | wfi | sret | mret | hdone =>
    dsimp only [exec, execWfi, execSret, execMret, execHdone]
    refine outsideClause_next ?_
    repeat' split
    all_goals exact ⟨_, rfl⟩
  | mladotteCreate | mladotteAddPage | mladotteExtend | mladotteFinalize | mladotteEnter | mladotteExit | mladotteDestroy | mladotteUnwrap
  | mladotteReport => dsimp only [exec]; exact callEvent_next _ _ _
  | cpcls | fence | kyield | fenceI | pause | slotSwitchLimit | pageWalk | faultReplyRetry | faultReplyFatal | notice | invalidationComplete
  | correctedError | uncorrectableError | slabDrainComplete | slabClearComplete | biasFlipComplete | flushComplete | messageArrival
  | heldMessageReoffer | eprioAging | copyPieceCopy | copyPieceFill | copyPieceZero | copyPieceGather | copyPieceReduce | cprdPerform
  | copyCompletion | stageBarrierDelivery | launchSelection | cohortBinding | preemptionRequest | launchCompletion | spdmRequest | bucketRefill
  | functionLevelReset | tdispLeaveRun | coldReset | stage0Complete | stage1Complete | stage2Complete | operatingPointUpdate | droopDetectorFire
  | droopStretchEnd | thermalTrip | linkTraining | linkFailure | peerAccessArrival | hostCxlMemRead | hostCxlMemWrite | ethTransmit | ethReceive
  | bookackWrite | booksignRequest | slatetokenSubmit | islstCapWrite | ethTailDoorbell | supervisorTimerInterrupt | tdispEnterRun
  | hostCxlCacheSnoop => exact ⟨_, rfl⟩
  | mpush | bbwr | qpop | cpwm | sfenceVma | minv | mpop | kscrub | mnext | trapEntry | wfiTimeout | faultBufferDelivery | heldReportPost
  | lineFill | tallocGrant | tileReservationCommit | tileReservationRelease | starvationDetectorFire | tmmaComplete | popQuiz | channelRefill
  | firingStart | iwrHeldWriteEntry | copyRequestStart | copyTileAllocation | reduceContributionArrival | combiningEntryTimeout | barrierSweep
  | barrierRelease | barTestTimeout | hpassArmAck | hpassTokenHop | egressTransaction | signedHead | biasGo | slatenonceRead =>
    dsimp only [exec, execMpush, execBbwr, execQpop, execCpwm, execSfenceVma, execMinv, execMpop, execKscrub, execMnext, execTrapEntry,
      execWfiTimeout, execFaultBufferDelivery, execHeldReportPost, execLineFill, execTallocGrant, execTileReservationCommit,
      execTileReservationRelease, execStarvationDetectorFire, execTmmaComplete, execPopQuiz, execChannelRefill, execFiringStart,
      execIwrHeldWriteEntry, execCopyRequestStart, execCopyTileAllocation, execReduceContributionArrival, execCombiningEntryTimeout,
      execBarrierSweep, execBarrierRelease, execBarTestTimeout, execHpassArmAck, execHpassTokenHop, execEgressTransaction, execSignedHead,
      execBiasGo, execSlatenonceRead]
    repeat' split
    all_goals exact ⟨_, rfl⟩
  | scalarLoad | scalarStore | qpush =>
    dsimp only [exec, execScalarLoad, execScalarStore, execQpush]
    split
    · exact illegalNow_next s
    · exact finish_next _ _
  | tldl =>
    dsimp only [exec, execTldl]
    split <;> exact finish_next _ _
  | registerWrite => exact execRegisterWrite_next _ s

end Sys2Proof.Machine

namespace Sys2Proof

/-- Settles O18, row by row. -/
theorem nothingStops : Obligations.NothingStops := Machine.exec_next

end Sys2Proof
end

section
/-!
SUPPORT. One update of an atomic at memory (R236): the line that serves the access, the bytes that it reads and writes, and the harts.
-/
namespace Sys2Proof
open Machine

/-! ### Numbers as bytes (R7) -/

theorem length_natToLe (n v : Nat) : (natToLe n v).length = n := by
  induction n generalizing v with
  | zero => rfl
  | succ n ih => simp [natToLe, ih]

theorem leToNat_natToLe (n v : Nat) (h : v < 2 ^ (8 * n)) : leToNat (natToLe n v) = v := by
  induction n generalizing v with
  | zero => simp at h; simp [natToLe, leToNat, h]
  | succ n ih =>
    have hv : v / 256 < 2 ^ (8 * n) := by
      rw [Nat.div_lt_iff_lt_mul (by decide)]
      calc v < 2 ^ (8 * (n + 1)) := h
        _ = 2 ^ (8 * n) * 256 := by rw [Nat.mul_add, Nat.pow_add]
    have hr : leToNat (natToLe n (v / 256)) = v / 256 := ih _ hv
    simp only [leToNat, natToLe, List.foldr_cons, BitVec.toNat_ofNat] at hr ⊢
    omega

/-! ### The lines that a cluster holds -/

/-- No cluster holds a line that it did not hold. -/
structure LinesLeave (s t : State) : Prop where
  held : ∀ k vl, ∀ y ∈ t.klines k vl, y ∈ s.klines k vl

namespace LinesLeave

theorem refl (s : State) : LinesLeave s s := ⟨fun _ _ _ => id⟩

theorem trans {s t u : State} (h : LinesLeave s t) (g : LinesLeave t u) : LinesLeave s u := ⟨fun k vl y hy => h.held k vl y (g.held k vl y hy)⟩

theorem foldl {α : Type} {f : State → α → State} (hf : ∀ s a, LinesLeave s (f s a)) (l : List α) (s : State) : LinesLeave s (l.foldl f s) := by
  induction l generalizing s with
  | nil => exact refl s
  | cons a l ih => exact (hf s a).trans (ih _)

theorem of_clusters {s t : State} (h : t.clusters = s.clusters) : LinesLeave s t := by
  refine ⟨fun k vl y hy => ?_⟩
  unfold State.klines State.cluster at hy ⊢
  rwa [h] at hy

theorem modCluster (s : State) (k : Nat) (f : Cluster → Cluster) (hf : ∀ c, (f c).cache = c.cache) : LinesLeave s (s.modCluster k f) := by
  refine ⟨fun j vl y hy => ?_⟩
  unfold State.klines at hy ⊢
  by_cases h : j = k
  · rw [h] at hy ⊢
    rwa [State.cluster_modCluster_self, hf] at hy
  · rwa [State.cluster_modCluster_ne s f h] at hy

theorem choose (s : State) : LinesLeave s (choose s).2 := by
  unfold Machine.choose
  split
  · exact refl s
  · exact of_clusters rfl

theorem egressOf (s : State) (pa : Nat) (bs : List Byte) (t : BitVec 16) : LinesLeave s (egressOf s pa bs t) := by
  unfold Machine.egressOf
  split <;> exact of_clusters rfl

theorem modLine (s : State) (l : Nat) (f : LineMeta → LineMeta) : LinesLeave s (s.modLine l f) := of_clusters rfl

theorem putRaw (s : State) (pa : Nat) (bs : List Byte) : LinesLeave s (putRaw s pa bs) := of_clusters rfl

theorem setDir (s : State) (pl : Nat) (x : Option L2Line) : LinesLeave s (s.setDir pl x) := of_clusters rfl

end LinesLeave

theorem klines_modKlines_self (s : State) (k vl : Nat) (f : List KLine → List KLine) : (s.modKlines k vl f).klines k vl = f (s.klines k vl) := by
  unfold State.modKlines State.klines
  rw [State.cluster_modCluster_self]
  exact SMap.get_set_self ..

theorem dropKline_leave (s : State) (k : Nat) (y : KLine) : LinesLeave s (dropKline s k y) := by
  refine ⟨fun j vl x hx => ?_⟩
  unfold dropKline State.modKlines State.klines at hx
  unfold State.klines
  by_cases h : j = k
  · rw [h] at hx ⊢
    rw [State.cluster_modCluster_self] at hx
    dsimp only at hx
    rw [SMap.get_set] at hx
    split at hx
    · next e => rw [e]; exact List.mem_of_mem_erase hx
    · exact hx
  · rwa [State.cluster_modCluster_ne s _ h] at hx

theorem unitWalk_leave (s : State) (k fn : Nat) (va : Word) : LinesLeave s (unitWalk s k fn va).1 :=
  (LinesLeave.choose s).trans (.of_clusters rfl)

theorem tlbLoad_leave (s : State) (k t : Nat) (e : PageEntry) : LinesLeave s (tlbLoad s k t e) := by
  refine .modCluster s k _ fun c => ?_
  unfold Cluster.tlbFill
  split <;> rfl

theorem serveLane_leave (s : State) (k : Nat) (y : KLine) : LinesLeave s (serveLane s k y) := by
  have hw := unitWalk_leave s k y.fn (word (128 * y.vline))
  unfold serveLane
  dsimp only
  split
  · exact .modCluster s k _ fun _ => rfl
  · split
    · exact .refl s
    · split
      · next heq => rw [heq] at hw; exact hw.trans (tlbLoad_leave ..)
      · next heq => rw [heq] at hw; exact hw

theorem writeBackIn_leave (s : State) (k : Nat) (y : KLine) : LinesLeave s (writeBackIn s k y) := by
  unfold writeBackIn
  dsimp only
  split
  · exact .refl s
  · refine (serveLane_leave s k y.collect).trans ?_
    generalize serveLane s k y.collect = t
    split
    · have m := LinesLeave.modLine t y.collect.pl fun m => { m with psn := y.collect.psn || y.collect.refused t }
      split
      · exact m
      · exact ((m.trans (.putRaw ..)).trans (.modLine ..)).trans (.egressOf ..)
    · split
      · exact .setDir ..
      · exact .refl t

theorem probeBy_leave {back : State → Nat → KLine → State} (hb : ∀ s k y, LinesLeave s (back s k y)) (x : L2Line) (s : State) (k : Nat) :
    LinesLeave s (probeBy back x s k) :=
  LinesLeave.foldl (fun s y => (hb s k y).trans (dropKline_leave _ k y)) _ s

theorem l2Evict_leave (s : State) (x : L2Line) : LinesLeave s (l2Evict s x) := by
  unfold l2Evict
  dsimp only
  refine (LinesLeave.foldl (probeBy_leave writeBackIn_leave x) x.sharers.members s).trans ?_
  generalize x.sharers.members.foldl (probeBy writeBackIn x) s = t
  generalize (t.dir x.pl).getD x = y
  refine LinesLeave.trans ?_ (.setDir ..)
  split
  · exact .refl t
  · have m := LinesLeave.modLine t y.pl fun m => { m with psn := y.psn }
    split
    · exact m.trans (.egressOf ..)
    · split
      · exact m.trans (.modLine ..)
      · exact m

theorem l2Room_leave (s : State) (pl : Nat) (zero : Bool) : LinesLeave s (l2Room s pl zero) := by
  unfold l2Room
  dsimp only
  generalize (if zero = true then 8 else 16) = cap
  split
  · exact .refl s
  · exact (LinesLeave.choose s).trans (l2Evict_leave ..)

theorem writeBack_leave (s : State) (k : Nat) (y : KLine) : LinesLeave s (writeBack s k y) := by
  unfold writeBack
  dsimp only
  refine LinesLeave.trans ?_ (writeBackIn_leave ..)
  split
  · split
    · exact l2Room_leave ..
    · exact .refl s
  · exact .refl s

theorem kOut_leave (k : Nat) (s : State) (y : KLine) : LinesLeave s (kOut k s y) := (writeBack_leave s k y).trans (dropKline_leave ..)

/-! ### The line that serves an access -/

/-- A line serves an access: its name is the access's, and its EID. -/
theorem serves_of_kline {s : State} {w : Who} {vl : Nat} {y : KLine} (h : s.kline w vl = some y) : (y.named w.tag vl && y.eid == w.eid) = true :=
  List.find?_some (p := fun y : KLine => y.named w.tag vl && y.eid == w.eid) h

theorem kline_none_of_leave {s t : State} (h : LinesLeave s t) {w : Who} {vl : Nat} (hs : s.kline w vl = none) : t.kline w vl = none := by
  unfold State.kline at hs ⊢
  rw [List.find?_eq_none] at hs ⊢
  exact fun y hy => hs y (h.held _ _ y hy)

/-- Replaced by a line of its name and EID, the line that serves an access is that one. -/
theorem kline_putKline {s : State} {w : Who} {vl : Nat} {y z : KLine} (h : s.kline w vl = some y)
    (hz : z.fn = y.fn ∧ z.vline = y.vline ∧ z.eid = y.eid) : (putKline s (clusterOf w.core) z).kline w vl = some z := by
  have hy := serves_of_kline h
  simp only [KLine.named, Bool.and_eq_true, beq_iff_eq] at hy
  obtain ⟨⟨hf, hv⟩, he⟩ := hy
  obtain ⟨zf, zv, ze⟩ := hz
  unfold State.kline at h ⊢
  unfold putKline
  rw [zv, hv, klines_modKlines_self, List.find?_map]
  have serves : ((fun x : KLine => x.named w.tag vl && x.eid == w.eid) ∘ fun x => if (x.named z.fn vl && x.eid == z.eid) = true then z else x) =
      fun x => x.named w.tag vl && x.eid == w.eid := by
    funext x
    simp only [Function.comp, zf, ze, hf, he]
    split
    · next hx => rw [hx]; simp [KLine.named, zf, zv, ze, hf, hv, he]
    · rfl
  rw [serves, h]
  simp [KLine.named, zf, ze, hf, hv, he]

/-- A line put in front of its set serves the accesses of its name. -/
theorem kline_cons {s : State} {w : Who} {vl : Nat} {y : KLine} (h : (y.named w.tag vl && y.eid == w.eid) = true) :
    (s.modKlines (clusterOf w.core) vl fun l => y :: l).kline w vl = some y := by
  unfold State.kline
  rw [klines_modKlines_self, List.find?_cons_of_pos (p := fun y : KLine => y.named w.tag vl && y.eid == w.eid) h]

/-- Where no way is found nothing has left. -/
theorem kRoom_none {s : State} {k vl : Nat} {zero : Bool} : (kRoom s k vl zero).2 = none → (kRoom s k vl zero).1 = s := by
  unfold kRoom
  dsimp only
  split
  · exact fun _ => rfl
  · split
    · exact fun h => absurd h (Option.some_ne_none _)
    · split
      · exact fun _ => rfl
      · exact fun h => absurd h (Option.some_ne_none _)

/-- A miss that is filled is served by the line filled, or by none. -/
theorem kline_kFill {s : State} {w : Who} {vl : Nat} (hs : s.kline w vl = none) (pl key cm : Nat) (zero excl : Bool) (y : KLine)
    (h : (kFill s w vl pl key cm zero excl).kline w vl = some y) : y.pl = pl ∧ y.key = key := by
  unfold kFill at h
  dsimp only at h
  have hl := LinesLeave.foldl (kOut_leave (clusterOf w.core)) ((s.klines (clusterOf w.core) vl).filter fun y => y.named w.tag vl) s
  generalize List.foldl (kOut (clusterOf w.core)) s _ = t at h hl
  split at h
  · next hr =>
    rw [kRoom_none hr, kline_none_of_leave hl hs] at h
    cases h
  · rw [kline_cons (by simp [KLine.named])] at h
    cases h
    exact ⟨rfl, rfl⟩

/-- The line that serves an access once its read has reached the cluster: that of the place that it served before, or the one filled. -/
theorem kline_readIn {s : State} {w : Who} {vl pl key : Nat} (hs : ∀ y, s.kline w vl = some y → y.pl = pl ∧ y.key = key) (cm : Nat) (y : KLine)
    (h : (readIn s w vl pl key cm).kline w vl = some y) : y.pl = pl ∧ y.key = key := by
  unfold readIn at h
  split at h
  · next x hx =>
    split at h
    · rw [kline_putKline (z := x.share) hx ⟨rfl, rfl, rfl⟩] at h
      cases h
      exact hs x hx
    · exact hs y h
  · next hn =>
    split at h
    · exact kline_kFill hn pl key cm _ _ y h
    · exact hs y h

/-! ### The bytes that an atomic reads -/

/-- The place of an access at `va` is at home: no line that the cluster holds for it is of another place or of a key. -/
def AtHome (s : State) (w : Who) (vl pl : Nat) : Prop := ∀ y, s.kline w vl = some y → y.pl = pl ∧ y.key = 0

theorem AtHome.readIn {s : State} {w : Who} {vl pl : Nat} (h : AtHome s w vl pl) (cm : Nat) : AtHome (readIn s w vl pl 0 cm) w vl pl :=
  kline_readIn h cm

theorem rawBytes_drop_take (s : State) (a m o n : Nat) (h : o + n ≤ m) : ((rawBytes s a m).drop o).take n = rawBytes s (a + o) n := by
  apply List.ext_getElem
  · simp [rawBytes]; omega
  · intro i _ _
    simp [rawBytes, Nat.add_assoc]

/-- Bytes of one line outside the peer windows read as they did. -/
theorem rawBytes_home {s t : State} (h : HomeMemory s t) {pa n : Nat} (hp : isPeer (pa / 128) = false) (hn : pa % 128 + n ≤ 128) :
    rawBytes t pa n = rawBytes s pa n := by
  refine List.map_congr_left fun i hi => h _ ?_
  rw [List.mem_range] at hi
  rwa [show (pa + i) / 128 = pa / 128 by omega]

/-- What an access sees of bytes at home, of no key and in no peer window, is memory. -/
theorem seenBytes_home {s : State} {w : Who} {va : Word} {pa n : Nat} (h : AtHome s w (va.toNat / 128) (pa / 128)) (hp : isPeer (pa / 128) = false)
    (hn : pa % 128 + n ≤ 128) : seenBytes s w va 0 pa n = rawBytes s pa n := by
  have hl : seenLine s w (va.toNat / 128) 0 (pa / 128) = rawBytes s (128 * (pa / 128)) 128 := by
    unfold seenLine
    split
    · next y hy =>
      obtain ⟨hpl, hk⟩ := h y hy
      rw [hpl, hp, hk]
      rfl
    · rfl
  unfold seenBytes
  rw [hl, rawBytes_drop_take _ _ _ _ _ hn, Nat.div_add_mod]

/-! ### The bytes that an atomic writes -/

theorem mem_cellsOf {pa key : Nat} {bs : List Byte} {c : PCell} (h : c ∈ cellsOf pa key bs) : c.key = key ∧ pa ≤ c.pa ∧ c.pa < pa + bs.length := by
  unfold cellsOf at h
  rw [List.mem_map] at h
  obtain ⟨⟨b, i⟩, hm, rfl⟩ := h
  have hi : i < bs.length := by
    have := List.mem_zipIdx hm
    omega
  exact ⟨rfl, Nat.le_add_right .., Nat.add_lt_add_left hi pa⟩

/-- The cells of consecutive bytes leave each of those bytes at its place. -/
theorem lastAt_cellsOf (pa key : Nat) (bs : List Byte) (i : Nat) (hi : i < bs.length) (b : Byte) : lastAt (cellsOf pa key bs) (pa + i) b = bs[i] := by
  induction bs generalizing pa i b with
  | nil => exact absurd hi (Nat.not_lt_zero i)
  | cons x bs ih =>
    have hc : cellsOf pa key (x :: bs) = { pa := pa, key := key, val := x } :: cellsOf (pa + 1) key bs := by
      unfold cellsOf
      rw [List.zipIdx_cons', List.map_cons, List.map_map]
      refine congrArg₂ _ rfl (List.map_congr_left fun y _ => ?_)
      simp only [Function.comp, Prod.map, id]
      congr 1
      omega
    rw [hc, lastAt_cons]
    cases i with
    | zero =>
      rw [lastAt_none fun c h => by have := (mem_cellsOf h).2.1; omega]
      simp
    | succ i =>
      rw [show pa + (i + 1) = pa + 1 + i by omega, ih (pa + 1) i (Nat.lt_of_succ_lt_succ hi)]
      rfl

/-- The write of an atomic: the element at its place, and the reservations of the other harts on its line end (R112). -/
def amoWrite (w : Who) (p : Placed) (n v : Nat) (s : State) : State :=
  breakResv (storeLine s w (p.seg.at_.toNat / 128) p.ref.cm (cellsOf p.ref.pa p.ref.key (natToLe n v))) w.hart [p.ref.pa / 128]

theorem amoWrite_byte (s : State) (w : Who) (p : Placed) {n : Nat} (v : Nat) {a : Nat} (hk : p.ref.key = 0) (hn : p.ref.pa % 128 + n ≤ 128)
    (ha : isPeer (a / 128) = false) :
    rawByte (amoWrite w p n v s) a = lastAt (cellsOf p.ref.pa 0 (natToLe n v)) a (rawByte s a) := by
  unfold amoWrite
  rw [breakResv_byte, hk, storeLine_byte s w _ _ (p.ref.pa / 128) _ a (fun c hc => (mem_cellsOf hc).1) ?_ ha]
  intro c hc
  obtain ⟨-, h1, h2⟩ := mem_cellsOf hc
  rw [length_natToLe] at h2
  omega

/-- The element written reads back. -/
theorem amoWrite_reads (s : State) (w : Who) (p : Placed) {n v : Nat} (hk : p.ref.key = 0) (hn : p.ref.pa % 128 + n ≤ 128)
    (hp : isPeer (p.ref.pa / 128) = false) (hv : v < 2 ^ (8 * n)) : leToNat (rawBytes (amoWrite w p n v s) p.ref.pa n) = v := by
  have hb : rawBytes (amoWrite w p n v s) p.ref.pa n = natToLe n v := by
    apply List.ext_getElem
    · simp [rawBytes, length_natToLe]
    · intro i h1 h2
      have hi : i < n := by simpa [rawBytes] using h1
      simp only [rawBytes, List.getElem_map, List.getElem_range]
      rw [amoWrite_byte s w p v hk hn (by rwa [show (p.ref.pa + i) / 128 = p.ref.pa / 128 by omega]), lastAt_cellsOf _ _ _ _ h2]
  rw [hb, leToNat_natToLe n v hv]

/-- Every byte outside the element and the peer windows stands. -/
theorem amoWrite_frame (s : State) (w : Who) (p : Placed) {n : Nat} (v : Nat) {a : Nat} (hk : p.ref.key = 0) (hn : p.ref.pa % 128 + n ≤ 128)
    (h : a < p.ref.pa ∨ p.ref.pa + n ≤ a) (ha : isPeer (a / 128) = false) : rawByte (amoWrite w p n v s) a = rawByte s a := by
  rw [amoWrite_byte s w p v hk hn ha]
  refine lastAt_none (fun c hc e => ?_) _
  obtain ⟨-, h1, h2⟩ := mem_cellsOf hc
  rw [length_natToLe] at h2
  omega

/-! ### The harts -/

/-- The harts are as they were, and the current one is the same. -/
def SameHarts (s t : State) : Prop := t.harts = s.harts ∧ t.cur = s.cur

theorem SameHarts.trans {s t u : State} (h : SameHarts s t) (g : SameHarts t u) : SameHarts s u := ⟨g.1.trans h.1, g.2.trans h.2⟩

theorem SameHarts.me {s t : State} (h : SameHarts s t) : t.me = s.me := by
  rw [State.me, State.me, State.hart, State.hart, h.1, h.2]

theorem CacheMoves.sameHarts {s t : State} (h : CacheMoves s t) : SameHarts s t := by
  obtain ⟨hh, -, -, hc⟩ := h.harts
  exact ⟨hh, hc⟩

theorem putLine_harts (s : State) (l : Nat) (cs : List PCell) : SameHarts s (putLine s l cs) := by
  unfold putLine
  dsimp only
  split <;> exact ⟨rfl, rfl⟩

theorem writeLine_harts (s : State) (l : Nat) (cs : List PCell) (t : BitVec 16) : SameHarts s (writeLine s l cs t) :=
  ((homeWrite_moves s l).sameHarts.trans (putLine_harts ..)).trans (CacheMoves.egressOf ..).sameHarts

theorem storeLine_harts (s : State) (w : Who) (vl cm : Nat) (cs : List PCell) : SameHarts s (storeLine s w vl cm cs) := by
  unfold storeLine
  split
  · exact ⟨rfl, rfl⟩
  · next c cs =>
    dsimp only
    generalize (_ && _ : Bool) = z
    have hm := (kOwn_moves s w vl (c.pa / 128) c.key cm z (coverLine (c :: cs))).sameHarts
    split
    · exact writeLine_harts ..
    · split
      · exact hm.trans (writeLine_harts ..)
      · split
        · exact hm.trans (putKline_moves ..).sameHarts
        · exact hm.trans (putLine_harts ..)

/-- A store ends no reservation of the hart that stores. -/
theorem breakResv_hart (s : State) (h : Nat) (ls : List Nat) : (breakResv s h ls).hart h = s.hart h ∧ (breakResv s h ls).cur = s.cur := by
  refine List.foldlRecOn (motive := fun t : State => t.hart h = s.hart h ∧ t.cur = s.cur) s.harts _ ⟨rfl, rfl⟩ fun t ht p _ => ?_
  split
  · split
    · next hc => exact ⟨(State.hart_setHart_ne t _ (Ne.symm hc.1)).trans ht.1, ht.2⟩
    · exact ht
  · exact ht

theorem amoWrite_me (s : State) (w : Who) (p : Placed) (n v : Nat) (hw : w.hart = s.cur) : (amoWrite w p n v s).me = s.me := by
  have hs := storeLine_harts s w (p.seg.at_.toNat / 128) p.ref.cm (cellsOf p.ref.pa p.ref.key (natToLe n v))
  obtain ⟨hh, hc⟩ := breakResv_hart (storeLine s w (p.seg.at_.toNat / 128) p.ref.cm (cellsOf p.ref.pa p.ref.key (natToLe n v))) w.hart [p.ref.pa / 128]
  unfold amoWrite
  rw [State.me, hc, hs.2, ← hw, hh, hw, ← hs.2, ← State.me, hs.me]

/-! ### One update (R236) -/

/-- One update at home, of no key and in no peer window: the element read is memory's, and what is written is written once the line has been read in. -/
theorem amoGlobal_home {s : State} {w : Who} {p : Placed} {n : Nat} (hk : p.ref.key = 0) (hn : p.ref.pa % 128 + n ≤ 128)
    (hp : isPeer (p.ref.pa / 128) = false) (hh : AtHome s w (p.seg.at_.toNat / 128) (p.ref.pa / 128)) (u : Update) (c d : Nat) :
    let t := readIn s w (p.seg.at_.toNat / 128) (p.ref.pa / 128) 0 p.ref.cm
    let m := leToNat (rawBytes s p.ref.pa n)
    amoGlobal w n u p c d s = ((u m c d).1.elim t fun v => amoWrite w p n v t, m, (u m c d).2) := by
  have hr := readIn_moves s w (p.seg.at_.toNat / 128) (p.ref.pa / 128) 0 p.ref.cm
  have hb : seenBytes (readIn s w (p.seg.at_.toNat / 128) (p.ref.pa / 128) 0 p.ref.cm) w p.seg.at_ 0 p.ref.pa n = rawBytes s p.ref.pa n := by
    rw [seenBytes_home (hh.readIn p.ref.cm) hp hn, rawBytes_home hr.1 hp hn]
  unfold amoGlobal amoWrite
  simp only [hk, hb]
  generalize u (leToNat (rawBytes s p.ref.pa n)) c d = x
  obtain ⟨_ | v, r⟩ := x <;> rfl

/-- An aligned word or doubleword lies in one line. -/
theorem aligned_in_line {pa n : Nat} (h : pa % n = 0) (hn : n = 4 ∨ n = 8) : pa % 128 + n ≤ 128 := by
  obtain rfl | rfl := hn <;> omega

/-- What one update gives and leaves. -/
theorem amoGlobal_update {s : State} {w : Who} {p : Placed} {n : Nat} (hw : w.hart = s.cur) (hk : p.ref.key = 0) (hn : p.ref.pa % 128 + n ≤ 128)
    (hp : isPeer (p.ref.pa / 128) = false) (hh : AtHome s w (p.seg.at_.toNat / 128) (p.ref.pa / 128)) (u : Update) (c d : Nat) :
    let m := leToNat (rawBytes s p.ref.pa n)
    let r := amoGlobal w n u p c d s
    r.2.1 = m ∧ r.2.2 = (u m c d).2 ∧ r.1.me = s.me ∧
      (∀ v, (u m c d).1 = some v → v < 2 ^ (8 * n) → leToNat (rawBytes r.1 p.ref.pa n) = v) ∧
      ((u m c d).1 = none → CacheMoves s r.1) ∧
      ∀ a, a < p.ref.pa ∨ p.ref.pa + n ≤ a → isPeer (a / 128) = false → rawByte r.1 a = rawByte s a := by
  intro m r
  have hr : r = _ := amoGlobal_home hk hn hp hh u c d
  have moves := readIn_moves s w (p.seg.at_.toNat / 128) (p.ref.pa / 128) 0 p.ref.cm
  rw [hr]
  generalize readIn s w (p.seg.at_.toNat / 128) (p.ref.pa / 128) 0 p.ref.cm = t at moves
  refine ⟨rfl, rfl, ?_⟩
  dsimp only
  cases (u m c d).1 with
  | none => exact ⟨moves.sameHarts.me, fun _ h => (by cases h), fun _ => moves, fun a _ ha => moves.1 a ha⟩
  | some v =>
    have hcur : w.hart = t.cur := hw.trans moves.sameHarts.2.symm
    refine ⟨(amoWrite_me t w p n v hcur).trans moves.sameHarts.me, fun x h hx => ?_, fun h => (by cases h), fun a h ha => ?_⟩
    · cases h
      exact amoWrite_reads t w p hk hn hp hx
    · exact (amoWrite_frame t w p v hk hn h ha).trans (moves.1 a ha)

end Sys2Proof
end

section
/-!
SUPPORT. The checks of an access (R23): what they keep, and the bits that their walks mark.
-/
namespace Sys2Proof
open Machine

/-! ### What the checks keep -/

/-- What no check of an access changes: the harts, the lines, the classes, the dies, the clock, the clusters' caches, and of a core all but its PLB. -/
def ChecksKeep (s t : State) : Prop :=
  t.harts = s.harts ∧ t.lines = s.lines ∧ t.classes = s.classes ∧ t.dies = s.dies ∧ t.clock = s.clock ∧
    (∀ k, (t.cluster k).cache = (s.cluster k).cache) ∧ ∀ c, { t.core c with plb := (s.core c).plb } = s.core c

namespace ChecksKeep

theorem refl (s : State) : ChecksKeep s s := ⟨rfl, rfl, rfl, rfl, rfl, fun _ => rfl, fun _ => rfl⟩

theorem trans {s t u : State} (h : ChecksKeep s t) (g : ChecksKeep t u) : ChecksKeep s u := by
  obtain ⟨hh, hl, hc, hd, hk, hcl, hco⟩ := h
  obtain ⟨gh, gl, gc, gd, gk, gcl, gco⟩ := g
  refine ⟨gh.trans hh, gl.trans hl, gc.trans hc, gd.trans hd, gk.trans hk, fun k => (gcl k).trans (hcl k), fun c => ?_⟩
  rw [← hco c, ← gco c]

theorem choose (s : State) : ChecksKeep s (choose s).2 := by
  unfold Machine.choose
  split
  · exact refl s
  · exact ⟨rfl, rfl, rfl, rfl, rfl, fun _ => rfl, fun _ => rfl⟩

theorem modCluster (s : State) (k : Nat) (f : Cluster → Cluster) (hf : ∀ c, (f c).cache = c.cache) : ChecksKeep s (s.modCluster k f) := by
  refine ⟨rfl, rfl, rfl, rfl, rfl, fun j => ?_, fun _ => rfl⟩
  by_cases h : j = k
  · rw [h, State.cluster_modCluster_self, hf]
  · rw [State.cluster_modCluster_ne s f h]

theorem setPlb (s : State) (c : Nat) (l : List PageEntry) : ChecksKeep s (s.modCore c fun x => { x with plb := l }) := by
  refine ⟨rfl, rfl, rfl, rfl, rfl, fun _ => rfl, fun j => ?_⟩
  by_cases h : j = c
  · rw [h, State.core_modCore_self]
  · rw [State.modCore, State.core_setCore_ne s _ h]

theorem setPteBit (s : State) (a b : Nat) : ChecksKeep s (setPteBit s a b) := ⟨rfl, rfl, rfl, rfl, rfl, fun _ => rfl, fun _ => rfl⟩

theorem tlbLoad (s : State) (k t : Nat) (e : PageEntry) : ChecksKeep s (tlbLoad s k t e) := by
  refine modCluster s k _ fun c => ?_
  unfold Cluster.tlbFill
  split <;> rfl

theorem plbFill (s : State) (c : Nat) (e : PageEntry) : ChecksKeep s (plbFill s c e) := by
  unfold Machine.plbFill
  dsimp only
  split
  · exact setPlb s c _
  · exact (choose s).trans (setPlb _ c _)

theorem unitWalk (s : State) (k fn : Nat) (va : Word) : ChecksKeep s (unitWalk s k fn va).1 :=
  (choose s).trans ⟨rfl, rfl, rfl, rfl, rfl, fun _ => rfl, fun _ => rfl⟩

theorem tlbEntry (s : State) (k t fn : Nat) (va : Word) : ChecksKeep s (tlbEntry s k t fn va).1 := by
  have hw := unitWalk s k fn va
  unfold Machine.tlbEntry
  split
  · refine modCluster s k _ fun c => ?_
    repeat' split
    all_goals rfl
  · split
    · next heq => rw [heq] at hw; exact hw
    · next heq => rw [heq] at hw; exact (hw.trans (setPteBit _ _ 8)).trans (tlbLoad ..)

theorem pageFor (s : State) (w : Who) (u : Src) (va : Word) : ChecksKeep s (pageFor s w u va).1 := by
  have ht := tlbEntry s (clusterOf w.core) u.tlb w.fn va
  unfold Machine.pageFor
  split
  · exact refl s
  · split
    · next heq => rw [heq] at ht; exact ht
    · next heq => rw [heq] at ht; exact ht.trans (plbFill ..)

theorem markDirty (s : State) (w : Who) (u : Src) (a : Acc) (mxr : Bool) (va : Word) : ChecksKeep s (markDirty s w u a mxr va).1 := by
  have hw := unitWalk s (clusterOf w.core) w.fn va
  unfold Machine.markDirty
  split
  · next heq => rw [heq] at hw; exact hw
  · next heq =>
    rw [heq] at hw
    split
    · exact hw
    · exact (((hw.trans (setPteBit _ _ 8)).trans (setPteBit _ _ 9)).trans (tlbLoad ..)).trans (plbFill ..)

end ChecksKeep

/-! ### What the checks of one access can do -/

/-- The physical side of an access ends in the state that it began in, or in that after the TLB. -/
theorem reach_state (s : State) (w : Who) (u : Src) (a : Acc) (va : Word) (n : Nat) (e : PageEntry) (lvl : Nat) :
    (reach s w u a va n e lvl).1 = s ∨ (reach s w u a va n e lvl).1 = (tlbEntry s (clusterOf w.core) u.tlb w.fn va).1 := by
  unfold reach
  split
  · exact .inl rfl
  · right
    split
    · next heq => rw [heq]
    · next heq =>
      rw [heq]
      dsimp only
      split <;> rfl

/-- The state that the checks of one access leave (R23): as it was, or, of a translated access at a canonical address, that after the page's entry or that
after D is set, with or without the TLB after it. -/
theorem translate_state (s : State) (w : Who) (src : Src) (a : Acc) (mxr setD : Bool) (va : Word) (n : Nat) :
    let tlb := fun (x : State) => (tlbEntry x (clusterOf w.core) src.tlb w.fn va).1
    let t := (translate s w src a mxr setD va n).1
    let u := (pageFor s w src va).1
    let v := (markDirty u w src a mxr va).1
    t = s ∨ w.bare = false ∧ canonical va = true ∧ ((t = u ∨ t = tlb u) ∨ setD = true ∧ a.writes = true ∧ (t = v ∨ t = tlb v)) := by
  unfold Machine.translate
  by_cases hb : w.bare = true
  · left
    rw [if_pos hb]
    split
    · rfl
    · split <;> rfl
  rw [if_neg hb]
  by_cases hc : canonical va = true
  · rw [if_neg (by simp [hc])]
    refine .inr ⟨by simpa using hb, hc, ?_⟩
    generalize hp : pageFor s w src va = p
    obtain ⟨u, f | ⟨e, lvl⟩⟩ := p
    · exact .inl (.inl rfl)
    · dsimp only
      split
      · exact .inl (.inl rfl)
      · split
        · next hd =>
          simp only [Bool.and_eq_true] at hd
          refine .inr ⟨hd.1.1, hd.1.2, ?_⟩
          generalize hm : markDirty u w src a mxr va = m
          obtain ⟨v, f | ⟨e', lvl'⟩⟩ := m
          · exact .inl rfl
          · exact reach_state ..
        · exact .inl (reach_state ..)
  · left
    rw [if_pos (by simp [hc])]

theorem ChecksKeep.translate (s : State) (w : Who) (src : Src) (a : Acc) (mxr setD : Bool) (va : Word) (n : Nat) :
    ChecksKeep s (translate s w src a mxr setD va n).1 := by
  have page := ChecksKeep.pageFor s w src va
  have dirty := page.trans (.markDirty _ w src a mxr va)
  obtain h | ⟨-, -, (h | h) | ⟨-, -, h | h⟩⟩ := translate_state s w src a mxr setD va n
  · rw [h]; exact .refl s
  · rw [h]; exact page
  · rw [h]; exact page.trans (.tlbEntry ..)
  · rw [h]; exact dirty
  · rw [h]; exact dirty.trans (.tlbEntry ..)

/-! ### What the checks of one access mark -/

/-- Setting a bit of an entry in memory looks at memory alone. -/
theorem setPteBit_mem_congr {s t : State} (h : t.mem = s.mem) (a b : Nat) : (setPteBit t a b).mem = (setPteBit s a b).mem := by
  simp only [setPteBit, putRaw, rawWord, rawBytes, rawByte, h]

/-- A TLB gives its entry as it stands, or a walk marks A of the leaf's entry (R27). -/
theorem tlbEntry_marks (s : State) (k t fn : Nat) (va : Word) :
    (tlbEntry s k t fn va).1.mem = s.mem ∨ WalkMarks s k fn va false (tlbEntry s k t fn va).1 := by
  have hm := unitWalk_mem s k fn va
  unfold tlbEntry
  split
  · exact .inl rfl
  · split
    · next heq => rw [heq] at hm; exact .inl hm
    · next x e at_ lvl heq =>
      rw [heq] at hm
      refine .inr ⟨x, e, at_, lvl, heq, ?_⟩
      rw [tlbLoad_mem]
      exact setPteBit_mem_congr hm at_ 8

/-- A page's entry comes from a buffer, or a walk marks A of the leaf's entry (R22, R27). -/
theorem pageFor_marks (s : State) (w : Who) (src : Src) (va : Word) :
    (pageFor s w src va).1.mem = s.mem ∨ WalkMarks s (clusterOf w.core) w.fn va false (pageFor s w src va).1 := by
  have ht := tlbEntry_marks s (clusterOf w.core) src.tlb w.fn va
  unfold pageFor
  split
  · exact .inl rfl
  · split
    · next heq => rw [heq] at ht; exact ht
    · next heq =>
      rw [heq] at ht
      unfold WalkMarks at ht ⊢
      simpa only [plbFill_mem] using ht

/-- Setting D fails, or a walk marks A and D of the leaf's entry (R27). -/
theorem markDirty_marks (s : State) (w : Who) (src : Src) (a : Acc) (mxr : Bool) (va : Word) :
    (markDirty s w src a mxr va).1.mem = s.mem ∨ WalkMarks s (clusterOf w.core) w.fn va true (markDirty s w src a mxr va).1 := by
  have hm := unitWalk_mem s (clusterOf w.core) w.fn va
  unfold markDirty
  split
  · next heq => rw [heq] at hm; exact .inl hm
  · next x e at_ lvl heq =>
    rw [heq] at hm
    split
    · exact .inl hm
    · refine .inr ⟨x, e, at_, lvl, heq, ?_⟩
      rw [plbFill_mem, tlbLoad_mem]
      exact setPteBit_mem_congr (setPteBit_mem_congr hm at_ 8) at_ 9

/-- The checks of one access mark what `CheckMarks` says. -/
theorem translate_marks (s : State) (w : Who) (src : Src) (a : Acc) (mxr setD : Bool) (va : Word) (n : Nat) :
    CheckMarks s w src a mxr setD va (translate s w src a mxr setD va n).1 := by
  have after := fun x => tlbEntry_marks x (clusterOf w.core) src.tlb w.fn va
  obtain h | ⟨hb, hc, h⟩ := translate_state s w src a mxr setD va n
  · exact .inl (congrArg State.mem h)
  · refine .inr ⟨hb, hc, pageFor_marks s w src va, markDirty_marks _ w src a mxr va, ?_⟩
    obtain (h | h) | ⟨hd, hw, h | h⟩ := h
    · rw [h]; exact .inl (.inl rfl)
    · rw [h]; exact .inl (after _)
    · rw [h]; exact .inr ⟨hd, hw, .inl rfl⟩
    · rw [h]; exact .inr ⟨hd, hw, after _⟩

/-! ### The checks of a list of pieces -/

/-- The state after the checks of some pieces, one after the other, whatever they answer. -/
def checkEach (w : Who) (src : Src) (a : Acc) (mxr setD : Bool) (gs : List Seg) (s : State) : State :=
  gs.foldl (fun s g => (translate s w src a mxr setD g.at_ g.n).1) s

theorem checkEach_take_succ (w : Who) (src : Src) (a : Acc) (mxr setD : Bool) {gs : List Seg} {n : Nat} {g : Seg} (h : gs[n]? = some g) (s : State) :
    checkEach w src a mxr setD (gs.take (n + 1)) s = (translate (checkEach w src a mxr setD (gs.take n) s) w src a mxr setD g.at_ g.n).1 := by
  rw [List.take_add_one, h]
  simp [checkEach]

/-- The pieces of a list are checked in turn, up to the first that fails. -/
theorem placeAll_checks (w : Who) (src : Src) (a : Acc) (mxr setD : Bool) (gs : List Seg) (s : State) :
    match placeAll w src a mxr setD gs s with
    | (t, .ok ps) => t = checkEach w src a mxr setD gs s ∧ ps.map (·.seg) = gs
    | (t, .error (f, g)) => ∃ n, gs[n]? = some g ∧ translate (checkEach w src a mxr setD (gs.take n) s) w src a mxr setD g.at_ g.n = (t, .error f) := by
  induction gs generalizing s with
  | nil => exact ⟨rfl, rfl⟩
  | cons g gs ih =>
    unfold placeAll
    generalize hp : translate s w src a mxr setD g.at_ g.n = p
    obtain ⟨t, f | r⟩ := p
    · exact ⟨0, rfl, hp⟩
    · have h := ih t
      have ht : (translate s w src a mxr setD g.at_ g.n).1 = t := by rw [hp]
      dsimp only
      generalize placeAll w src a mxr setD gs t = q at h
      obtain ⟨x, ⟨f, g'⟩ | ps⟩ := q
      · obtain ⟨n, hg, he⟩ := h
        refine ⟨n + 1, hg, ?_⟩
        simpa only [checkEach, List.take_succ_cons, List.foldl_cons, ht] using he
      · obtain ⟨hx, hs⟩ := h
        exact ⟨by simpa only [checkEach, List.foldl_cons, ht] using hx, by simp [hs]⟩

theorem ChecksKeep.placeAll (w : Who) (src : Src) (a : Acc) (mxr setD : Bool) (gs : List Seg) (s : State) :
    ChecksKeep s (placeAll w src a mxr setD gs s).1 := by
  induction gs generalizing s with
  | nil => exact .refl s
  | cons g gs ih =>
    have ht := ChecksKeep.translate s w src a mxr setD g.at_ g.n
    unfold Machine.placeAll
    split
    · next heq => rw [heq] at ht; exact ht
    · next t r heq =>
      rw [heq] at ht
      have hi := ht.trans (ih t)
      split
      · next heq => rw [heq] at hi; exact hi
      · next heq => rw [heq] at hi; exact hi

end Sys2Proof
end

section
/-!
One update of memory, bytes put into memory, and what checks change (R7, R236, R23).
-/
namespace Sys2Proof
open Machine

/-- Settles O15: `amoGlobal_update`; the laws of `putRaw`; what the checks keep and mark, piece by piece. -/
theorem memoryUpdate : Obligations.MemoryUpdate := by
  refine ⟨fun s w n u p c d hw hk ha hn hp hl _ => ?_, fun s pa bs => ?_, fun s t w src a mxr setD gs r h => ?_⟩
  · exact amoGlobal_update hw hk (aligned_in_line ha hn) hp hl u c d
  · exact ⟨rawBytes_putRaw s pa bs, fun a => rawByte_putRaw_ne s pa a bs, putRaw_wf s pa bs⟩
  · have keeps := ChecksKeep.placeAll w src a mxr setD gs s
    have each := placeAll_checks w src a mxr setD gs s
    rw [h] at keeps each
    obtain ⟨hharts, hlines, hclasses, hdies, hclock, hcache, hcores⟩ := keeps
    refine ⟨hharts, hlines, hclasses, hdies, hclock, hcache, hcores, ?_, fun n g hg => ?_⟩
    · cases r with
      | ok ps =>
        dsimp only
        rw [List.take_length]
        exact each
      | error e => exact each
    · have marks := translate_marks (checkEach w src a mxr setD (gs.take n) s) w src a mxr setD g.at_ g.n
      rw [← checkEach_take_succ w src a mxr setD hg s] at marks
      exact marks

end Sys2Proof
end

section
/-!
SUPPORT. What a step keeps of the form of memory and of the table of harts: the relation, and the updates that every operation is made of.
-/
namespace Sys2Proof
open Machine

/-- What becomes of memory and of the table of harts is in canonical form where they were. -/
def TablesKept (s : State) (m : List Host.Cell) (hs : SMap Hart) : Prop :=
  (Memory.wf s.mem = true → Memory.wf m = true) ∧ (SMap.wf {} s.harts = true → SMap.wf {} hs = true)

/-- The canonical form of memory and of the table of harts is kept from one state to another. -/
def FormKept (s t : State) : Prop := TablesKept s t.mem t.harts

/-- The same of the state that an operation answers, where it answers one. -/
def OptKept (s : State) (o : Option State) : Prop := ∀ t, o = some t → FormKept s t

/-- The same of the state that a turn ends in. -/
def OutcomeKept (s : State) (o : Host.Outcome State Fault Refusal) : Prop := ∀ t, o = .next t → FormKept s t

/-- The same of the state that a meaning in steps goes on with, or ends the instruction with. -/
def ResKept {α : Type} (s : State) (r : Except State (α × State)) : Prop :=
  match r with
  | .ok p => FormKept s p.2
  | .error t => FormKept s t

/-- The same of a register write: of the state where it takes effect, and of what a wait does to any state. -/
def WriteKept (s : State) (o : RegOut) : Prop :=
  match o with
  | .ok t => FormKept s t
  | .wait f => ∀ {s₀ t}, FormKept s₀ t → FormKept s₀ (f t)

/-- A meaning in steps that keeps the form from whatever state it starts in. -/
structure ExecKept {α : Type} (m : Exec α) : Prop where
  run : ∀ {s₀ s}, FormKept s₀ s → ResKept s₀ (m s)

variable {s₀ s t : State}

namespace FormKept

theorem refl (s : State) : FormKept s s := ⟨id, id⟩

theorem trans (kept : FormKept s₀ s) (h : FormKept s t) : FormKept s₀ t := ⟨h.1 ∘ kept.1, h.2 ∘ kept.2⟩

/-- An update of neither table. -/
theorem same (kept : TablesKept s₀ t.mem t.harts) : FormKept s₀ t := kept

theorem ite {c : Prop} [Decidable c] (hs : FormKept s₀ s) (ht : FormKept s₀ t) : FormKept s₀ (if c then s else t) := by
  split
  · exact hs
  · exact ht

theorem foldl {α : Type} {f : State → α → State} {l : List α} (hf : ∀ {t} a, FormKept s₀ t → FormKept s₀ (f t a)) (kept : FormKept s₀ s) :
    FormKept s₀ (l.foldl f s) := by
  induction l generalizing s with
  | nil => exact kept
  | cons a l ih => exact ih (hf a kept)

/-- The state of an answer that is a pair. -/
theorem fst {α : Type} {r : State × α} {a : α} (kept : FormKept s₀ r.1) (e : r = (t, a)) : FormKept s₀ t := by
  rw [e] at kept
  exact kept

theorem snd {α : Type} {r : α × State} {a : α} (kept : FormKept s₀ r.2) (e : r = (a, t)) : FormKept s₀ t := by
  rw [e] at kept
  exact kept

/-- Caches move lines and nothing that lies in the table of harts. -/
theorem moves (kept : FormKept s₀ s) (m : CacheMoves s t) : FormKept s₀ t :=
  kept.trans ⟨m.2.1, fun h => m.harts.1 ▸ h⟩

/-! ### The updates of one table -/

theorem setHart {h : Nat} {x : Hart} (kept : FormKept s₀ s) : FormKept s₀ (s.setHart h x) := ⟨kept.1, fun w => SMap.wf_set {} h x (kept.2 w)⟩
theorem modHart {h : Nat} {f : Hart → Hart} (kept : FormKept s₀ s) : FormKept s₀ (s.modHart h f) := kept.setHart
theorem modMe {f : Hart → Hart} (kept : FormKept s₀ s) : FormKept s₀ (s.modMe f) := kept.setHart
theorem putRaw {pa : Nat} {bs : List Byte} (kept : FormKept s₀ s) : FormKept s₀ (putRaw s pa bs) := ⟨fun h => putRaw_wf s pa bs (kept.1 h), kept.2⟩
theorem setPteBit {a b : Nat} (kept : FormKept s₀ s) : FormKept s₀ (setPteBit s a b) := kept.putRaw

theorem setCore {c : Nat} {x : Core} (kept : FormKept s₀ s) : FormKept s₀ (s.setCore c x) := kept
theorem modCore {c : Nat} {f : Core → Core} (kept : FormKept s₀ s) : FormKept s₀ (s.modCore c f) := kept
theorem modMyCore {f : Core → Core} (kept : FormKept s₀ s) : FormKept s₀ (s.modMyCore f) := kept
theorem modCluster {c : Nat} {f : Cluster → Cluster} (kept : FormKept s₀ s) : FormKept s₀ (s.modCluster c f) := kept
theorem modDie {d : Nat} {f : Die → Die} (kept : FormKept s₀ s) : FormKept s₀ (s.modDie d f) := kept
theorem modFunc {n : Nat} {f : Func → Func} (kept : FormKept s₀ s) : FormKept s₀ (s.modFunc n f) := kept
theorem modCls {n : Nat} {f : ClassRec → ClassRec} (kept : FormKept s₀ s) : FormKept s₀ (s.modCls n f) := kept
theorem modQueue {n : Nat} {f : LaunchQ → LaunchQ} (kept : FormKept s₀ s) : FormKept s₀ (s.modQueue n f) := kept
theorem modHp {n : Nat} {f : HallPass → HallPass} (kept : FormKept s₀ s) : FormKept s₀ (s.modHp n f) := kept
theorem modLaunch {n : Nat} {f : Launch → Launch} (kept : FormKept s₀ s) : FormKept s₀ (s.modLaunch n f) := kept
theorem modLine {n : Nat} {f : LineMeta → LineMeta} (kept : FormKept s₀ s) : FormKept s₀ (s.modLine n f) := kept

end FormKept

theorem OptKept.none : OptKept s₀ none := fun _ h => nomatch h

theorem OptKept.some (kept : FormKept s₀ s) : OptKept s₀ (some s) := by
  intro t h
  cases h
  exact kept

theorem OptKept.bind {o : Option State} {f : State → Option State} (ho : OptKept s₀ o) (hf : ∀ {t}, FormKept s₀ t → OptKept s₀ (f t)) :
    OptKept s₀ (o.bind f) := by
  intro t h
  obtain ⟨u, hu, ht⟩ := Option.bind_eq_some_iff.mp h
  exact hf (ho u hu) t ht

theorem OutcomeKept.fault {r : Fault} : OutcomeKept s₀ (.fault r) := fun _ h => nomatch h
theorem OutcomeKept.refused {r : Refusal} : OutcomeKept s₀ (.refused r) := fun _ h => nomatch h

theorem OutcomeKept.next (kept : FormKept s₀ s) : OutcomeKept s₀ (.next s) := by
  intro t h
  cases h
  exact kept

theorem WriteKept.ok {o : RegOut} (h : WriteKept s₀ o) (e : o = .ok t) : FormKept s₀ t := by
  rw [e] at h
  exact h

theorem WriteKept.wait {o : RegOut} {f : State → State} {s₁ : State} (h : WriteKept s₀ o) (e : o = .wait f) (kept : FormKept s₁ t) :
    FormKept s₁ (f t) := by
  rw [e] at h
  exact h kept

theorem ResKept.ok {α : Type} {r : Except State (α × State)} {a : α} (h : ResKept s₀ r) (e : r = .ok (a, t)) : FormKept s₀ t := by
  rw [e] at h
  exact h

theorem ResKept.error {α : Type} {r : Except State (α × State)} (h : ResKept s₀ r) (e : r = .error t) : FormKept s₀ t := by
  rw [e] at h
  exact h

theorem ResKept.of_ok {α : Type} {a : α} (kept : FormKept s₀ s) : ResKept s₀ (.ok (a, s)) := kept

theorem ResKept.bind {α β : Type} {m : Exec α} {f : α → Exec β} (hm : ResKept s₀ (m s)) (hf : ∀ {t} a, FormKept s₀ t → ResKept s₀ (f a t)) :
    ResKept s₀ ((m >>= f) s) := by
  cases e : m s with
  | ok p =>
    rw [bind_ok e]
    exact hf p.1 (hm.ok e)
  | error t =>
    rw [bind_error e]
    exact hm.error e

theorem ResKept.ite {α : Type} {c : Prop} [Decidable c] {m n : Exec α} (hm : ResKept s₀ (m s)) (hn : ResKept s₀ (n s)) :
    ResKept s₀ ((if c then m else n) s) := by
  split
  · exact hm
  · exact hn

/-! ### Meanings in steps -/

namespace ExecKept

variable {α β : Type}

theorem bind {m : Exec α} {f : α → Exec β} (hm : ExecKept m) (hf : ∀ a, ExecKept (f a)) : ExecKept (m >>= f) :=
  ⟨fun kept => .bind (hm.run kept) fun a kept => (hf a).run kept⟩

theorem pure {a : α} : ExecKept (pure a : Exec α) := ⟨fun kept => kept⟩
theorem ite {c : Prop} [Decidable c] {m n : Exec α} (hm : ExecKept m) (hn : ExecKept n) : ExecKept (if c then m else n) := by
  split
  · exact hm
  · exact hn
theorem rd {f : State → α} : ExecKept (rd f) := ⟨fun kept => kept⟩
theorem meX : ExecKept meX := ⟨fun kept => kept⟩
theorem upd {f : State → State} (hf : ∀ {s₀ s}, FormKept s₀ s → FormKept s₀ (f s)) : ExecKept (upd f) := ⟨fun kept => hf kept⟩
theorem onMe {f : Hart → Hart} : ExecKept (onMe f) := ⟨fun kept => kept.modMe⟩
theorem retireX : ExecKept retireX := ⟨fun kept => kept.modMe⟩
theorem trap {c : Nat} {v : Word} : ExecKept (trap c v : Exec α) := ⟨fun kept => kept.modHart⟩
theorem illegal : ExecKept (illegal : Exec α) := ⟨fun kept => kept.modHart⟩
theorem stallWith {w : Wait} : ExecKept (stallWith w : Exec α) := ⟨fun kept => kept.modMe⟩
theorem need {b : Bool} : ExecKept (need b) := .ite .pure .illegal
theorem orTrap {b : Bool} {c : Nat} {v : Word} : ExecKept (orTrap b c v) := .ite .pure .trap

/-- What is read of the state may be the state itself: the rest then starts from what was read. -/
theorem rd_bind {f : State → α} {g : α → Exec β} (hg : ∀ {s₀ s}, FormKept s₀ s → ResKept s₀ (g (f s) s)) : ExecKept (Machine.rd f >>= g) :=
  ⟨fun kept => hg kept⟩

theorem upd_bind {f : State → State} {g : Unit → Exec β} (hf : FormKept s₀ (f s)) (hg : ExecKept (g ())) : ResKept s₀ ((Machine.upd f >>= g) s) :=
  hg.run hf

/-- An instruction whose meaning goes in steps. -/
theorem finish {m : Exec Unit} (hm : ExecKept m) (kept : FormKept s₀ s) : OutcomeKept s₀ (finish m s) := by
  unfold Machine.finish
  split
  · next e => exact .next ((hm.run kept).ok e)
  · next e => exact .next ((hm.run kept).error e)

end ExecKept

end Sys2Proof
end

section
/-!
SUPPORT. The form of memory and of the table of harts is kept by the shared operations of a hart.
-/
namespace Sys2Proof
open Machine

variable {s₀ s t : State}

theorem FormKept.takeTrap {h : Nat} {intr : Bool} {cause : Nat} {tval : Word} (kept : FormKept s₀ s) :
    FormKept s₀ (Machine.takeTrap s h intr cause tval) :=
  kept.modHart

theorem FormKept.retire (kept : FormKept s₀ s) : FormKept s₀ (Machine.retire s) := kept.modMe

theorem FormKept.doneWith {f : Hart → Hart} (kept : FormKept s₀ s) : OutcomeKept s₀ (Machine.doneWith f s) := .next kept.modMe.retire

theorem FormKept.bindTaint {h : Nat} {t : BitVec 16} (kept : FormKept s₀ s) : FormKept s₀ (Machine.bindTaint s h t) := by
  unfold Machine.bindTaint
  split
  · exact kept.modHart
  · exact kept.modCls
  · exact kept.modHart

theorem FormKept.addTaint {h : Nat} {t : BitVec 16} (kept : FormKept s₀ s) : FormKept s₀ (Machine.addTaint s h t) := by
  unfold Machine.addTaint
  split
  · exact kept.modHart
  · exact kept.bindTaint

/-- The taint that a hart in M mode keeps is a change of harts that are listed: a live hart is not the one that an unlisted number reads as. -/
theorem SMap.wf_map_of_ne {α : Type} [DecidableEq α] (d : α) (f : α → α) (hf : ∀ x, x ≠ d → f x ≠ d) (m : SMap α) (h : SMap.wf d m = true) :
    SMap.wf d (m.map fun p => (p.1, f p.2)) = true := by
  have above : ∀ (m : SMap α) (b : Nat), SMap.wfAbove d b m = true → SMap.wfAbove d b (m.map fun p => (p.1, f p.2)) = true := by
    intro m
    induction m with
    | nil => exact fun _ _ => rfl
    | cons p m ih =>
      intro b h
      simp only [SMap.wfAbove, List.map_cons, Bool.and_eq_true, decide_eq_true_eq] at h ⊢
      exact ⟨⟨h.1.1, hf _ h.1.2⟩, ih _ h.2⟩
  cases m with
  | nil => rfl
  | cons p m =>
    simp only [SMap.wf, List.map_cons, Bool.and_eq_true, decide_eq_true_eq] at h ⊢
    exact ⟨hf _ h.1, above _ _ h.2⟩

theorem FormKept.keepTaint (kept : FormKept s₀ s) : FormKept s₀ (Machine.keepTaint s) := by
  refine ⟨kept.1, fun w => SMap.wf_map_of_ne {}
    (fun x : Hart => if x.live && x.priv == .m then { x with mtaint := x.mtaint ||| regionMask s 0 0 .m } else x)
    (fun x hx => ?_) s.harts (kept.2 w)⟩
  split
  · next hc =>
    intro e
    have hl : x.live = false := congrArg Hart.live e
    rw [hl] at hc
    cases hc
  · exact hx

theorem FormKept.raiseIntr {h c : Nat} (kept : FormKept s₀ s) : FormKept s₀ (Machine.raiseIntr s h c) := kept.modHart

theorem FormKept.bump {c k n : Nat} (kept : FormKept s₀ s) : FormKept s₀ (Machine.bump s c k n) := kept.modCore

theorem FormKept.choose (kept : FormKept s₀ s) : FormKept s₀ (Machine.choose s).2 := by
  unfold Machine.choose
  split
  · exact kept
  · exact .same kept

theorem FormKept.withdraw {h : Nat} (kept : FormKept s₀ s) : FormKept s₀ (Machine.withdraw s h) := by
  unfold Machine.withdraw
  split
  · exact kept.modCluster
  · exact kept.modHart
  · exact kept.modCore
  · exact kept.modCluster
  · exact kept

theorem FormKept.abandon {h : Nat} (kept : FormKept s₀ s) : FormKept s₀ (Machine.abandon s h) := kept.withdraw.modHart

theorem FormKept.leaveWait {h : Nat} (kept : FormKept s₀ s) : FormKept s₀ (Machine.leaveWait s h) := by
  unfold Machine.leaveWait
  split
  · exact kept.modHart
  · exact kept.abandon

end Sys2Proof
end

section
/-!
SUPPORT. The form of memory and of the table of harts is kept by the flags, the shared state and walks.
-/
namespace Sys2Proof
open Machine

variable {s₀ s t : State}

theorem FormKept.laneOp {f : L64} {eff : Hart → List Nat → Hart} (kept : FormKept s₀ s) : OutcomeKept s₀ (Machine.laneOp f eff s) := kept.doneWith

theorem FormKept.stick {c : Nat} {fl : BitVec 5} (kept : FormKept s₀ s) : FormKept s₀ (State.stick s c fl) := kept.modCluster

theorem FormKept.setFlags {fl : Nat} (kept : FormKept s₀ s) : FormKept s₀ (Machine.setFlags s fl) := kept.modMe.stick

theorem FormKept.setFflags {h : Nat} {fl : BitVec 5} (kept : FormKept s₀ s) : FormKept s₀ (Machine.setFflags s h fl) := kept.modHart.stick

theorem FormKept.bumpFp {cnt : Nat} (kept : FormKept s₀ s) : FormKept s₀ (Machine.bumpFp s cnt) := .foldl (fun _ kept => .ite kept.bump kept) kept

theorem FormKept.illegalNow (kept : FormKept s₀ s) : OutcomeKept s₀ (Machine.illegalNow s) := .next kept.takeTrap

theorem FormKept.fpOp {f : L64} {rounds : Bool} {eff : Hart → List Nat → Nat → FpEff} (kept : FormKept s₀ s) :
    OutcomeKept s₀ (Machine.fpOp f rounds eff s) := by
  unfold Machine.fpOp
  split
  · exact kept.illegalNow
  · split
    · exact kept.illegalNow
    · dsimp only
      split
      · exact .next kept.modMe.retire
      · exact .next kept.modMe.setHart.bumpFp.setFlags.retire

theorem FormKept.fpMap {f : L64} {rounds : Bool} {op : Nat → Fmt → Nat → Nat → Nat → FRes} (kept : FormKept s₀ s) :
    OutcomeKept s₀ (Machine.fpMap f rounds op s) :=
  kept.fpOp

theorem OutcomeKept.outsideClause {f : State → Host.Outcome State Fault Refusal} (kept : FormKept s₀ s) (hf : OutcomeKept s₀ (f s)) :
    OutcomeKept s₀ (Machine.outsideClause f s) := by
  unfold Machine.outsideClause
  split
  · exact kept.illegalNow
  · exact hf

theorem FormKept.fpScalar {rounds : Bool} {rm : BitVec 3} {eff : Hart → Nat → Hart × Nat} (kept : FormKept s₀ s) :
    OutcomeKept s₀ (Machine.fpScalar rounds rm eff s) := by
  unfold Machine.fpScalar
  split
  · exact kept.illegalNow
  · split
    · exact kept.illegalNow
    · exact .next kept.setHart.setFlags.retire

theorem FormKept.execBase {i : BaseInstr} (kept : FormKept s₀ s) : OutcomeKept s₀ (Machine.execBase i s) := by
  unfold Machine.execBase
  dsimp only
  split
  · exact kept.doneWith
  · exact kept.doneWith
  · exact .outsideClause kept (.next kept.modMe)
  · exact .outsideClause kept (.next kept.modMe)
  · exact .outsideClause kept (.next kept.modMe)
  · exact kept.doneWith
  · exact kept.doneWith
  · exact kept.doneWith
  · exact kept.fpScalar
  · exact kept.fpScalar
  · exact kept.fpScalar
  · exact .outsideClause kept (.next kept.takeTrap)
  · exact .outsideClause kept (.next kept.takeTrap)

end Sys2Proof
end

section
/-!
SUPPORT. The form of memory and of the table of harts is kept by the caches.
-/
namespace Sys2Proof
open Machine

variable {s₀ s t : State}

theorem FormKept.egressOf {pa : Nat} {bs : List Byte} {taint : BitVec 16} (kept : FormKept s₀ s) : FormKept s₀ (Machine.egressOf s pa bs taint) := by
  unfold Machine.egressOf
  split
  · exact .same kept
  · exact .same kept
  · exact kept

theorem FormKept.tlbLoad {k t : Nat} {e : PageEntry} (kept : FormKept s₀ s) : FormKept s₀ (Machine.tlbLoad s k t e) := kept.modCluster

theorem FormKept.putLine {l : Nat} {cs : List PCell} (kept : FormKept s₀ s) : FormKept s₀ (Machine.putLine s l cs) := by
  refine ⟨fun w => putLine_wf s l cs (kept.1 w), ?_⟩
  unfold Machine.putLine
  dsimp only
  split <;> exact kept.2

theorem FormKept.writeLine {l : Nat} {cs : List PCell} {taint : BitVec 16} (kept : FormKept s₀ s) : FormKept s₀ (Machine.writeLine s l cs taint) :=
  (kept.moves (homeWrite_moves ..)).putLine.egressOf

theorem FormKept.writeCells {cs : List PCell} {taint : BitVec 16} (kept : FormKept s₀ s) : FormKept s₀ (Machine.writeCells s cs taint) :=
  .foldl (fun _ kept => kept.writeLine) kept

theorem FormKept.writeMem {key pa : Nat} {bs : List Byte} {taint : BitVec 16} (kept : FormKept s₀ s) :
    FormKept s₀ (Machine.writeMem s key pa bs taint) :=
  kept.writeCells

theorem FormKept.storeLine {w : Who} {vl cm : Nat} {cs : List PCell} (kept : FormKept s₀ s) : FormKept s₀ (Machine.storeLine s w vl cm cs) := by
  unfold Machine.storeLine
  split
  · exact kept
  · dsimp only
    split
    · exact kept.writeLine
    · split
      · exact (kept.moves (kOwn_moves ..)).writeLine
      · split
        · exact ((kept.moves (kOwn_moves ..)).moves (putKline_moves ..))
        · exact (kept.moves (kOwn_moves ..)).putLine

theorem FormKept.markPoison {w : Who} {vl pl : Nat} (kept : FormKept s₀ s) : FormKept s₀ (Machine.markPoison s w vl pl) := by
  unfold Machine.markPoison
  split
  · exact (kept.moves (putKline_moves ..))
  · exact (kept.moves (homeWrite_moves ..)).modLine

theorem FormKept.kForget {p : KLine → Bool} {k : Nat} (kept : FormKept s₀ s) : FormKept s₀ (Machine.kForget p s k) :=
  .foldl (fun _ kept => .ite (kept.moves (dropKline_moves ..)).putRaw.modLine (kept.moves (dropKline_moves ..))) kept

theorem FormKept.peerAcquire {core : Nat} (kept : FormKept s₀ s) : FormKept s₀ (Machine.peerAcquire s core) := kept.modCore.moves (kFlush_moves ..)

end Sys2Proof
end

section
/-!
SUPPORT. The form of memory and of the table of harts is kept by translation and its buffers.
-/
namespace Sys2Proof
open Machine

variable {s₀ s t : State}

theorem FormKept.plbFill {c : Nat} {e : PageEntry} (kept : FormKept s₀ s) : FormKept s₀ (Machine.plbFill s c e) := by
  unfold Machine.plbFill
  dsimp only
  split
  · exact kept.modCore
  · exact kept.choose.modCore

theorem FormKept.tlbEntry {k t fn : Nat} {va : Word} (kept : FormKept s₀ s) : FormKept s₀ (Machine.tlbEntry s k t fn va).1 := by
  unfold Machine.tlbEntry
  split
  · exact kept.modCluster
  · split
    · next heq => exact (kept.moves (unitWalk_moves ..)).fst heq
    · next heq => exact ((kept.moves (unitWalk_moves ..)).fst heq).setPteBit.tlbLoad

theorem FormKept.pageFor {w : Who} {u : Src} {va : Word} (kept : FormKept s₀ s) : FormKept s₀ (Machine.pageFor s w u va).1 := by
  unfold Machine.pageFor
  split
  · exact kept
  · split
    · next heq => exact kept.tlbEntry.fst heq
    · next heq => exact (kept.tlbEntry.fst heq).plbFill

theorem FormKept.markDirty {w : Who} {u : Src} {a : Acc} {mxr : Bool} {va : Word} (kept : FormKept s₀ s) :
    FormKept s₀ (Machine.markDirty s w u a mxr va).1 := by
  unfold Machine.markDirty
  split
  · next heq => exact (kept.moves (unitWalk_moves ..)).fst heq
  · next heq =>
      have kept1 := (kept.moves (unitWalk_moves ..)).fst heq
      split
      · exact kept1
      · exact kept1.setPteBit.setPteBit.tlbLoad.plbFill

theorem FormKept.reach {w : Who} {u : Src} {a : Acc} {va : Word} {n : Nat} {e : PageEntry} {lvl : Nat} (kept : FormKept s₀ s) :
    FormKept s₀ (Machine.reach s w u a va n e lvl).1 := by
  unfold Machine.reach
  split
  · exact kept
  · split
    · next heq => exact kept.tlbEntry.fst heq
    · next heq =>
        have kept1 := kept.tlbEntry.fst heq
        dsimp only
        split <;> exact kept1

theorem FormKept.translate {w : Who} {u : Src} {a : Acc} {mxr setD : Bool} {va : Word} {n : Nat} (kept : FormKept s₀ s) :
    FormKept s₀ (Machine.translate s w u a mxr setD va n).1 := by
  unfold Machine.translate
  split
  · split
    · exact kept
    · split <;> exact kept
  · split
    · exact kept
    · split
      · next heq => exact kept.pageFor.fst heq
      · next heq =>
          have kept1 := kept.pageFor.fst heq
          split
          · exact kept1
          · split
            · split
              · next heq => exact kept1.markDirty.fst heq
              · next heq => exact (kept1.markDirty.fst heq).reach
            · exact kept1.reach

theorem FormKept.postReport {c who : Nat} {va info : Word} {slot off : Nat} {pc : Word} (kept : FormKept s₀ s) :
    FormKept s₀ (Machine.postReport s c who va info slot off pc).1 := by
  unfold Machine.postReport
  dsimp only
  split
  · exact kept.modCore.bump.modDie
  · exact kept.modCore.bump.modCore

theorem FormKept.fatalFault {h : Nat} {va : Word} {detail lane : Nat} (kept : FormKept s₀ s) : FormKept s₀ (Machine.fatalFault s h va detail lane) :=
  kept.modHart.takeTrap

theorem FormKept.postFault {h : Nat} {f : VFault} {access tlb lane : Nat} {va : Word} (kept : FormKept s₀ s) :
    FormKept s₀ (Machine.postFault s h f access tlb lane va) := by
  unfold Machine.postFault
  dsimp only
  split
  · exact kept.fatalFault
  · split
    · exact kept.modHart
    · exact kept.postReport.modHart

theorem ExecKept.failAccess {α : Type} {f : VFault} {access tlb lane : Nat} {va : Word} :
    ExecKept (Machine.failAccess f access tlb lane va : Exec α) :=
  ⟨fun kept => kept.postFault⟩

theorem FormKept.bookPut {hd : Word} {args : List Word} (kept : FormKept s₀ s) : FormKept s₀ (Machine.bookPut s hd args) := by
  unfold Machine.bookPut
  exact .same kept

theorem FormKept.bookAppend {type fn eid core : Nat} {args : List Word} (kept : FormKept s₀ s) :
    FormKept s₀ (Machine.bookAppend s type fn eid core args) := by
  unfold Machine.bookAppend
  dsimp only
  split
  · exact .same kept
  · exact kept.bookPut

theorem FormKept.sealNote {fn eid core pa key : Nat} (kept : FormKept s₀ s) : FormKept s₀ (Machine.sealNote s fn eid core pa key) := kept.bookAppend

theorem FormKept.sealFail {h pa key : Nat} {va : Word} (kept : FormKept s₀ s) : FormKept s₀ (Machine.sealFail s h pa key va) :=
  kept.sealNote.takeTrap

end Sys2Proof
end

section
/-!
SUPPORT. The form of memory and of the table of harts is kept by reads and writes of memory.
-/
namespace Sys2Proof
open Machine

variable {s₀ s t : State}

theorem ExecKept.countOn {write : Bool} : ExecKept (Machine.countOn write) := by
  unfold Machine.countOn
  refine ⟨fun {s₀ s} kept => ?_⟩
  dsimp only
  split
  · split
    · exact ExecKept.stallWith.run kept
    · exact kept
  · split
    · exact ExecKept.stallWith.run kept
    · exact kept

theorem ExecKept.wmCheck {accs : List (Nat × Nat)} : ExecKept (Machine.wmCheck accs) := by
  unfold Machine.wmCheck
  refine ⟨fun {s₀ s} kept => ?_⟩
  split
  · exact ExecKept.trap.run kept
  · exact ExecKept.stallWith.run kept
  · exact kept

theorem FormKept.placeAll {w : Who} {u : Src} {a : Acc} {mxr setD : Bool} {gs : List Seg} (kept : FormKept s₀ s) :
    FormKept s₀ (Machine.placeAll w u a mxr setD gs s).1 := by
  induction gs generalizing s with
  | nil => exact kept
  | cons g gs ih =>
    unfold Machine.placeAll
    split
    · next heq => exact kept.translate.fst heq
    · next heq =>
      have kept1 := ih (kept.translate.fst heq)
      split
      · next heq => exact kept1.fst heq
      · next heq => exact kept1.fst heq

theorem ExecKept.placeMine {w : Who} {u : Src} {a : Acc} {code : Nat} {gs : List Seg} : ExecKept (Machine.placeMine w u a code gs) := by
  unfold Machine.placeMine
  refine ⟨fun {s₀ s} kept => ?_⟩
  split
  · next heq => exact ExecKept.failAccess.run (kept.placeAll.fst heq)
  · next heq =>
      have kept1 := kept.placeAll.fst heq
      split
      · exact ExecKept.stallWith.run kept1
      · split
        · split
          · next heq => exact ExecKept.failAccess.run (kept1.placeAll.fst heq)
          · next heq => exact kept1.placeAll.fst heq
        · exact kept1

theorem FormKept.l1Fill {c : Nat} {x : CLine} (kept : FormKept s₀ s) : FormKept s₀ (Machine.l1Fill s c x) := by
  unfold Machine.l1Fill
  dsimp only
  split
  · exact kept.modCore
  · exact kept.choose.modCore

theorem FormKept.lineIn {w : Who} {va : Word} {r : PRef} (kept : FormKept s₀ s) : FormKept s₀ (Machine.lineIn s w va r).1 := by
  unfold Machine.lineIn
  dsimp only
  split
  · exact kept
  · exact (kept.moves (readIn_moves ..))

theorem FormKept.l1Line {w : Who} {va : Word} {r : PRef} {alloc : Bool} (kept : FormKept s₀ s) : FormKept s₀ (Machine.l1Line s w va r alloc).1 := by
  unfold Machine.l1Line
  split
  · exact kept
  · split
    · next heq => exact kept.lineIn.fst heq
    · next heq =>
        have kept1 := kept.lineIn.fst heq
        exact .ite kept1.l1Fill kept1

theorem FormKept.l1Drop {c tag : Nat} {vls : List Nat} (kept : FormKept s₀ s) : FormKept s₀ (Machine.l1Drop s c tag vls) := kept.modCore

theorem FormKept.l1Clear {c : Nat} (kept : FormKept s₀ s) : FormKept s₀ (Machine.l1Clear s c) := kept.modCore

theorem FormKept.coreAcquire {c scope : Nat} (kept : FormKept s₀ s) : FormKept s₀ (Machine.coreAcquire s c scope) := by
  unfold Machine.coreAcquire
  extract_lets s₁
  have kept1 : FormKept s₀ s₁ := .ite kept.l1Clear kept
  split
  · exact kept1.peerAcquire
  · exact kept1

theorem FormKept.coreFence {c scope : Nat} {lane : Bool} (kept : FormKept s₀ s) : FormKept s₀ (Machine.coreFence s c scope lane) := by
  unfold Machine.coreFence
  dsimp only
  split
  · exact (kept.moves (coreRelease_moves ..)).coreAcquire
  · split
    · exact ((kept.moves (coreRelease_moves ..)).moves (kFlush_moves ..))
    · exact (kept.moves (coreRelease_moves ..))

theorem FormKept.acquire {scope : Nat} (kept : FormKept s₀ s) : FormKept s₀ (Machine.acquire s scope) := kept.coreAcquire

theorem FormKept.breakResv {h : Nat} {ls : List Nat} (kept : FormKept s₀ s) : FormKept s₀ (Machine.breakResv s h ls) := by
  refine .foldl (fun p kept => ?_) kept
  split
  · exact .ite kept.modHart kept
  · exact kept

theorem FormKept.l1Update {c tag : Nat} {cs : List VCell} (kept : FormKept s₀ s) : FormKept s₀ (Machine.l1Update s c tag cs) := kept.modCore

theorem FormKept.putCells {w : Who} {cs : List VCell} (kept : FormKept s₀ s) : FormKept s₀ (Machine.putCells s w cs) :=
  .foldl (fun _ kept => kept.storeLine) kept

theorem FormKept.storeCells {w : Who} {cs : List VCell} (kept : FormKept s₀ s) : FormKept s₀ (Machine.storeCells s w cs) :=
  kept.putCells.l1Update.breakResv

theorem FormKept.bringIn {w : Who} {ps : List Placed} (kept : FormKept s₀ s) : FormKept s₀ (Machine.bringIn s w ps) :=
  .foldl (fun _ kept => .foldl (fun _ kept => (kept.moves (readIn_moves ..))) kept) kept

theorem FormKept.readPieces {w : Who} {alloc : Bool} {ps : List Placed} (kept : FormKept s₀ s) : FormKept s₀ (Machine.readPieces w alloc ps s).1 := by
  induction ps generalizing s with
  | nil => exact kept
  | cons p ps ih =>
    unfold Machine.readPieces
    split
    · next heq => exact kept.l1Line.fst heq
    · next heq =>
      split
      · exact kept.l1Line.fst heq
      · have kept1 := ih (kept.l1Line.fst heq)
        split
        · next heq => exact kept1.fst heq
        · next heq => exact kept1.fst heq

theorem ExecKept.failRead {α : Type} {e : Bool × Seg × PRef} : ExecKept (Machine.failRead e : Exec α) := by
  unfold Machine.failRead
  refine ⟨fun {s₀ s} kept => ?_⟩
  split
  · exact ExecKept.trap.run kept
  · exact kept.sealFail

theorem ExecKept.whoX : ExecKept (Machine.whoX ) := .rd

theorem ExecKept.scratchCheck {accs : List (Nat × Word)} {n : Nat} {store : Bool} : ExecKept (Machine.scratchCheck accs n store) := by
  unfold Machine.scratchCheck
  refine ⟨fun {s₀ s} kept => ?_⟩
  dsimp only
  split
  · exact ExecKept.trap.run kept
  · split
    · exact ExecKept.trap.run kept
    · exact kept

theorem FormKept.takePasses {accs : List (Nat × Word)} {n : Nat} {atomic : Bool} (kept : FormKept s₀ s) :
    FormKept s₀ (Machine.takePasses s accs n atomic) :=
  kept.modMyCore.bump

end Sys2Proof
end

section
/-!
SUPPORT. The form of memory and of the table of harts is kept by clauses, traps and returns.
-/
namespace Sys2Proof
open Machine

variable {s₀ s t : State}

theorem FormKept.askSwitch {c slot : Nat} (kept : FormKept s₀ s) : FormKept s₀ (Machine.askSwitch s c slot) := kept.modCore

theorem FormKept.noteIssue {h : Nat} (kept : FormKept s₀ s) : FormKept s₀ (Machine.noteIssue s h) := kept.modCore

theorem FormKept.haltOrIntr {h : Nat} (kept : FormKept s₀ s) : OptKept s₀ (Machine.haltOrIntr s h) := by
  unfold Machine.haltOrIntr
  dsimp only
  split
  · exact .some kept.abandon.modHart
  · split
    · exact .some kept.leaveWait.takeTrap
    · exact .none

theorem ExecKept.meetFaults {targets : List Nat} : ExecKept (Machine.meetFaults targets) := by
  unfold Machine.meetFaults
  refine ⟨fun {s₀ s} kept => ?_⟩
  dsimp only
  split
  · exact kept
  · exact FormKept.ite kept.modMe.takeTrap kept.modMe.fatalFault

theorem ExecKept.waitFlags {m : BitVec 12} : ExecKept (Machine.waitFlags m) := by
  unfold Machine.waitFlags
  refine .bind .meetFaults fun _ => ?_
  refine ⟨fun {s₀ s} kept => ?_⟩
  split
  · exact ExecKept.stallWith.run kept
  · exact kept

theorem FormKept.execKfence {sets : BitVec 4} {scope : BitVec 3} (kept : FormKept s₀ s) : OutcomeKept s₀ (Machine.execKfence sets scope s) := by
  unfold Machine.execKfence
  refine ExecKept.finish ?_ kept
  refine .bind ?_ fun _ => ?_
  · refine ⟨fun {s₀ s} kept => ?_⟩
    split
    · exact ExecKept.stallWith.run kept
    · exact kept
  · exact .bind (.upd fun kept => .ite kept kept.coreFence) fun _ => .retireX

theorem FormKept.execSfenceVma {a _b : BitVec 5} (kept : FormKept s₀ s) : OutcomeKept s₀ (Machine.execSfenceVma a _b s) := by
  unfold Machine.execSfenceVma
  split
  · exact kept.illegalNow
  · exact .next kept.modMyCore.retire

theorem FormKept.execWfi (kept : FormKept s₀ s) : OutcomeKept s₀ (Machine.execWfi s) := by
  unfold Machine.execWfi
  refine .outsideClause kept ?_
  split
  · exact kept.illegalNow
  · split
    · exact .next kept.retire
    · exact .next kept.modMe

theorem FormKept.execSret (kept : FormKept s₀ s) : OutcomeKept s₀ (Machine.execSret s) := by
  unfold Machine.execSret
  refine .outsideClause kept ?_
  split
  · exact kept.illegalNow
  · exact .next kept.modMe

theorem FormKept.execMret (kept : FormKept s₀ s) : OutcomeKept s₀ (Machine.execMret s) := by
  unfold Machine.execMret
  refine .outsideClause kept ?_
  split
  · exact kept.illegalNow
  · exact .next kept.modMe

theorem FormKept.execTrapEntry (kept : FormKept s₀ s) : OutcomeKept s₀ (Machine.execTrapEntry s) := by
  unfold Machine.execTrapEntry
  dsimp only
  split
  · split
    · exact .next kept.leaveWait.takeTrap
    · exact .next (.ite kept.abandon.takeTrap kept)
  · exact .next kept

theorem FormKept.execWfiTimeout (kept : FormKept s₀ s) : OutcomeKept s₀ (Machine.execWfiTimeout s) := by
  unfold Machine.execWfiTimeout
  dsimp only
  split
  · exact .next (.ite kept.modHart kept)
  · exact .next kept

end Sys2Proof
end

section
/-!
SUPPORT. The form of memory and of the table of harts is kept by barriers.
-/
namespace Sys2Proof
open Machine

variable {s₀ s t : State}

theorem FormKept.modBar {c id : Nat} {f : Barrier → Barrier} (kept : FormKept s₀ s) : FormKept s₀ (Machine.modBar s c id f) := kept.modCore

theorem FormKept.breakBar {c id : Nat} (kept : FormKept s₀ s) : FormKept s₀ (Machine.breakBar s c id) :=
  .foldl (fun _ kept => kept.takeTrap) kept.modBar

theorem FormKept.decideStage {c id : Nat} (kept : FormKept s₀ s) : FormKept s₀ (Machine.decideStage s c id) := by
  unfold Machine.decideStage
  dsimp only
  split
  · exact kept
  · split
    · exact kept
    · split
      · exact kept.breakBar
      · split
        · exact kept.modBar
        · exact kept

theorem FormKept.deliver {c id n edge : Nat} (kept : FormKept s₀ s) : FormKept s₀ (Machine.deliver s c id n edge) := by
  unfold Machine.deliver
  split
  · split
    · exact kept.modBar.decideStage
    · exact kept
  · exact kept

theorem FormKept.arriveBar {h id : Nat} {g : BitVec 18} {roll : Option RollCall} (kept : FormKept s₀ s) :
    OptKept s₀ (Machine.arriveBar s h id g roll) := by
  unfold Machine.arriveBar
  dsimp only
  split
  · exact .some kept.modBar.decideStage
  · split
    · exact .some kept.modBar
    · exact .none

theorem ExecKept.barGranted {id : Nat} : ExecKept (Machine.barGranted id) := ⟨fun kept => ExecKept.need.run kept⟩

theorem ExecKept.barUse {id : Nat} : ExecKept (Machine.barUse id) := by
  unfold Machine.barUse
  refine .bind .barGranted fun _ => .bind .rd fun _ => ?_
  split
  · exact .illegal
  · exact .ite .trap .pure

theorem FormKept.execBarCfg {id : BitVec 7} {a : BitVec 5} (kept : FormKept s₀ s) : OutcomeKept s₀ (Machine.execBarCfg id a s) :=
  (ExecKept.bind .need fun _ => .bind .barGranted fun _ => .ite .stallWith (.bind (.upd fun kept => kept.modBar) fun _ => .retireX)).finish kept

theorem ExecKept.barUseWait {id : Nat} : ExecKept (Machine.barUseWait id) := by
  unfold Machine.barUseWait
  refine ⟨fun {s₀ s} kept => ?_⟩
  split
  · exact kept
  · exact ExecKept.barUse.run kept

theorem ExecKept.barArrive {id : Nat} {g : BitVec 18} {roll : Option RollCall} : ExecKept (Machine.barArrive id g roll) := by
  unfold Machine.barArrive
  refine ⟨fun {s₀ s} kept => ?_⟩
  have go : ResKept s₀ (Machine.barArrive.go id g roll s) := by
    unfold Machine.barArrive.go
    split
    · next heq => exact kept.modMe.arriveBar _ heq
    · exact ExecKept.stallWith.run kept
  dsimp only
  split
  · split
    · exact ExecKept.stallWith.run kept
    · exact go
  · exact go

theorem ExecKept.barAwait {id : Nat} {g : BitVec 18} {w : Wait} : ExecKept (Machine.barAwait id g w) := by
  unfold Machine.barAwait
  refine ⟨fun {s₀ s} kept => ?_⟩
  dsimp only
  split
  · exact kept
  · split
    · exact ExecKept.stallWith.run kept
    · exact kept.modBar.acquire

theorem FormKept.execBarWait {id : BitVec 7} (kept : FormKept s₀ s) : OutcomeKept s₀ (Machine.execBarWait id s) :=
  (ExecKept.bind .barUseWait fun _ => .bind .meetFaults fun _ => .bind .barAwait fun _ => .retireX).finish kept

theorem FormKept.execBarSync {id : BitVec 7} (kept : FormKept s₀ s) : OutcomeKept s₀ (Machine.execBarSync id s) :=
  (ExecKept.bind .barUseWait fun _ => .bind .meetFaults fun _ => .bind .rd fun _ => .ite (.bind .barArrive fun _ => .bind .rd fun _ =>
    .ite (.bind .trap fun _ => .bind .barAwait fun _ => .retireX) (.bind .barAwait fun _ => .retireX)) (.bind .rd fun _ =>
      .ite (.bind .trap fun _ => .bind .barAwait fun _ => .retireX) (.bind .barAwait fun _ => .retireX))).finish kept

theorem FormKept.execBarTx {id : BitVec 7} {a : BitVec 5} (kept : FormKept s₀ s) : OutcomeKept s₀ (Machine.execBarTx id a s) :=
  (ExecKept.bind .barUse fun _ => .bind .need fun _ => .bind (.upd fun kept => kept.modBar.decideStage) fun _ => .retireX).finish kept

theorem FormKept.execBarTest {d : BitVec 5} {id : BitVec 7} {a : BitVec 5} (kept : FormKept s₀ s) : OutcomeKept s₀ (Machine.execBarTest d id a s) :=
  (ExecKept.bind .barUseWait fun _ => .bind .meetFaults fun _ => .ite (.bind .onMe fun _ => .retireX) (.bind .barAwait fun _ =>
    .bind .onMe fun _ => .retireX)).finish kept

theorem FormKept.execBarTestTimeout (kept : FormKept s₀ s) : OutcomeKept s₀ (Machine.execBarTestTimeout s) := by
  unfold Machine.execBarTestTimeout
  dsimp only
  split
  · exact .next (.ite kept.modHart kept)
  · exact .next kept

theorem FormKept.execBarrierSweep (kept : FormKept s₀ s) : OutcomeKept s₀ (Machine.execBarrierSweep s) := by
  unfold Machine.execBarrierSweep
  dsimp only
  split
  · exact .next kept
  · split
    · exact .next kept
    · exact .next kept.modBar

theorem FormKept.releaseBar {c id : Nat} (kept : FormKept s₀ s) : FormKept s₀ (Machine.releaseBar s c id) := kept.modBar.decideStage.coreAcquire

theorem FormKept.writeRoll {c id : Nat} {r : RollCall} {sum : List Nat} (kept : FormKept s₀ s) : FormKept s₀ (Machine.writeRoll s c id r sum) := by
  unfold Machine.writeRoll
  dsimp only
  split
  · next heq =>
      have kept1 := kept.placeAll.fst heq
      split
      · exact kept1
      · exact kept1.postReport.modBar
  · next heq =>
      have kept1 := kept.placeAll.fst heq
      split
      · exact kept1
      · exact kept1.storeCells.releaseBar.raiseIntr

theorem FormKept.execBarrierRelease (kept : FormKept s₀ s) : OutcomeKept s₀ (Machine.execBarrierRelease s) := by
  unfold Machine.execBarrierRelease
  dsimp only
  split
  · exact .next kept
  · split
    · exact .next kept
    · split
      · exact .next (.ite kept.releaseBar kept)
      · split
        · exact .next kept.releaseBar
        · exact .next (.ite kept kept.writeRoll)

theorem FormKept.failRoll {c i : Nat} {r : RollCall} (kept : FormKept s₀ s) : FormKept s₀ (Machine.failRoll s c i r) := kept.modBar.modHart

end Sys2Proof
end

section
/-!
SUPPORT. The form of memory and of the table of harts is kept by fetch.
-/
namespace Sys2Proof
open Machine

variable {s₀ s t : State}

theorem FormKept.icFill {c : Nat} {x : CLine} (kept : FormKept s₀ s) : FormKept s₀ (Machine.icFill s c x) := kept.modCore

theorem FormKept.icLine {w : Who} {va : Word} {r : PRef} (kept : FormKept s₀ s) : FormKept s₀ (Machine.icLine s w va r).1 := by
  unfold Machine.icLine
  dsimp only
  split
  · exact kept.modCore
  · split
    · next heq => exact kept.lineIn.fst heq
    · next heq =>
        have kept1 := kept.lineIn.fst heq
        exact .ite kept1 kept1.icFill

theorem FormKept.fetchParcel {h : Nat} {va : Word} (kept : FormKept s₀ s) : FormKept s₀ (Machine.fetchParcel s h va).1 := by
  unfold Machine.fetchParcel
  dsimp only
  split
  · next heq => exact (kept.translate.fst heq).takeTrap
  · next heq =>
      have kept1 := kept.translate.fst heq
      split
      · exact kept1.modHart
      · split
        · next heq => exact (kept1.icLine.fst heq).sealFail
        · next heq =>
            have kept2 := kept1.icLine.fst heq
            split
            · exact kept2.takeTrap
            · exact kept2

theorem FormKept.fetchMore {h n : Nat} {va : Word} (kept : FormKept s₀ s) : FormKept s₀ (Machine.fetchMore h n va s).1 := by
  induction n generalizing s va with
  | zero => exact kept
  | succ n ih =>
    unfold Machine.fetchMore
    split
    · next heq => exact kept.fetchParcel.fst heq
    · next heq =>
      have kept1 := ih (va := va + 2) (kept.fetchParcel.fst heq)
      split
      · next heq => exact kept1.fst heq
      · next heq => exact kept1.fst heq

theorem FormKept.fetch {h : Nat} (kept : FormKept s₀ s) : FormKept s₀ (Machine.fetch s h).1 := by
  unfold Machine.fetch
  dsimp only
  split
  · next heq => exact kept.fetchParcel.fst heq
  · next heq =>
      have kept1 := kept.fetchParcel.fst heq
      split
      · next heq => exact kept1.fetchMore.fst heq
      · next heq => exact kept1.fetchMore.fst heq

theorem FormKept.latch {h bits len : Nat} (kept : FormKept s₀ s) : FormKept s₀ (Machine.latch s h bits len) := kept.modHart

end Sys2Proof
end

section
/-!
SUPPORT. The form of memory and of the table of harts is kept by lane loads, stores and atomics.
-/
namespace Sys2Proof
open Machine

variable {s₀ s t : State}

theorem ExecKept.memStart {f : L64} : ExecKept (Machine.memStart f) := by
  unfold Machine.memStart
  refine ⟨fun {s₀ s} kept => ?_⟩
  split
  · exact kept.retire
  · exact kept

theorem ExecKept.laneAddrs {f : L64} {ls : List Nat} : ExecKept (Machine.laneAddrs f ls) := .rd

theorem ExecKept.scratchPoison {accs : List (Nat × Word)} {n : Nat} : ExecKept (Machine.scratchPoison accs n) := by
  unfold Machine.scratchPoison
  refine ⟨fun {s₀ s} kept => ?_⟩
  split
  · exact ExecKept.trap.run kept
  · exact kept

theorem ExecKept.laneFetch {f : L64} {n : Nat} {ls : List Nat} : ExecKept (Machine.laneFetch f n ls) := by
  unfold Machine.laneFetch
  refine .bind .laneAddrs fun _ => ?_
  split
  · exact .bind .scratchCheck fun _ => .bind .scratchPoison fun _ => .bind (.upd fun kept => kept.takePasses) fun _ => .rd
  · refine .bind .countOn fun _ => .bind .wmCheck fun _ => .bind .rd fun _ => .bind .placeMine fun _ => ?_
    refine ⟨fun {s₀ s} kept => ?_⟩
    split
    · next heq => exact ExecKept.failRead.run (kept.readPieces.fst heq)
    · next heq => exact kept.readPieces.fst heq

theorem ExecKept.laneLoad {f : L64} {n : Nat} {sg : Bool} : ExecKept (Machine.laneLoad f n sg) :=
  .bind .memStart fun _ => .bind .laneFetch fun _ => .bind .onMe fun _ => .retireX

theorem ExecKept.storePieces {w : Who} {ps : List Placed} {data : Nat → List Byte} : ExecKept (Machine.storePieces w ps data) := by
  unfold Machine.storePieces
  refine ⟨fun {s₀ s} kept => ?_⟩
  dsimp only
  split
  · exact kept.sealFail
  · exact kept.storeCells

theorem ExecKept.laneStore {f : L64} {n : Nat} : ExecKept (Machine.laneStore f n) :=
  .bind .memStart fun _ => .bind .laneAddrs fun _ => .bind .meX fun _ => .ite (.bind .scratchCheck fun _ =>
    .bind (.upd fun kept => kept.takePasses.modCls) fun _ => .retireX) (.bind .countOn fun _ => .bind .wmCheck fun _ => .bind .rd fun _ =>
      .bind .placeMine fun _ => .bind .storePieces fun _ => .retireX)

theorem FormKept.pickOrder {n : Nat} {ls : List Nat} (kept : FormKept s₀ s) : FormKept s₀ (Machine.pickOrder n ls s).1 := by
  induction n generalizing s ls with
  | zero => exact kept
  | succ n ih =>
    unfold Machine.pickOrder
    exact ih kept.choose

theorem FormKept.amoGlobal {w : Who} {n : Nat} {u : Update} {p : Placed} {c d : Nat} (kept : FormKept s₀ s) :
    FormKept s₀ (Machine.amoGlobal w n u p c d s).1 := by
  unfold Machine.amoGlobal
  dsimp only
  split
  · exact (kept.moves (readIn_moves ..)).storeLine.breakResv
  · exact kept.moves (readIn_moves ..)

theorem FormKept.amoScratch {n : Nat} {u : Update} {off c d : Nat} (kept : FormKept s₀ s) : FormKept s₀ (Machine.amoScratch n u off c d s).1 := by
  unfold Machine.amoScratch
  dsimp only
  split
  · exact kept.modCls
  · exact kept

theorem FormKept.amoAll {f : Nat → State → State × Nat × FRes} {ls : List Nat} (kept : FormKept s₀ s)
    (hf : ∀ {s₀ s} l, FormKept s₀ s → FormKept s₀ (f l s).1) : FormKept s₀ (Machine.amoAll f ls s).1 := by
  induction ls generalizing s with
  | nil => exact kept
  | cons l ls ih =>
    unfold Machine.amoAll
    exact ih (hf l kept)

theorem FormKept.peerHomes {w : Who} {ps : List Placed} (kept : FormKept s₀ s) : FormKept s₀ (Machine.peerHomes w ps s).1 := by
  induction ps generalizing s with
  | nil => exact kept
  | cons p ps ih =>
    unfold Machine.peerHomes
    exact ih (kept.moves (peerHome_moves ..))

theorem ExecKept.laneAtomic {f : L64} {n : Nat} {u : Update} : ExecKept (Machine.laneAtomic f n u) := by
  unfold Machine.laneAtomic
  refine .bind .memStart fun ls => .bind .meX fun h => ?_
  extract_lets accs addr cv dv misaligned run ends scratch memory
  have ran : ∀ {one}, (∀ {s₀ s} l, FormKept s₀ s → FormKept s₀ (one l s).1) → ExecKept (run one) :=
    fun hone => ⟨fun kept => (kept.pickOrder.amoAll hone).modMe.bumpFp.setFlags⟩
  have ended : ∀ u, ExecKept (ends u) := fun _ => .bind (.upd fun kept => .ite kept.acquire kept) fun _ => .retireX
  have inScratch : ∀ u, ExecKept (scratch u) := fun _ =>
    .bind .scratchPoison fun _ => .bind (.upd fun kept => kept.takePasses) fun _ =>
    .bind (.upd fun kept => .ite (kept.moves (coreRelease_moves ..)) kept) fun _ => .bind (ran fun _ kept => kept.amoScratch) ended
  have inMemory : ∀ u, ExecKept (memory u) := by
    refine fun _ => .bind .wmCheck fun _ => .bind .whoX fun w => .bind .placeMine fun _ =>
      .bind ⟨fun kept => kept.peerHomes⟩ fun ps => .bind ⟨fun {s₀ s} kept => ?_⟩ fun _ => ?_
    · split
      · exact ExecKept.trap.run kept
      · split
        · exact kept.sealFail
        · exact kept
    · exact .bind (.upd fun kept => .ite (kept.moves (coreRelease_moves ..)) kept) fun _ => .bind (ran fun _ kept => kept.amoGlobal) fun _ =>
      .bind (.upd fun kept => kept.l1Drop) ended
  have aligned : ∀ (o : Option (Nat × Word)) (m : Unit → Exec Unit), (∀ u, ExecKept (m u)) → ExecKept (match o with
      | some x => Machine.trap 6 x.2 >>= m
      | none => m ()) := by
    intro o m hm
    split
    · exact .bind .trap hm
    · exact hm ()
  exact .ite (.bind .scratchCheck fun _ => aligned _ _ inScratch) (.bind .countOn fun _ => aligned _ _ inMemory)

theorem FormKept.laneFpAtomic {f : L64} {g : Nat → Nat → FRes} (kept : FormKept s₀ s) : OutcomeKept s₀ (Machine.laneFpAtomic f g s) := by
  unfold Machine.laneFpAtomic
  split
  · exact kept.illegalNow
  · exact ExecKept.laneAtomic.finish kept.modMe

theorem FormKept.prefetchLane {w : Who} {md : BitVec 3} {va : Word} (kept : FormKept s₀ s) : FormKept s₀ (Machine.prefetchLane w md s va) := by
  unfold Machine.prefetchLane
  split
  · exact kept
  · split
    · next heq => exact kept.translate.fst heq
    · next heq =>
        have kept1 := kept.translate.fst heq
        split
        · exact kept1
        · split
          · next heq =>
              have kept2 := kept1.lineIn.fst heq
              split
              · exact kept2.l1Fill
              · exact kept2
          · next heq => exact (kept1.lineIn.fst heq).sealNote

theorem FormKept.execLprf {f : L64} (kept : FormKept s₀ s) : OutcomeKept s₀ (Machine.execLprf f s) :=
  (ExecKept.bind .memStart fun _ => .bind .laneAddrs fun _ => .bind .rd fun _ =>
    .bind (.upd fun kept => .foldl (fun _ kept => kept.prefetchLane) kept) fun _ => .retireX).finish kept

theorem FormKept.zeroTags {w : Who} {ps : List Placed} (kept : FormKept s₀ s) : FormKept s₀ (Machine.zeroTags s w ps) :=
  .foldl (fun _ kept => .foldl (fun _ kept => .ite (kept.moves (zeroLine_moves ..)) kept) kept) kept

theorem ExecKept.zeroPieces {w : Who} {ps : List Placed} {data : Nat → List Byte} : ExecKept (Machine.zeroPieces w ps data) := by
  unfold Machine.zeroPieces
  refine ⟨fun {s₀ s} kept => ?_⟩
  dsimp only
  split
  · exact kept.sealFail
  · exact kept.zeroTags.storeCells

theorem FormKept.execLzero {f : L64} (kept : FormKept s₀ s) : OutcomeKept s₀ (Machine.execLzero f s) :=
  (ExecKept.bind .memStart fun _ => .bind .laneAddrs fun _ => .bind .countOn fun _ => .bind .wmCheck fun _ => .bind .whoX fun _ =>
    .bind .placeMine fun _ => .bind .zeroPieces fun _ => .retireX).finish kept

end Sys2Proof
end

section
/-!
SUPPORT. The form of memory and of the table of harts is kept by tile pools.
-/
namespace Sys2Proof
open Machine

variable {s₀ s t : State}

theorem ExecKept.tileTrap {α : Type} {f : TFail} {tval : Word} : ExecKept (Machine.tileTrap f tval : Exec α) :=
  ⟨fun kept => kept.modMe.bump.takeTrap⟩

theorem ExecKept.tileNeed {f : Option TFail} {tval : Word} : ExecKept (Machine.tileNeed f tval) := by
  unfold Machine.tileNeed
  split
  · exact .tileTrap
  · exact .pure

theorem FormKept.modTile {r : TileRef} {f : PoolSlot → PoolSlot} (kept : FormKept s₀ s) : FormKept s₀ (State.modTile s r f) := kept.modCluster

theorem FormKept.touchPart {clus part : Nat} (kept : FormKept s₀ s) : FormKept s₀ (Machine.touchPart s clus part) := kept.modCluster

theorem FormKept.freeTile {r : TileRef} (kept : FormKept s₀ s) : FormKept s₀ (Machine.freeTile s r) := kept.modTile.touchPart

theorem FormKept.takeSlot {clus part launch n : Nat} (kept : FormKept s₀ s) : FormKept s₀ (Machine.takeSlot s clus part launch n).1 := by
  unfold Machine.takeSlot
  split
  · exact kept
  · exact kept.modCluster

theorem ExecKept.tallocOp {nb : Bool} {f : L64} : ExecKept (Machine.tallocOp nb f) := by
  unfold Machine.tallocOp
  refine ⟨fun {s₀ s} kept => ?_⟩
  dsimp only
  split
  · exact ExecKept.tileTrap.run kept
  · split
    · exact kept.takeSlot.modMe.retire
    · split
      · exact kept.modMe.retire
      · exact ExecKept.stallWith.run kept.modCluster.bump

theorem FormKept.grantWaiter {clus part : Nat} {w : Waiter} (kept : FormKept s₀ s) : FormKept s₀ (Machine.grantWaiter s clus part w) := by
  unfold Machine.grantWaiter
  dsimp only
  split
  · exact kept.modCluster.takeSlot.modHart
  · split
    · exact kept.modCluster
    · exact kept.modCluster.takeSlot.modCore

theorem FormKept.execTallocGrant (kept : FormKept s₀ s) : OutcomeKept s₀ (Machine.execTallocGrant s) := by
  unfold Machine.execTallocGrant
  dsimp only
  split
  · exact .next kept.grantWaiter
  · exact .next kept

theorem FormKept.tileTrapOn {h : Nat} {f : TFail} {tval : Word} (kept : FormKept s₀ s) : FormKept s₀ (Machine.tileTrapOn s h f tval) :=
  kept.modHart.bump.takeTrap

theorem FormKept.execStarvationDetectorFire (kept : FormKept s₀ s) : OutcomeKept s₀ (Machine.execStarvationDetectorFire s) := by
  unfold Machine.execStarvationDetectorFire
  dsimp only
  split
  · exact .next kept
  · exact .next (.touchPart (.modDie (.foldl (fun _ kept => kept.withdraw.tileTrapOn) kept)))

theorem ExecKept.needTile {w : Word} : ExecKept (Machine.needTile w) := by
  unfold Machine.needTile
  refine ⟨fun {s₀ s} kept => ?_⟩
  split
  · split
    · exact kept
    · exact ExecKept.tileTrap.run kept
  · exact ExecKept.tileTrap.run kept

theorem ExecKept.needOwned {w : Word} {states : List TileSt} {role : optParam Nat 1} : ExecKept (Machine.needOwned w states role) := by
  unfold Machine.needOwned
  refine ⟨fun {s₀ s} kept => ?_⟩
  split
  · exact ExecKept.tileTrap.run kept
  · split
    · exact kept
    · exact ExecKept.tileTrap.run kept

theorem ExecKept.needMine {w : Word} : ExecKept (Machine.needMine w) := by
  unfold Machine.needMine
  refine .bind .needOwned fun _ => ?_
  refine ⟨fun {s₀ s} kept => ?_⟩
  split
  · exact kept
  · exact ExecKept.tileTrap.run kept

theorem ExecKept.needSealed {w : Word} {counts : Bool} : ExecKept (Machine.needSealed w counts) := by
  unfold Machine.needSealed
  refine .bind .needTile fun _ => ?_
  refine ⟨fun {s₀ s} kept => ?_⟩
  dsimp only
  split
  · split
    · exact ExecKept.stallWith.run kept
    · exact kept
  · exact ExecKept.tileTrap.run kept
  · exact ExecKept.tileTrap.run kept

theorem FormKept.consume {r : TileRef} (kept : FormKept s₀ s) : FormKept s₀ (Machine.consume s r) := by
  unfold Machine.consume
  dsimp only
  split
  · exact kept.freeTile
  · exact kept.modTile.touchPart

theorem FormKept.poolAcquire {r : TileRef} (kept : FormKept s₀ s) : FormKept s₀ (Machine.poolAcquire s r) := kept.acquire

theorem FormKept.takeTileTaint {r : TileRef} (kept : FormKept s₀ s) : FormKept s₀ (Machine.takeTileTaint s r) := kept.addTaint

theorem ExecKept.putTile {r : TileRef} {bs : List (Nat × Byte)} : ExecKept (Machine.putTile r bs) := .upd fun kept => kept.modTile

theorem ExecKept.needAligned {va : Word} {role : optParam Nat 1} : ExecKept (Machine.needAligned va role) := .ite .pure .tileTrap

theorem ExecKept.tilePlace {write : Bool} {va : Word} {n : Nat} : ExecKept (Machine.tilePlace write va n) :=
  .bind .wmCheck fun _ => .bind .whoX fun _ => .placeMine

theorem ExecKept.tileRead {ps : List Placed} : ExecKept (Machine.tileRead ps) := by
  unfold Machine.tileRead
  refine ⟨fun {s₀ s} kept => ?_⟩
  dsimp only
  split
  · exact kept.sealFail
  · exact kept.bringIn

theorem ExecKept.tileStore {va : Word} {ps : List Placed} {bs : List (Nat × Byte)} : ExecKept (Machine.tileStore va ps bs) := by
  unfold Machine.tileStore
  refine .bind .whoX fun _ => ?_
  refine ⟨fun {s₀ s} kept => ?_⟩
  dsimp only
  split
  · exact kept.sealFail
  · exact kept.storeCells

theorem FormKept.execThdrM {f : L64} (kept : FormKept s₀ s) : OutcomeKept s₀ (Machine.execThdrM f s) :=
  (ExecKept.bind .meX fun _ => .bind .needAligned fun _ => .bind .countOn fun _ => .bind .tilePlace fun _ => .bind .tileStore fun _ =>
    .retireX).finish kept

theorem FormKept.execTst {f : L64} (kept : FormKept s₀ s) : OutcomeKept s₀ (Machine.execTst f s) :=
  (ExecKept.bind .memStart fun _ => .bind .meX fun _ => .bind .needOwned fun _ => .bind .tileNeed fun _ => .bind .putTile fun _ =>
    .retireX).finish kept

theorem FormKept.execTseal {f : L64} (kept : FormKept s₀ s) : OutcomeKept s₀ (Machine.execTseal f s) :=
  (ExecKept.bind .meX fun _ => .bind .needOwned fun _ => .bind .rd fun _ => .bind .tileNeed fun _ => .bind .tileNeed fun _ =>
    .bind .putTile fun _ => .bind (.upd fun kept => kept.modTile) fun _ => .retireX).finish kept

theorem ExecKept.waitRes {r : TileRef} : ExecKept (Machine.waitRes r) := by
  unfold Machine.waitRes
  refine ⟨fun {s₀ s} kept => ?_⟩
  split
  · exact ExecKept.stallWith.run kept
  · exact kept

theorem FormKept.execTdrop {f : L64} (kept : FormKept s₀ s) : OutcomeKept s₀ (Machine.execTdrop f s) :=
  (ExecKept.bind .meX fun _ => .bind .needMine fun _ => .bind .waitRes fun _ => .bind (.upd fun kept => kept.freeTile) fun _ => .retireX).finish kept

theorem FormKept.execTskip {f : L64} (kept : FormKept s₀ s) : OutcomeKept s₀ (Machine.execTskip f s) :=
  (ExecKept.bind .meX fun _ => .bind .needTile fun _ => .bind .rd fun _ => .ite .retireX (.bind .needSealed fun _ =>
    .bind (.upd fun kept => kept.consume.poolAcquire) fun _ => .retireX)).finish kept

theorem FormKept.execTgive {f : L64} (kept : FormKept s₀ s) : OutcomeKept s₀ (Machine.execTgive f s) :=
  (ExecKept.bind .meX fun _ => .bind .needMine fun _ => .bind .rd fun _ => .ite (.bind .tileTrap fun _ => .bind .waitRes fun _ =>
    .bind (.upd fun kept => kept.modTile) fun _ => .retireX) (.bind .waitRes fun _ => .bind (.upd fun kept => kept.modTile) fun _ =>
      .retireX)).finish kept

theorem ExecKept.tldlNone {f : L64} {w : Word} : ExecKept (Machine.tldlNone f w) :=
  .ite (.bind .needTile fun _ => .bind .rd fun _ => .ite .retireX (.bind .needSealed fun _ =>
    .bind (.upd fun kept => kept.consume.poolAcquire) fun _ => .retireX)) .retireX

theorem ExecKept.tldlLanes {f : L64} {w : Word} {ls : List Nat} : ExecKept (Machine.tldlLanes f w ls) :=
  .bind .meX fun _ => .bind .countOn fun _ => .bind .needSealed fun _ => .bind .rd fun _ => .bind .tileNeed fun _ => .bind .tileNeed fun _ =>
    .bind (.upd fun kept => kept.takeTileTaint) fun _ => .bind .onMe fun _ =>
      .bind (.upd fun kept => .poolAcquire (.ite kept.consume kept)) fun _ => .retireX

theorem FormKept.execTldl {f : L64} (kept : FormKept s₀ s) : OutcomeKept s₀ (Machine.execTldl f s) := by
  unfold Machine.execTldl
  dsimp only
  split
  · exact ExecKept.tldlNone.finish kept
  · exact ExecKept.tldlLanes.finish kept

end Sys2Proof
end

section
/-!
SUPPORT. The form of memory and of the table of harts is kept by the matrix unit.
-/
namespace Sys2Proof
open Machine

variable {s₀ s t : State}

theorem ExecKept.needGrant {rs : List (Nat × Nat)} : ExecKept (Machine.needGrant rs) := by
  unfold Machine.needGrant
  refine ⟨fun {s₀ s} kept => ?_⟩
  split
  · exact ExecKept.tileTrap.run kept
  · exact kept

theorem ExecKept.unitTake {codes : List Nat} : ExecKept (Machine.unitTake codes) := by
  unfold Machine.unitTake
  refine ⟨fun {s₀ s} kept => ?_⟩
  split
  · exact ExecKept.stallWith.run kept
  · exact kept

theorem ExecKept.ex8Load {w : Word} {h : Hdr} {at_ : Nat → Byte} : ExecKept (Machine.ex8Load w h at_) := by
  unfold Machine.ex8Load
  refine .bind .meX fun _ => ?_
  split
  · exact .tileTrap
  · dsimp only
    refine .bind .tilePlace fun _ => .bind ?_ fun _ => ?_
    · refine ⟨fun {s₀ s} kept => ?_⟩
      split
      · exact ExecKept.tileTrap.run kept
      · exact kept
    · refine .bind .tileRead fun _ => ?_
      split
      · exact .tileTrap
      · exact .bind (.upd fun kept => kept.bump) fun _ => .pure

theorem ExecKept.acceptTile {code : Nat} {w : Word} {h : Hdr} {bytes : SMap Byte} {psn : Bool} : ExecKept (Machine.acceptTile code w h bytes psn) :=
  .ite (.bind .tileNeed fun _ => .bind (.ite (.bind .ex8Load fun _ => .pure) .pure) fun _ => .bind (.ite .tileTrap .pure) fun _ =>
    .upd fun kept => kept.modMyCore) (.bind .tileNeed fun _ => .bind (.ite .tileTrap .pure) fun _ => .upd fun kept => kept.modMyCore)

theorem ExecKept.loadFromPool {code : Nat} {w : Word} {cons : Bool} {r : TileRef} : ExecKept (Machine.loadFromPool code w cons r) :=
  .bind .rd fun _ => .bind .tileNeed fun _ => .bind .acceptTile fun _ => .bind (.upd fun kept => kept.takeTileTaint) fun _ =>
    .bind (.upd fun kept => .poolAcquire (.ite kept.consume kept)) fun _ => .retireX

theorem ExecKept.poolLoad {f : L64} {cons : Bool} : ExecKept (Machine.poolLoad f cons) := by
  unfold Machine.poolLoad
  dsimp only
  refine .bind .needGrant fun _ => .bind .unitTake fun _ => .bind .countOn fun _ => .bind .meX fun _ => ?_
  refine .bind .needSealed fun _ => .bind .rd fun _ => ?_
  split
  · refine .bind (.upd fun kept => kept.modTile) fun _ => ?_
    exact ⟨fun kept => ExecKept.stallWith.run kept⟩
  · exact .loadFromPool

theorem ExecKept.memLoad {f : L64} : ExecKept (Machine.memLoad f) :=
  .bind .needGrant fun _ => .bind .unitTake fun _ => .bind .countOn fun _ => .bind .meX fun _ => .bind .needAligned fun _ =>
    .bind .tilePlace fun _ => .bind .tileRead fun _ => .bind .tileNeed fun _ => .bind .tilePlace fun _ => .bind .tileNeed fun _ =>
      .bind .rd fun _ => .bind .tileRead fun _ => .bind .acceptTile fun _ => .retireX

theorem FormKept.endReservation {h : Nat} {r : Except State (Unit × State)} (kept : FormKept s₀ s) (e : Machine.endReservation s h = some r) :
    ResKept s₀ r := by
  unfold Machine.endReservation at e
  split at e
  · dsimp only at e
    split at e
    · cases e
    · cases e
      have kept1 := (kept.withdraw (h := h)).modHart (h := h) (f := fun x => { x with wait := .ready })
      exact (ExecKept.bind .needSealed fun _ => .loadFromPool).run (.same kept1)
  · cases e

theorem FormKept.execTileReservationCommit (kept : FormKept s₀ s) : OutcomeKept s₀ (Machine.execTileReservationCommit s) := by
  unfold Machine.execTileReservationCommit
  split
  · next heq => exact .next (.same (kept.endReservation heq))
  · exact .next kept

theorem FormKept.execTileReservationRelease (kept : FormKept s₀ s) : OutcomeKept s₀ (Machine.execTileReservationRelease s) := by
  unfold Machine.execTileReservationRelease
  split
  · next heq => exact .next (.same (kept.endReservation heq))
  · exact .next kept

theorem FormKept.execTmma {f : L64} (kept : FormKept s₀ s) : OutcomeKept s₀ (Machine.execTmma f s) :=
  (ExecKept.bind .needGrant fun _ => .bind .unitTake fun _ => .bind .rd fun _ => .bind .tileNeed fun _ =>
    .bind (.upd fun kept => kept.modMyCore) fun _ => .retireX).finish kept

theorem FormKept.execTmmaComplete (kept : FormKept s₀ s) : OutcomeKept s₀ (Machine.execTmmaComplete s) := by
  unfold Machine.execTmmaComplete
  dsimp only
  split
  · exact .next kept
  · exact .next kept.modCore.bump.bump.bump.bump

theorem FormKept.execTzero {f : L64} (kept : FormKept s₀ s) : OutcomeKept s₀ (Machine.execTzero f s) :=
  (ExecKept.bind .needGrant fun _ => .bind .unitTake fun _ => .bind (.upd fun kept => kept.modMyCore) fun _ => .retireX).finish kept

theorem FormKept.execTzeroM {f : L64} (kept : FormKept s₀ s) : OutcomeKept s₀ (Machine.execTzeroM f s) :=
  (ExecKept.bind .meX fun _ => .bind .orTrap fun _ => .ite .retireX (.bind .countOn fun _ => .bind .tilePlace fun _ =>
    .bind (.upd fun kept => kept.zeroTags) fun _ => .bind .tileStore fun _ => .retireX)).finish kept

theorem FormKept.execTaccLrd {f : L64} (kept : FormKept s₀ s) : OutcomeKept s₀ (Machine.execTaccLrd f s) :=
  (ExecKept.bind .memStart fun _ => .bind .needGrant fun _ => .bind .unitTake fun _ => .bind .meX fun _ => .bind .rd fun _ =>
    .bind .tileNeed fun _ => .bind .tileNeed fun _ => .bind .onMe fun _ => .retireX).finish kept

theorem FormKept.execTaccLwr {f : L64} (kept : FormKept s₀ s) : OutcomeKept s₀ (Machine.execTaccLwr f s) :=
  (ExecKept.bind .memStart fun _ => .bind .needGrant fun _ => .bind .unitTake fun _ => .bind .meX fun _ => .bind .rd fun _ =>
    .bind .tileNeed fun _ => .bind (.upd fun kept => kept.modMyCore) fun _ => .retireX).finish kept

theorem FormKept.bumpCvt {o : CvtOut} {nan7 : Nat} (kept : FormKept s₀ s) : FormKept s₀ (Machine.bumpCvt s o nan7) :=
  .bump (.foldl (fun _ kept => kept.bump) kept)

/-- A converting store, once its header is made. -/
theorem ExecKept.cvtStoreOut {f : L64} {mem : Bool} {src : CvtSrc} {o : Option Hdr} {h : Hart} : ExecKept (do
      match o with
      | none => (Machine.tileTrap { cause := 27, detail := 0x0E, role := 4 } 0 : Exec Unit)
      | some hd =>
        let w := h.getX f.a.toNat
        let out := convertTile hd src
        if mem then
          Machine.needAligned w 5
          Machine.countOn true
          let ps ← Machine.tilePlace true w (extentOf hd)
          Machine.tileStore w ps (cvtBytes hd out)
        else
          let r ← Machine.needOwned w [.opened] 5
          Machine.tileNeed (if extentOf hd > r.room then some { cause := 26, detail := 0x0D, step := 6, role := 5 } else none) w
          Machine.putTile r (cvtBytes hd out)
        Machine.upd fun s => Machine.bumpCvt s out src.nan7
        Machine.retireX) := by
  cases o with
  | none => exact .tileTrap
  | some hd =>
    have ends : ∀ {o n}, ExecKept (do
        Machine.upd fun s => Machine.bumpCvt s o n
        Machine.retireX) := .bind (.upd fun kept => kept.bumpCvt) fun _ => .retireX
    exact .ite (.bind .needAligned fun _ => .bind .countOn fun _ => .bind .tilePlace fun _ => .bind .tileStore fun _ => ends)
      (.bind .needOwned fun _ => .bind .tileNeed fun _ => .bind .putTile fun _ => ends)

theorem ExecKept.cvtStore {f : L64} {mem : Bool} : ExecKept (Machine.cvtStore f mem) := by
  unfold Machine.cvtStore
  exact .bind .needGrant fun _ => .bind .unitTake fun _ => .bind .meX fun _ => .bind .rd fun _ => .bind .tileNeed fun _ => ExecKept.cvtStoreOut

theorem FormKept.execTinfoT {f : L64} (kept : FormKept s₀ s) : OutcomeKept s₀ (Machine.execTinfoT f s) :=
  (ExecKept.bind .rd fun _ => .ite (.bind .onMe fun _ => .retireX) (.bind .unitTake fun _ => .bind .rd fun _ => .bind .onMe fun _ =>
    .retireX)).finish kept

theorem FormKept.quiz {c g fails : Nat} (kept : FormKept s₀ s) : FormKept s₀ (Machine.quiz s c g fails) := kept.modCore.bump.bump

theorem FormKept.execPopQuiz (kept : FormKept s₀ s) : OutcomeKept s₀ (Machine.execPopQuiz s) := by
  unfold Machine.execPopQuiz
  dsimp only
  split
  · exact .next kept
  · exact .next kept.quiz.modCore

theorem ExecKept.tquizOp {f : L64} {run clear : Bool} : ExecKept (Machine.tquizOp f run clear) := by
  unfold Machine.tquizOp
  extract_lets n g ends quizzes
  have ended : ∀ u, ExecKept (ends u) := fun _ => .bind .rd fun _ => .bind .onMe fun _ => .retireX
  have quizzed : ∀ u, ExecKept (quizzes u) := fun _ => .ite (.bind (.upd fun kept => kept.choose.quiz) ended) (ended ())
  refine .bind .meX fun _ => .bind .need fun _ => .bind .unitTake fun _ => .bind ⟨fun {s₀ s} kept => ?_⟩ fun _ => ?_
  · split
    · exact ExecKept.stallWith.run kept
    · exact kept
  · exact .ite (.bind (.upd fun kept => kept.modMyCore) quizzed) (quizzed ())

end Sys2Proof
end

section
/-!
SUPPORT. The form of memory and of the table of harts is kept by messages and channels.
-/
namespace Sys2Proof
open Machine

variable {s₀ s t : State}

theorem FormKept.acquireFrom {w : Nat} (kept : FormKept s₀ s) : FormKept s₀ (Machine.acquireFrom s w) := kept.acquire

theorem FormKept.execBbwr {d a : BitVec 5} (kept : FormKept s₀ s) : OutcomeKept s₀ (Machine.execBbwr d a s) := by
  unfold Machine.execBbwr
  dsimp only
  split
  · exact .next kept.takeTrap
  · exact .next kept.modCls.retire

theorem FormKept.execImv {d a : BitVec 5} (kept : FormKept s₀ s) : OutcomeKept s₀ (Machine.execImv d a s) := by
  unfold Machine.execImv
  refine ExecKept.finish (.bind .meX fun _ => ?_) kept
  dsimp only
  split
  · exact .stallWith
  · refine .bind .onMe fun _ => .bind (.upd fun kept => kept.addTaint) fun _ => .bind (.upd fun kept => ?_) fun _ => .retireX
    split
    · exact kept.acquireFrom
    · exact .ite kept.acquire kept

theorem FormKept.execIwr {d a b : BitVec 5} (kept : FormKept s₀ s) : OutcomeKept s₀ (Machine.execIwr d a b s) := by
  unfold Machine.execIwr
  refine ExecKept.finish ?_ kept
  refine .bind .meX fun _ => ?_
  dsimp only
  refine .bind .need fun _ => ?_
  refine ⟨fun {s₀ s} kept => ?_⟩
  split
  · exact kept.retire
  · split
    · exact ExecKept.stallWith.run kept.modHart
    · exact kept.modHart.retire

theorem FormKept.execIwrHeldWriteEntry (kept : FormKept s₀ s) : OutcomeKept s₀ (Machine.execIwrHeldWriteEntry s) := by
  unfold Machine.execIwrHeldWriteEntry
  dsimp only
  split
  · exact .next kept
  · split
    · exact .next kept
    · exact .next kept.modHart.modHart

theorem FormKept.dropHeld {t : Nat} (kept : FormKept s₀ s) : FormKept s₀ (Machine.dropHeld s t) := .foldl (fun _ kept => kept.modHart) kept.modHart

theorem FormKept.countSend {c t : Nat} {hdr : Word} (kept : FormKept s₀ s) : FormKept s₀ (Machine.countSend s c t hdr) := kept.modCore

theorem FormKept.countTaken {c : Nat} {m : Message} (kept : FormKept s₀ s) : FormKept s₀ (Machine.countTaken s c m) := by
  unfold Machine.countTaken
  split
  · exact kept.modCore
  · exact kept

theorem FormKept.countFlag {k : Option Nat} (kept : FormKept s₀ s) : FormKept s₀ (Machine.countFlag k s) := by
  unfold Machine.countFlag
  split
  · exact kept.modMe
  · exact kept

theorem FormKept.enterSend {hdr : Word} {orig first : Nat} {words : List Word} (kept : FormKept s₀ s) :
    FormKept s₀ (Machine.enterSend hdr orig first s words) := by
  unfold Machine.enterSend
  dsimp only
  split
  · exact kept.modCore.countSend
  · exact kept.modCore

theorem FormKept.enterSends {hdr : Word} {orig : Nat} {data : List (List Word)} (kept : FormKept s₀ s) :
    FormKept s₀ (Machine.enterSends s hdr orig data) := by
  unfold Machine.enterSends
  split
  · exact kept
  · exact .countFlag (.foldl (fun _ kept => kept.enterSend) kept)

theorem FormKept.useReserved {n : Nat} (kept : FormKept s₀ s) : FormKept s₀ (Machine.useReserved s n).1 := by
  unfold Machine.useReserved
  split
  · exact kept.modMe
  · exact kept

theorem ExecKept.sendRoom {n : Nat} : ExecKept (Machine.sendRoom n) := by
  unfold Machine.sendRoom
  refine ⟨fun {s₀ s} kept => ?_⟩
  dsimp only
  split
  · exact kept.useReserved
  · exact ExecKept.stallWith.run kept

theorem FormKept.execMsend {a : BitVec 5} (kept : FormKept s₀ s) : OutcomeKept s₀ (Machine.execMsend a s) :=
  (ExecKept.bind .meX fun _ => .bind .need fun _ => .bind .countOn fun _ => .bind .sendRoom fun _ =>
    .bind (.upd fun kept => kept.enterSends) fun _ => .retireX).finish kept

theorem FormKept.execMsendL {a b : BitVec 5} (kept : FormKept s₀ s) : OutcomeKept s₀ (Machine.execMsendL a b s) :=
  (ExecKept.bind .meX fun _ => .bind .need fun _ => .ite (.bind .sendRoom fun _ => .bind (.upd fun kept => kept.enterSends) fun _ =>
    .retireX) (.bind .countOn fun _ => .bind .sendRoom fun _ => .bind (.upd fun kept => kept.enterSends) fun _ => .retireX)).finish kept

theorem FormKept.sendDone {c : Nat} {e : SendEntry} (kept : FormKept s₀ s) : FormKept s₀ (Machine.sendDone s c e) := by
  unfold Machine.sendDone
  dsimp only
  split
  · split
    · exact kept.modCore
    · exact kept.modCore.modHart
  · exact kept.modCore

theorem FormKept.ringPlace {c : Nat} {ch : Channel} {slot : Nat} {a : Acc} (kept : FormKept s₀ s) :
    FormKept s₀ (Machine.ringPlace s c ch slot a).1 := by
  unfold Machine.ringPlace
  split
  · next heq => exact kept.translate.fst heq
  · next heq => exact kept.translate.fst heq

theorem FormKept.offer {c ch : Nat} {m : Message} (kept : FormKept s₀ s) : FormKept s₀ (Machine.offer s c ch m).1 := by
  unfold Machine.offer
  dsimp only
  split
  · exact kept.modCore
  · split
    · exact kept
    · split
      · exact kept.modCore
      · split
        · split
          · next heq => exact (kept.ringPlace.fst heq).modCore
          · next heq => exact kept.ringPlace.fst heq
          · next heq => exact (kept.ringPlace.fst heq).storeLine.breakResv.modCore.bump
        · exact kept

theorem FormKept.hold {c ch : Nat} {r : MsgRef} (kept : FormKept s₀ s) : FormKept s₀ (Machine.hold s c ch r) := kept.modCore

theorem FormKept.unhold {c ch : Nat} {r : MsgRef} (kept : FormKept s₀ s) : FormKept s₀ (Machine.unhold s c ch r) := kept.modCore

theorem FormKept.arrive {c ch : Nat} {r : MsgRef} {m : Message} (kept : FormKept s₀ s) : FormKept s₀ (Machine.arrive s c ch r m).1 := by
  unfold Machine.arrive
  dsimp only
  split
  · exact kept.hold
  · split
    · next heq => exact (kept.offer.fst heq).unhold
    · next heq => exact (kept.offer.fst heq).hold

theorem FormKept.execChannelRefill (kept : FormKept s₀ s) : OutcomeKept s₀ (Machine.execChannelRefill s) := by
  unfold Machine.execChannelRefill
  dsimp only
  split
  · exact .next kept
  · split
    · exact .next kept
    · split
      · next heq => exact .next (kept.modCore.ringPlace.fst heq).modCore
      · exact .next kept
      · next heq =>
          have kept1 := kept.modCore.ringPlace.fst heq
          split
          · next heq => exact .next (kept1.lineIn.fst heq).sealNote.modCore
          · next heq => split <;> exact .next (kept1.lineIn.fst heq).modCore

theorem FormKept.takeReserved {h c ch : Nat} (kept : FormKept s₀ s) : FormKept s₀ (Machine.takeReserved s h c ch).1 := by
  unfold Machine.takeReserved
  split
  · exact kept
  · exact kept.modCore

theorem FormKept.firingTake {h : Nat} {m : Message} (kept : FormKept s₀ s) : FormKept s₀ (Machine.firingTake s h m) := kept.modHart.coreAcquire

theorem FormKept.startFiring {c p ch h : Nat} (kept : FormKept s₀ s) : FormKept s₀ (Machine.startFiring s c p ch h) := by
  unfold Machine.startFiring
  dsimp only
  split
  · exact kept.modCore.modHart.takeReserved.firingTake.modHart
  · exact kept.modCore.modHart.takeReserved

theorem FormKept.execFiringStart (kept : FormKept s₀ s) : OutcomeKept s₀ (Machine.execFiringStart s) := by
  unfold Machine.execFiringStart
  dsimp only
  split
  · exact .next kept
  · split
    · exact .next kept
    · exact .next kept.startFiring

theorem FormKept.execMnext (kept : FormKept s₀ s) : OutcomeKept s₀ (Machine.execMnext s) := by
  unfold Machine.execMnext
  dsimp only
  split
  · split
    · next heq => exact .next (kept.takeReserved.fst heq).firingTake.retire
    · exact .next kept.modMe.retire
  · exact .next kept.modMe.retire

theorem FormKept.execQpush {a b : BitVec 5} (kept : FormKept s₀ s) : OutcomeKept s₀ (Machine.execQpush a b s) := by
  unfold Machine.execQpush
  split
  · exact kept.illegalNow
  · exact (ExecKept.bind .countOn fun _ => .bind .rd fun _ => .ite .stallWith (.bind (.upd fun kept => kept.modCore) fun _ => .retireX)).finish kept

theorem FormKept.execQpop {d a : BitVec 5} (kept : FormKept s₀ s) : OutcomeKept s₀ (Machine.execQpop d a s) := by
  unfold Machine.execQpop
  split
  · exact kept.illegalNow
  · dsimp only
    split
    · exact .next kept.modCore.modMe.addTaint.acquireFrom.retire
    · exact .next kept.modCore.modMe

theorem FormKept.scrubCore {c : Nat} (kept : FormKept s₀ s) : FormKept s₀ (Machine.scrubCore s c) := by
  unfold Machine.scrubCore
  exact .same kept

theorem FormKept.execKscrub (kept : FormKept s₀ s) : OutcomeKept s₀ (Machine.execKscrub s) := by
  unfold Machine.execKscrub
  split
  · exact kept.illegalNow
  · split
    · exact .next kept.modMe
    · exact .next (.retire (.ite kept.modMe.scrubCore kept.modMe))

end Sys2Proof
end

section
/-!
SUPPORT. The form of memory and of the table of harts is kept by copy requests and reductions.
-/
namespace Sys2Proof
open Machine

variable {s₀ s t : State}

theorem FormKept.modReq {c i : Nat} {f : CopyReq → CopyReq} (kept : FormKept s₀ s) : FormKept s₀ (Machine.modReq s c i f) := kept.modCore

theorem FormKept.dropReq {c i : Nat} (kept : FormKept s₀ s) : FormKept s₀ (Machine.dropReq s c i) := kept.modCore

theorem FormKept.enterReq {i : Nat} {r : CopyReq} (kept : FormKept s₀ s) : FormKept s₀ (Machine.enterReq s i r) := by
  unfold Machine.enterReq
  dsimp only
  split
  · exact kept.modCore.modMe.countSend
  · exact kept.modCore.modMe

theorem ExecKept.submit {a : BitVec 5} {cprd : Bool} {nb : Option Nat} : ExecKept (Machine.submit a cprd nb) := by
  unfold Machine.submit
  refine ⟨fun {s₀ s} kept => ?_⟩
  dsimp only
  split
  · split
    · exact ExecKept.illegal.run kept
    · split
      · split
        · exact ExecKept.stallWith.run kept
        · refine show FormKept _ _ from (.retire ?_)
          split
          · exact kept.enterReq.modMe
          · exact kept.enterReq
      · exact kept.modMe.retire
      · exact ExecKept.stallWith.run kept
  · split
    · exact ExecKept.illegal.run kept
    · split
      · split
        · exact ExecKept.stallWith.run kept
        · refine show FormKept _ _ from (.retire ?_)
          split
          · exact kept.enterReq.modMe
          · exact kept.enterReq
      · exact kept.modMe.retire
      · exact ExecKept.stallWith.run kept

theorem FormKept.execCpwm {d a b : BitVec 5} (kept : FormKept s₀ s) : OutcomeKept s₀ (Machine.execCpwm d a b s) := by
  unfold Machine.execCpwm
  dsimp only
  split
  · exact kept.illegalNow
  · exact .next kept.modMyCore.retire

theorem FormKept.wmAdvance {c : Nat} {r : CopyReq} {endVa : Word} (kept : FormKept s₀ s) : FormKept s₀ (Machine.wmAdvance s c r endVa) := by
  unfold Machine.wmAdvance
  split
  · exact kept
  · exact kept.modCore

theorem FormKept.dropSource {r : CopyReq} {count : Bool} (kept : FormKept s₀ s) : FormKept s₀ (Machine.dropSource s r count) := by
  unfold Machine.dropSource
  split
  · exact kept
  · split
    · exact kept
    · dsimp only
      split
      · exact kept.modTile.consume
      · exact kept.modTile

theorem FormKept.poisonTile {r : TileRef} (kept : FormKept s₀ s) : FormKept s₀ (Machine.poisonTile s r) := kept.modTile

theorem FormKept.endReq {c i code detail off : Nat} (kept : FormKept s₀ s) : FormKept s₀ (Machine.endReq s c i code detail off) := by
  unfold Machine.endReq
  split
  · exact kept
  · extract_lets s₁ s₂
    have kept1 : FormKept s₀ s₂ := by
      unfold s₂
      split
      · split
        · exact kept.dropSource.poisonTile
        · exact kept.dropSource
      · exact kept.dropSource
    exact kept1.modReq

theorem FormKept.parkReq {c i : Nat} {r : CopyReq} {f : VFault} {access : Nat} {va : Word} (kept : FormKept s₀ s) :
    FormKept s₀ (Machine.parkReq s c i r f access va) := by
  unfold Machine.parkReq
  split
  · exact kept.fatalFault.endReq
  · split
    · exact kept
    · exact kept.postReport.modReq

theorem FormKept.sealEnd {c i off : Nat} {va : Word} (kept : FormKept s₀ s) : FormKept s₀ (Machine.sealEnd s c i off va) := kept.endReq.modReq

theorem FormKept.sealReq {c i : Nat} {r : CopyReq} {pa key : Nat} {va : Word} (kept : FormKept s₀ s) :
    FormKept s₀ (Machine.sealReq s c i r pa key va) :=
  kept.bookAppend.sealEnd

theorem FormKept.issuerTaint {r : CopyReq} {t : BitVec 16} (kept : FormKept s₀ s) : FormKept s₀ (Machine.issuerTaint s r t) := by
  unfold Machine.issuerTaint
  split
  · split
    · exact kept.addTaint
    · exact kept
  · split
    · split
      · exact kept.modCls
      · exact kept
    · split
      · exact kept.bindTaint
      · exact kept

theorem FormKept.reserveSource {r : CopyReq} {n : Nat} (kept : FormKept s₀ s) (e : Machine.reserveSource s r = some (.ok (t, n))) :
    FormKept s₀ t := by
  unfold Machine.reserveSource at e
  split at e
  · cases e
  · dsimp only at e
    split at e
    · cases e
    · split at e
      · cases e
      · split at e
        · cases e
        · split at e
          · cases e
          · cases e
            exact kept.coreAcquire.modTile.issuerTaint
      · cases e

theorem FormKept.startReq {c i : Nat} {r : CopyReq} (kept : FormKept s₀ s) : FormKept s₀ (Machine.startReq s c i r) := by
  unfold Machine.startReq
  split
  · exact kept.modReq
  extract_lets u src
  have kept1 : FormKept s₀ u := .ite kept.coreAcquire kept
  have source : ∀ t n, src = some (.ok (t, n)) → FormKept s₀ t := by
    intro t n e
    unfold src at e
    split at e
    · exact kept1.reserveSource e
    · cases e
      exact kept1
  generalize src = o at source
  split
  · exact kept1.modReq
  · split
    · exact kept1.modReq
    · exact .ite kept1.endReq kept1.modReq.endReq
  · exact kept1.endReq
  · next t n =>
    extract_lets q bad v x
    have kept2 : FormKept s₀ x := .ite (source t n rfl).modReq.modCore (source t n rfl).modReq
    split
    · exact kept2.endReq
    · split
      · split
        · exact kept2.endReq
        · exact .ite kept2.endReq kept2
      · exact kept2

theorem FormKept.execCopyRequestStart (kept : FormKept s₀ s) : OutcomeKept s₀ (Machine.execCopyRequestStart s) := by
  unfold Machine.execCopyRequestStart
  extract_lets c rs s₁
  have kept1 : FormKept s₀ s₁ := .foldl (fun _ kept => .ite kept.modReq kept) kept
  split
  · exact .next kept1.startReq
  · split
    · exact .next kept1
    · split
      · exact .next kept1
      · split
        · exact .next kept1
        · exact .next (.ite kept1.modReq kept1.startReq)

theorem FormKept.execCopyTileAllocation (kept : FormKept s₀ s) : OutcomeKept s₀ (Machine.execCopyTileAllocation s) := by
  unfold Machine.execCopyTileAllocation
  dsimp only
  split
  · exact .next kept
  · split
    · exact .next kept
    · split
      · exact .next kept.endReq
      · split
        · exact .next kept.takeSlot.modReq
        · exact .next kept.modCluster

theorem FormKept.copyPlace {c : Nat} {r : CopyReq} {a : Acc} {va : Word} {n : Nat} (kept : FormKept s₀ s) :
    FormKept s₀ (Machine.copyPlace s c r a va n).1 := by
  unfold Machine.copyPlace
  dsimp only
  split
  · next heq => exact kept.placeAll.fst heq
  · next heq =>
      have kept1 := kept.placeAll.fst heq
      split
      · exact kept1.placeAll
      · exact kept1

theorem FormKept.readGlobal {c : Nat} {r : CopyReq} {va : Word} {n : Nat} (kept : FormKept s₀ s) : FormKept s₀ (Machine.readGlobal s c r va n).1 := by
  unfold Machine.readGlobal
  split
  · next heq => exact kept.copyPlace.fst heq
  · next heq =>
      have kept1 := kept.copyPlace.fst heq
      split
      · exact kept1
      · dsimp only
        split
        · exact kept1
        · exact kept1.bringIn

theorem FormKept.readPiece {c : Nat} {r : CopyReq} {n : Nat} (kept : FormKept s₀ s) : FormKept s₀ (Machine.readPiece s c r n).1 := by
  unfold Machine.readPiece
  dsimp only
  split
  · exact kept
  · exact kept
  · split
    · split <;> exact kept
    · split
      · exact kept
      · exact kept.readGlobal

theorem FormKept.copyStore {c : Nat} {r : CopyReq} {ps : List Placed} {bs : List Byte} (kept : FormKept s₀ s) :
    FormKept s₀ (Machine.copyStore s c r ps bs) :=
  kept.storeCells

theorem FormKept.poisonDest {c : Nat} {r : CopyReq} {ps : List Placed} {from_ n : Nat} (kept : FormKept s₀ s) :
    FormKept s₀ (Machine.poisonDest s c r ps from_ n) :=
  .foldl (fun _ kept => kept.markPoison.l1Drop) kept

theorem FormKept.writePiece {c i : Nat} {r : CopyReq} {n : Nat} {d : PieceData} (kept : FormKept s₀ s) :
    FormKept s₀ (Machine.writePiece s c i r n d) := by
  unfold Machine.writePiece
  extract_lets good k bad span va onward
  have went : ∀ {u}, FormKept s₀ u → FormKept s₀ (onward u) := by
    intro u kept
    have kept1 : ∀ {f a}, FormKept s₀ (Machine.wmAdvance (Machine.modReq u c i f) c r a) := kept.modReq.wmAdvance
    exact .ite kept1.endReq (.ite kept1.endReq kept1)
  clear_value onward
  split
  · exact went kept.modReq
  split
  · exact went (.ite kept kept.modCls)
  split
  · split
    · exact kept.endReq
    · exact .ite (.endReq (.ite kept.freeTile kept)) (went kept.modTile)
  split
  · next heq => exact (kept.copyPlace.fst heq).parkReq
  next heq =>
  have kept1 := kept.copyPlace.fst heq
  split
  · exact kept1
  split
  · exact kept1.sealReq
  · exact went (.ite (.poisonDest (.copyStore (.ite kept1.zeroTags kept1))) (.copyStore (.ite kept1.zeroTags kept1)))

theorem FormKept.widen {c i : Nat} {r : CopyReq} (kept : FormKept s₀ s) : FormKept s₀ (Machine.widen s c i r).1 := by
  unfold Machine.widen
  split
  · split
    · exact kept
    · exact kept.modReq.coreAcquire
  · exact kept

theorem FormKept.movePiece {c i : Nat} {r : CopyReq} (kept : FormKept s₀ s) : FormKept s₀ (Machine.movePiece s c i r) := by
  unfold Machine.movePiece
  dsimp only
  split
  · exact kept.widen.endReq
  · split
    · next heq => exact (kept.widen.readPiece.fst heq).parkReq
    · next heq => exact (kept.widen.readPiece.fst heq).sealReq
    · next heq => exact kept.widen.readPiece.fst heq
    · next heq => exact (kept.widen.readPiece.fst heq).writePiece

theorem FormKept.execCopyPieceCopy (kept : FormKept s₀ s) : OutcomeKept s₀ (Machine.execCopyPieceCopy s) := by
  unfold Machine.execCopyPieceCopy
  refine .next ?_
  split
  · exact kept.movePiece
  · exact kept

theorem FormKept.execCopyPieceFill (kept : FormKept s₀ s) : OutcomeKept s₀ (Machine.execCopyPieceFill s) := by
  unfold Machine.execCopyPieceFill
  refine .next ?_
  split
  · exact kept.movePiece
  · exact kept

theorem FormKept.execCopyPieceZero (kept : FormKept s₀ s) : OutcomeKept s₀ (Machine.execCopyPieceZero s) := by
  unfold Machine.execCopyPieceZero
  refine .next ?_
  split
  · exact kept.movePiece
  · exact kept

theorem FormKept.execCopyPieceGather (kept : FormKept s₀ s) : OutcomeKept s₀ (Machine.execCopyPieceGather s) := by
  unfold Machine.execCopyPieceGather
  refine .next ?_
  split
  · exact kept
  · dsimp only
    split
    · exact kept.endReq
    · split
      · next heq => exact (kept.readGlobal.fst heq).parkReq
      · next heq => exact (kept.readGlobal.fst heq).sealReq
      · next heq => exact kept.readGlobal.fst heq
      · next heq =>
          have kept1 := kept.readGlobal.fst heq
          split
          · exact kept1.writePiece
          · split
            · exact kept1.endReq
            · split
              · next heq => exact (kept1.readGlobal.fst heq).parkReq
              · next heq => exact (kept1.readGlobal.fst heq).sealReq
              · next heq => exact kept1.readGlobal.fst heq
              · next heq => exact (kept1.readGlobal.fst heq).writePiece

theorem FormKept.notePerformed {ps : List ContribSrc} (kept : FormKept s₀ s) : FormKept s₀ (Machine.notePerformed s ps) :=
  .foldl (fun _ kept => .foldl (fun _ kept => .ite kept.wmAdvance kept) kept.l1Drop) kept

theorem FormKept.failPart {p : ContribSrc} (kept : FormKept s₀ s) : FormKept s₀ (Machine.failPart s p) := by
  unfold Machine.failPart
  split
  · split
    · exact kept
    · exact kept.sealEnd.modReq
  · exact kept

theorem FormKept.applyContrib {x : Contrib} (kept : FormKept s₀ s) : FormKept s₀ (Machine.applyContrib s x) := by
  unfold Machine.applyContrib
  extract_lets s₁
  have kept1 : FormKept s₀ s₁ := .ite (.breakResv (.foldl (fun _ kept => kept.writeMem) kept)) (.foldl (fun _ kept => kept.failPart) kept.bookAppend)
  exact kept1.notePerformed

theorem FormKept.forwardContrib {d : Nat} {x : Contrib} (kept : FormKept s₀ s) : FormKept s₀ (Machine.forwardContrib s d x) := by
  unfold Machine.forwardContrib
  dsimp only
  split
  · exact kept.applyContrib
  · exact kept.modDie

theorem FormKept.execCopyPieceReduce (kept : FormKept s₀ s) : OutcomeKept s₀ (Machine.execCopyPieceReduce s) := by
  unfold Machine.execCopyPieceReduce
  refine .next ?_
  split
  · exact kept
  · dsimp only
    split
    · exact kept.endReq
    · split
      · next heq => exact (kept.readPiece.fst heq).parkReq
      · next heq => exact (kept.readPiece.fst heq).sealReq
      · next heq => exact kept.readPiece.fst heq
      · next heq =>
          have kept1 := kept.readPiece.fst heq
          split
          · next heq => exact (kept1.copyPlace.fst heq).parkReq
          · next heq =>
              have kept2 := kept1.copyPlace.fst heq
              split
              · exact kept2
              · split
                · exact kept2.endReq
                · split
                  · exact kept2.modDie.modReq.poisonDest.endReq
                  · split
                    · exact kept2.modDie.modReq.endReq
                    · exact kept2.modDie.modReq

theorem FormKept.execReduceContributionArrival (kept : FormKept s₀ s) : OutcomeKept s₀ (Machine.execReduceContributionArrival s) := by
  unfold Machine.execReduceContributionArrival
  dsimp only
  split
  · exact .next kept
  · split
    · exact .next kept
    · split
      · exact .next kept.modDie.forwardContrib
      · split
        · exact .next kept.modDie.modDie.forwardContrib
        · exact .next kept.modDie.modDie

theorem FormKept.execCombiningEntryTimeout (kept : FormKept s₀ s) : OutcomeKept s₀ (Machine.execCombiningEntryTimeout s) := by
  unfold Machine.execCombiningEntryTimeout
  dsimp only
  split
  · exact .next kept
  · split
    · exact .next kept
    · exact .next kept.modDie.forwardContrib

theorem FormKept.finishReq {c i : Nat} {r : CopyReq} (kept : FormKept s₀ s) : FormKept s₀ (Machine.finishReq s c i r) := by
  unfold Machine.finishReq
  dsimp only
  split
  · exact kept.dropReq.modHart
  · exact kept.dropReq

theorem FormKept.offerReq {c i : Nat} {r : CopyReq} (kept : FormKept s₀ s) : FormKept s₀ (Machine.offerReq s c i r) := by
  unfold Machine.offerReq
  split
  · next heq => exact (kept.arrive.fst heq).finishReq
  · next heq => exact (kept.arrive.fst heq).modReq

theorem FormKept.noteEnd {c i : Nat} {r : CopyReq} (kept : FormKept s₀ s) : FormKept s₀ (Machine.noteEnd s c i r) := by
  unfold Machine.noteEnd
  extract_lets s₁
  have kept1 : FormKept s₀ s₁ := .ite kept.modCore kept
  split
  · exact kept1
  · exact kept1.modHart

theorem FormKept.deliverReq {c i : Nat} {r : CopyReq} (kept : FormKept s₀ s) : FormKept s₀ (Machine.deliverReq s c i r) := by
  unfold Machine.deliverReq
  dsimp only
  split
  · exact kept
  · exact .deliver (.modReq (.ite (kept.moves (coreRelease_moves ..)) kept))

theorem FormKept.sealNew {c i : Nat} {r : CopyReq} (kept : FormKept s₀ s) : FormKept s₀ (Machine.sealNew s c i r) := by
  unfold Machine.sealNew
  split
  · exact kept.modReq
  · dsimp only
    split
    · exact kept.freeTile.modReq
    · exact kept.modTile.modReq

theorem FormKept.signalReq {c i : Nat} {r : CopyReq} (kept : FormKept s₀ s) : FormKept s₀ (Machine.signalReq s c i r) := by
  unfold Machine.signalReq
  extract_lets s₁ s₂ s₃
  have kept1 : FormKept s₀ s₂ := .ite (kept.deliverReq.noteEnd.moves (coreRelease_moves ..)) kept.deliverReq.noteEnd
  have kept2 : FormKept s₀ s₃ := .ite kept1.coreAcquire kept1
  split
  · exact kept2.offerReq
  · exact kept2.finishReq

theorem FormKept.completeReq {c i : Nat} {r : CopyReq} (kept : FormKept s₀ s) : FormKept s₀ (Machine.completeReq s c i r) := by
  unfold Machine.completeReq
  split
  · exact kept.signalReq
  · extract_lets s₁
    have kept1 : FormKept s₀ s₁ := .ite kept.sealNew kept
    split
    · exact kept1
    · split
      · exact kept1.signalReq
      · split
        · next heq => exact (kept1.copyPlace.fst heq).parkReq
        · next heq =>
            have kept2 := kept1.copyPlace.fst heq
            split
            · exact kept2
            · split
              · exact kept2.sealReq
              · exact kept2.copyStore.signalReq

theorem FormKept.execCopyCompletion (kept : FormKept s₀ s) : OutcomeKept s₀ (Machine.execCopyCompletion s) := by
  unfold Machine.execCopyCompletion
  dsimp only
  refine .next ?_
  split
  · split
    · exact kept.completeReq
    · exact kept
  · exact kept

theorem FormKept.execCprdPerform (kept : FormKept s₀ s) : OutcomeKept s₀ (Machine.execCprdPerform s) := by
  unfold Machine.execCprdPerform
  dsimp only
  refine .next ?_
  split
  · split
    · exact kept
    · split
      · exact kept.movePiece
      · split
        · exact kept.signalReq
        · exact kept
  · exact kept

theorem FormKept.execStageBarrierDelivery (kept : FormKept s₀ s) : OutcomeKept s₀ (Machine.execStageBarrierDelivery s) := by
  unfold Machine.execStageBarrierDelivery
  dsimp only
  refine .next ?_
  split
  · split
    · exact kept.deliverReq
    · exact kept
  · exact kept

end Sys2Proof
end

section
/-!
SUPPORT. The form of memory and of the table of harts is kept by saved contexts.
-/
namespace Sys2Proof
open Machine

variable {s₀ s t : State}

theorem FormKept.withdrawReq {c i : Nat} {r : CopyReq} (kept : FormKept s₀ s) : FormKept s₀ (Machine.withdrawReq s c i r) := by
  unfold Machine.withdrawReq
  extract_lets s₁ s₂ s₃
  have kept1 : FormKept s₀ s₃ := .ite (.same kept.deliverReq.dropSource) kept.deliverReq.dropSource.modCluster
  exact kept1.finishReq

theorem FormKept.execKctxSv {a : BitVec 5} (kept : FormKept s₀ s) : OutcomeKept s₀ (Machine.execKctxSv a s) := by
  unfold Machine.execKctxSv
  refine ExecKept.finish ?_ kept
  extract_lets va
  refine .bind .need fun _ => ?_
  split
  · exact .stallWith
  · refine .bind .wmCheck fun _ => .bind .whoX fun _ => .bind .placeMine fun _ => .rd_bind fun kept => ?_
    refine ExecKept.upd_bind (.storeCells (.foldl (fun _ kept => kept.withdrawReq) kept)) ?_
    exact .bind .onMe fun _ => .retireX

theorem FormKept.reenter {r : CopyReq} (kept : FormKept s₀ s) : FormKept s₀ (Machine.reenter s r) := by
  unfold Machine.reenter
  split
  · exact kept
  · exact kept.modMyCore.modMe

theorem FormKept.execKctxLd {a : BitVec 5} (kept : FormKept s₀ s) : OutcomeKept s₀ (Machine.execKctxLd a s) := by
  unfold Machine.execKctxLd
  refine ExecKept.finish ?_ kept
  extract_lets va
  refine .bind .need fun _ => ?_
  split
  · exact .stallWith
  · refine .bind .wmCheck fun _ => .bind .whoX fun _ => .bind .placeMine fun _ => .rd_bind fun {s₀ s} kept => ?_
    rename_i w ps
    dsimp only [id]
    rcases heq : Machine.readPieces w true ps s with ⟨u, e | r⟩
    · exact ExecKept.upd_bind (kept.readPieces.fst heq) .failRead
    · refine ExecKept.upd_bind (kept.readPieces.fst heq) ?_
      refine .bind .need fun _ => .bind .need fun _ => .ite .stallWith ?_
      exact .bind .onMe fun _ => .bind (.upd fun kept => .foldl (fun _ kept => kept.reenter) (.same kept)) fun _ => .retireX

end Sys2Proof
end

section
/-!
SUPPORT. The form of memory and of the table of harts is kept by hall passes.
-/
namespace Sys2Proof
open Machine

variable {s₀ s t : State}

theorem FormKept.endArm {i : Nat} (kept : FormKept s₀ s) : FormKept s₀ (Machine.endArm s i) := by
  refine .foldl (fun x kept => ?_) kept
  split
  · exact .ite kept.modHart kept
  · exact kept

theorem FormKept.disarm {i : Nat} (kept : FormKept s₀ s) : FormKept s₀ (Machine.disarm s i) := kept.modHp.endArm

theorem ExecKept.hpassResult {d i : Nat} : ExecKept (Machine.hpassResult d i) := ⟨fun kept => .retire (.ite kept.modMe.acquire kept.modMe)⟩

theorem ExecKept.hpassOp {d a : BitVec 5} : ExecKept (Machine.hpassOp d a) := by
  unfold Machine.hpassOp
  refine ⟨fun {s₀ s} kept => ?_⟩
  dsimp only
  split
  · exact ExecKept.illegal.run kept
  · split
    · exact kept.modMe.retire
    · split
      · split
        · exact ExecKept.stallWith.run kept
        · split
          · exact ExecKept.stallWith.run kept.modHp
          · exact ExecKept.hpassResult.run kept
      · exact ExecKept.hpassResult.run (.ite kept.modHp kept)
      · exact ExecKept.hpassResult.run kept
      · split
        · exact ExecKept.hpassResult.run kept
        · exact ExecKept.stallWith.run kept
      · exact ExecKept.hpassResult.run kept.disarm

theorem FormKept.execHpassArmAck (kept : FormKept s₀ s) : OutcomeKept s₀ (Machine.execHpassArmAck s) := by
  unfold Machine.execHpassArmAck
  dsimp only
  split
  · exact .next kept
  · exact .next (.ite kept.modCore.modHp kept.modCore.modHp.modHp.endArm)

theorem FormKept.execHpassTokenHop (kept : FormKept s₀ s) : OutcomeKept s₀ (Machine.execHpassTokenHop s) := by
  unfold Machine.execHpassTokenHop
  dsimp only
  split
  · exact .next kept
  · split
    · exact .next kept.modCore.modHp
    · split
      · exact .next (.ite kept.modHp.raiseIntr kept.modHp)
      · exact .next kept.modCore.modHp

end Sys2Proof
end

section
/-!
SUPPORT. The form of memory and of the table of harts is kept by replies and fault notices.
-/
namespace Sys2Proof
open Machine

variable {s₀ s t : State}

theorem FormKept.execFaultBufferDelivery (kept : FormKept s₀ s) : OutcomeKept s₀ (Machine.execFaultBufferDelivery s) := by
  unfold Machine.execFaultBufferDelivery
  dsimp only
  split
  · exact .next kept
  · split
    · exact .next kept
    · exact .next kept.modDie.modHart

theorem FormKept.execHeldReportPost (kept : FormKept s₀ s) : OutcomeKept s₀ (Machine.execHeldReportPost s) := by
  unfold Machine.execHeldReportPost
  dsimp only
  split
  · exact .next kept
  · split
    · exact .next kept
    · split
      · exact .next kept
      · exact .next kept.modCore.modDie

theorem FormKept.replyRetry {c id : Nat} (kept : FormKept s₀ s) : FormKept s₀ (Machine.replyRetry s c id) := by
  unfold Machine.replyRetry
  split
  · exact kept.coreAcquire.modHart
  · split
    · exact kept.coreAcquire.modReq
    · split
      · exact kept.coreAcquire.modBar
      · exact kept

theorem FormKept.replyFatal {c id detail : Nat} (kept : FormKept s₀ s) : FormKept s₀ (Machine.replyFatal s c id detail) := by
  unfold Machine.replyFatal
  split
  · exact kept.fatalFault
  · split
    · exact kept.endReq
    · split
      · exact kept.failRoll
      · exact kept

theorem FormKept.takeNotice {c from_ : Nat} {e : SendEntry} (kept : FormKept s₀ s) : FormKept s₀ (Machine.takeNotice s c from_ e) := by
  unfold Machine.takeNotice
  dsimp only
  split
  · exact kept.sendDone
  · split
    · exact kept.unhold.modDie.sendDone
    · exact kept.hold

theorem FormKept.consume63 {from_ : Nat} {e : SendEntry} (kept : FormKept s₀ s) : FormKept s₀ (Machine.consume63 s from_ e) := by
  unfold Machine.consume63
  dsimp only
  split
  · exact kept.replyRetry.sendDone
  · exact kept.replyFatal.sendDone
  · exact kept.takeNotice
  · exact kept.sendDone

theorem FormKept.arrive63 {kind : Nat} (kept : FormKept s₀ s) : FormKept s₀ (Machine.arrive63 kind s) := by
  unfold Machine.arrive63
  split
  · split
    · exact kept.consume63
    · exact kept
  · exact kept

theorem FormKept.deliverSend {from_ : Nat} {e : SendEntry} (kept : FormKept s₀ s) : FormKept s₀ (Machine.deliverSend s from_ e) := by
  unfold Machine.deliverSend
  dsimp only
  split
  · next heq => exact (kept.arrive.fst heq).sendDone
  · next heq => exact kept.arrive.fst heq

theorem FormKept.execMessageArrival (kept : FormKept s₀ s) : OutcomeKept s₀ (Machine.execMessageArrival s) := by
  unfold Machine.execMessageArrival
  refine .next ?_
  split
  · exact kept
  · split
    · exact kept.consume63
    · exact kept.deliverSend

theorem FormKept.execHeldMessageReoffer (kept : FormKept s₀ s) : OutcomeKept s₀ (Machine.execHeldMessageReoffer s) := by
  unfold Machine.execHeldMessageReoffer
  dsimp only
  refine .next ?_
  split
  · exact kept
  · split
    · exact kept.unhold
    · split
      · exact kept.takeNotice
      · exact kept.deliverSend
  · split
    · exact kept.unhold
    · exact kept.offerReq

end Sys2Proof
end

section
/-!
SUPPORT. The form of memory and of the table of harts is kept by slabs.
-/
namespace Sys2Proof
open Machine

variable {s₀ s t : State}

theorem FormKept.kslabWrite {k : Nat} {v : Word} (kept : FormKept s₀ s) : WriteKept s₀ (Machine.kslabWrite s k v) := by
  unfold Machine.kslabWrite
  dsimp only
  split
  · split
    · exact fun kept => kept
    · exact kept.modCluster
  · split
    · exact fun kept => kept
    · exact kept.modCluster

theorem FormKept.returnSlabs {k : Nat} (kept : FormKept s₀ s) : FormKept s₀ (Machine.returnSlabs s k) := kept.modCluster

theorem FormKept.drainWay {k slab : Nat} (kept : FormKept s₀ s) : FormKept s₀ (Machine.drainWay s k slab) := by
  unfold Machine.drainWay
  split
  · exact (kept.moves (kFlush_moves ..))
  · exact kept

theorem FormKept.execSlabDrainComplete (kept : FormKept s₀ s) : OutcomeKept s₀ (Machine.execSlabDrainComplete s) := by
  unfold Machine.execSlabDrainComplete
  extract_lets k s₁
  have kept1 : FormKept s₀ s₁ := .returnSlabs (.ite kept.drainWay kept)
  exact .next (.ite kept1.modCluster kept1)

theorem FormKept.refusePart {k p : Nat} (kept : FormKept s₀ s) : FormKept s₀ (Machine.refusePart s k p) := kept.modCluster

theorem FormKept.kpartWrite {k p : Nat} {v : Word} (kept : FormKept s₀ s) : FormKept s₀ (Machine.kpartWrite s k p v) := by
  unfold Machine.kpartWrite
  dsimp only
  split
  · exact kept.refusePart
  · exact kept.modCluster

theorem FormKept.unpinIn {k : Nat} (kept : FormKept s₀ s) : FormKept s₀ (Machine.unpinIn s k) := kept.modCluster

theorem FormKept.pinHeld {k : Nat} {l : Launch} {va : Word} (kept : FormKept s₀ s) : FormKept s₀ (Machine.pinHeld s k l va) := kept.modCluster

theorem FormKept.repin {k id : Nat} (kept : FormKept s₀ s) : FormKept s₀ (Machine.repin s k id) := by
  unfold Machine.repin
  dsimp only
  split
  · split
    · exact .foldl (fun _ kept => kept.pinHeld) kept.unpinIn
    · exact kept.unpinIn
  · exact kept.unpinIn

theorem FormKept.kpownWrite {k p o : Nat} {v : Word} (kept : FormKept s₀ s) : FormKept s₀ (Machine.kpownWrite s k p o v) := by
  unfold Machine.kpownWrite
  dsimp only
  split
  · exact kept.refusePart
  · exact kept.modCluster.repin

theorem FormKept.kpoolevRead {d : Nat} (kept : FormKept s₀ s) : FormKept s₀ (Machine.kpoolevRead s d).2 := by
  unfold Machine.kpoolevRead
  split
  · exact kept
  · exact kept.modDie

end Sys2Proof
end

section
/-!
SUPPORT. The form of memory and of the table of harts is kept by launches.
-/
namespace Sys2Proof
open Machine

variable {s₀ s t : State}

theorem FormKept.unitRead {w : Who} {va : Word} {n : Nat} (kept : FormKept s₀ s) : FormKept s₀ (Machine.unitRead s w va n).1 := by
  unfold Machine.unitRead
  split
  · next heq => exact kept.placeAll.fst heq
  · next heq =>
      have kept1 := kept.placeAll.fst heq
      split
      · exact kept1.sealNote
      · split <;> exact kept1

theorem FormKept.unitWrite {w : Who} {va : Word} {bs : List Byte} (kept : FormKept s₀ s) : FormKept s₀ (Machine.unitWrite s w va bs).1 := by
  unfold Machine.unitWrite
  split
  · next heq => exact kept.placeAll.fst heq
  · next heq =>
      have kept1 := kept.placeAll.fst heq
      split
      · next heq => exact kept1.placeAll.fst heq
      · next heq =>
          have kept2 := kept1.placeAll.fst heq
          dsimp only
          split
          · exact kept2.sealNote
          · exact kept2.writeCells.breakResv

theorem FormKept.ttRead {fn : Nat} {kdom : BitVec 36} {va : Word} {n : Nat} (kept : FormKept s₀ s) : FormKept s₀ (Machine.ttRead s fn kdom va n).1 :=
  kept.unitRead

theorem FormKept.ttWrite {fn : Nat} {kdom : BitVec 36} {va : Word} {bs : List Byte} (kept : FormKept s₀ s) :
    FormKept s₀ (Machine.ttWrite s fn kdom va bs).1 :=
  kept.unitWrite

theorem ExecKept.demand {b : Bool} : ExecKept (Machine.demand b) := by
  unfold Machine.demand
  refine ⟨fun {s₀ s} kept => ?_⟩
  split <;> exact kept

theorem ExecKept.demandRead {fn : Nat} {kdom : BitVec 36} {va : Word} {n : Nat} : ExecKept (Machine.demandRead fn kdom va n) := by
  unfold Machine.demandRead
  refine ⟨fun {s₀ s} kept => ?_⟩
  split
  · exact kept
  · split
    · next heq => exact kept.ttRead.fst heq
    · next heq => exact kept.ttRead.fst heq

theorem ExecKept.mapM {α β : Type} {f : α → Exec β} (hf : ∀ a, ExecKept (f a)) (l : List α) : ExecKept (l.mapM f) := by
  induction l with
  | nil =>
    rw [List.mapM_nil]
    exact .pure
  | cons a l ih =>
    rw [List.mapM_cons]
    exact .bind (hf a) fun _ => .bind ih fun _ => .pure

theorem ExecKept.kcbCheck {l : Launch} : ExecKept (Machine.kcbCheck l) := by
  unfold Machine.kcbCheck
  extract_lets rdm
  have read : ∀ {a n}, ExecKept (rdm a n) := .demandRead
  clear_value rdm
  refine .bind read fun k => .bind .demand fun _ => .bind .demand fun _ => .bind .demand fun _ => ?_
  extract_lets firsts n firstsRead
  suffices firstsKept : ∀ u, ExecKept (firstsRead u) from .ite (.bind read fun _ => firstsKept ()) (firstsKept ())
  refine fun _ => .bind (.mapM (fun _ => read) _) fun _ => .bind read fun _ => .bind read fun _ => .bind .demand fun _ => ?_
  extract_lets l' _ at_ bodiesRead headRead
  have bodiesKept : ∀ m, ExecKept (bodiesRead m) := by
    refine fun m => .bind read fun _ => .bind .demand fun _ => .bind .demand fun _ => .bind .demand fun _ => ?_
    refine .bind .demand fun _ => .bind .demand fun _ => .ite ?_ .pure
    exact .bind read fun _ => .bind .rd fun _ => .bind .demand fun _ => .bind .demand fun _ => .pure
  have headKept : ∀ u, ExecKept (headRead u) := fun _ => .ite (.bind read bodiesKept) (.bind .pure bodiesKept)
  exact .ite (.bind read fun _ => headKept ()) (headKept ())

theorem FormKept.orphanOps {h : Nat} (kept : FormKept s₀ s) : FormKept s₀ (Machine.orphanOps s h) := kept.modCore

theorem FormKept.unbindHart {h : Nat} (kept : FormKept s₀ s) : FormKept s₀ (Machine.unbindHart s h) := kept.abandon.dropHeld.orphanOps.modHart

theorem FormKept.endFiring {h : Nat} {f : Firing} (kept : FormKept s₀ s) : FormKept s₀ (Machine.endFiring s h f) :=
  .unbindHart (.foldl (fun _ kept => kept.countTaken) kept.modCore)

theorem FormKept.drainMx {c n : Nat} (kept : FormKept s₀ s) : FormKept s₀ (Machine.drainMx c n s) := by
  induction n generalizing s with
  | zero => exact kept
  | succ n ih =>
    unfold Machine.drainMx
    split
    · exact kept
    · exact ih kept.modCore.bump.bump.bump.bump

theorem FormKept.releaseClass {key : Nat} (kept : FormKept s₀ s) : FormKept s₀ (Machine.releaseClass s key) := by
  unfold Machine.releaseClass
  extract_lets k s₁ s₂ s₃
  have kept1 : FormKept s₀ s₁ := .ite kept.drainMx kept
  have kept2 : FormKept s₀ s₂ := .foldl (fun _ kept => kept.unbindHart) kept1
  exact .same kept2

theorem FormKept.noteCohort {launch coh : Nat} (kept : FormKept s₀ s) : FormKept s₀ (Machine.noteCohort s launch coh) := by
  unfold Machine.noteCohort
  split
  · exact kept.modLaunch
  · exact kept

theorem FormKept.saveCohort {launch coh : Nat} (kept : FormKept s₀ s) : FormKept s₀ (Machine.saveCohort s launch coh) := by
  unfold Machine.saveCohort
  split
  · exact kept
  · extract_lets v s₁
    have kept1 : FormKept s₀ s₁ := .foldl (fun _ kept => kept.releaseClass) kept
    exact .same kept1

theorem FormKept.retireHart {h key : Nat} (kept : FormKept s₀ s) : FormKept s₀ (Machine.retireHart s h key) :=
  .saveCohort (.ite kept.dropHeld.orphanOps.modHart.releaseClass.noteCohort kept.dropHeld.orphanOps.modHart)

theorem FormKept.execHdone (kept : FormKept s₀ s) : OutcomeKept s₀ (Machine.execHdone s) := by
  unfold Machine.execHdone
  refine .outsideClause kept ?_
  dsimp only
  split
  · exact .next kept.modMe.modMe
  · exact .next kept.modMe.endFiring
  · exact .next kept.modMe.retireHart

theorem FormKept.reclaim {id : Nat} (kept : FormKept s₀ s) : FormKept s₀ (Machine.reclaim s id) := by
  unfold Machine.reclaim
  extract_lets s₁
  have kept1 : FormKept s₀ s₁ := .foldl (fun _ kept => kept.freeTile) kept
  exact .same kept1

theorem FormKept.unpin (kept : FormKept s₀ s) : FormKept s₀ (Machine.unpin s) := .foldl (fun _ kept => kept.unpinIn) kept

theorem FormKept.installEntry {l : Launch} {c : Nat} {e : HEntry} (kept : FormKept s₀ s) : FormKept s₀ (Machine.installEntry s l c e) := kept.modCore

theorem FormKept.installWaiting (kept : FormKept s₀ s) : FormKept s₀ (Machine.installWaiting s) :=
  .foldl (fun _ kept => .foldl (fun _ kept => .foldl (fun _ kept => .ite kept.installEntry kept) kept) kept) kept

theorem FormKept.finishLaunch {id status : Nat} (kept : FormKept s₀ s) : FormKept s₀ (Machine.finishLaunch s id status) := by
  unfold Machine.finishLaunch
  split
  · exact kept
  · extract_lets evs strict status' _ s₁ s₂ s₃ s4
    have kept1 : FormKept s₀ s₂ := .foldl (fun _ kept => kept.disarm) (.same kept.reclaim)
    have kept2 : FormKept s₀ s4 := .foldl (fun _ kept => kept.moves (peerBack_moves ..)) (.same kept1)
    split
    next heq =>
      have kept3 := kept2.ttWrite.fst heq
      extract_lets t u v
      have kept4 : FormKept s₀ u := by
        refine FormKept.same (t := t) ?_
        unfold t
        split
        · exact kept3.modQueue
        · exact kept3
      have kept5 : FormKept s₀ v := .ite kept4.modFunc kept4
      exact kept5.unpin.installWaiting

theorem FormKept.execLaunchCompletion (kept : FormKept s₀ s) : OutcomeKept s₀ (Machine.execLaunchCompletion s) := by
  unfold Machine.execLaunchCompletion
  dsimp only
  refine .next ?_
  split
  · exact kept
  · split
    · exact kept.finishLaunch
    · exact kept

theorem FormKept.addLaunch {fn : Nat} {ws : List Word} {q : Option Nat} (kept : FormKept s₀ s) : FormKept s₀ (Machine.addLaunch s fn ws q).1 := by
  unfold Machine.addLaunch
  exact .same kept

theorem FormKept.submitRecord {fn : Nat} {ws : List Word} (kept : FormKept s₀ s) : FormKept s₀ (Machine.submitRecord s fn ws).1 := by
  unfold Machine.submitRecord
  dsimp only
  split
  · exact kept.addLaunch.modQueue
  · exact kept.addLaunch.finishLaunch

theorem FormKept.execLaunch {d a : BitVec 5} (kept : FormKept s₀ s) : OutcomeKept s₀ (Machine.execLaunch d a s) := by
  unfold Machine.execLaunch
  refine ExecKept.finish ?_ kept
  extract_lets va
  refine .bind .need fun _ => .ite (.bind .onMe fun _ => .retireX) ?_
  refine .bind .whoX fun w => .bind .placeMine fun ps => .rd_bind fun {s₀ s} kept => ?_
  rcases tagBroken (id s) w ps with _ | ⟨g, pa, key⟩
  · refine ResKept.bind (ExecKept.orTrap.run kept) fun _ kept1 => ?_
    have submitted := kept.bringIn (w := w) (ps := ps) |>.submitRecord (fn := s.me.fn) (ws := wordsOf (seenPieces s w ps))
    exact ResKept.ite (ResKept.bind (ExecKept.stallWith.run kept1) fun _ _ => ExecKept.upd_bind submitted (.bind .onMe fun _ => .retireX))
      (ExecKept.upd_bind submitted (.bind .onMe fun _ => .retireX))
  · exact kept.sealFail

end Sys2Proof
end

section
/-!
SUPPORT. The form of memory and of the table of harts is kept by binding of cohorts.
-/
namespace Sys2Proof
open Machine

variable {s₀ s t : State}

theorem FormKept.takeOldest {q : Nat} (kept : FormKept s₀ s) : FormKept s₀ (Machine.takeOldest s q).1 := by
  unfold Machine.takeOldest
  dsimp only
  split
  · exact kept.modQueue
  · split
    · next heq => exact (kept.ttRead.fst heq).modQueue
    · next heq => exact (kept.ttRead.fst heq).addLaunch.modQueue

theorem FormKept.checkLaunch {id p : Nat} (kept : FormKept s₀ s) : FormKept s₀ (Machine.checkLaunch s id p) := by
  unfold Machine.checkLaunch
  split
  · exact kept
  · split
    · exact kept.finishLaunch
    · split
      · next heq => exact (ResKept.error (ExecKept.kcbCheck.run kept) heq).finishLaunch
      · next heq =>
        have kept1 := ResKept.ok (ExecKept.kcbCheck.run kept) heq
        exact .ite (.finishLaunch (.same kept1)) (.same kept1)

theorem FormKept.execLaunchSelection (kept : FormKept s₀ s) : OutcomeKept s₀ (Machine.execLaunchSelection s) := by
  unfold Machine.execLaunchSelection
  refine .next ?_
  split
  · exact kept
  · split
    · exact kept
    · next p q _ =>
      have kept1 : FormKept s₀ { s with lastQ := s.lastQ.set 63 p q } := .same kept
      split
      · next heq => exact kept1.takeOldest.fst heq
      · next heq => exact (kept1.takeOldest.fst heq).checkLaunch

theorem FormKept.fillOwners {k : Nat} {l : Launch} {ds : List PoolDemand} (kept : FormKept s₀ s) : OptKept s₀ (Machine.fillOwners k l ds s) := by
  induction ds generalizing s with
  | nil => exact .some kept
  | cons d ds ih =>
    unfold Machine.fillOwners
    split
    · exact .none
    · exact ih kept
    · exact ih kept.modCluster

theorem FormKept.fillHandlers {l : Launch} {c : Nat} {es : List HEntry} (kept : FormKept s₀ s) : OptKept s₀ (Machine.fillHandlers s l c es) := by
  unfold Machine.fillHandlers
  split
  · exact .some (.foldl (fun _ kept => kept.installEntry) kept)
  · exact .none

theorem FormKept.pushFirst {c h : Nat} {l : Launch} {o : Word} (kept : FormKept s₀ s) : FormKept s₀ (Machine.pushFirst s c h l o) := by
  unfold Machine.pushFirst
  extract_lets va w had
  split
  · next heq => exact kept.translate.fst heq
  · next heq =>
      have kept1 := kept.translate.fst heq
      extract_lets s₁
      have kept2 : FormKept s₀ s₁ := .ite kept1 kept1.modCluster
      split
      · next heq => exact kept2.icLine.fst heq
      · next heq => exact (kept2.icLine.fst heq).sealNote

theorem FormKept.stagePage {k : Nat} {l : Launch} {va : Word} (kept : FormKept s₀ s) : FormKept s₀ (Machine.stagePage s k l va) := by
  unfold Machine.stagePage
  split
  · exact kept.pinHeld
  · split
    · next heq => exact (kept.moves (unitWalk_moves ..)).fst heq
    · next heq => exact ((kept.moves (unitWalk_moves ..)).fst heq).setPteBit.tlbLoad

theorem FormKept.dropPages {c : Nat} {l : Launch} (kept : FormKept s₀ s) : FormKept s₀ (Machine.dropPages s c l) := kept.modCore

theorem FormKept.bindClass {l : Launch} {r : Rect} {coh : Nat} {v : Option SavedCohort} {c : Nat} (kept : FormKept s₀ s) :
    OptKept s₀ (Machine.bindClass l r coh v c s) := by
  unfold Machine.bindClass
  extract_lets core k
  split
  · exact .none
  split
  · exact .none
  next heq =>
  have kept1 := kept.fillOwners _ heq
  split
  · exact .none
  next t heq =>
  have kept2 : FormKept s₀ t := by
    split at heq
    · cases heq
      exact kept1
    · exact kept1.fillHandlers _ heq
  extract_lets u hs key x u1 u2 u3 u4 u5 u6
  have kept3 : FormKept s₀ u := .ite kept2 kept2.modLaunch
  have kept4 : FormKept s₀ u1 := .same kept3
  have kept5 : FormKept s₀ u4 := .foldl (fun _ kept => kept.pushFirst) (FormKept.dropPages (.ite kept4.modCore kept4))
  have kept6 : FormKept s₀ u5 := .ite kept5 (.foldl (fun _ kept => kept.stagePage) kept5)
  have kept7 : FormKept s₀ u6 := .foldl (fun _ kept => kept.modHart) kept6
  exact .some kept7.l1Clear

theorem FormKept.bindClasses {l : Launch} {r : Rect} {coh : Nat} {v : Option SavedCohort} {cs : List Nat} (kept : FormKept s₀ s) :
    OptKept s₀ (Machine.bindClasses l r coh v cs s) := by
  induction cs generalizing s with
  | nil => exact .some kept
  | cons c cs ih =>
    unfold Machine.bindClasses
    exact .bind kept.bindClass fun kept => ih kept

theorem FormKept.fillPlaced {l : Launch} {cs : List Nat} (kept : FormKept s₀ s) : OptKept s₀ (Machine.fillPlaced l cs s) := by
  induction cs generalizing s with
  | nil => exact .some kept
  | cons c cs ih =>
    unfold Machine.fillPlaced
    exact .bind kept.fillHandlers fun kept => ih kept

theorem FormKept.placeCohort {l : Launch} (kept : FormKept s₀ s) : OptKept s₀ (Machine.placeCohort s l) := by
  unfold Machine.placeCohort
  split
  · exact .none
  · next coh v _ =>
    intro t h
    obtain ⟨r, _, h⟩ := List.exists_of_findSome?_eq_some h
    obtain ⟨u, hu, rfl⟩ := Option.map_eq_some_iff.mp h
    have start : OptKept s₀ (if coh = 0 ∧ v.isNone then Machine.fillPlaced l (List.range 512) s else some s) := by
      split
      · exact kept.fillPlaced
      · exact .some kept
    have bound := start.bind (fun kept => kept.bindClasses) u hu
    split
    · exact .same bound
    · exact bound.modLaunch

theorem FormKept.execCohortBinding (kept : FormKept s₀ s) : OutcomeKept s₀ (Machine.execCohortBinding s) := by
  refine .next (.ite kept ?_)
  cases h : (bindOrder s).findSome? (Machine.placeCohort s) with
  | none => exact kept
  | some t =>
    obtain ⟨l, _, hl⟩ := List.exists_of_findSome?_eq_some h
    exact kept.placeCohort t hl

end Sys2Proof
end

section
/-!
SUPPORT. The form of memory and of the table of harts is kept by cohort save and restore.
-/
namespace Sys2Proof
open Machine

variable {s₀ s t : State}

theorem FormKept.ksibctlWrite {h : Nat} {v : Word} (kept : FormKept s₀ s) : FormKept s₀ (Machine.ksibctlWrite s h v) := by
  unfold Machine.ksibctlWrite
  split
  · exact kept
  · split
    · split
      · exact kept.modHart
      · exact kept
    · split
      · exact kept.modHart
      · exact kept
    · exact kept

theorem FormKept.ksibdataWrite {h : Nat} {v : Word} (kept : FormKept s₀ s) : FormKept s₀ (Machine.ksibdataWrite s h v) := by
  unfold Machine.ksibdataWrite
  split
  · exact kept
  · dsimp only
    split
    · exact kept.modHart.setFflags
    · exact kept.modHart

theorem FormKept.kpreWrite {h : Nat} {v : Word} (kept : FormKept s₀ s) : FormKept s₀ (Machine.kpreWrite s h v) := by
  unfold Machine.kpreWrite
  split
  · exact kept
  · dsimp only
    split
    · split
      · exact kept.modHart.modHart.modCls.saveCohort
      · exact kept.modHart
    · exact kept.modHart

theorem FormKept.execPreemptionRequest (kept : FormKept s₀ s) : OutcomeKept s₀ (Machine.execPreemptionRequest s) := by
  unfold Machine.execPreemptionRequest
  refine .next ?_
  split
  · exact kept
  · split
    · exact kept
    · exact .foldl (fun _ kept => kept.modHart) kept

theorem FormKept.loadArea {key : Nat} {bs : List Byte} (kept : FormKept s₀ s) : OptKept s₀ (Machine.loadArea s key bs) := by
  unfold Machine.loadArea
  dsimp only
  split
  · exact .none
  · exact .some kept.modCls.modCore

theorem FormKept.startRest {key h : Nat} (kept : FormKept s₀ s) : FormKept s₀ (Machine.startRest s key h) := by
  unfold Machine.startRest
  dsimp only
  split
  · exact kept
  · exact .foldl (fun _ kept => kept.modHart) kept.modCls

theorem FormKept.saveArea {h key : Nat} (kept : FormKept s₀ s) : FormKept s₀ (Machine.saveArea s h key).1 := by
  unfold Machine.saveArea
  dsimp only
  split
  · next heq => exact kept.drainMx.placeAll.fst heq
  · next heq =>
      have kept1 := kept.drainMx.placeAll.fst heq
      split
      · exact kept1
      · split
        · next heq => exact kept1.placeAll.fst heq
        · next heq => exact (kept1.placeAll.fst heq).modCls.storeCells

theorem FormKept.restoreArea {h key : Nat} (kept : FormKept s₀ s) : FormKept s₀ (Machine.restoreArea s h key).1 := by
  unfold Machine.restoreArea
  dsimp only
  split
  · next heq => exact kept.placeAll.fst heq
  · next heq =>
      have kept1 := kept.placeAll.fst heq
      split
      · exact kept1
      · split
        · exact kept1.sealNote
        · split
          · exact kept1
          · next heq => exact kept1.bringIn.loadArea _ heq

theorem FormKept.kcsaveWrite {h : Nat} {v : Word} (kept : FormKept s₀ s) : FormKept s₀ (Machine.kcsaveWrite s h v) := by
  unfold Machine.kcsaveWrite
  dsimp only
  split
  · exact kept.modHart
  · split
    · split
      · split
        · exact kept.modHart
        · exact kept.restoreArea.startRest.modHart
      · split
        · exact kept.modHart
        · exact kept.saveArea.modHart
    · exact kept.modHart

theorem FormKept.discardReq {c i : Nat} {r : CopyReq} (kept : FormKept s₀ s) : FormKept s₀ (Machine.discardReq s c i r) :=
  kept.dropSource.modCluster.dropReq

theorem FormKept.discardReqs {p : CopyReq → Bool} (kept : FormKept s₀ s) : FormKept s₀ (Machine.discardReqs s p) :=
  .foldl (fun _ kept => .foldl (fun _ kept => .ite kept.discardReq kept) kept) kept

theorem FormKept.cutFiring {h : Nat} (kept : FormKept s₀ s) : FormKept s₀ (Machine.cutFiring s h) := by
  unfold Machine.cutFiring
  split
  · exact kept.modCore.unbindHart
  · exact kept

theorem FormKept.killLaunch {id code : Nat} (kept : FormKept s₀ s) : FormKept s₀ (Machine.killLaunch s id code) := by
  unfold Machine.killLaunch
  extract_lets s₁ s₂ s₃ s₄ s₅
  have kept1 : FormKept s₀ s₂ := .same kept
  have kept2 : FormKept s₀ s₃ := .foldl (fun _ kept => kept.cutFiring) kept1
  have kept3 : FormKept s₀ s₄ := .foldl (fun _ kept => kept.releaseClass) kept2
  exact .same kept3.discardReqs

theorem FormKept.stopChannels {id : Nat} (kept : FormKept s₀ s) : FormKept s₀ (Machine.stopChannels s id) := by
  unfold Machine.stopChannels
  exact .same kept

theorem FormKept.ktkillWrite {fn : Nat} {v : Word} (kept : FormKept s₀ s) : WriteKept s₀ (Machine.ktkillWrite s fn v) := by
  unfold Machine.ktkillWrite
  split
  · exact fun kept => kept
  · dsimp only
    split
    · exact kept.modFunc
    · split
      · exact kept.modFunc
      · exact .ite kept.modFunc kept.modFunc.modFunc.stopChannels.killLaunch

end Sys2Proof
end

section
/-!
SUPPORT. The form of memory and of the table of harts is kept by invalidation, bias flips and page walks.
-/
namespace Sys2Proof
open Machine

variable {s₀ s t : State}

theorem FormKept.krootWrite {fn : Nat} {v : Word} (kept : FormKept s₀ s) : FormKept s₀ (Machine.krootWrite s fn v) := by
  unfold Machine.krootWrite
  exact .same kept

theorem FormKept.ktinvWrite {fn : Nat} {v : Word} (kept : FormKept s₀ s) : WriteKept s₀ (Machine.ktinvWrite s fn v) := by
  unfold Machine.ktinvWrite
  split
  · exact fun kept => kept
  · exact kept.modFunc

theorem FormKept.dropEntries {p : PageEntry → Bool} (kept : FormKept s₀ s) : FormKept s₀ (Machine.dropEntries s p) := by
  unfold Machine.dropEntries
  exact .same kept

theorem FormKept.dropLines {p : CLine → Bool} (kept : FormKept s₀ s) : FormKept s₀ (Machine.dropLines s p) := by
  unfold Machine.dropLines
  exact .same kept

theorem FormKept.flushLines {p : CLine → Bool} {q : KLine → Bool} {r : L2Line → Bool} (kept : FormKept s₀ s) :
    FormKept s₀ (Machine.flushLines s p q r) :=
  ((kept.moves (kFlushAll_moves ..)).moves (l2Flush_moves ..)).dropLines

theorem FormKept.invalidate {fn : Nat} {v : Word} (kept : FormKept s₀ s) : FormKept s₀ (Machine.invalidate s fn v) := by
  unfold Machine.invalidate
  extract_lets s₁ __src
  have kept1 : FormKept s₀ s₁ := .ite kept.flushLines kept
  exact .same kept1

theorem FormKept.kbiasWrite {fn who : Nat} {v : Word} (kept : FormKept s₀ s) : WriteKept s₀ (Machine.kbiasWrite s fn who v) := by
  unfold Machine.kbiasWrite
  dsimp only
  split
  · exact kept
  · split
    · exact fun kept => kept.modFunc
    · split
      · exact kept.modFunc
      · split
        · exact kept.modFunc
        · split <;> exact kept.modFunc

theorem FormKept.endFlip {fn : Nat} (kept : FormKept s₀ s) : FormKept s₀ (Machine.endFlip s fn) := by
  unfold Machine.endFlip
  dsimp only
  split
  · exact kept
  · exact .modFunc (.same (FormKept.ite kept kept.flushLines))

theorem FormKept.execBiasGo (kept : FormKept s₀ s) : OutcomeKept s₀ (Machine.execBiasGo s) := by
  unfold Machine.execBiasGo
  split
  · exact .next kept
  · split
    · next heq => exact .next (kept.kbiasWrite.ok heq)
    · next heq => exact .next (.same ((kept.kbiasWrite.wait heq) kept))

theorem FormKept.kflushWrite {c : Nat} {v : Word} (kept : FormKept s₀ s) : WriteKept s₀ (Machine.kflushWrite s c v) := by
  unfold Machine.kflushWrite
  split
  · exact kept
  · split
    · exact fun kept => kept
    · exact kept.modCore

theorem FormKept.flushCore {c : Nat} (kept : FormKept s₀ s) : FormKept s₀ (Machine.flushCore s c) := (kept.moves (scalFlush_moves ..)).modCore

theorem FormKept.execLineFill (kept : FormKept s₀ s) : OutcomeKept s₀ (Machine.execLineFill s) := by
  unfold Machine.execLineFill
  dsimp only
  split
  · exact .next kept
  · refine .next ?_
    split
    · exact kept
    · split
      · next heq => exact kept.lineIn.fst heq
      · next heq => exact (kept.lineIn.fst heq).sealNote

theorem FormKept.poisonPlace {p : ErrPlace} (kept : FormKept s₀ s) : FormKept s₀ (Machine.poisonPlace s p) := by
  unfold Machine.poisonPlace
  split
  · exact kept.modLine
  · split
    · exact (kept.moves (setDir_moves ..))
    · exact kept
  · exact kept.modCls
  · split
    · split
      · exact kept
      · exact kept.poisonTile
    · exact kept
  · exact kept.modCore
  · split
    · exact kept.modCore
    · exact kept
  · exact kept.modCore
  · exact kept.modCore
  · exact (kept.moves (modKlines_moves ..))
  · exact (kept.moves (modKlines_moves ..))

end Sys2Proof
end

section
/-!
SUPPORT. The form of memory and of the table of harts is kept by keys, enclaves, regions and the book.
-/
namespace Sys2Proof
open Machine

variable {s₀ s t : State}

theorem FormKept.toHost {die pa : Nat} {bs : List Byte} (kept : FormKept s₀ s) : FormKept s₀ (Machine.toHost s die pa bs) := by
  unfold Machine.toHost
  exact .same kept

theorem FormKept.putPending {r : BookReq} (kept : FormKept s₀ s) : FormKept s₀ (Machine.putPending s r) := by
  unfold Machine.putPending
  dsimp only
  split
  · exact kept.bookPut.toHost
  · exact kept.bookPut

theorem FormKept.drainBook {n : Nat} (kept : FormKept s₀ s) : FormKept s₀ (Machine.drainBook n s) := by
  induction n generalizing s with
  | zero => exact kept
  | succ n ih =>
    unfold Machine.drainBook
    split
    · exact kept
    · split
      · exact kept
      · exact ih (.putPending (.same kept))

theorem FormKept.bookackTo {v : Word} (kept : FormKept s₀ s) : FormKept s₀ (Machine.bookackTo s v) := by
  unfold Machine.bookackTo
  split
  · exact kept
  · exact .drainBook (.same kept)

theorem FormKept.booksignTo {v : Word} (kept : FormKept s₀ s) : FormKept s₀ (Machine.booksignTo s v) := by
  unfold Machine.booksignTo
  split
  · exact .same kept
  · exact kept

theorem FormKept.execSignedHead (kept : FormKept s₀ s) : OutcomeKept s₀ (Machine.execSignedHead s) := by
  unfold Machine.execSignedHead
  split
  · exact .next kept
  · dsimp only
    generalize (if s.book.due then _ else _ : Book) = b
    have kept1 : FormKept s₀ { s with book := b } := .same kept
    have kept2 := kept1.bookPut (hd := 0xF0) (args := signatureArgs s)
    generalize Machine.bookPut { s with book := b } 0xF0 (signatureArgs s) = u at kept2 ⊢
    exact .next (.same kept2)

theorem FormKept.eraseKey {k : Nat} (kept : FormKept s₀ s) : FormKept s₀ (Machine.eraseKey s k) :=
  have flushed := kept.moves (kFlushAll_moves s fun y => y.fn == (s.key k).fn && y.key == k && k != 0)
  .same flushed

theorem FormKept.loadKey {k fn eid : Nat} {km : BitVec 384} (kept : FormKept s₀ s) : FormKept s₀ (Machine.loadKey s k fn eid km) := by
  unfold Machine.loadKey
  exact .same kept

theorem FormKept.keyOp {core op k fn eid : Nat} {dat : Word} (kept : FormKept s₀ s) : FormKept s₀ (Machine.keyOp s core op k fn eid dat).1 := by
  unfold Machine.keyOp
  dsimp only
  split
  · exact kept
  · split
    · split
      · split
        · exact kept.bookAppend
        · split
          · exact kept.bookAppend.eraseKey
          · exact .same kept.bookAppend
          · exact kept.bookAppend.loadKey
          · exact kept.bookAppend
      · split
        · exact kept.bookAppend
        · split
          · exact kept.bookAppend.eraseKey
          · exact .same kept.bookAppend
          · exact kept.bookAppend.loadKey
          · exact kept.bookAppend
    · split
      · split
        · exact kept.bookAppend
        · split
          · exact kept.bookAppend.eraseKey
          · exact .same kept.bookAppend
          · exact kept.bookAppend.loadKey
          · exact kept.bookAppend
      · split
        · exact kept.bookAppend
        · split
          · exact kept.bookAppend.eraseKey
          · exact .same kept.bookAppend
          · exact kept.bookAppend.loadKey
          · exact kept.bookAppend
    · split
      · split
        · exact kept.bookAppend
        · split
          · exact kept.bookAppend.eraseKey
          · exact .same kept.bookAppend
          · exact kept.bookAppend.loadKey
          · exact kept.bookAppend
      · split
        · split
          · exact kept.bookAppend
          · split
            · exact kept.bookAppend.eraseKey
            · exact .same kept.bookAppend
            · exact kept.bookAppend.loadKey
            · exact kept.bookAppend
        · split
          · exact kept.bookAppend
          · split
            · exact kept.bookAppend.eraseKey
            · exact .same kept.bookAppend
            · exact kept.bookAppend.loadKey
            · exact kept.bookAppend

theorem FormKept.kkctlWrite {h : Nat} {v : Word} (kept : FormKept s₀ s) : FormKept s₀ (Machine.kkctlWrite s h v) := by
  unfold Machine.kkctlWrite
  dsimp only
  split
  · exact kept.modHart
  · split
    · exact kept.modHart
    · split
      · exact kept.modHart
      · exact kept.keyOp.modHart

theorem FormKept.setRegion {g : Nat} {r : Region} (kept : FormKept s₀ s) : FormKept s₀ (Machine.setRegion s g r) := by
  unfold Machine.setRegion
  exact .same kept

theorem FormKept.refillDue (kept : FormKept s₀ s) : FormKept s₀ (Machine.refillDue s) := by
  unfold Machine.refillDue
  dsimp only
  split
  · exact kept
  · exact .same kept

theorem FormKept.regionWrite {h : Nat} {f : Region → Region} (kept : FormKept s₀ s) : FormKept s₀ (Machine.regionWrite s h f) := by
  unfold Machine.regionWrite
  dsimp only
  split
  · exact kept.refillDue
  · split
    · exact kept.refillDue.setRegion
    · split
      · exact kept.refillDue
      · exact kept.refillDue.keepTaint.bookAppend.setRegion

theorem FormKept.khmctlWrite {h : Nat} {v : Word} (kept : FormKept s₀ s) : FormKept s₀ (Machine.khmctlWrite s h v) := kept.regionWrite

theorem FormKept.khmdomWrite {h : Nat} {v : Word} (kept : FormKept s₀ s) : FormKept s₀ (Machine.khmdomWrite s h v) := by
  unfold Machine.khmdomWrite
  exact kept.regionWrite

theorem FormKept.khmrateWrite {h : Nat} {v : Word} (kept : FormKept s₀ s) : FormKept s₀ (Machine.khmrateWrite s h v) := by
  unfold Machine.khmrateWrite
  exact kept.regionWrite

theorem FormKept.stallBucket {e : Egress} {g : Nat} (kept : FormKept s₀ s) : FormKept s₀ (Machine.stallBucket s e g) := by
  unfold Machine.stallBucket
  dsimp only
  split
  · exact kept
  · exact kept.bookAppend.setRegion

theorem FormKept.execEgressTransaction (kept : FormKept s₀ s) : OutcomeKept s₀ (Machine.execEgressTransaction s) := by
  unfold Machine.execEgressTransaction
  dsimp only
  split
  · exact .next kept.refillDue
  · split
    · exact .next kept.refillDue
    · split
      · exact .next (.same (FormKept.foldl (fun _ kept => kept.setRegion) kept.refillDue))
      · exact .next (.foldl (fun _ kept => kept.stallBucket) kept.refillDue)

theorem FormKept.setMf {frame : Nat} {e : Word} (kept : FormKept s₀ s) : FormKept s₀ (Machine.setMf s frame e) := kept.putRaw.putRaw

theorem FormKept.dropPage {vpn : Nat} (kept : FormKept s₀ s) : FormKept s₀ (Machine.dropPage s vpn) := by
  unfold Machine.dropPage
  exact .same kept

theorem FormKept.callReturn {h : Nat} {st : ℤ} {r : Option Word} (kept : FormKept s₀ s) : FormKept s₀ (Machine.callReturn s h st r) := kept.modHart

/-- A call of Mladotte, where its effect keeps the form. -/
theorem FormKept.mladotte {n : Nat} {eff : State → Nat → CallRes} (kept : FormKept s₀ s) (he : ∀ {h}, FormKept s₀ (eff s h).1) :
    OutcomeKept s₀ (Machine.mladotte n eff s) := by
  unfold Machine.mladotte
  dsimp only
  split
  · exact .next kept
  · split
    · exact .next kept.callReturn
    · exact .next (.callReturn he)

theorem FormKept.setEnclave {e : Nat} {x : Enclave} (kept : FormKept s₀ s) : FormKept s₀ (Machine.setEnclave s e x) := by
  unfold Machine.setEnclave
  exact .same kept

theorem FormKept.enclaveRecord {h e : Nat} {x : Enclave} (kept : FormKept s₀ s) : FormKept s₀ (Machine.enclaveRecord s h e x) := kept.bookAppend

theorem FormKept.callCreate {h : Nat} (kept : FormKept s₀ s) : FormKept s₀ (Machine.callCreate s h).1 := by
  unfold Machine.callCreate
  split
  · exact kept
  · split
    · exact kept
    · exact kept.enclaveRecord.setEnclave

theorem FormKept.measureFail {h : Nat} {e : PageEntry} {pa : Nat} (kept : FormKept s₀ s) : FormKept s₀ (Machine.measureFail s h e pa) := by
  unfold Machine.measureFail
  split
  · exact kept
  · exact kept.sealNote

theorem FormKept.markPage {e : PageEntry} {at_ : Nat} (kept : FormKept s₀ s) : FormKept s₀ (Machine.markPage s e at_) := kept.setPteBit.dropPage

theorem FormKept.lockPage {eid : Nat} {e : PageEntry} {at_ : Nat} (kept : FormKept s₀ s) : FormKept s₀ (Machine.lockPage s eid e at_) :=
  kept.setPteBit.setPteBit.setMf.dropPage

theorem FormKept.callAddPage {h : Nat} (kept : FormKept s₀ s) : FormKept s₀ (Machine.callAddPage s h).1 := by
  unfold Machine.callAddPage
  dsimp only
  split
  · exact kept
  · split
    · exact kept
    · split
      · exact kept
      · split
        · exact kept.setEnclave
        · split
          · exact kept
          · split
            · exact kept.measureFail
            · exact kept.lockPage.setEnclave

theorem FormKept.callExtend {h : Nat} (kept : FormKept s₀ s) : FormKept s₀ (Machine.callExtend s h).1 := by
  unfold Machine.callExtend
  extract_lets va n
  split
  · exact kept
  · split
    · exact kept
    · extract_lets ps
      split
      · exact kept
      · split
        · exact kept
        · next s₁ _ _ _ _ =>
          have kept1 : FormKept s₀ s₁ := .foldl (fun _ kept => kept.markPage) kept
          split
          · exact kept1.measureFail
          · exact .setEnclave (.foldl (fun _ kept => kept.lockPage) kept1.enclaveRecord)

theorem FormKept.mladWrite {h pa : Nat} {bs : List Byte} (kept : FormKept s₀ s) (e : Machine.mladWrite s h pa bs = .ok t) : FormKept s₀ t := by
  unfold Machine.mladWrite at e
  split at e
  · cases e
  · cases e
    exact kept.writeCells.breakResv

theorem FormKept.mladFail {h pa : Nat} (kept : FormKept s₀ s) : FormKept s₀ (Machine.mladFail s h pa).1 := .ite kept kept.sealNote

theorem FormKept.callFinalize {h : Nat} (kept : FormKept s₀ s) : FormKept s₀ (Machine.callFinalize s h).1 := by
  unfold Machine.callFinalize
  split
  · exact kept
  · split
    · exact kept
    · split
      · exact kept
      · dsimp only
        split
        · next heq => exact (kept.enclaveRecord.mladWrite heq).setEnclave
        · exact kept.mladFail

theorem FormKept.unparkCore {c : Nat} {p : Parked} (kept : FormKept s₀ s) : FormKept s₀ (Machine.unparkCore s c p) := by
  unfold Machine.unparkCore
  extract_lets s₁ s₂
  have kept1 : FormKept s₀ s₁ := .foldl (fun _ kept => .ite kept.modHart.stick kept) kept
  have kept2 : FormKept s₀ s₂ := .foldl (fun _ kept => .ite kept.modCls kept) kept1
  exact kept2.modCore

theorem FormKept.switchCore {c eid : Nat} (kept : FormKept s₀ s) : FormKept s₀ (Machine.switchCore s c eid) := by
  unfold Machine.switchCore
  extract_lets old hs s₁ p s₂ q s₃ s₄
  have kept1 : FormKept s₀ s₁ := .foldl (fun _ kept => kept.leaveWait.takeTrap) kept
  have kept2 : FormKept s₀ s₂ := .scrubCore (.foldl (fun _ kept => kept.modHart) kept1.flushCore)
  have kept3 : FormKept s₀ s₃ := .foldl (fun _ kept => kept.modHart) kept2.unparkCore
  exact .foldl (fun _ kept => kept.modHart) kept3.modCore

theorem FormKept.callEnter {h : Nat} (kept : FormKept s₀ s) : FormKept s₀ (Machine.callEnter s h).1 := by
  unfold Machine.callEnter
  split
  · exact kept
  · dsimp only
    split
    · exact kept
    · split
      · split
        · exact kept
        · exact .ite kept.bookAppend.bookAppend.modCore kept.bookAppend.bookAppend.modCore.switchCore
      · split
        · exact kept
        · exact .ite kept.bookAppend.modCore kept.bookAppend.modCore.switchCore

theorem FormKept.callExit {h : Nat} (kept : FormKept s₀ s) : FormKept s₀ (Machine.callExit s h).1 := .ite kept kept.switchCore

theorem FormKept.dropEnclave {e : Nat} {x : Enclave} (kept : FormKept s₀ s) : FormKept s₀ (Machine.dropEnclave s e x) := by
  unfold Machine.dropEnclave
  extract_lets s₁ s₂
  have kept1 : FormKept s₀ s₁ := .foldl (fun _ kept => .ite kept.setMf.dropPage kept) kept
  have kept2 : FormKept s₀ s₂ := .foldl (fun _ kept => kept.switchCore) kept1
  exact .setEnclave (.same kept2)

theorem FormKept.callDestroy {h : Nat} (kept : FormKept s₀ s) : FormKept s₀ (Machine.callDestroy s h).1 := by
  unfold Machine.callDestroy
  split
  · exact kept
  · dsimp only
    split
    · exact kept
    · exact .dropEnclave (.foldl (fun _ kept => kept.eraseKey.bookAppend) kept.enclaveRecord)

theorem FormKept.callUnwrap {h : Nat} (kept : FormKept s₀ s) : FormKept s₀ (Machine.callUnwrap s h).1 := by
  unfold Machine.callUnwrap
  split
  · exact kept
  · split
    · next heq =>
        have kept1 := kept.keyOp.fst heq
        split
        · next heq => exact kept.keyOp.fst heq
        · next heq => exact kept.keyOp.fst heq
        · next heq => exact kept.keyOp.fst heq
        · next heq => exact kept.keyOp.fst heq
        · exact kept1

theorem FormKept.callReport {h : Nat} (kept : FormKept s₀ s) : FormKept s₀ (Machine.callReport s h).1 := by
  unfold Machine.callReport
  split
  · exact kept
  · split
    · exact kept.mladFail
    · split
      · next heq => exact kept.mladWrite heq
      · exact kept.mladFail

theorem FormKept.callEvent {n : Nat} {eff : State → Nat → CallRes} (kept : FormKept s₀ s) (he : ∀ {h}, FormKept s₀ (eff s h).1) :
    OutcomeKept s₀ (Machine.callEvent n eff s) := by
  unfold Machine.callEvent
  split
  · exact .next kept
  · exact kept.mladotte he

theorem FormKept.execSpdmRequest (kept : FormKept s₀ s) : OutcomeKept s₀ (Machine.execSpdmRequest s) := by
  unfold Machine.execSpdmRequest
  refine .next ?_
  split
  · exact kept
  · split
    · exact kept.toHost
    · exact kept

theorem FormKept.haltFunction {f : Nat} (kept : FormKept s₀ s) : FormKept s₀ (Machine.haltFunction s f) := by
  unfold Machine.haltFunction
  extract_lets mine ids s₁ s₂ fs s₃ ks s₄ us hs s₅ s₆ s₇
  have kept1 : FormKept s₀ s₁ := .same kept
  have kept2 : FormKept s₀ s₃ := .foldl (fun _ kept => kept.cutFiring) kept1.discardReqs
  have kept3 : FormKept s₀ s₄ := .same kept2
  have kept4 : FormKept s₀ s₅ := .foldl (fun _ kept => kept.releaseClass) kept3
  have kept5 : FormKept s₀ s₆ := .foldl (fun _ kept => kept.abandon.modHart) kept4
  have kept6 : FormKept s₀ s₇ := .foldl (fun _ kept => kept.modHart) kept5
  exact .same kept6

theorem FormKept.recallSlabs {k : Nat} (kept : FormKept s₀ s) : FormKept s₀ (Machine.recallSlabs s k) := kept.modCluster.returnSlabs

theorem FormKept.clearFunction {f : Nat} (kept : FormKept s₀ s) : FormKept s₀ (Machine.clearFunction s f) := by
  unfold Machine.clearFunction
  extract_lets ids s₁ s₂ s₃
  have kept1 : FormKept s₀ s₁ := .dropLines (.foldl (fun _ kept => kept.kForget) kept)
  have kept2 : FormKept s₀ s₂ := .same kept1
  have kept3 : FormKept s₀ s₃ := .same kept2
  exact .foldl (fun _ kept => kept.recallSlabs) kept3

theorem FormKept.forgetFunction {f : Nat} (kept : FormKept s₀ s) : FormKept s₀ (Machine.forgetFunction s f) := by
  unfold Machine.forgetFunction
  extract_lets s₁
  have kept1 : FormKept s₀ s₁ := .same kept
  exact .foldl (fun _ kept => kept.dropEnclave) kept1

theorem FormKept.revokeFunction {f : Nat} (kept : FormKept s₀ s) : FormKept s₀ (Machine.revokeFunction s f) := by
  unfold Machine.revokeFunction
  extract_lets ids s₁ s₂
  have kept1 : FormKept s₀ s₁ := .foldl (fun _ kept => kept.disarm) kept
  exact .same kept1.endFlip.dropEntries.refillDue.keepTaint

theorem FormKept.resetFunction {f : Nat} (kept : FormKept s₀ s) : FormKept s₀ (Machine.resetFunction s f) := by
  have kept1 : FormKept s₀ (Machine.revokeFunction (Machine.forgetFunction (Machine.clearFunction (Machine.haltFunction s f) f) f) f) :=
    kept.haltFunction.clearFunction.forgetFunction.revokeFunction
  unfold Machine.resetFunction
  generalize Machine.revokeFunction (Machine.forgetFunction (Machine.clearFunction (Machine.haltFunction s f) f) f) f = u at kept1
  exact .ite (.same kept1) kept1.putPending

theorem FormKept.drawFree (kept : FormKept s₀ s) : FormKept s₀ (Machine.drawFree s).1 := by
  unfold Machine.drawFree
  exact .same kept

theorem FormKept.drawNonce (kept : FormKept s₀ s) : FormKept s₀ (Machine.drawNonce s).1 := by
  unfold Machine.drawNonce
  exact .same kept.drawFree

theorem FormKept.wipe (kept : FormKept s₀ s) : FormKept s₀ (Machine.wipe s) := by
  have forgot : FormKept s₀ ((s.clusters.map (·.1)).foldl (Machine.kForget fun _ => true) s) := .foldl (fun _ kept => kept.kForget) kept
  exact ⟨forgot.1, fun _ => rfl⟩

theorem FormKept.submitToken (kept : FormKept s₀ s) : FormKept s₀ (Machine.submitToken s) := by
  unfold Machine.submitToken
  split
  · exact kept
  · dsimp only
    split
    · exact kept.bookAppend
    · exact .same kept.bookAppend.wipe

theorem FormKept.tokenTo {i : Nat} {v : Word} (kept : FormKept s₀ s) : FormKept s₀ (Machine.tokenTo s i v) :=
  .ite (.submitToken (.same kept)) (.same kept)

end Sys2Proof
end

section
/-!
SUPPORT. The form of memory and of the table of harts is kept by the management block and the links.
-/
namespace Sys2Proof
open Machine

variable {s₀ s t : State}

theorem FormKept.ktqbaseWrite {fn q : Nat} {v : Word} (kept : FormKept s₀ s) : FormKept s₀ (Machine.ktqbaseWrite s fn q v) := by
  unfold Machine.ktqbaseWrite
  dsimp only
  split
  · exact kept
  · exact kept.modQueue

theorem FormKept.ktqctlWrite {fn q : Nat} {v : Word} (kept : FormKept s₀ s) : FormKept s₀ (Machine.ktqctlWrite s fn q v) := by
  unfold Machine.ktqctlWrite
  dsimp only
  split
  · split
    · exact kept
    · exact kept.modQueue
  · split
    · exact kept
    · exact kept.modQueue

theorem FormKept.modRing {fn r : Nat} {g : EthRing → EthRing} (kept : FormKept s₀ s) : FormKept s₀ (Machine.modRing s fn r g) := kept.modFunc

theorem FormKept.ringWrite {p : Poster} {fn r i : Nat} {v : Word} (kept : FormKept s₀ s) : FormKept s₀ (Machine.ringWrite s p fn r i v) := by
  unfold Machine.ringWrite
  split
  · exact kept.modRing
  · split
    · exact kept
    · exact kept.modRing
  · exact kept.modRing
  · exact kept

theorem FormKept.endDescriptor {fn i : Nat} {r : EthRing} {st : Nat} (kept : FormKept s₀ s) : FormKept s₀ (Machine.endDescriptor s fn i r st) :=
  kept.unitWrite.modRing

theorem FormKept.descriptor {fn : Nat} {r : EthRing} (kept : FormKept s₀ s) : FormKept s₀ (Machine.descriptor s fn r).1 := by
  unfold Machine.descriptor
  split
  · next heq => exact kept.unitRead.fst heq
  · next heq => exact kept.unitRead.fst heq

theorem FormKept.execEthTransmit (kept : FormKept s₀ s) : OutcomeKept s₀ (Machine.execEthTransmit s) := by
  unfold Machine.execEthTransmit
  dsimp only
  refine .next ?_
  split
  · exact kept
  · split
    · next heq => exact (kept.descriptor.fst heq).endDescriptor
    · next heq =>
        have kept1 := kept.descriptor.fst heq
        split
        · exact kept1.endDescriptor
        · split
          · next heq => exact (kept1.unitRead.fst heq).endDescriptor
          · next heq =>
            have kept2 := kept1.unitRead.fst heq
            exact .endDescriptor (.same kept2)

theorem FormKept.execEthReceive (kept : FormKept s₀ s) : OutcomeKept s₀ (Machine.execEthReceive s) := by
  unfold Machine.execEthReceive
  dsimp only
  refine .next ?_
  split
  · exact kept
  · split
    · next heq => exact (kept.descriptor.fst heq).endDescriptor
    · next heq =>
        have kept1 := kept.descriptor.fst heq
        split
        · exact kept1.endDescriptor
        · exact kept1.unitWrite.endDescriptor

theorem FormKept.modIsland {i : Nat} {f : Island → Island} (kept : FormKept s₀ s) : FormKept s₀ (Machine.modIsland s i f) := by
  unfold Machine.modIsland
  exact .same kept

theorem FormKept.islstWrite {i : Nat} {v : Word} (kept : FormKept s₀ s) : FormKept s₀ (Machine.islstWrite s i v) := kept.modIsland

theorem FormKept.bookwinRead {i : Nat} (kept : FormKept s₀ s) : FormKept s₀ (Machine.bookwinRead s i).1 := by
  unfold Machine.bookwinRead
  dsimp only
  split
  · exact kept
  · split
    · exact kept
    · exact kept.drawFree

theorem FormKept.mgmtRead {o : Nat} (kept : FormKept s₀ s) : FormKept s₀ (Machine.mgmtRead s o).1 := by
  unfold Machine.mgmtRead
  rw [apply_ite Prod.fst, apply_ite Prod.fst, apply_ite Prod.fst]
  exact .ite kept (.ite kept.drawNonce (.ite kept.bookwinRead kept))

theorem FormKept.mgmtWrite {o : Nat} {v : Word} (kept : FormKept s₀ s) : FormKept s₀ (Machine.mgmtWrite s o v) := by
  unfold Machine.mgmtWrite
  split
  · exact kept
  · split
    · exact .same kept
    · split
      · exact .same kept
      · split
        · exact kept.bookackTo
        · split
          · exact .same kept
          · split
            · exact kept.booksignTo
            · split
              · exact kept.tokenTo
              · split
                · exact kept.islstWrite
                · exact kept

theorem FormKept.blockWrite {p : Poster} {f o : Nat} {v : Word} (kept : FormKept s₀ s) : WriteKept s₀ (Machine.blockWrite s p f o v) := by
  unfold Machine.blockWrite
  split
  · exact kept
  split
  · exact kept.kbiasWrite
  split
  · have queue : FormKept s₀ ((if o % 16 = 0 then Machine.ktqbaseWrite else Machine.ktqctlWrite) s f ((o - 0x100) / 16) v) := by
      split
      · exact kept.ktqbaseWrite
      · exact kept.ktqctlWrite
    exact queue
  split
  · exact kept.ktkillWrite
  split
  · exact kept.ringWrite
  · exact kept

theorem FormKept.mmioRead {host : Bool} {pa : Nat} (kept : FormKept s₀ s) : FormKept s₀ (Machine.mmioRead s host pa).1 := by
  unfold Machine.mmioRead
  extract_lets o f
  clear_value o f
  split
  · exact kept.mgmtRead
  · split <;> exact kept

theorem FormKept.mmioWrite {p : Poster} {pa : Nat} {v : Word} (kept : FormKept s₀ s) : WriteKept s₀ (Machine.mmioWrite s p pa v) := by
  unfold Machine.mmioWrite
  extract_lets o f
  clear_value o f
  split
  · exact kept.mgmtWrite
  · split
    · exact kept
    · exact kept.blockWrite

theorem FormKept.execSlatenonceRead (kept : FormKept s₀ s) : OutcomeKept s₀ (Machine.execSlatenonceRead s) := by
  unfold Machine.execSlatenonceRead
  dsimp only
  split
  · exact .next kept.toHost
  · split
    · split
      · exact .next kept
      · exact .next kept.mmioRead.toHost
    · split
      · exact .next kept
      · exact .next kept.mmioRead.toHost

theorem SMap.wfAbove_mono {α : Type} [DecidableEq α] (d : α) {m : SMap α} {a b : Nat} (hab : a ≤ b) (h : SMap.wfAbove d b m = true) :
    SMap.wfAbove d a m = true := by
  cases m with
  | nil => rfl
  | cons x m =>
    simp only [SMap.wfAbove, Bool.and_eq_true, decide_eq_true_eq] at h ⊢
    exact ⟨⟨by omega, h.1.2⟩, h.2⟩

theorem SMap.wfAbove_filter {α : Type} [DecidableEq α] (d : α) (p : Nat × α → Bool) {m : SMap α} {b : Nat} (h : SMap.wfAbove d b m = true) :
    SMap.wfAbove d b (m.filter p) = true := by
  induction m generalizing b with
  | nil => exact h
  | cons x m ih =>
    simp only [SMap.wfAbove, Bool.and_eq_true, decide_eq_true_eq] at h
    obtain ⟨⟨hb, hd⟩, hm⟩ := h
    rw [List.filter_cons]
    split
    · simp [SMap.wfAbove, hb, hd, ih hm]
    · exact SMap.wfAbove_mono d (Nat.le_of_lt hb) (ih hm)

/-- Part of a table in canonical form is in canonical form. -/
theorem SMap.wf_filter {α : Type} [DecidableEq α] (d : α) (p : Nat × α → Bool) {m : SMap α} (h : SMap.wf d m = true) :
    SMap.wf d (m.filter p) = true := by
  cases m with
  | nil => rfl
  | cons x m =>
    obtain ⟨k, v⟩ := x
    rw [SMap.wf_cons, Bool.and_eq_true, decide_eq_true_eq] at h
    rw [List.filter_cons]
    split
    · rw [SMap.wf_cons, SMap.wfAbove_filter d p h.2]
      simp [h.1]
    · exact SMap.wf_of_wfAbove d (SMap.wfAbove_filter d p h.2)

theorem FormKept.execColdReset (kept : FormKept s₀ s) : OutcomeKept s₀ (Machine.execColdReset s) :=
  .next ⟨fun w => SMap.wf_filter 0 _ (kept.1 w), fun _ => rfl⟩

theorem FormKept.execStage0Complete (kept : FormKept s₀ s) : OutcomeKept s₀ (Machine.execStage0Complete s) := by
  unfold Machine.execStage0Complete
  exact .next (.ite (.same kept) kept)

theorem FormKept.execStage1Complete (kept : FormKept s₀ s) : OutcomeKept s₀ (Machine.execStage1Complete s) := by
  unfold Machine.execStage1Complete
  exact .next (.ite kept (.ite (.same kept) (.ite (.same kept) (.bookAppend (.loadKey (.same kept))))))

theorem FormKept.sealRegion (kept : FormKept s₀ s) : FormKept s₀ (Machine.sealRegion s) := .foldl (fun _ kept => kept.putLine) kept

theorem FormKept.execStage2Complete (kept : FormKept s₀ s) : OutcomeKept s₀ (Machine.execStage2Complete s) := by
  unfold Machine.execStage2Complete
  exact .next (.ite kept (.ite (.same kept) (.ite kept (.sealRegion (.loadKey (.same kept.bookAppend))))))

theorem FormKept.execHostCxlMemRead (kept : FormKept s₀ s) : OutcomeKept s₀ (Machine.execHostCxlMemRead s) := by
  unfold Machine.execHostCxlMemRead
  exact .next (.ite (.same kept) (.ite (.same kept) (.same kept)))

theorem FormKept.outerWrite {pa : Nat} {bs : List Byte} (kept : FormKept s₀ s) : FormKept s₀ (Machine.outerWrite s pa bs) := by
  unfold Machine.outerWrite
  extract_lets ls s₁
  have kept1 : FormKept s₀ s₁ := .foldl (fun _ kept => kept.modLine) (.putRaw (.foldl (fun _ kept => (kept.moves (homeWrite_moves ..))) kept))
  exact kept1.breakResv

theorem FormKept.execHostCxlMemWrite (kept : FormKept s₀ s) : OutcomeKept s₀ (Machine.execHostCxlMemWrite s) := by
  unfold Machine.execHostCxlMemWrite
  exact .next (.ite kept (.ite (.same kept) kept.outerWrite))

theorem FormKept.execLinkTraining (kept : FormKept s₀ s) : OutcomeKept s₀ (Machine.execLinkTraining s) := by
  unfold Machine.execLinkTraining
  exact .next (.ite (.same kept) kept)

theorem FormKept.loseRead {pl : Nat} (kept : FormKept s₀ s) : FormKept s₀ (Machine.loseRead s pl) := by
  unfold Machine.loseRead
  exact .same kept

theorem FormKept.execLinkFailure (kept : FormKept s₀ s) : OutcomeKept s₀ (Machine.execLinkFailure s) :=
  .next (.foldl (fun _ kept => kept.loseRead) (.same kept))

theorem FormKept.execPeerAccessArrival (kept : FormKept s₀ s) : OutcomeKept s₀ (Machine.execPeerAccessArrival s) := by
  unfold Machine.execPeerAccessArrival
  exact .next (.ite (.ite kept.outerWrite kept) (.ite (.same kept) (.same kept)))

theorem FormKept.governIsland {above : Bool} {hot : List Byte} {temps : List Nat} {i : Nat} (kept : FormKept s₀ s) :
    FormKept s₀ (Machine.governIsland above hot temps s i) := by
  unfold Machine.governIsland
  dsimp only
  split
  · exact kept.modIsland.raiseIntr
  · exact kept.modIsland

theorem FormKept.trip (kept : FormKept s₀ s) : FormKept s₀ (Machine.trip s) := by
  unfold Machine.trip
  exact .same kept

theorem FormKept.execOperatingPointUpdate (kept : FormKept s₀ s) : OutcomeKept s₀ (Machine.execOperatingPointUpdate s) := by
  unfold Machine.execOperatingPointUpdate
  exact .next (.ite kept (.ite (.trip (.foldl (fun _ kept => kept.modIsland) (.same kept))) (.foldl (fun _ kept => kept.governIsland) (.same kept))))

theorem FormKept.execThermalTrip (kept : FormKept s₀ s) : OutcomeKept s₀ (Machine.execThermalTrip s) :=
  .next (.ite (.trip (.ite kept.modIsland (.same kept))) kept)

end Sys2Proof
end

section
/-!
SUPPORT. The form of memory and of the table of harts is kept by register writes.
-/
namespace Sys2Proof
open Machine

variable {s₀ s t : State}

theorem FormKept.stdWrite {h n : Nat} {v : Word} (kept : FormKept s₀ s) : FormKept s₀ (Machine.stdWrite s h n v) := by
  unfold Machine.stdWrite
  split
  · exact kept.setFflags.modHart
  · exact kept.modHart
  · exact kept.setFflags.modHart
  · exact kept.modHart

theorem FormKept.kdomWrite {h : Nat} {v : Word} (kept : FormKept s₀ s) : FormKept s₀ (Machine.kdomWrite s h v) := kept.modHart.bindTaint

theorem FormKept.modK {h : Nat} {f : Kcsrs → Kcsrs} (kept : FormKept s₀ s) : FormKept s₀ (Machine.modK s h f) := kept.modHart

theorem FormKept.modLane {h : Nat} {f : Hart → Hart} (kept : FormKept s₀ s) : FormKept s₀ (Machine.modLane s h f) := kept.modHart

theorem FormKept.khctlWrite {c ch : Nat} {v : Word} (kept : FormKept s₀ s) : FormKept s₀ (Machine.khctlWrite s c ch v) := kept.modCore

theorem FormKept.kchqWrite {c ch : Nat} {v : Word} (kept : FormKept s₀ s) : FormKept s₀ (Machine.kchqWrite s c ch v) := by
  unfold Machine.kchqWrite
  split
  · exact kept
  · exact kept.modCore

theorem FormKept.kchringWrite {c ch : Nat} {v : Word} (kept : FormKept s₀ s) : FormKept s₀ (Machine.kchringWrite s c ch v) := kept.modCore

theorem FormKept.kqctlWrite {c q : Nat} {v : Word} (kept : FormKept s₀ s) : FormKept s₀ (Machine.kqctlWrite s c q v) := by
  unfold Machine.kqctlWrite
  dsimp only
  split
  · exact kept
  · exact kept.modCore

theorem FormKept.wmWrite {c i : Nat} {f : WmChan → WmChan} (kept : FormKept s₀ s) : FormKept s₀ (Machine.wmWrite s c i f) := by
  unfold Machine.wmWrite
  split
  · exact kept
  · exact kept.modCore

theorem FormKept.customWrite {h n : Nat} {v : Word} (kept : FormKept s₀ s) : WriteKept s₀ (Machine.customWrite s h n v) := by
  unfold Machine.customWrite
  dsimp only
  split
  · exact .ite kept.modLane kept
  · exact kept.modLane
  · exact kept.kdomWrite
  · exact kept.ktinvWrite
  · exact kept.krootWrite
  · exact kept.kslabWrite
  · exact kept.modCluster
  · exact kept.modK
  · exact kept.kpartWrite
  · exact kept.kpownWrite
  · exact kept.kbiasWrite
  · exact kept.modK
  · exact kept.modCluster
  · exact kept.modK
  · exact kept.modCore
  · exact kept.khctlWrite
  · exact kept.kchqWrite
  · exact kept.kchringWrite
  · exact kept.modK
  · exact kept.kqctlWrite
  · exact kept.modK
  · exact kept.modK
  · exact kept.wmWrite
  · exact kept.wmWrite
  · exact kept.wmWrite
  · exact kept.modK
  · exact kept.ksibctlWrite
  · exact kept.ksibdataWrite
  · exact kept.kpreWrite
  · split
    · exact fun kept => kept
    · exact kept.kcsaveWrite
  · exact kept.modK
  · exact kept.modK
  · exact kept.ktqbaseWrite
  · exact kept.ktqctlWrite
  · exact kept.ktkillWrite
  · exact kept.modCore
  · exact kept.kflushWrite
  · exact .ite kept (.same kept)
  · exact kept.modK
  · exact kept.kkctlWrite
  · exact kept.modK
  · exact kept.modK
  · exact kept.khmctlWrite
  · exact kept.khmdomWrite
  · exact kept.khmrateWrite
  · split
    · exact kept.modLane
    · split
      · exact kept.modLane
      · split
        · exact kept.modCore
        · exact kept

theorem FormKept.csrWrite {h n : Nat} {v : Word} (kept : FormKept s₀ s) : WriteKept s₀ (Machine.csrWrite s h n v) := by
  unfold Machine.csrWrite
  split
  · exact kept.customWrite
  · exact kept.stdWrite

theorem FormKept.afterRead {h n : Nat} {o : CsrOp} (kept : FormKept s₀ s) : FormKept s₀ (Machine.afterRead s h n o) := by
  unfold Machine.afterRead
  split
  · exact kept.kpoolevRead
  · exact kept

theorem FormKept.csrInstr {n : Nat} {o : CsrOp} (kept : FormKept s₀ s) : OutcomeKept s₀ (Machine.csrInstr n o s) := by
  unfold Machine.csrInstr
  split
  · exact kept.illegalNow
  · dsimp only
    split
    · exact .next kept.afterRead.modMe.retire
    · split
      · next heq => exact .next (kept.afterRead.modMe.retire.csrWrite.ok heq)
      · next heq => exact .next ((kept.afterRead.modMe.retire.csrWrite.wait heq) kept.modMe)

theorem FormKept.execRegisterWrite {w : RegWrite} (kept : FormKept s₀ s) : OutcomeKept s₀ (Machine.execRegisterWrite w s) := by
  unfold Machine.execRegisterWrite
  split
  · exact kept.csrInstr
  · split
    · exact .next kept
    · split
      · next heq => exact .next (kept.mmioWrite.ok heq)
      · next heq => exact .next (.same ((kept.mmioWrite.wait heq) kept))

end Sys2Proof
end

section
/-!
SUPPORT. The form of memory and of the table of harts is kept by the scalar forms.
-/
namespace Sys2Proof
open Machine

variable {s₀ s t : State}

theorem FormKept.cmpOp {f : L64} {g : Nat → Nat → Nat → Bool} (kept : FormKept s₀ s) : OutcomeKept s₀ (Machine.cmpOp f g s) := kept.laneOp

theorem FormKept.fcmpOp {rel : Nat} {f : L64} (kept : FormKept s₀ s) : OutcomeKept s₀ (Machine.fcmpOp rel f s) := kept.fpOp

theorem FormKept.shflOp {f : L64} {src : Nat → Nat → Nat} (kept : FormKept s₀ s) : OutcomeKept s₀ (Machine.shflOp f src s) := kept.laneOp

theorem FormKept.redOp {f : L64} {g : Nat → Nat → Nat → Nat} (kept : FormKept s₀ s) : OutcomeKept s₀ (Machine.redOp f g s) := kept.laneOp

theorem FormKept.fredOp {f : L64} {rounds : Bool} {g : Nat → Nat → Nat → FRes} (kept : FormKept s₀ s) :
    OutcomeKept s₀ (Machine.fredOp f rounds g s) :=
  kept.fpOp

theorem FormKept.intOp2 {f : L64} {g : Nat → Nat → Nat → Nat} (kept : FormKept s₀ s) : OutcomeKept s₀ (Machine.intOp2 f g s) := kept.laneOp

theorem FormKept.intOp3 {f : L64} {g : Nat → Nat → Nat → Nat → Nat} (kept : FormKept s₀ s) : OutcomeKept s₀ (Machine.intOp3 f g s) := kept.laneOp

theorem FormKept.intOp1 {f : L64} {g : Nat → Nat → Nat} (kept : FormKept s₀ s) : OutcomeKept s₀ (Machine.intOp1 f g s) := kept.laneOp

theorem FormKept.maskOp {d : BitVec 5} {g : Hart → BitVec 32} (kept : FormKept s₀ s) : OutcomeKept s₀ (Machine.maskOp d g s) := kept.doneWith

theorem FormKept.execMpush {a : BitVec 5} (kept : FormKept s₀ s) : OutcomeKept s₀ (Machine.execMpush a s) := by
  unfold Machine.execMpush
  split
  · exact .next kept.takeTrap
  · exact kept.doneWith

theorem FormKept.execMinv (kept : FormKept s₀ s) : OutcomeKept s₀ (Machine.execMinv s) := by
  unfold Machine.execMinv
  split
  · exact .next kept.takeTrap
  · exact kept.doneWith

theorem FormKept.execMpop (kept : FormKept s₀ s) : OutcomeKept s₀ (Machine.execMpop s) := by
  unfold Machine.execMpop
  split
  · exact .next kept.takeTrap
  · exact kept.doneWith

theorem FormKept.maskBranch {taken : Bool} {off : BitVec 12} (kept : FormKept s₀ s) : OutcomeKept s₀ (Machine.maskBranch taken off s) :=
  .outsideClause kept (.next kept.modMe)

theorem ExecKept.scalarPlace {a : Acc} {n : Nat} {va : Word} : ExecKept (Machine.scalarPlace a n va) := by
  unfold Machine.scalarPlace
  refine .bind .orTrap fun _ => .bind .wmCheck fun _ => .bind .whoX fun _ => .bind .rd fun _ => ?_
  dsimp only
  refine .bind ?_ fun _ => ?_
  · refine ⟨fun {s₀ s} kept => ?_⟩
    split
    · next heq => exact ExecKept.trap.run (kept.translate.fst heq)
    · next heq => exact kept.translate.fst heq
  · refine .bind ?_ fun _ => ?_
    · refine ⟨fun {s₀ s} kept => ?_⟩
      split
      · exact ExecKept.stallWith.run kept
      · exact kept
    · split
      · refine ⟨fun {s₀ s} kept => ?_⟩
        split
        · next heq => exact ExecKept.trap.run (kept.translate.fst heq)
        · next heq => exact kept.translate.fst heq
      · exact .pure

theorem FormKept.scalarIn {w : Who} {va : Word} {r : PRef} (kept : FormKept s₀ s) : FormKept s₀ (Machine.scalarIn s w va r).1 := by
  unfold Machine.scalarIn
  dsimp only
  split
  · exact kept
  · split
    · next heq => exact kept.lineIn.fst heq
    · next heq => exact ((kept.lineIn.fst heq).moves (scalUse_moves ..))

theorem ExecKept.scalarFetch {r : PRef} {n : Nat} {va : Word} : ExecKept (Machine.scalarFetch r n va) := by
  refine ⟨fun {s₀ s} kept => ?_⟩
  unfold Machine.scalarFetch
  split
  · split
    · exact ResKept.of_ok kept.mmioRead
    · exact kept
  · extract_lets w
    split
    · next heq => exact (kept.scalarIn.fst heq).sealFail
    · next heq =>
      have kept1 := kept.scalarIn.fst heq
      split
      · exact ExecKept.trap.run kept1
      · exact kept1

theorem ExecKept.scalarPut {r : PRef} {n : Nat} {va : Word} {v : Nat} : ExecKept (Machine.scalarPut r n va v) := by
  unfold Machine.scalarPut
  refine ⟨fun {s₀ s} kept => ?_⟩
  dsimp only
  split
  · split
    · exact kept
    · split
      · next heq => exact kept.mmioWrite.ok heq
      · next heq => exact ExecKept.stallWith.run ((kept.mmioWrite.wait heq) kept)
  · split
    · exact kept.sealFail
    · exact (kept.storeLine.moves (scalUse_moves ..)).breakResv.l1Drop

theorem FormKept.execScalarLoad {o : LoadOp} (kept : FormKept s₀ s) : OutcomeKept s₀ (Machine.execScalarLoad o s) := by
  unfold Machine.execScalarLoad
  dsimp only
  split
  · exact kept.illegalNow
  · exact (ExecKept.bind .scalarPlace fun _ => .bind .scalarFetch fun _ => .bind .onMe fun _ => .retireX).finish kept

theorem FormKept.execScalarStore {o : StoreOp} (kept : FormKept s₀ s) : OutcomeKept s₀ (Machine.execScalarStore o s) := by
  unfold Machine.execScalarStore
  dsimp only
  split
  · exact kept.illegalNow
  · exact (ExecKept.bind .scalarPlace fun _ => .bind .scalarPut fun _ => .retireX).finish kept

theorem ExecKept.amoRelease {o : AmoOp} : ExecKept (Machine.amoRelease o) := .upd fun kept => .ite (kept.moves (coreRelease_moves ..)) kept

theorem ExecKept.atPeerHome {va : Word} {r : PRef} : ExecKept (Machine.atPeerHome va r) := ⟨fun kept => (kept.moves (peerHome_moves ..))⟩

theorem ExecKept.loadReserved {o : AmoOp} {n : Nat} {va : Word} : ExecKept (Machine.loadReserved o n va) :=
  .bind .scalarPlace fun _ => .bind .atPeerHome fun _ => .bind .scalarFetch fun _ => .bind .amoRelease fun _ => .onMe

theorem ExecKept.storeConditional {o : AmoOp} {n : Nat} {va : Word} : ExecKept (Machine.storeConditional o n va) :=
  .bind .scalarPlace fun _ => .bind .atPeerHome fun _ => .ite (.bind .pure fun _ => .bind .amoRelease fun _ => .bind .meX fun _ =>
    .ite (.bind .scalarPut fun _ => .onMe) .onMe) (.bind .scalarFetch fun _ => .bind .amoRelease fun _ => .bind .meX fun _ =>
      .ite (.bind .scalarPut fun _ => .onMe) .onMe)

theorem ExecKept.scalarAmo {o : AmoOp} {n : Nat} {va : Word} : ExecKept (Machine.scalarAmo o n va) :=
  .bind .scalarPlace fun _ => .bind .atPeerHome fun _ => .bind .scalarFetch fun _ => .bind .amoRelease fun _ => .bind .meX fun _ =>
    .bind .scalarPut fun _ => .onMe

theorem FormKept.execScalarAtomic {o : AmoOp} (kept : FormKept s₀ s) : OutcomeKept s₀ (Machine.execScalarAtomic o s) := by
  unfold Machine.execScalarAtomic
  refine ExecKept.finish ?_ kept
  dsimp only
  refine .bind ?_ fun _ => ?_
  · split
    · exact .loadReserved
    · exact .storeConditional
    · exact .scalarAmo
  · exact .bind (.upd fun kept => .ite kept.acquire kept) fun _ => .retireX

end Sys2Proof
end

section
/-!
SUPPORT. The form of memory and of the table of harts is kept by the table.
-/
namespace Sys2Proof
open Machine

variable {s₀ s t : State}

/-- Every row of the table keeps the form: a meaning in steps by its steps, an event by what it does. -/
theorem FormKept.exec {i : Instr} (kept : FormKept s₀ s) : OutcomeKept s₀ (Machine.exec i s) := by
  unfold Machine.exec
  cases i with
  | ladd | lsub | ladds | lsubs | lmul | lmulh | lmulhu | ldiv | ldivu | lrem | lremu | land | lor | lxor | landn | lsll | lsrl | lsra
  | lmin | lmax | lminu | lmaxu | lbfx => exact kept.intOp2
  | lmadd | lbfi => exact kept.intOp3
  | labs | lclz | lcpop | lbrev | lmov => exact kept.intOp1
  | lsel | lli | lbcast | lext | lidx | lscanAdd | lcomp => exact kept.laneOp
  | lfadd | lfsub | lfmul | lffma | lffms | lfnma | lfmin | lfmax | lfdiv | lfsqrt | lfrcp | lfrsq | lfex2 | lflg2 | lfsin | lfcos | lfabs
  | lfneg | lfsgnj | lfclass | lfround => exact kept.fpMap
  | lfcvt | lscanFadd => exact kept.fpOp
  | lldB | lldBu | lldH | lldHu | lldW | lldD | lldQ => exact ExecKept.laneLoad.finish kept
  | lstB | lstH | lstW | lstD | lstQ => exact ExecKept.laneStore.finish kept
  | lamoAddW | lamoAddD | lamoAndW | lamoAndD | lamoOrW | lamoOrD | lamoXorW | lamoXorD | lamoMinW | lamoMinD | lamoMaxW | lamoMaxD
  | lamoMinuW | lamoMinuD | lamoMaxuW | lamoMaxuD | lamoSwapW | lamoSwapD | lcasW | lcasD => exact ExecKept.laneAtomic.finish kept
  | lfamoAddS | lfamoMinS | lfamoMaxS => exact kept.laneFpAtomic
  | lcmpEq | lcmpNe | lcmpLt | lcmpGe | lcmpLtu | lcmpGeu => exact kept.cmpOp
  | lfcmpEq | lfcmpLt | lfcmpLe | lfcmpUn => exact kept.fcmpOp
  | lshflIdx | lshflUp | lshflDn | lshflXor => exact kept.shflOp
  | lredAdd | lredMin | lredMax | lredAnd | lredOr | lredXor => exact kept.redOp
  | lredFadd | lredFmin | lredFmax => exact kept.fredOp
  | tallocImm | tallocReg | tallocNbImm | tallocNbReg => exact ExecKept.tallocOp.finish kept
  | tld | tpeek | taccLd => exact ExecKept.poolLoad.finish kept
  | tldM | taccLdM => exact ExecKept.memLoad.finish kept
  | tcnt | tinfo | mget | mcnt | mffs | bbrd => exact kept.doneWith
  | taccSt | taccStM | tcvt | tcvtM => exact ExecKept.cvtStore.finish kept
  | tquizNone | tquizRun | tquizClear => exact ExecKept.tquizOp.finish kept
  | mand | mor | mxor | mandn | mnot | mmov | mset => exact kept.maskOp
  | mbz | mbnz => exact kept.maskBranch
  | hpassArm | hpassStart | hpassStatus | hpassWait | hpassDisarm => exact ExecKept.hpassOp.finish kept
  | cprd | cpq | cpqNb => exact ExecKept.submit.finish kept
  | cpcls | fenceI => exact .next kept.modMyCore.retire
  | krootWrite | kdomWrite | ktinvGo | kslabGo | kslabAbort | kpartWrite | kpownWrite | kpoolevRead | kbiasGo | kflagclrWrite | khctlWrite
  | kchqDepthWrite | kchqErrClear | kchringWrite | kqctlWrite | ksibctlHalt | ksibctlResume | ksibdataWrite | kpreDone | kcsaveSave
  | kcsaveRestore | ktqctlTailWrite | ktqctlRerrClear | ktkillGo | kflushGo | kkctlErase | kkctlDerive | kkctlUnwrap | kkctlRebind
  | kkctlQuery | khmctlWrite | khmdomWrite | khmrateWrite | pmpWrite => exact kept.csrInstr
  | kyield | pause => exact .next kept.retire.askSwitch
  | faultReplyRetry | faultReplyFatal | notice => exact .next kept.arrive63
  | droopDetectorFire | droopStretchEnd => exact .next (.ite kept.modIsland kept)
  | lprf => exact kept.execLprf
  | lzero => exact kept.execLzero
  | thdr => exact (ExecKept.bind .meX fun _ => .bind .needOwned fun _ => .bind .putTile fun _ => .retireX).finish kept
  | thdrM => exact kept.execThdrM
  | tst => exact kept.execTst
  | tseal => exact kept.execTseal
  | tdrop => exact kept.execTdrop
  | tskip => exact kept.execTskip
  | tgive => exact kept.execTgive
  | tinfoT => exact kept.execTinfoT
  | tldl => exact kept.execTldl
  | tmma => exact kept.execTmma
  | tzero => exact kept.execTzero
  | tzeroM => exact kept.execTzeroM
  | taccLrd => exact kept.execTaccLrd
  | taccLwr => exact kept.execTaccLwr
  | mpush => exact kept.execMpush
  | bbwr => exact kept.execBbwr
  | imv => exact kept.execImv
  | iwr => exact kept.execIwr
  | waitf => exact (ExecKept.bind .waitFlags fun _ => .retireX).finish kept
  | barCfg => exact kept.execBarCfg
  | barArr => exact (ExecKept.bind .barUse fun _ => .bind .barArrive fun _ => .retireX).finish kept
  | barWait => exact kept.execBarWait
  | barSync => exact kept.execBarSync
  | barTx => exact kept.execBarTx
  | barTest => exact kept.execBarTest
  | kfence => exact kept.execKfence
  | rollc => exact (ExecKept.bind .barUse fun _ => .bind .need fun _ => .bind .barArrive fun _ => .retireX).finish kept
  | kctxSv => exact kept.execKctxSv
  | kctxLd => exact kept.execKctxLd
  | msend => exact kept.execMsend
  | msendL => exact kept.execMsendL
  | qpush => exact kept.execQpush
  | qpop => exact kept.execQpop
  | cpwm => exact kept.execCpwm
  | launch => exact kept.execLaunch
  | clause => exact .outsideClause kept ((ExecKept.bind .waitFlags fun _ => .bind .retireX fun _ => .onMe).finish kept)
  | sfenceVma => exact kept.execSfenceVma
  | fence => exact .next (.retire (.ite kept kept.coreFence))
  | registerWrite => exact kept.execRegisterWrite
  | scalarLoad => exact kept.execScalarLoad
  | scalarStore => exact kept.execScalarStore
  | scalarAtomic => exact kept.execScalarAtomic
  | minv => exact kept.execMinv
  | mpop => exact kept.execMpop
  | hdone => exact kept.execHdone
  | kscrub => exact kept.execKscrub
  | mnext => exact kept.execMnext
  | wfi => exact kept.execWfi
  | sret => exact kept.execSret
  | mret => exact kept.execMret
  | trapEntry => exact kept.execTrapEntry
  | wfiTimeout => exact kept.execWfiTimeout
  | slotSwitchLimit => exact .next (.ite kept.askSwitch kept)
  | pageWalk => exact .next (.ite kept.tlbEntry kept)
  | faultBufferDelivery => exact kept.execFaultBufferDelivery
  | heldReportPost => exact kept.execHeldReportPost
  | invalidationComplete => exact .next (.ite (.ite kept.invalidate kept.invalidate.modFunc) kept)
  | lineFill => exact kept.execLineFill
  | correctedError => exact .next kept.bump
  | uncorrectableError => exact .next kept.poisonPlace
  | slabDrainComplete => exact kept.execSlabDrainComplete
  | slabClearComplete => exact .next (.ite kept kept.modCluster)
  | biasFlipComplete => exact .next kept.endFlip
  | flushComplete => exact .next (.ite kept.flushCore.modCore kept)
  | tallocGrant => exact kept.execTallocGrant
  | tileReservationCommit => exact kept.execTileReservationCommit
  | tileReservationRelease => exact kept.execTileReservationRelease
  | starvationDetectorFire => exact kept.execStarvationDetectorFire
  | tmmaComplete => exact kept.execTmmaComplete
  | popQuiz => exact kept.execPopQuiz
  | messageArrival => exact kept.execMessageArrival
  | channelRefill => exact kept.execChannelRefill
  | heldMessageReoffer => exact kept.execHeldMessageReoffer
  | firingStart => exact kept.execFiringStart
  | eprioAging => exact .next kept.modCore
  | iwrHeldWriteEntry => exact kept.execIwrHeldWriteEntry
  | copyRequestStart => exact kept.execCopyRequestStart
  | copyTileAllocation => exact kept.execCopyTileAllocation
  | copyPieceCopy => exact kept.execCopyPieceCopy
  | copyPieceFill => exact kept.execCopyPieceFill
  | copyPieceZero => exact kept.execCopyPieceZero
  | copyPieceGather => exact kept.execCopyPieceGather
  | copyPieceReduce => exact kept.execCopyPieceReduce
  | reduceContributionArrival => exact kept.execReduceContributionArrival
  | combiningEntryTimeout => exact kept.execCombiningEntryTimeout
  | cprdPerform => exact kept.execCprdPerform
  | copyCompletion => exact kept.execCopyCompletion
  | barrierSweep => exact kept.execBarrierSweep
  | barrierRelease => exact kept.execBarrierRelease
  | stageBarrierDelivery => exact kept.execStageBarrierDelivery
  | barTestTimeout => exact kept.execBarTestTimeout
  | hpassArmAck => exact kept.execHpassArmAck
  | hpassTokenHop => exact kept.execHpassTokenHop
  | launchSelection => exact kept.execLaunchSelection
  | cohortBinding => exact kept.execCohortBinding
  | preemptionRequest => exact kept.execPreemptionRequest
  | launchCompletion => exact kept.execLaunchCompletion
  | mladotteCreate => exact kept.callEvent kept.callCreate
  | mladotteAddPage => exact kept.callEvent kept.callAddPage
  | mladotteExtend => exact kept.callEvent kept.callExtend
  | mladotteFinalize => exact kept.callEvent kept.callFinalize
  | mladotteEnter => exact kept.callEvent kept.callEnter
  | mladotteExit => exact kept.callEvent kept.callExit
  | mladotteDestroy => exact kept.callEvent kept.callDestroy
  | mladotteUnwrap => exact kept.callEvent kept.callUnwrap
  | mladotteReport => exact kept.callEvent kept.callReport
  | spdmRequest => exact kept.execSpdmRequest
  | egressTransaction => exact kept.execEgressTransaction
  | bucketRefill => exact .next kept.refillDue
  | signedHead => exact kept.execSignedHead
  | functionLevelReset => exact .next kept.resetFunction
  | tdispLeaveRun => exact .next (.ite kept.resetFunction.modFunc kept)
  | coldReset => exact kept.execColdReset
  | stage0Complete => exact kept.execStage0Complete
  | stage1Complete => exact kept.execStage1Complete
  | stage2Complete => exact kept.execStage2Complete
  | operatingPointUpdate => exact kept.execOperatingPointUpdate
  | thermalTrip => exact kept.execThermalTrip
  | linkTraining => exact kept.execLinkTraining
  | linkFailure => exact kept.execLinkFailure
  | peerAccessArrival => exact kept.execPeerAccessArrival
  | hostCxlMemRead => exact kept.execHostCxlMemRead
  | hostCxlMemWrite => exact kept.execHostCxlMemWrite
  | ethTransmit => exact kept.execEthTransmit
  | ethReceive => exact kept.execEthReceive
  | biasGo => exact kept.execBiasGo
  | bookackWrite => exact .next kept.bookackTo
  | booksignRequest => exact .next kept.booksignTo
  | slatenonceRead => exact kept.execSlatenonceRead
  | slatetokenSubmit => exact .next kept.tokenTo
  | islstCapWrite => exact .next (.ite kept.islstWrite kept)
  | ethTailDoorbell => exact .next (.ite kept.ringWrite kept)
  | supervisorTimerInterrupt => exact .next (.ite kept.leaveWait.takeTrap kept)
  | tdispEnterRun => exact .next (.ite (.ite kept.modFunc kept) (.ite kept.modFunc kept))
  | hostCxlCacheSnoop => exact .next (.ite kept (.ite kept.outerWrite (kept.moves (homeWrite_moves ..))))

end Sys2Proof
end

section
/-!
SUPPORT. The form of memory and of the table of harts is kept by a hart's turn.
-/
namespace Sys2Proof
open Machine

variable {s₀ s t : State}

theorem FormKept.tick {n : Nat} (kept : FormKept s₀ s) : FormKept s₀ (Machine.tick s n) := by
  unfold Machine.tick
  extract_lets slow s₁
  have kept1 : FormKept s₀ s₁ := .foldl (fun _ kept => .foldl (fun _ kept => kept.bump) kept) (.same kept)
  exact .same kept1

theorem FormKept.runDecoded {h bits : Nat} (kept : FormKept s₀ s) : OutcomeKept s₀ (Machine.runDecoded s h bits) := by
  unfold Machine.runDecoded
  split
  · exact kept.latch.exec
  · exact kept.latch.execBase
  · exact kept.latch.illegalNow

theorem FormKept.issue {h : Nat} (kept : FormKept s₀ s) : OutcomeKept s₀ (Machine.issue s h) := by
  unfold Machine.issue
  extract_lets s₁
  have kept1 : FormKept s₀ s₁ := .same kept
  split
  · exact .next kept1
  · split
    · next heq => exact .next (kept1.haltOrIntr _ heq)
    · split
      · split
        · next heq => exact .next (kept1.fetch.fst heq)
        · next heq => exact (kept1.fetch.fst heq).runDecoded
      · exact .next kept1

theorem FormKept.hartTurn {h : Nat} (kept : FormKept s₀ s) : OutcomeKept s₀ (Machine.hartTurn s h) := FormKept.issue (.ite kept.noteIssue kept)

theorem FormKept.stopped {o : Host.Outcome State Fault Refusal} (kept : FormKept s₀ s) (e : Machine.stopped s = some o) : OutcomeKept s₀ o := by
  unfold Machine.stopped at e
  split at e
  · cases e
  · split at e
    · cases e
      split
      · exact .next (.same kept)
      · exact .fault
    · split at e
      · cases e
        split
        · exact .next (.same kept)
        · exact .refused
      · cases e

/-- A step is what the stopped device does, or clocks that pass, a hart's turn, or an event of the table. -/
theorem FormKept.step (kept : FormKept s₀ s) : OutcomeKept s₀ (Machine.step s) := by
  unfold Machine.step
  split
  · next heq => exact kept.stopped heq
  · extract_lets p u
    have kept1 : FormKept s₀ u := .same kept
    split
    · exact .next kept1.tick
    · exact kept1.tick.hartTurn
    · exact .exec (.same kept1.tick)

end Sys2Proof
end

section
/-!
PROOF. O22: every step keeps the canonical form.
-/
namespace Sys2Proof
open Machine

/-- Settles O22: what a step keeps, from the state that it starts in. -/
theorem memoryFormKept : Obligations.MemoryFormKept := by
  unfold Obligations.MemoryFormKept
  intro s t hstep
  exact (FormKept.refl s).step t hstep

end Sys2Proof
end

section
/-!
SUPPORT. Reading a unit after an update of any unit of its kind, and the operations that touch some harts and cores alone.
-/
namespace Sys2Proof
open Machine

namespace Machine

theorem State.hart_modHart (s : State) (h k : Nat) (f : Hart → Hart) : (s.modHart h f).hart k = if k = h then f (s.hart h) else s.hart k :=
  SMap.get_set ..

theorem State.core_modCore (s : State) (c k : Nat) (f : Core → Core) : (s.modCore c f).core k = if k = c then f (s.core c) else s.core k :=
  SMap.get_set ..

theorem State.core_of_cores {s t : State} (h : t.cores = s.cores) (c : Nat) : t.core c = s.core c := by
  unfold State.core
  rw [h]

theorem Core.req_setReq (x : Core) (i : Nat) (r : Option CopyReq) : (x.setReq i r).req i = r := SMap.get_set_self ..

theorem State.die_modDie (s : State) (d k : Nat) (f : Die → Die) : (s.modDie d f).die k = if k = d then f (s.die d) else s.die k :=
  SMap.get_set ..

end Machine

variable {s t : State} {hs cs : List Nat}

theorem OnlyUnits.refl (s : State) (hs cs : List Nat) : OnlyUnits s s hs cs := ⟨fun _ => rfl, rfl, fun _ _ => rfl, fun _ _ => rfl⟩

theorem OnlyUnits.modHart {h : Nat} {f : Hart → Hart} (only : OnlyUnits s t hs cs) (hh : h ∈ hs) : OnlyUnits s (t.modHart h f) hs cs := by
  obtain ⟨mem, rest, harts, cores⟩ := only
  refine ⟨mem, rest, fun k hk => ?_, cores⟩
  rw [State.hart_modHart, if_neg (by rintro rfl; exact hk hh)]
  exact harts k hk

theorem OnlyUnits.modCore {c : Nat} {f : Core → Core} (only : OnlyUnits s t hs cs) (hc : c ∈ cs) : OnlyUnits s (t.modCore c f) hs cs := by
  obtain ⟨mem, rest, harts, cores⟩ := only
  refine ⟨mem, rest, harts, fun k hk => ?_⟩
  rw [State.core_modCore, if_neg (by rintro rfl; exact hk hc)]
  exact cores k hk

/-! ### A send completes -/

/-- A send buffer without an entry. -/
def Machine.Core.dropSend (x : Core) (e : SendEntry) : Core := { x with sends := x.sends.filter (·.id != e.id) }

/-- The entry leaves the sender's buffer; the sender's flag falls where it was the last of its instruction. -/
theorem sendDone_cases (s : State) (a : Nat) (e : SendEntry) : sendDone s a e = s.modCore a (·.dropSend e) ∨
    ∃ k, sendDone s a e = (s.modCore a (·.dropSend e)).modHart e.msg.sender (·.subCf k) := by
  unfold sendDone
  split
  · next k _ =>
    dsimp only
    split
    · exact .inl rfl
    · exact .inr ⟨k, rfl⟩
  · exact .inl rfl

theorem sendDone_core (s : State) (a c : Nat) (e : SendEntry) :
    (sendDone s a e).core c = if c = a then (s.core a).dropSend e else s.core c := by
  obtain h | ⟨k, h⟩ := sendDone_cases s a e
  · rw [h, State.core_modCore]
  · rw [h]
    exact State.core_modCore s a c (·.dropSend e)

theorem sendDone_mem (s : State) (a : Nat) (e : SendEntry) : (sendDone s a e).mem = s.mem := by
  obtain h | ⟨k, h⟩ := sendDone_cases s a e <;> rw [h] <;> rfl

theorem sendDone_die (s : State) (a d : Nat) (e : SendEntry) : (sendDone s a e).die d = s.die d := by
  obtain h | ⟨k, h⟩ := sendDone_cases s a e <;> rw [h] <;> rfl

theorem sendDone_hart_ne {h : Nat} {e : SendEntry} (s : State) (a : Nat) (hne : h ≠ e.msg.sender) : (sendDone s a e).hart h = s.hart h := by
  obtain e | ⟨k, e⟩ := sendDone_cases s a e
  · rw [e]
    rfl
  · rw [e, State.hart_modHart, if_neg hne]
    rfl

theorem sendDone_sends (s : State) (a : Nat) (e : SendEntry) : ((sendDone s a e).core a).sends = (s.core a).sends.filter (·.id != e.id) := by
  rw [sendDone_core, if_pos rfl]
  rfl

theorem sendDone_l1 (s : State) (a c : Nat) (e : SendEntry) : ((sendDone s a e).core c).l1 = (s.core c).l1 := by
  rw [sendDone_core]
  split
  · next h =>
    rw [h]
    rfl
  · rfl

theorem sendDone_req (s : State) (a c j : Nat) (e : SendEntry) : ((sendDone s a e).core c).req j = (s.core c).req j := by
  rw [sendDone_core]
  split
  · next h =>
    rw [h]
    rfl
  · rfl

theorem OnlyUnits.sendDone {a : Nat} {e : SendEntry} (only : OnlyUnits s t hs cs) (hs' : e.msg.sender ∈ hs) (hc : a ∈ cs) :
    OnlyUnits s (sendDone t a e) hs cs := by
  obtain h | ⟨k, h⟩ := sendDone_cases t a e
  · rw [h]
    exact only.modCore hc
  · rw [h]
    exact (only.modCore hc).modHart hs'

/-! ### An acquire of a core at scope 4 -/

theorem coreAcquire_four (s : State) (c : Nat) : coreAcquire s c 4 = l1Clear s c := rfl

theorem OnlyUnits.l1Clear {c : Nat} (only : OnlyUnits s t hs cs) (hc : c ∈ cs) : OnlyUnits s (l1Clear t c) hs cs := only.modCore hc

theorem l1Clear_core (s : State) (c : Nat) : (l1Clear s c).core c = { s.core c with l1 := [] } := State.core_modCore_self ..

end Sys2Proof
end

section
/-!
PROOF. O45: replies to fault ids, notices and the fault buffer (R40, R41, R44 to R46, R49).
-/
namespace Sys2Proof
open Machine

variable {s : State}

/-! ### Who waits for a reply -/

/-- A hart of a core that waits for the reply to a fault id. -/
def FaultWaiter (s : State) (c id h : Nat) : Prop := h / 16 = c ∧ ∃ lane va, (s.hart h).wait = .fault id lane va

/-- A hart that the search for a fault id finds waits for it. -/
theorem waits_of_faultHart {c id h lane : Nat} {va : Word} (e : faultHart s c id = some (h, lane, va)) :
    h / 16 = c ∧ (s.hart h).wait = .fault id lane va := by
  obtain ⟨g, hg, hw⟩ := List.exists_of_findSome?_eq_some e
  obtain ⟨k, hk, rfl⟩ := List.mem_map.mp hg
  have hk := List.mem_range.mp hk
  split at hw
  · next heq =>
    split at hw
    · next hid =>
      cases hw
      exact ⟨by omega, hid ▸ heq⟩
    · cases hw
  · cases hw

/-- A search that finds none passes no hart that waits. -/
theorem not_waits_of_faultHart {c id h lane : Nat} {va : Word} (e : faultHart s c id = none) (hc : h / 16 = c) :
    (s.hart h).wait ≠ .fault id lane va := by
  intro hw
  have := List.findSome?_eq_none_iff.mp e h (List.mem_map.mpr ⟨h % 16, List.mem_range.mpr (by omega), by omega⟩)
  simp [hw] at this

/-- The search finds the one hart that waits. -/
theorem faultHart_eq {c id h lane : Nat} {va : Word} (hc : h / 16 = c) (hw : (s.hart h).wait = .fault id lane va)
    (one : ∀ g, FaultWaiter s c id g → g = h) : faultHart s c id = some (h, lane, va) := by
  cases e : faultHart s c id with
  | none => exact absurd hw (not_waits_of_faultHart e hc)
  | some x =>
    obtain ⟨g, l, v⟩ := x
    obtain ⟨hg, hgw⟩ := waits_of_faultHart e
    obtain rfl := one g ⟨hg, l, v, hgw⟩
    rw [hw] at hgw
    cases hgw
    rfl

theorem faultHart_none {c id : Nat} (none' : ∀ h, ¬ FaultWaiter s c id h) : faultHart s c id = none := by
  cases e : faultHart s c id with
  | none => rfl
  | some x =>
    obtain ⟨hg, hgw⟩ := waits_of_faultHart e
    exact absurd ⟨hg, _, _, hgw⟩ (none' x.1)

/-! ### What an arrival consumes -/

theorem arriving_eq {e : SendEntry} (he : (s.core s.ev.a).sends[s.ev.b]? = some e)
    (first : ∀ x ∈ (s.core s.ev.a).sends.take s.ev.b, ¬ (mCore x.msg.hdr = mCore e.msg.hdr ∧ mCh x.msg.hdr = mCh e.msg.hdr)) :
    arriving s = some e := by
  unfold arriving
  simp only [he]
  rw [if_neg]
  intro h
  obtain ⟨x, hx, hxe⟩ := List.any_eq_true.mp h
  exact first x hx (by simpa using hxe)

theorem replyKind_eq {m : Message} {w : Word} {ws : List Word} (hw : m.words = w :: ws) (h0 : fld w 26 38 = 0) : replyKind m = fld w 16 2 := by
  unfold replyKind
  rw [hw]
  exact if_neg fun h => h h0

/-- The instructions by which a channel-63 message of a kind is consumed (R44). -/
def consumers : Nat → List Instr
  | 0 => [.faultReplyRetry, .messageArrival]
  | 1 => [.faultReplyFatal, .messageArrival]
  | _ => [.notice, .messageArrival]

theorem runs_consume63 {e : SendEntry} {k : Nat} {i : Instr} (he : arriving s = some e) (hch : mCh e.msg.hdr = 63) (hk : replyKind e.msg = k)
    (hk2 : k ≤ 2) (hi : i ∈ consumers k) : Runs i s (consume63 s s.ev.a e) := by
  have arrives : ∀ k, replyKind e.msg = k → arrive63 k s = consume63 s s.ev.a e := by
    intro k hk
    unfold arrive63
    simp only [he]
    exact if_pos ⟨hch, hk⟩
  have messages : exec .messageArrival s = .next (consume63 s s.ev.a e) := by
    rw [exec_messageArrival]
    unfold execMessageArrival
    simp only [he, hch]
    rfl
  obtain rfl | rfl | rfl : k = 0 ∨ k = 1 ∨ k = 2 := by omega
  all_goals
    obtain rfl | rfl := by simpa [consumers] using hi
    · exact congrArg Host.Outcome.next (arrives _ hk)
    · exact messages

/-! ### Retries -/

/-- A retry lets the one waiting hart go on, past an acquire of its core. -/
theorem retry_hart {a c id h : Nat} {e : SendEntry} (wait : FaultWaiter s c id h)
    (one : ∀ g, FaultWaiter s c id g → g = h) (hne : h ≠ e.msg.sender) :
    let t := sendDone (replyRetry s c id) a e
    OnlyUnits s t [h, e.msg.sender] [a, c] ∧ (t.core a).sends = (s.core a).sends.filter (·.id != e.id) ∧
      t.hart h = { s.hart h with wait := .ready } ∧ (t.core c).l1 = [] := by
  obtain ⟨hc, lane, va, hw⟩ := wait
  have retry : replyRetry s c id = (l1Clear s c).modHart h fun x => { x with wait := .ready } := by
    unfold replyRetry
    rw [faultHart_eq hc hw one]
    rfl
  have core : ∀ k, ((l1Clear s c).modHart h fun x => { x with wait := .ready }).core k = (l1Clear s c).core k := fun _ => rfl
  have only : OnlyUnits s (replyRetry s c id) [h, e.msg.sender] [a, c] := by
    rw [retry]
    exact ((OnlyUnits.refl ..).l1Clear (by simp)).modHart (by simp)
  refine ⟨only.sendDone (by simp) (by simp), ?_, ?_, ?_⟩
  · rw [sendDone_sends, retry, core, l1Clear, State.core_modCore]
    split
    · next h => rw [h]
    · rfl
  · rw [sendDone_hart_ne _ _ hne, retry, State.hart_modHart, if_pos rfl]
    rfl
  · rw [sendDone_l1, retry, core, l1Clear_core]

/-- A retry lets the parked copy go on at the parked piece, or at its handle write. -/
theorem retry_copy {a c id j : Nat} {e : SendEntry} {r : CopyReq} (none' : ∀ h, ¬ FaultWaiter s c id h)
    (copy : faultCopy s c id = some (j, r)) (hr : (s.core c).req j = some r) :
    let t := sendDone (replyRetry s c id) a e
    OnlyUnits s t [e.msg.sender] [a, c] ∧ (t.core a).sends = (s.core a).sends.filter (·.id != e.id) ∧ (t.core c).l1 = [] ∧
      (t.core c).req j = some { r with st := if r.code ≠ 0 ∨ r.off = r.total then .ended else (s.core c).atWork } := by
  have retry : replyRetry s c id = modReq (l1Clear s c) c j fun r' =>
      { r' with st := if r.code ≠ 0 ∨ r.off = r.total then .ended else (s.core c).atWork } := by
    unfold replyRetry
    rw [faultHart_none none']
    simp only [copy]
    rfl
  have req : ((l1Clear s c).core c).req j = some r := by
    rw [l1Clear_core]
    exact hr
  have only : OnlyUnits s (replyRetry s c id) [e.msg.sender] [a, c] := by
    rw [retry]
    exact ((OnlyUnits.refl ..).l1Clear (by simp)).modCore (by simp)
  refine ⟨only.sendDone (by simp) (by simp), ?_, ?_, ?_⟩
  · rw [sendDone_sends, retry, modReq, l1Clear, State.core_modCore, State.core_modCore, State.core_modCore]
    by_cases h : a = c
    · subst h
      simp [Core.setReq]
    · simp [h]
  · rw [sendDone_l1, retry, modReq, State.core_modCore, if_pos rfl, l1Clear_core]
    rfl
  · rw [sendDone_req, retry, modReq, State.core_modCore, if_pos rfl, req]
    exact Core.req_setReq ..

/-! ### Fatal replies -/

/-- A fatal reply is cause 24 on the one waiting hart, with `kflane` (R45). -/
theorem fatal_hart {a c id detail h lane : Nat} {va : Word} {e : SendEntry} (hc : h / 16 = c) (hw : (s.hart h).wait = .fault id lane va)
    (one : ∀ g, FaultWaiter s c id g → g = h) (hne : h ≠ e.msg.sender) :
    let t := sendDone (replyFatal s c id detail) a e
    OnlyUnits s t [h, e.msg.sender] [a] ∧ (t.core a).sends = (s.core a).sends.filter (·.id != e.id) ∧
      t.hart h = ({ s.hart h with k := { (s.hart h).k with kflane := BitVec.ofNat 16 (detail * 256 + lane) } } : Hart).enter false 24 va := by
  have fatal : replyFatal s c id detail = fatalFault s h va detail lane := by
    unfold replyFatal
    rw [faultHart_eq hc hw one]
  have only : OnlyUnits s (replyFatal s c id detail) [h, e.msg.sender] [a] := by
    rw [fatal]
    exact ((OnlyUnits.refl ..).modHart (by simp)).modHart (by simp)
  refine ⟨only.sendDone (by simp) (by simp), ?_, ?_⟩
  · rw [sendDone_sends, fatal]
    rfl
  · rw [sendDone_hart_ne _ _ hne, fatal, fatalFault, takeTrap, State.hart_modHart, if_pos rfl, State.hart_modHart, if_pos rfl]

theorem dropSource_keeps (s : State) (r : CopyReq) (count : Bool) :
    (dropSource s r count).mem = s.mem ∧ (dropSource s r count).cores = s.cores := by
  unfold dropSource
  split
  · exact ⟨rfl, rfl⟩
  · split
    · exact ⟨rfl, rfl⟩
    · dsimp only
      split
      · unfold consume
        dsimp only
        split <;> exact ⟨rfl, rfl⟩
      · exact ⟨rfl, rfl⟩

/-- A fatal reply ends the parked copy with FAULT where it stopped (R46). -/
theorem fatal_copy {a c id detail j : Nat} {e : SendEntry} {r : CopyReq}
    (none' : ∀ h, ¬ FaultWaiter s c id h)
    (copy : faultCopy s c id = some (j, r)) (hr : (s.core c).req j = some r) :
    let t := sendDone (replyFatal s c id detail) a e
    SameMemory s t ∧ (t.core a).sends = (s.core a).sends.filter (·.id != e.id) ∧
      (t.core c).req j = some { r with st := .ended, code := 2, detail := 0, res := false } := by
  obtain ⟨hmem, hcores⟩ := dropSource_keeps s r ((2 : Nat) == 0 || ((2 : Nat) != 1 && r.off != 0))
  have fatal : replyFatal s c id detail = modReq (dropSource s r ((2 : Nat) == 0 || ((2 : Nat) != 1 && r.off != 0))) c j
      fun x => { x with st := .ended, code := 2, detail := 0, off := r.off, res := false } := by
    unfold replyFatal
    rw [faultHart_none none']
    simp only [copy]
    unfold endReq
    rw [hr]
    rfl
  generalize dropSource s r _ = u at hmem hcores fatal
  have core := State.core_of_cores hcores
  refine ⟨fun x => ?_, ?_, ?_⟩
  · rw [rawByte, sendDone_mem, fatal]
    exact congrArg (fun m => SMap.get 0 m x) hmem
  · rw [sendDone_sends, fatal, modReq, State.core_modCore, core]
    split
    · next h =>
      rw [h]
      rfl
    · rw [core]
  · rw [sendDone_req, fatal, modReq, State.core_modCore, if_pos rfl, core, hr]
    exact Core.req_setReq ..

/-! ### Notices -/

/-- A notice whose turn it is enters the fault buffer of the die, where there is room. -/
theorem notice_enters {a c : Nat} {e : SendEntry} {w : Word} {ws : List Word} (hc : c % 64 = 0) (hw : e.msg.words = w :: ws)
    (turn : ((s.core c).chan 63).held = [] ∨ ((s.core c).chan 63).held.head? = some (.send a e.id)) (room : (s.die (c / 64)).buf.length < 512) :
    let t := takeNotice s c a e
    SameMemory s t ∧ (t.core a).sends = (s.core a).sends.filter (·.id != e.id) ∧
      (t.die (c / 64)).buf = (s.die (c / 64)).buf ++ [{ w0 := w, w1 := word (coreOf e.msg.sender * 2 ^ 16 + hartNo e.msg.sender * 2 ^ 25)
                                                        w2 := nth 0 e.msg.words 1, w3 := nth 0 e.msg.words 2, taint := e.msg.taint }] := by
  have takes : takeNotice s c a e =
      sendDone ((unhold s c 63 (.send a e.id)).modDie (c / 64) fun x => { x with buf := x.buf ++ [noticeReport e.msg] }) a e := by
    unfold takeNotice
    rw [if_neg (by omega), if_pos ⟨by simpa using turn, room⟩]
    rfl
  have core : ∀ u : State, ((u.modDie (c / 64) fun x => { x with buf := x.buf ++ [noticeReport e.msg] }).core a) = u.core a := fun _ => rfl
  refine ⟨fun x => ?_, ?_, ?_⟩
  · rw [takes, rawByte, sendDone_mem]
    rfl
  · rw [takes, sendDone_sends, core, unhold, State.core_modCore]
    split
    · next h =>
      rw [h]
      rfl
    · rfl
  · rw [takes, sendDone_die, State.die_modDie, if_pos rfl, noticeReport, hw]
    rfl

/-- Else it joins the held ones, and the fault buffer waits. -/
theorem notice_waits {a c : Nat} {e : SendEntry} (hc : c % 64 = 0)
    (wait : ¬ ((((s.core c).chan 63).held = [] ∨ ((s.core c).chan 63).held.head? = some (.send a e.id)) ∧ (s.die (c / 64)).buf.length < 512)) :
    let t := takeNotice s c a e
    let q := ((s.core c).chan 63).held
    OnlyUnits s t [] [c] ∧ ((t.core c).chan 63).held = (if .send a e.id ∈ q then q else q ++ [.send a e.id]) ∧
      (t.core a).sends = (s.core a).sends := by
  have holds : takeNotice s c a e = hold s c 63 (.send a e.id) := by
    unfold takeNotice
    exact (if_neg (by omega)).trans (if_neg (by simpa [dieOfCore] using wait))
  rw [holds]
  refine ⟨(OnlyUnits.refl ..).modCore (by simp), ?_, ?_⟩
  · rw [hold, State.core_modCore, if_pos rfl, Core.chan, Core.modChan, SMap.get_set_self]
    simp only [List.contains_iff_mem]
    split
    · rfl
    · rfl
  · rw [hold, State.core_modCore]
    split
    · next h =>
      rw [h]
      rfl
    · rfl

/-! ### The fault buffer -/

/-- A report in i0 to i3 of a service hart (R40). -/
def Machine.Hart.takeReport (x : Hart) (r : Report) : Hart :=
  (((x.fillInbox 0 r.w0 { taint := r.taint, notice := fld r.w1 0 8 == 0 }).fillInbox 1 r.w1 { taint := r.taint }).fillInbox 2 r.w2
    { taint := r.taint }).fillInbox 3 r.w3 { taint := r.taint }

theorem takeReport_present (x : Hart) (r : Report) : (x.takeReport r).present = x.present ||| 0x0F := by
  simp only [Hart.takeReport, Hart.fillInbox, Hart.dirtyXs, Hart.setXs, BitVec.or_assoc]
  rfl

theorem takeReport_inbox (x : Hart) (r : Report) (k : Nat) : (x.takeReport r).inbox.get 0 k =
    if k = 0 then r.w0 else if k = 1 then r.w1 else if k = 2 then r.w2 else if k = 3 then r.w3 else x.inbox.get 0 k := by
  simp only [Hart.takeReport, Hart.fillInbox, Hart.dirtyXs, Hart.setXs, SMap.get_set]
  rcases k with _ | _ | _ | _ | k <;> simp

/-- A delivery moves the oldest entry of a die's fault buffer into i0 to i3 of its service hart (R40). -/
theorem delivery_runs {r : Report} {rest : List Report} (buf : (s.die s.ev.a).buf = r :: rest)
    (free : (s.hart (s.ev.a * 1024 + 15)).present &&& 0x0F = 0) :
    ∃ t, Runs .faultBufferDelivery s t ∧ SameMemory s t ∧ (t.die s.ev.a).buf = rest ∧ t.cores = s.cores ∧
      (∀ g, g ≠ s.ev.a * 1024 + 15 → t.hart g = s.hart g) ∧
      (t.hart (s.ev.a * 1024 + 15)).present = (s.hart (s.ev.a * 1024 + 15)).present ||| 0x0F ∧
      ∀ k, (t.hart (s.ev.a * 1024 + 15)).inbox.get 0 k = if k = 0 then r.w0 else if k = 1 then r.w1 else if k = 2 then r.w2 else if k = 3 then r.w3
        else (s.hart (s.ev.a * 1024 + 15)).inbox.get 0 k := by
  have hart : ((s.modDie s.ev.a fun x => { x with buf := rest }).modHart (s.ev.a * 1024 + 15) (·.takeReport r)).hart (s.ev.a * 1024 + 15) =
      (s.hart (s.ev.a * 1024 + 15)).takeReport r := SMap.get_set_self ..
  refine ⟨(s.modDie s.ev.a fun x => { x with buf := rest }).modHart (s.ev.a * 1024 + 15) (·.takeReport r), ?_, fun _ => rfl, ?_, rfl,
    fun g hg => ?_, ?_, fun k => ?_⟩
  · rw [Runs, exec_faultBufferDelivery, execFaultBufferDelivery]
    simp only [buf]
    exact if_neg fun h => h free
  · exact congrArg Die.buf (SMap.get_set_self ..)
  · exact SMap.get_set_ne _ _ _ hg
  · rw [hart, takeReport_present]
  · rw [hart, takeReport_inbox]

/-- A held report follows where the buffer has room (R49). -/
theorem heldReport_posts {i : Nat} {r : Report} {rest : List Report} (room : (s.die s.ev.a).buf.length < 512)
    (found : searchUp 64 (s.die s.ev.a).lastHeld (fun j => !(s.core (64 * s.ev.a + j)).heldReports.isEmpty) = some i)
    (held : (s.core (64 * s.ev.a + i)).heldReports = r :: rest) :
    ∃ t, Runs .heldReportPost s t ∧ SameMemory s t ∧ t.harts = s.harts ∧ (t.die s.ev.a).buf = (s.die s.ev.a).buf ++ [r] ∧
      (t.core (64 * s.ev.a + i)).heldReports = rest ∧ (t.die s.ev.a).lastHeld = i := by
  refine ⟨(s.modCore (64 * s.ev.a + i) fun x => { x with heldReports := rest }).modDie s.ev.a fun x =>
    { x with buf := x.buf ++ [r], lastHeld := i },
    ?_, fun _ => rfl, rfl, ?_, ?_, ?_⟩
  · rw [Runs, exec_heldReportPost, execHeldReportPost]
    simp only [found, held]
    exact if_neg (by omega)
  · exact congrArg Die.buf (SMap.get_set_self ..)
  · exact congrArg Core.heldReports (SMap.get_set_self ..)
  · exact congrArg Die.lastHeld (SMap.get_set_self ..)

/-- Settles O45: each reply by what waits on its id, a notice by its turn and the room of the buffer. -/
theorem faultReplies : Obligations.FaultReplies := by
  unfold Obligations.FaultReplies
  refine ⟨fun s e w ws i he hch first hw h0 => ?_, fun s => ⟨fun r rest => delivery_runs, fun i r rest => heldReport_posts⟩⟩
  extract_lets c id gone waits
  have arrives : arriving s = some e := arriving_eq he fun x hx => hch ▸ first x hx
  have kind := replyKind_eq hw h0
  have word0 : nth 0 e.msg.words 0 = w := by
    rw [hw]
    rfl
  refine ⟨fun hk hi => ?_, fun hk hi => ?_, fun hk hi => ?_⟩
  · have runs : Runs i s (sendDone (replyRetry s c id) s.ev.a e) := by
      have := runs_consume63 (i := i) arrives hch (kind.trans hk) (by omega) (by simpa [consumers] using hi)
      rwa [consume63, kind, hk, word0] at this
    exact ⟨fun h hwait one hne => ⟨_, runs, retry_hart hwait one hne⟩, fun j r none' copy hr => ⟨_, runs, retry_copy none' copy hr⟩⟩
  · have runs : Runs i s (sendDone (replyFatal s c id (fld w 18 8)) s.ev.a e) := by
      have := runs_consume63 (i := i) arrives hch (kind.trans hk) (by omega) (by simpa [consumers] using hi)
      rwa [consume63, kind, hk, word0] at this
    exact ⟨fun h lane va hc hwait one hne => ⟨_, runs, fatal_hart hc hwait one hne⟩,
      fun j r none' copy hr => ⟨_, runs, fatal_copy none' copy hr⟩⟩
  · have runs : Runs i s (takeNotice s c s.ev.a e) := by
      have := runs_consume63 (i := i) arrives hch (kind.trans hk) (by omega) (by simpa [consumers] using hi)
      rwa [consume63, kind, hk] at this
    refine ⟨fun hc => ⟨_, runs, ?_⟩, fun hc turn room => ⟨_, runs, notice_enters hc hw turn room⟩,
      fun hc wait => ⟨_, runs, notice_waits hc wait⟩⟩
    rw [takeNotice, if_pos hc]
    exact ⟨(OnlyUnits.refl ..).sendDone (by simp) (by simp), sendDone_sends ..⟩

end Sys2Proof
end

section
/-!
PROOF. O50 fails: a table of dies that lists one die twice.
-/
namespace Sys2Proof
open Machine

/-- Function 0 invalidates all its pages with FLUSH. Die 0 is listed twice: the listing that is read holds a line of the function in its L2, the one behind it a
reduce contribution under way that was translated for the function. -/
def dieListedTwice : State :=
  { funcs := [(0, { ktinvGo := true, ktinvRun := 0x6000000000000000 })]
    dies := [(0, { l2 := [(0, some {})] }), (0, { transit := [{ parts := [{}] }] })] }

/-- The flush writes die 0 back, which leaves one listing at most: no contribution is found under way, and GO clears. -/
theorem go_clears_of_dieListedTwice {t : State} (run : Runs .invalidationComplete dieListedTwice t) : (t.func 0).ktinvGo = false := by
  cases run
  decide

/-- Refutes O50: GO is said to stay while a contribution under way is listed in the table of dies, and a table that lists a die twice loses the listing with
the contribution where the flush takes a line out of that die's L2. No table in canonical form lists a key twice, but the statement is about every state. -/
theorem not_invalidationAndBias : ¬ Obligations.InvalidationAndBias := by
  unfold Obligations.InvalidationAndBias
  intro h
  obtain ⟨invalidates, _⟩ := h
  obtain ⟨_, completes, _⟩ := invalidates dieListedTwice
  obtain ⟨t, run, _, _, _, stays, _⟩ := completes.2 rfl
  have func := stays ⟨_, .tail _ (.head _), _, .inl (.head _), by decide⟩
  have go := go_clears_of_dieListedTwice run
  rw [show t.func 0 = dieListedTwice.func 0 from func] at go
  exact absurd go (by decide)

end Sys2Proof
end

section
/-!
PROOF. O41 fails: a two-dimensional gather at work whose offset has reached its end.
-/
namespace Sys2Proof
open Machine

/-- A gather of one row of one byte, two-dimensional, still at work with its one byte moved. -/
def gatherAtEnd : CopyReq := { w2 := 1, w3 := 0x1003, off := 1, st := .working }

/-- The gather in slot 0 of core 0. -/
def gatherAtEndState : State := { cores := [(0, { fifo := [(0, some gatherAtEnd)] })] }

/-- Of the last row a whole row counts as left once the offset stands at the row's end, though nothing of the whole is left. -/
theorem left_lt_pieceSize_gatherAtEnd : gatherAtEnd.total - gatherAtEnd.off < pieceSize gatherAtEnd := by decide

/-- Refutes O41: the gather clause bounds a piece by what is left of the whole for every request at work, but the size of a two-dimensional piece comes from
what is left of its row alone, which at the end of the last row is the row's length again. The engine ends such a request before it moves a piece; the
clause does not ask for an offset below the total, as the clauses on the other kinds do. -/
theorem not_copyPieces : ¬ Obligations.CopyPieces := by
  unfold Obligations.CopyPieces
  intro h
  obtain ⟨_, _, _, _, bounds, _⟩ := h gatherAtEndState {} {} {} gatherAtEnd {} [] {} rfl rfl
  obtain ⟨_, within, _⟩ := bounds rfl rfl
  exact absurd within (Nat.not_le.mpr left_lt_pieceSize_gatherAtEnd)

end Sys2Proof
end

section
/-!
PROOF. O13 fails: the report that a failed lane access posts names its hart.
-/
namespace Sys2Proof
open Machine

/-- A word load by lane number from x10. -/
def loadAtX10 : L64 := { a := 10, ib := 1 }

/-- Hart 1 of core 0 in U mode under translation, with lane 0 active and an address in x10 that is not canonical. -/
def badAddressState : State :=
  { cur := 1, harts := [(1, { priv := .u, csr := { satpMode := 15 }, m := [(0, 1)], x := [(10, 0x8000000000000000)] })] }

/-- The one piece of its load. -/
def badPiece : Seg := { va := 0x8000000000000000, at_ := 0x8000000000000000, n := 4 }

/-- The check of the piece fails at once, in the state as it was. -/
theorem placeAll_badAddress :
    placeAll (laneWho badAddressState loadAtX10) .lane .rd false false (laneSegs (accsOf badAddressState loadAtX10) 4) badAddressState =
      (badAddressState, .error ({ kind := 7 }, badPiece)) := by
  decide

/-- The report in the fault buffer comes from hart 1 (R49). -/
theorem who_postFault_badAddress :
    ((postFault badAddressState 1 { kind := 7 } 0 0 0 0x8000000000000000).die 0).buf.map (·.who) = [1] := by
  decide

/-- Refutes O13: the report that the last clause writes out leaves its field `who` at the default, which names hart 0 of the core, while the report that
the model posts names the hart that it comes from (log 79); the hart here is hart 1 of its core. -/
theorem not_laneAccessFails : ¬ Obligations.LaneAccessFails := by
  unfold Obligations.LaneAccessFails
  intro h
  obtain ⟨_, _, posts⟩ := h.2 badAddressState badAddressState badAddressState loadAtX10 (.lldW loadAtX10) 4 false .rd 0 _ _ _ _
    (.inl ⟨false, by simp [loadForms], rfl, rfl, rfl, rfl, rfl, rfl⟩) (by decide) (by decide) (.inl rfl) (by decide) placeAll_badAddress
  obtain ⟨id, _, _, queued⟩ := posts (by decide) (by decide)
  have who := congrArg (List.map (·.who)) (queued (by decide) rfl)
  exact absurd (who_postFault_badAddress.symm.trans who : [1] = [0]) (by decide)

end Sys2Proof
end

section
/-!
PROOF. O49 fails: a table of clusters that lists one cluster twice.
-/
namespace Sys2Proof
open Machine

/-- Slab 0 of cluster 0, in pool mode, drains towards cache mode; its slot 0 is open. -/
def drainingCluster : Cluster := { modes := [(0, 3)], slabGo := true, slabStatus := 1, slabPhase := 1, slots := [(0, { st := .opened })] }

/-- A table of clusters that lists the draining cluster twice. -/
def clusterListedTwice : State := { clusters := [(0, drainingCluster), (0, drainingCluster)] }

/-- The event writes the cluster back, which leaves one listing of it. -/
theorem one_listing_of_drain {t : State} (run : Runs .slabDrainComplete clusterListedTwice t) : t.clusters = [(0, drainingCluster)] := by
  cases run
  decide

/-- Refutes O49: the drain of a slab that still holds something is said to leave the very state that it started in, but the event writes the cluster's record
back as it was, and a table that lists a cluster twice loses the second listing. No table in canonical form lists a key twice, but the statement is about
every state. -/
theorem not_slabsAndPartitions : ¬ Obligations.SlabsAndPartitions := by
  unfold Obligations.SlabsAndPartitions
  intro h
  obtain ⟨_, drains, _⟩ := h.1 clusterListedTwice 0
  obtain ⟨_, _, undrained, _⟩ := drains rfl
  have stays := undrained rfl rfl (by decide) fun drained => absurd (drained.2.2 (by decide) 0 (by decide)) (by decide)
  exact absurd (one_listing_of_drain stays) (by decide)

end Sys2Proof
end

section
/-!
SUPPORT. The scratch of a class (R71, R75): what a store of bytes leaves there.
-/
namespace Sys2Proof
open Machine

/-- A byte of scratch at its offset, as a cell at that place. -/
def scratchCell (x : Nat × Byte) : PCell := { pa := x.1, key := 0, val := x.2 }

theorem map_scratchCell (off : Nat) (bs : List Byte) : (scratchCells off bs).map scratchCell = cellsOf off 0 bs := by
  unfold scratchCells cellsOf
  rw [List.map_map]
  rfl

/-- The last byte that a store names at an offset, or what was there. -/
theorem lastAt_scratchCell (bs : List (Nat × Byte)) (o : Nat) (b : Byte) :
    lastAt (bs.map scratchCell) o b = match bs.reverse.find? fun x => x.1 == o with
      | some x => x.2
      | none => b := by
  unfold lastAt
  rw [← List.map_reverse, List.find?_map]
  show (match (bs.reverse.find? fun x => x.1 == o).map scratchCell with | some c => c.val | none => b) = _
  cases bs.reverse.find? fun x => x.1 == o <;> rfl

/-- A byte of scratch after a store: the last byte stored at its offset, or what was there. -/
theorem scr_putScratch (c : ClassRec) (bs : List (Nat × Byte)) (o : Nat) :
    (c.putScratch bs).scr.get 0 o = lastAt (bs.map scratchCell) o (c.scr.get 0 o) := by
  rw [← get_foldl_cells, List.foldl_map]
  rfl

/-- A store names every byte of a word. -/
def wholeWord (bs : List (Nat × Byte)) (o : Nat) : Bool := (List.range 4).all fun j => bs.any fun x => x.1 == 4 * o + j

/-- A word of which a store names every byte is one of the words that it names. -/
theorem mem_words_of_wholeWord {bs : List (Nat × Byte)} {o : Nat} (h : wholeWord bs o = true) : o ∈ (bs.map fun x => x.1 / 4).eraseDups := by
  obtain ⟨x, hx, he⟩ := List.any_eq_true.1 (List.all_eq_true.1 h 0 (by simp))
  have he : x.1 = 4 * o + 0 := by simpa using he
  exact List.mem_eraseDups.2 (List.mem_map.2 ⟨x, hx, by omega⟩)

theorem get_foldl_clear (p : Nat → Bool) (ws : List Nat) (m : SMap Bool) (o : Nat) :
    (ws.foldl (fun m w => if p w then SMap.set false m w false else m) m).get false o = (m.get false o && !(ws.contains o && p o)) := by
  induction ws generalizing m with
  | nil => simp
  | cons w ws ih =>
    rw [List.foldl_cons, ih]
    by_cases hp : p w = true
    · by_cases ho : o = w
      · subst ho
        simp [hp]
      · simp [hp, SMap.get_set_ne false m false ho, ho]
    · by_cases ho : o = w
      · subst ho
        simp [hp]
      · simp [hp, ho]

/-- A store ends the poison of the words that it writes whole (R71). -/
theorem scrPsn_putScratch (c : ClassRec) (bs : List (Nat × Byte)) (o : Nat) :
    (c.putScratch bs).scrPsn.get false o = (c.scrPsn.get false o && !wholeWord bs o) := by
  refine (get_foldl_clear (wholeWord bs) _ _ _).trans ?_
  by_cases h : wholeWord bs o = true
  · simp [h, mem_words_of_wholeWord h]
  · simp [h]

theorem putScratch_frame (c : ClassRec) (bs : List (Nat × Byte)) : { c.putScratch bs with scr := c.scr, scrPsn := c.scrPsn } = c := rfl

/-- Consecutive bytes stored read back. -/
theorem scratch_putScratch (c : ClassRec) (off : Nat) (bs : List Byte) : (c.putScratch (scratchCells off bs)).scratch off bs.length = bs := by
  apply List.ext_getElem
  · simp [ClassRec.scratch]
  · intro i _ h
    simp only [ClassRec.scratch, List.getElem_map, List.getElem_range]
    rw [scr_putScratch, map_scratchCell, lastAt_cellsOf _ _ _ _ h]

/-- Bytes outside those stored stand. -/
theorem scr_putScratch_ne (c : ClassRec) {off o : Nat} {bs : List Byte} (h : o < off ∨ off + bs.length ≤ o) :
    (c.putScratch (scratchCells off bs)).scr.get 0 o = c.scr.get 0 o := by
  rw [scr_putScratch, map_scratchCell]
  refine lastAt_none (fun x hx => ?_) _
  obtain ⟨-, h1, h2⟩ := mem_cellsOf hx
  omega

theorem any_scratchCells (off a : Nat) (bs : List Byte) :
    ((scratchCells off bs).any fun x => x.1 == a) = decide (off ≤ a ∧ a < off + bs.length) := by
  rw [Bool.eq_iff_iff, List.any_eq_true, decide_eq_true_iff]
  unfold scratchCells
  constructor
  · rintro ⟨x, hx, he⟩
    obtain ⟨⟨b, i⟩, hm, rfl⟩ := List.mem_map.1 hx
    have := List.mem_zipIdx hm
    have he : off + i = a := by simpa using he
    omega
  · rintro ⟨h1, h2⟩
    refine ⟨(off + (a - off), bs[a - off]'(by omega)), List.mem_map.2 ⟨(bs[a - off]'(by omega), a - off), ?_, rfl⟩, ?_⟩
    · exact List.mk_mem_zipIdx_iff_getElem?.2 (List.getElem?_eq_getElem _)
    · simp
      omega

/-- Aligned words stored are the words named whole. -/
theorem wholeWord_scratchCells {off n : Nat} {bs : List Byte} (hl : bs.length = n) (ho : off % 4 = 0) (hn : n % 4 = 0) (o : Nat) :
    wholeWord (scratchCells off bs) o = decide (off ≤ 4 * o ∧ 4 * o < off + n) := by
  rw [Bool.eq_iff_iff, decide_eq_true_iff]
  simp only [wholeWord, any_scratchCells, List.all_eq_true, List.mem_range, decide_eq_true_iff, hl]
  constructor
  · intro h
    simpa using h 0 (by decide)
  · intro h j hj
    omega

/-! ### The classes -/

theorem Machine.State.cls_modCls (s : State) (k j : Nat) (f : ClassRec → ClassRec) : (s.modCls k f).cls j = if j = k then f (s.cls k) else s.cls j :=
  SMap.get_set ..

end Sys2Proof
end

section
/-!
SUPPORT. Lane loads and stores of scratch (R76, R232, R235): the registers that loaded bytes leave, and the checks that pass.
-/
namespace Sys2Proof
open Machine

/-! ### Loaded registers -/

/-- The 32-bit element of register m that n loaded bytes leave, where d is the first register (R184, R232). -/
def loadedElem (d n : Nat) (sg : Bool) (bs : List Byte) (m : Nat) : Elem :=
  if n < 4 then (if sg then (sext (leWord bs) (8 * n)).setWidth 32 else BitVec.ofNat 32 (leToNat bs))
  else BitVec.ofNat 32 (leToNat ((bs.drop (4 * (m - d))).take 4))

theorem getV_foldl_setV (d : Nat) {k l : Nat} (hk : k < 32) (hl : l < 32) (g : Nat → Elem) (count m : Nat) (h : Hart) :
    ((List.range count).foldl (fun x i => x.setV (d + i) k (g i)) h).getV m l =
      if l = k ∧ d ≤ m ∧ m < d + count then g (m - d) else h.getV m l := by
  induction count with
  | zero => simp
  | succ count ih =>
    rw [List.range_succ, List.foldl_append, List.foldl_cons, List.foldl_nil, Hart.getV_setV _ _ hk hl, ih]
    by_cases hm : m = d + count ∧ l = k
    · obtain ⟨rfl, rfl⟩ := hm
      simp
    · rw [if_neg hm]
      exact if_congr (by omega) rfl rfl

/-- The bytes of one lane change its elements of the destination registers alone. -/
theorem getV_putBytes (h : Hart) (d n : Nat) (sg : Bool) (bs : List Byte) {k l m : Nat} (hk : k < 32) (hl : l < 32) :
    (h.putBytes d k n sg bs).getV m l = if l = k ∧ d ≤ m ∧ m < d + max 1 (n / 4) then loadedElem d n sg bs m else h.getV m l := by
  unfold Hart.putBytes loadedElem
  by_cases hn : n < 4
  · rw [if_pos hn, if_pos hn, Hart.getV_setV _ _ hk hl, BitVec.ofNat_toNat]
    exact if_congr (by omega) rfl rfl
  · rw [if_neg hn, if_neg hn, getV_foldl_setV d hk hl]
    exact if_congr (by omega) rfl rfl

/-- The bytes of some lanes change the elements of those lanes alone. -/
theorem getV_foldl_putBytes (d n : Nat) (sg : Bool) (bytes : Nat → List Byte) {l m : Nat} (hl : l < 32) (ls : List Nat) (hls : ∀ k ∈ ls, k < 32)
    (h : Hart) :
    (ls.foldl (fun x k => x.putBytes d k n sg (bytes k)) h).getV m l =
      if l ∈ ls ∧ d ≤ m ∧ m < d + max 1 (n / 4) then loadedElem d n sg (bytes l) m else h.getV m l := by
  induction ls generalizing h with
  | nil => simp
  | cons k ls ih =>
    rw [List.foldl_cons, ih (fun j hj => hls j (List.mem_cons_of_mem _ hj)), getV_putBytes _ _ _ _ _ (hls k List.mem_cons_self) hl]
    by_cases e : l = k
    · subst e
      by_cases hm : d ≤ m ∧ m < d + max 1 (n / 4) <;> simp [hm]
    · simp [e]

theorem putBytes_frame (h : Hart) (d k n : Nat) (sg : Bool) (bs : List Byte) (v : SMap Elem) :
    { h.putBytes d k n sg bs with v := v } = { h with v := v } := by
  unfold Hart.putBytes
  split
  · rfl
  · generalize List.range (n / 4) = is
    induction is generalizing h with
    | nil => rfl
    | cons i is ih =>
      rw [List.foldl_cons, ih]
      rfl

theorem foldl_putBytes_frame (d n : Nat) (sg : Bool) (bytes : Nat → List Byte) (ls : List Nat) (h : Hart) (v : SMap Elem) :
    { ls.foldl (fun x k => x.putBytes d k n sg (bytes k)) h with v := v } = { h with v := v } := by
  induction ls generalizing h with
  | nil => rfl
  | cons k ls ih => rw [List.foldl_cons, ih, putBytes_frame]

/-- The hart of a lane load that completes. -/
def Machine.Hart.loaded (h : Hart) (f : L64) (n : Nat) (sg : Bool) (bytes : Nat → List Byte) : Hart :=
  ((activeLanes h f).foldl (fun x l => x.putBytes f.d.toNat l n sg (bytes l)) h).dirtyXs.done

theorem loadElems_loaded (h : Hart) (f : L64) (n : Nat) (sg : Bool) (bytes : Nat → List Byte) : LoadElems h (h.loaded f n sg bytes) f n sg bytes := by
  intro m l hl
  have hv : (h.loaded f n sg bytes).getV m l =
      ((activeLanes h f).foldl (fun x l => x.putBytes f.d.toNat l n sg (bytes l)) h).getV m l := by
    simp [Hart.getV, Hart.loaded]
  rw [hv, getV_foldl_putBytes _ _ _ _ hl _ fun k hk => (mem_activeLanes.1 hk).1]
  exact if_congr (by rw [mem_activeLanes, and_iff_right hl]) rfl rfl

theorem loaded_frame (h : Hart) (f : L64) (n : Nat) (sg : Bool) (bytes : Nat → List Byte) : { h.loaded f n sg bytes with v := h.v } = h.dirtyXs.done := by
  unfold Hart.loaded
  rw [Hart.done_with_v, foldl_putBytes_frame]

/-- Of what the lanes read, a lane's bytes are those read at its address. -/
theorem laneBytes_map {ls : List Nat} (nodup : ls.Nodup) (g : Nat → List Byte) {l : Nat} (hl : l ∈ ls) : laneBytes (ls.map fun l => (l, g l)) l = g l := by
  unfold laneBytes
  rw [List.filter_map]
  have : ls.filter ((fun x : Nat × List Byte => x.1 == l) ∘ fun l => (l, g l)) = [l] := by
    change ls.filter (· == l) = [l]
    rw [List.filter_beq, List.count_eq_one_of_mem nodup hl]
    rfl
  rw [this]
  simp

/-! ### The checks that pass -/

theorem activeLanes_nodup (h : Hart) (f : L64) : (activeLanes h f).Nodup := lanesIn_nodup _

theorem memStart_active {s : State} {f : L64} (h : effMask s.me f ≠ 0) : memStart f s = .ok (activeLanes s.me f, s) := if_neg h

theorem scratchCheck_fits {s : State} {n : Nat} {accs : List (Nat × Word)} (fits : ScratchFits s n accs) (store : Bool) :
    scratchCheck accs n store s = .ok ((), s) := by
  have within : accs.find? (fun x => decide (scratchSize s < x.2.toNat + n)) = none :=
    List.find?_eq_none.2 fun x hx => by simpa using (fits x hx).1
  have aligned : accs.find? (fun x => x.2.toNat % min n 4 != 0) = none :=
    List.find?_eq_none.2 fun x hx => by simpa using (fits x hx).2
  unfold scratchCheck
  simp only [within, aligned]

theorem scratchPoison_clean {s : State} {n : Nat} {accs : List (Nat × Word)} (clean : ScratchClean s n accs) :
    scratchPoison accs n s = .ok ((), s) := by
  have none' : accs.find? (fun x => (s.cls (classOf s s.cur)).scratchPsn x.2.toNat n) = none :=
    List.find?_eq_none.2 fun x hx => by simp [clean x hx]
  unfold scratchPoison
  rw [none']

/-- Counting passes changes counters of the hart's core (R78). -/
theorem takePasses_frame (s : State) (accs : List (Nat × Word)) (n : Nat) (atomic : Bool) : { takePasses s accs n atomic with cores := s.cores } = s := by
  unfold takePasses bump State.modMyCore State.modCore State.setCore
  rfl

theorem takePasses_byte (s : State) (accs : List (Nat × Word)) (n : Nat) (atomic : Bool) (a : Nat) : rawByte (takePasses s accs n atomic) a = rawByte s a :=
  (congrArg (rawByte · a) (takePasses_frame s accs n atomic) :)

theorem takePasses_harts (s : State) (accs : List (Nat × Word)) (n : Nat) (atomic : Bool) : SameHarts s (takePasses s accs n atomic) := by
  have frame := takePasses_frame s accs n atomic
  exact ⟨(congrArg State.harts frame :), (congrArg State.cur frame :)⟩

/-! ### Loads and stores -/

/-- A lane load of scratch within the grant. -/
theorem laneLoad_scratch {s : State} {f : L64} {n : Nat} (sg : Bool) (hf : f.md = 4) (active : effMask s.me f ≠ 0) (fits : ScratchFits s n (accsOf s f))
    (clean : ScratchClean s n (accsOf s f)) :
    laneLoad f n sg s = .ok ((), (takePasses s (accsOf s f) n false).setHart s.cur
      (s.me.loaded f n sg fun l => (s.cls (classOf s s.cur)).scratch (laneAddr s.me f l).toNat n)) := by
  let bytes := fun l => (s.cls (classOf s s.cur)).scratch (laneAddr s.me f l).toNat n
  have fetch : laneFetch f n (activeLanes s.me f) s = .ok ((activeLanes s.me f).map fun l => (l, bytes l), takePasses s (accsOf s f) n false) := by
    unfold laneFetch
    rw [bind_ok (show laneAddrs f (activeLanes s.me f) s = .ok (accsOf s f, s) from rfl), if_pos (by simp [isScr, hf]),
      bind_ok (scratchCheck_fits fits false), bind_ok (scratchPoison_clean clean)]
    show Except.ok (((accsOf s f).map fun x => (x.1, (s.cls (classOf s s.cur)).scratch x.2.toNat n)), _) = _
    rw [accsOf, List.map_map]
    rfl
  have lanes : ∀ h : Hart,
      (activeLanes s.me f).foldl (fun x l => x.putBytes f.d.toNat l n sg (laneBytes ((activeLanes s.me f).map fun l => (l, bytes l)) l)) h =
        (activeLanes s.me f).foldl (fun x l => x.putBytes f.d.toNat l n sg (bytes l)) h := fun h =>
    List.foldl_ext _ _ _ fun x l hl => by rw [laneBytes_map (activeLanes_nodup ..) bytes hl]
  have harts := takePasses_harts s (accsOf s f) n false
  unfold laneLoad
  refine (bind_ok (memStart_active active)).trans ((bind_ok fetch).trans ?_)
  generalize takePasses s (accsOf s f) n false = t at harts
  show Except.ok ((), retire (t.modMe _)) = _
  simp only [lanes]
  rw [retire, State.modMe_modMe, State.modMe, State.modHart, ← State.me, harts.me, harts.2]
  rfl

/-- The bytes that the lanes of a store put into scratch, in ascending lane order (R235). -/
def scratchStored (s : State) (f : L64) (n : Nat) : List (Nat × Byte) :=
  ((accsOf s f).map fun x => scratchCells x.2.toNat (s.me.dataBytes f.c.toNat x.1 n)).flatten

/-- A lane store of scratch within the grant. -/
theorem laneStore_scratch {s : State} {f : L64} {n : Nat} (hf : f.md = 4) (active : effMask s.me f ≠ 0) (fits : ScratchFits s n (accsOf s f)) :
    laneStore f n s = .ok ((), retire ((takePasses s (accsOf s f) n false).modCls (classOf s s.cur) (·.putScratch (scratchStored s f n)))) := by
  unfold laneStore
  rw [bind_ok (memStart_active active), bind_ok (show laneAddrs f (activeLanes s.me f) s = .ok (accsOf s f, s) from rfl),
    bind_ok (show meX s = .ok (s.me, s) from rfl), if_pos (by simp [isScr, hf]), bind_ok (scratchCheck_fits fits true)]
  rfl

end Sys2Proof
end

section
/-!
SUPPORT. Lane atomics of scratch (R123, R235, R236): the order of the lanes, one update, and the whole instruction.
-/
namespace Sys2Proof
open Machine

/-! ### The order of the lanes -/

theorem choose_state (s : State) : { (choose s).2 with choices := s.choices } = s := by
  unfold choose
  split <;> rfl

/-- Picking an order takes choices and changes nothing else. -/
theorem pickOrder_state (n : Nat) (ls : List Nat) (s : State) : { (pickOrder n ls s).1 with choices := s.choices } = s := by
  induction n generalizing ls s with
  | zero => rfl
  | succ n ih =>
    have hc := choose_state s
    have hp := ih (ls.filter (· != nth 0 ls ((choose s).1 % max 1 ls.length))) (choose s).2
    calc ({ (pickOrder (n + 1) ls s).1 with choices := s.choices } : State)
        = { ({ (pickOrder n (ls.filter (· != nth 0 ls ((choose s).1 % max 1 ls.length))) (choose s).2).1 with choices := (choose s).2.choices } : State)
            with choices := s.choices } := rfl
      _ = s := by rw [hp, hc]

theorem nth_mem {α : Type} (d : α) {l : List α} {i : Nat} (h : i < l.length) : nth d l i ∈ l := by
  unfold nth
  rw [List.getElem?_eq_getElem h]
  exact List.getElem_mem h

/-- Each lane is picked once. -/
theorem pickOrder_perm {n : Nat} {ls : List Nat} (nodup : ls.Nodup) (hn : ls.length = n) (s : State) : (pickOrder n ls s).2.Perm ls := by
  induction n generalizing ls s with
  | zero => rw [List.length_eq_zero_iff.1 hn]; exact .refl _
  | succ n ih =>
    have hl : nth 0 ls ((choose s).1 % max 1 ls.length) ∈ ls := nth_mem 0 (by
      have := Nat.mod_lt (choose s).1 (show 0 < max 1 ls.length by omega)
      omega)
    have step : (pickOrder (n + 1) ls s).2 = nth 0 ls ((choose s).1 % max 1 ls.length) ::
        (pickOrder n (ls.filter (· != nth 0 ls ((choose s).1 % max 1 ls.length))) (choose s).2).2 := rfl
    rw [step, ← nodup.erase_eq_filter]
    have rest := ih (nodup.erase _) (by rw [List.length_erase_of_mem hl, hn]; rfl) (choose s).2
    exact (rest.cons _).trans (List.perm_cons_erase hl).symm

/-! ### One update and all of them -/

theorem amoScratch_eq (n : Nat) (u : Update) (off c d : Nat) (s : State) :
    let m := leToNat ((s.cls (classOf s s.cur)).scratch off n)
    amoScratch n u off c d s = ((u m c d).1.elim s fun v => s.modCls (classOf s s.cur) (·.putScratch (scratchCells off (natToLe n v))), m, (u m c d).2) := by
  unfold amoScratch
  dsimp only
  generalize u (leToNat ((s.cls (classOf s s.cur)).scratch off n)) c d = x
  obtain ⟨_ | v, r⟩ := x <;> rfl

theorem amoScratch_mem (n : Nat) (u : Update) (off c d : Nat) (s : State) : (amoScratch n u off c d s).1.mem = s.mem := by
  rw [amoScratch_eq]
  dsimp only
  cases (u (leToNat ((s.cls (classOf s s.cur)).scratch off n)) c d).1 <;> rfl

/-- An element written to the scratch of class k. -/
theorem scratch_element {s : State} {n v off : Nat} (k : Nat) (hn : n = 4 ∨ n = 8) (ho : off % n = 0) (hv : v < 2 ^ (8 * n)) :
    let t := s.modCls k (·.putScratch (scratchCells off (natToLe n v)))
    leToNat ((t.cls k).scratch off n) = v ∧ (∀ o, o < off ∨ off + n ≤ o → (t.cls k).scr.get 0 o = (s.cls k).scr.get 0 o) ∧
      (∀ o, (t.cls k).scrPsn.get false o = ((s.cls k).scrPsn.get false o && !decide (off ≤ 4 * o ∧ 4 * o < off + n))) ∧
      { t.cls k with scr := (s.cls k).scr, scrPsn := (s.cls k).scrPsn } = s.cls k ∧ (∀ j, j ≠ k → t.cls j = s.cls j) ∧
      { t with classes := s.classes } = s := by
  intro t
  have self : t.cls k = (s.cls k).putScratch (scratchCells off (natToLe n v)) := SMap.get_set_self ..
  have length := length_natToLe n v
  have four : off % 4 = 0 ∧ n % 4 = 0 := by obtain rfl | rfl := hn <;> omega
  refine ⟨?_, fun o ho => ?_, fun o => ?_, ?_, fun j hj => (State.cls_modCls ..).trans (if_neg hj), rfl⟩
  · have reads := scratch_putScratch (s.cls k) off (natToLe n v)
    rw [length] at reads
    rw [self, reads, leToNat_natToLe n v hv]
  · rw [self, scr_putScratch_ne _ (by rwa [length])]
  · rw [self, scrPsn_putScratch, wholeWord_scratchCells length four.1 four.2]
  · rw [self, putScratch_frame]

theorem amoAll_congr {f g : Nat → State → State × Nat × FRes} {ls : List Nat} (h : ∀ l ∈ ls, f l = g l) (s : State) :
    amoAll f ls s = amoAll g ls s := by
  induction ls generalizing s with
  | nil => rfl
  | cons l ls ih =>
    unfold amoAll
    rw [h l List.mem_cons_self]
    dsimp only
    rw [ih fun k hk => h k (List.mem_cons_of_mem _ hk)]

theorem amoAll_mem {f : Nat → State → State × Nat × FRes} (h : ∀ l s, (f l s).1.mem = s.mem) (ls : List Nat) (s : State) :
    (amoAll f ls s).1.mem = s.mem := by
  induction ls generalizing s with
  | nil => rfl
  | cons l ls ih =>
    unfold amoAll
    exact (ih _).trans (h l s)

theorem amoEnd_mem (f : L64) (n : Nat) (ls : List Nat) (r : State × List (Nat × Nat) × FRes) : (amoEnd f n ls r).mem = r.1.mem := by
  unfold amoEnd
  obtain ⟨-, -, -, rest⟩ := bumpFp_spec
    (r.1.modMe fun h => h.setLanes (8 * n) f.d.toNat ls fun l => ((r.2.1.find? fun x => x.1 == l).map (·.2)).getD 0) r.2.2.cnt
  exact (congrArg State.mem rest :)

/-! ### The instruction -/

/-- The state in which the lanes of an atomic of scratch begin their updates: past the counted passes and the release. -/
def scratchReleased (s : State) (f : L64) (n : Nat) : State :=
  let t := takePasses s (amoAccs s f n) n true
  if f.imm15.getLsbD 14 = true then coreRelease t (coreOf s.cur) f.ty.toNat else t

theorem scratchReleased_memory (s : State) (f : L64) (n : Nat) :
    HomeMemory s (scratchReleased s f n) ∧ (f.imm15.getLsbD 14 = false → SameMemory s (scratchReleased s f n)) := by
  unfold scratchReleased
  dsimp only
  have passes := takePasses_byte s (amoAccs s f n) n true
  generalize takePasses s (amoAccs s f n) n true = t at passes
  split
  · next h => exact ⟨fun a ha => ((coreRelease_moves t _ _).1 a ha).trans (passes a), fun h' => absurd (h.symm.trans h') (by decide)⟩
  · exact ⟨fun a _ => passes a, fun _ => passes⟩

/-- The update of lane l, by its address and its elements. -/
def scratchUpdate (s : State) (f : L64) (n : Nat) (u : Update) (l : Nat) : State → State × Nat × FRes :=
  amoScratch n u (atomicAddr s.me f n l).toNat (s.me.elem (8 * n) f.c.toNat l) (s.me.elem (8 * n) f.d.toNat l)

/-- Among the lanes with their addresses a lane finds its own. -/
theorem find_laneAddr {ls : List Nat} (a : Nat → Word) {l : Nat} (hl : l ∈ ls) :
    ((ls.map fun l => (l, a l)).find? fun x => x.1 == l).map (·.2) = some (a l) := by
  rw [List.find?_map]
  cases h : ls.find? ((fun x : Nat × Word => x.1 == l) ∘ fun l => (l, a l)) with
  | none => exact absurd (List.find?_eq_none.1 h l hl) (by simp)
  | some k =>
    have : k = l := by simpa using List.find?_some h
    rw [this]
    rfl

/-- A lane atomic of scratch, aligned and within the grant. -/
theorem laneAtomic_scratch {s : State} {f : L64} {n : Nat} (u : Update) (hf : f.md = 4) (active : effMask s.me f ≠ 0)
    (fits : ScratchFits s n (amoAccs s f n)) (aligned : ∀ x ∈ amoAccs s f n, x.2.toNat % n = 0) (clean : ScratchClean s n (amoAccs s f n)) :
    let p := pickOrder (activeLanes s.me f).length (activeLanes s.me f) (scratchReleased s f n)
    let e := amoEnd f n (activeLanes s.me f) (amoAll (scratchUpdate s f n u) p.2 p.1)
    laneAtomic f n u s = .ok ((), retire (if f.imm15.getLsbD 13 = true then acquire e f.ty.toNat else e)) := by
  intro p e
  have updates : amoAll (fun l => amoScratch n u ((((amoAccs s f n).find? fun x : Nat × Word => x.1 == l).map fun x : Nat × Word => x.2).getD 0).toNat
      (s.me.elem (8 * n) f.c.toNat l) (s.me.elem (8 * n) f.d.toNat l)) p.2 p.1 = amoAll (scratchUpdate s f n u) p.2 p.1 := by
    refine amoAll_congr (fun l hl => ?_) _
    have hl : l ∈ activeLanes s.me f := (pickOrder_perm (activeLanes_nodup ..) rfl _).mem_iff.1 hl
    unfold amoAccs
    rw [find_laneAddr _ hl]
    rfl
  unfold laneAtomic
  refine (bind_ok (memStart_active active)).trans ((bind_ok (show meX s = .ok (s.me, s) from rfl)).trans ?_)
  extract_lets scratch memory
  rw [if_pos (by simp [isScr, hf])]
  refine (bind_ok (scratchCheck_fits fits true)).trans ?_
  have aligned : ((activeLanes s.me f).map fun l => (l, atomicAddr s.me f n l)).find? (fun x => x.2.toNat % n != 0) = none :=
    List.find?_eq_none.2 fun x hx => by simpa using aligned x hx
  rw [aligned]
  refine (bind_ok (scratchPoison_clean clean)).trans ((bind_ok (m := upd _) rfl).trans ((bind_ok (m := upd _) (t := scratchReleased s f n) rfl).trans ?_))
  refine (bind_ok (t := e) (a := ()) ?_).trans rfl
  exact congrArg (fun r => Except.ok ((), amoEnd f n (activeLanes s.me f) r)) updates

end Sys2Proof
end

section
/-!
PROOF. O11: lane accesses of the scratch space (R75 to R78, R123, R232, R235, R236).
-/
namespace Sys2Proof
open Machine

variable {f : L64} {i : Instr} {n : Nat}

/-! ### The forms -/

theorem exec_loadForm {sg : Bool} (h : (i, n, sg) ∈ loadForms f) (s : State) : exec i s = finish (laneLoad f n sg) s := by
  have all : ∀ x ∈ loadForms f, exec x.1 s = finish (laneLoad f x.2.1 x.2.2) s := by
    simp only [loadForms, List.forall_mem_cons]
    exact ⟨exec_lldB f s, exec_lldBu f s, exec_lldH f s, exec_lldHu f s, exec_lldW f s, exec_lldD f s, exec_lldQ f s, List.forall_mem_nil _⟩
  exact all _ h

theorem exec_storeForm (h : (i, n) ∈ storeForms f) (s : State) : exec i s = finish (laneStore f n) s := by
  have all : ∀ x ∈ storeForms f, exec x.1 s = finish (laneStore f x.2) s := by
    simp only [storeForms, List.forall_mem_cons]
    exact ⟨exec_lstB f s, exec_lstH f s, exec_lstW f s, exec_lstD f s, exec_lstQ f s, List.forall_mem_nil _⟩
  exact all _ h

/-- The integer atomics, with their updates (R236). -/
theorem exec_amoForm {g : Nat → Nat → Nat → Option Nat} (h : (i, n, g) ∈ amoForms f) (s : State) :
    exec i s = finish (laneAtomic f n fun m c d => (g m c d, {})) s := by
  have all : ∀ x ∈ amoForms f, exec x.1 s = finish (laneAtomic f x.2.1 fun m c d => (x.2.2 m c d, {})) s := by
    simp only [amoForms, List.forall_mem_cons]
    exact ⟨exec_lamoAddW f s, exec_lamoAddD f s, exec_lamoAndW f s, exec_lamoAndD f s, exec_lamoOrW f s, exec_lamoOrD f s, exec_lamoXorW f s,
      exec_lamoXorD f s, exec_lamoMinW f s, exec_lamoMinD f s, exec_lamoMaxW f s, exec_lamoMaxD f s, exec_lamoMinuW f s, exec_lamoMinuD f s,
      exec_lamoMaxuW f s, exec_lamoMaxuD f s, exec_lamoSwapW f s, exec_lamoSwapD f s, exec_lcasW f s, exec_lcasD f s, List.forall_mem_nil _⟩
  exact all _ h

/-- The floating-point atomics run where FS is not Off, with FS set (R211). -/
theorem exec_famoForm {g : Nat → Nat → FRes} (h : (i, g) ∈ famoForms f) {s : State} (fs : s.me.fs ≠ 0) :
    exec i s = finish (laneAtomic f 4 (fpUpd g)) (s.setHart s.cur (s.me.setFs 3)) := by
  have all : ∀ x ∈ famoForms f, exec x.1 s = laneFpAtomic f x.2 s := by
    simp only [famoForms, List.forall_mem_cons]
    exact ⟨exec_lfamoAddS f s, exec_lfamoMinS f s, exec_lfamoMaxS f s, List.forall_mem_nil _⟩
  exact (all _ h).trans (if_neg fs)

theorem exec_atomicForm {fp : Bool} {u : Update} (h : (i, n, fp, u) ∈ atomicForms f) {s : State} (fs : fp = true → s.me.fs ≠ 0) :
    exec i s = finish (laneAtomic f n u) (fpStart s fp) := by
  obtain h | h := List.mem_append.1 h
  · obtain ⟨⟨j, k, g⟩, hx, e⟩ := List.mem_map.1 h
    cases e
    exact exec_amoForm hx s
  · obtain ⟨⟨j, g⟩, hx, e⟩ := List.mem_map.1 h
    cases e
    exact exec_famoForm hx (fs rfl)

/-! ### The clauses -/

/-- A load reads the scratch of the hart's class. -/
theorem load_scratch {s : State} {sg : Bool} (h : (i, n, sg) ∈ loadForms f) (hf : f.md = 4) (active : effMask s.me f ≠ 0)
    (fits : ScratchFits s n (accsOf s f)) (clean : ScratchClean s n (accsOf s f)) :
    ∃ h', Runs i s ((takePasses s (accsOf s f) n false).setHart s.cur h') ∧ SameMemory s ((takePasses s (accsOf s f) n false).setHart s.cur h') ∧
      LoadElems s.me h' f n sg (fun l => (s.cls (classOf s s.cur)).scratch (laneAddr s.me f l).toNat n) ∧ { h' with v := s.me.v } = s.me.dirtyXs.done :=
  ⟨_, (exec_loadForm h s).trans (finish_ok (laneLoad_scratch sg hf active fits clean)), takePasses_byte s (accsOf s f) n false,
    loadElems_loaded s.me f n sg _, loaded_frame ..⟩

/-- A store leaves its bytes in the scratch of the hart's class. -/
theorem store_scratch {s : State} (h : (i, n) ∈ storeForms f) (hf : f.md = 4) (active : effMask s.me f ≠ 0) (fits : ScratchFits s n (accsOf s f)) :
    let k := classOf s s.cur
    ∃ t, Runs i s t ∧ SameMemory s t ∧ t.me = s.me.done ∧ t.cls k = (s.cls k).putScratch (scratchStored s f n) ∧ ∀ j, j ≠ k → t.cls j = s.cls j := by
  intro k
  have runs := (exec_storeForm h s).trans (finish_ok (laneStore_scratch hf active fits))
  have frame := takePasses_frame s (accsOf s f) n false
  have harts := takePasses_harts s (accsOf s f) n false
  generalize takePasses s (accsOf s f) n false = t at runs frame harts
  have cls : ∀ j, t.cls j = s.cls j := fun j => (congrArg (State.cls · j) frame :)
  refine ⟨_, runs, fun a => (congrArg (rawByte · a) frame :), ?_, ?_, fun j hj => ?_⟩
  · exact (State.me_setHart_cur ..).trans (congrArg Hart.done harts.me)
  · rw [← cls]
    exact (State.cls_modCls t k k (·.putScratch (scratchStored s f n))).trans (if_pos rfl)
  · rw [← cls]
    exact (State.cls_modCls t k j (·.putScratch (scratchStored s f n))).trans (if_neg hj)

/-- An atomic runs its lanes' updates in some order. -/
theorem atomic_scratch {s₀ : State} {fp : Bool} {u : Update} (h : (i, n, fp, u) ∈ atomicForms f) (fs : fp = true → s₀.me.fs ≠ 0) :
    let s := fpStart s₀ fp
    f.md = 4 → effMask s.me f ≠ 0 → ScratchFits s n (amoAccs s f n) → (∀ x ∈ amoAccs s f n, x.2.toNat % n = 0) → ScratchClean s n (amoAccs s f n) →
    ∃ (t : State) (order : List Nat), order.Perm (activeLanes s.me f) ∧ { t with choices := (scratchReleased s f n).choices } = scratchReleased s f n ∧
      let e := amoEnd f n (activeLanes s.me f) (amoAll (scratchUpdate s f n u) order t)
      Runs i s₀ (retire (if f.imm15.getLsbD 13 = true then acquire e f.ty.toNat else e)) ∧ HomeMemory s e ∧
        (f.imm15.getLsbD 14 = false → SameMemory s e) := by
  intro s hf active fits aligned clean
  have state := pickOrder_state (activeLanes s.me f).length (activeLanes s.me f) (scratchReleased s f n)
  have perm := pickOrder_perm (activeLanes_nodup s.me f) rfl (scratchReleased s f n)
  have runs := (exec_atomicForm h fs).trans (finish_ok (laneAtomic_scratch u hf active fits aligned clean))
  generalize pickOrder (activeLanes s.me f).length (activeLanes s.me f) (scratchReleased s f n) = p at state perm runs
  obtain ⟨home, same⟩ := scratchReleased_memory s f n
  have mem : (amoEnd f n (activeLanes s.me f) (amoAll (scratchUpdate s f n u) p.2 p.1)).mem = (scratchReleased s f n).mem := by
    rw [amoEnd_mem, amoAll_mem (f := scratchUpdate s f n u) fun _ _ => amoScratch_mem ..]
    exact (congrArg State.mem state :)
  have byte : ∀ a, rawByte _ a = rawByte (scratchReleased s f n) a := fun a => congrArg (fun m => SMap.get 0 m a) mem
  exact ⟨p.1, p.2, perm, state, runs, fun a ha => (byte a).trans (home a ha), fun hr a => (byte a).trans (same hr a)⟩

/-- One update reads the element, and writes the new one where there is one. -/
theorem update_scratch (s : State) (u : Update) (off c d : Nat) (hn : n = 4 ∨ n = 8) (ho : off % n = 0) :
    let k := classOf s s.cur
    let m := leToNat ((s.cls k).scratch off n)
    let r := amoScratch n u off c d s
    r.2.1 = m ∧ r.2.2 = (u m c d).2 ∧ ((u m c d).1 = none → r.1 = s) ∧
    ∀ v, (u m c d).1 = some v → v < 2 ^ (8 * n) →
      leToNat ((r.1.cls k).scratch off n) = v ∧ (∀ o, o < off ∨ off + n ≤ o → (r.1.cls k).scr.get 0 o = (s.cls k).scr.get 0 o) ∧
      (∀ o, (r.1.cls k).scrPsn.get false o = ((s.cls k).scrPsn.get false o && !decide (off ≤ 4 * o ∧ 4 * o < off + n))) ∧
      { r.1.cls k with scr := (s.cls k).scr, scrPsn := (s.cls k).scrPsn } = s.cls k ∧ (∀ j, j ≠ k → r.1.cls j = s.cls j) ∧
      { r.1 with classes := s.classes } = s := by
  intro k m r
  have hr : r = _ := amoScratch_eq n u off c d s
  rw [hr]
  refine ⟨rfl, rfl, fun h => ?_, fun v h hv => ?_⟩
  · simp only [m, k] at h
    simp only [h, Option.elim_none]
  · simp only [m, k] at h
    simp only [h, Option.elim_some]
    exact scratch_element k hn ho hv

/-- Settles O11: the clause of the loads, that of the stores, that of the atomics, and one update. -/
theorem laneScratch : Obligations.LaneScratch := by
  unfold Obligations.LaneScratch
  refine ⟨fun s f i n sg => load_scratch, fun s f i n h hf active fits => ?_, fun s₀ f i n fp u => atomic_scratch,
    fun s n u off c d => update_scratch s u off c d⟩
  intro bs k
  obtain ⟨t, runs, memory, me, self, others⟩ := store_scratch h hf active fits
  refine ⟨t, runs, memory, me, fun o => ?_, fun o => ?_, ?_, others⟩
  · rw [self, scr_putScratch]
    exact lastAt_scratchCell ..
  · rw [self, scrPsn_putScratch]
    rfl
  · rw [self, putScratch_frame]

end Sys2Proof
end

section
/-!
SUPPORT. Pool tiles: reading a slot or a partition after an update of a cluster, what leaves everything but one tile as it was, and the steps that
read a handle (R90, R96, R253).
-/
namespace Sys2Proof
open Machine

namespace Machine

theorem State.cluster_modCluster (s : State) (k j : Nat) (f : Cluster → Cluster) :
    (s.modCluster k f).cluster j = if j = k then f (s.cluster k) else s.cluster j := SMap.get_set ..

theorem Cluster.slot_modSlot (x : Cluster) (u v : Nat) (f : PoolSlot → PoolSlot) : (x.modSlot u f).slot v = if v = u then f (x.slot u) else x.slot v :=
  SMap.get_set ..

theorem Cluster.part_modPart (x : Cluster) (p q : Nat) (f : Partition → Partition) : (x.modPart p f).part q = if q = p then f (x.part p) else x.part q :=
  SMap.get_set ..

@[simp] theorem Cluster.part_modSlot (x : Cluster) (u p : Nat) (f : PoolSlot → PoolSlot) : (x.modSlot u f).part p = x.part p := rfl
@[simp] theorem Cluster.slot_modPart (x : Cluster) (p u : Nat) (f : Partition → Partition) : (x.modPart p f).slot u = x.slot u := rfl

/-- A change of one partition changes no slot. -/
theorem State.slot_modPart (s : State) (k p j u : Nat) (f : Partition → Partition) :
    ((s.modCluster k fun c => c.modPart p f).cluster j).slot u = (s.cluster j).slot u := by
  rw [State.cluster_modCluster]
  split
  · next h => rw [h, Cluster.slot_modPart]
  · rfl

/-- A change of one slot changes no partition. -/
theorem State.part_modSlot (s : State) (k u j p : Nat) (f : PoolSlot → PoolSlot) :
    ((s.modCluster k fun c => c.modSlot u f).cluster j).part p = (s.cluster j).part p := by
  rw [State.cluster_modCluster]
  split
  · next h => rw [h, Cluster.part_modSlot]
  · rfl

theorem State.slot_modSlot_self (s : State) (k u : Nat) (f : PoolSlot → PoolSlot) :
    ((s.modCluster k fun c => c.modSlot u f).cluster k).slot u = f ((s.cluster k).slot u) := by
  rw [State.cluster_modCluster_self, Cluster.slot_modSlot, if_pos rfl]

theorem State.part_modPart_self (s : State) (k p : Nat) (f : Partition → Partition) :
    ((s.modCluster k fun c => c.modPart p f).cluster k).part p = f ((s.cluster k).part p) := by
  rw [State.cluster_modCluster_self, Cluster.part_modPart, if_pos rfl]

theorem State.tile_modTile (s : State) (r : TileRef) (f : PoolSlot → PoolSlot) : (s.modTile r f).tile r = f (s.tile r) := s.slot_modSlot_self ..

@[simp] theorem tile_touchPart (s : State) (k p : Nat) (r : TileRef) : (touchPart s k p).tile r = s.tile r := s.slot_modPart ..

theorem tile_freeTile (s : State) (r : TileRef) : (freeTile s r).tile r = freedSlot (s.tile r) :=
  (tile_touchPart ..).trans (s.tile_modTile r _)

/-- A consuming read leaves of the slot what R96 says. -/
theorem tile_consume (s : State) (r : TileRef) : (consume s r).tile r = readSlot (s.tile r) := by
  unfold consume readSlot
  dsimp only
  split
  · exact tile_freeTile s r
  · exact (tile_touchPart ..).trans (s.tile_modTile r _)

@[simp] theorem me_consume (s : State) (r : TileRef) : (consume s r).me = s.me := by
  unfold consume
  dsimp only
  split <;> rfl

@[simp] theorem myCore_consume (s : State) (r : TileRef) : (consume s r).myCore = s.myCore := by
  unfold consume
  dsimp only
  split <;> rfl

/-- A reader of a pool tile clears its core's L1, in the pool's cluster and outside it. -/
theorem poolAcquire_eq (s : State) (r : TileRef) : poolAcquire s r = l1Clear s (coreOf s.cur) := by
  unfold poolAcquire acquire
  split <;> rfl

@[simp] theorem me_poolAcquire (s : State) (r : TileRef) : (poolAcquire s r).me = s.me := by
  rw [poolAcquire_eq]
  rfl

@[simp] theorem tile_poolAcquire (s : State) (r q : TileRef) : (poolAcquire s r).tile q = s.tile q := by
  rw [poolAcquire_eq]
  rfl

theorem myCore_poolAcquire (s : State) (r : TileRef) : (poolAcquire s r).myCore = { s.myCore with l1 := [] } := by
  rw [poolAcquire_eq]
  exact l1Clear_core ..

@[simp] theorem me_retire (s : State) : (retire s).me = s.me.done := State.me_setHart_cur ..
@[simp] theorem tile_retire (s : State) (r : TileRef) : (retire s).tile r = s.tile r := rfl
@[simp] theorem myCore_retire (s : State) : (retire s).myCore = s.myCore := rfl

end Machine

/-! ### An x register written -/

/-- A completed instruction that writes one x register. -/
theorem xDone_of_doneWith {i : Instr} {d : Nat} {v : Word} (h : exec i s = doneWith (fun x => x.setX d v) s) : XDone i s d v := by
  refine ⟨(s.me.setX d v).done, ⟨_, h.trans (doneWith_eq ..), rfl, fun _ => rfl⟩, fun m => ?_, ?_⟩
  · rw [← Hart.getX_setX]
    rfl
  · unfold Hart.setX
    split <;> rfl

/-! ### What leaves everything but one tile as it was -/

section OnlyTile
variable {s t : State} {r : TileRef}

theorem OnlyTile.refl (s : State) (r : TileRef) : OnlyTile s s r :=
  ⟨fun _ => rfl, rfl, fun _ _ => rfl, fun _ _ => rfl, fun _ _ _ => rfl, fun _ _ => rfl, fun _ => rfl⟩

theorem OnlyTile.cur (only : OnlyTile s t r) : t.cur = s.cur := by
  obtain ⟨-, rest, -⟩ := only
  exact (congrArg State.cur rest :)

theorem OnlyTile.modMe {f : Hart → Hart} (only : OnlyTile s t r) : OnlyTile s (t.modMe f) r := by
  have cur := only.cur
  obtain ⟨mem, rest, harts, others⟩ := only
  refine ⟨mem, rest, fun h hh => ?_, others⟩
  rw [State.modMe, State.hart_modHart, if_neg (cur ▸ hh)]
  exact harts h hh

theorem OnlyTile.retire (only : OnlyTile s t r) : OnlyTile s (retire t) r := only.modMe

theorem OnlyTile.l1Clear (only : OnlyTile s t r) : OnlyTile s (l1Clear t (coreOf t.cur)) r := by
  have cur := only.cur
  obtain ⟨mem, rest, harts, cores, others⟩ := only
  refine ⟨mem, rest, harts, fun c hc => ?_, others⟩
  rw [Machine.l1Clear, State.core_modCore, if_neg (cur ▸ hc)]
  exact cores c hc

theorem OnlyTile.modTile {f : PoolSlot → PoolSlot} (only : OnlyTile s t r) : OnlyTile s (t.modTile r f) r := by
  obtain ⟨mem, rest, harts, cores, slots, parts, clusters⟩ := only
  refine ⟨mem, rest, harts, cores, fun k u other => ?_, fun k p => ?_, fun k => ?_⟩
  · rw [← slots k u other, State.modTile, State.cluster_modCluster]
    split
    · next h => rw [Cluster.slot_modSlot, if_neg (other.resolve_left (not_not.mpr h)), h]
    · rfl
  · rw [← parts k p, State.modTile, State.part_modSlot]
  · rw [State.modTile, State.cluster_modCluster]
    split
    · next h => subst h; exact clusters r.clus
    · exact clusters k

theorem OnlyTile.touchPart {k p : Nat} (only : OnlyTile s t r) : OnlyTile s (touchPart t k p) r := by
  obtain ⟨mem, rest, harts, cores, slots, parts, clusters⟩ := only
  refine ⟨mem, rest, harts, cores, fun j u other => ?_, fun j q => ?_, fun j => ?_⟩
  · rw [Machine.touchPart, State.slot_modPart]
    exact slots j u other
  · rw [← parts j q, Machine.touchPart, State.cluster_modCluster]
    split
    · next h =>
      rw [h, Cluster.part_modPart]
      split
      · next h => rw [h]
      · rfl
    · rfl
  · rw [Machine.touchPart, State.cluster_modCluster]
    split
    · next h => subst h; exact clusters j
    · exact clusters j

theorem OnlyTile.freeTile (only : OnlyTile s t r) : OnlyTile s (freeTile t r) r := only.modTile.touchPart

theorem OnlyTile.consume (only : OnlyTile s t r) : OnlyTile s (consume t r) r := by
  unfold Machine.consume
  dsimp only
  split
  · exact only.freeTile
  · exact only.modTile.touchPart

theorem OnlyTile.poolAcquire (only : OnlyTile s t r) : OnlyTile s (poolAcquire t r) r := by
  rw [poolAcquire_eq]
  exact only.l1Clear

end OnlyTile

/-! ### The steps that read a handle -/

section
variable {s : State} {w : Word} {r : TileRef}

/-- A live tile is in a state that is not FREE. -/
theorem liveTile_state {fn : Nat} (h : liveTile s fn w = some r) : (s.tile r).st ≠ .free := by
  unfold liveTile at h
  dsimp only at h
  split at h
  · next live =>
    cases h
    simp only [Bool.and_eq_true, bne_iff_ne] at live
    exact live.1.2
  · cases h

theorem needTile_live (h : liveTile s s.me.fn w = some r) (eid : eidOk s (coreOf s.cur) r.clus r.part = true) : needTile w s = .ok (r, s) := by
  simp only [needTile, h, eid, if_true]

theorem needTile_stale (h : liveTile s s.me.fn w = none) : needTile w s = .error (tileTrapOn s s.cur { cause := 28 } w) := by
  simp only [needTile, h]
  rfl

theorem needOwned_own {states : List TileSt} {role : Nat} (h : OwnTile s w r) (st : (s.tile r).st ∈ states) : needOwned w states role s = .ok (r, s) := by
  obtain ⟨live, own⟩ := h
  simp [needOwned, live, own, st]

theorem needOwned_stale {states : List TileSt} (h : liveTile s s.me.fn w = none) :
    needOwned w states 1 s = .error (tileTrapOn s s.cur { cause := 28 } w) := by
  simp only [needOwned, h]
  rfl

theorem needMine_own (h : OwnTile s w r) (eid : eidOk s (coreOf s.cur) r.clus r.part = true) : needMine w s = .ok (r, s) := by
  have st : (s.tile r).st ∈ [TileSt.opened, .sealed, .poisoned] := by
    have := liveTile_state h.1
    cases hs : (s.tile r).st <;> simp_all
  exact (bind_ok (needOwned_own h st)).trans (if_pos eid)

theorem needMine_stale (h : liveTile s s.me.fn w = none) : needMine w s = .error (tileTrapOn s s.cur { cause := 28 } w) :=
  bind_error (needOwned_stale h)

/-- A tile that can be read now. -/
theorem needSealed_read {counts : Bool} (h : ReadTile s w r counts) : needSealed w counts s = .ok (r, s) := by
  obtain ⟨live, eid, sealed, free⟩ := h
  refine (bind_ok (needTile_live live eid)).trans ?_
  have room : ¬ (counts && decide ((s.tile r).c ≤ (s.tile r).res)) = true := by
    rw [Bool.and_eq_true, decide_eq_true_eq]
    rintro ⟨c, le⟩
    exact absurd (free c) (not_lt.mpr le)
  simp only [sealed, room]
  rfl

theorem waitRes_none (h : (s.tile r).res = 0) : waitRes r s = .ok ((), s) := if_neg (not_not.mpr h)

theorem waitRes_open (h : (s.tile r).res ≠ 0) : waitRes r s = .error (s.setHart s.cur { s.me with wait := .stall }) := if_pos h

end

end Sys2Proof
end

section
/-!
PROOF. O30: dropping, skipping and giving tiles (R90, R91, R96, R100, R249, R253).
-/
namespace Sys2Proof
open Machine

variable {s : State} {f : L64} {r : TileRef}

/-! ### `tdrop` -/

theorem tdrop_free (own : OwnTile s (s.me.getX f.a.toNat) r) (eid : eidOk s (coreOf s.cur) r.clus r.part = true) (h : (s.tile r).res = 0) :
    exec (.tdrop f) s = .next (retire (freeTile s r)) := by
  refine (exec_tdrop f s).trans (finish_ok ?_)
  rw [bind_ok rfl, bind_ok (needMine_own own eid), bind_ok (waitRes_none h)]
  rfl

theorem tdrop_open (own : OwnTile s (s.me.getX f.a.toNat) r) (eid : eidOk s (coreOf s.cur) r.clus r.part = true) (h : (s.tile r).res ≠ 0) :
    exec (.tdrop f) s = .next (s.setHart s.cur { s.me with wait := .stall }) := by
  refine (exec_tdrop f s).trans (finish_error ?_)
  rw [bind_ok rfl, bind_ok (needMine_own own eid), bind_error (waitRes_open h)]

/-! ### `tskip` -/

theorem tskip_read (h : ReadTile s (s.me.getX f.a.toNat) r true) : exec (.tskip f) s = .next (retire (poolAcquire (consume s r) r)) := by
  have read := needSealed_read h
  obtain ⟨live, eid, sealed, -⟩ := h
  refine (exec_tskip f s).trans (finish_ok ?_)
  rw [bind_ok rfl, bind_ok (needTile_live live eid), bind_ok rfl, if_neg (by simp [sealed]), bind_ok read]
  rfl

theorem tskip_poisoned (live : liveTile s s.me.fn (s.me.getX f.a.toNat) = some r) (eid : eidOk s (coreOf s.cur) r.clus r.part = true)
    (h : (s.tile r).st = .poisoned) : exec (.tskip f) s = .next (retire s) := by
  refine (exec_tskip f s).trans (finish_ok ?_)
  rw [bind_ok rfl, bind_ok (needTile_live live eid), bind_ok rfl, if_pos h]
  rfl

/-! ### `tgive` -/

theorem tgive_owner (own : OwnTile s (s.me.getX f.a.toNat) r) (eid : eidOk s (coreOf s.cur) r.clus r.part = true)
    (entry : (ownerOf ((s.cluster r.clus).part r.part) (fld (s.me.getX f.b.toNat) 0 16)).isSome = true) (h : (s.tile r).res = 0) :
    exec (.tgive f) s = .next (retire (s.modTile r fun t => { t with owner := fld (s.me.getX f.b.toNat) 0 16 })) := by
  refine (exec_tgive f s).trans (finish_ok ?_)
  rw [bind_ok rfl, bind_ok (needMine_own own eid), bind_ok rfl, if_neg (ne_true_of_eq_false (Option.isNone_eq_false_iff.mpr entry))]
  exact bind_ok (waitRes_none h)

/-! ### Stale handles -/

/-- A handle that names no live tile ends each of these forms with cause 28 (R90). -/
theorem stale_handle (h : liveTile s s.me.fn (s.me.getX f.a.toNat) = none) {i : Instr} (hi : i ∈ [Instr.thdr f, .tseal f, .tdrop f, .tskip f, .tgive f]) :
    exec i s = .next (tileTrapOn s s.cur { cause := 28 } (s.me.getX f.a.toNat)) := by
  simp only [List.mem_cons, List.not_mem_nil, or_false] at hi
  obtain rfl | rfl | rfl | rfl | rfl := hi
  · exact (exec_thdr f s).trans (finish_error ((bind_ok rfl).trans (bind_error (needOwned_stale h))))
  · exact (exec_tseal f s).trans (finish_error ((bind_ok rfl).trans (bind_error (needOwned_stale h))))
  · exact (exec_tdrop f s).trans (finish_error ((bind_ok rfl).trans (bind_error (needMine_stale h))))
  · exact (exec_tskip f s).trans (finish_error ((bind_ok rfl).trans (bind_error (needTile_stale h))))
  · exact (exec_tgive f s).trans (finish_error ((bind_ok rfl).trans (bind_error (needMine_stale h))))

/-- Settles O30: what each form leaves of the state, with the one slot that it changes. -/
theorem tileRelease : Obligations.TileRelease := by
  unfold Obligations.TileRelease
  intro s f w
  refine ⟨fun r own eid => ⟨fun h => ?_, fun h => ?_, fun entry h => ?_⟩, fun r read => ?_, fun r live eid h => ?_, fun h i hi => stale_handle h hi⟩
  · exact ⟨_, tdrop_free own eid h, (OnlyTile.refl s r).freeTile.retire, me_retire _, tile_freeTile s r⟩
  · exact ⟨_, tdrop_open own eid h, rfl, fun _ => rfl⟩
  · exact ⟨_, tgive_owner own eid entry h, (OnlyTile.refl s r).modTile.retire, me_retire _, s.tile_modTile r _⟩
  · refine ⟨_, tskip_read read, (OnlyTile.refl s r).consume.poolAcquire.retire, ?_, ?_, ?_⟩
    · rw [me_retire, me_poolAcquire, me_consume]
    · rw [tile_retire, tile_poolAcquire, tile_consume]
    · rw [myCore_retire, myCore_poolAcquire, myCore_consume]
  · exact ⟨_, tskip_poisoned live eid h, rfl, fun _ => rfl⟩

end Sys2Proof
end

section
/-!
SUPPORT. Allocation in a pool: the slots that are free, the owner entries, R94's grant condition, the slot that a grant takes, and the four `talloc`
forms (R92, R94, R95, R245).
-/
namespace Sys2Proof
open Machine

variable {s : State} {k part launch n : Nat}

/-! ### Free slots and owner entries -/

theorem slotUnits_sorted (p : Partition) : p.slotUnits.Pairwise (· ≤ ·) := by
  unfold Partition.slotUnits
  rw [List.pairwise_map]
  exact List.pairwise_lt_range.imp fun h => Nat.add_le_add_left (Nat.mul_le_mul_right _ h.le) _

/-- A unit starts a FREE slot of an enabled partition, in an open slab in pool mode. -/
def OpenFree (s : State) (k part u : Nat) : Prop :=
  u ∈ ((s.cluster k).part part).slotUnits ∧ ((s.cluster k).part part).en = true ∧ ((s.cluster k).slot u).st = .free ∧
    (s.cluster k).mode (u / 64) = 3 ∧ (s.cluster k).closed (u / 64) = false

theorem mem_freeUnits {u : Nat} : u ∈ freeUnits s k part ↔ OpenFree s k part u := by
  simp only [freeUnits, OpenFree, List.mem_filter, Bool.and_eq_true, beq_iff_eq, Bool.not_eq_true', and_assoc]
  rfl

/-- The first of the free slots is the lowest. -/
theorem freeUnits_lowest {u v : Nat} {us : List Nat} (h : freeUnits s k part = u :: us) (free : OpenFree s k part v) : u ≤ v := by
  have sorted : (freeUnits s k part).Pairwise (· ≤ ·) := (slotUnits_sorted _).filter _
  have mem := mem_freeUnits.mpr free
  rw [h] at sorted mem
  obtain rfl | tail := List.mem_cons.mp mem
  · exact le_rfl
  · exact List.rel_of_pairwise_cons sorted tail

theorem ownerOf_none {p : Partition} : ownerOf p launch = none ↔ ∀ o ∈ p.owners, ¬ (o.2.v = true ∧ o.2.launch = launch) := by
  simp [ownerOf]

theorem ownerOf_some {p : Partition} {e : Owner} (h : ownerOf p launch = some e) : (e.v = true ∧ e.launch = launch) ∧ ∃ i, (i, e) ∈ p.owners := by
  obtain ⟨⟨i, _⟩, mem, rfl⟩ := List.mem_map.mp (List.mem_of_find?_eq_some h)
  exact ⟨by simpa using List.find?_some h, i, mem⟩

theorem inUse_eq (s : State) (k part launch : Nat) : inUse s k part launch =
    (((s.cluster k).part part).slotUnits.filter fun u => decide (((s.cluster k).slot u).st ≠ .free ∧ ((s.cluster k).slot u).owner = launch)).length := by
  unfold inUse
  dsimp only
  congr 2
  funext u
  rw [Bool.eq_iff_iff]
  simp

/-! ### Refusals and the grant condition -/

theorem allocRefused_iff {c : Nat} : allocRefused s c k part launch n = true ↔
    ((s.cluster k).part part).en = false ∨ ((s.cluster k).part part).eid ≠ (s.core c).kencl.toNat ∨
      (∀ o ∈ ((s.cluster k).part part).owners, ¬ (o.2.v = true ∧ o.2.launch = launch)) ∨ n = 0 ∨ 255 < n := by
  rw [← ownerOf_none]
  simp [allocRefused, eidOk, or_assoc]

/-- What the other owners of a partition have reserved: a sum over the entries, or over those that count. -/
theorem sum_reserved (os : SMap Owner) (launch : Nat) (g : Owner → Nat) :
    (os.map fun o => if o.2.v && o.2.launch != launch then g o.2 else 0).foldl (· + ·) 0 =
      ((os.filter fun o => o.2.v && o.2.launch != launch).map fun o => g o.2).sum := by
  rw [← List.sum_eq_foldl]
  induction os with
  | nil => rfl
  | cons o os ih =>
    rw [List.map_cons, List.sum_cons, List.filter_cons, ih]
    split
    · rfl
    · exact Nat.zero_add _

theorem grantable_iff : grantable s k part launch = true ↔ ((s.cluster k).part part).en = true ∧ ∃ e, ownerOf ((s.cluster k).part part) launch = some e ∧
    inUse s k part launch < e.max ∧
    1 + ((((s.cluster k).part part).owners.filter fun o => o.2.v && o.2.launch != launch).map fun o => o.2.min - inUse s k part o.2.launch).sum ≤
      (freeUnits s k part).length := by
  rw [← sum_reserved _ launch fun o => o.min - inUse s k part o.launch]
  unfold grantable
  dsimp only
  cases ownerOf ((s.cluster k).part part) launch with
  | none => simp
  | some e => simp [and_assoc]

/-! ### A grant -/

/-- A slot as a grant leaves it (R94). -/
def grantedSlot (launch n : Nat) (t : PoolSlot) : PoolSlot := { gen := t.gen, st := .opened, owner := launch, n := n }

theorem takeSlot_cons {u : Nat} {us : List Nat} (h : freeUnits s k part = u :: us) (launch n : Nat) :
    takeSlot s k part launch n = (s.modCluster k fun c => c.modSlot u (grantedSlot launch n), mkHandle ((s.cluster k).slot u).gen k part u) := by
  simp only [takeSlot, h]
  rfl

/-! ### The `talloc` forms -/

variable {f : L64} {nb : Bool}

/-- The forms differ in whether they wait. -/
theorem exec_tallocForm {i : Instr} (h : (i, nb) ∈ [(Instr.tallocImm f, false), (.tallocReg f, false), (.tallocNbImm f, true), (.tallocNbReg f, true)]) :
    exec i s = finish (tallocOp nb f) s := by
  simp only [List.mem_cons, Prod.mk.injEq, List.not_mem_nil, or_false] at h
  obtain ⟨rfl, rfl⟩ | ⟨rfl, rfl⟩ | ⟨rfl, rfl⟩ | ⟨rfl, rfl⟩ := h
  · exact exec_tallocImm f s
  · exact exec_tallocReg f s
  · exact exec_tallocNbImm f s
  · exact exec_tallocNbReg f s

/-- The current hart's request is refused. -/
def TallocRefused (s : State) (f : L64) : Prop :=
  allocRefused s (coreOf s.cur) s.myCluster (tallocArgs s.me f).1 (launchOf s s.cur) (tallocArgs s.me f).2 = true

/-- The current hart's request finds a slot after the waiting ones. -/
def TallocGranted (s : State) (f : L64) : Prop := newGrant s s.myCluster (tallocArgs s.me f).1 (launchOf s s.cur) = true

theorem tallocOp_refused (h : TallocRefused s f) :
    tallocOp nb f s = .error (tileTrapOn s s.cur { cause := 28, role := 0 } (mkHandle 0 s.myCluster (tallocArgs s.me f).1 0)) :=
  if_pos h

theorem tallocOp_granted (h : ¬ TallocRefused s f) (g : TallocGranted s f) :
    let p := takeSlot s s.myCluster (tallocArgs s.me f).1 (launchOf s s.cur) (tallocArgs s.me f).2
    tallocOp nb f s = .ok ((), retire (p.1.modMe fun x => x.setX f.d.toNat p.2)) :=
  (if_neg h).trans (if_pos g)

theorem tallocOp_null (h : ¬ TallocRefused s f) (g : ¬ TallocGranted s f) : tallocOp true f s = .ok ((), retire (s.modMe fun x => x.setX f.d.toNat 0)) :=
  (if_neg h).trans ((if_neg g).trans (if_pos rfl))

/-- The state in which an allocation waits: at the end of the partition's order, with event counter 12 one higher (R95, R156). -/
def tallocWaits (s : State) (k part : Nat) : State :=
  (bump (s.modCluster k fun c => c.modPart part fun p => { p with waiters := p.waiters ++ [.hart s.cur] }) (coreOf s.cur) 12 1).modMe
    fun x => { x with wait := .talloc k part s.clock }

theorem tallocOp_waits (h : ¬ TallocRefused s f) (g : ¬ TallocGranted s f) : tallocOp false f s = .error (tallocWaits s s.myCluster (tallocArgs s.me f).1) :=
  (if_neg h).trans ((if_neg g).trans (if_neg Bool.false_ne_true))

theorem me_tallocWaits (s : State) (k part : Nat) : (tallocWaits s k part).me = { s.me with wait := .talloc k part s.clock } := State.me_setHart_cur ..

theorem waiters_tallocWaits (s : State) (k part : Nat) :
    (((tallocWaits s k part).cluster k).part part).waiters = ((s.cluster k).part part).waiters ++ [.hart s.cur] :=
  congrArg Partition.waiters (s.part_modPart_self k part _)

end Sys2Proof
end

section
/-!
PROOF. O28: allocation in a pool (R94, R95, R103, R106, R245, R334).
-/
namespace Sys2Proof
open Machine

variable {s t : State} {k part : Nat}

/-! ### TALLOC_GRANT (R95) -/

theorem latchedTalloc_d (x : Hart) : (latchedTalloc x).d.toNat = fld x.ibits 7 5 := Nat.mod_mod ..

/-- A waiter leaves the order of a partition. -/
def leaveOrder (s : State) (k part : Nat) (w : Waiter) : State :=
  s.modCluster k fun c => c.modPart part fun p => { p with waiters := p.waiters.filter (· != w) }

theorem freeUnits_leaveOrder (s : State) (k part : Nat) (w : Waiter) : freeUnits (leaveOrder s k part w) k part = freeUnits s k part := by
  simp only [freeUnits, leaveOrder, State.cluster_modCluster_self, Cluster.part_modPart, if_true]
  rfl

/-- The grant of a hart that waits: it leaves the order, and its `talloc` completes with the handle of the lowest free slot. -/
theorem grantWaiter_hart {h u : Nat} {us : List Nat} (free : freeUnits s k part = u :: us) :
    ∃ n, grantWaiter s k part (.hart h) =
      ((leaveOrder s k part (.hart h)).modCluster k fun c => c.modSlot u (grantedSlot (launchOf s h) n)).modHart h fun x =>
        (x.setX (fld (s.hart h).ibits 7 5) (mkHandle ((s.cluster k).slot u).gen k part u)).done := by
  have take := takeSlot_cons ((freeUnits_leaveOrder s k part (.hart h)).trans free) (launchOf s h) (tallocArgs (s.hart h) (latchedTalloc (s.hart h))).2
  rw [leaveOrder, State.slot_modPart] at take
  rw [← latchedTalloc_d]
  exact ⟨_, congrArg (fun p : State × Word => p.1.modHart h fun x => (x.setX (latchedTalloc (s.hart h)).d.toNat p.2).done) take⟩

theorem tallocGrant_hart {h u : Nat} {us : List Nat}
    (first : (((s.cluster s.ev.a).part s.ev.b).waiters.find? fun w => grantable s s.ev.a s.ev.b (waiterLaunch s w)) = some (.hart h))
    (free : freeUnits s s.ev.a s.ev.b = u :: us) :
    ∃ t, Runs .tallocGrant s t ∧ SameMemory s t ∧
      t.hart h = ((s.hart h).setX (fld (s.hart h).ibits 7 5) (mkHandle ((s.cluster s.ev.a).slot u).gen s.ev.a s.ev.b u)).done ∧
      ((t.cluster s.ev.a).slot u).st = .opened ∧ ((t.cluster s.ev.a).slot u).owner = launchOf s h ∧
      ((t.cluster s.ev.a).part s.ev.b).waiters = ((s.cluster s.ev.a).part s.ev.b).waiters.filter (· != .hart h) := by
  obtain ⟨n, grant⟩ := grantWaiter_hart (h := h) free
  have runs : exec .tallocGrant s = .next (grantWaiter s s.ev.a s.ev.b (.hart h)) := by
    rw [exec_tallocGrant]
    simp only [execTallocGrant, first]
  have slot := (leaveOrder s s.ev.a s.ev.b (.hart h)).slot_modSlot_self s.ev.a u (grantedSlot (launchOf s h) n)
  refine ⟨_, runs.trans (congrArg _ grant), fun _ => rfl, State.hart_setHart_self .., congrArg PoolSlot.st slot, congrArg PoolSlot.owner slot, ?_⟩
  exact congrArg Partition.waiters ((State.part_modSlot ..).trans (s.part_modPart_self ..))

/-! ### STARVATION_DETECTOR_FIRE (R103) -/

/-- A hart as the entry to a trap leaves it. -/
def Trapped (x : Hart) (cause : Nat) (tval : Word) : Prop := ∃ y : Hart, x = y.enter false cause tval

/-- Trap entry neither reads nor changes what an inbox holds. -/
theorem Trapped.held {x : Hart} {cause : Nat} {tval : Word} (h : Trapped x cause tval) (l : List HeldIwr) : Trapped { x with held := l } cause tval := by
  obtain ⟨y, rfl⟩ := h
  refine ⟨{ y with held := l }, ?_⟩
  have same : ∀ k, ({ y with held := l } : Hart).putKclst k = { y.putKclst k with held := l } := fun k => by
    unfold Hart.putKclst
    dsimp only
    split <;> rfl
  unfold Hart.enter
  rw [same]
  dsimp only
  split <;> rfl

/-- Nothing but harts, cores and clusters differs. -/
def OnlyWaits (s t : State) : Prop := { t with harts := s.harts, cores := s.cores, clusters := s.clusters } = s

/-- What leaving a wait withdraws (R47, R95). -/
theorem withdraw_only (s : State) (h : Nat) : OnlyWaits s (withdraw s h) := by
  unfold withdraw
  split <;> rfl

/-- Of the harts, it changes at most the inbox writes that one holds. -/
theorem withdraw_hart (s : State) (h g : Nat) : ∃ l, (withdraw s h).hart g = { s.hart g with held := l } := by
  unfold withdraw
  split
  case h_2 target reg _ =>
    rw [State.hart_modHart]
    split
    · next e => exact e ▸ ⟨_, rfl⟩
    · exact ⟨_, rfl⟩
  all_goals exact ⟨(s.hart g).held, rfl⟩

theorem tileTrapOn_hart (s : State) (h : Nat) (f : TFail) (tval : Word) : Trapped ((tileTrapOn s h f tval).hart h) f.cause tval :=
  ⟨_, State.hart_setHart_self ..⟩

theorem tileTrapOn_hart_ne {g h : Nat} (e : g ≠ h) (f : TFail) (tval : Word) : (tileTrapOn s h f tval).hart g = s.hart g :=
  (State.hart_setHart_ne _ _ e).trans (State.hart_setHart_ne s _ e)

/-- One hart abandons its wait and takes cause 31. -/
def trapStarver (tval : Word) (s : State) (p : Nat × Hart) : State := tileTrapOn (withdraw s p.1) p.1 { cause := 31, role := 0 } tval

/-- The trap of one hart keeps the trap of another. -/
theorem trapStarver_keeps {h : Nat} {tval : Word} (trapped : Trapped (s.hart h) 31 tval) (p : Nat × Hart) : Trapped ((trapStarver tval s p).hart h) 31 tval := by
  by_cases e : h = p.1
  · subst e
    exact tileTrapOn_hart ..
  · obtain ⟨l, hl⟩ := withdraw_hart s p.1 h
    rw [trapStarver, tileTrapOn_hart_ne e, hl]
    exact trapped.held l

/-- After the traps of some harts, each of them stands in its handler, and nothing but harts, cores and clusters differs. -/
theorem trapStarvers_spec (tval : Word) (hs : List (Nat × Hart)) (s : State) :
    OnlyWaits s (hs.foldl (trapStarver tval) s) ∧ ∀ p ∈ hs, Trapped ((hs.foldl (trapStarver tval) s).hart p.1) 31 tval := by
  induction hs using List.reverseRecOn with
  | nil => exact ⟨rfl, fun _ h => nomatch h⟩
  | append_singleton hs p ih =>
    obtain ⟨only, trapped⟩ := ih
    rw [List.foldl_concat]
    generalize hs.foldl (trapStarver tval) s = t at only trapped
    refine ⟨?_, fun q hq => ?_⟩
    · have one := withdraw_only t p.1
      unfold OnlyWaits at only one ⊢
      rw [← only]
      exact congrArg (fun x : State => { x with harts := s.harts, cores := s.cores, clusters := s.clusters }) one
    · obtain hq | hq := List.mem_append.mp hq
      · exact trapStarver_keeps (trapped q hq) p
      · rw [List.mem_singleton.mp hq]
        exact tileTrapOn_hart ..

theorem exec_starvationDetectorFire_starved (h : starved s s.ev.a s.ev.b = true) : exec .starvationDetectorFire s =
    .next (touchPart (((starvers s s.ev.a s.ev.b).foldl (trapStarver (mkHandle 0 s.ev.a s.ev.b 0)) s).modDie (s.ev.a / 16) fun d =>
      { d with poolEv := d.poolEv.set false (s.ev.a * 64 + s.ev.b) true }) s.ev.a s.ev.b) :=
  (exec_starvationDetectorFire s).trans (if_neg (by simp [h]))

theorem starvationDetectorFire_starved (h : starved s s.ev.a s.ev.b = true) :
    ∃ t, Runs .starvationDetectorFire s t ∧ SameMemory s t ∧
      (∀ h x, (h, x) ∈ starvers s s.ev.a s.ev.b → Trapped (t.hart h) 31 (mkHandle 0 s.ev.a s.ev.b 0)) ∧
      (t.die (s.ev.a / 16)).poolEv.get false (s.ev.a * 64 + s.ev.b) = true ∧ ((t.cluster s.ev.a).part s.ev.b).lastRead = s.clock := by
  obtain ⟨only, trapped⟩ := trapStarvers_spec (mkHandle 0 s.ev.a s.ev.b 0) (starvers s s.ev.a s.ev.b) s
  have runs := exec_starvationDetectorFire_starved h
  generalize (starvers s s.ev.a s.ev.b).foldl (trapStarver (mkHandle 0 s.ev.a s.ev.b 0)) s = t at only trapped runs
  refine ⟨_, runs, fun a => (congrArg (rawByte · a) only :), fun h x hx => trapped (h, x) hx, ?_, ?_⟩
  · have die := t.die_modDie (s.ev.a / 16) (s.ev.a / 16) fun d => { d with poolEv := d.poolEv.set false (s.ev.a * 64 + s.ev.b) true }
    rw [if_pos rfl] at die
    exact (congrArg (fun d : Die => d.poolEv.get false (s.ev.a * 64 + s.ev.b)) die).trans
      (SMap.get_set_self false (t.die (s.ev.a / 16)).poolEv (s.ev.a * 64 + s.ev.b) true)
  · refine (congrArg Partition.lastRead (State.part_modPart_self ..)).trans ?_
    exact (congrArg State.clock only :)

/-! ### The statement -/

/-- Settles O28: the `talloc` forms by the three answers to a request, what the answers rest on, and the two events. -/
theorem poolAllocate : Obligations.PoolAllocate := by
  unfold Obligations.PoolAllocate
  intro s f part n k l
  refine ⟨fun i nb form => ⟨fun refused => ?_, fun legal granted u us free => ?_, fun legal full hnb => ?_, fun legal full hnb => ?_⟩,
    ⟨allocRefused_iff, Iff.rfl, fun _ => rfl, fun _ _ _ => rfl, fun _ => grantable_iff, fun _ _ => ownerOf_some, fun _ => ownerOf_none.mp,
      inUse_eq s k part, fun _ => mem_freeUnits, fun u us h => ⟨mem_freeUnits.mp (h ▸ List.mem_cons_self), fun _ => freeUnits_lowest h⟩⟩,
    fun _ _ _ => tallocGrant_hart, starvationDetectorFire_starved⟩
  · exact (exec_tallocForm form).trans (finish_error (tallocOp_refused refused))
  · have runs := tallocOp_granted (nb := nb) (ne_true_of_eq_false legal) granted
    rw [takeSlot_cons free] at runs
    exact ⟨_, (exec_tallocForm form).trans (finish_ok runs), (OnlyTile.refl s { clus := k, part := part, unit := u }).modTile.modMe.retire,
      (me_retire _).trans (congrArg Hart.done (State.me_setHart_cur ..)), s.slot_modSlot_self ..⟩
  · subst hnb
    exact xDone_of_doneWith ((exec_tallocForm form).trans (finish_ok (tallocOp_null (ne_true_of_eq_false legal) (ne_true_of_eq_false full))))
  · subst hnb
    exact ⟨_, (exec_tallocForm form).trans (finish_error (tallocOp_waits (ne_true_of_eq_false legal) (ne_true_of_eq_false full))), fun _ => rfl,
      me_tallocWaits .., waiters_tallocWaits ..⟩

end Sys2Proof
end

section
/-!
SUPPORT. What a write by an agent outside the package leaves (R65, R112, R133): its bytes, the tags of its lines, and the reservations that end.
-/
namespace Sys2Proof
open Machine

theorem Machine.SMap.mem_of_get_ne {α : Type} {d : α} {m : SMap α} {i : Nat} (h : SMap.get d m i ≠ d) : (i, SMap.get d m i) ∈ m := by
  induction m with
  | nil => exact absurd rfl h
  | cons p m ih =>
    obtain ⟨k, v⟩ := p
    unfold SMap.get at h ⊢
    split at h
    · next e => rw [if_pos e, e]; exact List.mem_cons_self
    · next e => rw [if_neg e]; exact List.mem_cons_of_mem _ (ih h)

theorem Machine.State.hart_of_harts {s t : State} (h : t.harts = s.harts) (k : Nat) : t.hart k = s.hart k := by
  unfold State.hart
  rw [h]

/-! ### Reservations -/

/-- Nothing differs but the reservations of the harts. -/
def OnlyResv (s t : State) : Prop := { t with harts := s.harts } = s ∧ ∀ k, { t.hart k with resv := (s.hart k).resv } = s.hart k

theorem OnlyResv.refl (s : State) : OnlyResv s s := ⟨rfl, fun _ => rfl⟩

theorem OnlyResv.drop {s t : State} (only : OnlyResv s t) (h : Nat) : OnlyResv s (t.modHart h fun x => { x with resv := none }) := by
  obtain ⟨rest, harts⟩ := only
  refine ⟨rest, fun k => ?_⟩
  rw [State.hart_modHart]
  split
  · next e => rw [e]; exact harts h
  · exact harts k

/-- What `breakResv` does at one entry of the table of harts. -/
def endResv (h : Nat) (ls : List Nat) (t : State) (p : Nat × Hart) : State :=
  match p.2.resv with
  | some l => if p.1 ≠ h ∧ ls.contains l then t.modHart p.1 fun x => { x with resv := none } else t
  | none => t

theorem breakResv_eq (s : State) (h : Nat) (ls : List Nat) : breakResv s h ls = s.harts.foldl (endResv h ls) s := rfl

/-- An entry of the table ends its hart's reservation, or nothing. -/
theorem endResv_cases (h : Nat) (ls : List Nat) (t : State) (p : Nat × Hart) :
    endResv h ls t p = t ∨ endResv h ls t p = t.modHart p.1 fun x => { x with resv := none } := by
  unfold endResv
  split
  · split
    · exact .inr rfl
    · exact .inl rfl
  · exact .inl rfl

theorem breakResv_only (s : State) (h : Nat) (ls : List Nat) : OnlyResv s (breakResv s h ls) := by
  rw [breakResv_eq]
  refine List.foldlRecOn (motive := OnlyResv s) s.harts _ (.refl s) fun t ht p _ => ?_
  obtain e | e := endResv_cases h ls t p <;> rw [e]
  · exact ht
  · exact ht.drop p.1

/-- Every reservation of another hart on the lines ends. -/
theorem breakResv_ends {s : State} {h k l : Nat} {ls : List Nat} (held : (s.hart k).resv = some l) (hl : l ∈ ls) (hk : k ≠ h) :
    ((breakResv s h ls).hart k).resv = none := by
  have listed : (k, s.hart k) ∈ s.harts := SMap.mem_of_get_ne fun e => by
    have := held.symm.trans (congrArg Hart.resv e)
    cases this
  obtain ⟨before, after, split⟩ := List.append_of_mem listed
  rw [breakResv_eq, split, List.foldl_append, List.foldl_cons]
  refine List.foldlRecOn (motive := fun t : State => (t.hart k).resv = none) after _ ?_ fun t ht p _ => ?_
  · have ends : ∀ t, endResv h ls t (k, s.hart k) = t.modHart k fun x => { x with resv := none } := fun t => by
      unfold endResv
      rw [held]
      exact if_pos ⟨hk, List.contains_iff_mem.2 hl⟩
    rw [ends, State.hart_modHart, if_pos rfl]
  · obtain e | e := endResv_cases h ls t p <;> rw [e]
    · exact ht
    · rw [State.hart_modHart]
      split
      · rfl
      · exact ht

/-! ### Lines -/

theorem foldl_modLine_only (f : Nat → LineMeta → LineMeta) (ls : List Nat) (s : State) :
    { ls.foldl (fun (t : State) l => t.modLine l (f l)) s with lines := s.lines } = s :=
  List.foldlRecOn (motive := fun t : State => { t with lines := s.lines } = s) ls _ rfl fun _ ht _ _ => ht

/-- Each of the lines has tag 0 after an update of each that gives it tag 0. -/
theorem tag_foldl_modLine {f : Nat → LineMeta → LineMeta} (hf : ∀ l m, (f l m).tag = 0) (ls : List Nat) (s : State) {l : Nat}
    (h : l ∈ ls ∨ (s.line l).tag = 0) : ((ls.foldl (fun (t : State) l => t.modLine l (f l)) s).line l).tag = 0 := by
  induction ls generalizing s with
  | nil => exact h.resolve_left List.not_mem_nil
  | cons k ls ih =>
    refine ih _ ?_
    have line : (s.modLine k (f k)).line l = if l = k then f k (s.line k) else s.line l := SMap.get_set ..
    by_cases e : l = k
    · exact .inr (by rw [line, if_pos e, hf])
    · rw [line, if_neg e]
      exact h.imp_left fun hm => (List.mem_cons.1 hm).resolve_left e

/-! ### The write -/

/-- What a write of bytes from outside leaves: the bytes, every other byte at home, no tag on the lines, no reservation on them, and nothing else but what the
caches move. -/
theorem outerWrite_takes (s : State) (pa : Nat) (bs : List Byte) :
    let t := outerWrite s pa bs
    rawBytes t pa bs.length = bs ∧
      (∀ a, a < pa ∨ pa + bs.length ≤ a → isPeer (a / 128) = false → rawByte t a = rawByte s a) ∧ (∀ l ∈ linesOf pa bs.length, (t.line l).tag = 0) ∧
      (∀ h, { t.hart h with resv := (s.hart h).resv } = s.hart h) ∧
      (SMap.wf {} s.harts = true → ∀ h l, h ≠ 8192 → (s.hart h).resv = some l → l ∈ linesOf pa bs.length → (t.hart h).resv = none) ∧
      { t with mem := s.mem, lines := s.lines, harts := s.harts, clusters := s.clusters, dies := s.dies, egress := s.egress, choices := s.choices
               walkers := s.walkers } = s := by
  intro t
  let ls := linesOf pa bs.length
  let f := fun (l : Nat) (m : LineMeta) =>
    { m with tag := 0, zero := m.zero && bs.all (· == 0), psn := m.psn && !(decide (pa ≤ 128 * l) && decide (128 * l + 128 ≤ pa + bs.length)) }
  let u := ls.foldl homeWrite s
  let w := ls.foldl (fun (t : State) l => t.modLine l (f l)) (putRaw u pa bs)
  have left : CacheMoves s u := .foldl homeWrite_moves ls s
  have meta_ : { w with lines := (putRaw u pa bs).lines } = putRaw u pa bs := foldl_modLine_only f ls _
  obtain ⟨rest, harts⟩ : OnlyResv w t := breakResv_only w 8192 ls
  have wharts : w.harts = s.harts := (congrArg State.harts meta_ :).trans left.harts.1
  have hart : ∀ h, w.hart h = s.hart h := State.hart_of_harts wharts
  have byte : ∀ a, rawByte t a = rawByte (putRaw u pa bs) a := fun a =>
    (congrArg (rawByte · a) rest :).trans (congrArg (rawByte · a) meta_ :)
  refine ⟨?_, fun a ha home => ?_, fun l hl => ?_, fun h => ?_, fun _ h l hh held hl => ?_, ?_⟩
  · exact (List.map_congr_left fun i _ => byte (pa + i)).trans (rawBytes_putRaw u pa bs)
  · exact (byte a).trans ((rawByte_putRaw_ne u pa a bs ha).trans (left.1 a home))
  · rw [show t.line l = w.line l from (congrArg (State.line · l) rest :)]
    exact tag_foldl_modLine (fun _ _ => rfl) ls _ (.inl hl)
  · rw [← hart h]; exact harts h
  · exact breakResv_ends ((hart h).symm ▸ held) hl hh
  · let outside := fun x : State =>
      { x with mem := s.mem, lines := s.lines, harts := s.harts, clusters := s.clusters, dies := s.dies, egress := s.egress, choices := s.choices
               walkers := s.walkers }
    calc outside t = outside w := (congrArg outside rest :)
      _ = outside u := (congrArg outside meta_ :)
      _ = s := congrArg (fun x : State => { x with harts := s.harts }) left.2.2.1

end Sys2Proof
end

section
/-!
PROOF. O59: the accesses of the host and of the peers, and the links (R133, R135, R405 to R408).
-/
namespace Sys2Proof
open Machine

variable {s : State}

/-! ### Reads that a link failure loses (R407) -/

/-- What a map reads as after a change of its values that keeps the default. -/
theorem Machine.SMap.get_map_snd {α : Type} (d : α) (g : α → α) (hg : g d = d) (m : SMap α) (i : Nat) :
    SMap.get d (m.map fun p => (p.1, g p.2)) i = g (SMap.get d m i) := by
  induction m with
  | nil => exact hg.symm
  | cons p m ih =>
    rw [List.map_cons, SMap.get, SMap.get]
    split
    · rfl
    · exact ih

/-- A line of an L1 whose read is lost. -/
def Machine.CLine.lose (pl : Nat) (y : CLine) : CLine := if y.pl = pl then { y with psn := true } else y

/-- A line of a cluster whose read is lost. -/
def Machine.KLine.lose (pl : Nat) (y : KLine) : KLine := if y.pl = pl ∧ !y.isDirty then { y with psn := true } else y

/-- A core and a cluster whose lines' reads are lost. -/
def Machine.Core.lose (pl : Nat) (x : Core) : Core := { x with l1 := x.l1.map (·.lose pl) }
def Machine.Cluster.lose (pl : Nat) (x : Cluster) : Cluster := { x with cache := x.cache.map fun p => (p.1, p.2.map (·.lose pl)) }

theorem core_loseRead (s : State) (pl c : Nat) : (loseRead s pl).core c = (s.core c).lose pl :=
  SMap.get_map_snd ({} : Core) (·.lose pl) rfl s.cores c

theorem allKlines_loseRead (s : State) (pl k : Nat) : (loseRead s pl).allKlines k = (s.allKlines k).map (·.lose pl) := by
  have cluster : (loseRead s pl).cluster k = (s.cluster k).lose pl := SMap.get_map_snd ({} : Cluster) (·.lose pl) rfl s.clusters k
  unfold State.allKlines
  rw [cluster, Cluster.lose, List.map_flatten, List.map_map, List.map_map]
  rfl

/-- Every copy of a line is poison but those that a cluster holds dirty. -/
def Lost (pl : Nat) (s : State) : Prop :=
  (∀ c, ∀ y ∈ (s.core c).l1, y.pl = pl → y.psn = true) ∧ ∀ k, ∀ y ∈ s.allKlines k, y.pl = pl → y.isDirty = false → y.psn = true

/-- A line is lost once its own read is, and stays so when others are. -/
theorem lost_loseRead {pl q : Nat} (h : pl = q ∨ Lost pl s) : Lost pl (loseRead s q) := by
  refine ⟨fun c y hy hpl => ?_, fun k y hy hpl clean => ?_⟩
  · rw [core_loseRead] at hy
    obtain ⟨x, hx, rfl⟩ := List.mem_map.1 hy
    unfold CLine.lose at hpl ⊢
    split
    · rfl
    · next other =>
      rw [if_neg other] at hpl
      obtain rfl | lost := h
      · exact absurd hpl other
      · exact lost.1 c x hx hpl
  · rw [allKlines_loseRead] at hy
    obtain ⟨x, hx, rfl⟩ := List.mem_map.1 hy
    unfold KLine.lose at hpl clean ⊢
    split
    · rfl
    · next other =>
      rw [if_neg other] at hpl clean
      obtain rfl | lost := h
      · exact absurd ⟨hpl, by simp [clean]⟩ other
      · exact lost.2 k x hx hpl clean

/-- The lost reads of a list of addresses: only the copies of lines change, and every copy of theirs is poison. -/
theorem foldl_loseRead (pas : List Nat) (s : State) :
    let t := pas.foldl (fun s pa => loseRead s (pa / 128)) s
    { t with cores := s.cores, clusters := s.clusters } = s ∧ ∀ pa ∈ pas, Lost (pa / 128) t := by
  induction pas using List.reverseRecOn with
  | nil => exact ⟨rfl, fun _ h => nomatch h⟩
  | append_singleton pas q ih =>
    obtain ⟨only, lost⟩ := ih
    rw [List.foldl_concat]
    refine ⟨only, fun pa hpa => ?_⟩
    obtain hpa | hpa := List.mem_append.1 hpa
    · exact lost_loseRead (.inr (lost pa hpa))
    · exact lost_loseRead (.inl (congrArg (· / 128) (List.mem_singleton.1 hpa)))

/-- LINK_FAILURE: the link is down, what waits to leave takes its plane from the links that are left, and the lost reads are poison. -/
theorem linkFailure_spec (s : State) :
    ∃ t, Runs .linkFailure s t ∧ (∀ k, t.mgmt.links.get false k = if k = s.ev.a then false else s.mgmt.links.get false k) ∧
      { t.mgmt with links := s.mgmt.links } = s.mgmt ∧ { t with mgmt := s.mgmt, egress := s.egress, cores := s.cores, clusters := s.clusters } = s ∧
      t.egress = (s.egress.map fun e => if e.cls = 1 then { e with die := nohamDie t e.pa } else e) ∧
      ((∀ pa ∈ s.ev.nums, isPeer (pa / 128) = false) → t.cores = s.cores ∧ t.clusters = s.clusters) ∧
      ∀ pa ∈ s.ev.nums, isPeer (pa / 128) = true → (∀ c, ∀ y ∈ (t.core c).l1, y.pl = pa / 128 → y.psn = true) ∧
        ∀ k, ∀ y ∈ t.allKlines k, y.pl = pa / 128 → y.isDirty = false → y.psn = true := by
  let v : State := { s with mgmt := { s.mgmt with links := s.mgmt.links.set false s.ev.a false } }
  let w : State := { v with egress := v.egress.map fun e => if e.cls = 1 then { e with die := nohamDie v e.pa } else e }
  obtain ⟨only, lost⟩ := foldl_loseRead (s.ev.nums.filter fun pa => isPeer (pa / 128)) w
  have runs : Runs .linkFailure s ((s.ev.nums.filter fun pa => isPeer (pa / 128)).foldl (fun s pa => loseRead s (pa / 128)) w) := exec_linkFailure s
  have home : (∀ pa ∈ s.ev.nums, isPeer (pa / 128) = false) → (s.ev.nums.filter fun pa => isPeer (pa / 128)) = [] := fun none' =>
    List.filter_eq_nil_iff.2 fun pa hpa => by simp [none' pa hpa]
  have mem : ∀ pa ∈ s.ev.nums, isPeer (pa / 128) = true → pa ∈ s.ev.nums.filter fun pa => isPeer (pa / 128) := fun pa hpa peer =>
    List.mem_filter.2 ⟨hpa, peer⟩
  generalize s.ev.nums.filter (fun pa => isPeer (pa / 128)) = pas at *
  have mgmt : (pas.foldl (fun s pa => loseRead s (pa / 128)) w).mgmt = v.mgmt := (congrArg State.mgmt only :)
  have die : ∀ pa, nohamDie (pas.foldl (fun s pa => loseRead s (pa / 128)) w) pa = nohamDie v pa := fun pa => (congrArg (nohamDie · pa) only :)
  refine ⟨_, runs, fun k => ?_, ?_, ?_, ?_, fun none' => ?_, fun pa hpa peer => lost pa (mem pa hpa peer)⟩
  · rw [mgmt]
    exact SMap.get_set false s.mgmt.links s.ev.a k false
  · rw [mgmt]
  · exact (congrArg (fun x : State => { x with mgmt := s.mgmt, egress := s.egress }) only :)
  · simp only [die]
    exact (congrArg State.egress only :)
  · rw [home none']
    exact ⟨rfl, rfl⟩

/-! ### The host (R405) -/

theorem homeWrite_absent {pl : Nat} (h : s.dir pl = none) : homeWrite s pl = s := by
  unfold homeWrite
  rw [h]

theorem hostBacked_spec {pa : Nat} (h : hostBacked s pa = true) :
    s.mgmt.s2 = true ∧ paKind pa = .hbm ∧ ¬ (s.mgmt.mlBase ≤ pa ∧ pa < s.mgmt.mlBase + s.mgmt.mlSize) := by
  simp only [hostBacked, inMladotte, Bool.and_eq_true, beq_iff_eq, Bool.not_eq_true', Bool.and_eq_false_iff, decide_eq_false_iff_not] at h
  obtain ⟨⟨⟨s2, kind⟩, out⟩, -⟩ := h
  exact ⟨s2, kind, fun ⟨lo, hi⟩ => out.elim (· lo) (· hi)⟩

theorem peerAccepts_spec {pa : Nat} (h : peerAccepts s pa = true) :
    s.mgmt.podValid = true ∧ paKind pa = .hbm ∧ (∀ x ∈ mappers s (pa / 65536), fld x.2.pte 10 10 = 0) ∧
      (rawByte s (s.mgmt.nohexp.toNat + pa / 65536 / 8)).getLsbD (pa / 65536 % 8) = true := by
  simp only [peerAccepts, exported, Bool.and_eq_true, beq_iff_eq, List.all_eq_true] at h
  obtain ⟨⟨⟨⟨pod, kind⟩, -⟩, keys⟩, bit⟩ := h
  exact ⟨pod, kind, keys, bit⟩

/-- A page of a peer is backed while a link reports the device (R406). -/
theorem backed_peer {pa p : Nat} (kind : paKind pa = .peer p) (h : backed s pa = true) : s.mgmt.podValid = true ∧ p < 192 ∧ p ∈ s.mgmt.peers := by
  simp only [backed, kind, Bool.and_eq_true, decide_eq_true_eq, List.contains_iff_mem] at h
  obtain ⟨⟨⟨⟨pod, lt⟩, -⟩, mem⟩, -⟩ := h
  exact ⟨pod, lt, mem⟩

/-! ### The statement -/

/-- Settles O59: each event by its conditions in turn, a write from outside by what it leaves. -/
theorem hostAndPeers : Obligations.HostAndPeers := by
  unfold Obligations.HostAndPeers
  intro s sends takes
  have next : ∀ {i : Instr} {t u : State}, exec i s = .next t → t = u → Runs i s u := fun h e => h.trans (congrArg _ e)
  have writes : ∀ {i : Instr} {t : State} {pa : Nat} {bs : List Byte}, exec i s = .next t → t = outerWrite s pa bs → takes i pa bs := fun h e =>
    ⟨_, next h e, outerWrite_takes s _ _⟩
  refine ⟨⟨fun out => ?_, fun in_ flip => ?_, fun in_ flip => ?_⟩, fun out => ?_, fun in_ flip => ?_, fun in_ flip => ?_, fun pa => hostBacked_spec,
    ⟨fun other => ?_, fun host data => ?_, fun host plain => ?_⟩, fun link dev => ?_, fun out => next (exec_linkTraining s) (if_neg (by omega)),
    linkFailure_spec s, fun pa p => backed_peer, ?_⟩
  · exact next (exec_hostCxlMemRead s) (by simp [out])
  · exact next (exec_hostCxlMemRead s) (by simp [in_, flip])
  · exact next (exec_hostCxlMemRead s) (by simp [in_, flip])
  · exact next (exec_hostCxlMemWrite s) (by simp [out])
  · exact next (exec_hostCxlMemWrite s) (by simp [in_, flip])
  · exact writes (exec_hostCxlMemWrite s) (by simp [in_, flip])
  · exact next (exec_hostCxlCacheSnoop s) (if_pos other)
  · exact writes (exec_hostCxlCacheSnoop s) ((if_neg (not_not.2 host)).trans (if_pos data))
  · have runs : Runs .hostCxlCacheSnoop s (homeWrite s (s.ev.a / 64 * 64 / 128)) :=
      next (exec_hostCxlCacheSnoop s) ((if_neg (not_not.2 host)).trans (if_neg (not_not.2 plain)))
    exact ⟨⟨_, runs, homeWrite_moves ..⟩, fun absent => next runs (homeWrite_absent absent)⟩
  · exact ⟨_, next (exec_linkTraining s) (if_pos ⟨link, dev⟩), rfl, rfl, SMap.get_set_self false s.mgmt.links s.ev.a true, rfl,
      fun k hk => SMap.get_set_ne false s.mgmt.links true hk, rfl⟩
  · intro pa n ok
    refine ⟨fun write => ⟨fun h => writes (exec_peerAccessArrival s) ((if_pos write).trans (if_pos h)),
      fun h => next (exec_peerAccessArrival s) ((if_pos write).trans (if_neg h))⟩, fun read => ?_, peerAccepts_spec⟩
    by_cases h : ok
    · exact ⟨_, next (exec_peerAccessArrival s) ((if_neg (not_not.2 read)).trans (if_pos h)), rfl, rfl, (absurd h ·), fun _ => ⟨rfl, rfl⟩⟩
    · exact ⟨_, next (exec_peerAccessArrival s) ((if_neg (not_not.2 read)).trans (if_neg h)), rfl, rfl, fun _ => rfl, (absurd · h)⟩

end Sys2Proof
end

section
/-!
SUPPORT. Reduce contributions (R131, R155, R296): how they combine at the switch of a die.
-/
namespace Sys2Proof
open Machine

/-! ### The switch of a die -/

/-- An entry of a combining table has a contribution's key. -/
def Machine.CombEntry.isFor (x : Contrib) (e : CombEntry) : Bool := e.sum.line == x.line && e.sum.rop == x.rop && e.sum.fn == x.fn

/-- What an entry does once a contribution has combined in it: complete or released it leaves the table, else it joins the others. -/
def switchEntry (s : State) (d : Nat) (x : Contrib) (others : List CombEntry) (e : CombEntry) : State :=
  if x.release || (e.sum.expected != 0 && decide (e.sum.expected ≤ e.sum.parts.length)) then
    forwardContrib (s.modDie d fun y => { y with comb := others }) d e.sum
  else s.modDie d fun y => { y with comb := others ++ [e] }

section
variable {s : State} {x : Contrib} {rest : List Contrib} (transit : (s.die s.ev.a).transit = x :: rest)
include transit

theorem arrival_held (held : flipHeld s (128 * x.line) = true) : Runs .reduceContributionArrival s s := by
  rw [Runs, exec_reduceContributionArrival, execReduceContributionArrival]
  simp only [transit]
  exact if_pos held

variable (free : flipHeld s (128 * x.line) = false)
include free

/-- An arrival that is not held, by the entry of its key. -/
theorem arrival_next : exec .reduceContributionArrival s =
    let v := s.modDie s.ev.a fun y => { y with transit := rest }
    let others := (s.die s.ev.a).comb.filter fun y => !y.isFor x
    match (s.die s.ev.a).comb.find? (·.isFor x) with
    | some e => .next (switchEntry v s.ev.a x others { e with sum := e.sum.join x })
    | none => .next (if (s.die s.ev.a).comb.length < 256 then switchEntry v s.ev.a x others { sum := x, since := s.clock } else forwardContrib v s.ev.a x) := by
  have comb : ((s.modDie s.ev.a fun y => { y with transit := rest }).die s.ev.a).comb = (s.die s.ev.a).comb := by
    rw [State.die_modDie, if_pos rfl]
  have goes : ∀ (v : State) (d : Nat) (others : List CombEntry) (e : CombEntry),
      (if x.release || (e.sum.expected != 0 && decide (e.sum.expected ≤ e.sum.parts.length)) then
        Host.Outcome.next (forwardContrib (v.modDie d fun y => { y with comb := others }) d e.sum)
      else Host.Outcome.next (v.modDie d fun y => { y with comb := others ++ [e] }) : Host.Outcome State Fault Refusal) =
        .next (switchEntry v d x others e) := fun v d others e => (apply_ite Host.Outcome.next ..).symm
  rw [exec_reduceContributionArrival, execReduceContributionArrival]
  simp only [transit]
  rw [if_neg (by simp [Contrib.held, free])]
  simp only [comb, goes, CombEntry.isFor]
  generalize List.find? _ (s.die s.ev.a).comb = found
  cases found with
  | some e => rfl
  | none =>
    by_cases room : (s.die s.ev.a).comb.length < 256
    · simp only [if_pos room]
      rfl
    · simp only [if_neg room]

theorem arrival_found {e : CombEntry} (found : (s.die s.ev.a).comb.find? (·.isFor x) = some e) :
    Runs .reduceContributionArrival s (switchEntry (s.modDie s.ev.a fun y => { y with transit := rest }) s.ev.a x
      ((s.die s.ev.a).comb.filter fun y => !y.isFor x) { e with sum := e.sum.join x }) := by
  rw [Runs, arrival_next transit free, found]

theorem arrival_takes (none' : (s.die s.ev.a).comb.find? (·.isFor x) = none) (room : (s.die s.ev.a).comb.length < 256) :
    Runs .reduceContributionArrival s (switchEntry (s.modDie s.ev.a fun y => { y with transit := rest }) s.ev.a x
      ((s.die s.ev.a).comb.filter fun y => !y.isFor x) { sum := x, since := s.clock }) := by
  rw [Runs, arrival_next transit free, none']
  exact congrArg _ (if_pos room)

theorem arrival_passes (none' : (s.die s.ev.a).comb.find? (·.isFor x) = none) (full : 256 ≤ (s.die s.ev.a).comb.length) :
    Runs .reduceContributionArrival s (forwardContrib (s.modDie s.ev.a fun y => { y with transit := rest }) s.ev.a x) := by
  rw [Runs, arrival_next transit free, none']
  exact congrArg _ (if_neg (by omega))

end

/-- What the statement says of an entry that a contribution has combined in. -/
theorem switchEntry_goes {i : Instr} {s : State} {d : Nat} {x : Contrib} {rest : List Contrib} {others : List CombEntry} {e : CombEntry}
    (runs : Runs i s (switchEntry (s.modDie d fun y => { y with transit := rest }) d x others e)) :
    if x.release = true ∨ e.sum.expected ≠ 0 ∧ e.sum.expected ≤ e.sum.parts.length then
      Runs i s (forwardContrib ((s.modDie d fun y => { y with transit := rest }).modDie d fun y => { y with comb := others }) d e.sum)
    else ∃ t, Runs i s t ∧ SameMemory s t ∧ t.harts = s.harts ∧ t.cores = s.cores ∧ (t.die d).transit = rest ∧ (t.die d).comb = others ++ [e] := by
  unfold switchEntry at runs
  by_cases h : x.release = true ∨ e.sum.expected ≠ 0 ∧ e.sum.expected ≤ e.sum.parts.length
  · rw [if_pos (by simpa using h)] at runs
    rwa [if_pos h]
  · rw [if_neg (by simpa using h)] at runs
    rw [if_neg h]
    refine ⟨_, runs, fun _ => rfl, rfl, rfl, ?_, ?_⟩
    · rw [State.die_modDie, if_pos rfl, State.die_modDie, if_pos rfl]
    · rw [State.die_modDie, if_pos rfl]

section
variable {s : State} {e : CombEntry} (listed : (s.die s.ev.a).comb[s.ev.b]? = some e)
include listed

theorem timeout_next : exec .combiningEntryTimeout s = .next (if s.clock - e.since < 512 ∨ flipHeld s (128 * e.sum.line) = true then s
    else forwardContrib (s.modDie s.ev.a fun y => { y with comb := y.comb.erase e }) s.ev.a e.sum) := by
  rw [exec_combiningEntryTimeout, execCombiningEntryTimeout]
  simp only [listed]
  exact (apply_ite Host.Outcome.next ..).symm

theorem timeout_forwards (old : 512 ≤ s.clock - e.since) (free : flipHeld s (128 * e.sum.line) = false) :
    Runs .combiningEntryTimeout s (forwardContrib (s.modDie s.ev.a fun y => { y with comb := y.comb.erase e }) s.ev.a e.sum) :=
  (timeout_next listed).trans (congrArg _ (if_neg (by simp [free, Nat.not_lt.2 old])))

theorem timeout_waits (wait : s.clock - e.since < 512 ∨ flipHeld s (128 * e.sum.line) = true) : Runs .combiningEntryTimeout s s :=
  (timeout_next listed).trans (congrArg _ (if_pos wait))

end

/-! ### Contributions joined -/

/-- The value that a list of elements gives an address. -/
def elAt (els : List (Nat × Word)) (pa : Nat) : Option Word := (els.find? fun e => e.1 == pa).map (·.2)

/-- One element combined into a list. -/
def joinEl (rop : Nat) (l : List (Nat × Word)) (x : Nat × Word) : List (Nat × Word) :=
  if l.any fun e => e.1 == x.1 then l.map fun e => if e.1 = x.1 then (x.1, word (reduceOp rop e.2.toNat x.2.toNat)) else e else l ++ [x]

theorem elAt_cons (x : Nat × Word) (l : List (Nat × Word)) (pa : Nat) : elAt (x :: l) pa = if x.1 = pa then some x.2 else elAt l pa := by
  unfold elAt
  rw [List.find?_cons]
  by_cases h : x.1 = pa
  · rw [if_pos h, beq_iff_eq.2 h]
    rfl
  · rw [if_neg h, beq_false_of_ne h]

theorem elAt_none {l : List (Nat × Word)} {pa : Nat} (h : ∀ e ∈ l, e.1 ≠ pa) : elAt l pa = none := by
  unfold elAt
  rw [List.find?_eq_none.2 fun e he => by simpa using h e he]
  rfl

theorem elAt_append_one (l : List (Nat × Word)) (x : Nat × Word) (pa : Nat) :
    elAt (l ++ [x]) pa = (elAt l pa).or (if x.1 = pa then some x.2 else none) := by
  induction l with
  | nil => exact elAt_cons x [] pa
  | cons y l ih =>
    rw [List.cons_append, elAt_cons, elAt_cons, ih]
    split <;> rfl

theorem elAt_map (rop : Nat) (x : Nat × Word) (l : List (Nat × Word)) (pa : Nat) :
    elAt (l.map fun e => if e.1 = x.1 then (x.1, word (reduceOp rop e.2.toNat x.2.toNat)) else e) pa =
      if pa = x.1 then (elAt l pa).map fun a => word (reduceOp rop a.toNat x.2.toNat) else elAt l pa := by
  induction l with
  | nil => split <;> rfl
  | cons y l ih =>
    rw [List.map_cons, elAt_cons, elAt_cons, ih]
    by_cases hy : y.1 = x.1 <;> by_cases hp : pa = x.1 <;> by_cases e : y.1 = pa <;> simp_all

/-- One element combined: the values at its address combine, in the order of arrival. -/
theorem elAt_joinEl (rop : Nat) (l : List (Nat × Word)) (x : Nat × Word) (pa : Nat) :
    elAt (joinEl rop l x) pa =
      if pa = x.1 then some ((elAt l pa).elim x.2 fun a => word (reduceOp rop a.toNat x.2.toNat)) else elAt l pa := by
  unfold joinEl
  split
  · next some' =>
    rw [elAt_map]
    split
    · next e =>
      subst e
      obtain ⟨y, hy⟩ := Option.isSome_iff_exists.1 (List.find?_isSome.2 (List.any_eq_true.1 some'))
      have : elAt l x.1 = some y.2 := congrArg (Option.map Prod.snd) hy
      rw [this]
      rfl
    · rfl
  · next none' =>
    rw [elAt_append_one]
    split
    · next e =>
      subst e
      rw [elAt_none fun e he h => none' (List.any_eq_true.2 ⟨e, he, by simpa using h⟩), if_pos rfl]
      rfl
    · next e => rw [if_neg (Ne.symm e), Option.or_none]

/-- Elements of distinct addresses combined. -/
theorem elAt_foldl_joinEl (rop : Nat) {ys : List (Nat × Word)} (nodup : (ys.map (·.1)).Nodup) (l : List (Nat × Word)) (pa : Nat) :
    elAt (ys.foldl (joinEl rop) l) pa = match elAt l pa, elAt ys pa with
      | some a, some b => some (word (reduceOp rop a.toNat b.toNat))
      | some a, none => some a
      | none, b => b := by
  induction ys generalizing l with
  | nil => rw [List.foldl_nil]; cases elAt l pa <;> rfl
  | cons y ys ih =>
    obtain ⟨fresh, nodup⟩ := List.nodup_cons.1 nodup
    rw [List.foldl_cons, ih nodup, elAt_joinEl, elAt_cons]
    by_cases e : pa = y.1
    · subst e
      rw [elAt_none fun e he h => fresh (List.mem_map.2 ⟨e, he, h⟩), if_pos rfl, if_pos rfl]
      cases elAt l y.1 <;> rfl
    · rw [if_neg e, if_neg (Ne.symm e)]

end Sys2Proof
end

section
/-!
SUPPORT. What performing a contribution leaves (R131, R340): memory, the record, and the copies that it came from.
-/
namespace Sys2Proof
open Machine

/-! ### Bytes stored at their homes -/

theorem lastAt_idem (cs : List PCell) (a : Nat) (b : Byte) : lastAt cs a (lastAt cs a b) = lastAt cs a b := by
  unfold lastAt
  cases cs.reverse.find? fun c => c.pa == a <;> rfl

/-- Of some cells those of one line decide the bytes of that line. -/
theorem lastAt_filter_line (cs : List PCell) (l a : Nat) (b : Byte) :
    lastAt (cs.filter fun c => c.pa / 128 == l) a b = if a / 128 = l then lastAt cs a b else b := by
  induction cs generalizing b with
  | nil => exact (ite_self b).symm
  | cons c cs ih =>
    rw [List.filter_cons, lastAt_cons]
    by_cases hc : c.pa / 128 = l
    · rw [if_pos (beq_iff_eq.2 hc), lastAt_cons, ih]
      split
      · rfl
      · next other => exact if_neg fun (e : c.pa = a) => other (e ▸ hc)
    · rw [if_neg (by simpa using hc), ih]
      split
      · next line => rw [if_neg fun (e : c.pa = a) => hc (e ▸ line)]
      · rfl

theorem writeCells_stored (s : State) {cs : List PCell} (t : BitVec 16) (h : ∀ c ∈ cs, c.key = 0) : StoredTo s (writeCells s cs t) cs := by
  intro a ha
  have lines : ∀ (ls : List Nat) (s : State), rawByte (ls.foldl (fun s l => writeLine s l (cs.filter fun c => c.pa / 128 == l) t) s) a =
      if a / 128 ∈ ls then lastAt cs a (rawByte s a) else rawByte s a := by
    intro ls
    induction ls with
    | nil => exact fun s => (if_neg List.not_mem_nil).symm
    | cons l ls ih =>
      intro s
      rw [List.foldl_cons, ih, writeLine_byte s l _ t a (fun c hc => h c (List.mem_filter.1 hc).1) ha, lastAt_filter_line]
      by_cases hl : a / 128 = l
      · simp [hl, lastAt_idem]
      · simp [hl]
  refine (lines _ s).trans ?_
  split
  · rfl
  · next none' =>
    refine (lastAt_none (fun c hc e => none' ?_) _).symm
    rw [List.mem_eraseDups, ← e]
    exact List.mem_map_of_mem hc

/-! ### The updates of a contribution -/

/-- One update: an element combined with what the destination holds. -/
def updateEl (x : Contrib) (s : State) (e : Nat × Word) : State :=
  writeMem s x.key e.1 (natToLe x.size (reduceOp x.rop (leToNat (readMem s x.key e.1 x.size)) e.2.toNat)) x.taint

section
variable {x : Contrib} (plain : x.key = 0)
include plain

theorem updateEl_byte (s : State) (e : Nat × Word) {a : Nat} (ha : isPeer (a / 128) = false) : rawByte (updateEl x s e) a =
    lastAt (cellsOf e.1 0 (natToLe x.size (reduceOp x.rop (leToNat (rawBytes s e.1 x.size)) e.2.toNat))) a (rawByte s a) := by
  unfold updateEl readMem
  rw [if_pos plain, plain]
  exact writeCells_stored s x.taint (fun c hc => (mem_cellsOf hc).1) a ha

theorem updateEl_frame (s : State) {e : Nat × Word} {a : Nat} (ha : isPeer (a / 128) = false) (out : a < e.1 ∨ e.1 + x.size ≤ a) :
    rawByte (updateEl x s e) a = rawByte s a := by
  rw [updateEl_byte plain s e ha]
  refine lastAt_none (fun c hc h => ?_) _
  obtain ⟨-, lo, hi⟩ := mem_cellsOf hc
  rw [length_natToLe] at hi
  omega

theorem updateEl_reads (s : State) {e : Nat × Word} (home : isPeer (e.1 / 128) = false) (fit : e.1 % 128 + x.size ≤ 128) :
    rawBytes (updateEl x s e) e.1 x.size = natToLe x.size (reduceOp x.rop (leToNat (rawBytes s e.1 x.size)) e.2.toNat) := by
  apply List.ext_getElem
  · simp [rawBytes, length_natToLe]
  · intro i h1 h2
    have hi : i < x.size := by simpa [rawBytes] using h1
    simp only [rawBytes, List.getElem_map, List.getElem_range]
    rw [updateEl_byte plain s e (by rwa [show (e.1 + i) / 128 = e.1 / 128 by omega]), lastAt_cellsOf _ _ _ _ h2]
    rfl

/-- The bytes of an element that an update does not touch. -/
theorem updateEl_other (s : State) {e f : Nat × Word} (home : isPeer (f.1 / 128) = false) (fit : f.1 % 128 + x.size ≤ 128)
    (apart : f.1 + x.size ≤ e.1 ∨ e.1 + x.size ≤ f.1) : rawBytes (updateEl x s e) f.1 x.size = rawBytes s f.1 x.size :=
  List.map_congr_left fun i hi => by
    have hi := List.mem_range.1 hi
    exact updateEl_frame plain s (by rwa [show (f.1 + i) / 128 = f.1 / 128 by omega]) (by omega)

/-- One update of each of some elements that lie apart. -/
theorem foldl_updateEl {els : List (Nat × Word)} (inside : ∀ e ∈ els, isPeer (e.1 / 128) = false ∧ e.1 % 128 + x.size ≤ 128)
    (apart : els.Pairwise fun e f => f.1 + x.size ≤ e.1 ∨ e.1 + x.size ≤ f.1) (s : State) :
    let t := els.foldl (updateEl x) s
    (∀ e ∈ els, rawBytes t e.1 x.size = natToLe x.size (reduceOp x.rop (leToNat (rawBytes s e.1 x.size)) e.2.toNat)) ∧
      ∀ a, isPeer (a / 128) = false → (∀ e ∈ els, a < e.1 ∨ e.1 + x.size ≤ a) → rawByte t a = rawByte s a := by
  induction els generalizing s with
  | nil => exact ⟨fun _ h => absurd h List.not_mem_nil, fun _ _ _ => rfl⟩
  | cons e els ih =>
    obtain ⟨away, apart⟩ := List.pairwise_cons.1 apart
    obtain ⟨⟨home, fit⟩, inside⟩ := List.forall_mem_cons.1 inside
    obtain ⟨reads, frame⟩ := ih inside apart (updateEl x s e)
    refine ⟨List.forall_mem_cons.2 ⟨?_, fun f hf => ?_⟩, fun a ha out => ?_⟩
    · rw [← updateEl_reads plain s home fit]
      refine List.map_congr_left fun i hi => frame _ ?_ fun f hf => ?_
      · have hi := List.mem_range.1 hi
        rwa [show (e.1 + i) / 128 = e.1 / 128 by omega]
      · have hi := List.mem_range.1 hi
        have := away f hf
        omega
    · obtain ⟨home, fit⟩ := inside f hf
      rw [List.foldl_cons, reads f hf, updateEl_other plain s home fit (away f hf)]
    · obtain ⟨out, outs⟩ := List.forall_mem_cons.1 out
      rw [List.foldl_cons, frame a ha outs, updateEl_frame plain s ha out]

end

/-- Elements of distinct aligned addresses lie apart. -/
theorem aligned_apart {els : List (Nat × Word)} {n : Nat} (size : n = 2 ∨ n = 4 ∨ n = 8) (nodup : (els.map (·.1)).Nodup) (aligned : ∀ e ∈ els, e.1 % n = 0) :
    els.Pairwise fun e f => f.1 + n ≤ e.1 ∨ e.1 + n ≤ f.1 := by
  refine List.Pairwise.imp_of_mem (fun {e f} he hf ne => ?_) (List.pairwise_map.1 nodup)
  have := aligned e he
  have := aligned f hf
  obtain rfl | rfl | rfl := size <;> omega

/-! ### What is performed is noted -/

/-- Nothing but cores differs, and no core's request FIFO. -/
def FifosKept (s t : State) : Prop := { t with cores := s.cores } = s ∧ ∀ c, (t.core c).fifo = (s.core c).fifo

theorem FifosKept.refl (s : State) : FifosKept s s := ⟨rfl, fun _ => rfl⟩

theorem FifosKept.modCore {s t : State} {c : Nat} {f : Core → Core} (kept : FifosKept s t) (hf : ∀ x, (f x).fifo = x.fifo) : FifosKept s (t.modCore c f) := by
  obtain ⟨rest, fifo⟩ := kept
  refine ⟨rest, fun k => ?_⟩
  rw [State.core_modCore]
  split
  · next h => rw [hf, h, fifo]
  · exact fifo k

theorem FifosKept.wmAdvance {s t : State} {c : Nat} {r : CopyReq} {va : Word} (kept : FifosKept s t) : FifosKept s (Machine.wmAdvance t c r va) := by
  unfold Machine.wmAdvance
  split
  · exact kept
  · exact kept.modCore fun _ => rfl

theorem notePerformed_keeps (s : State) (ps : List ContribSrc) : FifosKept s (notePerformed s ps) := by
  refine List.foldlRecOn (motive := FifosKept s) ps _ (.refl s) fun t ht p _ => ?_
  refine List.foldlRecOn (motive := FifosKept s) _ _ (ht.modCore fun _ => rfl) fun u hu y _ => ?_
  split
  · exact hu.wmAdvance
  · exact hu

/-! ### Copies that end at a seal failure -/

/-- Nothing but cores and clusters differs. -/
def CoresOnly (s t : State) : Prop := { t with cores := s.cores, clusters := s.clusters } = s

theorem CoresOnly.trans {s t u : State} (h : CoresOnly s t) (g : CoresOnly t u) : CoresOnly s u :=
  (congrArg (fun x : State => { x with cores := s.cores, clusters := s.clusters }) g :).trans h

theorem FifosKept.coresOnly {s t : State} (h : FifosKept s t) : CoresOnly s t := (congrArg (fun x : State => { x with clusters := s.clusters }) h.1 :)

theorem CoresOnly.modReq {s t : State} {c i : Nat} {f : CopyReq → CopyReq} (h : CoresOnly s t) : CoresOnly s (Machine.modReq t c i f) := h

/-- Nothing but clusters differs. -/
def ClustersOnly (s t : State) : Prop := { t with clusters := s.clusters } = s

theorem ClustersOnly.modCluster {s t : State} {k : Nat} {f : Cluster → Cluster} (h : ClustersOnly s t) : ClustersOnly s (t.modCluster k f) := h

theorem ClustersOnly.consume {s t : State} {r : TileRef} (h : ClustersOnly s t) : ClustersOnly s (Machine.consume t r) := by
  unfold Machine.consume freeTile touchPart State.modTile
  dsimp only
  split <;> exact h.modCluster.modCluster

theorem dropSource_only (s : State) (r : CopyReq) (count : Bool) : ClustersOnly s (dropSource s r count) := by
  have same : ClustersOnly s s := rfl
  unfold dropSource State.modTile
  split
  · exact same
  · split
    · exact same
    · dsimp only
      split
      · exact same.modCluster.consume
      · exact same.modCluster

/-- A request that ends with another end than UE. -/
theorem endReq_some {s : State} {c i code : Nat} {r : CopyReq} (h : (s.core c).req i = some r) (hc : code ≠ 1) (detail off : Nat) :
    endReq s c i code detail off = modReq (dropSource s r (code == 0 || (code != 1 && r.off != 0))) c i
      fun r => { r with st := .ended, code := code, detail := detail, off := off, res := false } := by
  unfold endReq
  rw [h]
  dsimp only
  rw [if_neg fun e => hc e.1]

theorem endReq_only {s : State} {c i code : Nat} (hc : code ≠ 1) (detail off : Nat) : CoresOnly s (endReq s c i code detail off) := by
  cases h : (s.core c).req i with
  | none =>
    unfold endReq
    rw [h]
    rfl
  | some r =>
    rw [endReq_some h hc]
    have drop : CoresOnly s (dropSource s r (code == 0 || (code != 1 && r.off != 0))) :=
      (congrArg (fun x : State => { x with cores := s.cores }) (dropSource_only s r _) :)
    exact drop.modReq

theorem req_modReq (s : State) (c i : Nat) (f : CopyReq → CopyReq) : ((modReq s c i f).core c).req i = ((s.core c).req i).map f := by
  unfold modReq
  rw [State.core_modCore_self, Core.req_setReq]

theorem req_endReq {s : State} {c i code : Nat} {r : CopyReq} (h : (s.core c).req i = some r) (hc : code ≠ 1) (detail off : Nat) :
    ((endReq s c i code detail off).core c).req i = some { r with st := .ended, code := code, detail := detail, off := off, res := false } := by
  rw [endReq_some h hc, req_modReq, State.core_of_cores (dropSource_keeps ..).2, h]
  rfl

theorem failPart_only (s : State) (p : ContribSrc) : CoresOnly s (failPart s p) := by
  unfold failPart
  split
  · next i r _ =>
    have same : CoresOnly s s := rfl
    have ended : CoresOnly s (sealEnd s p.core i p.off (r.dstAt p.off)) := (endReq_only (by decide) 0 p.off).modReq
    split
    · exact same
    · exact ended.modReq
  · rfl

/-- The one request of a contribution's source that failed ends FAULT there. -/
theorem failPart_req {s : State} {p : ContribSrc} {j : Nat} {r : CopyReq} (h : (s.core p.core).req j = some r)
    (found : (reqsOf s p.core).find? (fun x => x.2.seq == p.seq) = some (j, r)) (fresh : ¬ (r.st = .ended ∧ r.code ≠ 0 ∧ r.off ≤ p.off)) :
    ((failPart s p).core p.core).req j = some { r with
      st := .ended, code := 2, detail := 0, off := p.off, res := false, isSealed := true, faultVa := r.dstAt p.off
      undelivered := r.undelivered - (r.off - p.off) } := by
  unfold failPart
  rw [found]
  dsimp only
  rw [if_neg fresh, req_modReq, sealEnd, req_modReq, req_endReq h (by decide)]
  rfl

/-! ### A contribution performed (R131, R340) -/

/-- The state in which the updates of a contribution, or their refusal, are noted. -/
def performed (s : State) (x : Contrib) : State :=
  if tagOk s x.key x.line then breakResv (x.els.foldl (updateEl x) s) 8192 [x.line]
  else x.parts.foldl failPart (bookAppend s 8 x.fn x.eid (((x.parts.head?).map (·.core)).getD 0) [word (128 * x.line), word x.key])

theorem applyContrib_eq (s : State) (x : Contrib) : applyContrib s x = notePerformed (performed s x) x.parts := rfl

theorem applyContrib_byte (s : State) (x : Contrib) (a : Nat) : rawByte (applyContrib s x) a = rawByte (performed s x) a :=
  (congrArg (rawByte · a) (notePerformed_keeps (performed s x) x.parts).1 :)

theorem applyContrib_plain {s : State} {x : Contrib} (plain : x.key = 0) (a : Nat) : rawByte (applyContrib s x) a = rawByte (x.els.foldl (updateEl x) s) a := by
  rw [applyContrib_byte, performed, if_pos (by simp [tagOk, plain]), breakResv_byte]

/-- A contribution to a line that no key seals: one update of each element, and no other byte. -/
theorem applyContrib_updates {s : State} {x : Contrib} (plain : x.key = 0) (home : isPeer x.line = false) (size : x.size = 2 ∨ x.size = 4 ∨ x.size = 8)
    (nodup : (x.els.map (·.1)).Nodup) (aligned : ∀ e ∈ x.els, e.1 / 128 = x.line ∧ e.1 % x.size = 0) :
    let t := applyContrib s x
    (∀ e ∈ x.els, rawBytes t e.1 x.size = natToLe x.size (reduceOp x.rop (leToNat (rawBytes s e.1 x.size)) e.2.toNat)) ∧
      ∀ a, isPeer (a / 128) = false → (∀ e ∈ x.els, a < e.1 ∨ e.1 + x.size ≤ a) → rawByte t a = rawByte s a := by
  have inside : ∀ e ∈ x.els, isPeer (e.1 / 128) = false ∧ e.1 % 128 + x.size ≤ 128 := fun e he => by
    obtain ⟨line, mult⟩ := aligned e he
    refine ⟨line ▸ home, ?_⟩
    obtain h | h | h := size <;> rw [h] at mult ⊢ <;> omega
  obtain ⟨reads, frame⟩ := foldl_updateEl plain inside (aligned_apart size nodup fun e he => (aligned e he).2) s
  exact ⟨fun e he => (List.map_congr_left fun i _ => applyContrib_plain plain (e.1 + i)).trans (reads e he),
    fun a ha out => (applyContrib_plain plain a).trans (frame a ha out)⟩

theorem performed_broken {s : State} {x : Contrib} (broken : tagOk s x.key x.line = false) : performed s x =
    x.parts.foldl failPart (bookAppend s 8 x.fn x.eid (((x.parts.head?).map (·.core)).getD 0) [word (128 * x.line), word x.key]) :=
  if_neg (by simp [broken])

/-- A record changes the book alone. -/
theorem bookAppend_only (s : State) (type fn eid core : Nat) (args : List Word) : ∃ b, bookAppend s type fn eid core args = { s with book := b } := by
  unfold bookAppend bookPut
  dsimp only
  split <;> exact ⟨_, rfl⟩

/-- A contribution to a line whose tag fails: no byte changes, the failure is recorded. -/
theorem applyContrib_broken {s : State} {x : Contrib} (broken : tagOk s x.key x.line = false) :
    SameMemory s (applyContrib s x) ∧
      (applyContrib s x).book = (bookAppend s 8 x.fn x.eid (((x.parts.head?).map (·.core)).getD 0) [word (128 * x.line), word x.key]).book := by
  let u := bookAppend s 8 x.fn x.eid (((x.parts.head?).map (·.core)).getD 0) [word (128 * x.line), word x.key]
  have ends : CoresOnly u (performed s x) := by
    rw [performed_broken broken]
    exact List.foldlRecOn (motive := CoresOnly u) x.parts failPart (rfl : CoresOnly u u) fun t ht p _ => ht.trans (failPart_only t p)
  have only : CoresOnly u (applyContrib s x) := ends.trans (notePerformed_keeps (performed s x) x.parts).coresOnly
  have mem : u.mem = s.mem := bookAppend_mem ..
  refine ⟨fun a => ?_, (congrArg State.book only :)⟩
  rw [rawByte, show (applyContrib s x).mem = u.mem from (congrArg State.mem only :), mem]
  rfl

/-- The copy that a contribution came from ends FAULT at its piece. -/
theorem applyContrib_ends {s : State} {x : Contrib} {p : ContribSrc} {j : Nat} {r : CopyReq} (broken : tagOk s x.key x.line = false)
    (parts : x.parts = [p]) (h : (s.core p.core).req j = some r) (mem : (j, r) ∈ reqsOf s p.core) (seq : r.seq = p.seq)
    (one : ∀ y ∈ reqsOf s p.core, y.1 = j ∨ y.2.seq = p.seq → y = (j, r)) (fresh : ¬ (r.st = .ended ∧ r.code ≠ 0 ∧ r.off ≤ p.off)) :
    ∃ y, ((applyContrib s x).core p.core).req j = some y ∧ y.st = .ended ∧ y.code = 2 ∧ y.off = p.off ∧ y.isSealed = true ∧ y.faultVa = r.dstAt p.off := by
  let u := bookAppend s 8 x.fn x.eid p.core [word (128 * x.line), word x.key]
  have cores : u.cores = s.cores := by
    obtain ⟨b, hb⟩ := bookAppend_only s 8 x.fn x.eid p.core [word (128 * x.line), word x.key]
    exact (congrArg State.cores hb :)
  have core := State.core_of_cores cores p.core
  have found : (reqsOf u p.core).find? (fun y => y.2.seq == p.seq) = some (j, r) := by
    rw [reqsOf, core]
    obtain ⟨y, hy⟩ := Option.isSome_iff_exists.1 (List.find?_isSome (p := fun y : Nat × CopyReq => y.2.seq == p.seq) |>.2 ⟨(j, r), mem, beq_iff_eq.2 seq⟩)
    have same : y.2.seq = p.seq := by simpa using List.find?_some hy
    rw [← one y (List.mem_of_find?_eq_some hy) (.inr same)]
    exact hy
  have done : performed s x = failPart u p := by rw [performed_broken broken, parts]; rfl
  have fifo := (notePerformed_keeps (performed s x) x.parts).2 p.core
  have req := failPart_req (core ▸ h) found fresh
  rw [applyContrib_eq, Core.req, fifo, done]
  exact ⟨_, req, rfl, rfl, rfl, rfl, rfl⟩

end Sys2Proof
end

section
/-!
SUPPORT. The end of a request (R292 to R295, R300): what reaches its hart, its core, and the channel of its message.
-/
namespace Sys2Proof
open Machine

/-! ### What the end of a request may change -/

/-- Memory outside the peer windows is as it was, and nothing differs but the named harts and cores and, at the widest scope, what the caches move; no tile differs. -/
structure Reaches (wide : Prop) (s t : State) (hs cs : List Nat) : Prop where
  home : HomeMemory s t
  harts : ∀ k, k ∉ hs → t.hart k = s.hart k
  cores : ∀ k, k ∉ cs → t.core k = s.core k
  narrow : ¬ wide → OnlyUnits s t hs cs
  slots : ∀ k, (t.cluster k).slots = (s.cluster k).slots

namespace Reaches

variable {wide : Prop} {s t : State} {hs cs : List Nat}

theorem refl (s : State) : Reaches wide s s hs cs := ⟨fun _ _ => rfl, fun _ _ => rfl, fun _ _ => rfl, fun _ => .refl .., fun _ => rfl⟩

theorem only (reach : Reaches wide s t hs cs) :
    HomeMemory s t ∧ (∀ k, k ∉ hs → t.hart k = s.hart k) ∧ (∀ k, k ∉ cs → t.core k = s.core k) ∧ (¬ wide → OnlyUnits s t hs cs) :=
  ⟨reach.home, reach.harts, reach.cores, reach.narrow⟩

theorem modHart {h : Nat} {f : Hart → Hart} (reach : Reaches wide s t hs cs) (hh : h ∈ hs) : Reaches wide s (t.modHart h f) hs cs :=
  ⟨reach.home, fun k hk => (State.hart_modHart t h k f).trans ((if_neg (by rintro rfl; exact hk hh)).trans (reach.harts k hk)), reach.cores,
    fun n => (reach.narrow n).modHart hh, reach.slots⟩

theorem modCore {c : Nat} {f : Core → Core} (reach : Reaches wide s t hs cs) (hc : c ∈ cs) : Reaches wide s (t.modCore c f) hs cs :=
  ⟨reach.home, reach.harts, fun k hk => (State.core_modCore t c k f).trans ((if_neg (by rintro rfl; exact hk hc)).trans (reach.cores k hk)),
    fun n => (reach.narrow n).modCore hc, reach.slots⟩

theorem moves {u : State} (reach : Reaches wide s t hs cs) (hw : wide) (m : CacheMoves t u) : Reaches wide s u hs cs := by
  obtain ⟨hh, hc, -, -⟩ := m.harts
  obtain ⟨home, -, -, slots, -⟩ := m
  exact ⟨fun a ha => (home a ha).trans (reach.home a ha), fun k hk => (State.hart_of_harts hh k).trans (reach.harts k hk),
    fun k hk => (State.core_of_cores hc k).trans (reach.cores k hk), fun n => absurd hw n,
    fun k => (congrArg Cluster.slots (slots k) :).trans (reach.slots k)⟩

theorem coreRelease {c scope : Nat} (reach : Reaches wide s t hs cs) (hw : scope = 5 → wide) : Reaches wide s (Machine.coreRelease t c scope) hs cs := by
  unfold Machine.coreRelease
  split
  · next h => exact reach.moves (hw h) (peerRelease_moves ..)
  · exact reach

theorem coreAcquire {c scope : Nat} (reach : Reaches wide s t hs cs) (hc : c ∈ cs) (hw : scope = 5 → wide) :
    Reaches wide s (Machine.coreAcquire t c scope) hs cs := by
  have cleared : Reaches wide s (if scope ≥ 2 then l1Clear t c else t) hs cs := by
    split
    · exact reach.modCore hc
    · exact reach
  unfold Machine.coreAcquire
  dsimp only
  split
  · next h => exact (cleared.modCore hc).moves (hw h) (kFlush_moves ..)
  · exact cleared

theorem tile (reach : Reaches wide s t hs cs) (p : TileRef) : t.tile p = s.tile p := by
  unfold State.tile Cluster.slot
  rw [reach.slots]

end Reaches

/-- An acquire past the cluster empties the core's L1. -/
theorem coreAcquire_l1 (s : State) (c : Nat) {scope : Nat} (h : 2 ≤ scope) : ((coreAcquire s c scope).core c).l1 = [] := by
  unfold coreAcquire
  rw [if_pos h]
  dsimp only
  split
  · rw [peerAcquire, State.core_of_cores (kFlush_moves ..).harts.2.1, State.core_modCore_self, l1Clear_core]
    rfl
  · rw [l1Clear_core]

/-! ### The hart is told -/

/-- What an end other than OK leaves of its hart (R295, R46, R340). -/
def Machine.CopyReq.note (r : CopyReq) (c i : Nat) (h : Hart) : Hart :=
  let h := if fld h.k.kcpst 48 8 ≠ 0 then h
    else { h with k := { h.k with kcpst := word (r.detail * 2 ^ 56 + r.code * 2 ^ 48 + i * 2 ^ 40 + r.off % 2 ^ 40) } }
  if r.own ∧ r.code = 2 ∧ (r.isSealed ∨ !isService r.hart) ∧ (r.ct = 1 ∨ (r.ct = 3 ∧ r.ccore = c)) then
    { h with faults := h.faults ++ [{ target := if r.ct = 1 then r.tgt else 16 + r.tgt, va := r.faultVa, isSealed := r.isSealed }] }
  else h

/-- A watermark channel in error (R81). -/
def failWm (s : State) (c : Nat) (r : CopyReq) : State :=
  if r.ct = 4 ∧ (r.code = 1 ∨ r.code = 2) then s.modCore c fun k => k.modWm r.tgt fun w => if w.era = r.wmEra ∧ w.st = 1 then { w with st := 3 } else w else s

theorem noteEnd_eq (s : State) (c i : Nat) (r : CopyReq) :
    noteEnd s c i r = if r.code = 0 ∨ r.ct = 2 then failWm s c r else (failWm s c r).modHart r.hart (r.note c i) := rfl

theorem failWm_harts (s : State) (c : Nat) (r : CopyReq) : (failWm s c r).harts = s.harts := by
  unfold failWm
  split <;> rfl

theorem noteEnd_offer (s : State) (c i : Nat) {r : CopyReq} (h : r.ct = 2) : noteEnd s c i r = s := by
  rw [noteEnd_eq, if_pos (.inr h), failWm, if_neg (by omega)]

theorem noteEnd_hart (s : State) (c i : Nat) {r : CopyReq} (h : r.ct ≠ 2) :
    (noteEnd s c i r).hart r.hart = if r.code = 0 then s.hart r.hart else r.note c i (s.hart r.hart) := by
  rw [noteEnd_eq]
  by_cases ok : r.code = 0
  · rw [if_pos (.inl ok), if_pos ok, State.hart_of_harts (failWm_harts ..)]
  · rw [if_neg (by tauto), if_neg ok, State.hart_modHart, if_pos rfl, State.hart_of_harts (failWm_harts ..)]

theorem Reaches.noteEnd {wide : Prop} {s t : State} {hs cs : List Nat} {c i : Nat} {r : CopyReq} (reach : Reaches wide s t hs cs) (hh : r.hart ∈ hs) (hc : c ∈ cs) :
    Reaches wide s (Machine.noteEnd t c i r) hs cs := by
  have failed : Reaches wide s (failWm t c r) hs cs := by
    unfold failWm
    split
    · exact reach.modCore hc
    · exact reach
  rw [noteEnd_eq]
  split
  · exact failed
  · exact failed.modHart hh

theorem Machine.CopyReq.note_cf (r : CopyReq) (c i : Nat) (h : Hart) : (r.note c i h).cf = h.cf := by
  unfold CopyReq.note
  dsimp only
  split <;> split <;> rfl

theorem Machine.CopyReq.note_kcpst (r : CopyReq) (c i : Nat) (h : Hart) : (r.note c i h).k.kcpst =
    if fld h.k.kcpst 48 8 = 0 then word (r.detail * 2 ^ 56 + r.code * 2 ^ 48 + i * 2 ^ 40 + r.off % 2 ^ 40) else h.k.kcpst := by
  unfold CopyReq.note
  dsimp only
  by_cases full : fld h.k.kcpst 48 8 = 0
  · rw [if_neg (not_not.2 full), if_pos full]
    split <;> rfl
  · rw [if_pos full, if_neg full]
    split <;> rfl

theorem Machine.CopyReq.note_faults (r : CopyReq) (c i : Nat) (h : Hart) : (r.note c i h).faults =
    if r.own = false ∨ r.isSealed = false ∧ isService r.hart = true then h.faults
    else if r.code = 2 ∧ r.ct = 1 then h.faults ++ [{ target := r.tgt, va := r.faultVa, isSealed := r.isSealed }]
    else if r.code = 2 ∧ r.ct = 3 ∧ r.ccore = c then h.faults ++ [{ target := 16 + r.tgt, va := r.faultVa, isSealed := r.isSealed }]
    else h.faults := by
  unfold CopyReq.note
  dsimp only
  generalize inner : (if fld h.k.kcpst 48 8 ≠ 0 then h else _ : Hart) = x
  have faults : x.faults = h.faults := by
    rw [← inner]
    split <;> rfl
  rw [← faults]
  by_cases quiet : r.own = false ∨ r.isSealed = false ∧ isService r.hart = true
  · rw [if_pos quiet, if_neg]
    rintro ⟨own, -, loud, -⟩
    simp_all
  · have loud : r.own = true ∧ (r.isSealed = true ∨ (!isService r.hart) = true) := by simpa [Decidable.or_iff_not_imp_left] using quiet
    rw [if_neg quiet]
    by_cases flag : r.code = 2 ∧ r.ct = 1
    · rw [if_pos flag, if_pos ⟨loud.1, flag.1, loud.2, .inl flag.2⟩, if_pos flag.2]
    · rw [if_neg flag]
      by_cases bar : r.code = 2 ∧ r.ct = 3 ∧ r.ccore = c
      · rw [if_pos bar, if_pos ⟨loud.1, bar.1, loud.2, .inr bar.2⟩, if_neg (by omega)]
      · rw [if_neg bar, if_neg (by tauto)]

/-! ### A request leaves -/

theorem getCf_foldl_subCf (fl : List Nat) (h : Hart) (k : Nat) : (fl.foldl (fun x k => x.subCf k) h).getCf k = h.getCf k - (fl.filter (· == k)).length := by
  induction fl generalizing h with
  | nil => rfl
  | cons f fl ih =>
    have sub : (h.subCf f).getCf k = if k = f then h.getCf f - 1 else h.getCf k := SMap.get_set ..
    rw [List.foldl_cons, ih, sub, List.filter_cons]
    by_cases e : k = f
    · rw [if_pos e, if_pos (beq_iff_eq.2 e.symm), e, List.length_cons]
      omega
    · rw [if_neg e, if_neg (by simpa using Ne.symm e)]

/-- Falling flags change the counters alone. -/
theorem foldl_subCf_only (fl : List Nat) (h : Hart) : { fl.foldl (fun x k => x.subCf k) h with cf := h.cf } = h :=
  List.foldlRecOn (motive := fun x : Hart => { x with cf := h.cf } = h) fl _ rfl fun _ hx _ _ => hx

theorem finishReq_eq (s : State) (c i : Nat) (r : CopyReq) : finishReq s c i r =
    if r.own then (dropReq s c i).modHart r.hart fun h => r.flags.foldl (fun x k => x.subCf k) h else dropReq s c i := rfl

theorem finishReq_core (s : State) (c i k : Nat) (r : CopyReq) : (finishReq s c i r).core k = if k = c then (s.core c).setReq i none else s.core k := by
  have drop : (dropReq s c i).core k = if k = c then (s.core c).setReq i none else s.core k := State.core_modCore ..
  rw [finishReq_eq, ← drop]
  split <;> rfl

theorem finishReq_req (s : State) (c i : Nat) (r : CopyReq) : ((finishReq s c i r).core c).req i = none := by
  rw [finishReq_core, if_pos rfl, Core.req_setReq]

/-- A request is gone from its slot, and its flags have fallen. -/
def Leaves (s t : State) (c i : Nat) (r : CopyReq) : Prop :=
  (t.core c).req i = none ∧ (r.own = true → ∀ k, (t.hart r.hart).getCf k = (s.hart r.hart).getCf k - (r.flags.filter (· == k)).length)

theorem finishReq_hart (s : State) (c i : Nat) (r : CopyReq) : (finishReq s c i r).hart r.hart =
    if r.own then r.flags.foldl (fun x k => x.subCf k) (s.hart r.hart) else s.hart r.hart := by
  rw [finishReq_eq]
  split
  · rw [State.hart_modHart, if_pos rfl]
    rfl
  · rfl

theorem finishReq_leaves {s u : State} {r : CopyReq} (cf : (u.hart r.hart).cf = (s.hart r.hart).cf) (c i : Nat) : Leaves s (finishReq u c i r) c i r := by
  refine ⟨finishReq_req .., fun own k => ?_⟩
  rw [finishReq_hart, if_pos own, getCf_foldl_subCf, Hart.getCf, cf]
  rfl

theorem Reaches.finishReq {wide : Prop} {s t : State} {hs cs : List Nat} {c i : Nat} {r : CopyReq} (reach : Reaches wide s t hs cs) (hh : r.hart ∈ hs) (hc : c ∈ cs) :
    Reaches wide s (Machine.finishReq t c i r) hs cs := by
  rw [finishReq_eq]
  split
  · exact Reaches.modHart (t := dropReq t c i) (reach.modCore hc) hh
  · exact reach.modCore hc

/-! ### The target is signalled -/

/-- A request that releases has released. -/
def released (s : State) (c : Nat) (r : CopyReq) : State := if r.rel then coreRelease s c r.relScope else s

theorem released_moves (s : State) (c : Nat) (r : CopyReq) : CacheMoves s (released s c r) := by
  unfold released
  split
  · exact coreRelease_moves ..
  · exact .refl s

/-- The widest scope of a request: it releases at scope 5. -/
abbrev Machine.CopyReq.isWide (r : CopyReq) : Prop := r.rel = true ∧ r.relScope = 5

theorem Reaches.released {s t : State} {hs cs : List Nat} {c : Nat} {r : CopyReq} (reach : Reaches r.isWide s t hs cs) :
    Reaches r.isWide s (Sys2Proof.released t c r) hs cs := by
  unfold Sys2Proof.released
  split
  · next h => exact reach.coreRelease fun e => ⟨h, e⟩
  · exact reach

/-- The state in which a request's target is signalled: the end noted, the release and the acquire done. -/
def settled (s : State) (c i : Nat) (r : CopyReq) : State :=
  if r.rel ∧ r.ct = 1 then coreAcquire (released (noteEnd s c i r) c r) c r.relScope else released (noteEnd s c i r) c r

theorem settled_harts (s : State) (c i : Nat) (r : CopyReq) : (settled s c i r).harts = (noteEnd s c i r).harts := by
  have rel := (released_moves (noteEnd s c i r) c r).harts.1
  unfold settled
  split
  · exact (coreAcquire_keeps ..).2.2.1.trans rel
  · exact rel

theorem Reaches.settled {s t : State} {c i : Nat} {r : CopyReq} (reach : Reaches r.isWide s t [r.hart] [c]) :
    Reaches r.isWide s (Sys2Proof.settled t c i r) [r.hart] [c] := by
  have rel : Reaches r.isWide s (Sys2Proof.released (Machine.noteEnd t c i r) c r) [r.hart] [c] := (reach.noteEnd (by simp) (by simp)).released
  unfold Sys2Proof.settled
  split
  · next h => exact rel.coreAcquire (by simp) fun e => ⟨h.1, e⟩
  · exact rel

section
variable {r : CopyReq} (delivered : r.undelivered = 0) (s : State) (c i : Nat)
include delivered

theorem deliverReq_none : deliverReq s c i r = s := by
  have : deliverable s c r = 0 := by
    unfold deliverable
    split
    · exact delivered
    · split <;> omega
  unfold deliverReq
  exact if_pos this

theorem signalReq_eq : signalReq s c i r = if r.ct = 2 then offerReq (settled s c i r) c i r else finishReq (settled s c i r) c i r := by
  unfold signalReq
  rw [deliverReq_none delivered]
  rfl

theorem signalReq_offer (h : r.ct = 2) : signalReq s c i r = offerReq (released s c r) c i r := by
  rw [signalReq_eq delivered, if_pos h, settled, if_neg (by omega), noteEnd_offer s c i h]

end

/-- What the signal of a request whose target is no channel leaves. -/
structure Signals (s₀ s t : State) (c i : Nat) (r : CopyReq) : Prop where
  reach : Reaches r.isWide s₀ t [r.hart] [c]
  leaves : Leaves s t c i r
  hart : { t.hart r.hart with cf := (s.hart r.hart).cf } = if r.code = 0 then s.hart r.hart else r.note c i (s.hart r.hart)
  l1 : r.rel = true → r.ct = 1 → 2 ≤ r.relScope → (t.core c).l1 = []

namespace Signals

variable {s₀ s t : State} {c i : Nat} {r : CopyReq} (signals : Signals s₀ s t c i r)
include signals

theorem unchanged (ok : r.code = 0) : { t.hart r.hart with cf := (s.hart r.hart).cf } = s.hart r.hart := signals.hart.trans (if_pos ok)

variable (bad : r.code ≠ 0)
include bad

theorem noted : { t.hart r.hart with cf := (s.hart r.hart).cf } = r.note c i (s.hart r.hart) := signals.hart.trans (if_neg bad)

theorem kcpst : (t.hart r.hart).k.kcpst = if fld (s.hart r.hart).k.kcpst 48 8 = 0 then
    word (r.detail * 2 ^ 56 + r.code * 2 ^ 48 + i * 2 ^ 40 + r.off % 2 ^ 40) else (s.hart r.hart).k.kcpst :=
  (congrArg (·.k.kcpst) (signals.noted bad) :).trans (r.note_kcpst ..)

theorem faults : (t.hart r.hart).faults = (r.note c i (s.hart r.hart)).faults := (congrArg (·.faults) (signals.noted bad) :)

end Signals

theorem signalReq_signals {s₀ s : State} {c i : Nat} {r : CopyReq} (reach : Reaches r.isWide s₀ s [r.hart] [c]) (ct : r.ct ≠ 2) (delivered : r.undelivered = 0) :
    Signals s₀ s (signalReq s c i r) c i r := by
  rw [signalReq_eq delivered, if_neg ct]
  have hart : (settled s c i r).hart r.hart = if r.code = 0 then s.hart r.hart else r.note c i (s.hart r.hart) :=
    (State.hart_of_harts (settled_harts ..) _).trans (noteEnd_hart s c i ct)
  have cf : ((settled s c i r).hart r.hart).cf = (s.hart r.hart).cf := by
    rw [hart]
    split
    · rfl
    · exact CopyReq.note_cf ..
  refine ⟨reach.settled.finishReq (by simp) (by simp), finishReq_leaves cf c i, ?_, fun rel ct scope => ?_⟩
  · rw [← hart, ← cf, finishReq_hart]
    split
    · exact foldl_subCf_only ..
    · rfl
  · rw [finishReq_core, if_pos rfl]
    show ((settled s c i r).core c).l1 = []
    rw [settled, if_pos ⟨rel, ct⟩]
    exact coreAcquire_l1 _ _ scope

end Sys2Proof
end

section
/-!
PROOF. O42: combining reductions, and the completion of copies (R131, R296, R155, R135, R340, R292 to R295, R300, R304, R46).
-/
namespace Sys2Proof
open Machine

/-! ### A message offered to its channel (R278) -/

theorem chan_modCore (s : State) (c ch : Nat) (f : Channel → Channel) : ((s.modCore c fun k => k.modChan ch f).core c).chan ch = f ((s.core c).chan ch) := by
  rw [State.core_modCore_self]
  exact SMap.get_set_self ..

section
variable {s : State} {c ch : Nat} {m : MsgRef} {msg : Message}

/-- An arrival in its turn is offered. -/
theorem arrive_turn (turn : ((s.core c).chan ch).held = [] ∨ ((s.core c).chan ch).held.head? = some m) :
    arrive s c ch m msg = match offer s c ch msg with
      | (s, .done) => (unhold s c ch m, .done)
      | (s, .held) => (hold s c ch m, .held) := by
  unfold arrive
  refine if_neg ?_
  obtain h | h := turn <;> simp [h]

theorem arrive_waits (turn : ¬ (((s.core c).chan ch).held = [] ∨ ((s.core c).chan ch).held.head? = some m)) : arrive s c ch m msg = (hold s c ch m, .held) := by
  unfold arrive
  obtain ⟨some', other⟩ := not_or.1 turn
  exact if_pos (by simp [some', other])

theorem offer_drops (other : ¬ (((s.core c).chan ch).depth ≠ 0 ∧ ((s.core c).chan ch).launch ≠ 0 ∧ s.launchFn ((s.core c).chan ch).launch = msg.fn)) :
    offer s c ch msg = (s.modCore c fun k => k.modChan ch fun y => { y with drop := min 255 (y.drop + 1) }, .done) := by
  unfold offer
  exact if_pos (by tauto)

variable (mine : ((s.core c).chan ch).depth ≠ 0 ∧ ((s.core c).chan ch).launch ≠ 0 ∧ s.launchFn ((s.core c).chan ch).launch = msg.fn)
include mine

theorem offer_fails (err : ((s.core c).chan ch).err = true) : offer s c ch msg = (s, .held) := by
  unfold offer
  dsimp only
  rw [if_neg (by tauto), if_pos err]

theorem offer_enters (err : ((s.core c).chan ch).err = false) (ring : ((s.core c).chan ch).rcnt = 0)
    (room : ((s.core c).chan ch).hw.length < ((s.core c).chan ch).depth) :
    offer s c ch msg = (s.modCore c fun k => k.modChan ch fun y => { y with hw := y.hw ++ [{ msg := msg }] }, .done) := by
  unfold offer
  dsimp only
  rw [if_neg (by tauto), if_neg (by simp [err]), if_pos ⟨ring, room⟩]

end

theorem finishReq_chan (s : State) (c i k ch : Nat) (r : CopyReq) : ((finishReq s c i r).core k).chan ch = (s.core k).chan ch := by
  rw [finishReq_core]
  split
  · next h => rw [h]; rfl
  · rfl

/-- A message that enters, or is discarded: its request leaves. -/
theorem offerReq_done {wide : Prop} {s₀ s : State} {hs : List Nat} {c i : Nat} {r : CopyReq} {f : Channel → Channel} (reach : Reaches wide s₀ s hs [c, r.ccore])
    (hh : r.hart ∈ hs) (turn : ((s.core r.ccore).chan r.tgt).held = [] ∨ ((s.core r.ccore).chan r.tgt).held.head? = some (.copy c i))
    (takes : offer s r.ccore r.tgt (copyMessage r) = (s.modCore r.ccore fun k => k.modChan r.tgt f, .done)) :
    let t := offerReq s c i r
    Reaches wide s₀ t hs [c, r.ccore] ∧ Leaves s t c i r ∧
      (t.core r.ccore).chan r.tgt =
        { f ((s.core r.ccore).chan r.tgt) with held := (f ((s.core r.ccore).chan r.tgt)).held.filter (· != .copy c i) } := by
  intro t
  let u := unhold (s.modCore r.ccore fun k => k.modChan r.tgt f) r.ccore r.tgt (.copy c i)
  have ends : t = finishReq u c i r := by
    show offerReq s c i r = _
    unfold offerReq
    rw [arrive_turn turn, takes]
  have entered : Reaches wide s₀ u hs [c, r.ccore] := (reach.modCore (by simp)).modCore (by simp)
  rw [ends]
  refine ⟨entered.finishReq hh (by simp), finishReq_leaves rfl c i, ?_⟩
  rw [finishReq_chan]
  exact (chan_modCore ..).trans (by rw [chan_modCore])

/-- A message that is held: its request waits for its turn, behind those before it. -/
theorem offerReq_held {wide : Prop} {s₀ s : State} {hs : List Nat} {c i : Nat} {r : CopyReq} (reach : Reaches wide s₀ s hs [c, r.ccore])
    (req : (s.core c).req i = some r) (waits : arrive s r.ccore r.tgt (.copy c i) (copyMessage r) = (hold s r.ccore r.tgt (.copy c i), .held)) :
    let t := offerReq s c i r
    let x := (s.core r.ccore).chan r.tgt
    Reaches wide s₀ t hs [c, r.ccore] ∧ (t.core c).req i = some { r with st := .offering } ∧
      (t.core r.ccore).chan r.tgt = { x with held := if MsgRef.copy c i ∈ x.held then x.held else x.held ++ [.copy c i] } := by
  intro t x
  let u := hold s r.ccore r.tgt (.copy c i)
  have ends : t = modReq u c i fun r => { r with st := .offering } := by
    show offerReq s c i r = _
    unfold offerReq
    rw [waits]
  have held : Reaches wide s₀ u hs [c, r.ccore] := reach.modCore (by simp)
  have kept : (u.core c).req i = (s.core c).req i := by
    refine (congrArg (Core.req · i) (State.core_modCore ..) :).trans ?_
    split
    · next h => rw [h]; rfl
    · rfl
  have chan : (t.core r.ccore).chan r.tgt = (u.core r.ccore).chan r.tgt := by
    rw [ends, modReq, State.core_modCore]
    split
    · next h => rw [h]; rfl
    · rfl
  refine ⟨ends ▸ held.modCore (by simp), ?_, chan.trans ((chan_modCore ..).trans ?_)⟩
  · rw [ends, req_modReq, kept, req]
    rfl
  · simp only [List.contains_iff_mem]
    split <;> rfl

/-- A release leaves the cores, the harts and the launches as they were. -/
theorem released_keeps (s : State) (c : Nat) (r : CopyReq) :
    (∀ k, (released s c r).core k = s.core k) ∧ (∀ h, (released s c r).hart h = s.hart h) ∧ ∀ n, (released s c r).launchFn n = s.launchFn n := by
  have moves := released_moves s c r
  obtain ⟨harts, cores, -, -⟩ := moves.harts
  exact ⟨State.core_of_cores cores, State.hart_of_harts harts, fun n => (congrArg (State.launchFn · n) moves.2.2.1 :)⟩

/-- The signal of a request whose target is a channel: in its turn the message enters or is discarded, else it is held. -/
theorem signalReq_channel {s : State} {c i : Nat} {r : CopyReq} (ct : r.ct = 2) (delivered : r.undelivered = 0) (req : (s.core c).req i = some r) :
    let t := signalReq s c i r
    let x := (s.core r.ccore).chan r.tgt
    let turn := x.held = [] ∨ x.held.head? = some (.copy c i)
    let mine := x.depth ≠ 0 ∧ x.launch ≠ 0 ∧ s.launchFn x.launch = r.fn
    let rest := x.held.filter (· != .copy c i)
    (turn → mine → x.err = false → x.rcnt = 0 → x.hw.length < x.depth → Reaches r.isWide s t [r.hart] [c, r.ccore] ∧ Leaves s t c i r ∧
      (t.core r.ccore).chan r.tgt = { x with hw := x.hw ++ [{ msg := copyMessage r }], held := rest }) ∧
    (turn → ¬ mine → Reaches r.isWide s t [r.hart] [c, r.ccore] ∧ Leaves s t c i r ∧
      (t.core r.ccore).chan r.tgt = { x with drop := min 255 (x.drop + 1), held := rest }) ∧
    (¬ turn ∨ mine ∧ x.err = true → Reaches r.isWide s t [] [c, r.ccore] ∧ (t.core c).req i = some { r with st := .offering } ∧
      (t.core r.ccore).chan r.tgt = { x with held := if MsgRef.copy c i ∈ x.held then x.held else x.held ++ [.copy c i] }) := by
  have reach : ∀ hs, Reaches r.isWide s (released s c r) hs [c, r.ccore] := fun hs => (Reaches.refl s).released
  obtain ⟨cores, hart, launch⟩ := released_keeps s c r
  rw [signalReq_offer delivered s c i ct]
  generalize released s c r = v at *
  intro t x turn mine rest
  have chan : (v.core r.ccore).chan r.tgt = x := by rw [cores]
  have leaves : Leaves v t c i r → Leaves s t c i r := by
    unfold Leaves
    rw [hart]
    exact id
  have taken : x.depth ≠ 0 ∧ x.launch ≠ 0 ∧ v.launchFn x.launch = (copyMessage r).fn ↔ mine := by rw [launch]; rfl
  clear_value x
  subst chan
  refine ⟨fun turn mine err ring room => ?_, fun turn other => ?_, fun waits => offerReq_held (reach []) (cores c ▸ req) ?_⟩
  · obtain ⟨reach, left, chan⟩ := offerReq_done (reach [r.hart]) (by simp) turn (offer_enters (taken.2 mine) err ring room)
    exact ⟨reach, leaves left, chan⟩
  · obtain ⟨reach, left, chan⟩ := offerReq_done (reach [r.hart]) (by simp) turn (offer_drops fun h => other (taken.1 h))
    exact ⟨reach, leaves left, chan⟩
  · by_cases first : turn
    · obtain ⟨mine, err⟩ := waits.resolve_left (not_not.2 first)
      rw [arrive_turn first, offer_fails (taken.2 mine) err]
    · exact arrive_waits first

/-! ### A new tile (R292) -/

/-- A request whose new tile is sealed. -/
def Machine.CopyReq.tiled (r : CopyReq) : CopyReq := { r with tileDone := true }

/-- A request whose new tile is gone (R96). -/
def Machine.CopyReq.tileGone (r : CopyReq) : CopyReq := { r with code := 4, detail := 28, handle := 0 }

section
variable {s : State} {c i : Nat} {r : CopyReq}

/-- A new tile that is gone ends the copy TILE. -/
theorem sealNew_gone (gone : destTile s r r.handle = none) : sealNew s c i r = modReq s c i (·.tileGone) := by
  unfold sealNew
  rw [gone]
  rfl

/-- A new tile that passes the checks is sealed with its count. -/
theorem sealNew_seals {p : TileRef} (live : destTile s r r.handle = some p) (hdr : hdrCheck (s.tile p).hdr = none) (fits : extentOf (s.tile p).hdr ≤ p.room) :
    ∃ v, sealNew s c i r = modReq v c i (·.tiled) ∧ (∀ k, v.core k = s.core k) ∧ v.harts = s.harts ∧ v.mem = s.mem ∧
      (v.tile p).st = .sealed ∧ (v.tile p).c = (s.tile p).n := by
  unfold sealNew
  rw [live]
  simp only [hdr, if_neg (Nat.not_lt.2 fits), Option.orElse]
  refine ⟨_, rfl, fun _ => rfl, rfl, rfl, ?_, ?_⟩ <;> rw [State.tile_modTile]

/-- A completion without a new tile. -/
theorem completeReq_old (old : r.dstt ≠ 1) : completeReq s c i r = signalReq s c i r := if_pos old

/-- A completion that writes no handle. -/
theorem completeReq_signals {v : State} {y : CopyReq} (new : r.dstt = 1) (sealed : (if r.code = 0 ∧ !r.tileDone then sealNew s c i r else s) = v)
    (req : (v.core c).req i = some y) (quiet : y.w1 = 0 ∨ y.handle = 0 ∨ 1 < y.code) : completeReq s c i r = signalReq v c i y := by
  unfold completeReq
  rw [if_neg (not_not.2 new)]
  dsimp only
  rw [sealed, req]
  exact if_pos quiet

section
variable (req : (s.core c).req i = some r) (new : r.dstt = 1) (ok : r.code = 0) (ct : r.ct ≠ 2) (delivered : r.undelivered = 0) (fresh : r.tileDone = false)
include req new ok ct delivered fresh

/-- The end of a request whose new tile is sealed, with no handle to write. -/
theorem completeReq_seals {p : TileRef} (w1 : r.w1 = 0) (live : destTile s r r.handle = some p) (hdr : hdrCheck (s.tile p).hdr = none)
    (fits : extentOf (s.tile p).hdr ≤ p.room) :
    let t := completeReq s c i r
    HomeMemory s t ∧ Leaves s t c i r ∧ (t.tile p).st = .sealed ∧ (t.tile p).c = (s.tile p).n := by
  obtain ⟨v, seals, cores, harts, mem, st, count⟩ := sealNew_seals (c := c) (i := i) live hdr fits
  have stored : ((modReq v c i (·.tiled)).core c).req i = some r.tiled := by
    rw [req_modReq, cores, req]
    rfl
  have sig := signalReq_signals (c := c) (i := i) (r := r.tiled) (.refl (modReq v c i (·.tiled))) ct delivered
  rw [completeReq_signals new ((if_pos ⟨ok, by simp [fresh]⟩).trans seals) stored (.inl w1)]
  refine ⟨fun a ha => (sig.reach.home a ha).trans (congrArg (SMap.get 0 · a) mem), ?_, (congrArg PoolSlot.st (sig.reach.tile p)).trans st,
    (congrArg PoolSlot.c (sig.reach.tile p)).trans count⟩
  obtain ⟨left, flags⟩ := sig.leaves
  exact ⟨left, State.hart_of_harts harts r.hart ▸ flags⟩

/-- The end of a request whose new tile is gone. -/
theorem completeReq_gone (gone : destTile s r r.handle = none) : Signals s (modReq s c i (·.tileGone)) (completeReq s c i r) c i r.tileGone := by
  have stored : ((modReq s c i (·.tileGone)).core c).req i = some r.tileGone := by
    rw [req_modReq, req]
    rfl
  rw [completeReq_signals new ((if_pos ⟨ok, by simp [fresh]⟩).trans (sealNew_gone gone)) stored (.inr (.inl rfl))]
  exact signalReq_signals ((Reaches.refl s).modCore (by simp)) ct delivered

end

theorem copyBroken_none {ps : List Placed} (plain : ∀ p ∈ ps, p.ref.key = 0) (u : State) (w : Who) (n : Nat) : copyBroken u w ps n = none := by
  unfold copyBroken
  refine List.findSome?_eq_none_iff.2 fun p hp => ?_
  rw [List.find?_eq_none.2 fun l _ => by simp [entryOk, tagOk, plain p hp]]
  rfl

/-- A completion that writes the handle. -/
theorem completeReq_writes {u : State} {ps : List Placed} (new : r.dstt = 1) (sealed : ¬ (r.code = 0 ∧ (!r.tileDone) = true))
    (req : (s.core c).req i = some r) (named : r.w1 ≠ 0 ∧ r.handle ≠ 0 ∧ r.code ≤ 1) (place : copyPlace s c r .wr r.w1 8 = (u, .ok ps))
    (free : ∀ p ∈ ps, p.ref.key = 0 ∧ flipHeld u p.ref.pa = false) :
    completeReq s c i r = signalReq (copyStore u c r ps (natToLe 8 r.handle.toNat)) c i r := by
  obtain ⟨w1, handle, code⟩ := named
  unfold completeReq
  rw [if_neg (not_not.2 new)]
  dsimp only
  rw [if_neg sealed, req]
  dsimp only
  rw [if_neg (not_or.2 ⟨w1, not_or.2 ⟨handle, Nat.not_lt.2 code⟩⟩), place]
  dsimp only
  rw [if_neg (by simpa using fun p hp => (free p hp).2), copyBroken_none fun p hp => (free p hp).1]

end

/-! ### The handle is written -/

theorem placedAt_key {ps : List Placed} (plain : ∀ p ∈ ps, p.ref.key = 0) (va : Word) (k : Nat) : (placedAt va ps k).key = 0 := by
  unfold placedAt
  dsimp only
  split
  · next p hp => exact plain p (List.mem_of_find?_eq_some hp)
  · rfl

theorem copyStore_stored {ps : List Placed} (plain : ∀ p ∈ ps, p.ref.key = 0) (s : State) (c : Nat) (r : CopyReq) (bs : List Byte) :
    StoredTo s (copyStore s c r ps bs) (copyCells ps bs) := by
  have stored := storeCells_stored s { reqWho c r with engine := true }
    ((atOffset 0 bs).map fun (k, b) => cellAt ((ps.head?).map (·.seg.at_) |>.getD 0) ps k b) ?_
  · rw [List.map_map] at stored
    exact stored
  · intro x hx
    obtain ⟨y, -, rfl⟩ := List.mem_map.1 hx
    exact placedAt_key plain _ _

theorem putCells_harts (s : State) (w : Who) (cs : List VCell) : (putCells s w cs).harts = s.harts :=
  List.foldlRecOn (motive := fun t : State => t.harts = s.harts) _ _ rfl fun t ht _ _ => (storeLine_harts t ..).1.trans ht

/-- A store changes of a hart its reservation alone. -/
theorem storeCells_k (s : State) (w : Who) (cs : List VCell) (h : Nat) : ((storeCells s w cs).hart h).k = (s.hart h).k := by
  unfold storeCells
  dsimp only
  have resv := (breakResv_only (l1Update (putCells s w cs) w.core w.tag cs) (if w.engine then 8192 else w.hart) ((cs.map fun x => x.cell.pa / 128).eraseDups)).2 h
  have hart : (l1Update (putCells s w cs) w.core w.tag cs).hart h = s.hart h := State.hart_of_harts (putCells_harts s w cs) h
  exact (congrArg Hart.k resv :).trans (congrArg Hart.k hart)

theorem copyPlace_harts {s u : State} {c : Nat} {r : CopyReq} {a : Acc} {va : Word} {n : Nat} {e : Except (VFault × Seg) (List Placed)}
    (place : copyPlace s c r a va n = (u, e)) : u.harts = s.harts := by
  have checks := fun d (s : State) => (ChecksKeep.placeAll (reqWho c r) .copy a false d (tileSegs va n) s).1
  unfold copyPlace at place
  dsimp only at place
  split at place
  · next t _ first =>
    obtain ⟨rfl, -⟩ := Prod.mk.inj place
    exact (congrArg (·.1.harts) first :).symm.trans (checks false s)
  · next t ps first =>
    have before : t.harts = s.harts := (congrArg (·.1.harts) first :).symm.trans (checks false s)
    split at place
    · exact (congrArg (·.1.harts) place :).symm.trans ((checks true t).trans before)
    · obtain ⟨rfl, -⟩ := Prod.mk.inj place
      exact before

theorem StoredTo.home {s t u : State} {cs : List PCell} (stored : StoredTo s t cs) (home : HomeMemory t u) : StoredTo s u cs :=
  fun a ha => (home a ha).trans (stored a ha)

/-- A handle written: its bytes, the request gone, the end noted. -/
theorem signalReq_stored {s u : State} {c i : Nat} {r : CopyReq} {ps : List Placed} {a : Acc} {va : Word} {n : Nat} {bs : List Byte} (ct : r.ct ≠ 2)
    (delivered : r.undelivered = 0) (place : copyPlace s c r a va n = (u, .ok ps)) (plain : ∀ p ∈ ps, p.ref.key = 0) :
    let t := signalReq (copyStore u c r ps bs) c i r
    StoredTo u t (copyCells ps bs) ∧ (t.core c).req i = none ∧ (r.code ≠ 0 → (t.hart r.hart).k.kcpst =
      if fld (s.hart r.hart).k.kcpst 48 8 = 0 then word (r.detail * 2 ^ 56 + r.code * 2 ^ 48 + i * 2 ^ 40 + r.off % 2 ^ 40) else (s.hart r.hart).k.kcpst) := by
  have sig := signalReq_signals (c := c) (i := i) (.refl (copyStore u c r ps bs)) ct delivered
  have stored := copyStore_stored plain u c r bs
  have k : ((copyStore u c r ps bs).hart r.hart).k = (s.hart r.hart).k :=
    (storeCells_k ..).trans (congrArg Hart.k (State.hart_of_harts (copyPlace_harts place) r.hart))
  exact ⟨stored.home sig.reach.home, sig.leaves.1, fun bad => (sig.kcpst bad).trans (by rw [k])⟩

/-! ### The events -/

section
variable {s : State} {r : CopyReq} (req : (s.core s.ev.a).req s.ev.b = some r)
include req

theorem copyCompletion_runs (ended : r.st = .ended ∧ r.cprd = false ∧ contribsOpen s s.ev.a r = false) :
    Runs .copyCompletion s (completeReq s s.ev.a s.ev.b r) := by
  obtain ⟨st, cprd, performed⟩ := ended
  rw [Runs, exec_copyCompletion, execCopyCompletion]
  simp only [req]
  rw [if_pos (by simp [st, cprd, performed])]

theorem cprdPerform_runs (st : r.st = .ended) (cprd : r.cprd = true) : Runs .cprdPerform s (signalReq s s.ev.a s.ev.b r) := by
  rw [Runs, exec_cprdPerform, execCprdPerform]
  simp only [req]
  rw [if_neg (by simp [cprd]), if_neg (by simp [st]), if_pos st]

theorem stageBarrierDelivery_runs (barrier : r.ct = 3) (old : r.dstt ≠ 1) : Runs .stageBarrierDelivery s (deliverReq s s.ev.a s.ev.b r) := by
  rw [Runs, exec_stageBarrierDelivery, execStageBarrierDelivery]
  simp only [req]
  rw [if_pos ⟨barrier, old⟩]

end

/-- Two changes of a request that agree on it. -/
theorem modReq_congr {s : State} {c i : Nat} {r : CopyReq} {f g : CopyReq → CopyReq} (req : (s.core c).req i = some r) (same : f r = g r) :
    modReq s c i f = modReq s c i g := by
  unfold modReq State.modCore
  simp only [req, Option.map_some, same]

theorem deliverReq_some {s : State} {c i : Nat} {r : CopyReq} (req : (s.core c).req i = some r) (some' : deliverable s c r ≠ 0) : deliverReq s c i r =
    deliver (modReq (released s c r) c i fun x => { x with undelivered := r.undelivered - deliverable s c r }) r.ccore r.tgt (deliverable s c r)
      (max (if r.rel then r.relScope else 0) (if r.ccore = c then 0 else 2)) := by
  have stored : ((released s c r).core c).req i = some r := by rw [State.core_of_cores (released_moves s c r).harts.2.1, req]
  unfold deliverReq
  dsimp only
  rw [if_neg some', ← released, modReq_congr stored]
  rfl

/-- Settles O42: a contribution by the branch of the switch that it takes and by its updates, the end of a request by its target. -/
theorem reduceAndCompletion : Obligations.ReduceAndCompletion := by
  unfold Obligations.ReduceAndCompletion
  refine ⟨⟨fun s x rest transit => ?_, fun s e listed => ?_, fun s d x => rfl, fun x y pa nodup => ?_, fun s x => ?_⟩, fun s r => ?_⟩
  · exact ⟨arrival_held transit, fun free => ⟨fun e found => switchEntry_goes (arrival_found transit free found),
      fun none' room => switchEntry_goes (arrival_takes transit free none' room), arrival_passes transit free⟩⟩
  · exact ⟨timeout_forwards listed, timeout_waits listed⟩
  · exact ⟨rfl, rfl, elAt_foldl_joinEl x.rop nodup x.els pa⟩
  · refine ⟨applyContrib_updates, fun broken => ?_⟩
    obtain ⟨mem, book⟩ := applyContrib_broken broken
    exact ⟨mem, book, fun p j r parts req listed seq one fresh => applyContrib_ends broken parts req listed seq one fresh⟩
  · intro c j h ended free only noted
    have runs : ended → Runs .copyCompletion s (completeReq s c j r) := fun ⟨req, ends⟩ => copyCompletion_runs req ends
    have signal : ended → r.dstt ≠ 1 → Runs .copyCompletion s (signalReq s c j r) := fun ends old => completeReq_old (s := s) (c := c) (i := j) old ▸ runs ends
    refine ⟨fun ends old ct und ok => ?_, fun ends old ct und bad => ?_, fun i event ct und => ?_, fun ends new ok ct und => ⟨?_, ?_, ?_⟩,
      fun ends new bad ct und => ⟨?_, ?_⟩, fun req barrier old => ⟨?_, ?_, ?_, ?_⟩⟩
    · have sig := signalReq_signals (c := c) (i := j) (.refl s) ct und
      exact ⟨_, signal ends old, sig.reach.only, sig.leaves, sig.unchanged ok, sig.l1⟩
    · have sig := signalReq_signals (c := c) (i := j) (.refl s) ct und
      exact ⟨_, signal ends old, sig.reach.only, sig.leaves, sig.kcpst bad, (sig.faults bad).trans (r.note_faults ..)⟩
    · have signals : Runs i s (signalReq s c j r) := by
        obtain ⟨rfl, ends, old⟩ | ⟨rfl, req, st, cprd⟩ := event
        · exact signal ends old
        · exact cprdPerform_runs req st cprd
      obtain ⟨enters, drops, waits⟩ := signalReq_channel ct und (event.elim (·.2.1.1) (·.2.1))
      refine ⟨fun turn mine err ring room => ?_, fun turn other => ?_, fun wait => ?_⟩
      · obtain ⟨reach, leaves, chan⟩ := enters turn mine err ring room
        exact ⟨_, signals, reach.only, leaves, chan⟩
      · obtain ⟨reach, leaves, chan⟩ := drops turn other
        exact ⟨_, signals, reach.only, leaves, chan⟩
      · obtain ⟨reach, offering, chan⟩ := waits wait
        exact ⟨_, signals, reach.only, offering, chan⟩
    · intro p fresh w1 live hdr fits
      obtain ⟨home, leaves, st, count⟩ := completeReq_seals ends.1 new ok (by omega) und fresh w1 live hdr fits
      exact ⟨_, runs ends, home, leaves, st, count⟩
    · intro fresh gone
      have sig := completeReq_gone ends.1 new ok (by omega) und fresh gone
      exact ⟨_, runs ends, sig.reach.only, sig.leaves, sig.kcpst (by decide : (4 : Nat) ≠ 0)⟩
    · intro u ps done w1 handle place free
      obtain ⟨stored, left, -⟩ := signalReq_stored (i := j) (by omega) und place fun p hp => (free p hp).1
      have writes := completeReq_writes new (by simp [done]) ends.1 ⟨w1, handle, by omega⟩ place free
      exact ⟨_, writes ▸ runs ends, stored, left⟩
    · intro quiet
      have sig := signalReq_signals (c := c) (i := j) (.refl s) (by omega) und
      have signals := completeReq_signals new (if_neg fun h => bad h.1) ends.1 quiet
      exact ⟨_, signals ▸ runs ends, sig.reach.only, sig.leaves, sig.kcpst bad⟩
    · intro u ps w1 handle code place free
      obtain ⟨stored, left, kcpst⟩ := signalReq_stored (i := j) (by omega) und place fun p hp => (free p hp).1
      have writes := completeReq_writes new (fun h => bad h.1) ends.1 ⟨w1, handle, by omega⟩ place free
      exact ⟨_, writes ▸ runs ends, stored, left, kcpst bad⟩
    · exact fun performed => if_pos (by simp [performed])
    · exact fun open' st => (if_neg (by simp [open'])).trans (if_pos st)
    · intro none'
      exact (stageBarrierDelivery_runs req barrier old).trans (congrArg _ (if_pos none'))
    · intro some'
      exact (stageBarrierDelivery_runs req barrier old).trans (congrArg _ (deliverReq_some req some'))

end Sys2Proof
end

section
/-!
SUPPORT. The frame of the floating-point lane forms (R211, R219): what `fpOp` answers where FS is not Off and the rounding mode is valid.
-/
namespace Sys2Proof
open Machine

variable {i : Instr} {s : State} {f : L64} {rounds : Bool} {rm : Nat} {eff : Hart → List Nat → Nat → FpEff}

/-! ### FS is no operand -/

@[simp] theorem Machine.Hart.effMask_setFs (h : Hart) (n : Nat) (f : L64) : effMask (h.setFs n) f = effMask h f := rfl
@[simp] theorem Machine.Hart.activeLanes_setFs (h : Hart) (n : Nat) (f : L64) : activeLanes (h.setFs n) f = activeLanes h f := rfl
@[simp] theorem Machine.Hart.x_setFs (h : Hart) (n : Nat) : (h.setFs n).x = h.x := rfl
@[simp] theorem Machine.Hart.v_setFs (h : Hart) (n : Nat) : (h.setFs n).v = h.v := rfl
@[simp] theorem Machine.Hart.getX_setFs (h : Hart) (n r : Nat) : (h.setFs n).getX r = h.getX r := rfl
@[simp] theorem Machine.Hart.getV_setFs (h : Hart) (n r l : Nat) : (h.setFs n).getV r l = h.getV r l := rfl
@[simp] theorem Machine.Hart.elem_setFs (h : Hart) (n w r l : Nat) : (h.setFs n).elem w r l = h.elem w r l := rfl

theorem laneElems_setFs {h h' : Hart} {n w d : Nat} {r : Nat → Nat} : LaneElems (h.setFs n) h' f w d r ↔ LaneElems h h' f w d r := by
  unfold LaneElems
  rw [Hart.effMask_setFs]
  simp only [Hart.getV_setFs]

/-! ### The frame -/

theorem roundsWith_iff {h : Hart} : RoundsWith h f rounds rm ↔ (if rounds then roundMode h f.md else some 0) = some rm := by
  unfold RoundsWith
  cases rounds
  · simp [eq_comm]
  · rfl

/-- Past the checks of FS and `frm` a form sets FS; where a lane is active its effect, flags and counters follow. -/
theorem fpOp_eq (fs : s.me.fs ≠ 0) (mode : RoundsWith s.me f rounds rm) :
    fpOp f rounds eff s =
      if effMask s.me f = 0 then .next (s.setHart s.cur (s.me.setFs 3).done)
      else
        let r := eff (s.me.setFs 3) (activeLanes s.me f) rm
        .next (retire (setFlags (bumpFp (s.setHart s.cur r.hart) r.cnt) r.flags)) := by
  unfold fpOp
  have me : (s.modMe (·.setFs 3)).me = s.me.setFs 3 := State.me_setHart_cur ..
  have again : ∀ h, (s.modMe (·.setFs 3)).setHart (s.modMe (·.setFs 3)).cur h = s.setHart s.cur h := fun h =>
    State.setHart_setHart ..
  have idle : retire (s.modMe (·.setFs 3)) = s.setHart s.cur (s.me.setFs 3).done := State.modMe_modMe ..
  simp only [if_neg fs, roundsWith_iff.1 mode, me, again, idle, Hart.effMask_setFs, Hart.activeLanes_setFs]

theorem becomes_of_fpOp (h : exec i s = fpOp f rounds eff s) (fs : s.me.fs ≠ 0) (mode : RoundsWith s.me f rounds rm) (idle : effMask s.me f = 0) :
    Becomes i s (s.me.setFs 3).done :=
  ⟨_, by rw [Runs, h, fpOp_eq fs mode, if_pos idle], rfl, fun _ => rfl⟩

theorem fpDone_of_fpOp (h : exec i s = fpOp f rounds eff s) (fs : s.me.fs ≠ 0) (mode : RoundsWith s.me f rounds rm) (active : effMask s.me f ≠ 0) :
    let r := eff (s.me.setFs 3) (activeLanes s.me f) rm
    FpDone i s r.hart r.flags r.cnt :=
  fpDone_of (by rw [h, fpOp_eq fs mode, if_neg active])

/-! ### Results written -/

theorem laneElems_setLanes {h : Hart} {w d : Nat} (hw : w = 32 ∨ w = 64) (r : Nat → Nat) :
    LaneElems h (h.setLanes w d (activeLanes h f) r) f w d r := by
  intro n l hl
  have wide : w ≠ 32 ↔ w = 64 := by omega
  have hv : (h.setLanes w d (activeLanes h f) r).getV n l = ((activeLanes h f).foldl (fun x k => x.setElem w d k (r k)) h).getV n l := by
    simp [Hart.getV, Hart.setLanes]
  rw [hv, Hart.getV_foldl_setElem w d r hl _ _ fun k hk => (mem_activeLanes.1 hk).1]
  simp only [mem_activeLanes, hl, true_and, wide]

theorem Machine.Hart.setX_frame (h : Hart) (d : Nat) (v : Word) : { h.setX d v with x := h.x } = h := by
  unfold Hart.setX
  split <;> rfl

theorem Machine.Hart.setLanes_frame (h : Hart) (w d : Nat) (ls : List Nat) (r : Nat → Nat) : { h.setLanes w d ls r with v := h.v } = h.dirtyXs := by
  have frame := Hart.foldl_setElem_frame w d r ls h h.v
  exact congrArg Hart.dirtyXs frame

/-- A form that writes the results `r` to its active lanes, and reports their flags and counters. -/
theorem laneFpDone_of_fpOp {w : Nat} {r : Nat → FRes} (hw : w = 32 ∨ w = 64) (h : exec i s = fpOp f rounds eff s) (fs : s.me.fs ≠ 0)
    (mode : RoundsWith s.me f rounds rm)
    (writes : eff (s.me.setFs 3) (activeLanes s.me f) rm =
      { hart := (s.me.setFs 3).setLanes w f.d.toNat (activeLanes s.me f) fun l => (r l).bits
        flags := allFlags ((activeLanes s.me f).map r), cnt := allCnt ((activeLanes s.me f).map r) }) :
    LaneFpDone i s f w f.d.toNat r := by
  refine ⟨becomes_of_fpOp h fs mode, fun active => ?_⟩
  have done := fpDone_of_fpOp h fs mode active
  have elems := laneElems_setLanes (h := s.me.setFs 3) (f := f) (d := f.d.toNat) hw fun l => (r l).bits
  rw [writes] at done
  rw [laneElems_setFs, Hart.activeLanes_setFs] at elems
  refine ⟨_, done, elems, ?_⟩
  rw [← Hart.v_setFs s.me 3]
  exact Hart.setLanes_frame ..

end Sys2Proof
end

section
/-!
SUPPORT. The tree of a floating-point reduction (R154): five rounds of pairing neighbours build the balanced tree over the lanes.
-/
namespace Sys2Proof
open Machine

variable {g : Nat → Nat → FRes} {leaf : Nat → Option FRes}

/-- One round pairs the nodes 2 i and 2 i + 1. -/
theorem treeLevel_map_range (t : Nat → Option FRes) (n : Nat) :
    treeLevel g ((List.range (2 * n)).map t) = (List.range n).map fun i => treeNode g (t (2 * i)) (t (2 * i + 1)) := by
  induction n generalizing t with
  | zero => rfl
  | succ n ih =>
    have two : List.range (2 * (n + 1)) = 0 :: 1 :: (List.range (2 * n)).map (· + 2) := by
      rw [Nat.mul_succ, List.range_succ_eq_map, List.range_succ_eq_map]
      simp [Function.comp_def]
    rw [two, List.range_succ_eq_map, List.map_cons, List.map_cons, List.map_cons, treeLevel, List.map_map, ih, List.map_map]
    rfl

/-- One round makes level k + 1 of the tree out of level k. -/
theorem treeLevel_treeAt (k n : Nat) :
    treeLevel g ((List.range (2 * n)).map (treeAt g leaf k)) = (List.range n).map (treeAt g leaf (k + 1)) :=
  treeLevel_map_range _ n

/-- The five rounds over 32 lanes end in the root. -/
theorem treeSum_eq_treeAt : treeSum g ((List.range 32).map leaf) = treeAt g leaf 5 0 := by
  have levels : treeLevel g (treeLevel g (treeLevel g (treeLevel g (treeLevel g ((List.range 32).map (treeAt g leaf 0)))))) =
      (List.range 1).map (treeAt g leaf 5) := by
    rw [treeLevel_treeAt 0 16, treeLevel_treeAt 1 8, treeLevel_treeAt 2 4, treeLevel_treeAt 3 2, treeLevel_treeAt 4 1]
  exact congrArg (fun l : List (Option FRes) => l.head?.join) levels

theorem treeNode_isSome {x y : Option FRes} : (treeNode g x y).isSome ↔ x.isSome ∨ y.isSome := by
  cases x <;> cases y <;> simp [treeNode]

/-- A lane with an element reaches the nodes above it. -/
theorem treeAt_isSome {l : Nat} (some' : (leaf l).isSome) (k : Nat) : (treeAt g leaf k (l / 2 ^ k)).isSome := by
  induction k with
  | zero => simpa [treeAt] using some'
  | succ k ih =>
    have half : l / 2 ^ (k + 1) = l / 2 ^ k / 2 := by rw [Nat.pow_succ, Nat.div_div_eq_div_mul]
    rw [treeAt, treeNode_isSome, half]
    obtain even | odd := Nat.mod_two_eq_zero_or_one (l / 2 ^ k)
    · exact .inl (by rwa [show 2 * (l / 2 ^ k / 2) = l / 2 ^ k by omega])
    · exact .inr (by rwa [show 2 * (l / 2 ^ k / 2) + 1 = l / 2 ^ k by omega])

theorem root_isSome {l : Nat} (hl : l < 32) (some' : (leaf l).isSome) : (treeAt g leaf 5 0).isSome := by
  have root := treeAt_isSome (g := g) some' 5
  rwa [Nat.div_eq_of_lt (by omega)] at root

end Sys2Proof
end

section
/-!
SUPPORT. The prefixes of a scan (R230): the result of each lane, and what one result is to the next.
-/
namespace Sys2Proof
open Machine

variable {g : Nat → Nat → FRes}

/-- The result that a list of (lane, result) gives a lane, with its flags and counters. -/
def laneResult (rs : List (Nat × FRes)) (l : Nat) : FRes := ((rs.find? fun p => p.1 == l).map (·.2)).getD {}

theorem bits_laneResult (rs : List (Nat × FRes)) : (fun l => (laneResult rs l).bits) = lookupLane rs := by
  funext l
  unfold lookupLane laneResult
  cases rs.find? fun p => p.1 == l <;> rfl

/-- Where no lane is listed twice, each has the result that stands beside it. -/
theorem laneResult_of_mem {rs : List (Nat × FRes)} (nodup : (rs.map (·.1)).Nodup) {l : Nat} {q : FRes} (h : (l, q) ∈ rs) : laneResult rs l = q := by
  induction rs with
  | nil => cases h
  | cons x rs ih =>
    rw [List.map_cons, List.nodup_cons] at nodup
    obtain ⟨fresh, nodup⟩ := nodup
    obtain rfl | h := List.mem_cons.1 h
    · simp [laneResult]
    · have other : x.1 ≠ l := fun e => fresh (e ▸ List.mem_map_of_mem (f := (·.1)) h)
      rw [← ih nodup h]
      simp [laneResult, other]

theorem map_laneResult {rs : List (Nat × FRes)} (nodup : (rs.map (·.1)).Nodup) : (rs.map (·.1)).map (laneResult rs) = rs.map (·.2) := by
  rw [List.map_map]
  exact List.map_congr_left fun x hx => laneResult_of_mem nodup hx

/-- The prefixes stand in the lanes of the elements. -/
theorem prefixes_lanes (p : Option FRes) (xs : List (Nat × Nat)) : (prefixes g p xs).map (·.1) = xs.map (·.1) := by
  induction xs generalizing p with
  | nil => cases p <;> rfl
  | cons x xs ih => cases p <;> simp [prefixes, ih]

theorem prefixes_first (x : Nat × Nat) (xs : List (Nat × Nat)) : (prefixes g none (x :: xs))[0]? = some (x.1, { bits := x.2 }) := rfl

/-- What stands at one place, combined with the next element, stands at the next place. -/
theorem prefixes_next {xs : List (Nat × Nat)} {k l v m : Nat} {q : FRes} (p : Option FRes) (next : xs[k + 1]? = some (l, v))
    (before : (prefixes g p xs)[k]? = some (m, q)) : (prefixes g p xs)[k + 1]? = some (l, q.after (g q.bits v)) := by
  induction xs generalizing p k with
  | nil => simp at next
  | cons x xs ih =>
    have head : ∃ a b, prefixes g p (x :: xs) = (a, b) :: prefixes g (some b) xs := by cases p <;> exact ⟨_, _, rfl⟩
    obtain ⟨a, b, head⟩ := head
    rw [head] at before ⊢
    rw [List.getElem?_cons_succ] at next ⊢
    cases k with
    | zero =>
      obtain rfl : b = q := by simpa using congrArg (Option.map Prod.snd) before
      cases xs with
      | nil => simp at next
      | cons y xs =>
        obtain rfl : y = (l, v) := by simpa using next
        rfl
    | succ k => exact ih _ next before

end Sys2Proof
end

section
/-!
PROOF. O8: floating-point reductions and the floating-point scan (R154, R229, R230).
-/
namespace Sys2Proof
open Machine

variable {s : State} {f : L64} {rm : Nat}

/-! ### Reductions -/

theorem exec_fredForm {i : Instr} {rounds : Bool} {g : Nat → Nat → Nat → FRes} (h : (i, rounds, g) ∈ fredForms f) (s : State) :
    exec i s = fredOp f rounds g s := by
  have all : ∀ x ∈ fredForms f, exec x.1 s = fredOp f x.2.1 x.2.2 s := by
    simp only [fredForms, List.forall_mem_cons]
    exact ⟨exec_lredFadd f s, exec_lredFmin f s, exec_lredFmax f s, List.forall_mem_nil _⟩
  exact all _ h

/-- The element that a lane brings to a reduction, if it is active. -/
def fredLeaf (h : Hart) (f : L64) (l : Nat) : Option FRes :=
  if (effMask h f).getLsbD l then some { bits := h.elem (widthOf f) f.a.toNat l } else none

theorem exists_fredLeaf {h : Hart} (active : effMask h f ≠ 0) : ∃ l < 32, (fredLeaf h f l).isSome := by
  obtain ⟨l, hl, bit⟩ : ∃ l < 32, (effMask h f).getLsbD l = true := by
    by_contra none'
    push Not at none'
    exact active (BitVec.eq_of_getLsbD_eq fun l hl => by simpa using none' l hl)
  exact ⟨l, hl, by simp [fredLeaf, bit]⟩

/-- The model's leaves, taken from the list of active lanes. -/
theorem fredLeaf_map (h : Hart) :
    ((List.range 32).map fun l => if (activeLanes h f).contains l then some ({ bits := h.elem (widthOf f) f.a.toNat l } : FRes) else none) =
      (List.range 32).map (fredLeaf h f) := by
  refine List.map_congr_left fun l hl => if_congr ?_ rfl rfl
  rw [List.contains_iff_mem, mem_activeLanes, and_iff_right (List.mem_range.1 hl)]

/-- A reduction with an active lane writes the root of its tree to x[d], FP32 NaN-boxed. -/
theorem fred_active {i : Instr} {rounds : Bool} {g : Nat → Nat → Nat → FRes} (h : (i, rounds, g) ∈ fredForms f) (fs : s.me.fs ≠ 0)
    (mode : RoundsWith s.me f rounds rm) (active : effMask s.me f ≠ 0) :
    ∃ h' r, treeAt (g rm) (fredLeaf s.me f) 5 0 = some r ∧ FpDone i s h' r.flags r.cnt ∧
      XReg s.me h' f.d.toNat (if widthOf f = 32 then word (r.bits + 0xFFFFFFFF * 2 ^ 32) else word r.bits) ∧
      { h' with x := s.me.x } = s.me.setFs 3 := by
  obtain ⟨l, hl, leaf⟩ := exists_fredLeaf active
  obtain ⟨r, root⟩ := Option.isSome_iff_exists.1 (root_isSome (g := g rm) hl leaf)
  have done := fpDone_of_fpOp (exec_fredForm h s) fs mode active
  simp only [Hart.elem_setFs, fredLeaf_map, treeSum_eq_treeAt, root] at done
  rw [show 2 ^ 32 - 1 = 0xFFFFFFFF from rfl] at done
  refine ⟨_, r, root, done, fun n => ?_, ?_⟩
  · rw [Hart.getX_setX, Hart.getX_setFs]
  · rw [← Hart.x_setFs s.me 3]
    exact Hart.setX_frame ..

/-! ### The scan -/

/-- The prefixes of `lscan.fadd`, lane by lane. -/
def fscanPrefixes (h : Hart) (f : L64) (rm : Nat) : List (Nat × FRes) :=
  prefixes (fAdd (fmtOf f.ty) rm false) none ((activeLanes h f).map fun l => (l, h.elem (widthOf f) f.a.toNat l))

theorem fscanPrefixes_lanes (h : Hart) (f : L64) (rm : Nat) : (fscanPrefixes h f rm).map (·.1) = activeLanes h f := by
  rw [fscanPrefixes, prefixes_lanes, List.map_map]
  exact List.map_id _

theorem fscanPrefixes_nodup (h : Hart) (f : L64) (rm : Nat) : ((fscanPrefixes h f rm).map (·.1)).Nodup := by
  rw [fscanPrefixes_lanes]
  exact activeLanes_nodup h f

/-- The result of the j-th active lane stands at place j. -/
theorem laneResult_fscan {h : Hart} {j l : Nat} {q : FRes} (place : (fscanPrefixes h f rm)[j]? = some (l, q)) :
    laneResult (fscanPrefixes h f rm) l = q :=
  laneResult_of_mem (fscanPrefixes_nodup h f rm) (List.mem_of_getElem? place)

theorem fscanPrefixes_at {h : Hart} {j l : Nat} (lane : (activeLanes h f)[j]? = some l) :
    (fscanPrefixes h f rm)[j]? = some (l, laneResult (fscanPrefixes h f rm) l) := by
  rw [← fscanPrefixes_lanes h f rm, List.getElem?_map] at lane
  obtain ⟨⟨m, q⟩, place, rfl⟩ := Option.map_eq_some_iff.1 lane
  rw [place, laneResult_fscan place]

/-- The first active lane keeps its element. -/
theorem fscan_first {h : Hart} {l : Nat} (lane : (activeLanes h f)[0]? = some l) :
    laneResult (fscanPrefixes h f rm) l = { bits := h.elem (widthOf f) f.a.toNat l } := by
  refine laneResult_fscan (j := 0) ?_
  unfold fscanPrefixes
  cases lanes : activeLanes h f with
  | nil => simp [lanes] at lane
  | cons k ls =>
    obtain rfl : k = l := by simpa [lanes] using lane
    exact prefixes_first ..

/-- A later active lane adds its element to the result of the one before it, rounded once. -/
theorem fscan_next {h : Hart} {k l p : Nat} (lane : (activeLanes h f)[k + 1]? = some l) (before : (activeLanes h f)[k]? = some p) :
    let r := laneResult (fscanPrefixes h f rm)
    r l = (r p).after (fAdd (fmtOf f.ty) rm false (r p).bits (h.elem (widthOf f) f.a.toNat l)) :=
  laneResult_fscan (prefixes_next none (by rw [List.getElem?_map, lane]; rfl) (fscanPrefixes_at before))

/-- The scan writes its prefixes to the active lanes. -/
theorem fscan_done (fs : s.me.fs ≠ 0) (mode : RoundsWith s.me f true rm) :
    LaneFpDone (.lscanFadd f) s f (widthOf f) f.d.toNat (laneResult (fscanPrefixes s.me f rm)) := by
  refine laneFpDone_of_fpOp (widthOf_cases f) (exec_lscanFadd f s) fs mode ?_
  have results := map_laneResult (fscanPrefixes_nodup s.me f rm)
  rw [fscanPrefixes_lanes] at results
  rw [results, bits_laneResult]
  simp only [Hart.elem_setFs, fscanPrefixes]

/-- Settles O8: a reduction by its tree, the scan by its prefixes. -/
theorem laneFpReduce : Obligations.LaneFpReduce := by
  unfold Obligations.LaneFpReduce
  refine ⟨fun s f i rounds rm g form fs mode => ⟨becomes_of_fpOp (exec_fredForm form s) fs mode, fred_active form fs mode⟩,
    fun s f rm fs mode => ⟨laneResult (fscanPrefixes s.me f rm), fscan_done fs mode, fun j l lane => ⟨?_, ?_⟩⟩⟩
  · rintro rfl
    exact fscan_first lane
  · rintro k p rfl before
    exact fscan_next lane before

end Sys2Proof
end

section
/-!
SUPPORT. One channel or queue of a core: reading it after an update of another, and what an update of one leaves as it was.
-/
namespace Sys2Proof
open Machine

theorem Machine.Core.chan_modChan (x : Core) (i j : Nat) (f : Channel → Channel) : (x.modChan i f).chan j = if j = i then f (x.chan i) else x.chan j :=
  SMap.get_set ..

theorem Machine.Core.q_modQ (x : Core) (i j : Nat) (f : HwQueue → HwQueue) : (x.modQ i f).q j = if j = i then f (x.q i) else x.q j := SMap.get_set ..

theorem chanBecomes_modChan (s : State) (c ch : Nat) (f : Channel → Channel) :
    ChanBecomes s (s.modCore c fun k => k.modChan ch f) c ch (f ((s.core c).chan ch)) := by
  refine ⟨fun _ => rfl, rfl, fun d hd => State.core_modCore_ne _ _ hd, ?_, fun k hk => ?_, ?_⟩ <;> rw [State.core_modCore_self]
  · rw [Core.chan_modChan, if_pos rfl]
  · rw [Core.chan_modChan, if_neg hk]
  · rfl

theorem modQ_frame (s : State) (c q : Nat) (f : HwQueue → HwQueue) :
    let t := s.modCore c fun k => k.modQ q f
    SameMemory s t ∧ { t with cores := s.cores } = s ∧ (∀ d, d ≠ c → t.core d = s.core d) ∧
      (t.core c).q q = f ((s.core c).q q) ∧ (∀ k, k ≠ q → (t.core c).q k = (s.core c).q k) ∧ { t.core c with queues := (s.core c).queues } = s.core c := by
  refine ⟨fun _ => rfl, rfl, fun d hd => State.core_modCore_ne _ _ hd, ?_, fun k hk => ?_, ?_⟩ <;> rw [State.core_modCore_self]
  · rw [Core.q_modQ, if_pos rfl]
  · rw [Core.q_modQ, if_neg hk]
  · rfl

end Sys2Proof
end

section
/-!
PROOF. O36 fails: a pop by a hart that is bound to nothing.
-/
namespace Sys2Proof
open Machine

/-- Hart 0 runs in S mode, bound to nothing; queue 0 of core 0 holds one value, tainted by region 0. -/
def unboundPopState : State :=
  { harts := [(0, { live := true, priv := .s })], cores := [(0, { queues := [(0, { en := true, units := 1, vals := [{ taint := 1 }] })] })] }

/-- The hart itself takes the value's taint (R351). -/
theorem taint_of_unboundPop {t : State} (run : Runs (.qpop 0 0) unboundPopState t) : t.me.taint = 1 := by
  cases run
  decide

/-- Refutes O36: the clause on `qpop` lets the registers, the M-mode taint and the binding of the hart change and nothing else, but the context of a hart that is bound
to nothing is the hart itself, and outside M mode the value's taint goes to the hart's own field, which the clause keeps (the clause on `imv` in `InboxAndEnd` lets that
field change). What the clause says of `taintOf` even needs the change there. -/
theorem not_messageTake : ¬ Obligations.MessageTake := by
  unfold Obligations.MessageTake
  intro h
  obtain ⟨_, _, _, _, pops, _⟩ := h unboundPopState 0 0 0
  obtain ⟨t, run, _, _, _, _, frame, _⟩ := pops { taint := 1 } [] (by decide) rfl (.inl rfl)
  have kept : t.me.taint = 0 := (congrArg Hart.taint frame :)
  exact absurd ((taint_of_unboundPop run).symm.trans kept) (by decide)

end Sys2Proof
end

section
/-!
PROOF. O51: the registers of channels and queues (R168, R171, R276, R277, R279, R281).
-/
namespace Sys2Proof
open Machine

variable {s : State} {c ch q : Nat} {v : Word}

/-! ### `khctl` -/

/-- The domain set and the tables that a handler entry has once its LAUNCH is `id`: its own where that is no change (log 35). -/
def launchDoms (s : State) (x : Channel) (id : Nat) : BitVec 36 × Word :=
  if id = x.launch then (x.kdom, x.kxtab)
  else match s.launch? id with
    | some l => (l.kdom, l.kxtab)
    | none => (0, 0)

/-- A handler entry that a value is written to through `khctl`. -/
def Machine.Channel.putHctl (x : Channel) (v : Word) (doms : BitVec 36 × Word) : Channel :=
  { x with en := bitOf v 63, prio := fld v 60 3, k := fld v 56 4, conc := fld v 52 4, maxp := min 16 (fld v 47 5), pinen := bitOf v 46
           pin := fld v 42 4, eprio := fld v 60 3, passes := 0, launch := fld v 0 16, kdom := doms.1, kxtab := doms.2 }

theorem id_of_launch? {id : Nat} {l : Launch} (h : s.launch? id = some l) : l.id = id := by simpa using List.find?_some h

theorem khctlWrite_eq (s : State) (c ch : Nat) (v : Word) :
    khctlWrite s c ch v = s.modCore c fun k => k.modChan ch fun x => x.putHctl v (launchDoms s x (fld v 0 16)) := by
  unfold khctlWrite Channel.putHctl launchDoms
  congr
  funext k
  congr
  funext x
  dsimp only
  split
  · next h => rw [h]
  · cases h : s.launch? (fld v 0 16) with
    | some l => simp only [id_of_launch? h]
    | none => rfl

theorem khctlWrite_becomes (s : State) (c ch : Nat) (v : Word) :
    let x := (s.core c).chan ch
    ChanBecomes s (khctlWrite s c ch v) c ch (x.putHctl v (launchDoms s x (fld v 0 16))) := by
  rw [khctlWrite_eq]
  exact chanBecomes_modChan ..

section
variable {x : Channel} {id : Nat}

theorem launchDoms_same (h : id = x.launch) : launchDoms s x id = (x.kdom, x.kxtab) := if_pos h

theorem launchDoms_known (h : id ≠ x.launch) {l : Launch} (known : s.launch? id = some l) : launchDoms s x id = (l.kdom, l.kxtab) := by
  rw [launchDoms, if_neg h, known]

theorem launchDoms_unknown (h : id ≠ x.launch) (unknown : s.launch? id = none) : launchDoms s x id = (0, 0) := by
  rw [launchDoms, if_neg h, unknown]

end

/-! ### `kchq` -/

/-- The depth that a write of `kchq` asks for may be given: the queue and its ring are empty, and the cluster has the entries once the channel has given its own
back (R276). -/
def DepthTakes (s : State) (c ch d : Nat) : Prop :=
  ((s.core c).chan ch).hw = [] ∧ ((s.core c).chan ch).rcnt = 0 ∧ (d = 0 ∨ 4 ≤ d ∧ d ≤ 64) ∧
    d ≤ entriesFree (s.modCore c fun k => k.modChan ch fun y => { y with ents := [] }) (clusterOf c)

/-- A channel that a value is written to through `kchq`, with the depth, its owner's mark and the entries that it then has. -/
def Machine.Channel.putHq (x : Channel) (v : Word) (depth : Nat) (byBinder : Bool) (ents : SMap Nat) : Channel :=
  { x with err := x.err && !bitOf v 63, drop := fld v 24 8, depth := depth, byBinder := byBinder, ents := ents }

theorem Machine.Channel.depth_putHq (x : Channel) (v : Word) (n : Nat) (b : Bool) (e : SMap Nat) : (x.putHq v n b e).depth = n := rfl
theorem Machine.Channel.ents_putHq (x : Channel) (v : Word) (n : Nat) (b : Bool) (e : SMap Nat) : (x.putHq v n b e).ents = e := rfl

theorem kchqWrite_eq (hch : ch ≠ 63) {ok : Bool} (hok : ok = true ↔ DepthTakes s c ch (fld v 0 7)) :
    kchqWrite s c ch v = s.modCore c fun k => k.modChan ch fun y => y.putHq v (if ok then fld v 0 7 else y.depth) (y.byBinder && !ok)
      (if ok then allotEntries (s.modCore c fun k => k.modChan ch fun y => { y with ents := [] }) (clusterOf c) (fld v 0 7) else y.ents) := by
  unfold kchqWrite
  rw [if_neg hch]
  dsimp only
  generalize hb : (_ && decide (fld v 0 7 ≤ _) : Bool) = b
  obtain rfl : ok = b := by
    rw [Bool.eq_iff_iff, hok, ← hb]
    simp [DepthTakes, and_assoc]
  rfl

theorem kchqWrite_takes (hch : ch ≠ 63) (takes : DepthTakes s c ch (fld v 0 7)) :
    ChanBecomes s (kchqWrite s c ch v) c ch (((s.core c).chan ch).putHq v (fld v 0 7) (((s.core c).chan ch).byBinder && !true)
      (allotEntries (s.modCore c fun k => k.modChan ch fun y => { y with ents := [] }) (clusterOf c) (fld v 0 7))) := by
  rw [kchqWrite_eq hch (ok := true) (by simpa using takes)]
  simp only [reduceIte]
  exact chanBecomes_modChan ..

theorem kchqWrite_keeps (hch : ch ≠ 63) (keeps : ¬ DepthTakes s c ch (fld v 0 7)) :
    let x := (s.core c).chan ch
    ChanBecomes s (kchqWrite s c ch v) c ch (x.putHq v x.depth (x.byBinder && !false) x.ents) := by
  rw [kchqWrite_eq hch (ok := false) (by simpa using keeps)]
  exact chanBecomes_modChan ..

/-! ### `kqctl` -/

/-- A write of `kqctl` that changes nothing (R281). -/
def QueueKeeps (s : State) (c q : Nat) (v : Word) : Prop :=
  let y := (s.core c).q q
  (y.vals ≠ [] ∧ (fld v 0 7 ≠ y.units ∨ fld v 16 16 ≠ y.launch)) ∨ (bitOf v 63 = true ∧ fld v 0 7 = 0) ∨
    entriesFree (s.modCore c fun k => k.modQ q fun y => { y with ents := [] }) (clusterOf c) < fld v 0 7

theorem kqctlWrite_eq (s : State) (c q : Nat) (v : Word) [Decidable (QueueKeeps s c q v)] :
    kqctlWrite s c q v = if QueueKeeps s c q v then s else s.modCore c fun k => k.modQ q fun y =>
      { y with en := bitOf v 63, launch := fld v 16 16, units := fld v 0 7
               ents := if fld v 0 7 = y.units ∧ y.vals ≠ [] then y.ents
                 else allotEntries (s.modCore c fun k => k.modQ q fun y => { y with ents := [] }) (clusterOf c) (fld v 0 7) } := by
  unfold kqctlWrite
  dsimp only
  refine if_congr ?_ rfl ?_
  · simp [QueueKeeps, or_assoc]
  · congr
    funext k
    congr
    funext y
    congr 2
    simp

/-- Settles O51, register by register. -/
theorem channelRegisters : Obligations.ChannelRegisters := by
  unfold Obligations.ChannelRegisters
  intro s c ch v
  refine ⟨⟨_, khctlWrite_becomes s c ch v, rfl, rfl, rfl, rfl, rfl, rfl, rfl, rfl, rfl, rfl, fun h => ?_, fun h l known => ?_, fun h unknown => ?_, rfl⟩,
    ⟨fun h => ⟨if_pos h, if_pos h⟩, fun h => ?_⟩, ⟨_, chanBecomes_modChan .., fun h => if_pos h, fun h => if_neg (not_not.2 h)⟩, fun q => ?_⟩
  · rw [launchDoms_same h]
    exact ⟨rfl, rfl⟩
  · rw [launchDoms_known h known]
    exact ⟨rfl, rfl⟩
  · rw [launchDoms_unknown h unknown]
    exact ⟨rfl, rfl⟩
  · by_cases takes : DepthTakes s c ch (fld v 0 7)
    · exact ⟨_, kchqWrite_takes h takes, rfl, rfl, fun _ => ⟨Channel.depth_putHq .., Channel.ents_putHq ..⟩, fun keeps => absurd takes keeps, rfl⟩
    · exact ⟨_, kchqWrite_keeps h takes, rfl, rfl, fun yes => absurd yes takes, fun _ => ⟨rfl, rfl⟩, rfl⟩
  · classical
    have eq := kqctlWrite_eq s c q v
    refine ⟨fun keeps => eq.trans (if_pos keeps), fun changes => ⟨_, eq.trans (if_neg changes), modQ_frame ..⟩⟩

end Sys2Proof
end

section
/-!
PROOF. O27: hints, waits and the events that end them (R163, R179, R309, R178, R314, R318, R412).
-/
namespace Sys2Proof
open Machine

variable {s : State} {h : Nat}

/-! ### The hints -/

theorem Machine.Core.slotOf_modSlotSched (x : Core) (i : Nat) (f : SlotSched → SlotSched) : (x.modSlotSched i f).slotOf i = f (x.slotOf i) :=
  SMap.get_set_self ..

theorem exec_hint {i : Instr} (hi : i = .pause ∨ i = .kyield) (s : State) :
    exec i s = .next (askSwitch (retire s) (coreOf s.cur) (hartNo s.cur / 4)) := by
  obtain rfl | rfl := hi
  · exact exec_pause s
  · exact exec_kyield s

/-- A slot that is asked to switch. -/
theorem askSwitch_core (s : State) (c slot : Nat) :
    let x := s.core c
    let y := (askSwitch s c slot).core c
    y.slotOf slot = { x.slotOf slot with yield := true } ∧ { y with slots := x.slots } = x := by
  have core : (askSwitch s c slot).core c = (s.core c).modSlotSched slot fun y => { y with yield := true } := State.core_modCore_self ..
  dsimp only
  rw [core]
  exact ⟨Core.slotOf_modSlotSched .., rfl⟩

theorem hint_spec {i : Instr} (hi : i = .pause ∨ i = .kyield) : ∃ t, Runs i s t ∧ t.harts = (s.setHart s.cur s.me.done).harts ∧ SameMemory s t ∧
    t.myCore.slotOf (hartNo s.cur / 4) = { s.myCore.slotOf (hartNo s.cur / 4) with yield := true } ∧
    { t.myCore with slots := s.myCore.slots } = s.myCore ∧ ∀ c, c ≠ coreOf s.cur → t.core c = s.core c := by
  obtain ⟨asked, rest⟩ := askSwitch_core (retire s) (coreOf s.cur) (hartNo s.cur / 4)
  exact ⟨_, exec_hint hi s, rfl, fun _ => rfl, asked, rest, fun c hc => State.core_modCore_ne _ _ hc⟩

/-! ### The order of a slot (R163) -/

/-- The hart of h's slot that comes i places after its current one. -/
def slotPlace (s : State) (h i : Nat) : Nat := h / 4 * 4 + (((s.core (coreOf h)).slotOf (hartNo h / 4)).cur + i) % 4

/-- The first ready hart upward from the current one. -/
theorem nextReady {i : Nat} (hi : 1 ≤ i) (hi3 : i ≤ 3) (ready : isReady s (slotPlace s h i) = true)
    (first : ∀ j, 1 ≤ j → j < i → isReady s (slotPlace s h j) = false) : ([1, 2, 3].map (slotPlace s h)).find? (isReady s) = some (slotPlace s h i) := by
  obtain rfl | rfl | rfl : i = 1 ∨ i = 2 ∨ i = 3 := by omega
  · simp [ready]
  · simp [ready, first 1]
  · simp [ready, first 1, first 2]

theorem slotHart_eq (s : State) (h : Nat) :
    slotHart s h =
      let x := (s.core (coreOf h)).slotOf (hartNo h / 4)
      let next := ([1, 2, 3].map (slotPlace s h)).find? (isReady s)
      if isReady s (slotPlace s h 0) then if x.yield || 256 ≤ x.run then next.getD (slotPlace s h 0) else slotPlace s h 0 else next.getD h := rfl

theorem slotHart_stays (ready : isReady s (slotPlace s h 0) = true) (noYield : ((s.core (coreOf h)).slotOf (hartNo h / 4)).yield = false)
    (run : ((s.core (coreOf h)).slotOf (hartNo h / 4)).run < 256) : slotHart s h = slotPlace s h 0 := by
  rw [slotHart_eq]
  dsimp only
  rw [if_pos ready, if_neg]
  simpa [noYield] using run

theorem slotHart_switches {i : Nat} (hi : 1 ≤ i) (hi3 : i ≤ 3) (ready : isReady s (slotPlace s h i) = true)
    (first : ∀ j, 1 ≤ j → j < i → isReady s (slotPlace s h j) = false)
    (switch : ((s.core (coreOf h)).slotOf (hartNo h / 4)).yield = true ∨ 256 ≤ ((s.core (coreOf h)).slotOf (hartNo h / 4)).run ∨
      isReady s (slotPlace s h 0) = false) : slotHart s h = slotPlace s h i := by
  rw [slotHart_eq, nextReady hi hi3 ready first]
  dsimp only [Option.getD_some]
  by_cases current : isReady s (slotPlace s h 0) = true
  · rw [if_pos current, if_pos]
    simpa [current] using switch
  · exact if_neg current

/-! ### A turn of a hart -/

theorem hartTurn_eq (s : State) (h : Nat) : hartTurn s h = issue (if isReady s h then noteIssue s h else s) h := rfl

theorem noteIssue_slot (s : State) (h : Nat) : ((noteIssue s h).core (coreOf h)).slotOf (hartNo h / 4) =
    let x := (s.core (coreOf h)).slotOf (hartNo h / 4)
    { cur := h % 4, run := if x.cur = h % 4 ∧ (s.hart h).wait = .ready then x.run + 1 else 1 } := by
  unfold noteIssue
  rw [State.core_modCore_self]
  exact Core.slotOf_modSlotSched ..

/-! ### `wfi` -/

theorem exec_wfi_outside (outside : s.me.inClause = false) (legal : s.me.priv = .m ∨ bitOf s.me.csr.mstatus 21 = false) :
    exec .wfi s = if mipOf s s.cur ≠ 0 ∨ (s.me.priv = .u ∧ 65536 ≤ s.islandClock (coreOf s.cur) - wfiSince s) then .next (retire s)
      else .next (s.modMe fun h => { h with wait := .wfi (wfiSince s) }) := by
  rw [exec_wfi, execWfi, outsideClause, if_neg (by simp [outside]), if_neg]
  rintro ⟨notM, tw⟩
  simp_all

/-- An instruction that leaves the state with one change of its hart. -/
theorem becomes_of_exec {i : Instr} {x : Hart} (h : exec i s = .next (s.setHart s.cur x)) : Becomes i s x := ⟨_, h, rfl, fun _ => rfl⟩

/-! ### The events -/

theorem exec_wfiTimeout_of {n : Nat} (wait : (s.hart s.ev.a).wait = .wfi n) (user : (s.hart s.ev.a).priv = .u)
    (late : 65536 ≤ s.islandClock (coreOf s.ev.a) - n) : exec .wfiTimeout s = .next (s.setHart s.ev.a (s.hart s.ev.a).done) := by
  rw [exec_wfiTimeout, execWfiTimeout]
  rw [wait]
  exact congrArg Host.Outcome.next (if_pos ⟨user, late⟩)

theorem exec_slotSwitchLimit_of (run : 256 ≤ ((s.core s.ev.a).slotOf s.ev.b).run) : exec .slotSwitchLimit s = .next (askSwitch s s.ev.a s.ev.b) := by
  rw [exec_slotSwitchLimit, execSlotSwitchLimit, if_pos run]

theorem takesTraps_iff : takesTraps s h = true ↔ (s.hart h).live = true ∧ (s.hart h).halted = false := by simp [takesTraps]

/-- A cause outside those of R314 is raised by nothing. -/
theorem raisedCause_false {c : Nat} (h : 32 ≤ c ∧ c ≤ 47 ∨ 52 ≤ c) : raisedCause c = false := by
  simp [raisedCause]
  omega

section
variable (takes : takesTraps s s.ev.a = true)
include takes

theorem exec_trapEntry_interrupt {c : Nat} (intr : intrNow s s.ev.a = some c) :
    exec .trapEntry s = .next (takeTrap (leaveWait s s.ev.a) s.ev.a true c 0) := by
  rw [exec_trapEntry, execTrapEntry]
  rw [if_pos takes, intr]

theorem exec_trapEntry_sync (intr : intrNow s s.ev.a = none) : exec .trapEntry s =
    .next (if raisedCause s.ev.b then takeTrap (abandon s s.ev.a) s.ev.a false s.ev.b s.ev.w else s) := by
  rw [exec_trapEntry, execTrapEntry]
  rw [if_pos takes, intr]

theorem exec_supervisorTimerInterrupt_of (timer : timerPending s s.ev.a = true) (intr : intrNow s s.ev.a = some 5) :
    exec .supervisorTimerInterrupt s = .next (takeTrap (leaveWait s s.ev.a) s.ev.a true 5 0) := by
  rw [exec_supervisorTimerInterrupt, execSupervisorTimerInterrupt]
  rw [if_pos (by simp [takes, timer, intr])]

end

theorem exec_trap_halted (halted : (s.hart s.ev.a).halted = true) : Runs .trapEntry s s ∧ Runs .supervisorTimerInterrupt s s := by
  have none' : ¬ takesTraps s s.ev.a = true := by simp [takesTraps, halted]
  refine ⟨(exec_trapEntry s).trans (if_neg none'), congrArg Host.Outcome.next (if_neg fun h => none' ?_)⟩
  simp only [Bool.and_eq_true] at h
  exact h.1.1

theorem leaveWait_wfi {n : Nat} (wait : (s.hart h).wait = .wfi n) : leaveWait s h = s.setHart h (s.hart h).done := by
  unfold leaveWait
  rw [wait]
  rfl

/-- Settles O27, clause by clause. -/
theorem hintsAndWaits : Obligations.HintsAndWaits := by
  unfold Obligations.HintsAndWaits
  intro s
  refine ⟨fun i hi => hint_spec hi, fun h => ⟨slotHart_stays, fun i hi hi3 ready first switch => slotHart_switches hi hi3 ready first switch⟩, fun h => ⟨fun idle => ?_, fun ready => ⟨?_, ?_⟩⟩,
    fun outside legal => ⟨fun ends => ?_, fun noIntr early => ?_⟩, fun n wait user late => exec_wfiTimeout_of wait user late,
    exec_slotSwitchLimit_of, fun live running => ?_, exec_trap_halted, fun h n => leaveWait_wfi⟩
  · rw [hartTurn_eq, if_neg (by simp [idle])]
  · rw [hartTurn_eq, if_pos ready]
  · rw [noteIssue_slot]
    exact ⟨rfl, rfl, rfl⟩
  · exact becomes_of_exec ((exec_wfi_outside outside legal).trans (if_pos ends))
  · exact becomes_of_exec ((exec_wfi_outside outside legal).trans (if_neg (not_or.2 ⟨not_not.2 noIntr, early⟩)))
  · have takes := takesTraps_iff.2 ⟨live, running⟩
    refine ⟨exec_supervisorTimerInterrupt_of takes, fun c => exec_trapEntry_interrupt takes, fun intr raised => ?_, fun intr never => ?_⟩
    · exact (exec_trapEntry_sync takes intr).trans (congrArg Host.Outcome.next (if_pos raised))
    · exact (exec_trapEntry_sync takes intr).trans (congrArg Host.Outcome.next (if_neg (by simp [raisedCause_false never])))

end Sys2Proof
end

section
/-!
PROOF. O20: a step runs the decoded instruction (R163, R179), or an event, or passes clocks (R156, R412).
-/
namespace Sys2Proof
open Machine

variable {s : State}

/-! ### The turns -/

theorem step_hart {h : Nat} {rest : List Turn} (runs : stopped s = none) (turn : pickTurn s = (.hart h, rest)) :
    step s = hartTurn (tick { s with agenda := rest } 1) (slotHart (tick { s with agenda := rest } 1) h) := by
  unfold step
  rw [runs, turn]

theorem step_event {i : Instr} {a : EvArg} {rest : List Turn} (runs : stopped s = none) (turn : pickTurn s = (.event i a, rest)) :
    step s = exec i { tick { s with agenda := rest } 1 with ev := a } := by
  unfold step
  rw [runs, turn]

theorem step_wait {n : Nat} {rest : List Turn} (runs : stopped s = none) (turn : pickTurn s = (.wait n, rest)) :
    step s = .next (tick { s with agenda := rest } n) := by
  unfold step
  rw [runs, turn]

theorem pickTurn_cons {x : Turn} {rest : List Turn} (agenda : s.agenda = x :: rest) : pickTurn s = (x, rest) := by
  unfold pickTurn
  rw [agenda]

/-- A hart that may issue and takes no halt and no interrupt runs what it fetches. -/
theorem issue_fetched {g bits : Nat} {t : State} (live : (({ s with cur := g } : State).hart g).live = true)
    (running : (({ s with cur := g } : State).hart g).halted = false) (quiet : haltOrIntr { s with cur := g } g = none)
    (may : mayIssue { s with cur := g } g = true) (fetched : fetch { s with cur := g } g = (t, some bits)) : issue s g = runDecoded t g bits := by
  unfold issue
  dsimp only
  rw [if_neg (by simp [live, running]), quiet]
  dsimp only
  rw [if_pos may, fetched]

section
variable {h bits n : Nat}

theorem runDecoded_instr {i : Instr} (d : decode bits = .ok (.instr i, n)) : runDecoded s h bits = exec i (latch s h bits n) := by
  unfold runDecoded
  rw [d]

theorem runDecoded_base {b : BaseInstr} (d : decode bits = .ok (.base b, n)) : runDecoded s h bits = execBase b (latch s h bits n) := by
  unfold runDecoded
  rw [d]

theorem runDecoded_error {e : DecodeError} (d : decode bits = .error e) : runDecoded s h bits = illegalNow (latch s h bits ((lengthOf bits).getD 2)) := by
  unfold runDecoded
  rw [d]

end

/-! ### The clocks that pass -/

/-- Counter 15 of some cores rises by n. -/
def bumpClocks (n : Nat) (cs : List Nat) (s : State) : State := cs.foldl (fun t c => bump t c 15 n) s

theorem bumpClocks_rest (n : Nat) (cs : List Nat) (s : State) : { bumpClocks n cs s with cores := s.cores } = s :=
  List.foldlRecOn (motive := fun t : State => { t with cores := s.cores } = s) cs _ rfl fun _ ht _ _ => ht

theorem bumpClocks_other (n : Nat) (cs : List Nat) (s : State) (c : Nat) {k : Nat} (hk : k ≠ 15) :
    ((bumpClocks n cs s).core c).kev.get 0 k = (s.core c).kev.get 0 k := by
  induction cs generalizing s with
  | nil => rfl
  | cons d cs ih =>
    refine (ih (bump s d 15 n)).trans ?_
    by_cases e : c = d
    · rw [e, bump_kev, if_neg hk]
    · rw [bump_core_ne s d 15 n e]

/-- A core that is listed once counts the clocks once. -/
theorem bumpClocks_kev (n : Nat) {cs : List Nat} (nodup : cs.Nodup) (s : State) (c : Nat) :
    ((bumpClocks n cs s).core c).kev.get 0 15 =
      if c ∈ cs then min ((s.core c).kev.get 0 15 + n) (2 ^ 48 - 1) else (s.core c).kev.get 0 15 := by
  induction cs generalizing s with
  | nil => rfl
  | cons d cs ih =>
    obtain ⟨fresh, nodup⟩ := List.nodup_cons.1 nodup
    refine (ih nodup (bump s d 15 n)).trans ?_
    by_cases e : c = d
    · rw [e, if_neg fresh, if_pos List.mem_cons_self, bump_kev, if_pos rfl]
    · simp only [bump_core_ne s d 15 n e, List.mem_cons, e, false_or]

theorem mem_clusterCores {c k : Nat} : c ∈ clusterCores k ↔ clusterOf c = k := by
  simp only [clusterCores, clusterOf, dieOfCore, rowOf, colOf, List.mem_cons, List.not_mem_nil, or_false]
  omega

theorem clusterCores_nodup (k : Nat) : (clusterCores k).Nodup := by simp [clusterCores]

/-- An island that runs below point 0 or is stretched. -/
abbrev Machine.Island.Slow (x : Island) : Prop := x.point ≠ 0 ∨ x.stretch = true

/-- The cores of the islands that are slow. -/
def slowCores (s : State) : List Nat := (s.mgmt.islands.filter fun x => decide x.2.Slow).flatMap fun x => clusterCores x.1

theorem tick_eq (s : State) (n : Nat) : tick s n =
    let t := bumpClocks n (slowCores s) { s with clock := s.clock + n }
    { t with mgmt := { t.mgmt with islands := t.mgmt.islands.map fun p => (p.1, { p.2 with lost := p.2.lost + n * p.2.loss }) } } := by
  have slow : (fun x : Nat × Island => x.2.point != 0 || x.2.stretch) = fun x => decide x.2.Slow := by
    funext x
    by_cases zero : x.2.point = 0 <;> simp [Island.Slow, zero]
  unfold tick bumpClocks slowCores
  rw [slow, List.foldl_flatMap]

theorem Machine.SMap.get_of_mem {α : Type} {d v : α} {m : SMap α} {i : Nat} (nodup : (m.map (·.1)).Nodup) (h : (i, v) ∈ m) : SMap.get d m i = v := by
  induction m with
  | nil => cases h
  | cons p m ih =>
    obtain ⟨fresh, nodup⟩ := List.nodup_cons.1 nodup
    obtain rfl | h := List.mem_cons.1 h
    · exact if_pos rfl
    · have other : i ≠ p.1 := by
        rintro rfl
        exact fresh (List.mem_map_of_mem (f := (·.1)) h)
      exact (if_neg other).trans (ih nodup h)

section
variable (nodup : (s.mgmt.islands.map (·.1)).Nodup)
include nodup

theorem mem_slowCores {c : Nat} : c ∈ slowCores s ↔ (s.island (clusterOf c)).Slow := by
  unfold slowCores
  simp only [List.mem_flatMap, List.mem_filter, decide_eq_true_iff, mem_clusterCores]
  constructor
  · rintro ⟨x, ⟨hx, slow⟩, e⟩
    rwa [State.island, SMap.get_of_mem nodup (show (clusterOf c, x.2) ∈ _ from e ▸ hx)]
  · intro slow
    have listed : s.island (clusterOf c) ≠ {} := fun e => by simp [e, Island.Slow] at slow
    exact ⟨_, ⟨SMap.mem_of_get_ne listed, slow⟩, rfl⟩

theorem slowCores_nodup : (slowCores s).Nodup := by
  have keys : (s.mgmt.islands.filter fun x => decide x.2.Slow).Pairwise fun x y => x.1 ≠ y.1 := (List.pairwise_map.1 nodup).filter _
  refine List.nodup_flatMap.2 ⟨fun x _ => clusterCores_nodup x.1, keys.imp fun {x y} ne c hx hy => ne ?_⟩
  exact (mem_clusterCores.1 hx).symm.trans (mem_clusterCores.1 hy)

end

theorem tick_island (s : State) (n k : Nat) : (tick s n).island k = { s.island k with lost := (s.island k).lost + n * (s.island k).loss } := by
  have mgmt : (bumpClocks n (slowCores s) { s with clock := s.clock + n }).mgmt = s.mgmt := (congrArg State.mgmt (bumpClocks_rest ..) :)
  rw [tick_eq]
  dsimp only
  rw [mgmt]
  exact SMap.get_map_snd {} (fun x : Island => { x with lost := x.lost + n * x.loss }) rfl s.mgmt.islands k

theorem tick_core (s : State) (n c : Nat) : (tick s n).core c = (bumpClocks n (slowCores s) { s with clock := s.clock + n }).core c := by
  rw [tick_eq]
  rfl

/-- Clocks pass: the whole of the state but the cores and the islands. -/
theorem tick_rest (s : State) (n : Nat) : { tick s n with cores := s.cores, mgmt := s.mgmt } = { s with clock := s.clock + n } := by
  have rest := bumpClocks_rest n (slowCores s) { s with clock := s.clock + n }
  rw [tick_eq]
  exact (congrArg (fun t : State => { t with mgmt := s.mgmt }) rest :)

/-- Settles O20: each kind of turn, and the clocks that pass around it. -/
theorem stepRunsDecoded : Obligations.StepRunsDecoded := by
  unfold Obligations.StepRunsDecoded
  refine ⟨fun s t h bits rest runs turn live running quiet may fetched => ?_, fun s rest runs => ⟨fun i a => step_event runs, fun n => step_wait runs⟩,
    fun s x rest => pickTurn_cons, fun s n => ?_⟩
  · have ran := (step_hart runs turn).trans (issue_fetched live running quiet may fetched)
    exact ⟨fun i n d => ran.trans (runDecoded_instr d), fun b n d => ran.trans (runDecoded_base d), fun e d => ran.trans (runDecoded_error d)⟩
  · have rest := tick_rest s n
    refine ⟨(congrArg State.clock rest :), (congrArg State.harts rest :), fun a => ?_, fun c k hk => ?_, fun nodup c => ?_, fun k => tick_island s n k⟩
    · exact (congrArg (fun t => rawByte t a) rest :)
    · rw [tick_core]
      exact bumpClocks_other n _ _ c hk
    · rw [tick_core, bumpClocks_kev n (slowCores_nodup nodup)]
      exact if_congr (mem_slowCores nodup) rfl rfl

end Sys2Proof
end

section
/-!
SUPPORT. Inbox registers (R166, R170, R280): what filling, clearing and loading a message leave; and the acquire that pairs with a release (R58, R125).
-/
namespace Sys2Proof
open Machine

variable {s : State}

/-! ### Registers filled and cleared -/

theorem Machine.Hart.inbox_fillInbox (h : Hart) (r k : Nat) (v : Word) (src : InFrom) :
    (h.fillInbox r v src).inbox.get 0 k = if k = r then v else h.inbox.get 0 k := SMap.get_set ..

theorem Machine.Hart.fillInbox_frame (h : Hart) (r : Nat) (v : Word) (src : InFrom) :
    { h.fillInbox r v src with inbox := h.inbox, present := h.present, inFrom := h.inFrom } = h.dirtyXs := rfl

theorem getLsbD_two_pow {r : Nat} (hr : r < 8) (j : Nat) : (BitVec.ofNat 8 (2 ^ r)).getLsbD j = decide (j = r) := by
  rw [BitVec.getLsbD_ofNat, Nat.testBit_two_pow, Bool.eq_iff_iff]
  simp
  omega

theorem Machine.Hart.present_fillInbox (h : Hart) {r : Nat} (hr : r < 8) (v : Word) (src : InFrom) (j : Nat) :
    (h.fillInbox r v src).present.getLsbD j = (h.present.getLsbD j || decide (j = r)) := by
  rw [← getLsbD_two_pow hr]
  exact BitVec.getLsbD_or

theorem Machine.Hart.present_clearInbox (h : Hart) {r : Nat} (hr : r < 8) (j : Nat) :
    (h.clearInbox r).present.getLsbD j = (h.present.getLsbD j && decide (j ≠ r)) := by
  have cleared : (h.clearInbox r).present.getLsbD j = (h.present.getLsbD j && (decide (j < 8) && !decide (j = r))) := by
    rw [← getLsbD_two_pow hr, ← BitVec.getLsbD_not]
    exact BitVec.getLsbD_and
  rw [cleared]
  by_cases hj : j < 8
  · simp [hj]
  · simp [BitVec.getLsbD_of_ge _ _ (Nat.le_of_not_lt hj)]

/-! ### A message loaded -/

/-- Words put into the inbox registers from i n on. -/
def fillFrom (n : Nat) (ws : List Word) (h : Hart) : Hart := (ws.zipIdx n).foldl (fun y p => y.fillInbox p.2 p.1 {}) h

theorem fillFrom_cons (n : Nat) (w : Word) (ws : List Word) (h : Hart) : fillFrom n (w :: ws) h = fillFrom (n + 1) ws (h.fillInbox n w {}) := rfl

theorem inbox_fillFrom (n : Nat) (ws : List Word) (h : Hart) (k : Nat) :
    (fillFrom n ws h).inbox.get 0 k = if n ≤ k ∧ k < n + ws.length then nth 0 ws (k - n) else h.inbox.get 0 k := by
  induction ws generalizing n h with
  | nil => exact (if_neg (by simp)).symm
  | cons w ws ih =>
    rw [fillFrom_cons, ih, Hart.inbox_fillInbox, List.length_cons]
    obtain before | rfl | after := Nat.lt_trichotomy k n
    · rw [if_neg (by omega), if_neg (by omega), if_neg (by omega)]
    · rw [if_neg (by omega), if_pos rfl, if_pos (by omega), Nat.sub_self]
      rfl
    · obtain ⟨d, rfl⟩ : ∃ d, k = n + 1 + d := ⟨k - (n + 1), by omega⟩
      rw [if_neg (by omega : n + 1 + d ≠ n), Nat.add_sub_cancel_left, show n + 1 + d - n = d + 1 by omega]
      refine if_congr (by omega) ?_ rfl
      simp [nth]

theorem present_fillFrom {n : Nat} {ws : List Word} (room : n + ws.length ≤ 8) {h : Hart} (low : h.present = BitVec.ofNat 8 (2 ^ n - 1)) :
    (fillFrom n ws h).present = BitVec.ofNat 8 (2 ^ (n + ws.length) - 1) := by
  have next : ∀ n < 8, BitVec.ofNat 8 (2 ^ n - 1) ||| BitVec.ofNat 8 (2 ^ n) = BitVec.ofNat 8 (2 ^ (n + 1) - 1) := by decide
  induction ws generalizing n h with
  | nil => exact low
  | cons w ws ih =>
    rw [List.length_cons] at room ⊢
    rw [fillFrom_cons, ih (by omega), Nat.add_right_comm, Nat.add_assoc]
    exact (congrArg (· ||| BitVec.ofNat 8 (2 ^ n)) low).trans (next n (by omega))

/-- Filling changes the inbox, the presence bits, the sources and XS alone. -/
theorem fillFrom_frame (n : Nat) (ws : List Word) (h : Hart) :
    ∃ i p f c, fillFrom n ws h = { h with inbox := i, present := p, inFrom := f, csr := c } := by
  induction ws generalizing n h with
  | nil => exact ⟨h.inbox, h.present, h.inFrom, h.csr, rfl⟩
  | cons w ws ih =>
    obtain ⟨i, p, f, c, e⟩ := ih (n + 1) (h.fillInbox n w {})
    exact ⟨i, p, f, c, e⟩

theorem loadMsg_eq (h : Hart) (m : Message) :
    h.loadMsg m = (fillFrom 0 m.words { h with inbox := [], present := 0, inFrom := [], k := { h.k with kmhdr := m.hdr } }).dirtyXs := rfl

theorem loadMsg_frame (h : Hart) (m : Message) :
    ∃ i p f c, h.loadMsg m = { h with inbox := i, present := p, inFrom := f, csr := c, k := { h.k with kmhdr := m.hdr } } := by
  obtain ⟨i, p, f, c, e⟩ := fillFrom_frame 0 m.words { h with inbox := [], present := 0, inFrom := [], k := { h.k with kmhdr := m.hdr } }
  rw [loadMsg_eq, e]
  exact ⟨i, p, f, _, rfl⟩

theorem inboxOf_loadMsg {m : Message} (words : m.words.length ≤ 8) (h : Hart) : InboxOf (h.loadMsg m) m := by
  refine ⟨?_, ?_, fun k => ?_⟩
  · obtain ⟨i, p, f, c, e⟩ := loadMsg_frame h m
    rw [e]
  · have low : 2 ^ m.words.length ≤ 2 ^ 8 := Nat.pow_le_pow_right (by decide) words
    rw [loadMsg_eq, Hart.dirtyXs_present, present_fillFrom (by simpa using words) rfl, Nat.zero_add, BitVec.toNat_ofNat]
    exact Nat.mod_eq_of_lt (by omega)
  · rw [loadMsg_eq, Hart.dirtyXs_inbox, inbox_fillFrom]
    simp [SMap.get]

/-! ### An acquire -/

theorem jointScope_le (a b : Nat) : jointScope a b ≤ 4 := by
  unfold jointScope
  dsimp only
  split <;> [omega; split <;> [omega; split <;> omega]]

/-- An acquire changes nothing of its core but the L1. -/
theorem coreAcquire_core (s : State) (c scope : Nat) : { (coreAcquire s c scope).core c with l1 := (s.core c).l1 } = s.core c := by
  have cleared : { (if scope ≥ 2 then l1Clear s c else s).core c with l1 := (s.core c).l1 } = s.core c := by
    split
    · rw [l1Clear_core]
    · rfl
  unfold coreAcquire
  dsimp only
  split
  · rw [peerAcquire, State.core_of_cores (kFlush_moves ..).harts.2.1, State.core_modCore_self]
    exact cleared
  · exact cleared

end Sys2Proof
end

section
/-!
SUPPORT. The messages that a firing reserves in its channel (R170).
-/
namespace Sys2Proof
open Machine

variable {h n : Nat} {l : List QMsg}

/-- The messages of a queue that nobody has reserved, and those that hart h has. -/
abbrev Machine.QMsg.isFree (m : QMsg) : Bool := m.resv == 0
abbrev Machine.QMsg.isOf (h : Nat) (m : QMsg) : Bool := m.resv == h + 1

theorem reserveMsgs_cons (h n : Nat) (q : QMsg) (l : List QMsg) :
    reserveMsgs h (n + 1) (q :: l) = if q.resv = 0 then { q with resv := h + 1 } :: reserveMsgs h n l else q :: reserveMsgs h (n + 1) l := rfl

theorem reserveMsgs_zero (h : Nat) (l : List QMsg) : reserveMsgs h 0 l = l := by cases l <;> rfl

theorem length_reserveMsgs (h n : Nat) (l : List QMsg) : (reserveMsgs h n l).length = l.length := by
  induction l generalizing n with
  | nil => rfl
  | cons q l ih =>
    cases n with
    | zero => rfl
    | succ n =>
      rw [reserveMsgs_cons]
      split <;> simp [ih]

/-- Of the free messages as many are reserved as are asked for, where there are so many. -/
theorem countP_reserveMsgs (fresh : ∀ m ∈ l, m.resv ≠ h + 1) (room : n ≤ l.countP (·.isFree)) : (reserveMsgs h n l).countP (·.isOf h) = n := by
  induction l generalizing n with
  | nil =>
    obtain rfl : n = 0 := by simpa using room
    rfl
  | cons q l ih =>
    obtain ⟨first, fresh⟩ := List.forall_mem_cons.1 fresh
    cases n with
    | zero =>
      rw [reserveMsgs_zero, List.countP_eq_zero]
      simpa [QMsg.isOf] using ⟨first, fresh⟩
    | succ n =>
      rw [reserveMsgs_cons]
      rw [List.countP_cons] at room
      by_cases free : q.resv = 0
      · rw [if_pos free, List.countP_cons, ih fresh (by simpa [free] using room)]
        simp
      · rw [if_neg free, List.countP_cons, ih fresh (by simpa [free] using room)]
        simp [first]

/-- The first message that is then the hart's is the one that was the first free one. -/
theorem find?_reserveMsgs {q : QMsg} (fresh : ∀ m ∈ l, m.resv ≠ h + 1) (first : l.find? (·.isFree) = some q) :
    (reserveMsgs h (n + 1) l).find? (·.isOf h) = some { q with resv := h + 1 } := by
  induction l with
  | nil => cases first
  | cons m l ih =>
    obtain ⟨other, fresh⟩ := List.forall_mem_cons.1 fresh
    rw [reserveMsgs_cons]
    by_cases free : m.resv = 0
    · obtain rfl : m = q := by simpa [List.find?_cons, free] using first
      simp [free]
    · rw [if_neg free, List.find?_cons_of_neg (by simpa using other)]
      exact ih fresh (by rwa [List.find?_cons_of_neg (by simpa using free)] at first)

end Sys2Proof
end

section
/-!
PROOF. O38: firings (R169 to R171, R176).
-/
namespace Sys2Proof
open Machine

variable {s : State} {c p ch h : Nat}

/-! ### Which channel fires (R169) -/

theorem searchUp_spec {n start i : Nat} {f : Nat → Bool} (found : searchUp n start f = some i) :
    ∃ d < n, i = (start + 1 + d) % n ∧ f i = true ∧ ∀ e < d, f ((start + 1 + e) % n) = false := by
  unfold searchUp at found
  rw [List.find?_map] at found
  obtain ⟨d, nearest, rfl⟩ := Option.map_eq_some_iff.1 found
  obtain ⟨hd, below, before⟩ := List.find?_range_eq_some.1 nearest
  exact ⟨d, List.mem_range.1 below, rfl, hd, fun e he => by simpa using before e he⟩

/-- The runnable channels of a core. -/
def runnables (s : State) (c : Nat) : List Nat := (List.range 64).filter (runnable s c)

theorem mem_runnables {i : Nat} : i ∈ runnables s c ↔ i < 64 ∧ runnable s c i = true := by simp [runnables]

theorem selectChannel_some (sel : selectChannel s c = some (p, ch)) :
    ((runnables s c).map fun i => ((s.core c).chan i).eprio).max? = some p ∧
      searchUp 64 ((s.core c).lastPrio.get 63 p) (fun i => (runnables s c).contains i && ((s.core c).chan i).eprio == p) = some ch := by
  unfold selectChannel at sel
  dsimp only at sel
  split at sel
  · cases sel
  · next q top =>
    obtain ⟨i, found, e⟩ := Option.map_eq_some_iff.1 sel
    cases e
    exact ⟨top, found⟩

theorem selectChannel_spec (sel : selectChannel s c = some (p, ch)) :
    runnable s c ch = true ∧ ((s.core c).chan ch).eprio = p ∧ (∀ j < 64, runnable s c j = true → ((s.core c).chan j).eprio ≤ p) ∧
      ∀ j < 64, runnable s c j = true → ((s.core c).chan j).eprio = p → (s.core c).lastPrio.get 63 p < 64 →
        (ch + 63 - (s.core c).lastPrio.get 63 p) % 64 ≤ (j + 63 - (s.core c).lastPrio.get 63 p) % 64 := by
  obtain ⟨top, found⟩ := selectChannel_some sel
  obtain ⟨d, hd, at_, hit, before⟩ := searchUp_spec found
  generalize (s.core c).lastPrio.get 63 p = start at *
  simp only [Bool.and_eq_true, List.contains_iff_mem, mem_runnables, beq_iff_eq] at hit
  obtain ⟨⟨_, run⟩, prio⟩ := hit
  refine ⟨run, prio, fun j hj runj => ?_, fun j hj runj prioj low => ?_⟩
  · exact (List.max?_eq_some_iff.1 top).2 _ (List.mem_map_of_mem (mem_runnables.2 ⟨hj, runj⟩))
  · by_contra nearer
    have miss := before ((j + 63 - start) % 64) (by omega)
    rw [show (start + 1 + (j + 63 - start) % 64) % 64 = j by omega] at miss
    simp [mem_runnables, hj, runj, prioj] at miss

theorem runnable_room (run : runnable s c ch = true) : ((s.core c).chan ch).k + 1 ≤ ((s.core c).chan ch).hw.countP (·.isFree) := by
  simp only [runnable, Bool.and_eq_true, decide_eq_true_eq, ← List.countP_eq_length_filter] at run
  tauto

/-! ### The channels that are passed over (R171) -/

/-- A channel that is passed over once more. -/
def Machine.Channel.passOver (x : Channel) : Channel := ({ x with passes := x.passes + 1 } : Channel).age

theorem passOver_eq (x : Channel) : x.passOver =
    if 4096 ≤ x.passes + 1 then { x with passes := x.passes + 1 - 4096, eprio := min 7 (x.eprio + 1) } else { x with passes := x.passes + 1 } := rfl

/-- The runnable channels of a core but the one that fires. -/
def passedOver (s : State) (c ch : Nat) : List Nat := (List.range 64).filter fun i => i != ch && runnable s c i

theorem mem_passedOver {j : Nat} : j ∈ passedOver s c ch ↔ j < 64 ∧ j ≠ ch ∧ runnable s c j = true := by simp [passedOver]

theorem passedOver_nodup (s : State) (c ch : Nat) : (passedOver s c ch).Nodup := List.nodup_range.filter _

theorem chan_foldl_modChan (f : Channel → Channel) {l : List Nat} (nodup : l.Nodup) (x : Core) (j : Nat) :
    (l.foldl (fun k i => k.modChan i f) x).chan j = if j ∈ l then f (x.chan j) else x.chan j := by
  induction l generalizing x with
  | nil => rfl
  | cons i l ih =>
    obtain ⟨fresh, nodup⟩ := List.nodup_cons.1 nodup
    rw [List.foldl_cons, ih nodup, Core.chan_modChan]
    by_cases e : j = i
    · rw [if_pos e, e, if_neg fresh, if_pos List.mem_cons_self]
    · rw [if_neg e]
      exact if_congr (by simp [e]) rfl rfl

/-! ### A firing starts (R170, R176) -/

/-- The channel once it fires on hart h: k + 1 of its messages are reserved, and its aging begins anew. -/
def Machine.Channel.fire (x : Channel) (h : Nat) : Channel := { x with hw := reserveMsgs h (x.k + 1) x.hw, eprio := x.prio, passes := 0 }

/-- The core once channel ch of it fires on hart h. -/
def firedCore (s : State) (c p ch h : Nat) : Core :=
  let k := (passedOver s c ch).foldl (fun k i => k.modChan i (·.passOver)) ((s.core c).modChan ch (·.fire h))
  { k with lastPrio := k.lastPrio.set 63 p ch }

theorem firedCore_chan (s : State) (c p ch h j : Nat) : (firedCore s c p ch h).chan j =
    if j = ch then ((s.core c).chan ch).fire h else if j ∈ passedOver s c ch then ((s.core c).chan j).passOver else (s.core c).chan j := by
  have fold := chan_foldl_modChan (·.passOver) (passedOver_nodup s c ch) ((s.core c).modChan ch (·.fire h)) j
  refine fold.trans ?_
  rw [Core.chan_modChan]
  by_cases e : j = ch
  · rw [if_pos e, if_pos e, if_neg fun mem => (mem_passedOver.1 mem).2.1 e]
  · rw [if_neg e, if_neg e]

/-- What a firing of a channel begins with, before its first message. -/
def firingOf (s : State) (c ch : Nat) : Firing :=
  let x := (s.core c).chan ch
  { ch := ch, launch := x.launch, sendLeft := x.maxp, taint := regionMask s (s.launchFn x.launch) x.kdom .u, eid := (s.core c).kencl.toNat }

/-- The hart that a firing takes, before its first message. -/
def firedHart (s : State) (c ch : Nat) (y : Hart) : Hart :=
  let x := (s.core c).chan ch
  let z := y.start x.pc (s.launchFn x.launch) (.firing (firingOf s c ch)) 0xFFFFFFFF x.kdom x.kxtab
  { z with k := { z.k with kclass := word (x.launch * 2 ^ 32 + 2 ^ 20 + ch * 2 ^ 8) } }

/-- The state in which a firing takes its first message. -/
def fired (s : State) (c p ch h : Nat) : State := (s.setCore c (firedCore s c p ch h)).modHart h (firedHart s c ch)

theorem fired_core (s : State) (c p ch h : Nat) : (fired s c p ch h).core c = firedCore s c p ch h := State.core_setCore_self ..

theorem fired_hart (s : State) (c p ch h : Nat) : (fired s c p ch h).hart h = firedHart s c ch (s.hart h) := State.hart_setHart_self ..

/-- A core without one message of a channel. -/
def Machine.Core.dropMsg (k : Core) (ch : Nat) (q : QMsg) : Core := k.modChan ch fun x => { x with hw := x.hw.erase q }

theorem takeReserved_some {q : QMsg} (first : ((s.core c).chan ch).hw.find? (·.isOf h) = some q) :
    takeReserved s h c ch = (s.modCore c (·.dropMsg ch q), some q.msg) := by
  unfold takeReserved
  rw [first]
  rfl

theorem startFiring_eq {t : State} {m : Message} (taken : takeReserved (fired s c p ch h) h c ch = (t, some m)) :
    startFiring s c p ch h = (firingTake t h m).modHart h fun y => y.setXs 1 := by
  unfold startFiring
  dsimp only
  generalize again : takeReserved _ h c ch = r
  obtain rfl : (t, some m) = r := taken.symm.trans again
  rfl

/-- A hart of a firing with its next message. -/
def Machine.Hart.nextMsg (x : Hart) (f : Firing) (m : Message) : Hart :=
  { x.loadMsg m with bind := .firing { f with taken := f.taken ++ [m], taint := f.taint ||| m.taint } }

theorem firingTake_eq {f : Firing} (bind : (s.hart h).bind = .firing f) (m : Message) :
    firingTake s h m = coreAcquire (s.modHart h fun x => x.nextMsg f m) (coreOf h) (m.edge.getD (jointScope h m.sender)) := by
  unfold firingTake State.modHart
  dsimp only
  rw [bind]
  rfl

/-- The state in which a firing has its first message, before the acquire that the message brings. -/
def firedWith (s : State) (c p ch h : Nat) (q : QMsg) : State :=
  ((fired s c p ch h).modCore c (·.dropMsg ch q)).modHart h (·.nextMsg (firingOf s c ch) q.msg)

theorem firedWith_hart (s : State) (c p ch h : Nat) (q : QMsg) :
    (firedWith s c p ch h q).hart h = (firedHart s c ch (s.hart h)).nextMsg (firingOf s c ch) q.msg :=
  (State.hart_setHart_self ..).trans (congrArg (fun y : Hart => y.nextMsg (firingOf s c ch) q.msg) (fired_hart s c p ch h))

theorem firedWith_core (s : State) (c p ch h : Nat) (q : QMsg) : (firedWith s c p ch h q).core c = (firedCore s c p ch h).dropMsg ch q := by
  have dropped : (firedWith s c p ch h q).core c = ((fired s c p ch h).core c).dropMsg ch q := State.core_modCore_self _ _ (·.dropMsg ch q)
  rw [dropped, fired_core]

theorem firedWith_reaches (s : State) (c p ch h : Nat) (q : QMsg) (wide : Prop) : Reaches wide s (firedWith s c p ch h q) [h] [c] := by
  have first : Reaches wide s (fired s c p ch h) [h] [c] :=
    ((Reaches.refl s).modCore (f := fun _ => firedCore s c p ch h) (List.mem_singleton_self c)).modHart (List.mem_singleton_self h)
  exact (first.modCore (List.mem_singleton_self c)).modHart (List.mem_singleton_self h)

/-- The scope of the acquire that a message brings its firing (R125, R128). -/
def Machine.Message.takeScope (m : Message) (h : Nat) : Nat := m.edge.getD (jointScope h m.sender)

theorem edge_of_takeScope {m : Message} (five : m.takeScope h = 5) : m.edge = some 5 := by
  unfold Message.takeScope at five
  cases e : m.edge with
  | none =>
    have low := jointScope_le h m.sender
    rw [e, Option.getD_none] at five
    omega
  | some n =>
    rw [e, Option.getD_some] at five
    rw [five]

section
variable {x y : Core} {l : List CLine} (same : { x with l1 := l } = y)
include same

theorem chan_of_l1 (j : Nat) : x.chan j = y.chan j := by
  rw [← same]
  rfl

theorem lastPrio_of_l1 : x.lastPrio = y.lastPrio := by rw [← same]

end

section
variable {q : QMsg} (fresh : ∀ m ∈ ((s.core c).chan ch).hw, m.resv ≠ h + 1) (first : ((s.core c).chan ch).hw.find? (·.isFree) = some q)
include fresh first

/-- The first message that the firing has reserved, as it stands in the channel. -/
theorem fired_first : (((fired s c p ch h).core c).chan ch).hw.find? (·.isOf h) = some { q with resv := h + 1 } := by
  rw [fired_core, firedCore_chan, if_pos rfl]
  exact find?_reserveMsgs fresh first

theorem startFiring_firedWith : startFiring s c p ch h =
    (coreAcquire (firedWith s c p ch h { q with resv := h + 1 }) (coreOf h) (q.msg.takeScope h)).modHart h (·.setXs 1) := by
  have bind : (((fired s c p ch h).modCore c (·.dropMsg ch { q with resv := h + 1 })).hart h).bind = .firing (firingOf s c ch) :=
    (congrArg Hart.bind (fired_hart s c p ch h) :)
  rw [startFiring_eq (takeReserved_some (fired_first fresh first)), firingTake_eq bind]
  rfl

theorem startFiring_hart : (startFiring s c p ch h).hart h = ((firedHart s c ch (s.hart h)).nextMsg (firingOf s c ch) q.msg).setXs 1 := by
  rw [startFiring_firedWith fresh first, State.hart_modHart, if_pos rfl, State.hart_of_harts (coreAcquire_keeps ..).2.2.1, firedWith_hart]

theorem startFiring_core (place : coreOf h = c) :
    let k := (firedCore s c p ch h).dropMsg ch { q with resv := h + 1 }
    { (startFiring s c p ch h).core c with l1 := k.l1 } = k := by
  have acquired := coreAcquire_core (firedWith s c p ch h { q with resv := h + 1 }) c (q.msg.takeScope h)
  rw [firedWith_core] at acquired
  rw [startFiring_firedWith fresh first, place]
  exact acquired

theorem startFiring_chan (place : coreOf h = c) (j : Nat) : ((startFiring s c p ch h).core c).chan j =
    if j = ch then { ((s.core c).chan ch).fire h with hw := (((s.core c).chan ch).fire h).hw.erase { q with resv := h + 1 } }
    else if j ∈ passedOver s c ch then ((s.core c).chan j).passOver else (s.core c).chan j := by
  rw [chan_of_l1 (startFiring_core fresh first place), Core.dropMsg, Core.chan_modChan, firedCore_chan, firedCore_chan, if_pos rfl]
  split
  · rfl
  · rfl

theorem startFiring_lastPrio (place : coreOf h = c) : ((startFiring s c p ch h).core c).lastPrio.get 63 p = ch := by
  rw [lastPrio_of_l1 (startFiring_core fresh first place)]
  exact SMap.get_set_self ..

theorem startFiring_reaches (place : coreOf h = c) : Reaches (q.msg.edge = some 5) s (startFiring s c p ch h) [h] [c] := by
  rw [startFiring_firedWith fresh first, place]
  exact ((firedWith_reaches ..).coreAcquire (List.mem_singleton_self c) edge_of_takeScope).modHart (List.mem_singleton_self h)

end

/-- The channel that fires keeps k messages reserved for its hart: one of k + 1 has been taken (R170). -/
theorem reserved_after {x : Channel} {q : QMsg} (room : x.k + 1 ≤ x.hw.countP (·.isFree)) (fresh : ∀ m ∈ x.hw, m.resv ≠ h + 1)
    (first : x.hw.find? (·.isFree) = some q) :
    let hw := (x.fire h).hw.erase { q with resv := h + 1 }
    (hw.filter (·.isOf h)).length = x.k ∧ hw.length + 1 = x.hw.length := by
  have listed := List.mem_of_find?_eq_some (find?_reserveMsgs (n := x.k) fresh first)
  have some' := List.length_pos_of_mem listed
  dsimp only [Channel.fire]
  rw [← List.countP_eq_length_filter, List.countP_erase, if_pos ⟨listed, beq_self_eq_true (h + 1)⟩, countP_reserveMsgs fresh room,
    List.length_erase_of_mem listed, Nat.sub_add_cancel some', length_reserveMsgs]
  exact ⟨rfl, rfl⟩

theorem exec_firingStart_of (sel : selectChannel s s.ev.a = some (p, ch)) (hart : firingHart s s.ev.a ((s.core s.ev.a).chan ch) = some h) :
    exec .firingStart s = .next (startFiring s s.ev.a p ch h) := by
  rw [exec_firingStart, execFiringStart]
  simp only [sel, hart]

theorem inboxOf_setXs {m : Message} {x : Hart} (inbox : InboxOf x m) (n : Nat) : InboxOf (x.setXs n) m := by
  unfold InboxOf at *
  rwa [Hart.setXs_k, Hart.setXs_present, Hart.setXs_inbox]

theorem inboxOf_bind {m : Message} {x : Hart} (inbox : InboxOf x m) (b : Binding) : InboxOf { x with bind := b } m := inbox

theorem inboxOf_nextMsg {m : Message} (words : m.words.length ≤ 8) (x : Hart) (f : Firing) : InboxOf (x.nextMsg f m) m :=
  inboxOf_bind (inboxOf_loadMsg words x) _

/-- A hart with its next message: everything but its inbox, XS and the record of the firing stands. -/
theorem nextMsg_frame (x : Hart) (f : Firing) (m : Message) :
    ∃ i p n c, x.nextMsg f m = { x with inbox := i, present := p, inFrom := n, csr := c, k := { x.k with kmhdr := m.hdr },
                                        bind := .firing { f with taken := f.taken ++ [m], taint := f.taint ||| m.taint } } := by
  obtain ⟨i, p, n, c, e⟩ := loadMsg_frame x m
  rw [Hart.nextMsg, e]
  exact ⟨i, p, n, c, rfl⟩

/-! ### Aging (R171) -/

theorem eprioAging_spec (s : State) :
    let x := (s.core s.ev.a).chan s.ev.b
    ∃ t, Runs .eprioAging s t ∧ OnlyUnits s t [] [s.ev.a] ∧ (∀ j, j ≠ s.ev.b → (t.core s.ev.a).chan j = (s.core s.ev.a).chan j) ∧
      (t.core s.ev.a).chan s.ev.b = if 4096 ≤ x.passes then { x with passes := x.passes - 4096, eprio := min 7 (x.eprio + 1) } else x := by
  obtain ⟨_, _, _, aged, others, _⟩ := chanBecomes_modChan s s.ev.a s.ev.b Channel.age
  exact ⟨_, exec_eprioAging s, (OnlyUnits.refl ..).modCore (List.mem_singleton_self _), others, aged⟩

/-- Settles O38: the channel by the search, the start by the states it goes through, and aging. -/
theorem firingStart : Obligations.FiringStart := by
  unfold Obligations.FiringStart
  refine fun s => ⟨fun c p ch => selectChannel_spec, fun p ch h q sel hart place fresh first words => ?_, eprioAging_spec s⟩
  have room := runnable_room (selectChannel_spec sel).1
  have reach := startFiring_reaches (p := p) fresh first place
  refine ⟨_, exec_firingStart_of sel hart, reach.home, fun g hg => reach.harts g (by simpa using hg), fun d hd => reach.cores d (by simpa using hd),
    reach.narrow, ?_, ?_, fun j hj other => ?_, startFiring_lastPrio fresh first place⟩
  · have inbox := inboxOf_setXs (inboxOf_nextMsg words (firedHart s s.ev.a ch (s.hart h)) (firingOf s s.ev.a ch)) 1
    obtain ⟨i, p, n, k, e⟩ := nextMsg_frame (firedHart s s.ev.a ch (s.hart h)) (firingOf s s.ev.a ch) q.msg
    rw [e] at inbox
    rw [startFiring_hart fresh first, e]
    exact ⟨rfl, rfl, rfl, rfl, rfl, rfl, rfl, rfl, rfl, fun n => SMap.get_set (0 : BitVec 32) [] 0 n 0xFFFFFFFF, rfl, rfl, rfl, rfl, rfl, rfl, rfl, inbox, rfl⟩
  · rw [startFiring_chan fresh first place, if_pos rfl]
    exact ⟨rfl, rfl, reserved_after room fresh first⟩
  · rw [startFiring_chan fresh first place, if_neg other]
    refine if_congr ?_ (passOver_eq _) rfl
    rw [mem_passedOver]
    tauto

end Sys2Proof
end

section
/-!
SUPPORT. The taint that a hart's context gains (R351), and acquires within the device (R58, R125).
-/
namespace Sys2Proof
open Machine

variable {s t : State} {h : Nat}

/-! ### Taint -/

/-- What a hart's taint is read from. -/
def SameContext (x y : Hart) : Prop :=
  y.priv = x.priv ∧ y.mtaint = x.mtaint ∧ y.taint = x.taint ∧ y.bind = x.bind ∧ y.fn = x.fn ∧ y.k.kdom = x.k.kdom

theorem taintOf_congr (regions : t.regions = s.regions) (classes : t.classes = s.classes) (same : SameContext (s.hart h) (t.hart h)) :
    taintOf t h = taintOf s h := by
  obtain ⟨priv, mtaint, taint, bind, fn, kdom⟩ := same
  unfold taintOf regionMask State.region State.cls
  dsimp only
  rw [priv, mtaint, taint, bind, fn, kdom, regions, classes]

/-- A context's taint goes to its hart or its class. -/
theorem addTaint_frame (s : State) (h : Nat) (x : BitVec 16) :
    { addTaint s h x with harts := s.harts, classes := s.classes } = s ∧ (∀ g, g ≠ h → (addTaint s h x).hart g = s.hart g) ∧
      ∃ a m b, (addTaint s h x).hart h = { s.hart h with taint := a, mtaint := m, bind := b } := by
  have hart : ∀ y : Hart, (∀ g, g ≠ h → (s.setHart h y).hart g = s.hart g) ∧ (s.setHart h y).hart h = y := fun y =>
    ⟨fun g hg => State.hart_setHart_ne s y hg, State.hart_setHart_self ..⟩
  unfold addTaint bindTaint
  split
  · exact ⟨rfl, (hart _).1, _, _, _, (hart _).2⟩
  · split
    · exact ⟨rfl, (hart _).1, _, _, _, (hart _).2⟩
    · exact ⟨rfl, fun _ _ => rfl, _, _, _, rfl⟩
    · exact ⟨rfl, (hart _).1, _, _, _, (hart _).2⟩

theorem taintOf_addTaint (s : State) (h : Nat) (x : BitVec 16) : taintOf (addTaint s h x) h = taintOf s h ||| x := by
  by_cases m : (s.hart h).priv = .m
  · have added : addTaint s h x = s.setHart h { s.hart h with mtaint := (s.hart h).mtaint ||| x } := if_pos m
    rw [added]
    simp only [taintOf, State.hart_setHart_self, if_pos m]
    rw [BitVec.or_assoc, BitVec.or_comm x, ← BitVec.or_assoc]
    rfl
  · have added : addTaint s h x = bindTaint s h x := if_neg m
    rw [added]
    unfold bindTaint
    cases b : (s.hart h).bind with
    | none => simp only [taintOf, State.modHart, State.hart_setHart_self, if_neg m, b]
    | cls k =>
      have hart : (s.modCls k fun c => { c with taint := c.taint ||| x }).hart h = s.hart h := rfl
      have cls : (s.modCls k fun c => { c with taint := c.taint ||| x }).cls k = { s.cls k with taint := (s.cls k).taint ||| x } := SMap.get_set_self ..
      simp only [taintOf, hart, if_neg m, b, cls]
    | firing f => simp only [taintOf, State.modHart, State.hart_setHart_self, if_neg m, b]

/-! ### Acquires -/

theorem coreAcquire_narrow (s : State) (c : Nat) {scope : Nat} (narrow : scope ≤ 4) :
    coreAcquire s c scope = if 2 ≤ scope then l1Clear s c else s := by
  unfold coreAcquire
  exact if_neg (by omega)

end Sys2Proof
end

section
/-!
SUPPORT. The blackboard and inbox forms and the held inbox write (R165 to R167, R280, R306).
-/
namespace Sys2Proof
open Machine

variable {s : State} {d a b : BitVec 5}

/-! ### `bbwr` -/

/-- The hart owns blackboard register r of its class (R165). -/
def OwnsBb (s : State) (r : Nat) : Prop := classOf s s.cur ≠ 0 ∧ fld (s.cls (classOf s s.cur)).bbown (4 * r) 4 = fld s.me.k.kclass 0 4

theorem bbwr_owner (own : OwnsBb s d.toNat) : exec (.bbwr d a) s =
    .next (retire (s.modCls (classOf s s.cur) fun c => { c with bb := c.bb.set 0 d.toNat (s.me.getX a.toNat) })) := by
  rw [exec_bbwr, execBbwr]
  exact if_neg (by rintro (h | h) <;> [exact own.1 h; exact h own.2])

theorem bbwr_other (other : classOf s s.cur = 0 ∨ fld (s.cls (classOf s s.cur)).bbown (4 * d.toNat) 4 ≠ fld s.me.k.kclass 0 4) :
    Traps (.bbwr d a) s 29 (word d.toNat) :=
  (exec_bbwr d a s).trans (if_pos other)

theorem bbwr_spec (own : OwnsBb s d.toNat) : ∃ t, Runs (.bbwr d a) s t ∧ SameMemory s t ∧ { t with harts := s.harts, classes := s.classes } = s ∧
    t.me = s.me.done ∧ (∀ h, h ≠ s.cur → t.hart h = s.hart h) ∧
    t.cls (classOf s s.cur) = { s.cls (classOf s s.cur) with bb := (s.cls (classOf s s.cur)).bb.set 0 d.toNat (s.me.getX a.toNat) } ∧
    ∀ j, j ≠ classOf s s.cur → t.cls j = s.cls j :=
  ⟨_, bbwr_owner own, fun _ => rfl, rfl, State.me_setHart_cur .., fun _ hg => State.hart_setHart_ne _ _ hg, SMap.get_set_self ..,
    fun _ hj => SMap.get_set_ne _ _ _ hj⟩

/-! ### `imv` -/

/-- Whether hart h's take of a value from a source brings an acquire that empties the L1 (R125). -/
def ImvClears (h : Nat) (src : InFrom) : Prop :=
  (∃ w, src.writer = some w ∧ 2 ≤ jointScope h w) ∨ src.writer = none ∧ src.notice = true

/-- The acquire of `imv`: of the writer, or of a notice's sender. -/
def imvAcquire (src : InFrom) (s : State) : State :=
  match src.writer with
  | some w => acquireFrom s w
  | none => if src.notice then acquire s 4 else s

theorem imvAcquire_eq (s : State) (src : InFrom) [Decidable (ImvClears s.cur src)] :
    imvAcquire src s = if ImvClears s.cur src then l1Clear s (coreOf s.cur) else s := by
  unfold imvAcquire
  cases w : src.writer with
  | some w =>
    refine (coreAcquire_narrow s _ (jointScope_le ..)).trans (if_congr ?_ rfl rfl)
    simp [ImvClears, *]
  | none =>
    refine if_congr ?_ (coreAcquire_four ..) rfl
    simp [ImvClears, *]

/-- The hart once `imv` has moved an inbox register. -/
def Machine.Hart.moveIn (h : Hart) (d r : Nat) : Hart := (h.setX d (h.inbox.get 0 r)).clearInbox r

/-- The state in which `imv` acquires: the value is moved and its taint taken. -/
def movedIn (s : State) (d r : Nat) : State := addTaint (s.modMe (·.moveIn d r)) s.cur (s.me.inFrom.get {} r).taint

theorem imv_present (present : s.me.present.getLsbD a.toNat = true) : exec (.imv d a) s =
    .next (retire (imvAcquire (s.me.inFrom.get {} a.toNat) (movedIn s d.toNat a.toNat))) := by
  rw [exec_imv, execImv]
  refine finish_ok ((bind_ok (a := s.me) rfl).trans ?_)
  dsimp only
  rw [if_neg (by simpa [Hart.isPresent] using present)]
  rfl

theorem imv_absent (absent : s.me.present.getLsbD a.toNat = false) : exec (.imv d a) s = .next (s.setHart s.cur { s.me with wait := .stall }) := by
  rw [exec_imv, execImv]
  refine finish_error ((bind_ok (a := s.me) rfl).trans ?_)
  dsimp only
  rw [if_pos (by simpa [Hart.isPresent] using absent)]
  rfl

theorem movedIn_frame (s : State) (d r : Nat) : { movedIn s d r with harts := s.harts, classes := s.classes } = s ∧ (∀ g, g ≠ s.cur → (movedIn s d r).hart g = s.hart g) ∧
    (∃ a m b, (movedIn s d r).hart s.cur = { s.me.moveIn d r with taint := a, mtaint := m, bind := b }) ∧
    taintOf (movedIn s d r) s.cur = taintOf s s.cur ||| (s.me.inFrom.get {} r).taint := by
  have hart : (s.modMe (·.moveIn d r)).hart s.cur = s.me.moveIn d r := State.hart_setHart_self ..
  obtain ⟨rest, others, t, m, b, mine⟩ := addTaint_frame (s.modMe (·.moveIn d r)) s.cur (s.me.inFrom.get {} r).taint
  refine ⟨(congrArg (fun t : State => { t with harts := s.harts }) rest :), fun g hg => (others g hg).trans (State.hart_setHart_ne _ _ hg), ⟨t, m, b, ?_⟩, ?_⟩
  · rw [← hart]
    exact mine
  · refine (taintOf_addTaint ..).trans (congrArg (· ||| _) (taintOf_congr rfl rfl ?_))
    rw [hart]
    unfold Hart.moveIn Hart.clearInbox Hart.setX
    split <;> exact ⟨rfl, rfl, rfl, rfl, rfl, rfl⟩

theorem imvAcquire_rest (s : State) (src : InFrom) : { imvAcquire src s with cores := s.cores } = s := by
  classical
  rw [imvAcquire_eq]
  split <;> rfl

theorem imvAcquire_core {h : Nat} (cur : s.cur = h) (src : InFrom) [Decidable (ImvClears h src)] :
    (imvAcquire src s).core (coreOf h) = { s.core (coreOf h) with l1 := if ImvClears h src then [] else (s.core (coreOf h)).l1 } := by
  subst cur
  rw [imvAcquire_eq]
  split
  · exact l1Clear_core ..
  · rfl

theorem Machine.Hart.getX_congr {h k : Hart} (x : k.x = h.x) (n : Nat) : k.getX n = h.getX n := by
  unfold Hart.getX
  rw [x]

theorem Machine.Hart.moveIn_x (h : Hart) (d r : Nat) : (h.moveIn d r).x = (h.setX d (h.inbox.get 0 r)).x := Hart.dirtyXs_x _

/-- What a moved register leaves of its hart: x[d] takes the value, the presence bit clears, XS is dirty. -/
theorem moveIn_spec (h : Hart) (d : Nat) {r : Nat} (present : h.present.getLsbD r = true) (t m : BitVec 16) (b : Binding) :
    let y := ({ h.moveIn d r with taint := t, mtaint := m, bind := b } : Hart).done
    XReg h y d (h.inbox.get 0 r) ∧ (∀ j, y.present.getLsbD j = (h.present.getLsbD j && decide (j ≠ r))) ∧
      { y with x := h.x, present := h.present, inFrom := h.inFrom, taint := h.taint, mtaint := h.mtaint, bind := h.bind } = h.dirtyXs.done := by
  refine ⟨fun n => ?_, fun j => ?_, ?_⟩
  · rw [← Hart.getX_setX]
    exact Hart.getX_congr ((Hart.done_x _).trans (h.moveIn_x d r)) n
  · rw [← h.setX_present d (h.inbox.get 0 r), ← Hart.present_clearInbox _ (BitVec.lt_of_getLsbD present), Hart.done_present]
    rfl
  · unfold Hart.moveIn Hart.clearInbox Hart.dirtyXs Hart.setXs Hart.done Hart.counted Hart.setX
    split <;> rfl

theorem imv_spec {clears : Decidable (ImvClears s.cur (s.me.inFrom.get {} a.toNat))} (present : s.me.present.getLsbD a.toNat = true) : ∃ t, Runs (.imv d a) s t ∧ SameMemory s t ∧
    { t with harts := s.harts, cores := s.cores, classes := s.classes } = s ∧ (∀ h, h ≠ s.cur → t.hart h = s.hart h) ∧
    XReg s.me t.me d.toNat (s.me.inbox.get 0 a.toNat) ∧ (∀ j, t.me.present.getLsbD j = (s.me.present.getLsbD j && decide (j ≠ a.toNat))) ∧
    { t.me with x := s.me.x, present := s.me.present, inFrom := s.me.inFrom, taint := s.me.taint, mtaint := s.me.mtaint, bind := s.me.bind } = s.me.dirtyXs.done ∧
    taintOf t s.cur = taintOf s s.cur ||| (s.me.inFrom.get {} a.toNat).taint ∧
    t.myCore = { s.myCore with l1 := if ImvClears s.cur (s.me.inFrom.get {} a.toNat) then [] else s.myCore.l1 } := by
  have runs := imv_present (d := d) present
  obtain ⟨moved, others, ⟨t, m, b, mine⟩, taint⟩ := movedIn_frame s d.toNat a.toNat
  generalize s.me.inFrom.get {} a.toNat = src at *
  generalize movedIn s d.toNat a.toNat = u at *
  have cur : u.cur = s.cur := (congrArg State.cur moved :)
  have cores : u.cores = s.cores := (congrArg State.cores moved :)
  have rest := imvAcquire_rest u src
  have aharts : (imvAcquire src u).harts = u.harts := (congrArg State.harts rest :)
  have acur : (imvAcquire src u).cur = s.cur := (congrArg State.cur rest :).trans cur
  have aclasses : (imvAcquire src u).classes = u.classes := (congrArg State.classes rest :)
  have aregions : (imvAcquire src u).regions = u.regions := (congrArg State.regions rest :)
  have acore := imvAcquire_core cur src
  generalize imvAcquire src u = v at *
  have all : { v with cores := s.cores, harts := s.harts, classes := s.classes } = s := by
    rw [cores] at rest
    exact (congrArg (fun t : State => { t with harts := s.harts, classes := s.classes }) rest).trans moved
  have me : v.me = { s.me.moveIn d.toNat a.toNat with taint := t, mtaint := m, bind := b } := by
    rw [← mine, State.me, acur, State.hart_of_harts aharts]
  have hart : (retire v).hart s.cur = (u.hart s.cur).done := by
    rw [← State.hart_of_harts aharts, ← acur]
    exact me_retire v
  obtain ⟨x, bits, frame⟩ := moveIn_spec s.me d.toNat present t m b
  rw [← me, ← me_retire] at x bits frame
  refine ⟨_, runs, fun c => (congrArg (fun t => rawByte t c) all :), all, fun h hh => ?_, x, bits, frame, ?_, ?_⟩
  · rw [← others h hh, ← State.hart_of_harts aharts]
    exact State.hart_setHart_ne v _ (acur ▸ hh)
  · rw [← taint]
    refine taintOf_congr aregions aclasses ?_
    rw [hart]
    exact ⟨rfl, rfl, rfl, rfl, rfl, rfl⟩
  · rw [myCore_retire, State.myCore, acur, acore, State.core_of_cores cores]
    rfl

/-! ### `iwr` -/

/-- The state in which a write of an inbox register has entered it. -/
def wroteInbox (s : State) (t r : Nat) (v : Word) : State :=
  s.modHart t fun y => y.fillInbox r v { writer := some s.cur, taint := taintOf s s.cur }

/-- The state in which a write of an inbox register is held. -/
def heldInbox (s : State) (t r : Nat) (v : Word) : State :=
  s.modHart t fun y => { y with held := y.held ++ [{ writer := s.cur, reg := r, val := v, taint := taintOf s s.cur }] }

theorem iwr_illegal (bad : fld (s.me.getX a.toNat) 13 51 ≠ 0) : Traps (.iwr d a b) s 2 s.me.ibits := by
  rw [Traps, Runs, exec_iwr, execIwr]
  refine finish_error ((bind_ok (a := s.me) rfl).trans (bind_error (need_false ?_ s)))
  simpa using bad

theorem iwr_eq (good : fld (s.me.getX a.toNat) 13 51 = 0) :
    let t := fld (s.me.getX a.toNat) 0 13
    exec (.iwr d a b) s = .next (
      if boundTo s t s.me.fn = false then retire s
      else if (s.hart t).present.getLsbD d.toNat = true ∨ ∃ w ∈ (s.hart t).held, w.reg = d.toNat then
        (heldInbox s t d.toNat (s.me.getX b.toNat)).modMe fun h => { h with wait := .iwr t d.toNat }
      else retire (wroteInbox s t d.toNat (s.me.getX b.toNat))) := by
  have going : need (fld (s.me.getX a.toNat) 13 51 == 0) s = .ok ((), s) := need_true (by simpa using good) s
  rw [exec_iwr, execIwr]
  unfold finish
  rw [bind_ok (a := s.me) rfl]
  dsimp only
  rw [bind_ok going]
  generalize fld (s.me.getX a.toNat) 0 13 = t
  by_cases bound : boundTo s t s.me.fn = false
  · simp [bound]
  · have taken : (s.hart t).isPresent d.toNat || (s.hart t).held.any (fun w => w.reg == d.toNat) ↔
        (s.hart t).present.getLsbD d.toNat = true ∨ ∃ w ∈ (s.hart t).held, w.reg = d.toNat := by simp [Hart.isPresent]
    by_cases full : (s.hart t).present.getLsbD d.toNat = true ∨ ∃ w ∈ (s.hart t).held, w.reg = d.toNat
    · rw [if_neg bound, if_pos full, if_neg (by simpa using bound), if_pos (taken.2 full)]
      rfl
    · rw [if_neg bound, if_neg full, if_neg (by simpa using bound), if_neg (mt taken.1 full)]
      rfl

theorem hart_retire (s : State) (g : Nat) : (retire s).hart g = if g = s.cur then s.me.done else s.hart g := State.hart_modHart ..

theorem inbox_retire (s : State) (g : Nat) : ((retire s).hart g).inbox = (s.hart g).inbox ∧ ((retire s).hart g).present = (s.hart g).present := by
  rw [hart_retire]
  split
  · next e =>
    rw [e]
    exact ⟨Hart.done_inbox _, Hart.done_present _⟩
  · exact ⟨rfl, rfl⟩

/-- A write that enters an absent register. -/
theorem wroteInbox_spec (s : State) (t : Nat) {r : Nat} (low : r < 8) (v : Word) :
    let u := retire (wroteInbox s t r v)
    OnlyUnits s u [s.cur, t] [] ∧ (u.hart t).inbox.get 0 r = v ∧ (u.hart t).present.getLsbD r = true ∧
      (∀ j, j ≠ r → (u.hart t).inbox.get 0 j = (s.hart t).inbox.get 0 j ∧ (u.hart t).present.getLsbD j = (s.hart t).present.getLsbD j) ∧
      (t ≠ s.cur → u.me = s.me.done) := by
  have wrote : (wroteInbox s t r v).hart t = (s.hart t).fillInbox r v { writer := some s.cur, taint := taintOf s s.cur } := State.hart_setHart_self ..
  obtain ⟨inbox, present⟩ := inbox_retire (wroteInbox s t r v) t
  dsimp only
  rw [inbox, present, wrote]
  refine ⟨((OnlyUnits.refl ..).modHart (by simp)).modHart (List.mem_cons_self), ?_, ?_, fun j hj => ⟨?_, ?_⟩, fun other => ?_⟩
  · rw [Hart.inbox_fillInbox, if_pos rfl]
  · simp [Hart.present_fillInbox _ low]
  · rw [Hart.inbox_fillInbox, if_neg hj]
  · simp [Hart.present_fillInbox _ low, hj]
  · exact (me_retire _).trans (congrArg Hart.done (State.hart_setHart_ne s _ (Ne.symm other)))

/-- A write that its target holds. -/
theorem heldInbox_spec (s : State) (t r : Nat) (v : Word) (wait : Wait) :
    let u := (heldInbox s t r v).modMe fun h => { h with wait := wait }
    OnlyUnits s u [s.cur, t] [] ∧ u.me.wait = wait ∧ u.me.pc = s.me.pc ∧
      (u.hart t).held = (s.hart t).held ++ [{ writer := s.cur, reg := r, val := v, taint := taintOf s s.cur }] ∧
      (u.hart t).inbox = (s.hart t).inbox ∧ (u.hart t).present = (s.hart t).present := by
  have target : (heldInbox s t r v).hart t =
      { s.hart t with held := (s.hart t).held ++ [{ writer := s.cur, reg := r, val := v, taint := taintOf s s.cur }] } := State.hart_setHart_self ..
  have mine : ((heldInbox s t r v).hart s.cur).pc = s.me.pc := by
    refine (congrArg Hart.pc (State.hart_modHart ..)).trans ?_
    split
    · next e => rw [← e]; rfl
    · rfl
  refine ⟨((OnlyUnits.refl ..).modHart (by simp)).modHart (List.mem_cons_self), ?_⟩
  have waits : ((heldInbox s t r v).modMe fun h => { h with wait := wait }).me = { (heldInbox s t r v).hart s.cur with wait := wait } := State.me_setHart_cur ..
  have others : ∀ g, ∃ z, ((heldInbox s t r v).modMe fun h => { h with wait := wait }).hart g = { (heldInbox s t r v).hart g with wait := z } := fun g => by
    by_cases e : g = s.cur
    · exact e ▸ ⟨wait, waits⟩
    · exact ⟨((heldInbox s t r v).hart g).wait, State.hart_setHart_ne _ _ e⟩
  obtain ⟨z, hz⟩ := others t
  rw [waits, hz, target]
  exact ⟨rfl, mine, rfl, rfl, rfl⟩

/-! ### A held write enters -/

/-- The oldest write held for an absent register of hart t enters it, and its `iwr` completes (log 73). -/
theorem iwrHeldWriteEntry_spec {w : HeldIwr} (found : (s.hart s.ev.a).held.find? (fun y => y.reg == s.ev.b) = some w)
    (absent : (s.hart s.ev.a).present.getLsbD s.ev.b = false) (low : s.ev.b < 8) (other : w.writer ≠ s.ev.a) :
    ∃ t, Runs .iwrHeldWriteEntry s t ∧ OnlyUnits s t [s.ev.a, w.writer] [] ∧ (t.hart s.ev.a).inbox.get 0 s.ev.b = w.val ∧
      (t.hart s.ev.a).present.getLsbD s.ev.b = true ∧ (t.hart s.ev.a).held = (s.hart s.ev.a).held.erase w ∧ t.hart w.writer = (s.hart w.writer).done := by
  have runs : exec .iwrHeldWriteEntry s = .next ((s.modHart s.ev.a fun y =>
      { (y.fillInbox s.ev.b w.val { writer := some w.writer, taint := w.taint }) with held := y.held.erase w }).modHart w.writer Hart.done) := by
    rw [exec_iwrHeldWriteEntry, execIwrHeldWriteEntry]
    simp only [found, Hart.isPresent, absent]
    rfl
  refine ⟨_, runs, ((OnlyUnits.refl ..).modHart (by simp)).modHart (by simp), ?_⟩
  rw [State.hart_modHart, if_neg other.symm, State.hart_modHart, if_pos rfl, State.hart_modHart, if_pos rfl, State.hart_modHart, if_neg other]
  refine ⟨?_, ?_, rfl, rfl⟩
  · exact (Hart.inbox_fillInbox _ _ _ w.val { writer := some w.writer, taint := w.taint }).trans (if_pos rfl)
  · refine (Hart.present_fillInbox _ low w.val { writer := some w.writer, taint := w.taint } _).trans ?_
    simp

/-! ### `bbrd` -/

theorem bbrd_spec (s : State) (d a : BitVec 5) :
    XDone (.bbrd d a) s d.toNat (if classOf s s.cur = 0 then 0 else (s.cls (classOf s s.cur)).bb.get 0 a.toNat) :=
  xDone_of_doneWith (exec_bbrd d a s)

end Sys2Proof
end

section
/-!
SUPPORT. What unbinding a hart and ending a class leave as they were, and what they end (R167, R170, R172, R176, R259, R322, R328).
-/
namespace Sys2Proof
open Machine

variable {s t u : State}

/-! ### What a hart has under way is let go -/

/-- Whether a hart runs, for what, and what the pre-emption of its class reads of it are the same. -/
def SameStanding (x y : Hart) : Prop := y.live = x.live ∧ y.bind = x.bind ∧ y.retired = x.retired ∧ y.k = x.k

/-- The channels, hall-pass counts and matrix unit of a core are the same. -/
def SameUnits (x y : Core) : Prop := y.chans = x.chans ∧ y.hpCount = x.hpCount ∧ y.ops = x.ops ∧ y.accs = x.accs ∧ y.mx = x.mx

/-- What is let go with the wait, the held writes and the operations of a hart leaves every hart's standing and every core's units. -/
structure LetsGo (s t : State) : Prop where
  mem : t.mem = s.mem
  cur : t.cur = s.cur
  classes : t.classes = s.classes
  hart : ∀ h, SameStanding (s.hart h) (t.hart h)
  core : ∀ c, SameUnits (s.core c) (t.core c)

theorem LetsGo.refl (s : State) : LetsGo s s := ⟨rfl, rfl, rfl, fun _ => ⟨rfl, rfl, rfl, rfl⟩, fun _ => ⟨rfl, rfl, rfl, rfl, rfl⟩⟩

theorem LetsGo.modHart {h : Nat} {f : Hart → Hart} (lets : LetsGo s t) (same : ∀ x, SameStanding x (f x)) : LetsGo s (t.modHart h f) := by
  refine ⟨lets.mem, lets.cur, lets.classes, fun g => ?_, lets.core⟩
  rw [State.hart_modHart]
  split
  · next e =>
    obtain ⟨live, bind, retired, k⟩ := lets.hart g
    obtain ⟨live', bind', retired', k'⟩ := same (t.hart h)
    rw [e] at live bind retired k ⊢
    exact ⟨live'.trans live, bind'.trans bind, retired'.trans retired, k'.trans k⟩
  · exact lets.hart g

theorem LetsGo.modCore {c : Nat} {f : Core → Core} (lets : LetsGo s t) (same : ∀ x, SameUnits x (f x)) : LetsGo s (t.modCore c f) := by
  refine ⟨lets.mem, lets.cur, lets.classes, lets.hart, fun d => ?_⟩
  rw [State.core_modCore]
  split
  · next e =>
    obtain ⟨chans, counts, ops, accs, mx⟩ := lets.core d
    obtain ⟨chans', counts', ops', accs', mx'⟩ := same (t.core c)
    rw [e] at chans counts ops accs mx ⊢
    exact ⟨chans'.trans chans, counts'.trans counts, ops'.trans ops, accs'.trans accs, mx'.trans mx⟩
  · exact lets.core d

theorem LetsGo.withdraw {h : Nat} (lets : LetsGo s t) : LetsGo s (Machine.withdraw t h) := by
  unfold Machine.withdraw
  split
  · exact ⟨lets.mem, lets.cur, lets.classes, lets.hart, lets.core⟩
  · exact lets.modHart fun _ => ⟨rfl, rfl, rfl, rfl⟩
  · exact lets.modCore fun _ => ⟨rfl, rfl, rfl, rfl, rfl⟩
  · exact ⟨lets.mem, lets.cur, lets.classes, lets.hart, lets.core⟩
  · exact lets

theorem LetsGo.abandon {h : Nat} (lets : LetsGo s t) : LetsGo s (Machine.abandon t h) := lets.withdraw.modHart fun _ => ⟨rfl, rfl, rfl, rfl⟩

theorem LetsGo.dropHeld {h : Nat} (lets : LetsGo s t) : LetsGo s (Machine.dropHeld t h) :=
  List.foldlRecOn _ _ (lets.modHart fun _ => ⟨rfl, rfl, rfl, rfl⟩) fun _ lets _ _ => lets.modHart fun x =>
    ⟨x.done_live, x.done_bind, x.done_retired, x.done_k⟩

theorem LetsGo.orphanOps {h : Nat} (lets : LetsGo s t) : LetsGo s (Machine.orphanOps t h) := lets.modCore fun _ => ⟨rfl, rfl, rfl, rfl, rfl⟩

/-! ### A hart is unbound -/

/-- A hart that runs for nothing. -/
def Unbound (x : Hart) : Prop := x.live = false ∧ x.bind = .none

theorem unbound_unbind (x : Hart) : Unbound x.unbind := by
  unfold Hart.unbind
  split <;> exact ⟨rfl, rfl⟩

theorem unbindHart_spec (s : State) (h : Nat) : ∃ u, LetsGo s u ∧ unbindHart s h = u.modHart h Hart.unbind :=
  ⟨_, (LetsGo.refl s).abandon.dropHeld.orphanOps, rfl⟩

/-- The end of a binding leaves the units of every core. -/
theorem unbindHart_core (s : State) (h c : Nat) : SameUnits (s.core c) ((unbindHart s h).core c) := by
  obtain ⟨u, lets, unbinds⟩ := unbindHart_spec s h
  rw [unbinds]
  exact lets.core c

theorem unbindHarts_core (s : State) (hs : List Nat) (c : Nat) : SameUnits (s.core c) ((hs.foldl unbindHart s).core c) := by
  refine List.foldlRecOn hs unbindHart (motive := fun t => SameUnits (s.core c) (t.core c)) ⟨rfl, rfl, rfl, rfl, rfl⟩ fun t same h _ => ?_
  obtain ⟨chans, counts, ops, accs, mx⟩ := same
  obtain ⟨chans', counts', ops', accs', mx'⟩ := unbindHart_core t h c
  exact ⟨chans'.trans chans, counts'.trans counts, ops'.trans ops, accs'.trans accs, mx'.trans mx⟩

/-! ### The matrix unit drains (R259) -/

theorem bump_core (s : State) (c k n d : Nat) : ∃ e, (bump s c k n).core d = { s.core d with kev := e } := by
  by_cases e : d = c
  · rw [e]
    exact ⟨_, State.core_modCore_self ..⟩
  · exact ⟨(s.core d).kev, State.core_modCore_ne _ _ e⟩

theorem bump_core_ne (s : State) {c d : Nat} (k n : Nat) (e : d ≠ c) : (bump s c k n).core d = s.core d := State.core_modCore_ne _ _ e

theorem bump_frame {c k n : Nat} (rest : { t with cores := s.cores } = s) : { bump t c k n with cores := s.cores } = s := rest

/-- The state after the oldest product of a core's matrix unit has completed. -/
def afterProduct (c : Nat) (o : MatOp) (s : State) : State :=
  let (acc, m, v) := product o ((s.core c).acc o.acc)
  let s := s.modCore c fun x => { x.setAcc o.acc acc with mx := (s.core c).mx.tail }
  bump (bump (bump (bump s c 0 m) c 1 v) c 7 (o.ta.nanScales + o.tb.nanScales)) c 9 1

theorem afterProduct_spec (c : Nat) (o : MatOp) (s : State) : { afterProduct c o s with cores := s.cores } = s ∧
    (∀ d, d ≠ c → (afterProduct c o s).core d = s.core d) ∧ ((afterProduct c o s).core c).mx = (s.core c).mx.tail := by
  unfold afterProduct
  generalize product o ((s.core c).acc o.acc) = p
  obtain ⟨acc, m, v⟩ := p
  refine ⟨bump_frame (bump_frame (bump_frame (bump_frame rfl))), fun d e => ?_, ?_⟩
  · simp only [bump_core_ne _ _ _ e]
    exact State.core_modCore_ne _ _ e
  · have keeps : ∀ u k n, ((bump u c k n).core c).mx = (u.core c).mx := fun u k n => by
      obtain ⟨e, h⟩ := bump_core u c k n c
      rw [h]
    simp only [keeps]
    exact congrArg Core.mx (State.core_modCore_self ..)

theorem drainMx_nil {c : Nat} (n : Nat) (none : (s.core c).mx = []) : drainMx c n s = s := by
  cases n with
  | zero => rfl
  | succ n =>
    unfold drainMx
    rw [none]

theorem drainMx_cons {c : Nat} (n : Nat) {o : MatOp} {r : List MatOp} (first : (s.core c).mx = o :: r) : drainMx c (n + 1) s = drainMx c n (afterProduct c o s) := by
  rw [drainMx, afterProduct, first]
  rfl

/-- Draining touches its own core alone, and takes the products from the front. -/
theorem drainMx_spec (c n : Nat) (s : State) : { drainMx c n s with cores := s.cores } = s ∧ (∀ d, d ≠ c → (drainMx c n s).core d = s.core d) ∧
    ((drainMx c n s).core c).mx = (s.core c).mx.drop n := by
  induction n generalizing s with
  | zero => exact ⟨rfl, fun _ _ => rfl, rfl⟩
  | succ n ih =>
    cases first : (s.core c).mx with
    | nil =>
      rw [drainMx_nil _ first]
      exact ⟨rfl, fun _ _ => rfl, first⟩
    | cons o r =>
      obtain ⟨rest, others, mx⟩ := ih (afterProduct c o s)
      obtain ⟨rest', others', mx'⟩ := afterProduct_spec c o s
      rw [drainMx_cons n first]
      refine ⟨?_, fun d e => (others d e).trans (others' d e), ?_⟩
      · exact (congrArg (fun t : State => { t with cores := s.cores }) rest :).trans rest'
      · rw [mx, mx', first]
        rfl

/-! ### Classes end -/

/-- A core whose matrix unit holds nothing. -/
def IdleMatrix (x : Core) : Prop := x.ops = [] ∧ x.accs = [] ∧ x.mx = []

/-- What the end of classes keeps: memory, the turn's hart, and what has already ended. -/
structure Ends (s t : State) : Prop where
  mem : t.mem = s.mem
  cur : t.cur = s.cur
  unbound : ∀ h, Unbound (s.hart h) → Unbound (t.hart h)
  ended : ∀ j, (s.cls j).live = false → (t.cls j).live = false
  idle : ∀ c, IdleMatrix (s.core c) → IdleMatrix (t.core c)

theorem Ends.refl (s : State) : Ends s s := ⟨rfl, rfl, fun _ h => h, fun _ h => h, fun _ h => h⟩

theorem Ends.trans (ends : Ends s t) (more : Ends t u) : Ends s u :=
  ⟨more.mem.trans ends.mem, more.cur.trans ends.cur, fun h x => more.unbound h (ends.unbound h x), fun j x => more.ended j (ends.ended j x),
    fun c x => more.idle c (ends.idle c x)⟩

theorem Ends.foldl {α : Type} {f : State → α → State} (step : ∀ s a, Ends s (f s a)) (s : State) (as : List α) : Ends s (as.foldl f s) :=
  List.foldlRecOn as f (motive := Ends s) (.refl s) fun t ends a _ => ends.trans (step t a)

theorem IdleMatrix.of_same {x y : Core} (idle : IdleMatrix x) (same : SameUnits x y) : IdleMatrix y := by
  obtain ⟨_, _, ops, accs, mx⟩ := same
  exact ⟨ops.trans idle.1, accs.trans idle.2.1, mx.trans idle.2.2⟩

theorem Ends.modCore (s : State) (c : Nat) {f : Core → Core} (keeps : IdleMatrix (s.core c) → IdleMatrix (f (s.core c))) : Ends s (s.modCore c f) := by
  refine ⟨rfl, rfl, fun _ h => h, fun _ h => h, fun d idle => ?_⟩
  rw [State.core_modCore]
  split
  · next e => exact keeps (e ▸ idle)
  · exact idle

theorem LetsGo.ends (lets : LetsGo s t) : Ends s t := by
  refine ⟨lets.mem, lets.cur, fun h unbound => ?_, fun j ended => ?_, fun c idle => idle.of_same (lets.core c)⟩
  · obtain ⟨live, bind, _⟩ := lets.hart h
    exact ⟨live.trans unbound.1, bind.trans unbound.2⟩
  · rw [← ended, State.cls, State.cls, lets.classes]

theorem Ends.unbindHart (s : State) (h : Nat) : Ends s (Machine.unbindHart s h) := by
  obtain ⟨u, lets, unbinds⟩ := unbindHart_spec s h
  rw [unbinds]
  refine lets.ends.trans ⟨rfl, rfl, fun g unbound => ?_, fun _ x => x, fun _ x => x⟩
  rw [State.hart_modHart]
  split
  · exact unbound_unbind _
  · exact unbound

/-- Every hart of a list that is unbound in turn ends unbound. -/
theorem unbound_unbindHarts (s : State) (hs : List Nat) : ∀ h ∈ hs, Unbound ((hs.foldl unbindHart s).hart h) := by
  induction hs using List.reverseRecOn with
  | nil => exact fun _ h => nomatch h
  | append_singleton hs g ih =>
    intro h mem
    rw [List.foldl_concat]
    obtain before | last := List.mem_append.mp mem
    · exact (Ends.unbindHart ..).unbound h (ih h before)
    · obtain ⟨u, _, unbinds⟩ := unbindHart_spec (hs.foldl unbindHart s) g
      rw [unbinds, List.mem_singleton.mp last, State.hart_modHart, if_pos rfl]
      exact unbound_unbind _

theorem Ends.drainMx (c n : Nat) (s : State) : Ends s (Machine.drainMx c n s) := by
  obtain ⟨rest, others, _⟩ := drainMx_spec c n s
  have harts : (Machine.drainMx c n s).harts = s.harts := (congrArg State.harts rest :)
  have classes : (Machine.drainMx c n s).classes = s.classes := (congrArg State.classes rest :)
  refine ⟨(congrArg State.mem rest :), (congrArg State.cur rest :), fun h unbound => ?_, fun j ended => ?_, fun d idle => ?_⟩
  · rwa [State.hart_of_harts harts]
  · rw [← ended, State.cls, State.cls, classes]
  · by_cases e : d = c
    · subst e
      rwa [drainMx_nil n idle.2.2]
    · rwa [others d e]

/-- The state in which a class has its products completed, where it holds a matrix grant, and its harts unbound. -/
def classUnbound (s : State) (key : Nat) : State :=
  let k := s.cls key
  k.harts.foldl unbindHart (if k.acc.isSome then drainMx k.core (s.core k.core).mx.length s else s)

theorem classUnbound_ends (s : State) (key : Nat) : Ends s (classUnbound s key) := by
  refine Ends.trans ?_ (.foldl Ends.unbindHart _ _)
  split
  · exact .drainMx ..
  · exact .refl s

theorem classUnbound_mx {key : Nat} (grant : (s.cls key).acc.isSome = true) : ((classUnbound s key).core (s.cls key).core).mx = [] := by
  obtain ⟨_, _, mx⟩ := drainMx_spec (s.cls key).core (s.core (s.cls key).core).mx.length s
  obtain ⟨_, _, _, _, same⟩ := unbindHarts_core (drainMx (s.cls key).core (s.core (s.cls key).core).mx.length s) (s.cls key).harts (s.cls key).core
  rw [classUnbound, if_pos grant, same, mx, List.drop_length]

theorem classUnbound_harts (s : State) (key : Nat) : ∀ h ∈ (s.cls key).harts, Unbound ((classUnbound s key).hart h) := unbound_unbindHarts _ _

/-- What the core of an ended class gives back: barriers, operands and accumulators. -/
def Machine.ClassRec.giveBack (k : ClassRec) (c : Core) : Core :=
  { c with bars := c.bars.filter fun p => decide (k.nbar ≤ p.1), ops := if k.acc.isSome then [] else c.ops, accs := if k.acc.isSome then [] else c.accs }

theorem releaseClass_eq (s : State) (key : Nat) : releaseClass s key =
    { (classUnbound s key).modCore (s.cls key).core (s.cls key).giveBack with classes := (classUnbound s key).classes.erase key } := rfl

theorem giveBack_idle (k : ClassRec) {c : Core} (none : c.mx = []) (idle : k.acc.isSome = true ∨ IdleMatrix c) : IdleMatrix (k.giveBack c) := by
  unfold ClassRec.giveBack
  by_cases grant : k.acc.isSome = true
  · exact ⟨if_pos grant, if_pos grant, none⟩
  · obtain ⟨ops, accs, _⟩ := idle.resolve_left grant
    exact ⟨(if_neg grant).trans ops, (if_neg grant).trans accs, none⟩

/-- The end of a class: it is bound no more, its harts are unbound, and its matrix grant is emptied. -/
theorem releaseClass_spec (s : State) (key : Nat) : let t := releaseClass s key
    Ends s t ∧ (t.cls key).live = false ∧ (∀ h ∈ (s.cls key).harts, Unbound (t.hart h)) ∧ ((s.cls key).acc ≠ none → IdleMatrix (t.core (s.cls key).core)) := by
  have ends := classUnbound_ends s key
  have harts := classUnbound_harts s key
  have drained := classUnbound_mx (s := s) (key := key)
  rw [releaseClass_eq]
  generalize classUnbound s key = u at *
  generalize s.cls key = k at *
  have frees : Ends u (u.modCore k.core k.giveBack) := .modCore _ _ fun idle => giveBack_idle k idle.2.2 (.inr idle)
  have erased : ({ u.modCore k.core k.giveBack with classes := u.classes.erase key } : State).cls key = {} := SMap.get_erase_self ..
  refine ⟨(ends.trans frees).trans ⟨rfl, rfl, fun _ x => x, fun j ended => ?_, fun _ x => x⟩, congrArg ClassRec.live erased, harts, fun grant => ?_⟩
  · by_cases e : j = key
    · rw [e, erased]
    · exact (congrArg ClassRec.live (SMap.get_erase_ne _ _ e)).trans ended
  · have some := Option.isSome_iff_ne_none.2 grant
    have idle := giveBack_idle k (drained some) (.inl some)
    rwa [← State.core_modCore_self u k.core k.giveBack] at idle

theorem Ends.releaseClass (s : State) (key : Nat) : Ends s (Machine.releaseClass s key) := (releaseClass_spec s key).1

theorem Ends.noteCohort (s : State) (launch coh : Nat) : Ends s (Machine.noteCohort s launch coh) := by
  unfold Machine.noteCohort
  split
  · exact ⟨rfl, rfl, fun _ x => x, fun _ x => x, fun _ x => x⟩
  · exact .refl s

theorem Ends.saveCohort (s : State) (launch coh : Nat) : Ends s (Machine.saveCohort s launch coh) := by
  unfold Machine.saveCohort
  split
  · exact .refl s
  · obtain ⟨mem, cur, unbound, ended, idle⟩ := Ends.foldl (fun s (p : Nat × ClassRec) => Ends.releaseClass s p.1) s (cohortClasses s launch coh)
    exact ⟨mem, cur, unbound, ended, idle⟩

end Sys2Proof
end

section
/-!
PROOF. O44: the blackboard and inbox forms (R165 to R167, R280, R306), and `hdone` by what its hart is bound to (R170, R172, R275, R328).
-/
namespace Sys2Proof
open Machine

variable {s t : State}

/-! ### `hdone` by its binding -/

/-- The state in which `hdone` acts: its hart has counted it. -/
def hdoneCounted (s : State) : State := s.modMe Hart.counted

theorem hdoneCounted_me (s : State) : (hdoneCounted s).me = s.me.counted := State.me_setHart_cur ..

theorem hdoneCounted_hart (s : State) (h : Nat) : SameStanding (s.hart h) ((hdoneCounted s).hart h) :=
  ((LetsGo.refl s).modHart fun _ => ⟨rfl, rfl, rfl, rfl⟩ : LetsGo s (hdoneCounted s)).hart h

theorem exec_hdone_outside (outside : s.me.inClause = false) : exec .hdone s =
    match s.me.bind with
    | .none => .next ((hdoneCounted s).modMe fun h => { h with pc := h.pc + word h.ilen, wait := .ready })
    | .firing f => .next (endFiring (hdoneCounted s) s.cur f)
    | .cls k => .next (retireHart (hdoneCounted s) s.cur k) := by
  have bind : (hdoneCounted s).me.bind = s.me.bind := (congrArg Hart.bind (hdoneCounted_me s) :)
  rw [exec_hdone, execHdone, outsideClause, if_neg (by simp [outside]), ← bind]
  rfl

theorem hdone_unbound (outside : s.me.inClause = false) (bind : s.me.bind = .none) :
    Becomes .hdone s { s.me.counted with pc := s.me.pc + word s.me.ilen, wait := .ready } := by
  refine becomes_of_exec ((exec_hdone_outside outside).trans ?_)
  rw [bind, hdoneCounted, State.modMe_modMe]
  rfl

/-! ### A firing ends (R170) -/

theorem countTaken_spec (s : State) (c : Nat) (m : Message) : { countTaken s c m with cores := s.cores } = s ∧
    ((countTaken s c m).core c).chans = (s.core c).chans ∧
    ∀ i, ((countTaken s c m).core c).hpCount.get 0 i = (s.core c).hpCount.get 0 i - BitVec.ofNat 48 (if m.counted && mHpi m.hdr == i then 1 else 0) := by
  unfold countTaken
  cases counted : m.counted
  · exact ⟨rfl, rfl, fun i => by simp⟩
  · rw [if_pos rfl]
    dsimp only
    rw [State.core_modCore_self]
    refine ⟨rfl, rfl, fun i => (SMap.get_set ..).trans ?_⟩
    by_cases e : i = mHpi m.hdr
    · simp [e]
    · simp [e, Ne.symm e]

/-- Consuming messages counts the counted ones, by hall pass (R284). -/
theorem countTakens_spec (c : Nat) (ms : List Message) (s : State) : let t := ms.foldl (fun s m => countTaken s c m) s
    { t with cores := s.cores } = s ∧ (t.core c).chans = (s.core c).chans ∧
    ∀ i, (t.core c).hpCount.get 0 i = (s.core c).hpCount.get 0 i - BitVec.ofNat 48 (ms.filter fun m => m.counted && mHpi m.hdr == i).length := by
  induction ms generalizing s with
  | nil => exact ⟨rfl, rfl, fun i => by simp⟩
  | cons m ms ih =>
    obtain ⟨rest, chans, counts⟩ := ih (countTaken s c m)
    obtain ⟨rest', chans', counts'⟩ := countTaken_spec s c m
    refine ⟨(congrArg (fun t : State => { t with cores := s.cores }) rest :).trans rest', chans.trans chans', fun i => ?_⟩
    rw [List.foldl_cons, counts, counts', sub_sub, ← BitVec.ofNat_add, List.filter_cons, Nat.add_comm]
    split <;> rfl

theorem unbind_firing {x : Hart} {f : Firing} (bind : x.bind = .firing f) : x.unbind.x = [] ∧ x.unbind.v = [] := by
  unfold Hart.unbind
  rw [bind]
  exact ⟨rfl, rfl⟩

/-- The core of a firing that ends: what it held reserved leaves its channel, and what it took is counted. -/
def firingConsumed (s : State) (h : Nat) (f : Firing) : State :=
  let c := coreOf h
  (f.taken ++ (((s.core c).chan f.ch).hw.filter fun q => q.resv == h + 1).map (·.msg)).foldl (fun s m => countTaken s c m)
    (s.modCore c fun k => k.modChan f.ch fun x => { x with hw := x.hw.filter fun q => q.resv != h + 1 })

theorem endFiring_eq (s : State) (h : Nat) (f : Firing) : endFiring s h f = unbindHart (firingConsumed s h f) h := rfl

theorem firingConsumed_spec (s : State) (h : Nat) (f : Firing) : let t := firingConsumed s h f
    let c := coreOf h
    { t with cores := s.cores } = s ∧ (((t.core c).chan f.ch).hw = ((s.core c).chan f.ch).hw.filter fun q => q.resv != h + 1) ∧
    ∀ i, (t.core c).hpCount.get 0 i = (s.core c).hpCount.get 0 i - BitVec.ofNat 48
      ((f.taken ++ (((s.core c).chan f.ch).hw.filter fun q => q.resv == h + 1).map (·.msg)).filter fun m => m.counted && mHpi m.hdr == i).length := by
  have core := State.core_modCore_self s (coreOf h) fun k => k.modChan f.ch fun x => { x with hw := x.hw.filter fun q => q.resv != h + 1 }
  obtain ⟨rest, chans, counts⟩ := countTakens_spec (coreOf h) (f.taken ++ (((s.core (coreOf h)).chan f.ch).hw.filter fun q => q.resv == h + 1).map (·.msg))
    (s.modCore (coreOf h) fun k => k.modChan f.ch fun x => { x with hw := x.hw.filter fun q => q.resv != h + 1 })
  rw [core] at chans counts
  refine ⟨(congrArg (fun t : State => { t with cores := s.cores }) rest :), ?_, counts⟩
  rw [Core.chan, firingConsumed, chans]
  exact congrArg Channel.hw ((Core.chan_modChan ..).trans (if_pos rfl))

theorem hdone_firing (outside : s.me.inClause = false) {f : Firing} (bind : s.me.bind = .firing f) :
    ∃ t, Runs .hdone s t ∧ SameMemory s t ∧ t.me.live = false ∧ t.me.bind = .none ∧ t.me.x = [] ∧ t.me.v = [] ∧
      ((t.myCore.chan f.ch).hw = (s.myCore.chan f.ch).hw.filter fun q => q.resv != s.cur + 1) ∧
      ∀ i, t.myCore.hpCount.get 0 i = s.myCore.hpCount.get 0 i - BitVec.ofNat 48
        ((f.taken ++ ((s.myCore.chan f.ch).hw.filter fun q => q.resv == s.cur + 1).map (·.msg)).filter fun m => m.counted && mHpi m.hdr == i).length := by
  have runs := exec_hdone_outside outside
  simp only [bind, endFiring_eq] at runs
  obtain ⟨rest, hw, counts⟩ := firingConsumed_spec (hdoneCounted s) s.cur f
  generalize firingConsumed (hdoneCounted s) s.cur f = v at *
  obtain ⟨u, lets, unbinds⟩ := unbindHart_spec v s.cur
  have memory : u.mem = s.mem := lets.mem.trans (congrArg State.mem rest :)
  have cur : u.cur = s.cur := lets.cur.trans (congrArg State.cur rest :)
  have harts : v.harts = (hdoneCounted s).harts := (congrArg State.harts rest :)
  have bound : (u.hart s.cur).bind = .firing f := by
    obtain ⟨_, same, _⟩ := lets.hart s.cur
    obtain ⟨_, same', _⟩ := hdoneCounted_hart s s.cur
    rw [same, State.hart_of_harts harts, same']
    exact bind
  obtain ⟨chans, hp, _⟩ := lets.core (coreOf s.cur)
  have me : (u.modHart s.cur Hart.unbind).me = (u.hart s.cur).unbind := by
    rw [State.me, State.hart_modHart]
    exact if_pos cur
  have core : (u.modHart s.cur Hart.unbind).myCore = u.core (coreOf s.cur) := congrArg (fun h => u.core (coreOf h)) cur
  obtain ⟨x, lanes⟩ := unbind_firing bound
  obtain ⟨live, none⟩ := unbound_unbind (u.hart s.cur)
  refine ⟨_, runs, fun a => ?_, ?_⟩
  · rw [unbinds]
    exact congrArg (fun m => SMap.get 0 m a) memory
  · rw [unbinds, me, core, Core.chan, chans, hp]
    exact ⟨live, none, x, lanes, hw, counts⟩

/-! ### A class hart retires (R172) -/

/-- The state in which a class hart has retired, before its class and cohort end. -/
def hartRetired (s : State) (h : Nat) : State :=
  (orphanOps (dropHeld s h) h).modHart h fun x => { x with live := false, retired := true, wait := .ready, resv := none }

/-- A retired hart, and the standing of the others. -/
theorem hartRetired_spec (s : State) (h : Nat) : (hartRetired s h).mem = s.mem ∧ (hartRetired s h).cur = s.cur ∧ (hartRetired s h).classes = s.classes ∧
    ((hartRetired s h).hart h).live = false ∧
    ∀ g, ((hartRetired s h).hart g).retired = (if g = h then true else (s.hart g).retired) ∧ ((hartRetired s h).hart g).k = (s.hart g).k := by
  obtain ⟨mem, cur, classes, hart, _⟩ : LetsGo s (orphanOps (dropHeld s h) h) := (LetsGo.refl s).dropHeld.orphanOps
  unfold hartRetired
  generalize orphanOps (dropHeld s h) h = u at *
  refine ⟨mem, cur, classes, ?_, fun g => ?_⟩
  · rw [State.hart_modHart, if_pos rfl]
  · obtain ⟨_, _, retired, k⟩ := hart g
    rw [State.hart_modHart]
    split
    · next e => exact ⟨rfl, e ▸ k⟩
    · exact ⟨retired, k⟩

theorem cohortSaved_congr (classes : t.classes = s.classes) (harts : ∀ h, (t.hart h).retired = (s.hart h).retired ∧ (t.hart h).k = (s.hart h).k)
    (launch coh : Nat) : cohortSaved t launch coh = cohortSaved s launch coh := by
  have retired := fun h => (harts h).1
  have k := fun h => (harts h).2
  unfold cohortSaved cohortClasses
  simp only [classes, retired, k]

theorem allRetired_hartRetired (s : State) (h : Nat) (k : ClassRec) :
    allRetired (hartRetired s h) k = true ↔ ∀ g ∈ k.harts, g ≠ h → (s.hart g).retired = true := by
  obtain ⟨_, _, _, _, standing⟩ := hartRetired_spec s h
  rw [allRetired, List.all_eq_true]
  refine forall₂_congr fun g _ => ?_
  rw [(standing g).1]
  by_cases e : g = h <;> simp [e]

theorem retireHart_eq (s : State) (h key : Nat) : retireHart s h key =
    saveCohort (if allRetired (hartRetired s h) (s.cls key) then noteCohort (releaseClass (hartRetired s h) key) (s.cls key).launch (s.cls key).cohort
      else hartRetired s h) (s.cls key).launch (s.cls key).cohort := rfl

/-- Some hart of the class has yet to retire: the class and its cohort go on. -/
theorem hdone_class_left (outside : s.me.inClause = false) {j : Nat} (bind : s.me.bind = .cls j)
    (left : ∃ h ∈ (s.cls j).harts, h ≠ s.cur ∧ (s.hart h).retired = false)
    (unsaved : cohortSaved (s.modMe fun h => { h with retired := true }) (s.cls j).launch (s.cls j).cohort = false) :
    ∃ t, Runs .hdone s t ∧ SameMemory s t ∧ t.me.live = false ∧ t.me.retired = true ∧ t.classes = s.classes := by
  have runs := exec_hdone_outside outside
  simp only [bind, retireHart_eq] at runs
  obtain ⟨mem, cur, classes, live, standing⟩ := hartRetired_spec (hdoneCounted s) s.cur
  have some : ¬ allRetired (hartRetired (hdoneCounted s) s.cur) ((hdoneCounted s).cls j) = true := by
    rw [allRetired_hartRetired]
    intro all
    obtain ⟨h, mem, other, going⟩ := left
    obtain ⟨_, _, same, _⟩ := hdoneCounted_hart s h
    rw [← same, all h mem other] at going
    exact absurd going (by decide)
  generalize hartRetired (hdoneCounted s) s.cur = u at *
  have same : cohortSaved u (s.cls j).launch (s.cls j).cohort = cohortSaved (s.modMe fun h => { h with retired := true }) (s.cls j).launch (s.cls j).cohort := by
    refine cohortSaved_congr ?_ (fun h => ?_) ..
    · exact classes
    obtain ⟨_, _, retired, k⟩ := hdoneCounted_hart s h
    obtain ⟨retired', k'⟩ := standing h
    rw [retired', k', retired, k, State.modMe, State.hart_modHart]
    split
    · next e => exact e ▸ ⟨rfl, rfl⟩
    · exact ⟨rfl, rfl⟩
  have stays : saveCohort u (s.cls j).launch (s.cls j).cohort = u := by
    rw [saveCohort, same, unsaved]
    rfl
  rw [if_neg some] at runs
  exact ⟨u, runs.trans (congrArg _ stays), fun a => congrArg (fun m => SMap.get 0 m a) mem, (congrArg Hart.live (congrArg u.hart cur)).trans live,
    (congrArg Hart.retired (congrArg u.hart cur)).trans ((standing s.cur).1.trans (if_pos rfl)), classes⟩

/-- The last hart of a class retires: the class ends. -/
theorem hdone_class_last (outside : s.me.inClause = false) {j : Nat} (bind : s.me.bind = .cls j)
    (last : ∀ h ∈ (s.cls j).harts, h ≠ s.cur → (s.hart h).retired = true) :
    ∃ t, Runs .hdone s t ∧ SameMemory s t ∧ (t.cls j).live = false ∧ (∀ h ∈ (s.cls j).harts, (t.hart h).live = false ∧ (t.hart h).bind = .none) ∧
      ((s.cls j).acc ≠ none → (s.cls j).core = coreOf s.cur → t.myCore.ops = [] ∧ t.myCore.accs = [] ∧ t.myCore.mx = []) := by
  have runs := exec_hdone_outside outside
  simp only [bind, retireHart_eq] at runs
  obtain ⟨mem, cur, classes, _, _⟩ := hartRetired_spec (hdoneCounted s) s.cur
  have all : allRetired (hartRetired (hdoneCounted s) s.cur) ((hdoneCounted s).cls j) = true := by
    refine (allRetired_hartRetired ..).2 fun h mem other => ?_
    obtain ⟨_, _, same, _⟩ := hdoneCounted_hart s h
    exact same.trans (last h mem other)
  rw [if_pos all] at runs
  generalize hartRetired (hdoneCounted s) s.cur = u at *
  have cls : u.cls j = s.cls j := by rw [State.cls, classes]; rfl
  obtain ⟨ends, ended, harts, matrix⟩ := releaseClass_spec u j
  rw [cls] at harts matrix
  have after := (Ends.noteCohort (releaseClass u j) (s.cls j).launch (s.cls j).cohort).trans (.saveCohort _ (s.cls j).launch (s.cls j).cohort)
  have whole := ends.trans after
  refine ⟨_, runs, fun a => congrArg (fun m => SMap.get 0 m a) (whole.mem.trans mem), after.ended j ended, fun h mem => after.unbound h (harts h mem), fun grant mine => ?_⟩
  have idle := after.idle _ (matrix grant)
  rwa [mine, ← (whole.cur.trans cur : _ = s.cur)] at idle

/-! ### The statement -/

/-- Settles O44: the blackboard and inbox forms by whom they reach and what stands there, the held write that enters, and `hdone` by its hart's binding. -/
theorem inboxAndEnd : Obligations.InboxAndEnd := by
  unfold Obligations.InboxAndEnd
  intro s d a b k x tgt src
  refine ⟨bbrd_spec s d a, fun bound own => bbwr_spec ⟨bound, own⟩, bbwr_other, imv_spec, fun absent => becomes_of_exec (imv_absent absent), iwr_illegal,
    fun good unbound => becomes_of_exec ?_, fun good bound => ⟨fun absent free low => ?_, fun full => ?_⟩,
    fun w => iwrHeldWriteEntry_spec, fun outside => ⟨hdone_unbound outside, fun f => hdone_firing outside, fun j bind =>
      ⟨hdone_class_left outside bind, hdone_class_last outside bind⟩⟩⟩
  · exact (iwr_eq good).trans (congrArg _ (if_pos unbound))
  · have going : ¬ boundTo s tgt s.me.fn = false := by simp [bound]
    have empty : ¬ ((s.hart tgt).present.getLsbD d.toNat = true ∨ ∃ w ∈ (s.hart tgt).held, w.reg = d.toNat) := by
      rintro (full | ⟨w, mem, same⟩)
      · exact absurd (absent.symm.trans full) (by decide)
      · exact free w mem same
    exact ⟨_, (iwr_eq good).trans (congrArg _ ((if_neg going).trans (if_neg empty))), wroteInbox_spec s tgt low _⟩
  · have going : ¬ boundTo s tgt s.me.fn = false := by simp [bound]
    exact ⟨_, (iwr_eq good).trans (congrArg _ ((if_neg going).trans (if_pos full))), heldInbox_spec ..⟩

end Sys2Proof
end

section
/-!
PROOF. O17: the decoder reads what the encoder wrote (R181, R185, R189), and O19: words of the spec, and reserved
encodings (R181, R188).
-/
namespace Sys2Proof
open Machine

/-! ### The 64-bit forms -/

theorem L64.tileShape_iff {f : L64} {n : Nat} (small : n < 8) :
    f.tileShape n = true ↔ f.noPred = true ∧ f.md = 0 ∧ f.ty = BitVec.ofNat 3 n ∧ f.ib = 0 ∧ f.imm15 = 0 := by
  have ty : f.ty.toNat = n ↔ f.ty = BitVec.ofNat 3 n := by
    rw [← BitVec.toNat_inj, BitVec.toNat_ofNat, Nat.mod_eq_of_lt small]
  simp [L64.tileShape, L64.noImm, ty, and_assoc]

/-- The opcode tables of the encoder and of the decoder agree; a row that shares its opcode is told apart by the field that its checks fix (R244). -/
theorem l64Instr_l64Fields {i : Instr} {g : BitVec 3} {op : BitVec 8} {f : L64} (wf : i.wf = true) (fields : l64Fields i = some (g, op, f)) :
    l64Instr g.toNat op.toNat f = some i := by
  unfold l64Fields at fields
  split at fields
  all_goals cases fields
  all_goals simp_all [l64Instr, l64Int, l64Fp, l64Mem, l64Cross, l64Tile, Instr.wf, L64.tileShape_iff]

/-- A row with a 64-bit form is spelt as itself. -/
theorem spelt_of_l64Fields {i : Instr} {x : BitVec 3 × BitVec 8 × L64} (fields : l64Fields i = some x) : i.spelt = i := by
  unfold l64Fields at fields
  split at fields
  all_goals cases fields
  all_goals rfl

theorem decode_l64 {i : Instr} {g : BitVec 3} {op : BitVec 8} {f : L64} (wf : i.wf = true) (fields : l64Fields i = some (g, op, f)) :
    decode (packL64 g op f).toNat = .ok (.instr i, 8) := by
  rw [decode_packL64, decodeL64, packL64_group, packL64_op, l64Of_packL64, l64Instr_l64Fields wf fields]
  simp [wf, Except.map]

/-! ### The 32-bit layouts -/

theorem bits32_eq_extract (w : BitVec 32) (hi lo : Nat) : bits32 w hi lo = (w.extractLsb' lo (hi + 1 - lo)).toNat := by
  rw [bits32, BitVec.extractLsb'_toNat, Nat.shiftRight_eq_div_pow]

/-- The fields of a packed immediate word. -/
theorem packImm_fields (imm : BitVec 12) (a : BitVec 5) (f3 : BitVec 3) (d : BitVec 5) (m : BitVec 7) :
    let w := packImm imm a f3 d m
    w.extractLsb' 20 12 = imm ∧ w.extractLsb' 15 5 = a ∧ bits32 w 14 12 = f3.toNat ∧ w.extractLsb' 7 5 = d ∧ bits32 w 6 0 = m.toNat := by
  intro w
  unfold w packImm
  simp only [bits32_eq_extract, BitVec.extractLsb'_append_eq_ite]
  simp

/-- The offset of a branch is cut into four pieces, which meet again. -/
theorem branchOff_pieces (off : BitVec 12) : off.extractLsb' 11 1 ++ off.extractLsb' 10 1 ++ off.extractLsb' 4 6 ++ off.extractLsb' 0 4 = off := by
  rw [BitVec.extractLsb'_append_extractLsb'_eq_extractLsb' (by decide : 11 = 10 + 1), BitVec.extractLsb'_append_extractLsb'_eq_extractLsb' (by decide : 10 = 4 + 6),
    BitVec.extractLsb'_append_extractLsb'_eq_extractLsb' (by decide : 4 = 0 + 4), BitVec.extractLsb'_eq_self]

/-- The b field of an S32-branch word names a mask register. -/
theorem small_append (k : BitVec 3) : (0#2 ++ k : BitVec 5).toNat < 8 := by
  rw [BitVec.toNat_append]
  simpa using k.isLt

/-- The fields of a packed branch word. -/
theorem packBranch_fields (k f3 : BitVec 3) (off : BitVec 12) :
    let w := packBranch k f3 off
    w.extractLsb' 20 3 = k ∧ w.extractLsb' 20 5 = 0#2 ++ k ∧ w.extractLsb' 15 5 = 0 ∧ bits32 w 14 12 = f3.toNat ∧ branchOff w = off ∧
      bits32 w 6 0 = 0x0B := by
  intro w
  unfold w packBranch branchOff
  simp only [bits32_eq_extract, BitVec.extractLsb'_append_eq_ite]
  simp [branchOff_pieces]

/-- The fields of the clause header. -/
theorem clause_fields (fb fa : BitVec 4) (wait : BitVec 12) (len : BitVec 5) :
    let w : BitVec 32 := fb ++ fa ++ wait ++ len ++ 0x7B#7
    w.extractLsb' 28 4 = fb ∧ w.extractLsb' 24 4 = fa ∧ w.extractLsb' 12 12 = wait ∧ w.extractLsb' 7 5 = len ∧ bits32 w 6 0 = 0x7B := by
  simp only [bits32_eq_extract, BitVec.extractLsb'_append_eq_ite]
  simp

/-- The fields of a fence. -/
theorem fence_fields (fm pred succ : BitVec 4) (a d : BitVec 5) :
    let w : BitVec 32 := fm ++ pred ++ succ ++ a ++ 0#3 ++ d ++ 0x0F#7
    w.extractLsb' 28 4 = fm ∧ w.extractLsb' 24 4 = pred ∧ w.extractLsb' 20 4 = succ ∧ w.extractLsb' 15 5 = a ∧ bits32 w 14 12 = 0 ∧
      w.extractLsb' 7 5 = d ∧ bits32 w 6 0 = 0x0F := by
  simp only [bits32_eq_extract, BitVec.extractLsb'_append_eq_ite]
  simp

/-! ### The dispatch on the major opcode -/

section
variable {w : BitVec 32}

theorem decode32_custom0 (m : bits32 w 6 0 = 0x0B) : decode32 w =
    decodeCustom0 w (bits32 w 14 12) (bits32 w 31 25) (w.extractLsb' 7 5) (w.extractLsb' 15 5) (w.extractLsb' 20 5) := by
  simp only [decode32, m]

theorem decode32_custom1 (m : bits32 w 6 0 = 0x2B) : decode32 w =
    decodeCustom1 w (bits32 w 14 12) (bits32 w 31 25) (w.extractLsb' 7 5) (w.extractLsb' 15 5) (w.extractLsb' 20 5) := by
  simp only [decode32, m]

theorem decode32_custom2 (m : bits32 w 6 0 = 0x5B) : decode32 w =
    decodeCustom2 (bits32 w 14 12) (bits32 w 31 25) (w.extractLsb' 7 5) (w.extractLsb' 15 5) (w.extractLsb' 20 5) := by
  simp only [decode32, m]

theorem decode32_clause (m : bits32 w 6 0 = 0x7B) : decode32 w =
    checked (.clause (w.extractLsb' 28 4) (w.extractLsb' 24 4) (w.extractLsb' 12 12) (w.extractLsb' 7 5)) := by
  simp only [decode32, m]

theorem decode32_system (m : bits32 w 6 0 = 0x73) : decode32 w =
    decodeSystem w (bits32 w 14 12) (bits32 w 31 25) (w.extractLsb' 7 5) (w.extractLsb' 15 5) (w.extractLsb' 20 5) := by
  simp only [decode32, m]

theorem decode32_miscMem (m : bits32 w 6 0 = 0x0F) : decode32 w = decodeMiscMem w (bits32 w 14 12) (w.extractLsb' 7 5) (w.extractLsb' 15 5) := by
  simp only [decode32, m]

theorem decode32_load (fp : Bool) (m : bits32 w 6 0 = if fp then 0x07 else 0x03) : decode32 w =
    decodeLoad fp (bits32 w 14 12) (w.extractLsb' 7 5) (w.extractLsb' 15 5) (w.extractLsb' 20 12) := by
  cases fp <;> simp only [decode32, m] <;> rfl

theorem decode32_store (fp : Bool) (m : bits32 w 6 0 = if fp then 0x27 else 0x23) : decode32 w =
    decodeStore fp (bits32 w 14 12) (w.extractLsb' 15 5) (w.extractLsb' 20 5) (w.extractLsb' 25 7 ++ w.extractLsb' 7 5) := by
  cases fp <;> simp only [decode32, m] <;> rfl

theorem decode32_amo (m : bits32 w 6 0 = 0x2F) : decode32 w =
    decodeAmo w (bits32 w 14 12) (w.extractLsb' 7 5) (w.extractLsb' 15 5) (w.extractLsb' 20 5) := by
  simp only [decode32, m]

end

/-! ### The rows of each major opcode -/

theorem checked_wf {i : Instr} (wf : i.wf = true) : checked i = .ok (.instr i) := if_pos wf

section
variable {f7 : BitVec 7} {b a : BitVec 5} {f3 : BitVec 3} {d : BitVec 5}

theorem decode32_packReg_mask : decode32 (packReg f7 b a 0 d 0x0B) = decodeMask f7.toNat d a b := by
  obtain ⟨h3, h7, hd, ha, hb, hm⟩ := packReg_fields f7 b a 0 d 0x0B
  rw [decode32_custom0 hm, h3, h7, hd, ha, hb]
  rfl

theorem decode32_packReg_custom1 :
    decode32 (packReg f7 b a f3 d 0x2B) = decodeCustom1 (packReg f7 b a f3 d 0x2B) f3.toNat f7.toNat d a b := by
  obtain ⟨h3, h7, hd, ha, hb, hm⟩ := packReg_fields f7 b a f3 d 0x2B
  rw [decode32_custom1 hm, h3, h7, hd, ha, hb]

theorem decode32_packReg_custom2 : decode32 (packReg f7 b a f3 d 0x5B) = decodeCustom2 f3.toNat f7.toNat d a b := by
  obtain ⟨h3, h7, hd, ha, hb, hm⟩ := packReg_fields f7 b a f3 d 0x5B
  rw [decode32_custom2 hm, h3, h7, hd, ha, hb]

/-- The immediate of an S32-imm word of custom-1 is an operation and an id (R191). -/
theorem packImm_custom1_fields (op : BitVec 5) (id : BitVec 7) (a : BitVec 5) (f3 : BitVec 3) (d : BitVec 5) :
    let w := packImm (op ++ id) a f3 d 0x2B
    w.extractLsb' 27 5 = op ∧ w.extractLsb' 20 7 = id ∧ w.extractLsb' 23 4 = id.extractLsb' 3 4 ∧ w.extractLsb' 20 3 = id.extractLsb' 0 3 := by
  intro w
  unfold w packImm
  simp only [BitVec.extractLsb'_append_eq_ite]
  simp

theorem decode32_packImm_bar {op : BitVec 5} {id : BitVec 7} : decode32 (packImm (op ++ id) a 2 d 0x2B) =
    match op.toNat with
    | 0 => checkedIf (d == 0) (.barCfg id a)
    | 1 => checkedIf (d == 0 && a == 0) (.barArr id)
    | 2 => checkedIf (d == 0 && a == 0) (.barWait id)
    | 3 => checkedIf (d == 0 && a == 0) (.barSync id)
    | 4 => checkedIf (d == 0) (.barTx id a)
    | 5 => checked (.barTest d id a)
    | _ => .error .unassigned := by
  obtain ⟨hi, ha, h3, hd, hm⟩ := packImm_fields (op ++ id) a 2 d 0x2B
  obtain ⟨hop, hid, -, -⟩ := packImm_custom1_fields op id a 2 d
  rw [decode32_custom1 hm, h3, hd, ha]
  simp only [decodeCustom1, hop, hid]
  rfl

theorem decode32_packImm_waitf {mask : BitVec 12} : decode32 (packImm mask 0 1 0 0x2B) = checked (.waitf mask) := by
  obtain ⟨hi, ha, h3, hd, hm⟩ := packImm_fields mask 0 1 0 0x2B
  rw [decode32_custom1 hm, h3, hd, ha]
  simp only [decodeCustom1, hi]
  rfl

theorem decode32_packImm_kfence {sets : BitVec 4} {scope : BitVec 3} :
    decode32 (packImm (0#5 ++ sets ++ scope) 0 3 0 0x2B) = checked (.kfence sets scope) := by
  have parts : (0#5 ++ sets ++ scope : BitVec 12) = 0#5 ++ (sets ++ scope) := BitVec.append_assoc ..
  obtain ⟨-, ha, h3, hd, hm⟩ := packImm_fields (0#5 ++ (sets ++ scope)) 0 3 0 0x2B
  obtain ⟨hop, -, hsets, hscope⟩ := packImm_custom1_fields 0#5 (sets ++ scope) 0 3 0
  rw [parts, decode32_custom1 hm, h3, hd, ha]
  simp only [decodeCustom1, hop, hsets, hscope, BitVec.extractLsb'_append_eq_left, BitVec.extractLsb'_append_eq_right]
  rfl

theorem decode32_packImm_rollc {id : BitVec 7} : decode32 (packImm (0#5 ++ id) a 4 0 0x2B) = checked (.rollc id a) := by
  obtain ⟨-, ha, h3, hd, hm⟩ := packImm_fields (0#5 ++ id) a 4 0 0x2B
  obtain ⟨hop, hid, -, -⟩ := packImm_custom1_fields 0#5 id a 4 0
  rw [decode32_custom1 hm, h3, hd, ha]
  simp only [decodeCustom1, hop, hid]
  rfl

theorem decode32_mbz {k : BitVec 3} {off : BitVec 12} : decode32 (packBranch k 1 off) = checked (.mbz k off) := by
  obtain ⟨hk, hb, ha, h3, hoff, hm⟩ := packBranch_fields k 1 off
  rw [decode32_custom0 hm, h3, hb, ha]
  simp only [decodeCustom0, hk, hoff, checkedIf, decide_eq_true (small_append k)]
  rfl

theorem decode32_mbnz {k : BitVec 3} {off : BitVec 12} : decode32 (packBranch k 2 off) = checked (.mbnz k off) := by
  obtain ⟨hk, hb, ha, h3, hoff, hm⟩ := packBranch_fields k 2 off
  rw [decode32_custom0 hm, h3, hb, ha]
  simp only [decodeCustom0, hk, hoff, checkedIf, decide_eq_true (small_append k)]
  rfl

theorem decode32_clauseWord {fb fa : BitVec 4} {wait : BitVec 12} {len : BitVec 5} :
    decode32 (fb ++ fa ++ wait ++ len ++ 0x7B#7) = checked (.clause fb fa wait len) := by
  obtain ⟨hfb, hfa, hwait, hlen, hm⟩ := clause_fields fb fa wait len
  rw [decode32_clause hm, hfb, hfa, hwait, hlen]

theorem decode32_sfenceVma : decode32 (packReg 0x09 b a 0 0 0x73) = checked (.sfenceVma a b) := by
  obtain ⟨h3, h7, hd, ha, hb, hm⟩ := packReg_fields 0x09 b a 0 0 0x73
  have other : ∀ c, bits32 c 31 25 ≠ 9 → packReg 0x09 b a 0 0 0x73 ≠ c := fun c ne e => ne (e ▸ h7)
  rw [decode32_system hm, h3, h7, hd, ha, hb]
  simp only [decodeSystem, if_neg (other 0x00000073 (by decide)), if_neg (other 0x00100073 (by decide)), if_neg (other 0x10200073 (by decide)),
    if_neg (other 0x30200073 (by decide)), if_neg (other 0x10500073 (by decide))]
  rfl

/-- A `fence` word is read as `pause` where its fields are those of `pause`. -/
theorem decode32_fence {fm pred succ : BitVec 4} : decode32 (fm ++ pred ++ succ ++ a ++ 0#3 ++ d ++ 0x0F#7) =
    .ok (.instr (Instr.fence fm pred succ a d).spelt) := by
  obtain ⟨hfm, hpred, hsucc, ha, h3, hd, hm⟩ := fence_fields fm pred succ a d
  by_cases h : fm = 0 ∧ pred = 1 ∧ succ = 0 ∧ a = 0 ∧ d = 0
  · obtain ⟨rfl, rfl, rfl, rfl, rfl⟩ := h
    rfl
  · have other : (fm ++ pred ++ succ ++ a ++ 0#3 ++ d ++ 0x0F#7 : BitVec 32) ≠ 0x0100000F := by
      intro e
      rw [e] at hfm hpred hsucc ha hd
      exact h ⟨hfm.symm, hpred.symm, hsucc.symm, ha.symm, hd.symm⟩
    rw [decode32_miscMem hm, h3, hd, ha]
    simp only [decodeMiscMem, if_neg other, hfm, hpred, hsucc]
    exact (checked_wf rfl).trans (congrArg (fun x => Except.ok (Decoded.instr x)) (if_neg h).symm)

theorem csrRow_wf (num : BitVec 12) (o : CsrOp) : (csrRow num o).wf = true := by
  unfold csrRow
  split
  case h_25 => split <;> rfl
  all_goals rfl

theorem decode32_packCsr (num : BitVec 12) (o : CsrOp) : decode32 (packCsr num o) = .ok (.instr (csrRow num o)) := by
  obtain ⟨kind, imm, src, rd⟩ := o
  obtain ⟨f3, word, field⟩ : ∃ f3, packCsr num ⟨kind, imm, src, rd⟩ = packImm num src f3 rd 0x73 ∧
      ∀ w d a b f7, decodeSystem w f3.toNat f7 d a b = checked (csrRow (w.extractLsb' 20 12) { kind := kind, imm := imm, src := a, rd := d }) := by
    cases kind <;> cases imm <;> exact ⟨_, rfl, fun _ _ _ _ _ => rfl⟩
  obtain ⟨hi, ha, h3, hd, hm⟩ := packImm_fields num src f3 rd 0x73
  rw [word, decode32_system hm, h3, field, hi, ha, hd]
  exact checked_wf (csrRow_wf ..)

theorem decode32_packLoad (o : LoadOp) : decode32 (packLoad o) = .ok (.instr (.scalarLoad o)) := by
  obtain ⟨kind, rd, rs1, imm⟩ := o
  obtain ⟨fp, f3, word, field⟩ : ∃ fp f3, packLoad ⟨kind, rd, rs1, imm⟩ = packImm imm rs1 f3 rd (if fp then 0x07 else 0x03) ∧
      decodeLoad fp f3.toNat rd rs1 imm = checked (.scalarLoad ⟨kind, rd, rs1, imm⟩) := by
    cases kind
    case flw | fld => exact ⟨true, _, rfl, rfl⟩
    all_goals exact ⟨false, _, rfl, rfl⟩
  obtain ⟨hi, ha, h3, hd, hm⟩ := packImm_fields imm rs1 f3 rd (if fp then 0x07 else 0x03)
  rw [word, decode32_load fp (hm.trans (by cases fp <;> rfl)), h3, hi, ha, hd, field]
  rfl

theorem decode32_packStore (o : StoreOp) : decode32 (packStore o) = .ok (.instr (.scalarStore o)) := by
  obtain ⟨kind, rs2, rs1, imm⟩ := o
  obtain ⟨fp, f3, word, field⟩ : ∃ fp f3,
      packStore ⟨kind, rs2, rs1, imm⟩ = packReg (imm.extractLsb' 5 7) rs2 rs1 f3 (imm.extractLsb' 0 5) (if fp then 0x27 else 0x23) ∧
      decodeStore fp f3.toNat rs1 rs2 imm = checked (.scalarStore ⟨kind, rs2, rs1, imm⟩) := by
    cases kind
    case fsw | fsd => exact ⟨true, _, rfl, rfl⟩
    all_goals exact ⟨false, _, rfl, rfl⟩
  obtain ⟨h3, h7, hd, ha, hb, hm⟩ := packReg_fields (imm.extractLsb' 5 7) rs2 rs1 f3 (imm.extractLsb' 0 5) (if fp then 0x27 else 0x23)
  rw [bits32_eq_extract] at h7
  have whole : imm.extractLsb' 5 7 ++ imm.extractLsb' 0 5 = imm := BitVec.extractLsb'_append_extractLsb'
  rw [word, decode32_store fp (hm.trans (by cases fp <;> rfl)), h3, ha, hb, hd, BitVec.eq_of_toNat_eq h7, whole, field]
  rfl

/-- The upper bits of an A-extension word: the operation, `aq` and `rl`. -/
theorem packReg_amo_fields (f5 : BitVec 5) (aq rl : Bool) (b a : BitVec 5) (f3 : BitVec 3) (d : BitVec 5) :
    let w := packReg (f5 ++ BitVec.ofBool aq ++ BitVec.ofBool rl) b a f3 d 0x2F
    bits32 w 31 27 = f5.toNat ∧ w.getLsbD 26 = aq ∧ w.getLsbD 25 = rl := by
  intro w
  unfold w packReg
  simp only [bits32_eq_extract, BitVec.getLsbD_eq_extractLsb', BitVec.extractLsb'_append_eq_ite]
  cases aq <;> cases rl <;> simp

theorem decode32_packAmo {o : AmoOp} (wf : (Instr.scalarAtomic o).wf = true) : decode32 (packAmo o) = .ok (.instr (.scalarAtomic o)) := by
  obtain ⟨kind, dbl, aq, rl, rs2, rs1, rd⟩ := o
  obtain ⟨f5, word, field⟩ : ∃ f5 : BitVec 5, packAmo ⟨kind, dbl, aq, rl, rs2, rs1, rd⟩ =
      packReg (f5 ++ BitVec.ofBool aq ++ BitVec.ofBool rl) rs2 rs1 (if dbl then 3 else 2) rd 0x2F ∧ amoKind f5.toNat = some kind := by
    cases kind <;> exact ⟨_, rfl, rfl⟩
  obtain ⟨h3, h7, hd, ha, hb, hm⟩ := packReg_fields (f5 ++ BitVec.ofBool aq ++ BitVec.ofBool rl) rs2 rs1 (if dbl then 3 else 2) rd 0x2F
  obtain ⟨hf5, haq, hrl⟩ := packReg_amo_fields f5 aq rl rs2 rs1 (if dbl then 3 else 2) rd
  have pair : kind = .lr → rs2 = 0 := by simpa [Instr.wf, or_iff_not_imp_left] using wf
  rw [word, decode32_amo hm, h3, hd, ha, hb]
  simp only [decodeAmo, hf5, field, haq, hrl]
  cases dbl <;> exact (if_pos ⟨by decide, pair⟩).trans (checked_wf wf)

theorem decode32_encode32 {i : Instr} {w : BitVec 32} (wf : i.wf = true) (enc : encode32 i = some w) : decode32 w = .ok (.instr i.spelt) := by
  cases i
  case mand | mor | mxor | mandn | mnot | mmov | mset | mget | mcnt | mffs | mpush | minv | mpop =>
    obtain rfl := Option.some.inj enc
    exact decode32_packReg_mask.trans (checked_wf wf)
  case mbz =>
    obtain rfl := Option.some.inj enc
    exact decode32_mbz.trans (checked_wf wf)
  case mbnz =>
    obtain rfl := Option.some.inj enc
    exact decode32_mbnz.trans (checked_wf wf)
  case bbrd | bbwr | imv | iwr | hdone | kyield | kscrub | kctxSv | kctxLd =>
    obtain rfl := Option.some.inj enc
    exact decode32_packReg_custom1.trans (checked_wf wf)
  case barCfg | barArr | barWait | barSync | barTx | barTest =>
    obtain rfl := Option.some.inj enc
    exact decode32_packImm_bar.trans (checked_wf wf)
  case waitf =>
    obtain rfl := Option.some.inj enc
    exact decode32_packImm_waitf.trans (checked_wf wf)
  case kfence =>
    obtain rfl := Option.some.inj enc
    exact decode32_packImm_kfence.trans (checked_wf wf)
  case rollc =>
    obtain rfl := Option.some.inj enc
    exact decode32_packImm_rollc.trans (checked_wf wf)
  case msend | msendL | mnext | qpush | qpop | cprd | cpq | cpqNb | cpwm | cpcls | launch =>
    obtain rfl := Option.some.inj enc
    exact decode32_packReg_custom2.trans (checked_wf wf)
  case hpassArm | hpassStart | hpassStatus | hpassWait | hpassDisarm =>
    obtain rfl := Option.some.inj enc
    exact decode32_packReg_custom2.trans rfl
  case clause =>
    obtain rfl := Option.some.inj enc
    exact decode32_clauseWord.trans (checked_wf wf)
  case sfenceVma =>
    obtain rfl := Option.some.inj enc
    exact decode32_sfenceVma.trans (checked_wf wf)
  case fence =>
    obtain rfl := Option.some.inj enc
    exact decode32_fence
  case sret | mret | wfi | pause | fenceI =>
    obtain rfl := Option.some.inj enc
    rfl
  case kdomWrite | ktinvGo | krootWrite | kslabGo | kslabAbort | kpartWrite | kpownWrite | kpoolevRead | kbiasGo | kflagclrWrite | khctlWrite | kchqDepthWrite
      | kchqErrClear | kchringWrite | kqctlWrite | ksibctlHalt | ksibctlResume | ksibdataWrite | kpreDone | kcsaveSave | kcsaveRestore | ktqctlTailWrite
      | ktqctlRerrClear | ktkillGo | kflushGo | kkctlErase | kkctlDerive | kkctlUnwrap | kkctlRebind | kkctlQuery | khmctlWrite | khmdomWrite | khmrateWrite
      | pmpWrite =>
    obtain rfl := Option.some.inj enc
    exact decode32_packCsr ..
  case registerWrite r =>
    cases r with
    | csr num o =>
      obtain rfl := Option.some.inj enc
      exact decode32_packCsr ..
    | mmio pa v => cases enc
  case scalarLoad =>
    obtain rfl := Option.some.inj enc
    exact decode32_packLoad _
  case scalarStore =>
    obtain rfl := Option.some.inj enc
    exact decode32_packStore _
  case scalarAtomic =>
    obtain rfl := Option.some.inj enc
    exact decode32_packAmo wf
  all_goals cases enc

end

/-! ### Every encoded instruction -/

/-- A 32-bit word that decodes has a length field that names 32 bits (R181). -/
theorem length_of_decode32_ok {w : BitVec 32} {x : Decoded} (dec : decode32 w = .ok x) : bits32 w 6 0 % 4 = 3 ∧ bits32 w 6 0 / 4 % 8 ≠ 7 := by
  simp only [decode32] at dec
  split at dec
  case h_26 => cases dec
  all_goals
    rename_i major
    rw [major]
    decide

theorem decode_of_decode32_ok {w : BitVec 32} {x : Decoded} (dec : decode32 w = .ok x) : decode w.toNat = .ok (x, 4) := by
  obtain ⟨low, notAll⟩ := length_of_decode32_ok dec
  have field : bits32 w 6 0 = w.toNat % 128 := by simp [bits32]
  rw [decode_word32 w (by omega) (by omega), dec]
  rfl

/-- Settles O17: the 64-bit rows by the tables of group and opcode, the 32-bit rows by their layouts. -/
theorem encodeDecode : Obligations.EncodeDecode := by
  unfold Obligations.EncodeDecode
  intro i e wf enc
  unfold encode at enc
  split at enc
  next g op f fields =>
    obtain rfl := Option.some.inj enc
    rw [spelt_of_l64Fields fields]
    exact decode_l64 wf fields
  next =>
    obtain ⟨w, enc32, rfl⟩ := Option.map_eq_some_iff.mp enc
    exact decode_of_decode32_ok (decode32_encode32 wf enc32)

/-! ### Words of the spec -/

/-- Putting a 64-bit number into bytes and together again (R7). -/
theorem leNat_leBytes (n w : Nat) : leNat (leBytes n w) = w % 256 ^ n := by
  induction n generalizing w with
  | zero => simp [leBytes, leNat, Nat.mod_one]
  | succ n ih =>
    rw [leBytes, leNat, List.foldr_cons]
    change _ + 256 * leNat (leBytes n (w / 256)) = _
    rw [ih, BitVec.toNat_ofNat, pow_succ' 256 n, Nat.mod_mul]

/-- The word that an instruction is encoded as is decoded to it. -/
theorem decodeTableWord_of_encode {i : Instr} {n w : Nat} (wf : i.wf = true) (own : i.spelt = i)
    (enc : (encode i).map (fun e => (8 * e.size, e.bits)) = some (n, w)) : decodeTableWord n w = some i := by
  obtain ⟨e, word, same⟩ := Option.map_eq_some_iff.mp enc
  cases same
  have small : e.bits < 2 ^ (8 * e.size) := by cases e <;> exact BitVec.isLt _
  have fits : e.bits < 256 ^ 8 := by cases e <;> exact lt_of_lt_of_le (BitVec.isLt _) (by decide)
  rw [decodeTableWord, Nat.mod_eq_of_lt small, leNat_leBytes, Nat.mod_eq_of_lt fits, encodeDecode i e wf word]
  exact congrArg some own

theorem decode_error_of_length {w : Nat} (h : w % 128 = 0x1F ∨ w % 128 = 0x7F) : decode w = .error .length := by
  have none : lengthOf w = none := by
    unfold lengthOf
    rw [if_neg (by omega), if_neg (by omega), if_neg (by omega)]
  rw [decode, none]

/-- The fields that no L64 form lists: md = 111, or pm = 0 with pn = 1 (R188). -/
def L64.Barred (f : L64) : Prop := f.md = 7 ∨ f.pm = 0 ∧ f.pn = 1

section
variable {f : L64} {op : Nat} {i : Instr}

theorem L64.Barred.predOk (bad : f.Barred) (md : f.md ≠ 7) : f.predOk = false := by
  obtain ⟨pm, pn⟩ := bad.resolve_left md
  simp [L64.predOk, pm, pn]

theorem L64.Barred.noPred (bad : f.Barred) (md : f.md ≠ 7) : f.noPred = false := by
  obtain ⟨pm, pn⟩ := bad.resolve_left md
  simp [L64.noPred, pn]

/-! Each form checks md and the predicate. -/

theorem l64Int_barred (bad : f.Barred) (row : l64Int op f = some i) : i.wf = false := by
  unfold l64Int at row
  split at row
  all_goals cases row
  all_goals
    by_cases md : f.md = 7
    · simp [Instr.wf, L64.intTwo, L64.intThree, L64.intOne, L64.intShape, md]
    · simp [Instr.wf, L64.intTwo, L64.intThree, L64.intOne, L64.intShape, bad.predOk md]

theorem l64Fp_barred (bad : f.Barred) (row : l64Fp op f = some i) : i.wf = false := by
  unfold l64Fp at row
  split at row
  all_goals cases row
  all_goals
    by_cases md : f.md = 7
    · simp [Instr.wf, L64.fpOne, L64.fpTwo, L64.fpThree, L64.fpFun, L64.fpShape, L64.cvtOk, md]
    · simp [Instr.wf, L64.fpOne, L64.fpTwo, L64.fpThree, L64.fpFun, L64.fpShape, L64.cvtOk, bad.predOk md]

theorem l64Mem_barred (bad : f.Barred) (row : l64Mem op f = some i) : i.wf = false := by
  unfold l64Mem at row
  split at row
  all_goals cases row
  all_goals
    by_cases md : f.md = 7
    · simp [Instr.wf, L64.loadOk, L64.storeOk, L64.lineOk, L64.atomicOk, md]
    · simp [Instr.wf, L64.loadOk, L64.storeOk, L64.lineOk, L64.atomicOk, bad.predOk md]

theorem l64Cross_barred (bad : f.Barred) (row : l64Cross op f = some i) : i.wf = false := by
  unfold l64Cross at row
  split at row
  all_goals cases row
  all_goals
    by_cases md : f.md = 7
    · simp [Instr.wf, L64.lcmpOk, L64.lfcmpOk, L64.lshflOk, L64.lscanOk, L64.crossOk, L64.lredOk, md]
    · simp [Instr.wf, L64.lcmpOk, L64.lfcmpOk, L64.lshflOk, L64.lscanOk, L64.crossOk, L64.lredOk, bad.predOk md]

theorem l64Tile_barred (bad : f.Barred) (row : l64Tile op f = some i) : i.wf = false := by
  unfold l64Tile at row
  split at row
  all_goals cases row
  any_goals split
  any_goals split
  all_goals
    by_cases md : f.md = 7
    · simp [Instr.wf, L64.tileShape, L64.laneTile, L64.taccLane, L64.quizOk, md]
    · simp [Instr.wf, L64.tileShape, L64.laneTile, L64.taccLane, L64.quizOk, bad.predOk md, bad.noPred md]

theorem l64Instr_barred {g : Nat} (bad : f.Barred) (row : l64Instr g op f = some i) : i.wf = false := by
  unfold l64Instr at row
  split at row
  · exact l64Int_barred bad row
  · exact l64Fp_barred bad row
  · exact l64Mem_barred bad row
  · exact l64Cross_barred bad row
  · exact l64Tile_barred bad row
  · cases row

end

/-- A 64-bit word of a group that is not assigned, or with fields that no form lists, is no instruction. -/
theorem decodeL64_error {w : BitVec 64} (bad : 5 ≤ (w.extractLsb' 12 3).toNat ∨ (l64Of w).Barred) : ∃ e, decodeL64 w = .error e := by
  unfold decodeL64
  cases row : l64Instr (w.extractLsb' 12 3).toNat (w.extractLsb' 34 8).toNat (l64Of w) with
  | none => exact ⟨_, rfl⟩
  | some i =>
    obtain group | fields := bad
    · unfold l64Instr at row
      split at row
      case h_6 => cases row
      all_goals omega
    · exact ⟨_, if_neg (by simp [l64Instr_barred fields row])⟩

theorem decode_word64 {w : BitVec 64} (len : w.toNat % 128 = 0x3F) : decode w.toNat = (decodeL64 w).map fun i => (i, 8) := by
  have eight : lengthOf w.toNat = some 8 := by
    unfold lengthOf
    rw [if_neg (by omega), if_neg (by omega), if_pos len]
  rw [decode, eight]
  simp

/-- Settles O19: the words by O17, the reserved encodings by the checks of each group. -/
theorem decoding : Obligations.Decoding := by
  unfold Obligations.Decoding
  refine ⟨?_, fun w => decode_error_of_length, fun w len bad => ?_⟩
  · refine ⟨?_, ?_, ?_, ?_, ?_, ?_, ?_, ?_, ?_, ?_, ?_, ?_, ?_, ?_, ?_, ?_⟩
    all_goals exact decodeTableWord_of_encode (by decide) rfl (by decide)
  · obtain ⟨e, no⟩ := decodeL64_error (w := w) bad
    exact ⟨e, by rw [decode_word64 len, no]; rfl⟩

end Sys2Proof
end

section
/-!
PROOF. O25 and O26: what control instructions may not do (R177, R179, R196), flag waits and clauses (R193, R195, R198), and fences (R36, R58, R59, R121, R132).
-/
namespace Sys2Proof
open Machine

variable {s : State}

/-! ### Illegal instructions -/

theorem outsideClause_inside {k : State → Host.Outcome State Fault Refusal} (inside : s.me.inClause = true) : outsideClause k s = illegalNow s :=
  if_pos inside

theorem outsideClause_outside {k : State → Host.Outcome State Fault Refusal} (outside : s.me.inClause = false) : outsideClause k s = k s :=
  if_neg (by simp [outside])

/-- What is illegal outside a clause too is illegal everywhere. -/
theorem outsideClause_illegal {k : State → Host.Outcome State Fault Refusal} (illegal : k s = illegalNow s) : outsideClause k s = illegalNow s := by
  cases h : s.me.inClause
  · exact (outsideClause_outside h).trans illegal
  · exact outsideClause_inside h

theorem mret_traps (mode : s.me.priv ≠ .m) : Traps .mret s 2 s.me.ibits :=
  (exec_mret s).trans (outsideClause_illegal (if_pos mode))

theorem sret_traps (mode : s.me.priv = .u ∨ s.me.priv = .s ∧ bitOf s.me.csr.mstatus 22 = true) : Traps .sret s 2 s.me.ibits :=
  (exec_sret s).trans (outsideClause_illegal (if_pos mode))

theorem sfenceVma_traps {a b : BitVec 5} (mode : s.me.priv = .u ∨ s.me.priv = .s ∧ bitOf s.me.csr.mstatus 20 = true) :
    Traps (.sfenceVma a b) s 2 s.me.ibits :=
  (exec_sfenceVma a b s).trans (if_pos mode)

theorem wfi_traps (mode : s.me.priv ≠ .m) (tw : bitOf s.me.csr.mstatus 21 = true) : Traps .wfi s 2 s.me.ibits :=
  (exec_wfi s).trans (outsideClause_illegal (if_pos ⟨mode, tw⟩))

theorem maskBranch_inside {taken : Bool} {off : BitVec 12} (inside : s.me.inClause = true) : maskBranch taken off s = illegalNow s :=
  outsideClause_inside inside

/-- The rows that a clause must not contain (R196). -/
theorem barred_traps (inside : s.me.inClause = true) {i : Instr} (barred : i = .mret ∨ i = .sret ∨ i = .wfi ∨ i = .hdone ∨
    (∃ fb fa w n, i = .clause fb fa w n) ∨ ∃ k o, i = .mbz k o ∨ i = .mbnz k o) : Traps i s 2 s.me.ibits := by
  obtain rfl | rfl | rfl | rfl | ⟨_, _, _, _, rfl⟩ | ⟨_, _, rfl | rfl⟩ := barred
  · exact (exec_mret s).trans (outsideClause_inside inside)
  · exact (exec_sret s).trans (outsideClause_inside inside)
  · exact (exec_wfi s).trans (outsideClause_inside inside)
  · exact (exec_hdone s).trans (outsideClause_inside inside)
  · exact (exec_clause ..).trans (outsideClause_inside inside)
  · exact (exec_mbz ..).trans (maskBranch_inside inside)
  · exact (exec_mbnz ..).trans (maskBranch_inside inside)

theorem execBase_ecall (outside : s.me.inClause = false) :
    execBase .ecall s = .next (takeTrap s s.cur false (match s.me.priv with | .u => 8 | .s => 9 | .m => 11) 0) := by
  rw [execBase, outsideClause_outside outside]
  cases s.me.priv <;> rfl

theorem execBase_ebreak (outside : s.me.inClause = false) : execBase .ebreak s = .next (takeTrap s s.cur false 3 s.me.pc) := by
  rw [execBase, outsideClause_outside outside]

theorem execBase_calls_inside (inside : s.me.inClause = true) : execBase .ecall s = illegalNow s ∧ execBase .ebreak s = illegalNow s := by
  rw [execBase, execBase, outsideClause_inside inside, outsideClause_inside inside]
  exact ⟨rfl, rfl⟩

/-- Settles O25, form by form. -/
theorem controlTraps : Obligations.ControlTraps := by
  unfold Obligations.ControlTraps
  intro s a b
  exact ⟨mret_traps, sret_traps, sfenceVma_traps, wfi_traps, fun inside _ => barred_traps inside,
    execBase_calls_inside, fun outside => ⟨execBase_ecall outside, execBase_ebreak outside⟩⟩

/-! ### Flags -/

theorem mem_flagsIn {m : BitVec 12} {k : Nat} : k ∈ flagsIn m ↔ k < 12 ∧ m.getLsbD k = true := by
  simp [flagsIn]

section
variable {m : BitVec 12} (clean : ∀ x ∈ s.me.faults, ¬ (x.target < 12 ∧ m.getLsbD x.target = true))
include clean

theorem meetFaults_clean : meetFaults (flagsIn m) s = .ok ((), s) := by
  have none : s.me.faults.find? (fun x => (flagsIn m).contains x.target) = none := by
    simpa [List.find?_eq_none, mem_flagsIn] using clean
  rw [meetFaults, none]

theorem waitFlags_clear (clear : ∀ k < 12, m.getLsbD k = true → s.me.getCf k = 0) : waitFlags m s = .ok ((), s) := by
  have idle : (flagsIn m).any (fun k => s.me.getCf k != 0) = false := by
    simpa [List.any_eq_false, mem_flagsIn] using clear
  rw [waitFlags, bind_ok (meetFaults_clean clean), if_neg (by simp [idle])]

theorem waitFlags_busy (busy : ∃ k < 12, m.getLsbD k = true ∧ s.me.getCf k ≠ 0) :
    waitFlags m s = .error (s.setHart s.cur { s.me with wait := .stall }) := by
  obtain ⟨k, low, named, count⟩ := busy
  have some : (flagsIn m).any (fun k => s.me.getCf k != 0) = true := List.any_eq_true.2 ⟨k, mem_flagsIn.2 ⟨low, named⟩, by simpa using count⟩
  rw [waitFlags, bind_ok (meetFaults_clean clean), if_pos some]
  rfl

theorem waitf_clear (clear : ∀ k < 12, m.getLsbD k = true → s.me.getCf k = 0) : Becomes (.waitf m) s s.me.done :=
  becomes_of_exec ((exec_waitf m s).trans (finish_ok (bind_ok (waitFlags_clear clean clear))))

theorem waitf_busy (busy : ∃ k < 12, m.getLsbD k = true ∧ s.me.getCf k ≠ 0) : Becomes (.waitf m) s { s.me with wait := .stall } :=
  becomes_of_exec ((exec_waitf m s).trans (finish_error (bind_error (waitFlags_busy clean busy))))

theorem clause_clear {fb fa : BitVec 4} {len : BitVec 5} (clear : ∀ k < 12, m.getLsbD k = true → s.me.getCf k = 0)
    (outside : s.me.inClause = false) :
    Becomes (.clause fb fa m len) s { s.me.done with clause := { rem := len.toNat + 1, fa := fa, fb := fb } } := by
  refine becomes_of_exec (((exec_clause fb fa m len s).trans (outsideClause_outside outside)).trans (finish_ok ((bind_ok (waitFlags_clear clean clear)).trans ?_)))
  exact congrArg (fun t => Except.ok ((), t)) (State.modMe_modMe ..)

theorem clause_busy {fb fa : BitVec 4} {len : BitVec 5} (busy : ∃ k < 12, m.getLsbD k = true ∧ s.me.getCf k ≠ 0)
    (outside : s.me.inClause = false) : Becomes (.clause fb fa m len) s { s.me with wait := .stall } :=
  becomes_of_exec (((exec_clause fb fa m len s).trans (outsideClause_outside outside)).trans
    (finish_error (bind_error (waitFlags_busy clean busy))))

end

/-! ### Fences -/

/-- A fence that leaves the lane set out moves caches and nothing else. -/
theorem coreFence_moves (s : State) (c scope : Nat) : CacheMoves s (coreFence s c scope false) := by
  unfold coreFence
  refine (coreRelease_moves s c scope).trans ?_
  dsimp only
  rw [if_neg (by decide)]
  split
  · exact kFlush_moves ..
  · exact .refl _

/-- A fence changes no hart and no byte of memory outside the peer windows. -/
theorem coreFence_keeps (s : State) (c scope : Nat) (lane : Bool) :
    HomeMemory s (coreFence s c scope lane) ∧ (coreFence s c scope lane).harts = s.harts ∧ (coreFence s c scope lane).cur = s.cur := by
  cases lane
  · obtain ⟨home, -⟩ := coreFence_moves s c scope
    obtain ⟨harts, -, -, cur⟩ := (coreFence_moves s c scope).harts
    exact ⟨home, harts, cur⟩
  · obtain ⟨home, -⟩ := coreRelease_moves s c scope
    obtain ⟨harts, -, -, cur⟩ := (coreRelease_moves s c scope).harts
    obtain ⟨home', -, harts', -, cur'⟩ := coreAcquire_keeps (coreRelease s c scope) c scope
    exact ⟨fun a ha => (home' a ha).trans (home a ha), harts'.trans harts, cur'.trans cur⟩

theorem coreRelease_narrow {scope : Nat} (narrow : scope ≠ 5) (c : Nat) : coreRelease s c scope = s := if_neg narrow

/-- Below the widest scope a fence only empties the L1, where it has the lane set. -/
theorem coreFence_narrow {scope : Nat} (narrow : scope ≠ 5) (c : Nat) (lane : Bool) :
    coreFence s c scope lane = if lane = true ∧ 2 ≤ scope then l1Clear s c else s := by
  rw [coreFence, coreRelease_narrow narrow, coreAcquire]
  cases lane <;> simp [narrow]

/-- A hart's fence that completes, by what it leaves. -/
theorem retire_spec {t : State} (home : HomeMemory s t) (harts : t.harts = s.harts) (cur : t.cur = s.cur) :
    (retire t).me = s.me.done ∧ (∀ h, h ≠ s.cur → (retire t).hart h = s.hart h) ∧ HomeMemory s (retire t) := by
  have hart := State.hart_of_harts harts
  refine ⟨?_, fun h other => ?_, home⟩
  · rw [me_retire, State.me, cur, hart]
    rfl
  · rw [hart_retire, if_neg (cur ▸ other), hart]

theorem fence_spec (s : State) (fm pred succ : BitVec 4) (a d : BitVec 5) :
    ∃ t, Runs (.fence fm pred succ a d) s t ∧ (pred ≠ 0 → succ ≠ 0 → t = retire (coreFence s (coreOf s.cur) 5 false)) ∧ t.me = s.me.done ∧
      (∀ h, h ≠ s.cur → t.hart h = s.hart h) ∧ HomeMemory s t ∧ t.myCore.l1 = s.myCore.l1 := by
  by_cases hint : pred = 0 ∨ succ = 0
  · obtain ⟨me, others, home⟩ := retire_spec (s := s) (t := s) (fun _ _ => rfl) rfl rfl
    exact ⟨_, (exec_fence ..).trans (congrArg (fun t => Host.Outcome.next (retire t)) (if_pos hint)),
      fun some some' => (hint.elim some some').elim, me, others, home, rfl⟩
  · obtain ⟨home, harts, cur⟩ := coreFence_keeps s (coreOf s.cur) 5 false
    obtain ⟨me, others, home⟩ := retire_spec home harts cur
    refine ⟨_, (exec_fence ..).trans (congrArg (fun t => Host.Outcome.next (retire t)) (if_neg hint)), fun _ _ => rfl, me, others, home, ?_⟩
    rw [myCore_retire, State.myCore, State.myCore, cur]
    exact congrArg Core.l1 (State.core_of_cores (coreFence_moves ..).harts.2.1 _)

theorem fence_hint {fm pred succ : BitVec 4} {a d : BitVec 5} (hint : pred = 0 ∨ succ = 0) : Becomes (.fence fm pred succ a d) s s.me.done :=
  becomes_of_exec ((exec_fence ..).trans (congrArg (fun t => Host.Outcome.next (retire t)) (if_pos hint)))

theorem kfence_busy {k : BitVec 4} {sc : BitVec 3} (engine : k.getLsbD 3 = true) (busy : copiesOpen s s.cur = true) :
    Becomes (.kfence k sc) s { s.me with wait := .stall } :=
  becomes_of_exec ((exec_kfence k sc s).trans (finish_error (bind_error (if_pos (by simp [engine, busy])))))

theorem exec_kfence_idle {k : BitVec 4} (sc : BitVec 3) (idle : k.getLsbD 3 = false ∨ copiesOpen s s.cur = false) :
    exec (.kfence k sc) s = .next (retire (if k = 0 then s else coreFence s (coreOf s.cur) sc.toNat (k.getLsbD 1))) :=
  (exec_kfence k sc s).trans (finish_ok (bind_ok (if_neg (by simpa [imp_iff_not_or] using idle))))

theorem kfence_spec {k : BitVec 4} (sc : BitVec 3) (idle : k.getLsbD 3 = false ∨ copiesOpen s s.cur = false) :
    ∃ t, Runs (.kfence k sc) s t ∧ t.me = s.me.done ∧ (∀ h, h ≠ s.cur → t.hart h = s.hart h) ∧ HomeMemory s t ∧
      (k = 0 → t = retire s) ∧ (k ≠ 0 → sc = 5 → t = retire (coreFence s (coreOf s.cur) 5 (k.getLsbD 1))) ∧
      (k.getLsbD 1 = true → 2 ≤ sc.toNat → t.myCore.l1 = []) ∧
      (sc ≠ 5 → t = retire (if k.getLsbD 1 = true ∧ 2 ≤ sc.toNat then s.modMyCore fun c => { c with l1 := [] } else s)) := by
  by_cases empty : k = 0
  · subst empty
    obtain ⟨me, others, home⟩ := retire_spec (s := s) (t := s) (fun _ _ => rfl) rfl rfl
    exact ⟨_, exec_kfence_idle sc idle, me, others, home, fun _ => rfl, fun h => absurd rfl h, fun h => absurd h (by decide),
      fun _ => congrArg retire (if_neg (by simp)).symm⟩
  · have runs := exec_kfence_idle sc idle
    rw [if_neg empty] at runs
    obtain ⟨home, harts, cur⟩ := coreFence_keeps s (coreOf s.cur) sc.toNat (k.getLsbD 1)
    obtain ⟨me, others, home⟩ := retire_spec home harts cur
    refine ⟨_, runs, me, others, home, fun h => absurd h empty, fun _ wide => by rw [wide]; rfl, fun lane wide => ?_, fun narrow => ?_⟩
    · rw [myCore_retire, State.myCore, cur, coreFence, lane]
      exact coreAcquire_l1 _ _ wide
    · exact congrArg retire (coreFence_narrow (fun h => narrow (BitVec.eq_of_toNat_eq h)) ..)

theorem exec_sfenceVma_legal {a b : BitVec 5} (legal : s.me.priv = .m ∨ s.me.priv = .s ∧ bitOf s.me.csr.mstatus 20 = false) :
    ∃ l, Runs (.sfenceVma a b) s (retire (s.modMyCore fun c => { c with plb := l })) ∧
      (a = 0 → l = []) ∧ (a ≠ 0 → ∀ e, e ∈ l ↔ e ∈ s.myCore.plb ∧ e.covers e.fn (s.me.getX a.toNat) = false) := by
  refine ⟨_, (exec_sfenceVma a b s).trans (if_neg ?_), fun zero => if_pos zero, fun some e => ?_⟩
  · rintro (u | ⟨m, tvm⟩)
    · simp [u] at legal
    · simp [m, tvm] at legal
  · rw [if_neg some]
    rw [List.mem_filter, PageEntry.covers, beq_self_eq_true, Bool.true_and, Bool.not_eq_true']
    rfl

/-- Settles O26: flags and clauses by the counters, each fence by its sets and its scope. -/
theorem flagsAndFences : Obligations.FlagsAndFences := by
  unfold Obligations.FlagsAndFences
  refine ⟨fun s fb fa m len clean => ⟨fun clear => ⟨waitf_clear clean clear, clause_clear clean clear⟩,
    fun busy => ⟨waitf_busy clean busy, clause_busy clean busy⟩⟩, fun s k sc fm pred succ a b d => ?_⟩
  exact ⟨fence_hint, fence_spec .., kfence_busy, kfence_spec sc, exec_fenceI s, exec_sfenceVma_legal⟩

end Sys2Proof
end

section
/-!
PROOF. O48, Zicsr accesses: legality, the read, and a write that takes effect or waits (R204, R177, R8).
-/
namespace Sys2Proof
open Machine

variable {s : State} {n : Nat} {o : CsrOp} {i : Instr}

/-! ### The Zicsr rows -/

/-- Every Zicsr row is the access of its register (R204, R205). -/
theorem exec_csrForms {num : BitVec 12} (row : (i, n) ∈ csrForms num o) : exec i s = csrInstr n o s := by
  have rows : ∀ p ∈ csrForms num o, exec p.1 s = csrInstr p.2 o s := by
    simp only [csrForms, List.forall_mem_cons, List.not_mem_nil, false_imp_iff, implies_true, and_true]
    and_intros
    all_goals rfl
  exact rows _ row

theorem csrWrites_iff : csrWrites o = true ↔ o.kind = .rw ∨ o.src ≠ 0 := by simp [csrWrites]

theorem csrReads_iff : csrReads o = true ↔ o.kind ≠ .rw ∨ o.rd ≠ 0 := by simp [csrReads]

theorem csrLegal_iff {x : Hart} :
    csrLegal x n o = true ↔ n / 256 % 4 ≤ x.priv.code ∧ ¬ (n / 1024 = 3 ∧ (o.kind = .rw ∨ o.src ≠ 0)) ∧ csrOpen x n = true := by
  rw [← csrWrites_iff]
  simp [csrLegal, and_assoc, imp_iff_not_or]

/-- The side of a read is `kpoolev`'s, of an access that reads (R103). -/
theorem afterRead_eq (s : State) (h n : Nat) (o : CsrOp) :
    afterRead s h n o = if n = 0x5CD ∧ (o.kind ≠ .rw ∨ o.rd ≠ 0) then (kpoolevRead s (dieOfCore (coreOf h))).2 else s := by
  simp only [afterRead, csrReads_iff]

theorem afterRead_dies (s : State) (h n : Nat) (o : CsrOp) : ∃ ds, afterRead s h n o = { s with dies := ds } := by
  unfold afterRead kpoolevRead
  split
  · split
    · exact ⟨_, rfl⟩
    · exact ⟨_, rfl⟩
  · exact ⟨_, rfl⟩

theorem harts_afterRead (s : State) (h n : Nat) (o : CsrOp) : (afterRead s h n o).harts = s.harts := by
  obtain ⟨ds, e⟩ := afterRead_dies s h n o
  rw [e]

theorem cur_afterRead (s : State) (h n : Nat) (o : CsrOp) : (afterRead s h n o).cur = s.cur := by
  obtain ⟨ds, e⟩ := afterRead_dies s h n o
  rw [e]

theorem mem_afterRead (s : State) (h n : Nat) (o : CsrOp) : (afterRead s h n o).mem = s.mem := by
  obtain ⟨ds, e⟩ := afterRead_dies s h n o
  rw [e]

/-- The state in which the write of a Zicsr instruction takes effect: the old value is read and the instruction retired. -/
def readDone (s : State) (n : Nat) (o : CsrOp) (old : Word) : State :=
  (afterRead s s.cur n o).setHart s.cur (s.me.setX o.rd.toNat old).done

theorem readDone_eq (s : State) (n : Nat) (o : CsrOp) (old : Word) :
    retire ((afterRead s s.cur n o).modMe fun x => x.setX o.rd.toNat old) = readDone s n o old := by
  unfold retire
  rw [State.modMe_modMe, State.modMe, cur_afterRead, State.modHart]
  show State.setHart _ _ ((((afterRead s s.cur n o).hart s.cur).setX o.rd.toNat old).done) = _
  have me : (afterRead s s.cur n o).hart s.cur = s.me := by
    rw [State.hart, harts_afterRead]
    rfl
  rw [me]
  rfl

theorem readDone_hart (s : State) (n : Nat) (o : CsrOp) (old : Word) : (readDone s n o old).hart s.cur = (s.me.setX o.rd.toNat old).done :=
  State.hart_setHart_self ..

/-- A legal access retires, and its write takes effect or waits with nothing done (R204). -/
theorem csrInstr_outcome {old : Word} (legal : csrLegal s.me n o = true) (read : csrRead s s.cur n = some old) :
    (csrWrites o = false → csrInstr n o s = .next (readDone s n o old)) ∧
    (csrWrites o = true → ∀ w, csrWrite (readDone s n o old) s.cur n (csrNew o old (csrSource s.me o)) = .ok w → csrInstr n o s = .next w) ∧
    (csrWrites o = true → ∀ f, csrWrite (readDone s n o old) s.cur n (csrNew o old (csrSource s.me o)) = .wait f →
      csrInstr n o s = .next (f (s.setHart s.cur { s.me with wait := .stall }))) := by
  have run := csrInstr_legal legal read
  simp only [readDone_eq] at run
  refine ⟨fun no => ?_, fun yes w put => ?_, fun yes f put => ?_⟩
  · simpa [no] using run
  · simpa [yes, put] using run
  · simp only [yes, put] at run
    exact run

/-! ### Writes that wait -/

/-- What waits is a GO of a register that may be busy, and it does nothing, but at `kbias` joins the writers that wait for their turn (R134). -/
def WaitsIdle (fn n : Nat) (v : Word) : RegOut → Prop
  | .ok _ => True
  | .wait f => bitOf v 63 = true ∧ n ∈ [0x5C2, 0x5C8, 0x5CE, 0x9C9, 0x9E8, 0x7C1] ∧
      ∀ w, f w = w ∨ n = 0x5CE ∧ ∃ ws, f w = w.modFunc fn fun y => { y with kbiasWait := ws }

variable {fn k c who h : Nat} {v : Word} {r : RegOut}

theorem WaitsIdle.ok_of (idle : WaitsIdle fn n v r) (no : n ∉ [0x5C2, 0x5C8, 0x5CE, 0x9C9, 0x9E8, 0x7C1] ∨ bitOf v 63 = false) : ∃ t, r = .ok t := by
  cases r with
  | ok t => exact ⟨t, rfl⟩
  | wait f =>
    obtain ⟨go, num, -⟩ := idle
    rcases no with no | no
    · exact absurd num no
    · exact absurd go (by simp [no])

theorem WaitsIdle.guard {b : Bool} (num : n ∈ [0x5C2, 0x5C8, 0x5CE, 0x9C9, 0x9E8, 0x7C1]) (rest : WaitsIdle fn n v r) :
    WaitsIdle fn n v (if bitOf v 63 && b then .wait else r) := by
  split
  case isTrue busy => exact ⟨(Bool.and_eq_true_iff.mp busy).1, num, fun _ => .inl rfl⟩
  case isFalse => exact rest

theorem waitsIdle_ktinv : WaitsIdle fn 0x5C2 v (ktinvWrite s fn v) := .guard (by decide) trivial

theorem waitsIdle_kslab : WaitsIdle fn 0x5C8 v (kslabWrite s k v) := .guard (by decide) trivial

theorem waitsIdle_kbias : WaitsIdle fn 0x5CE v (kbiasWrite s fn who v) := by
  unfold kbiasWrite
  dsimp only
  split
  · exact trivial
  · split
    case isTrue busy => exact ⟨(Bool.and_eq_true_iff.mp busy).1, by decide, fun _ => .inr ⟨rfl, _, rfl⟩⟩
    case isFalse =>
      split
      · exact trivial
      · split
        · exact trivial
        · split
          · exact trivial
          · exact trivial

theorem waitsIdle_ktkill : WaitsIdle fn 0x9E8 v (ktkillWrite s fn v) := by
  refine .guard (by decide) ?_
  dsimp only
  split
  · exact trivial
  · split
    · exact trivial
    · exact trivial

theorem waitsIdle_kflush : WaitsIdle fn 0x7C1 v (kflushWrite s c v) := by
  unfold kflushWrite
  split
  · exact trivial
  case isFalse go =>
    split
    · exact ⟨by simpa using go, by decide, fun _ => .inl rfl⟩
    · exact trivial

theorem customWrite_waitsIdle : WaitsIdle (s.hart h).fn n v (customWrite s h n v) := by
  unfold customWrite
  dsimp only
  split
  case h_4 => exact waitsIdle_ktinv
  case h_6 => exact waitsIdle_kslab
  case h_11 => exact waitsIdle_kbias
  case h_30 => exact .guard (by decide) trivial
  case h_35 => exact waitsIdle_ktkill
  case h_37 => exact waitsIdle_kflush
  case h_46 =>
    split
    · exact trivial
    · split
      · exact trivial
      · split
        · exact trivial
        · exact trivial
  all_goals exact trivial

theorem csrWrite_waitsIdle : WaitsIdle (s.hart h).fn n v (csrWrite s h n v) := by
  unfold csrWrite
  split
  · exact customWrite_waitsIdle
  · exact trivial

variable {old : Word}

theorem csrWrite_ok (prompt : n ∉ [0x5C2, 0x5C8, 0x5CE, 0x9C9, 0x9E8, 0x7C1] ∨ bitOf v 63 = false) : ∃ t, csrWrite s h n v = .ok t :=
  csrWrite_waitsIdle.ok_of prompt

theorem readDone_xReg : XReg s.me (readDone s n o old).me o.rd.toNat old := by
  have me : (readDone s n o old).me = (s.me.setX o.rd.toNat old).done := by
    rw [State.me]
    exact (congrArg _ (cur_afterRead ..)).trans (readDone_hart ..)
  intro m
  rw [me]
  exact Hart.getX_setX ..

theorem readDone_memory : SameMemory s (readDone s n o old) := fun a => congrArg (SMap.get 0 · a) (mem_afterRead s s.cur n o)

/-- A Zicsr access that the hart may not make, or of a number without a register, is illegal (R204, R177). -/
theorem csrForms_trap {num : BitVec 12} (row : (i, n) ∈ csrForms num o) (bad : csrLegal s.me n o = false ∨ csrRead s s.cur n = none) :
    Traps i s 2 s.me.ibits := (exec_csrForms row).trans (csrInstr_illegal bad)

/-- A legal Zicsr access (R204). -/
theorem csrForms_legal {num : BitVec 12} (row : (i, n) ∈ csrForms num o) (legal : csrLegal s.me n o = true) (read : csrRead s s.cur n = some old) :
    let v := csrNew o old (csrSource s.me o)
    let t := readDone s n o old
    (csrWrites o = false → Runs i s t ∧ SameMemory s t ∧ XReg s.me t.me o.rd.toNat old) ∧
    (csrWrites o = true → ∀ w, csrWrite t s.cur n v = .ok w → Runs i s w) ∧
    (csrWrites o = true → ∀ f, csrWrite t s.cur n v = .wait f → Runs i s (f (s.setHart s.cur { s.me with wait := .stall })) ∧
      ∀ w, f w = w ∨ n = 0x5CE ∧ ∃ ws, f w = w.modFunc s.me.fn fun y => { y with kbiasWait := ws }) := by
  obtain ⟨reads, puts, waits⟩ := csrInstr_outcome legal read
  have fn : ((readDone s n o old).hart s.cur).fn = s.me.fn := by simp [readDone_hart]
  refine ⟨fun no => ⟨(exec_csrForms row).trans (reads no), readDone_memory, readDone_xReg⟩,
    fun yes w put => (exec_csrForms row).trans (puts yes w put),
    fun yes f put => ⟨(exec_csrForms row).trans (waits yes f put), fun w => ?_⟩⟩
  have idle := csrWrite_waitsIdle (s := readDone s n o old) (h := s.cur) (n := n) (v := csrNew o old (csrSource s.me o))
  rw [put, fn] at idle
  obtain ⟨-, -, idle⟩ := idle
  exact idle w

/-- A write of the host to the MMIO range acts on the register there (R8, R402). -/
theorem registerWrite_mmio {pa : Nat} (range : 15 * 2 ^ 48 ≤ pa) (aligned : pa % 8 = 0) :
    (∀ t, mmioWrite s {} pa v = .ok t → Runs (.registerWrite (.mmio pa v)) s t) ∧
    (∀ f, mmioWrite s {} pa v = .wait f →
      Runs (.registerWrite (.mmio pa v)) s { f s with agenda := s.agenda ++ [.event (.registerWrite (.mmio pa v)) s.ev] }) := by
  have inside : ¬ (pa < 15 * 2 ^ 48 ∨ pa % 8 ≠ 0) := by omega
  have run : exec (.registerWrite (.mmio pa v)) s = match mmioWrite s {} pa v with
      | .ok t => .next t
      | .wait f => .next { f s with agenda := s.agenda ++ [.event (.registerWrite (.mmio pa v)) s.ev] } := by
    rw [exec_registerWrite]
    exact if_neg inside
  refine ⟨fun t put => ?_, fun f put => ?_⟩
  · rw [put] at run
    exact run
  · rw [put] at run
    exact run

theorem zicsr_accesses (s : State) (num : BitVec 12) (o : CsrOp) (i : Instr) (n : Nat) (row : (i, n) ∈ csrForms num o) :
     let x := s.me
     let src := if o.imm then word o.src.toNat else x.getX o.src.toNat
     let writes := o.kind = .rw ∨ o.src ≠ 0
     let legal := n / 256 % 4 ≤ x.priv.code ∧ ¬ (n / 1024 = 3 ∧ writes) ∧ csrOpen x n = true
     (¬ legal ∨ csrRead s s.cur n = none → Traps i s 2 x.ibits) ∧
     ∀ old, legal → csrRead s s.cur n = some old →
       let v := match o.kind with
         | .rw => src
         | .rs => old ||| src
         | .rc => old &&& ~~~src
       let u := if n = 0x5CD ∧ (o.kind ≠ .rw ∨ o.rd ≠ 0) then (kpoolevRead s (dieOfCore (coreOf s.cur))).2 else s
       let t := u.setHart s.cur (x.setX o.rd.toNat old).done
       (¬ writes → Runs i s t ∧ SameMemory s t ∧ XReg x t.me o.rd.toNat old) ∧
       (writes → ∀ w, csrWrite t s.cur n v = .ok w → Runs i s w) ∧
       (writes → ∀ f, csrWrite t s.cur n v = .wait f → Runs i s (f (s.setHart s.cur { x with wait := .stall })) ∧
         ∀ w, f w = w ∨ n = 0x5CE ∧ ∃ ws, f w = w.modFunc x.fn fun y => { y with kbiasWait := ws }) := by
  intro x src writes legal
  refine ⟨fun bad => csrForms_trap row (bad.imp_left fun no => ?_), fun old ok read => ?_⟩
  · exact Bool.eq_false_iff.mpr fun yes => no (csrLegal_iff.mp yes)
  · have main := csrForms_legal row (csrLegal_iff.mpr ok) read
    simp only [csrWrites_iff, ← Bool.not_eq_true] at main
    rw [← afterRead_eq]
    exact main

end Sys2Proof
end

section
/-!
PROOF. O48, fields of words, and the custom CSRs that hold what is written under a mask (R178, R205).
-/
namespace Sys2Proof
open Machine

variable {s t : State} {n h : Nat} {v : Word}

/-! ### Fields of words -/

theorem getLsbD_word (n i : Nat) : (word n).getLsbD i = (decide (i < 64) && n.testBit i) := BitVec.getLsbD_ofNat ..

theorem testBit_fld (w : Word) (lo n i : Nat) : (fld w lo n).testBit i = (decide (i < n) && w.getLsbD (lo + i)) := by
  rw [fld, Nat.testBit_mod_two_pow, Nat.testBit_div_two_pow, Nat.add_comm]
  rfl

theorem fld_lt (w : Word) (lo n : Nat) : fld w lo n < 2 ^ n := Nat.mod_lt _ (by positivity)

theorem mul_add_lt_mul_of_lt {a b q r : Nat} (hr : r < b) (ha : a < q) : b * a + r < b * q :=
  calc b * a + r < b * (a + 1) := by rw [Nat.mul_succ]; omega
    _ ≤ b * q := Nat.mul_le_mul_left b ha

theorem toNat_setFld (w : Word) {lo n : Nat} (x : Nat) (inside : lo + n ≤ 64) :
    (setFld w lo n x).toNat = 2 ^ lo * (2 ^ n * (w.toNat / 2 ^ lo / 2 ^ n) + x % 2 ^ n) + w.toNat % 2 ^ lo := by
  have upper := Nat.div_add_mod w.toNat (2 ^ lo)
  have fields := Nat.div_add_mod (w.toNat / 2 ^ lo) (2 ^ n)
  have rest : w.toNat - fld w lo n * 2 ^ lo + x % 2 ^ n * 2 ^ lo =
      2 ^ lo * (2 ^ n * (w.toNat / 2 ^ lo / 2 ^ n) + x % 2 ^ n) + w.toNat % 2 ^ lo := by
    have whole : w.toNat = 2 ^ lo * (2 ^ n * (w.toNat / 2 ^ lo / 2 ^ n)) + fld w lo n * 2 ^ lo + w.toNat % 2 ^ lo := by
      rw [fld]
      calc w.toNat = 2 ^ lo * (2 ^ n * (w.toNat / 2 ^ lo / 2 ^ n) + w.toNat / 2 ^ lo % 2 ^ n) + w.toNat % 2 ^ lo := by rw [fields, upper]
        _ = _ := by ring
    have split : 2 ^ lo * (2 ^ n * (w.toNat / 2 ^ lo / 2 ^ n) + x % 2 ^ n) =
      2 ^ lo * (2 ^ n * (w.toNat / 2 ^ lo / 2 ^ n)) + x % 2 ^ n * 2 ^ lo := by ring
    omega
  have small : 2 ^ lo * (2 ^ n * (w.toNat / 2 ^ lo / 2 ^ n) + x % 2 ^ n) + w.toNat % 2 ^ lo < 2 ^ 64 := by
    have top : w.toNat / 2 ^ lo / 2 ^ n < 2 ^ (64 - lo - n) := by
      rw [Nat.div_div_eq_div_mul]
      refine Nat.div_lt_of_lt_mul ?_
      rw [← pow_add, ← pow_add, show lo + n + (64 - lo - n) = 64 by omega]
      exact w.isLt
    have inner := mul_add_lt_mul_of_lt (Nat.mod_lt x (by positivity : 0 < 2 ^ n)) top
    rw [← pow_add, show n + (64 - lo - n) = 64 - lo by omega] at inner
    have outer := mul_add_lt_mul_of_lt (Nat.mod_lt w.toNat (by positivity : 0 < 2 ^ lo)) inner
    rwa [← pow_add, show lo + (64 - lo) = 64 by omega] at outer
  rw [setFld, BitVec.toNat_ofNat, rest, Nat.mod_eq_of_lt small]

theorem bitOf_setFld (w : Word) {lo n : Nat} (x : Nat) (i : Nat) (inside : lo + n ≤ 64) :
    bitOf (setFld w lo n x) i = if lo ≤ i ∧ i < lo + n then x.testBit (i - lo) else bitOf w i := by
  have low : w.toNat % 2 ^ lo < 2 ^ lo := Nat.mod_lt _ (by positivity)
  have mid : x % 2 ^ n < 2 ^ n := Nat.mod_lt _ (by positivity)
  rw [bitOf, BitVec.getLsbD, toNat_setFld w x inside, Nat.testBit_two_pow_mul_add _ low, Nat.testBit_two_pow_mul_add _ mid]
  simp only [Nat.testBit_mod_two_pow, Nat.testBit_div_two_pow, bitOf, BitVec.getLsbD]
  by_cases hl : i < lo
  · have : ¬ (lo ≤ i ∧ i < lo + n) := by omega
    simp [hl, this]
  · by_cases hn : i - lo < n
    · have : lo ≤ i ∧ i < lo + n := by omega
      simp [hl, hn, this]
    · have : ¬ (lo ≤ i ∧ i < lo + n) := by omega
      have place' : i - lo - n + n + lo = i := by omega
      simp [hl, hn, this, place']

theorem bitOf_of_ge (w : Word) {i : Nat} (hi : 64 ≤ i) : bitOf w i = false := BitVec.getLsbD_of_ge w i hi

theorem bitOf_and (a b : Word) (i : Nat) : bitOf (a &&& b) i = (bitOf a i && bitOf b i) := BitVec.getLsbD_and

theorem bitOf_or (a b : Word) (i : Nat) : bitOf (a ||| b) i = (bitOf a i || bitOf b i) := BitVec.getLsbD_or

theorem bitOf_under (mask old v : Word) (i : Nat) : bitOf (under mask old v) i = if bitOf mask i then bitOf v i else bitOf old i := by
  by_cases hi : i < 64
  · have not_ : bitOf (~~~mask) i = !bitOf mask i := by simp [bitOf, hi]
    rw [under, bitOf_or, bitOf_and, bitOf_and, not_]
    cases bitOf mask i
    · simp
    · simp
  · simp [bitOf_of_ge _ (Nat.le_of_not_lt hi)]

/-- The low bits of a word under a mask, read back as a word. -/
theorem word_extract_and {k : Nat} (v : Word) (m : BitVec k) (fits : k ≤ 64) : word (v.extractLsb' 0 k &&& m).toNat = v &&& m.setWidth 64 := by
  have small : 2 ^ k ≤ 2 ^ 64 := Nat.pow_le_pow_right (by decide) fits
  apply BitVec.eq_of_toNat_eq
  have lt := (v.extractLsb' 0 k &&& m).isLt
  have mlt := m.isLt
  rw [word, BitVec.toNat_ofNat, Nat.mod_eq_of_lt (by omega), BitVec.toNat_and, BitVec.toNat_and, BitVec.toNat_setWidth,
    Nat.mod_eq_of_lt (a := m.toNat) (by omega), BitVec.extractLsb'_toNat, Nat.shiftRight_zero]
  apply Nat.eq_of_testBit_eq
  intro i
  rw [Nat.testBit_and, Nat.testBit_and, Nat.testBit_mod_two_pow]
  by_cases hi : i < k
  · simp [hi]
  · have : m.toNat.testBit i = false := Nat.testBit_lt_two_pow (lt_of_lt_of_le mlt (Nat.pow_le_pow_right (by decide) (by omega)))
    simp [this]

theorem word_extract (v : Word) (k : Nat) (fits : k ≤ 64) : word (v.extractLsb' 0 k).toNat = v &&& (BitVec.allOnes k).setWidth 64 := by
  rw [← word_extract_and v _ fits, BitVec.and_allOnes]

theorem word_fld (v : Word) (lo k : Nat) : word (fld v lo k * 2 ^ lo) = v &&& word ((2 ^ k - 1) * 2 ^ lo) := by
  apply BitVec.eq_of_getLsbD_eq
  intro i hi
  rw [BitVec.getLsbD_and, getLsbD_word, getLsbD_word, Nat.testBit_mul_two_pow, Nat.testBit_mul_two_pow, testBit_fld, Nat.testBit_two_pow_sub_one]
  by_cases hl : lo ≤ i
  · simp [hi, hl, Bool.and_comm]
  · simp [hl]

variable {m : Word}

/-! ### Custom CSRs that hold what is written under a mask -/

/-- A write of a custom CSR, given as number and mask, leaves in it what is written under the mask, and touches no memory and no other hart. -/
def HoldsMasked (s : State) (h : Nat) (v : Word) (p : Nat × Word) : Prop :=
  ∃ t, csrWrite s h p.1 v = .ok t ∧ csrRead t h p.1 = some (v &&& p.2) ∧ SameMemory s t ∧ ∀ g, g ≠ h → t.hart g = s.hart g

theorem holdsMasked_modHart (get : Hart → Word) {f : Hart → Hart} (read : ∀ t, csrRead t h n = some (get (t.hart h)))
    (put : csrWrite s h n v = .ok (s.modHart h f)) (back : get (f (s.hart h)) = v &&& m) : HoldsMasked s h v (n, m) := by
  refine ⟨_, put, ?_, fun _ => rfl, fun g other => State.hart_setHart_ne _ _ other⟩
  rw [read, State.hart_modHart, if_pos rfl, back]

theorem holdsMasked_modCore (get : Core → Word) {f : Core → Core} (read : ∀ t, t.harts = s.harts → csrRead t h n = some (get (t.core (coreOf h))))
    (put : csrWrite s h n v = .ok (s.modCore (coreOf h) f)) (back : get (f (s.core (coreOf h))) = v &&& m) : HoldsMasked s h v (n, m) := by
  refine ⟨_, put, ?_, fun _ => rfl, fun _ _ => rfl⟩
  rw [read (s.modCore (coreOf h) f) rfl, State.core_modCore_self, back]

theorem holdsMasked_kdom : HoldsMasked s h v (0x5C0, 0xFFFFFFFFF) := by
  have back : word (v.extractLsb' 0 36).toNat = v &&& 0xFFFFFFFFF := word_extract v 36 (by decide)
  have kdom : ∀ (u : State) (T : BitVec 16), ((bindTaint u h T).hart h).k = (u.hart h).k ∧ ∀ g, g ≠ h → (bindTaint u h T).hart g = u.hart g := by
    intro u T
    unfold bindTaint
    split
    · exact ⟨by rw [State.hart_modHart, if_pos rfl], fun g other => State.hart_setHart_ne _ _ other⟩
    · exact ⟨rfl, fun _ _ => rfl⟩
    · exact ⟨by rw [State.hart_modHart, if_pos rfl], fun g other => State.hart_setHart_ne _ _ other⟩
  have mem : ∀ (u : State) (T : BitVec 16), (bindTaint u h T).mem = u.mem := by
    intro u T
    unfold bindTaint
    split
    · rfl
    · rfl
    · rfl
  refine ⟨kdomWrite s h v, rfl, ?_, fun a => ?_, fun g other => ?_⟩
  · have read : ∀ t, csrRead t h 0x5C0 = some (word (t.hart h).k.kdom.toNat) := fun _ => rfl
    rw [read, kdomWrite, (kdom ..).1, State.hart_modHart, if_pos rfl, back]
  · exact congrArg (SMap.get 0 · a) (mem ..)
  · exact ((kdom ..).2 g other).trans (State.hart_setHart_ne _ _ other)

theorem holdsMasked_kroot : HoldsMasked s h v (0x5C4, 0xFFFFFFFFF0000) := by
  have read : ∀ t : State, csrRead t h 0x5C4 = some (t.func (t.hart h).fn).kroot := fun _ => rfl
  refine ⟨krootWrite s (s.hart h).fn v, rfl, ?_, fun _ => rfl, fun _ _ => rfl⟩
  rw [read]
  show some ((SMap.set {} s.funcs (s.hart h).fn _).get {} (s.hart h).fn).kroot = _
  rw [SMap.get_set_self]
  exact congrArg some (word_fld v 16 36)

theorem holdsMasked_kpoolto : HoldsMasked s h v (0x5C9, 0xFFFFFFFF) := by
  have read : ∀ t : State, csrRead t h 0x5C9 = some (word (t.cluster (clusterOf (coreOf h))).kpoolto.toNat) := fun _ => rfl
  refine ⟨_, rfl, ?_, fun _ => rfl, fun _ _ => rfl⟩
  rw [read, State.cluster_modCluster_self]
  exact congrArg some (word_extract v 32 (by decide))

theorem holdsMasked_pc : HoldsMasked s h v (0x5D2, 0xFFFFFFFFFFFFFFFE) := by
  refine holdsMasked_modCore (fun c => (c.chan (s.hart h).k.khsel.toNat).pc) (fun t e => ?_) rfl ?_
  · have read : csrRead t h 0x5D2 = some ((t.core (coreOf h)).chan (t.hart h).k.khsel.toNat).pc := rfl
    rw [read, State.hart, e]
    rfl
  · rw [Core.chan_modChan, if_pos rfl]
    rfl

theorem holdsMasked_kms {j : Nat} (hj : j < 16) : HoldsMasked s h v (0x801 + j, 0xFFFFFFFF) := by
  refine holdsMasked_modHart (fun x => word (x.kms.get 0 j).toNat) (f := fun x => ({ x with kms := x.kms.set 0 j (v.extractLsb' 0 32) }).dirtyXs) (fun t => ?_) ?_ ?_
  · interval_cases j
    all_goals rfl
  · interval_cases j
    all_goals rfl
  · have back : (SMap.set 0 (s.hart h).kms j (v.extractLsb' 0 32)).get 0 j = v.extractLsb' 0 32 := SMap.get_set_self ..
    exact (congrArg (word ·.toNat) back).trans (word_extract v 32 (by decide))

theorem holdsMasked_maskReg {j : Nat} (hj : j < 8) : HoldsMasked s h v (0x811 + j, 0xFFFFFFFF) := by
  refine holdsMasked_modHart (fun x => word (x.getM j).toNat) (f := fun x => (x.setM j (v.extractLsb' 0 32)).dirtyXs) (fun t => ?_) ?_ ?_
  · interval_cases j
    all_goals rfl
  · interval_cases j
    all_goals rfl
  · have back : ((s.hart h).setM j (v.extractLsb' 0 32)).dirtyXs.getM j = v.extractLsb' 0 32 := by
      rw [Hart.getM, Hart.dirtyXs_m]
      exact (Hart.getM_setM (s.hart h) j j _).trans (if_pos rfl)
    rw [back]
    exact word_extract v 32 (by decide)

theorem holdsMasked_kev {j : Nat} (hj : j < 16) : HoldsMasked s h v (0x5E0 + j, 0xFFFFFFFFFFFF) := by
  refine holdsMasked_modCore (fun c => word (c.kev.get 0 j)) (f := fun y => { y with kev := y.kev.set 0 j (fld v 0 48) }) (fun t _ => ?_) ?_ ?_
  · interval_cases j
    all_goals rfl
  · interval_cases j
    all_goals rfl
  · rw [SMap.get_set_self]
    exact (congrArg word (Nat.mul_one _).symm).trans (word_fld v 0 48)

theorem and_allOnes_eq (v : Word) : v = v &&& 0xFFFFFFFFFFFFFFFF := (BitVec.and_allOnes (x := v)).symm

theorem holdsMasked_of_maskedCsrs : ∀ p ∈ maskedCsrs, HoldsMasked s h v p := by
  have low := fun k fits => word_extract v k fits
  simp only [maskedCsrs, List.forall_mem_append, List.forall_mem_map, List.forall_mem_cons, List.mem_range, List.not_mem_nil, false_imp_iff, implies_true, and_true]
  refine ⟨⟨⟨⟨holdsMasked_kdom, holdsMasked_kroot, holdsMasked_kpoolto,
    holdsMasked_modHart (fun x => word x.k.kpsel.toNat) (fun _ => rfl) rfl (word_extract_and v 0x73F (by decide)),
    holdsMasked_modHart (fun x => x.k.kxtab) (fun _ => rfl) rfl rfl,
    holdsMasked_modHart (fun x => word x.k.khsel.toNat) (fun _ => rfl) rfl (low 6 (by decide)),
    holdsMasked_pc,
    holdsMasked_modHart (fun x => word x.k.kqsel.toNat) (fun _ => rfl) rfl (low 5 (by decide)),
    holdsMasked_modHart (fun x => x.k.kcpst) (fun _ => rfl) rfl (and_allOnes_eq v),
    holdsMasked_modHart (fun x => word x.k.kwmsel.toNat) (fun _ => rfl) rfl (low 4 (by decide)),
    holdsMasked_modHart (fun x => word x.k.ksibsel.toNat) (fun _ => rfl) rfl (word_extract_and v 0x7FF000F (by decide)),
    holdsMasked_modHart (fun x => x.k.kcsarea) (fun _ => rfl) rfl (word_fld v 7 48),
    holdsMasked_modHart (fun x => word x.k.ktqsel.toNat) (fun _ => rfl) rfl (low 6 (by decide)),
    holdsMasked_modCore (fun c => word c.kencl.toNat) (fun _ _ => rfl) rfl (low 16 (by decide)),
    holdsMasked_modHart (fun x => word x.k.kksel.toNat) (fun _ => rfl) rfl (low 10 (by decide)),
    holdsMasked_modHart (fun x => x.k.kkdat) (fun _ => rfl) rfl (and_allOnes_eq v),
    holdsMasked_modHart (fun x => word x.k.khmsel.toNat) (fun _ => rfl) rfl (word_extract_and v 0xE3F (by decide))⟩,
    fun _ => holdsMasked_kms⟩, fun _ => holdsMasked_maskReg⟩, fun _ => holdsMasked_kev⟩

end Sys2Proof
end

section
/-!
PROOF. O48, standard CSRs read back after a write: masks, `mstatus`, trap vectors, `satp`, `fcsr`; `kmsd` and `kflagclr` (R178, R18, R175, R150).
-/
namespace Sys2Proof
open Machine

variable {s t : State} {n h : Nat} {v m : Word}

/-! ### Standard CSRs -/

/-- The hart after a write of a standard CSR of its own. -/
def stdHart (s : State) (h n : Nat) (v : Word) : State := s.setHart h { s.hart h with csr := csrsTo s h (s.hart h).csr n v }

theorem stdHart_csr : ((stdHart s h n v).hart h).csr = csrsTo s h (s.hart h).csr n v := congrArg Hart.csr (State.hart_setHart_self ..)

/-- A standard CSR read back after its write, where the read is a function of the hart's own. -/
theorem csrRead_stdHart (get : Csrs → Word) (read : ∀ t, csrRead t h n = some (get (t.hart h).csr)) :
    csrRead (stdHart s h n v) h n = some (get (csrsTo s h (s.hart h).csr n v)) := by rw [read, stdHart_csr]

def StdHoldsMasked (s : State) (h : Nat) (v : Word) (p : Nat × Word) : Prop :=
  ∃ d, csrWrite s h p.1 v = .ok (s.setHart h { s.hart h with csr := d }) ∧ csrRead (s.setHart h { s.hart h with csr := d }) h p.1 = some (v &&& p.2)

theorem stdHoldsMasked_of (get : Csrs → Word) (read : ∀ t, csrRead t h n = some (get (t.hart h).csr)) (put : csrWrite s h n v = .ok (stdHart s h n v))
    (back : get (csrsTo s h (s.hart h).csr n v) = v &&& m) : StdHoldsMasked s h v (n, m) :=
  ⟨_, put, (csrRead_stdHart get read).trans (congrArg some back)⟩

theorem stdHoldsMasked_of_maskedStd : ∀ p ∈ maskedStd, StdHoldsMasked s h v p := by
  have medeleg : medelegMask = 0x70000FF00B3FF := by decide
  have mideleg : midelegMask = 0x3F0222 := by decide
  have mie : mieMask = 0x3F0AAA := by decide
  have whole := and_allOnes_eq v
  simp only [maskedStd, List.forall_mem_cons, List.not_mem_nil, false_imp_iff, implies_true, and_true]
  exact ⟨stdHoldsMasked_of Csrs.scounteren (fun _ => rfl) rfl rfl, stdHoldsMasked_of Csrs.senvcfg (fun _ => rfl) rfl rfl,
    stdHoldsMasked_of Csrs.sscratch (fun _ => rfl) rfl whole, stdHoldsMasked_of Csrs.sepc (fun _ => rfl) rfl rfl,
    stdHoldsMasked_of Csrs.scause (fun _ => rfl) rfl whole, stdHoldsMasked_of Csrs.stval (fun _ => rfl) rfl whole,
    stdHoldsMasked_of Csrs.stimecmp (fun _ => rfl) rfl whole, stdHoldsMasked_of Csrs.medeleg (fun _ => rfl) rfl (congrArg (v &&& ·) medeleg),
    stdHoldsMasked_of Csrs.mideleg (fun _ => rfl) rfl (congrArg (v &&& ·) mideleg), stdHoldsMasked_of Csrs.mie (fun _ => rfl) rfl (congrArg (v &&& ·) mie),
    stdHoldsMasked_of Csrs.mcounteren (fun _ => rfl) rfl rfl, stdHoldsMasked_of Csrs.menvcfg (fun _ => rfl) rfl rfl,
    stdHoldsMasked_of Csrs.mcountinhibit (fun _ => rfl) rfl rfl, stdHoldsMasked_of Csrs.mscratch (fun _ => rfl) rfl whole,
    stdHoldsMasked_of Csrs.mepc (fun _ => rfl) rfl rfl, stdHoldsMasked_of Csrs.mcause (fun _ => rfl) rfl whole,
    stdHoldsMasked_of Csrs.mtval (fun _ => rfl) rfl whole, stdHoldsMasked_of Csrs.minstret (fun _ => rfl) rfl whole⟩

/-! ### `mstatus` -/

theorem bitOf_mstatusMask {i : Nat} (hi : i < 64) : bitOf mstatusMask i = decide (i ∈ [1, 3, 5, 7, 8, 13, 14, 17, 19, 20, 21, 22]) := by
  revert i
  decide

theorem bitOf_mstatusOf (c : Csrs) {i : Nat} (hi : i < 63) : bitOf (mstatusOf c) i = (bitOf c.mstatus i || decide (i = 33 ∨ i = 35)) := by
  have fixed : ∀ i < 64, bitOf 0xA00000000 i = decide (i = 33 ∨ i = 35) := by decide
  have top : ∀ i < 63, bitOf (if fld c.mstatus 13 2 = 3 ∨ fld c.mstatus 15 2 = 3 then 0x8000000000000000 else 0) i = false := by
    split
    · decide
    · decide
  rw [mstatusOf, bitOf_or, bitOf_or, fixed i (by omega), top i hi, Bool.or_false]

theorem bitOf_mstatusOf_top (c : Csrs) (dirty : fld c.mstatus 13 2 = 3 ∨ fld c.mstatus 15 2 = 3) : bitOf (mstatusOf c) 63 = true := by
  rw [mstatusOf, bitOf_or, if_pos dirty]
  exact Bool.or_eq_true_iff.mpr (.inr rfl)

/-- Two words agree on a field where they agree on its bits. -/
theorem fld_congr {a b : Word} {lo k : Nat} (same : ∀ i < k, bitOf a (lo + i) = bitOf b (lo + i)) : fld a lo k = fld b lo k := by
  apply Nat.eq_of_testBit_eq
  intro i
  rw [testBit_fld, testBit_fld]
  by_cases hi : i < k
  · have := same i hi
    rw [bitOf, bitOf] at this
    rw [this]
  · simp [hi]

theorem testBit_eq_bitOf (v : Word) (lo k i : Nat) (hi : i < k) : (fld v lo k).testBit i = bitOf v (lo + i) := by
  rw [testBit_fld]
  simp [hi, bitOf]

theorem bitOf_mstatusTo (c : Csrs) (v : Word) {i : Nat} (hi : i < 64) : bitOf (mstatusTo c v).mstatus i =
    if i ∈ [1, 3, 5, 7, 8, 13, 14, 17, 19, 20, 21, 22] then bitOf v i
    else if i = 11 ∨ i = 12 then (if fld v 11 2 = 2 then bitOf c.mstatus i else bitOf v i) else bitOf c.mstatus i := by
  have masked : bitOf (under mstatusMask c.mstatus v) i =
      if i ∈ [1, 3, 5, 7, 8, 13, 14, 17, 19, 20, 21, 22] then bitOf v i else bitOf c.mstatus i := by
    rw [bitOf_under, bitOf_mstatusMask hi]
    simp only [decide_eq_true_eq]
  have mpp : bitOf (setFld (under mstatusMask c.mstatus v) 11 2 (fld v 11 2)) i =
      if i = 11 ∨ i = 12 then bitOf v i else bitOf (under mstatusMask c.mstatus v) i := by
    rw [bitOf_setFld _ _ _ (by decide)]
    by_cases at_ : i = 11 ∨ i = 12
    · have inside : 11 ≤ i ∧ i < 11 + 2 := by omega
      rw [if_pos at_, if_pos inside, testBit_eq_bitOf v 11 2 _ (by omega), show 11 + (i - 11) = i by omega]
    · have outside : ¬ (11 ≤ i ∧ i < 11 + 2) := by omega
      rw [if_neg at_, if_neg outside]
  have apart : i = 11 ∨ i = 12 → i ∉ [1, 3, 5, 7, 8, 13, 14, 17, 19, 20, 21, 22] := by
    rintro (rfl | rfl)
    · decide
    · decide
  rw [mstatusTo]
  dsimp only
  split
  · rw [masked]
    simp only [ite_self]
  · rw [mpp, masked]
    by_cases at_ : i = 11 ∨ i = 12
    · rw [if_pos at_, if_neg (apart at_), if_pos at_]
    · rw [if_neg at_, if_neg at_]

theorem csrRead_mstatus (s : State) (h : Nat) : csrRead s h 0x300 = some (mstatusOf (s.hart h).csr) := rfl

theorem mstatus_bits : ∃ t r r', csrWrite s h 0x300 v = .ok t ∧ csrRead s h 0x300 = some r ∧ csrRead t h 0x300 = some r' ∧
    (∀ i < 63, bitOf r' i =
      if i ∈ [1, 3, 5, 7, 8, 13, 14, 17, 19, 20, 21, 22] then bitOf v i
      else if i = 11 ∨ i = 12 then (if fld v 11 2 = 2 then bitOf r i else bitOf v i) else bitOf r i) ∧
    (fld r' 13 2 = 3 ∨ fld r' 15 2 = 3 → bitOf r' 63 = true) ∧ (fld (s.hart h).csr.mstatus 32 4 = 0 → fld r' 32 2 = 2 ∧ fld r' 34 2 = 2) := by
  refine ⟨stdHart s h 0x300 v, _, _, rfl, csrRead_mstatus s h, (csrRead_mstatus ..).trans (congrArg (some <| mstatusOf ·) stdHart_csr), fun i hi => ?_,
    fun dirty => ?_, fun clear => ?_⟩
  · show bitOf (mstatusOf (mstatusTo (s.hart h).csr v)) i = _
    have fixed : (i = 33 ∨ i = 35) → i ∉ [1, 3, 5, 7, 8, 13, 14, 17, 19, 20, 21, 22] ∧ ¬ (i = 11 ∨ i = 12) := by
      rintro (rfl | rfl)
      · decide
      · decide
    rw [bitOf_mstatusOf _ hi, bitOf_mstatusOf _ hi, bitOf_mstatusTo _ _ (by omega)]
    by_cases at_ : i = 33 ∨ i = 35
    · rw [if_neg (fixed at_).1, if_neg (fixed at_).1, if_neg (fixed at_).2, if_neg (fixed at_).2]
    · simp [at_]
  · refine bitOf_mstatusOf_top _ (dirty.imp (fun e => ?_) fun e => ?_)
    · refine (fld_congr fun i hi => ?_).trans e
      rw [bitOf_mstatusOf _ (by omega)]
      have : ¬ (13 + i = 33 ∨ 13 + i = 35) := by omega
      simp [this]
    · refine (fld_congr fun i hi => ?_).trans e
      rw [bitOf_mstatusOf _ (by omega)]
      have : ¬ (15 + i = 33 ∨ 15 + i = 35) := by omega
      simp [this]
  · have zero : ∀ i < 4, bitOf (s.hart h).csr.mstatus (32 + i) = false := fun i hi => by
      rw [← testBit_eq_bitOf _ 32 4 i hi, clear, Nat.zero_testBit]
    have bits : ∀ i < 4, bitOf (mstatusOf (mstatusTo (s.hart h).csr v)) (32 + i) = bitOf 0xA00000000 (32 + i) := fun i hi => by
      rw [bitOf_mstatusOf _ (by omega), bitOf_mstatusTo _ _ (by omega), zero i hi]
      interval_cases i
      all_goals rfl
    exact ⟨(fld_congr fun i hi => bits i (by omega)).trans (by decide),
      (fld_congr (b := 0xA00000000) fun i hi => Nat.add_assoc 32 2 i ▸ bits (2 + i) (by omega)).trans (by decide)⟩

/-! ### Trap vectors, `satp`, `fcsr`, and registers of the lanes -/

/-- A write of a trap vector keeps MODE where the written one is reserved (R178). -/
theorem tvecTo_eq (old v : Word) : tvecTo old v = if fld v 0 2 ≤ 1 then v else setFld v 0 2 (fld old 0 2) := by
  rw [tvecTo]
  split
  · rfl
  · apply BitVec.eq_of_getLsbD_eq
    intro i hi
    show bitOf _ i = bitOf _ i
    have low : bitOf 3 i = decide (i < 2) := by
      revert i
      decide
    have high : bitOf (~~~3) i = !decide (i < 2) := by
      revert i
      decide
    rw [bitOf_setFld _ _ _ (by decide), bitOf_or, bitOf_and, bitOf_and, low, high]
    by_cases at_ : i < 2
    · have inside : 0 ≤ i ∧ i < 0 + 2 := by omega
      rw [if_pos inside, testBit_eq_bitOf old 0 2 _ (by omega)]
      simp [at_]
    · have outside : ¬ (0 ≤ i ∧ i < 0 + 2) := by omega
      rw [if_neg outside]
      simp [at_]

theorem tvec_holds (hn : n = 0x105 ∨ n = 0x305) : ∃ t old, csrWrite s h n v = .ok t ∧ csrRead s h n = some old ∧
    csrRead t h n = some (if fld v 0 2 ≤ 1 then v else setFld v 0 2 (fld old 0 2)) := by
  rcases hn with rfl | rfl
  · exact ⟨stdHart s h 0x105 v, _, rfl, rfl, (csrRead_stdHart Csrs.stvec fun _ => rfl).trans (congrArg some (tvecTo_eq ..))⟩
  · exact ⟨stdHart s h 0x305 v, _, rfl, rfl, (csrRead_stdHart Csrs.mtvec fun _ => rfl).trans (congrArg some (tvecTo_eq ..))⟩

theorem satp_holds : ∃ t, csrWrite s h 0x180 v = .ok t ∧
    (t.hart h).csr.satpMode = (if fld v 60 4 = 0 ∨ fld v 60 4 = 15 then v.extractLsb' 60 4 else (s.hart h).csr.satpMode) ∧
    ∃ r, csrRead t h 0x180 = some r ∧ fld r 60 4 = (t.hart h).csr.satpMode.toNat ∧ fld r 0 44 = fld (s.func (s.hart h).fn).kroot 12 40 := by
  have mode : ((stdHart s h 0x180 v).hart h).csr.satpMode =
      if fld v 60 4 = 0 ∨ fld v 60 4 = 15 then v.extractLsb' 60 4 else (s.hart h).csr.satpMode := by
    rw [stdHart_csr]
    exact apply_ite Csrs.satpMode ..
  have fn : ((stdHart s h 0x180 v).hart h).fn = (s.hart h).fn := by rw [stdHart, State.hart_setHart_self]
  have read : ∀ t : State, csrRead t h 0x180 = some (word ((t.hart h).csr.satpMode.toNat * 2 ^ 60 + fld (t.func (t.hart h).fn).kroot 12 40)) := fun _ => rfl
  have root := fld_lt (s.func (s.hart h).fn).kroot 12 40
  have code := ((stdHart s h 0x180 v).hart h).csr.satpMode.isLt
  have func : (stdHart s h 0x180 v).func (s.hart h).fn = s.func (s.hart h).fn := rfl
  refine ⟨stdHart s h 0x180 v, rfl, mode, _, read _, ?_, ?_⟩
  · rw [fn, func, fld, word, BitVec.toNat_ofNat]
    omega
  · rw [fn, func, fld, word, BitVec.toNat_ofNat]
    omega

theorem fld_setFld_self (w : Word) {lo k : Nat} (x : Nat) (inside : lo + k ≤ 64) : fld (setFld w lo k x) lo k = x % 2 ^ k := by
  apply Nat.eq_of_testBit_eq
  intro i
  rw [testBit_fld, Nat.testBit_mod_two_pow]
  by_cases hi : i < k
  · have place : lo ≤ lo + i ∧ lo + i < lo + k := by omega
    have bit := bitOf_setFld w x (lo + i) inside
    rw [if_pos place, Nat.add_sub_cancel_left] at bit
    rw [bitOf] at bit
    simp [hi, bit]
  · simp [hi]

theorem hart_stick (s : State) (c h : Nat) (fl : BitVec 5) : (s.stick c fl).hart h = s.hart h := rfl

theorem fcsr_hart : (stdWrite s h 0x003 v).hart h =
    ({ s.hart h with fflags := v.extractLsb' 0 5, frm := v.extractLsb' 5 3 } : Hart).setFs 3 := by
  show ((setFflags s h (v.extractLsb' 0 5)).modHart h fun x => ({ x with frm := v.extractLsb' 5 3 }).setFs 3).hart h = _
  rw [State.hart_modHart, if_pos rfl, setFflags, hart_stick, State.hart_modHart, if_pos rfl]

/-- The two fields of `fcsr`, put together, are its low byte. -/
theorem fcsr_fields (v : Word) : word ((v.extractLsb' 5 3).toNat * 32 + (v.extractLsb' 0 5).toNat) = v &&& 0xFF := by
  have low := word_fld v 0 8
  have parts : (v.extractLsb' 5 3).toNat * 32 + (v.extractLsb' 0 5).toNat = fld v 0 8 * 2 ^ 0 := by
    simp only [BitVec.extractLsb'_toNat, Nat.shiftRight_eq_div_pow, fld]
    omega
  exact (congrArg word parts).trans low

theorem fcsr_holds : ∃ t, csrWrite s h 0x003 v = .ok t ∧ csrRead t h 0x003 = some (v &&& 0xFF) ∧ (t.hart h).fs = 3 ∧
    csrRead t h 0x001 = some (v &&& 0x1F) ∧
    (t.cluster (clusterOf (coreOf h))).sticky = (s.cluster (clusterOf (coreOf h))).sticky ||| (v.extractLsb' 0 5 &&& ~~~(s.hart h).fflags) := by
  have fcsr : ∀ t : State, csrRead t h 0x003 = some (word ((t.hart h).frm.toNat * 32 + (t.hart h).fflags.toNat)) := fun _ => rfl
  have fflags : ∀ t : State, csrRead t h 0x001 = some (word (t.hart h).fflags.toNat) := fun _ => rfl
  refine ⟨stdWrite s h 0x003 v, rfl, ?_, ?_, ?_, ?_⟩
  · rw [fcsr, fcsr_hart, Hart.setFs_frm, Hart.setFs_fflags, fcsr_fields]
  · rw [fcsr_hart, Hart.fs]
    exact fld_setFld_self _ 3 (by decide)
  · rw [fflags, fcsr_hart, Hart.setFs_fflags]
    exact congrArg some (word_extract v 5 (by decide))
  · show ((setFflags s h (v.extractLsb' 0 5)).cluster (clusterOf (coreOf h))).sticky = _
    rw [setFflags, State.stick, State.cluster_modCluster_self]
    rfl

theorem kmsd_holds : ∃ t, csrWrite s h 0x800 v = .ok t ∧ (t.hart h).kmsd = if fld v 0 5 ≤ 16 then fld v 0 5 else (s.hart h).kmsd := by
  refine ⟨_, rfl, ?_⟩
  split
  · rw [modLane, State.hart_modHart, if_pos rfl]
    rfl
  · rfl

theorem kflagclr_holds : ∃ t, csrWrite s h 0x5D0 v = .ok t ∧ t.harts = s.harts ∧ ∀ i < 5,
    (t.cluster (clusterOf (coreOf h))).sticky.getLsbD i = ((s.cluster (clusterOf (coreOf h))).sticky.getLsbD i && !bitOf v i) := by
  refine ⟨_, rfl, rfl, fun i hi => ?_⟩
  rw [State.cluster_modCluster_self]
  simp [bitOf, hi]

end Sys2Proof
end

section
/-!
PROOF. O48, locked PMP entries (R178, R332; log 10), and the statement.
-/
namespace Sys2Proof
open Machine

variable {s t : State} {n h i : Nat} {v : Word} {c d : Csrs}

/-! ### Locked PMP entries -/

/-- PMP entry i is the same in two sets of registers. -/
def SameEntry (i : Nat) (c d : Csrs) : Prop := d.pmpcfg.get 0 i = c.pmpcfg.get 0 i ∧ d.pmpaddr.get 0 i = c.pmpaddr.get 0 i

theorem SameEntry.refl (i : Nat) (c : Csrs) : SameEntry i c c := ⟨rfl, rfl⟩

theorem SameEntry.trans {e : Csrs} (ab : SameEntry i c d) (bc : SameEntry i d e) : SameEntry i c e := ⟨bc.1.trans ab.1, bc.2.trans ab.2⟩

theorem pmpLocked_congr (same : SameEntry i c d) (rules : d.mseccfg = c.mseccfg) : pmpLocked d i = pmpLocked c i := by
  rw [pmpLocked, pmpLocked, same.1, rules]

theorem setCfg_locked {c : Csrs} {i : Nat} (j : Nat) (x : BitVec 8) (p q : Bool) (locked : pmpLocked c i = true) :
    let d := if pmpLocked c j || p || q then c else { c with pmpcfg := c.pmpcfg.set 0 j x }
    SameEntry i c d ∧ d.mseccfg = c.mseccfg := by
  dsimp only
  split
  · exact ⟨.refl i c, rfl⟩
  case isFalse free =>
    have other : i ≠ j := by
      rintro rfl
      exact free (by rw [locked, Bool.true_or, Bool.true_or])
    exact ⟨⟨SMap.get_set_ne _ _ _ other, rfl⟩, rfl⟩

theorem pmpcfgTo_locked (c : Csrs) {i : Nat} (j : Nat) (b : BitVec 8) (locked : pmpLocked c i = true) :
    SameEntry i c (pmpcfgTo c j b) ∧ (pmpcfgTo c j b).mseccfg = c.mseccfg := setCfg_locked j _ _ _ locked

theorem pmpcfgWrite_locked (j : Nat) (v : Word) (locked : pmpLocked c i = true) : SameEntry i c (pmpcfgWrite c j v) := by
  have fold : ∀ (l : List Nat) (d : Csrs), pmpLocked d i = true →
      SameEntry i d (l.foldl (fun c k => pmpcfgTo c (8 * j + k) (BitVec.ofNat 8 (fld v (8 * k) 8))) d) := by
    intro l
    induction l with
    | nil => exact fun d _ => .refl i d
    | cons k l ih =>
      intro d locked
      obtain ⟨same, rules⟩ := pmpcfgTo_locked d (8 * j + k) (BitVec.ofNat 8 (fld v (8 * k) 8)) locked
      exact same.trans (ih _ ((pmpLocked_congr same rules).trans locked))
  exact fold _ c locked

theorem pmpaddrWrite_locked (j : Nat) (v : Word) (locked : pmpLocked c i = true) : SameEntry i c (pmpaddrWrite c j v) := by
  unfold pmpaddrWrite
  split
  · exact .refl i c
  case isFalse free =>
    have other : i ≠ j := by
      rintro rfl
      exact free (by rw [locked, Bool.true_or])
    exact ⟨rfl, SMap.get_set_ne _ _ _ other⟩

/-- A write leaves the PMP registers, or starts from those that Mladotte's region shows and keeps entry i. -/
theorem csrsTo_locked (s : State) (h : Nat) (c : Csrs) (n : Nat) (v : Word) (locked : pmpLocked (pmpSeen s c) i = true) :
    SameEntry i c (csrsTo s h c n v) ∨ SameEntry i (pmpSeen s c) (csrsTo s h c n v) := by
  have kept : ∀ {d : Csrs}, d.pmpcfg = c.pmpcfg → d.pmpaddr = c.pmpaddr → SameEntry i c d ∨ SameEntry i (pmpSeen s c) d :=
    fun cfg addr => .inl ⟨by rw [cfg], by rw [addr]⟩
  unfold csrsTo
  split
  case h_12 => split <;> exact kept rfl rfl
  case h_13 =>
    unfold mstatusTo
    dsimp only
    exact kept rfl rfl
  case h_26 => exact .inr ⟨rfl, rfl⟩
  case h_29 =>
    split
    · exact .inr (pmpcfgWrite_locked _ _ locked)
    · split
      · exact .inr (pmpaddrWrite_locked _ _ locked)
      · exact kept rfl rfl
  all_goals exact kept rfl rfl

/-- What Mladotte's region shows of an entry is that of the registers, but for entries 0 and 1 (R332). -/
theorem pmpSeen_entry (s : State) (same : SameEntry i c d) : SameEntry i (pmpSeen s c) (pmpSeen s d) := by
  unfold pmpSeen
  split
  · exact same
  · exact ⟨by simp only [SMap.get_set, same.1], by simp only [SMap.get_set, same.2]⟩

theorem pmpSeen_pmpSeen (s : State) (i : Nat) (c : Csrs) : SameEntry i (pmpSeen s c) (pmpSeen s (pmpSeen s c)) := by
  by_cases none_ : s.mgmt.mlSize = 0
  · simp only [pmpSeen, if_pos none_]
    exact .refl i c
  · simp only [pmpSeen, if_neg none_]
    refine ⟨?_, ?_⟩
    · simp only [SMap.get_set]
      split_ifs
      all_goals rfl
    · simp only [SMap.get_set]
      split_ifs
      all_goals rfl

theorem pmpSeen_congr (mgmt : t.mgmt = s.mgmt) (c : Csrs) : pmpSeen t c = pmpSeen s c := by
  unfold pmpSeen
  rw [mgmt]

theorem setFs_entry (x : Hart) (k i : Nat) : SameEntry i x.csr (x.setFs k).csr := ⟨rfl, rfl⟩

theorem hart_setFflags_csr (s : State) (h : Nat) (fl : BitVec 5) : ((setFflags s h fl).hart h).csr = (s.hart h).csr := by
  rw [setFflags, hart_stick, State.hart_modHart, if_pos rfl]

theorem fpWrite_entry (s : State) (h i : Nat) (f : Hart → Hart) (csr : ∀ x, (f x).csr = x.csr) :
    SameEntry i (s.hart h).csr ((s.modHart h fun x => (f x).setFs 3).hart h).csr := by
  rw [State.hart_modHart, if_pos rfl, ← csr]
  exact setFs_entry ..

/-- The standard registers after a write: those of `csrsTo`, or, at the floating-point ones, the same PMP registers. -/
theorem stdWrite_entry (s : State) (h n : Nat) (v : Word) :
    (stdWrite s h n v).mgmt = s.mgmt ∧ (SameEntry i (s.hart h).csr ((stdWrite s h n v).hart h).csr ∨
      ((stdWrite s h n v).hart h).csr = csrsTo s h (s.hart h).csr n v) := by
  unfold stdWrite
  split
  case h_1 =>
    refine ⟨rfl, .inl ?_⟩
    rw [← hart_setFflags_csr s h (v.extractLsb' 0 5)]
    exact fpWrite_entry _ h i id fun _ => rfl
  case h_2 => exact ⟨rfl, .inl (fpWrite_entry s h i (fun x => { x with frm := v.extractLsb' 0 3 }) fun _ => rfl)⟩
  case h_3 =>
    refine ⟨rfl, .inl ?_⟩
    rw [← hart_setFflags_csr s h (v.extractLsb' 0 5)]
    exact fpWrite_entry _ h i (fun x => { x with frm := v.extractLsb' 5 3 }) fun _ => rfl
  case h_4 => exact ⟨rfl, .inr (by rw [State.hart_modHart, if_pos rfl])⟩

theorem pmp_locked (std : customCsr n = false) (locked : ((pmpSeen s (s.hart h).csr).pmpcfg.get 0 i).getLsbD 7 = true)
    (rules : bitOf (pmpSeen s (s.hart h).csr).mseccfg 2 = false) :
    ∃ t, csrWrite s h n v = .ok t ∧ SameEntry i (pmpSeen s (s.hart h).csr) (pmpSeen t (t.hart h).csr) := by
  have lock : pmpLocked (pmpSeen s (s.hart h).csr) i = true := by
    rw [pmpLocked, locked, rules]
    rfl
  obtain ⟨mgmt, entry⟩ := stdWrite_entry (i := i) s h n v
  refine ⟨stdWrite s h n v, by rw [csrWrite, std]; rfl, ?_⟩
  rw [pmpSeen_congr mgmt]
  rcases entry with same | csr
  · exact pmpSeen_entry s same
  · rw [csr]
    rcases csrsTo_locked s h (s.hart h).csr n v lock with same | same
    · exact pmpSeen_entry s same
    · exact (pmpSeen_pmpSeen s i _).trans (pmpSeen_entry s same)

/-- Settles O48: every Zicsr row is one access, whose legality, read and write are settled apart; each register is then read back after its write. -/
theorem csrAccess : Obligations.CsrAccess := by
  unfold Obligations.CsrAccess
  refine ⟨⟨zicsr_accesses, fun s h n v => csrWrite_ok, fun s pa v => registerWrite_mmio⟩, fun s h v => ?_⟩
  exact ⟨fun n m => holdsMasked_of_maskedCsrs (n, m), fun n m => stdHoldsMasked_of_maskedStd (n, m), mstatus_bits, fun n => tvec_holds, satp_holds, fcsr_holds,
    kmsd_holds, kflagclr_holds, fun n i std _ locked rules => pmp_locked std locked rules, rfl, rfl, rfl, rfl, rfl, rfl⟩

end Sys2Proof
end

section
/-!
PROOF. O53, who makes a scalar access, and its checks (R179, R80, R23, R135).
-/
namespace Sys2Proof
open Machine

variable {s t u : State}

/-! ### The maker of an access -/

/-- What the maker of an access is read from. -/
def SameMaker (s t : State) : Prop :=
  t.harts = s.harts ∧ t.cur = s.cur ∧ t.classes = s.classes ∧ t.regions = s.regions ∧ ∀ c, (t.core c).kencl = (s.core c).kencl

theorem SameMaker.trans (h : SameMaker s t) (g : SameMaker t u) : SameMaker s u := by
  obtain ⟨harts, cur, classes, regions, eid⟩ := h
  obtain ⟨harts', cur', classes', regions', eid'⟩ := g
  exact ⟨harts'.trans harts, cur'.trans cur, classes'.trans classes, regions'.trans regions, fun c => (eid' c).trans (eid c)⟩

theorem SameMaker.sameHarts (h : SameMaker s t) : SameHarts s t := ⟨h.1, h.2.1⟩

theorem CacheMoves.regions (h : CacheMoves s t) : t.regions = s.regions := by
  obtain ⟨-, -, frame, -, -⟩ := h
  exact (congrArg State.regions frame :)

theorem CacheMoves.sameMaker (h : CacheMoves s t) : SameMaker s t := by
  obtain ⟨harts, cores, classes, cur⟩ := h.harts
  exact ⟨harts, cur, classes, h.regions, fun c => congrArg Core.kencl (State.core_of_cores cores c)⟩

theorem SameMaker.whoOf (same : SameMaker s t) : whoOf t t.cur true = whoOf s s.cur true := by
  obtain ⟨harts, cur, classes, regions, eid⟩ := same
  have hart := State.hart_of_harts harts s.cur
  have taint : taintOf t s.cur = taintOf s s.cur := taintOf_congr regions classes (by rw [hart]; exact ⟨rfl, rfl, rfl, rfl, rfl, rfl⟩)
  unfold Machine.whoOf
  rw [cur, hart, taint, eid]

/-- The hart that steps and the regions stand. -/
def SameTurn (s t : State) : Prop := t.cur = s.cur ∧ t.regions = s.regions

namespace SameTurn

theorem trans (h : SameTurn s t) (g : SameTurn t u) : SameTurn s u := ⟨g.1.trans h.1, g.2.trans h.2⟩

theorem unitWalk (s : State) (k fn : Nat) (va : Word) : SameTurn s (unitWalk s k fn va).1 := by
  have m := unitWalk_moves s k fn va
  exact ⟨m.sameHarts.2, m.regions⟩

theorem plbFill (s : State) (c : Nat) (e : PageEntry) : SameTurn s (plbFill s c e) := by
  unfold Machine.plbFill Machine.choose
  dsimp only
  split
  · exact ⟨rfl, rfl⟩
  · split
    · exact ⟨rfl, rfl⟩
    · exact ⟨rfl, rfl⟩

theorem tlbEntry (s : State) (k i fn : Nat) (va : Word) : SameTurn s (tlbEntry s k i fn va).1 := by
  have walk := unitWalk s k fn va
  unfold Machine.tlbEntry
  split
  · exact ⟨rfl, rfl⟩
  · split
    case _ heq => rwa [heq] at walk
    case _ heq =>
      rw [heq] at walk
      exact walk.trans ⟨rfl, rfl⟩

theorem pageFor (s : State) (w : Who) (src : Src) (va : Word) : SameTurn s (pageFor s w src va).1 := by
  have tlb := tlbEntry s (clusterOf w.core) src.tlb w.fn va
  unfold Machine.pageFor
  split
  · exact ⟨rfl, rfl⟩
  · split
    case _ heq => rwa [heq] at tlb
    case _ heq =>
      rw [heq] at tlb
      exact tlb.trans (plbFill ..)

theorem markDirty (s : State) (w : Who) (src : Src) (a : Acc) (mxr : Bool) (va : Word) : SameTurn s (markDirty s w src a mxr va).1 := by
  have walk := unitWalk s (clusterOf w.core) w.fn va
  unfold Machine.markDirty
  split
  case _ heq => rwa [heq] at walk
  case _ heq =>
    rw [heq] at walk
    split
    · exact walk
    · refine (walk.trans ?_).trans (plbFill ..)
      exact ⟨rfl, rfl⟩

theorem translate (s : State) (w : Who) (src : Src) (a : Acc) (mxr setD : Bool) (va : Word) (n : Nat) :
    SameTurn s (translate s w src a mxr setD va n).1 := by
  have page := pageFor s w src va
  have dirty := page.trans (markDirty _ w src a mxr va)
  obtain h | ⟨-, -, (h | h) | ⟨-, -, h | h⟩⟩ := translate_state s w src a mxr setD va n
  · rw [h]; exact ⟨rfl, rfl⟩
  · rw [h]; exact page
  · rw [h]; exact page.trans (tlbEntry ..)
  · rw [h]; exact dirty
  · rw [h]; exact dirty.trans (tlbEntry ..)

end SameTurn

theorem translate_sameMaker (s : State) (w : Who) (src : Src) (a : Acc) (mxr setD : Bool) (va : Word) (n : Nat) :
    SameMaker s (translate s w src a mxr setD va n).1 := by
  obtain ⟨harts, -, classes, -, -, -, cores⟩ := ChecksKeep.translate s w src a mxr setD va n
  obtain ⟨cur, regions⟩ := SameTurn.translate s w src a mxr setD va n
  exact ⟨harts, cur, classes, regions, fun c => (congrArg Core.kencl (cores c) :)⟩

theorem SameMaker.of_translate {w : Who} {src : Src} {a : Acc} {mxr setD : Bool} {va : Word} {n : Nat} {r : Except VFault PRef}
    (h : Machine.translate s w src a mxr setD va n = (t, r)) : SameMaker s t := by
  have same := translate_sameMaker s w src a mxr setD va n
  rwa [h] at same

/-! ### The checks of a scalar access -/

variable {a : Acc} {n : Nat} {va : Word}

/-- The address of a scalar access is aligned, and no watermark holds it. -/
def ScalarFree (s : State) (n : Nat) (va : Word) : Prop := va.toNat % n = 0 ∧ wmHeld s [(va.toNat, n)] = none

theorem scalarPlace_misaligned (bad : va.toNat % n ≠ 0) : scalarPlace a n va s = .error (takeTrap s s.cur false (if a = .rd then 4 else 6) va) := by
  have cause : (if a == .rd then 4 else 6) = if a = .rd then 4 else 6 := by cases a <;> rfl
  unfold scalarPlace
  rw [bind_error (orTrap_false (by simpa using bad) ..), cause]

theorem scalarPlace_failed {v : Nat} (aligned : va.toNat % n = 0) (held : wmHeld s [(va.toNat, n)] = some (some v)) :
    scalarPlace a n va s = .error (takeTrap s s.cur false 49 (word v)) := by
  unfold scalarPlace
  rw [bind_ok (orTrap_true (by simpa using aligned) ..), bind_error (wmCheck_failed held)]

theorem scalarPlace_held (aligned : va.toNat % n = 0) (held : wmHeld s [(va.toNat, n)] = some none) :
    scalarPlace a n va s = .error (s.modMe fun x => { x with wait := .stall }) := by
  unfold scalarPlace
  rw [bind_ok (orTrap_true (by simpa using aligned) ..), bind_error (wmCheck_held held)]

theorem scalarPlace_denied {f : VFault} (free : ScalarFree s n va)
    (fails : translate s (whoOf s s.cur true) .scalar a (bitOf s.me.csr.mstatus 19) false va n = (t, .error f)) :
    scalarPlace a n va s = .error (takeTrap t t.cur false (scalarCause f.kind a) va) := by
  unfold scalarPlace
  rw [bind_ok (orTrap_true (by simpa using free.1) ..), bind_ok (wmCheck_free free.2), bind_ok (m := whoX) rfl, bind_ok (m := rd _) rfl]
  dsimp only
  refine bind_error ?_
  rw [fails]
  rfl

/-- The checks of a scalar access pass, leaving `t`, and it goes to `r`. -/
def ScalarChecked (s : State) (a : Acc) (n : Nat) (va : Word) (t : State) (r : PRef) : Prop :=
  ∃ t0 r0, translate s (whoOf s s.cur true) .scalar a (bitOf s.me.csr.mstatus 19) false va n = (t0, .ok r0) ∧ flipHeld t0 r0.pa = false ∧
    if a.writes then translate t0 (whoOf s s.cur true) .scalar a (bitOf s.me.csr.mstatus 19) true va n = (t, .ok r) else t0 = t ∧ r0 = r

theorem ScalarChecked.sameMaker {r : PRef} (checked : ScalarChecked s a n va t r) : SameMaker s t := by
  obtain ⟨t0, r0, first, -, second⟩ := checked
  have before := SameMaker.of_translate first
  split at second
  · exact before.trans (.of_translate second)
  · obtain ⟨rfl, -⟩ := second
    exact before

theorem scalarPlace_checked {r : PRef} (free : ScalarFree s n va) (checked : ScalarChecked s a n va t r) : scalarPlace a n va s = .ok (r, t) := by
  obtain ⟨t0, r0, first, unheld, second⟩ := checked
  unfold scalarPlace
  rw [bind_ok (orTrap_true (by simpa using free.1) ..), bind_ok (wmCheck_free free.2), bind_ok (m := whoX) rfl, bind_ok (m := rd _) rfl]
  dsimp only
  rw [bind_ok (a := r0) (t := t0) (by rw [first]), bind_ok (a := ()) (t := t0) (if_neg (by simp [unheld]))]
  split
  case isTrue writes =>
    rw [if_pos writes] at second
    dsimp only
    rw [second]
  case isFalse reads =>
    rw [if_neg reads] at second
    obtain ⟨rfl, rfl⟩ := second
    rfl

theorem ScalarPlaced.free {r : PRef} (placed : ScalarPlaced s a n va t r) : ScalarFree s n va := ⟨placed.1, placed.2.1⟩

theorem ScalarPlaced.checked {r : PRef} (placed : ScalarPlaced s a n va t r) : ScalarChecked s a n va t r := placed.2.2.2

end Sys2Proof
end

section
/-!
PROOF. O53, the line that a scalar read takes, and the store of one (R53, R55, R57, R70).
-/
namespace Sys2Proof
open Machine

variable {s t u : State} {w : Who} {va : Word} {n : Nat} {r : PRef} {y : CLine}

/-! ### The line that a scalar read takes -/

theorem scalarIn_takes (takes : ScalarTakes s t va r u y) : scalarIn t (whoOf s s.cur true) va r = (u, some y) := by
  unfold ScalarTakes at takes
  unfold scalarIn
  dsimp only at takes ⊢
  cases hit : scalHit t (whoOf s s.cur true) (va.toNat / 128) with
  | some p =>
    rw [hit] at takes
    obtain ⟨rfl, rfl⟩ := takes
    rfl
  | none =>
    rw [hit] at takes
    obtain ⟨v, line, rfl⟩ := takes
    dsimp only
    rw [line]

/-- A line that may not enter the cluster is in no scalar cache. -/
theorem scalarIn_broken (broken : lineIn t w va r = (u, none)) : scalarIn t w va r = (u, none) := by
  have absent : t.kline w (va.toNat / 128) = none := by
    unfold lineIn entryOk at broken
    dsimp only at broken
    split at broken
    case isTrue no =>
      simp only [Bool.not_eq_true', Bool.or_eq_false_iff] at no
      simpa using no.1
    case isFalse => cases (Prod.mk.inj broken).2
  have miss : scalHit t w (va.toNat / 128) = none := by rw [scalHit, absent]
  unfold scalarIn
  dsimp only
  rw [miss, broken]

theorem lineIn_moves (s : State) (w : Who) (va : Word) (r : PRef) : CacheMoves s (lineIn s w va r).1 := by
  unfold lineIn
  dsimp only
  split
  · exact .refl s
  · exact readIn_moves ..

theorem ScalarTakes.moves (takes : ScalarTakes s t va r u y) : CacheMoves t u := by
  unfold ScalarTakes at takes
  dsimp only at takes
  split at takes
  · obtain ⟨rfl, -⟩ := takes
    exact .refl _
  · obtain ⟨v, line, rfl⟩ := takes
    have moves := lineIn_moves t (whoOf s s.cur true) va r
    rw [line] at moves
    exact moves.trans (scalUse_moves ..)

/-- A line that the cluster does not hold is read as memory holds it. -/
theorem ScalarTakes.bytes (takes : ScalarTakes s t va r u y) (absent : t.kline (whoOf s s.cur true) (va.toNat / 128) = none) (plain : r.key = 0) :
    y.bytes = rawBytes t (128 * (r.pa / 128)) 128 := by
  have seen : seenLine t (whoOf s s.cur true) (va.toNat / 128) r.key (r.pa / 128) = rawBytes t (128 * (r.pa / 128)) 128 := by
    rw [seenLine, absent, plain]
    rfl
  unfold ScalarTakes at takes
  dsimp only at takes
  rw [scalHit, absent] at takes
  obtain ⟨v, line, rfl⟩ := takes
  unfold lineIn at line
  dsimp only at line
  split at line
  · cases (Prod.mk.inj line).2
  · obtain ⟨-, line⟩ := Prod.mk.inj line
    obtain rfl := Option.some.inj line
    exact seen

theorem ScalarTakes.lineNat (takes : ScalarTakes s t va r u y) (absent : t.kline (whoOf s s.cur true) (va.toNat / 128) = none) (plain : r.key = 0)
    (place : r.pa % 128 = va.toNat % 128) (inside : va.toNat % 128 + n ≤ 128) : lineNat y va n = leToNat (rawBytes t r.pa n) := by
  rw [Sys2Proof.lineNat, takes.bytes absent plain, rawBytes_drop_take _ _ _ _ _ inside, ← place, Nat.div_add_mod]

/-! ### The fetch -/

theorem scalarFetch_takes (same : SameMaker s t) (mem : paKind r.pa ≠ .mmio) (takes : ScalarTakes s t va r u y) (clean : y.psn = false) :
    scalarFetch r n va t = .ok (lineNat y va n, u) := by
  unfold scalarFetch
  dsimp only
  rw [if_neg mem, same.whoOf, scalarIn_takes takes]
  dsimp only
  rw [clean]
  rfl

theorem scalarFetch_poison (same : SameMaker s t) (mem : paKind r.pa ≠ .mmio) (takes : ScalarTakes s t va r u y) (psn : y.psn = true) :
    scalarFetch r n va t = .error (takeTrap u u.cur false 48 va) := by
  unfold scalarFetch
  dsimp only
  rw [if_neg mem, same.whoOf, scalarIn_takes takes]
  dsimp only
  rw [psn]
  rfl

theorem scalarFetch_broken (same : SameMaker s t) (mem : paKind r.pa ≠ .mmio) (broken : lineIn t (whoOf s s.cur true) va r = (u, none)) :
    scalarFetch r n va t = .error (sealFail u u.cur r.pa r.key va) := by
  unfold scalarFetch
  dsimp only
  rw [if_neg mem, same.whoOf, scalarIn_broken broken]

/-! ### The store -/

/-- What a scalar store of memory leaves. -/
def scalarPutAt (t : State) (w : Who) (va : Word) (r : PRef) (n v : Nat) : State :=
  let u := scalUse (storeLine t w (va.toNat / 128) r.cm (cellsOf r.pa r.key (natToLe n v))) w (va.toNat / 128) r.cm true (scalHit t w (va.toNat / 128))
  l1Drop (breakResv u u.cur [r.pa / 128]) w.core w.tag [va.toNat / 128]

theorem scalarPut_mem {v : Nat} (same : SameMaker s t) (mem : paKind r.pa ≠ .mmio)
    (enters : entryOk t (whoOf s s.cur true) (va.toNat / 128) r.key (r.pa / 128) = true) :
    scalarPut r n va v t = .ok ((), scalarPutAt t (whoOf s s.cur true) va r n v) := by
  unfold scalarPut
  dsimp only
  rw [if_neg mem, same.whoOf, enters]
  rfl

theorem scalarPut_broken {v : Nat} (same : SameMaker s t) (mem : paKind r.pa ≠ .mmio)
    (broken : entryOk t (whoOf s s.cur true) (va.toNat / 128) r.key (r.pa / 128) = false) :
    scalarPut r n va v t = .error (sealFail t t.cur r.pa r.key va) := by
  unfold scalarPut
  dsimp only
  rw [if_neg mem, same.whoOf, broken]
  rfl

/-- Nothing differs but memory, its lines, and what the caches move (R53, R57). -/
def StoreFrame (s t : State) : Prop :=
  { t with mem := s.mem, lines := s.lines, clusters := s.clusters, dies := s.dies, egress := s.egress, choices := s.choices, walkers := s.walkers } = s

theorem CacheMoves.storeFrame (h : CacheMoves s t) : StoreFrame s t := h.2.2.1

theorem StoreFrame.trans (h : StoreFrame s t) (g : StoreFrame t u) : StoreFrame s u :=
  (congrArg (fun x : State => { x with mem := s.mem, lines := s.lines, clusters := s.clusters, dies := s.dies, egress := s.egress, choices := s.choices,
                                       walkers := s.walkers }) g :).trans h

theorem StoreFrame.cores (h : StoreFrame s t) : t.cores = s.cores := (congrArg State.cores h :)

theorem putLine_frame (s : State) (l : Nat) (cs : List PCell) : StoreFrame s (putLine s l cs) := by
  have puts : ∀ (a : Nat) (bs : List Byte), StoreFrame s (putRaw s a bs) := fun _ _ => rfl
  unfold putLine
  dsimp only
  split
  · rfl
  · exact (puts ..).trans (CacheMoves.modLine ..).storeFrame

theorem writeLine_frame (s : State) (l : Nat) (cs : List PCell) (x : BitVec 16) : StoreFrame s (writeLine s l cs x) :=
  ((homeWrite_moves s l).storeFrame.trans (putLine_frame ..)).trans (CacheMoves.egressOf ..).storeFrame

/-- A store of a line that begins outside the peer windows: its frame, and the bytes that memory takes. -/
theorem storeLine_home (s : State) (w : Who) (vl cm : Nat) {c : PCell} {cs : List PCell} (plain : ∀ x ∈ c :: cs, x.key = 0)
    (home : isPeer (c.pa / 128) = false) :
    StoreFrame s (storeLine s w vl cm (c :: cs)) ∧ StoredTo s (storeLine s w vl cm (c :: cs)) (c :: cs) := by
  unfold storeLine
  dsimp only
  generalize (_ && _ : Bool) = z
  have owns := kOwn_moves s w vl (c.pa / 128) c.key cm z (coverLine (c :: cs))
  generalize kOwn s w vl (c.pa / 128) c.key cm z (coverLine (c :: cs)) = t at owns
  split
  · exact ⟨writeLine_frame .., fun a ha => writeLine_byte s _ _ _ a plain ha⟩
  · split
    · exact ⟨owns.storeFrame.trans (writeLine_frame ..), fun a ha => (writeLine_byte t _ _ _ a plain ha).trans (by rw [owns.1 a ha]; rfl)⟩
    · rw [if_neg (by simp [home])]
      exact ⟨owns.storeFrame.trans (putLine_frame ..), fun a ha => (putLine_byte t _ _ a plain).trans (by rw [owns.1 a ha]; rfl)⟩

end Sys2Proof
end

section
/-!
PROOF. O53, what a scalar store leaves, up to an acquire (R57, R58, R112).
-/
namespace Sys2Proof
open Machine

variable {s t u v : State} {va : Word} {n data : Nat} {r : PRef} {x : Hart} {acq : Bool} {i : Instr}

/-! ### What a scalar store leaves -/

/-- A state with what stores, caches and checks of harts may change taken from another. -/
def restOf (t u : State) : State :=
  { u with mem := t.mem, lines := t.lines, harts := t.harts, cores := t.cores, clusters := t.clusters, dies := t.dies, egress := t.egress
           choices := t.choices, walkers := t.walkers }

theorem StoreFrame.restOf (h : StoreFrame u v) : restOf t v = restOf t u := (congrArg (Sys2Proof.restOf t) h :)

/-- `u` has the store of a scalar form performed from `t`, with the current hart at `x` (R57, R58, R112). -/
structure PutBy (s t : State) (va : Word) (r : PRef) (n data : Nat) (x : Hart) (acq : Bool) (u : State) : Prop where
  cur : u.cur = s.cur
  me : u.me = x
  stored : StoredTo t u (cellsOf r.pa 0 (natToLe n data))
  others : ∀ h, h ≠ s.cur → { u.hart h with resv := (s.hart h).resv } = s.hart h
  ends : ∀ h, h ≠ s.cur → (s.hart h).resv = some (r.pa / 128) → (u.hart h).resv = none
  dropped : ∀ y ∈ u.myCore.l1, ¬ (y.fn = (whoOf s s.cur true).tag ∧ y.vline = va.toNat / 128)
  emptied : acq = true → u.myCore.l1 = []
  cores : ∀ c, c ≠ coreOf s.cur → u.core c = t.core c
  mine : { u.myCore with l1 := t.myCore.l1 } = t.myCore
  rest : restOf t u = t

namespace PutBy

/-- A change of the current hart changes that hart. -/
theorem modMe (put : PutBy s t va r n data x acq u) (f : Hart → Hart) : PutBy s t va r n data (f x) acq (u.modMe f) := by
  have hart : ∀ h, h ≠ s.cur → (u.modMe f).hart h = u.hart h := fun h other => State.hart_setHart_ne _ _ (put.cur ▸ other)
  refine ⟨put.cur, ?_, put.stored, fun h other => ?_, fun h other held => ?_, put.dropped, put.emptied, put.cores, put.mine, put.rest⟩
  · exact (State.me_setHart_cur ..).trans (congrArg f put.me)
  · rw [hart h other]
    exact put.others h other
  · rw [hart h other]
    exact put.ends h other held

/-- An acquire empties the core's L1 (R58). -/
theorem acquire (put : PutBy s t va r n data x acq u) : PutBy s t va r n data x true (acquire u 5) := by
  obtain ⟨home, -, harts, -, cur⟩ := coreAcquire_keeps u (coreOf u.cur) 5
  have hart := State.hart_of_harts harts
  have empty : (Machine.acquire u 5).myCore.l1 = [] := by
    rw [State.myCore, Machine.acquire, cur]
    exact coreAcquire_l1 u _ (by decide)
  have myCore : (Machine.acquire u 5).myCore = (Machine.acquire u 5).core (coreOf u.cur) := by rw [State.myCore, Machine.acquire, cur]
  have flush : CacheMoves ((l1Clear u (coreOf u.cur)).modCore (coreOf u.cur) fun c => { c with l1 := c.l1.filter fun y => !isPeer y.pl }) (Machine.acquire u 5) :=
    kFlush_moves ..
  refine ⟨cur.trans put.cur, ?_, put.stored.home home, fun h other => ?_, fun h other held => ?_, fun y hy => ?_, fun _ => empty, fun c other => ?_, ?_, ?_⟩
  · exact (SameHarts.me ⟨harts, cur⟩).trans put.me
  · rw [show (Machine.acquire u 5).hart h = u.hart h from hart h]
    exact put.others h other
  · rw [show (Machine.acquire u 5).hart h = u.hart h from hart h]
    exact put.ends h other held
  · rw [empty] at hy
    cases hy
  · have other' : c ≠ coreOf u.cur := put.cur ▸ other
    rw [State.core_of_cores flush.harts.2.1, State.core_modCore_ne _ _ other', l1Clear, State.core_modCore_ne _ _ other']
    exact put.cores c other
  · have kept := coreAcquire_core u (coreOf u.cur) 5
    rw [myCore]
    exact ((congrArg (fun c : Core => { c with l1 := t.myCore.l1 }) kept :)).trans put.mine
  · exact (flush.storeFrame.restOf (t := t)).trans put.rest

theorem acquires (put : PutBy s t va r n data x false u) : PutBy s t va r n data x acq (if acq then Machine.acquire u 5 else u) := by
  cases acq with
  | false => exact put
  | true => exact put.acquire

theorem retire (put : PutBy s t va r n data x acq u) : PutBy s t va r n data x.done acq (retire u) := put.modMe Hart.done

theorem scalarStores (put : PutBy s t va r n data x acq u) (run : Runs i s u) : ScalarStores i s t va r n data x acq :=
  fun _ _ => ⟨u, run, put.me, put.stored, put.others, put.ends, put.dropped, put.emptied, put.cores, put.mine, put.rest⟩

end PutBy

/-- The copy of the line goes from the L1 of the core that stores. -/
theorem l1Drop_core (s : State) (c tag vl k : Nat) : (l1Drop s c tag [vl]).core k =
    if k = c then { s.core c with l1 := (s.core c).l1.filter fun y => !(y.fn == tag && [vl].contains y.vline) } else s.core k := State.core_modCore ..

theorem natToLe_cons {n : Nat} (hn : n ≠ 0) (pa key v : Nat) : ∃ c cs, cellsOf pa key (natToLe n v) = c :: cs ∧ c.pa = pa := by
  cases n with
  | zero => exact absurd rfl hn
  | succ n => exact ⟨_, _, rfl, rfl⟩

/-- A scalar store of memory outside the peer windows. -/
theorem scalarPutAt_putBy (same : SameMaker s t) (hn : n ≠ 0) (plain : r.key = 0) (home : isPeer (r.pa / 128) = false) :
    PutBy s t va r n data s.me false (scalarPutAt t (whoOf s s.cur true) va r n data) := by
  obtain ⟨c, cs, cells, cpa⟩ := natToLe_cons hn r.pa 0 data
  have keys : ∀ x ∈ c :: cs, x.key = 0 := fun x hx => (mem_cellsOf (cells ▸ hx)).1
  obtain ⟨frame, stored⟩ := storeLine_home t (whoOf s s.cur true) (va.toNat / 128) r.cm keys (cpa ▸ home)
  unfold scalarPutAt
  dsimp only
  rw [plain, cells]
  have used := scalUse_moves (storeLine t (whoOf s s.cur true) (va.toNat / 128) r.cm (c :: cs)) (whoOf s s.cur true) (va.toNat / 128) r.cm true
    (scalHit t (whoOf s s.cur true) (va.toNat / 128))
  have harts := (storeLine_harts t (whoOf s s.cur true) (va.toNat / 128) r.cm (c :: cs)).trans used.sameHarts
  have all := frame.trans used.storeFrame
  have storedTo := stored.home used.1
  generalize scalUse _ _ _ _ _ _ = z at harts all storedTo
  rw [← cells] at storedTo
  obtain ⟨rest, resv⟩ := breakResv_only z z.cur [r.pa / 128]
  obtain ⟨mine, cur⟩ := breakResv_hart z z.cur [r.pa / 128]
  have byte := breakResv_byte z z.cur [r.pa / 128]
  have ends := fun k (other : k ≠ z.cur) held => breakResv_ends (s := z) (h := z.cur) (k := k) (l := r.pa / 128) (ls := [r.pa / 128]) held
    (List.mem_singleton_self _) other
  have cores : (breakResv z z.cur [r.pa / 128]).cores = t.cores := (congrArg State.cores rest :).trans all.cores
  have rests : restOf t (breakResv z z.cur [r.pa / 128]) = t := (congrArg (restOf t) rest :).trans all.restOf
  generalize breakResv z z.cur [r.pa / 128] = b at rest resv mine cur byte ends cores rests
  have zcur : z.cur = s.cur := harts.2.trans same.2.1
  have zhart : ∀ h, z.hart h = s.hart h := State.hart_of_harts (harts.1.trans same.1)
  have bcur : b.cur = s.cur := cur.trans zcur
  have bcore : ∀ c, b.core c = t.core c := State.core_of_cores cores
  have dropCore := l1Drop_core b (coreOf s.cur) (whoOf s s.cur true).tag (va.toNat / 128)
  have myCore : (l1Drop b (coreOf s.cur) (whoOf s s.cur true).tag [va.toNat / 128]).myCore =
      { t.core (coreOf s.cur) with l1 := (t.core (coreOf s.cur)).l1.filter fun y =>
        !(y.fn == (whoOf s s.cur true).tag && [va.toNat / 128].contains y.vline) } := by
    show (l1Drop b (coreOf s.cur) _ _).core (coreOf b.cur) = _
    rw [bcur, dropCore, if_pos rfl, bcore]
  have tcore : t.myCore = t.core (coreOf s.cur) := by rw [State.myCore, same.2.1]
  refine ⟨bcur, ?_, fun a ha => (byte a).trans (storedTo a ha), fun h other => ?_, fun h other held => ?_, fun y hy => ?_, nofun, fun c other => ?_, ?_, rests⟩
  · show b.hart b.cur = _
    rw [cur, mine, zhart, zcur]
    rfl
  · rw [← zhart h]
    exact resv h
  · exact ends h (zcur ▸ other) (zhart h ▸ held)
  · have hy := (congrArg (y ∈ ·.l1) myCore).mp hy
    have drop := (List.mem_filter.mp hy).2
    rintro ⟨fn, line⟩
    simp [fn, line] at drop
  · have other' := dropCore c
    rw [if_neg other, bcore] at other'
    exact other'
  · rw [tcore]
    exact (congrArg (fun c : Core => { c with l1 := (t.core (coreOf s.cur)).l1 }) myCore :)

end Sys2Proof
end

section
/-!
PROOF. O53, scalar loads and stores, and the values of AMOs (R177).
-/
namespace Sys2Proof
open Machine

variable {s t u : State} {i : Instr} {a : Acc} {n : Nat} {va : Word} {r : PRef} {y : CLine}

/-! ### The failures of scalar forms -/

/-- The outcomes of a scalar form whose checks do not pass (R179, R80, R23). -/
def ScalarFails (s : State) (i : Instr) (a : Acc) (n : Nat) (va : Word) : Prop :=
  (va.toNat % n ≠ 0 → Traps i s (if a = .rd then 4 else 6) va) ∧
  (va.toNat % n = 0 → (∀ v, wmHeld s [(va.toNat, n)] = some (some v) → Traps i s 49 (word v)) ∧
    (wmHeld s [(va.toNat, n)] = some none → Becomes i s { s.me with wait := .stall })) ∧
  (va.toNat % n = 0 → wmHeld s [(va.toNat, n)] = none →
    ∀ t f, translate s (whoOf s s.cur true) .scalar a (bitOf s.me.csr.mstatus 19) false va n = (t, .error f) →
    Runs i s (takeTrap t s.cur false
      (if a = .rd then (if f.kind = 8 ∨ f.kind = 9 ∨ f.kind = 10 then 5 else 13) else (if f.kind = 8 ∨ f.kind = 9 ∨ f.kind = 10 then 7 else 15)) va))

theorem scalarCause_eq (k : Nat) (data : a ≠ .ex) : scalarCause k a =
    if a = .rd then (if k = 8 ∨ k = 9 ∨ k = 10 then 5 else 13) else (if k = 8 ∨ k = 9 ∨ k = 10 then 7 else 15) := by
  unfold scalarCause
  cases a with
  | ex => exact absurd rfl data
  | rd => simp [or_assoc]
  | wr => simp [or_assoc]
  | rw => simp [or_assoc]

theorem scalarFails_of (data : a ≠ .ex) (ends : ∀ t, scalarPlace a n va s = .error t → Runs i s t) : ScalarFails s i a n va := by
  refine ⟨fun bad => ends _ (scalarPlace_misaligned bad), fun aligned => ⟨fun v held => ends _ (scalarPlace_failed aligned held), fun held => ?_⟩,
    fun aligned free t f fails => ?_⟩
  · exact ⟨_, ends _ (scalarPlace_held aligned held), rfl, fun _ => rfl⟩
  · have denied := scalarPlace_denied ⟨aligned, free⟩ fails
    rw [(SameMaker.of_translate fails).2.1, scalarCause_eq f.kind data] at denied
    exact ends _ denied

/-- The outcomes of a placed read whose line is spoilt, and what its line holds (R340, R70, R53). -/
def ScalarSpoilt (s : State) (i : Instr) (n : Nat) (va : Word) (t : State) (r : PRef) : Prop :=
  (∀ u, lineIn t (whoOf s s.cur true) va r = (u, none) → Runs i s (sealFail u s.cur r.pa r.key va)) ∧
  (∀ u y, ScalarTakes s t va r u y → y.psn = true → Runs i s (takeTrap u s.cur false 48 va)) ∧
  (∀ u y, ScalarTakes s t va r u y → u.harts = s.harts ∧ HomeMemory t u ∧
    (t.kline (whoOf s s.cur true) (va.toNat / 128) = none → r.key = 0 → r.pa % 128 = va.toNat % 128 → va.toNat % n = 0 → n ≤ 8 →
      lineNat y va n = leToNat (rawBytes t r.pa n)))

theorem aligned_inside {v : Nat} (size : n ∈ [1, 2, 4, 8]) (aligned : v % n = 0) : v % 128 + n ≤ 128 := by
  simp only [List.mem_cons, List.not_mem_nil, or_false] at size
  rcases size with rfl | rfl | rfl | rfl
  · omega
  · omega
  · omega
  · omega

theorem scalarSpoilt_of (same : SameMaker s t) (mem : paKind r.pa ≠ .mmio) (size : n ∈ [1, 2, 4, 8])
    (ends : ∀ x, scalarFetch r n va t = .error x → Runs i s x) : ScalarSpoilt s i n va t r := by
  refine ⟨fun u broken => ?_, fun u y takes psn => ?_, fun u y takes => ⟨?_, takes.moves.1, fun absent plain place aligned _ => ?_⟩⟩
  · have moves := lineIn_moves t (whoOf s s.cur true) va r
    rw [broken] at moves
    have fails := scalarFetch_broken (n := n) same mem broken
    rw [moves.sameHarts.2.trans same.2.1] at fails
    exact ends _ fails
  · have fails := scalarFetch_poison (n := n) same mem takes psn
    rw [takes.moves.sameHarts.2.trans same.2.1] at fails
    exact ends _ fails
  · exact takes.moves.sameHarts.1.trans same.1
  · exact takes.lineNat absent plain place (aligned_inside size aligned)

/-! ### Loads -/

theorem loadShape_of_mem {k : LoadKind} {sg fp : Bool} (row : (k, n, sg, fp) ∈ scalarLoads) :
    loadShape k = (n, sg, fp) ∧ n ∈ [1, 2, 4, 8] ∧ (fp = true → n = 4 ∨ n = 8) := by
  have rows : ∀ p ∈ scalarLoads, loadShape p.1 = p.2 ∧ p.2.1 ∈ [1, 2, 4, 8] ∧ (p.2.2.2 = true → p.2.1 = 4 ∨ p.2.1 = 8) := by decide
  exact rows _ row

theorem retire_modMe (same : SameHarts s u) (f : Hart → Hart) : retire (u.modMe f) = u.setHart s.cur (f s.me).done := by
  rw [retire, State.modMe_modMe, State.modMe, State.modHart, same.2]
  have me : u.hart s.cur = s.me := State.hart_of_harts same.1 _
  rw [me]
  rfl

/-- What a load gives to its integer register. -/
theorem loadTo_int (h : Hart) (sg : Bool) (d v : Nat) : XReg h (loadTo false sg d n v h).done d (if sg then sext (word v) (8 * n) else word v) ∧
    { (loadTo false sg d n v h).done with x := h.x } = h.done := by
  have read : ∀ m, (loadTo false sg d n v h).done.getX m = (h.setX d (if sg then sext (word v) (8 * n) else word v)).getX m := fun _ => rfl
  refine ⟨fun m => ?_, ?_⟩
  · rw [read, Hart.getX_setX]
  have frame := Hart.setX_frame h d (if sg then sext (word v) (8 * n) else word v)
  exact (congrArg Hart.done frame :)

theorem setFs_setF_frame (h : Hart) (d : Nat) (b : Word) : { ((h.setF d b).setFs 3).done with f := h.f } = (h.setFs 3).done := by
  unfold Hart.setFs Hart.setF Hart.done Hart.counted
  rfl

/-- What a load gives to its floating-point register: an FP32 is NaN-boxed, and FS is dirty (R177). -/
theorem loadTo_fp (h : Hart) (sg : Bool) (d v : Nat) (size : n = 4 ∨ n = 8) :
    (∀ k, (loadTo true sg d n v h).done.getF k = if k = d then (if n = 8 then word v else word v + 0xFFFFFFFF00000000) else h.getF k) ∧
    { (loadTo true sg d n v h).done with f := h.f } = (h.setFs 3).done := by
  refine ⟨fun k => ?_, setFs_setF_frame ..⟩
  have boxed : word (v + (2 ^ 32 - 1) * 2 ^ 32) = word v + 0xFFFFFFFF00000000 := BitVec.ofNat_add ..
  have read : (loadTo true sg d n v h).done.getF k = (h.f.set 0 d (if n == 8 then word v else word (v + (2 ^ 32 - 1) * 2 ^ 32))).get 0 k := rfl
  rw [read, SMap.get_set, boxed]
  rcases size with rfl | rfl
  · rfl
  · rfl

theorem exec_scalarLoad_off {o : LoadOp} (fp : (loadShape o.kind).2.2 = true) (off : s.me.fs = 0) : Traps (.scalarLoad o) s 2 s.me.ibits :=
  (exec_scalarLoad o s).trans (if_pos ⟨fp, off⟩)

/-- A load whose floating-point registers, where it needs them, are on. -/
theorem exec_scalarLoad_on {o : LoadOp} {sg fp : Bool} (shape : loadShape o.kind = (n, sg, fp)) (on : fp = true → s.me.fs ≠ 0) :
    exec (.scalarLoad o) s = finish (do
      let r ← scalarPlace .rd n (s.me.getX o.rs1.toNat + o.imm.signExtend 64)
      let v ← scalarFetch r n (s.me.getX o.rs1.toNat + o.imm.signExtend 64)
      onMe (loadTo fp sg o.rd.toNat n v)
      retireX) s := by
  rw [exec_scalarLoad, execScalarLoad, shape]
  exact if_neg fun off => on off.1 off.2

theorem scalarLoad_spec {o : LoadOp} {sg fp : Bool} (row : (o.kind, n, sg, fp) ∈ scalarLoads) (on : fp = true → s.me.fs ≠ 0) :
    let i := Instr.scalarLoad o
    let x := s.me
    let va := x.getX o.rs1.toNat + o.imm.signExtend 64
    ScalarFails s i .rd n va ∧ ∀ t r, ScalarPlaced s .rd n va t r → ScalarSpoilt s i n va t r ∧
      ∀ u y, ScalarTakes s t va r u y → y.psn = false →
        let m := word (lineNat y va n)
        ∃ h', Runs i s (u.setHart s.cur h') ∧
          (fp = false → XReg x h' o.rd.toNat (if sg then sext m (8 * n) else m) ∧ { h' with x := x.x } = x.done) ∧
          (fp = true → (∀ k, h'.getF k = if k = o.rd.toNat then (if n = 8 then m else m + 0xFFFFFFFF00000000) else x.getF k) ∧
            { h' with f := x.f } = (x.setFs 3).done) := by
  intro i x va
  obtain ⟨shape, size, fpSize⟩ := loadShape_of_mem row
  have run := exec_scalarLoad_on shape on
  refine ⟨scalarFails_of (by decide) fun t ends => run.trans (finish_error (bind_error ends)), fun t r placed => ?_⟩
  have same := placed.checked.sameMaker
  have mem : paKind r.pa ≠ .mmio := placed.2.2.1
  have place := scalarPlace_checked placed.free placed.checked
  refine ⟨scalarSpoilt_of same mem size fun z ends => run.trans (finish_error ((bind_ok place).trans (bind_error ends))), fun u y takes clean => ?_⟩
  have fetch := scalarFetch_takes (n := n) same mem takes clean
  have goes : Runs i s (retire (u.modMe (loadTo fp sg o.rd.toNat n (lineNat y va n)))) :=
    run.trans (finish_ok ((bind_ok place).trans ((bind_ok fetch).trans ((bind_ok (m := onMe _) rfl).trans rfl))))
  rw [retire_modMe (same.trans takes.moves.sameMaker).sameHarts] at goes
  refine ⟨_, goes, ?_, ?_⟩
  · rintro rfl
    exact loadTo_int ..
  · rintro rfl
    exact loadTo_fp _ _ _ _ (fpSize rfl)

/-! ### Stores -/

theorem storeShape_of_mem {k : StoreKind} {fp : Bool} (row : (k, n, fp) ∈ scalarStores) : storeShape k = (n, fp) ∧ n ≠ 0 := by
  have rows : ∀ p ∈ scalarStores, storeShape p.1 = p.2 ∧ p.2.1 ≠ 0 := by decide
  exact rows _ row

theorem exec_scalarStore_off {o : StoreOp} (fp : (storeShape o.kind).2 = true) (off : s.me.fs = 0) : Traps (.scalarStore o) s 2 s.me.ibits :=
  (exec_scalarStore o s).trans (if_pos ⟨fp, off⟩)

/-- A store whose floating-point registers, where it needs them, are on. -/
theorem exec_scalarStore_on {o : StoreOp} {fp : Bool} (shape : storeShape o.kind = (n, fp)) (on : fp = true → s.me.fs ≠ 0) :
    exec (.scalarStore o) s = finish (do
      let r ← scalarPlace .wr n (s.me.getX o.rs1.toNat + o.imm.signExtend 64)
      scalarPut r n (s.me.getX o.rs1.toNat + o.imm.signExtend 64) (storeData s.me fp n o.rs2)
      retireX) s := by
  rw [exec_scalarStore, execScalarStore, shape]
  exact if_neg fun off => on off.1 off.2

theorem scalarStore_spec {o : StoreOp} {fp : Bool} (row : (o.kind, n, fp) ∈ scalarStores) (on : fp = true → s.me.fs ≠ 0) :
    let i := Instr.scalarStore o
    let x := s.me
    let w := whoOf s s.cur true
    let va := x.getX o.rs1.toNat + o.imm.signExtend 64
    ScalarFails s i .wr n va ∧ ∀ t r, ScalarPlaced s .wr n va t r →
      (entryOk t w (va.toNat / 128) r.key (r.pa / 128) = false → Runs i s (sealFail t s.cur r.pa r.key va)) ∧
      (entryOk t w (va.toNat / 128) r.key (r.pa / 128) = true →
        ScalarStores i s t va r n ((if fp then x.getF o.rs2.toNat else x.getX o.rs2.toNat).toNat % 256 ^ n) x.done false) := by
  intro i x w va
  obtain ⟨shape, size⟩ := storeShape_of_mem row
  have run := exec_scalarStore_on shape on
  refine ⟨scalarFails_of (by decide) fun t ends => run.trans (finish_error (bind_error ends)), fun t r placed => ?_⟩
  have same := placed.checked.sameMaker
  have mem : paKind r.pa ≠ .mmio := placed.2.2.1
  have place := scalarPlace_checked placed.free placed.checked
  refine ⟨fun broken => ?_, fun enters plain home => ?_⟩
  · have fails := scalarPut_broken (n := n) (v := storeData s.me fp n o.rs2) same mem broken
    rw [same.2.1] at fails
    exact run.trans (finish_error ((bind_ok place).trans (bind_error fails)))
  · have put := scalarPut_mem (n := n) (v := storeData s.me fp n o.rs2) same mem enters
    have goes : Runs i s (retire (scalarPutAt t w va r n (storeData s.me fp n o.rs2))) := run.trans (finish_ok ((bind_ok place).trans ((bind_ok put).trans rfl)))
    exact (scalarPutAt_putBy same size plain home).retire.scalarStores goes plain home

/-! ### The value that an atomic writes -/

/-- A number of n bytes, sign-extended, is the number read as signed. -/
theorem toInt_sext {m : Nat} (size : n = 4 ∨ n = 8) (small : m < 2 ^ (8 * n)) : (sext (word m) (8 * n)).toInt = toS (8 * n) m := by
  unfold sext toS word
  dsimp only
  rcases size with rfl | rfl
  · have place : (BitVec.ofNat 64 m).toNat % 2 ^ (8 * 4) = m := by
      rw [BitVec.toNat_ofNat]
      omega
    rw [place]
    split
    · rw [BitVec.toInt_eq_toNat_cond, BitVec.toNat_ofNat]
      omega
    · rw [BitVec.toInt_eq_toNat_cond, BitVec.toNat_ofNat]
      omega
  · have place : (BitVec.ofNat 64 m).toNat % 2 ^ (8 * 8) = m := by
      rw [BitVec.toNat_ofNat]
      omega
    rw [place]
    split
    · rw [BitVec.toInt_eq_toNat_cond, BitVec.toNat_ofNat]
      omega
    · rw [BitVec.toInt_eq_toNat_cond, BitVec.toNat_ofNat]
      omega

theorem toS_inj {w m v : Nat} (hm : m < 2 ^ w) (hv : v < 2 ^ w) (e : toS w m = toS w v) : m = v := by
  unfold toS at e
  split at e
  · split at e
    · omega
    · have : (v : Int) < 2 ^ w := by exact_mod_cast hv
      omega
  · split at e
    · have : (m : Int) < 2 ^ w := by exact_mod_cast hm
      omega
    · omega

theorem amoResult_eq {k : AmoKind} {g : Nat → Nat → Nat → Nat} {m v : Nat} (row : (k, g) ∈ scalarAmos) (size : n = 4 ∨ n = 8)
    (hm : m < 2 ^ (8 * n)) (hv : v < 2 ^ (8 * n)) : amoResult k n m v = g (8 * n) m v := by
  have fits : 2 ^ (8 * n) ≤ 2 ^ 64 := Nat.pow_le_pow_right (by decide) (by omega)
  have bm : (word m).toNat = m := by
    rw [word, BitVec.toNat_ofNat, Nat.mod_eq_of_lt (by omega)]
  have bv : (word v).toNat = v := by
    rw [word, BitVec.toNat_ofNat, Nat.mod_eq_of_lt (by omega)]
  have sm := toInt_sext size hm
  have sv := toInt_sext size hv
  simp only [scalarAmos, List.mem_cons, Prod.mk.injEq, List.not_mem_nil, or_false] at row
  rcases row with ⟨rfl, rfl⟩ | ⟨rfl, rfl⟩ | ⟨rfl, rfl⟩ | ⟨rfl, rfl⟩ | ⟨rfl, rfl⟩ | ⟨rfl, rfl⟩ | ⟨rfl, rfl⟩ | ⟨rfl, rfl⟩ | ⟨rfl, rfl⟩
  case _ => rfl
  case _ =>
    show (word m + word v).toNat % 256 ^ n = (m + v) % 2 ^ (8 * n)
    rw [BitVec.toNat_add, bm, bv, pow_mul]
    exact Nat.mod_mod_of_dvd _ (pow_mul 2 8 n ▸ Nat.pow_dvd_pow 2 (by omega))
  case _ => exact BitVec.toNat_xor .. |>.trans (by rw [bm, bv])
  case _ => exact BitVec.toNat_and .. |>.trans (by rw [bm, bv])
  case _ => exact BitVec.toNat_or .. |>.trans (by rw [bm, bv])
  case _ =>
    show (if (sext (word m) (8 * n)).toInt ≤ (sext (word v) (8 * n)).toInt then m else v) = if toS (8 * n) v < toS (8 * n) m then v else m
    rw [sm, sv]
    split_ifs
    · omega
    · rfl
    · rfl
    · omega
  case _ =>
    show (if (sext (word m) (8 * n)).toInt ≤ (sext (word v) (8 * n)).toInt then v else m) = if toS (8 * n) m < toS (8 * n) v then v else m
    rw [sm, sv]
    split_ifs with le lt lt
    · rfl
    · exact (toS_inj hm hv (le_antisymm le (not_lt.mp lt))).symm
    · exact absurd lt.le le
    · rfl
  case _ => rfl
  case _ => rfl

end Sys2Proof
end

section
/-!
PROOF. O53, scalar atomics in their steps (R112, R123, R124).
-/
namespace Sys2Proof
open Machine

variable {s t t₀ u : State} {n : Nat} {va : Word} {r r₀ : PRef} {y : CLine} {o : AmoOp}

/-! ### Atomics in steps -/

/-- What an atomic is checked as (R177). -/
def atomicAcc (k : AmoKind) : Acc := if k = .lr then .rd else if k = .sc then .wr else .rw

/-- What an atomic reads: a store-conditional to a register of the MMIO range reads nothing (R53). -/
def atomicFetch (k : AmoKind) (r : PRef) (n : Nat) (va : Word) : Exec Nat :=
  if k = .sc ∧ paKind r.pa = .mmio then pure 0 else scalarFetch r n va

/-- What an atomic does at `r` with the value read, once what it releases is performed. -/
def atomicEnd (o : AmoOp) (n : Nat) (va : Word) (r : PRef) (m : Nat) : Exec Unit :=
  if o.kind = .lr then onMe fun h => { h.setX o.rd.toNat (sext (word m) (8 * n)) with resv := some (r.pa / 128) }
  else if o.kind = .sc then do
    let h ← meX
    if h.resv == some (r.pa / 128) then scalarPut r n va (storeData h false n o.rs2) else pure ()
    onMe fun x => { x.setX o.rd.toNat (b2w !(h.resv == some (r.pa / 128))) with resv := none }
  else do
    let h ← meX
    scalarPut r n va (amoResult o.kind n m (storeData h false n o.rs2))
    onMe fun h => h.setX o.rd.toNat (sext (word m) (8 * n))

/-- What ends an atomic that completes: an acquire, where it is one, and the marks of a completed instruction. -/
def atomicDone (o : AmoOp) : Exec Unit := do
  upd fun s => if o.aq then acquire s 5 else s
  retireX

theorem atomicFetch_mem (k : AmoKind) (mem : paKind r.pa ≠ .mmio) : atomicFetch k r n va = scalarFetch r n va := if_neg fun h => mem h.2

/-- An atomic after its checks. -/
def atomicRest (o : AmoOp) (n : Nat) (va : Word) (r : PRef) : Exec Unit := do
  let r ← atPeerHome va r
  let m ← atomicFetch o.kind r n va
  amoRelease o
  atomicEnd o n va r m
  atomicDone o

theorem loadReserved_steps (kind : o.kind = .lr) : (loadReserved o n va >>= fun _ => atomicDone o) = scalarPlace .rd n va >>= atomicRest o n va := by
  have fetch : ∀ r, atomicFetch o.kind r n va = scalarFetch r n va := fun r => if_neg (by simp [kind])
  have fin : ∀ r m, atomicEnd o n va r m = onMe fun h => { h.setX o.rd.toNat (sext (word m) (8 * n)) with resv := some (r.pa / 128) } :=
    fun r m => if_pos kind
  unfold atomicRest
  simp only [loadReserved, bind_assoc, fetch, fin]

theorem storeConditional_steps (kind : o.kind = .sc) : (storeConditional o n va >>= fun _ => atomicDone o) = scalarPlace .wr n va >>= atomicRest o n va := by
  have fetch : ∀ r, atomicFetch o.kind r n va = if paKind r.pa = .mmio then pure 0 else scalarFetch r n va := fun r => by simp only [atomicFetch, kind, true_and]
  have fin : ∀ r m, atomicEnd o n va r m = (do
      let h ← meX
      if h.resv == some (r.pa / 128) then scalarPut r n va (storeData h false n o.rs2) else pure ()
      onMe fun x => { x.setX o.rd.toNat (b2w !(h.resv == some (r.pa / 128))) with resv := none }) :=
    fun r m => (if_neg (by simp [kind])).trans (if_pos kind)
  unfold atomicRest storeConditional
  simp only [bind_assoc, fetch, fin]
  refine bind_congr fun r₀ => bind_congr fun r => ?_
  split
  · simp only [bind_assoc, pure_bind]
  · simp only [bind_assoc]

theorem scalarAmo_steps (load : o.kind ≠ .lr) (cond : o.kind ≠ .sc) :
    (scalarAmo o n va >>= fun _ => atomicDone o) = scalarPlace .rw n va >>= atomicRest o n va := by
  unfold atomicRest
  simp only [scalarAmo, bind_assoc, atomicFetch, atomicEnd, load, cond, false_and, if_false]

/-- Every atomic in its steps: checks, the home of a peer's line, the read, the release, the write, the acquire (R123, R124, R112). -/
theorem exec_scalarAtomic_steps (o : AmoOp) (s : State) :
    exec (.scalarAtomic o) s = finish (do
      let r ← scalarPlace (atomicAcc o.kind) (if o.dbl then 8 else 4) (s.me.getX o.rs1.toNat)
      atomicRest o (if o.dbl then 8 else 4) (s.me.getX o.rs1.toNat) r) s := by
  have steps : exec (.scalarAtomic o) s = finish ((match o.kind with
      | .lr => loadReserved o (if o.dbl then 8 else 4) (s.me.getX o.rs1.toNat)
      | .sc => storeConditional o (if o.dbl then 8 else 4) (s.me.getX o.rs1.toNat)
      | _ => scalarAmo o (if o.dbl then 8 else 4) (s.me.getX o.rs1.toNat)) >>= fun _ => atomicDone o) s := rfl
  rw [steps]
  refine congrArg (finish · s) ?_
  split
  case _ kind =>
    have acc : atomicAcc o.kind = .rd := if_pos kind
    rw [loadReserved_steps kind, acc]
  case _ kind =>
    have acc : atomicAcc o.kind = .wr := by simp [atomicAcc, kind]
    rw [storeConditional_steps kind, acc]
  case _ load cond =>
    have acc : atomicAcc o.kind = .rw := (if_neg load).trans (if_neg cond)
    rw [scalarAmo_steps load cond, acc]

/-! ### Atomics -/

theorem finish_bind_ok {α : Type} {m : Exec α} {f : α → Exec Unit} {s t : State} {a : α} (h : m s = .ok (a, t)) : finish (m >>= f) s = finish (f a) t := by
  unfold finish
  rw [bind_ok h]

theorem atomicAcc_data (k : AmoKind) : atomicAcc k ≠ .ex := by
  unfold atomicAcc
  split
  · decide
  · split
    · decide
    · decide

theorem peerHome_home (w : Who) (vl : Nat) (home : isPeer (r.pa / 128) = false) : peerHome t w vl r = (t, r) := by
  unfold peerHome
  rw [home]
  rfl

theorem peerHome_peer (w : Who) (vl : Nat) (peer : isPeer (r.pa / 128) = true) : (peerHome t w vl r).2 = { r with cm := 2 } := by
  unfold peerHome
  rw [peer]
  rfl

/-- The place of an atomic at its home is the address that was placed. -/
theorem peerHome_pa (t : State) (w : Who) (vl : Nat) (r : PRef) : (peerHome t w vl r).2.pa = r.pa := by
  cases peer : isPeer (r.pa / 128) with
  | false => rw [peerHome_home w vl peer]
  | true => rw [peerHome_peer w vl peer]

theorem exec_scalarAtomic_placeFails (ends : scalarPlace (atomicAcc o.kind) (if o.dbl then 8 else 4) (s.me.getX o.rs1.toNat) s = .error t) :
    Runs (.scalarAtomic o) s t := (exec_scalarAtomic_steps o s).trans (finish_error (bind_error ends))

/-- An atomic whose checks pass goes on at its home. -/
theorem exec_scalarAtomic_placed (size : n = if o.dbl then 8 else 4) (vaEq : va = s.me.getX o.rs1.toNat)
    (placed : ScalarPlaced s (atomicAcc o.kind) n va t₀ r₀) (atHome : peerHome t₀ (whoOf s s.cur true) (va.toNat / 128) r₀ = (t, r)) :
    SameMaker s t ∧ paKind r.pa ≠ .mmio ∧
    exec (.scalarAtomic o) s = finish (do
      let m ← scalarFetch r n va
      amoRelease o
      atomicEnd o n va r m
      atomicDone o) t := by
  subst size vaEq
  have same := placed.checked.sameMaker
  have moves := peerHome_moves t₀ (whoOf s s.cur true) ((s.me.getX o.rs1.toNat).toNat / 128) r₀
  have pa := peerHome_pa t₀ (whoOf s s.cur true) ((s.me.getX o.rs1.toNat).toNat / 128) r₀
  rw [atHome] at moves pa
  have mem : paKind r.pa ≠ .mmio := by
    rw [show r.pa = r₀.pa from pa]
    exact placed.2.2.1
  refine ⟨same.trans moves.sameMaker, mem, ?_⟩
  have home : atPeerHome (s.me.getX o.rs1.toNat) r₀ t₀ = .ok (r, t) := by
    unfold atPeerHome
    dsimp only
    rw [same.whoOf, atHome]
  rw [exec_scalarAtomic_steps, finish_bind_ok (scalarPlace_checked placed.free placed.checked), atomicRest, finish_bind_ok home, atomicFetch_mem _ mem]

/-- The release of an atomic. -/
def releasedBy (o : AmoOp) (s u : State) : State := if o.rl then coreRelease u (coreOf s.cur) 5 else u

theorem releasedBy_moves (o : AmoOp) (s u : State) : CacheMoves u (releasedBy o s u) := by
  unfold releasedBy
  split
  · exact coreRelease_moves ..
  · exact .refl u

theorem amoRelease_ok (cur : u.cur = s.cur) : amoRelease o u = .ok ((), releasedBy o s u) := by
  unfold amoRelease releasedBy
  rw [← cur]
  rfl

/-- What ends an atomic that completes. -/
def atomicRetired (o : AmoOp) (u : State) : State := retire (if o.aq then acquire u 5 else u)

theorem atomicDone_next (o : AmoOp) (u : State) : finish (atomicDone o) u = .next (atomicRetired o u) := rfl

/-- An atomic that has read its line writes once its release is performed. -/
theorem exec_scalarAtomic_read (size : n = if o.dbl then 8 else 4) (vaEq : va = s.me.getX o.rs1.toNat)
    (placed : ScalarPlaced s (atomicAcc o.kind) n va t₀ r₀) (atHome : peerHome t₀ (whoOf s s.cur true) (va.toNat / 128) r₀ = (t, r))
    (takes : ScalarTakes s t va r u y) (clean : y.psn = false) :
    SameMaker s (releasedBy o s u) ∧ paKind r.pa ≠ .mmio ∧
    exec (.scalarAtomic o) s = finish (atomicEnd o n va r (lineNat y va n) >>= fun _ => atomicDone o) (releasedBy o s u) := by
  obtain ⟨same, mem, run⟩ := exec_scalarAtomic_placed size vaEq placed atHome
  have read := same.trans takes.moves.sameMaker
  refine ⟨read.trans (releasedBy_moves o s u).sameMaker, mem, ?_⟩
  rw [run, finish_bind_ok (scalarFetch_takes same mem takes clean), finish_bind_ok (amoRelease_ok read.2.1)]

theorem onMe_ok (same : SameHarts s u) (f : Hart → Hart) : onMe f u = .ok ((), u.setHart s.cur (f s.me)) := by
  have me : u.hart s.cur = s.me := State.hart_of_harts same.1 _
  show Except.ok ((), u.setHart u.cur (f (u.hart u.cur))) = _
  rw [same.2, me]

theorem leToNat_lt (bs : List Byte) : leToNat bs < 256 ^ bs.length := by
  induction bs with
  | nil => decide
  | cons b bs ih =>
    have small := b.isLt
    show b.toNat + 256 * leToNat bs < 256 ^ (bs.length + 1)
    rw [pow_succ]
    omega

theorem lineNat_lt (y : CLine) (va : Word) (n : Nat) : lineNat y va n < 2 ^ (8 * n) := by
  rw [pow_mul]
  exact lt_of_lt_of_le (leToNat_lt _) (Nat.pow_le_pow_right (by decide) (List.length_take_le ..))

theorem scalarLr_spec (kind : o.kind = .lr) (size : n = if o.dbl then 8 else 4) (vaEq : va = s.me.getX o.rs1.toNat)
    (placed : ScalarPlaced s .rd n va t₀ r₀) (atHome : peerHome t₀ (whoOf s s.cur true) (va.toNat / 128) r₀ = (t, r))
    (takes : ScalarTakes s t va r u y) (clean : y.psn = false) :
    Runs (.scalarAtomic o) s (atomicRetired o ((releasedBy o s u).setHart s.cur
      { s.me.setX o.rd.toNat (sext (word (lineNat y va n)) (8 * n)) with resv := some (r.pa / 128) })) := by
  have acc : atomicAcc o.kind = .rd := if_pos kind
  obtain ⟨same, -, run⟩ := exec_scalarAtomic_read size vaEq (acc ▸ placed) atHome takes clean
  have load : atomicEnd o n va r (lineNat y va n) = onMe fun h => { h.setX o.rd.toNat (sext (word (lineNat y va n)) (8 * n)) with resv := some (r.pa / 128) } :=
    if_pos kind
  rw [Runs, run, load, finish_bind_ok (onMe_ok same.sameHarts _), atomicDone_next]

/-- The steps of a store-conditional after its read. -/
theorem atomicEnd_sc (kind : o.kind = .sc) (m : Nat) : atomicEnd o n va r m = (do
    let h ← meX
    if h.resv == some (r.pa / 128) then scalarPut r n va (storeData h false n o.rs2) else pure ()
    onMe fun x => { x.setX o.rd.toNat (b2w !(h.resv == some (r.pa / 128))) with resv := none }) :=
  (if_neg (by simp [kind])).trans (if_pos kind)

theorem scalarSc_fails (kind : o.kind = .sc) (size : n = if o.dbl then 8 else 4) (vaEq : va = s.me.getX o.rs1.toNat)
    (placed : ScalarPlaced s .wr n va t₀ r₀) (atHome : peerHome t₀ (whoOf s s.cur true) (va.toNat / 128) r₀ = (t, r))
    (takes : ScalarTakes s t va r u y) (clean : y.psn = false) (lost : s.me.resv ≠ some (r.pa / 128)) :
    Runs (.scalarAtomic o) s (atomicRetired o ((releasedBy o s u).setHart s.cur { s.me.setX o.rd.toNat 1 with resv := none })) := by
  have acc : atomicAcc o.kind = .wr := by simp [atomicAcc, kind]
  obtain ⟨same, -, run⟩ := exec_scalarAtomic_read size vaEq (acc ▸ placed) atHome takes clean
  have bad : (s.me.resv == some (r.pa / 128)) = false := by simpa using lost
  have ends : atomicEnd o n va r (lineNat y va n) (releasedBy o s u) =
      .ok ((), (releasedBy o s u).setHart s.cur { s.me.setX o.rd.toNat 1 with resv := none }) := by
    rw [atomicEnd_sc kind, bind_ok (m := meX) rfl, same.sameHarts.me, bad]
    exact onMe_ok same.sameHarts _
  rw [Runs, run, finish_bind_ok ends, atomicDone_next]

theorem scalarSc_stores (kind : o.kind = .sc) (size : n = if o.dbl then 8 else 4) (vaEq : va = s.me.getX o.rs1.toNat)
    (placed : ScalarPlaced s .wr n va t₀ r₀) (atHome : peerHome t₀ (whoOf s s.cur true) (va.toNat / 128) r₀ = (t, r))
    (takes : ScalarTakes s t va r u y) (clean : y.psn = false) (held : s.me.resv = some (r.pa / 128))
    (enters : entryOk (releasedBy o s u) (whoOf s s.cur true) (va.toNat / 128) r.key (r.pa / 128) = true) :
    ScalarStores (.scalarAtomic o) s (releasedBy o s u) va r n ((s.me.getX o.rs2.toNat).toNat % 256 ^ n)
      ({ s.me.setX o.rd.toNat 0 with resv := none } : Hart).done o.aq := by
  intro plain home
  have acc : atomicAcc o.kind = .wr := by simp [atomicAcc, kind]
  obtain ⟨same, mem, run⟩ := exec_scalarAtomic_read size vaEq (acc ▸ placed) atHome takes clean
  have good : (s.me.resv == some (r.pa / 128)) = true := by simpa using held
  have nonzero : n ≠ 0 := by rw [size]; split <;> decide
  have put := scalarPut_mem (n := n) (v := storeData s.me false n o.rs2) same mem enters
  have ends : atomicEnd o n va r (lineNat y va n) (releasedBy o s u) =
      .ok ((), (scalarPutAt (releasedBy o s u) (whoOf s s.cur true) va r n (storeData s.me false n o.rs2)).modMe
        fun x => { x.setX o.rd.toNat 0 with resv := none }) := by
    rw [atomicEnd_sc kind, bind_ok (m := meX) rfl, same.sameHarts.me, good, if_pos rfl, bind_ok put]
    rfl
  have runs : Runs (.scalarAtomic o) s _ := (run.trans (finish_bind_ok ends)).trans (atomicDone_next ..)
  exact (((scalarPutAt_putBy same nonzero plain home).modMe _).acquires.retire.scalarStores runs) plain home

theorem scalarAmo_spec {g : Nat → Nat → Nat → Nat} (row : (o.kind, g) ∈ scalarAmos) (size : n = if o.dbl then 8 else 4) (vaEq : va = s.me.getX o.rs1.toNat)
    (placed : ScalarPlaced s .rw n va t₀ r₀) (atHome : peerHome t₀ (whoOf s s.cur true) (va.toNat / 128) r₀ = (t, r))
    (takes : ScalarTakes s t va r u y) (clean : y.psn = false)
    (enters : entryOk (releasedBy o s u) (whoOf s s.cur true) (va.toNat / 128) r.key (r.pa / 128) = true) :
    ScalarStores (.scalarAtomic o) s (releasedBy o s u) va r n (g (8 * n) (lineNat y va n) ((s.me.getX o.rs2.toNat).toNat % 256 ^ n))
      (s.me.setX o.rd.toNat (sext (word (lineNat y va n)) (8 * n))).done o.aq := by
  intro plain home
  have kinds : ∀ p ∈ scalarAmos.map Prod.fst, p ≠ .lr ∧ p ≠ .sc := by decide
  obtain ⟨notLr, notSc⟩ := kinds _ (List.mem_map_of_mem row)
  have acc : atomicAcc o.kind = .rw := (if_neg notLr).trans (if_neg notSc)
  obtain ⟨same, mem, run⟩ := exec_scalarAtomic_read size vaEq (acc ▸ placed) atHome takes clean
  have sizes : n = 4 ∨ n = 8 := by rw [size]; split <;> simp
  have old : lineNat y va n < 2 ^ (8 * n) := lineNat_lt ..
  have src : storeData s.me false n o.rs2 < 2 ^ (8 * n) := by
    rw [pow_mul]
    exact Nat.mod_lt _ (by positivity)
  rw [← show storeData s.me false n o.rs2 = (s.me.getX o.rs2.toNat).toNat % 256 ^ n from rfl, ← amoResult_eq row sizes old src]
  have put := scalarPut_mem (n := n) (v := amoResult o.kind n (lineNat y va n) (storeData s.me false n o.rs2)) same mem enters
  have ends : atomicEnd o n va r (lineNat y va n) (releasedBy o s u) =
      .ok ((), (scalarPutAt (releasedBy o s u) (whoOf s s.cur true) va r n (amoResult o.kind n (lineNat y va n) (storeData s.me false n o.rs2))).modMe
        fun h => h.setX o.rd.toNat (sext (word (lineNat y va n)) (8 * n))) := by
    unfold atomicEnd
    rw [if_neg notLr, if_neg notSc, bind_ok (m := meX) rfl, same.sameHarts.me, bind_ok put]
    rfl
  have runs : Runs (.scalarAtomic o) s _ := (run.trans (finish_bind_ok ends)).trans (atomicDone_next ..)
  exact (((scalarPutAt_putBy same (by omega) plain home).modMe _).acquires.retire.scalarStores runs) plain home

end Sys2Proof
end

section
/-!
PROOF. O53, the MMIO range (R402), and the statement.
-/
namespace Sys2Proof
open Machine

variable {s t t0 : State} {va : Word} {r r0 : PRef}

/-! ### The MMIO range -/

theorem word_toNat (v : Word) : word v.toNat = v := by simp [word]

theorem word_storeData (h : Hart) (i : BitVec 5) : word (storeData h false 8 i) = h.getX i.toNat := by
  have small := (h.getX i.toNat).isLt
  have data : storeData h false 8 i = (h.getX i.toNat).toNat % 256 ^ 8 := by simp only [storeData, Bool.false_eq_true, if_false]
  rw [data, Nat.mod_eq_of_lt (lt_of_lt_of_eq small (by norm_num)), word_toNat]

/-- A doubleword load of the MMIO range reads the register there (R402). -/
theorem scalarLoad_mmio {o : LoadOp} (kind : o.kind = .ld) (vaEq : va = s.me.getX o.rs1.toNat + o.imm.signExtend 64) (free : ScalarFree s 8 va)
    (mmio : paKind r.pa = .mmio)
    (passes : translate s (whoOf s s.cur true) .scalar .rd (bitOf s.me.csr.mstatus 19) false va 8 = (t, .ok r)) (unheld : flipHeld t r.pa = false) :
    Runs (.scalarLoad o) s (retire ((mmioRead t false r.pa).1.modMe fun h => h.setX o.rd.toNat (mmioRead t false r.pa).2)) := by
  subst vaEq
  have shape : loadShape o.kind = (8, false, false) := by rw [kind]; rfl
  have place := scalarPlace_checked (t := t) (r := r) free ⟨t, r, passes, unheld, rfl, rfl⟩
  have fetch : scalarFetch r 8 (s.me.getX o.rs1.toNat + o.imm.signExtend 64) t = .ok ((mmioRead t false r.pa).2.toNat, (mmioRead t false r.pa).1) := by
    unfold scalarFetch
    dsimp only
    rw [if_pos mmio, if_pos rfl]
  have run := (exec_scalarLoad_on shape nofun).trans (finish_ok ((bind_ok place).trans ((bind_ok fetch).trans ((bind_ok (m := onMe _) rfl).trans rfl))))
  have load : loadTo false false o.rd.toNat 8 (mmioRead t false r.pa).2.toNat = fun h => h.setX o.rd.toNat (mmioRead t false r.pa).2 := by
    funext h
    show h.setX o.rd.toNat (word (mmioRead t false r.pa).2.toNat) = _
    rw [word_toNat]
  rw [load] at run
  exact run

theorem scalarPut_mmio_ok {h : Hart} {i : BitVec 5} {u : State} (same : SameMaker s t) (mmio : paKind r.pa = .mmio)
    (ok : mmioWrite t (posterOf (whoOf s s.cur true)) r.pa (h.getX i.toNat) = .ok u) : scalarPut r 8 va (storeData h false 8 i) t = .ok ((), u) := by
  unfold scalarPut
  dsimp only
  rw [if_pos mmio, if_neg (by simp), same.whoOf, word_storeData, ok]

theorem scalarPut_mmio_wait {h : Hart} {i : BitVec 5} {g : State → State} (same : SameMaker s t) (mmio : paKind r.pa = .mmio)
    (wait : mmioWrite t (posterOf (whoOf s s.cur true)) r.pa (h.getX i.toNat) = .wait g) :
    scalarPut r 8 va (storeData h false 8 i) t = .error ((g t).modMe fun x => { x with wait := .stall }) := by
  unfold scalarPut
  dsimp only
  rw [if_pos mmio, if_neg (by simp), same.whoOf, word_storeData, wait]
  rfl

/-- A doubleword store of the MMIO range writes the register there, or waits (R402, R409). -/
theorem scalarStore_mmio {o : StoreOp} (kind : o.kind = .sd) (vaEq : va = s.me.getX o.rs1.toNat + o.imm.signExtend 64) (free : ScalarFree s 8 va)
    (mmio : paKind r.pa = .mmio)
    (passes : translate s (whoOf s s.cur true) .scalar .wr (bitOf s.me.csr.mstatus 19) false va 8 = (t0, .ok r0)) (unheld : flipHeld t0 r0.pa = false)
    (marks : translate t0 (whoOf s s.cur true) .scalar .wr (bitOf s.me.csr.mstatus 19) true va 8 = (t, .ok r)) :
    (∀ u, mmioWrite t (posterOf (whoOf s s.cur true)) r.pa (s.me.getX o.rs2.toNat) = .ok u → Runs (.scalarStore o) s (retire u)) ∧
    (∀ g, mmioWrite t (posterOf (whoOf s s.cur true)) r.pa (s.me.getX o.rs2.toNat) = .wait g →
      Runs (.scalarStore o) s ((g t).modMe fun h => { h with wait := .stall })) := by
  subst vaEq
  have shape : storeShape o.kind = (8, false) := by rw [kind]; rfl
  have checked : ScalarChecked s .wr 8 (s.me.getX o.rs1.toNat + o.imm.signExtend 64) t r := ⟨t0, r0, passes, unheld, marks⟩
  have place := scalarPlace_checked free checked
  have run := exec_scalarStore_on (s := s) (n := 8) (fp := false) shape nofun
  refine ⟨fun u ok => ?_, fun g wait => ?_⟩
  · exact run.trans (finish_ok ((bind_ok place).trans ((bind_ok (scalarPut_mmio_ok checked.sameMaker mmio ok)).trans rfl)))
  · exact run.trans (finish_error ((bind_ok place).trans (bind_error (scalarPut_mmio_wait checked.sameMaker mmio wait))))

/-! ### The statement -/

/-- The checks, the home and the read of every atomic (R179, R80, R23, R124, R70). -/
theorem scalarAtomic_checks (s : State) (o : AmoOp) :
    let w := whoOf s s.cur true
    let n := if o.dbl then 8 else 4
    let va := s.me.getX o.rs1.toNat
    ScalarFails s (.scalarAtomic o) (atomicAcc o.kind) n va ∧ ∀ t r, ScalarPlaced s (atomicAcc o.kind) n va t r →
      let p := peerHome t w (va.toNat / 128) r
      (isPeer (r.pa / 128) = false → p = (t, r)) ∧ (isPeer (r.pa / 128) = true → p.2 = { r with cm := 2 } ∧ CacheMoves t p.1) ∧
        ScalarSpoilt s (.scalarAtomic o) n va p.1 p.2 := by
  intro w n va
  refine ⟨scalarFails_of (atomicAcc_data _) fun t => exec_scalarAtomic_placeFails, fun t r placed => ?_⟩
  obtain ⟨same, mem, run⟩ := exec_scalarAtomic_placed (va := va) (n := n) rfl rfl placed rfl
  have size : n ∈ [1, 2, 4, 8] := by
    show (if o.dbl then 8 else 4) ∈ [1, 2, 4, 8]
    split <;> decide
  exact ⟨peerHome_home w _, fun peer => ⟨peerHome_peer w _ peer, peerHome_moves ..⟩,
    scalarSpoilt_of same mem size fun z ends => run.trans (finish_error (bind_error ends))⟩

/-- Settles O53: a scalar form is its checks, a read through the scalar cache, a store and an acquire, each settled apart; the forms put them together. -/
theorem scalarMemory : Obligations.ScalarMemory := by
  unfold Obligations.ScalarMemory
  intro s x w mxr cause fails spoilt
  refine ⟨fun o n sg fp row => ?_, fun o n fp row => ?_, fun o => ?_, fun va pa t aligned free mmio => ?_⟩
  · obtain ⟨shape, -, -⟩ := loadShape_of_mem row
    exact ⟨fun on off => exec_scalarLoad_off (by rw [shape]; exact on) off, scalarLoad_spec row⟩
  · obtain ⟨shape, -⟩ := storeShape_of_mem row
    exact ⟨fun on off => exec_scalarStore_off (by rw [shape]; exact on) off, scalarStore_spec row⟩
  · obtain ⟨checks, placed⟩ := scalarAtomic_checks s o
    exact ⟨checks, placed, fun t₀ r₀ t r u y kind => scalarLr_spec kind rfl rfl,
      fun t₀ r₀ t r u y kind placed atHome takes clean => ⟨scalarSc_fails kind rfl rfl placed atHome takes clean,
        scalarSc_stores kind rfl rfl placed atHome takes clean⟩,
      fun g t₀ r₀ t r u y row => scalarAmo_spec row rfl rfl⟩
  · refine ⟨fun o r kind vaEq passes place unheld => ?_, fun o r t0 r0 kind vaEq passes unheld marks place => ?_⟩
    · subst place
      exact scalarLoad_mmio kind vaEq ⟨aligned, free⟩ mmio passes unheld
    · subst place
      exact scalarStore_mmio kind vaEq ⟨aligned, free⟩ mmio passes unheld marks

end Sys2Proof
end

section
/-!
SUPPORT. Lane forms whose effect is on their own hart: elements and their width, results that agree in the active lanes, bits of mask registers.
-/
namespace Sys2Proof
open Machine

variable {i : Instr} {s : State} {f : L64} {w d : Nat}

/-! ### Elements -/

/-- A W-bit element is a W-bit number. -/
theorem Machine.Hart.elem_lt (h : Hart) (hw : w = 32 ∨ w = 64) (n l : Nat) : h.elem w n l < 2 ^ w := by
  have lo := (h.getV n l).isLt
  have hi := (h.getV (n + 1) l).isLt
  obtain rfl | rfl := hw
  · rw [Hart.elem, if_pos rfl]
    exact lo
  · rw [Hart.elem, if_neg (by decide)]
    omega

/-- The results of the inactive lanes do not matter. -/
theorem LaneDone.congr {r r' : Nat → Nat} (h : LaneDone i s f w d r) (same : ∀ l ∈ activeLanes s.me f, r l = r' l) : LaneDone i s f w d r' := by
  obtain ⟨h', becomes, elems, frame⟩ := h
  refine ⟨h', becomes, fun n l hl => (elems n l hl).trans ?_, frame⟩
  split
  · next active => rw [same l (mem_activeLanes.2 ⟨hl, active⟩)]
  · rfl

/-! ### An x register written -/

/-- Of a hart's change only what it makes of the current hart matters. -/
theorem doneWith_congr {g g' : Hart → Hart} (h : g s.me = g' s.me) : doneWith g s = doneWith g' s := by
  rw [doneWith_eq, doneWith_eq, h]

/-- A form with an active lane that writes x[d]. -/
theorem xDone_of_laneOp {eff : Hart → List Nat → Hart} {v : Word} (h : exec i s = laneOp f eff s) (active : effMask s.me f ≠ 0)
    (writes : eff s.me (activeLanes s.me f) = s.me.setX d v) : XDone i s d v :=
  xDone_of_doneWith (h.trans (doneWith_congr ((if_neg active).trans writes)))

/-- A form with no active lane completes and writes nothing. -/
theorem becomes_of_laneOp {eff : Hart → List Nat → Hart} (h : exec i s = laneOp f eff s) (idle : effMask s.me f = 0) : Becomes i s s.me.done :=
  ⟨_, by rw [Runs, h, laneOp_eq, if_pos idle], rfl, fun _ => rfl⟩

theorem activeLanes_of_idle {h : Hart} (idle : effMask h f = 0) : activeLanes h f = [] := by
  simp [activeLanes, lanesIn, idle]

/-! ### A mask register written -/

theorem maskOf_congr {n : Nat} {p q : Nat → Bool} (same : ∀ k < n, p k = q k) : maskOf n p = maskOf n q :=
  List.foldl_ext _ _ _ fun _ k hk => by rw [same k (List.mem_range.1 hk)]

@[simp] theorem Machine.Hart.getM_dirtyXs (h : Hart) (n : Nat) : h.dirtyXs.getM n = h.getM n := by simp [Hart.getM]
@[simp] theorem Machine.Hart.getM_done (h : Hart) (n : Nat) : h.done.getM n = h.getM n := by simp [Hart.getM]

theorem maskElems_setMaskLanes (h : Hart) (f : L64) (d : Nat) (r : Nat → Bool) : MaskElems h (h.setMaskLanes d (activeLanes h f) r) f d r := by
  intro n
  have lanes : maskOf 32 (fun l => if (activeLanes h f).contains l then r l else (h.getM d).getLsbD l) =
      maskOf 32 fun l => if (effMask h f).getLsbD l then r l else (h.getM d).getLsbD l :=
    maskOf_congr fun l hl => if_congr (by rw [List.contains_iff_mem, mem_activeLanes, and_iff_right hl]) rfl rfl
  rw [Hart.setMaskLanes, Hart.getM_dirtyXs, Hart.getM_setM, lanes]

/-- The marks of a completed instruction do not touch the mask registers. -/
theorem Machine.Hart.done_with_m (h : Hart) (m : SMap (BitVec 32)) : { h.done with m := m } = ({ h with m := m } : Hart).done := by
  unfold Hart.done Hart.counted
  rfl

theorem Machine.Hart.setMaskLanes_frame (h : Hart) (d : Nat) (ls : List Nat) (r : Nat → Bool) : { h.setMaskLanes d ls r with m := h.m } = h.dirtyXs := by
  unfold Hart.setMaskLanes Hart.setM Hart.dirtyXs Hart.setXs
  rfl

/-- A form that writes the bits `r` of its active lanes to m[d]. -/
theorem maskDone_of {r : Nat → Bool} {eff : Hart → List Nat → Hart} (h : exec i s = laneOp f eff s)
    (writes : eff s.me (activeLanes s.me f) = s.me.setMaskLanes d (activeLanes s.me f) r) : MaskDone i s f d r := by
  by_cases idle : effMask s.me f = 0
  · exact ⟨_, becomes_of_laneOp h idle, fun active => absurd idle active, fun _ => rfl, by rw [if_pos idle, Hart.done_with_m]⟩
  · refine ⟨(s.me.setMaskLanes d (activeLanes s.me f) r).done, ⟨_, ?_, rfl, fun _ => rfl⟩, fun _ n => ?_, fun e => absurd e idle, by rw [if_neg idle, Hart.done_with_m, Hart.setMaskLanes_frame]⟩
    · rw [Runs, h, laneOp_eq, if_neg idle, writes]
    · rw [Hart.getM_done]
      exact maskElems_setMaskLanes s.me f d r n

end Sys2Proof
end

section
/-!
SUPPORT. The bit forms of R217 and R215, bit by bit: a mask of bits, a bit field extracted and inserted, the length of a number.
-/
namespace Sys2Proof
open Machine

variable {w a b c k : Nat}

/-! ### Numbers made of bits -/

theorem maskOf_succ (n : Nat) (p : Nat → Bool) : maskOf (n + 1) p = if p n then maskOf n p + 2 ^ n else maskOf n p := by
  simp only [maskOf, List.range_succ, List.foldl_append, List.foldl_cons, List.foldl_nil]

theorem maskOf_lt (n : Nat) (p : Nat → Bool) : maskOf n p < 2 ^ n := by
  induction n with
  | zero => simp [maskOf]
  | succ n ih =>
    rw [maskOf_succ, Nat.pow_succ]
    split <;> omega

theorem testBit_maskOf (n : Nat) (p : Nat → Bool) (k : Nat) : (maskOf n p).testBit k = (decide (k < n) && p k) := by
  induction n with
  | zero => simp [maskOf]
  | succ n ih =>
    have low := maskOf_lt n p
    have bits : maskOf (n + 1) p = 2 ^ n * (if p n then 1 else 0) + maskOf n p := by
      rw [maskOf_succ]
      split <;> omega
    rw [bits, Nat.testBit_two_pow_mul_add _ low]
    by_cases hk : k < n
    · simp [hk, ih, Nat.lt_succ_of_lt hk]
    · by_cases e : k = n
      · subst e
        cases p k <;> simp
      · have beyond : ¬ k < n + 1 := by omega
        obtain ⟨m, hm⟩ : ∃ m, k - n = m + 1 := ⟨k - n - 1, by omega⟩
        rw [if_neg hk, hm, decide_eq_false beyond, Bool.false_and]
        split
        · exact Nat.testBit_eq_false_of_lt (by simp)
        · exact Nat.zero_testBit _

/-! ### `lbrev` and `lclz` -/

theorem testBit_brev (hk : k < w) : (brev w a).testBit k = a.testBit (w - 1 - k) := by
  rw [brev, testBit_maskOf, decide_eq_true hk, Bool.true_and, Nat.testBit_eq_decide_div_mod_eq]
  rfl

theorem lt_two_pow_bitLen (a : Nat) : a < 2 ^ bitLen a := by
  unfold bitLen
  split
  · next zero => simp [zero]
  · exact Nat.lt_log2_self

theorem two_pow_le_of_bitLen_pos (pos : 0 < bitLen a) : 2 ^ (bitLen a - 1) ≤ a := by
  unfold bitLen at pos ⊢
  split at pos
  · simp at pos
  · next nonzero =>
    rw [if_neg nonzero]
    exact Nat.log2_self_le nonzero

theorem bitLen_le (small : a < 2 ^ w) : bitLen a ≤ w := by
  by_contra beyond
  have low := two_pow_le_of_bitLen_pos (a := a) (by omega)
  have := Nat.pow_le_pow_right (n := 2) (by decide) (show w ≤ bitLen a - 1 by omega)
  omega

/-! ### `lbfx` -/

/-- A field of n bits, sign-extended to w bits. -/
theorem testBit_ofS_toS {n v : Nat} (pos : 0 < n) (hn : n ≤ w) (hv : v < 2 ^ n) (hk : k < w) :
    (ofS w (toS n v)).testBit k = if k < n then v.testBit k else v.testBit (n - 1) := by
  have half : 2 ^ n = 2 * 2 ^ (n - 1) := (mul_pow_sub_one pos.ne' 2).symm
  have whole : 2 ^ w = 2 ^ n * 2 ^ (w - n) := by rw [← Nat.pow_add, Nat.add_sub_cancel' hn]
  have fits : v < 2 ^ w := hv.trans_le (Nat.pow_le_pow_right (by decide) hn)
  have top : v.testBit (n - 1) = decide (2 ^ (n - 1) ≤ v) := by
    rw [Nat.testBit_eq_decide_div_mod_eq]
    by_cases low : v < 2 ^ (n - 1)
    · simp [Nat.div_eq_of_lt low, low]
    · rw [Nat.div_eq_of_lt_le (k := 1) (by omega) (by omega)]
      simp; omega
  unfold ofS toS
  by_cases low : v < 2 ^ (n - 1)
  · have value : ((v : Int) % (2 ^ w : Int)).toNat = v := by
      rw [← Nat.cast_ofNat, ← Nat.cast_pow, ← Int.natCast_mod, Int.toNat_natCast, Nat.mod_eq_of_lt fits]
    rw [if_pos low, value, top, decide_eq_false (by omega)]
    split
    · rfl
    · next high => exact Nat.testBit_eq_false_of_lt (hv.trans_le (Nat.pow_le_pow_right (by decide) (by omega)))
  · have value : (((v : Int) - 2 ^ n) % (2 ^ w : Int)).toNat = 2 ^ n * (2 ^ (w - n) - 1) + v := by
      have one := Nat.one_le_two_pow (n := w - n)
      have sum : (v : Int) - 2 ^ n = ((2 ^ n * (2 ^ (w - n) - 1) + v : Nat) : Int) - 2 ^ w := by
        have : 2 ^ n * (2 ^ (w - n) - 1) + 2 ^ n = 2 ^ w := by rw [whole, ← Nat.mul_succ, Nat.succ_eq_add_one, Nat.sub_add_cancel one]
        have : ((2 ^ n * (2 ^ (w - n) - 1) + 2 ^ n : Nat) : Int) = ((2 ^ w : Nat) : Int) := by rw [this]
        push_cast at this ⊢
        omega
      have lt : 2 ^ n * (2 ^ (w - n) - 1) + v < 2 ^ w := by
        have : 2 ^ n * (2 ^ (w - n) - 1) + 2 ^ n = 2 ^ w := by rw [whole, ← Nat.mul_succ, Nat.succ_eq_add_one, Nat.sub_add_cancel one]
        omega
      rw [sum, Int.sub_emod_right]
      generalize 2 ^ n * (2 ^ (w - n) - 1) + v = x at lt
      rw [← Nat.cast_ofNat, ← Nat.cast_pow, ← Int.natCast_mod, Int.toNat_natCast, Nat.mod_eq_of_lt lt]
    rw [if_neg low, value, Nat.testBit_two_pow_mul_add _ hv, top, decide_eq_true (by omega)]
    split
    · rfl
    · rw [Nat.testBit_two_pow_sub_one]
      simp; omega

theorem ofS_lt (w : Nat) (v : Int) : ofS w v < 2 ^ w := by
  unfold ofS
  have pos : (0 : Int) < 2 ^ w := by positivity
  have lt := Int.emod_lt_of_pos v pos
  have nonneg := Int.emod_nonneg v pos.ne'
  zify
  rw [Int.toNat_of_nonneg nonneg]
  exact lt

theorem bfx_lt (sat : Bool) (w a b : Nat) : bfx sat w a b < 2 ^ w := by
  unfold bfx
  extract_lets pos len e v
  split
  · positivity
  · next field =>
    have field_lt : v < 2 ^ w := (Nat.mod_lt _ (by positivity)).trans_le (Nat.pow_le_pow_right (by decide) (by omega))
    cases sat
    · exact field_lt
    · exact ofS_lt ..

theorem testBit_bfx (sat : Bool) (hk : k < w) : (bfx sat w a b).testBit k = bfxBit sat w a b k := by
  unfold bfx bfxBit
  extract_lets pos len e v
  have bit : ∀ j, v.testBit j = (decide (j < e - pos) && a.testBit (pos + j)) := fun j => by
    rw [Nat.testBit_mod_two_pow, Nat.testBit_div_two_pow, Nat.add_comm]
  split
  · exact Nat.zero_testBit _
  · next field =>
    have inside : pos + k < e ↔ k < e - pos := by omega
    cases sat
    · simp [bit, inside]
    · rw [if_pos rfl, testBit_ofS_toS (by omega) (by omega) (Nat.mod_lt _ (by positivity)) hk, bit, bit]
      have top : pos + (e - pos - 1) = e - 1 := by omega
      by_cases h : k < e - pos
      · simp [h, inside]
      · simp [h, inside, top]
        omega

/-! ### `lbfi` -/

/-- A field of n bits at p replaced. -/
theorem testBit_replace (c v p n k : Nat) :
    (c - c / 2 ^ p % 2 ^ n * 2 ^ p + v % 2 ^ n * 2 ^ p).testBit k = if k < p ∨ p + n ≤ k then c.testBit k else v.testBit (k - p) := by
  have split₁ := Nat.div_add_mod c (2 ^ p)
  have split₂ := Nat.div_add_mod (c / 2 ^ p) (2 ^ n)
  have parts : c - c / 2 ^ p % 2 ^ n * 2 ^ p + v % 2 ^ n * 2 ^ p = 2 ^ p * (2 ^ n * (c / 2 ^ p / 2 ^ n) + v % 2 ^ n) + c % 2 ^ p := by
    have whole : c = 2 ^ p * (2 ^ n * (c / 2 ^ p / 2 ^ n)) + 2 ^ p * (c / 2 ^ p % 2 ^ n) + c % 2 ^ p := by
      rw [← Nat.mul_add, split₂, split₁]
    rw [Nat.mul_comm (c / 2 ^ p % 2 ^ n), Nat.mul_comm (v % 2 ^ n), Nat.mul_add]
    omega
  rw [parts, Nat.testBit_two_pow_mul_add _ (Nat.mod_lt _ (by positivity)), Nat.testBit_two_pow_mul_add _ (Nat.mod_lt _ (by positivity)),
    Nat.testBit_mod_two_pow, Nat.testBit_mod_two_pow, Nat.testBit_div_two_pow, Nat.testBit_div_two_pow]
  by_cases low : k < p
  · simp [low]
  · by_cases high : p + n ≤ k
    · have back : k - p - n + n + p = k := by omega
      simp [low, high, back, show ¬ k - p < n by omega]
    · simp [low, high, show k - p < n by omega]

theorem testBit_bfi (w a b c k : Nat) : (bfi w a b c).testBit k = bfiBit w a b c k := by
  unfold bfi bfiBit
  extract_lets pos len e
  split
  · next empty => rw [if_pos (.inl empty)]
  · next field =>
    rw [testBit_replace]
    refine if_congr ?_ rfl rfl
    omega

theorem bfi_lt (hc : c < 2 ^ w) : bfi w a b c < 2 ^ w := by
  refine Nat.lt_pow_two_of_testBit _ fun k hk => ?_
  have beyond : c.testBit k = false := Nat.testBit_eq_false_of_lt (hc.trans_le (Nat.pow_le_pow_right (by decide) hk))
  rw [testBit_bfi, bfiBit, if_pos (.inr (.inr (by omega))), beyond]

end Sys2Proof
end

section
/-!
PROOF. O1 and O2: the lane integer forms (R215 to R218).
-/
namespace Sys2Proof
open Machine

variable {s : State} {f : L64}

theorem isSat_iff : isSat f = true ↔ f.md = 6 := beq_iff_eq

/-- The two-source forms run as `intOp2` of their results. -/
theorem exec_intForm2 {i : Instr} {r : Nat → Nat → Nat → Nat} (h : (i, r) ∈ intForms2 f) (s : State) : exec i s = intOp2 f r s := by
  have lmul : exec (.lmul f) s = intOp2 f (fun w a b => if f.md = 6 then satS w (toS w a * toS w b) else a * b % 2 ^ w) s := by
    simp only [exec_lmul, execLmul, isSat_iff]
  have lsll : exec (.lsll f) s = intOp2 f (fun w a b => if f.md = 6 then satS w (toS w a * 2 ^ (b % w)) else a * 2 ^ (b % w) % 2 ^ w) s := by
    simp only [exec_lsll, execLsll, isSat_iff]
  have all : ∀ x ∈ intForms2 f, exec x.1 s = intOp2 f x.2 s := by
    simp only [intForms2, List.forall_mem_cons]
    exact ⟨exec_ladd f s, exec_lsub f s, exec_ladds f s, exec_lsubs f s, lmul, exec_lmulh f s, exec_lmulhu f s, exec_ldiv f s, exec_ldivu f s,
      exec_lrem f s, exec_lremu f s, exec_land f s, exec_lor f s, exec_lxor f s, exec_landn f s, lsll, exec_lsrl f s, exec_lsra f s, exec_lmin f s,
      exec_lmax f s, exec_lminu f s, exec_lmaxu f s, List.forall_mem_nil _⟩
  exact all _ h

/-- Settles O1: each form is `intOp2` of its result. -/
theorem laneIntTwoSource : Obligations.LaneIntTwoSource :=
  fun s _ _ _ form => intOp2_done (exec_intForm2 form s)

/-- The one-source forms run as `intOp1` of their results. -/
theorem exec_intForm1 {i : Instr} {r : Nat → Nat → Nat} (h : (i, r) ∈ intForms1 f) (s : State) : exec i s = intOp1 f r s := by
  have labs : exec (.labs f) s = intOp1 f (fun w a => if f.md = 6 then satS w (toS w a).natAbs else ofS w (toS w a).natAbs) s := by
    simp only [exec_labs, execLabs, isSat_iff]
  have lcpop : exec (.lcpop f) s = intOp1 f (fun w a => ((List.range w).filter fun i => a.testBit i).length) s := by
    simp only [exec_lcpop, execLcpop, popcount, Nat.testBit_eq_decide_div_mod_eq]
    rfl
  have all : ∀ x ∈ intForms1 f, exec x.1 s = intOp1 f x.2 s := by
    simp only [intForms1, List.forall_mem_cons]
    exact ⟨labs, lcpop, exec_lmov f s, List.forall_mem_nil _⟩
  exact all _ h

theorem lmadd_done (s : State) (f : L64) : LaneDone (.lmadd f) s f (widthOf f) f.d.toNat fun l =>
    let w := widthOf f
    let a := s.me.elem w f.a.toNat l
    let b := operandB s.me f w l
    let c := s.me.elem w f.c.toNat l
    if f.md = 6 then satS w (toS w a * toS w b + toS w c) else (a * b + c) % 2 ^ w :=
  intOp3_done (g := fun w a b c => if f.md = 6 then satS w (toS w a * toS w b + toS w c) else (a * b + c) % 2 ^ w)
    (by simp only [exec_lmadd, execLmadd, isSat_iff])

theorem lext_done (s : State) (f : L64) :
    LaneX (.lext f) s f f.d.toNat (sext (word (s.me.elem (widthOf f) f.a.toNat (f.imm15.toNat % 32))) (widthOf f)) := by
  unfold LaneX
  split
  · next idle => exact becomes_of_laneOp (exec_lext f s) idle
  · next active => exact xDone_of_laneOp (exec_lext f s) active rfl

theorem lclz_done (s : State) (f : L64) : ∃ n, LaneDone (.lclz f) s f (widthOf f) f.d.toNat n ∧ ∀ l ∈ activeLanes s.me f,
    n l ≤ widthOf f ∧ s.me.elem (widthOf f) f.a.toNat l < 2 ^ (widthOf f - n l) ∧
      (n l < widthOf f → 2 ^ (widthOf f - 1 - n l) ≤ s.me.elem (widthOf f) f.a.toNat l) := by
  refine ⟨_, intOp1_done (exec_lclz f s), fun l _ => ?_⟩
  have small := s.me.elem_lt (widthOf_cases f) f.a.toNat l
  generalize s.me.elem (widthOf f) f.a.toNat l = a at small
  have le := bitLen_le small
  refine ⟨Nat.sub_le .., ?_, fun nonzero => ?_⟩
  · rw [show widthOf f - (widthOf f - bitLen a) = bitLen a by omega]
    exact lt_two_pow_bitLen a
  · rw [show widthOf f - 1 - (widthOf f - bitLen a) = bitLen a - 1 by omega]
    exact two_pow_le_of_bitLen_pos (by omega)

/-- Settles O2: the other forms by their meanings, the bit forms bit by bit. -/
theorem laneIntOther : Obligations.LaneIntOther := by
  refine ⟨fun s f => ⟨fun i r form => intOp1_done (exec_intForm1 form s), lmadd_done s f, laneDone_of (widthOf_cases f) (exec_lsel f s) rfl,
    laneDone_of (widthOf_cases f) (exec_lli f s) rfl, laneDone_of (widthOf_cases f) (exec_lbcast f s) rfl, laneDone_of (.inl rfl) (exec_lidx f s) rfl,
    lext_done s f⟩, fun s f => ⟨?_, ?_, ?_, lclz_done s f⟩⟩
  · exact ⟨_, intOp1_done (exec_lbrev f s), fun l _ => ⟨maskOf_lt .., fun k hk => testBit_brev hk⟩⟩
  · exact ⟨_, intOp2_done (exec_lbfx f s), fun l _ => ⟨bfx_lt .., fun k hk => testBit_bfx _ hk⟩⟩
  · exact ⟨_, intOp3_done (exec_lbfi f s), fun l _ => ⟨bfi_lt (s.me.elem_lt (widthOf_cases f) ..), fun k _ => testBit_bfi ..⟩⟩

end Sys2Proof
end

section
/-!
PROOF. O3: compares into masks (R224, R174).
-/
namespace Sys2Proof
open Machine

variable {s : State} {f : L64}

/-- The integer compares run as `cmpOp` of their relations. -/
theorem exec_cmpForm {i : Instr} {r : Nat → Nat → Nat → Bool} (h : (i, r) ∈ cmpForms f) (s : State) : exec i s = cmpOp f r s := by
  have lcmpNe : exec (.lcmpNe f) s = cmpOp f (fun _ a b => decide (a ≠ b)) s := by
    rw [exec_lcmpNe, execLcmpNe]
    congr 1
    funext _ a b
    exact Bool.eq_iff_iff.2 (by simp)
  have all : ∀ x ∈ cmpForms f, exec x.1 s = cmpOp f x.2 s := by
    simp only [cmpForms, List.forall_mem_cons]
    exact ⟨exec_lcmpEq f s, lcmpNe, exec_lcmpLt f s, exec_lcmpGe f s, exec_lcmpLtu f s, exec_lcmpGeu f s, List.forall_mem_nil _⟩
  exact all _ h

theorem exec_fcmpForm {i : Instr} {rel : Nat} (h : (i, rel) ∈ fcmpForms f) (s : State) : exec i s = fcmpOp rel f s := by
  have all : ∀ x ∈ fcmpForms f, exec x.1 s = fcmpOp x.2 f s := by
    simp only [fcmpForms, List.forall_mem_cons]
    exact ⟨exec_lfcmpEq f s, exec_lfcmpLt f s, exec_lfcmpLe f s, exec_lfcmpUn f s, List.forall_mem_nil _⟩
  exact all _ h

theorem maskElems_setFs {h h' : Hart} {n d : Nat} {r : Nat → Bool} : MaskElems (h.setFs n) h' f d r ↔ MaskElems h h' f d r := by
  simp only [MaskElems, Hart.effMask_setFs, Hart.getM, Hart.setFs_m]

/-- A floating-point compare with an active lane. -/
theorem fcmp_active {i : Instr} {rel : Nat} (form : (i, rel) ∈ fcmpForms f) (fs : s.me.fs ≠ 0) (active : effMask s.me f ≠ 0) :
    let r := fun l => fCmp (fmtOf f.ty) rel (s.me.elem (widthOf f) f.a.toNat l) (s.me.elem (widthOf f) f.b.toNat l)
    ∃ h', FpDone i s h' ((activeLanes s.me f).foldl (fun n l => n ||| (r l).2) 0) 0 ∧ MaskElems s.me h' f f.d.toNat (fun l => (r l).1) ∧
      { h' with m := s.me.m } = (s.me.setFs 3).dirtyXs := by
  intro r
  have done : FpDone i s ((s.me.setFs 3).setMaskLanes f.d.toNat (activeLanes s.me f) fun l => (r l).1)
      ((activeLanes s.me f).foldl (fun n l => n ||| (r l).2) 0) 0 := by
    simpa only [Hart.elem_setFs] using fpDone_of_fpOp (exec_fcmpForm form s) fs (rm := 0) rfl active
  have elems := maskElems_setMaskLanes (s.me.setFs 3) f f.d.toNat fun l => (r l).1
  have frame := (s.me.setFs 3).setMaskLanes_frame f.d.toNat (activeLanes s.me f) fun l => (r l).1
  rw [maskElems_setFs, Hart.activeLanes_setFs] at elems
  rw [Hart.setFs_m] at frame
  exact ⟨_, done, elems, frame⟩

/-- Settles O3: a compare is a write of the active lanes' bits of m[d]. -/
theorem laneCompares : Obligations.LaneCompares :=
  ⟨fun s _ _ _ form => maskDone_of (exec_cmpForm form s) rfl,
    fun s _ _ _ form fs => ⟨becomes_of_fpOp (exec_fcmpForm form s) fs (rm := 0) rfl, fcmp_active form fs⟩⟩

end Sys2Proof
end

section
/-!
PROOF. O4: shuffles, compaction offsets, the integer scan and the integer reductions (R228 to R231).
-/
namespace Sys2Proof
open Machine

variable {s : State} {f : L64}

/-! ### Shuffles and compaction offsets -/

theorem exec_shflForm {i : Instr} {src : Nat → Nat → Nat} (h : (i, src) ∈ shflForms f) (s : State) : exec i s = shflOp f src s := by
  have lshflDn : exec (.lshflDn f) s = shflOp f (fun l b => if l + b ≤ 31 then l + b else l) s := by
    simp only [exec_lshflDn, execLshflDn, Nat.lt_succ_iff]
  have all : ∀ x ∈ shflForms f, exec x.1 s = shflOp f x.2 s := by
    simp only [shflForms, List.forall_mem_cons]
    exact ⟨exec_lshflIdx f s, exec_lshflUp f s, lshflDn, exec_lshflXor f s, List.forall_mem_nil _⟩
  exact all _ h

theorem lcomp_done (s : State) (f : L64) : LaneDone (.lcomp f) s f 32 f.d.toNat fun l =>
    ((s.me.getV f.a.toNat l).toNat + ((List.range 32).filter fun k => decide (k < l) && (effMask s.me f).getLsbD k).length) % 2 ^ 32 := by
  refine (laneDone_of (.inl rfl) (exec_lcomp f s) rfl).congr fun l _ => ?_
  rw [activeLanes, lanesIn, List.filter_filter]
  rfl

/-! ### The scan -/

/-- The addition of an integer scan. -/
def scanAdd (w a b : Nat) : FRes := { bits := (a + b) % 2 ^ w }

/-- Past the first element a scan gives each lane what came before and the elements up to its own. -/
theorem lookupLane_prefixes_some (w : Nat) {xs : List (Nat × Nat)} (sorted : (xs.map (·.1)).Pairwise (· < ·)) {l : Nat} (hl : l ∈ xs.map (·.1)) (p : FRes) :
    lookupLane (prefixes (scanAdd w) (some p) xs) l = (p.bits + ((xs.filter fun x => decide (x.1 ≤ l)).map (·.2)).sum) % 2 ^ w := by
  induction xs generalizing p with
  | nil => cases hl
  | cons x xs ih =>
    obtain ⟨k, v⟩ := x
    rw [List.map_cons, List.pairwise_cons] at sorted
    obtain ⟨above, sorted⟩ := sorted
    by_cases e : k = l
    · subst e
      have none' : xs.filter (fun x => decide (x.1 ≤ k)) = [] := List.filter_eq_nil_iff.2 fun x hx => by
        simpa using above x.1 (List.mem_map_of_mem hx)
      simp [prefixes, lookupLane, none', FRes.after, scanAdd]
    · have later : l ∈ xs.map (·.1) := ((List.mem_cons.1 hl).resolve_left (Ne.symm e))
      have le : k ≤ l := (above l later).le
      have rest := ih sorted later (p.after (scanAdd w p.bits v))
      have next : lookupLane (prefixes (scanAdd w) (some p) ((k, v) :: xs)) l =
          lookupLane (prefixes (scanAdd w) (some (p.after (scanAdd w p.bits v))) xs) l := by
        simp [prefixes, lookupLane, e]
      rw [next, rest]
      simp [FRes.after, scanAdd, le, Nat.add_assoc]

/-- A scan gives each lane the sum of the elements up to its own. -/
theorem lookupLane_prefixes (w : Nat) {xs : List (Nat × Nat)} (sorted : (xs.map (·.1)).Pairwise (· < ·)) (small : ∀ x ∈ xs, x.2 < 2 ^ w) {l : Nat}
    (hl : l ∈ xs.map (·.1)) :
    lookupLane (prefixes (scanAdd w) none xs) l = ((xs.filter fun x => decide (x.1 ≤ l)).map (·.2)).sum % 2 ^ w := by
  cases xs with
  | nil => cases hl
  | cons x xs =>
    obtain ⟨k, v⟩ := x
    have first : (prefixes (scanAdd w) none ((k, v) :: xs)) = (k, { bits := v }) :: prefixes (scanAdd w) (some { bits := v }) xs := rfl
    rw [List.map_cons, List.pairwise_cons] at sorted
    obtain ⟨above, sorted⟩ := sorted
    by_cases e : k = l
    · subst e
      have none' : xs.filter (fun x => decide (x.1 ≤ k)) = [] := List.filter_eq_nil_iff.2 fun x hx => by
        simpa using above x.1 (List.mem_map_of_mem hx)
      simp [first, lookupLane, none', Nat.mod_eq_of_lt (small (k, v) List.mem_cons_self)]
    · have later : l ∈ xs.map (·.1) := ((List.mem_cons.1 hl).resolve_left (Ne.symm e))
      have le : k ≤ l := (above l later).le
      have rest := lookupLane_prefixes_some w sorted later { bits := v }
      have next : lookupLane (prefixes (scanAdd w) none ((k, v) :: xs)) l = lookupLane (prefixes (scanAdd w) (some { bits := v }) xs) l := by
        simp [first, lookupLane, e]
      rw [next, rest]
      simp [le]

theorem activeLanes_sorted (h : Hart) (f : L64) : (activeLanes h f).Pairwise (· < ·) := List.pairwise_lt_range.filter _

theorem lscanAdd_done (s : State) (f : L64) : LaneDone (.lscanAdd f) s f (widthOf f) f.d.toNat fun l =>
    (((activeLanes s.me f).filter fun k => decide (k ≤ l)).map fun k => s.me.elem (widthOf f) f.a.toNat k).sum % 2 ^ widthOf f := by
  refine (laneDone_of (widthOf_cases f) (exec_lscanAdd f s) rfl).congr fun l hl => ?_
  have lanes : ((activeLanes s.me f).map fun l => (l, s.me.elem (widthOf f) f.a.toNat l)).map (·.1) = activeLanes s.me f := by
    rw [List.map_map]
    exact List.map_id _
  refine (lookupLane_prefixes (widthOf f) (lanes.symm ▸ activeLanes_sorted s.me f) ?_ (lanes.symm ▸ hl)).trans ?_
  · intro x hx
    obtain ⟨k, -, rfl⟩ := List.mem_map.1 hx
    exact s.me.elem_lt (widthOf_cases f) ..
  · rw [List.filter_map, List.map_map]
    rfl

/-! ### Reductions -/

theorem exec_redForm {i : Instr} {g : Nat → Nat → Nat → Nat} (h : (i, g) ∈ redForms f) (s : State) : exec i s = redOp f g s := by
  have all : ∀ x ∈ redForms f, exec x.1 s = redOp f x.2 s := by
    simp only [redForms, List.forall_mem_cons]
    exact ⟨exec_lredAdd f s, exec_lredMin f s, exec_lredMax f s, exec_lredAnd f s, exec_lredOr f s, exec_lredXor f s, List.forall_mem_nil _⟩
  exact all _ h

/-- A reduction folds the elements of its active lanes, in their order. -/
theorem red_done {i : Instr} {g : Nat → Nat → Nat → Nat} {l : Nat} {ls : List Nat} (form : (i, g) ∈ redForms f) (lanes : activeLanes s.me f = l :: ls) :
    XDone i s f.d.toNat (sext (word ((ls.map fun k => s.me.elem (widthOf f) f.a.toNat k).foldl (g (widthOf f)) (s.me.elem (widthOf f) f.a.toNat l)))
      (widthOf f)) := by
  have active : effMask s.me f ≠ 0 := fun idle => by simp [activeLanes_of_idle idle] at lanes
  refine xDone_of_laneOp (exec_redForm form s) active ?_
  rw [lanes]
  rfl

/-- Settles O4: a shuffle by its source lanes, the scan by its prefixes, a reduction by its fold. -/
theorem laneCross : Obligations.LaneCross :=
  fun s f => ⟨fun _ _ form => laneDone_of (widthOf_cases f) (exec_shflForm form s) rfl, lcomp_done s f, lscanAdd_done s f,
    fun _ _ _ _ form lanes => red_done form lanes⟩

end Sys2Proof
end

section
/-!
PROOF. O5: whole-mask forms, the mask stack and the mask branches (R225 to R227, R175).
-/
namespace Sys2Proof
open Machine

variable {s : State}

/-! ### Whole-mask forms -/

theorem Machine.Hart.setM_frame (h : Hart) (d : Nat) (v : BitVec 32) : { (h.setM d v).dirtyXs with m := h.m } = h.dirtyXs := by
  unfold Hart.setM Hart.dirtyXs Hart.setXs
  rfl

/-- A completed instruction that writes one mask register. -/
theorem mDone_of_doneWith {i : Instr} {d : Nat} {v : BitVec 32} (h : exec i s = doneWith (fun x => (x.setM d v).dirtyXs) s) : MDone i s d v := by
  refine ⟨(s.me.setM d v).dirtyXs.done, ⟨_, h.trans (doneWith_eq ..), rfl, fun _ => rfl⟩, fun n => ?_,
    by rw [Hart.done_with_m, Hart.setM_frame]⟩
  rw [Hart.getM_done, Hart.getM_dirtyXs, Hart.getM_setM]

/-- A form that writes a mask register from its hart. -/
theorem mDone_of_maskOp {i : Instr} {d : BitVec 5} {g : Hart → BitVec 32} (h : exec i s = maskOp d g s) : MDone i s d.toNat (g s.me) :=
  mDone_of_doneWith (h.trans (doneWith_congr rfl))

/-- A form that writes an x register from its hart. -/
theorem xDone_of_hart {i : Instr} {d : Nat} {g : Hart → Word} (h : exec i s = doneWith (fun x => x.setX d (g x)) s) : XDone i s d (g s.me) :=
  xDone_of_doneWith (h.trans (doneWith_congr rfl))

theorem maskForm2_done {d a b : BitVec 5} {i : Instr} {r : BitVec 32 → BitVec 32 → BitVec 32} (form : (i, r) ∈ maskForms2 d a b) :
    MDone i s d.toNat (r (s.me.getM a.toNat) (s.me.getM b.toNat)) := by
  have all : ∀ x ∈ maskForms2 d a b, MDone x.1 s d.toNat (x.2 (s.me.getM a.toNat) (s.me.getM b.toNat)) := by
    simp only [maskForms2, List.forall_mem_cons]
    exact ⟨mDone_of_maskOp (exec_mand d a b s), mDone_of_maskOp (exec_mor d a b s), mDone_of_maskOp (exec_mxor d a b s),
      mDone_of_maskOp (exec_mandn d a b s), List.forall_mem_nil _⟩
  exact all _ form

/-- The lowest set bit of a mask, 32 for none. -/
theorem lowest_lanesIn (m : BitVec 32) :
    let n := (lanesIn m).head?.getD 32
    m = 0 ∧ n = 32 ∨ n < 32 ∧ m.getLsbD n = true ∧ ∀ k < n, m.getLsbD k = false := by
  intro n
  cases lowest : (lanesIn m).head? with
  | none =>
    have none' : ∀ k < 32, m.getLsbD k = false := by simpa [lanesIn] using lowest
    exact .inl ⟨BitVec.eq_of_getLsbD_eq fun k hk => by simpa using none' k hk, by simp [n, lowest]⟩
  | some k =>
    rw [lanesIn, List.head?_filter, List.find?_range_eq_some] at lowest
    obtain ⟨bit, range, below⟩ := lowest
    have hn : n = k := by simp [n, lanesIn, List.head?_filter, List.find?_range_eq_some.2 ⟨bit, range, below⟩]
    rw [hn]
    exact .inr ⟨by simpa using range, bit, fun j hj => by simpa using below j hj⟩

/-! ### The mask stack -/

/-- The marks of a completed instruction do not touch the mask stack, nor its depth alone. -/
theorem Machine.Hart.done_with_kms (h : Hart) (m kms : SMap (BitVec 32)) (n : Nat) :
    { h.dirtyXs.done with m := m, kms := kms, kmsd := n } = ({ h with m := m, kms := kms, kmsd := n } : Hart).dirtyXs.done ∧
      { h.dirtyXs.done with m := m, kmsd := n } = ({ h with m := m, kmsd := n } : Hart).dirtyXs.done := by
  unfold Hart.dirtyXs Hart.setXs Hart.done Hart.counted
  exact ⟨rfl, rfl⟩

theorem mpush_frame (h : Hart) (v : BitVec 32) (kms : SMap (BitVec 32)) (n : Nat) :
    { (({ h with kms := kms, kmsd := n } : Hart).setM 0 v).dirtyXs.done with m := h.m, kms := h.kms, kmsd := h.kmsd } = h.dirtyXs.done :=
  (Hart.done_with_kms ..).1

theorem mpop_frame (h : Hart) (v : BitVec 32) (n : Nat) :
    { (({ h with kmsd := n } : Hart).setM 0 v).dirtyXs.done with m := h.m, kmsd := h.kmsd } = h.dirtyXs.done :=
  (Hart.done_with_kms _ h.m h.kms h.kmsd).2

theorem mpush_done (a : BitVec 5) (room : s.me.kmsd < 16) : ∃ h', Becomes (.mpush a) s h' ∧ h'.kmsd = s.me.kmsd + 1 ∧
    (∀ n, h'.kms.get 0 n = if n = s.me.kmsd then s.me.getM 0 else s.me.kms.get 0 n) ∧
    MReg s.me h' 0 (s.me.getM 0 &&& s.me.getM a.toNat) ∧ { h' with m := s.me.m, kms := s.me.kms, kmsd := s.me.kmsd } = s.me.dirtyXs.done := by
  have runs := exec_mpush a s
  rw [execMpush, if_neg (by omega), doneWith_eq] at runs
  refine ⟨_, ⟨_, runs, rfl, fun _ => rfl⟩, by simp, fun n => ?_, fun n => ?_, mpush_frame ..⟩
  · simp only [Hart.done_kms, Hart.dirtyXs_kms, Hart.setM_kms, SMap.get_set]
  · rw [Hart.getM_done, Hart.getM_dirtyXs, Hart.getM_setM]
    rfl

theorem minv_done (entry : 0 < s.me.kmsd) : MDone .minv s 0 (s.me.kms.get 0 (s.me.kmsd - 1) &&& ~~~ s.me.getM 0) := by
  have runs := exec_minv s
  rw [execMinv, if_neg entry.ne'] at runs
  exact mDone_of_doneWith (runs.trans (doneWith_congr rfl))

theorem mpop_done (entry : 0 < s.me.kmsd) : ∃ h', Becomes .mpop s h' ∧ h'.kmsd = s.me.kmsd - 1 ∧
    MReg s.me h' 0 (s.me.kms.get 0 (s.me.kmsd - 1)) ∧ { h' with m := s.me.m, kmsd := s.me.kmsd } = s.me.dirtyXs.done := by
  have runs := exec_mpop s
  rw [execMpop, if_neg entry.ne', doneWith_eq] at runs
  refine ⟨_, ⟨_, runs, rfl, fun _ => rfl⟩, by simp, fun n => ?_, mpop_frame ..⟩
  rw [Hart.getM_done, Hart.getM_dirtyXs, Hart.getM_setM]
  rfl

/-! ### The branches -/

/-- Outside a clause a branch goes on at its target or at the next instruction. -/
theorem maskBranch_done {i : Instr} {taken : Prop} [Decidable taken] {b : Bool} {off : BitVec 12} (h : exec i s = maskBranch b off s)
    (decides : b = true ↔ taken) (outside : s.me.inClause = false) :
    Becomes i s { s.me.done with pc := if taken then s.me.pc + (off ++ 0#1).signExtend 64 else s.me.pc + word s.me.ilen } := by
  have runs : exec i s = .next (s.setHart s.cur (if b = true then s.me.jump (s.me.pc + offWord off) else s.me.done)) :=
    h.trans (outsideClause_outside outside)
  refine ⟨_, runs, ?_, fun _ => rfl⟩
  by_cases t : taken
  · rw [if_pos (decides.2 t), if_pos t]
    rfl
  · rw [if_neg (mt decides.1 t), if_neg t]
    rfl

/-- Settles O5, form by form. -/
theorem maskForms : Obligations.MaskForms := by
  refine ⟨fun s d a b => ⟨fun _ _ => maskForm2_done, mDone_of_maskOp (exec_mnot d a s), mDone_of_maskOp (exec_mmov d a s), ?_,
      xDone_of_hart (exec_mget d a s), xDone_of_hart (exec_mcnt d a s), _, xDone_of_hart (exec_mffs d a s), lowest_lanesIn _⟩,
    fun s a => ⟨mpush_done a, minv_done, mpop_done, fun full => ?_, fun empty => ⟨?_, ?_⟩, fun k off outside => ⟨?_, ?_⟩⟩⟩
  · rw [← BitVec.setWidth_eq_extractLsb' (by decide)]
    exact mDone_of_maskOp (exec_mset d a s)
  · exact (exec_mpush a s).trans (if_pos (by omega))
  · exact (exec_minv s).trans (if_pos empty)
  · exact (exec_mpop s).trans (if_pos empty)
  · exact maskBranch_done (exec_mbz k off s) beq_iff_eq outside
  · exact maskBranch_done (exec_mbnz k off s) bne_iff_ne outside

end Sys2Proof
end

section
/-!
PROOF. O6 and the illegal forms of O9: the lane floating-point forms of group 001 (R211, R219 to R222).
-/
namespace Sys2Proof
open Machine

variable {s : State} {f : L64} {i : Instr}

/-- The forms of group 001 whose lanes are computed apart run as `fpMap` of their results. -/
theorem exec_fpForm {rounds : Bool} {op : Nat → Fmt → Nat → Nat → Nat → FRes} (h : (i, rounds, op) ∈ fpForms f) (s : State) :
    exec i s = fpMap f rounds op s := by
  have all : ∀ x ∈ fpForms f, exec x.1 s = fpMap f x.2.1 x.2.2 s := by
    simp only [fpForms, List.forall_mem_cons]
    exact ⟨exec_lfadd f s, exec_lfsub f s, exec_lfmul f s, exec_lffma f s, exec_lffms f s, exec_lfnma f s, exec_lfdiv f s, exec_lfsqrt f s,
      exec_lfrcp f s, exec_lfrsq f s, exec_lfex2 f s, exec_lflg2 f s, exec_lfsin f s, exec_lfcos f s, exec_lfround f s, exec_lfmin f s, exec_lfmax f s,
      exec_lfabs f s, exec_lfneg f s, exec_lfsgnj f s, exec_lfclass f s, List.forall_mem_nil _⟩
  exact all _ h

/-- Settles O6: each form is `fpMap` of its result. -/
theorem laneFpResult : Obligations.LaneFpResult := by
  intro s f i rounds rm op form fs mode
  have width : (if f.ty = 1 then 64 else 32) = 32 ∨ (if f.ty = 1 then 64 else 32) = 64 := by
    split <;> decide
  refine laneFpDone_of_fpOp width (exec_fpForm form s) fs mode ?_
  simp only [Hart.elem_setFs]

/-! ### Illegal forms -/

section
variable {rounds : Bool} {eff : Hart → List Nat → Nat → FpEff}

theorem traps_of_fpOp_off (h : exec i s = fpOp f rounds eff s) (off : s.me.fs = 0) : Traps i s 2 s.me.ibits := h.trans (if_pos off)

/-- A form that rounds by an invalid `frm` is illegal, whatever FS is. -/
theorem traps_of_fpOp_frm (h : exec i s = fpOp f true eff s) (md : f.md = 0 ∨ f.md = 6) (frm : 5 ≤ s.me.frm.toNat) : Traps i s 2 s.me.ibits := by
  have mode : roundMode s.me f.md = none := (if_pos md).trans (if_neg (by omega))
  rw [Traps, Runs, h, fpOp]
  split
  · rfl
  · rw [if_pos rfl, mode]
    rfl

end

/-- Every lane floating-point form is illegal while FS is Off. -/
theorem fpAll_off (form : i ∈ fpAll f) (off : s.me.fs = 0) : Traps i s 2 s.me.ibits := by
  simp only [fpAll, List.mem_append, List.mem_map, Prod.exists, List.mem_cons, List.not_mem_nil, or_false] at form
  obtain ((⟨_, _, _, form, rfl⟩ | ⟨_, _, form, rfl⟩) | ⟨_, _, _, form, rfl⟩) | rfl | rfl | rfl | rfl | rfl := form
  · exact traps_of_fpOp_off (exec_fpForm form s) off
  · exact traps_of_fpOp_off (exec_fcmpForm form s) off
  · exact traps_of_fpOp_off (exec_fredForm form s) off
  · exact traps_of_fpOp_off (exec_lfcvt f s) off
  · exact traps_of_fpOp_off (exec_lscanFadd f s) off
  · exact (exec_lfamoAddS f s).trans (if_pos off)
  · exact (exec_lfamoMinS f s).trans (if_pos off)
  · exact (exec_lfamoMaxS f s).trans (if_pos off)

/-- Every one that rounds is illegal where `frm`, by which it rounds, is invalid. -/
theorem fpRounding_frm (form : i ∈ fpRounding f) (md : f.md = 0 ∨ f.md = 6) (frm : 5 ≤ s.me.frm.toNat) : Traps i s 2 s.me.ibits := by
  simp only [fpRounding, List.mem_append, List.mem_map, List.mem_filter, Prod.exists, List.mem_cons, List.not_mem_nil, or_false] at form
  obtain ⟨_, rounds, _, ⟨form, on⟩, rfl⟩ | rfl | rfl | rfl := form
  · obtain rfl : rounds = true := on
    exact traps_of_fpOp_frm (exec_fpForm form s) md frm
  · exact traps_of_fpOp_frm (exec_fredForm (.head _) s) md frm
  · exact traps_of_fpOp_frm (exec_lfcvt f s) md frm
  · exact traps_of_fpOp_frm (exec_lscanFadd f s) md frm

end Sys2Proof
end

section
/-!
PROOF. O9: rounding to a multiple of a power of two under each mode (R148), and the illegal floating-point forms (R211).
-/
namespace Sys2Proof
open Machine

/-! ### Rounding up or down -/

/-- Whether a mode goes up from the multiple n, a rest of t and half a step of h being given (R148). -/
def roundsUp (rm : Nat) (neg : Bool) (n t h : Nat) : Bool :=
  match rm with
  | 0 => decide (h < t) || (t == h && n % 2 == 1)
  | 1 => false
  | 2 => neg && t != 0
  | 3 => !neg && t != 0
  | _ => decide (h ≤ t)

theorem roundAt_of_le {rm m : Nat} {neg : Bool} {e q : Int} (le : q ≤ e) : roundAt rm neg m e q false = (m * 2 ^ (e - q).toNat, false) := if_pos le

theorem roundAt_of_lt {rm m : Nat} {neg : Bool} {e q : Int} (lt : e < q) :
    let k := (q - e).toNat
    roundAt rm neg m e q false =
      (if roundsUp rm neg (m / 2 ^ k) (m % 2 ^ k) (2 ^ (k - 1)) then m / 2 ^ k + 1 else m / 2 ^ k, m % 2 ^ k != 0) := by
  simp only [roundAt, if_neg (not_le.2 lt), Bool.or_false, Bool.false_or, roundsUp, gt_iff_lt, ge_iff_le] <;> rfl

/-- Only a rest goes up. -/
theorem rest_of_roundsUp {rm n t h : Nat} {neg : Bool} (pos : 0 < h) (goes : roundsUp rm neg n t h = true) : t ≠ 0 := by
  rintro rfl
  unfold roundsUp at goes
  split at goes <;> simp at goes <;> omega

/-- What R148 asks of x, the multiple r of the step u, as the rounding of v. -/
def RoundsTo (rm : Nat) (neg : Bool) (v u x : Rat) (r : Nat) : Prop :=
  (rm = 1 → x ≤ v ∧ v < x + u) ∧ (rm = 2 → if neg then v ≤ x ∧ x < v + u else x ≤ v ∧ v < x + u) ∧
    (rm = 3 → if neg then x ≤ v ∧ v < x + u else v ≤ x ∧ x < v + u) ∧ (rm = 0 ∨ rm = 4 → 2 * |x - v| ≤ u) ∧
    (rm = 0 → 2 * |x - v| = u → r % 2 = 0) ∧ (rm = 4 → 2 * |x - v| = u → v < x)

/-- A value that is a multiple rounds to itself. -/
theorem RoundsTo.exact {rm : Nat} {neg : Bool} {v u : Rat} {r : Nat} (pos : 0 < u) : RoundsTo rm neg v u v r := by
  have up := lt_add_of_pos_right v pos
  refine ⟨fun _ => ⟨le_rfl, up⟩, fun _ => ?_, fun _ => ?_, fun _ => ?_, fun _ tie => ?_, fun _ tie => ?_⟩
  · split <;> exact ⟨le_rfl, up⟩
  · split <;> exact ⟨le_rfl, up⟩
  · simpa using pos.le
  · simp [pos.ne] at tie
  · simp [pos.ne] at tie

/-- A rest of T above the multiple x, below one step: staying at x, by mode. -/
theorem RoundsTo.down {rm n t h : Nat} {neg : Bool} {v x T H : Rat} (mode : rm ≤ 4) (rest : v = x + T) (nonneg : 0 ≤ T) (step : T < 2 * H)
    (zero : t = 0 ↔ T = 0) (above : h < t ↔ H < T) (half : t = h ↔ T = H) (stay : roundsUp rm neg n t h = false) : RoundsTo rm neg v (2 * H) x n := by
  have dist : |x - v| = T := by rw [rest, sub_add_cancel_left, abs_neg, abs_of_nonneg nonneg]
  have floor : x ≤ v ∧ v < x + 2 * H := by constructor <;> linarith
  have ceil : t = 0 → v ≤ x ∧ x < v + 2 * H := fun ht => by
    have := zero.1 ht
    constructor <;> linarith
  have atLeast : h ≤ t ↔ H ≤ T := by rw [le_iff_lt_or_eq, le_iff_lt_or_eq, above, eq_comm, half, @eq_comm _ H]
  refine ⟨fun _ => floor, ?_, ?_, ?_, ?_, ?_⟩
  · rintro rfl
    cases neg
    · exact floor
    · exact ceil (by simpa [roundsUp] using stay)
  · rintro rfl
    cases neg
    · exact ceil (by simpa [roundsUp] using stay)
    · exact floor
  · rintro (rfl | rfl)
    · have low : ¬ H < T := by
        rw [← above]
        intro beyond
        simp [roundsUp, beyond] at stay
      rw [dist]
      linarith
    · have low : ¬ H ≤ T := by
        rw [← atLeast]
        intro beyond
        simp [roundsUp, beyond] at stay
      rw [dist]
      linarith
  · rintro rfl tie
    have mid : t = h := half.2 (by rw [dist] at tie; linarith)
    simp [roundsUp, mid] at stay
    omega
  · rintro rfl tie
    have mid : t = h := half.2 (by rw [dist] at tie; linarith)
    simp [roundsUp, mid] at stay

/-- Going one step up from x, by mode. -/
theorem RoundsTo.up {rm n t h : Nat} {neg : Bool} {v x T H : Rat} (mode : rm ≤ 4) (rest : v = x + T) (nonneg : 0 ≤ T) (step : T < 2 * H) (pos : 0 < h)
    (zero : t = 0 ↔ T = 0) (above : h < t ↔ H < T) (half : t = h ↔ T = H) (goes : roundsUp rm neg n t h = true) :
    RoundsTo rm neg v (2 * H) (x + 2 * H) (n + 1) := by
  have dist : |x + 2 * H - v| = 2 * H - T := by rw [rest, add_sub_add_left_eq_sub, abs_of_pos (by linarith)]
  have atLeast : h ≤ t ↔ H ≤ T := by rw [le_iff_lt_or_eq, le_iff_lt_or_eq, above, eq_comm, half, @eq_comm _ H]
  have positive : 0 < T := lt_of_le_of_ne nonneg fun e => rest_of_roundsUp pos goes (zero.2 e.symm)
  have ceil : v ≤ x + 2 * H ∧ x + 2 * H < v + 2 * H := by constructor <;> linarith
  refine ⟨?_, ?_, ?_, ?_, ?_, fun _ _ => by linarith⟩
  · rintro rfl
    cases goes
  · rintro rfl
    cases neg
    · cases goes
    · exact ceil
  · rintro rfl
    cases neg
    · exact ceil
    · cases goes
  · have high : rm = 0 ∨ rm = 4 → H ≤ T := by
      rintro (rfl | rfl) <;> refine atLeast.1 ?_ <;> simp [roundsUp] at goes <;> omega
    intro nearest
    have := high nearest
    rw [dist]
    linarith
  · rintro rfl tie
    have mid : t = h := half.2 (by rw [dist] at tie; linarith)
    simp [roundsUp, mid] at goes
    omega

/-- Rounding m × 2^e to a multiple of 2^q. -/
theorem roundAt_roundsTo {rm m r : Nat} {neg inexact : Bool} {e q : Int} (mode : rm ≤ 4) (rounds : roundAt rm neg m e q false = (r, inexact)) :
    (inexact = decide ((r : Rat) * 2 ^ q ≠ ratOf m e)) ∧ RoundsTo rm neg (ratOf m e) (2 ^ q) (r * 2 ^ q) r := by
  have two : (2 : Rat) ≠ 0 := by norm_num
  unfold ratOf
  by_cases le : q ≤ e
  · rw [roundAt_of_le le, Prod.mk.injEq] at rounds
    obtain ⟨rfl, rfl⟩ := rounds
    have value : ((m * 2 ^ (e - q).toNat : Nat) : Rat) * 2 ^ q = m * 2 ^ e := by
      push_cast
      rw [mul_assoc, ← zpow_natCast, ← zpow_add₀ two, Int.toNat_of_nonneg (by omega), sub_add_cancel]
    rw [value]
    exact ⟨by simp, .exact (by positivity)⟩
  · push Not at le
    rw [roundAt_of_lt le, Prod.mk.injEq] at rounds
    obtain ⟨rfl, rfl⟩ := rounds
    obtain ⟨k, hk⟩ : ∃ k : Nat, (q - e).toNat = k + 1 := ⟨(q - e).toNat - 1, by omega⟩
    have hq : (2 : Rat) ^ q = 2 * (2 ^ k * 2 ^ e) := by
      rw [show q = ((k + 1 : Nat) : Int) + e by omega, zpow_add₀ two, zpow_natCast, pow_succ]
      ring
    rw [hk, Nat.add_sub_cancel]
    have unit : (0 : Rat) < 2 ^ e := by positivity
    have split := Nat.div_add_mod m (2 ^ (k + 1))
    have small := Nat.mod_lt m (Nat.two_pow_pos (k + 1))
    generalize m / 2 ^ (k + 1) = n at split
    generalize m % 2 ^ (k + 1) = t at split small
    have rest : (m : Rat) * 2 ^ e = n * 2 ^ q + t * 2 ^ e := by
      rw [← split, hq]
      push_cast
      ring
    have step : (t : Rat) * 2 ^ e < 2 ^ q := by
      have : (t : Rat) < 2 * 2 ^ k := by
        rw [pow_succ'] at small
        exact_mod_cast small
      rw [hq, ← mul_assoc]
      exact mul_lt_mul_of_pos_right this unit
    have zero : t = 0 ↔ (t : Rat) * 2 ^ e = 0 := by simp [unit.ne']
    have above : 2 ^ k < t ↔ (2 ^ k * 2 ^ e : Rat) < t * 2 ^ e := by
      rw [mul_lt_mul_iff_left₀ unit]
      exact_mod_cast Iff.rfl
    have half : t = 2 ^ k ↔ (t : Rat) * 2 ^ e = 2 ^ k * 2 ^ e := by
      rw [mul_left_inj' unit.ne']
      exact_mod_cast Iff.rfl
    have nonneg : (0 : Rat) ≤ t * 2 ^ e := by positivity
    rw [hq] at rest step ⊢
    cases goes : roundsUp rm neg n t (2 ^ k) with
    | false =>
      refine ⟨?_, .down mode rest nonneg step zero above half goes⟩
      rw [rest]
      simp [unit.ne', bne]
      rfl
    | true =>
      have next : ((n + 1 : Nat) : Rat) * (2 * (2 ^ k * 2 ^ e)) = n * (2 * (2 ^ k * 2 ^ e)) + 2 * (2 ^ k * 2 ^ e) := by
        push_cast
        ring
      have rounded := RoundsTo.up mode rest nonneg step (Nat.two_pow_pos k) zero above half goes
      rw [if_pos rfl, next]
      have inexact : (n : Rat) * (2 * (2 ^ k * 2 ^ e)) + 2 * (2 ^ k * 2 ^ e) ≠ m * 2 ^ e := fun same => by linarith
      rw [decide_eq_true inexact]
      exact ⟨bne_iff_ne.2 (rest_of_roundsUp (Nat.two_pow_pos k) goes), rounded⟩

/-- Settles O9: FS and `frm` decide before the masks; rounding by the rest above a multiple. -/
theorem roundingAndFpIllegal : Obligations.RoundingAndFpIllegal := by
  refine ⟨fun s f i => ⟨fpAll_off, fpRounding_frm⟩, fun neg m e q r rm inexact mode rounds => ?_⟩
  obtain ⟨exactness, rounded⟩ := roundAt_roundsTo mode rounds
  have next : ((r : Rat) + 1) * 2 ^ q = r * 2 ^ q + 2 ^ q := by ring
  simp only [next]
  exact ⟨exactness, rounded⟩

end Sys2Proof
end

section
/-!
SUPPORT. The bits of a conversion's result fit its element (R139, R151, R223).
-/
namespace Sys2Proof
open Machine

variable {f : Fmt}

theorem Machine.Fmt.signed_lt {mag : Nat} (s : Bool) (h : mag < 2 ^ (f.e + f.m)) : f.signed s mag < 2 ^ f.width := by
  unfold Fmt.signed Fmt.width
  rw [pow_succ]
  split <;> omega

theorem Machine.Fmt.maxMag_lt (f : Fmt) : f.maxMag < 2 ^ (f.e + f.m) := by
  have pos := Nat.two_pow_pos (f.e + f.m)
  have unit := Nat.two_pow_pos f.m
  unfold Fmt.maxMag
  split
  · omega
  · split <;> omega

theorem Machine.Fmt.infMag_lt (f : Fmt) : f.infMag < 2 ^ (f.e + f.m) :=
  Nat.sub_lt (Nat.two_pow_pos _) (Nat.two_pow_pos _)

theorem roundF_bits_lt (hn : f.nan < 2 ^ f.width) (rm : Nat) (sat nonsat s : Bool) (m : Nat) (e : Int) :
    (roundF f rm sat nonsat s m e).bits < 2 ^ f.width := by
  have zero : f.signed s 0 < 2 ^ f.width := Fmt.signed_lt s (Nat.two_pow_pos _)
  unfold roundF
  split
  · exact zero
  · extract_lets lead q
    split
    split
    extract_lets x mag
    split
    · split
      · exact Fmt.signed_lt s f.infMag_lt
      · split
        · exact hn
        · exact Fmt.signed_lt s f.maxMag_lt
    · next fits =>
      split
      · exact zero
      · exact Fmt.signed_lt s (lt_of_le_of_lt (not_lt.1 fits) f.maxMag_lt)

theorem toFloat_bits_lt (hn : f.nan < 2 ^ f.width) (rm : Nat) (md6 : Bool) (v : FVal) : (toFloat f rm md6 v).bits < 2 ^ f.width := by
  cases v with
  | nan sig =>
    unfold toFloat
    dsimp only
    split
    · exact Nat.two_pow_pos _
    · exact hn
  | inf s =>
    unfold toFloat
    dsimp only
    split
    · split
      · exact Fmt.signed_lt s f.maxMag_lt
      · exact Fmt.signed_lt s f.infMag_lt
    · split
      · exact hn
      · exact Fmt.signed_lt s f.maxMag_lt
  | num s m e => exact roundF_bits_lt hn ..

theorem toInt_bits_lt (sg : Bool) (rm : Nat) (v : FVal) : (toInt 32 sg rm v).bits < 2 ^ 32 := by
  have fits (i : Int) : (i % (2 ^ 32 : Int)).toNat < 2 ^ 32 := by omega
  unfold toInt
  extract_lets hi lo bits
  cases v with
  | nan sig => exact fits _
  | inf s => exact fits _
  | num s m e =>
    dsimp only
    split
    · exact fits _
    · split
      · exact fits _
      · exact fits _

/-- The result of a conversion fits the element of its type. -/
theorem cvtTo_bits_lt {code : Nat} (hc : code < 8) (rm : Nat) (md6 : Bool) (v : FVal) : (cvtTo code rm md6 v).bits < 2 ^ cvtBits code := by
  match code, hc with
  | 0, _ => exact toFloat_bits_lt (by decide) rm md6 v
  | 1, _ => exact toFloat_bits_lt (by decide) rm md6 v
  | 2, _ => exact toFloat_bits_lt (by decide) rm md6 v
  | 3, _ => exact toFloat_bits_lt (by decide) rm md6 v
  | 4, _ => exact toInt_bits_lt true rm v
  | 5, _ => exact toInt_bits_lt false rm v
  | 6, _ => exact toFloat_bits_lt (by decide) rm md6 v
  | 7, _ => exact toFloat_bits_lt (by decide) rm md6 v

end Sys2Proof
end

section
/-!
SUPPORT. The registers that a conversion's results make (R223): digits packed into a register, and each element read back from them.
-/
namespace Sys2Proof
open Machine

/-! ### Digits -/

/-- The first `p` digits of `g`, `b` bits each. -/
def packDigits (b : Nat) (g : Nat → Nat) (p : Nat) : Nat := (List.range p).foldl (fun w i => w + g i * 2 ^ (b * i)) 0

theorem packDigits_succ (b : Nat) (g : Nat → Nat) (p : Nat) : packDigits b g (p + 1) = packDigits b g p + g p * 2 ^ (b * p) := by
  simp [packDigits, List.range_succ]

variable {b : Nat} {g : Nat → Nat}

theorem packDigits_lt {p : Nat} (hg : ∀ i < p, g i < 2 ^ b) : packDigits b g p < 2 ^ (b * p) := by
  induction p with
  | zero => exact Nat.two_pow_pos _
  | succ p ih =>
    have low := ih fun i hi => hg i (by omega)
    have top : (g p + 1) * 2 ^ (b * p) ≤ 2 ^ b * 2 ^ (b * p) := Nat.mul_le_mul_right _ (hg p (by omega))
    rw [packDigits_succ, Nat.mul_succ, Nat.add_comm (b * p), pow_add]
    linarith

theorem packDigits_digit {p k : Nat} (hg : ∀ i < p, g i < 2 ^ b) (hk : k < p) : packDigits b g p / 2 ^ (b * k) % 2 ^ b = g k := by
  induction p with
  | zero => omega
  | succ p ih =>
    have below : ∀ i < p, g i < 2 ^ b := fun i hi => hg i (by omega)
    rw [packDigits_succ]
    rcases Nat.lt_or_ge k p with lower | top
    · obtain ⟨c, rfl⟩ : ∃ c, p = k + 1 + c := ⟨p - (k + 1), by omega⟩
      have split : g (k + 1 + c) * 2 ^ (b * (k + 1 + c)) = 2 ^ b * (g (k + 1 + c) * 2 ^ (b * c)) * 2 ^ (b * k) := by ring
      rw [split, Nat.add_mul_div_right _ _ (Nat.two_pow_pos _), Nat.add_mul_mod_self_left, ih below lower]
    · obtain rfl : k = p := by omega
      rw [Nat.add_mul_div_right _ _ (Nat.two_pow_pos _), Nat.div_eq_of_lt (packDigits_lt below), zero_add, Nat.mod_eq_of_lt (hg k hk)]

/-! ### The registers of one lane -/

/-- Register `j` of the group that the results `r` make. -/
def cvtReg (code : Nat) (r : Nat → Nat) (j : Nat) : Nat :=
  if code = 1 then (if j % 2 = 0 then r (j / 2) % 2 ^ 32 else r (j / 2) / 2 ^ 32)
  else packDigits (cvtBits code) (fun i => r (j * L64.cvtCount code + i)) (L64.cvtCount code)

theorem cvtCount_pos (code : Nat) : 0 < L64.cvtCount code := by
  unfold L64.cvtCount
  split
  · decide
  · split <;> decide

theorem cvtCount_dvd_cvtN (src dst : Nat) : L64.cvtCount dst ∣ L64.cvtN src dst := by
  have cases (c : Nat) : L64.cvtCount c = 1 ∨ L64.cvtCount c = 2 ∨ L64.cvtCount c = 4 := by
    unfold L64.cvtCount
    split
    · simp
    · split <;> simp
  unfold L64.cvtN
  obtain a | a | a := cases src <;> obtain b | b | b := cases dst <;> rw [a, b] <;> decide

theorem cvtPack_pairs (d n : Nat) (r : Nat → Nat) :
    cvtPack 1 d n r = (List.range (n * 2)).map fun j => (d + j, cvtReg 1 r j) := by
  have pair : cvtPack 1 d n r = ((List.range n).map fun k => [(d + 2 * k, r k % 2 ^ 32), (d + 2 * k + 1, r k / 2 ^ 32)]).flatten := rfl
  rw [pair]
  induction n with
  | zero => rfl
  | succ n ih =>
    have even : cvtReg 1 r (n * 2) = r n % 2 ^ 32 := by simp [cvtReg]
    have odd : cvtReg 1 r (n * 2 + 1) = r n / 2 ^ 32 := by
      rw [cvtReg, if_pos rfl, if_neg (by omega), show (n * 2 + 1) / 2 = n by omega]
    rw [List.range_succ, List.map_append, List.flatten_append, ih rfl, show (n + 1) * 2 = n * 2 + 1 + 1 by omega, List.range_succ,
      List.range_succ]
    simp [even, odd, Nat.mul_comm, Nat.add_assoc]

theorem cvtPack_digits {code : Nat} (hc : code ≠ 1) (d : Nat) {n : Nat} (whole : L64.cvtCount code ∣ n) (r : Nat → Nat) :
    cvtPack code d n r = (List.range (n / L64.cvtCount code)).map fun j => (d + j, cvtReg code r j) := by
  obtain ⟨q, rfl⟩ := whole
  have pos := cvtCount_pos code
  have count : (L64.cvtCount code * q + L64.cvtCount code - 1) / L64.cvtCount code = q := by
    rw [show L64.cvtCount code * q + L64.cvtCount code - 1 = (L64.cvtCount code - 1) + L64.cvtCount code * q by omega,
      Nat.add_mul_div_left _ _ pos, Nat.div_eq_of_lt (by omega), zero_add]
  unfold cvtPack
  rw [if_neg hc]
  dsimp only
  rw [count, Nat.mul_div_cancel_left _ pos]
  refine List.map_congr_left fun j hj => ?_
  have inside : ∀ i ∈ List.range (L64.cvtCount code), j * L64.cvtCount code + i < L64.cvtCount code * q := fun i hi => by
    have hq : (j + 1) * L64.cvtCount code ≤ q * L64.cvtCount code := Nat.mul_le_mul_right _ (List.mem_range.1 hj)
    have := List.mem_range.1 hi
    linarith
  rw [cvtReg, if_neg hc, packDigits, List.foldl_ext _ _ _ fun w i hi => if_pos (inside i hi)]

/-- The results of a lane, as the registers of its group in order. -/
theorem cvtPack_eq (src dst d : Nat) (r : Nat → Nat) :
    cvtPack dst d (L64.cvtN src dst) r = (List.range (L64.cvtSpan src dst dst)).map fun j => (d + j, cvtReg dst r j) := by
  by_cases hc : dst = 1
  · subst hc
    rw [cvtPack_pairs, L64.cvtSpan, show L64.cvtCount 1 = 1 from rfl, Nat.div_one]
    rfl
  · rw [cvtPack_digits hc d (cvtCount_dvd_cvtN src dst), L64.cvtSpan, L64.cvtWidth, if_neg hc, Nat.mul_one]

/-! ### The lanes -/

/-- The results of lane `k` written to its registers. -/
def Machine.Hart.putCvt (h : Hart) (src dst d k : Nat) (r : Nat → Nat) : Hart :=
  (cvtPack dst d (L64.cvtN src dst) r).foldl (fun (y : Hart) (p : Nat × Nat) => y.setV p.1 k (BitVec.ofNat 32 p.2)) h

theorem getV_putCvt (h : Hart) (src dst d : Nat) {k l : Nat} (hk : k < 32) (hl : l < 32) (r : Nat → Nat) (m : Nat) :
    (h.putCvt src dst d k r).getV m l =
      if l = k ∧ d ≤ m ∧ m < d + L64.cvtSpan src dst dst then BitVec.ofNat 32 (cvtReg dst r (m - d)) else h.getV m l := by
  unfold Hart.putCvt
  rw [cvtPack_eq, List.foldl_map]
  exact getV_foldl_setV d hk hl (fun i => BitVec.ofNat 32 (cvtReg dst r i)) _ m h

theorem getV_foldl_putCvt (src dst d : Nat) (r : Nat → Nat → Nat) {l : Nat} (hl : l < 32) (m : Nat) (ls : List Nat) (hls : ∀ k ∈ ls, k < 32)
    (h : Hart) :
    (ls.foldl (fun x k => x.putCvt src dst d k (r k)) h).getV m l =
      if l ∈ ls ∧ d ≤ m ∧ m < d + L64.cvtSpan src dst dst then BitVec.ofNat 32 (cvtReg dst (r l) (m - d)) else h.getV m l := by
  induction ls generalizing h with
  | nil => simp
  | cons k ls ih =>
    rw [List.foldl_cons, ih (fun j hj => hls j (List.mem_cons_of_mem _ hj)), getV_putCvt _ _ _ _ (hls k List.mem_cons_self) hl]
    by_cases e : l = k
    · subst e
      by_cases inside : d ≤ m ∧ m < d + L64.cvtSpan src dst dst
      · simp [inside]
      · simp [inside]
    · simp [e]

theorem putCvt_frame (h : Hart) (src dst d k : Nat) (r : Nat → Nat) (w : SMap Elem) :
    { h.putCvt src dst d k r with v := w } = { h with v := w } := by
  unfold Hart.putCvt
  induction cvtPack dst d (L64.cvtN src dst) r generalizing h with
  | nil => rfl
  | cons p ps ih =>
    rw [List.foldl_cons, ih]
    rfl

theorem foldl_putCvt_frame (src dst d : Nat) (r : Nat → Nat → Nat) (w : SMap Elem) (ls : List Nat) (h : Hart) :
    { ls.foldl (fun x k => x.putCvt src dst d k (r k)) h with v := w } = { h with v := w } := by
  induction ls generalizing h with
  | nil => rfl
  | cons k ls ih => rw [List.foldl_cons, ih, putCvt_frame]

/-! ### Elements read back -/

/-- A group of registers that hold the results' registers holds the results as its elements. -/
theorem cvtElem_of_regs {h : Hart} {src dst d l : Nat} {r : Nat → Nat} (fits : ∀ k, r k < 2 ^ cvtBits dst)
    (regs : ∀ j < L64.cvtSpan src dst dst, h.getV (d + j) l = BitVec.ofNat 32 (cvtReg dst r j)) {k : Nat} (hk : k < L64.cvtN src dst) :
    cvtElem h dst d l k = r k := by
  unfold L64.cvtSpan at regs
  unfold cvtElem
  by_cases hc : dst = 1
  · subst hc
    rw [show L64.cvtCount 1 = 1 from rfl, Nat.div_one, show L64.cvtWidth 1 = 2 from rfl] at regs
    have bound : r k < 2 ^ 64 := fits k
    have even : cvtReg 1 r (2 * k) = r k % 2 ^ 32 := by simp [cvtReg]
    have odd : cvtReg 1 r (2 * k + 1) = r k / 2 ^ 32 := by
      rw [cvtReg, if_pos rfl, if_neg (by omega), show (2 * k + 1) / 2 = k by omega]
    rw [if_pos rfl, Hart.elem, if_neg (by decide), regs (2 * k) (by omega), Nat.add_assoc d, regs (2 * k + 1) (by omega), even, odd,
      BitVec.toNat_ofNat, BitVec.toNat_ofNat]
    omega
  · have pos := cvtCount_pos dst
    have inside : k / L64.cvtCount dst < L64.cvtN src dst / L64.cvtCount dst * L64.cvtWidth dst := by
      rw [L64.cvtWidth, if_neg hc, Nat.mul_one]
      exact Nat.div_lt_div_of_lt_of_dvd (cvtCount_dvd_cvtN src dst) hk
    have whole : cvtBits dst * L64.cvtCount dst = 32 := by
      unfold cvtBits L64.cvtWidth L64.cvtCount
      rw [if_neg hc]
      split
      · rfl
      · split <;> rfl
    have digits : ∀ i < L64.cvtCount dst, r (k / L64.cvtCount dst * L64.cvtCount dst + i) < 2 ^ cvtBits dst := fun i _ => fits _
    have word := packDigits_lt digits
    rw [whole] at word
    rw [if_neg hc]
    dsimp only
    rw [regs _ inside, cvtReg, if_neg hc, BitVec.toNat_ofNat, Nat.mod_eq_of_lt word, packDigits_digit digits (Nat.mod_lt _ pos)]
    rw [Nat.div_add_mod']

@[simp] theorem cvtElem_setFs (h : Hart) (n code r l k : Nat) : cvtElem (h.setFs n) code r l k = cvtElem h code r l k := by
  simp only [cvtElem, Hart.elem_setFs, Hart.getV_setFs]

@[simp] theorem Machine.Hart.getV_dirtyXs (h : Hart) (n l : Nat) : h.dirtyXs.getV n l = h.getV n l := by
  simp [Hart.getV]

end Sys2Proof
end

section
/-!
PROOF. O7: conversions between number formats (R223, R151).
-/
namespace Sys2Proof
open Machine

/-- The result of element k of lane l. -/
def lfcvtRes (f : L64) (rm : Nat) (h : Hart) (l k : Nat) : FRes :=
  cvtTo f.ty.toNat rm (fpSat f) (cvtValue (f.c.toNat % 8) (cvtElem h (f.c.toNat % 8) f.a.toNat l k))

/-- The hart with the results of a list of lanes in its registers. -/
def Machine.Hart.putLanes (h : Hart) (f : L64) (r : Nat → Nat → FRes) (ls : List Nat) : Hart :=
  ls.foldl (fun x l => x.putCvt (f.c.toNat % 8) f.ty.toNat f.d.toNat l fun k => (r l k).bits) h

/-- The results of a list of lanes. -/
def laneResults (f : L64) (r : Nat → Nat → FRes) (ls : List Nat) : List FRes :=
  (ls.map fun l => (List.range (L64.cvtN (f.c.toNat % 8) f.ty.toNat)).map (r l)).flatten

/-- What a conversion writes and reports. -/
def lfcvtEffect (f : L64) (h : Hart) (ls : List Nat) (rm : Nat) : FpEff :=
  { hart := (h.putLanes f (lfcvtRes f rm h) ls).dirtyXs
    flags := allFlags (laneResults f (lfcvtRes f rm h) ls), cnt := allCnt (laneResults f (lfcvtRes f rm h) ls) }

theorem execLfcvt_eq (f : L64) (s : State) : execLfcvt f s = fpOp f true (lfcvtEffect f) s := rfl

theorem lfcvtRes_setFs (f : L64) (rm : Nat) (h : Hart) (n : Nat) : lfcvtRes f rm (h.setFs n) = lfcvtRes f rm h := by
  funext l k
  rw [lfcvtRes, cvtElem_setFs, lfcvtRes]

/-- The lanes of a conversion, written. -/
theorem lfcvt_done {s : State} {f : L64} {rm : Nat} (fs : s.me.fs ≠ 0) (mode : RoundsWith s.me f true rm) (active : effMask s.me f ≠ 0) :
    FpDone (.lfcvt f) s ((s.me.setFs 3).putLanes f (lfcvtRes f rm s.me) (activeLanes s.me f)).dirtyXs
      (allFlags (laneResults f (lfcvtRes f rm s.me) (activeLanes s.me f))) (allCnt (laneResults f (lfcvtRes f rm s.me) (activeLanes s.me f))) := by
  have done := fpDone_of_fpOp ((exec_lfcvt f s).trans (execLfcvt_eq f s)) fs mode active
  simp only [lfcvtEffect, lfcvtRes_setFs] at done
  exact done

theorem getV_putLanes (h : Hart) (f : L64) (r : Nat → Nat → FRes) {ls : List Nat} (hls : ∀ k ∈ ls, k < 32) {l : Nat} (hl : l < 32) (m : Nat) :
    (h.putLanes f r ls).dirtyXs.getV m l =
      if l ∈ ls ∧ f.d.toNat ≤ m ∧ m < f.d.toNat + L64.cvtSpan (f.c.toNat % 8) f.ty.toNat f.ty.toNat
      then BitVec.ofNat 32 (cvtReg f.ty.toNat (fun k => (r l k).bits) (m - f.d.toNat)) else h.getV m l := by
  rw [Hart.getV_dirtyXs]
  exact getV_foldl_putCvt _ _ _ (fun l k => (r l k).bits) hl m ls hls h

theorem putLanes_frame (h : Hart) (f : L64) (r : Nat → Nat → FRes) (ls : List Nat) (w : SMap Elem) :
    { (h.putLanes f r ls).dirtyXs with v := w } = { h with v := w }.dirtyXs :=
  congrArg Hart.dirtyXs (foldl_putCvt_frame _ _ _ (fun l k => (r l k).bits) w ls h)

/-- Settles O7: element by element, each read back from the registers that the results of its lane make. -/
theorem lfcvtResult : Obligations.LfcvtResult := by
  unfold Obligations.LfcvtResult
  refine fun s f rm fs mode => ⟨becomes_of_fpOp ((exec_lfcvt f s).trans (execLfcvt_eq f s)) fs mode, fun active => ?_⟩
  have lanes : ∀ k ∈ activeLanes s.me f, k < 32 := fun k hk => (mem_activeLanes.1 hk).1
  refine ⟨_, lfcvt_done fs mode active, fun l hl on k hk => ?_, fun m l hl off => ?_, ?_⟩
  · refine cvtElem_of_regs (r := fun k => (lfcvtRes f rm s.me l k).bits) (fun k => cvtTo_bits_lt f.ty.isLt ..) (fun j hj => ?_) hk
    rw [getV_putLanes _ _ _ lanes hl, if_pos ⟨mem_activeLanes.2 ⟨hl, on⟩, by omega, by omega⟩, Nat.add_sub_cancel_left]
  · rw [getV_putLanes _ _ _ lanes hl, Hart.getV_setFs]
    refine if_neg fun ⟨mem, low, high⟩ => ?_
    obtain ⟨_, on⟩ := mem_activeLanes.1 mem
    obtain off | off | off := off
    · rw [on] at off
      contradiction
    · omega
    · omega
  · rw [putLanes_frame, ← Hart.v_setFs s.me 3]

end Sys2Proof
end

section
/-!
SUPPORT. The checks of lane accesses in the global space that pass (R195, R233): what they leave as it was, and the pieces that they place.
-/
namespace Sys2Proof
open Machine

variable {s t : State} {w : Who} {src : Src} {a : Acc} {code : Nat} {gs : List Seg} {ps : List Placed}

theorem countOn_free {write : Bool} (h : FlagFree s write) : countOn write s = .ok ((), s) := by
  unfold FlagFree at h
  unfold countOn
  dsimp only
  refine if_neg fun ⟨rem, room, full⟩ => ?_
  obtain h | h | h := h
  · exact rem h
  · omega
  · omega

theorem SameMaker.refl (s : State) : SameMaker s s := ⟨rfl, rfl, rfl, rfl, fun _ => rfl⟩

theorem SameMaker.placeAll (w : Who) (src : Src) (a : Acc) (mxr setD : Bool) (gs : List Seg) (s : State) :
    SameMaker s (placeAll w src a mxr setD gs s).1 := by
  induction gs generalizing s with
  | nil => exact .refl s
  | cons g gs ih =>
    have step := translate_sameMaker s w src a mxr setD g.at_ g.n
    unfold Machine.placeAll
    split
    case _ u e h => rwa [h] at step
    case _ u r h =>
      rw [h] at step
      have rest := step.trans (ih u)
      split
      case _ h' => rwa [h'] at rest
      case _ h' => rwa [h'] at rest

/-- Pieces placed come from the last round of checks. -/
theorem placeMine_placeAll (h : placeMine w src a code gs s = .ok (ps, t)) :
    ∃ u setD, SameMaker s u ∧ placeAll w src a false setD gs u = (t, .ok ps) := by
  unfold placeMine at h
  have first := SameMaker.placeAll w src a false false gs s
  split at h
  · cases h
  · next u qs placed =>
    rw [placed] at first
    split at h
    · cases h
    · split at h
      · split at h
        · cases h
        · next placed' =>
          cases h
          exact ⟨u, true, first, placed'⟩
      · cases h
        exact ⟨s, false, .refl s, placed⟩

theorem placeMine_sameMaker (h : placeMine w src a code gs s = .ok (ps, t)) : SameMaker s t := by
  obtain ⟨u, setD, first, placed⟩ := placeMine_placeAll h
  have last := SameMaker.placeAll w src a false setD gs u
  rw [placed] at last
  exact first.trans last

theorem placeMine_segs (h : placeMine w src a code gs s = .ok (ps, t)) : ps.map (·.seg) = gs := by
  obtain ⟨u, setD, -, placed⟩ := placeMine_placeAll h
  have checks := placeAll_checks w src a false setD gs u
  rw [placed] at checks
  exact checks.2

end Sys2Proof
end

section
/-!
PROOF. O12: lane stores of the global space (R235).
-/
namespace Sys2Proof
open Machine

variable {s t : State} {f : L64} {n : Nat}

theorem isScr_eq_false (hf : f.md ≠ 4) : isScr f = false := by simpa [isScr] using hf

/-- A lane store whose checks pass. -/
theorem laneStore_global {ps : List Placed} (hf : f.md ≠ 4) (active : effMask s.me f ≠ 0)
    (checked : Checked s (laneWho s f) true .wr 1 n (accsOf s f) ps t)
    (whole : sealBroken t (laneWho s f) (storedCells ps fun l => s.me.dataBytes f.c.toNat l n) = none) :
    laneStore f n s = .ok ((), retire (storeCells t (laneWho s f) (storedCells ps fun l => s.me.dataBytes f.c.toNat l n))) := by
  obtain ⟨flag, held, placed⟩ := checked
  have stored : storePieces (laneWho s f) ps (fun l => s.me.dataBytes f.c.toNat l n) t =
      .ok ((), storeCells t (laneWho s f) (storedCells ps fun l => s.me.dataBytes f.c.toNat l n)) := by
    unfold storePieces
    unfold storedCells at whole ⊢
    dsimp only
    rw [whole]
  unfold laneStore
  rw [bind_ok (memStart_active active), bind_ok (show laneAddrs f (activeLanes s.me f) s = .ok (accsOf s f, s) from rfl),
    bind_ok (show meX s = .ok (s.me, s) from rfl), isScr_eq_false hf, if_neg Bool.false_ne_true, bind_ok (countOn_free flag),
    bind_ok (wmCheck_free held), bind_ok (show rd (laneWho · f) s = .ok (laneWho s f, s) from rfl), bind_ok placed, bind_ok stored]
  rfl

theorem l1Update_harts (s : State) (c tag : Nat) (cs : List VCell) : SameHarts s (l1Update s c tag cs) := ⟨rfl, rfl⟩

theorem putCells_sameHarts (s : State) (w : Who) (cs : List VCell) : SameHarts s (putCells s w cs) :=
  List.foldlRecOn (motive := SameHarts s) _ _ ⟨rfl, rfl⟩ fun _ h _ _ => h.trans (storeLine_harts ..)

/-- A store of a hart leaves the hart that makes it as it was. -/
theorem storeCells_me {w : Who} (hart : w.hart = s.cur) (engine : w.engine = false) (cs : List VCell) : (storeCells s w cs).me = s.me := by
  have harts := (putCells_sameHarts s w cs).trans (l1Update_harts _ w.core w.tag cs)
  unfold storeCells
  dsimp only
  rw [engine, if_neg Bool.false_ne_true]
  generalize l1Update (putCells s w cs) w.core w.tag cs = u at harts
  obtain ⟨own, cur⟩ := breakResv_hart u w.hart ((cs.map fun x => x.cell.pa / 128).eraseDups)
  rw [State.me, cur, harts.2, ← hart, own, hart, ← harts.2]
  exact harts.me

/-- Settles O12: the stored cells by `storeCells_stored`; the own hart is never one whose reservation the store ends. -/
theorem laneStore : Obligations.LaneStore := by
  unfold Obligations.LaneStore
  intro s t f i n ps form w hf active checked cs whole
  obtain ⟨-, -, placed⟩ := id checked
  have harts := (placeMine_sameMaker placed).sameHarts
  refine ⟨(exec_storeForm form s).trans (finish_ok (laneStore_global hf active checked whole)), fun plain => storeCells_stored t w cs plain, ?_⟩
  have me : (storeCells t w cs).me = s.me := (storeCells_me (show w.hart = t.cur from harts.2.symm) rfl cs).trans harts.me
  exact (State.me_setHart_cur ..).trans (congrArg Hart.done me)

end Sys2Proof
end

section
/-!
SUPPORT. Lane atomics of the global space (R123, R124, R233, R236): the pieces at their homes, the checks that pass, and the whole instruction.
-/
namespace Sys2Proof
open Machine

variable {s t : State} {w : Who} {f : L64} {n : Nat} {ps qs : List Placed}

/-! ### Pieces at their homes -/

theorem peerHomes_home (home : ∀ p ∈ qs, isPeer (p.ref.pa / 128) = false) : peerHomes w qs t = (t, qs) := by
  induction qs with
  | nil => rfl
  | cons p qs ih =>
    unfold peerHomes
    rw [peerHome_home w _ (home p List.mem_cons_self)]
    dsimp only
    rw [ih fun q hq => home q (List.mem_cons_of_mem _ hq)]

/-- A piece in a peer window goes uncached to its home (R124). -/
theorem peerHomes_peer {p : Placed} (hp : p ∈ (peerHomes w qs t).2) (peer : isPeer (p.ref.pa / 128) = true) : p.ref.cm = 2 := by
  induction qs generalizing t with
  | nil => cases hp
  | cons q qs ih =>
    unfold peerHomes at hp
    obtain rfl | hp := List.mem_cons.1 hp
    · have peer' : isPeer (q.ref.pa / 128) = true := by rwa [← peerHome_pa t w (q.seg.at_.toNat / 128) q.ref]
      exact congrArg PRef.cm (peerHome_peer w _ peer')
    · exact ih hp

/-! ### The checks of the placed lines -/

/-- What an atomic does with a line that is poison or may not enter the cluster (R70, R340). -/
def atomicEnters (w : Who) (ps : List Placed) : Exec Unit := fun s =>
  match ps.find? fun p => seenPoison s w (p.seg.at_.toNat / 128) (p.ref.pa / 128) with
  | some p => trap 48 p.seg.va s
  | none => match ps.find? fun p => !entryOk s w (p.seg.at_.toNat / 128) p.ref.key (p.ref.pa / 128) with
    | some p => .error (sealFail s s.cur p.ref.pa p.ref.key p.seg.va)
    | none => .ok ((), s)

theorem atomicEnters_clean (clean : EntersClean t w ps) : atomicEnters w ps t = .ok ((), t) := by
  have sound : ps.find? (fun p => seenPoison t w (p.seg.at_.toNat / 128) (p.ref.pa / 128)) = none :=
    List.find?_eq_none.2 fun p hp => by simp [(clean p hp).1]
  have enters : ps.find? (fun p => !entryOk t w (p.seg.at_.toNat / 128) p.ref.key (p.ref.pa / 128)) = none :=
    List.find?_eq_none.2 fun p hp => by simp [(clean p hp).2]
  unfold atomicEnters
  rw [sound, enters]

/-! ### The instruction -/

/-- The state in which the lanes of a global atomic begin their updates: past the release. -/
def atomicReleased (t : State) (w : Who) (f : L64) : State := if f.imm15.getLsbD 14 = true then coreRelease t w.core f.ty.toNat else t

/-- The update of lane l at its piece, by its elements. -/
def globalUpdate (s : State) (f : L64) (n : Nat) (u : Update) (w : Who) (ps : List Placed) (l : Nat) : State → State × Nat × FRes :=
  amoGlobal w n u ((ps.find? fun p => p.seg.lane == l).getD {}) (s.me.elem (8 * n) f.c.toNat l) (s.me.elem (8 * n) f.d.toNat l)

/-- A global atomic whose checks pass. -/
theorem laneAtomic_global (u : Update) (hf : f.md ≠ 4) (active : effMask s.me f ≠ 0) (aligned : ∀ x ∈ amoAccs s f n, x.2.toNat % n = 0)
    (hw : w = whoOf s s.cur true) (checked : Checked s w false .rw 2 n (amoAccs s f n) qs t) (clean : EntersClean (peerHomes w qs t).1 w (peerHomes w qs t).2) :
    let p := pickOrder (activeLanes s.me f).length (activeLanes s.me f) (atomicReleased (peerHomes w qs t).1 w f)
    let e := l1Drop (amoEnd f n (activeLanes s.me f) (amoAll (globalUpdate s f n u w (peerHomes w qs t).2) p.2 p.1)) w.core w.tag
      ((amoAccs s f n).map fun x => x.2.toNat / 128)
    laneAtomic f n u s = .ok ((), retire (if f.imm15.getLsbD 13 = true then acquire e f.ty.toNat else e)) := by
  intro p e
  obtain ⟨flag, held, placed⟩ := checked
  have aligned : ((activeLanes s.me f).map fun l => (l, atomicAddr s.me f n l)).find? (fun x => x.2.toNat % n != 0) = none :=
    List.find?_eq_none.2 fun x hx => by simpa using aligned x hx
  unfold laneAtomic
  refine (bind_ok (memStart_active active)).trans ((bind_ok (show meX s = .ok (s.me, s) from rfl)).trans ?_)
  extract_lets scratch memory
  rw [isScr_eq_false hf, if_neg Bool.false_ne_true]
  refine (bind_ok (countOn_free flag)).trans ?_
  rw [aligned]
  refine (bind_ok (wmCheck_free held)).trans ((bind_ok (a := w) (t := s) (by rw [hw]; rfl)).trans ((bind_ok placed).trans ?_))
  refine (bind_ok (a := (peerHomes w qs t).2) (t := (peerHomes w qs t).1) rfl).trans ((bind_ok (m := atomicEnters w _) (atomicEnters_clean clean)).trans ?_)
  have released : upd (fun s => if orderRel f = true then coreRelease s w.core f.ty.toNat else s) (peerHomes w qs t).1 =
      .ok ((), atomicReleased (peerHomes w qs t).1 w f) := rfl
  refine (bind_ok released).trans ?_
  refine (bind_ok (a := ()) (t := amoEnd f n (activeLanes s.me f) (amoAll (globalUpdate s f n u w (peerHomes w qs t).2) p.2 p.1)) rfl).trans ?_
  exact (bind_ok (m := upd _) (t := e) rfl).trans rfl

end Sys2Proof
end

section
/-!
PROOF. O14: lane atomics of the global space (R123, R124, R236).
-/
namespace Sys2Proof
open Machine

/-- Settles O14: the order that the choices pick, and the pieces of peer windows at their homes. -/
theorem laneAtomic : Obligations.LaneAtomic := by
  unfold Obligations.LaneAtomic
  intro s₀ t₀ f i n fp u qs form fs s hf active aligned checked w t ps clean
  have state := pickOrder_state (activeLanes s.me f).length (activeLanes s.me f) (atomicReleased t w f)
  have perm := pickOrder_perm (activeLanes_nodup s.me f) rfl (atomicReleased t w f)
  have runs := (exec_atomicForm form fs).trans (finish_ok (laneAtomic_global u hf active aligned rfl checked clean))
  refine ⟨_, _, perm, state, runs, fun home => ?_, fun p hp peer => peerHomes_peer hp peer⟩
  have same := peerHomes_home (t := t₀) (w := w) home
  exact ⟨congrArg Prod.fst same, congrArg Prod.snd same⟩

end Sys2Proof
end

section
/-!
PROOF. O16 fails: a fill of a line in a page that is in flight between biases.
-/
namespace Sys2Proof
open Machine

/-- Function 0, its tables with one page, frame 4 of HBM, that is in flight to the other bias; a fill of the page's first line is the event. -/
def flippingState : State :=
  putRaw (putRaw (putRaw { funcs := [(0, { kroot := 0x10000, kbiasGo := true, kbiasRun := 0x40000 })] } 0x10000 (natToLe 8 0x200001)) 0x20000
    (natToLe 8 0x300001)) 0x30000 (natToLe 8 0xFF0000000040001F)

/-- The entry of the page. -/
def flippingEntry : PageEntry := { rd := true, wr := true, x := true, dom := 255, pa := 0x40000 }

theorem walk_flippingState : walk flippingState 0 0 = .ok (flippingEntry, 0x30000, 3) := by decide

/-- The page holds the fill back (R135). -/
theorem lineFill_flippingState {t : State} (run : Runs .lineFill flippingState t) : t.clusters = [] := by
  rw [Runs, exec_lineFill, execLineFill, show flippingState.ev.w = 0 from rfl, show flippingState.ev.b = 0 from rfl, walk_flippingState] at run
  have held : flipHeld flippingState (flippingEntry.phys 0) = true := by decide
  simp only [held, Bool.or_true, if_true] at run
  cases run
  rfl

/-- The fill would bring the line into cluster 0. -/
theorem readIn_flippingState : (readIn flippingState {} 0 0x800 0 0).clusters.map (·.1) = [0] := by decide

/-- Refutes O16: the last clause says that a line of HBM under a usable key whose tag holds enters the cluster, whatever goes on with its page; the model lets
the event pass with no change while the page is in flight between biases, which holds the accesses of the device (R135). -/
theorem not_linesAndErrors : ¬ Obligations.LinesAndErrors := by
  unfold Obligations.LinesAndErrors
  intro h
  obtain ⟨_, _, events⟩ := h
  obtain ⟨_, _, _, _, _, _, _, _, _, _, _, _, _, _, fills⟩ := events flippingState
  obtain ⟨_, _, enters⟩ := fills _ _ _ walk_flippingState
  obtain ⟨t, run, fill, _⟩ := enters ⟨by decide, by decide⟩ (by decide)
  have filled : t.clusters.map (·.1) = [0] := (congrArg (fun u : State => u.clusters.map (·.1)) fill).trans readIn_flippingState
  rw [lineFill_flippingState run] at filled
  exact absurd filled (by decide)

end Sys2Proof
end

section
/-!
SUPPORT. Reads through the L1 (R53, R57, R235): what they leave as it was, and the bytes that they take of a line that neither the L1 nor the cluster held.
-/
namespace Sys2Proof
open Machine

variable {s t u v : State} {w : Who} {va : Word} {r : PRef} {x : CLine} {vl pl : Nat} {alloc : Bool}

/-! ### One line -/

theorem lineIn_eq (h : lineIn s w va r = (v, some x)) :
    v = readIn s w (va.toNat / 128) (r.pa / 128) r.key r.cm ∧
      x = { vline := va.toNat / 128, fn := w.tag, pl := r.pa / 128, key := r.key, bytes := seenLine s w (va.toNat / 128) r.key (r.pa / 128)
            psn := seenPoison s w (va.toNat / 128) (r.pa / 128) } := by
  unfold lineIn at h
  dsimp only at h
  split at h
  · cases (Prod.mk.inj h).2
  · obtain ⟨state, line⟩ := Prod.mk.inj h
    exact ⟨state.symm, (Option.some.inj line).symm⟩

/-- A line for a lane load comes from the L1, or from the cluster, and may enter the L1. -/
theorem l1Line_cases (h : l1Line s w va r alloc = (v, some x)) :
    (v = s ∧ x ∈ (s.core w.core).l1 ∧ x.vline = va.toNat / 128 ∧ x.fn = w.tag) ∨
      ∃ v', lineIn s w va r = (v', some x) ∧ (v = v' ∨ v = l1Fill v' w.core x) := by
  unfold l1Line at h
  split at h
  · next y found =>
    cases h
    split at found
    · cases found
    · have named := List.find?_some found
      rw [Bool.and_eq_true, beq_iff_eq, beq_iff_eq] at named
      exact .inl ⟨rfl, List.mem_of_find?_eq_some found, named⟩
  · split at h
    · cases h
    · next v' y line =>
      obtain ⟨state, same⟩ := Prod.mk.inj h
      cases same
      refine .inr ⟨v', line, ?_⟩
      rw [← state]
      split
      · exact .inr rfl
      · exact .inl rfl

theorem l1Fill_frame (s : State) (c : Nat) (x : CLine) : { l1Fill s c x with cores := s.cores, choices := s.choices } = s := by
  unfold l1Fill
  dsimp only
  split
  · rfl
  · exact (congrArg (fun t : State => { t with cores := s.cores }) (choose_state s) :)

theorem mem_l1Fill {c : Nat} {y : CLine} (h : y ∈ ((l1Fill s c x).core c).l1) : y = x ∨ y ∈ (s.core c).l1 := by
  unfold l1Fill at h
  dsimp only at h
  split at h
  · rw [State.core_modCore_self] at h
    exact List.mem_cons.1 h
  · rw [State.core_modCore_self] at h
    exact (List.mem_cons.1 h).imp_right List.mem_of_mem_erase

/-! ### Harts and memory -/

/-- What a read through the L1 leaves: the harts, and memory outside the peer windows (R132). -/
def ReadLeaves (s t : State) : Prop := SameHarts s t ∧ HomeMemory s t

theorem ReadLeaves.trans (h : ReadLeaves s t) (g : ReadLeaves t u) : ReadLeaves s u := by
  obtain ⟨harts, home⟩ := h
  obtain ⟨harts', home'⟩ := g
  exact ⟨harts.trans harts', fun a ha => (home' a ha).trans (home a ha)⟩

theorem CacheMoves.readLeaves (h : CacheMoves s t) : ReadLeaves s t := ⟨h.sameHarts, h.1⟩

theorem l1Fill_leaves (s : State) (c : Nat) (x : CLine) : ReadLeaves s (l1Fill s c x) := by
  have frame := l1Fill_frame s c x
  exact ⟨⟨(congrArg State.harts frame :), (congrArg State.cur frame :)⟩, fun a _ => (congrArg (rawByte · a) frame :)⟩

theorem l1Line_leaves (h : l1Line s w va r alloc = (v, some x)) : ReadLeaves s v := by
  obtain ⟨rfl, -⟩ | ⟨v', line, ends⟩ := l1Line_cases h
  · exact (CacheMoves.refl v).readLeaves
  · obtain ⟨rfl, -⟩ := lineIn_eq line
    have moves := (readIn_moves s w (va.toNat / 128) (r.pa / 128) r.key r.cm).readLeaves
    obtain rfl | rfl := ends
    · exact moves
    · exact moves.trans (l1Fill_leaves ..)

/-! ### All pieces -/

theorem readPieces_cons {p : Placed} {ps : List Placed} {rs : List (Nat × List Byte)} (h : readPieces w alloc (p :: ps) s = (u, .ok rs)) :
    ∃ v x rs', l1Line s w p.seg.at_ p.ref alloc = (v, some x) ∧ readPieces w alloc ps v = (u, .ok rs') ∧
      rs = (p.seg.lane, (x.bytes.drop (p.seg.at_.toNat % 128)).take p.seg.n) :: rs' := by
  unfold readPieces at h
  split at h
  · cases h
  · next v x line =>
    split at h
    · cases h
    · split at h
      · cases h
      · next rest =>
        cases h
        exact ⟨v, x, _, line, rest, rfl⟩

theorem readPieces_leaves {ps : List Placed} {rs : List (Nat × List Byte)} (h : readPieces w alloc ps s = (u, .ok rs)) : ReadLeaves s u := by
  induction ps generalizing s rs with
  | nil =>
    cases h
    exact (CacheMoves.refl u).readLeaves
  | cons p ps ih =>
    obtain ⟨v, x, rs', line, rest, -⟩ := readPieces_cons h
    exact (l1Line_leaves line).trans (ih rest)

theorem readPieces_lanes {ps : List Placed} {rs : List (Nat × List Byte)} (h : readPieces w alloc ps s = (u, .ok rs)) :
    rs.map (·.1) = ps.map (·.seg.lane) := by
  induction ps generalizing s rs with
  | nil =>
    cases h
    rfl
  | cons p ps ih =>
    obtain ⟨v, x, rs', -, rest, rfl⟩ := readPieces_cons h
    rw [List.map_cons, List.map_cons, ih rest]

/-! ### The lines of one set of one cluster -/

/-- No line of cluster k is one that it did not hold. -/
def LinesLeaveIn (k : Nat) (s t : State) : Prop := ∀ vl, ∀ y ∈ t.klines k vl, y ∈ s.klines k vl

theorem LinesLeave.leaveIn (h : LinesLeave s t) (k : Nat) : LinesLeaveIn k s t := h.held k

theorem LinesLeaveIn.trans {k : Nat} (h : LinesLeaveIn k s t) (g : LinesLeaveIn k t u) : LinesLeaveIn k s u := fun vl y hy => h vl y (g vl y hy)

theorem klines_modKlines_ne (s : State) {j k : Nat} (h : k ≠ j) (vl vl' : Nat) (f : List KLine → List KLine) :
    (s.modKlines j vl' f).klines k vl = s.klines k vl := by
  unfold State.modKlines State.klines
  rw [State.cluster_modCluster_ne s _ h]

theorem klines_modKlines (s : State) (k vl vl' : Nat) (f : List KLine → List KLine) :
    (s.modKlines k vl' f).klines k vl = if vl % 2048 = vl' % 2048 then f (s.klines k vl') else s.klines k vl := by
  unfold State.modKlines State.klines
  rw [State.cluster_modCluster_self]
  exact SMap.get_set ..

theorem shareOut_leaveIn (z : L2Line) (s : State) {j k : Nat} (h : j ≠ k) : LinesLeaveIn k s (shareOut z s j) := by
  unfold shareOut
  refine List.foldlRecOn (motive := LinesLeaveIn k s) _ _ (fun _ _ => id) fun t ht y _ => ht.trans ?_
  refine ((writeBack_leave t j y).leaveIn k).trans fun vl y' hy => ?_
  unfold putKline at hy
  rwa [klines_modKlines_ne _ h.symm] at hy

/-- A cluster that takes a line from its home to read it loses lines at most. -/
theorem l2Take_leaveIn (s : State) (k vl fn pl : Nat) : LinesLeaveIn k s (l2Take s k vl fn pl false).1 := by
  unfold l2Take
  split
  · exact fun _ _ => id
  · dsimp only
    generalize hs : (if (s.dir pl).isSome = true then s else _) = t
    have first : LinesLeaveIn k s t := by
      rw [← hs]
      split
      · exact fun _ _ => id
      · exact ((l2Room_leave s pl _).trans (.setDir ..)).leaveIn k
    rw [if_neg Bool.false_ne_true]
    generalize (t.dir pl).getD {} = x
    have shared : LinesLeaveIn k t ((x.sharers.members.filter (· != k)).foldl (shareOut x) t) :=
      List.foldlRecOn (motive := LinesLeaveIn k t) _ _ (fun _ _ => id) fun v hv j hj =>
        hv.trans (shareOut_leaveIn x v (by simpa using (List.mem_filter.1 hj).2))
    exact (first.trans shared).trans ((LinesLeave.setDir ..).leaveIn k)

theorem kRoom_leave (s : State) (k vl : Nat) (zero : Bool) : LinesLeave s (kRoom s k vl zero).1 := by
  unfold kRoom
  dsimp only
  split
  · exact .refl s
  · split
    · exact kOut_leave ..
    · split
      · exact .refl s
      · exact (LinesLeave.choose s).trans (kOut_leave ..)

/-! ### Where the lines of a name lie -/

/-- Every line of a virtual line's name that the cluster of an access holds under its EID is of one place, and of no key. -/
def ServedAt (s : State) (w : Who) (vl pl : Nat) : Prop :=
  ∀ y ∈ s.klines (clusterOf w.core) vl, (y.named w.tag vl && y.eid == w.eid) = true → y.pl = pl ∧ y.key = 0

theorem servedAt_of_none (h : s.kline w vl = none) (pl : Nat) : ServedAt s w vl pl := fun y hy serves =>
  absurd serves (List.find?_eq_none.1 h y hy)

theorem ServedAt.atHome (h : ServedAt s w vl pl) : AtHome s w vl pl := fun y hy => h y (List.mem_of_find?_eq_some hy) (serves_of_kline hy)

theorem ServedAt.leaveIn (h : ServedAt s w vl pl) (g : LinesLeaveIn (clusterOf w.core) s t) : ServedAt t w vl pl := fun y hy => h y (g vl y hy)

/-- A line put in front of its set keeps the lines of a name in their place where it is of another name, or of that place. -/
theorem ServedAt.cons (h : ServedAt s w vl pl) {y : KLine} (hy : y.vline = vl → y.pl = pl ∧ y.key = 0) (vl' : Nat) :
    ServedAt (s.modKlines (clusterOf w.core) vl' fun l => y :: l) w vl pl := by
  intro z hz serves
  rw [klines_modKlines] at hz
  split at hz
  · next same =>
    obtain rfl | hz := List.mem_cons.1 hz
    · simp only [KLine.named, Bool.and_eq_true, beq_iff_eq] at serves
      exact hy serves.1.2
    · have hz' : z ∈ s.klines (clusterOf w.core) vl := by
        unfold State.klines at hz ⊢
        rwa [same]
      exact h z hz' serves
  · exact h z hz serves

theorem ServedAt.put (h : ServedAt s w vl pl) {y : KLine} (hy : y.vline = vl → y.pl = pl ∧ y.key = 0) :
    ServedAt (putKline s (clusterOf w.core) y) w vl pl := by
  intro z hz serves
  unfold putKline at hz
  rw [klines_modKlines] at hz
  split at hz
  · next same =>
    obtain ⟨z', hz', rfl⟩ := List.mem_map.1 hz
    split at serves
    · next replaced =>
      rw [if_pos replaced]
      simp only [KLine.named, Bool.and_eq_true, beq_iff_eq] at serves
      exact hy serves.1.2
    · next stands =>
      rw [if_neg stands]
      have mem : z' ∈ s.klines (clusterOf w.core) vl := by
        unfold State.klines at hz' ⊢
        rwa [same]
      exact h z' mem serves
  · exact h z hz serves

theorem ServedAt.kFill (h : ServedAt s w vl pl) {vl' pl' key : Nat} (same : vl' = vl → pl' = pl ∧ key = 0) (cm : Nat) (zero : Bool) :
    ServedAt (kFill s w vl' pl' key cm zero false) w vl pl := by
  have out := LinesLeave.foldl (kOut_leave (clusterOf w.core)) ((s.klines (clusterOf w.core) vl').filter fun y => y.named w.tag vl') s
  unfold Machine.kFill
  dsimp only
  generalize List.foldl (kOut (clusterOf w.core)) s _ = t at out
  have room := out.trans (kRoom_leave t (clusterOf w.core) vl' zero)
  split
  · exact h.leaveIn (room.leaveIn _)
  · exact (h.leaveIn ((room.leaveIn _).trans (l2Take_leaveIn _ _ _ _ _))).cons same vl'

theorem ServedAt.readIn (h : ServedAt s w vl pl) {vl' pl' key : Nat} (same : vl' = vl → pl' = pl ∧ key = 0) (cm : Nat) :
    ServedAt (readIn s w vl' pl' key cm) w vl pl := by
  unfold Machine.readIn
  split
  · next y held =>
    have serves := serves_of_kline held
    split
    · refine h.put fun (e : y.vline = vl) => ?_
      simp only [KLine.named, Bool.and_eq_true, beq_iff_eq] at serves
      obtain ⟨⟨-, name⟩, -⟩ := id serves
      obtain rfl : vl' = vl := name.symm.trans e
      exact h.atHome y held
    · exact h
  · split
    · exact h.kFill same cm _
    · exact h

/-! ### The bytes of one line -/

/-- While pieces are read from the state t on: a line outside the peer windows, wherever it is held, is as memory held it in t. -/
structure LineStands (t s : State) (w : Who) (vl pl : Nat) : Prop where
  home : HomeMemory t s
  l1 : ∀ y ∈ (s.core w.core).l1, y.fn = w.tag → y.vline = vl → y.bytes = rawBytes t (128 * pl) 128
  served : ServedAt s w vl pl

theorem LineStands.seenLine (h : LineStands t s w vl pl) (peer : isPeer pl = false) : seenLine s w vl 0 pl = rawBytes t (128 * pl) 128 := by
  have bytes : rawBytes s (128 * pl) 128 = rawBytes t (128 * pl) 128 := by
    apply rawBytes_home h.home
    · rwa [Nat.mul_div_cancel_left _ (by decide)]
    · omega
  unfold Machine.seenLine
  split
  · next y held =>
    obtain ⟨place, key⟩ := h.served.atHome y held
    rw [place, peer, if_neg Bool.false_ne_true, key]
    exact bytes
  · exact bytes

theorem LineStands.l1Fill (h : LineStands t s w vl pl) (hx : x.fn = w.tag → x.vline = vl → x.bytes = rawBytes t (128 * pl) 128) :
    LineStands t (l1Fill s w.core x) w vl pl := by
  have frame := l1Fill_frame s w.core x
  refine ⟨fun a ha => ((l1Fill_leaves s w.core x).2 a ha).trans (h.home a ha), fun y hy => ?_, ?_⟩
  · obtain rfl | hy := mem_l1Fill hy
    · exact hx
    · exact h.l1 y hy
  · exact h.served.leaveIn ((LinesLeave.of_clusters (congrArg State.clusters frame :)).leaveIn _)

/-- Reading a line for a lane load keeps a line standing that the reads name at its place alone, and takes its bytes where it reads that line. -/
theorem LineStands.l1Line (h : LineStands t s w vl pl) (peer : isPeer pl = false) (place : va.toNat / 128 = vl → r.key = 0 ∧ r.pa / 128 = pl)
    (line : l1Line s w va r alloc = (v, some x)) :
    LineStands t v w vl pl ∧ (va.toNat / 128 = vl → x.bytes = rawBytes t (128 * pl) 128) := by
  obtain ⟨rfl, held, name, tag⟩ | ⟨v', fetched, ends⟩ := l1Line_cases line
  · exact ⟨h, fun e => h.l1 x held tag (name.trans e)⟩
  · obtain ⟨rfl, shape⟩ := lineIn_eq fetched
    have moves := readIn_moves s w (va.toNat / 128) (r.pa / 128) r.key r.cm
    have bytes : va.toNat / 128 = vl → x.bytes = rawBytes t (128 * pl) 128 := fun e => by
      obtain ⟨key, line⟩ := place e
      rw [shape]
      dsimp only
      rw [e, key, line, h.seenLine peer]
    have stands : LineStands t (Machine.readIn s w (va.toNat / 128) (r.pa / 128) r.key r.cm) w vl pl := by
      refine ⟨fun a ha => (moves.1 a ha).trans (h.home a ha), fun y hy => ?_, h.served.readIn (fun e => (place e).symm) _⟩
      have cores : (Machine.readIn s w (va.toNat / 128) (r.pa / 128) r.key r.cm).core w.core = s.core w.core := by
        rw [State.core, moves.storeFrame.cores, State.core]
      rw [cores] at hy
      exact h.l1 y hy
    obtain rfl | rfl := ends
    · exact ⟨stands, bytes⟩
    · refine ⟨stands.l1Fill fun _ name => bytes ?_, bytes⟩
      rw [shape] at name
      exact name

/-- Each piece of a line that stands takes its bytes of memory. -/
theorem LineStands.readPieces {ps : List Placed} {rs : List (Nat × List Byte)} (h : LineStands t s w vl pl) (peer : isPeer pl = false)
    (place : ∀ q ∈ ps, q.seg.at_.toNat / 128 = vl → q.ref.key = 0 ∧ q.ref.pa / 128 = pl) (read : readPieces w alloc ps s = (u, .ok rs))
    {j : Nat} {p : Placed} {y : Nat × List Byte} (hp : ps[j]? = some p) (hy : rs[j]? = some y) (hvl : p.seg.at_.toNat / 128 = vl) :
    y.2 = ((rawBytes t (128 * pl) 128).drop (p.seg.at_.toNat % 128)).take p.seg.n := by
  induction ps generalizing s rs j with
  | nil => cases hp
  | cons q ps ih =>
    obtain ⟨v, x, rs', line, rest, rfl⟩ := readPieces_cons read
    obtain ⟨stands, bytes⟩ := h.l1Line peer (place q List.mem_cons_self) line
    cases j with
    | zero =>
      cases hp
      cases hy
      dsimp only
      rw [bytes hvl]
    | succ j => exact ih stands (fun q' hq' => place q' (List.mem_cons_of_mem _ hq')) rest hp hy

end Sys2Proof
end

section
/-!
PROOF. O10: lane loads of the global space (R232, R233, R235, R45, R132).
-/
namespace Sys2Proof
open Machine

variable {s t u : State} {f : L64} {n : Nat} {ps : List Placed} {r : List (Nat × List Byte)}

/-- A piece of an access of at most 128 bytes lies in one line. -/
theorem segsOf_inside {lane : Nat} {va : Word} (hn : n ≤ 128) {g : Seg} (hg : g ∈ segsOf lane va n) : g.at_.toNat % 128 + g.n ≤ 128 := by
  unfold segsOf at hg
  dsimp only at hg
  split at hg
  · obtain rfl := List.mem_singleton.1 hg
    assumption
  · obtain rfl | hg := List.mem_cons.1 hg
    · dsimp only
      omega
    · obtain rfl := List.mem_singleton.1 hg
      have wraps : (va + word (128 - va.toNat % 128)).toNat % 128 = 0 := by
        rw [BitVec.toNat_add, word, BitVec.toNat_ofNat]
        omega
      dsimp only
      omega

theorem laneSegs_inside {accs : List (Nat × Word)} (hn : n ≤ 128) {g : Seg} (hg : g ∈ laneSegs accs n) : g.at_.toNat % 128 + g.n ≤ 128 := by
  unfold laneSegs at hg
  obtain ⟨l, hl, hg⟩ := List.mem_flatten.1 hg
  obtain ⟨a, -, rfl⟩ := List.mem_map.1 hl
  exact segsOf_inside hn hg

theorem loadForms_le {i : Instr} {sg : Bool} (h : (i, n, sg) ∈ loadForms f) : n ≤ 128 := by
  have all : ∀ x ∈ loadForms f, x.2.1 ≤ 128 := by
    simp [loadForms]
  exact all _ h

/-- A lane load whose checks pass and whose lines are read. -/
theorem laneLoad_global (sg : Bool) (hf : f.md ≠ 4) (active : effMask s.me f ≠ 0) (checked : Checked s (laneWho s f) false .rd 0 n (accsOf s f) ps t)
    (read : readPieces (laneWho s f) (f.md == 0) ps t = (u, .ok r)) (harts : SameHarts s u) :
    laneLoad f n sg s = .ok ((), u.setHart s.cur (s.me.loaded f n sg (laneBytes r))) := by
  obtain ⟨flag, held, placed⟩ := checked
  have fetch : laneFetch f n (activeLanes s.me f) s = .ok (r, u) := by
    unfold laneFetch
    rw [bind_ok (show laneAddrs f (activeLanes s.me f) s = .ok (accsOf s f, s) from rfl), isScr_eq_false hf, if_neg Bool.false_ne_true,
      bind_ok (countOn_free flag), bind_ok (wmCheck_free held), bind_ok (show rd (laneWho · f) s = .ok (laneWho s f, s) from rfl), bind_ok placed]
    show (match readPieces (laneWho s f) (f.md == 0) ps t with
      | (s, .error e) => failRead e s
      | (s, .ok r) => .ok (r, s)) = _
    rw [read]
  unfold laneLoad
  refine (bind_ok (memStart_active active)).trans ((bind_ok fetch).trans ?_)
  show Except.ok ((), retire (u.modMe _)) = _
  rw [retire, State.modMe_modMe, State.modMe, State.modHart, ← State.me, harts.me, harts.2]
  rfl

/-- Settles O10: the bytes read go to the active lanes; a line that was held nowhere stands as memory holds it while the pieces are read. -/
theorem laneLoad : Obligations.LaneLoad := by
  unfold Obligations.LaneLoad
  intro s t u f i n sg ps r form w hf active checked read
  obtain ⟨-, -, placed⟩ := id checked
  have checks := (placeMine_sameMaker placed).sameHarts
  obtain ⟨reads, home⟩ := readPieces_leaves read
  have harts := checks.trans reads
  refine ⟨⟨s.me.loaded f n sg (laneBytes r), (exec_loadForm form s).trans (finish_ok (laneLoad_global sg hf active checked read harts)), harts.1, home,
    loadElems_loaded _ _ _ _ _, loaded_frame ..⟩, readPieces_lanes read, ?_⟩
  intro j p x hp hx key peer offset noL1 noLine place
  have stands : LineStands t t w (p.seg.at_.toNat / 128) (p.ref.pa / 128) := by
    refine ⟨fun _ _ => rfl, fun y hy tag name => absurd ⟨tag, name⟩ (noL1 y ?_), servedAt_of_none noLine _⟩
    rw [State.myCore, checks.2]
    exact hy
  have inside : p.seg.at_.toNat % 128 + p.seg.n ≤ 128 := by
    refine laneSegs_inside (accs := accsOf s f) (loadForms_le form) ?_
    rw [← placeMine_segs placed]
    exact List.mem_map_of_mem (List.mem_of_getElem? hp)
  rw [stands.readPieces peer place read hp hx rfl, rawBytes_drop_take _ _ _ _ _ inside, ← offset, Nat.div_add_mod]

end Sys2Proof
end
